-- ==== Sys2Proof/Word.lean ====
section
/-! DEFINITION. Bytes, words, little-endian conversion (R2) and the counters that stick at all ones. -/

namespace Sys2Proof

/-- One byte. -/
abbrev Byte := BitVec 8

/-- The number a little-endian byte list spells (R2: the lowest address holds the least significant bits). -/
def leNat : List Byte → Nat
  | [] => 0
  | b :: bs => b.toNat + 256 * leNat bs

/-- The `n` little-endian bytes of a number, modulo `256 ^ n` (R2). -/
def natLE : (n : Nat) → Nat → List Byte
  | 0, _ => []
  | n + 1, v => BitVec.ofNat 8 v :: natLE n (v / 256)

/-- Bits `[lo + w - 1 : lo]` of a number. -/
def bitsOf (v lo w : Nat) : Nat := v / 2 ^ lo % 2 ^ w

/-- Bit `i` of a number. -/
def bitOf (v i : Nat) : Bool := v.testBit i

/-- 1 for true, 0 for false: a flag as a number. -/
def b2n (b : Bool) : Nat := if b then 1 else 0

/-- The number read as a two's complement value of `w` bits. -/
def sgn (w v : Nat) : Int :=
  if v % 2 ^ w < 2 ^ (w - 1) then (v % 2 ^ w : Nat) else ((v % 2 ^ w : Nat) : Int) - (2 ^ w : Nat)

/-- A counter that sticks at all ones. -/
def stick {w : Nat} (x : BitVec w) (n : Nat) : BitVec w :=
  if x.toNat + n < 2 ^ w then BitVec.ofNat w (x.toNat + n) else BitVec.allOnes w

/-- Round up to a multiple of `m`. -/
def roundup (n m : Nat) : Nat := (n + m - 1) / m * m

/-- The ceiling of a quotient. -/
def cdiv (n m : Nat) : Nat := (n + m - 1) / m

/-- The 64-bit word at bits of a number, as a register value. -/
abbrev Word := BitVec 64

/-- Fields `(width, value)` packed upward from bit 0: how the register read values are composed. -/
def pack : List (Nat × Nat) → Nat
  | [] => 0
  | (w, v) :: fs => v % 2 ^ w + 2 ^ w * pack fs

end Sys2Proof
end

