-- ==== Sys2Proof/Syntax.lean ====
section
/-! DEFINITION. The commands of the block: one constructor per row of spec/opcode_table.json, in the table's order.
The table gives no operands; a constructor's operands say where the step happens (a core, die, port, context)
and what comes from outside with it (a packet, a written value, a sensor reading). -/

namespace Sys2Proof

/-- Who makes a BAR access: host port A, host port B, or context 0 inside the device (R5, R319). -/
inductive Party where
  | portA | portB | fw
deriving DecidableEq, Repr, Inhabited

/-- Check-code condition of a received word (R233): good, single-bit error, uncorrectable. -/
inductive WordCheck where
  | good | single | double
deriving DecidableEq, Repr, Inhabited

/-- A fabric packet (R228, R229): the header fields, the data words, the two signal words, and the check condition of each word (`header`,
`header1`, `checks`, `sigc0`, `sigc1`; a data word not listed is good). LEN says how many words the data are; `nbytes` how many bytes from ADDR upward
they carry, where the last ends within a word; R228 names no field for it (log 17). -/
structure FabPkt where
  typ     : BitVec 6
  genp    : Bool
  fwd     : Bool
  src     : BitVec 6
  dst     : BitVec 6
  ctx     : BitVec 10
  len     : BitVec 6
  nbytes  : Nat
  xtag    : BitVec 12
  att     : Bool
  fmt     : BitVec 3
  status  : BitVec 8
  addr    : BitVec 64
  data    : List (BitVec 64)
  checks  : List WordCheck
  header  : WordCheck
  sig0    : BitVec 64
  sig1    : BitVec 64
  header1 : WordCheck := .good
  sigc0   : WordCheck := .good
  sigc1   : WordCheck := .good
deriving DecidableEq, Repr, Inhabited

/-- A fabric frame (R227): link control of word 0, the packets it completes, whether its CRC-32 and the check bits of word 0 hold (log 27), and the
symbols that the FEC corrected in it (R244). -/
structure Frame where
  seq      : BitVec 12
  ackseq   : BitVec 12
  nak      : Bool
  train    : Bool
  credit   : Nat
  creditVc : BitVec 2
  crcOk    : Bool
  pkts     : List FabPkt
  fec      : Nat := 0
deriving DecidableEq, Repr, Inhabited

/-- A received RoCEv2 packet (R238): local queue-pair number, PSN, whether its invariant CRC holds, payload, and for an ACK or NAK
whether it is a NAK and whether that NAK is for a sequence error; the symbols that the FEC corrected in its frame (R244). -/
structure RocePkt where
  qpn     : BitVec 24
  psn     : BitVec 24
  icrcOk  : Bool
  nak     : Bool
  seqErr  : Bool
  last    : Bool
  payload : List Byte
  fec     : Nat := 0
deriving DecidableEq, Repr, Inhabited

/-- A Fold: die Fold `f` of die `d`, or device Fold `f` (R279). -/
inductive FoldId where
  | die (d f : Nat) | dev (f : Nat)
deriving DecidableEq, Repr, Inhabited

/-- A unit that holds configuration (R30). -/
inductive CfgUnit where
  | core (n : Nat) | lane (l : Nat) | mport (m : Nat) | oport (p : Nat)
deriving DecidableEq, Repr, Inhabited

/-- A temperature reading (R335): sensor kind and index as PWR_TEMP numbers them, and degrees Celsius. -/
structure Reading where
  kind  : Nat
  index : Nat
  temp  : Nat
deriving DecidableEq, Repr, Inhabited

/-- One command per row of spec/opcode_table.json. -/
inductive Instr where
  | stage (who : Party)
  | verificationEnd
  | apply (who : Party)
  | abort (who : Party)
  | persist (who : Party)
  | persistEnd (readBackOk : Bool)
  | unitAdopt (u : CfgUnit) (faults : Bool)
  | windowExpiry
  | rollbackWindowExpiry
  | loadingAtBoot
  | cclkChange (die plan : Nat)
  | ringIntakeRead (c k : Nat)
  | recordDelivery (die c : Nat)
  | droverSelect (core e : Nat)
  | nop (core e : Nat)
  | matmul (core : Nat)
  | vecop (core : Nat)
  | vecred (core : Nat)
  | update (core : Nat)
  | copy (core : Nat)
  | push (core : Nat)
  | pop (core : Nat)
  | woodpileWriteback (core : Nat)
  | hotWindowMove (core : Nat)
  | gather (core : Nat)
  | gatherSliceIssue (core : Nat) (matrixReady : Bool)
  | gshareWindowStart (core : Nat)
  | gatherTileWriteback (core : Nat)
  | gatherHeaderWrite (core : Nat)
  | signal (core e : Nat)
  | wait (core e : Nat)
  | waitEvaluation (core e c : Nat)
  | pollIntervalExpiry (host : List (Nat × Byte))
  | lineInvalidation (line : Nat) (host : List (Nat × Byte))
  | waitTimeout (core e c : Nat)
  | commandComplete (core e : Nat)
  | completionRecordRelease (core c : Nat)
  | completionWriteRetry (c : Nat)
  | coreStateReq (who : Party) (core : Nat) (req : BitVec 2)
  | serviceStateAdopt (core : Nat)
  | scratchpadWriteback (core : Nat)
  | coreSlot (who : Party) (core i : Nat) (value : BitVec 64)
  | tileFillStart (core t : Nat)
  | totalsFinal (core t : Nat)
  | epilogueStart (core t : Nat)
  | bufferEmpty (core t : Nat)
  | ibatch (die c : Nat)
  | entryDispatch (die : Nat)
  | entryComputeEnd (die lane : Nat)
  | headerCommit (die lane : Nat)
  | deadlineReached (die lane : Nat) (iters : Nat)
  | batchComplete (die : Nat)
  | promotion (tile die : Nat)
  | tileMove (tile slice : Nat)
  | moveEnd (channel : Nat)
  | moveIn
  | moveOut
  | report
  | pinMove (m : Nat)
  | scrubRead (m : Nat)
  | retirementCopy (cls : Nat)
  | mpRelease (who : Party) (m : Nat) (value : BitVec 64)
  | rangeInitEnd (m : Nat)
  | frameReceive (p : Nat) (f : Frame)
  | resendTimeout (p : Nat)
  | write (p : Nat)
  | add (p : Nat)
  | readreq (p : Nat)
  | signalPacket (p : Nat)
  | readrsp (p : Nat)
  | ack (p : Nat)
  | time (p : Nat)
  | timeSend (p : Nat)
  | sync (p : Nat)
  | syncRepeat (f : Nat)
  | ackTimeout (xtag : Nat)
  | routePathChange (rank : Nat)
  | linkTraining (p peerRank peerPeer peerGen : Nat)
  | trainingRetry (p : Nat)
  | arpRequest (p : Nat) (target : List Byte) (sender : List Byte)
  | neighbourSolicitation (p : Nat) (target : List Byte) (sender : List Byte)
  | pause (p prio quanta : Nat)
  | readResponse (p : Nat) (pkt : RocePkt)
  | ackOrNak (p : Nat) (pkt : RocePkt)
  | requestPacket (p : Nat) (pkt : RocePkt)
  | cnp (p : Nat)
  | qpTimeout (p qp : Nat)
  | recal (who : Party) (p : Nat)
  | retrain (who : Party) (p : Nat)
  | cleartrip (who : Party) (p : Nat)
  | trackingError (p : Nat)
  | errorRatioTrigger (p : Nat)
  | calibrationSweep (p : Nat)
  | lsRecal (who : Party) (q : Nat)
  | lockLoss (q line : Nat)
  | eyeSafetyTrip (p line : Nat) (launch : BitVec 8)
  | reduce (e : Nat)
  | allgather (e : Nat)
  | allreduce (e : Nat)
  | permute (e : Nat)
  | permuteWritePhase (e i : Nat)
  | settle (e : Nat)
  | normfin (e : Nat)
  | normfinReduce (e i : Nat)
  | sumBegin (e i : Nat)
  | collectiveTimeout (e i : Nat)
  | foldCfg (who : Party) (f : FoldId) (value : BitVec 64)
  | foldMask (who : Party) (f : FoldId) (high : Bool) (value : BitVec 64)
  | raise (who : Party) (i : Nat) (kind : BitVec 3) (target : BitVec 32)
  | lift (who : Party) (i : Nat)
  | quiesced (i : Nat)
  | create (who : Party) (c : Nat)
  | destroy (who : Party) (c : Nat)
  | destroyComplete (c : Nat)
  | ringEnable (who : Party) (c k : Nat) (value : BitVec 64)
  | ringDisable (who : Party) (c k : Nat) (value : BitVec 64)
  | consumerIndexWrite (c k : Nat)
  | ringRateDefer (c : Nat)
  | request (c : Nat)
  | servingStep (c : Nat) (ended : List Nat)
  | ctxServe (who : Party) (c : Nat) (value : BitVec 64)
  | manifest (c : Nat)
  | load (c : Nat)
  | tileDigestCheck (c : Nat)
  | digest (c : Nat)
  | hostLinkTraining (port : Party) (mode : BitVec 2) (speed : BitVec 3) (width : BitVec 5)
  | hotReset (port : Party)
  | bar2Access (port : Party) (offset len : Nat) (data : Option (List Byte))
  | hpxHdm (who : Party) (port : Party) (value : BitVec 64)
  | windowMove (w : Nat)
  | acquire (who : Party) (i : Nat) (ctx : BitVec 10) (lease : BitVec 12)
  | release (who : Party) (i : Nat) (ctx : BitVec 10) (key : BitVec 16)
  | renew (who : Party) (i : Nat) (ctx : BitVec 10) (key : BitVec 16) (lease : BitVec 12)
  | leaseExpiry (i : Nat)
  | powerOn
  | softStart (stage : Nat)
  | pwrfail
  | pin
  | vin
  | stageFault (stage : Nat)
  | refloss
  | vbakFault
  | resetRelease
  | resetExit
  | pllLock
  | pinGlitch (pwrOk : Bool)
  | powerSample (vin iin vbak : Nat)
  | throttleDecay
  | throttleWindow (die : Nat)
  | temperatureReading (rs : List Reading)
  | evtInEdge (k : Nat) (rising : Bool)
  | pulse (who : Party) (mask : BitVec 4)
  | program (who : Party)
  | firmwareBoot
  | attest (who : Party)
  | cert (who : Party)
  | fwverify (who : Party)
  | enrol (who : Party) (slot : BitVec 5)
  | revoke (who : Party) (slot : BitVec 5)
  | fusesvn (who : Party)
  | openDebug (who : Party)
  | jtagInstruction (ir : Nat)
  | readWord (code : BitVec 8)
  | smbusClockTimeout
  | tallyQueueWrite (unit : Nat)
  | crossTrigger
  | tlyFreeze (who : Party) (unit : Nat)
  | rearm (who : Party) (unit : Nat)
  | blackBoxWrite
  | bbxFreeze (who : Party)
  | unfreeze (who : Party)
  | deviceScopeReset (who : Party)
  | contextScopeReset (who : Party) (c : Nat)
  | go (who : Party) (c : Nat)
  | counterClear (ctx : Option Nat)
  | firmwareReport (t : Nat)
  | watchdogExpiry (t : Nat)
  | coreTest (core : Nat) (passed : Bool)
  | activate (who : Party) (target : BitVec 4)
  | handoverComplete
  | activationTimeout
  | registerWrite (who : Party) (offset size : Nat) (value : BitVec 64)
  | registerRead (who : Party) (offset size : Nat)
  | droppedFrame (p : Nat)
  | smbusWrite (code : BitVec 8)
  | testAccessPortReset
deriving DecidableEq, Repr

end Sys2Proof
end

