-- ==== Sys2Proof/Decode.lean ====
section
/-! DEFINITION. The decoder of the opcode table's words: the table gives no row of this block any bits, so no word spells
a command (log 11). -/

namespace Sys2Proof

/-- The command a word spells: none, since spec/opcode_table.json lists no field for any row. -/
def decodeTableWord (_nbits _w : Nat) : Option Instr := none

end Sys2Proof
end

