-- ==== Sys2Proof/Machine/Num.lean ====
section
/-! DEFINITION. Number formats, conversion, FP32 arithmetic, stochastic rounding and the Evulan generator (03; R64 for exp and tanh). -/

namespace Sys2Proof.Machine

/-- An FP32 code. -/
abbrev F32 := BitVec 32

/-- An exact decoded value (R42): NaN, an infinity, or a sign with magnitude `m * 2 ^ e`; a zero keeps its sign (R39). -/
inductive Val where
  | nan
  | inf (neg : Bool)
  | fin (neg : Bool) (m : Nat) (e : Int)
deriving DecidableEq, Repr, Inhabited

/-- A binary floating-point format: exponent bits, fraction bits, bias, largest finite magnitude code, whether it has infinities,
canonical NaN (R38, R39). -/
structure FpFmt where
  eb   : Nat
  fb   : Nat
  bias : Nat
  maxc : Nat
  hasInf : Bool
  cnan : Nat

def fp32f : FpFmt := { eb := 8, fb := 23, bias := 127, maxc := 0x7F7F_FFFF, hasInf := true, cnan := 0x7FC0_0000 }
def bf16f : FpFmt := { eb := 8, fb := 7, bias := 127, maxc := 0x7F7F, hasInf := true, cnan := 0x7FC0 }
def fp16f : FpFmt := { eb := 5, fb := 10, bias := 15, maxc := 0x7BFF, hasInf := true, cnan := 0x7E00 }
def e4m3f : FpFmt := { eb := 4, fb := 3, bias := 7, maxc := 0x7E, hasInf := false, cnan := 0x7F }
def e5m2f : FpFmt := { eb := 5, fb := 2, bias := 15, maxc := 0x7B, hasInf := true, cnan := 0x7E }

/-- The exponent of a format's smallest step. -/
def FpFmt.emin (f : FpFmt) : Int := 1 - (f.bias : Int) - (f.fb : Int)

/-- The exact value of a code of a binary format (R38). -/
def FpFmt.decode (f : FpFmt) (c : Nat) : Val :=
  let w := f.eb + f.fb
  let neg := bitOf c w
  let ex := bitsOf c f.fb f.eb
  let fr := c % 2 ^ f.fb
  if c % 2 ^ w > f.maxc then
    if f.hasInf && fr == 0 then .inf neg else .nan
  else if ex == 0 then .fin neg fr f.emin
  else .fin neg (fr + 2 ^ f.fb) (f.emin + (ex : Int) - 1)

/-- Rounding of `m * 2 ^ e` to nearest, ties to even, on the grid of significands of `p` bits whose step is at least `2 ^ emin`,
without an upper end ("unbounded rounding", R43): the pair `(n, q)` stands for `n * 2 ^ q`. -/
def roundGrid (p : Nat) (emin : Int) (m : Nat) (e : Int) : Nat × Int :=
  if m = 0 then (0, emin) else
  let top := (Nat.log2 m : Int) + e - ((p : Int) - 1)
  let q := max emin top
  if q ≤ e then (m * 2 ^ (e - q).toNat, q) else
  let s := (q - e).toNat
  let lo := m / 2 ^ s
  let rem := m % 2 ^ s
  let half := 2 ^ (s - 1)
  if rem > half ∨ (rem = half ∧ lo % 2 = 1) then (lo + 1, q) else (lo, q)

/-- Magnitude code of a rounded finite value; it may exceed the format's largest finite code. -/
def FpFmt.magCode (f : FpFmt) (m : Nat) (e : Int) : Nat :=
  let r := roundGrid (f.fb + 1) f.emin m e
  (r.2 - f.emin).toNat * 2 ^ f.fb + r.1

/-- Sign bit of a format. -/
def FpFmt.signBit (f : FpFmt) (neg : Bool) : Nat := if neg then 2 ^ (f.eb + f.fb) else 0

/-- What a conversion adds to the counters of R46: the code, whether it saturated, whether a NaN was squashed. -/
structure Conv where
  code : Nat
  sat  : Bool := false
  nan  : Bool := false
deriving DecidableEq, Repr, Inhabited

/-- Encode under the rules of R43 for the binary formats. -/
def FpFmt.encode (f : FpFmt) : Val → Conv
  | .nan => { code := f.cnan }
  | .inf neg => if f.hasInf then { code := f.signBit neg + f.maxc + 1 } else { code := f.signBit neg + f.maxc, sat := true }
  | .fin neg m e =>
    let c := f.magCode m e
    if c > f.maxc then { code := f.signBit neg + f.maxc, sat := true } else { code := f.signBit neg + c }

/-- An FP32 arithmetic result: overflow is an infinity and is not counted (R42). -/
def enc32 : Val → F32
  | .nan => 0x7FC0_0000
  | .inf neg => BitVec.ofNat 32 (fp32f.signBit neg + 0x7F80_0000)
  | .fin neg m e =>
    let c := fp32f.magCode m e
    BitVec.ofNat 32 (fp32f.signBit neg + (if c > fp32f.maxc then 0x7F80_0000 else c))

/-- The exact value of an FP32 code. -/
def dec32 (x : F32) : Val := fp32f.decode x.toNat

/-! ### Exact arithmetic on values -/

def Val.neg : Val → Val
  | .nan => .nan
  | .inf s => .inf (!s)
  | .fin s m e => .fin (!s) m e

def Val.abs : Val → Val
  | .nan => .nan
  | .inf _ => .inf false
  | .fin _ m e => .fin false m e

def Val.isZero : Val → Bool
  | .fin _ m _ => m == 0
  | _ => false

def Val.isFinite : Val → Bool
  | .fin _ _ _ => true
  | _ => false

def Val.isNan : Val → Bool
  | .nan => true
  | _ => false

/-- The signed integer of a finite value in units of `2 ^ e0`, for `e0` not above its exponent. -/
def scaled (neg : Bool) (m : Nat) (e e0 : Int) : Int :=
  let v : Int := (m * 2 ^ (e - e0).toNat : Nat)
  if neg then -v else v

/-- A value from a signed integer in units of `2 ^ e`; `z` is the sign of a zero. -/
def ofScaled (v : Int) (e : Int) (z : Bool) : Val :=
  if v = 0 then .fin z 0 e else .fin (v < 0) v.natAbs e

/-- Exact sum; two zeros or an exact cancellation give +0 unless both operands are negative (IEEE 754, R42). -/
def Val.add : Val → Val → Val
  | .nan, _ => .nan
  | _, .nan => .nan
  | .inf a, .inf b => if a = b then .inf a else .nan
  | .inf a, .fin _ _ _ => .inf a
  | .fin _ _ _, .inf b => .inf b
  | .fin sa ma ea, .fin sb mb eb =>
    let e0 := min ea eb
    ofScaled (scaled sa ma ea e0 + scaled sb mb eb e0) e0 (sa && sb)

def Val.mul : Val → Val → Val
  | .nan, _ => .nan
  | _, .nan => .nan
  | .inf a, .inf b => .inf (a != b)
  | .inf a, .fin s m _ => if m = 0 then .nan else .inf (a != s)
  | .fin s m _, .inf b => if m = 0 then .nan else .inf (s != b)
  | .fin sa ma ea, .fin sb mb eb => .fin (sa != sb) (ma * mb) (ea + eb)

/-- Quotient, exact up to a sticky last bit far below every rounding position. -/
def Val.div : Val → Val → Val
  | .nan, _ => .nan
  | _, .nan => .nan
  | .inf _, .inf _ => .nan
  | .inf a, .fin s _ _ => .inf (a != s)
  | .fin s _ e, .inf b => .fin (s != b) 0 e
  | .fin sa ma ea, .fin sb mb eb =>
    if mb = 0 then (if ma = 0 then .nan else .inf (sa != sb))
    else if ma = 0 then .fin (sa != sb) 0 0
    else
      let k := 64 + Nat.log2 mb
      let n := ma * 2 ^ k
      .fin (sa != sb) (2 * (n / mb) + (if n % mb = 0 then 0 else 1)) (ea - eb - (k : Int) - 1)

/-- Integer square root by bits, from bit `n` down: the largest `r` with `r * r ≤ v`, for `v < 4 ^ (n + 1)`. -/
def isqrtFrom (v : Nat) : Nat → Nat → Nat
  | 0, r => if (r + 1) * (r + 1) ≤ v then r + 1 else r
  | n + 1, r =>
    let c := r + 2 ^ (n + 1)
    isqrtFrom v n (if c * c ≤ v then c else r)

def isqrt (v : Nat) : Nat := isqrtFrom v (Nat.log2 v / 2 + 1) 0

/-- Square root, exact up to a sticky last bit; a negative nonzero operand gives NaN, −0 gives −0. -/
def Val.sqrt : Val → Val
  | .nan => .nan
  | .inf s => if s then .nan else .inf false
  | .fin s m e =>
    if m = 0 then .fin s 0 e
    else if s then .nan
    else
      let odd := e % 2 ≠ 0
      let m' := (if odd then 2 * m else m) * 2 ^ 80
      let e' := (if odd then e - 1 else e) - 80
      let r := isqrt m'
      .fin false (2 * r + (if r * r = m' then 0 else 1)) (e' / 2 - 1)

/-- Comparison of two values that are not NaN: `a < b` numerically, −0 equal to +0 (R409). -/
def Val.lt : Val → Val → Bool
  | .nan, _ => false
  | _, .nan => false
  | .inf a, .inf b => a && !b
  | .inf a, .fin _ _ _ => a
  | .fin _ _ _, .inf b => !b
  | .fin sa ma ea, .fin sb mb eb =>
    let e0 := min ea eb
    scaled sa ma ea e0 < scaled sb mb eb e0

def Val.eqv (a b : Val) : Bool := !a.isNan && !b.isNan && !a.lt b && !b.lt a

/-- The sign of a value. -/
def Val.sign : Val → Bool
  | .nan => false
  | .inf s => s
  | .fin s _ _ => s

/-- max of R42: NaN if either operand is, max(−0, +0) = +0. -/
def Val.max (a b : Val) : Val :=
  if a.isNan || b.isNan then .nan
  else if a.lt b then b else if b.lt a then a
  else if a.sign then b else a

/-- min of R42: NaN if either operand is, min(−0, +0) = −0. -/
def Val.min (a b : Val) : Val :=
  if a.isNan || b.isNan then .nan
  else if a.lt b then a else if b.lt a then b
  else if a.sign then a else b

/-! ### FP32 operations (R42): one rounding each -/

def fadd (a b : F32) : F32 := enc32 ((dec32 a).add (dec32 b))
def fsub (a b : F32) : F32 := enc32 ((dec32 a).add (dec32 b).neg)
def fmul (a b : F32) : F32 := enc32 ((dec32 a).mul (dec32 b))
def ffma (a b c : F32) : F32 := enc32 (((dec32 a).mul (dec32 b)).add (dec32 c))
def fdiv (a b : F32) : F32 := enc32 ((dec32 a).div (dec32 b))
def fsqrt (a : F32) : F32 := enc32 (dec32 a).sqrt
def fmax (a b : F32) : F32 := enc32 ((dec32 a).max (dec32 b))
def fmin (a b : F32) : F32 := enc32 ((dec32 a).min (dec32 b))
def fabs (a : F32) : F32 := enc32 (dec32 a).abs
def fneg (a : F32) : F32 := enc32 (dec32 a).neg
def flt (a b : F32) : Bool := (dec32 a).lt (dec32 b)
/-- `a ≤ b`, false when either is NaN. -/
def fle (a b : F32) : Bool := !(dec32 a).isNan && !(dec32 b).isNan && !(dec32 b).lt (dec32 a)
def ffinite (a : F32) : Bool := (dec32 a).isFinite
/-- Numerically zero: both zeros (R409). -/
def fzero (a : F32) : Bool := (dec32 a).isZero
/-- Numerically above zero. -/
def fpos (a : F32) : Bool := flt 0 a
/-- The FP32 value of a natural number, rounded to nearest. -/
def fnat (n : Nat) : F32 := enc32 (.fin false n 0)
def f32one : F32 := 0x3F80_0000

/-! ### exp and tanh, correctly rounded (R64; log 10) -/

/-- Fixed-point precision of the series below. -/
def fxp : Nat := 512

/-- `1 + t + t^2/2! + …` in fixed point, `n` further terms after term number `i`. -/
def expSeries (t : Nat) : Nat → Nat → Nat → Nat
  | 0, _, _ => 0
  | n + 1, i, term =>
    let next := term * t / 2 ^ fxp / (i + 1)
    term + expSeries t n (i + 1) next

/-- Repeated squaring in fixed point. -/
def sqRep : Nat → Nat → Nat
  | 0, x => x
  | n + 1, x => sqRep n (x * x / 2 ^ fxp)

/-- exp of `m * 2 ^ e`, in units of `2 ^ (-fxp)`, for arguments up to 256. -/
def expFix (m : Nat) (e : Int) : Nat :=
  let t := if 0 ≤ e + (fxp : Int) - 8 then m * 2 ^ (e + (fxp : Int) - 8).toNat else 0
  sqRep 8 (expSeries t 110 0 (2 ^ fxp))

/-- exp (R64): special values, +infinity beyond the range, +0 below it. -/
def Val.exp : Val → Val
  | .nan => .nan
  | .inf s => if s then .fin false 0 0 else .inf false
  | .fin s m e =>
    if m = 0 then .fin false 1 0
    else if Val.lt (.fin false 128 0) (.fin false m e) then (if s then .fin false 0 0 else .inf false)
    else
      let y := expFix m e
      if s then .fin false (2 * (2 ^ (2 * fxp) / y) + 1) (-(fxp : Int) - 1)
      else .fin false (2 * y + 1) (-(fxp : Int) - 1)

/-- tanh (R64). -/
def Val.tanh : Val → Val
  | .nan => .nan
  | .inf s => .fin s 1 0
  | .fin s m e =>
    if m = 0 then .fin s 0 e
    else if Val.lt (.fin false 16 0) (.fin false m e) then .fin s 1 0
    else
      let y := expFix m (e + 1)
      .fin s (2 * ((y - 2 ^ fxp) * 2 ^ fxp / (y + 2 ^ fxp)) + 1) (-(fxp : Int) - 1)

def fexp (a : F32) : F32 := enc32 (dec32 a).exp
def ftanh (a : F32) : F32 := enc32 (dec32 a).tanh

/-! ### L16 (R41, R45) -/

/-- The largest `a` with `a ^ 256 ≤ b`, by bits from `n` down. -/
def root256 (b : Nat) : Nat → Nat → Nat
  | 0, r => if (r + 1) ^ 256 ≤ b then r + 1 else r
  | n + 1, r => root256 b n (if (r + 2 ^ (n + 1)) ^ 256 ≤ b then r + 2 ^ (n + 1) else r)

/-- M[k] of R41: the integer nearest to `2 ^ (23 + k / 256)`. -/
def l16M (k : Nat) : Nat := (root256 (2 ^ (24 * 256 + k)) 24 0 + 1) / 2

/-- The exact value of an L16 code, extended upward by V(0x1_0000) = 2 ^ 128 (R41, R45): mantissa and exponent. -/
def l16V (c : Nat) : Nat × Int :=
  if c = 0 then (0, 0) else
  let j : Int := (c : Int) - 32768
  (l16M (j % 256).toNat, j / 256 - 23)

/-- The largest `k`, by bits, for which M[k] does not exceed `v * 2 ^ s`, given as a comparison. -/
def l16K (le : Nat → Bool) : Nat → Nat → Nat
  | 0, k => if le (k + 1) then k + 1 else k
  | n + 1, k => l16K le n (if le (k + 2 ^ (n + 1)) then k + 2 ^ (n + 1) else k)

/-- The code `c` with V(c) ≤ v < V(c + 1) for a positive value below 2 ^ 128 (R45 step 1). -/
def l16Floor (m : Nat) (e : Int) : Nat :=
  let ee := (Nat.log2 m : Int) + e
  if ee < -128 then 0 else
  let le := fun k => !Val.lt (.fin false m e) (.fin false (l16M k) (ee - 23))
  let k := l16K le 7 0
  (256 * ee + 32768).toNat + k

/-- Encode into L16 to nearest, ties to the even code (R43, R45). -/
def encL16 : Val → Conv
  | .nan => { code := 0, nan := true }
  | .inf s => if s then { code := 0, sat := true } else { code := 0xFFFF, sat := true }
  | .fin s m e =>
    if m = 0 then { code := 0 }
    else if s then { code := 0, sat := true }
    else if 128 ≤ (Nat.log2 m : Int) + e then { code := 0xFFFF, sat := true }
    else
      let c := l16Floor m e
      let lo := l16V c
      let hi := l16V (c + 1)
      let v := Val.fin false m e
      let down := v.add (.fin true lo.1 lo.2)
      let up := (Val.fin false hi.1 hi.2).add v.neg
      let r := if down.lt up then c else if up.lt down then c + 1 else if c % 2 = 0 then c else c + 1
      if r = 0x1_0000 then { code := 0xFFFF, sat := true } else { code := r }

/-! ### The eight formats (R38) -/

/-- Bytes of an element; B4 moves as blocks of 17 bytes (R40, R208). -/
def fmtSize (f : Nat) : Nat :=
  match f with
  | 0 => 4 | 1 => 2 | 2 => 2 | 3 => 1 | 4 => 1 | 5 => 1 | 6 => 17 | _ => 2

/-- The exact value of an element's code (R38, R41); B4 elements are decoded with their block (R40). -/
def decode (f c : Nat) : Val :=
  match f with
  | 0 => fp32f.decode (c % 2 ^ 32)
  | 1 => bf16f.decode (c % 2 ^ 16)
  | 2 => fp16f.decode (c % 2 ^ 16)
  | 3 => e4m3f.decode (c % 2 ^ 8)
  | 4 => e5m2f.decode (c % 2 ^ 8)
  | 5 => let v := sgn 8 c; .fin (v < 0) v.natAbs 0
  | 6 => .nan
  | _ => let v := l16V (c % 2 ^ 16); .fin false v.1 v.2

/-- Encode into INT8 (R43). -/
def encInt8 : Val → Conv
  | .nan => { code := 0, nan := true }
  | .inf s => { code := if s then 0x80 else 0x7F, sat := true }
  | .fin s m e =>
    let r := roundGrid (Nat.log2 m + 1 + e.toNat) 0 m e
    let n := r.1 * 2 ^ r.2.toNat
    if s then (if n > 128 then { code := 0x80, sat := true } else { code := (256 - n) % 256 })
    else if n > 127 then { code := 0x7F, sat := true } else { code := n }

/-- Encode one element to nearest (R43). -/
def encode (f : Nat) (v : Val) : Conv :=
  match f with
  | 0 => fp32f.encode v
  | 1 => bf16f.encode v
  | 2 => fp16f.encode v
  | 3 => e4m3f.encode v
  | 4 => e5m2f.encode v
  | 5 => encInt8 v
  | 6 => { code := 0 }
  | _ => encL16 v

/-- An element's code read into FP32 (R42): the conversion to FP32. -/
def toF32 (f c : Nat) : F32 := BitVec.ofNat 32 (fp32f.encode (decode f c)).code

/-! ### B4 (R40, R44) -/

/-- E2M1 magnitude in halves. -/
def e2m1 (m : Nat) : Nat :=
  match m with
  | 0 => 0 | 1 => 1 | 2 => 2 | 3 => 3 | 4 => 4 | 5 => 6 | 6 => 8 | _ => 12

/-- Decode element `i` of a 17-byte block. -/
def b4Decode (blk : List Byte) (i : Nat) : Val :=
  let b := (blk.getD (i / 2) 0).toNat
  let n := if i % 2 = 0 then b % 16 else b / 16
  let sc := (blk.getD 16 0).toNat
  if sc = 0xFF then .nan else .fin (bitOf n 3) (e2m1 (n % 8)) ((sc : Int) - 127 - 1)

/-- The magnitude code nearest to `m * 2 ^ e` on the E2M1 grid, ties to the even fraction bit, with the grid extended beyond 6:
`none` above 6 (R44; 7 ties between 6 and 8). -/
def roundE2m1 (m : Nat) (e : Int) : Option Nat :=
  let r := roundGrid 2 (-1) m e
  let n := r.1 * 2 ^ (r.2 + 1).toNat
  match n with
  | 0 => some 0 | 1 => some 1 | 2 => some 2 | 3 => some 3 | 4 => some 4 | 6 => some 5 | 8 => some 6 | 12 => some 7
  | _ => none

/-- Encode a block of 32 exact values: 17 bytes, saturations, NaN-squashes (R44). -/
def b4Encode (xs : List Val) : List Byte × Nat × Nat :=
  let ys := xs.map fun x => if x.isNan then Val.fin false 0 0 else x
  let nan := (xs.filter Val.isNan).length
  let amax := ys.foldl (fun a x => if x.isFinite && a.lt x.abs then x.abs else a) (Val.fin false 0 0)
  let e : Int := match amax with
    | .fin _ m ex => if m = 0 then 0 else
        let g := (Nat.log2 m : Int) + ex - 2
        if !Val.lt (.fin false 6 g) amax then g else g + 1
    | _ => 0
  let e := max (-127) (min e 127)
  let qs := ys.map fun x => match x with
    | .fin s m ex => match roundE2m1 m (ex - e) with
        | some c => (c + (if s then 8 else 0), 0)
        | none => (7 + (if s then 8 else 0), 1)
    | .inf s => (7 + (if s then 8 else 0), 1)
    | .nan => (0, 0)
  let cs := qs.map (·.1)
  let body := (List.range 16).map fun i => BitVec.ofNat 8 (cs.getD (2 * i) 0 + 16 * cs.getD (2 * i + 1) 0)
  (body ++ [BitVec.ofNat 8 (e + 127).toNat], (qs.map (·.2)).sum, nan)

/-! ### Stochastic rounding (R48) and the Evulan generator (R49, R50) -/

/-- Whether `r * (hi - lo) < (a - lo) * 65536` (R48 step 4). -/
def srUp (r : Nat) (a lo hi : Val) : Bool :=
  let step := hi.add lo.neg
  let dist := a.add lo.neg
  Val.lt ((Val.fin false r 0).mul step) (dist.mul (.fin false 65536 0))

/-- Stochastic rounding of an FP32 value into BF16 with the 16-bit integer `r` (R48). -/
def srBf16 (x : F32) (r : Nat) : Conv :=
  let v := dec32 x
  let near := bf16f.encode v
  match v with
  | .nan => near
  | .inf _ => near
  | .fin s m e =>
    if near.sat then near else
    if m = 0 then near else
    let q := max bf16f.emin ((Nat.log2 m : Int) + e - 7)
    let lo := if q ≤ e then m * 2 ^ (e - q).toNat else m / 2 ^ (q - e).toNat
    let up := srUp r (.fin false m e) (.fin false lo q) (.fin false (lo + 1) q)
    let c := (q - bf16f.emin).toNat * 2 ^ 7 + (if up then lo + 1 else lo)
    if c > bf16f.maxc then { code := bf16f.signBit s + bf16f.maxc, sat := true } else { code := bf16f.signBit s + c }

/-- Stochastic rounding of an FP32 value into L16 (R48). -/
def srL16 (x : F32) (r : Nat) : Conv :=
  let v := dec32 x
  let near := encL16 v
  match v with
  | .nan => near
  | .inf _ => near
  | .fin s m e =>
    if near.sat || m == 0 || s then near else
    let c := l16Floor m e
    let lo := l16V c
    let hi := l16V (c + 1)
    let up := srUp r v (.fin false lo.1 lo.2) (.fin false hi.1 hi.2)
    let c' := if up then c + 1 else c
    if c' = 0x1_0000 then { code := 0xFFFF, sat := true } else { code := c' }

/-- One round of the generator on its four words (R50). -/
def evRound (k : Nat → Nat) (i : Nat) (x : List Nat) : List Nat :=
  let rotl := fun (v n : Nat) => (v * 2 ^ n + v / 2 ^ (16 - n)) % 65536
  let rotr := fun (v n : Nat) => (v / 2 ^ n + v % 2 ^ n * 2 ^ (16 - n)) % 65536
  let rk := (k (i % 4) + i * 0x9E37) % 65536
  match x with
  | [x0, x1, x2, x3] =>
    let x0 := (rotr x0 7 + x1) % 65536 ^^^ rk
    let x1 := rotl x1 2 ^^^ x0
    let x2 := (rotr x2 7 + x3) % 65536 ^^^ (rk ^^^ 0xFFFF)
    let x3 := rotl x3 2 ^^^ x2
    [x0, x3, x2, x1]
  | _ => x

/-- The Evulan output for key and counter (R50). -/
def evulan (key ctr : Nat) : Nat :=
  let w := fun (v j : Nat) => v / 2 ^ (16 * j) % 65536
  let x := (List.range 8).foldl (fun x i => evRound (w key) i x) [w ctr 0, w ctr 1, w ctr 2, w ctr 3]
  pack (x.map fun v => (16, v))

/-- The random integer of an element (R49): seed, tensor identifier, step, stream, element index. -/
def rndOf (seed tensor step stream idx : Nat) : Nat :=
  let key := Nat.xor seed (tensor * 2 ^ 32)
  let ctr := step * 2 ^ 32 + stream * 2 ^ 30 + idx / 4 % 2 ^ 30
  evulan key ctr / 2 ^ (16 * (idx % 4)) % 65536

end Sys2Proof.Machine
end

