-- ==== Sys2Proof/Machine/Flags.lean ====
section
/-! DEFINITION. Completion status: the codes of R8 and of the chapters that add to them, and the choice of one status when several
conditions hold (R10, R392). -/

namespace Sys2Proof.Machine

open Sys2Proof

/-- A completion status (R8). -/
abbrev Status := BitVec 8

def stDone : Status := 0x00
def stSaturated : Status := 0x01
def stStale : Status := 0x02
def stCold : Status := 0x03
def stPartial : Status := 0x04
def stLateAdded : Status := 0x05
def stCut : Status := 0x06
def stSkipped : Status := 0x07
def stShort : Status := 0x08
def stClamped : Status := 0x09
def stMode : Status := 0x10
def stDescriptor : Status := 0x11
def stAlias : Status := 0x12
def stBounds : Status := 0x13
def stPrivilege : Status := 0x14
def stGeneration : Status := 0x15
def stDeadline : Status := 0x30
def stFenced : Status := 0x31
def stDropped : Status := 0x32
def stBreakdown : Status := 0x33
def stNonfinite : Status := 0x34
def stRatio : Status := 0x35
def stDigest : Status := 0x36
def stEcc : Status := 0x40
def stLink : Status := 0x41
def stTimeout : Status := 0x42

/-- Whether a status lies in the Refused class (R8). -/
def refusedClass (st : Status) : Bool := 0x10 ≤ st.toNat && st.toNat ≤ 0x2F

/-- Whether a status lies in the Done class (R8). -/
def doneClass (st : Status) : Bool := st.toNat ≤ 0x0F

/-- The order of R392, highest first: Fault, Aborted, Done. -/
def statusOrder : List Status :=
  [stEcc, stLink, stTimeout, stFenced, stDeadline, stBreakdown, stNonfinite, stRatio, stDigest, stDropped,
   stSkipped, stPartial, stLateAdded, stShort, stStale, stCut, stCold, stClamped, stSaturated, stDone]

/-- The place of a status in the order of R392; a status not listed comes last. -/
def statusRank (st : Status) : Nat := statusOrder.findIdx (· == st)

/-- The higher of two statuses under R392. -/
def worse (a b : Status) : Status := if statusRank a ≤ statusRank b then a else b

/-- The one status reported for all the conditions that hold (R10, R392). -/
def worst (l : List Status) : Status := l.foldl worse stDone

/-- The conditions of a WAIT (R87), on the word read and VALUE. -/
def waitHolds (cond : Nat) (w v : BitVec 64) : Bool :=
  match cond with
  | 0 => w == v
  | 1 => w != v
  | 2 => v.toNat ≤ w.toNat
  | 3 => w.toNat < v.toNat
  | 4 => w &&& v != 0
  | 5 => w &&& v == v
  | _ => false

/-- The saturating counter of R273: the word after an add of the signed VALUE. -/
def counterAdd (w v : BitVec 64) : BitVec 64 :=
  if bitsOf w.toNat 48 13 ≠ 0 then w ||| (1 <<< 61)
  else
    let c : Int := (bitsOf w.toNat 0 48 : Nat) + v.toInt
    let flags : BitVec 64 := w &&& 0xE000_0000_0000_0000#64
    if c > 2 ^ 48 - 1 then flags ||| 0x8000_FFFF_FFFF_FFFF#64
    else if c < 0 then flags ||| 0x4000_0000_0000_0000#64
    else flags ||| BitVec.ofInt 64 c

/-- Whether the add of `v` to `w` sets OVER, UNDER or MISUSE: it found bits [60:48] nonzero or it clamped (R273). -/
def counterClamps (w v : BitVec 64) : Bool :=
  bitsOf w.toNat 48 13 ≠ 0 ||
    (let c : Int := (bitsOf w.toNat 0 48 : Nat) + v.toInt
     decide (c > 2 ^ 48 - 1) || decide (c < 0))

end Sys2Proof.Machine
end

