-- ==== Sys2Proof/Machine/Sha.lean ====
section
/-! DEFINITION. SHA-256 (R24, R307, R350; the standard's own function, log 13) and the CRC-32 of the option bytes (R344). -/

namespace Sys2Proof.Machine

open Sys2Proof

/-- The first 64 primes. -/
def primes64 : List Nat := (List.range 312).filter (fun n => 2 ≤ n && (List.range 18).all (fun d => d < 2 || n ≤ d || n % d != 0))

/-- The largest number below `lo + 2 ^ n` whose `k`-th power is at most `v`, found bit by bit from `lo` upward. -/
def rootBits (k v : Nat) : Nat → Nat → Nat
  | 0, lo => lo
  | n + 1, lo => rootBits k v n (if (lo + 2 ^ n) ^ k ≤ v then lo + 2 ^ n else lo)

/-- The first 32 fractional bits of the `k`-th root of a number below 4,096: what the standard takes its constants from. -/
def rootFraction (k p : Nat) : Nat := rootBits k (p * 2 ^ (32 * k)) 38 0 % 2 ^ 32

/-- A 32-bit word turned right by each of the amounts, and the results combined by exclusive or; an amount with the mark shifts instead. -/
def turns (x : Nat) (by' : List (Nat × Bool)) : Nat :=
  by'.foldl (fun r t => r ^^^ (if t.2 then x >>> t.1 else (x >>> t.1) ||| ((x <<< (32 - t.1)) % 2 ^ 32))) 0

/-- The schedule word that follows sixteen, the oldest of them first. -/
def nextWord (w : List Nat) : Nat :=
  (w.getD 0 0 + turns (w.getD 1 0) [(7, false), (18, false), (3, true)] + w.getD 9 0 + turns (w.getD 14 0) [(17, false), (19, false), (10, true)]) % 2 ^ 32

/-- One round over the eight working words, for a schedule word and its constant. -/
def shaRound (v : List Nat) (wk : Nat) : List Nat :=
  let at' (i : Nat) : Nat := v.getD i 0
  let choice := at' 6 ^^^ (at' 4 &&& (at' 5 ^^^ at' 6))
  let majority := (at' 0 &&& at' 1) ||| (at' 2 &&& (at' 0 ||| at' 1))
  let mix := wk + at' 7 + choice + turns (at' 4) [(6, false), (11, false), (25, false)]
  let top := mix + majority + turns (at' 0) [(2, false), (13, false), (22, false)]
  top % 2 ^ 32 :: (v.take 3 ++ ((at' 3 + mix) % 2 ^ 32 :: (v.drop 4).take 3))

/-- The rounds that use the constants given: sixteen schedule words move along by one at each. -/
def shaRounds : List Nat → List Nat → List Nat → List Nat
  | [], _, v => v
  | k :: ks, w, v => shaRounds ks (w.drop 1 ++ [nextWord w]) (shaRound v (k + w.headD 0))

/-- A big-endian number of a byte list. -/
def beNat (bs : List Byte) : Nat := bs.foldl (fun n b => n * 256 + b.toNat) 0

/-- `n` big-endian bytes of a number. -/
def natBE (n v : Nat) : List Byte := (natLE n v).reverse

/-- The chaining value after one 64-byte block. -/
def shaBlock (ks : List Nat) (blk : List Byte) (v : List Nat) : List Nat :=
  let w := (List.range 16).map (fun i => beNat ((blk.drop (4 * i)).take 4))
  List.zipWith (fun x y => (x + y) % 2 ^ 32) v (shaRounds ks w v)

/-- The chaining value after `n` blocks. -/
def shaBlocks (ks : List Nat) : Nat → List Byte → List Nat → List Nat
  | 0, _, v => v
  | n + 1, bs, v => shaBlocks ks n (bs.drop 64) (shaBlock ks (bs.take 64) v)

/-- SHA-256 of a byte string: 32 bytes, first byte first. -/
def sha256 (msg : List Byte) : List Byte :=
  let m := msg ++ 0x80#8 :: List.replicate ((119 - msg.length % 64) % 64) 0#8 ++ natBE 8 (8 * msg.length)
  (shaBlocks (primes64.map (rootFraction 3)) (m.length / 64) m ((primes64.take 8).map (rootFraction 2))).flatMap (natBE 4)

/-- Eight bit steps of the reflected CRC-32. -/
def crcBits : Nat → Nat → Nat
  | 0, c => c
  | n + 1, c => crcBits n (if c % 2 = 1 then (c / 2) ^^^ 0xEDB8_8320 else c / 2)

/-- CRC-32 of IEEE 802.3 (R344): reflected, initial value and final complement all ones. -/
def crc32 (bs : List Byte) : Nat :=
  (bs.foldl (fun c b => crcBits 8 (c ^^^ b.toNat)) 0xFFFF_FFFF) ^^^ 0xFFFF_FFFF

end Sys2Proof.Machine
end

