-- ==== Sys2Proof/Config.lean ====
section
/-! DEFINITION. What one device fixes for good (its fuses, keys and fused inventory) and the free values:
the values the manual leaves open, as constants without a body. -/

namespace Sys2Proof

/-- A value the manual leaves open (log 3): applied to the counter `State.freeCtr`, so that every use is a fresh one.
It decides, for instance, the length of the leading part that a fenced command has written (R410). -/
opaque Config.freeNat : Nat → Nat

/-- ECDSA P-256 verification of a signature over a SHA-256 digest (R24, R349), the standard's own function (log 4):
public key X ‖ Y (64 bytes), digest (32 bytes), r and s (32 bytes each). -/
opaque Config.ecdsaVerify : List Byte → List Byte → List Byte → List Byte → Bool

/-- Whether a 64-byte public key is a point of the P-256 curve (R354; log 4). -/
opaque Config.onCurve : List Byte → Bool

/-- The signature r ‖ s (64 bytes) that the identity key makes over a digest (R28, R355; log 4). -/
opaque Config.identitySign : List Byte → List Byte

/-- The identity public key X ‖ Y, derived from the fused secret at each reset (R350; log 5). -/
opaque Config.identityKey : List Byte

/-- The device's X.509 certificate in DER, at most 1,024 bytes (R350; log 5). -/
opaque Config.certificate : List Byte

/-- The 4 firmware public keys whose digests are in the hub ROM, as X ‖ Y (R349; log 5). -/
opaque Config.romKey : Nat → List Byte

/-- The token a serving program generates (R302 to R304; log 6): of context, request, and position. -/
opaque Config.token : Nat → Nat → Nat → BitVec 32

/-- A port's choice of the tile that a MOVE_OUT brings into the frame it frees (R194 leaves the choice to the port; log 7):
of the class and the tile moved out. -/
opaque Config.moveOutPartner : Nat → Nat → Nat

/-- The power estimate, in W, that verification forms for a clock plan (R25 names it, no rule computes it; log 8). -/
opaque Config.planPower : List Nat → Nat

/-- The event code of the Tally records that the three WEAVE_EVT bits write (R37 names the records and no code; log 35). -/
opaque Config.weaveEvent : Nat → Nat

/-- The firmware target that serves a context's load and request rings (R386 names the rings and not their target; log 36). -/
opaque Config.ringServer : Nat → Nat

/-- Which word of its port's residency map records a tile's frame (R188 gives the map's size and not its layout; log 71). -/
opaque Config.mapWord : Nat → Nat

/-- Tally code and payload of the fault event of a unit that faults while it adopts a generation (R32 names the event and gives no code; log 35): of the
unit's kind and index. -/
opaque Config.adoptFault : Nat → Nat → Nat × Nat

/-- The fused inventory: compute, SRAM, Ibex, memory-port, photonic and laser die counts (R12, R25). -/
def Config.inventory : List Nat := [8, 16, 8, 16, 8, 4]

/-- LPDDR5X tier, bytes (R19). -/
def Config.lpBytes : Nat := 2 ^ 40

/-- Top of the unified range, 1,040 GiB (R19, R405). -/
def Config.uniTop : Nat := 1040 * 2 ^ 30

/-- First device address of host memory (R405). -/
def Config.hostBase : Nat := 0x1000_0000_0000

/-- First device address that R324 excludes: host physical addresses lie below 0xF000_0000_0000 (R324). -/
def Config.devTop : Nat := 0x1_0000_0000_0000

end Sys2Proof
end

