-- ==== Sys2Proof/Machine/State.lean ====
section
/-! DEFINITION. The state of the YH-6480 as plain data, the reasons a step can stop, and the state after reset. -/

namespace Sys2Proof.Machine

/-- Why the block stops with a fault. -/
inductive Fault where
  /-- Raised by JTAG_INSTRUCTION when EXTEST or an instruction of the debug transport is executed while SEC_DBG.OPEN is 1:
  R357 says that it then acts and says nothing of what it does. Safe: the model stops where the hardware goes on. -/
  | debugTransport
deriving DecidableEq, Repr

/-- Why a command has no meaning. -/
inductive Refusal where
  /-- A row of the table without a meaning; no arm of exec raises it any more. Safe. -/
  | notModelled (mnemonic : String)
deriving DecidableEq, Repr

/-- A sparse table by number: keys strictly rising, no entry equal to the default of its key. -/
abbrev Tbl (α : Type) := List (Nat × α)

/-- Sparse memory: bytes by address, an unlisted address reads as zero (R203, R411; log 2). -/
abbrev Mem := List Host.Cell

/-! ### Observation (19) -/

/-- A Tally record (R363). -/
structure TallyRec where
  time    : BitVec 48 := 0
  unit    : BitVec 12 := 0
  ctx     : BitVec 10 := 0
  code    : BitVec 12 := 0
  payload : BitVec 46 := 0
deriving DecidableEq, Repr, Inhabited

/-- One unit's Tally ring with its registers (R362 to R369), its queue and the records generated in the present cycle (R364). -/
structure TallyUnit where
  xin       : Bool := false
  xout      : Bool := false
  arm       : Bool := false
  ctxen     : Bool := false
  ctx       : BitVec 10 := 0
  mask      : BitVec 12 := 0
  code      : BitVec 12 := 0
  post      : BitVec 8 := 0
  triggered : Bool := false
  frozen    : Bool := false
  postLeft  : BitVec 8 := 0
  trigIdx   : BitVec 8 := 0
  head      : BitVec 32 := 0
  dropped   : BitVec 32 := 0
  lost      : BitVec 32 := 0
  lostSince : Nat := 0
  lastCode  : BitVec 12 := 0
  queue     : List TallyRec := []
  fresh     : List TallyRec := []
  slots     : Tbl TallyRec := []
deriving DecidableEq, Repr, Inhabited

/-- The black-box record in the NVM die and the hub buffer before it (R371 to R373). -/
structure BlackBox where
  frozen    : Bool := false
  lost      : BitVec 16 := 0
  head      : BitVec 32 := 0
  xin       : Bool := false
  hold      : Bool := true
  sel       : Tbl (BitVec 64) := []
  records   : Tbl TallyRec := []
  buffer    : List TallyRec := []
  lostSince : Nat := 0
  closed    : Bool := false
deriving DecidableEq, Repr, Inhabited

/-! ### Cores (04, 05) -/

/-- One Drover slot (R102). -/
structure Slot where
  valid  : Bool := false
  drain  : Bool := false
  ctx    : BitVec 10 := 0
  weight : BitVec 4 := 0
  wlen   : BitVec 7 := 0
  wbase  : BitVec 6 := 0
deriving DecidableEq, Repr, Inhabited

/-- A command record and where it came from: context, ring index, its 64 bytes (R78, R88). -/
structure Rec where
  ctx   : Nat
  seq   : BitVec 32
  bytes : List Byte
deriving DecidableEq, Repr, Inhabited

/-- One write of a command: to the scratchpad of a core, or to device memory (unified range or host), with the saturated and
NaN-squashed elements among its values (R46). -/
structure Wr where
  scratch : Option Nat
  addr    : Nat
  bytes   : List Byte
  sat     : Nat := 0
  nan     : Nat := 0
deriving DecidableEq, Repr, Inhabited

/-- A command an engine has started and not completed (R95), with what its completion will report (R88). `done` says that its
effect has been carried out; `told` adds to SATNAN what an earlier command has already counted (R178); `chain` holds a COPY's descriptors
as checked, each with its distributed tensor descriptor (R220); `rd` and `wr` are the scratchpad regions it reads and writes (R98); `after` holds the writes that follow
the acknowledgement of the others (R105, R125); `hot` the hot-window move that follows them (R113). `tiles` counts the tiles or descriptors
completed, `pos` a COPY's descriptors started (R213) and `formed` that a GATHER's tile waits for its write-back (R126); `land` holds the elements
a GCOPY has gathered and not written, by their place in the walk (R218), `csrc` and `cdst` the least CCLK of a COPY's two sides (R215). -/
structure Running where
  start   : Nat
  rec'    : Rec
  slot    : Nat
  eng     : Nat
  core    : Nat
  issued  : BitVec 64
  wptab   : BitVec 64
  seed    : BitVec 64
  step    : BitVec 32 := 0
  done    : Bool := false
  status  : BitVec 8 := 0
  count   : BitVec 32 := 0
  detail  : BitVec 32 := 0
  chain   : List (List Byte × List Byte) := []
  sat     : Nat := 0
  nan     : Nat := 0
  told    : Nat := 0
  tiles   : Nat := 0
  slices  : Nat := 0
  hints   : Nat := 0
  rd      : List (Nat × Nat) := []
  wr      : List (Nat × Nat) := []
  after   : List Wr := []
  hot     : Option (Nat × Nat × Nat × Nat) := none
  pos     : Nat := 0
  formed  : Bool := false
  land    : List (Nat × Wr) := []
  csrc    : Nat := 0
  cdst    : Nat := 0
deriving DecidableEq, Repr, Inhabited

/-- State of a tile buffer (R70). -/
inductive BufState where
  | empty | filling | full | draining
deriving DecidableEq, Repr, Inhabited

/-- A tile buffer (R52, R70): its state, the start number of the operation it serves, the tile, the CCLK of its events (R71) and from which the
array can fetch for the next tile; the tile totals it holds, the saturations and NaN-squashes of each row's totals, and its words with a check-code error (R74). -/
structure TileBuf where
  st      : BufState := .empty
  op      : Nat := 0
  tile    : Nat := 0
  firstT  : Nat := 0
  lastT   : Nat := 0
  nextT   : Nat := 0
  fullT   : Nat := 0
  emptyT  : Nat := 0
  tots    : List Byte := []
  marks   : List (Nat × Nat) := []
  bad     : Tbl (BitVec 2) := []
deriving DecidableEq, Repr, Inhabited

/-- How a WAIT's word is watched (R269). -/
inductive Watch where
  | monitored | cached | polled
deriving DecidableEq, Repr, Inhabited

/-- A WAIT being watched at the head of its queue (R87, R269): the last word read, whether the condition has held at an
evaluation, and the status of an evaluation that could not read the word. -/
structure Waiting where
  rec'    : Rec
  slot    : Nat
  eng     : Nat
  start   : BitVec 64
  how     : Watch
  last    : BitVec 64
  met     : Bool
  fault   : BitVec 8 := 0
deriving DecidableEq, Repr, Inhabited

/-- A completion record held or about to be written (R88, R89, R297). -/
structure Comp where
  ctx   : Nat
  bytes : List Byte
deriving DecidableEq, Repr, Inhabited

/-- A completion record that waits for those of its context's earlier commands on the same engine queue (R89). -/
structure Ended where
  rec'  : Rec
  bytes : List Byte
deriving DecidableEq, Repr, Inhabited

/-- One tensor core (R52, R77, R102, R133, R221). `passed` holds, by engine and slot, that the head command has passed its checks, with
a COPY's chain as it was read (R93, R98); `untrusted` that the core test failed and keeps the core out of NORMAL; `testing` the service state whose entry
has started a core test that has not ended, `fwReq` that firmware wrote the request now in `req` to keep the core out of NORMAL (R69, R382);
`cmdBad` the words of the command memory that are uncorrectable, as the context and ring index of the record they hold (R101). -/
structure Core where
  serv      : BitVec 2 := 1
  req       : BitVec 2 := 1
  buf0      : TileBuf := {}
  buf1      : TileBuf := {}
  epiFreeT  : Nat := 0
  uncorr    : Bool := false
  corrected : BitVec 16 := 0
  errTbuf   : Bool := false
  errAddr   : BitVec 17 := 0
  slots     : Tbl Slot := []
  queues    : Tbl (List Rec) := []
  credit    : Tbl Nat := []
  ptr       : Tbl Nat := []
  running   : List Running := []
  waits     : List Waiting := []
  passed    : Tbl (Option (List (List Byte × List Byte))) := []
  comps     : List Comp := []
  ended     : List Ended := []
  cmdBad    : List (Nat × BitVec 32) := []
  scratch   : Mem := []
  bad       : Tbl (BitVec 2) := []
  wback     : List Nat := []
  untrusted : Bool := false
  testing   : Option (BitVec 2) := some 1
  fwReq     : Bool := false
  ctr       : Tbl (BitVec 64) := []
  gshare    : BitVec 6 := 0
  gpend     : Option (BitVec 6) := none
  gforcedW  : Nat := 0
deriving DecidableEq, Repr, Inhabited

/-! ### Contexts and rings (15) -/

/-- One ring of a context (R292 to R299, R314): registers, own index, the other index observed and how its word is watched, the index last
written to the control pair (BAR 4), and a change deferred by RING_RATE. -/
structure Ring where
  en       : Bool := false
  log2n    : BitVec 5 := 0
  base     : BitVec 42 := 0
  caddr    : BitVec 44 := 0
  own      : BitVec 32 := 0
  other    : BitVec 32 := 0
  written  : BitVec 32 := 0
  deferred : Option (BitVec 64) := none
  retry    : Bool := false
  how      : Watch := .monitored
deriving DecidableEq, Repr, Inhabited

/-- A serving request (R301 to R304): its record, the pinned slots, the prompt progress, CHUNK at admission, tokens generated. -/
structure Request where
  rec'    : Rec
  slot0   : Bool
  slotA   : Bool
  gen     : BitVec 32
  chunk   : Nat
  read    : Nat
  tokens  : Nat
deriving DecidableEq, Repr, Inhabited

/-- One context's table entry and the work the device holds for it (R288 to R314). Counters are in `ctr`, keyed by offset. -/
structure Ctx where
  state     : BitVec 2 := 0
  result    : BitVec 8 := 0
  kind      : BitVec 2 := 0
  parts     : BitVec 64 := 0
  ro0       : BitVec 64 := 0
  ro1       : BitVec 64 := 0
  rings     : Tbl Ring := []
  ringErr   : BitVec 6 := 0
  taken     : Nat := 0
  takenUs   : Nat := 0
  lastB1    : Option Nat := none
  hold      : Bool := false
  maxreq    : BitVec 14 := 256
  chunk     : BitVec 13 := 256
  tokbud    : BitVec 14 := 512
  adn       : BitVec 14 := 0
  adbase    : BitVec 42 := 0
  wpn       : BitVec 8 := 0
  wpbase    : BitVec 42 := 0
  expect    : BitVec 16 := 0
  commits   : BitVec 16 := 0
  step      : BitVec 32 := 0
  seed      : BitVec 64 := 0
  jlen      : BitVec 16 := 0
  jbase     : BitVec 43 := 0
  jwrap     : Bool := false
  jhead     : BitVec 32 := 0
  jtail     : BitVec 32 := 0
  cntPend   : Option (BitVec 64) := none
  cntEpoch  : BitVec 32 := 0
  ctr       : Tbl (BitVec 64) := []
  comps     : List Comp := []
  intake    : List Rec := []
  reqs      : List Rec := []
  requests  : List Request := []
  loader    : List Rec := []
deriving DecidableEq, Repr, Inhabited

/-! ### Solver (08) -/

/-- The phase a dispatched entry has reached: computing, or computed and waiting for its header (R143, R155). -/
inductive EntryPhase where
  | computing | computed
deriving DecidableEq, Repr, Inhabited

/-- The outcome an entry has arrived at, ready for the result writer: the body as BF16 codes (empty when nothing is delivered), the
flags of the body descriptor, the entry's status, and whether a deadline stopped it. -/
structure EOutcome where
  status  : BitVec 8 := 0
  iters   : Nat := 0
  deliver : Bool := false
  carry   : Bool := false
  body    : List (BitVec 16) := []
  mu      : BitVec 32 := 0
  resid   : BitVec 32 := 0
  flags   : BitVec 8 := 0
  retries : Nat := 0
  bodyIters : Nat := 0
  sat     : Nat := 0
  nan     : Nat := 0
  fma     : Nat := 0
  stopped : Bool := false
deriving DecidableEq, Repr, Inhabited

/-- A dispatched entry on a lane group (R136, R141), with what it has loaded: the assembled or dense matrix, mu, DAMP and STAT_ID of its
source, and its warm start. -/
structure Entry where
  seq    : Nat
  idx    : Nat
  lane   : Nat
  group  : Nat
  phase  : EntryPhase
  fenced : Bool := false
  since  : BitVec 64 := 0
  warm   : Option (List (BitVec 32)) := none
  mat    : List (BitVec 32) := []
  mu     : BitVec 32 := 0
  flat   : Bool := false
  damp   : BitVec 32 := 0
  statId : BitVec 32 := 0
  out    : EOutcome := {}
deriving DecidableEq, Repr, Inhabited

/-- An accepted batch (R137, R140): its record, its entry table as read at acceptance, entries dispatched, and the outcomes so far. -/
structure Batch where
  rec'       : Rec
  id         : Nat
  entries    : List (List Byte)
  dispatched : Nat := 0
  outs       : Tbl EOutcome := []
deriving DecidableEq, Repr, Inhabited

/-- One Ibex die (R135, R162); `proposed` marks failed lanes whose retirement has been proposed (R382). -/
structure Ibex where
  arrived   : List Rec := []
  batches   : List Batch := []
  entries   : List Entry := []
  nextId    : Nat := 0
  failed    : BitVec 16 := 0
  proposed  : BitVec 16 := 0
  uncorr    : Bool := false
  eccLane   : BitVec 4 := 0
  corrected : BitVec 16 := 0
  errAddr   : BitVec 19 := 0
  bad       : Tbl (BitVec 2) := []
  ctr       : Tbl (BitVec 64) := []
deriving DecidableEq, Repr, Inhabited

/-! ### Memory tiers (10) -/

/-- A frame that holds a tile (R187): an LPDDR5X frame of the class's channel, or an SRAM frame at a slice and position. -/
inductive TFrame where
  | lp (i : Nat) | sram (slice pos : Nat)
deriving DecidableEq, Repr, Inhabited

/-- A move in progress on a channel (R194, R196): the tile brought, the frames afterwards, whether it is a move in, and whose hint. -/
structure Move where
  channel : Nat
  places  : List (Nat × TFrame)
  inward  : Nat
  outward : Nat
  retire  : Option (Nat × TFrame)
deriving DecidableEq, Repr, Inhabited

/-- A retiring frame (R199): its class, the frame, and whether Tally 0x082 has been written for it. -/
structure Retiring where
  cls     : Nat
  frame   : TFrame
  noted   : Bool
deriving DecidableEq, Repr, Inhabited

/-- A tier hint that a copy descriptor or a woodpile passed to the memory ports (R195, R216, R113). -/
structure Hint where
  op    : Nat
  base  : Nat
  len   : Nat
  slice : Nat
  dst   : Option (Option Nat × Nat)
  owner : Option (Nat × Nat)
deriving DecidableEq, Repr, Inhabited

/-- One memory port (R205). -/
structure MPort where
  lost      : BitVec 16 := 0
  maplost   : Bool := false
  kept      : Bool := false
  init      : Bool := false
  thresh    : BitVec 4 := 2
  passes    : BitVec 16 := 0
  interval  : BitVec 16 := 16
  uncorr    : Bool := false
  chan      : BitVec 4 := 0
  corrected : BitVec 16 := 0
  errAddr   : BitVec 38 := 0
  cethresh  : BitVec 4 := 4
  filter    : List (Nat × Nat × Nat) := []
  pinq      : List Nat := []
  scrubAt   : Nat := 0
  scrubUs   : Nat := 0
  ctr       : Tbl (BitVec 64) := []
deriving DecidableEq, Repr, Inhabited

/-- The two tiers behind the unified range (R186 to R202): tiles away from their places of R188, use bits, hands, moves, promotions
triggered and not yet started, retiring frames, overflow tiles written, tiles released, frames lost per class, and the channels and slices out of service since boot. -/
structure Tiers where
  resid    : List (Nat × TFrame) := []
  use      : Tbl Bool := []
  hands    : Tbl Nat := []
  moves    : List Move := []
  retiring : List Retiring := []
  written  : List Nat := []
  released : List Nat := []
  topRetired : Tbl Nat := []
  hints    : List Hint := []
  promos   : List (Nat × Nat) := []
  outCh    : List Nat := []
  outSlice : List Nat := []
  lostMap  : List Nat := []
  mapBad   : Tbl (BitVec 2) := []
deriving DecidableEq, Repr, Inhabited

/-! ### Fabric, Ethernet and optics (12) -/

/-- A request of this device that has not been answered; once its packet is on the link (`live`), it has been unacknowledged since `sent` (R226). -/
structure Access where
  tag    : Nat
  port   : Nat
  rank   : Nat
  ctx    : Nat
  unit   : Nat
  owner  : Nat × Nat
  typ    : BitVec 6
  addr   : BitVec 64
  isAdd  : Bool
  words  : Nat
  dst    : Option (Option Nat × Nat)
  idx    : Nat
  sent   : BitVec 64
  live   : Bool := false
deriving DecidableEq, Repr, Inhabited

/-- A route's live path (R226): on the alternate port, and a change waiting for its packets to drain. -/
structure Path where
  alt    : Bool := false
  change : Bool := false
deriving DecidableEq, Repr, Inhabited

/-- An RDMA READ outstanding: first PSN, response packets, the LOAD that asked (by its number) and the tile, its remote address and
bytes. -/
structure RdRead where
  psn   : Nat
  pkts  : Nat
  job   : Nat
  tile  : Nat
  raddr : Nat
  len   : Nat
deriving DecidableEq, Repr, Inhabited

/-- A queue pair's requests outstanding, response packets received of the oldest, retries, and the time of the last request or progress
(R238). -/
structure QpRun where
  outstanding : List RdRead := []
  got         : Nat := 0
  retries     : Nat := 0
  since       : BitVec 64 := 0
deriving DecidableEq, Repr, Inhabited

/-- Where a frame of a queue pair goes (R239): MAC addresses, VLAN identifier where a tag is sent, priority and DSCP, IP addresses, UDP source port,
remote queue pair. -/
structure EthHdr where
  lmac  : List Byte
  rmac  : List Byte
  vid   : Option Nat
  pcp   : Nat
  dscp  : Nat
  ipv6  : Bool
  lip   : List Byte
  rip   : List Byte
  sport : Nat
  rqpn  : Nat
deriving DecidableEq, Repr, Inhabited

/-- A frame an Ethernet port sends: an RDMA READ request (queue pair, PSN, remote address, key, bytes), a NAK for an invalid request, an
answer to an ARP request or a neighbour solicitation, a pause on a priority (R237, R238). -/
inductive EthOut where
  | readReq (hdr : EthHdr) (qp psn raddr rkey len : Nat)
  | nakInvalid (hdr : EthHdr) (qp psn : Nat)
  | arpReply (lmac target sender : List Byte)
  | advert (lmac target sender : List Byte)
  | pause (prio quanta : Nat)
deriving DecidableEq, Repr

/-- A frame kept for resending (R231): when it was last sent, how often it has been resent, and its packet. -/
structure TxFrame where
  seq    : BitVec 12
  sent   : BitVec 64
  resent : Nat := 0
  pkt    : FabPkt
deriving DecidableEq, Repr, Inhabited

/-- One optical port (R244): link state, optics, counters, link protocol state (R227 to R232), Ethernet state (R237, R238). `freed` holds the
words of credit owed to the peer, by VC, `ready` the packets that have left the generation bridge, `advert` the rank, peer rank and generation this end sends
in training, `rxFill` the bytes in the Ethernet receive buffer. -/
structure OPort where
  state     : BitVec 3 := 0
  trip      : Bool := false
  dark      : Bool := true
  launch    : List (BitVec 8) := []
  rxlock    : BitVec 8 := 0
  txlock    : BitVec 8 := 0
  e2eUncorr : Bool := false
  e2eCorr   : BitVec 16 := 0
  downs     : BitVec 16 := 0
  qpCount   : BitVec 7 := 0
  qpBase    : BitVec 41 := 0
  ctr       : Tbl (BitVec 64) := []
  txSeq     : BitVec 12 := 0
  unacked   : List TxFrame := []
  rxSeq     : BitVec 12 := 0
  nakOwed   : Bool := false
  credit    : Tbl Nat := []
  freed     : Tbl Nat := []
  rxq       : List FabPkt := []
  ready     : List FabPkt := []
  outbox    : List Frame := []
  held      : List FabPkt := []
  waiting   : List FabPkt := []
  bridge    : List FabPkt := []
  advert    : Option (Nat × Nat × BitVec 32) := none
  calSince  : BitVec 64 := 0
  retrain   : Bool := false
  downSince : BitVec 64 := 0
  retryTrain : Bool := false
  lastTimeRx : Option (BitVec 64 × BitVec 64) := none
  lastTimeTx : Option (BitVec 64) := none
  delay     : Option Nat := none
  qps       : Tbl QpRun := []
  paused    : Tbl Nat := []
  rxFill    : Nat := 0
  ethOut    : List EthOut := []
deriving DecidableEq, Repr, Inhabited

/-- One laser die (R241, R244). -/
structure Laser where
  calibrating : Bool := false
  fail        : BitVec 8 := 0
  lock        : BitVec 8 := 0
  power       : List (BitVec 8) := []
  recals      : BitVec 32 := 0
deriving DecidableEq, Repr, Inhabited

/-! ### Collectives (13) -/

/-- Where a collective record in flight stands: waiting for contributions or arrivals, gathering blocks, or finished on this member. -/
inductive CePhase where
  | waiting | gathering | finished
deriving DecidableEq, Repr, Inhabited

/-- A collective record in flight on an engine (R260): where it stands, the statuses of its acknowledged accesses, the elements written,
members missing and carried, conversions counted, stale norm slots, and the address of the first uncorrectable word it met. -/
structure Coll where
  rec'    : Rec
  order   : Nat
  phase   : CePhase
  status  : List (BitVec 8) := []
  count   : Nat := 0
  missing : Nat := 0
  carried : Nat := 0
  sat     : Nat := 0
  nan     : Nat := 0
  stale   : Nat := 0
  ecc     : Option Nat := none
deriving DecidableEq, Repr, Inhabited

/-- A landing area the engines hold (R256): its address and context, whether it is closed and since when, the last step whose sum began or that a
SETTLE closed, the members whose contributions of it are late, that record's SPOL and TAG, and a step that a WAIT timeout has ended with the members
then absent. -/
structure Area where
  land    : Nat
  ctx     : Nat
  closed  : Bool := false
  order   : Nat := 0
  summed  : Option Nat := none
  absent  : Nat := 0
  spol    : Nat := 0
  tag     : Nat := 0
  timed   : Option (Nat × Nat) := none
deriving DecidableEq, Repr, Inhabited

/-- One collective engine (R260, R267). -/
structure CEngine where
  queue    : List Rec := []
  inflight : List Coll := []
  missed   : BitVec 22 := 0
  carried  : BitVec 21 := 0
  dropped  : BitVec 21 := 0
deriving DecidableEq, Repr, Inhabited

/-! ### Synchronisation (14) -/

/-- One Fold (R279 to R282, R287). -/
structure Fold where
  valid    : Bool := false
  ctx      : BitVec 10 := 0
  addr     : BitVec 42 := 0
  mask     : BitVec 100 := 0
  localN   : BitVec 10 := 0
  arr      : BitVec 100 := 0
  localArr : BitVec 10 := 0
  early    : BitVec 100 := 0
  earlyLoc : Nat := 0
  misuse   : Bool := false
  badphase : Bool := false
  miscnt   : BitVec 16 := 0
  sentPh   : Option (BitVec 48) := none
deriving DecidableEq, Repr, Inhabited

/-- One HUB_HURDLE entry (R286, R287). -/
structure Hurdle where
  busy     : Bool := false
  quiesced : Bool := false
  result   : BitVec 8 := 0
  kind     : BitVec 3 := 0
  target   : BitVec 32 := 0
  lifting  : Bool := false
deriving DecidableEq, Repr, Inhabited

/-! ### Host ports and the Gate (16) -/

/-- One host port (R329). -/
structure HPort where
  mode     : BitVec 2 := 0
  speed    : BitVec 3 := 0
  width    : BitVec 5 := 0
  bindV    : Bool := false
  bindCtx  : BitVec 10 := 0
  hdm      : BitVec 7 := 0
  winmap   : BitVec 16 := 0
  notready : BitVec 16 := 0
  badsize  : BitVec 16 := 0
  outside  : BitVec 32 := 0
  dmard    : BitVec 64 := 0
  dmawr    : BitVec 64 := 0
deriving DecidableEq, Repr, Inhabited

/-- One Gate semaphore (R326, R330). -/
structure Sem where
  state  : BitVec 2 := 0
  owner  : BitVec 2 := 0
  rby    : BitVec 2 := 0
  octx   : BitVec 10 := 0
  result : BitVec 8 := 0
  token  : BitVec 16 := 0
  lease  : BitVec 12 := 0
  since  : BitVec 64 := 0
deriving DecidableEq, Repr, Inhabited

/-! ### The Weave (02) -/

/-- One section of a Weave: its type, record count and bytes (R22, R23). -/
structure Sect where
  typ   : BitVec 8
  count : Nat
  bytes : List Byte
deriving DecidableEq, Repr, Inhabited

/-- The sections of one generation, the generation number and the digest of the image that established it (R29). -/
structure WeaveGen where
  gen    : BitVec 32
  sects  : List Sect
  digest : List Byte
deriving DecidableEq, Repr, Inhabited

/-- State of the WEAVE block's state machine (R35, R37). -/
inductive WvState where
  | idle | verifying | staged | applying | rollingBack | persisting
deriving DecidableEq, Repr, Inhabited

/-- A Weave slot of the NVM die (R27): the image and its generation. -/
structure WvSlot where
  valid : Bool := false
  gen   : BitVec 32 := 0
  image : List Byte := []
deriving DecidableEq, Repr, Inhabited

/-- The WEAVE block (R37), the generations in force and being applied (R29), the units that have adopted (R30), the end of the window that
runs and its length in µs, the two NVM slots with the one not in use (`inUse`: slot B is the one in use), and the units that a fence
of the Weave holds until they are quiet (`fences`, R32, R412). -/
structure Weave where
  st       : WvState := .idle
  result   : BitVec 8 := 0
  errsec   : BitVec 8 := 0xFF
  bootsrc  : BitVec 4 := 2
  next     : BitVec 32 := 0
  src      : BitVec 61 := 0
  window   : BitVec 17 := 2000
  fenced   : BitVec 16 := 0
  evt      : BitVec 3 := 0
  image    : List Byte := []
  fetchErr : BitVec 8 := 0
  persist  : List Byte := []
  loaded   : Bool := false
  cur      : WeaveGen := { gen := 0, sects := [], digest := [] }
  nxt      : Option WeaveGen := none
  adopted  : List CfgUnit := []
  deadline : BitVec 64 := 0
  span     : Nat := 0
  slotA    : WvSlot := {}
  slotB    : WvSlot := {}
  inUse    : Bool := false
  fences   : List CfgUnit := []
deriving DecidableEq, Repr, Inhabited

/-! ### Power, reset, clocks, option bytes, pins (17, 21) -/

/-- Where the device stands in an internal reset (R338). -/
inductive RstPhase where
  | off | inReset | released | running
deriving DecidableEq, Repr, Inhabited

/-- Reset, always-on domain, hub pins (R337 to R346, R394). `faultRst`: a cause that asserts FAULT_N has been recognised in the present reset (R337);
`glitches`: ignored pulses of the last 1 ms, on PWR_OK or on RST_N, with their times (R340). -/
structure Hub where
  phase     : RstPhase := .running
  cause     : BitVec 4 := 0
  bklost    : Bool := false
  vbakBad   : Bool := false
  por       : BitVec 16 := 1
  pinc      : BitVec 16 := 0
  selfc     : BitVec 16 := 0
  since     : BitVec 64 := 0
  optDone   : Bool := true
  keep      : Bool := false
  keepDies  : List Nat := []
  faultRst  : Bool := false
  bus0      : Bool := true
  bus1      : Bool := true
  lock      : BitVec 8 := 0x3F
  noisy     : Bool := false
  glitch    : BitVec 16 := 0
  glitches  : List (Bool × Nat) := []
  evtin     : BitVec 4 := 0
  pwrok     : Bool := true
  rstn      : Bool := true
  evtout    : BitVec 4 := 0
  evtcfg    : Tbl (BitVec 64) := []
  lastD3    : Option Nat := none
  bbxlost   : Bool := false
deriving DecidableEq, Repr, Inhabited

/-- The remaining HUB registers and pins: faults, firmware activation, test multiplexer, polling and the time of the last poll (R269), counters (R377 to R386, R287); lost
edges, the last edge and the pulse in progress of the event pins (R340, R341); SEC and WEAVE commands that wait for a handover (R386);
CCLK codes in force, codes that dies take once their cores are between commands (R17), and the status of the last change asked for (R33; log 70); units whose Hurdle waits for a free entry (R382); the number the next started command takes; the JTAG instruction; the SMBus acknowledgement. -/
structure Hub2 where
  propose   : Bool := false
  wdog      : Bool := false
  faulten   : BitVec 7 := 0x7F
  syncpoll  : BitVec 16 := 1
  polledAt  : BitVec 64 := 0
  tmuxUnit  : BitVec 12 := 0
  tmuxArg   : BitVec 8 := 0
  tmuxSel   : BitVec 4 := 0
  fwResult  : BitVec 8 := 0
  fwTarget  : BitVec 4 := 0
  fwState   : BitVec 2 := 0
  fwSince   : BitVec 64 := 0
  tieA      : Bool := true
  xtrig     : Bool := false
  cntPend   : Option (BitVec 64) := none
  cntEpoch  : BitVec 32 := 0
  cntT      : BitVec 64 := 0
  ctr       : Tbl (BitVec 64) := []
  clkCode   : Tbl (BitVec 5) := []
  clkPend   : List (Nat × Nat) := []
  clkStatus : BitVec 8 := 0
  evtMissed : Tbl (BitVec 8) := []
  evtLast   : Tbl Nat := []
  pulseUntil : Tbl Nat := []
  heldOps   : List (Party × Nat × Nat) := []
  wanted    : List (Nat × Nat) := []
  order     : Nat := 0
  jtagIr    : Nat := 1
  smbAck    : Bool := true
deriving DecidableEq, Repr, Inhabited

/-- The PWR block and the power controller (R333 to R335, R347). -/
structure Pwr where
  vrange   : Bool := false
  vbaklow  : Bool := false
  vbak     : BitVec 8 := 0
  pin      : BitVec 16 := 0
  iin      : BitVec 16 := 0
  vin      : BitVec 16 := 0
  samples  : List Nat := []
  overRun  : Nat := 0
  belowUs  : Nat := 0
  therm    : Bool := false
  kind     : BitVec 3 := 0
  index    : BitVec 5 := 0
  hottest  : BitVec 8 := 0
  powerus  : BitVec 32 := 0
  thermus  : BitVec 32 := 0
  pLevel   : Tbl Nat := []
  tLevel   : Tbl Nat := []
  applied  : Tbl Nat := []
  hotPrev  : List (Nat × Nat) := []
  rising   : Tbl Bool := []
  cool85   : Bool := true
  overLim  : Bool := false
deriving DecidableEq, Repr, Inhabited

/-- The OPT block and the two copies in the NVM die (R343 to R348). -/
structure Opt where
  image   : List Byte := []
  src     : BitVec 2 := 2
  bada    : Bool := true
  badb    : Bool := true
  st      : BitVec 2 := 1
  pend    : Bool := false
  result  : BitVec 8 := 0
  stage   : Tbl (BitVec 64) := []
  copyA   : List Byte := []
  copyB   : List Byte := []
deriving DecidableEq, Repr, Inhabited

/-! ### Security and firmware (18, 19) -/

/-- A firmware image running on, staged for, or kept for a target (R351, R352, R386): SVN and SHA-256 digest. -/
structure FwImage where
  svn    : BitVec 8
  digest : List Byte
  image  : List Byte
deriving DecidableEq, Repr, Inhabited

/-- One firmware target: the running image, the staged one, the two NVM copies, the copy in use, the time of its last report. -/
structure FwTarget where
  running : Option FwImage := none
  staged  : Option FwImage := none
  nvm0    : Option FwImage := none
  nvm1    : Option FwImage := none
  used1   : Bool := false
  report  : BitVec 64 := 0
deriving DecidableEq, Repr, Inhabited

/-- The SEC block (R361), keys and fuses (R349, R353, R354). -/
structure Sec where
  slot    : BitVec 5 := 0
  debug   : Bool := false
  noid    : Bool := false
  fwbad   : BitVec 9 := 0
  len     : BitVec 16 := 0
  result  : BitVec 8 := 0
  st      : BitVec 2 := 0
  src     : BitVec 58 := 0
  dst     : BitVec 58 := 0
  nonce   : Tbl (BitVec 64) := []
  wmeas   : List Byte := []
  keys    : Tbl (List Byte) := []
  fused   : BitVec 8 := 0
  revoked : BitVec 4 := 0
  openD   : Bool := false
  derived : Bool := false
  booted  : Bool := false
  fw      : Tbl FwTarget := []
deriving DecidableEq, Repr, Inhabited

/-- A verified, sealed manifest (R306). -/
structure Manifest where
  ctx  : Nat
  addr : Nat
  len  : Nat
deriving DecidableEq, Repr, Inhabited

/-- A LOAD in progress (R308): its number, its record, the next tile to fetch, tiles to fetch again, tiles asked for over RDMA, tiles
written and not yet checked with whether their hash agrees, refetches made of each tile, tiles verified, its
status so far, the first tile that failed. -/
structure LoadJob where
  num      : Nat
  rec'     : Rec
  next     : Nat := 0
  again    : List Nat := []
  flying   : List Nat := []
  arrived  : List (Nat × Bool) := []
  tries    : Tbl Nat := []
  verified : Nat := 0
  status   : BitVec 8 := 0
  stopped  : Option Nat := none
deriving DecidableEq, Repr, Inhabited

/-! ### The whole device -/

/-- The state of the device. -/
structure State where
  pending  : List Instr
  time     : BitVec 64
  slew     : Option Bool
  slewUs   : Nat
  uni      : Mem
  uniBad   : Tbl (BitVec 2)
  host     : Mem
  cores    : Tbl Core
  ctxs     : Tbl Ctx
  dieHeld  : Tbl (List Rec)
  ibex     : Tbl Ibex
  mports   : Tbl MPort
  tiers    : Tiers
  nvmFrames : List (Nat × TFrame)
  oports   : Tbl OPort
  lasers   : Tbl Laser
  accesses : List Access
  nextTag  : Nat
  paths    : Tbl Path
  ces      : Tbl CEngine
  areas    : List Area
  folds    : Tbl Fold
  hurdles  : Tbl Hurdle
  hps      : Tbl HPort
  windows  : Tbl (BitVec 2)
  gates    : Tbl Sem
  tallies  : Tbl TallyUnit
  bbx      : BlackBox
  weave    : Weave
  hub      : Hub
  hub2     : Hub2
  pwr      : Pwr
  opt      : Opt
  sec      : Sec
  manifests : List Manifest
  loads    : List LoadJob
  bus      : BitVec 64
  bus2     : List Byte
  poisoned : Bool
  freeCtr  : Nat
deriving DecidableEq, Repr

/-- The device right after a power-on reset, at the moment it leaves reset (R6, R338, step 8 of the worked case of 17): nothing
booted, no Weave loaded (`sects` empty reads as the built-in minimal Weave of R27), both option copies blank so that the defaults of
R344 are in force and Tally 0x0D0 is written (log 9), memory not yet initialised (R203), every core in STARTUP (R68), every table at its defaults. -/
def State.reset : State where
  pending := []
  time := 0
  slew := none
  slewUs := 0
  uni := []
  uniBad := []
  host := []
  cores := []
  ctxs := []
  dieHeld := []
  ibex := []
  mports := []
  tiers := {}
  nvmFrames := []
  oports := []
  lasers := []
  accesses := []
  nextTag := 0
  paths := []
  ces := []
  areas := []
  folds := []
  hurdles := []
  hps := []
  windows := []
  gates := []
  tallies := [(0x7FF, { fresh := [{ unit := 0x7FF, code := 0x0D0 }] })]
  bbx := {}
  weave := {}
  hub := {}
  hub2 := {}
  pwr := {}
  opt := {}
  sec := {}
  manifests := []
  loads := []
  bus := 0
  bus2 := []
  poisoned := false
  freeCtr := 0

end Sys2Proof.Machine
end

