-- ==== Sys2Proof/Machine/Ops.lean ====
section
/-! DEFINITION. The shared operations: sparse tables and memory, the units' accessors, the Weave in force as the units read it,
Tally records, counters, addresses and rights, the memory ports behind the unified range, host memory, completion records. -/

namespace Sys2Proof.Machine

open Sys2Proof

/-! ### Tables and memory -/

/-- The entry of a key; an unlisted key reads as its default. -/
def tget (d : Nat → α) : Tbl α → Nat → α
  | [], k => d k
  | (a, v) :: r, k => if a = k then v else tget d r k

/-- Put an entry before the first greater key. -/
def tins : Tbl α → Nat → α → Tbl α
  | [], k, v => [(k, v)]
  | (a, w) :: r, k, v => if k < a then (k, v) :: (a, w) :: r else (a, w) :: tins r k v

/-- Set the entry of a key, keeping the canonical form: keys rising, defaults not listed. -/
def tset [DecidableEq α] (d : Nat → α) (t : Tbl α) (k : Nat) (v : α) : Tbl α :=
  let r := t.filter (fun x => x.1 != k)
  if v = d k then r else tins r k v

/-- Change the entry of a key. -/
def tmod [DecidableEq α] (d : Nat → α) (t : Tbl α) (k : Nat) (f : α → α) : Tbl α := tset d t k (f (tget d t k))

/-- The keys of a table rise and no entry is its default: the canonical form. -/
def twf [DecidableEq α] (d : Nat → α) : Tbl α → Bool
  | [] => true
  | [(a, v)] => v ≠ d a
  | (a, v) :: (b, w) :: r => v ≠ d a && a < b && twf d ((b, w) :: r)

/-- What an unlisted byte reads as: zero (R203, R411; log 2). -/
def zeroByte (_ : Nat) : Byte := 0

/-- One byte of memory. -/
def mget (m : Mem) (a : Nat) : Byte := tget zeroByte m a

/-- Write one byte. -/
def mset (m : Mem) (a : Nat) (b : Byte) : Mem := tset zeroByte m a b

/-- The canonical form of a memory. -/
def Memory.wf (m : Mem) : Bool := twf zeroByte m

/-- `n` bytes from address `a` upward. -/
def mread (m : Mem) (a : Nat) : Nat → List Byte
  | 0 => []
  | n + 1 => mget m a :: mread m (a + 1) n

/-- Write bytes from address `a` upward. -/
def mwrite (m : Mem) (a : Nat) : List Byte → Mem
  | [] => m
  | b :: bs => mwrite (mset m a b) (a + 1) bs

/-- A default of zero, whatever the key. -/
def d0 {w : Nat} (_ : Nat) : BitVec w := 0

/-- A default of 0, `false`, the empty list or the structure's default, whatever the key. -/
def dN (_ : Nat) : Nat := 0
def dB (_ : Nat) : Bool := false
def dL {α : Type} (_ : Nat) : List α := []

/-- Add to a 64-bit counter of a table, sticking at all ones. -/
def ctrAdd (t : Tbl (BitVec 64)) (off n : Nat) : Tbl (BitVec 64) := tmod d0 t off (fun x => stick x n)

/-- Add to a field of `w` bits at bit `lo` of a counter register, sticking at all ones of the field. -/
def ctrAddField (t : Tbl (BitVec 64)) (off lo w n : Nat) : Tbl (BitVec 64) :=
  tmod d0 t off (fun x =>
    let f := bitsOf x.toNat lo w
    let g := min (f + n) (2 ^ w - 1)
    BitVec.ofNat 64 (x.toNat - f * 2 ^ lo + g * 2 ^ lo))

/-! ### The units -/

/-- Drover slot `i` of a core before anything is written (R102): slot 0 holds context 0. -/
def slotDef (i : Nat) : Slot := if i = 0 then { valid := true, weight := 15, wlen := 64 } else {}
def coreDef (_ : Nat) : Core := {}
/-- Context entry at reset: context 0 is LIVE (R288). -/
def ctxDef (c : Nat) : Ctx := if c = 0 then { state := 1 } else {}
def ringDef (_ : Nat) : Ring := {}
def ibexDef (_ : Nat) : Ibex := {}
def mportDef (_ : Nat) : MPort := {}
def oportDef (_ : Nat) : OPort := {}
def laserDef (_ : Nat) : Laser := {}
def pathDef (_ : Nat) : Path := {}
def ceDef (_ : Nat) : CEngine := {}
def foldDef (_ : Nat) : Fold := {}
def hurdleDef (_ : Nat) : Hurdle := {}
/-- Host port at reset: every window is mapped to port A (R329). -/
def hpDef (i : Nat) : HPort := if i = 0 then { winmap := 0xFFFF } else {}
def semDef (_ : Nat) : Sem := {}
/-- Port that serves a window at reset, as 1 A, 2 B, 0 none: port A (R329). -/
def winDef (_ : Nat) : BitVec 2 := 1
def tallyDef (_ : Nat) : TallyUnit := {}
def trecDef (_ : Nat) : TallyRec := {}
def qpDef (_ : Nat) : QpRun := {}
def fwDef (_ : Nat) : FwTarget := {}

def State.core (s : State) (n : Nat) : Core := tget coreDef s.cores n
def State.setCore (s : State) (n : Nat) (c : Core) : State := { s with cores := tset coreDef s.cores n c }
def State.modCore (s : State) (n : Nat) (f : Core → Core) : State := s.setCore n (f (s.core n))
def State.ctx (s : State) (c : Nat) : Ctx := tget ctxDef s.ctxs c
def State.setCtx (s : State) (c : Nat) (x : Ctx) : State := { s with ctxs := tset ctxDef s.ctxs c x }
def State.modCtx (s : State) (c : Nat) (f : Ctx → Ctx) : State := s.setCtx c (f (s.ctx c))
def State.ibx (s : State) (d : Nat) : Ibex := tget ibexDef s.ibex d
def State.setIbx (s : State) (d : Nat) (x : Ibex) : State := { s with ibex := tset ibexDef s.ibex d x }
def State.modIbx (s : State) (d : Nat) (f : Ibex → Ibex) : State := s.setIbx d (f (s.ibx d))
def State.mport (s : State) (m : Nat) : MPort := tget mportDef s.mports m
def State.setMport (s : State) (m : Nat) (x : MPort) : State := { s with mports := tset mportDef s.mports m x }
def State.modMport (s : State) (m : Nat) (f : MPort → MPort) : State := s.setMport m (f (s.mport m))
def State.oport (s : State) (p : Nat) : OPort := tget oportDef s.oports p
def State.setOport (s : State) (p : Nat) (x : OPort) : State := { s with oports := tset oportDef s.oports p x }
def State.modOport (s : State) (p : Nat) (f : OPort → OPort) : State := s.setOport p (f (s.oport p))
def State.laser (s : State) (q : Nat) : Laser := tget laserDef s.lasers q
def State.modLaser (s : State) (q : Nat) (f : Laser → Laser) : State := { s with lasers := tset laserDef s.lasers q (f (s.laser q)) }
def State.ce (s : State) (e : Nat) : CEngine := tget ceDef s.ces e
def State.modCe (s : State) (e : Nat) (f : CEngine → CEngine) : State := { s with ces := tset ceDef s.ces e (f (s.ce e)) }
def State.hp (s : State) (p : Nat) : HPort := tget hpDef s.hps p
def State.modHp (s : State) (p : Nat) (f : HPort → HPort) : State := { s with hps := tset hpDef s.hps p (f (s.hp p)) }
def State.gate (s : State) (i : Nat) : Sem := tget semDef s.gates i
def State.modGate (s : State) (i : Nat) (f : Sem → Sem) : State := { s with gates := tset semDef s.gates i (f (s.gate i)) }
def State.hurdle (s : State) (i : Nat) : Hurdle := tget hurdleDef s.hurdles i
def State.modHurdle (s : State) (i : Nat) (f : Hurdle → Hurdle) : State := { s with hurdles := tset hurdleDef s.hurdles i (f (s.hurdle i)) }
def State.tally (s : State) (u : Nat) : TallyUnit := tget tallyDef s.tallies u
def State.modTally (s : State) (u : Nat) (f : TallyUnit → TallyUnit) : State := { s with tallies := tset tallyDef s.tallies u (f (s.tally u)) }
def State.fold (s : State) (k : Nat) : Fold := tget foldDef s.folds k
def State.modFold (s : State) (k : Nat) (f : Fold → Fold) : State := { s with folds := tset foldDef s.folds k (f (s.fold k)) }
def State.fw (s : State) (t : Nat) : FwTarget := tget fwDef s.sec.fw t
def State.modFw (s : State) (t : Nat) (f : FwTarget → FwTarget) : State := { s with sec := { s.sec with fw := tset fwDef s.sec.fw t (f (s.fw t)) } }
def Ctx.ring (x : Ctx) (k : Nat) : Ring := tget ringDef x.rings k
def Ctx.modRing (x : Ctx) (k : Nat) (f : Ring → Ring) : Ctx := { x with rings := tset ringDef x.rings k (f (x.ring k)) }
def Core.slot (c : Core) (i : Nat) : Slot := tget slotDef c.slots i
def Core.setSlot (c : Core) (i : Nat) (x : Slot) : Core := { c with slots := tset slotDef c.slots i x }
/-- The records of one engine's queue that belong to one slot, oldest first (R90). -/
def Core.queue (c : Core) (e i : Nat) : List Rec := tget dL c.queues (e * 32 + i)
def Core.setQueue (c : Core) (e i : Nat) (q : List Rec) : Core := { c with queues := tset dL c.queues (e * 32 + i) q }

/-- Number of a Fold in the table: 64 per die, then the device Folds. -/
def foldKey : FoldId → Nat
  | .die d f => d * 64 + f
  | .dev f => 512 + f

/-- One step of device time with nothing commanded: one nanosecond (R16; log 12), or two or none where the slew of R236 is due. -/
def tick (s : State) : State :=
  match s.slew with
  | none => { s with time := s.time + 1 }
  | some fwd => { s with time := s.time + (if fwd then 2 else 0), slew := none }

/-- A fresh free number below `n` (log 3), and the state with the counter advanced. -/
def freeBelow (s : State) (n : Nat) : Nat × State :=
  (Config.freeNat s.freeCtr % n, { s with freeCtr := s.freeCtr + 1 })

/-! ### The Weave in force (02) -/

/-- The sections that a unit holds: those of g + 1 once it has adopted them, those of g otherwise (R29, R30). -/
def sectsOf (s : State) (u : CfgUnit) : List Sect :=
  match s.weave.nxt with
  | some g => if u ∈ s.weave.adopted then g.sects else s.weave.cur.sects
  | none => s.weave.cur.sects

/-- The generation a unit holds. -/
def genOf (s : State) (u : CfgUnit) : BitVec 32 :=
  match s.weave.nxt with
  | some g => if u ∈ s.weave.adopted then g.gen else s.weave.cur.gen
  | none => s.weave.cur.gen

/-- The section of one type. -/
def sectOf (l : List Sect) (typ : Nat) : Option Sect := l.find? (fun x => x.typ.toNat == typ)

/-- Fixed-size records of a section. -/
def recordsOf : Nat → Nat → List Byte → List (List Byte)
  | 0, _, _ => []
  | n + 1, size, bs => bs.take size :: recordsOf n size (bs.drop size)

/-- The records of one type, each of `size` bytes. -/
def sectRecs (l : List Sect) (typ size : Nat) : List (List Byte) :=
  match sectOf l typ with
  | some x => recordsOf x.count size x.bytes
  | none => []

/-- A little-endian field of a record. -/
def fld (r : List Byte) (off n : Nat) : Nat := leNat ((r.drop off).take n)

/-- A partition (R23). -/
structure Part where
  num   : Nat
  cores : Nat
  lanes : Nat
  base  : Nat
  len   : Nat
deriving DecidableEq, Repr

/-- The partitions; the built-in minimal Weave has every unit in one (R27), numbered 0 (log 14). -/
def partsOf (l : List Sect) : List Part :=
  match l with
  | [] => [{ num := 0, cores := 2 ^ 800 - 1, lanes := 2 ^ 128 - 1, base := 0, len := Config.uniTop }]
  | _ => (sectRecs l 2 160).map (fun r => { num := fld r 0 1, cores := fld r 8 100, lanes := fld r 108 16, base := fld r 128 8, len := fld r 136 8 })

/-- A route (R23): peer rank, primary and alternate port. -/
structure Route where
  rank : Nat
  prim : Nat
  alt  : Option Nat
deriving DecidableEq, Repr

def routesOf (l : List Sect) : List Route :=
  (sectRecs l 3 4).map (fun r =>
    let v := leNat r
    { rank := bitsOf v 0 6, prim := bitsOf v 8 5, alt := if bitOf v 31 then some (bitsOf v 16 5) else none })

/-- The policy that governs a tile: 0 where no tier-map record covers it (R191). -/
def policyOf (l : List Sect) (tile : Nat) : Nat :=
  match (sectRecs l 4 24).find? (fun r => fld r 0 8 ≤ tile * 4096 && tile * 4096 < fld r 0 8 + fld r 8 8) with
  | some r => fld r 16 1
  | none => 0

/-- Mode of an optical port under the port plan: 0 off, 1 fabric, 2 Ethernet; and its peer rank (R23). -/
def portPlan (l : List Sect) (p : Nat) : Nat × Nat :=
  match (sectRecs l 5 4)[p]? with
  | some r => (bitsOf (leNat r) 0 2, bitsOf (leNat r) 8 8)
  | none => (0, 0)

/-- The sharding plans' records: number and body after the first four bytes (R23, R246). -/
def plansFrom : Nat → List Byte → List (Nat × List Byte)
  | 0, _ => []
  | n + 1, bs =>
    let len := fld bs 2 2
    (fld bs 0 2, (bs.take len).drop 4) :: plansFrom n (bs.drop len)

def plansOf (l : List Sect) : List (Nat × List Byte) :=
  match sectOf l 6 with
  | some x => plansFrom x.count x.bytes
  | none => []

/-- CCLK codes of a clock plan, one per die; the minimal Weave has one plan at 1.0 GHz, code 0 (R27). -/
def clockPlan (l : List Sect) (k : Nat) : Option (List Nat) :=
  match l with
  | [] => if k = 0 then some (List.replicate 8 0) else none
  | _ => ((sectRecs l 7 8)[k]?).map (fun r => r.map (·.toNat))

/-- Retired units as (kind, index) pairs (R23). -/
def retiredOf (l : List Sect) : List (Nat × Nat) :=
  (sectRecs l 8 4).map (fun r => (bitsOf (leNat r) 0 8, bitsOf (leNat r) 8 16))

/-- Whether the list retires a unit, by itself or with the unit that contains it (R23). -/
def coreRetired (r : List (Nat × Nat)) (n : Nat) : Bool :=
  r.contains (1, n) || r.contains (2, n / 10) || r.contains (3, n / 100)
def laneRetired (r : List (Nat × Nat)) (l : Nat) : Bool := r.contains (4, l) || r.contains (5, l / 16)
def chanRetired (r : List (Nat × Nat)) (h : Nat) : Bool := r.contains (6, h) || r.contains (7, h / 16)
def oportRetired (r : List (Nat × Nat)) (p : Nat) : Bool := r.contains (8, p)
def laserRetired (r : List (Nat × Nat)) (q : Nat) : Bool := r.contains (9, q)

def unitRetired (r : List (Nat × Nat)) : CfgUnit → Bool
  | .core n => coreRetired r n
  | .lane l => laneRetired r l
  | .mport m => r.contains (7, m)
  | .oport p => oportRetired r p

/-- The fields of the limits section (R26); the minimal Weave limits nothing of its own (R27). -/
structure Limits where
  power   : Nat
  current : Nat
  launch  : Int
  rate    : Nat
  ring    : Nat
  dma     : Nat
  windows : List (Nat × Nat)
deriving DecidableEq, Repr

def weaveLimits (l : List Sect) : Option Limits :=
  ((sectRecs l 9 272)[0]?).map (fun r =>
    { power := fld r 0 2, current := fld r 2 2, launch := sgn 16 (fld r 4 2), rate := fld r 6 2, ring := fld r 8 4, dma := fld r 12 1,
      windows := (recordsOf 16 16 (r.drop 16)).map (fun w => (fld w 0 8, fld w 8 8)) })

/-! ### Option bytes in force (R343, R344) -/

/-- The fallback image of R344, without MAGIC, SEQ and CRC. -/
def optDefault : List Byte :=
  List.replicate 8 0#8 ++ natLE 2 2000 ++ natLE 2 600 ++ natLE 2 0 ++ natLE 2 200 ++ natLE 4 16 ++ [0#8, 1#8, 85#8, 8#8] ++ List.replicate 40 0#8

/-- The option image in force (R344). -/
def optImage (s : State) : List Byte := match s.opt.image with | [] => optDefault | i => i

def optFld (s : State) (off n : Nat) : Nat := fld (optImage s) off n
def optAdminA (s : State) : Bool := bitOf (optFld s 21 1) 0
def optAdminB (s : State) : Bool := bitOf (optFld s 21 1) 1
def optJtag (s : State) : Bool := bitOf (optFld s 21 1) 2
def optTmux (s : State) : Bool := bitOf (optFld s 21 1) 3
def optThrot (s : State) : Nat := optFld s 22 1
def optCclkMax (s : State) : Nat := optFld s 23 1

/-- The lowest of the hardware absolute, the option byte and the Weave value (R26). -/
def limitMin (hw opt : Nat) (w : Option Nat) : Nat := min (min hw opt) (w.getD hw)

/-- The limits in force (R26). The class 1 figure for OPT_LAUNCH is 2.0 dBm (R242). -/
def limitsOf (s : State) (l : List Sect) : Limits :=
  let w := weaveLimits l
  { power := limitMin 3800 (optFld s 8 2) (w.map (·.power)),
    current := limitMin 1200 (optFld s 10 2) (w.map (·.current)),
    launch := min (min 20 (sgn 16 (optFld s 12 2))) ((w.map (·.launch)).getD 20),
    rate := limitMin 200 (optFld s 14 2) (w.map (·.rate)),
    ring := limitMin 64 (optFld s 16 4) (w.map (·.ring)),
    dma := limitMin 16 (optFld s 20 1) (some ((w.map (·.dma)).getD 0)),
    windows := (w.map (·.windows)).getD [] }

/-- A die's cores are all between commands. -/
def dieIdle (s : State) (d : Nat) : Bool := (List.range 100).all (fun i => (s.core (100 * d + i)).running.isEmpty)

/-- A change of a die's CCLK is waiting for its cores (R17). -/
def clkWaits (s : State) (d : Nat) : Bool := s.hub2.clkPend.any (fun x => x.1 == d)

/-- A waiting change of a die's CCLK takes effect once every core of the die is between commands (R17). -/
def settleClk (s : State) (d : Nat) : State :=
  match s.hub2.clkPend.find? (fun x => x.1 == d) with
  | none => s
  | some x =>
    if dieIdle s d then
      { s with hub2 := { s.hub2 with clkCode := tset d0 s.hub2.clkCode d (BitVec.ofNat 5 x.2), clkPend := s.hub2.clkPend.filter (fun y => y.1 != d) } }
    else s

/-- Ask for a code of a die's CCLK (R17); a later request replaces one that waits. -/
def askClk (s : State) (d c : Nat) : State :=
  settleClk { s with hub2 := { s.hub2 with clkPend := s.hub2.clkPend.filter (fun y => y.1 != d) ++ [(d, c)] } } d

/-! ### Tally records and counters (19) -/

/-- Generate a Tally record in a unit's ring (R362, R363): unit identifier, context, code, payload. -/
def post (s : State) (u c code payload : Nat) : State :=
  s.modTally u (fun t => { t with fresh := t.fresh ++
    [{ time := BitVec.ofNat 48 s.time.toNat, unit := BitVec.ofNat 12 u, ctx := BitVec.ofNat 10 c, code := BitVec.ofNat 12 code,
       payload := BitVec.ofNat 46 payload }] })

/-- The hub's unit identifier (R362). -/
def uHub : Nat := 0x7FF
def uDie (d : Nat) : Nat := 0x400 + d
def uIbex (d : Nat) : Nat := 0x410 + d
def uMport (m : Nat) : Nat := 0x420 + m
def uOport (p : Nat) : Nat := 0x440 + p
def uLaser (q : Nat) : Nat := 0x460 + q

/-- Capacity of a ring (R362). -/
def tallyCap (u : Nat) : Nat := if u < 0x320 then 256 else 128

/-- Count in a register of a context's entry, by its offset. -/
def ctxCount (s : State) (c off n : Nat) : State :=
  if n = 0 then s else s.modCtx c (fun x => { x with ctr := ctrAdd x.ctr off n })

/-- Count in a register of a core's block, by its offset. -/
def coreCount (s : State) (n off k : Nat) : State :=
  if k = 0 then s else s.modCore n (fun c => { c with ctr := ctrAdd c.ctr off k })

/-- Count saturated and NaN-squashed elements of a command in one unit (R46): the context's and the device's counters, one Tally
record per kind. -/
def countSat (s : State) (u c sat nan : Nat) : State :=
  let s := if sat = 0 then s else
    post { (ctxCount s c 0x100 sat) with hub2 := { s.hub2 with ctr := ctrAdd s.hub2.ctr 0 sat } } u c 0x030 (min sat (2 ^ 32 - 1))
  if nan = 0 then s else
    post { (ctxCount s c 0x108 nan) with hub2 := { s.hub2 with ctr := ctrAdd s.hub2.ctr 8 nan } } u c 0x031 (min nan (2 ^ 32 - 1))

/-! ### Classes, frames and places (R186 to R188) -/

/-- Channels in service since boot (R186). -/
def chansIn (s : State) : List Nat := (List.range 256).filter (fun h => !s.tiers.outCh.contains h)

/-- N of R186. -/
def nChan (s : State) : Nat := 256 - s.tiers.outCh.length

/-- Channel of a class: the k-th lowest in service (R186). -/
def chanOf (s : State) (k : Nat) : Nat := if s.tiers.outCh = [] then k else (chansIn s).getD k 0

def classOf (s : State) (t : Nat) : Nat := t % nChan s
def indexOf (s : State) (t : Nat) : Nat := t / nChan s
def portOf (s : State) (t : Nat) : Nat := chanOf s (classOf s t) / 16

/-- SRAM frames of a class in each slice (R187). -/
def framesPer (s : State) : Nat := 524288 / nChan s

/-- LPDDR5X frames of a channel (R187). -/
def lpFrames : Nat := 1048576

/-- Slices in service since boot. -/
def slicesIn (s : State) : List Nat := (List.range 8).filter (fun d => !s.tiers.outSlice.contains d)

/-- A frame of class `k` as the retirement list in the NVM die names it, whatever the interleave (R199): the channel and frame number, or the
slice and the number of the frame in it, of which class `k` has F from k × F (log 25). -/
def nvmName (s : State) (k : Nat) : TFrame → Nat × TFrame
  | .lp i => (chanOf s k, .lp i)
  | .sram d p => (0, .sram d (k * framesPer s + p))

/-- The class and frame that an entry of the retirement list is under the interleave in force, if it is of a class. -/
def nvmFrame (s : State) (x : Nat × TFrame) : Option (Nat × TFrame) :=
  match x.2 with
  | .lp i => ((List.range (nChan s)).find? (fun k => chanOf s k == x.1)).map (fun k => (k, .lp i))
  | .sram d q =>
    let f := framesPer s
    if f = 0 || nChan s * f ≤ q then none else some (q / f, .sram d (q % f))

/-- A frame of class `k` is in the retirement list. -/
def frameOut (s : State) (k : Nat) (f : TFrame) : Bool := s.nvmFrames.contains (nvmName s k f)

/-- Frames of a class that are out of service and listed in the NVM die (R199), in slices that were in service at boot. -/
def framesLost (s : State) (k : Nat) : Nat := tget dN s.tiers.topRetired k

/-- Backed tiles of a class (R187). -/
def backedOf (s : State) (k : Nat) : Nat := lpFrames + (slicesIn s).length * framesPer s - framesLost s k

/-- Whether a tile of the unified range is backed (R187, R201). -/
def tileBacked (s : State) (t : Nat) : Bool := t * 4096 < Config.uniTop && indexOf s t < backedOf s (classOf s t)

/-- Whether a tile is an overflow tile (R188). -/
def isOverflow (s : State) (t : Nat) : Bool := lpFrames ≤ indexOf s t

/-- The slices out of service at boot that lie below the number in service, and the slices in service at or above it: as many. -/
def slicesGone (s : State) : List Nat := s.tiers.outSlice.filter (· < (slicesIn s).length)
def slicesSpare (s : State) : List Nat := (slicesIn s).filter ((slicesIn s).length ≤ ·)

/-- The slice of an overflow tile whose R188 slice is `q`: `q` itself, but for a slice out of service at boot, whose tiles lie in the slices
that the class's unbacked tiles leave (log 25). -/
def sliceAt (s : State) (q : Nat) : Nat :=
  if s.tiers.outSlice.contains q then (slicesSpare s).getD ((slicesGone s).findIdx (· == q)) q else q

/-- The R188 slice number whose tiles lie in slice `d`. -/
def sliceNo (s : State) (d : Nat) : Nat :=
  if s.tiers.outSlice != [] && (slicesSpare s).contains d then (slicesGone s).getD ((slicesSpare s).findIdx (· == d)) d else d

/-- The place R188 gives a tile at initialisation. -/
def homeFrame (s : State) (t : Nat) : TFrame :=
  let j := indexOf s t
  if j < lpFrames then .lp j
  else .sram (sliceAt s ((j - lpFrames) / framesPer s)) ((j - lpFrames) % framesPer s)

/-- The frame that holds a tile, as the residency map records it (R188). -/
def frameOf (s : State) (t : Nat) : TFrame :=
  match s.tiers.resid.find? (fun x => x.1 == t) with
  | some x => x.2
  | none => homeFrame s t

/-- The tile whose place at initialisation is a frame of class `k`. -/
def tileAtHome (s : State) (k : Nat) : TFrame → Nat
  | .lp i => i * nChan s + k
  | .sram d p => (lpFrames + sliceNo s d * framesPer s + p) * nChan s + k

/-- The tile a frame of class `k` holds, if any. -/
def tileIn (s : State) (k : Nat) (f : TFrame) : Option Nat :=
  match s.tiers.resid.find? (fun x => classOf s x.1 == k && x.2 == f) with
  | some x => some x.1
  | none =>
    let t := tileAtHome s k f
    if (s.tiers.resid.any (fun x => x.1 == t)) || !tileBacked s t then none else some t

/-- Record a tile's frame; a tile at its place of R188 is not listed. -/
def setFrame (s : State) (t : Nat) (f : TFrame) : State :=
  let rest := s.tiers.resid.filter (fun x => x.1 != t)
  let l := if f = homeFrame s t then rest else rest.filter (fun x => x.1 < t) ++ [(t, f)] ++ rest.filter (fun x => t < x.1)
  { s with tiers := { s.tiers with resid := l } }

/-- Key of an SRAM frame's use bit: class, slice, position. -/
def useKey (k d p : Nat) : Nat := (k * 8 + d) * 2 ^ 20 + p

/-- Whether a tile's channel was lost to a delta since boot (R202). -/
def chanLost (s : State) (t : Nat) : Bool :=
  let h := chanOf s (classOf s t)
  (s.mport (h / 16)).lost.getLsbD (h % 16)

/-- The word of a residency map that records a tile's frame (R188; log 71): number 2^19 m upward on port `m`. -/
def mapWordOf (s : State) (t : Nat) : Nat := portOf s t * 2 ^ 19 + Config.mapWord t % 2 ^ 19

/-- Tiles whose contents are lost: recorded in an uncorrectable map word (R204), or in the LPDDR5X tier of a lost channel (R202), from or to
which nothing moves. -/
def tileLost (s : State) (t : Nat) : Bool :=
  (s.tiers.mapBad != [] && tget d0 s.tiers.mapBad (mapWordOf s t) == 2) || (chanLost s t && (match frameOf s t with | .lp _ => true | .sram _ _ => false))

/-! ### Addresses and rights -/

/-- What kind of place a device address names (R405). -/
inductive Space where
  | uni | gap | host
deriving DecidableEq, Repr

def spaceOf (a : Nat) : Space := if a < Config.uniTop then .uni else if a < Config.hostBase then .gap else .host

/-- A region lies in the union of ranges. -/
def coveredBy (rs : List (Nat × Nat)) : Nat → Nat → Nat → Bool
  | 0, a, b => b ≤ a
  | n + 1, a, b =>
    if b ≤ a then true else
    match rs.find? (fun r => r.1 ≤ a && a < r.1 + r.2) with
    | some r => coveredBy rs n (r.1 + r.2) b
    | none => false

def covered (rs : List (Nat × Nat)) (a n : Nat) : Bool := coveredBy rs (rs.length + 1) a (a + n)

/-- Partitions a context may use, in a unit's generation (R291): all of them for context 0. -/
def ctxParts (s : State) (l : List Sect) (c : Nat) : List Part :=
  (partsOf l).filter (fun p => c == 0 || (s.ctx c).parts.getLsbD p.num)

/-- The context's partition ranges (R291). -/
def ctxRanges (s : State) (l : List Sect) (c : Nat) : List (Nat × Nat) := (ctxParts s l c).map (fun p => (p.base, p.len))

def inRanges (s : State) (l : List Sect) (c a n : Nat) : Bool := covered (ctxRanges s l c) a n

/-- Two regions share a byte. -/
def meets (a n b m : Nat) : Bool := 0 < n && 0 < m && a < b + m && b < a + n

/-- The read-only ranges of a context (R291). -/
def roRanges (x : Ctx) : List (Nat × Nat) :=
  [x.ro0, x.ro1].map (fun v => (bitsOf v.toNat 0 36 * 4096, bitsOf v.toNat 36 28 * 4096))

def hitsRo (s : State) (c a n : Nat) : Bool := (roRanges (s.ctx c)).any (fun r => meets a n r.1 r.2)

/-- A region meets a sealed manifest (R306). -/
def hitsSealed (s : State) (a n : Nat) : Bool := s.manifests.any (fun m => meets a n m.addr m.len)

/-- A region of the unified range contains an unbacked tile (R201). -/
def hitsUnbacked (s : State) (a n : Nat) : Bool :=
  if s.tiers.topRetired = [] && s.tiers.outCh = [] && s.tiers.outSlice = [] then decide (Config.uniTop < a + n)
  else (List.range ((a + n + 4095) / 4096 - a / 4096)).any (fun i => !tileBacked s (a / 4096 + i))

/-- The DMA windows in use, as device address ranges with their numbers (R26, R324). -/
def dmaWindows (s : State) (l : List Sect) : List (Nat × Nat × Nat) :=
  let lim := limitsOf s l
  ((lim.windows.take lim.dma).zipIdx).filterMap (fun w => if w.1.2 = 0 then none else some (w.2, Config.hostBase + w.1.1, w.1.2))

/-- The window that holds a region of host memory. -/
def windowOf (s : State) (l : List Sect) (a n : Nat) : Option Nat :=
  ((dmaWindows s l).find? (fun w => w.2.1 ≤ a && a + n ≤ w.2.1 + w.2.2)).map (·.1)

/-- Whether a party is fenced by a Hurdle of a kind and target (R283). -/
def hurdled (s : State) (kind target : Nat) : Bool :=
  s.hurdles.any (fun x => x.2.busy && x.2.kind.toNat == kind && x.2.target.toNat == target)

/-- A unit's kind and index as a retired-unit record codes them (R23). -/
def unitCode : CfgUnit → Nat × Nat
  | .core n => (1, n)
  | .lane l => (4, l)
  | .mport m => (7, m)
  | .oport p => (8, p)

/-- A unit is fenced: by a kind-5 Hurdle, its kind and index as a retired-unit record codes them (R283), or by the Weave (R32, R412). -/
def unitFenced (s : State) (kind idx : Nat) : Bool :=
  hurdled s 5 (kind + 256 * idx) || s.weave.fences.any (fun u => unitCode u == (kind, idx))

/-- An LPDDR5X channel is fenced, by itself or with its memory-port die (R283). -/
def chanFenced (s : State) (ch : Nat) : Bool := unitFenced s 6 ch || unitFenced s 7 (ch / 16)

/-- Whether a context is fenced: a Hurdle of kind 2, or it is being destroyed (R283, R290). -/
def ctxFenced (s : State) (c : Nat) : Bool := hurdled s 2 c || (s.ctx c).state == 2

/-- Host port `p` (0 A, 1 B) is up and unfenced. -/
def hpUp (s : State) (p : Nat) : Bool := (s.hp p).mode != 0 && !hurdled s 3 p

/-- The port that a window's map bits name (R324): 0 A, 1 B, none. -/
def winPort (s : State) (w : Nat) : Option Nat :=
  match (s.hp 0).winmap.getLsbD w, (s.hp 1).winmap.getLsbD w with
  | true, false => some 0
  | false, true => some 1
  | true, true => if hpUp s 0 then some 0 else some 1
  | false, false => none

/-- Whether a region of host memory may be accessed at all: inside a window that some port serves (R26, R324). -/
def hostAllowed (s : State) (l : List Sect) (a n : Nat) : Bool :=
  match windowOf s l a n with
  | some w => (winPort s w).isSome
  | none => false

/-- The host port by which an allowed region is reached. -/
def hostPort (s : State) (l : List Sect) (a n : Nat) : Option Nat := (windowOf s l a n).bind (winPort s)

/-- An access to the region reaches its host: its port is up and unfenced (R324). -/
def hostReach (s : State) (l : List Sect) (a n : Nat) : Bool :=
  match hostPort s l a n with
  | some p => hpUp s p
  | none => false

/-! ### Memory ports behind the unified range (R194, R196, R197, R199) -/

/-- On whose behalf an access is made: the context, the compute die whose engine makes it (R194; none for the hub, a host or a peer), and
whether a command makes it, as every access but a host's does (R199). -/
structure By where
  ctx : Nat := 0
  die : Option Nat := none
  cmd : Bool := true
deriving DecidableEq, Repr

/-- The accesses of a core's command. -/
def Running.by (r : Running) : By := { ctx := r.rec'.ctx, die := some (r.core / 100) }

def isSram : TFrame → Bool
  | .sram _ _ => true
  | .lp _ => false

/-- The highest backed tile of a class: T of R199. -/
def topTile (s : State) (k : Nat) : Nat := (backedOf s k - 1) * nChan s + k

/-- T is released: an overflow tile never written since initialisation, or named in MP_RELEASE (R199). -/
def topFreed (s : State) (k : Nat) : Bool :=
  let t := topTile s k
  s.tiers.released.contains t || (isOverflow s t && !s.tiers.written.contains t)

/-- Frames of a class that wait for their T write Tally 0x082 once (R199). -/
def noteWaiting (s : State) (k : Nat) : State :=
  if topFreed s k then s
  else s.tiers.retiring.foldl (fun s r =>
    if r.cls = k && !r.noted then
      post { s with tiers := { s.tiers with retiring := s.tiers.retiring.map (fun q => if q = r then { q with noted := true } else q) } }
        (uMport (chanOf s k / 16)) 0 0x082 0
    else s) s

/-- A frame in service starts retiring (R199); Tally 0x082 is written when the class's highest tile is not yet released. -/
def startRetire (s : State) (k : Nat) (f : TFrame) : State :=
  if s.tiers.retiring.any (fun r => r.cls == k && r.frame == f) || frameOut s k f then s
  else noteWaiting { s with tiers := { s.tiers with retiring := s.tiers.retiring ++ [{ cls := k, frame := f, noted := false }] } } k

/-- Payload of 0x040 and 0x041 in a memory port's ring (R197): device-address bits [40:3], channel within the port. -/
def eccPayload (s : State) (a : Nat) : Nat :=
  bitsOf a 3 38 + 2 ^ 38 * (chanOf s (classOf s (a / 4096)) % 16)

/-- Record a corrected word of the unified range (R197). -/
def noteCorrected (s : State) (c a : Nat) : State :=
  let m := portOf s (a / 4096)
  post (s.modMport m (fun x => { x with corrected := stick x.corrected 1 })) (uMport m) c 0x040 (eccPayload s a)

/-- Record an uncorrectable word of the unified range (R197). -/
def noteUncorr (s : State) (c a : Nat) : State :=
  let m := portOf s (a / 4096)
  post (s.modMport m (fun x => { x with uncorr := true, chan := BitVec.ofNat 4 (chanOf s (classOf s (a / 4096)) % 16),
                                        errAddr := BitVec.ofNat 38 (a / 8) })) (uMport m) c 0x041 (eccPayload s a)

/-- The write-back of a corrected word counts among its channel's bytes written (R205). -/
def countWriteBack (s : State) (a : Nat) : State :=
  match frameOf s (a / 4096) with
  | .lp _ => s.modMport (portOf s (a / 4096)) (fun x => { x with ctr := ctrAdd x.ctr 0x050 8 })
  | .sram _ _ => s

/-- A read of the unified range acts on the words with errors it meets: corrections are written back, an uncorrectable word is recorded,
and its frame starts retiring where a command, a move or the scrub engine reads it (R197, R199). -/
def readErrors (s : State) (b : By) (l : List (Nat × BitVec 2)) : State :=
  l.foldl (fun s x =>
    let a := x.1 * 8
    if x.2 = 1 then countWriteBack (noteCorrected { s with uniBad := tset d0 s.uniBad x.1 0 } b.ctx a) a
    else if b.cmd then startRetire (noteUncorr s b.ctx a) (classOf s (a / 4096)) (frameOf s (a / 4096)) else noteUncorr s b.ctx a) s

/-- Check condition of the word at a device address: 0 good, 1 single-bit error, 2 uncorrectable. -/
def uniCheck (s : State) (w : Nat) : Nat := (tget d0 s.uniBad w).toNat

/-- The words with a check-code error that a region touches, in address order. -/
def badWords (t : Tbl (BitVec 2)) (a n : Nat) : List (Nat × BitVec 2) :=
  t.filter (fun x => n != 0 && a / 8 ≤ x.1 && x.1 ≤ (a + n - 1) / 8)

/-- Tiles that a region touches. -/
def tilesOf (a n : Nat) : List Nat := if n = 0 then [] else (List.range ((a + n - 1) / 4096 - a / 4096 + 1)).map (· + a / 4096)

/-- Some tile has been lost since the range was initialised. -/
def anyLost (s : State) : Bool := s.tiers.mapBad != [] || s.mports.any (fun m => m.2.lost != 0)

/-- The first uncorrectable word or lost tile in a region of the unified range: its address. -/
def uniFault (s : State) (a n : Nat) : Option Nat :=
  let w := ((badWords s.uniBad a n).find? (fun x => x.2 == 2)).map (fun x => x.1 * 8)
  let t := if !anyLost s then none
    else ((tilesOf a n).find? (tileLost s)).map (fun t => max (t * 4096) (a / 8 * 8))
  match w, t with
  | some x, some y => some (min x y)
  | some x, none => some x
  | none, y => y

/-- Bytes of a region that lie in one tile. -/
def bytesIn (a n t : Nat) : Nat := min (a + n) ((t + 1) * 4096) - max a (t * 4096)

/-- Count the channel bytes of a tile's change of frame (R205). -/
def countMoveBytes (s : State) (m : Nat) (old new : TFrame) : State :=
  s.modMport m (fun x =>
    let c := if isSram old then x.ctr else ctrAdd x.ctr 0x048 4096
    { x with ctr := if isSram new then c else ctrAdd c 0x050 4096 })

/-- A tile read in a move: words with errors are corrected or reported, and its frame starts retiring (R197, R204). -/
def moveErrors (s : State) (t : Nat) : State := readErrors s {} (badWords s.uniBad (t * 4096) 4096)

/-- Tiles that have left the LPDDR5X tier leave their port's promotion filter (R194). -/
def trimFilter (s : State) (m : Nat) : State :=
  if (s.mport m).filter = [] then s else s.modMport m (fun x => { x with filter := x.filter.filter (fun e => !isSram (frameOf s e.1)) })

/-- End a move: its words have been read, the map is updated, the tiles counted (R196). -/
def finishMove (s : State) (mv : Move) : State :=
  let m := mv.channel / 16
  let s := { s with tiers := { s.tiers with moves := s.tiers.moves.erase mv } }
  let s := mv.places.foldl (fun s p => moveErrors s p.1) s
  let s := mv.places.foldl (fun s p => countMoveBytes s m (frameOf s p.1) p.2) s
  let s := mv.places.foldl (fun s p => setFrame s p.1 p.2) s
  trimFilter (s.modMport m (fun x => { x with ctr := ctrAddField (ctrAddField x.ctr 0x038 0 32 mv.inward) 0x038 32 32 mv.outward })) m

/-- A tile is touched by a move in progress. -/
def inMove (s : State) (t : Nat) : Bool := s.tiers.moves.any (fun m => m.places.any (fun p => p.1 == t))

/-- An access to a tile in a move is held and served once the move ends (R196): the step that makes it takes in the move's end (log 72). -/
def waitMove (s : State) (t : Nat) : State :=
  match s.tiers.moves.find? (fun m => m.places.any (fun p => p.1 == t)) with
  | some mv => finishMove s mv
  | none => s

/-- The residency map is read for a tile (R188): a single-bit error of its word is corrected, an uncorrectable word sets MAPLOST (R197, R204). -/
def readMap (s : State) (c t : Nat) : State :=
  if s.tiers.mapBad = [] then s
  else
    let w := mapWordOf s t
    let m := portOf s t
    let e := tget d0 s.tiers.mapBad w
    if e = 1 then
      noteCorrected { s with tiers := { s.tiers with mapBad := tset d0 s.tiers.mapBad w 0 } } c (t * 4096)
    else if e = 2 && !s.tiers.lostMap.contains w then
      post ({ s with tiers := { s.tiers with lostMap := s.tiers.lostMap ++ [w] } }.modMport m (fun x => { x with maplost := true })) (uMport m) c 0x041
        (eccPayload s (t * 4096))
    else s

/-- Add a tile to a port's promotion filter, oldest first, or count its access by an engine of a die; the oldest of 4,096 is dropped (R194). -/
def filterBump (f : List (Nat × Nat × Nat)) (t d : Nat) : List (Nat × Nat × Nat) :=
  if f.any (fun x => x.1 == t) then f.map (fun x => if x.1 = t then (t, x.2.1 + 1, d) else x)
  else (if f.length ≥ 4096 then f.drop 1 else f) ++ [(t, 1, d)]

/-- A write makes an overflow tile one that has been written (R199): frames that waited for nothing may now wait for its release. -/
def noteWritten (s : State) (t : Nat) : State :=
  if isOverflow s t && !s.tiers.written.contains t then
    noteWaiting { s with tiers := { s.tiers with written := t :: s.tiers.written } } (classOf s t)
  else s

/-- What one access to a tile does at its memory port: an unbacked tile is counted (R201); else a move of the tile ends first (R196), an SRAM
frame's use bit is set and a policy-0 LPDDR5X tile enters the filter when an engine makes the access (R194), data bytes of the channel are
counted (R205), and a written overflow tile is remembered (R199). -/
def touchTile (b : By) (write : Bool) (a n : Nat) (s : State) (t : Nat) : State :=
  let m := portOf s t
  if !tileBacked s t then
    post (s.modMport m (fun x => { x with ctr := ctrAddField x.ctr 0x040 48 16 1 })) (uMport m) b.ctx 0x083 0
  else
    let s := readMap (waitMove s t) b.ctx t
    let s := if write then noteWritten s t else s
    match frameOf s t with
    | .sram d p => if b.die.isSome then { s with tiers := { s.tiers with use := tset dB s.tiers.use (useKey (classOf s t) d p) true } } else s
    | .lp _ =>
      let s := s.modMport m (fun x => { x with ctr := ctrAdd x.ctr (if write then 0x050 else 0x048) (bytesIn a n t) })
      match b.die with
      | some d => if policyOf (sectsOf s (.mport m)) t == 0 then s.modMport m (fun x => { x with filter := filterBump x.filter t d }) else s
      | none => s

/-- The side effects of a read of the unified range. -/
def touchRead (s : State) (b : By) (a n : Nat) : State :=
  let s := (tilesOf a n).foldl (touchTile b false a n) s
  readErrors s b (badWords s.uniBad a n)

/-- The bytes of a region of the unified range; unbacked tiles read zeros (R201). -/
def uniRead (s : State) (a n : Nat) : List Byte :=
  if hitsUnbacked s a n then (mread s.uni a n).zipIdx.map (fun x => if tileBacked s ((a + x.2) / 4096) then x.1 else 0)
  else mread s.uni a n

/-- The 64-bit word at an address of the unified range. -/
def uniWord (s : State) (a : Nat) : BitVec 64 := BitVec.ofNat 64 (leNat (uniRead s a 8))

/-- The words that a write covers only in part, and those it covers whole. -/
def partWords (a n : Nat) : List Nat :=
  (if a % 8 != 0 || n < 8 then [a / 8] else []) ++ (if (a + n) % 8 != 0 && (a + n) / 8 != a / 8 then [(a + n) / 8] else [])

/-- The check code of the words a write touches (R197): a word written whole becomes good; a partial write reads the word first: it corrects
a single-bit error and leaves an uncorrectable word uncorrectable, recording either, and a command's read starts the frame's retirement (R199). -/
def writeErrors (s : State) (b : By) (a n : Nat) : State :=
  (badWords s.uniBad a n).foldl (fun s x =>
    if (partWords a n).contains x.1 then
      (if x.2 = 1 then noteCorrected { s with uniBad := tset d0 s.uniBad x.1 0 } b.ctx (x.1 * 8)
       else if b.cmd then startRetire (noteUncorr s b.ctx (x.1 * 8)) (classOf s (x.1 / 512)) (frameOf s (x.1 / 512))
       else noteUncorr s b.ctx (x.1 * 8))
    else { s with uniBad := tset d0 s.uniBad x.1 0 }) s

/-! ### Ring words (R292 to R298) -/

/-- Records of a ring. -/
def Ring.n (r : Ring) : Nat := 2 ^ max 4 r.log2n.toNat

def Ring.addr (r : Ring) : Nat := r.base.toNat * 64
def Ring.pair (r : Ring) : Nat := r.caddr.toNat * 16

/-- Distance between two free-running indices (R293). -/
def idxDist (p c : BitVec 32) : Nat := (p - c).toNat

/-- The control word that the Yunahar watches: the producer index, or for ring 5 the consumer index. -/
def Ring.watched (r : Ring) (k : Nat) : Nat := if k = 5 then r.pair + 8 else r.pair

/-- The control word that the Yunahar writes. -/
def Ring.ownWord (r : Ring) (k : Nat) : Nat := if k = 5 then r.pair else r.pair + 8

/-- A ring that runs: enabled and not stopped by an error. -/
def ringRuns (s : State) (c k : Nat) : Bool := ((s.ctx c).ring k).en && !(s.ctx c).ringErr.getLsbD k

/-- A ring error (R295): ERR bit k and Tally 0x0B0 with the word, or bit [35] for a link failure. -/
def ringError (s : State) (c k : Nat) (word : BitVec 64) (link : Bool) : State :=
  post (s.modCtx c (fun x => { x with ringErr := x.ringErr ||| BitVec.ofNat 6 (2 ^ k) })) uHub c 0x0B0
    (if link then k + 2 ^ 35 else k + 8 * (word.toNat % 2 ^ 32))

/-- Take a new value of a watched word, unless it is malformed. -/
def takeIndex (s : State) (c k : Nat) (w : BitVec 64) : State :=
  let r := (s.ctx c).ring k
  let lo : BitVec 32 := BitVec.ofNat 32 w.toNat
  let d := if k = 5 then idxDist r.own lo else idxDist lo r.own
  if w.toNat / 2 ^ 32 ≠ 0 ∨ r.n < d then ringError s c k w false
  else s.modCtx c (fun x => x.modRing k (fun r => { r with other := lo, deferred := none }))

/-- The microsecond of device time. -/
def usOf (s : State) : Nat := s.time.toNat / 1000

/-- A change of one of the context's rings waits for the start of the next microsecond (R298). -/
def anyDeferred (x : Ctx) : Bool := (List.range 5).any (fun k => (x.ring k).deferred.isSome)

/-- Observe a value of the watched word of a ring (R298): a change beyond RING_RATE in this microsecond is deferred, and so is every later
one until RING_RATE_DEFER takes the deferred ones. -/
def observeValue (s : State) (c k : Nat) (w : BitVec 64) : State :=
  if w.toNat = ((s.ctx c).ring k).other.toNat then s
  else if k = 5 then takeIndex s c k w
  else
    let s := s.modCtx c (fun x => if x.takenUs = usOf s || anyDeferred x then x else { x with takenUs := usOf s, taken := 0 })
    if !anyDeferred (s.ctx c) && (s.ctx c).taken < (limitsOf s s.weave.cur.sects).ring then
      takeIndex (s.modCtx c (fun x => { x with taken := x.taken + 1 })) c k w
    else s.modCtx c (fun x => x.modRing k (fun r => { r with deferred := some w }))

/-- The running rings whose watched word a test picks, as context and ring. -/
def ringsWatching (s : State) (p : Ring → Nat → Bool) : List (Nat × Nat) :=
  s.ctxs.flatMap (fun x => ((List.range 6).filter (fun k => ringRuns s x.1 k && p ((s.ctx x.1).ring k) (((s.ctx x.1).ring k).watched k))).map (fun k => (x.1, k)))

/-- The monitored ring words that a write has changed are observed (R269, R270): each value counts. -/
def evalRings (s : State) (a n : Nat) : State :=
  (ringsWatching s (fun r w => r.how == .monitored && meets a n w 8)).foldl (fun s x =>
    let w := ((s.ctx x.1).ring x.2).watched x.2
    if (uniFault s w 8).isSome then s else observeValue s x.1 x.2 (uniWord s w)) s

/-- Evaluate the monitored WAITs whose word a write has changed (R269, R270): each value counts. -/
def evalWaits (s : State) (a n : Nat) : State :=
  if s.cores.all (fun c => c.2.waits = []) then s else
  { s with cores := s.cores.map (fun c => (c.1, { c.2 with waits := c.2.waits.map (fun w =>
      let wa := fld w.rec'.bytes 16 6
      if w.how = .monitored && !w.met && w.fault == 0 && meets a n wa 8 then
        (if (uniFault s wa 8).isSome then { w with fault := stEcc }
         else
          let v := uniWord s wa
          { w with last := v, met := waitHolds (bitsOf (fld w.rec'.bytes 8 1) 0 3) v (BitVec.ofNat 64 (fld w.rec'.bytes 24 8)) })
      else w) })) }

/-- A tile takes the bytes written to it: it is backed and not lost (R201, R202). -/
def tileTakes (s : State) (t : Nat) : Bool := tileBacked s t && !tileLost s t

/-- Write the unified range: unbacked tiles discard their bytes (R201), and so do lost ones (R202). -/
def uniWrite (s : State) (b : By) (a : Nat) (bs : List Byte) : State :=
  let n := bs.length
  let s := (tilesOf a n).foldl (touchTile b true a n) s
  let s := writeErrors s b a n
  let m := if hitsUnbacked s a n || anyLost s then bs.zipIdx.foldl (fun m x => if tileTakes s ((a + x.2) / 4096) then mset m (a + x.2) x.1 else m) s.uni
    else mwrite s.uni a bs
  evalRings (evalWaits { s with uni := m } a n) a n

/-- Mark a word written with its code still uncorrectable (R378). -/
def markBad (s : State) (a : Nat) : State := { s with uniBad := tset d0 s.uniBad (a / 8) 2 }

/-! ### Device memory: the unified range and host memory -/

/-- Why a read of device memory fails: an uncorrectable word at an address, or the host link. -/
inductive MemFault where
  | ecc (a : Nat)
  | link
deriving DecidableEq, Repr

def MemFault.status : MemFault → Status
  | .ecc _ => stEcc
  | .link => stLink

/-- DETAIL of a memory fault (R88, R407). -/
def MemFault.detail : MemFault → Nat
  | .ecc a => a % 2 ^ 32
  | .link => 0

/-- Whether a read of device memory fails (R197, R324). -/
def devFault (s : State) (a n : Nat) : Option MemFault :=
  match spaceOf a with
  | .host => if hostReach s s.weave.cur.sects a n then none else some .link
  | _ => (uniFault s a n).map .ecc

/-- The bytes of a region of device memory. -/
def devRead (s : State) (a n : Nat) : List Byte :=
  match spaceOf a with
  | .host => mread s.host a n
  | _ => uniRead s a n

/-- Count data bytes of device accesses to host memory at the port that serves them (R329). -/
def countDma (s : State) (write : Bool) (a n : Nat) : State :=
  match hostPort s s.weave.cur.sects a n with
  | some p => s.modHp p (fun h => if write then { h with dmawr := stick h.dmawr n } else { h with dmard := stick h.dmard n })
  | none => s

/-- Whether a write of device memory cannot be applied: to a lost tile (R202), or to host memory that is not reached (R324). -/
def devWrFault (s : State) (a n : Nat) : Option MemFault :=
  match spaceOf a with
  | .host => if hostReach s s.weave.cur.sects a n then none else some .link
  | _ => if !anyLost s then none else ((tilesOf a n).find? (tileLost s)).map (fun t => .ecc (max (t * 4096) (a / 8 * 8)))

/-- The side effects of a read of device memory. -/
def devTouch (s : State) (b : By) (a n : Nat) : State :=
  match spaceOf a with
  | .host => if hostReach s s.weave.cur.sects a n then countDma s false a n else s
  | _ => touchRead s b a n

/-- Write device memory; a write to host memory that cannot be reached is not applied (R324). -/
def devWrite (s : State) (b : By) (a : Nat) (bs : List Byte) : State :=
  match spaceOf a with
  | .host => if hostReach s s.weave.cur.sects a bs.length then countDma { s with host := mwrite s.host a bs } true a bs.length else s
  | _ => uniWrite s b a bs

/-- A 64-bit word of device memory. -/
def devWord (s : State) (a : Nat) : BitVec 64 := BitVec.ofNat 64 (leNat (devRead s a 8))

/-! ### The scratchpad (R72, R74) -/

def spRead (s : State) (n a len : Nat) : List Byte := mread (s.core n).scratch a len

/-- The first uncorrectable word in a region of a core's scratchpad. -/
def spFault (s : State) (n a len : Nat) : Option Nat :=
  ((badWords (s.core n).bad a len).find? (fun x => x.2 == 2)).map (fun x => x.1 * 8)

/-- A core enters RECOVERY by itself (R68); firmware starts, or starts again, a core test (R382). -/
def enterRecovery (s : State) (n : Nat) : State :=
  let old := (s.core n).serv
  let s := s.modCore n (fun c => { c with serv := 3, req := 3, testing := some 3, fwReq := false })
  if old = 3 then s else post s n 0 0x042 (3 + 16 * old.toNat)

/-- What a read of the scratchpad does about errors (R74): corrected words wait for their write-back, the first uncorrectable word
is recorded and sends the core to RECOVERY. A word read again before its write-back is corrected again and neither counted nor recorded a second
time (DESIGN CHOICE, log 75). -/
def spTouch (s : State) (n ctx a len : Nat) : State :=
  let l := badWords (s.core n).bad a len
  let s := (l.filter (fun x => x.2 == 1)).foldl (fun s x =>
    if (s.core n).wback.contains x.1 then s else
    post (s.modCore n (fun c => { c with corrected := stick c.corrected 1, wback := c.wback ++ [x.1] })) n ctx 0x040 (x.1 * 8)) s
  match l.find? (fun x => x.2 == 2) with
  | some x =>
    enterRecovery (post (s.modCore n (fun c => { c with uncorr := true, errTbuf := false, errAddr := BitVec.ofNat 17 x.1 })) n ctx 0x041 (x.1 * 8)) n
  | none => s

/-- Write the scratchpad: a word written whole becomes good and drops a pending write-back; a partial write corrects a single-bit error
and keeps an uncorrectable word uncorrectable, which is recorded without RECOVERY (R74, R197). -/
def spWrite (s : State) (n ctx a : Nat) (bs : List Byte) : State :=
  let len := bs.length
  let s := (badWords (s.core n).bad a len).foldl (fun s x =>
    if (partWords a len).contains x.1 then
      (if x.2 = 1 then
        post (s.modCore n (fun c => { c with bad := tset d0 c.bad x.1 0, corrected := stick c.corrected 1, wback := c.wback.filter (· != x.1) })) n ctx 0x040 (x.1 * 8)
       else post (s.modCore n (fun c => { c with uncorr := true, errTbuf := false, errAddr := BitVec.ofNat 17 x.1 })) n ctx 0x041 (x.1 * 8))
    else s.modCore n (fun c => { c with bad := tset d0 c.bad x.1 0, wback := c.wback.filter (· != x.1) })) s
  s.modCore n (fun c => { c with scratch := mwrite c.scratch a bs })

/-- Carry out one write of a command. -/
def applyWr (b : By) (s : State) (w : Wr) : State :=
  match w.scratch with
  | some k => spWrite s k b.ctx w.addr w.bytes
  | none => devWrite s b w.addr w.bytes

/-- Carry out writes in order. -/
def applyWrs (b : By) (s : State) (ws : List Wr) : State := ws.foldl (applyWr b) s

/-! ### Completion records and rings (R88, R292 to R297) -/

/-- Whether the completion ring takes a record now: enabled, no error, not full, no failed write to repeat (R297). -/
def compRoom (s : State) (c : Nat) : Bool :=
  let x := s.ctx c
  let r := x.ring 5
  r.en && !x.ringErr.getLsbD 5 && !r.retry && idxDist r.own r.other < r.n

/-- The writes of the next completion record can be made: its slot and the producer word can be reached (R297). -/
def compReach (s : State) (c : Nat) : Bool :=
  let r := (s.ctx c).ring 5
  let a := r.addr + (r.own.toNat % r.n) * 32
  (devWrFault s a 32).isNone && (devWrFault s r.pair 8).isNone

/-- Write one completion record and advance the producer word (R297). -/
def compWrite (s : State) (c : Nat) (bytes : List Byte) : State :=
  let r := (s.ctx c).ring 5
  let s := devWrite s { ctx := c } (r.addr + (r.own.toNat % r.n) * 32) bytes
  let s := devWrite s { ctx := c } r.pair (natLE 8 (r.own + 1).toNat)
  s.modCtx c (fun x => x.modRing 5 (fun r => { r with own := r.own + 1, written := r.own + 1 }))

/-- A completion record of R88. -/
def compBytes (s : State) (st : Status) (op tag core eng ctx : Nat) (seq : BitVec 32) (count detail satnan : Nat) : List Byte :=
  [st] ++ natLE 1 op ++ natLE 2 tag ++ natLE 2 (core % 1024 + 1024 * (eng % 4)) ++ natLE 2 (ctx % 1024) ++ natLE 4 seq.toNat ++
    natLE 4 count ++ natLE 4 detail ++ natLE 4 (min satnan (2 ^ 32 - 1)) ++ natLE 8 s.time.toNat

/-- Report a completion record that no core holds: it is written, or held with the context's earlier ones until it can be (R89, R297). -/
def report (s : State) (c : Nat) (bytes : List Byte) : State :=
  if (s.ctx c).comps = [] && compRoom s c && compReach s c then compWrite s c bytes
  else
    let s := if (s.ctx c).comps = [] && compRoom s c then s.modCtx c (fun x => x.modRing 5 (fun r => { r with retry := true })) else s
    s.modCtx c (fun x => { x with comps := x.comps ++ [{ ctx := c, bytes := bytes }] })

/-- Fields of the header of a record (R78), also of solver, collective and load records. -/
def Rec.op (r : Rec) : Nat := fld r.bytes 0 1
def Rec.tag (r : Rec) : Nat := fld r.bytes 2 2
def Rec.quiet (r : Rec) : Bool := bitOf (fld r.bytes 1 1) 4

/-- Complete a record of which no core keeps a slot, unless QUIET suppresses it (R88). -/
def reportRec (s : State) (r : Rec) (st : Status) (core eng count detail satnan : Nat) : State :=
  if r.quiet && st = stDone then s
  else report s r.ctx (compBytes s st r.op r.tag core eng r.ctx r.seq count detail satnan)

end Sys2Proof.Machine
end

