-- ==== Sys2Proof/Machine/Operands.lean ====
section
/-! DEFINITION. The operands of command records (R78 to R87): field layouts, reserved-field checks, scratchpad regions, and elements
of the eight formats read from and written to byte lists. -/

namespace Sys2Proof.Machine

open Sys2Proof

/-! ### Layouts and reserved fields -/

/-- A group of a record: byte offset, byte count, mask of the bits that fields use. -/
abbrev Group := Nat × Nat × Nat

/-- A device address in 8 bytes, bits [63:48] reserved (R79). -/
def gAddr (off : Nat) : Group := (off, 8, 2 ^ 48 - 1)

/-- A scratchpad address or stride in 4 bytes, 20 bits (R79). -/
def gSp (off : Nat) : Group := (off, 4, 2 ^ 20 - 1)

/-- A whole group without reserved bits. -/
def gAll (off n : Nat) : Group := (off, n, 256 ^ n - 1)

/-- The body layouts of the command records (R80 to R87). -/
def bodyGroups (op : Nat) : List Group :=
  match op with
  | 0x01 => [gAll 8 4, gAll 12 1, gAll 13 1, (14, 1, 0x3F), (16, 2, 0x1FF), (18, 2, 0x1FF), gAll 20 2, gAll 24 5, gAll 29 5, gAll 34 5,
      gAll 39 5, gAll 44 5, gAll 49 5]
  | 0x10 => [gAll 8 1, (9, 1, 0x3F), (10, 1, 0x3F), (12, 4, 2 ^ 19 - 1), gSp 16, gSp 20, gSp 24, gAll 28 4, gAll 32 4]
  | 0x11 => [gAll 8 1, (9, 1, 0x07), (10, 2, 2 ^ 13 - 1), (12, 4, 2 ^ 19 - 1), gSp 16, gSp 20, gSp 24]
  | 0x12 => [gAll 8 1, (9, 1, 1), gAll 12 4, gAll 16 4, gAddr 24]
  | 0x20 => [(8, 1, 1), (10, 2, 0x1FF), gAddr 16]
  | 0x21 => [(8, 1, 0x3F), (9, 1, 3), gAll 12 4, gSp 16, (20, 4, 2 ^ 21 - 1)]
  | 0x22 => [(8, 1, 0x3F), (9, 1, 3), gAll 12 4, gSp 16, (20, 4, 2 ^ 21 - 1)]
  | 0x30 => [gAll 8 1, (9, 1, 7), gAll 10 2, (12, 2, 0xFFF), gSp 16, gSp 20, gAddr 24, gAll 32 4]
  | 0x40 => [(8, 1, 0x13), gAddr 16, gAll 24 8]
  | 0x41 => [(8, 1, 7), gAll 12 4, gAddr 16, gAll 24 8]
  | _ => []

/-- Offsets at which a record holds a nonzero reserved bit, among the bytes from `lo` to `hi - 1`: bits outside a group's fields, and
bytes in no group (R3). -/
def reservedFails (gs : List Group) (lo hi : Nat) (r : List Byte) : List Nat :=
  (gs.filter (fun g => (fld r g.1 g.2.1) &&& (256 ^ g.2.1 - 1 - g.2.2) != 0)).map (·.1) ++
  ((List.range (hi - lo)).map (· + lo)).filter (fun b => !(gs.any (fun g => g.1 ≤ b && b < g.1 + g.2.1)) && fld r b 1 != 0)

/-- The least offset of a list of failing offsets. -/
def firstFail (l : List Nat) : Option Nat :=
  l.foldl (fun m x => match m with | none => some x | some y => some (min x y)) none

/-- Failing offsets among labelled conditions. -/
def fails (l : List (Nat × Bool)) : List Nat := (l.filter (·.2)).map (·.1)

/-- A refusal: its status and DETAIL. -/
abbrev Refuse := Status × Nat

/-- The first refusal of a list of checks in order. -/
def firstRefuse : List (Option Refuse) → Option Refuse
  | [] => none
  | some r :: _ => some r
  | none :: l => firstRefuse l

/-- A check that refuses with a status at an offset. -/
def chk (bad : Bool) (st : Status) (detail : Nat) : Option Refuse := if bad then some (st, detail) else none

/-! ### Header fields (R78) -/

def Rec.waitmask (r : Rec) : Nat := bitsOf (fld r.bytes 1 1) 0 4
def Rec.coreN (r : Rec) : Nat := bitsOf (fld r.bytes 4 2) 0 10
def Rec.engField (r : Rec) : Nat := bitsOf (fld r.bytes 6 1) 0 2

/-- Opcodes whose ENG field names their queue (R78). -/
def engOp (op : Nat) : Bool := op == 0x00 || op == 0x40 || op == 0x41

/-- The engine queue of a record (R79); an unknown opcode waits in the queue of ENG's value 0, the matrix queue (log 15). -/
def Rec.eng (r : Rec) : Nat :=
  match r.op with
  | 0x00 => r.engField
  | 0x40 => r.engField
  | 0x41 => r.engField
  | 0x10 => 1
  | 0x11 => 1
  | 0x12 => 1
  | 0x20 => 2
  | 0x21 => 2
  | 0x22 => 2
  | 0x30 => 3
  | _ => 0

def knownOp (op : Nat) : Bool := [0x00, 0x01, 0x10, 0x11, 0x12, 0x20, 0x21, 0x22, 0x30, 0x40, 0x41].contains op

/-- The first nonzero reserved field of the header, or a CORE above 799 (check 1 of R100). -/
def headerFail (r : Rec) : Option Nat :=
  firstFail (fails [(1, bitsOf (fld r.bytes 1 1) 5 3 ≠ 0), (4, bitsOf (fld r.bytes 4 2) 10 6 ≠ 0 || 799 < r.coreN),
    (6, bitsOf (fld r.bytes 6 1) 2 6 ≠ 0 || (!engOp r.op && r.engField ≠ 0)), (7, fld r.bytes 7 1 ≠ 0)])

/-! ### Regions -/

/-- A region of addresses: first address and length in bytes. -/
abbrev Region := Nat × Nat

/-- The region of rows at a stride (R56). -/
def rowsRegion (addr stride rows rowBytes : Nat) : Region := (addr, (rows - 1) * stride + rowBytes)

def regMeets (a b : Region) : Bool := meets a.1 a.2 b.1 b.2

/-- A scratchpad region passes 1 MiB or lies outside the slot's window (check 9 of R100). -/
def outsideWindow (x : Slot) (r : Region) : Bool :=
  let lo := x.wbase.toNat * 16384
  let hi := min ((x.wbase.toNat + x.wlen.toNat) * 16384) 0x10_0000
  r.2 != 0 && (r.1 + r.2 > 0x10_0000 || r.1 < lo || r.1 + r.2 > hi)

/-! ### Elements in byte lists -/

/-- Bytes of a row of `n` elements in a format (R40, R56). -/
def rowBytes (f n : Nat) : Nat := if f = 6 then 17 * cdiv n 32 else n * fmtSize f

/-- The code of element `i` of a row of bytes. -/
def elemCode (f : Nat) (bs : List Byte) (i : Nat) : Nat := leNat ((bs.drop (i * fmtSize f)).take (fmtSize f))

/-- The exact values of the `n` elements of a row (R38, R40). -/
def rowVals (f n : Nat) (bs : List Byte) : List Val :=
  if f = 6 then (List.range n).map (fun i => b4Decode ((bs.drop (17 * (i / 32))).take 17) (i % 32))
  else (List.range n).map (fun i => decode f (elemCode f bs i))

/-- What a row's conversion adds: bytes, saturations, NaN-squashes. -/
structure Enc where
  bytes : List Byte
  sat   : Nat
  nan   : Nat
deriving DecidableEq, Repr, Inhabited

def Enc.join (a b : Enc) : Enc := { bytes := a.bytes ++ b.bytes, sat := a.sat + b.sat, nan := a.nan + b.nan }

/-- Encode one element to nearest (R43). -/
def encElem (f : Nat) (v : Val) : Enc :=
  let c := encode f v
  { bytes := natLE (fmtSize f) c.code, sat := b2n c.sat, nan := b2n c.nan }

/-- Encode blocks of B4 (R44), padding the last with +0. -/
def encBlocks : Nat → List Val → Enc
  | 0, _ => { bytes := [], sat := 0, nan := 0 }
  | n + 1, vs =>
    let blk := vs.take 32
    let (b, s, q) := b4Encode (blk ++ List.replicate (32 - blk.length) (.fin false 0 0))
    Enc.join { bytes := b, sat := s, nan := q } (encBlocks n (vs.drop 32))

/-- Encode a row to nearest (R43, R44). -/
def encRow (f : Nat) (vs : List Val) : Enc :=
  if f = 6 then encBlocks (cdiv vs.length 32) vs
  else vs.foldl (fun e v => Enc.join e (encElem f v)) { bytes := [], sat := 0, nan := 0 }

/-- FP32 values of a row (R42). -/
def rowF32 (f n : Nat) (bs : List Byte) : List F32 :=
  (rowVals f n bs).map (fun v => BitVec.ofNat 32 (fp32f.encode v).code)

/-- FP32 words of a byte list. -/
def f32s (n : Nat) (bs : List Byte) : List F32 := (List.range n).map (fun i => BitVec.ofNat 32 (leNat ((bs.drop (4 * i)).take 4)))

/-- The bytes of FP32 words. -/
def f32Bytes (l : List F32) : List Byte := l.flatMap (fun x => natLE 4 x.toNat)

end Sys2Proof.Machine
end

