-- ==== Sys2Proof/Machine/Plan.lean ====
section
/-! DEFINITION. What an engine's command does, as a plan: the regions it reads, the writes it makes in order, and what its completion
reports. A fence or a fault lets a leading part of the writes stand (R378, R410). -/

namespace Sys2Proof.Machine

open Sys2Proof

/-- A region a command reads: of a core's scratchpad, or of device memory. -/
structure Rd where
  scratch : Option Nat
  addr    : Nat
  len     : Nat
deriving DecidableEq, Repr, Inhabited

/-- What a command does. `cut` says that a fault stops it before its last write, so that only a leading part of `wrs` stands. -/
structure Plan where
  rds    : List Rd := []
  wrs    : List Wr := []
  cut    : Bool := false
  status : List Status := []
  count  : Nat := 0
  detail : Nat := 0
  after  : List Wr := []
  hot    : Option (Nat × Nat × Nat × Nat) := none
deriving DecidableEq, Repr, Inhabited

/-- Whether a read fails (R74, R197, R324). -/
def Rd.fault (s : State) (r : Rd) : Option MemFault :=
  match r.scratch with
  | some n => (spFault s n r.addr r.len).map .ecc
  | none => devFault s r.addr r.len

/-- The bytes a read gives. -/
def Rd.get (s : State) (r : Rd) : List Byte :=
  match r.scratch with
  | some n => spRead s n r.addr r.len
  | none => devRead s r.addr r.len

/-- The side effects of a read. -/
def Rd.touch (s : State) (b : By) (r : Rd) : State :=
  match r.scratch with
  | some n => spTouch s n b.ctx r.addr r.len
  | none => devTouch s b r.addr r.len

/-- The first failing read of a list. -/
def rdsFault (s : State) (l : List Rd) : Option MemFault := l.findSome? (Rd.fault s)

/-- The side effects of reads in order, up to and including the first that fails. -/
def rdsTouch (b : By) (s : State) : List Rd → State
  | [] => s
  | r :: l => if (r.fault s).isSome then r.touch s b else rdsTouch b (r.touch s b) l

/-- Saturated and NaN-squashed elements of writes. -/
def wrsSat (l : List Wr) : Nat := (l.map (·.sat)).sum
def wrsNan (l : List Wr) : Nat := (l.map (·.nan)).sum

/-- A leading part of free length of the writes (R410; log 3). -/
def freeLead (s : State) (l : List Wr) : List Wr × State :=
  let (k, s) := freeBelow s (l.length + 1)
  (l.take k, s)

/-- Why a write fails: host memory that is not reached (R324), or a lost tile (R202). -/
def Wr.fault (s : State) (w : Wr) : Option MemFault :=
  match w.scratch with
  | some _ => none
  | none => devWrFault s w.addr w.bytes.length

/-- The writes up to the first that fails, and why that one does. -/
def upToFault (s : State) (l : List Wr) : List Wr × Option MemFault := (l.takeWhile (fun w => (w.fault s).isNone), l.findSome? (Wr.fault s))

/-! ### Writes of one block (R215) -/

/-- Put a byte among cells sorted by address. -/
def putByte : List Host.Cell → Nat → Byte → List Host.Cell
  | [], a, b => [(a, b)]
  | (x, y) :: r, a, b => if a < x then (a, b) :: (x, y) :: r else if a = x then (a, b) :: r else (x, y) :: putByte r a b

/-- Put bytes from an address upward. -/
def putBytes (l : List Host.Cell) (a : Nat) (bs : List Byte) : List Host.Cell := bs.zipIdx.foldl (fun l x => putByte l (a + x.2) x.1) l

/-- Sorted cells as writes of adjacent bytes. -/
def segments (sp : Option Nat) : List Host.Cell → List Wr
  | [] => []
  | (a, b) :: r =>
    match segments sp r with
    | w :: ws => if w.addr = a + 1 then { w with addr := a, bytes := b :: w.bytes } :: ws else { scratch := sp, addr := a, bytes := [b] } :: w :: ws
    | [] => [{ scratch := sp, addr := a, bytes := [b] }]

/-- A write cut at the boundary of a 64-byte block (an element is shorter than a block). -/
def splitBlock (w : Wr) : List Wr :=
  let k := 64 - w.addr % 64
  if w.bytes.length ≤ k then [w] else [{ w with bytes := w.bytes.take k }, { w with addr := w.addr + k, bytes := w.bytes.drop k }]

/-- Gather a run of writes of one block: its space, block and cells so far. -/
def gatherRuns (sp : Option Nat) (blk : Nat) (cells : List Host.Cell) : List Wr → List Wr
  | [] => segments sp cells
  | w :: ws =>
    if w.scratch = sp ∧ w.addr / 64 = blk then gatherRuns sp blk (putBytes cells w.addr w.bytes) ws
    else segments sp cells ++ gatherRuns w.scratch (w.addr / 64) (putBytes [] w.addr w.bytes) ws

/-- Element writes as an engine makes them: a run of elements that stays within one 64-byte block is written at once, so that a word
covered by the run is written whole (R215, R197; log 41). Counts of conversions are taken before. -/
def coalesce (l : List Wr) : List Wr := gatherRuns none 0 [] (l.flatMap splitBlock)

/-- Replace a running command, named by its start number. -/
def putRun (s : State) (n : Nat) (r : Running) : State :=
  s.modCore n (fun c => { c with running := c.running.map (fun x => if x.start = r.start then r else x) })

/-- The statuses a set of counts adds (R46). -/
def satStatus (sat nan : Nat) : List Status := if sat + nan = 0 then [] else [stSaturated]

/-- Bytes of writes. -/
def wrsBytes (l : List Wr) : Nat := (l.map (fun w => w.bytes.length)).sum

/-- Carry out a plan for a running command of a core: reads, writes, and what the completion will report. A write that fails ends the command
with its fault after the writes before it (R202, R324, R378). What a POP decodes the copy engine writes (R108, R221). -/
def runPlan (s : State) (n : Nat) (r : Running) (p : Plan) : State :=
  let s := rdsTouch r.by s p.rds
  let (ws, s) := if p.cut then freeLead s p.wrs else (p.wrs, s)
  let (ws, broken) := upToFault s ws
  let s := applyWrs r.by s (coalesce ws)
  let s := if r.rec'.op = 0x22 then coreCount s n 0x068 (wrsBytes ws) else s
  let sat := r.sat + wrsSat ws
  let nan := r.nan + wrsNan ws
  let st := worst (p.status ++ satStatus sat nan ++ (broken.map MemFault.status).toList)
  putRun s n { r with done := true, status := st, count := BitVec.ofNat 32 p.count,
                      detail := match broken with | some f => BitVec.ofNat 32 f.detail | none => BitVec.ofNat 32 p.detail,
                      sat := sat, nan := nan, after := if broken.isSome then [] else p.after, hot := p.hot }

/-! ### The generation bridge (R31) -/

/-- Parts of a generation that govern an address: the partitions and tier-map records that hold it. -/
def govern (l : List Sect) (a : Nat) : List (List Byte) :=
  (sectRecs l 2 160).filter (fun r => fld r 128 8 ≤ a && a < fld r 128 8 + fld r 136 8) ++
  (sectRecs l 4 24).filter (fun r => fld r 0 8 ≤ a && a < fld r 0 8 + fld r 8 8)

/-- While a delta is applied, a bridge of the package network holds what a unit sends to a memory port: the two hold different generations, and the
delta changes the partition or tier-map record that governs a tile of the region. After a rollback has begun, only a memory port still at g + 1 holds
anything (R32). The command that makes the access then waits (log 88). -/
def bridgeHolds (s : State) (u : CfgUnit) (a n : Nat) : Bool :=
  match s.weave.nxt with
  | none => false
  | some g => spaceOf a == .uni && (tilesOf a n).any (fun t =>
      (s.weave.st == .applying || s.weave.adopted.contains (.mport (portOf s t))) && genOf s u != genOf s (.mport (portOf s t)) &&
        govern s.weave.cur.sects (t * 4096) != govern g.sects (t * 4096))

/-- A bridge holds some access of a command: one of its reads or writes of device memory. -/
def accessHeld (s : State) (u : CfgUnit) (rds : List Rd) (wrs : List Wr) : Bool :=
  rds.any (fun r => r.scratch.isNone && bridgeHolds s u r.addr r.len) || wrs.any (fun w => w.scratch.isNone && bridgeHolds s u w.addr w.bytes.length)

/-- A bridge holds some access that a plan of a core's command makes. -/
def planHeld (s : State) (n : Nat) (p : Plan) : Bool := accessHeld s (.core n) p.rds (p.wrs ++ p.after)

/-- The running command of an engine that has one of the opcodes and has not had its effect. -/
def runningOp (c : Core) (e : Nat) (ops : List Nat) : Option Running :=
  c.running.find? (fun r => r.eng == e && !r.done && ops.contains r.rec'.op)

/-- A plan that ends in a fault found while reading (R407): nothing is written. -/
def faultPlan (f : MemFault) (rds : List Rd) : Plan := { rds := rds, status := [f.status], detail := f.detail }

end Sys2Proof.Machine
end

