-- ==== Sys2Proof/Machine/FabOps.lean ====
section
/-! DEFINITION. Requests to peers over the fabric: ranks and routes, transmission under credit, accesses outstanding and how they end
(R224 to R231, R379). -/

namespace Sys2Proof.Machine

open Sys2Proof

/-- A device's own rank: the least value from 0 that no route names (R224). -/
def ownRank (l : List Sect) : Nat :=
  let rs := routesOf l
  ((List.range (rs.length + 1)).find? (fun x => !(rs.any (fun r => r.rank == x)))).getD 0

def routeTo (l : List Sect) (rank : Nat) : Option Route := (routesOf l).find? (fun r => r.rank == rank)

/-- A port is in state UP (R232), and no Hurdle fences it or its laser die (R283). -/
def portUp (s : State) (p : Nat) : Bool := (s.oport p).state == 2 && !unitFenced s 8 p && !unitFenced s 9 (p / 8)

/-- Virtual channel of a packet type (R229). -/
def vcOf (typ : Nat) : Option Nat :=
  if typ == 0x01 || typ == 0x02 || typ == 0x03 || typ == 0x04 then some 0
  else if typ == 0x10 || typ == 0x11 then some 1
  else if typ == 0x20 || typ == 0x21 then some 2 else none

/-- Receive buffer of a VC in words of 64 data bits: the credit a sender starts with (R230). -/
def vcWords (vc : Nat) : Nat := if vc = 2 then 256 else 2048

/-- Words of a packet on the link: two header words, data, the two signal words when ATT is set (R228). -/
def pktWords (k : FabPkt) : Nat := 2 + k.data.length + (if k.att then 2 else 0)

/-- The VC whose freed words a port's next frame returns, and how many (R227, R230). -/
def creditDue (o : OPort) : Nat × Nat :=
  match o.freed with
  | [] => (0, 0)
  | x :: _ => (x.1, min x.2 (2 ^ 16 - 1))

/-- The frame of a sequence number that carries a packet (R227): with it go the last number received in order, a NAK that is owed, and freed words of one
VC. Its CRC-32 holds. -/
def frameWith (o : OPort) (seq : BitVec 12) (credit : Nat × Nat) (k : FabPkt) : Frame :=
  { seq := seq, ackseq := o.rxSeq - 1, nak := o.nakOwed, train := false, credit := credit.2, creditVc := BitVec.ofNat 2 credit.1, crcOk := true, pkts := [k] }

/-- The port sends a packet, in a frame of its own (log 27), which it keeps for resending (R231). -/
def sendFrame (now : BitVec 64) (k : FabPkt) (o : OPort) : OPort :=
  let vc := (vcOf k.typ.toNat).getD 0
  let d := creditDue o
  { o with outbox := o.outbox ++ [frameWith o o.txSeq d k], credit := tset vcWords o.credit vc (tget vcWords o.credit vc - pktWords k), nakOwed := false,
           freed := tset dN o.freed d.1 (tget dN o.freed d.1 - d.2), unacked := o.unacked ++ [{ seq := o.txSeq, sent := now, pkt := k }], txSeq := o.txSeq + 1 }

/-- A request of this device is on the link from now on (R226). -/
def noteSent (s : State) (p : Nat) (k : FabPkt) : State :=
  { s with accesses := s.accesses.map (fun a =>
      if !a.live && !k.fwd && vcOf k.typ.toNat == some 0 && a.tag % 4096 == k.xtag.toNat && a.rank == k.dst.toNat then { a with live := true, port := p, sent := s.time }
      else a) }

/-- The port may send a packet now: it is UP (R240), the retry buffer has room for a frame (R231), the port holds credit for all of the packet's words, and
nothing of its VC waits before it (R230). -/
def maySend (o : OPort) (k : FabPkt) : Bool :=
  let vc := (vcOf k.typ.toNat).getD 0
  o.state == 2 && o.unacked.length < 256 && pktWords k ≤ tget vcWords o.credit vc && !(o.held.any (fun h => (vcOf h.typ.toNat).getD 0 == vc))

/-- Hand a packet to a port: it goes out, or waits at the port until it may (R230). -/
def emit (s : State) (p : Nat) (k : FabPkt) : State :=
  if maySend (s.oport p) k then (noteSent s p k).modOport p (sendFrame s.time k) else s.modOport p (fun o => { o with held := o.held ++ [k] })

/-- Let the packets that wait at a port go as far as it may send, in order on each VC (R230, R231). -/
def releaseHeld (s : State) (p : Nat) : State :=
  let l := (s.oport p).held
  l.foldl (fun s k => emit s p k) (s.modOport p (fun o => { o with held := [] }))

/-- The port a route sends on now: its primary, or the alternate after a change of path (R226). -/
def livePort (s : State) (r : Route) : Nat :=
  if (tget pathDef s.paths r.rank).alt then r.alt.getD r.prim else r.prim

/-- The port the route should use: the primary while it is UP, else the alternate while that is UP (R225). -/
def wantPort (s : State) (r : Route) : Option Nat :=
  if portUp s r.prim then some r.prim
  else match r.alt with
    | some a => if portUp s a then some a else none
    | none => none

/-- A packet waits at the route's primary port until the route has changed path (R226). -/
def waitPath (s : State) (r : Route) (k : FabPkt) : State :=
  { (s.modOport r.prim (fun o => { o with waiting := o.waiting ++ [k] })) with
    paths := tset pathDef s.paths r.rank { tget pathDef s.paths r.rank with change := true } }

/-- Send a packet on the route to its destination: none when no path is UP (R243). A route that must change path first keeps its packets
waiting (R226). -/
def sendPkt (s : State) (l : List Sect) (rank : Nat) (k : FabPkt) : Option State :=
  match routeTo l rank with
  | none => none
  | some r =>
    match wantPort s r with
    | none => none
    | some p =>
      if p = livePort s r && !(tget pathDef s.paths rank).change then some (emit s p k) else some (waitPath s r k)

/-- Record at an access's owner how it ended: a core's running command takes the higher status, and the address of the first access that met an
uncorrectable word (R88); a collective record keeps them all, and such an address. -/
def ownerStatus (s : State) (a : Access) (st : Status) : State :=
  if a.unit < 800 then
    s.modCore a.unit (fun c => { c with running := c.running.map (fun r =>
      if r.start = a.owner.2 then
        { r with status := worse r.status st, detail := if st = stEcc && r.status != stEcc then BitVec.ofNat 32 a.addr.toNat else r.detail }
      else r) })
  else s.modCe ((a.unit - 0x440) / 4) (fun e => { e with inflight := e.inflight.map (fun r =>
    if r.order = a.owner.2 then
      { r with status := r.status ++ [st], ecc := if st = stEcc && r.ecc.isNone then some (a.addr.toNat % 2 ^ 48) else r.ecc }
    else r) })

/-- An access ends with a status: it leaves the table and its owner learns the status (R226, R275). -/
def endAccess (s : State) (a : Access) (st : Status) : State :=
  ownerStatus { s with accesses := s.accesses.filter (fun x => x.tag != a.tag) } a st

/-- An access ends with FAULT_LINK (R226). Where its packet had gone out and was not acknowledged, a write, an add or a signal is also in doubt: Tally
0x0F4 and CTX_LINKDOUBT (R379). -/
def loseAccess (s : State) (a : Access) : State :=
  let s := endAccess s a stLink
  if a.typ.toNat = 0x03 || !a.live then s
  else ctxCount (post s a.unit a.ctx 0x0F4 (bitsOf a.addr.toNat 3 45 + (if a.isAdd then 2 ^ 45 else 0))) a.ctx 0x1B8 1

/-- Pack bytes into data words. -/
def packWords (bs : List Byte) : List (BitVec 64) := (List.range (cdiv bs.length 8)).map (fun i => BitVec.ofNat 64 (leNat ((bs.drop (8 * i)).take 8)))

/-- Bytes of data words. -/
def unpackWords (n : Nat) (ws : List (BitVec 64)) : List Byte := (ws.flatMap (fun w => natLE 8 w.toNat)).take n

/-- What a request to a peer carries. -/
structure ReqArg where
  unit  : Nat
  owner : Nat × Nat
  ctx   : Nat
  rank  : Nat
  typ   : Nat
  addr  : Nat
  bytes : List Byte := []
  len   : Nat := 0
  fmt   : Nat := 0
  isAdd : Bool := false
  dst   : Option (Option Nat × Nat) := none
  sig   : Option (BitVec 64 × BitVec 64) := none
  par   : Bool := false
  idx   : Nat := 0
deriving Inhabited

/-- Send a request to a peer and remember it as outstanding (R226); with no path it ends at once with FAULT_LINK and nothing is sent. -/
def request (s : State) (l : List Sect) (q : ReqArg) : State :=
  let n := if q.typ = 0x03 then q.len else q.bytes.length
  let acc : Access :=
    { tag := s.nextTag, port := 0, rank := q.rank, ctx := q.ctx, unit := q.unit, owner := q.owner, typ := BitVec.ofNat 6 q.typ,
      addr := BitVec.ofNat 64 q.addr, isAdd := q.isAdd, words := n, dst := q.dst, idx := q.idx, sent := s.time }
  let k : FabPkt :=
    { typ := BitVec.ofNat 6 q.typ, genp := q.par, fwd := false, src := BitVec.ofNat 6 (ownRank l), dst := BitVec.ofNat 6 q.rank,
      ctx := BitVec.ofNat 10 q.ctx, len := BitVec.ofNat 6 (cdiv n 8), nbytes := n, xtag := BitVec.ofNat 12 s.nextTag, att := q.sig.isSome,
      fmt := BitVec.ofNat 3 q.fmt, status := 0, addr := BitVec.ofNat 64 q.addr, data := packWords q.bytes, checks := [], header := .good,
      sig0 := (q.sig.getD (0, 0)).1, sig1 := (q.sig.getD (0, 0)).2 }
  match (routeTo l q.rank).bind (fun r => (wantPort s r).map (fun _ => livePort s r)) with
  | none => ownerStatus s acc stLink
  | some p =>
    let s := { s with accesses := s.accesses ++ [{ acc with port := p }], nextTag := s.nextTag + 1 }
    (sendPkt s l q.rank k).getD s

/-- Whether an owner still has accesses outstanding. -/
def waitingAccess (s : State) (unit order : Nat) : Bool := s.accesses.any (fun a => a.unit == unit && a.owner.2 == order)

/-- The parity of a unit's generation, carried in GENP (R31). -/
def genPar (s : State) (u : CfgUnit) : Bool := (genOf s u).getLsbD 0

end Sys2Proof.Machine
end

