-- ==== Sys2Proof/Machine/Matrix.lean ====
section
/-! DEFINITION. The matrix operation (04): parameters and checks, chunked, integer and exact accumulation, the epilogues, tiles and
the tile buffers. -/

namespace Sys2Proof.Machine

open Sys2Proof

/-! ### Parameters (R55, R80) -/

/-- The parameters of a MATMUL. -/
structure MatParam where
  scale : F32
  epi   : Bool
  exact : Bool
  bfmt  : Nat
  afmt  : Nat
  chunk : Nat
  act   : Nat
  ofmt  : Nat
  flags : Nat
  m     : Nat
  n     : Nat
  k     : Nat
  aAddr : Nat
  aStr  : Nat
  bAddr : Nat
  bStr  : Nat
  pAddr : Nat
  pStr  : Nat
  oAddr : Nat
  oStr  : Nat
  stA   : Nat
  rsA   : Nat
  csA   : Nat
  bsA   : Nat
deriving DecidableEq, Repr, Inhabited

def matParam (r : List Byte) : MatParam :=
  let lo (o : Nat) := bitsOf (fld r o 5) 0 20
  let hi (o : Nat) := bitsOf (fld r o 5) 20 20
  let b := fld r 12 1
  let c := fld r 13 1
  { scale := BitVec.ofNat 32 (fld r 8 4), epi := bitOf b 7, exact := bitOf b 6, bfmt := bitsOf b 3 3, afmt := bitsOf b 0 3,
    chunk := bitsOf c 6 2, act := bitsOf c 3 3, ofmt := bitsOf c 0 3, flags := bitsOf (fld r 14 1) 0 6,
    m := bitsOf (fld r 16 2) 0 9, n := bitsOf (fld r 18 2) 0 9, k := fld r 20 2,
    aAddr := lo 24, aStr := hi 24, bAddr := lo 29, bStr := hi 29, pAddr := lo 34, pStr := hi 34, oAddr := lo 39, oStr := hi 39,
    stA := lo 44, rsA := hi 44, csA := lo 49, bsA := hi 49 }

def MatParam.accin (p : MatParam) : Bool := bitOf p.flags 0
def MatParam.psout (p : MatParam) : Bool := bitOf p.flags 1
def MatParam.oout (p : MatParam) : Bool := bitOf p.flags 2
def MatParam.rscale (p : MatParam) : Bool := bitOf p.flags 3
def MatParam.cscale (p : MatParam) : Bool := bitOf p.flags 4
def MatParam.bias (p : MatParam) : Bool := bitOf p.flags 5

/-- Integer accumulation: both operands INT8 (R54). -/
def MatParam.int (p : MatParam) : Bool := p.afmt == 5 && p.bfmt == 5

/-- Bytes of a partial-sum element (R62). -/
def MatParam.psSize (p : MatParam) : Nat := if p.exact then 16 else 4

/-- Chunk length L (R55). -/
def MatParam.len (p : MatParam) : Nat := match p.chunk with | 1 => 4 | 2 => 16 | _ => 8

/-- F of R58. -/
def MatParam.fbits (p : MatParam) : Nat := match p.chunk with | 1 => 17 | 2 => 15 | _ => 16

/-- Operand pairs the array accepts (R54). -/
def pairOk (exact : Bool) (a b : Nat) : Bool :=
  let half := fun f => f == 1 || f == 2
  let byte8 := fun f => f == 3 || f == 4
  if exact then half a && half b
  else (half a && half b) || (byte8 a && byte8 b) || (a == 5 && b == 5) || (a == 6 && b == 6)

/-- Slices fetched per CCLK (R54), for the chunked and integer accumulations. -/
def slicesPer (f : Nat) : Nat := if f = 6 then 4 else if 3 ≤ f ∧ f ≤ 5 then 2 else 1

/-- Tiles down and across (R57). -/
def MatParam.mt (p : MatParam) : Nat := cdiv p.m 32
def MatParam.nt (p : MatParam) : Nat := cdiv p.n 32
def MatParam.tiles (p : MatParam) : Nat := p.mt * p.nt

/-- A region with the offset of its address field (R80). -/
structure MReg where
  off : Nat
  reg : Region
deriving DecidableEq, Repr, Inhabited

def MatParam.regA (p : MatParam) : MReg := ⟨24, rowsRegion p.aAddr p.aStr p.m (rowBytes p.afmt p.k)⟩
def MatParam.regB (p : MatParam) : MReg := ⟨29, rowsRegion p.bAddr p.bStr p.n (rowBytes p.bfmt p.k)⟩
def MatParam.regP (p : MatParam) : MReg := ⟨34, if p.accin || p.psout then rowsRegion p.pAddr p.pStr p.m (p.n * p.psSize) else (p.pAddr, 0)⟩
def MatParam.regO (p : MatParam) : MReg := ⟨39, if p.oout then rowsRegion p.oAddr p.oStr p.m (rowBytes p.ofmt p.n) else (p.oAddr, 0)⟩
def MatParam.regS (p : MatParam) : MReg := ⟨44, (p.stA, if p.epi then p.tiles * 256 else 0)⟩
def MatParam.regR (p : MatParam) : MReg := ⟨44, (p.rsA, if p.rscale then 4 * p.m else 0)⟩
def MatParam.regC (p : MatParam) : MReg := ⟨49, (p.csA, if p.cscale then 4 * p.n else 0)⟩
def MatParam.regBias (p : MatParam) : MReg := ⟨49, (p.bsA, if p.bias then 4 * p.n else 0)⟩

/-- The regions in increasing order of their address fields. -/
def MatParam.regs (p : MatParam) : List MReg := [p.regA, p.regB, p.regP, p.regO, p.regS, p.regR, p.regC, p.regBias]

/-- Regions read and written, for hazards (R98). -/
def MatParam.reads (p : MatParam) : List Region :=
  [p.regA.reg, p.regB.reg, p.regR.reg, p.regC.reg, p.regBias.reg] ++ (if p.accin then [p.regP.reg] else [])
def MatParam.writes (p : MatParam) : List Region :=
  [p.regO.reg, p.regS.reg] ++ (if p.psout then [p.regP.reg] else [])

/-- The later address field of two regions that share a byte (check 10 of R100). -/
def overlapAt (a b : MReg) : Option Refuse := chk (regMeets a.reg b.reg) stAlias (max a.off b.off)

/-- Check 10 for a MATMUL (R76): strides below the row bytes, then forbidden overlaps; partial sums written or read meet the forbidden
regions alike. -/
def matAlias (p : MatParam) : Option Refuse :=
  let srcs := [p.regA, p.regB, p.regR, p.regC, p.regBias]
  firstRefuse ([chk ((p.accin || p.psout) && p.pStr < p.n * p.psSize) stAlias 34, chk (p.oout && p.oStr < rowBytes p.ofmt p.n) stAlias 39] ++
    srcs.map (overlapAt p.regP) ++ (srcs ++ [p.regP]).map (overlapAt p.regO) ++ (srcs ++ [p.regP, p.regO]).map (overlapAt p.regS))

/-- Checks 6, 7, 9 and 10 of R100 for a MATMUL; check 8 names no Weave object (R33). -/
def matCheck (x : Slot) (normal : Bool) (r : List Byte) : Option Refuse :=
  let p := matParam r
  let six := firstFail (reservedFails (bodyGroups 0x01) 8 64 r ++ fails
    [(13, (p.chunk == 3 && !p.exact) || p.act == 7), (14, !p.epi && !p.psout && !p.oout), (16, p.m == 0 || 256 < p.m),
     (18, p.n == 0 || 256 < p.n), (24, p.aAddr % 8 != 0 || p.aStr % 8 != 0), (29, p.bAddr % 8 != 0 || p.bStr % 8 != 0),
     (34, p.pAddr % 8 != 0 || p.pStr % 8 != 0), (39, p.oAddr % 8 != 0 || p.oStr % 8 != 0), (44, p.stA % 8 != 0 || p.rsA % 8 != 0),
     (49, p.csA % 8 != 0 || p.bsA % 8 != 0)])
  firstRefuse ([six.map (fun o => (stDescriptor, o)),
    chk (!pairOk p.exact p.afmt p.bfmt || (p.epi && normal)) stMode 12, chk (p.ofmt == 7) stMode 13] ++
    p.regs.map (fun g => chk (outsideWindow x g.reg) stBounds g.off) ++ [matAlias p])

/-! ### Accumulation (R58 to R61) -/

/-- The floor of `log2` of a nonzero finite magnitude. -/
def Val.log2 : Val → Int
  | .fin _ m e => (Nat.log2 m : Nat) + e
  | _ => 0

/-- `sign (p) * floor (|p| * 2 ^ k)` of a finite value (R58). -/
def Val.align (v : Val) (k : Int) : Int :=
  match v with
  | .fin neg m e =>
    let q : Nat := if 0 ≤ e + k then m * 2 ^ (e + k).toNat else m / 2 ^ (-(e + k)).toNat
    if neg then -(q : Int) else q
  | _ => 0

/-- One chunk's contribution: NaN, an infinity, a finite value, or nothing (R58). -/
def chunkSum (f : Nat) (ps : List Val) : Option Val :=
  let pinf := ps.any (fun v => v == .inf false)
  let ninf := ps.any (fun v => v == .inf true)
  if ps.any Val.isNan || (pinf && ninf) then some .nan
  else if pinf then some (.inf false)
  else if ninf then some (.inf true)
  else
    let nz := ps.filter (fun v => !v.isZero)
    match nz with
    | [] => none
    | v :: vs =>
      let e := vs.foldl (fun x y => max x y.log2) v.log2
      let t := (nz.map (fun p => p.align ((f : Int) - e))).sum
      if t = 0 then none else some (ofScaled t (e - (f : Int)) false)

/-- Chunks of `l` products, in increasing k. -/
def chunks (l : Nat) : Nat → List Val → List (List Val)
  | 0, _ => []
  | n + 1, ps => ps.take l :: chunks l n (ps.drop l)

/-- The FP32 tile total of one element (R58). -/
def chunkTotal (l f : Nat) (ps : List Val) (t : F32) : F32 :=
  (chunks l (cdiv ps.length l) ps).foldl (fun t c =>
    match chunkSum f c with
    | some v => enc32 ((dec32 t).add v)
    | none => t) t

/-- The integer of an INT8 product. -/
def Val.int (v : Val) : Int := v.align 0

/-- The INT32 tile total and whether it left its range (R60). -/
def intTotal (l : Nat) (ps : List Val) (t : Int) : Int × Bool :=
  (chunks l (cdiv ps.length l) ps).foldl (fun x c =>
    let v := x.1 + (c.map Val.int).sum
    if v > 2 ^ 31 - 1 then (2 ^ 31 - 1, true) else if v < -(2 ^ 31) then (-(2 ^ 31), true) else (v, x.2)) (t, false)

/-- Floor of a finite value times `2 ^ k`, toward minus infinity (R61). -/
def Val.floorAt (v : Val) (k : Int) : Int :=
  match v with
  | .fin neg m e =>
    let s : Int := if neg then -(m : Int) else m
    if 0 ≤ e + k then s * 2 ^ (e + k).toNat else s.fdiv (2 ^ (-(e + k)).toNat)
  | _ => 0

/-- The 128-bit accumulator of exact mode, and whether a product was not finite (R61). -/
def exactTotal (ps : List Val) (acc : Nat) : Nat × Bool :=
  ps.foldl (fun x p =>
    if p.isFinite then (((x.1 : Int) + p.floorAt 64).emod (2 ^ 128 : Nat) |>.toNat, x.2) else (x.1, true)) (acc, false)

/-! ### Epilogue (R63 to R66) -/

/-- The FP32 value nearest to 0.044715. -/
def geluG1 : F32 := enc32 (Val.div (.fin false 44715 0) (.fin false 1000000 0))

/-- The FP32 value nearest to the square root of 2/π: 0.79788456 (R65; log 16). -/
def geluG2 : F32 := 0x3F4C_422A

/-- The activations of R65. -/
def actOf (a : Nat) (v : F32) : F32 :=
  match a with
  | 1 => fmax v 0
  | 2 => let r := fmax v 0; fmul r r
  | 3 =>
    let u := fmul v v
    let u := fmul u v
    let u := fmul u geluG1
    let u := fadd u v
    let u := fmul u geluG2
    let t := ftanh u
    let t := fadd t f32one
    let t := fmul t v
    fmul t 0x3F00_0000
  | 4 => fdiv v (fadd f32one (fexp (fneg v)))
  | 5 => fdiv f32one (fadd f32one (fexp (fneg v)))
  | 6 => ftanh v
  | _ => v

/-- P of an activation (R65). -/
def actP (a : Nat) : Nat := if a ≤ 2 then 1 else 4

/-- CCLK per tile row (R66, R71). -/
def MatParam.rowP (p : MatParam) : Nat :=
  let e := if p.epi then max 2 (actP p.act) else if p.oout then actP p.act else 1
  if p.psout then max e (if p.exact then 4 else 1) else e

/-- One element's total as a tile buffer holds it, and what it counts: saturation and NaN-squash (R60, R61). -/
structure Tot where
  bytes : List Byte
  sat   : Nat
  nan   : Nat
deriving DecidableEq, Repr, Inhabited

/-- The FP32 value of a total at the epilogue (R63). -/
def MatParam.totVal (p : MatParam) (bs : List Byte) : F32 :=
  if p.exact then enc32 (ofScaled (sgn 128 (leNat bs)) (-64) false)
  else if p.int then enc32 (ofScaled (sgn 32 (leNat bs)) 0 false)
  else BitVec.ofNat 32 (leNat bs)

/-- The total of one element from its operand rows and its partial-sum bytes (R58, R60, R61, R62). -/
def elemTotal (p : MatParam) (a b : List Val) (ps : List Byte) : Tot :=
  let prods := List.zipWith Val.mul a b
  let start := if p.accin then leNat ps else 0
  if p.exact then
    let (acc, sq) := exactTotal prods start
    { bytes := natLE 16 acc, sat := 0, nan := b2n sq }
  else if p.int then
    let (t, sat) := intTotal p.len prods (sgn 32 start)
    { bytes := natLE 4 (BitVec.ofInt 32 t).toNat, sat := b2n sat, nan := 0 }
  else { bytes := natLE 4 (chunkTotal p.len p.fbits prods (BitVec.ofNat 32 start)).toNat, sat := 0, nan := 0 }

/-- The stages of R63 up to the activation. -/
def epilogue (p : MatParam) (rs cs bs : F32) (v : F32) : F32 :=
  let v := if p.rscale then fmul v rs else v
  let v := if p.cscale then fmul v cs else v
  let v := fmul v p.scale
  let v := if p.bias then fadd v bs else v
  actOf p.act v

/-- ROWMAX and ROWSUM of a row (R66). -/
def rowStat (vs : List F32) : List Byte :=
  natLE 4 (vs.foldl (fun m v => fmax m (fabs v)) 0).toNat ++ natLE 4 (vs.foldl fadd 0).toNat

/-! ### Tiles -/

/-- Row and column of tile `i` (R57). -/
def MatParam.tileAt (p : MatParam) (i : Nat) : Nat × Nat := (i / p.nt, i % p.nt)

def MatParam.rowsIn (p : MatParam) (i : Nat) : Nat := min 32 (p.m - 32 * (p.tileAt i).1)
def MatParam.colsIn (p : MatParam) (i : Nat) : Nat := min 32 (p.n - 32 * (p.tileAt i).2)

/-- A read of the core's own scratchpad. -/
def spRd (n a l : Nat) : Rd := ⟨some n, a, l⟩

/-- The scratchpad reads that fill a tile: operand rows and partial sums (R71). -/
def fillRds (n : Nat) (p : MatParam) (i : Nat) : List Rd :=
  let (mt, nt) := p.tileAt i
  let rows := p.rowsIn i
  let cols := p.colsIn i
  (List.range rows).map (fun r => spRd n (p.aAddr + (32 * mt + r) * p.aStr) (rowBytes p.afmt p.k)) ++
  (List.range cols).map (fun c => spRd n (p.bAddr + (32 * nt + c) * p.bStr) (rowBytes p.bfmt p.k)) ++
  (if p.accin then (List.range rows).map (fun r => spRd n (p.pAddr + (32 * mt + r) * p.pStr + 32 * nt * p.psSize) (cols * p.psSize)) else [])

/-- The reads of a tile's epilogue: column scales and biases, then row scales (R63). -/
def epiRds (n : Nat) (p : MatParam) (i : Nat) : List Rd :=
  let (mt, nt) := p.tileAt i
  (if p.cscale then [spRd n (p.csA + 128 * nt) (4 * p.colsIn i)] else []) ++ (if p.bias then [spRd n (p.bsA + 128 * nt) (4 * p.colsIn i)] else []) ++
  (if p.rscale then [spRd n (p.rsA + 128 * mt) (4 * p.rowsIn i)] else [])

/-- The totals of a tile, by row (R58, R60, R61). -/
def tileTots (s : State) (n : Nat) (p : MatParam) (i : Nat) : List (List Tot) :=
  let (mt, nt) := p.tileAt i
  let cols := p.colsIn i
  let bvals := (List.range cols).map (fun c => rowVals p.bfmt p.k (spRead s n (p.bAddr + (32 * nt + c) * p.bStr) (rowBytes p.bfmt p.k)))
  (List.range (p.rowsIn i)).map (fun r =>
    let row := 32 * mt + r
    let avals := rowVals p.afmt p.k (spRead s n (p.aAddr + row * p.aStr) (rowBytes p.afmt p.k))
    let ps := spRead s n (p.pAddr + row * p.pStr + 32 * nt * p.psSize) (if p.accin then cols * p.psSize else 0)
    bvals.zipIdx.map (fun x => elemTotal p avals x.1 ((ps.drop (x.2 * p.psSize)).take p.psSize)))

/-- Bytes of a buffer's row: 32 totals, so that the total of element (i, j) of a tile lies at (32 i + j) times its size (log 73). -/
def MatParam.bufRow (p : MatParam) : Nat := 32 * p.psSize

/-- A buffer takes a tile's totals: every word it holds is written whole (R74). -/
def loadTots (s : State) (n : Nat) (p : MatParam) (b : TileBuf) : TileBuf :=
  let rows := tileTots s n p b.tile
  { b with tots := rows.flatMap (fun r => r.flatMap (·.bytes) ++ List.replicate (p.bufRow - r.length * p.psSize) 0),
           marks := rows.map (fun r => ((r.map (·.sat)).sum, (r.map (·.nan)).sum)), bad := [] }

/-- One row of a tile as the epilogue drains it: its writes in order (partial sums, output, statistics). -/
def drainRow (n : Nat) (p : MatParam) (b : TileBuf) (cs bs : List F32) (s : State) (r : Nat) : List Wr :=
  let (mt, nt) := p.tileAt b.tile
  let row := 32 * mt + r
  let raw := (b.tots.drop (r * p.bufRow)).take (p.colsIn b.tile * p.psSize)
  let rs : F32 := BitVec.ofNat 32 (leNat (spRead s n (p.rsA + 4 * row) (if p.rscale then 4 else 0)))
  let vs := (List.range (p.colsIn b.tile)).map (fun c =>
    epilogue p rs (cs.getD c 0) (bs.getD c 0) (p.totVal ((raw.drop (c * p.psSize)).take p.psSize)))
  let o := encRow p.ofmt (vs.map dec32)
  let m := b.marks.getD r (0, 0)
  [{ scratch := some n, addr := p.pAddr + row * p.pStr + 32 * nt * p.psSize, bytes := if p.psout then raw else [], sat := m.1, nan := m.2 }] ++
  (if p.oout then [{ scratch := some n, addr := p.oAddr + row * p.oStr + (if p.ofmt = 6 then 17 * nt else 32 * nt * fmtSize p.ofmt),
                     bytes := o.bytes, sat := o.sat, nan := o.nan }] else []) ++
  (if p.epi then [{ scratch := some n, addr := p.stA + b.tile * 256 + 8 * r, bytes := rowStat vs }] else [])

/-- What stops the epilogue on a tile: whether the word lies in the buffer, its byte address, and the first row that needs it. A column scale or
a bias is needed by every row. -/
def drainFault (s : State) (n : Nat) (p : MatParam) (b : TileBuf) : Option (Bool × Nat × Nat) :=
  let (mt, _) := p.tileAt b.tile
  let base := p.rsA + 128 * mt
  let rows := p.rowsIn b.tile
  let vec := ((epiRds n p b.tile).find? (fun r => (r.fault s).isSome)).bind (fun r =>
    (spFault s n r.addr r.len).map (fun a => (false, a, if p.rscale && r.addr == base && r.len == 4 * rows then (a - base) / 4 else 0)))
  let buf := ((badWords b.bad 0 (rows * p.bufRow)).find? (fun x => x.2 == 2)).map (fun x => (true, x.1 * 8, x.1 * 8 / p.bufRow))
  match vec, buf with
  | some v, some w => if w.2.2 < v.2.2 then some w else some v
  | some v, none => some v
  | none, w => w

/-- The drain of a tile as a plan: its rows in increasing order, then the +0 statistics of rows beyond M (R66). Before an uncorrectable word, at
most the rows that do not need it are written. -/
def tilePlan (s : State) (n : Nat) (p : MatParam) (b : TileBuf) : Plan :=
  let i := b.tile
  let (_, nt) := p.tileAt i
  let cols := p.colsIn i
  let rows := p.rowsIn i
  let cs := if p.cscale then f32s cols (spRead s n (p.csA + 128 * nt) (4 * cols)) else []
  let bs := if p.bias then f32s cols (spRead s n (p.bsA + 128 * nt) (4 * cols)) else []
  match drainFault s n p b with
  | some (_, a, k) =>
    { rds := epiRds n p i, wrs := (List.range k).flatMap (drainRow n p b cs bs s), cut := true, status := [stEcc], detail := a }
  | none =>
    { rds := epiRds n p i,
      wrs := (List.range rows).flatMap (drainRow n p b cs bs s) ++
        (if p.epi && rows < 32 then [{ scratch := some n, addr := p.stA + i * 256 + 8 * rows, bytes := List.replicate (8 * (32 - rows)) 0 }] else []) }

/-- CCLK in which the array fetches a slice of a tile (R54), and CCLK from one fetch to the next. -/
def MatParam.fetches (p : MatParam) : Nat := if p.exact then p.k else cdiv p.k (slicesPer p.afmt)
def MatParam.spacing (p : MatParam) : Nat := if p.exact then 4 else 1

/-- The products and array cycles of the first `q` fetches of a tile are counted (R77). -/
def countFetches (s : State) (n : Nat) (p : MatParam) (i q : Nat) : State :=
  coreCount (coreCount s n 0x018 (p.rowsIn i * p.colsIn i * min p.k (q * (if p.exact then 1 else slicesPer p.afmt)))) n 0x020 q

/-- Empty the tile buffers that hold a tile of an operation, in CCLK `t`; their tiles are discarded. -/
def freeBufs (s : State) (n start t : Nat) : State :=
  let free := fun (b : TileBuf) =>
    if b.op = start ∧ b.st ≠ .empty then { b with st := .empty, emptyT := t, nextT := min b.nextT t, tots := [], marks := [], bad := [] } else b
  s.modCore n (fun c => { c with buf0 := free c.buf0, buf1 := free c.buf1 })

/-- End a running MATMUL with the fault it meets (R74): its buffers become EMPTY in the CCLK after the error and their tiles are discarded. -/
def matFault (s : State) (n : Nat) (r : Running) (detail t : Nat) : State × Running :=
  let r := { r with done := true, status := stEcc, detail := BitVec.ofNat 32 detail }
  (putRun (freeBufs s n r.start t) n r, r)

/-- The epilogue reads a buffer's words with errors (R74): a single-bit error is corrected, counted and written back; an uncorrectable word
is recorded with its buffer offset and sends the core to RECOVERY. -/
def bufTouch (s : State) (n ctx : Nat) (l : List (Nat × BitVec 2)) : State :=
  let s := (l.filter (fun x => x.2 == 1)).foldl (fun s x => post (s.modCore n (fun c => { c with corrected := stick c.corrected 1 })) n ctx 0x040 (x.1 * 8)) s
  match l.find? (fun x => x.2 == 2) with
  | some x => enterRecovery (post (s.modCore n (fun c => { c with uncorr := true, errTbuf := true, errAddr := BitVec.ofNat 17 x.1 })) n ctx 0x041 (x.1 * 8)) n
  | none => s

/-- Drain a tile of a running MATMUL: write its rows, or end the command with the fault it meets (R74; log 3). `last` says that no tile of the
operation remains. -/
def drainTile (s : State) (n : Nat) (r : Running) (p : MatParam) (b : TileBuf) (last : Bool) (t : Nat) : State × Running :=
  let pl := tilePlan s n p b
  let (ws, s) := if pl.cut then freeLead s pl.wrs else (pl.wrs, s)
  let f := drainFault s n p b
  let single := (badWords b.bad 0 (p.rowsIn b.tile * p.bufRow)).filter (fun x => x.2 == 1)
  let s := applyWrs r.by s ws
  let r := { r with sat := r.sat + wrsSat ws, nan := r.nan + wrsNan ws }
  match f with
  | some (true, a, _) => matFault (bufTouch s n r.rec'.ctx (single.filter (fun x => x.1 * 8 < a) ++ [(a / 8, 2)])) n r a t
  | some (false, a, _) => matFault (rdsTouch r.by (bufTouch s n r.rec'.ctx (single.filter (fun _ => pl.wrs != []))) pl.rds) n r a t
  | none =>
    let s := rdsTouch r.by (bufTouch s n r.rec'.ctx single) pl.rds
    let r := { r with done := last, status := if last then worst (satStatus r.sat r.nan) else r.status }
    (putRun s n r, r)

/-- The least fetch of a tile that meets an uncorrectable word; 0 for one among its partial sums. -/
def faultFetch (s : State) (n : Nat) (p : MatParam) (i : Nat) : Option Nat :=
  let (mt, nt) := p.tileAt i
  let hit (f base : Nat) : List Nat :=
    ((spFault s n base (rowBytes f p.k)).map (fun a =>
      let pos := if f = 6 then (a - base) / 17 * 32 else (a - base) / fmtSize f
      if p.exact then pos else pos / slicesPer p.afmt)).toList
  let ops := (List.range (p.rowsIn i)).flatMap (fun r => hit p.afmt (p.aAddr + (32 * mt + r) * p.aStr)) ++
    (List.range (p.colsIn i)).flatMap (fun c => hit p.bfmt (p.bAddr + (32 * nt + c) * p.bStr))
  if (rdsFault s (fillRds n p i)).isNone then none
  else match ops with
    | [] => some 0
    | q :: l => some (l.foldl min q)

/-- The array meets an uncorrectable word in fetch `q` of a tile: the fetches made count, and the operation ends (R74, R77). -/
def fillFault (s : State) (n : Nat) (r : Running) (p : MatParam) (i q t : Nat) : State × Running :=
  let rds := fillRds n p i
  let detail := match rdsFault s rds with | some f => f.detail | none => 0
  matFault (rdsTouch r.by (countFetches s n p i (min p.fetches (q + 1))) rds) n r detail t

/-- The buffer that holds the totals of a tile of a running MATMUL, if one does. -/
def heldTile (c : Core) (r : Running) (i : Nat) : Option TileBuf :=
  [c.buf0, c.buf1].find? (fun b => b.op == r.start && b.tile == i && (b.st == .full || b.st == .draining))

/-- Carry out one tile of a running MATMUL: its fetches, unless a buffer holds its totals, then its rows. -/
def runTile (s : State) (n : Nat) (r : Running) (p : MatParam) (i : Nat) (last : Bool) : State × Running :=
  match heldTile (s.core n) r i with
  | some b => drainTile s n r p b last 0
  | none =>
    match faultFetch s n p i with
    | some q => fillFault s n r p i q 0
    | none =>
      let s := rdsTouch r.by (countFetches s n p i p.fetches) (fillRds n p i)
      drainTile s n r p (loadTots s n p { tile := i }) last 0

/-- A tile's drain is struck by an uncorrectable word that a later tile meets: a leading part of free length of its rows' writes stands, and
the command ends (R74; log 3). -/
def runStruck (s : State) (n : Nat) (r : Running) (p : MatParam) (b : TileBuf) (j q t : Nat) : State × Running :=
  let pl := tilePlan s n p b
  let (ws, s) := freeLead s pl.wrs
  let s := applyWrs r.by s ws
  fillFault s n { r with sat := r.sat + wrsSat ws, nan := r.nan + wrsNan ws } p j q t

/-- Carry out tiles in order until one faults. A fault that a tile meets within the time in which the tile before may be draining (R71)
may come before the last row of that tile. -/
def runTiles (s : State) (n : Nat) (r : Running) (p : MatParam) : List Nat → State × Running
  | [] => (s, r)
  | [i] => runTile s n r p i true
  | i :: j :: l =>
    let q := if (heldTile (s.core n) r j).isSome then none else faultFetch s n p j
    let near := match q with
      | some q => decide (q * p.spacing < 13 + p.rowP * p.rowsIn i)
      | none => false
    let (k, s) := if near then freeBelow s 2 else (1, s)
    if near && k = 0 then
      match heldTile (s.core n) r i with
      | some b => runStruck s n r p b j (q.getD 0) 0
      | none =>
        match faultFetch s n p i with
        | some q => fillFault s n r p i q 0
        | none =>
          let s := rdsTouch r.by (countFetches s n p i p.fetches) (fillRds n p i)
          runStruck s n r p (loadTots s n p { tile := i }) j (q.getD 0) 0
    else
      let x := runTile s n r p i false
      if x.2.done then x else runTiles x.1 n x.2 p (j :: l)

/-- The tiles of an operation whose rows are not yet written: those in buffers, then those not started. -/
def tilesLeft (c : Core) (r : Running) (p : MatParam) : List Nat :=
  let held := ([c.buf0, c.buf1].filter (fun b => b.op == r.start && b.st != .empty)).map (·.tile)
  (List.range p.tiles).filter (fun i => r.tiles ≤ i || held.contains i)

/-- The CCLK from which the array can fetch for another tile (R71). -/
def arrayFree (c : Core) : Nat := max c.buf0.nextT c.buf1.nextT

/-- CCLK after FULL at which a tile's buffer is EMPTY again when the epilogue starts in CCLK `u` (R71). -/
def MatParam.drainTime (p : MatParam) (i u : Nat) : Nat := u + 2 + p.rowP * p.rowsIn i

/-- The clock of an operation run without scratchpad conflict (R71; log 74): when the array is free, when each buffer and the epilogue are, and
the CCLK in which a tile was ready and no buffer was EMPTY. -/
structure MatClock where
  next  : Nat
  free0 : Nat
  free1 : Nat
  epi   : Nat
  stall : Nat
deriving DecidableEq, Repr

/-- One tile of that clock (R70, R71). -/
def MatClock.tile (p : MatParam) (k : MatClock) (i : Nat) : MatClock :=
  let start := max k.next (min k.free0 k.free1)
  let last := if p.fetches = 0 then start else start + (p.fetches - 1) * p.spacing
  let done := p.drainTime i (max (last + 12) k.epi)
  { next := if p.fetches = 0 then start + 1 else last + p.spacing, free0 := if k.free0 ≤ start then done else k.free0,
    free1 := if k.free0 ≤ start then k.free1 else done, epi := done, stall := k.stall + (start - k.next) }

/-- CORE_STALL of the tiles `l` of an operation run to its end from the buffers' state. -/
def opStall (c : Core) (p : MatParam) (l : List Nat) : Nat :=
  (l.foldl (MatClock.tile p) { next := arrayFree c, free0 := c.buf0.emptyT, free1 := c.buf1.emptyT, epi := c.epiFreeT, stall := 0 }).stall

/-- MATMUL (R58): the operation runs every tile not yet written, in order, and its buffers become EMPTY. -/
def execMatmul (core : Nat) (s : State) : Host.Outcome State Fault Refusal :=
  match runningOp (s.core core) 0 [0x01] with
  | none => .next s
  | some r =>
    let p := matParam r.rec'.bytes
    let left := tilesLeft (s.core core) r p
    let fresh := left.filter (fun i => (heldTile (s.core core) r i).isNone)
    let ran := match fresh.find? (fun i => (faultFetch s core p i).isSome) with
      | some f => fresh.filter (· ≤ f)
      | none => fresh
    let s := coreCount s core 0x028 (opStall (s.core core) p ran)
    let r := { r with tiles := p.tiles }
    .next (freeBufs (runTiles (putRun s core r) core r p left).1 core r.start 0)

/-! ### Tile buffers (R70, R71) -/

/-- The running MATMUL whose next tile the array fetches: the oldest with a tile not started. -/
def fillRun (c : Core) : Option Running :=
  c.running.find? (fun r => r.eng == 0 && r.rec'.op == 0x01 && !r.done && r.tiles < (matParam r.rec'.bytes).tiles)

/-- TILE_FILL_START (R70): in CCLK `t`, with a buffer EMPTY and the array free, the next tile starts filling it. CCLK in which the tile
was ready and no buffer was EMPTY count in CORE_STALL; for the first tile of an operation, whose CCLK of issue no rule counts, how many is free (log 74). -/
def execTileFillStart (core t : Nat) (s : State) : Host.Outcome State Fault Refusal :=
  let c := s.core core
  match fillRun c with
  | none => .next s
  | some r =>
    let e0 := c.buf0.st == .empty
    let e1 := c.buf1.st == .empty
    if (!e0 && !e1) || t < (if e0 then c.buf0.emptyT else c.buf1.emptyT) || t < arrayFree c then .next s
    else
      let p := matParam r.rec'.bytes
      let freed := if e0 && e1 then min c.buf0.emptyT c.buf1.emptyT else if e0 then c.buf0.emptyT else c.buf1.emptyT
      let late := min t freed - arrayFree c
      let last := if p.fetches = 0 then t else t + (p.fetches - 1) * p.spacing
      let b : TileBuf := { st := .filling, op := r.start, tile := r.tiles, firstT := t, lastT := last,
                           nextT := if p.fetches = 0 then t + 1 else last + p.spacing }
      let (k, s) := if r.tiles = 0 && late != 0 then freeBelow s (late + 1) else (late, s)
      let s := coreCount s core 0x028 k
      let s := s.modCore core (fun c => if e0 then { c with buf0 := b } else { c with buf1 := b })
      .next (putRun s core { r with tiles := r.tiles + 1 })

/-- A buffer's totals are final ten CCLK after its last slice, and it is FULL one CCLK later (R71). -/
def fullAt (b : TileBuf) : Nat := b.lastT + 11

/-- One of a core's two tile buffers. -/
def Core.buf (c : Core) (one : Bool) : TileBuf := if one then c.buf1 else c.buf0
def Core.setBuf (c : Core) (one : Bool) (b : TileBuf) : Core := if one then { c with buf1 := b } else { c with buf0 := b }

/-- The rows that the other buffer of a failing operation has written before the error: a leading part of free length (R74; log 3). -/
def struckRows (s : State) (n : Nat) (r : Running) (p : MatParam) (b : TileBuf) (err : Nat) : State × Running :=
  if b.op != r.start || b.st != .draining then (s, r)
  else
    let pl := tilePlan s n p b
    let (ws, s) := if b.emptyT ≤ err then (pl.wrs, s) else freeLead s pl.wrs
    (applyWrs r.by s ws, { r with sat := r.sat + wrsSat ws, nan := r.nan + wrsNan ws })

/-- By CCLK `t`, a FILLING buffer whose fetches have met an uncorrectable word ends its operation in that fetch; one whose totals are final
becomes FULL (R71, R74). -/
def fillEnd (n t : Nat) (s : State) (one : Bool) : State :=
  let b := (s.core n).buf one
  if b.st ≠ .filling then s
  else
    match (s.core n).running.find? (fun r => r.start == b.op) with
    | none => s
    | some r =>
      let p := matParam r.rec'.bytes
      let q := faultFetch s n p b.tile
      let err := b.firstT + q.getD 0 * p.spacing
      if q.isSome && err ≤ t then
        let x := struckRows s n r p ((s.core n).buf !one) err
        (fillFault x.1 n x.2 p b.tile (q.getD 0) (err + 1)).1
      else if q.isNone && fullAt b ≤ t then
        let s := rdsTouch r.by (countFetches s n p b.tile p.fetches) (fillRds n p b.tile)
        s.modCore n (fun c => c.setBuf one (loadTots s n p { b with st := .full, fullT := fullAt b }))
      else s

/-- TOTALS_FINAL (R71): by CCLK `t`, the FILLING buffers whose totals are final become FULL; an uncorrectable operand word met by then ends its
operation (R74). -/
def execTotalsFinal (core t : Nat) (s : State) : Host.Outcome State Fault Refusal :=
  .next ([false, true].foldl (fillEnd core t) s)

/-- Which buffer the epilogue takes next: the one that filled first (R70). -/
def oldestFull (c : Core) : Option Bool :=
  match c.buf0.st == .full, c.buf1.st == .full with
  | true, true => some (decide (c.buf1.fullT < c.buf0.fullT))
  | true, false => some false
  | false, true => some true
  | false, false => none

def Core.draining (c : Core) : Bool := c.buf0.st == .draining || c.buf1.st == .draining

/-- EPILOGUE_START (R71): in CCLK `t`, after the buffer has been FULL for a CCLK and none is draining, the epilogue takes it. `emptyT`
then holds the CCLK of its last row plus one. -/
def execEpilogueStart (core t : Nat) (s : State) : Host.Outcome State Fault Refusal :=
  let c := s.core core
  match oldestFull c with
  | none => .next s
  | some one =>
    let b := c.buf one
    if c.draining || t < b.fullT + 1 || t < c.epiFreeT then .next s
    else
      match c.running.find? (fun r => r.start == b.op) with
      | none => .next s
      | some r =>
        let p := matParam r.rec'.bytes
        .next (s.modCore core (fun c => c.setBuf one { b with st := .draining, emptyT := p.drainTime b.tile t }))

/-- BUFFER_EMPTY (R70): by CCLK `t`, the draining buffer has written its last row and becomes EMPTY; an error that the operation met in its
other buffer before that row comes first (R74). -/
def execBufferEmpty (core t : Nat) (s : State) : Host.Outcome State Fault Refusal :=
  let c := s.core core
  let one := c.buf1.st == .draining
  let b := c.buf one
  if b.st ≠ .draining ∨ t < b.emptyT then .next s
  else
    match c.running.find? (fun r => r.start == b.op) with
    | none => .next s
    | some r =>
      let p := matParam r.rec'.bytes
      let other := c.buf !one
      let last := p.tiles ≤ r.tiles && !(other.op == r.start && other.st != .empty)
      let q := if other.op == r.start && other.st == .filling then faultFetch s core p other.tile else none
      let err := other.firstT + q.getD 0 * p.spacing
      if q.isSome && err < b.emptyT then .next (runStruck s core r p b other.tile (q.getD 0) (err + 1)).1
      else
        let s := s.modCore core (fun c => { (c.setBuf one { b with st := .empty, tots := [], marks := [], bad := [] }) with epiFreeT := b.emptyT })
        .next (drainTile s core r p b last b.emptyT).1

end Sys2Proof.Machine
end

