-- ==== Sys2Proof/Machine/Vector.lean ====
section
/-! DEFINITION. The vector unit: element-wise operations and row reductions (R75, R81 to R83). -/

namespace Sys2Proof.Machine

open Sys2Proof

/-! ### VECOP (R81, R82) -/

structure VecParam where
  vop   : Nat
  yfmt  : Nat
  xfmt  : Nat
  act   : Nat
  zfmt  : Nat
  count : Nat
  x     : Nat
  y     : Nat
  z     : Nat
  s     : F32
  t     : F32
deriving DecidableEq, Repr, Inhabited

def vecParam (r : List Byte) : VecParam :=
  let a := fld r 9 1
  let b := fld r 10 1
  { vop := fld r 8 1, yfmt := bitsOf a 3 3, xfmt := bitsOf a 0 3, act := bitsOf b 3 3, zfmt := bitsOf b 0 3,
    count := bitsOf (fld r 12 4) 0 19, x := bitsOf (fld r 16 4) 0 20, y := bitsOf (fld r 20 4) 0 20, z := bitsOf (fld r 24 4) 0 20,
    s := BitVec.ofNat 32 (fld r 28 4), t := BitVec.ofNat 32 (fld r 32 4) }

/-- Operations that read y (R82). -/
def readsY (vop : Nat) : Bool := [1, 2, 3, 4, 6, 7, 8].contains vop

def VecParam.regX (p : VecParam) : MReg := ⟨16, (p.x, p.count * fmtSize p.xfmt)⟩
def VecParam.regY (p : VecParam) : MReg := ⟨20, (p.y, if readsY p.vop then p.count * fmtSize p.yfmt else 0)⟩
def VecParam.regZ (p : VecParam) : MReg := ⟨24, (p.z, p.count * fmtSize p.zfmt)⟩

/-- z overlaps an operand other than by coinciding with it at equal element size (R82). -/
def badOverlap (z o : MReg) : Option Refuse :=
  chk (regMeets z.reg o.reg && z.reg != o.reg) stAlias (max z.off o.off)

/-- Checks 6, 7, 9 and 10 of R100 for a VECOP. -/
def vecCheck (x : Slot) (r : List Byte) : Option Refuse :=
  let p := vecParam r
  let six := firstFail (reservedFails (bodyGroups 0x10) 8 64 r ++ fails
    [(8, 12 < p.vop), (9, !readsY p.vop && p.yfmt != 0), (10, (p.vop != 11 && p.act != 0) || (p.vop == 11 && p.act == 7)),
     (12, p.count == 0 || 262144 < p.count), (16, p.x % 8 != 0), (20, p.y % 8 != 0 || (!readsY p.vop && p.y != 0)), (24, p.z % 8 != 0)])
  firstRefuse [six.map (fun o => (stDescriptor, o)), chk (p.xfmt == 6 || (readsY p.vop && p.yfmt == 6)) stMode 9, chk (p.zfmt == 6) stMode 10,
    chk (outsideWindow x p.regX.reg) stBounds 16, chk (outsideWindow x p.regY.reg) stBounds 20, chk (outsideWindow x p.regZ.reg) stBounds 24,
    badOverlap p.regZ p.regX, badOverlap p.regZ p.regY]

/-- The operation of R82 on FP32 values. -/
def vecFn (p : VecParam) (x y : F32) : F32 :=
  match p.vop with
  | 0 => x
  | 1 => fadd x y
  | 2 => fsub x y
  | 3 => fmul x y
  | 4 => ffma x p.s y
  | 5 => ffma x p.s p.t
  | 6 => fmax x y
  | 7 => fmin x y
  | 8 => fdiv x y
  | 9 => fsqrt x
  | 10 => fexp x
  | 11 => actOf p.act x
  | _ => fabs x

/-- The result of one element: operands to FP32, the operation, one conversion to ZFMT (R82; beside R117, log 92). -/
def vecElem (p : VecParam) (x y : Nat) : Enc := encElem p.zfmt (dec32 (vecFn p (toF32 p.xfmt x) (toF32 p.yfmt y)))

/-- A VECOP as a plan: one write per element, in increasing order; an uncorrectable operand word stops it, and writes before the
element that reads it can stand (R378). -/
def vecPlan (s : State) (n : Nat) (r : List Byte) : Plan :=
  let p := vecParam r
  let rds : List Rd := [⟨some n, p.x, p.regX.reg.2⟩, ⟨some n, p.y, p.regY.reg.2⟩]
  let xs := spRead s n p.x p.regX.reg.2
  let ys := spRead s n p.y p.regY.reg.2
  let elem (i : Nat) : Wr :=
    let e := vecElem p (elemCode p.xfmt xs i) (elemCode p.yfmt ys i)
    { scratch := some n, addr := p.z + i * fmtSize p.zfmt, bytes := e.bytes, sat := e.sat, nan := e.nan }
  match rdsFault s rds with
  | none => { rds := rds, wrs := (List.range p.count).map elem }
  | some f =>
    let fx := (spFault s n p.x p.regX.reg.2).map (fun a => (a - p.x) / fmtSize p.xfmt)
    let fy := (spFault s n p.y p.regY.reg.2).map (fun a => (a - p.y) / fmtSize p.yfmt)
    let upto := min (fx.getD p.count) (fy.getD p.count)
    { rds := rds, wrs := (List.range upto).map elem, cut := true, status := [f.status], detail := f.detail }

/-- VECOP (R82). -/
def execVecop (core : Nat) (s : State) : Host.Outcome State Fault Refusal :=
  match runningOp (s.core core) 1 [0x10] with
  | none => .next s
  | some r => .next (runPlan s core r (vecPlan s core r.rec'.bytes))

/-! ### VECRED (R83) -/

structure RedParam where
  rop  : Nat
  xfmt : Nat
  rows : Nat
  len  : Nat
  x    : Nat
  str  : Nat
  z    : Nat
deriving DecidableEq, Repr, Inhabited

def redParam (r : List Byte) : RedParam :=
  { rop := fld r 8 1, xfmt := bitsOf (fld r 9 1) 0 3, rows := bitsOf (fld r 10 2) 0 13, len := bitsOf (fld r 12 4) 0 19,
    x := bitsOf (fld r 16 4) 0 20, str := bitsOf (fld r 20 4) 0 20, z := bitsOf (fld r 24 4) 0 20 }

def RedParam.regX (p : RedParam) : Region := rowsRegion p.x p.str p.rows (p.len * fmtSize p.xfmt)
def RedParam.regZ (p : RedParam) : Region := (p.z, 4 * p.rows)

/-- Checks 6, 7, 9 and 10 of R100 for a VECRED. -/
def redCheck (x : Slot) (r : List Byte) : Option Refuse :=
  let p := redParam r
  let six := firstFail (reservedFails (bodyGroups 0x11) 8 64 r ++ fails
    [(8, 2 < p.rop), (10, p.rows == 0 || 4096 < p.rows), (12, p.len == 0 || 262144 < p.len), (16, p.x % 8 != 0), (20, p.str % 8 != 0), (24, p.z % 8 != 0)])
  firstRefuse [six.map (fun o => (stDescriptor, o)), chk (p.xfmt == 6) stMode 9, chk (outsideWindow x p.regX) stBounds 16,
    chk (outsideWindow x p.regZ) stBounds 24, chk (regMeets p.regX p.regZ) stAlias 24]

/-- One step of a reduction (R83). -/
def redStep (rop : Nat) (s x : F32) : F32 :=
  match rop with
  | 0 => fadd s x
  | 1 => fmax s (fabs x)
  | _ => ffma x x s

/-- The result of one row, in increasing element order. -/
def redRow (rop : Nat) (xs : List F32) : F32 := xs.foldl (redStep rop) 0

/-- Reads and the write of each row. -/
def redRows (s : State) (n : Nat) (p : RedParam) : List (Rd × Wr) :=
  (List.range p.rows).map (fun i =>
    let rd : Rd := ⟨some n, p.x + i * p.str, p.len * fmtSize p.xfmt⟩
    (rd, { scratch := some n, addr := p.z + 4 * i, bytes := natLE 4 (redRow p.rop (rowF32 p.xfmt p.len (rd.get s))).toNat }))

/-- A set of rows of free choice, each written with its complete result (R410; log 3). -/
def freeSet : State → List Wr → List Wr × State
  | s, [] => ([], s)
  | s, w :: l =>
    let (k, s) := freeBelow s 2
    let (ws, s) := freeSet s l
    (if k = 1 then w :: ws else ws, s)

/-- A VECRED as a plan. With an uncorrectable word, the rows that do not read it can have been written (R378): the caller takes a free
set of them. -/
def redPlan (s : State) (n : Nat) (r : List Byte) : Plan :=
  let rows := redRows s n (redParam r)
  match rdsFault s (rows.map (·.1)) with
  | none => { rds := rows.map (·.1), wrs := rows.map (·.2) }
  | some f => { rds := rows.map (·.1), wrs := (rows.filter (fun x => (x.1.fault s).isNone)).map (·.2), cut := true, status := [f.status], detail := f.detail }

/-- VECRED (R83). -/
def execVecred (core : Nat) (s : State) : Host.Outcome State Fault Refusal :=
  match runningOp (s.core core) 1 [0x11] with
  | none => .next s
  | some r =>
    let p := redPlan s core r.rec'.bytes
    if p.cut then
      let (ws, s) := freeSet s p.wrs
      .next (runPlan s core r { p with wrs := ws, cut := false })
    else .next (runPlan s core r p)

end Sys2Proof.Machine
end

