-- ==== Sys2Proof/Machine/Copy.lean ====
section
/-! DEFINITION. The copy engine: copy descriptors, their checks and walks, hints, and copies of distributed tensors (11, R182). -/

namespace Sys2Proof.Machine

open Sys2Proof

/-! ### Regions of device memory as the chapters check them -/

/-- A region reaches where nothing is: above the unified range below host space, or past the data space (R405); or it holds an unbacked
tile (R201). -/
def devBounds (s : State) (a : Int) (n : Nat) : Bool :=
  if a < 0 then true else
  let a := a.toNat
  match spaceOf a with
  | .uni => Config.uniTop < a + n || hitsUnbacked s a n
  | .gap => true
  | .host => Config.devTop < a + n

/-- A region a context may not touch: outside its partition ranges, a write into a read-only or sealed range, or host memory outside the
DMA windows (R26, R291, R306). -/
def devPriv (s : State) (l : List Sect) (c a n : Nat) (write : Bool) : Bool :=
  match spaceOf a with
  | .host => !hostAllowed s l a n
  | _ => !inRanges s l c a n || (write && (hitsRo s c a n || hitsSealed s a n))

/-- A scratchpad span lies below 0, passes 1 MiB or leaves the slot's window. -/
def spBounds (x : Slot) (a : Int) (n : Nat) : Bool :=
  if a < 0 then true else outsideWindow x (a.toNat, n)

/-! ### Descriptors (R207 to R218) -/

/-- A signed 32-bit field. -/
def sfld (d : List Byte) (off : Nat) : Int := sgn 32 (fld d off 4)

/-- A COPY or ADD descriptor (R208). -/
structure CDesc where
  add  : Bool
  dfmt : Nat
  sfmt : Nat
  pad  : Bool
  tr   : Bool
  ddev : Bool
  sdev : Bool
  pn0  : Nat
  pn1  : Nat
  src  : Nat
  dst  : Nat
  n    : List Nat
  ss   : List Int
  ds   : List Int
deriving DecidableEq, Repr, Inhabited

def cDesc (d : List Byte) : CDesc :=
  { add := fld d 0 1 == 2, dfmt := bitsOf (fld d 1 1) 3 3, sfmt := bitsOf (fld d 1 1) 0 3, pad := bitOf (fld d 2 1) 3, tr := bitOf (fld d 2 1) 2,
    ddev := bitOf (fld d 2 1) 1, sdev := bitOf (fld d 2 1) 0, pn0 := fld d 4 2, pn1 := fld d 6 2, src := bitsOf (fld d 8 8) 0 48,
    dst := bitsOf (fld d 16 8) 0 48, n := [fld d 24 2, fld d 26 2, fld d 28 2, fld d 30 2],
    ss := [sfld d 32, sfld d 36, sfld d 40, sfld d 44], ds := [sfld d 48, sfld d 52, sfld d 56, sfld d 60] }

/-- Element size as the copy engine moves it: B4 moves as units of 17 bytes (R208). -/
def unitSize (f : Nat) : Nat := if f = 6 then 17 else fmtSize f

/-- Counts of the destination walk (R212). -/
def CDesc.dn (d : CDesc) : List Nat := if d.pad then [d.pn0, d.pn1, d.n.getD 2 0, d.n.getD 3 0] else d.n

/-- Span of a walk (R211): first address and length. -/
def spanOf (a size : Nat) (n : List Nat) (st : List Int) : Int × Nat :=
  let terms := List.zipWith (fun (c : Nat) (x : Int) => x * ((c : Int) - 1)) n st
  let neg := (terms.filter (· < 0)).sum
  let pos := (terms.filter (0 < ·)).sum
  ((a : Int) + neg, (pos - neg).toNat + size)

def CDesc.sspan (d : CDesc) : Int × Nat := spanOf d.src (unitSize d.sfmt) d.n d.ss
def CDesc.dspan (d : CDesc) : Int × Nat := spanOf d.dst (unitSize d.dfmt) d.dn d.ds

/-- The conditions under which meeting spans run in place (R211). -/
def CDesc.inPlace (d : CDesc) : Bool :=
  d.src == d.dst && d.ss == d.ds && unitSize d.sfmt == unitSize d.dfmt && !d.ds.contains 0 && !d.tr && !d.pad

/-- The pairs an add-on-write takes (R182). -/
def addPair (s d : Nat) : Bool := (s == 1 && d == 1) || (s == 1 && d == 0) || (s == 0 && d == 0)

def cGroups : List Group :=
  [gAll 0 1, (1, 1, 0x3F), (2, 1, 0x0F), gAll 4 2, gAll 6 2, gAddr 8, gAddr 16, gAll 24 8, gAll 32 16, gAll 48 16]
def hGroups (rep : Bool) : List Group :=
  [gAll 0 1, (2, 1, if rep then 2 else 0), (3, 1, 0xF3), gAddr 8, (16, 8, if rep then 2 ^ 48 - 1 else 0), (24, 8, 2 ^ 40 - 1)]
def gGroups : List Group := [gAll 0 1, (2, 1, 0x07), gAddr 8, gAll 16 16, gAll 32 8, gAddr 40, gAll 48 16]

/-- What the checks need: the core, its slot, its sections, the context. -/
structure Env where
  core : Nat
  slot : Slot
  sec  : List Sect
  ctx  : Nat
deriving Inhabited

/-- Bounds of one side (row 7 of R220). -/
def sideBounds (s : State) (e : Env) (dev : Bool) (sp : Int × Nat) : Bool :=
  if dev then devBounds s sp.1 sp.2 else spBounds e.slot sp.1 sp.2

/-- Privilege of one side (row 8 of R220). -/
def sidePriv (s : State) (e : Env) (dev write : Bool) (sp : Int × Nat) : Bool :=
  dev && devPriv s e.sec e.ctx sp.1.toNat sp.2 write

/-- Two spans share a byte. -/
def spanMeets (a b : Int × Nat) : Bool := a.1 < b.1 + b.2 && b.1 < a.1 + a.2

/-- Checks of a COPY or ADD descriptor in the order of R220. -/
def cCheck (s : State) (e : Env) (b : List Byte) : Option Refuse :=
  let d := cDesc b
  let es : Int := unitSize d.sfmt
  let ed : Int := unitSize d.dfmt
  let n0 := d.n.getD 0 0
  let n1 := d.n.getD 1 0
  let r4 := firstFail (reservedFails cGroups 0 64 b ++ fails
    ([(4, if d.pad then decide (d.pn0 < n0) else d.pn0 != 0), (6, if d.pad then decide (d.pn1 < n1) else d.pn1 != 0),
      (8, !d.sdev && decide (2 ^ 20 ≤ d.src)), (16, !d.ddev && decide (2 ^ 20 ≤ d.dst))] ++ d.n.zipIdx.map (fun (x : Nat × Nat) => (24 + 2 * x.2, x.1 == 0))))
  let r5 := firstFail (fails ([(8, (d.src : Int) % es != 0), (16, (d.dst : Int) % ed != 0)] ++
    d.ss.zipIdx.map (fun x => (32 + 4 * x.2, x.1 % es != 0)) ++ d.ds.zipIdx.map (fun x => (48 + 4 * x.2, x.1 % ed != 0))))
  firstRefuse [r4.map (fun o => (stDescriptor, o)), r5.map (fun o => (stDescriptor, o)),
    chk ((d.sfmt == 6) != (d.dfmt == 6) || (d.add && !addPair d.sfmt d.dfmt)) stMode 1,
    chk (d.tr && (d.sfmt != d.dfmt || d.sfmt == 6 || d.ss.getD 0 0 != es || d.ds.getD 1 0 != ed)) stMode 2,
    chk (sideBounds s e d.sdev d.sspan) stBounds 8, chk (sideBounds s e d.ddev d.dspan) stBounds 16,
    chk (sidePriv s e d.sdev false d.sspan) stPrivilege 8, chk (sidePriv s e d.ddev true d.dspan) stPrivilege 16,
    chk (d.sdev == d.ddev && spanMeets d.sspan d.dspan && !d.inPlace) stAlias 16]

/-! ### Hints (R216) -/

structure HDesc where
  hop   : Nat
  slice : Nat
  base  : Nat
  ddev  : Bool
  dst   : Nat
  len   : Nat
deriving DecidableEq, Repr, Inhabited

def hDesc (b : List Byte) : HDesc :=
  { hop := bitsOf (fld b 3 1) 0 2, slice := bitsOf (fld b 3 1) 4 4, base := bitsOf (fld b 8 8) 0 48, ddev := bitOf (fld b 2 1) 1,
    dst := bitsOf (fld b 16 8) 0 48, len := bitsOf (fld b 24 8) 0 40 }

/-- Checks of a HINT descriptor in the order of R220; a range outside the partition ranges has DETAIL 0xFF (R204). -/
def hCheck (s : State) (e : Env) (b : List Byte) : Option Refuse :=
  let d := hDesc b
  let rep := d.hop == 2
  let sp : Int × Nat := ((d.dst : Int), d.len / 4096)
  let r4 := firstFail (reservedFails (hGroups rep) 0 64 b ++ fails
    [(3, d.hop == 3 || (8 ≤ d.slice && d.slice ≤ 14) || (d.hop != 0 && d.slice != 0)), (16, rep && !d.ddev && 2 ^ 20 ≤ d.dst)])
  firstRefuse [r4.map (fun o => (stDescriptor, o)),
    (firstFail (fails [(8, d.base % 4096 != 0), (24, d.len % 4096 != 0 || d.len == 0)])).map (fun o => (stDescriptor, o)),
    chk (Config.uniTop < d.base + d.len) stBounds 8, chk (rep && sideBounds s e d.ddev sp) stBounds 16,
    chk (!inRanges s e.sec e.ctx d.base d.len) stPrivilege 0xFF, chk (rep && sidePriv s e d.ddev true sp) stPrivilege 16]

/-! ### Distributed tensors (R217, R218, R245) -/

structure Dtd where
  fmt    : Nat
  ndim   : Nat
  g      : List Nat
  sh     : List Nat
  first  : Nat
  mapped : Bool
  lbase  : Nat
  ls     : List Nat
  plan   : Nat
deriving DecidableEq, Repr, Inhabited

def dtdOf (b : List Byte) : Dtd :=
  { fmt := bitsOf (fld b 0 1) 0 3, ndim := bitsOf (fld b 1 1) 0 3, g := [fld b 8 4, fld b 12 4, fld b 16 4, fld b 20 4],
    sh := [fld b 24 1, fld b 25 1, fld b 26 1, fld b 27 1], first := bitsOf (fld b 28 1) 0 6, mapped := bitOf (fld b 29 1) 0,
    lbase := bitsOf (fld b 32 8) 0 48, ls := [fld b 40 4, fld b 44 4, fld b 48 4, fld b 52 4], plan := fld b 56 2 }

def dtdGroups (mapped : Bool) : List Group :=
  [(0, 1, 7), (1, 1, 7), gAll 8 16, gAll 24 4, (28, 1, 0x3F), (29, 1, 1), gAddr 32, gAll 40 16, (56, 2, if mapped then 0xFFFF else 0)]

def Dtd.shards (t : Dtd) : Nat := t.sh.foldl (· * ·) 1

/-- Members and ranks of a sharding plan (R245). -/
def planRanks (l : List Sect) (num : Nat) : Option (List Nat) :=
  ((plansOf l).find? (fun p => p.1 == num)).map (fun p => (p.2.drop 4).take (fld p.2 3 1) |>.map (·.toNat))

/-- The descriptor meets R217, apart from its plan. -/
def dtdOk (b : List Byte) : Bool :=
  let t := dtdOf b
  (reservedFails (dtdGroups t.mapped) 0 64 b).isEmpty && t.fmt != 6 && 1 ≤ t.ndim && t.ndim ≤ 4 && t.g.all (· ≠ 0) && t.sh.all (· ≠ 0) &&
    t.shards ≤ 33 && t.ls.all (0 < ·) && ((t.g.zip t.sh).drop t.ndim).all (fun x => x.1 == 1 && x.2 == 1)

/-- Block size in a dimension. -/
def Dtd.blk (t : Dtd) (d : Nat) : Nat := cdiv (t.g.getD d 1) (t.sh.getD d 1)

/-- Shard number of a global element (R217). -/
def Dtd.shardOf (t : Dtd) (i : List Nat) : Nat :=
  let k (d : Nat) := i.getD d 0 / t.blk d
  k 0 + t.sh.getD 0 1 * (k 1 + t.sh.getD 1 1 * (k 2 + t.sh.getD 2 1 * k 3))

/-- Rank that holds a shard; none when the plan is absent or too short (R217). -/
def Dtd.rankOf (l : List Sect) (t : Dtd) (sh : Nat) : Option Nat :=
  if t.mapped then (planRanks l t.plan).bind (fun r => r[t.first + sh]?) else some (t.first + sh)

/-- Local address of a global element on its device (R217). -/
def Dtd.addrOf (t : Dtd) (i : List Nat) : Nat := t.lbase + ((List.range 4).map (fun d => i.getD d 0 % t.blk d * t.ls.getD d 0)).sum

/-- Global element index (R217, R49). -/
def Dtd.index (t : Dtd) (i : List Nat) : Nat :=
  i.getD 0 0 + t.g.getD 0 1 * (i.getD 1 0 + t.g.getD 1 1 * (i.getD 2 0 + t.g.getD 2 1 * i.getD 3 0))

/-- A GCOPY descriptor (R218). -/
structure GDesc where
  add   : Bool
  scat  : Bool
  ldev  : Bool
  dtd   : Nat
  o     : List Nat
  n     : List Nat
  laddr : Nat
  ls    : List Int
deriving DecidableEq, Repr, Inhabited

def gDesc (b : List Byte) : GDesc :=
  { add := bitOf (fld b 2 1) 2, scat := bitOf (fld b 2 1) 1, ldev := bitOf (fld b 2 1) 0, dtd := bitsOf (fld b 8 8) 0 48,
    o := [fld b 16 4, fld b 20 4, fld b 24 4, fld b 28 4], n := [fld b 32 2, fld b 34 2, fld b 36 2, fld b 38 2],
    laddr := bitsOf (fld b 40 8) 0 48, ls := [sfld b 48, sfld b 52, sfld b 56, sfld b 60] }

/-- Positions of a walk, n3 outermost and n0 innermost (R209). -/
def walk (n : List Nat) : List (List Nat) :=
  (List.range (n.getD 3 0)).flatMap (fun i3 => (List.range (n.getD 2 0)).flatMap (fun i2 => (List.range (n.getD 1 0)).flatMap (fun i1 =>
    (List.range (n.getD 0 0)).map (fun i0 => [i0, i1, i2, i3]))))

/-- Global element of a box position. -/
def GDesc.elem (g : GDesc) (p : List Nat) : List Nat := List.zipWith (· + ·) g.o p

/-- Address of a position on a strided side (R209). -/
def posAddr (a : Nat) (st : List Int) (p : List Nat) : Int := (a : Int) + (List.zipWith (fun (s : Int) (i : Nat) => s * i) st p).sum

/-- The box's shards, each once. -/
def GDesc.shards (g : GDesc) (t : Dtd) : List Nat :=
  let ks (d : Nat) : List Nat :=
    let lo := g.o.getD d 0 / t.blk d
    let hi := (g.o.getD d 0 + g.n.getD d 1 - 1) / t.blk d
    (List.range (hi - lo + 1)).map (· + lo)
  (ks 3).flatMap (fun k3 => (ks 2).flatMap (fun k2 => (ks 1).flatMap (fun k1 => (ks 0).map (fun k0 =>
    k0 + t.sh.getD 0 1 * (k1 + t.sh.getD 1 1 * (k2 + t.sh.getD 2 1 * k3))))))

/-- Span of the box's own-rank elements: from the least address to the greatest (R218). -/
def ownSpan (l : List Sect) (g : GDesc) (t : Dtd) : Option (Int × Nat) :=
  let es := (walk g.n).map g.elem |>.filter (fun i => t.rankOf l (t.shardOf i) == some (ownRank l))
  match es.map t.addrOf with
  | [] => none
  | a :: as =>
    let lo := as.foldl min a
    some ((lo : Int), as.foldl max a - lo + fmtSize t.fmt)

/-- The fields of a GCOPY descriptor that row 4 of R220 checks without the distributed tensor descriptor. -/
def gFields (b : List Byte) : Option Nat :=
  let g := gDesc b
  firstFail (reservedFails gGroups 0 64 b ++ fails
    ([(2, g.add && !g.scat), (8, g.dtd % 64 != 0), (40, !g.ldev && 2 ^ 20 ≤ g.laddr)] ++ g.n.zipIdx.map (fun x => (32 + 2 * x.2, x.1 == 0))))

/-- The reading of a distributed tensor descriptor: its region must be the context's, and readable (R407). -/
def dtdRegion (s : State) (e : Env) (a : Nat) : Option Refuse :=
  firstRefuse [chk (devBounds s a 64) stBounds 8, chk (devPriv s e.sec e.ctx a 64 false) stPrivilege 8]

/-- Checks of a GCOPY descriptor in the order of R220, with the distributed tensor descriptor read. -/
def gCheck (s : State) (e : Env) (b dt : List Byte) : Option Refuse :=
  let g := gDesc b
  let t := dtdOf dt
  let es : Int := fmtSize t.fmt
  let lsp := spanOf g.laddr (fmtSize t.fmt) g.n g.ls
  let ranks := (g.shards t).map (t.rankOf e.sec)
  let own := ownSpan e.sec g t
  let r5 := firstFail (fails ((40, (g.laddr : Int) % es != 0) :: g.ls.zipIdx.map (fun x => (48 + 4 * x.2, x.1 % es != 0))))
  let box := (List.range 4).any (fun d => t.g.getD d 1 < g.o.getD d 0 + g.n.getD d 1)
  let late := t.mapped && (match planRanks e.sec t.plan with | some r => r.length < t.first + t.shards | none => false)
  firstRefuse [chk (!dtdOk dt) stDescriptor 8, chk late stDescriptor 8, r5.map (fun o => (stDescriptor, o)),
    chk (g.add && t.fmt != 0 && t.fmt != 1) stMode 2,
    chk (sideBounds s e g.ldev lsp) stBounds 40, chk box stBounds 16, chk (match own with | some sp => devBounds s sp.1 sp.2 | none => false) stBounds 8,
    chk (sidePriv s e g.ldev (!g.scat) lsp) stPrivilege 40,
    chk (match own with | some sp => devPriv s e.sec e.ctx sp.1.toNat sp.2 g.scat | none => false) stPrivilege 8,
    chk (ranks.any (fun r => match r with | some x => 32 < x | none => false)) stDescriptor 8,
    chk (ranks.any (fun r => match r with | some x => x != ownRank e.sec && (routeTo e.sec x).isNone | none => true)) stGeneration 8,
    chk (g.ldev && (match own with | some sp => spanMeets sp lsp | none => false)) stAlias 40]

/-! ### The chain (R213, R220) -/

/-- A COPY's body (R85). -/
def copyDev (r : List Byte) : Bool := bitOf (fld r 8 1) 0
def copyN (r : List Byte) : Nat := bitsOf (fld r 10 2) 0 9
def copyAddr (r : List Byte) : Nat := bitsOf (fld r 16 8) 0 48

/-- DETAIL of a refusal in the body (R219). -/
def bodyDetail (o : Nat) : Nat := 0xFFFF * 65536 + o

/-- The outcome of a command's own checks: a refusal, a fault while reading (R407), or what the reads gave. -/
inductive Checked (α : Type) where
  | refuse (st : Status) (detail : Nat)
  | fault (f : MemFault)
  | ok (v : α)
deriving Inhabited

/-- The read of a chain. -/
def chainRd (core : Nat) (r : List Byte) : Rd := ⟨if copyDev r then none else some core, copyAddr r, 64 * copyN r⟩

/-- Check the descriptors in chain order (R220): the first failure refuses, a failing read of a distributed tensor descriptor ends the
checks (R407). -/
def checkDescs (s : State) (e : Env) : Nat → List (List Byte) → List (List Byte × List Byte) → Checked (List (List Byte × List Byte))
  | _, [], acc => .ok acc
  | i, d :: ds, acc =>
    let no := fun (r : Refuse) => (Checked.refuse r.1 (i * 65536 + r.2) : Checked (List (List Byte × List Byte)))
    match fld d 0 1 with
    | 1 => match cCheck s e d with | some r => no r | none => checkDescs s e (i + 1) ds (acc ++ [(d, [])])
    | 2 => match cCheck s e d with | some r => no r | none => checkDescs s e (i + 1) ds (acc ++ [(d, [])])
    | 3 => match hCheck s e d with | some r => no r | none => checkDescs s e (i + 1) ds (acc ++ [(d, [])])
    | 4 =>
      let a := (gDesc d).dtd
      match gFields d, dtdRegion s e a with
      | some o, none => no (stDescriptor, if 8 < o && (devFault s a 64).isNone && !dtdOk (devRead s a 64) then 8 else o)
      | some o, _ => no (stDescriptor, o)
      | none, some r => no r
      | none, none =>
        match devFault s a 64 with
        | some f => .fault f
        | none =>
          let t := devRead s a 64
          match gCheck s e d t with
          | some r => no r
          | none => checkDescs s e (i + 1) ds (acc ++ [(d, t)])
    | _ => no (stDescriptor, 0)

/-- The checks of a COPY (check 6 of R100, then R220). A chain that crosses the top of the unified range is refused for that alone (R405). -/
def copyCheck (s : State) (e : Env) (r : List Byte) : Checked (List (List Byte × List Byte)) :=
  let a := copyAddr r
  let n := copyN r
  let dev := copyDev r
  let early := firstRefuse [
    (firstFail (reservedFails (bodyGroups 0x20) 8 64 r ++ fails [(16, !dev && (2 ^ 20 ≤ a || a % 8 != 0))])).map (fun o => (stDescriptor, o)),
    chk (n == 0 || 256 < n) stDescriptor 10, chk (a % 64 != 0) stDescriptor 16, chk (!dev && outsideWindow e.slot (a, 64 * n)) stBounds 16,
    chk (dev && spaceOf a != .gap && !(spaceOf a == .uni && Config.uniTop < a + 64 * n) && devPriv s e.sec e.ctx a (64 * n) false) stPrivilege 16, chk (dev && devBounds s a (64 * n)) stBounds 16]
  match early with
  | some x => .refuse x.1 (bodyDetail x.2)
  | none =>
    let rd := chainRd e.core r
    match rd.fault s with
    | some f => .fault f
    | none => checkDescs s e 0 (recordsOf n 64 (rd.get s)) []

/-- Scratchpad regions a chain reads and writes (R98): the chain itself, and whole spans. -/
def copyRegions (r : List Byte) (chain : List (List Byte × List Byte)) : List Region × List Region :=
  let reg (sp : Int × Nat) : Region := (sp.1.toNat, sp.2)
  chain.foldl (fun x d =>
    match fld d.1 0 1 with
    | 3 =>
      let h := hDesc d.1
      if h.hop == 2 && !h.ddev then (x.1, x.2 ++ [(h.dst, h.len / 4096)]) else x
    | 4 =>
      let g := gDesc d.1
      let sp := reg (spanOf g.laddr (fmtSize (dtdOf d.2).fmt) g.n g.ls)
      if g.ldev then x else if g.scat then (x.1 ++ [sp], x.2) else (x.1, x.2 ++ [sp])
    | _ =>
      let c := cDesc d.1
      (if c.sdev then x.1 else x.1 ++ [reg c.sspan], if c.ddev then x.2 else x.2 ++ [reg c.dspan]))
    (if copyDev r then [] else [(copyAddr r, 64 * copyN r)], [])

/-! ### Walks -/

/-- Memory written without side effects, to see what later positions of a walk read. -/
def poke (s : State) (w : Wr) : State :=
  match w.scratch with
  | some n => s.modCore n (fun c => { c with scratch := mwrite c.scratch w.addr w.bytes })
  | none => match spaceOf w.addr with
    | .host => { s with host := mwrite s.host w.addr w.bytes }
    | _ => { s with uni := mwrite s.uni w.addr w.bytes }

/-- Progress of a walk: memory as the walk has left it, reads and writes so far, and the fault that stopped it. -/
structure Walk where
  st    : State
  rds   : List Rd := []
  wrs   : List Wr := []
  fault : Option MemFault := none

/-- Add a read; reads that fall one after another in one 64-byte block are one access (R215). -/
def joinRd (l : List Rd) (r : Rd) : List Rd :=
  match l.getLast? with
  | some p =>
    if p.scratch = r.scratch ∧ p.addr / 64 = r.addr / 64 ∧ (p.addr + p.len - 1) / 64 = (r.addr + r.len - 1) / 64 then
      l.dropLast ++ [{ p with addr := min p.addr r.addr, len := max (p.addr + p.len) (r.addr + r.len) - min p.addr r.addr }]
    else l ++ [r]
  | none => [r]

/-- One valid position of a COPY or ADD: read the source, convert or add, write (R208, R209, R182). -/
def copyElem (core : Nat) (d : CDesc) (w : Walk) (p : List Nat) : Walk :=
  if w.fault.isSome then w else
  let sz := unitSize d.sfmt
  let dz := unitSize d.dfmt
  let da := (posAddr d.dst d.ds p).toNat
  let rd : Rd := ⟨if d.sdev then none else some core, (posAddr d.src d.ss p).toNat, sz⟩
  let drd : Rd := ⟨if d.ddev then none else some core, da, dz⟩
  let rds := joinRd w.rds rd
  let rds := if d.add then joinRd rds drd else rds
  match rdsFault w.st (if d.add then [rd, drd] else [rd]) with
  | some f => { w with rds := rds, fault := some f }
  | none =>
    let raw := rd.get w.st
    let e : Enc :=
      if d.sfmt = 6 then { bytes := raw, sat := 0, nan := 0 }
      else
        let v := decode d.sfmt (leNat raw)
        encElem d.dfmt (if d.add then (decode d.dfmt (leNat (drd.get w.st))).add v else v)
    let wr : Wr := { scratch := drd.scratch, addr := da, bytes := e.bytes, sat := e.sat, nan := e.nan }
    { w with st := poke w.st wr, rds := rds, wrs := w.wrs ++ [wr] }

/-- A padding position: zero bytes, unless it shares a byte with a valid position (R212). -/
def padElem (core : Nat) (d : CDesc) (valid : List Int) (w : Walk) (p : List Nat) : Walk :=
  if w.fault.isSome then w else
  let dz := unitSize d.dfmt
  let da := posAddr d.dst d.ds p
  if valid.any (fun v => v < da + dz && da < v + dz) then w
  else
    let wr : Wr := { scratch := if d.ddev then none else some core, addr := da.toNat, bytes := List.replicate dz 0 }
    { w with st := poke w.st wr, wrs := w.wrs ++ [wr] }

/-- The walk of a COPY or ADD descriptor (R209 to R212). -/
def copyWalk (s : State) (core : Nat) (d : CDesc) : Walk :=
  let inside (p : List Nat) : Bool := p.getD 0 0 < d.n.getD 0 0 && p.getD 1 0 < d.n.getD 1 0
  let valid := if d.pad then (walk d.n).map (posAddr d.dst d.ds) else []
  (walk d.dn).foldl (fun w p => if inside p then copyElem core d w p else padElem core d valid w p) { st := s }

/-- Changes of 64-byte block along a list of addresses. -/
def blockRuns (l : List Int) : Nat :=
  (l.foldl (fun (x : Nat × Option Int) a => if x.2 = some (a / 64) then x else (x.1 + 1, some (a / 64))) (0, none)).1

/-- The least CCLK of a descriptor's source side and destination side (R215). -/
def minCycles (d : CDesc) : Nat × Nat :=
  if d.tr then
    let v := if unitSize d.sfmt = 4 then 16 else if unitSize d.sfmt = 2 then 32 else 64
    let c := cdiv (d.dn.getD 0 1) v * cdiv (d.dn.getD 1 1) v * d.dn.getD 2 1 * d.dn.getD 3 1 * v
    (c, c)
  else (blockRuns ((walk d.n).map (posAddr d.src d.ss)), blockRuns ((walk d.dn).map (posAddr d.dst d.ds)))

/-! ### Running a chain -/

/-- The owner's mark on a command's accesses and hints. -/
def Running.owner (r : Running) (n : Nat) : Nat × Nat := (n, r.start)

/-- Make writes of a copy-engine command: the bytes count in CORE_CPBYTES (R221), the conversions on the command (R46). -/
def copyWrites (s : State) (n : Nat) (r : Running) (ws : List Wr) : State × Running :=
  (coreCount (applyWrs r.by s (coalesce ws)) n 0x068 (wrsBytes ws), { r with sat := r.sat + wrsSat ws, nan := r.nan + wrsNan ws })

/-- A status that ends a command at once: the Fault class (R8). -/
def faultClass (st : Status) : Bool := 0x40 ≤ st.toNat && st.toNat ≤ 0x4F

/-- A status that ends a chain where it stands: a Fault, or ABORTED_FENCED for a hint of a fenced unit (R219, R283). -/
def stopsChain (st : Status) : Bool := faultClass st || st == stFenced

/-- A running command meets a memory fault. -/
def Running.strike (r : Running) (f : MemFault) : Running :=
  { r with status := worse r.status f.status, detail := BitVec.ofNat 32 f.detail }

/-- A COPY or ADD descriptor: its whole walk, or a leading part of it before a fault (R219, R378). -/
def runCopyDesc (s : State) (n : Nat) (r : Running) (b : List Byte) : State × Running :=
  let d := cDesc b
  let w := copyWalk s n d
  let s := rdsTouch r.by s w.rds
  match w.fault with
  | some f =>
    let (ws, s) := freeLead s w.wrs
    let (s, r) := copyWrites s n r (upToFault s ws).1
    (s, r.strike f)
  | none =>
    let x := upToFault s w.wrs
    let (s, r) := copyWrites s n r x.1
    match x.2 with
    | some f => (s, r.strike f)
    | none => (s, { r with pos := r.pos + 1, csrc := r.csrc + (minCycles d).1, cdst := r.cdst + (minCycles d).2 })

/-- A hint is work of a fenced unit (R283; log 91): one of its tiles lies on a fenced memory-port die, or is to move on a fenced channel. -/
def hintStopped (s : State) (op base len : Nat) : Bool :=
  (tilesOf base len).any (fun t =>
    let ch := chanOf s (classOf s t)
    unitFenced s 7 (ch / 16) || (op != 2 && unitFenced s 6 ch))

/-- A HINT descriptor is handed to the memory ports (R195); `r.hints` counts those not yet complete. One that a fenced unit would serve ends the
command with ABORTED_FENCED (R283). -/
def runHint (s : State) (n : Nat) (r : Running) (b : List Byte) : State × Running :=
  let h := hDesc b
  if hintStopped s h.hop h.base h.len then (s, { r with status := worse r.status stFenced }) else
  let hint : Hint := { op := h.hop, base := h.base, len := h.len, slice := if h.slice = 15 then n / 100 else h.slice,
                       dst := if h.hop = 2 then some (if h.ddev then none else some n, h.dst) else none, owner := some (r.owner n) }
  ({ s with tiers := { s.tiers with hints := s.tiers.hints ++ [hint] } }, { r with pos := r.pos + 1, hints := r.hints + 1 })

/-- Progress of a GCOPY's walk: requests and writes made so far on the state, what the walk adds to its command, and the fault that stopped it. -/
structure GWalk where
  st    : State
  run   : Running
  fault : Option MemFault := none

/-- One element of a GCOPY, number `i` of its walk: local when this device holds it, else a request to the device that does (R218). What a gather
reads waits for the elements before it. -/
def gElem (l : List Sect) (n : Nat) (g : GDesc) (t : Dtd) (w : GWalk) (x : List Nat × Nat) : GWalk :=
  if w.fault.isSome then w else
  let s := w.st
  let r := w.run
  let sz := fmtSize t.fmt
  let i := g.elem x.1
  let ga := t.addrOf i
  let side : Option Nat := if g.ldev then none else some n
  let lrd : Rd := ⟨side, (posAddr g.laddr g.ls x.1).toNat, sz⟩
  let rank := (t.rankOf l (t.shardOf i)).getD 0
  let base : ReqArg := { unit := n, owner := r.owner n, ctx := r.rec'.ctx, rank := rank, typ := 0x03, addr := ga, par := genPar s (.core n), idx := x.2 }
  if rank = ownRank l then
    let grd : Rd := ⟨none, ga, sz⟩
    let src := if g.scat then lrd else grd
    match rdsFault s (if g.add then [src, grd] else [src]) with
    | some f => { w with st := rdsTouch r.by s (if g.add then [src, grd] else [src]), fault := some f }
    | none =>
      let v := leNat (src.get s)
      let e := if g.add then encElem t.fmt ((decode t.fmt (leNat (grd.get s))).add (decode t.fmt v)) else { bytes := natLE sz v, sat := 0, nan := 0 }
      let s := rdsTouch r.by s (if g.add then [src, grd] else [src])
      if g.scat then
        let wr : Wr := { scratch := none, addr := ga, bytes := e.bytes, sat := e.sat, nan := e.nan }
        match wr.fault s with
        | some f => { w with st := s, fault := some f }
        | none => let y := copyWrites s n r [wr]; { w with st := y.1, run := y.2 }
      else { w with st := s, run := { r with land := r.land ++ [(x.2, { scratch := side, addr := lrd.addr, bytes := e.bytes })] } }
  else if g.scat then
    match lrd.fault s with
    | some f => { w with st := lrd.touch s r.by, fault := some f }
    | none =>
      { w with st := coreCount (request (lrd.touch s r.by) l { base with typ := if g.add then 0x02 else 0x01, bytes := lrd.get s, fmt := t.fmt, isAdd := g.add })
                 n 0x068 sz }
  else { w with st := request s l { base with len := sz, dst := some (side, lrd.addr) } }

/-- The first `k` elements of a GCOPY's box in walk order; `r` is the running command, whose status requests may raise. -/
def gWalk (s : State) (n : Nat) (r : Running) (b dt : List Byte) (k : Nat) : GWalk :=
  let l := sectsOf s (.core n)
  let g := gDesc b
  let w := ((walk g.n).zipIdx.take k).foldl (gElem l n g (dtdOf dt)) { st := s, run := r }
  let now := ((w.st.core n).running.find? (fun x => x.start == r.start)).getD r
  { w with run := { w.run with status := worse w.run.status now.status, detail := now.detail } }

/-- A GCOPY descriptor (R218): a fault on this device stops its walk. -/
def runGcopy (s : State) (n : Nat) (r : Running) (b dt : List Byte) : State × Running :=
  let w := gWalk s n r b dt (walk (gDesc b).n).length
  let r := { w.run with pos := r.pos + 1 }
  (w.st, match w.fault with | some f => r.strike f | none => r)

/-- Elements by their place in a walk. -/
def byIdx (l : List (Nat × Wr)) : List Wr := ((List.range (l.foldl (fun m x => max m (x.1 + 1)) 0)).filterMap (fun i => l.find? (fun x => x.1 == i))).map (·.2)

/-- The gathered elements up to the first that is missing. -/
def landed (l : List (Nat × Wr)) : List Wr :=
  let n := l.length
  ((List.range n).map (fun i => l.find? (fun x => x.1 == i))).takeWhile (·.isSome) |>.filterMap (fun x => x.map (·.2))

/-- A gather whose reads have ended writes its elements in walk order (R218, R209); after a fault, a leading part of free length (R219). -/
def landAll (s : State) (n : Nat) (r : Running) : State × Running :=
  if r.land = [] then (s, r)
  else if faultClass r.status then
    let (ws, s) := freeLead s (landed r.land)
    copyWrites s n { r with land := [] } (upToFault s ws).1
  else
    let x := upToFault s (byIdx r.land)
    let (s, r) := copyWrites s n { r with land := [] } x.1
    (s, match x.2 with | some f => r.strike f | none => r)

/-- A COPY waits for accesses or hints of the descriptor it last started (R213). -/
def copyWaits (s : State) (n : Nat) (r : Running) : Bool := r.hints != 0 || waitingAccess s n r.start

/-- A COPY whose walks have no access outstanding: what was gathered is written, and the descriptors started are complete unless one faulted. -/
def copySettle (s : State) (n : Nat) (r : Running) : State × Running :=
  let (s, r) := landAll s n r
  (s, if stopsChain r.status then r else { r with tiles := r.pos })

/-- A bridge holds what a descriptor sends to the memory ports: a span of a copy, the bytes of a REPORT, or a GCOPY's elements on this device
(R31; log 88). -/
def descHeld (s : State) (n : Nat) (b dt : List Byte) : Bool :=
  let held (dev : Bool) (a len : Nat) : Bool := dev && bridgeHolds s (.core n) a len
  match fld b 0 1 with
  | 3 => let h := hDesc b; h.hop == 2 && held h.ddev h.dst (h.len / 4096)
  | 4 =>
    let g := gDesc b
    let t := dtdOf dt
    let l := sectsOf s (.core n)
    let sp := spanOf g.laddr (fmtSize t.fmt) g.n g.ls
    held g.ldev sp.1.toNat sp.2 ||
      (walk g.n).any (fun p => let i := g.elem p; (t.rankOf l (t.shardOf i)).getD 0 == ownRank l && held true (t.addrOf i) (fmtSize t.fmt))
  | _ =>
    let c := cDesc b
    held c.sdev c.sspan.1.toNat c.sspan.2 || held c.ddev c.dspan.1.toNat c.dspan.2

/-- Descriptors in chain order, as far as they go without waiting: a descriptor whose accesses or hint are outstanding holds those after
it (R213), and a fault or a lost access ends the command (R219). -/
def runChain : Nat → State → Nat → Running → State
  | 0, s, n, r => putRun s n r
  | k + 1, s, n, r =>
    if r.done || copyWaits s n r then putRun s n r
    else
      let (s, r) := copySettle s n r
      if faultClass r.status then putRun s n { r with done := true }
      else if r.status = stFenced then putRun s n { r with done := true, detail := BitVec.ofNat 32 r.tiles }
      else
        match r.chain[r.pos]? with
        | none => putRun s n { r with done := true, status := worst ([r.status] ++ satStatus r.sat r.nan), detail := BitVec.ofNat 32 r.tiles }
        | some d =>
          if descHeld s n d.1 d.2 then putRun s n r
          else
            let (s, r) := match fld d.1 0 1 with
              | 3 => runHint s n r d.1
              | 4 => runGcopy (putRun s n r) n r d.1 d.2
              | _ => runCopyDesc s n r d.1
            runChain k s n r

/-- COPY (R220): the chain walked in order from where it stands. -/
def execCopy (core : Nat) (s : State) : Host.Outcome State Fault Refusal :=
  match runningOp (s.core core) 2 [0x20] with
  | none => .next s
  | some r => .next (runChain (2 * r.chain.length + 2) s core r)

/-- A command has issued its last write (R97): its work is done, or, of a COPY, every descriptor is started and no read, hint or gathered element is
outstanding. -/
def issuedLast (s : State) (n : Nat) (x : Running) : Bool :=
  (x.done && x.after = []) ||
    (x.rec'.op == 0x20 && x.pos == x.chain.length && x.hints == 0 && x.land == [] &&
      !s.accesses.any (fun a => a.unit == n && a.owner.2 == x.start && a.typ == 0x03))

end Sys2Proof.Machine
end

