-- ==== Sys2Proof/Machine/Records.lean ====
section
/-! DEFINITION. Records of device memory that several units share: statistic records (R122, R123), their assembly (R130) and fold
(R128), and result records (R142). -/

namespace Sys2Proof.Machine

open Sys2Proof

/-- Replace bytes of a record from an offset. -/
def setBytes (r : List Byte) (off : Nat) (bs : List Byte) : List Byte := r.take off ++ bs ++ r.drop (off + bs.length)

/-- Set a field of `n` bytes. -/
def setFld (r : List Byte) (off n v : Nat) : List Byte := setBytes r off (natLE n v)

/-- Set bits of a byte. -/
def setBits (r : List Byte) (off lo w v : Nat) : List Byte :=
  let b := fld r off 1
  setFld r off 1 (b - bitsOf b lo w * 2 ^ lo + v % 2 ^ w * 2 ^ lo)

/-- The codes of `n` elements of a byte list. -/
def codes (f n : Nat) (bs : List Byte) : List Nat := (recordsOf n (fmtSize f) bs).map leNat

/-- Refusal of a region that must lie in the context's partitions (R103, R124, R140, R184), and on backed tiles (R201). -/
def uniRefuse (s : State) (l : List Sect) (c a n : Nat) (write : Bool) : Option Refuse :=
  firstRefuse [chk (!inRanges s l c a n || (write && (hitsRo s c a n || hitsSealed s a n))) stPrivilege 0xFF,
    chk (hitsUnbacked s a n) stBounds 0xFF]

/-- Numerical tests of a scalar (R409): zero of either sign counts as +0. -/
def isZp (x : F32) : Bool := fzero x || (fpos x && ffinite x)
def isPos (x : F32) : Bool := fpos x && ffinite x

/-- A write cut into 64-byte pieces, so that an interruption can leave a part. -/
def piecesFrom : Nat → Nat → List Byte → List Wr
  | 0, _, _ => []
  | n + 1, a, bs => { scratch := none, addr := a, bytes := bs.take 64 } :: piecesFrom n (a + 64) (bs.drop 64)

def pieces (a : Nat) (bs : List Byte) : List Wr := piecesFrom (cdiv bs.length 64) a bs

/-! ### Statistic records (R122, R123) -/

structure Stat where
  kind   : Nat
  valid  : Bool
  broken : Bool
  tnorm  : Bool
  chunk  : Nat
  order  : Nat
  id     : Nat
  core   : Nat
  ctx    : Nat
  base   : Nat
  beta   : F32
  wscale : F32
  damp   : F32
  rows   : Nat
  gcount : Nat
  folds  : Nat
deriving DecidableEq, Repr, Inhabited

def statOf (h : List Byte) : Stat :=
  { kind := fld h 0 1, valid := bitOf (fld h 1 1) 7, broken := bitOf (fld h 1 1) 6, tnorm := bitOf (fld h 1 1) 2, chunk := bitsOf (fld h 1 1) 0 2,
    order := bitsOf (fld h 2 2) 0 12, id := fld h 4 4, core := bitsOf (fld h 8 2) 0 10, ctx := bitsOf (fld h 10 2) 0 10, base := fld h 12 4,
    beta := BitVec.ofNat 32 (fld h 16 4), wscale := BitVec.ofNat 32 (fld h 20 4), damp := BitVec.ofNat 32 (fld h 24 4), rows := fld h 28 4,
    gcount := fld h 32 4, folds := fld h 36 4 }

def statGroups : List Group := [gAll 0 1, (1, 1, 0xC7), (2, 2, 0xFFF), gAll 4 4, (8, 2, 0x3FF), (10, 2, 0x3FF), gAll 12 36]

/-- A reserved field of the header is nonzero. -/
def statReserved (h : List Byte) : Bool := !(reservedFails statGroups 0 64 h).isEmpty

/-- Tile rows and tiles of a block (R122). -/
def Stat.t (x : Stat) : Nat := x.order / 32
def Stat.nt (x : Stat) : Nat := x.t * (x.t + 1) / 2

/-- Bytes of the record, and where its areas start (R123). -/
def Stat.size (x : Stat) : Nat := 64 + 6144 * x.nt
def Stat.avgLen (x : Stat) : Nat := 2048 * x.nt
def Stat.accAt (x : Stat) (a t : Nat) : Nat := a + 64 + 2048 * x.nt + 4096 * t

/-- The fields of R123 within their ranges (R132, R184). -/
def statRange (h : List Byte) : Bool :=
  let x := statOf h
  !statReserved h && x.chunk != 3 && x.order % 32 == 0 && 32 ≤ x.order && x.order ≤ 2048 &&
    (fzero x.beta || (fle 0x3F00_0000 x.beta && flt x.beta f32one)) && isPos x.wscale && isZp x.damp && x.base + 1024 * x.nt ≤ 2 ^ 32

/-- Index of tile (ti, tj) among `t` tile rows (R122). -/
def tileIdx (t ti tj : Nat) : Nat := ti * t - ti * (ti - 1) / 2 + (tj - ti)

/-- The tiles of a block in index order, as pairs. -/
def tilePairs (t : Nat) : List (Nat × Nat) :=
  (List.range t).flatMap (fun ti => (List.range (t - ti)).map (fun k => (ti, ti + k)))

/-- Element at block position (i, j), i ≤ j, of an area with 1,024 elements a tile. -/
def statPos (t i j : Nat) : Nat := 1024 * tileIdx t (i / 32) (j / 32) + 32 * (i % 32) + j % 32

/-! ### Assembly (R130) -/

/-- The assembled matrix, row-major, with mu and whether the block is flat. -/
structure Assembled where
  m    : List F32
  mu   : F32
  flat : Bool
deriving Inhabited

/-- Assembly from the header and the average area. -/
def assemble (h area : List Byte) : Assembled :=
  let x := statOf h
  let b := x.order
  let avg := ((codes 1 (1024 * x.nt) area).map (toF32 1)).toArray
  let at' (i j : Nat) : F32 := avg.getD (statPos x.t (min i j) (max i j)) 0
  let idx := List.range b
  let bad := x.folds == 0 || idx.any (fun i => idx.any (fun j => i ≤ j && !ffinite (at' i j)))
  let tr := idx.foldl (fun t i => fadd t (at' i i)) 0
  let mu0 := fdiv tr (fnat b)
  let norm := x.tnorm && !bad
  let small := norm && (!ffinite mu0 || flt mu0 0x0080_0000)
  let flat := bad || small
  let rcp := fdiv f32one mu0
  let elem (i j : Nat) : F32 :=
    if flat then (if i = j then fadd f32one x.damp else 0)
    else
      let v := if x.tnorm then fmul (at' i j) rcp else at' i j
      if i = j then fadd v x.damp else v
  { m := idx.flatMap (fun i => idx.map (fun j => elem i j)), mu := if norm && !small then mu0 else 0, flat := flat }

/-! ### The fold (R128) -/

/-- What a fold gives: the new header and average area, with what its conversions count. -/
structure Folded where
  hdr  : List Byte
  area : List Byte
  sat  : Nat := 0
  nan  : Nat := 0
deriving DecidableEq, Repr, Inhabited

/-- The header with its step's accumulation discarded. -/
def dropAcc (h : List Byte) : List Byte := setFld (setFld h 28 4 0) 32 4 0

/-- Fold one element. -/
def foldElem (x : Stat) (seed id step : Nat) (acc : F32) (avg e : Nat) : Conv :=
  let c := fmul acc x.wscale
  let v := if x.folds = 0 then c else ffma (toF32 1 avg) x.beta (fmul c (fsub f32one x.beta))
  srBf16 v (rndOf seed id step 3 (x.base + e))

/-- Fold a record, given its header, average area and accumulator area, for the UPDATE's TENSOR_ID and STEP. -/
def foldRecord (h area acc : List Byte) (seed id step : Nat) : Folded :=
  let x := statOf h
  if x.broken then { hdr := setBits (dropAcc h) 1 6 1 0, area := area }
  else if x.rows = 0 then { hdr := h, area := area }
  else
    let n := 1024 * x.nt
    let cs := ((f32s n acc).zip (codes 1 n area)).zipIdx.map (fun y => foldElem x seed id step y.1.1 y.1.2 y.2)
    { hdr := setFld (setFld (setFld (dropAcc h) 36 4 (min (x.folds + 1) (2 ^ 32 - 1))) 40 4 step) 44 4 x.gcount,
      area := cs.flatMap (fun c => natLE 2 c.code), sat := (cs.map (fun c => b2n c.sat)).sum, nan := (cs.map (fun c => b2n c.nan)).sum }

/-! ### Result records (R142) -/

structure Res where
  op    : Nat
  valid : Bool
  cur   : Bool
  pexp  : Nat
  order : Nat
  id    : Nat
  ncols : Nat
  age   : Nat
  used  : Nat
deriving DecidableEq, Repr, Inhabited

def resOf (h : List Byte) : Res :=
  { op := fld h 0 1, valid := bitOf (fld h 1 1) 7, cur := bitOf (fld h 1 1) 6, pexp := bitsOf (fld h 1 1) 0 4, order := bitsOf (fld h 2 2) 0 12,
    id := fld h 4 4, ncols := bitsOf (fld h 8 2) 0 13, age := fld h 10 2, used := fld h 12 4 }

/-- Offset of a body's descriptor in the header, and of the body in the record. -/
def descAt (c : Bool) : Nat := if c then 32 else 16
def bodyAt (c : Bool) (b ncols : Nat) : Nat := 64 + (if c then 2 * b * ncols else 0)
def resSize (b ncols : Nat) : Nat := 64 + 4 * b * ncols

/-- MU and flags of the current body (R142). -/
def curMu (h : List Byte) : F32 := BitVec.ofNat 32 (fld h (descAt (resOf h).cur + 4) 4)
def curFlags (h : List Byte) : Nat := fld h (descAt (resOf h).cur + 13) 1

end Sys2Proof.Machine
end

