-- ==== Sys2Proof/Machine/Update.lean ====
section
/-! DEFINITION. UPDATE: the fused update of one shard, its descriptor and checks, its arithmetic and its two-phase commit (09). -/

namespace Sys2Proof.Machine

open Sys2Proof

/-! ### The command and its descriptor (R84, R166, R167) -/

structure UCmd where
  scheme : Nat
  replay : Bool
  id     : Nat
  step   : Nat
  desc   : Nat
deriving DecidableEq, Repr, Inhabited

def uCmd (r : List Byte) : UCmd :=
  { scheme := fld r 8 1, replay := bitOf (fld r 9 1) 0, id := fld r 12 4, step := fld r 16 4, desc := bitsOf (fld r 24 8) 0 48 }

/-- The header of an update descriptor. -/
structure UHdr where
  scheme    : Nat
  valid     : Bool
  broken    : Bool
  phase     : Nat
  sreplay   : Bool
  sskip     : Bool
  id        : Nat
  committed : Nat
  staged    : Nat
  at'       : Nat
  lastRatio : Nat
  sratio    : Nat
  sstatus   : Nat
  ssatnan   : Nat
deriving DecidableEq, Repr, Inhabited

def uHdr (d : List Byte) : UHdr :=
  { scheme := fld d 0 1, valid := bitOf (fld d 1 1) 7, broken := bitOf (fld d 1 1) 6, phase := bitsOf (fld d 1 1) 4 2,
    sreplay := bitOf (fld d 1 1) 3, sskip := bitOf (fld d 1 1) 2, id := fld d 4 4, committed := fld d 8 4, staged := fld d 12 4,
    at' := bitsOf (fld d 16 8) 0 48, lastRatio := fld d 24 4, sratio := fld d 32 4, sstatus := fld d 36 1, ssatnan := fld d 40 4 }

/-- The settings of an update descriptor. -/
structure USet where
  ratioact : Bool
  nfact    : Bool
  normpol  : Nat
  ufmt     : Nat
  gfmt     : Nat
  gzero    : Bool
  delay    : Bool
  nleft    : Nat
  nright   : Nat
  nfold    : Nat
  r0       : Nat
  c0       : Nat
  nr       : Nat
  nc       : Nat
  trows    : Nat
  tcols    : Nat
  dry      : Bool
deriving DecidableEq, Repr, Inhabited

def uSet (d : List Byte) : USet :=
  let b := fld d 64 1
  { ratioact := bitOf b 7, nfact := bitOf b 6, normpol := bitsOf b 4 2, ufmt := if bitOf b 3 then 0 else 1, gfmt := if bitOf b 2 then 0 else 1,
    gzero := bitOf b 1, delay := bitOf b 0, nleft := bitsOf (fld d 65 1) 0 6, nright := bitsOf (fld d 66 1) 0 6, nfold := bitsOf (fld d 67 1) 0 7,
    r0 := fld d 68 4, c0 := fld d 72 4, nr := fld d 76 4, nc := fld d 80 4, trows := fld d 84 4, tcols := fld d 88 4, dry := bitOf (fld d 92 1) 0 }

/-- An address of the settings, and an FP32 scalar. -/
def uAddr (d : List Byte) (off : Nat) : Nat := bitsOf (fld d off 8) 0 48
def uScal (d : List Byte) (off : Nat) : F32 := BitVec.ofNat 32 (fld d off 4)

def uW (d : List Byte) : Nat := uAddr d 96
def uM1 (d : List Byte) : Nat := uAddr d 104
def uM2 (d : List Byte) : Nat := uAddr d 112
def uU (d : List Byte) : Nat := uAddr d 136
def uStage (d : List Byte) : Nat := uAddr d 152
def uStageLen (d : List Byte) : Nat := bitsOf (fld d 160 8) 0 40
def uBlk (d : List Byte) : Nat := uAddr d 168
def uFold (d : List Byte) : Nat := uAddr d 176

/-- Parity of the gradient buffer and norm word that an update of STEP reads (R172, R181). -/
def uPar (d : List Byte) (step : Nat) : Nat := (step + (if (uSet d).delay then 2 ^ 32 - 1 else 0)) % 2
def uGrad (d : List Byte) (step : Nat) : Nat := if uPar d step = 0 then uAddr d 120 else uAddr d 128

def USet.n (u : USet) : Nat := u.nr * u.nc
/-- SW of R176. -/
def USet.sw (u : USet) : Nat := roundup (2 * u.n) 64

def uGroups : List Group :=
  [gAll 0 1, (1, 1, 0xFC), gAll 4 12, gAddr 16, gAll 24 8, gAll 32 5, gAll 40 4, gAll 64 1, (65, 1, 0x3F), (66, 1, 0x3F), (67, 1, 0x7F), gAll 68 24,
   (92, 1, 1), gAddr 96, gAddr 104, gAddr 112, gAddr 120, gAddr 128, gAddr 136, gAddr 144, gAddr 152, (160, 8, 2 ^ 40 - 1), gAddr 168, gAddr 176,
   gAll 184 48]

/-- The scalars lie in the ranges of R167. -/
def uScalarsOk (d : List Byte) : Bool :=
  let v := uScal d
  let u := uSet d
  let unit (x : F32) : Bool := fzero x || (fpos x && flt x f32one)
  isZp (v 184) && unit (v 188) && unit (v 192) && isPos (v 196) && isZp (v 200) && (ffinite (v 204) && fle f32one (v 204)) &&
    (ffinite (v 208) && fle f32one (v 208)) && isPos (v 212) &&
    (if u.normpol = 1 then fzero (v 216) || (fpos (v 216) && fle (v 216) f32one) else fzero (v 216)) &&
    (if u.normpol = 2 then isPos (v 220) && fpos (v 224) else fzero (v 220) && fzero (v 224)) && isZp (v 228)

/-- Row 3 of R184. -/
def uSettingsOk (d : List Byte) (c : UCmd) : Bool :=
  let h := uHdr d
  let u := uSet d
  h.valid && !h.broken && h.phase != 3 && h.scheme == c.scheme && h.id == c.id && u.normpol != 3 && (reservedFails uGroups 0 256 d).isEmpty &&
    1 ≤ u.nr && 1 ≤ u.nc && u.nfold ≤ 64 && [96, 104, 112, 120, 128, 136, 144, 152, 168, 176].all (fun o => uAddr d o % 64 == 0) &&
    (c.scheme != 0 || (uU d == 0 && u.ufmt == 1)) && (u.normpol == 2 || uAddr d 144 == 0) && (u.nleft + u.nright != 0 || uBlk d == 0) &&
    (u.nfold != 0 || uFold d == 0) && uScalarsOk d

/-! ### Block list and fold list (R167, R168) -/

/-- A listed block with its record's header, absent where the context may not read it. -/
structure UBlk where
  left  : Bool
  first : Nat
  addr  : Nat
  hdr   : Option (List Byte)
deriving DecidableEq, Repr, Inhabited

/-- Whether a region may be read while checking: in the partitions and backed. -/
def peekOk (s : State) (l : List Sect) (c a n : Nat) : Bool := (uniRefuse s l c a n false).isNone

/-- The entries of the block list. -/
def uBlkEntries (s : State) (d : List Byte) : List (List Byte) :=
  let u := uSet d
  recordsOf (u.nleft + u.nright) 16 (devRead s (uBlk d) (16 * (u.nleft + u.nright)))

/-- The listed blocks; none when the list itself cannot be read. -/
def uBlocks (s : State) (l : List Sect) (c : Nat) (d : List Byte) : List UBlk :=
  let u := uSet d
  if u.nleft + u.nright = 0 || !peekOk s l c (uBlk d) (16 * (u.nleft + u.nright)) then []
  else (uBlkEntries s d).zipIdx.map (fun x =>
    let a := bitsOf (fld x.1 0 8) 0 48
    { left := x.2 < u.nleft, first := fld x.1 8 4, addr := a, hdr := if peekOk s l c a 64 then some (devRead s a 64) else none })

def UBlk.order (b : UBlk) : Nat := match b.hdr with | some h => (resOf h).order | none => 0

/-- The entries of one side cover `lo` to `lo + n - 1` without gap or overlap, each at least one of them (R168). -/
def uCovers (lo n : Nat) (first : Bool) (pos : Nat) : List UBlk → Bool
  | [] => lo + n ≤ pos
  | b :: bs => (if first then b.first ≤ lo && lo < b.first + b.order else b.first == pos) && b.order != 0 && b.first < lo + n &&
      uCovers lo n false (b.first + b.order) bs

/-- What the block list itself must meet under R168: its sides, and its reserved fields. -/
def uListOk (s : State) (d : List Byte) (scheme : Nat) (bl : List UBlk) : Bool :=
  let u := uSet d
  let sides : Bool := match scheme with
    | 0 => u.nleft + u.nright == 0
    | 3 => (u.nleft == 0) != (u.nright == 0)
    | _ => u.nleft != 0 && u.nright != 0
  sides && (bl = [] || ((uBlkEntries s d).all (fun e => fld e 6 2 == 0 && fld e 12 4 == 0)))

/-- A listed record's header matches the scheme (R168). -/
def uBlockOk (scheme : Nat) (h : List Byte) : Bool :=
  (resOf h).valid && (resOf h).op == (if scheme = 1 then 4 else 5) && (scheme == 1 || (resOf h).pexp == (if scheme = 2 then 4 else 2)) &&
    (resOf h).ncols == (resOf h).order

/-- The listed blocks cover the shard's rows and columns (R168), where every header may be read. -/
def uCoverOk (d : List Byte) (bl : List UBlk) : Bool :=
  let u := uSet d
  bl.any (fun b => b.hdr.isNone) ||
    ((bl.filter (·.left) = [] || uCovers u.r0 u.nr true 0 (bl.filter (·.left))) &&
     (bl.filter (!·.left) = [] || uCovers u.c0 u.nc true 0 (bl.filter (!·.left))))

/-- The fold list: each record's address and its header where it may be read. -/
def uFolds (s : State) (l : List Sect) (c : Nat) (d : List Byte) : List (Nat × Option (List Byte)) :=
  let n := (uSet d).nfold
  if n = 0 || !peekOk s l c (uFold d) (8 * n) then []
  else (recordsOf n 8 (devRead s (uFold d) (8 * n))).map (fun e =>
    let a := leNat e
    (a, if a % 64 = 0 && a < 2 ^ 48 && peekOk s l c a 64 then some (devRead s a 64) else none))

/-- An entry of the fold list, and a fold record's header, pass row 6 of R184. -/
def uFoldAddrOk (a : Nat) : Bool := a % 64 == 0 && a < 2 ^ 48
def uFoldHdrOk (d h : List Byte) : Bool :=
  (statOf h).valid && 1 ≤ (statOf h).kind && (statOf h).kind ≤ 4 && (statOf h).id == (uHdr d).id && statRange h

/-! ### Checks (R184) -/

/-- A region an update names: address, length, whether it is written. -/
abbrev URegion := Nat × Nat × Bool

/-- The regions of R176 and R184: state, gradient buffers, U, lists, records. -/
def uState (d : List Byte) : List URegion :=
  let n := (uSet d).n
  [(uW d, 2 * n, true), (uM1 d, 2 * n, true), (uM2 d, 2 * n, true)]

def uInputs (d : List Byte) (scheme : Nat) (bl : List UBlk) (fl : List (Nat × Option (List Byte))) : List URegion :=
  let u := uSet d
  let g := u.n * fmtSize u.gfmt
  [(uAddr d 120, g, u.gzero), (uAddr d 128, g, u.gzero)] ++ (if scheme = 0 then [] else [(uU d, u.n * fmtSize u.ufmt, false)]) ++
    (if u.nleft + u.nright = 0 then [] else [(uBlk d, 16 * (u.nleft + u.nright), false)]) ++ (if u.nfold = 0 then [] else [(uFold d, 8 * u.nfold, false)]) ++
    bl.map (fun b => (b.addr, match b.hdr with | some h => resSize (resOf h).order (resOf h).ncols | none => 64, false)) ++
    fl.map (fun f => (f.1, match f.2 with | some h => (statOf h).size | none => 64, true))

/-- Bytes of the staged image (R176). -/
def uStageNeed (d : List Byte) (fl : List (Nat × Option (List Byte))) : Nat :=
  3 * (uSet d).sw + (fl.map (fun f => match f.2 with | some h => 64 + (statOf h).avgLen | none => 0)).sum

/-- The staging area or the state meets a region of R176 (row 9 of R184). -/
def uAlias (d : List Byte) (c : UCmd) (bl : List UBlk) (fl : List (Nat × Option (List Byte))) : Bool :=
  let stage : URegion := (uStage d, uStageLen d, true)
  let rest : List URegion := (c.desc, 256, true) :: uInputs d c.scheme bl fl
  let hit (a b : URegion) : Bool := meets a.1 a.2.1 b.1 b.2.1
  rest.any (hit stage) || (uState d).any (hit stage) || (uState d).any (fun a => rest.any (hit a)) ||
    hit (uW d, 2 * (uSet d).n, true) (uM1 d, 2 * (uSet d).n, true) || hit (uW d, 2 * (uSet d).n, true) (uM2 d, 2 * (uSet d).n, true) ||
    hit (uM1 d, 2 * (uSet d).n, true) (uM2 d, 2 * (uSet d).n, true)

/-- Row 4 of R184: the step numbers (R179). -/
def uStepCheck (s : State) (ctx : Nat) (d : List Byte) (c : UCmd) : Option Refuse :=
  let h := uHdr d
  let committed := if h.phase = 2 && c.step != h.staged then h.staged else h.committed
  firstRefuse [chk (!c.replay && (s.ctx ctx).step.toNat != c.step) stDescriptor 16,
    chk (committed != 2 ^ 32 - 1 && (committed + 1) % 2 ^ 32 != c.step) stDescriptor 0xFF]

/-- The first check of a list that does not pass. -/
def firstStop : List (Checked Unit) → Checked Unit
  | [] => .ok ()
  | .ok _ :: l => firstStop l
  | x :: _ => x

/-- A read that a check makes (R407), and a condition that it refuses on. -/
def readStop (s : State) (a n : Nat) : Checked Unit := match devFault s a n with | some f => .fault f | none => .ok ()
def refuseIf (bad : Bool) (st : Status) (detail : Nat) : Checked Unit := if bad then .refuse st detail else .ok ()

/-- Row 6 of R184: the block list and its records' headers, then the fold list and its headers, each as it is read (R407). -/
def uListCheck (s : State) (d : List Byte) (scheme : Nat) (bl : List UBlk) (fl : List (Nat × Option (List Byte))) : Checked Unit :=
  let u := uSet d
  let no (bad : Bool) : Checked Unit := refuseIf bad stDescriptor 0xFF
  firstStop ([if bl = [] then .ok () else readStop s (uBlk d) (16 * (u.nleft + u.nright)), no (!uListOk s d scheme bl)] ++
    bl.flatMap (fun b => match b.hdr with | some h => [readStop s b.addr 64, no (!uBlockOk scheme h)] | none => []) ++
    [no (!uCoverOk d bl), if fl = [] then .ok () else readStop s (uFold d) (8 * u.nfold)] ++
    fl.flatMap (fun f => no (!uFoldAddrOk f.1) :: (match f.2 with | some h => [readStop s f.1 64, no (!uFoldHdrOk d h)] | none => [])))

/-- The checks of an UPDATE (check 6 of R100, then R184). -/
def updCheck (s : State) (e : Env) (r : List Byte) : Checked Unit :=
  let c := uCmd r
  let first := firstRefuse [(firstFail (reservedFails (bodyGroups 0x12) 8 64 r)).map (fun o => (stDescriptor, o)),
    chk (3 < c.scheme) stDescriptor 8, chk (c.desc % 64 != 0) stDescriptor 24, uniRefuse s e.sec e.ctx c.desc 256 true]
  match first with
  | some x => .refuse x.1 x.2
  | none =>
    match devFault s c.desc 256 with
    | some f => .fault f
    | none =>
      let d := devRead s c.desc 256
      let u := uSet d
      let second := firstRefuse [chk (!uSettingsOk d c) stDescriptor 0xFF, uStepCheck s e.ctx d c,
        chk (2 ^ 32 < u.trows * u.tcols || u.trows < u.r0 + u.nr || u.tcols < u.c0 + u.nc) stBounds 0xFF]
      match second with
      | some x => .refuse x.1 x.2
      | none =>
        let bl := uBlocks s e.sec e.ctx d
        let fl := uFolds s e.sec e.ctx d
        match uListCheck s d c.scheme bl fl with
        | .ok _ =>
          let norm : List URegion := if u.normpol = 2 then [(uAddr d 144, 16, false)] else []
          let named := uState d ++ uInputs d c.scheme bl fl ++ norm ++ [(uStage d, uStageLen d, true)]
          let third := firstRefuse (named.map (fun g => uniRefuse s e.sec e.ctx g.1 g.2.1 g.2.2) ++
            [chk (uStageLen d < uStageNeed d fl) stBounds 0xFF, chk (uAlias d c bl fl) stAlias 0xFF])
          match third with
          | some x => .refuse x.1 x.2
          | none => .ok ()
        | x => x

/-! ### The formula (R170, R171) -/

/-- The factor of a block (R170); `p` is 1, 2 or 4. -/
def muFactor (p : Nat) (mu : F32) : F32 :=
  if fzero mu then f32one
  else
    let r := if p = 1 then mu else if p = 2 then fsqrt mu else fsqrt (fsqrt mu)
    fdiv f32one r

/-- What one element gives: the new values in FP32, and whether any checked value was not finite (R174). -/
structure UElem where
  w  : F32
  m  : F32
  v  : F32
  nf : Bool
deriving DecidableEq, Repr, Inhabited

/-- The update of one element (R171); `d` is the descriptor with the scalars. -/
def updElem (d : List Byte) (fo : Bool) (clipf sl sr w m v g u : F32) : UElem :=
  let gs := uScal d 212
  let b1 := uScal d 188
  let b2 := uScal d 192
  let g1 := fmul g gs
  let g2 := fmul g1 clipf
  let x1 := fmul u gs
  let x2 := fmul x1 clipf
  let x3 := fmul x2 sl
  let x4 := fmul x3 sr
  let xs := if fo then [g2] else [x1, x2, x3, x4]
  let x := if fo then g2 else x4
  let m' := ffma m b1 (fmul x (fsub f32one b1))
  let v' := ffma v b2 (fmul (fmul g2 g2) (fsub f32one b2))
  let h := fadd (fsqrt (fmul v' (uScal d 208))) (uScal d 196)
  let d1 := fmul m' (uScal d 204)
  let ds := if fo then [d1, fdiv d1 h] else [d1]
  let dd := if fo then fdiv d1 h else d1
  let t := ffma (uScal d 200) w dd
  let w' := ffma (fneg (uScal d 184)) t w
  { w := w', m := m', v := v', nf := ([w, m, v, g, g1, g2, m', v', w'] ++ xs ++ ds).any (fun y => !ffinite y) }

/-- The factor and fo of the block of one side that covers an index; 1 and false where none does. -/
def blockFor (bl : List UBlk) (left : Bool) (p i : Nat) : F32 × Bool :=
  match bl.find? (fun b => b.left == left && b.first ≤ i && i < b.first + b.order) with
  | some b => match b.hdr with
    | some h => (muFactor p (curMu h), bitOf (curFlags h) 5 || bitOf (curFlags h) 2)
    | none => (f32one, false)
  | none => (f32one, false)

/-- The norm policy (R172): skip, and clipf otherwise. -/
def normPolicy (d : List Byte) (n2 : F32) : Bool × F32 :=
  match (uSet d).normpol with
  | 1 => (fzero (uScal d 216), uScal d 216)
  | 2 =>
    let gn := fmul (fsqrt n2) (uScal d 212)
    if !ffinite gn || flt (uScal d 224) gn then (true, f32one)
    else if flt (uScal d 220) gn then (false, fdiv (uScal d 220) gn) else (false, f32one)
  | _ => (false, f32one)

/-- The ratio (R175), and whether sw is above +0. -/
def updRatio (ws ns : List F32) : F32 × Bool :=
  let (sw, sd) := (ws.zip ns).foldl (fun (x : F32 × F32) e =>
    let dd := fsub e.2 e.1
    (ffma e.1 e.1 x.1, ffma dd dd x.2)) (0, 0)
  if fpos sw then (fsqrt (fdiv sd sw), true) else if fpos sd then (0x7F80_0000, false) else (0, false)

/-! ### Phase 1 -/

/-- What phase 1 forms: reads, staging writes, skip, counts and the ratio. -/
structure Phase1 where
  rds   : List Rd := []
  wrs   : List Wr := []
  skip  : Bool := false
  nf    : Nat := 0
  ratio : F32 := 0
  event : Bool := false
  stale : Bool := false
deriving Inhabited

/-- The header with some of its fields rewritten. -/
def uPhase (h : List Byte) (ph : Nat) : List Byte := setBits h 1 4 2 ph

/-- Staged arrays of the elements (R171, R176), their non-finite count and new weights in FP32. -/
def updElems (s : State) (d : List Byte) (c : UCmd) (seed : Nat) (bl : List UBlk) (clipf : F32) : List (Conv × Conv × Conv) × Nat × List F32 :=
  let u := uSet d
  let p := if c.scheme = 1 then 1 else if c.scheme = 2 then 4 else 2
  let get (f a : Nat) : List F32 := (codes f u.n (devRead s a (u.n * fmtSize f))).map (toF32 f)
  let ws := get 1 (uW d)
  let us := if c.scheme = 0 then List.replicate u.n 0 else get u.ufmt (uU d)
  let ls := (List.range u.nr).map (fun i => blockFor bl true p (u.r0 + i))
  let rs := (List.range u.nc).map (fun j => blockFor bl false p (u.c0 + j))
  let sides := ls.zipIdx.flatMap (fun a => rs.zipIdx.map (fun b => (a.1, b.1, (u.r0 + a.2) * u.tcols + u.c0 + b.2)))
  let es := ((ws.zip (get 1 (uM1 d))).zip ((get 7 (uM2 d)).zip ((get u.gfmt (uGrad d c.step)).zip us))).zip sides
  let out := es.map (fun x =>
    let ((w, m), (v, g, uu)) := x.1
    let (l, r, i) := x.2
    let y := updElem d (c.scheme == 0 || l.2 || r.2) clipf l.1 r.1 w m v g uu
    let rnd (k : Nat) := rndOf seed c.id c.step k i
    ((srBf16 y.w (rnd 0), srBf16 y.m (rnd 1), srL16 y.v (rnd 2)), y.nf))
  (out.map (·.1), (out.filter (·.2)).length, ws)

/-- The reads of an unskipped phase 1. -/
def phase1Reads (d : List Byte) (c : UCmd) (bl : List UBlk) : List Rd :=
  let u := uSet d
  let rd (a n : Nat) : Rd := ⟨none, a, n⟩
  (if u.normpol = 2 then [rd (uAddr d 144 + 8 * uPar d c.step) 8] else []) ++
  [rd (uW d) (2 * u.n), rd (uM1 d) (2 * u.n), rd (uM2 d) (2 * u.n), rd (uGrad d c.step) (u.n * fmtSize u.gfmt)] ++
  (if c.scheme = 0 then [] else [rd (uU d) (u.n * fmtSize u.ufmt)]) ++ bl.map (fun b => rd b.addr 64)

/-- The reads of the folds: headers, averages and accumulators that the fold uses. -/
def foldReads (skip : Bool) (fl : List (Nat × Option (List Byte))) : List Rd :=
  fl.flatMap (fun f => match f.2 with
    | some h =>
      let x := statOf h
      let uses := !skip && !x.broken && x.rows != 0
      [(⟨none, f.1, 64⟩ : Rd)] ++ (if skip || (uses && x.folds == 0) then [] else [⟨none, f.1 + 64, x.avgLen⟩]) ++
        (if uses then [⟨none, x.accAt f.1 0, 2 * x.avgLen⟩] else [])
    | none => [])

/-- The folded records of phase 1. -/
def phase1Folds (s : State) (skip : Bool) (c : UCmd) (seed : Nat) (fl : List (Nat × Option (List Byte))) : List Folded :=
  fl.filterMap (fun f => f.2.map (fun h =>
    let x := statOf h
    if skip then { hdr := dropAcc h, area := [] }
    else foldRecord h (devRead s (f.1 + 64) x.avgLen) (devRead s (x.accAt f.1 0) (2 * x.avgLen)) seed c.id c.step))

/-- Staging writes of folds: each header, then its average area (R176). -/
def stageFolds (at' : Nat) : List (Folded × Nat) → List Wr
  | [] => []
  | (f, len) :: fs =>
    ((pieces at' f.hdr ++ pieces (at' + 64) f.area).map (fun w => w)) ++
      [{ scratch := none, addr := at', bytes := [], sat := f.sat, nan := f.nan }] ++ stageFolds (at' + 64 + len) fs

/-- Phase 1 of an UPDATE (steps 2 and 3 of R177). -/
def phase1 (s : State) (d : List Byte) (c : UCmd) (seed : Nat) (bl : List UBlk) (fl : List (Nat × Option (List Byte))) : Phase1 :=
  let u := uSet d
  let first := u.delay && (uHdr d).committed == 2 ^ 32 - 1
  let (npSkip, clipf) := normPolicy d (BitVec.ofNat 32 (leNat (devRead s (uAddr d 144 + 8 * uPar d c.step) 4)))
  let skip0 := first || npSkip
  let (cs, nf, ws) := if skip0 then ([], 0, []) else updElems s d c seed bl clipf
  let skip := skip0 || (nf != 0 && u.nfact)
  let cs := if skip then [] else cs
  let arr (at' : Nat) (l : List Conv) : List Wr :=
    pieces at' (l.flatMap (fun x => natLE 2 x.code)) ++ [{ scratch := none, addr := at', bytes := [], sat := (l.map (fun x => b2n x.sat)).sum, nan := (l.map (fun x => b2n x.nan)).sum }]
  let fs := phase1Folds s skip c seed fl
  let lens := fl.filterMap (fun f => f.2.map (fun h => (statOf h).avgLen))
  let (ratio, swPos) := if skip then (0, false) else updRatio ws (cs.map (fun x => toF32 1 x.1.code))
  { rds := (if first then [] else if npSkip then (phase1Reads d c bl).take (b2n (u.normpol == 2)) else phase1Reads d c bl) ++ foldReads skip fl,
    wrs := (if skip then [] else arr (uStage d) (cs.map (·.1)) ++ arr (uStage d + u.sw) (cs.map (·.2.1)) ++ arr (uStage d + 2 * u.sw) (cs.map (·.2.2))) ++
      stageFolds (uStage d + 3 * u.sw) (fs.zip lens),
    skip := skip, nf := nf, ratio := ratio,
    event := !skip && fpos (uScal d 228) && swPos && flt (uScal d 228) ratio,
    stale := bl.any (fun b => match b.hdr with | some h => (resOf h).age != 0 | none => false) }

/-! ### Phase 2 -/

/-- The copies of step 6 in order: source, destination, length. Each fold's average area, then its header; M2; M1; W. With the skip
flag only the headers. -/
def stepSix (d : List Byte) (stage : Nat) (skip : Bool) (fl : List (Nat × Option (List Byte))) : List (Nat × Nat × Nat) :=
  let u := uSet d
  let rec go (at' : Nat) : List (Nat × Option (List Byte)) → List (Nat × Nat × Nat)
    | [] => []
    | (a, some h) :: fs =>
      let len := (statOf h).avgLen
      (if skip then [] else [(at' + 64, a + 64, len)]) ++ [(at', a, 64)] ++ go (at' + 64 + len) fs
    | (_, none) :: fs => go at' fs
  go (stage + 3 * u.sw) fl ++
    (if skip then [] else [(stage + 2 * u.sw, uM2 d, 2 * u.n), (stage + u.sw, uM1 d, 2 * u.n), (stage, uW d, 2 * u.n)])

/-- Pieces of a copy: source address and the write. -/
def copyPieces (s : State) (p : Nat × Nat × Nat) : List (Nat × Wr) :=
  (pieces p.2.1 (devRead s p.1 p.2.2)).zipIdx.map (fun w => (p.1 + 64 * w.2, w.1))

/-- What stops phase 2 at a piece of its copies: its staged bytes cannot be read, which is marked, or its write fails (R178, R202). -/
def pieceFault (s : State) (p : Nat × Wr) : Option (Bool × MemFault) :=
  match uniFault s p.1 p.2.bytes.length with
  | some a => some (true, .ecc a)
  | none => (p.2.fault s).map (fun f => (false, f))

/-- Steps 6 and 7 from the staged image in memory: the reads, the writes up to the first that cannot be made, and why it cannot. -/
def phase2 (s : State) (d : List Byte) (step stage : Nat) (skip : Bool) (fl : List (Nat × Option (List Byte))) :
    List Rd × List Wr × Option (Bool × MemFault) :=
  let u := uSet d
  let parts := stepSix d stage skip fl
  let ps := parts.flatMap (copyPieces s)
  let ok := ps.takeWhile (fun p => (pieceFault s p).isNone)
  let zero := if u.gzero && !skip then pieces (uGrad d step) (List.replicate (u.n * fmtSize u.gfmt) 0) else []
  (parts.map (fun p => (⟨none, p.1, p.2.2⟩ : Rd)),
   match ps.findSome? (pieceFault s) with
   | some f => (ok.map (·.2), some f)
   | none => (ps.map (·.2) ++ (upToFault s zero).1, (upToFault s zero).2.map (fun f => (false, f))))

/-! ### The command -/

/-- Payload of 0x071, 0x072, 0x073 and 0x074 (R183). -/
def updPayload (v id : Nat) : Nat := v % 2 ^ 32 + 2 ^ 32 * (id % 2 ^ 14)

/-- A commit is counted (step 9 of R177, R179). Where COMMITS has reached EXPECT by a write of EXPECT alone, the step advances at the next commit,
not at that write (DESIGN CHOICE, log 68). -/
def countCommit (x : Ctx) : Ctx :=
  if x.expect != 0 && x.expect.toNat ≤ x.commits.toNat + 1 then { x with commits := 0, step := x.step + 1 } else { x with commits := stick x.commits 1 }

/-- What an UPDATE does when it runs: the reads and writes up to its commit point, those after it, the fault that stops it and whether the staged
image could not be read, and how it ends. `commit` is 1 for a commit and 2 for one that a roll forward completes. -/
structure UOut where
  rds    : List Rd := []
  wrs    : List Wr := []
  rds2   : List Rd := []
  wrs2   : List Wr := []
  fault  : Option MemFault := none
  broken : Bool := false
  plan   : Plan := {}
  told   : Nat := 0
  commit : Nat := 0
  nf     : Nat := 0
  event  : Option F32 := none

/-- The write of a descriptor's header. -/
def hdrWr (desc : Nat) (h : List Byte) : Wr := { scratch := none, addr := desc, bytes := h.take 64 }

/-- The header of step 1: PHASE STAGING, STAGED the step of the image being staged (R166). -/
def stageHdr (h : List Byte) (step : Nat) : List Byte := setFld (uPhase h 1) 12 4 step

/-- The header of step 8: PHASE IDLE, COMMITTED and LASTRATIO. -/
def doneHdr (h : List Byte) (step ratio : Nat) : List Byte := setFld (setFld (uPhase h 0) 8 4 step) 24 4 ratio

/-- An UPDATE as it runs from a descriptor not in COPYING (steps 1 to 7 of R177); the final header is left to the completion. -/
def updRun (s : State) (b : By) (l : List Sect) (c : UCmd) (seed : Nat) : UOut :=
  let d := devRead s c.desc 256
  let bl := uBlocks s l b.ctx d
  let fl := uFolds s l b.ctx d
  let u := uSet d
  let p := phase1 s d c seed bl fl
  let h1 := stageHdr (d.take 64) c.step
  let all := hdrWr c.desc h1 :: p.wrs
  match rdsFault s p.rds, upToFault s all with
  | some f, x => { rds := p.rds, wrs := x.1, fault := some f }
  | none, (ws, some f) => { rds := p.rds, wrs := ws, fault := some f }
  | none, (_, none) =>
    let h2 := setFld h1 28 4 (min p.nf (2 ^ 32 - 1))
    let sn := min (wrsSat p.wrs + wrsNan p.wrs) (2 ^ 32 - 1)
    let aborts := (if p.nf != 0 && !u.nfact then [stNonfinite] else []) ++ (if p.event && u.ratioact then [stRatio] else [])
    let base : UOut := { rds := p.rds, wrs := all, nf := p.nf, event := if p.event then some p.ratio else none }
    if aborts ≠ [] then
      let st := worst aborts
      { base with plan := { status := [st], detail := if st = stNonfinite then min p.nf (2 ^ 32 - 1) else p.ratio.toNat, after := [hdrWr c.desc (uPhase h2 0)] } }
    else
      let sts := (if p.skip then [stSkipped] else []) ++ (if p.stale then [stStale] else []) ++ satStatus (wrsSat p.wrs) (wrsNan p.wrs)
      let out : Plan := { status := sts, count := if p.skip then 0 else u.n, detail := p.ratio.toNat }
      if u.dry then { base with plan := { out with after := [hdrWr c.desc (uPhase h2 0)] } }
      else
        let hb := setBits (setBits (uPhase h2 2) 1 3 1 (b2n c.replay)) 1 2 1 (b2n p.skip)
        let h3 := setFld (setFld (setFld (setFld hb 16 8 (uStage d)) 32 4 p.ratio.toNat) 36 1 (worst sts).toNat) 40 4 sn
        let s1 := applyWrs b (rdsTouch b s p.rds) all
        let (r2, w2, f2) := phase2 s1 d c.step (uStage d) p.skip fl
        let base := { base with wrs := all ++ [hdrWr c.desc h3], rds2 := r2, wrs2 := w2 }
        match f2 with
        | some (bad, f) => { base with fault := some f, broken := bad }
        | none => { base with commit := 1, plan := { out with after := [hdrWr c.desc (doneHdr h3 c.step p.ratio.toNat)] } }

/-- The roll forward of a descriptor in COPYING (R178): steps 6 and 7 from STAGEDAT. -/
def updRoll (s : State) (b : By) (l : List Sect) (c : UCmd) : UOut :=
  let d := devRead s c.desc 256
  let h := uHdr d
  let (r2, w2, f2) := phase2 s d h.staged h.at' h.sskip (uFolds s l b.ctx d)
  match f2 with
  | some (bad, f) => { rds2 := r2, wrs2 := w2, fault := some f, broken := bad }
  | none =>
    { rds2 := r2, wrs2 := w2, told := h.ssatnan, commit := 2,
      plan := { status := [BitVec.ofNat 8 h.sstatus], count := if h.sskip then 0 else (uSet d).n, detail := h.sratio,
                after := [hdrWr c.desc (doneHdr (d.take 64) h.staged h.sratio)] } }

/-- The reads and writes of an UPDATE: phase 1's, then phase 2's, which read what phase 1 has staged (R177). -/
def updWrites (s : State) (b : By) (o : UOut) : State := applyWrs b (rdsTouch b (applyWrs b (rdsTouch b s o.rds) o.wrs) o.rds2) o.wrs2

/-- An interrupted UPDATE: a leading part of free length of its writes stands (R178, R410; log 3). -/
def updPart (s : State) (r : Running) (o : UOut) : State × Running :=
  let (ws, s) := freeLead s (o.wrs ++ o.wrs2)
  (applyWrs r.by s ws, { r with sat := r.sat + wrsSat ws, nan := r.nan + wrsNan ws })

/-- A fault ends an UPDATE (R178): before the commit point a leading part of its writes stands; after it, those before the fault; BROKEN is set
when the staged image could not be read. -/
def updFault (s : State) (n : Nat) (r : Running) (o : UOut) (f : MemFault) : State :=
  let late := o.rds2 != []
  let (s, r) :=
    if late then (updWrites s r.by o, { r with sat := r.sat + wrsSat o.wrs, nan := r.nan + wrsNan o.wrs })
    else updPart (rdsTouch r.by s o.rds) r o
  let a := (uCmd r.rec'.bytes).desc
  let s := if o.broken then devWrite s r.by (a + 1) (natLE 1 (fld (devRead s (a + 1) 1) 0 1 ||| 0x40)) else s
  putRun s n { r with done := true, status := f.status, detail := BitVec.ofNat 32 f.detail }

/-- What phase 1 found is counted and recorded (R174, R175). -/
def updEvents (s : State) (n : Nat) (r : Running) (o : UOut) : State :=
  let ctx := r.rec'.ctx
  let id := (uCmd r.rec'.bytes).id
  let s := if o.nf = 0 then s else post (ctxCount s ctx 0x170 o.nf) n ctx 0x072 (updPayload (min o.nf (2 ^ 32 - 1)) id)
  match o.event with
  | some x => post (ctxCount s ctx 0x178 1) n ctx 0x073 (updPayload x.toNat id)
  | none => s

/-- Carry out an UPDATE's writes; its completion writes the final header. `slices` remembers how it commits. -/
def updApply (s : State) (n : Nat) (r : Running) (o : UOut) : State :=
  let s := updEvents s n r o
  match o.fault with
  | some f => updFault s n r o f
  | none =>
    putRun (updWrites s r.by o) n
      { r with done := true, status := worst o.plan.status, count := BitVec.ofNat 32 o.plan.count, detail := BitVec.ofNat 32 o.plan.detail,
               sat := r.sat + wrsSat o.wrs, nan := r.nan + wrsNan o.wrs, told := o.told, slices := o.commit, after := o.plan.after }

/-- A roll forward has completed an image (R178, R185). -/
def countRolled (s : State) (n ctx : Nat) (c : UCmd) : State := post (ctxCount s ctx 0x180 1) n ctx 0x074 (updPayload c.step c.id)

/-- The roll forward before an UPDATE of another STEP: its writes, its final header and its commit (R178). -/
def updRolled (s : State) (n : Nat) (r : Running) (o : UOut) (c : UCmd) (sreplay : Bool) : State :=
  let s := applyWrs r.by (updWrites s r.by o) o.plan.after
  countRolled (if sreplay then s else s.modCtx r.rec'.ctx countCommit) n r.rec'.ctx c

/-- A bridge holds some access of an UPDATE (R31). -/
def updHeld (s : State) (n : Nat) (o : UOut) : Bool := accessHeld s (.core n) (o.rds ++ o.rds2) (o.wrs ++ o.wrs2 ++ o.plan.after)

/-- UPDATE (R177, R178). -/
def execUpdate (core : Nat) (s : State) : Host.Outcome State Fault Refusal :=
  match runningOp (s.core core) 1 [0x12] with
  | none => .next s
  | some r =>
    let c := uCmd r.rec'.bytes
    let l := sectsOf s (.core core)
    let h := uHdr (devRead s c.desc 64)
    if h.phase = 2 then
      let o := updRoll s r.by l c
      if updHeld s core o then .next s
      else if o.fault.isSome || h.staged = c.step then .next (updApply s core r o)
      else
        let s := updRolled s core r o c h.sreplay
        .next (updApply s core r (updRun s r.by l c r.seed.toNat))
    else
      let o := updRun s r.by l c r.seed.toNat
      .next (if updHeld s core o then s else updApply s core r o)

/-- What a fence leaves of a running UPDATE (R178): a leading part of its writes, after the roll forward it makes first or within it. -/
def updFence (s : State) (n : Nat) (r : Running) : State × Running :=
  let c := uCmd r.rec'.bytes
  let l := sectsOf s (.core n)
  let h := uHdr (devRead s c.desc 64)
  if h.phase != 2 then updPart s r (updRun s r.by l c r.seed.toNat)
  else
    let o := updRoll s r.by l c
    let (k, s) := freeBelow s 2
    if h.staged = c.step || k = 0 || o.fault.isSome then updPart s r o
    else
      let s := updRolled s n r o c h.sreplay
      updPart s r (updRun s r.by l c r.seed.toNat)

/-- What the completion of an UPDATE does before its record (steps 8 and 9 of R177, R173, R185): the final header has been written; a commit is
counted, and so is a roll forward or a skip. -/
def updComplete (s : State) (n : Nat) (r : Running) : State :=
  let c := uCmd r.rec'.bytes
  let ctx := r.rec'.ctx
  if !doneClass r.status then s
  else
    let s := if r.slices != 0 && !(uHdr (devRead s c.desc 64)).sreplay then s.modCtx ctx countCommit else s
    let s := if r.slices = 2 then countRolled s n ctx c else s
    if r.status = stSkipped then post (ctxCount s ctx 0x168 1) n ctx 0x071 (updPayload c.step c.id) else s

end Sys2Proof.Machine
end

