-- ==== Sys2Proof/Machine/Woodpile.lean ====
section
/-! DEFINITION. Woodpiles: codecs, PUSH and POP, the descriptor's write-back and the hot window (06). -/

namespace Sys2Proof.Machine

open Sys2Proof

/-! ### Codecs (R109 to R111) -/

/-- The 16-bit elements of a group. -/
def els (bs : List Byte) : List Nat := codes 1 (cdiv bs.length 2) bs

/-- A mask word of the elements for which `f` holds. -/
def maskOf (f : Nat → Bool) (l : List Nat) : Nat := (l.zipIdx.map (fun x => if f x.1 then 2 ^ x.2 else 0)).sum

/-- The payload of one group of raw bytes under a codec. -/
def encGroup (codec : Nat) (g : List Byte) : List Byte :=
  match codec with
  | 1 => natLE 4 (maskOf (· != 0) (els g)) ++ ((els g).filter (· != 0)).flatMap (natLE 2)
  | 2 => natLE 4 (maskOf (fun x => x != 0 && x < 0x8000) (els g))
  | _ => g

/-- Raw bytes cut into groups of 64, the last shorter. -/
def groupsFrom : Nat → List Byte → List (List Byte)
  | 0, _ => []
  | n + 1, bs => bs.take 64 :: groupsFrom n (bs.drop 64)

def groups (bs : List Byte) : List (List Byte) := groupsFrom (cdiv bs.length 64) bs

def encodePayload (codec : Nat) (raw : List Byte) : List Byte := (groups raw).flatMap (encGroup codec)

/-- The elements of a ZRUN group: the next coded element where the mask bit is set, zero elsewhere. -/
def spread (mask : Nat) : Nat → Nat → List Nat → List Nat
  | 0, _, _ => []
  | n + 1, i, vs => if bitOf mask i then vs.headD 0 :: spread mask n (i + 1) (vs.drop 1) else 0 :: spread mask n (i + 1) vs

/-- Number of mask bits set. -/
def ones (mask : Nat) : Nat := ((List.range 32).filter (bitOf mask)).length

/-- Decode groups of `sizes` raw bytes from a payload, as far as the payload reaches. STORED 3, which no PUSH writes, is decoded as RAW
(DESIGN CHOICE, log 76). -/
def decGroups (codec : Nat) : List Nat → List Byte → List Byte
  | [], _ => []
  | n :: ns, p =>
    match codec with
    | 1 =>
      let m := fld p 0 4
      let k := 4 + 2 * ones m
      if p.length < k then [] else (spread m (n / 2) 0 (codes 1 (ones m) ((p.drop 4).take (2 * ones m)))).flatMap (natLE 2) ++ decGroups codec ns (p.drop k)
    | 2 =>
      if p.length < 4 then []
      else (List.range (n / 2)).flatMap (fun i => natLE 2 (if bitOf (fld p 0 4) i then 0x3F80 else 0)) ++ decGroups codec ns (p.drop 4)
    | _ => if p.length < n then [] else p.take n ++ decGroups codec ns (p.drop n)

/-- Sizes of the groups of a raw length. -/
def groupSizes (n : Nat) : List Nat := List.replicate (n / 64) 64 ++ (if n % 64 = 0 then [] else [n % 64])

/-! ### Descriptors (R103, R104) -/

structure WPile where
  base   : Nat
  limit  : Nat
  top    : Nat
  tophdr : Nat
  depth  : Nat
  hotlen : Nat
  home   : Nat
  broken : Bool
  valid  : Bool
  hwm    : Nat
deriving DecidableEq, Repr, Inhabited

def wPile (d : List Byte) : WPile :=
  { base := bitsOf (fld d 0 8) 0 48, limit := bitsOf (fld d 8 8) 0 40, top := bitsOf (fld d 16 8) 0 40, tophdr := bitsOf (fld d 24 8) 0 40,
    depth := fld d 32 4, hotlen := fld d 36 2, home := fld d 38 1, broken := bitOf (fld d 39 1) 1, valid := bitOf (fld d 39 1) 0,
    hwm := bitsOf (fld d 40 8) 0 40 }

def wpGroups : List Group :=
  [gAddr 0, (8, 8, 2 ^ 40 - 1), (16, 8, 2 ^ 40 - 1), (24, 8, 2 ^ 40 - 1), gAll 32 4, gAll 36 2, gAll 38 1, (39, 1, 3), (40, 8, 2 ^ 40 - 1)]

/-- The fields of a PUSH or POP (R85). -/
structure PCmd where
  pop   : Bool
  pile  : Nat
  codec : Nat
  tag   : Nat
  sp    : Nat
  bytes : Nat
deriving DecidableEq, Repr, Inhabited

def pCmd (r : List Byte) : PCmd :=
  { pop := fld r 0 1 == 0x22, pile := bitsOf (fld r 8 1) 0 6, codec := bitsOf (fld r 9 1) 0 2, tag := fld r 12 4, sp := bitsOf (fld r 16 4) 0 20,
    bytes := bitsOf (fld r 20 4) 0 21 }

/-- Fields of CTX_WPTAB. -/
def wpnOf (v : BitVec 64) : Nat := bitsOf v.toNat 56 8
def wpBaseOf (v : BitVec 64) : Nat := bitsOf v.toNat 6 42 * 64

/-- CTX_WPTAB of a context. -/
def Ctx.wptab (x : Ctx) : BitVec 64 := BitVec.ofNat 64 (x.wpbase.toNat * 64 + x.wpn.toNat * 2 ^ 56)

/-- Where the descriptor of a woodpile lies (R103). -/
def wpAt (v : BitVec 64) (core pile : Nat) : Nat := wpBaseOf v + (core * wpnOf v + pile) * 64

/-- The checks of a PUSH or POP at the head of its queue: check 6 of R100, then the rows of R114 that read no descriptor. -/
def pushCheck (s : State) (e : Env) (r : List Byte) (wptab : BitVec 64) : Option Refuse :=
  let p := pCmd r
  firstRefuse [(firstFail (reservedFails (bodyGroups 0x21) 8 64 r ++ fails [(16, p.sp % 8 != 0)])).map (fun o => (stDescriptor, o)),
    chk (p.codec == 3) stDescriptor 9, chk (wpnOf wptab ≤ p.pile) stDescriptor 8, uniRefuse s e.sec e.ctx (wpAt wptab e.core p.pile) 64 true]

/-- The checks of R114 up to underflow as the command is issued, with the CTX_WPTAB then in force (R105), and after them the ranges of BYTES and of
the slot's window, which R114 does not list (log 18). A POP writes no byte of the region. -/
def pileCheck (s : State) (e : Env) (r : List Byte) (wptab : BitVec 64) : Checked Unit :=
  let p := pCmd r
  let at' := wpAt wptab e.core p.pile
  match firstRefuse [chk (wpnOf wptab ≤ p.pile) stDescriptor 8, uniRefuse s e.sec e.ctx at' 64 true] with
  | some x => .refuse x.1 x.2
  | none =>
    match devFault s at' 64 with
    | some f => .fault f
    | none =>
      let d := devRead s at' 64
      let w := wPile d
      let bad := !w.valid || w.broken || !(reservedFails wpGroups 0 64 d).isEmpty || w.base % 4096 != 0 || w.limit % 4096 != 0 || w.top % 64 != 0 ||
        w.limit < w.top || 15 < w.home
      match firstRefuse [uniRefuse s e.sec e.ctx w.base w.limit (!p.pop), chk bad stDescriptor 0xFF,
          chk (!p.pop && w.limit < w.top + 64 + roundup p.bytes 64) stBounds 0xFF, chk (p.pop && w.depth == 0) stBounds 0xFF,
          chk (p.bytes < 8 || 2 ^ 20 < p.bytes || p.bytes % 8 != 0) stDescriptor 20, chk (outsideWindow e.slot (p.sp, p.bytes)) stBounds 16] with
      | some x => .refuse x.1 x.2
      | none => .ok ()

/-! ### PUSH (R107) -/

/-- The descriptor with TOP, TOPHDR, DEPTH and HWM rewritten. -/
def wpUpdate (d : List Byte) (top tophdr depth hwm : Nat) : List Byte :=
  setFld (setFld (setFld (setFld d 16 8 top) 24 8 tophdr) 32 4 depth) 40 8 hwm

/-- The header of an entry (R106). -/
def entryHdr (tag raw coded stored codec prev : Nat) (time : BitVec 64) (step : BitVec 32) : List Byte :=
  natLE 4 tag ++ natLE 4 raw ++ natLE 4 coded ++ natLE 1 (stored * 4 + codec) ++ List.replicate 3 0 ++ natLE 8 prev ++ natLE 8 time.toNat ++
    natLE 4 step.toNat ++ List.replicate 28 0

/-- The tiles of a hot window: first tile and one past the last, for a TOP (R113). -/
def hotTiles (w : WPile) (top : Nat) : Nat × Nat :=
  let lo := top - min top (w.hotlen * 4096)
  ((w.base + lo) / 4096, cdiv (w.base + top) 4096)

/-- A change of TOP as the windows before and after it: first tile before and after, one past the last before and after (R113). -/
def hotChange (w : WPile) (old new : Nat) : Option (Nat × Nat × Nat × Nat) :=
  if w.hotlen = 0 then none else some ((hotTiles w old).1, (hotTiles w new).1, (hotTiles w old).2, (hotTiles w new).2)

/-- A PUSH as a plan: payload, header, and the descriptor's write-back after their acknowledgement (R105, R107). -/
def pushPlan (s : State) (n : Nat) (r : Running) : Plan :=
  let p := pCmd r.rec'.bytes
  let at' := wpAt r.wptab n p.pile
  let d := devRead s at' 64
  let w := wPile d
  let src : Rd := ⟨some n, p.sp, p.bytes⟩
  match src.fault s with
  | some f => faultPlan f [src]
  | none =>
    let raw := src.get s
    let coded := encodePayload p.codec raw
    let fits := coded.length ≤ p.bytes
    let pay := if fits then coded else raw
    let len := roundup pay.length 64
    let a := w.base + w.top
    let hdr := entryHdr p.tag p.bytes pay.length (if fits then p.codec else 0) p.codec (if w.depth = 0 then 2 ^ 40 - 1 else w.tophdr) r.issued r.step
    let top := w.top + 64 + len
    { rds := [src], wrs := pieces (a + 64) (pay ++ List.replicate (len - pay.length) 0) ++ [{ scratch := none, addr := a, bytes := hdr }],
      count := 64 + len, detail := (w.depth + 1) % 2 ^ 32,
      after := [{ scratch := none, addr := at', bytes := wpUpdate d top w.top (w.depth + 1) (max w.hwm top) }], hot := hotChange w w.top top }

/-- PUSH (R107). -/
def execPush (core : Nat) (s : State) : Host.Outcome State Fault Refusal :=
  match runningOp (s.core core) 2 [0x21] with
  | none => .next s
  | some r => .next (if planHeld s core (pushPlan s core r) then s else runPlan s core r (pushPlan s core r))

/-! ### POP (R108) -/

/-- A POP as a plan: the top entry's header is read and compared, then the payload is decoded into the scratchpad. -/
def popPlan (s : State) (n : Nat) (r : Running) : Plan :=
  let p := pCmd r.rec'.bytes
  let at' := wpAt r.wptab n p.pile
  let d := devRead s at' 64
  let w := wPile d
  let a := w.base + w.tophdr
  let hrd : Rd := ⟨none, a, 64⟩
  match hrd.fault s with
  | some f => faultPlan f [hrd]
  | none =>
    let h := hrd.get s
    match firstRefuse [chk (fld h 0 4 != p.tag) stDescriptor 12, chk (bitsOf (fld h 12 1) 0 2 != p.codec) stDescriptor 9,
        chk (bitsOf (fld h 4 4) 0 21 != p.bytes) stDescriptor 20] with
    | some x => { rds := [hrd], status := [x.1], detail := x.2 }
    | none =>
      let prd : Rd := ⟨none, a + 64, bitsOf (fld h 8 4) 0 21⟩
      let pay := prd.get s
      let stored := bitsOf (fld h 12 1) 2 2
      let out (bs : List Byte) : List Wr := (pieces p.sp (decGroups stored (groupSizes p.bytes) bs)).map (fun x => { x with scratch := some n })
      match prd.fault s with
      | some f =>
        let good := match f with | .ecc x => x - (a + 64) | .link => 0
        { rds := [hrd, prd], wrs := out (pay.take good), cut := true, status := [f.status], detail := f.detail }
      | none =>
        let depth := w.depth - 1
        { rds := [hrd, prd], wrs := out pay, count := p.bytes, detail := depth,
          after := [{ scratch := none, addr := at', bytes := wpUpdate d w.tophdr (if depth = 0 then 0 else bitsOf (fld h 16 8) 0 40) depth w.hwm }],
          hot := hotChange w w.top w.tophdr }

/-- An uncorrectable top header sets BROKEN in the descriptor (R114). -/
def popBroken (s : State) (n : Nat) (r : Running) : State :=
  let p := pCmd r.rec'.bytes
  let at' := wpAt r.wptab n p.pile
  let w := wPile (devRead s at' 64)
  if ((⟨none, w.base + w.tophdr, 64⟩ : Rd).fault s).isSome then devWrite s r.by (at' + 39) (natLE 1 (fld (devRead s (at' + 39) 1) 0 1 ||| 2)) else s

/-- POP (R108). -/
def execPop (core : Nat) (s : State) : Host.Outcome State Fault Refusal :=
  match runningOp (s.core core) 2 [0x22] with
  | none => .next s
  | some r => .next (if planHeld s core (popPlan s core r) then s else popBroken (runPlan s core r (popPlan s core r)) core r)

/-! ### Write-back and the hot window -/

/-- The running PUSH or POP whose descriptor waits to be written back. -/
def awaitingBack (c : Core) : Option Running :=
  c.running.find? (fun r => r.eng == 2 && r.done && (r.rec'.op == 0x21 || r.rec'.op == 0x22) && r.after != [])

/-- WOODPILE_WRITEBACK (R105): the whole descriptor as one write. -/
def execWoodpileWriteback (core : Nat) (s : State) : Host.Outcome State Fault Refusal :=
  match awaitingBack (s.core core) with
  | none => .next s
  | some r => .next (putRun (applyWrs r.by s r.after) core { r with after := [] })

/-- The tiles a hot-window move brings in, from the highest down: those of the new window that were not in the old (R113). -/
def hotIns (h : Nat × Nat × Nat × Nat) : List Nat :=
  let (of, nf, oe, ne) := h
  (((List.range (min of ne - nf)).map (· + nf)) ++ ((List.range (ne - max oe nf)).map (· + max oe nf))).reverse

/-- The hints of a hot-window move (R113): MOVE_OUT of the tiles that fall below the window, MOVE_IN of those that enter it, lowest last, into
the slice of the core's die (log 19). Only tiles under the policy migrate move. -/
def hotHints (s : State) (core : Nat) (h : Nat × Nat × Nat × Nat) : List Hint :=
  let free := fun (t : Nat) => policyOf (sectsOf s (.mport (portOf s t))) t == 0
  let hint := fun (op t : Nat) => ({ op := op, base := t * 4096, len := 4096, slice := core / 100, dst := none, owner := none } : Hint)
  (((List.range (h.2.1 - h.1)).map (· + h.1)).filter free).map (hint 1) ++ ((hotIns h).filter free).map (hint 0)

/-- Hand a running command's hot-window move to the memory ports; a fenced unit serves none (R283). -/
def handHot (s : State) (core : Nat) (r : Running) : State :=
  match r.hot with
  | none => s
  | some h => { s with tiers := { s.tiers with hints := s.tiers.hints ++ (hotHints s core h).filter (fun x => !hintStopped s x.op x.base x.len) } }

/-- HOT_WINDOW_MOVE (R113), once the descriptor has been written back. -/
def execHotWindowMove (core : Nat) (s : State) : Host.Outcome State Fault Refusal :=
  match (s.core core).running.find? (fun r => r.done && r.hot.isSome && r.after = []) with
  | none => .next s
  | some r => .next (putRun (handHot s core r) core { r with hot := none })

end Sys2Proof.Machine
end

