-- ==== Sys2Proof/Machine/Gather.lean ====
section
/-! DEFINITION. GATHER: curvature statistic blocks, their checks, the array slots of the gatherer and the tiles' write-back (07). -/

namespace Sys2Proof.Machine

open Sys2Proof

/-- The fields of a GATHER (R86). -/
structure GCmd where
  kind : Nat
  xfmt : Nat
  rows : Nat
  cols : Nat
  x    : Nat
  str  : Nat
  rec' : Nat
  id   : Nat
deriving DecidableEq, Repr, Inhabited

def gCmd (r : List Byte) : GCmd :=
  { kind := fld r 8 1, xfmt := bitsOf (fld r 9 1) 0 3, rows := fld r 10 2, cols := bitsOf (fld r 12 2) 0 12, x := bitsOf (fld r 16 4) 0 20,
    str := bitsOf (fld r 20 4) 0 20, rec' := bitsOf (fld r 24 8) 0 48, id := fld r 32 4 }

/-- The source region (R86). -/
def GCmd.reg (g : GCmd) : Region := rowsRegion g.x g.str g.rows (2 * g.cols)

/-- The checks of a GATHER (check 6 of R100, then R132). -/
def gatherCheck (s : State) (e : Env) (r : List Byte) : Checked Unit :=
  let g := gCmd r
  let first := firstRefuse [
    (firstFail (reservedFails (bodyGroups 0x30) 8 64 r ++ fails [(16, g.x % 8 != 0), (20, g.str % 8 != 0)])).map (fun o => (stDescriptor, o)),
    chk (g.kind == 0 || 4 < g.kind) stDescriptor 8, chk (g.xfmt != 1 && g.xfmt != 2) stMode 9, chk (g.rows == 0) stDescriptor 10,
    chk (g.cols == 0 || 2048 < g.cols || g.cols % 32 != 0) stDescriptor 12, chk (outsideWindow e.slot g.reg) stBounds 16,
    chk (g.rec' % 64 != 0) stDescriptor 24, uniRefuse s e.sec e.ctx g.rec' 64 true]
  match first with
  | some x => .refuse x.1 x.2
  | none =>
    match devFault s g.rec' 64 with
    | some f => .fault f
    | none =>
      let h := devRead s g.rec' 64
      let x := statOf h
      match firstRefuse [
          chk (!x.valid || x.broken || x.kind != g.kind || x.id != g.id || x.core != e.core || x.ctx != e.ctx || x.order != g.cols) stDescriptor 0xFF,
          chk (!statRange h) stDescriptor 0xFF, uniRefuse s e.sec e.ctx g.rec' x.size true, chk (2 ^ 32 ≤ x.rows + g.rows) stBounds 0xFF] with
      | some x => .refuse x.1 x.2
      | none => .ok ()

/-- Chunk length and F of a CHUNK code (R55, R58). -/
def chunkLF (c : Nat) : Nat × Nat := match c with | 1 => (4, 17) | 2 => (16, 15) | _ => (8, 16)

/-- The running GATHER of a core. -/
def gatherRun (c : Core) : Option Running := runningOp c 3 [0x30]

/-- The header that a GATHER's record holds now: it is read again at each step, where the spec does not say whether the command keeps the fields
of its checks (DESIGN CHOICE, log 78). -/
def gatherStat (s : State) (g : GCmd) : Stat := statOf (devRead s g.rec' 64)

/-- Tiles of the record that a running GATHER names. -/
def gatherTiles (s : State) (r : Running) : Nat := (gatherStat s (gCmd r.rec'.bytes)).nt

/-- The 32 elements of column tile `j` in row `k`. -/
def sliceRd (n : Nat) (g : GCmd) (j k : Nat) : Rd := ⟨some n, g.x + k * g.str + 64 * j, 64⟩

/-- The accumulator of a tile. -/
def accRd (x : Stat) (g : GCmd) (t : Nat) : Rd := ⟨none, x.accAt g.rec' t, 4096⟩

/-- What gather slice `k` of tile `t` reads (R126); before the first, the tile's accumulator is loaded when ROWCOUNT is above 0. -/
def sliceRds (s : State) (n : Nat) (g : GCmd) (t k : Nat) : List Rd :=
  let x := gatherStat s g
  let (ti, tj) := (tilePairs x.t).getD t (0, 0)
  (if k = 0 && x.rows != 0 then [accRd x g t] else []) ++ sliceRd n g ti k :: (if ti = tj then [] else [sliceRd n g tj k])

/-- The first slice of tile `t` from slice `k` on that meets a fault, and the fault. -/
def tileFault (s : State) (n : Nat) (g : GCmd) (t k : Nat) : Option (Nat × MemFault) :=
  ((List.range g.rows).drop k).findSome? (fun k => (rdsFault s (sliceRds s n g t k)).map (fun f => (k, f)))

/-- The totals of one tile as writes (R125): its accumulator element (p, q) takes the products of columns 32 ti + p and 32 tj + q. -/
def tileWrs (s : State) (n : Nat) (g : GCmd) (t : Nat) : List Wr :=
  let x := gatherStat s g
  let (ti, tj) := (tilePairs x.t).getD t (0, 0)
  let vals (j : Nat) : List (List Val) := (List.range g.rows).map (fun k => rowVals g.xfmt 32 ((sliceRd n g j k).get s))
  let a := vals ti
  let b := vals tj
  let (l, f) := chunkLF x.chunk
  let old := if x.rows = 0 then [] else f32s 1024 ((accRd x g t).get s)
  let elem (p q : Nat) : F32 :=
    chunkTotal l f (List.zipWith (fun u v => (u.getD p .nan).mul (v.getD q .nan)) a b) (old.getD (32 * p + q) 0)
  pieces (x.accAt g.rec' t) (f32Bytes ((List.range 32).flatMap (fun p => (List.range 32).map (elem p))))

/-- A GATHER ended in the Aborted or Fault class after at least one tile was written back: BROKEN is set by a one-byte write (R132). -/
def gatherBreak (s : State) (n : Nat) (r : Running) : State :=
  if r.rec'.op != 0x30 || r.tiles = 0 || r.done then s
  else
    let a := (gCmd r.rec'.bytes).rec'
    post (devWrite s r.by (a + 1) (natLE 1 (fld (devRead s (a + 1) 1) 0 1 ||| 0x40))) n r.rec'.ctx 0x060 (bitsOf a 6 42)

/-- A fault ends a GATHER (R132). -/
def gatherEnd (s : State) (n : Nat) (r : Running) (f : MemFault) : State × Running :=
  let s := gatherBreak s n r
  let r := { r with done := true, status := f.status, detail := BitVec.ofNat 32 f.detail }
  (putRun s n r, r)

/-- The tile a GATHER is forming: the one after the tile that waits for its write-back, if one does (R126). -/
def formTile (r : Running) : Nat := r.tiles + b2n r.formed

/-- Slices of a tile are issued: what they read, and their products (R77). -/
def readSlices (s : State) (n : Nat) (r : Running) (t : Nat) (ks : List Nat) : State :=
  coreCount (ks.foldl (fun s k => rdsTouch r.by s (sliceRds s n (gCmd r.rec'.bytes) t k)) s) n 0x018 (1024 * ks.length)

/-- A GATHER whose forming tile has `k` slices issued: the last of them makes the tile wait for its write-back, once the other accumulator is
free (R126). -/
def setSlices (r : Running) (k : Nat) : Running :=
  if (gCmd r.rec'.bytes).rows ≤ k && !r.formed then { r with slices := 0, formed := true } else { r with slices := k }

/-- The finished tile is written back, and the next takes its place (R125, R126). A write that fails ends the command (R202). -/
def writeTile (s : State) (n : Nat) (r : Running) : State × Running :=
  let (ws, broken) := upToFault s (tileWrs s n (gCmd r.rec'.bytes) r.tiles)
  let s := applyWrs r.by s ws
  match broken with
  | some f => gatherEnd s n r f
  | none =>
    let r := setSlices { r with tiles := r.tiles + 1, formed := false } r.slices
    (putRun s n r, r)

/-- The slices of the forming tile that remain, each in a free CCLK (log 20), up to the first that meets a fault. -/
def formTileNow (s : State) (n : Nat) (r : Running) : State × Running :=
  let g := gCmd r.rec'.bytes
  let t := formTile r
  let go (s : State) (upto : Nat) : State :=
    coreCount (readSlices s n r t ((List.range upto).drop r.slices)) n 0x058 (upto - r.slices)
  match tileFault s n g t r.slices with
  | some (k, f) => gatherEnd (go s (k + 1)) n r f
  | none => let r' := setSlices r g.rows; (putRun (go s g.rows) n r', r')

/-- One step of a GATHER: the tile that waits is written back, or the forming tile is finished. A fault that the first ten slices of the next tile
meet can come before the write-back (R126): a free choice (log 3). -/
def gatherStep (s : State) (n : Nat) (r : Running) : State × Running :=
  let early := formTile r < gatherTiles s r && (match tileFault s n (gCmd r.rec'.bytes) (formTile r) r.slices with | some (k, _) => k < 10 | none => false)
  if !r.formed then formTileNow s n r
  else if early then
    let (k, s) := freeBelow s 2
    if k = 1 then writeTile s n r else formTileNow s n r
  else writeTile s n r

/-- Steps in order until every tile is written or one faults. -/
def gatherAll : Nat → State → Nat → Running → State × Running
  | 0, s, _, r => (s, r)
  | k + 1, s, n, r =>
    if r.done || gatherTiles s r ≤ r.tiles then (s, r)
    else let x := gatherStep s n r; gatherAll k x.1 n x.2

/-- The running GATHER of a core, unless a bridge holds what it sends to its record (R31; log 88). -/
def gatherFree (s : State) (n : Nat) : Option Running :=
  (gatherRun (s.core n)).filter (fun r =>
    let a := (gCmd r.rec'.bytes).rec'
    !bridgeHolds s (.core n) a (statOf (devRead s a 64)).size)

/-- GATHER (R125): every tile not yet written back. -/
def execGather (core : Nat) (s : State) : Host.Outcome State Fault Refusal :=
  match gatherFree s core with
  | none => .next s
  | some r => .next (gatherAll (2 * gatherTiles s r) s core r).1

/-- GATHER_SLICE_ISSUE (R126, R127): one slice enters the array, in a free CCLK, or in a CCLK in which the matrix engine has a slice
ready while fewer than SHARE forced CCLK were taken in the window. -/
def execGatherSliceIssue (core : Nat) (matrixReady : Bool) (s : State) : Host.Outcome State Fault Refusal :=
  match gatherFree s core with
  | none => .next s
  | some r =>
    let c := s.core core
    let t := formTile r
    if t ≥ gatherTiles s r || r.slices ≥ (gCmd r.rec'.bytes).rows || (matrixReady && c.gshare.toNat ≤ c.gforcedW) then .next s
    else
      let f := rdsFault s (sliceRds s core (gCmd r.rec'.bytes) t r.slices)
      let s := coreCount (readSlices s core r t [r.slices]) core (if matrixReady then 0x060 else 0x058) 1
      let s := if matrixReady then s.modCore core (fun c => { c with gforcedW := c.gforcedW + 1 }) else s
      match f with
      | some f => .next (gatherEnd s core r f).1
      | none => .next (putRun s core (setSlices r (r.slices + 1)))

/-- GSHARE_WINDOW_START (R127): the forced count restarts, and a SHARE written before the window began takes effect. -/
def execGshareWindowStart (core : Nat) (s : State) : Host.Outcome State Fault Refusal :=
  .next (s.modCore core (fun c => { c with gforcedW := 0, gshare := c.gpend.getD c.gshare, gpend := none }))

/-- GATHER_TILE_WRITEBACK (R126): the tile whose slices have all been issued is written back. -/
def execGatherTileWriteback (core : Nat) (s : State) : Host.Outcome State Fault Refusal :=
  match gatherFree s core with
  | none => .next s
  | some r => .next (if r.formed then (writeTile s core r).1 else s)

/-- GATHER_HEADER_WRITE (R125): once every tile is written, the header goes out as one 64-byte write. -/
def execGatherHeaderWrite (core : Nat) (s : State) : Host.Outcome State Fault Refusal :=
  match gatherFree s core with
  | none => .next s
  | some r =>
    let g := gCmd r.rec'.bytes
    let h := devRead s g.rec' 64
    let x := statOf h
    if r.tiles < x.nt then .next s
    else
      let w : Wr := { scratch := none, addr := g.rec', bytes := setFld (setFld h 28 4 (x.rows + g.rows)) 32 4 (x.gcount + 1) }
      match w.fault s with
      | some f => .next (gatherEnd s core r f).1
      | none =>
        .next (putRun (applyWr r.by s w) core { r with done := true, count := BitVec.ofNat 32 g.rows, detail := BitVec.ofNat 32 (x.gcount + 1) })

end Sys2Proof.Machine
end

