-- ==== Sys2Proof/Machine/Folds.lean ====
section
/-! DEFINITION. Folds and signals: arrivals, releases, SYNC packets, and the application of a signal to a word (14). -/

namespace Sys2Proof.Machine

open Sys2Proof

/-- The Fold whose ARRIVE word lies at an address (R279, R280). -/
def foldAt (s : State) (a : Nat) : Option Nat := (s.folds.find? (fun x => x.2.valid && x.2.addr.toNat * 64 + 8 == a)).map (·.1)

/-- Whether a Fold of the table is a device Fold, its number, and the unit in whose ring its events go. -/
def foldDev (k : Nat) : Bool := 512 ≤ k
def foldNum (k : Nat) : Nat := if foldDev k then k - 512 else k % 64
def foldUnit (k : Nat) : Nat := if foldDev k then uHub else uDie (k / 64)

def Fold.phaseAt (f : Fold) : Nat := f.addr.toNat * 64

/-- The phase a Fold is in: its PHASE word. -/
def foldPhase (s : State) (k : Nat) : BitVec 64 := uniWord s (s.fold k).phaseAt

/-- Bit `i` of a mask of 100 bits, set. -/
def setBit100 (m : BitVec 100) (i : Nat) : BitVec 100 := m ||| BitVec.ofNat 100 (2 ^ i)

/-- LOCAL as it counts: at least one (R287). -/
def Fold.need (f : Fold) : Nat := max 1 f.localN.toNat

/-- This device's rank under the Weave in force. -/
def myRank (s : State) : Nat := ownRank s.weave.cur.sects

/-- A dropped arrival or SYNC (R282, R287): MISUSE, MISCNT and Tally 0x0A2. -/
def foldDrop (s : State) (k ctx sender : Nat) : State :=
  post (s.modFold k (fun f => { f with misuse := true, miscnt := stick f.miscnt 1 })) (foldUnit k) ctx 0x0A2 (foldNum k + 2 ^ 8 * (sender % 1024))

/-- A SYNC packet of a device Fold (R281). -/
def syncPkt (s : State) (k rank : Nat) (phase : BitVec 48) : FabPkt :=
  { typ := 0x21, genp := genPar s (.oport 0), fwd := false, src := BitVec.ofNat 6 (myRank s), dst := BitVec.ofNat 6 rank,
    ctx := (s.fold k).ctx, len := 0, nbytes := 0, xtag := 0, att := false, fmt := 0, status := 0,
    addr := BitVec.ofNat 64 (foldNum k + 2 ^ 8 * phase.toNat), data := [], checks := [], header := .good, sig0 := 0, sig1 := 0 }

/-- Send a SYNC of a phase to every other member rank (R281). -/
def sendSync (s : State) (k : Nat) (phase : BitVec 48) : State :=
  ((List.range 33).filter (fun r => (s.fold k).mask.getLsbD r && r != myRank s)).foldl (fun s r =>
    (sendPkt s s.weave.cur.sects r (syncPkt s k r phase)).getD s) s

/-- A device Fold's local part is complete: its own rank bit sets, and the SYNCs go out (R280, R281). -/
def setOwn (s : State) (k : Nat) : State :=
  let ph : BitVec 48 := BitVec.ofNat 48 (foldPhase s k).toNat
  sendSync (s.modFold k (fun f => { f with arr := setBit100 f.arr (myRank s), localArr := 0, sentPh := some ph })) k ph

/-- End a phase (R280): PHASE counts up unless its word is uncorrectable, arrivals clear, held arrivals count in the next phase. -/
def foldRelease (s : State) (k : Nat) : State :=
  let f := s.fold k
  let a := f.phaseAt
  let s := if (uniFault s a 8).isSome then (noteUncorr s f.ctx.toNat a).modFold k (fun f => { f with badphase := true })
    else uniWrite s { ctx := f.ctx.toNat } a (natLE 8 ((uniWord s a).toNat + 1))
  let s := s.modFold k (fun f => { f with arr := f.early &&& f.mask, early := 0, localArr := BitVec.ofNat 10 (f.earlyLoc % f.need), earlyLoc := 0 })
  if foldDev k && f.need ≤ f.earlyLoc then setOwn s k else s

/-- Release while the arrivals equal the nonzero mask: at most the open phase and the one held for. -/
def foldSettle (s : State) (k : Nat) : State :=
  let full (s : State) : Bool := (s.fold k).valid && (s.fold k).mask != 0 && (s.fold k).arr == (s.fold k).mask
  if full s then
    let s := foldRelease s k
    if full s then foldRelease s k else s
  else s

/-- An arrival of a core of a context (R280, R282): its status and DETAIL. -/
def foldArrive (s : State) (k ctx core sop : Nat) (value : BitVec 64) : Refuse × State :=
  let f := s.fold k
  let bit := if foldDev k then myRank s else core % 100
  let member := f.mask.getLsbD bit && (foldDev k || core / 100 == k / 64)
  if sop != 1 || value != 1 then ((stDescriptor, 8), foldDrop s k ctx core)
  else if f.ctx.toNat != ctx || !member then ((stPrivilege, 0xFF), foldDrop s k ctx core)
  else if foldDev k then
    if !f.arr.getLsbD bit then
      let s := s.modFold k (fun f => { f with localArr := f.localArr + 1 })
      ((stDone, 0), if f.need ≤ f.localArr.toNat + 1 then foldSettle (setOwn s k) k else s)
    else if f.earlyLoc < f.need then ((stDone, 0), s.modFold k (fun f => { f with earlyLoc := f.earlyLoc + 1 }))
    else ((stDescriptor, 8), foldDrop s k ctx core)
  else if !f.arr.getLsbD bit then ((stDone, 0), foldSettle (s.modFold k (fun f => { f with arr := setBit100 f.arr bit })) k)
  else if !f.early.getLsbD bit then ((stDone, 0), s.modFold k (fun f => { f with early := setBit100 f.early bit }))
  else ((stDescriptor, 8), foldDrop s k ctx core)

/-- Apply a store or an add to a word of device memory (R272 to R274): its status and DETAIL. -/
def applySignal (s : State) (b : By) (a sop : Nat) (value : BitVec 64) : Refuse × State :=
  match (devWrFault s a 8) with
  | some f => ((f.status, f.detail), s)
  | none =>
    if sop = 0 then ((stDone, 0), devWrite s b a (natLE 8 value.toNat))
    else
      match devFault s a 8 with
      | some f => ((f.status, f.detail), devTouch s b a 8)
      | none =>
        let w := devWord s a
        let w' := counterAdd w value
        let s := devWrite (devTouch s b a 8) b a (natLE 8 w'.toNat)
        if counterClamps w value then
          let top := bitsOf w.toNat 48 13 = 0 && decide ((bitsOf w.toNat 0 48 : Nat) + value.toInt > 2 ^ 48 - 1)
          let bot := bitsOf w.toNat 48 13 = 0 && !top
          let unit := if spaceOf a == .host then uHub else uMport (portOf s (a / 4096))
          ((stClamped, 0), post s unit b.ctx 0x0A0 (bitsOf a 3 43 * 8 + b2n top * 4 + b2n bot * 2 + b2n (bitsOf w.toNat 48 13 != 0)))
        else ((stDone, 0), s)

end Sys2Proof.Machine
end

