-- ==== Sys2Proof/Machine/Engines.lean ====
section
/-! DEFINITION. The core's command pipeline in its shared parts: slots and fences, the checks at the head of a queue, hazards, completion
records, and how a command ends (R88 to R101, R410). -/

namespace Sys2Proof.Machine

open Sys2Proof

/-! ### Slots and fences -/

/-- The slot that holds a context, valid or draining. -/
def Core.slotOf (c : Core) (ctx : Nat) : Option Nat :=
  (List.range 32).find? (fun i => ((c.slot i).valid || (c.slot i).drain) && (c.slot i).ctx.toNat == ctx)

/-- The valid slot of a context (R91). -/
def Core.residentSlot (c : Core) (ctx : Nat) : Option Nat := (List.range 32).find? (fun i => (c.slot i).valid && (c.slot i).ctx.toNat == ctx)

/-- A Hurdle on the core, its cluster or its die. -/
def coreFenced (s : State) (n : Nat) : Bool := unitFenced s 1 n || unitFenced s 2 (n / 10) || unitFenced s 3 (n / 100)

/-- A context's work on a core is fenced (R283, R412). -/
def slotFenced (s : State) (n ctx : Nat) : Bool := hurdled s 1 (n + 65536 * ctx) || ctxFenced s ctx || coreFenced s n

/-- Whether the core's service state lets a context's commands run (R67). -/
def stateRuns (c : Core) (ctx : Nat) : Bool := ctx == 0 || c.serv == 0

/-- Clear DRAIN of slots whose last command has ended (R92). -/
def drainDone (s : State) (n : Nat) : State :=
  s.modCore n (fun c => (List.range 32).foldl (fun c i =>
    let x := c.slot i
    if x.drain && (List.range 4).all (fun e => c.queue e i = []) && c.running.all (fun r => r.slot != i) then c.setSlot i { x with drain := false } else c) c)

/-! ### Completion (R88, R89) -/

/-- Ring order: index `a` comes before index `b`. -/
def seqBefore (a b : BitVec 32) : Bool := a != b && (b - a).toNat < 2 ^ 31

/-- A record's context has an earlier command on the same engine queue that is still running or whose completion record waits (R89). -/
def earlierOpen (c : Core) (r : Rec) : Bool :=
  c.running.any (fun x => x.rec'.ctx == r.ctx && x.eng == r.eng && seqBefore x.rec'.seq r.seq) ||
    c.ended.any (fun x => x.rec'.ctx == r.ctx && x.rec'.eng == r.eng && seqBefore x.rec'.seq r.seq)

/-- Write a completion record of a core's command, or hold it with the core's earlier ones of the context. -/
def coreReport (s : State) (n ctx : Nat) (bytes : List Byte) : State :=
  if (s.core n).comps.any (fun c => c.ctx == ctx) then s.modCore n (fun c => { c with comps := c.comps ++ [{ ctx := ctx, bytes := bytes }] })
  else if compRoom s ctx && compReach s ctx then compWrite s ctx bytes
  else
    let s := if compRoom s ctx then s.modCtx ctx (fun x => x.modRing 5 (fun r => { r with retry := true })) else s
    s.modCore n (fun c => { c with comps := c.comps ++ [{ ctx := ctx, bytes := bytes }] })

/-- A completion record of a core's command in ring order: it waits while an earlier command of its context and queue has none (R89). -/
def reportInOrder (s : State) (n : Nat) (r : Rec) (bytes : List Byte) : State :=
  if earlierOpen (s.core n) r then s.modCore n (fun c => { c with ended := c.ended ++ [{ rec' := r, bytes := bytes }] })
  else coreReport s n r.ctx bytes

/-- Report the waiting completion records that no earlier command holds back any more. -/
def flushEnded : Nat → State → Nat → State
  | 0, s, _ => s
  | k + 1, s, n =>
    match (s.core n).ended.find? (fun x => !earlierOpen (s.core n) x.rec') with
    | none => s
    | some x => flushEnded k (coreReport (s.modCore n (fun c => { c with ended := c.ended.erase x })) n x.rec'.ctx x.bytes) n

/-- End a command of a core: refusals are counted and recorded (R100), the others counted as completed (R102), and the completion record
follows unless QUIET suppresses it. -/
def endCmd (s : State) (n : Nat) (r : Rec) (st : Status) (count detail satnan : Nat) : State :=
  let s := if refusedClass st then post (coreCount s n 0x048 1) n r.ctx 0x050 (st.toNat + 2 ^ 8 * r.op + 2 ^ 16 * r.tag) else coreCount s n 0x040 1
  if r.quiet && st = stDone then s
  else reportInOrder s n r (compBytes s st r.op r.tag r.coreN r.eng r.ctx r.seq count detail satnan)

/-- Take the head record of a slot's part of a queue; its words of the command memory are free. -/
def popHead (s : State) (n e i : Nat) : State :=
  s.modCore n (fun c => { (c.setQueue e i ((c.queue e i).drop 1)) with
    passed := tset (fun _ => none) c.passed (e * 32 + i) none
    cmdBad := match c.queue e i with | r :: _ => c.cmdBad.erase (r.ctx, r.seq) | [] => c.cmdBad })

/-- End the head command of a slot's queue without engine time. -/
def endHead (s : State) (n e i : Nat) (r : Rec) (st : Status) (detail : Nat) : State :=
  drainDone (endCmd (popHead s n e i) n r st 0 detail 0) n

/-- Remove a running command: the buffers it holds are freed, hints of its chain that have not been served are dropped (R284), and a change of the
die's clock that waited for it takes effect (R17). -/
def dropRun (s : State) (n : Nat) (r : Running) : State :=
  let s := s.modCore n (fun c => { c with running := c.running.filter (fun x => x.start != r.start) })
  let s := { s with tiers := { s.tiers with hints := s.tiers.hints.filter (fun h => h.owner != some (r.owner n)) } }
  settleClk (freeBufs s n r.start 0) (n / 100)

/-- The CCLK in which the copy engine held a command are counted (R221): the least of R215 and a free number more (R408; log 48). -/
def countHeld (s : State) (n : Nat) (r : Running) : State :=
  if r.eng = 2 then
    coreCount { s with freeCtr := s.freeCtr + 1 } n 0x070 (max r.csrc r.cdst + Config.freeNat s.freeCtr)
  else s

/-- End a running command: its conversions are counted (R46), its work counted, its record written. -/
def endRun (s : State) (n : Nat) (r : Running) (st : Status) : State :=
  let ctx := r.rec'.ctx
  let s := countHeld (countSat s n ctx r.sat r.nan) n r
  let s := if r.rec'.op = 0x21 && doneClass st then ctxCount (ctxCount s ctx 0x118 (pCmd r.rec'.bytes).bytes) ctx 0x120 r.count.toNat else s
  let s := if r.rec'.op = 0x30 && doneClass st then ctxCount s ctx 0x128 (gCmd r.rec'.bytes).rows else s
  let detail := if r.rec'.op = 0x20 && st = stFenced then r.tiles else if st = stFenced then 0 else r.detail.toNat
  let count := if r.rec'.op = 0x20 then r.count.toNat else if st = stFenced then 0 else r.count.toNat
  let s := endCmd (dropRun s n r) n r.rec' st count detail (r.sat + r.nan + r.told)
  drainDone (flushEnded (s.core n).ended.length s n) n

/-- A running command's work is done: its last write is acknowledged (R89). An UPDATE's final header waits for its completion. -/
def workDone (s : State) (n : Nat) (r : Running) : Bool := r.done && r.after = [] && r.hints == 0 && !waitingAccess s n r.start

/-! ### Checks at the head of a queue (R100) -/

/-- Conditions that refuse the word of a SIGNAL or WAIT (R269, R271, R405): DETAIL 16. -/
def wordRefuse (s : State) (e : Env) (a : Nat) (write : Bool) : Option Refuse :=
  match spaceOf a with
  | .host => firstRefuse [chk (Config.devTop < a + 8) stBounds 16, chk (!hostAllowed s e.sec a 8) stPrivilege 16]
  | .gap => some (stBounds, 16)
  | .uni => firstRefuse [chk (!inRanges s e.sec e.ctx a 8 || (write && (hitsRo s e.ctx a 8 || hitsSealed s a 8))) stPrivilege 16,
      chk (hitsUnbacked s a 8) stBounds 16]

/-- Fields of a SIGNAL or WAIT (R87). -/
def sigAddr (r : List Byte) : Nat := bitsOf (fld r 16 8) 0 48
def sigValue (r : List Byte) : BitVec 64 := BitVec.ofNat 64 (fld r 24 8)
def sigOp (r : List Byte) : Nat := bitsOf (fld r 8 1) 0 2
def sigAcked (r : List Byte) : Bool := bitOf (fld r 8 1) 4
def waitCond (r : List Byte) : Nat := bitsOf (fld r 8 1) 0 3
def waitTimeout (r : List Byte) : Nat := fld r 12 4

/-- The host port that serves a word is in PCIe fallback (R272). -/
def inFallback (s : State) (l : List Sect) (a : Nat) : Bool :=
  spaceOf a == .host && (match hostPort s l a 8 with | some p => (s.hp p).mode == 2 | none => false)

def signalCheck (s : State) (e : Env) (r : List Byte) : Option Refuse :=
  let v := (sigValue r).toInt
  let six := firstFail (reservedFails (bodyGroups 0x40) 8 64 r ++
    fails [(8, 1 < sigOp r), (16, sigAddr r % 8 != 0), (24, sigOp r == 1 && (decide (2 ^ 48 ≤ v) || decide (v ≤ -(2 ^ 48))))])
  firstRefuse [six.map (fun o => (stDescriptor, o)), chk (sigOp r == 1 && inFallback s e.sec (sigAddr r)) stMode 8, wordRefuse s e (sigAddr r) true]

def waitCheck (s : State) (e : Env) (r : List Byte) : Option Refuse :=
  let six := firstFail (reservedFails (bodyGroups 0x41) 8 64 r ++ fails [(8, 5 < waitCond r), (16, sigAddr r % 8 != 0)])
  firstRefuse [six.map (fun o => (stDescriptor, o)), wordRefuse s e (sigAddr r) false]

/-- The environment of a core's checks. -/
def envOf (s : State) (n i ctx : Nat) : Env := { core := n, slot := (s.core n).slot i, sec := sectsOf s (.core n), ctx := ctx }

def ofRefuse : Option Refuse → Checked (List (List Byte × List Byte))
  | some x => .refuse x.1 x.2
  | none => .ok []

def ofUnit : Checked Unit → Checked (List (List Byte × List Byte))
  | .refuse st d => .refuse st d
  | .fault f => .fault f
  | .ok _ => .ok []

/-- Checks 5 to 10 of R100, with the opcodes' own tables, after check 2 once more: the core may have been retired while the record waited (R15). -/
def headCheck (s : State) (n i : Nat) (r : Rec) : Checked (List (List Byte × List Byte)) :=
  let e := envOf s n i r.ctx
  let b := r.bytes
  if coreRetired (retiredOf e.sec) n then .refuse stDescriptor 4 else
  match r.op with
  | 0x00 => ofRefuse ((firstFail (reservedFails [] 8 64 b)).map (fun o => (stDescriptor, o)))
  | 0x01 => ofRefuse (matCheck e.slot ((s.core n).serv == 0) b)
  | 0x10 => ofRefuse (vecCheck e.slot b)
  | 0x11 => ofRefuse (redCheck e.slot b)
  | 0x12 => ofUnit (updCheck s e b)
  | 0x20 => copyCheck s e b
  | 0x21 => ofRefuse (pushCheck s e b (s.ctx r.ctx).wptab)
  | 0x22 => ofRefuse (pushCheck s e b (s.ctx r.ctx).wptab)
  | 0x30 => ofUnit (gatherCheck s e b)
  | 0x40 => ofRefuse (signalCheck s e b)
  | 0x41 => ofRefuse (waitCheck s e b)
  | _ => .refuse stDescriptor 0

/-- What an uncorrectable word met by a check does besides (R378, R407): a chain in the scratchpad acts on the core under R74. -/
def checkTouch (s : State) (n : Nat) (r : Rec) : MemFault → State
  | .link => s
  | .ecc a =>
    if r.op = 0x20 && !copyDev r.bytes && ((chainRd n r.bytes).fault s).isSome then spTouch s n r.ctx (a / 8 * 8) 8
    else devTouch s { ctx := r.ctx, die := some (n / 100) } (a / 8 * 8) 8

/-! ### Eligibility (R93, R97, R98) -/

/-- Conditions 1 to 3 of R93; commands also wait while a change of the die's clock does (R17). -/
def headReady (s : State) (n : Nat) (r : Rec) : Bool :=
  stateRuns (s.core n) r.ctx && !slotFenced s n r.ctx && !((s.core n).comps.any (fun c => c.ctx == r.ctx)) && !clkWaits s (n / 100)

/-- The masked commands of engine `e` earlier than a record have completed, or with `issued` have issued their last write (R97). -/
def engineClear (s : State) (n i e : Nat) (r : Rec) (issued : Bool) : Bool :=
  let c := s.core n
  (c.queue e i).all (fun x => !seqBefore x.seq r.seq) &&
    c.running.all (fun x => x.eng != e || x.slot != i || !seqBefore x.rec'.seq r.seq || (issued && issuedLast s n x))

/-- A record's WAITMASK is satisfied. -/
def maskClear (s : State) (n i : Nat) (r : Rec) (issued : Bool) : Bool :=
  (List.range 4).all (fun e => !bitOf r.waitmask e || engineClear s n i e r issued)

/-- A scratchpad hazard against a command in flight (R98). -/
def hazard (c : Core) (rd wr : List Region) : Bool :=
  c.running.any (fun x => x.wr.any (fun w => rd.any (regMeets w) || wr.any (regMeets w)) || x.rd.any (fun a => wr.any (regMeets a)))

/-- The scratchpad regions a command reads and writes (R98). -/
def regionsOf (r : Rec) (chain : List (List Byte × List Byte)) : List Region × List Region :=
  let b := r.bytes
  match r.op with
  | 0x01 => ((matParam b).reads, (matParam b).writes)
  | 0x10 => ([(vecParam b).regX.reg, (vecParam b).regY.reg], [(vecParam b).regZ.reg])
  | 0x11 => ([(redParam b).regX], [(redParam b).regZ])
  | 0x20 => copyRegions b chain
  | 0x21 => ([((pCmd b).sp, (pCmd b).bytes)], [])
  | 0x22 => ([], [((pCmd b).sp, (pCmd b).bytes)])
  | 0x30 => ([(gCmd b).reg], [])
  | _ => ([], [])

/-- Opcodes that take engine time and are selected by the Drover (R87). -/
def takesTime (op : Nat) : Bool := knownOp op && op != 0x00 && op != 0x40 && op != 0x41

/-- An uncorrectable word of the command memory ends the command it holds with FAULT_ECC, and the core enters RECOVERY (R101). DETAIL and the
record's payload are free, since such a word has no address of R74 (log 79). -/
def commandLost (s : State) (n e i : Nat) (r : Rec) : State :=
  let (d, s) := freeBelow s (2 ^ 32)
  let (p, s) := freeBelow s (2 ^ 46)
  enterRecovery (post (endHead s n e i r stEcc d) n r.ctx 0x041 p) n

/-- Check the head of a slot's queue once it is ready (R93): a failing command ends; a passing one is remembered, with its chain. -/
def checkHead (e : Nat) (n : Nat) (s : State) (i : Nat) : State :=
  match (s.core n).queue e i with
  | [] => s
  | r :: _ =>
    if !headReady s n r || (tget (fun _ => none) (s.core n).passed (e * 32 + i)).isSome then s
    else if (s.core n).cmdBad.contains (r.ctx, r.seq) then commandLost s n e i r
    else
      match headCheck s n i r with
      | .refuse st d => endHead s n e i r st d
      | .fault f => endHead (checkTouch s n r f) n e i r f.status f.detail
      | .ok ch => s.modCore n (fun c => { c with passed := tset (fun _ => none) c.passed (e * 32 + i) (some ch) })

/-! ### Fences on a core (R101, R410) -/

/-- Writes that a fence lets stand: they are made, and their conversions counted (R46). -/
def standing (s : State) (r : Running) (ws : List Wr) : State × Running :=
  (coreCount (applyWrs r.by s (coalesce ws)) r.core 0x068 (if r.rec'.op = 0x22 then wrsBytes ws else 0), { r with sat := r.sat + wrsSat ws, nan := r.nan + wrsNan ws })

/-- A leading part of free length of the writes a command would make stands (R410; log 3). -/
def standLead (s : State) (r : Running) (ws : List Wr) : State × Running :=
  let (ws, s) := freeLead s (upToFault s ws).1
  standing s r ws

/-- What a fence leaves of a running MATMUL (R410): a tile in DRAINING has written a leading part of its rows; a tile in FILLING has made a free
number of its fetches, which count (R77). -/
def matFence (s : State) (n : Nat) (r : Running) : State × Running :=
  let p := matParam r.rec'.bytes
  let bufs := [(s.core n).buf0, (s.core n).buf1].filter (fun b => b.op == r.start)
  let s := (bufs.filter (fun b => b.st == .filling)).foldl (fun s b =>
    let (k, s) := freeBelow s (p.fetches + 1)
    countFetches s n p b.tile k) s
  match bufs.find? (fun b => b.st == .draining) with
  | some b => let (ws, s) := freeLead s (tilePlan s n p b).wrs; (applyWrs r.by s ws, { r with sat := r.sat + wrsSat ws, nan := r.nan + wrsNan ws })
  | none => (s, r)

/-- What a fence leaves of a running COPY (R219): of the descriptor in progress, a leading part of its walk, and the number of descriptors
completed. What it had gathered is not written beyond that. -/
def copyFence (s : State) (n : Nat) (r : Running) : State × Running :=
  if copyWaits s n r || r.land != [] then
    let (ws, s) := freeLead s (upToFault s (landed r.land)).1
    copyWrites s n { r with land := [] } ws
  else
    let r := { r with tiles := r.pos }
    match r.chain[r.pos]? with
    | none => (s, r)
    | some d =>
      match fld d.1 0 1 with
      | 3 => (s, r)
      | 4 =>
        let (k, s) := freeBelow s ((walk (gDesc d.1).n).length + 1)
        let w := gWalk s n r d.1 d.2 k
        let (ws, s) := freeLead w.st (upToFault w.st (landed w.run.land)).1
        copyWrites s n { w.run with land := [] } ws
      | _ =>
        let (ws, s) := freeLead s (upToFault s (copyWalk s n (cDesc d.1)).wrs).1
        copyWrites s n r ws

/-- The partial effects that a fence leaves of a running command whose work is not done: every write issued before the fence stands, and its
conversions count. -/
def fencePart (s : State) (n : Nat) (r : Running) : State × Running :=
  let b := r.rec'.bytes
  if r.done then (s, r) else
  match r.rec'.op with
  | 0x01 => matFence s n r
  | 0x10 => standLead s r (vecPlan s n b).wrs
  | 0x11 =>
    let (ws, s) := freeSet s (redPlan s n b).wrs
    standing s r ws
  | 0x12 => updFence s n r
  | 0x20 => copyFence s n r
  | 0x21 => standLead s r (pushPlan s n r).wrs
  | 0x22 => standLead s r (popPlan s n r).wrs
  | 0x30 => (gatherBreak s n r, r)
  | _ => (s, r)

/-- A fence meets a running command: one whose work was done keeps its status (R89); another ends with ABORTED_FENCED, unless a Fault it has met
ranks higher (R10). -/
def fenceRun (n : Nat) (s : State) (r : Running) : State :=
  if workDone s n r then endRun (handHot s n r) n r r.status
  else
    let (s, r) := fencePart s n r
    endRun s n r (worse r.status stFenced)

/-- Records put in ring order. -/
def inRingOrder : List (Nat × Rec) → List (Nat × Rec)
  | [] => []
  | x :: xs =>
    let (lo, hi) := (inRingOrder xs).span (fun y => seqBefore y.2.seq x.2.seq)
    lo ++ x :: hi

/-- End every command of a context on a core with ABORTED_FENCED: running commands, then the queued ones in ring order; Tally 0x051 once, with
the commands it ended and the entry that fences. -/
def fenceSlot (s : State) (n ctx entry : Nat) : State :=
  match (s.core n).slotOf ctx with
  | none => s
  | some i =>
    let runs := (s.core n).running.filter (fun r => r.slot == i)
    let recs := inRingOrder ((List.range 4).flatMap (fun e => ((s.core n).queue e i).map (fun r => (e, r))))
    let k := (runs.filter (fun r => !workDone s n r)).length + recs.length
    let s := runs.foldl (fenceRun n) s
    let s := s.modCore n (fun c => { c with waits := c.waits.filter (fun w => w.slot != i) })
    let s := recs.foldl (fun s x => endHead s n x.1 i x.2 stFenced 0) s
    if k = 0 then s else post s n ctx 0x051 (min k 0xFFFF + 2 ^ 16 * entry)

/-- Fence every context's work on a core. -/
def fenceCore (s : State) (n entry : Nat) : State :=
  (List.range 32).foldl (fun s i =>
    let x := (s.core n).slot i
    if x.valid || x.drain then fenceSlot s n x.ctx.toNat entry else s) s

/-- The cores that have anything in them. -/
def usedCores (s : State) : List Nat := s.cores.map (·.1)

end Sys2Proof.Machine
end

