-- ==== Sys2Proof/Machine/Rights.lean ====
section
/-! DEFINITION. Who may access what through the BARs (R4, R318, R319), and how words are watched (R269). -/

namespace Sys2Proof.Machine

open Sys2Proof

/-! ### Rights (R318) -/

/-- The host port of a party: 0 A, 1 B; context 0 has none. -/
def partyPort : Party → Option Nat
  | .portA => some 0
  | .portB => some 1
  | .fw => none

/-- The option bytes grant a port administrator rights. -/
def portAdmin (s : State) (p : Nat) : Bool := if p = 0 then optAdminA s else optAdminB s

/-- A party's accesses reach the device: it is out of reset, and a port's link is up and unfenced (R283, R315). -/
def partyLive (s : State) (who : Party) : Bool :=
  s.hub.phase == .running && (match partyPort who with | some p => hpUp s p | none => s.sec.st != 2)

/-- The context a port without administrator rights is bound to (R318). -/
def boundCtx (s : State) (p : Nat) : Option Nat :=
  let h := s.hp p
  if h.bindV && (s.ctx h.bindCtx.toNat).state == 1 then some h.bindCtx.toNat else none

/-- The areas registers lie in, by who may access them. -/
inductive RegArea where
  /-- Context 0 or an administrator port. -/
  | admin
  /-- The same, in the HUB, OPT and SEC blocks, which the hub ROM serves in RECOVERY (R351). -/
  | hub
  /-- The owning context of a table entry as well. -/
  | ctx (c : Nat)
  /-- Every port: HUB offsets 0x0000 to 0x00FF and the Gate. -/
  | all
  /-- Every port for reading: SEC_IDDIG0 to SEC_IDDIG3. -/
  | allRead
  /-- A port's own HP block for reading. -/
  | hp (p : Nat)
deriving DecidableEq, Repr

/-- Whether a party may access an area. -/
def mayAccess (s : State) (who : Party) (a : RegArea) (write : Bool) : Bool :=
  match partyPort who with
  | none => true
  | some p =>
    portAdmin s p ||
    (match a with
     | .admin => false
     | .hub => false
     | .ctx c => boundCtx s p == some c
     | .all => true
     | .allRead => !write
     | .hp q => q == p && !write)

/-- Count an access outside a port's rights (R318). -/
def countOutside (s : State) (who : Party) : State :=
  match partyPort who with
  | some p => s.modHp p (fun h => { h with outside := stick h.outside 1 })
  | none => s

/-- The hub ROM serves only the HUB, OPT and SEC blocks while no hub image runs (R351). -/
def served (s : State) : RegArea → Bool
  | .admin => s.sec.st != 2
  | .ctx _ => s.sec.st != 2
  | .hp _ => s.sec.st != 2
  | _ => true

/-- A register write by a party: ignored from a port that is down or fenced, counted and discarded outside its rights. -/
def gated (s : State) (who : Party) (a : RegArea) (f : State → State) : State :=
  if !partyLive s who || !served s a then s
  else if mayAccess s who a true then f s
  else countOutside s who

/-- The firmware that serves a context's load and request rings runs, and is not handing over (R351, R386; log 36). -/
def fwServes (s : State) (c : Nat) : Bool :=
  s.sec.booted && s.sec.st != 2 && !(s.hub2.fwState == 1 && decide (Config.ringServer c % 9 = s.hub2.fwTarget.toNat))

/-! ### Watching (R269) -/

/-- The words that running rings watch in a way. -/
def ringWatches (s : State) (h : Watch) : List Nat :=
  s.ctxs.flatMap (fun x => ((List.range 6).filter (fun k => ringRuns s x.1 k && ((s.ctx x.1).ring k).how == h)).map (fun k => ((s.ctx x.1).ring k).watched k))

/-- The WAITs of the device, with their word. -/
def allWaits (s : State) : List (Waiting × Nat) := s.cores.flatMap (fun c => c.2.waits.map (fun w => (w, sigAddr w.rec'.bytes)))

/-- The words of the WAITs that are watched in a way. -/
def waitWatches (s : State) (h : Watch) : List Nat := ((allWaits s).filter (fun (w : Waiting × Nat) => w.1.how == h)).map (·.2)

/-- How a word that comes to be watched is watched (R269): monitors and line monitors are held by the words watched through them alone. -/
def watchHow (s : State) (a : Nat) : Watch :=
  match spaceOf a with
  | .host =>
    let lines := ((waitWatches s .cached ++ ringWatches s .cached).map (· / 64)).eraseDups
    match hostPort s s.weave.cur.sects a 8 with
    | some p => if (s.hp p).mode == 1 && !hurdled s 3 p && (lines.contains (a / 64) || lines.length < 4096) then .cached else .polled
    | none => .polled
  | _ =>
    let m := portOf s (a / 4096)
    if ((waitWatches s .monitored ++ ringWatches s .monitored).filter (fun w => portOf s (w / 4096) == m)).length < 1024 then .monitored else .polled

end Sys2Proof.Machine
end

