-- ==== Sys2Proof/Machine/CoreCmds.lean ====
section
/-! DEFINITION. The commands of a core's queues: delivery, the Drover, NOP, SIGNAL and WAIT, completion, service states, slots. -/

namespace Sys2Proof.Machine

open Sys2Proof

/-! ### Delivery (R90, R91, R100) -/

/-- Pool records a slot uses: those beyond the four guaranteed in each queue. -/
def poolOf (c : Core) (i : Nat) : Nat := ((List.range 4).map (fun e => (c.queue e i).length - 4)).sum

/-- A queue has room for one more record of a slot (R90). -/
def hasRoom (c : Core) (e i : Nat) : Bool :=
  (c.queue e i).length < 4 || (poolOf c i < 128 && ((List.range 32).map (poolOf c)).sum < 512)

/-- The die whose intake handles a record; a record for no core is refused by the intake of die 0 (log 21). -/
def intakeDie (r : Rec) : Nat := if r.coreN < 800 then r.coreN / 100 else 0

/-- Checks 1 to 4 of R100, under the generation that the record's core holds (R33). -/
def intakeCheck (s : State) (r : Rec) : Option Refuse :=
  let l := sectsOf s (.core r.coreN)
  firstRefuse [(headerFail r).map (fun o => (stDescriptor, o)), chk (coreRetired (retiredOf l) r.coreN) stDescriptor 4,
    chk (!(ctxParts s l r.ctx).any (fun p => bitOf p.cores r.coreN)) stPrivilege 4, chk ((s.core r.coreN).residentSlot r.ctx).isNone stPrivilege 0xFF]

/-- The intake refuses a record: Tally 0x050 in the core's ring, or in the die's where no such core is (log 21), and the completion. -/
def intakeRefuse (s : State) (r : Rec) (x : Refuse) : State :=
  reportRec (post s (if r.coreN < 800 then r.coreN else uDie (intakeDie r)) r.ctx 0x050 (x.1.toNat + 2 ^ 8 * r.op + 2 ^ 16 * r.tag)) r x.1
    r.coreN r.eng 0 x.2 0

/-- Whether a record could be delivered now: room in its queue. -/
def canDeliver (s : State) (r : Rec) : Bool :=
  match (s.core r.coreN).residentSlot r.ctx with
  | some i => hasRoom (s.core r.coreN) r.eng i
  | none => true

/-- Deliver a record: refused, ended by a fence on its slot (R283), or put at the end of its slot's queue. -/
def deliver (s : State) (r : Rec) : State :=
  match intakeCheck s r with
  | some x => intakeRefuse s r x
  | none =>
    let n := r.coreN
    if slotFenced s n r.ctx then reportInOrder (coreCount s n 0x040 1) n r (compBytes s stFenced r.op r.tag n r.eng r.ctx r.seq 0 0 0)
    else
      match (s.core n).residentSlot r.ctx with
      | some i => s.modCore n (fun c => c.setQueue r.eng i (c.queue r.eng i ++ [r]))
      | none => s

/-- Key of the records a die's intake holds for a context. -/
def heldKey (die c : Nat) : Nat := die * 1024 + c

/-- The first held record that can be delivered, each core's records in ring order. -/
def firstHeld (s : State) : List Nat → List Rec → Option Rec
  | _, [] => none
  | seen, r :: rs => if seen.contains r.coreN then firstHeld s seen rs else if canDeliver s r then some r else firstHeld s (r.coreN :: seen) rs

/-- RECORD_DELIVERY (R90): a held record whose core has room, else the next record read for the die. -/
def execRecordDelivery (die c : Nat) (s : State) : Host.Outcome State Fault Refusal :=
  let held := tget dL s.dieHeld (heldKey die c)
  match firstHeld s [] held with
  | some r => .next (deliver { s with dieHeld := tset dL s.dieHeld (heldKey die c) (held.erase r) } r)
  | none =>
    match (s.ctx c).intake with
    | [] => .next s
    | r :: rest =>
      if intakeDie r ≠ die then .next s
      else
        let taken := s.modCtx c (fun x => { x with intake := rest })
        if (intakeCheck s r).isSome then .next (deliver taken r)
        else if canDeliver s r && !held.any (fun h => h.coreN == r.coreN) then .next (deliver taken r)
        else if held.length < 64 then .next { taken with dieHeld := tset dL s.dieHeld (heldKey die c) (held ++ [r]) }
        else .next s

/-! ### The Drover (R93, R94) -/

/-- An engine can accept a command. -/
def canAccept (c : Core) (e : Nat) : Bool :=
  if e = 0 then
    (c.running.filter (·.eng == 0)).all (fun r => (matParam r.rec'.bytes).tiles ≤ r.tiles) && (c.buf0.st == .empty || c.buf1.st == .empty)
  else c.running.all (fun r => r.eng != e)

def passedAt (c : Core) (e i : Nat) : Option (List (List Byte × List Byte)) := tget (fun _ => none) c.passed (e * 32 + i)

/-- The head of slot `i` is eligible, apart from hazards (R93). -/
def heldOnlyByHazard (s : State) (n e i : Nat) : Bool :=
  match ((s.core n).queue e i).head? with
  | some r => takesTime r.op && headReady s n r && (passedAt (s.core n) e i).isSome && maskClear s n i r false
  | none => false

/-- The head of slot `i` meets a hazard (R98). -/
def headHazard (c : Core) (e i : Nat) : Bool :=
  match (c.queue e i).head? with
  | some r => let g := regionsOf r ((passedAt c e i).getD []); hazard c g.1 g.2
  | none => false

def eligible (s : State) (n e i : Nat) : Bool := heldOnlyByHazard s n e i && !headHazard (s.core n) e i

def creditOf (c : Core) (e i : Nat) : Nat := tget dN c.credit (e * 32 + i)
def ptrDef (_ : Nat) : Nat := 1

/-- The slots 1 to 31 in the order of a scan from `ptr` (R94). -/
def scanOrder (ptr : Nat) : List Nat := (List.range 31).map (fun k => 1 + (ptr - 1 + k) % 31)

/-- The slot the Drover picks, with the credits refilled if the first pass found none (R94). -/
def droverPick (s : State) (n e : Nat) : Option (Nat × State) :=
  if eligible s n e 0 then some (0, s)
  else
    let ok := scanOrder (tget ptrDef (s.core n).ptr e) |>.filter (eligible s n e)
    if ok = [] then none
    else
      match ok.find? (fun i => 0 < creditOf (s.core n) e i) with
      | some i => some (i, s)
      | none =>
        let s := s.modCore n (fun c => { c with credit := (List.range 31).foldl (fun t k =>
          let x := c.slot (k + 1)
          if x.valid || x.drain then tset dN t (e * 32 + k + 1) x.weight.toNat else t) c.credit })
        (ok.find? (fun i => 0 < creditOf (s.core n) e i)).map (fun i => (i, s))

/-- Spend a credit and move the pointer (R94); slot 0 spends none. -/
def droverSpend (s : State) (n e i : Nat) : State :=
  if i = 0 then s else
  s.modCore n (fun c =>
    let k := creditOf c e i - 1
    { c with credit := tset dN c.credit (e * 32 + i) k, ptr := tset ptrDef c.ptr e (if k = 0 then 1 + i % 31 else i) })

/-- Issue a record: it leaves its queue and runs. -/
def issue (s : State) (n e i : Nat) (r : Rec) : State :=
  let x := s.ctx r.ctx
  let ch := (passedAt (s.core n) e i).getD []
  let g := regionsOf r ch
  let run : Running :=
    { start := s.hub2.order, rec' := r, slot := i, eng := e, core := n, issued := s.time, wptab := x.wptab, seed := x.seed, step := x.step, chain := ch,
      rd := g.1, wr := g.2 }
  let s := popHead { s with hub2 := { s.hub2 with order := s.hub2.order + 1 } } n e i
  s.modCore n (fun c => { c with running := c.running ++ [run] })

/-- The check a PUSH or POP meets as it is issued (R105, R114). -/
def issueCheck (s : State) (n i : Nat) (r : Rec) : Checked Unit :=
  if r.op = 0x21 || r.op = 0x22 then pileCheck s (envOf s n i r.ctx) r.bytes (s.ctx r.ctx).wptab else .ok ()

/-- DROVER_SELECT (R93, R94): heads that fail their checks are refused; then, if the engine can accept a command, one is selected and
issued, or a stall by hazard alone is counted. -/
def execDroverSelect (core e : Nat) (s : State) : Host.Outcome State Fault Refusal :=
  let s := (List.range 32).foldl (checkHead e core) s
  if !canAccept (s.core core) e then .next s
  else
    match droverPick s core e with
    | none =>
      .next (if (List.range 32).any (fun i => heldOnlyByHazard s core e i && headHazard (s.core core) e i) then coreCount s core 0x038 1 else s)
    | some (i, s') =>
      match (s'.core core).queue e i with
      | [] => .next s'
      | r :: _ =>
        match issueCheck s' core i r with
        | .refuse st d => .next (endHead s core e i r st d)
        | .fault f => .next (endHead (checkTouch s core r f) core e i r f.status f.detail)
        | .ok _ => .next (issue (droverSpend s' core e i) core e i r)

/-! ### NOP, SIGNAL, WAIT (R87) -/

/-- The lowest slot whose head has an opcode and may start: ready, and either failing its checks or with its mask clear. -/
def plainHead (s : State) (n e op : Nat) (issued : Rec → Bool) : Option (Nat × Rec) :=
  (List.range 32).findSome? (fun i =>
    match (s.core n).queue e i with
    | r :: _ => if r.op = op && headReady s n r && maskClear s n i r (issued r) && !(s.core n).waits.any (fun w => w.eng == e && w.slot == i) then some (i, r) else none
    | [] => none)

/-- NOP (R79): DONE once its WAITMASK is satisfied. -/
def execNop (core e : Nat) (s : State) : Host.Outcome State Fault Refusal :=
  let s := (List.range 32).foldl (checkHead e core) s
  match plainHead s core e 0x00 (fun _ => false) with
  | some (i, r) => .next (endHead s core e i r stDone 0)
  | none => .next s

/-- The signal's own effect: an arrival at a Fold, or a store or add (R272, R280). -/
def runSignal (s : State) (n : Nat) (r : Rec) : Refuse × State :=
  let a := sigAddr r.bytes
  match foldAt s a with
  | some k => foldArrive s k r.ctx n (sigOp r.bytes) (sigValue r.bytes)
  | none => applySignal s { ctx := r.ctx, die := some (n / 100) } a (sigOp r.bytes) (sigValue r.bytes)

/-- SIGNAL (R272, R276): released when the masked commands have issued their last write (ATTACHED) or have completed (ACKED); it
completes once its own write is acknowledged. -/
def execSignal (core e : Nat) (s : State) : Host.Outcome State Fault Refusal :=
  let s := (List.range 32).foldl (checkHead e core) s
  match plainHead s core e 0x40 (fun r => !sigAcked r.bytes) with
  | some (i, r) =>
    if bridgeHolds s (.core core) (sigAddr r.bytes) 8 then .next s
    else
      let (x, s) := runSignal s core r
      .next (endHead s core e i r x.1 x.2)
  | none => .next s

/-- One evaluation of a WAIT: the word read, or why it could not be. -/
def evalWait (s : State) (w : Waiting) : Waiting :=
  let a := sigAddr w.rec'.bytes
  match devFault s a 8 with
  | some f => { w with fault := f.status }
  | none =>
    let v := devWord s a
    { w with last := v, met := waitHolds (waitCond w.rec'.bytes) v (sigValue w.rec'.bytes) }

/-- The side effects of reading a WAIT's word. -/
def waitTouch (s : State) (w : Waiting) : State := devTouch s { ctx := w.rec'.ctx } (sigAddr w.rec'.bytes) 8

/-- End a WAIT: it leaves its queue and is no longer watched. -/
def endWait (s : State) (n : Nat) (w : Waiting) (st : Status) (detail : Nat) : State :=
  endHead (s.modCore n (fun c => { c with waits := c.waits.filter (fun x => !(x.eng == w.eng && x.slot == w.slot)) })) n w.eng w.slot w.rec' st detail

/-- End a WAIT whose last evaluation decided it: a fault, or its condition holds. -/
def settleWait (s : State) (n : Nat) (w : Waiting) : Option State :=
  if w.fault = stEcc then some (endWait s n w stEcc (sigAddr w.rec'.bytes % 2 ^ 32))
  else if w.fault != 0 then some (endWait s n w w.fault 0)
  else if w.met then some (endWait s n w stDone 0)
  else none

/-- WAIT (R87, R269): watching starts with an evaluation; a polled word is recorded. -/
def execWait (core e : Nat) (s : State) : Host.Outcome State Fault Refusal :=
  let s := (List.range 32).foldl (checkHead e core) s
  match plainHead s core e 0x41 (fun _ => false) with
  | some (i, r) =>
    let a := sigAddr r.bytes
    let how := watchHow s a
    let w := evalWait s { rec' := r, slot := i, eng := e, start := s.time, how := how, last := 0, met := false }
    let s := waitTouch s w
    let s := if how = .polled then post s core r.ctx 0x0A6 (bitsOf a 3 43) else s
    .next ((settleWait s core w).getD (s.modCore core (fun c => { c with waits := c.waits ++ [w] })))
  | none => .next s

/-- The WAIT of a context on an engine. -/
def findWait (c : Core) (e ctx : Nat) : Option Waiting := c.waits.find? (fun w => w.eng == e && w.rec'.ctx == ctx)

/-- WAIT_EVALUATION (R269): a WAIT whose word has taken a value that meets its condition, or could not be read, completes. -/
def execWaitEvaluation (core e c : Nat) (s : State) : Host.Outcome State Fault Refusal :=
  match findWait (s.core core) e c with
  | none => .next s
  | some w => .next ((settleWait s core w).getD s)

/-- WAIT_TIMEOUT (R87): TIMEOUT has passed; an evaluation that holds still gives DONE. -/
def execWaitTimeout (core e c : Nat) (s : State) : Host.Outcome State Fault Refusal :=
  match findWait (s.core core) e c with
  | none => .next s
  | some w =>
    let t := waitTimeout w.rec'.bytes
    if t = 0 || s.time.toNat < w.start.toNat + 1000 * t then .next s
    else .next ((settleWait s core w).getD (endWait s core w stDeadline (w.last.toNat % 2 ^ 32)))

/-- Host memory as the host leaves it: bytes at device addresses of host space. -/
def hostStores (s : State) (l : List (Nat × Byte)) : State :=
  { s with host := l.foldl (fun m x => if spaceOf x.1 == .host && x.1 < Config.devTop then mset m x.1 x.2 else m) s.host }

/-- Evaluate again the WAITs that a test picks. -/
def reevaluate (s : State) (p : Waiting → Bool) : State :=
  let ws := ((allWaits s).map (·.1)).filter (fun w => p w && !w.met && w.fault == 0)
  let s' := ws.foldl waitTouch s
  { s' with cores := s'.cores.map (fun c => (c.1, { c.2 with waits := c.2.waits.map (fun w => if p w && !w.met && w.fault == 0 then evalWait s w else w) })) }

/-- Observe the running rings that a test picks by how their word is watched and where it lies; a word that cannot be read is left (log 22). -/
def observeRings (s : State) (p : Watch → Nat → Bool) : State :=
  (ringsWatching s (fun r w => p r.how w)).foldl (fun s x =>
    let w := ((s.ctx x.1).ring x.2).watched x.2
    if (devFault s w 8).isSome then s else observeValue s x.1 x.2 (devWord s w)) s

/-- HUB_SYNCPOLL.INTERVAL has passed since the last poll (R269, R287). -/
def pollDue (s : State) : Bool := s.hub2.polledAt.toNat + 1000 * s.hub2.syncpoll.toNat ≤ s.time.toNat

/-- POLL_INTERVAL_EXPIRY (R269): HUB_SYNCPOLL.INTERVAL after the last poll, every polled word is read again. The operand is what the host has
stored meanwhile. -/
def execPollIntervalExpiry (host : List (Nat × Byte)) (s : State) : Host.Outcome State Fault Refusal :=
  let s := hostStores s host
  if !pollDue s then .next s
  else .next (observeRings (reevaluate { s with hub2 := { s.hub2 with polledAt := s.time } } (fun w => w.how = .polled)) (fun h _ => h == .polled))

/-- LINE_INVALIDATION (R269): the host takes a monitored line, stores, and the line is read again. -/
def execLineInvalidation (line : Nat) (host : List (Nat × Byte)) (s : State) : Host.Outcome State Fault Refusal :=
  let s := reevaluate (hostStores s host) (fun w => w.how = .cached && sigAddr w.rec'.bytes / 64 == line)
  .next (observeRings s (fun h a => h == .cached && a / 64 == line))

/-! ### Completion (R89, R297) -/

/-- The oldest command of an engine whose work is done and acknowledged; an UPDATE's final header is still to be written. -/
def completable (s : State) (n e : Nat) : Option Running :=
  (s.core n).running.find? (fun r => r.eng == e && (workDone s n r || (r.done && r.rec'.op == 0x12)))

/-- COMMAND_COMPLETE (R89): the last write is acknowledged; an UPDATE's final header is written first (step 8 of R177). -/
def execCommandComplete (core e : Nat) (s : State) : Host.Outcome State Fault Refusal :=
  match completable s core e with
  | none => .next s
  | some r =>
    let s := applyWrs r.by s r.after
    let s := if r.rec'.op = 0x12 then updComplete s core r else s
    .next (endRun (handHot s core r) core r r.status)

/-- Write the first completion record that a list of holders holds for a context. -/
def releaseCore (s : State) (n c : Nat) : State :=
  match (s.core n).comps.find? (fun x => x.ctx == c) with
  | none => s
  | some x => compWrite (s.modCore n (fun k => { k with comps := k.comps.erase x })) c x.bytes

/-- Write the first completion record of a context that no core holds. -/
def releaseCtx (s : State) (c : Nat) : State :=
  match (s.ctx c).comps with
  | [] => s
  | x :: xs => compWrite (s.modCtx c (fun y => { y with comps := xs })) c x.bytes

/-- The record whose write is next cannot reach its ring: it is retried. -/
def holdRetry (s : State) (c : Nat) : State := s.modCtx c (fun x => x.modRing 5 (fun r => { r with retry := true }))

/-- COMPLETION_RECORD_RELEASE (R89): with room in the ring, the oldest record the core holds for the context is written; the records that
units other than cores hold for it go first. -/
def execCompletionRecordRelease (core c : Nat) (s : State) : Host.Outcome State Fault Refusal :=
  if !compRoom s c || ((s.ctx c).comps = [] && !(s.core core).comps.any (fun x => x.ctx == c)) then .next s
  else if !compReach s c then .next (holdRetry s c)
  else .next (if (s.ctx c).comps = [] then releaseCore s core c else releaseCtx s c)

/-- COMPLETION_WRITE_RETRY (R297): the record whose write failed is written again. -/
def execCompletionWriteRetry (c : Nat) (s : State) : Host.Outcome State Fault Refusal :=
  let s' := s.modCtx c (fun x => x.modRing 5 (fun r => { r with retry := false }))
  if !((s.ctx c).ring 5).retry || !compRoom s' c || !compReach s c then .next s
  else
    let s := s'
    if (s.ctx c).comps ≠ [] then .next (releaseCtx s c)
    else
      match (usedCores s).find? (fun n => (s.core n).comps.any (fun x => x.ctx == c)) with
      | some n => .next (releaseCore s n c)
      | none => .next s

/-! ### Service states and the scratchpad (R68, R74) -/

/-- CORE_STATE_REQ (R68). -/
def execCoreStateReq (who : Party) (core : Nat) (req : BitVec 2) (s : State) : Host.Outcome State Fault Refusal :=
  .next (gated s who .admin (fun s => s.modCore core (fun c => { c with req := req, fwReq := false })))

/-- The core takes the requested state. An entry to TEST or RECOVERY starts a core test, unless firmware made the request to keep the core
out of NORMAL; firmware makes that request when a core that failed its test comes to NORMAL (R382). -/
def adoptState (c : Core) : Core :=
  let c' := { c with serv := c.req, testing := if (c.req = 2 || c.req = 3) && !c.fwReq then some c.req else c.testing }
  if c.untrusted && c.req = 0 then { c' with req := 3, fwReq := true } else c'

/-- SERVICE_STATE_ADOPT (R68): between commands, the core takes the requested state. -/
def execServiceStateAdopt (core : Nat) (s : State) : Host.Outcome State Fault Refusal :=
  let c := s.core core
  if c.req = c.serv || c.running ≠ [] then .next s
  else .next (post (s.modCore core adoptState) core 0 0x042 (c.req.toNat + 16 * c.serv.toNat))

/-- SCRATCHPAD_WRITEBACK (R74): the oldest corrected word is written back. -/
def execScratchpadWriteback (core : Nat) (s : State) : Host.Outcome State Fault Refusal :=
  .next (s.modCore core (fun c => match c.wback with
    | [] => c
    | w :: ws => { c with wback := ws, bad := tset d0 c.bad w 0 }))

/-! ### CORE_SLOT (R92, R102) -/

/-- Apply a write of CORE_SLOTi. -/
def slotWrite (c : Core) (i : Nat) (v : Nat) : Core :=
  let x := c.slot i
  let valid := bitOf v 63
  let ctx := bitsOf v 48 10
  let w := max 1 (bitsOf v 40 4)
  let len := min 64 (max 1 (bitsOf v 16 7))
  let taken := valid && (List.range 32).any (fun j => j != i && ((c.slot j).valid || (c.slot j).drain) && (c.slot j).ctx.toNat == ctx)
  if i = 0 || ctx = 0 || taken || (ctx != x.ctx.toNat && (!valid || x.valid || x.drain)) then c
  else
    let busy := (List.range 4).any (fun e => c.queue e i != []) || c.running.any (fun r => r.slot == i)
    let c := c.setSlot i { valid := valid, drain := !valid && busy, ctx := BitVec.ofNat 10 ctx, weight := BitVec.ofNat 4 w, wlen := BitVec.ofNat 7 len,
                           wbase := BitVec.ofNat 6 (bitsOf v 0 6) }
    if valid then { c with credit := (List.range 4).foldl (fun t e => tset dN t (e * 32 + i) w) c.credit } else c

/-- CORE_SLOT (R92). -/
def execCoreSlot (who : Party) (core i : Nat) (value : BitVec 64) (s : State) : Host.Outcome State Fault Refusal :=
  .next (gated s who .admin (fun s => s.modCore core (fun c => slotWrite c i value.toNat)))

end Sys2Proof.Machine
end

