-- ==== Sys2Proof/Machine/Rings.lean ====
section
/-! DEFINITION. The rings of a context: enabling and disabling, intake, index words, the rate limit (R292 to R299). -/

namespace Sys2Proof.Machine

open Sys2Proof

/-! ### CTX_RBASEk (R294, R314) -/

/-- Bytes of a record of ring `k` (R292). -/
def recBytes (k : Nat) : Nat := if k = 5 then 32 else 64

/-- A region lies in the context's partition ranges or in a DMA window. -/
def regionAllowed (s : State) (l : List Sect) (c a n : Nat) : Bool :=
  if spaceOf a == .host then (windowOf s l a n).isSome else inRanges s l c a n

/-- The conditions of R294 under which a write of EN 1 is ignored. -/
def ringBad (s : State) (c k : Nat) (r : Ring) : Bool :=
  let l := s.weave.cur.sects
  !regionAllowed s l c r.addr (r.n * recBytes k) || !regionAllowed s l c r.pair 16 || (k == 4 && (s.ctx c).kind == 0) ||
    (devFault s r.pair 16).isSome

/-- The ring intake comes to poll a control word: Tally 0x0A6 in the hub's ring (R270). -/
def notePolled (s : State) (c a : Nat) : State := post s uHub c 0x0A6 (bitsOf a 3 43)

/-- Start a ring: it takes the value of its own word as its index and observes the other (R294); log 22. -/
def ringStart (s : State) (c k : Nat) : State :=
  let r := (s.ctx c).ring k
  if ringBad s c k r then s.modCtx c (fun x => { x with ringErr := x.ringErr ||| BitVec.ofNat 6 (2 ^ k) })
  else
    let own : BitVec 32 := BitVec.ofNat 32 (devWord s (r.ownWord k)).toNat
    let how := watchHow s (r.watched k)
    let w := devWord s (r.watched k)
    let s := devTouch s { ctx := c } r.pair 16
    let s := s.modCtx c (fun x => x.modRing k (fun r =>
      { r with en := true, own := own, other := own, written := own, deferred := none, retry := false, how := how }))
    takeIndex (if how = .polled then notePolled s c (r.watched k) else s) c k w

/-- Bit `k` cleared. -/
def clearBit6 (x : BitVec 6) (k : Nat) : BitVec 6 := x &&& ~~~(BitVec.ofNat 6 (2 ^ k))

/-- A write of CTX_RBASEk (R294, R314). BASE and LOG2N of an enabled ring stay. -/
def rbaseWrite (s : State) (c k : Nat) (v : BitVec 64) : State :=
  let r := (s.ctx c).ring k
  let en := bitOf v.toNat 63
  if r.en then
    (if en then s
     else s.modCtx c (fun x => { (x.modRing k (fun r => { r with en := false, deferred := none })) with ringErr := clearBit6 x.ringErr k }))
  else
    let s := s.modCtx c (fun x => x.modRing k (fun r =>
      { r with log2n := BitVec.ofNat 5 (min 16 (max 4 (bitsOf v.toNat 56 5))), base := BitVec.ofNat 42 (bitsOf v.toNat 6 42) }))
    if en then ringStart s c k else s.modCtx c (fun x => { x with ringErr := clearBit6 x.ringErr k })

/-- RING_ENABLE (R294): a write of CTX_RBASEk. -/
def execRingEnable (who : Party) (c k : Nat) (value : BitVec 64) (s : State) : Host.Outcome State Fault Refusal :=
  .next (gated s who (.ctx c) (fun s => rbaseWrite s c k value))

/-- RING_DISABLE (R294): a write of CTX_RBASEk. -/
def execRingDisable (who : Party) (c k : Nat) (value : BitVec 64) (s : State) : Host.Outcome State Fault Refusal :=
  .next (gated s who (.ctx c) (fun s => rbaseWrite s c k value))

/-! ### Intake (R295) -/

/-- The completion of a record read with an uncorrectable word (R295, R406). -/
def badRecord (s : State) (c k a : Nat) : State :=
  report s c (compBytes s stEcc 0 0 0x3E1 0 c ((s.ctx c).ring k).own 0 (a % 2 ^ 32) 0)

/-- Where a record goes that has been read from ring `k`. -/
def placeRecord (s : State) (k : Nat) (r : Rec) : State :=
  match k with
  | 0 => s.modCtx r.ctx (fun x => { x with intake := x.intake ++ [r] })
  | 1 => s.modIbx (bitsOf (fld r.bytes 4 1) 0 3) (fun x => { x with arrived := x.arrived ++ [r] })
  | 2 => s.modCe (bitsOf (fld r.bytes 4 1) 0 3) (fun x => { x with queue := x.queue ++ [r] })
  | 3 => s.modCtx r.ctx (fun x => { x with loader := x.loader ++ [r] })
  | _ => s.modCtx r.ctx (fun x => { x with reqs := x.reqs ++ [r] })

/-- Records in an Ibex die's queue: arrived, or accepted and not yet fully dispatched (R135). -/
def ibexHolds (x : Ibex) : List Rec := x.arrived ++ (x.batches.filter (fun b => b.dispatched < b.entries.length)).map (·.rec')

/-- Whether the consumer of a ring does not take the next record, given its bytes, now: a die holds 64 records of the context (R90); the
record's Ibex die holds 16 batches of the context, or 64 in all (R141). -/
def intakeFull (s : State) (c k : Nat) (b : List Byte) : Bool :=
  match k with
  | 0 => (List.range 8).any (fun d => 64 ≤ (tget dL s.dieHeld (heldKey d c)).length)
  | 1 =>
    let h := ibexHolds (s.ibx (bitsOf (fld b 4 1) 0 3))
    64 ≤ h.length || 16 ≤ (h.filter (fun r => r.ctx == c)).length
  | _ => false

/-- Advance the own index of a ring. -/
def ownNext (s : State) (c k : Nat) : State := s.modCtx c (fun x => x.modRing k (fun r => { r with own := r.own + 1 }))

/-- Read the next record of a ring (R295). -/
def readRing (s : State) (c k : Nat) : State :=
  if k ≥ 5 || (3 ≤ k && !fwServes s c) || !ringRuns s c k || (s.ctx c).state != 1 || ctxFenced s c then s
  else
    let r := (s.ctx c).ring k
    if r.own = r.other then s
    else
      let a := r.addr + (r.own.toNat % r.n) * 64
      match devFault s a 64 with
      | some .link => ringError s c k 0 true
      | some (.ecc w) => ownNext (badRecord (devTouch s { ctx := c } a 64) c k w) c k
      | none =>
        let rec' : Rec := { ctx := c, seq := r.own, bytes := devRead s a 64 }
        if intakeFull s c k rec'.bytes then s else ownNext (placeRecord (devTouch s { ctx := c } a 64) k rec') c k

/-- RING_INTAKE_READ (R295). -/
def execRingIntakeRead (c k : Nat) (s : State) : Host.Outcome State Fault Refusal := .next (readRing s c k)

/-- REQUEST (R301): a request record is read from the request ring of a serving context. -/
def execRequest (c : Nat) (s : State) : Host.Outcome State Fault Refusal := .next (readRing s c 4)

/-! ### Index words (R296) and the rate limit (R298) -/

/-- CONSUMER_INDEX_WRITE (R296): an index that has advanced is written; a write that fails is repeated. -/
def execConsumerIndexWrite (c k : Nat) (s : State) : Host.Outcome State Fault Refusal :=
  let r := (s.ctx c).ring k
  let a := r.ownWord k
  if k ≥ 5 || r.own = r.written || (s.ctx c).state = 0 || (devWrFault s a 8).isSome then .next s
  else .next ((devWrite s { ctx := c } a (natLE 8 r.own.toNat)).modCtx c (fun x => x.modRing k (fun r => { r with written := r.own })))

/-- Take the deferred changes of a context's rings, as many as the limit allows. -/
def takeDeferred (s : State) (c : Nat) : State :=
  (List.range 5).foldl (fun s k =>
    match ((s.ctx c).ring k).deferred with
    | none => s
    | some w =>
      if (s.ctx c).taken < (limitsOf s s.weave.cur.sects).ring then takeIndex (s.modCtx c (fun x => { x with taken := x.taken + 1 })) c k w else s) s

/-- The millisecond of device time. -/
def msOf (s : State) : Nat := s.time.toNat / 1000000

/-- RING_RATE_DEFER (R298): at the start of the next µs a deferral counts in THROTTLE, Tally 0x0B1 is written at most once per ms, and
the deferred changes are taken. -/
def execRingRateDefer (c : Nat) (s : State) : Host.Outcome State Fault Refusal :=
  let x := s.ctx c
  if !anyDeferred x || usOf s ≤ x.takenUs then .next s
  else
    let s := s.modCtx c (fun x => { x with ctr := ctrAddField x.ctr 0x0E8 0 32 1, takenUs := usOf s, taken := 0 })
    let s := if x.lastB1 = some (msOf s) then s
      else (post s uHub c 0x0B1 (bitsOf (tget d0 (s.ctx c).ctr 0x0E8).toNat 0 32)).modCtx c (fun x => { x with lastB1 := some (msOf s) })
    .next (takeDeferred s c)

/-! ### Watching again after a host port changes (R270, R317, R325) -/

/-- A word watched through its line whose window another port now serves, or none in CXL mode. -/
def lineGone (old s : State) (how : Watch) (a : Nat) : Bool :=
  how = .cached && (hostPort old old.weave.cur.sects a 8 != hostPort s s.weave.cur.sects a 8 ||
    (match hostPort s s.weave.cur.sects a 8 with | some p => (s.hp p).mode != 1 || hurdled s 3 p | none => true))

/-- A cached WAIT whose line is gone. -/
def unwatched (old s : State) (w : Waiting) : Bool := lineGone old s w.how (sigAddr w.rec'.bytes)

/-- A ring's word whose line is gone is watched anew; one that comes to be polled is recorded (R270). -/
def rewatchRing (s : State) (c k : Nat) : State :=
  let a := ((s.ctx c).ring k).watched k
  let how := watchHow s a
  let s := s.modCtx c (fun x => x.modRing k (fun r => { r with how := how }))
  if how = .polled then notePolled s c a else s

/-- Watch again, under R269, the WAITs and ring words whose host port no longer serves them as before: a word that comes to be polled is
recorded, and a WAIT whose word can be reached is evaluated. -/
def rewatch (old s : State) : State :=
  let hit := s.cores.flatMap (fun c => (c.2.waits.filter (unwatched old s)).map (fun w => (c.1, w)))
  let s' := { s with cores := s.cores.map (fun c => (c.1, { c.2 with waits := c.2.waits.map (fun w =>
    if unwatched old s w then { w with how := watchHow s (sigAddr w.rec'.bytes) } else w) })) }
  let s' := hit.foldl (fun s x =>
    let a := sigAddr x.2.rec'.bytes
    if watchHow s a = .polled then post s x.1 x.2.rec'.ctx 0x0A6 (bitsOf a 3 43) else s) s'
  let lines := (hit.map (fun x => sigAddr x.2.rec'.bytes)).filter (fun a => hostReach s' s'.weave.cur.sects a 8)
  let s' := reevaluate s' (fun w => lines.contains (sigAddr w.rec'.bytes))
  (ringsWatching s' (fun r a => lineGone old s r.how a)).foldl (fun s x => rewatchRing s x.1 x.2) s'

end Sys2Proof.Machine
end

