-- ==== Sys2Proof/Machine/Collectives.lean ====
section
/-! DEFINITION. The collective engines: records, landing areas, the reduction, stragglers and the journal (13). -/

namespace Sys2Proof.Machine

open Sys2Proof

/-! ### Records (R248, R249) -/

structure CRec where
  op     : Nat
  accin  : Bool
  norm   : Bool
  replay : Bool
  spol   : Nat
  axis   : Nat
  plan   : Nat
  step   : Nat
  dfmt   : Nat
  cfmt   : Nat
  nslot  : Nat
  nidx   : Nat
  src    : Nat
  dtd    : Nat
  dst    : Nat
  land   : Nat
  dead   : Nat
  npart  : Nat
deriving DecidableEq, Repr, Inhabited

def crecOf (b : List Byte) : CRec :=
  let a (o : Nat) := bitsOf (fld b o 8) 0 48
  { op := fld b 0 1, accin := bitOf (fld b 1 1) 5, norm := bitOf (fld b 1 1) 3, replay := bitOf (fld b 1 1) 2, spol := bitsOf (fld b 1 1) 0 2,
    axis := bitsOf (fld b 5 1) 0 2, plan := fld b 6 2, step := fld b 8 4, dfmt := bitsOf (fld b 12 1) 3 3, cfmt := bitsOf (fld b 12 1) 0 3,
    nslot := bitsOf (fld b 13 1) 0 7, nidx := bitsOf (fld b 14 2) 0 6, src := a 16, dtd := a 24, dst := a 32, land := a 40, dead := fld b 48 8, npart := a 56 }

/-- REDUCE and ALLREDUCE: the opcodes that sum contributions. -/
def CRec.sums (c : CRec) : Bool := c.op == 0x60 || c.op == 0x62

def crecGroups (c : CRec) : List Group :=
  let on (b : Bool) (m : Nat) : Nat := if b then m else 0
  let ad := 2 ^ 48 - 1
  [gAll 0 1, (1, 1, if c.sums then 0x3F else 0x10), gAll 2 2, (4, 1, 7), (5, 1, 3), gAll 6 2, gAll 8 4, (12, 1, on (c.sums || c.op == 0x64) 0x3F),
   (13, 1, on (c.op == 0x65) 0x7F), (14, 2, on (c.sums && c.norm) 0x3F), (16, 8, on c.sums ad), (24, 8, on (c.op != 0x65) ad),
   (32, 8, on ([0x61, 0x62, 0x63, 0x65].contains c.op) ad), gAddr 40, (48, 8, on (c.op != 0x64) (2 ^ 64 - 1)),
   (56, 8, on ((c.sums && c.norm) || c.op == 0x65) ad)]

/-- Check 1 of R265 on the record alone. -/
def crecFail (b : List Byte) : Option Nat :=
  let c := crecOf b
  if !(0x60 ≤ c.op && c.op ≤ 0x65) then some 0 else
  firstFail (reservedFails (crecGroups c) 0 64 b ++ fails [(1, c.spol == 3), (12, 1 < c.dfmt || 1 < c.cfmt), (13, c.op == 0x65 && (c.nslot < 1 || 64 < c.nslot)),
    (16, c.src % 64 != 0), (24, c.dtd % 64 != 0), (32, c.dst % 64 != 0), (40, c.land % 4096 != 0), (48, c.sums && c.replay && c.dead % 64 != 0), (56, c.npart % 64 != 0)])

/-! ### Groups (R245, R246) -/

/-- The group of a device in a plan along an axis, as ranks in increasing order; none when the device is no member. -/
def groupOf (l : List Sect) (plan axis : Nat) : Option (List Nat) :=
  ((plansOf l).find? (fun p => p.1 == plan)).bind (fun p =>
    let b := p.2
    let dp := fld b 0 1
    let ls := fld b 1 1
    let ranks := ((b.drop 4).take (fld b 3 1)).map (·.toNat)
    match ranks.findIdx? (· == ownRank l) with
    | none => none
    | some i =>
      let at' (i : Nat) : Nat × Nat × Nat := (i % ls, i / ls % dp, i / (ls * dp))
      let me := at' i
      let same (k : Nat) : Bool :=
        let x := at' k
        match axis with
        | 0 => true
        | 1 => x.1 == me.1 && x.2.2 == me.2.2
        | 2 => x.2.1 == me.2.1 && x.2.2 == me.2.2
        | _ => x.1 == me.1 && x.2.1 == me.2.1
      let g := (ranks.zipIdx.filter (fun x => same x.2)).map (·.1)
      some (g.mergeSort (fun a b => a ≤ b)))

/-! ### Blocks (R217, R250) -/

/-- Shard coordinate of a shard number. -/
def Dtd.coord (t : Dtd) (sh : Nat) : List Nat :=
  let s (d : Nat) := t.sh.getD d 1
  [sh % s 0, sh / s 0 % s 1, sh / (s 0 * s 1) % s 2, sh / (s 0 * s 1 * s 2)]

/-- Global elements of a shard, in increasing global element index. -/
def Dtd.elems (t : Dtd) (sh : Nat) : List (List Nat) :=
  let k := t.coord sh
  let lo (d : Nat) := k.getD d 0 * t.blk d
  let n (d : Nat) := min (t.blk d) (t.g.getD d 1 - lo d)
  (walk [n 0, n 1, n 2, n 3]).map (fun p => [p.getD 0 0 + lo 0, p.getD 1 0 + lo 1, p.getD 2 0 + lo 2, p.getD 3 0 + lo 3])

/-- The shard that a rank holds, when its block is not empty. -/
def Dtd.shardAt (l : List Sect) (t : Dtd) (rank : Nat) : Option Nat :=
  (List.range t.shards).find? (fun sh => t.rankOf l sh == some rank && (t.elems sh) != [])

/-- Ranks that hold a block which is not empty. -/
def Dtd.holders (l : List Sect) (t : Dtd) : List (Option Nat) := ((List.range t.shards).filter (fun sh => (t.elems sh) != [])).map (t.rankOf l)

/-- Place of an element within its slot, in elements (R250). -/
def Dtd.packAt (t : Dtd) (i : List Nat) : Nat :=
  let c (d : Nat) := i.getD d 0 % t.blk d
  c 0 + t.blk 0 * (c 1 + t.blk 1 * (c 2 + t.blk 2 * c 3))

def Dtd.volume (t : Dtd) : Nat := t.blk 0 * t.blk 1 * t.blk 2 * t.blk 3
def Dtd.dense (t : Dtd) : Nat := t.g.foldl (· * ·) 1

/-- SLOTLEN of R250. -/
def slotLen (t : Dtd) (size : Nat) : Nat := roundup (t.volume * size) 64

/-- Words of a landing area (R250). -/
def arrWord (land p j : Nat) : Nat := land + 8 * (33 * p + j)
def gatWord (land j : Nat) : Nat := land + 0x220 + 8 * j
def missWord (land : Nat) : Nat := land + 0x210
def slotAt (land n slen p j : Nat) : Nat := land + 0x400 + (p * n + j) * slen

/-- Span from the least to the greatest address of a shard's block. -/
def blockSpan (t : Dtd) (sh : Nat) : Int × Nat :=
  match (t.elems sh).map t.addrOf with
  | [] => (t.lbase, 0)
  | a :: as => let lo := as.foldl min a; ((lo : Int), as.foldl max a - lo + fmtSize t.fmt)

/-! ### What a record works on -/

/-- A record with its plan resolved: the sections its engine holds, its group, this member's index, and its descriptors. -/
structure CW where
  l   : List Sect
  r   : Rec
  c   : CRec
  g   : List Nat
  j   : Nat
  t   : Dtd
  t2  : Dtd
deriving Inhabited

def ceSects (s : State) (e : Nat) : List Sect := sectsOf s (.oport (4 * e))

def cwOf (s : State) (e : Nat) (r : Rec) : CW :=
  let l := ceSects s e
  let c := crecOf r.bytes
  let g := (groupOf l c.plan c.axis).getD []
  { l := l, r := r, c := c, g := g, j := g.findIdx (· == ownRank l), t := dtdOf (devRead s c.dtd 64), t2 := dtdOf (devRead s c.dst 64) }

/-- Bytes of the landing area a record uses (R249, R250). -/
def CW.landLen (w : CW) : Nat :=
  match w.c.op with
  | 0x61 => 0x400
  | 0x65 => 0x400
  | 0x63 => 0x400 + slotLen w.t2 (fmtSize w.t2.fmt)
  | _ => 0x400 + 2 * w.g.length * slotLen w.t (fmtSize w.c.cfmt)

/-- The shard this device holds. -/
def CW.own (w : CW) : Option Nat := w.t.shardAt w.l (ownRank w.l)
def CW.own2 (w : CW) : Option Nat := w.t2.shardAt w.l (ownRank w.l)

def ownSpanOf (t : Dtd) (o : Option Nat) : List (Int × Nat) := match o with | some sh => [blockSpan t sh] | none => []

/-- Dense size: the whole global shape. -/
def CW.denseLen (w : CW) (f : Nat) : Nat := w.t.dense * fmtSize f

/-- Regions a record names, with the offset of their field and whether it writes them: SRC, DST, landing, NPART, and the block spans. -/
def CW.regions (w : CW) : List (Nat × Bool × (Int × Nat)) :=
  let c := w.c
  let sp (a n : Nat) : Int × Nat := ((a : Int), n)
  let sum := c.sums
  (if sum then [(16, false, sp c.src (w.denseLen c.cfmt))] else []) ++
  (match c.op with
   | 0x61 => [(32, true, sp c.dst (w.denseLen w.t.fmt))]
   | 0x62 => [(32, true, sp c.dst (w.denseLen c.dfmt))]
   | 0x63 => [(32, false, sp c.dst 64)]
   | 0x65 => [(32, true, sp c.dst 16)]
   | _ => []) ++
  [(40, true, sp c.land w.landLen)] ++
  (if sum && c.replay then [(48, false, sp c.dead 16)] else []) ++
  (if sum && c.norm then [(56, true, sp c.npart 1024)] else if c.op = 0x65 then [(56, true, sp c.npart (1024 + 8 * w.g.length))] else [])

def CW.blocks (w : CW) : List (Nat × Bool × (Int × Nat)) :=
  (if w.c.op = 0x65 then [] else (ownSpanOf w.t w.own).map (fun x => (24, w.c.op != 0x61 && w.c.op != 0x63, x))) ++
  (if w.c.op = 0x63 then (ownSpanOf w.t2 w.own2).map (fun x => (32, true, x)) else [])

/-- The byte spans a record reads and those it writes on this device, for the check of R260: the slots of its landing area, block spans and dense
tensors, and the single words it writes; arrival words are in neither (log 87). -/
def CW.spans (w : CW) : List (Int × Nat) × List (Int × Nat) :=
  let c := w.c
  let sp (a n : Nat) : Int × Nat := ((a : Int), n)
  let own := ownSpanOf w.t w.own
  let slots (p : Nat) : Int × Nat := sp (slotAt c.land w.g.length (slotLen w.t (fmtSize c.cfmt)) p 0) (w.g.length * slotLen w.t (fmtSize c.cfmt))
  match c.op with
  | 0x61 => (own, [sp c.dst (w.denseLen w.t.fmt)])
  | 0x63 => (own, sp (c.land + 0x400) (slotLen w.t2 (fmtSize w.t2.fmt)) :: ownSpanOf w.t2 w.own2)
  | 0x64 => ([sp (missWord c.land) 16, slots (c.step % 2)], own)
  | 0x65 => ([sp (c.npart + 512 * (c.step % 2)) (8 * c.nslot)], [sp (c.npart + 1024) (8 * w.g.length), sp (c.dst + 8 * (c.step % 2)) 8])
  | _ =>
    ([sp c.src (w.denseLen c.cfmt), sp (missWord c.land) 16, slots (c.step % 2)] ++ (if c.spol = 2 && !c.replay then [] else [slots (1 - c.step % 2)]) ++
        (if c.replay then [sp c.dead 16] else []) ++ own,
     own ++ [slots (c.step % 2)] ++ (if c.replay then [] else [sp (missWord c.land) 16]) ++
        (if c.norm then [sp (c.npart + 512 * (c.step % 2) + 8 * c.nidx) 8] else []) ++ (if c.op = 0x62 then [sp c.dst (w.denseLen c.dfmt)] else []))

/-- A region meets an earlier one of the list, or a block span: the offset of the later. -/
def aliasFail (blocks : List (Int × Nat)) : List (Nat × Bool × (Int × Nat)) → List (Nat × Bool × (Int × Nat)) → Option Nat
  | _, [] => none
  | seen, x :: xs =>
    if seen.any (fun y => spanMeets y.2.2 x.2.2) || blocks.any (spanMeets x.2.2) then some x.1 else aliasFail blocks (seen ++ [x]) xs

/-- The checks of R265, in order; the descriptors are read once their regions are the context's (R407). The regions of row 6 are SRC, DST, landing and
NPART. -/
def collCheck (s : State) (e : Nat) (r : Rec) : Option (Refuse × Option MemFault) :=
  let ref (x : Option Refuse) : Option (Refuse × Option MemFault) := x.map (fun y => (y, none))
  let l := ceSects s e
  let c := crecOf r.bytes
  match crecFail r.bytes with
  | some o => some ((stDescriptor, o), none)
  | none =>
    let needT := c.op != 0x65
    let bad (a : Nat) : Bool := devPriv s l r.ctx a 64 false || Config.hostBase ≤ a
    let f1 := if needT && !bad c.dtd then devFault s c.dtd 64 else none
    let f2 := if c.op == 0x63 && !bad c.dst then devFault s c.dst 64 else none
    match f1.or f2 with
    | some f => some ((f.status, f.detail), some f)
    | none =>
      let w := cwOf s e r
      let db := devRead s c.dtd 64
      let db2 := devRead s c.dst 64
      let tOk := needT && !bad c.dtd
      let t2Ok := c.op == 0x63 && !bad c.dst
      let late (t : Dtd) : Bool := t.mapped && (match planRanks l t.plan with | some q => q.length < t.first + t.shards | none => false)
      let outside (t : Dtd) : Bool := (t.holders l).any (fun x => match x with | some k => !w.g.contains k | none => true)
      ref (firstRefuse [
        chk (tOk && (!dtdOk db || ((c.sums || c.op == 0x64) && w.t.fmt != c.dfmt))) stDescriptor 24, chk (t2Ok && !dtdOk db2) stDescriptor 32,
        chk (planRanks l c.plan).isNone stGeneration 6,
        chk (tOk && w.t.mapped && (planRanks l w.t.plan).isNone) stGeneration 24, chk (t2Ok && w.t2.mapped && (planRanks l w.t2.plan).isNone) stGeneration 32,
        chk (groupOf l c.plan c.axis).isNone stDescriptor 6, chk (tOk && (late w.t || outside w.t)) stDescriptor 24,
        chk (t2Ok && (late w.t2 || outside w.t2 || w.t.fmt != w.t2.fmt || w.t.ndim != w.t2.ndim || w.t.g != w.t2.g)) stDescriptor 32,
        chk (needT && bad c.dtd) stPrivilege 24,
        (w.regions ++ w.blocks).findSome? (fun x => chk (decide (x.2.2.1 < 0) || devPriv s l r.ctx x.2.2.1.toNat x.2.2.2 x.2.1 || Config.hostBase ≤ x.2.2.1.toNat) stPrivilege x.1),
        (w.regions ++ w.blocks).findSome? (fun x => chk (devBounds s x.2.2.1 x.2.2.2) stBounds x.1),
        (aliasFail (w.blocks.map (·.2.2)) [] (w.regions.filter (fun x => x.1 != 48))).map (fun o => (stAlias, o))])

/-! ### The journal (R257) -/

/-- An engine's accesses for a context: collective engine `e` lies on photonic die `e` (R194; log 29). -/
def ceBy (e ctx : Nat) : By := { ctx := ctx, die := some e }

/-- Write a journal entry and advance the head; with LEN 0 no journal is written. -/
def journal (s : State) (eng ctx step into land rank fate tag : Nat) : State :=
  let x := s.ctx ctx
  let len := x.jlen.toNat
  if len = 0 then s
  else
    let a := x.jbase.toNat * 32 + (x.jhead.toNat % len) * 32
    let e := natLE 4 step ++ natLE 4 into ++ natLE 8 land ++ natLE 1 rank ++ natLE 1 fate ++ natLE 2 tag ++ natLE 4 0 ++ natLE 8 s.time.toNat
    (devWrite s (ceBy eng ctx) a e).modCtx ctx (fun x => { x with jhead := x.jhead + 1, jwrap := x.jwrap || len ≤ (x.jhead - x.jtail).toNat })

/-! ### Landing areas (R256) -/

def findArea (s : State) (ctx land : Nat) : Option Area := s.areas.find? (fun a => a.land == land && a.ctx == ctx)

def putArea (s : State) (a : Area) : State := { s with areas := s.areas.map (fun x => if x.land = a.land && x.ctx = a.ctx then a else x) }

/-- The area that gives way to a new one: the longest-closed. -/
def evictee (s : State) : Option Area :=
  (s.areas.filter (·.closed)).foldl (fun m a => match m with | some b => if a.order < b.order then some a else m | none => some a) none

/-- Whether a place is there for a record's area. -/
def areaRoom (s : State) (ctx land : Nat) : Bool := (findArea s ctx land).isSome || s.areas.length < 256 || (evictee s).isSome

/-- Hold a landing area for a record that starts. A closed one opens again; contributions of the steps up to the one settled stay late (R263). A step that
ended by a WAIT timeout waits for its contributions again when its record is issued once more (R256). -/
def holdArea (s : State) (ctx land step : Nat) : State :=
  match findArea s ctx land with
  | some a => putArea s { a with closed := false, timed := if a.timed.any (fun t => t.1 == step) then none else a.timed }
  | none =>
    let keep := if s.areas.length < 256 then s.areas else match evictee s with | some a => s.areas.erase a | none => s.areas
    { s with areas := keep ++ [{ land := land, ctx := ctx }] }

/-- Count fates on an engine (R267). -/
def countFates (s : State) (e missed carried dropped : Nat) : State :=
  s.modCe e (fun x => { x with missed := stick x.missed missed, carried := stick x.carried carried, dropped := stick x.dropped dropped })

/-- The engine whose port a landing area's arrivals come by is the one that serves its records; fates at arrival count on engine 0's port
group when none is in flight (log 29). -/
def areaEngine (s : State) (a : Area) : Nat :=
  ((List.range 8).find? (fun e => (s.ce e).inflight.any (fun c => c.rec'.ctx == a.ctx && (crecOf c.rec'.bytes).land == a.land))).getD 0

/-- The arrival signal of a contribution at a held area (R256, R263): its status, and whether its store is applied. -/
def arrivalFate (a : Area) (p j v : Nat) : Status × Bool :=
  let step := v - 1
  if v = 0 || step % 2 != p then (stDone, true)
  else if a.timed.any (fun t => t.1 == step && t.2.testBit j) then (stDropped, false)
  else
    match a.summed with
    | none => (stDone, true)
    | some m =>
      if m < step then (stDone, true)
      else if step < m then (stDropped, false)
      else if !a.absent.testBit j then (stDone, true)
      else if a.spol = 1 then (stLateAdded, true)
      else (stDropped, false)

/-- A replay waits on an area: what arrives there is stored, and no fate is decided (R258). -/
def replaying (s : State) (a : Area) : Bool :=
  s.ces.any (fun x => x.2.inflight.any (fun k =>
    let c := crecOf k.rec'.bytes
    k.rec'.ctx == a.ctx && c.land == a.land && c.sums && c.replay && k.phase == .waiting))

/-- A signal from a peer (R256, R275): an arrival word of a held area, or an ordinary word. -/
def arriveSignal (s : State) (ctx src a sop : Nat) (value : BitVec 64) : Status × State :=
  match s.areas.find? (fun x => x.ctx == ctx && x.land ≤ a && a < x.land + 0x210 && (a - x.land) % 8 == 0) with
  | some ar =>
    let k := (a - ar.land) / 8
    let (st, ok) := if sop = 0 && !replaying s ar then arrivalFate ar (k / 33) (k % 33) value.toNat else (stDone, true)
    let e := areaEngine s ar
    let s := if st = stDropped then countFates (journal s e ctx (value.toNat - 1) 0xFFFFFFFF ar.land src 2 ar.tag) e 0 0 1 else s
    if ok then
      let (x, s) := applySignal s { ctx := ctx } a sop value
      (if st = stDone || x.1 != stDone then x.1 else st, s)
    else (st, s)
  | none => let (x, s) := applySignal s { ctx := ctx } a sop value; (x.1, s)

/-! ### Sending -/

/-- Merge element writes at adjacent places into runs. -/
def runsOf (l : List (Nat × List Byte)) : List (Nat × List Byte) :=
  (l.foldl (fun acc x => match acc with
    | (a, bs) :: rest => if a + bs.length = x.1 then (a, bs ++ x.2) :: rest else x :: acc
    | [] => [x]) []).reverse

/-- Cut a run into packets of at most 256 bytes (R228). -/
def cutFrom : Nat → Nat × List Byte → List (Nat × List Byte)
  | 0, _ => []
  | n + 1, (a, bs) => if bs = [] then [] else (a, bs.take 256) :: cutFrom n (a + 256, bs.drop 256)

def packetsOf (l : List (Nat × List Byte)) : List (Nat × List Byte) := (runsOf l).flatMap (fun r => cutFrom (cdiv r.2.length 256) r)

/-- The unit of an engine's accesses: the optical port with its registers. -/
def ceUnit (e : Nat) : Nat := 0x440 + 4 * e

/-- Send WRITE packets to a member, the last with an ATTACHED store of `v` into a word; with nothing to send a SIGNAL packet goes alone
when `bare` asks for it. -/
def sendBlock (s : State) (e : Nat) (w : CW) (order rank word v : Nat) (data : List (Nat × List Byte)) (bare : Bool) : State :=
  let q : ReqArg := { unit := ceUnit e, owner := (e, order), ctx := w.r.ctx, rank := rank, typ := 0x01, addr := 0, par := genPar s (.oport (4 * e)) }
  let sig : BitVec 64 × BitVec 64 := (BitVec.ofNat 64 word, BitVec.ofNat 64 v)
  let ps := packetsOf data
  if ps = [] then (if bare then request s w.l { q with typ := 0x04, addr := word, sig := some sig } else s)
  else (ps.zipIdx).foldl (fun s x => request s w.l { q with addr := x.1.1, bytes := x.1.2, sig := if x.2 + 1 = ps.length then some sig else none }) s

/-- Members that hold blocks, other than this one: group index and rank. -/
def CW.peers (w : CW) : List (Nat × Nat) := (w.g.zipIdx.filter (fun x => x.1 != ownRank w.l)).map (fun x => (x.2, x.1))

/-- The value STEP + 1 of an arrival word. -/
def CW.mark (w : CW) : Nat := w.c.step + 1

/-- An arrival word holds STEP + 1. -/
def wordIs (s : State) (a v : Nat) : Bool := (devWord s a).toNat == v

/-! ### Starting a record (R251, R254, R255, R260, R261) -/

def putColl (s : State) (e : Nat) (x : Coll) : State :=
  s.modCe e (fun c => { c with inflight := c.inflight.map (fun y => if y.order = x.order then x else y) })

def getColl (s : State) (e order : Nat) : Option Coll := (s.ce e).inflight.find? (fun x => x.order == order)

/-- Change a record in flight. -/
def modColl (s : State) (e order : Nat) (f : Coll → Coll) : State :=
  s.modCe e (fun c => { c with inflight := c.inflight.map (fun y => if y.order = order then f y else y) })

/-- End a record's own work with a status more. -/
def finishColl (s : State) (e order : Nat) (sts : List Status) : State := modColl s e order (fun x => { x with phase := .finished, status := x.status ++ sts })

/-- A memory fault ends a record (R266); the address of the first uncorrectable word is kept for DETAIL (R88). -/
def breakColl (s : State) (e order : Nat) (f : MemFault) : State :=
  finishColl (match f with
    | .ecc a => modColl s e order (fun x => { x with ecc := x.ecc.or (some (a / 8 * 8)) })
    | .link => s) e order [f.status]

/-- A record still works: it has not ended with a fault. -/
def collOpen (s : State) (e order : Nat) : Bool := (getColl s e order).any (fun x => x.phase != .finished)

/-- Reads of elements of one size, as accesses of 64-byte blocks. -/
def elemRds (l : List Nat) (size : Nat) : List Rd := l.foldl (fun rs a => joinRd rs ⟨none, a, size⟩) []

/-- A record makes its reads, or ends with the fault of the first that fails; `k` goes on. -/
def reading (s : State) (e order : Nat) (w : CW) (rds : List Rd) (k : State → State) : State :=
  let t := rdsTouch (ceBy e w.r.ctx) s rds
  match rdsFault s rds with
  | some f => breakColl t e order f
  | none => k t

/-- A record makes its writes, or ends with the fault of the first that cannot be made (R202), those before it made; `k` goes on. -/
def writing (s : State) (e order : Nat) (w : CW) (ws : List Wr) (k : State → State) : State :=
  let x := upToFault s ws
  let t := applyWrs (ceBy e w.r.ctx) s (coalesce x.1)
  match x.2 with
  | some f => breakColl t e order f
  | none => k t

/-- A write of bytes to device memory. -/
def memWr (a : Nat) (bs : List Byte) : Wr := { scratch := none, addr := a, bytes := bs }

/-- Bytes of the dense element with a global index. -/
def denseAt (t : Dtd) (base f : Nat) (i : List Nat) : Nat := base + t.index i * fmtSize f

/-- The contributions of REDUCE: what each member owns goes into its slot of that device (R251). -/
def sendContrib (s : State) (e order : Nat) (w : CW) : State :=
  let f := w.c.cfmt
  let p := w.c.step % 2
  w.peers.foldl (fun s k =>
    match w.t.shardAt w.l k.2 with
    | none => s
    | some sh =>
      if !collOpen s e order then s else
      let es := w.t.elems sh
      let base := slotAt w.c.land w.g.length (slotLen w.t (fmtSize f)) p w.j
      reading s e order w (elemRds (es.map (denseAt w.t w.c.src f)) (fmtSize f)) (fun s =>
        let data := es.map (fun i => (base + w.t.packAt i * fmtSize f, devRead s (denseAt w.t w.c.src f i) (fmtSize f)))
        sendBlock s e w order k.2 (arrWord w.c.land p w.j) w.mark data false)) s

/-- The gather: this device's block goes to every member's dense destination, here too (R254). -/
def sendGather (s : State) (e order : Nat) (w : CW) : State :=
  match w.own with
  | none => s
  | some sh =>
    let f := w.t.fmt
    let es := w.t.elems sh
    reading s e order w (elemRds (es.map (fun i => (w.t.addrOf i))) (fmtSize f)) (fun s =>
      let data := es.map (fun i => (denseAt w.t w.c.dst f i, devRead s (w.t.addrOf i) (fmtSize f)))
      writing s e order w (data.map (fun d => memWr d.1 d.2)) (fun s =>
        w.peers.foldl (fun s k => sendBlock s e w order k.2 (gatWord w.c.land w.j) w.mark data false) s))

/-- Every other member's block has arrived in the gather (R254). -/
def gathered (s : State) (w : CW) : Bool :=
  w.peers.all (fun k => (w.t.shardAt w.l k.2).isNone || wordIs s (gatWord w.c.land k.1) w.mark)

/-- Every arrival of PERMUTE is there (R261). -/
def permuted (s : State) (w : CW) : Bool := (List.range w.g.length).all (fun j => wordIs s (arrWord w.c.land 0 j) w.mark)

/-- Phase 1 of PERMUTE: every element of the old block goes to the image of its new owner (R261). -/
def sendPermute (s : State) (e order : Nat) (w : CW) : State :=
  if permuted s w then s
  else
    let f := w.t.fmt
    let mine := match w.own with | some sh => w.t.elems sh | none => []
    let image := w.c.land + 0x400
    reading s e order w (elemRds (mine.map (w.t.addrOf ·)) (fmtSize f)) (fun s =>
      let old := s
      let dataFor (rank : Nat) : List (Nat × List Byte) :=
        (mine.filter (fun i => w.t2.rankOf w.l (w.t2.shardOf i) == some rank)).map (fun i => (image + w.t2.packAt i * fmtSize f, devRead old (w.t.addrOf i) (fmtSize f)))
      writing s e order w ((dataFor (ownRank w.l)).map (fun d => memWr d.1 d.2) ++ [memWr (arrWord w.c.land 0 w.j) (natLE 8 w.mark)]) (fun s =>
        w.peers.foldl (fun s k => sendBlock s e w order k.2 (arrWord w.c.land 0 w.j) w.mark (dataFor k.2) true) s))

/-- The norm of NORMFIN: the sum of this device's partials, and how many slots were stale (R255). -/
def normSum (s : State) (c : CRec) : F32 × Nat :=
  (List.range c.nslot).foldl (fun (x : F32 × Nat) i =>
    let w := (devWord s (c.npart + 512 * (c.step % 2) + 8 * i)).toNat
    if w / 2 ^ 32 = c.step then (fadd x.1 (BitVec.ofNat 32 w), x.2) else (fadd x.1 0, x.2 + 1)) (0, 0)

/-- Steps 1 and 2 of NORMFIN. -/
def startNorm (s : State) (e order : Nat) (w : CW) : State :=
  let c := w.c
  let word := c.npart + 1024 + 8 * w.j
  reading s e order w ((List.range c.nslot).map (fun i => ⟨none, c.npart + 512 * (c.step % 2) + 8 * i, 8⟩)) (fun s =>
    let q := normSum s c
    let s := modColl s e order (fun x => { x with stale := q.2 })
    writing s e order w [memWr word (natLE 4 q.1.toNat), memWr (gatWord c.land w.j) (natLE 8 w.mark)] (fun s =>
      w.peers.foldl (fun s k => sendBlock s e w order k.2 (gatWord c.land w.j) w.mark [(word, natLE 4 q.1.toNat)] false) s))

/-- A bridge of the package network holds accesses of a record (R31): it goes no further meanwhile. -/
def collHeld (s : State) (e : Nat) (w : CW) : Bool :=
  (w.regions ++ w.blocks).any (fun x => bridgeHolds s (.oport (4 * e)) x.2.2.1.toNat x.2.2.2)

/-- A record touches a span that an earlier one writes (R260). -/
def waitsFor (s : State) (e : Nat) (r q : Rec) : Bool :=
  let a := (cwOf s e r).spans
  (cwOf s e q).spans.2.any (fun x => x.2 != 0 && (a.1 ++ a.2).any (fun y => y.2 != 0 && spanMeets x y))

/-- The next record of an engine with one of some opcodes that may start (R260): the first of its context, fewer than 16 in flight, no
span met that an earlier one writes, and a place for its area. -/
def startable (s : State) (e : Nat) (ops : Nat → Bool) : Option Rec :=
  let x := s.ce e
  x.queue.find? (fun r =>
    ops r.op && !ctxFenced s r.ctx && !unitFenced s 8 (4 * e) && (x.queue.find? (fun q => q.ctx == r.ctx)) == some r &&
    (x.inflight.filter (fun c => c.rec'.ctx == r.ctx)).length < 16 && areaRoom s r.ctx (crecOf r.bytes).land &&
    !x.inflight.any (fun c => waitsFor s e r c.rec') && !collHeld s e (cwOf s e r))

/-- Complete a record (R259). -/
def collReport (s : State) (e : Nat) (r : Rec) (st : Status) (count detail satnan : Nat) : State := reportRec s r st (0x3F0 + e) 0 count detail satnan

/-- DETAIL of a record's completion (R88, R255, R259): the word's address after FAULT_ECC, else the members missing, carried and dropped, or a NORMFIN's
stale slots. -/
def collDetail (x : Coll) (st : Status) : Nat :=
  if st = stEcc then x.ecc.getD 0 % 2 ^ 32
  else if x.rec'.op = 0x65 then 2 ^ 8 * min x.stale 255
  else x.missing % 64 + 2 ^ 8 * (x.carried % 64) + 2 ^ 16 * ((x.status.filter (· == stDropped)).length % 64)

/-- End a record in flight with statuses more than those it has met. -/
def endColl (s : State) (e : Nat) (x : Coll) (more : List Status) : State :=
  let s := s.modCe e (fun c => { c with inflight := c.inflight.filter (fun y => y.order != x.order) })
  let s := countSat s (uOport (4 * e)) x.rec'.ctx x.sat x.nan
  let st := worst (x.status ++ satStatus x.sat x.nan ++ more)
  collReport s e x.rec' st x.count (collDetail x st) (x.sat + x.nan)

/-- What arrivals and acknowledgements complete on an engine: gathers whose blocks are all there, and records finished with no access
outstanding. -/
def settleEngine (s : State) (e : Nat) : State :=
  let s := (s.ce e).inflight.foldl (fun s x =>
    if x.phase = .gathering && gathered s (cwOf s e x.rec') then finishColl s e x.order [] else s) s
  (s.ce e).inflight.foldl (fun s x => if x.phase = .finished && !waitingAccess s (ceUnit e) x.order then endColl s e x [] else s) s

def settleColls (s : State) : State := (List.range 8).foldl settleEngine s

/-- Members of MISS whose late contribution of the step of MSTEP has been held: its step, and their group indices (R253, R256). -/
def heldLate (s : State) (w : CW) : Nat × List Nat :=
  let miss := (devWord s (missWord w.c.land)).toNat
  let m := (devWord s (missWord w.c.land + 8)).toNat % 2 ^ 32
  (m, (List.range w.g.length).filter (fun j => miss.testBit j && wordIs s (arrWord w.c.land (m % 2) j) (m + 1)))

/-- Places of a member's elements in its slot of a step. -/
def slotPlaces (w : CW) (es : List (List Nat)) (step j : Nat) : List Nat :=
  es.map (fun i => slotAt w.c.land w.g.length (slotLen w.t (fmtSize w.c.cfmt)) (step % 2) j + w.t.packAt i * fmtSize w.c.cfmt)

/-- The values at some places, in CFMT. -/
def valuesAt (s : State) (w : CW) (l : List Nat) : List F32 := l.map (fun a => toF32 w.c.cfmt (leNat (devRead s a (fmtSize w.c.cfmt))))

/-- Results of a block in DFMT, as writes. -/
def blockWrs (w : CW) (es : List (List Nat)) (v : List F32) : List Wr :=
  (es.zip v).map (fun x => let r := encElem w.c.dfmt (dec32 x.2); { scratch := none, addr := w.t.addrOf x.1, bytes := r.bytes, sat := r.sat, nan := r.nan })

/-- A landing area closes at a step (R256, R262): contributions of that step and earlier ones are late from now on. -/
def closeArea (s : State) (w : CW) : State :=
  match findArea s w.r.ctx w.c.land with
  | some a =>
    putArea { s with hub2 := { s.hub2 with order := s.hub2.order + 1 } }
      { a with closed := true, order := s.hub2.order, tag := w.r.tag, summed := some (max w.c.step (a.summed.getD 0)), absent := 2 ^ 33 - 1, spol := 2, timed := none }
  | none => s

/-- SETTLE (R262): the carried contributions are stored into this device's block, and the area closes. -/
def runSettle (s : State) (e order : Nat) (w : CW) : State :=
  let c := w.c
  let held := heldLate s w
  let carried := if held.1 = c.step then held.2 else []
  match w.own with
  | none => finishColl (closeArea s w) e order []
  | some sh =>
    let es := w.t.elems sh
    reading s e order w (carried.flatMap (fun j => elemRds (slotPlaces w es c.step j) (fmtSize c.cfmt))) (fun s =>
      let vals := carried.map (fun j => valuesAt s w (slotPlaces w es c.step j))
      let ws := blockWrs w es (es.zipIdx.map (fun i => vals.foldl (fun v l => fadd v (l.getD i.2 0)) 0))
      writing s e order w ws (fun s =>
        let s := carried.foldl (fun s j => journal s e w.r.ctx c.step (c.step + 1) c.land (w.g.getD j 0) 3 w.r.tag) s
        let k := carried.length
        let s := countFates s e 0 k 0
        let s := if k = 0 then s else s.modCtx w.r.ctx (fun x => { x with ctr := ctrAddField x.ctr 0x198 0 32 k })
        let s := modColl s e order (fun x => { x with count := es.length, carried := k, sat := wrsSat ws, nan := wrsNan ws })
        finishColl (closeArea s w) e order []))

/-- Start a record of an engine: its checks, then its first work. -/
def startColl (s : State) (e : Nat) (ops : Nat → Bool) : State :=
  match startable s e ops with
  | none => s
  | some r =>
    let s := s.modCe e (fun c => { c with queue := c.queue.erase r })
    match collCheck s e r with
    | some (x, none) => collReport s e r x.1 0 x.2 0
    | some (x, some f) => collReport (match f with | .ecc a => devTouch s (ceBy e r.ctx) (a / 8 * 8) 8 | .link => s) e r x.1 0 x.2 0
    | none =>
      let w := cwOf s e r
      let order := s.hub2.order
      let ph : CePhase := if r.op = 0x61 then .gathering else .waiting
      let s := holdArea { s with hub2 := { s.hub2 with order := order + 1 } } r.ctx w.c.land w.c.step
      let s := s.modCe e (fun c => { c with inflight := c.inflight ++ [{ rec' := r, order := order, phase := ph }] })
      let s := match r.op with
        | 0x61 => sendGather s e order w
        | 0x63 => sendPermute s e order w
        | 0x64 => runSettle s e order w
        | 0x65 => startNorm s e order w
        | _ =>
          let s := sendContrib s e order w
          if w.own.isNone then
            (if !collOpen s e order then s else if r.op = 0x62 then modColl s e order (fun x => { x with phase := .gathering }) else finishColl s e order [])
          else s
      settleEngine s e

/-- REDUCE (R251); a record with an unknown OPCODE is refused here too. -/
def execReduce (e : Nat) (s : State) : Host.Outcome State Fault Refusal := .next (startColl s e (fun op => op = 0x60 || !(0x60 ≤ op && op ≤ 0x65)))
/-- ALLGATHER (R254). -/
def execAllgather (e : Nat) (s : State) : Host.Outcome State Fault Refusal := .next (startColl s e (fun op => op = 0x61))
/-- ALLREDUCE (R254). -/
def execAllreduce (e : Nat) (s : State) : Host.Outcome State Fault Refusal := .next (startColl s e (fun op => op = 0x62))
/-- PERMUTE (R261). -/
def execPermute (e : Nat) (s : State) : Host.Outcome State Fault Refusal := .next (startColl s e (fun op => op = 0x63))
/-- SETTLE (R262). -/
def execSettle (e : Nat) (s : State) : Host.Outcome State Fault Refusal := .next (startColl s e (fun op => op = 0x64))
/-- NORMFIN (R255). -/
def execNormfin (e : Nat) (s : State) : Host.Outcome State Fault Refusal := .next (startColl s e (fun op => op = 0x65))

/-! ### The sum (R252, R253, R258) -/

/-- One round of the tree. -/
def treeRound : List F32 → List F32
  | a :: b :: r => fadd a b :: treeRound r
  | l => l

def treeFuel : Nat → List F32 → F32
  | 0, l => l.headD 0
  | n + 1, l => if l.length ≤ 1 then l.headD 0 else treeFuel n (treeRound l)

/-- The tree of R253. -/
def treeSum (l : List F32) : F32 := treeFuel l.length l

/-- The members on time and the members carried. -/
structure SumSets where
  on      : List Nat
  carried : List Nat
deriving DecidableEq, Repr

/-- The sets of R253, or of the replay word (R258). -/
def sumSets (s : State) (w : CW) : SumSets :=
  let c := w.c
  let n := w.g.length
  if c.replay then
    let a := leNat (devRead s c.dead 16)
    { on := (List.range n).filter (fun j => a.testBit j), carried := (List.range n).filter (fun j => a.testBit (64 + j)) }
  else
    let held := heldLate s w
    { on := (List.range n).filter (fun j => j == w.j || wordIs s (arrWord c.land (c.step % 2) j) w.mark),
      carried := if c.spol = 2 || c.step = 0 || held.1 != c.step - 1 then [] else held.2 }

/-- Late contributions that were held and that this sum does not carry: their step and members (R253). A step summed anew finds its own on time. -/
def droppedLate (s : State) (w : CW) : Nat × List Nat :=
  let held := heldLate s w
  (held.1, if w.c.replay || held.1 = w.c.step then [] else held.2.filter (fun j => !(sumSets s w).carried.contains j))

/-- Places of one member's values for the elements of the block: this member's own contribution lies in its dense source (R251). -/
def contribPlaces (w : CW) (es : List (List Nat)) (step j : Nat) : List Nat :=
  if j = w.j && step = w.c.step then es.map (denseAt w.t w.c.src w.c.cfmt) else slotPlaces w es step j

/-- What the sum of a block reads. -/
def sumRds (w : CW) (x : SumSets) (es : List (List Nat)) : List Rd :=
  x.on.flatMap (fun j => elemRds (contribPlaces w es w.c.step j) (fmtSize w.c.cfmt)) ++
    (if w.c.accin then elemRds (es.map (w.t.addrOf ·)) (fmtSize w.c.dfmt) else []) ++
    x.carried.flatMap (fun j => elemRds (contribPlaces w es (w.c.step - 1) j) (fmtSize w.c.cfmt))

/-- The elements of a block, reduced as R253 says. -/
def sumValues (s : State) (w : CW) (x : SumSets) (es : List (List Nat)) : List F32 :=
  let c := w.c
  let on := x.on.map (fun j => valuesAt s w (contribPlaces w es c.step j))
  let late := x.carried.map (fun j => valuesAt s w (contribPlaces w es (c.step - 1) j))
  es.zipIdx.map (fun i =>
    let v := treeSum (on.map (fun l => l.getD i.2 0))
    let v := if c.accin then fadd (toF32 c.dfmt (leNat (devRead s (w.t.addrOf i.1) (fmtSize c.dfmt)))) v else v
    late.foldl (fun v l => fadd v (l.getD i.2 0)) v)

/-- Members as bits of a mask. -/
def memberMask (l : List Nat) : Nat := (l.map (fun j => 2 ^ j)).sum

/-- The fates that a sum decides (R253, R256, R257): journal entries for the members missing, carried and dropped, their counts, and the step the area has
summed. -/
def sumFates (s : State) (e : Nat) (w : CW) (x : SumSets) (absent : List Nat) (dropped : Nat × List Nat) : State :=
  let c := w.c
  let ctx := w.r.ctx
  let s := absent.foldl (fun s j => journal s e ctx c.step 0xFFFFFFFF c.land (w.g.getD j 0) 0 w.r.tag) s
  let s := x.carried.foldl (fun s j => journal s e ctx (c.step - 1) c.step c.land (w.g.getD j 0) 1 w.r.tag) s
  let s := dropped.2.foldl (fun s j => journal s e ctx dropped.1 0xFFFFFFFF c.land (w.g.getD j 0) 2 w.r.tag) s
  let s := countFates s e absent.length x.carried.length dropped.2.length
  let s := if x.carried = [] then s else s.modCtx ctx (fun y => { y with ctr := ctrAddField y.ctr 0x198 0 32 x.carried.length })
  match findArea s ctx c.land with
  | some a => putArea s { a with summed := some c.step, absent := memberMask absent, spol := c.spol, tag := w.r.tag, timed := none }
  | none => s

/-- Sum the block, write it, and all that follows (R252, R253, R255, R257, R258). -/
def runSum (s : State) (e : Nat) (k : Coll) (w : CW) (sh : Nat) : State :=
  let c := w.c
  let x := sumSets s w
  let dropped := droppedLate s w
  let es := w.t.elems sh
  let absent := (List.range w.g.length).filter (fun j => !x.on.contains j)
  reading s e k.order w ((if c.replay then [⟨none, c.dead, 16⟩] else []) ++ sumRds w x es) (fun s =>
    let ws := blockWrs w es (sumValues s w x es)
    let ss := ws.foldl (fun ss x => let r := toF32 c.dfmt (leNat x.bytes); ffma r r ss) (0 : F32)
    writing s e k.order w (ws ++ (if c.replay then [] else [memWr (missWord c.land) (natLE 8 (memberMask absent) ++ natLE 8 c.step)]) ++
        (if c.norm then [memWr (c.npart + 512 * (c.step % 2) + 8 * c.nidx) (natLE 4 ss.toNat ++ natLE 4 c.step)] else [])) (fun s =>
      let s := if c.replay then s else sumFates s e w x absent dropped
      let sts := (if absent = [] then [] else [stShort]) ++ (if x.carried = [] then [] else [stLateAdded])
      let s := modColl s e k.order (fun y => { y with count := es.length, missing := absent.length, carried := x.carried.length, sat := wrsSat ws, nan := wrsNan ws,
                                                      status := y.status ++ sts })
      if c.op = 0x62 then sendGather (modColl s e k.order (fun y => { y with phase := .gathering })) e k.order w else finishColl s e k.order []))

/-- A record's DEADLINE has come; 0 is none. -/
def collLate (s : State) (c : CRec) : Bool := c.dead != 0 && c.dead ≤ s.time.toNat

/-- Every contribution a sum waits for is present (R252, R258). -/
def sumThere (s : State) (w : CW) : Bool :=
  let x := sumSets s w
  if w.c.replay then x.on.all (fun j => j == w.j || wordIs s (arrWord w.c.land (w.c.step % 2) j) w.mark) else x.on.length == w.g.length

/-- A WAIT-policy deadline has passed with contributions absent (R252, R256): they are late from now on. -/
def waitTimedOut (s : State) (w : CW) : State :=
  let absent := (List.range w.g.length).filter (fun j => !(sumSets s w).on.contains j)
  match findArea s w.r.ctx w.c.land with
  | some a => putArea s { a with timed := some (w.c.step, memberMask absent), tag := w.r.tag }
  | none => s

/-- SUM_BEGIN (R252): with every contribution present, or at the deadline, the owner sums its block; under SPOL 0 the deadline ends the
record instead. A replay word that cannot be read ends the record (R266). -/
def execSumBegin (e i : Nat) (s : State) : Host.Outcome State Fault Refusal :=
  match (s.ce e).inflight[i]? with
  | none => .next s
  | some k =>
    let w := cwOf s e k.rec'
    match k.phase, w.c.sums, w.own with
    | .waiting, true, some sh =>
      if collHeld s e w then .next s
      else if sumThere s w || (w.c.replay && (devFault s w.c.dead 16).isSome) then .next (settleEngine (runSum s e k w sh) e)
      else if w.c.replay || !collLate s w.c then .next s
      else if w.c.spol = 0 then .next (settleEngine (finishColl (waitTimedOut s w) e k.order [stTimeout]) e)
      else .next (settleEngine (runSum s e k w sh) e)
    | _, _, _ => .next s

/-- The reads and writes of a PERMUTE's write phase: the image goes into the new block (R261). -/
def permuteRds (w : CW) (sh : Nat) : List Rd :=
  elemRds ((w.t2.elems sh).map (fun i => w.c.land + 0x400 + w.t2.packAt i * fmtSize w.t2.fmt)) (fmtSize w.t2.fmt)

def permuteWrs (s : State) (w : CW) (sh : Nat) : List Wr :=
  (w.t2.elems sh).map (fun i => memWr (w.t2.addrOf i) (devRead s (w.c.land + 0x400 + w.t2.packAt i * fmtSize w.t2.fmt) (fmtSize w.t2.fmt)))

/-- The writes of a PERMUTE that come before a word of its image that cannot be read. -/
def beforeFault (s : State) (w : CW) (sh : Nat) : List Wr :=
  let f := fmtSize w.t2.fmt
  (((w.t2.elems sh).takeWhile (fun i => (devFault s (w.c.land + 0x400 + w.t2.packAt i * f) f).isNone)).map (fun i =>
    memWr (w.t2.addrOf i) (devRead s (w.c.land + 0x400 + w.t2.packAt i * f) f)))

/-- A write phase that a fence or a fault cuts leaves a leading part of free length (R261, R410). -/
def permuteCut (s : State) (e : Nat) (w : CW) (ws : List Wr) : Nat × State :=
  let (ws, s) := freeLead s (upToFault s ws).1
  (ws.length, applyWrs (ceBy e w.r.ctx) s (coalesce ws))

/-- PERMUTE_WRITE_PHASE (R261): with all arrivals there, the image is copied into the new block. -/
def execPermuteWritePhase (e i : Nat) (s : State) : Host.Outcome State Fault Refusal :=
  match (s.ce e).inflight[i]? with
  | none => .next s
  | some k =>
    let w := cwOf s e k.rec'
    if k.phase ≠ .waiting || w.c.op != 0x63 || !permuted s w || collHeld s e w then .next s
    else
      match w.own2 with
      | none => .next (settleEngine (finishColl s e k.order []) e)
      | some sh =>
        let t := rdsTouch (ceBy e w.r.ctx) s (permuteRds w sh)
        match rdsFault s (permuteRds w sh) with
        | some f =>
          let x := permuteCut t e w (beforeFault s w sh)
          .next (settleEngine (breakColl (modColl x.2 e k.order (fun y => { y with count := x.1 })) e k.order f) e)
        | none =>
          .next (settleEngine (writing t e k.order w (permuteWrs s w sh) (fun s =>
            finishColl (modColl s e k.order (fun y => { y with count := (w.t2.elems sh).length })) e k.order [])) e)

/-- All values of a NORMFIN are present. -/
def normThere (s : State) (w : CW) : Bool := (List.range w.g.length).all (fun j => wordIs s (gatWord w.c.land j) w.mark)

/-- NORMFIN_REDUCE (R255): the n values are reduced by the tree and the norm word is written. -/
def execNormfinReduce (e i : Nat) (s : State) : Host.Outcome State Fault Refusal :=
  match (s.ce e).inflight[i]? with
  | none => .next s
  | some k =>
    let w := cwOf s e k.rec'
    if k.phase ≠ .waiting || w.c.op != 0x65 || !normThere s w || collHeld s e w then .next s
    else
      let a := w.c.npart + 1024
      let n := w.g.length
      .next (settleEngine (reading s e k.order w (elemRds ((List.range n).map (fun j => a + 8 * j)) 8) (fun s =>
        let v := treeSum ((List.range n).map (fun j => BitVec.ofNat 32 (leNat (devRead s (a + 8 * j) 4))))
        writing s e k.order w [memWr (w.c.dst + 8 * (w.c.step % 2)) (natLE 4 v.toNat ++ natLE 4 w.c.step)] (fun s => finishColl s e k.order []))) e)

/-- COLLECTIVE_TIMEOUT (R254, R255, R261): arrivals that miss DEADLINE end the record with FAULT_TIMEOUT. -/
def execCollectiveTimeout (e i : Nat) (s : State) : Host.Outcome State Fault Refusal :=
  match (s.ce e).inflight[i]? with
  | none => .next s
  | some k =>
    let w := cwOf s e k.rec'
    let open' := match k.phase, w.c.op with
      | .gathering, _ => !gathered s w
      | .waiting, 0x63 => !permuted s w
      | .waiting, 0x65 => !normThere s w
      | _, _ => false
    if open' && !(w.c.replay && w.c.sums) && collLate s w.c then .next (settleEngine (finishColl s e k.order [stTimeout]) e) else .next s

/-! ### Fences (R266, R283) -/

/-- A PERMUTE whose arrivals are all there is in its write phase when a fence meets it: it has written a leading part of its new block (R261). -/
def fencePermute (e : Nat) (s : State) (x : Coll) : State × Coll :=
  let w := cwOf s e x.rec'
  match w.own2 with
  | some sh =>
    if x.phase = .waiting && x.rec'.op = 0x63 && permuted s w then
      let r := permuteCut s e w (beforeFault s w sh)
      (r.2, { x with count := r.1 })
    else (s, x)
  | none => (s, x)

/-- End the records of an engine that a test picks with ABORTED_FENCED, or with a Fault they have met, which ranks higher (R10): sends already made stay
made, and are awaited (R284). -/
def fenceColls (s : State) (e entry : Nat) (p : Nat → Bool) : State :=
  let xs := (s.ce e).inflight.filter (fun c => p c.rec'.ctx)
  let qs := (s.ce e).queue.filter (fun r => p r.ctx)
  let s := xs.foldl (fun s x => let y := fencePermute e s x; endColl y.1 e y.2 [stFenced]) s
  let s := s.modCe e (fun c => { c with queue := c.queue.filter (fun r => !p r.ctx) })
  let s := qs.foldl (fun s r => collReport s e r stFenced 0 0 0) s
  let cs := (xs.map (fun x => x.rec'.ctx) ++ qs.map (·.ctx))
  cs.eraseDups.foldl (fun s c => post s (uOport (4 * e)) c 0x051 (min (cs.count c) 0xFFFF + 2 ^ 16 * entry)) s

end Sys2Proof.Machine
end

