-- ==== Sys2Proof/Machine/IbexMath.lean ====
section
/-! DEFINITION. The operation sequences of the Ibex solver on a lane group, to the bit (R145 to R152, R157). -/

namespace Sys2Proof.Machine

open Sys2Proof

/-- A matrix or a block of columns, row-major with `n` columns. -/
abbrev FMat := Array F32

def fAt (n : Nat) (m : FMat) (i j : Nat) : F32 := m.getD (i * n + j) 0

/-- A matrix of `r` rows and `n` columns from its elements. -/
def fBuild (r n : Nat) (f : Nat → Nat → F32) : FMat := ((List.range r).flatMap (fun i => (List.range n).map (f i))).toArray

/-- δ of R145. -/
def kron (i j : Nat) : F32 := if i = j then f32one else 0

/-- prod of R145. -/
def fProd (b : Nat) (x y : FMat) : FMat :=
  fBuild b b (fun i j => (List.range b).foldl (fun c k => ffma (fAt b x i k) (fAt b y k j) c) 0)

/-- maxdev of R145. -/
def maxdev (b : Nat) (m : FMat) : F32 :=
  (List.range b).foldl (fun r i => (List.range b).foldl (fun r j => fmax r (fabs (fsub (fAt b m i j) (kron i j)))) r) 0

/-- sym of R145. -/
def fSym (b : Nat) (x : FMat) : FMat := fBuild b b (fun i j => fmul (fadd (fAt b x i j) (fAt b x j i)) 0x3F00_0000)

/-- The greatest absolute value of a list. -/
def maxAbs (l : List F32) : F32 := l.foldl (fun r x => fmax r (fabs x)) 0

/-- a[i][j] of R145: the element at (min(i, j), max(i, j)). -/
def aAt (b : Nat) (a : FMat) (i j : Nat) : F32 := fAt b a (min i j) (max i j)

/-! ### Factorisations (R146, R147) -/

/-- One column of CHOL: `none` on a bad pivot. -/
def cholCol (b : Nat) (a : FMat) (l : FMat) (j : Nat) : Option FMat :=
  let s := (List.range j).foldl (fun s k => ffma (fneg (fAt b l j k)) (fAt b l j k) s) (aAt b a j j)
  if !ffinite s || !fpos s then none
  else
    let dj := fsqrt s
    let rd := fdiv f32one dj
    some (((List.range b).filter (fun i => j < i)).foldl (fun m i =>
      let t := (List.range j).foldl (fun t k => ffma (fneg (fAt b l i k)) (fAt b l j k) t) (aAt b a i j)
      m.setIfInBounds (i * b + j) (fmul t rd)) (l.setIfInBounds (j * b + j) dj))

/-- CHOL (R146): L, or the number of columns done before the breakdown. -/
def chol (b : Nat) (a : FMat) : FMat × Option Nat :=
  (List.range b).foldl (fun st j => match st.2 with
    | some _ => st
    | none => match cholCol b a st.1 j with
      | some l => (l, none)
      | none => (st.1, some j)) (Array.replicate (b * b) (0 : F32), none)

/-- One column of LDLᵀ with shift `sigma`: L below the diagonal, D on it. -/
def ldlCol (b : Nat) (a : FMat) (sigma tiny : F32) (l : FMat) (j : Nat) : Option FMat :=
  let w := ((List.range j).map (fun k => fmul (fAt b l j k) (fAt b l k k))).toArray
  let s := (List.range j).foldl (fun s k => ffma (fneg (w.getD k 0)) (fAt b l j k) s) (fadd (aAt b a j j) sigma)
  if !ffinite s || !flt tiny s then none
  else
    let rd := fdiv f32one s
    some (((List.range b).filter (fun i => j < i)).foldl (fun m i =>
      let t := (List.range j).foldl (fun t k => ffma (fneg (fAt b l i k)) (w.getD k 0) t) (aAt b a i j)
      m.setIfInBounds (i * b + j) (fmul t rd)) (l.setIfInBounds (j * b + j) s))

/-- One attempt: L and D, or the column that failed. -/
def ldlTry (b : Nat) (a : FMat) (sigma tiny : F32) : FMat × Option Nat :=
  (List.range b).foldl (fun st j => match st.2 with
    | some _ => st
    | none => match ldlCol b a sigma tiny st.1 j with
      | some l => (l, none)
      | none => (st.1, some j)) (Array.replicate (b * b) (0 : F32), none)

/-- FMAs of the first `j` columns of a factorisation, and of column `j`'s pivot (R162). -/
def facFma (b j : Nat) : Nat := ((List.range (min j b)).map (fun k => k + (b - 1 - k) * k)).sum + (if j < b then j else 0)

/-- A factorisation's outcome: the factor unless it broke down, the retries used, and the FMAs performed. -/
structure Factor where
  l    : Option FMat
  att  : Nat
  fma  : Nat
deriving Inhabited

/-- The attempts of LDLᵀ from attempt `att` on, at most `n` more (R147). -/
def ldlLoop (b : Nat) (a : FMat) (tiny shift0 : F32) : Nat → Nat → F32 → Nat → Factor
  | n, att, sigma, fma =>
    match ldlTry b a sigma tiny with
    | (l, none) => { l := some l, att := att, fma := fma + facFma b b }
    | (_, some j) =>
      match n with
      | 0 => { l := none, att := att, fma := fma + facFma b j }
      | n + 1 => ldlLoop b a tiny shift0 n (att + 1) (if att = 0 then shift0 else fmul sigma 0x4080_0000) (fma + facFma b j)

/-- LDLT (R147). -/
def ldlt (b : Nat) (a : FMat) (retry : Nat) (shift0 : F32) : Factor :=
  let amax := (List.range b).foldl (fun m i => fmax m (aAt b a i i)) (aAt b a 0 0)
  if !ffinite amax || !fpos amax then { l := none, att := 0, fma := 0 }
  else ldlLoop b a (fmul amax 0x3380_0000) shift0 retry 0 0 0

/-! ### Solving and refining (R148 to R150) -/

/-- ldl_solve of one column (R148). -/
def ldlSolve (b : Nat) (l : FMat) (rhs : FMat) : FMat :=
  let y := (List.range b).foldl (fun (y : FMat) i =>
    y.setIfInBounds i ((List.range i).foldl (fun t k => ffma (fneg (fAt b l i k)) (y.getD k 0) t) (rhs.getD i 0))) (Array.replicate b (0 : F32))
  let z := ((List.range b).map (fun i => fdiv (y.getD i 0) (fAt b l i i))).toArray
  (List.range b).reverse.foldl (fun (x : FMat) i =>
    x.setIfInBounds i (((List.range b).filter (fun k => i < k)).foldl (fun t k => ffma (fneg (fAt b l k i)) (x.getD k 0) t) (z.getD i 0)))
    (Array.replicate b (0 : F32))

/-- ds_residual of one column (R149). -/
def dsResidual (b : Nat) (a : FMat) (x rhs : FMat) : FMat :=
  ((List.range b).map (fun i =>
    let r := (List.range b).foldl (fun (p : F32 × F32) k =>
      let m := aAt b a i k
      let q := fmul m (x.getD k 0)
      let qe := ffma m (x.getD k 0) (fneg q)
      let s := fsub p.1 q
      let v := fsub s p.1
      let e := fsub p.1 (fsub s v)
      let e := fadd e (fsub (fneg q) v)
      let e := fadd e p.2
      let e := fsub e qe
      let hi := fadd s e
      (hi, fsub e (fsub hi s))) (rhs.getD i 0, 0)
    fadd r.1 r.2)).toArray

/-- How an iteration ended. `early` says that the deadline came before the first residual. -/
inductive IterEnd where
  | done | notConv | broke | cut | early
deriving DecidableEq, Repr, Inhabited

/-- What a computation leaves: the columns or matrix, the residual, iterations completed, how it ended, and the FMAs performed. -/
structure Iterate where
  x     : List FMat := []
  resid : F32 := 0
  k     : Nat := 0
  how   : IterEnd := .done
  fma   : Nat := 0
deriving Inhabited

/-- The refinement loop of R150 on columns. `stop` is the number of residuals completed before a deadline, if one came. -/
def refine (b : Nat) (a l : FMat) (rhs : List FMat) (lim : F32) (stop : Option Nat) : Nat → Nat → List FMat → Nat → Iterate
  | n, k, x, fma =>
    let r := (x.zip rhs).map (fun p => dsResidual b a p.1 p.2)
    let fma := fma + b * b * x.length
    let rmax := maxAbs (r.flatMap (·.toList))
    if !ffinite rmax then { x := x, resid := rmax, k := k, how := .broke, fma := fma }
    else if fle rmax lim then { x := x, resid := rmax, k := k, how := .done, fma := fma }
    else
      match n with
      | 0 => { x := x, resid := rmax, k := k, how := .notConv, fma := fma }
      | n + 1 =>
        if stop = some (k + 1) then { x := x, resid := rmax, k := k, how := .cut, fma := fma }
        else
          let x' := (x.zip r).map (fun p =>
            let d := ldlSolve b l p.2
            ((List.range b).map (fun i => fadd (p.1.getD i 0) (d.getD i 0))).toArray)
          refine b a l rhs lim stop n (k + 1) x' (fma + b * (b - 1) * x.length)

/-- SOLVE of R150 on the columns of a right-hand side, after the factorisation. -/
def solveCols (b : Nat) (a l : FMat) (rhs : List FMat) (tol : F32) (maxit : Nat) (stop : Option Nat) : Iterate :=
  if stop = some 0 then { how := .early }
  else
    let lim := fmul tol (maxAbs (rhs.flatMap (·.toList)))
    refine b a l rhs lim stop maxit 0 (rhs.map (ldlSolve b l)) (b * (b - 1) * rhs.length)

/-- Columns as one row-major matrix. -/
def ofCols (b : Nat) (cols : List FMat) : FMat :=
  let c := cols.toArray
  fBuild b cols.length (fun i j => (c.getD j #[]).getD i 0)

/-! ### ROOT (R151, R152) -/

/-- q of R151. -/
def rootQ (p : Nat) : Nat := if p = 1 then 0 else if p = 2 then 1 else if p = 4 then 2 else 3

/-- `q` successive square roots. -/
def sqrtN : Nat → F32 → F32
  | 0, x => x
  | n + 1, x => sqrtN n (fsqrt x)

/-- `q` successive squarings by prod. -/
def squareN (b : Nat) : Nat → FMat → FMat
  | 0, x => x
  | n + 1, x => squareN b n (fProd b x x)

/-- s of the cold start: the greatest row sum of absolute values. -/
def rowBound (b : Nat) (a : FMat) : F32 :=
  (List.range b).foldl (fun s i => fmax s ((List.range b).foldl (fun t j => fadd t (fabs (aAt b a i j))) 0)) 0

/-- The cold start: X and M, or a breakdown. -/
def rootCold (b p : Nat) (a : FMat) : Option (FMat × FMat) :=
  let s := rowBound b a
  if !ffinite s || !fpos s then none
  else
    let x0 := fdiv f32one (sqrtN (rootQ p) s)
    let rs := fdiv f32one s
    some (fBuild b b (fun i j => fmul x0 (kron i j)), fBuild b b (fun i j => fmul (aAt b a i j) rs))

/-- One iteration of R151. -/
def rootStep (b p : Nat) (x m : FMat) : FMat × FMat :=
  let ip := fdiv f32one (fnat p)
  let cp := fmul (fadd (fnat p) f32one) ip
  let t := fBuild b b (fun i j => ffma (fAt b m i j) (fneg ip) (fmul cp (kron i j)))
  let x' := fProd b x t
  let m' := match p with
    | 1 => fProd b t m
    | 2 => fProd b (fProd b t t) m
    | 4 => fProd b (squareN b 2 t) m
    | _ => fProd b (squareN b 3 t) m
  (x', m')

/-- The coupled Newton loop of R151. -/
def rootLoop (b p : Nat) (tol : F32) (stop : Option Nat) : Nat → Nat → FMat → FMat → Nat → Iterate
  | n, k, x, m, fma =>
    let r := maxdev b m
    let out : IterEnd → Iterate := fun h => { x := [x], resid := r, k := k, how := h, fma := fma }
    if !ffinite r then out .broke
    else if fle r tol then out .done
    else
      match n with
      | 0 => out .notConv
      | n + 1 =>
        if stop = some (k + 1) then out .cut
        else
          let y := rootStep b p x m
          rootLoop b p tol stop n (k + 1) y.1 y.2 (fma + b * b + (rootQ p + 2) * (b * b * b))

/-- ROOT: the iterate, whether it started cold, and whether a warm start was rejected (R151, R152). -/
structure RootEnd where
  it       : Iterate
  cold     : Bool
  rejected : Bool
deriving Inhabited

/-- ROOT from an assembled matrix and a warm start, if there is one. -/
def root (b p : Nat) (a : FMat) (warm : Option FMat) (tol wstol : F32) (maxit : Nat) (stop : Option Nat) : RootEnd :=
  let cold (rej : Bool) (fma : Nat) : RootEnd :=
    if stop = some 0 then { it := { how := .early, fma := fma }, cold := true, rejected := rej }
    else
      match rootCold b p a with
      | none => { it := { how := .broke, fma := fma }, cold := true, rejected := rej }
      | some (x, m) => { it := rootLoop b p tol stop maxit 0 x m fma, cold := true, rejected := rej }
  match warm with
  | none => cold false 0
  | some x =>
    let m := fProd b (squareN b (rootQ p) x) (fBuild b b (aAt b a))
    let fma := (rootQ p + 1) * (b * b * b)
    if !fle (maxdev b m) wstol then cold true fma
    else if stop = some 0 then { it := { how := .early, fma := fma }, cold := false, rejected := false }
    else { it := rootLoop b p tol stop maxit 0 x m fma, cold := false, rejected := false }

/-- The body of a fallback (R157), with `c = 1 + DAMP`; SOLVE divides its right-hand side. -/
def fallbackBody (op p b ncols : Nat) (c : F32) (rhs : List (List F32)) : FMat :=
  match op with
  | 3 =>
    let r := (rhs.map List.toArray).toArray
    fBuild b ncols (fun i j => fdiv ((r.getD i #[]).getD j 0) c)
  | _ =>
    let d := match op with
      | 1 => fsqrt c
      | 2 => c
      | 4 => fdiv f32one c
      | _ => fdiv f32one (sqrtN (rootQ p) c)
    fBuild b b (fun i j => if i = j then d else 0)

/-- A matrix as BF16 codes, with what the conversion counts (R43, R46). -/
def bodyCodes (m : FMat) : List (BitVec 16) × Nat × Nat :=
  let cs := m.toList.map (fun x => encode 1 (dec32 x))
  (cs.map (fun c => BitVec.ofNat 16 c.code), (cs.map (fun c => b2n c.sat)).sum, (cs.map (fun c => b2n c.nan)).sum)

end Sys2Proof.Machine
end

