-- ==== Sys2Proof/Machine/Ibex.lean ====
section
/-! DEFINITION. The Ibex solver dies: batches, entries, deadlines, results (08). -/

namespace Sys2Proof.Machine

open Sys2Proof

/-! ### Fields (R137, R138) -/

/-- IBATCH fields. -/
def ibEnt (r : Rec) : Nat := bitsOf (fld r.bytes 8 8) 0 48
def ibN (r : Rec) : Nat := bitsOf (fld r.bytes 16 2) 0 13
def ibPol (r : Rec) : Nat := bitsOf (fld r.bytes 18 1) 0 2
def ibStep (r : Rec) : Nat := fld r.bytes 20 4
def ibDeadline (r : Rec) : Nat := fld r.bytes 24 8

/-- An entry's fields (R138). -/
structure IEnt where
  op     : Nat
  pexp   : Nat
  nowarm : Bool
  wsxs   : Bool
  order  : Nat
  nrhs   : Nat
  retry  : Nat
  maxit  : Nat
  maxage : Nat
  src    : Nat
  srck   : Nat
  tol    : F32
  cuttol : F32
  wstol  : F32
  res    : Nat
  rhs    : Nat
  ws     : Nat
  shift0 : F32
  wsoff  : Nat
deriving DecidableEq, Repr, Inhabited

def ientOf (r : List Byte) : IEnt :=
  { op := fld r 0 1, pexp := bitsOf (fld r 1 1) 0 4, nowarm := bitOf (fld r 1 1) 7, wsxs := bitOf (fld r 1 1) 6, order := bitsOf (fld r 2 2) 0 12,
    nrhs := bitsOf (fld r 4 2) 0 13, retry := bitsOf (fld r 6 1) 4 4, maxit := bitsOf (fld r 6 1) 0 4, maxage := fld r 7 1,
    src := bitsOf (fld r 8 8) 0 48, srck := bitsOf (fld r 16 1) 0 1, tol := BitVec.ofNat 32 (fld r 20 4), cuttol := BitVec.ofNat 32 (fld r 24 4),
    wstol := BitVec.ofNat 32 (fld r 28 4), res := bitsOf (fld r 32 8) 0 48, rhs := bitsOf (fld r 40 8) 0 48, ws := bitsOf (fld r 48 8) 0 48,
    shift0 := BitVec.ofNat 32 (fld r 56 4), wsoff := bitsOf (fld r 60 2) 0 12 }

/-- NCOLS of R142, the footprint and the group size of R136. -/
def IEnt.ncols (x : IEnt) : Nat := if x.op = 3 then x.nrhs else x.order
def IEnt.foot (x : IEnt) : Nat :=
  let b := x.order
  match x.op with
  | 3 => 4 * b * b + 8 * b * x.nrhs
  | 4 => 12 * b * b
  | 5 => 16 * b * b
  | _ => 4 * b * b
def IEnt.group (x : IEnt) : Nat := ([1, 2, 4, 8, 16].find? (fun g => x.foot ≤ g * 2 ^ 22)).getD 0
def IEnt.nt (x : IEnt) : Nat := let t := x.order / 32; t * (t + 1) / 2
def IEnt.srcSize (x : IEnt) : Nat := if x.srck = 0 then 64 + 6144 * x.nt else 4 * x.order * x.order
def IEnt.rhsSize (x : IEnt) : Nat := 2 * x.order * x.nrhs
def IEnt.resLen (x : IEnt) : Nat := resSize x.order x.ncols

/-- The parts of its source that an entry reads: the header and the average elements on and above the diagonal, or those of a dense matrix
(R122, R130, R145). -/
def IEnt.srcReads (x : IEnt) : List (Nat × Nat) :=
  if x.srck = 0 then
    (x.src, 64) :: (tilePairs (x.order / 32)).zipIdx.flatMap (fun t =>
      let a := x.src + 64 + 2048 * t.2
      if t.1.1 = t.1.2 then (List.range 32).map (fun i => (a + 66 * i, 64 - 2 * i)) else [(a, 2048)])
  else (List.range x.order).map (fun i => (x.src + 4 * (x.order + 1) * i, 4 * (x.order - i)))

/-- The fields an operation uses (R139). A field that the operation leaves unused must be zero in every bit, so that the FP32 value −0 in one is
refused too (DESIGN CHOICE, log 80). -/
def ientGroups (op : Nat) : List Group :=
  let m (ops : List Nat) (mask : Nat) : Nat := if ops.contains op then mask else 0
  [gAll 0 1, (1, 1, m [5] 0xCF), (2, 2, 0xFFF), (4, 2, m [3] 0x1FFF), (6, 1, m [2, 3, 4] 0xF0 + m [3, 4, 5] 0x0F), gAll 7 1, gAddr 8, (16, 1, 1),
   gAll 17 1, gAll 18 1, (20, 4, m [3, 4, 5] (2 ^ 32 - 1)), (24, 4, m [5] (2 ^ 32 - 1)), (28, 4, m [5] (2 ^ 32 - 1)), gAddr 32,
   (40, 8, m [3] (2 ^ 48 - 1)), (48, 8, m [5] (2 ^ 48 - 1)), (56, 4, m [2, 3, 4] (2 ^ 32 - 1)), (60, 2, m [5] 0xFFF)]

def ientKnown (op : Nat) : Bool := 1 ≤ op && op ≤ 5

/-- Check 6 of R140 on an entry: the least failing offset. -/
def ientFail (r : List Byte) : Option Nat :=
  let x := ientOf r
  if !ientKnown x.op then some 0 else
  firstFail (reservedFails (ientGroups x.op) 0 64 r ++ fails [
    (1, x.op == 5 && !([1, 2, 4, 8].contains x.pexp)), (2, x.order % 32 != 0 || x.order < 32 || 2048 < x.order),
    (4, x.op == 3 && (x.nrhs < 1 || 4096 < x.nrhs)), (6, 7 < x.retry),
    (8, x.src % 64 != 0), (20, [3, 4, 5].contains x.op && !isZp x.tol), (24, x.op == 5 && !(ffinite x.cuttol && fle x.tol x.cuttol)),
    (28, x.op == 5 && !(isZp x.wstol && flt x.wstol f32one)), (32, x.res % 64 != 0),
    (56, [2, 3, 4].contains x.op && (if x.retry = 0 then !fzero x.shift0 else !isPos x.shift0)), (60, x.wsoff % 32 != 0)])

/-! ### Lanes -/

/-- The sections that die `d` holds, as its first lane holds them. -/
def ibxSects (s : State) (d : Nat) : List Sect := sectsOf s (.lane (16 * d))

/-- Lane `i` of die `d` may serve a context: unretired, and in a partition it may use. -/
def laneFor (s : State) (d c i : Nat) : Bool :=
  let l := sectsOf s (.lane (16 * d + i))
  !laneRetired (retiredOf l) (16 * d + i) && (ctxParts s l c).any (fun p => bitOf p.lanes (16 * d + i))

/-- The aligned groups of `g` lanes, as their first lanes. -/
def groupsOf (g : Nat) : List Nat := if g = 0 then [] else (List.range (16 / g)).map (· * g)

def groupAll (p : Nat → Bool) (f g : Nat) : Bool := (List.range g).all (fun k => p (f + k))

/-- A lane holds a dispatched entry. -/
def laneBusy (x : Ibex) (i : Nat) : Bool := x.entries.any (fun e => e.lane ≤ i && i < e.lane + e.group)

/-- A lane is between batches (R30, R161): it holds no entry, and no batch whose dispatch has begun and not ended may use it. -/
def laneBetween (s : State) (d i : Nat) : Bool :=
  !laneBusy (s.ibx d) i &&
    (s.ibx d).batches.all (fun b => b.dispatched == 0 || b.entries.length ≤ b.dispatched || !laneFor s d b.rec'.ctx i)

/-- A Hurdle fences a lane or its die. -/
def laneFenced (s : State) (d i : Nat) : Bool := unitFenced s 4 (16 * d + i) || unitFenced s 5 d

/-- A record of the die's ring with the payload of R162. -/
def ibxPost (s : State) (d : Nat) (r : Rec) (code idx extra : Nat) : State :=
  post s (uIbex d) r.ctx code (r.tag + 2 ^ 16 * (idx % 4096) + extra)

/-! ### IBATCH (R140) -/

/-- DETAIL of a failing field of an entry, and of the record. -/
def ibDetail (idx off : Nat) : Nat := off + 2 ^ 16 * idx

/-- Check 1 of R140. -/
def ibatchFail (r : Rec) : Option Nat :=
  let b := r.bytes
  firstFail (reservedFails [gAll 0 1, (1, 1, 0x10), gAll 2 2, (4, 1, 7), gAddr 8, (16, 2, 0x1FFF), (18, 1, 3), gAll 20 4, gAll 24 8] 0 64 b ++
    fails [(0, r.op != 0x50), (8, ibEnt r % 64 != 0), (16, ibN r < 1 || 4096 < ibN r), (24, (ibPol r == 0) != (ibDeadline r == 0))])

/-- The first failure of a check over the entries in order. -/
def ibxEach (es : List (List Byte)) (f : Nat → List Byte → Option Refuse) : Option Refuse :=
  (es.zipIdx).findSome? (fun x => (f x.2 x.1).map (fun r => (r.1, ibDetail x.2 r.2)))

/-- The record an entry's warm start reads (R152). -/
def IEnt.wsAt (x : IEnt) : Nat := if x.ws = 0 then x.res else x.ws

/-- The region of the warm-start record: its size is what its header says. -/
def wsRegion (s : State) (x : IEnt) : Nat × Nat :=
  let h := resOf (devRead s x.ws 64)
  (x.ws, if h.valid then resSize h.order h.ncols else 64)

/-- Check 5 of R140 on an entry. -/
def ientPlace (s : State) (l : List Sect) (c : Nat) (r : List Byte) : Option Refuse :=
  let x := ientOf r
  let at' (off : Nat) (y : Option Refuse) : Option Refuse := y.map (fun z => (z.1, off))
  if !ientKnown x.op then none else
  firstRefuse [at' 8 (uniRefuse s l c x.src x.srcSize false), at' 32 (uniRefuse s l c x.res x.resLen true),
    if x.op = 3 then at' 40 (uniRefuse s l c x.rhs x.rhsSize false) else none,
    if x.op = 5 && x.ws != 0 then at' 48 (firstRefuse [uniRefuse s l c x.ws 64 false, uniRefuse s l c x.ws (wsRegion s x).2 false]) else none]

/-- Check 7 of R140. -/
def ientStat (s : State) (r : List Byte) : Option Refuse :=
  let x := ientOf r
  if x.srck = 1 then none
  else
    let h := devRead s x.src 64
    let st := statOf h
    chk (!st.valid || st.order != x.order || statReserved h) stDescriptor 8

/-- Check 8 of R140. -/
def ientGroup (s : State) (d c : Nat) (r : List Byte) : Option Refuse :=
  let x := ientOf r
  let g := x.group
  chk (g == 0 || !(groupsOf g).any (fun f => groupAll (laneFor s d c) f g)) stBounds 2

/-- Regions of an entry: its result record, and what it reads. -/
def ientReads (s : State) (r : List Byte) : List (Nat × Nat) :=
  let x := ientOf r
  [(x.src, x.srcSize)] ++ (if x.op = 3 then [(x.rhs, x.rhsSize)] else []) ++ (if x.op = 5 && x.ws != 0 then [wsRegion s x] else [])

/-- Check 9 of R140 on entry `i`. -/
def ientAlias (s : State) (table : Nat × Nat) (es : List (List Byte)) (i : Nat) (r : List Byte) : Option Refuse :=
  let x := ientOf r
  let me := (x.res, x.resLen)
  chk (regMeets me table || es.any (fun q => (ientReads s q).any (regMeets me)) ||
    (es.zipIdx).any (fun q => q.2 < i && regMeets me ((ientOf q.1).res, (ientOf q.1).resLen))) stAlias 32

/-- The first failing read of the checks: headers of statistic records and of warm-start records, in entry order (R407). -/
def ientReadFault (s : State) (es : List (List Byte)) : Option MemFault :=
  es.findSome? (fun r =>
    let x := ientOf r
    (if x.srck = 0 then devFault s x.src 64 else none).or (if x.op = 5 && x.ws != 0 then devFault s x.ws 64 else none))

/-- A partition that the context uses on die `d` exists in a generation that one of the die's lanes holds (check 4 of R140, R33). -/
def partPresent (s : State) (d : Nat) (ps : List Part) : Bool :=
  (List.range 16).any (fun i => (partsOf (sectsOf s (.lane (16 * d + i)))).any (fun q => ps.any (fun p => p.num == q.num)))

/-- The checks of R140, and the entry table when all pass. R140 names no field for some of them: DETAIL then holds offset 4 (DIE) for checks 2 to
4, 8 (SRC_ADDR) for check 7, 2 (ORDER) for check 8 and 32 (RES_ADDR) for check 9 (DESIGN CHOICE, log 80). -/
def ibatchCheck (s : State) (d : Nat) (r : Rec) : Checked (List (List Byte)) :=
  let l := ibxSects s d
  let c := r.ctx
  let rec16 := fun (o : Nat) => ibDetail 0xFFFF o
  let cur := s.weave.cur.sects
  let n := 64 * ibN r
  let ps := (ctxParts s cur c).filter (fun p => bitsOf p.lanes (16 * d) 16 != 0)
  match firstRefuse [(ibatchFail r).map (fun o => (stDescriptor, rec16 o)), chk ((retiredOf cur).contains (5, d)) stDescriptor (rec16 4),
      chk ps.isEmpty stPrivilege (rec16 4), chk (!partPresent s d ps) stGeneration (rec16 4),
      (uniRefuse s l c (ibEnt r) n true).map (fun z => (z.1, rec16 8))] with
  | some x => .refuse x.1 x.2
  | none =>
    match devFault s (ibEnt r) n with
    | some f => .fault f
    | none =>
      let es := recordsOf (ibN r) 64 (devRead s (ibEnt r) n)
      match firstRefuse [ibxEach es (fun _ e => ientPlace s l c e), ibxEach es (fun _ e => (ientFail e).map (fun o => (stDescriptor, o)))] with
      | some x => .refuse x.1 x.2
      | none =>
        match ientReadFault s es with
        | some f => .fault f
        | none =>
          match firstRefuse [ibxEach es (fun _ e => ientStat s e), ibxEach es (fun _ e => ientGroup s d c e),
              ibxEach es (fun i e => ientAlias s (ibEnt r, n) es i e)] with
          | some x => .refuse x.1 x.2
          | none => .ok es

/-- Complete an IBATCH record (R159). -/
def ibxReport (s : State) (d : Nat) (r : Rec) (st : Status) (count detail satnan : Nat) : State :=
  reportRec s r st (0x3F8 + d) 0 count detail satnan

/-- Insert a batch in service order: a batch of context 0 goes before the others not yet begun, after earlier ones of context 0 (R141). -/
def queueBatch (l : List Batch) (b : Batch) : List Batch :=
  if b.rec'.ctx = 0 then
    let p := fun (x : Batch) => x.rec'.ctx == 0 || 0 < x.dispatched
    l.takeWhile p ++ [b] ++ l.dropWhile p
  else l ++ [b]

/-- The accesses of a die for a context. -/
def ibxBy (d c : Nat) : By := { ctx := c, die := some d }

/-- The record that the die takes next: the first of context 0, else the first in order of arrival (R141). -/
def nextArrived (x : Ibex) : Option Rec := (x.arrived.find? (fun r => r.ctx == 0)).or x.arrived.head?

/-- IBATCH (R140): the context's record is checked, then queued or refused. Records are taken in their order: out of its turn a context's record
waits (log 81). -/
def execIbatch (die c : Nat) (s : State) : Host.Outcome State Fault Refusal :=
  match nextArrived (s.ibx die) with
  | none => .next s
  | some r =>
    if r.ctx ≠ c then .next s
    else
      let s := s.modIbx die (fun x => { x with arrived := x.arrived.erase r })
      match ibatchCheck s die r with
      | .refuse st d => .next (ibxReport s die r st 0 d 0)
      | .fault f => .next (ibxReport (match f with | .ecc a => devTouch s (ibxBy die c) (a / 8 * 8) 8 | .link => s) die r f.status 0 f.detail 0)
      | .ok es =>
        let s := devTouch s (ibxBy die c) (ibEnt r) (64 * ibN r)
        .next (s.modIbx die (fun x => { x with batches := queueBatch x.batches { rec' := r, id := x.nextId, entries := es }, nextId := x.nextId + 1 }))

/-! ### Outcomes -/

/-- The header of the record at an entry's RES_ADDR matches it (R144). -/
def resMatches (x : IEnt) (statId : Nat) (h : List Byte) : Bool :=
  let r := resOf h
  r.valid && r.op == x.op && r.pexp == x.pexp && r.order == x.order && r.ncols == x.ncols && r.id == statId

/-- What an entry's outcomes rest on: its batch record, its place, its fields, its source's STAT_ID and DAMP, and whether that source was
assembled as a flat block. -/
structure ECtx where
  die    : Nat
  rec'   : Rec
  idx    : Nat
  x      : IEnt
  statId : Nat
  damp   : F32
  flat   : Bool
deriving Inhabited

/-- The entry's accesses. -/
def ECtx.by (e : ECtx) : By := ibxBy e.die e.rec'.ctx

/-- A fault that ends an entry: the read acts on its word and nothing else is written. -/
def entryFault (s : State) (b : By) (f : MemFault) : EOutcome × State :=
  ({ status := f.status }, match f with | .ecc a => devTouch s b (a / 8 * 8) 8 | .link => s)

/-- The work an entry has done: retries of LDLᵀ, iterations completed, FMAs, whether it started cold and whether that followed a rejected warm
start. -/
structure Work where
  att   : Nat := 0
  iters : Nat := 0
  fma   : Nat := 0
  cold  : Bool := false
  rej   : Bool := false
deriving Inhabited

/-- The right-hand side of SOLVE as rows of FP32 (R150). -/
def rhsRows (s : State) (x : IEnt) : List (List F32) :=
  (recordsOf x.order (2 * x.nrhs) (devRead s x.rhs x.rhsSize)).map (fun r => (codes 1 x.nrhs r).map (toF32 1))

/-- Tally 0x067 of each retry (R147). R147 does not say which value of att payload [34:32] holds: the model takes the value after att := att + 1,
the number of the retry (DESIGN CHOICE, log 80). -/
def retryPosts (s : State) (e : ECtx) (att : Nat) : State :=
  (List.range att).foldl (fun s k => ibxPost s e.die e.rec' 0x067 e.idx ((k + 1) * 2 ^ 32)) s

/-- A cold start: Tally 0x065 where a warm start was rejected (R152), CTX_ICOLD (R163). -/
def noteCold (s : State) (e : ECtx) (w : Work) : State :=
  let s := if w.cold && w.rej then ibxPost s e.die e.rec' 0x065 e.idx 0 else s
  if w.cold then ctxCount s e.rec'.ctx 0x150 1 else s

/-- The work of an entry broken off somewhere in work `w`: as much of it as was done is free within `w`; what the part done has recorded is
recorded (log 82). -/
def breakOff (s : State) (e : ECtx) (w : Work) : Work × State :=
  let (i, s) := freeBelow s (w.iters + 1)
  let (a, s) := if i = 0 then freeBelow s (w.att + 1) else (w.att, s)
  let (f, s) := freeBelow s (w.fma + 1)
  let (c, s) := if w.cold && i = 0 then freeBelow s 2 else (b2n w.cold, s)
  let d : Work := { att := a, iters := i, fma := f, cold := c == 1, rej := w.rej && c == 1 }
  (d, noteCold (retryPosts s e a) e d)

/-- The fallback of R157, or a fault reading SOLVE's right-hand side. -/
def fallback (s : State) (e : ECtx) (st : Status) (w : Work) : EOutcome × State :=
  let x := e.x
  match (if x.op = 3 then devFault s x.rhs x.rhsSize else none) with
  | some f => entryFault s e.by f
  | none =>
    let s := if x.op = 3 then devTouch s e.by x.rhs x.rhsSize else s
    let b := bodyCodes (fallbackBody x.op x.pexp x.order x.ncols (if x.srck = 0 then fadd f32one e.damp else f32one) (if x.op = 3 then rhsRows s x else []))
    ({ status := st, deliver := true, body := b.1, flags := BitVec.ofNat 8 (b2n w.cold + 4 + 16 * b2n (0 < w.att) + 32 * b2n e.flat), retries := w.att,
       sat := b.2.1, nan := b.2.2 }, s)

/-- Carry forward (R156), else fall back (R157) or, where `only` forbids that, deliver nothing. -/
def carryOr (s : State) (e : ECtx) (st : Status) (only : Bool) (w : Work) : EOutcome × State :=
  let done (y : EOutcome × State) : EOutcome × State := ({ y.1 with iters := w.iters, fma := w.fma }, y.2)
  match devFault s e.x.res 64 with
  | some f => done (entryFault s e.by f)
  | none =>
    let h := devRead s e.x.res 64
    let s := devTouch s e.by e.x.res 64
    if resMatches e.x e.statId h && (resOf h).age < e.x.maxage then done ({ status := stStale, carry := true }, s)
    else if only then done ({ status := st }, s)
    else done (fallback s e st w)

/-- A breakdown (R153). -/
def breakdown (s : State) (e : ECtx) (w : Work) : EOutcome × State :=
  carryOr (ibxPost s e.die e.rec' 0x064 e.idx (2 ^ 32)) e stBreakdown (ibPol e.rec' == 3) w

/-- A stop by the deadline with no iterate to deliver (R155). -/
def stopped (s : State) (e : ECtx) (w : Work) : EOutcome × State :=
  let (o, s) := if ibPol e.rec' = 3 then ({ status := stDeadline, iters := w.iters, fma := w.fma }, s) else carryOr s e stDeadline false w
  ({ o with stopped := true }, s)

/-- A computed body (R142, R143): its codes, its descriptor, and the status of the conditions met. -/
def delivered (e : ECtx) (mu : F32) (m : FMat) (resid : F32) (flags : Nat) (sts : List Status) (w : Work) : EOutcome :=
  let b := bodyCodes m
  { status := worst (sts ++ (if w.cold then [stCold] else []) ++ satStatus b.2.1 b.2.2), iters := w.iters, deliver := true, body := b.1, mu := mu, resid := resid,
    flags := BitVec.ofNat 8 (flags + b2n w.cold + 16 * b2n (0 < w.att) + 32 * b2n e.flat), retries := w.att, bodyIters := w.iters, sat := b.2.1, nan := b.2.2, fma := w.fma }

/-- Outcome of an iteration that ended (R150, R151, R155): `w` is the work done beside the iteration's, `all` the FMAs of the undisturbed run, `body`
forms what is delivered. -/
def iterOutcome (s : State) (e : ECtx) (mu : F32) (it : Iterate) (w : Work) (all : Nat) (body : FMat) (cutOk : Bool) : EOutcome × State :=
  let w := { w with iters := it.k, fma := w.fma + it.fma }
  match it.how with
  | .done => (delivered e mu body it.resid 0 [] w, s)
  | .notConv => (delivered e mu body it.resid 8 [] w, ibxPost s e.die e.rec' 0x066 e.idx 0)
  | .broke => breakdown s e w
  | _ =>
    let (f, s) := freeBelow s (all - w.fma + 1)
    let w := { w with fma := w.fma + f }
    if ibPol e.rec' = 1 && cutOk then ({ delivered e mu body it.resid 2 [stCut] w with stopped := true }, s) else stopped s e w

/-- The columns of SOLVE's or INV's right-hand side. -/
def rhsCols (s : State) (x : IEnt) : List FMat :=
  let rows := ((rhsRows s x).map List.toArray).toArray
  (List.range x.ncols).map (fun c =>
    ((List.range x.order).map (fun i => if x.op = 3 then (rows.getD i #[]).getD c 0 else kron i c)).toArray)

/-- An entry's operation on its loaded matrix, run to its end, or to a deadline after `stop` residuals: the factorisation's work, or ROOT's start,
and the iteration where there is one. -/
def runMath (s : State) (x : IEnt) (mat : List F32) (warm : Option (List F32)) (stop : Option Nat) : Work × Option FMat × Option Iterate :=
  let b := x.order
  let a : FMat := mat.toArray
  match x.op with
  | 1 =>
    match chol b a with
    | (l, none) => ({ fma := facFma b b }, some l, none)
    | (_, some j) => ({ fma := facFma b j }, none, none)
  | 5 =>
    let r := root b x.pexp a (warm.map List.toArray) x.tol x.wstol x.maxit stop
    ({ cold := r.cold, rej := r.rejected }, none, some r.it)
  | _ =>
    let f := ldlt b a x.retry x.shift0
    ({ att := f.att, fma := f.fma }, f.l,
      if x.op = 2 then none else f.l.map (fun l => solveCols b a l (rhsCols s x) x.tol x.maxit stop))

/-- The whole work of an entry's undisturbed run. -/
def fullWork (s : State) (x : IEnt) (mat : List F32) (warm : Option (List F32)) : Work :=
  let y := runMath s x mat warm none
  match y.2.2 with
  | some it => { y.1 with iters := it.k, fma := y.1.fma + it.fma }
  | none => y.1

/-- Run an entry's operation on its loaded matrix to its end, or to a deadline after `stop` residuals. -/
def runEntry (s : State) (e : ECtx) (mat : List F32) (warm : Option (List F32)) (mu : F32) (stop : Option Nat) : EOutcome × State :=
  let x := e.x
  let b := x.order
  let all := fullWork s x mat warm
  if stop = some 0 || (stop.isSome && x.op ≤ 2) then
    let y := breakOff s e { all with iters := 0 }
    stopped y.2 e y.1
  else
    let y := runMath s x mat warm stop
    let w := y.1
    let s := noteCold (retryPosts s e w.att) e w
    match y.2.1, y.2.2 with
    | some l, none => (delivered e mu (fBuild b b (fun i j => if j ≤ i then fAt b l i j else 0)) 0 0 [] w, s)
    | none, none => breakdown s e w
    | none, some it => iterOutcome s e mu it w all.fma (fSym b (it.x.headD #[])) (fle it.resid x.cuttol)
    | some _, some it =>
      match (if x.op = 3 then devFault s x.rhs x.rhsSize else none) with
      | some f => let y := entryFault s e.by f; ({ y.1 with fma := w.fma }, y.2)
      | none =>
        let s := if x.op = 3 then devTouch s e.by x.rhs x.rhsSize else s
        let m := ofCols b it.x
        iterOutcome s e mu it w all.fma (if x.op = 4 then fSym b m else m) true

/-! ### Writing results (R143, R156) -/

/-- The header after a delivery. -/
def deliverHdr (h : List Byte) (x : IEnt) (statId step : Nat) (o : EOutcome) : List Byte :=
  let r := resOf h
  let new := !r.cur
  let desc := natLE 4 step ++ natLE 4 o.mu.toNat ++ natLE 4 o.resid.toNat ++ natLE 1 o.bodyIters ++ natLE 1 o.flags.toNat ++ natLE 1 o.retries ++ [0]
  let h := setBits (setBytes h (descAt new) desc) 1 6 1 (b2n new)
  let h := setFld (setFld h 10 2 0) 12 4 step
  if r.valid then h
  else setFld (setFld (setFld (setBits (setBits (setFld h 0 1 x.op) 1 0 4 x.pexp) 1 7 1 1) 2 2 x.order) 4 4 statId) 8 2 x.ncols

/-- The header after a carry forward (R156). -/
def carryHdr (h : List Byte) (step : Nat) : List Byte := setFld (setFld h 10 2 (min ((resOf h).age + 1) 0xFFFF)) 12 4 step

/-- Write a body into the non-current body (step 1 of R143). -/
def writeBody (s : State) (b : By) (x : IEnt) (o : EOutcome) : State :=
  if !o.deliver then s
  else devWrite s b (x.res + bodyAt (!(resOf (devRead s x.res 64)).cur) x.order x.ncols) (o.body.flatMap (fun c => natLE 2 c.toNat))

/-- What a header write records (R155, R163): a carry forward, a cut, or a fallback, with Tally 0x062, 0x063, or 0x064 where a deadline is its
cause (log 83). -/
def noteResult (s : State) (e : ECtx) (o : EOutcome) : State :=
  let c := e.rec'.ctx
  if o.carry then ctxCount (ibxPost s e.die e.rec' 0x062 e.idx 0) c 0x138 1
  else if o.deliver && o.flags.getLsbD 2 then
    ctxCount (if o.stopped then ibxPost s e.die e.rec' 0x064 e.idx (2 * 2 ^ 32) else s) c 0x148 1
  else if o.deliver && o.flags.getLsbD 1 then ctxCount (ibxPost s e.die e.rec' 0x063 e.idx 0) c 0x140 1
  else s

/-- Commit an entry's outcome: the header, then STATUS and ITERS in the entry table (steps 2 and 3 of R143). -/
def writeHeader (s : State) (e : ECtx) (o : EOutcome) : State :=
  let x := e.x
  let h := devRead s x.res 64
  let s := if o.deliver then devWrite s e.by x.res (deliverHdr h x e.statId (ibStep e.rec') o)
    else if o.carry then devWrite s e.by x.res (carryHdr h (ibStep e.rec')) else s
  devWrite (noteResult s e o) e.by (ibEnt e.rec' + 64 * e.idx + 17) [o.status, BitVec.ofNat 8 o.iters]

/-- An outcome whose record cannot be read or written at its delivery: the entry ends with FAULT_ECC and the record is unchanged. -/
def guardRes (s : State) (b : By) (x : IEnt) (o : EOutcome) : EOutcome × State :=
  if !o.deliver then (o, s)
  else
    match (devFault s x.res 64).or (devWrFault s x.res x.resLen) with
    | some f => let y := entryFault s b f; ({ y.1 with iters := o.iters, fma := o.fma, stopped := o.stopped }, y.2)
    | none => (o, devTouch s b x.res 64)

/-- Record that entry `idx` of a batch has ended. -/
def entryOver (s : State) (die id idx : Nat) (o : EOutcome) : State :=
  s.modIbx die (fun y => { y with batches := y.batches.map (fun b =>
    if b.id = id then { b with outs := tset (fun _ => {}) b.outs idx { o with body := [] } } else b) })

/-- The source of an entry not yet dispatched, for its outcome: STAT_ID and DAMP of its record (0 for a dense source). -/
def sourceOf (s : State) (x : IEnt) : Nat × F32 :=
  if x.srck = 1 then (0, 0) else let t := statOf (devRead s x.src 64); (t.id, t.damp)

/-- Entries that a deadline stops or keeps from starting count in IBX_DLSTOP (R162). -/
def countStop (s : State) (die : Nat) (o : EOutcome) : State :=
  if o.stopped then s.modIbx die (fun y => { y with ctr := ctrAdd y.ctr 0x028 1 }) else s

/-- An entry that never starts because of the deadline: the outcome of the "Not started" row of R155, at once. -/
def notStarted (s : State) (die : Nat) (b : Batch) (idx : Nat) : State :=
  let x := ientOf (b.entries.getD idx [])
  let e0 : ECtx := { die := die, rec' := b.rec', idx := idx, x := x, statId := 0, damp := 0, flat := false }
  let fin (y : EOutcome × State) (e : ECtx) : State :=
    let (o, s) := guardRes y.2 e.by x { y.1 with stopped := true }
    entryOver (writeHeader (writeBody (countStop s die o) e.by x o) e o) die b.id idx o
  match (if x.srck = 0 then devFault s x.src 64 else none) with
  | some f => fin (entryFault s e0.by f) e0
  | none =>
    let t := sourceOf s x
    let e := { e0 with statId := t.1, damp := t.2 }
    fin (stopped s e {}) e

/-- A batch's deadline has come. -/
def batchLate (s : State) (r : Rec) : Bool := ibPol r != 0 && ibDeadline r ≤ s.time.toNat

/-! ### ENTRY_DISPATCH (R141, R152) -/

/-- The batch whose entries are being dispatched. -/
def dispatching (x : Ibex) : Option Batch := x.batches.find? (fun b => b.dispatched < b.entries.length)

/-- The warm start of R152: rules 1 to 5, before the test of R151; a body that cannot be read ends the entry. -/
def warmStart (s : State) (x : IEnt) (statId : Nat) (a : FMat) : Checked (Option (List F32)) :=
  if x.op != 5 || x.nowarm then .ok none
  else
    match devFault s x.wsAt 64 with
    | some f => .fault f
    | none =>
      let h := devRead s x.wsAt 64
      let r := resOf h
      let b := x.order
      let bo := r.order
      let body := (x.wsAt + bodyAt r.cur bo r.ncols, 2 * bo * r.ncols)
      let take (f : (Nat → Nat → F32) → List F32) : Checked (Option (List F32)) :=
        match devFault s body.1 body.2 with
        | some g => .fault g
        | none =>
          let o : FMat := ((codes 1 (bo * r.ncols) (devRead s body.1 body.2)).map (toF32 1)).toArray
          .ok (some (f (fAt bo o)))
      if !r.valid || r.op != 5 || r.pexp != x.pexp || bitOf (curFlags h) 2 then .ok none
      else if bo = b && r.id = statId then take (fun o => (fBuild b b o).toList)
      else if !x.wsxs then .ok none
      else if b ≤ bo then
        (if x.wsoff + b ≤ bo then take (fun o => (fBuild b b (fun i j => o (x.wsoff + i) (x.wsoff + j))).toList) else .ok none)
      else if x.wsoff + bo ≤ b then
        take (fun o =>
          let x0 := fdiv f32one (sqrtN (rootQ x.pexp) (rowBound b a))
          let inn (i : Nat) : Bool := x.wsoff ≤ i && i < x.wsoff + bo
          (fBuild b b (fun i j => if inn i && inn j then o (i - x.wsoff) (j - x.wsoff) else if i = j then x0 else 0)).toList)
      else .ok none

/-- Why the parts of its source that an entry reads cannot be read. -/
def srcFault (s : State) (x : IEnt) : Option MemFault := x.srcReads.findSome? (fun r => devFault s r.1 r.2)

/-- The side effects of reading an entry's source: words with errors among those it reads, and the tiles it lies in (log 46). -/
def srcTouch (s : State) (b : By) (x : IEnt) : State :=
  let n := if x.srck = 0 then 64 + 2048 * x.nt else x.srcSize
  readErrors ((tilesOf x.src n).foldl (touchTile b false x.src n) s) b
    ((badWords s.uniBad x.src n).filter (fun w => x.srcReads.any (fun r => meets r.1 r.2 (8 * w.1) 8)))

/-- Load an entry on its group: assembly or the dense source, then the warm start. -/
def loadEntry (s : State) (die : Nat) (b : Batch) (idx lane g : Nat) : State :=
  let x := ientOf (b.entries.getD idx [])
  let by' := ibxBy die b.rec'.ctx
  let put (s : State) (e : Entry) : State := s.modIbx die (fun y => { y with entries := y.entries ++ [e] })
  let base : Entry := { seq := b.id, idx := idx, lane := lane, group := g, phase := .computing, since := s.time }
  match srcFault s x with
  | some f => let y := entryFault s by' f; put y.2 { base with phase := .computed, out := y.1 }
  | none =>
    let bs := devRead s x.src (if x.srck = 0 then 64 + 2048 * x.nt else x.srcSize)
    let s := srcTouch s by' x
    let as := if x.srck = 0 then assemble (bs.take 64) (bs.drop 64) else { m := f32s (x.order * x.order) bs, mu := 0, flat := false }
    let st := statOf (bs.take 64)
    let s := if as.flat then ctxCount (post s (uIbex die) b.rec'.ctx 0x061 (bitsOf x.src 6 42)) b.rec'.ctx 0x130 1 else s
    let e := { base with mat := as.m, mu := as.mu, flat := as.flat, damp := if x.srck = 0 then st.damp else 0, statId := BitVec.ofNat 32 (if x.srck = 0 then st.id else 0) }
    match warmStart s x e.statId.toNat as.m.toArray with
    | .fault f => let y := entryFault s by' f; put y.2 { e with phase := .computed, out := y.1 }
    | .ok w => put s { e with warm := w }
    | .refuse _ _ => put s e

/-- The entry of a batch being dispatched is not dispatched again. -/
def takeEntry (s : State) (die : Nat) (b : Batch) : State :=
  s.modIbx die (fun y => { y with batches := y.batches.map (fun q => if q.id = b.id then { q with dispatched := b.dispatched + 1 } else q) })

/-- A bridge holds what an entry on a lane sends to the memory ports: what it reads, or its result record (R31; log 88). -/
def ientHeld (s : State) (die lane : Nat) (r : List Byte) : Bool :=
  let x := ientOf r
  (ientReads s r ++ [(x.res, x.resLen)]).any (fun g => bridgeHolds s (.lane (16 * die + lane)) g.1 g.2)

/-- ENTRY_DISPATCH (R141): the next entry in order goes to the lowest free group of unretired lanes of the context's partitions, and waits while there is
none; where failed lanes alone leave it no group, it ends with FAULT_ECC (R161); past the deadline it never starts. -/
def execEntryDispatch (die : Nat) (s : State) : Host.Outcome State Fault Refusal :=
  match dispatching (s.ibx die) with
  | none => .next s
  | some b =>
    let idx := b.dispatched
    let c := b.rec'.ctx
    let g := (ientOf (b.entries.getD idx [])).group
    let s' := takeEntry s die b
    if batchLate s b.rec' then .next (notStarted s' die b idx)
    else
      let may := (groupsOf g).filter (groupAll (laneFor s die c) · g)
      let good := may.filter (groupAll (fun i => !(s.ibx die).failed.getLsbD i) · g)
      if may != [] && good == [] then
        .next (entryOver (devWrite s' (ibxBy die c) (ibEnt b.rec' + 64 * idx + 17) [stEcc, 0]) die b.id idx { status := stEcc })
      else
        match good.find? (fun f => groupAll (fun i => !laneBusy (s.ibx die) i && !laneFenced s die i) f g) with
        | none => .next s
        | some f => .next (if ientHeld s die f (b.entries.getD idx []) then s else loadEntry s' die b idx f g)

/-! ### Ends of entries -/

/-- The batch of an entry. -/
def batchOf (x : Ibex) (e : Entry) : Option Batch := x.batches.find? (fun b => b.id == e.seq)

/-- The entry whose lane group holds a lane, in a phase. -/
def entryAt (x : Ibex) (lane : Nat) (ph : EntryPhase) : Option Entry :=
  x.entries.find? (fun e => e.lane ≤ lane && lane < e.lane + e.group && e.phase == ph)

def putEntry (s : State) (die : Nat) (e : Entry) : State :=
  s.modIbx die (fun x => { x with entries := x.entries.map (fun y => if y.seq = e.seq && y.idx = e.idx then e else y) })

/-- The words with a check-code error in the lane stores of an entry's group; lane `i` has its words at `i * 2^19`. -/
def laneErrs (x : Ibex) (e : Entry) : List (Nat × BitVec 2) := x.bad.filter (fun w => e.lane ≤ w.1 / 2 ^ 19 && w.1 / 2 ^ 19 < e.lane + e.group)

/-- Forget the error of a lane-store word. -/
def laneGood (s : State) (die w : Nat) : State := s.modIbx die (fun x => { x with bad := tset d0 x.bad w 0 })

/-- A corrected lane-store word is counted, reported and made good (R162). -/
def laneCorrect (s : State) (die c w : Nat) : State :=
  post ((laneGood s die w).modIbx die (fun x => { x with corrected := stick x.corrected 1 })) (uIbex die) c 0x040 (8 * (w % 2 ^ 19) + 2 ^ 22 * (w / 2 ^ 19))

/-- An uncorrectable lane-store word met by an entry (R162, R197). -/
def laneUncorr (s : State) (die : Nat) (r : Rec) (idx w : Nat) : State :=
  ibxPost (s.modIbx die (fun x => { x with uncorr := true, eccLane := BitVec.ofNat 4 (w / 2 ^ 19), errAddr := BitVec.ofNat 19 (w % 2 ^ 19) })) die r 0x041 idx 0

/-- What an entry does to a lane-store word with an error: `k` says whether it reads the word, merges a partial write into it, writes it whole, or does
not touch it. An uncorrectable word that is read marks its lane FAILED and ends the entry (R161, R197). -/
def laneMeet (s : State) (die : Nat) (r : Rec) (idx : Nat) (w : Nat × BitVec 2) (k : Nat) : Bool × State :=
  if k = 3 then (false, s)
  else if k = 2 then (false, laneGood s die w.1)
  else if w.2 = 1 then (false, laneCorrect s die r.ctx w.1)
  else if k = 1 then (false, laneUncorr s die r idx w.1)
  else (true, (laneUncorr s die r idx w.1).modIbx die (fun x => { x with failed := x.failed ||| BitVec.ofNat 16 (2 ^ (w.1 / 2 ^ 19)) }))

/-- What an entry's accesses to the lane stores do about words with errors: which accesses meet them is free, as the spec does not lay the lane
store out (log 84). -/
def laneScan (s : State) (die : Nat) (r : Rec) (e : Entry) : Bool × State :=
  (laneErrs (s.ibx die) e).foldl (fun (y : Bool × State) (w : Nat × BitVec 2) =>
    if y.1 then y else laneMeet (freeBelow y.2 4).2 die r e.idx w (freeBelow y.2 4).1) (false, s)

/-- R160: SCLK of an entry's passes, as far as the entry's sizes fix them; the rest is free (log 24). -/
def laneCycles (e : Entry) (x : IEnt) : Nat := e.group * (256 + cdiv (x.order * x.order) (64 * e.group))

/-- Count an entry's FMAs and lane cycles: at least `least`, and a free number more (log 24). -/
def countLanes (s : State) (die fma least : Nat) : State :=
  let (extra, s) := freeBelow s (2 ^ 40)
  s.modIbx die (fun y => { y with ctr := ctrAdd (ctrAdd y.ctr 0x018 fma) 0x020 (least + extra) })

/-- Finish an entry on its lanes: its body is written, and it waits for its header. -/
def finishEntry (s : State) (die : Nat) (b : By) (e : Entry) (x : IEnt) (o : EOutcome) : State :=
  let (o, s) := guardRes s b x o
  let s := countLanes (countStop s die o) die o.fma (if o.stopped || o.status = stEcc then 0 else laneCycles e x)
  putEntry (writeBody s b x o) die { e with phase := .computed, out := { o with body := [] } }

/-- What an entry's outcome rests on. -/
def ectxOf (die : Nat) (b : Batch) (e : Entry) : ECtx :=
  { die := die, rec' := b.rec', idx := e.idx, x := ientOf (b.entries.getD e.idx []), statId := e.statId.toNat, damp := e.damp, flat := e.flat }

/-- Run the entry of a lane to its end. -/
def endEntry (s : State) (die lane : Nat) (stop : Option Nat) : State :=
  match entryAt (s.ibx die) lane .computing with
  | none => s
  | some e =>
    match batchOf (s.ibx die) e with
    | none => s
    | some b =>
      let c := ectxOf die b e
      let y := laneScan s die b.rec' e
      if y.1 then
        let z := breakOff y.2 c (fullWork s c.x e.mat e.warm)
        finishEntry z.2 die c.by e c.x { status := stEcc, iters := z.1.iters, fma := z.1.fma }
      else
        let z := runEntry y.2 c e.mat e.warm e.mu stop
        finishEntry z.2 die c.by e c.x z.1

/-- The SCLK between two comparisons with DEADLINE within a pass, 4,096 (R154), in ns. -/
def compareNs : Nat := 1280

/-- ENTRY_COMPUTE_END (R145): the entry on the lane ends by convergence, MAXIT or breakdown. Once a comparison with DEADLINE must have come after the
deadline, the entry has stopped at it instead, after a free number of its residuals (R154, R155). -/
def execEntryComputeEnd (die lane : Nat) (s : State) : Host.Outcome State Fault Refusal :=
  match entryAt (s.ibx die) lane .computing with
  | none => .next s
  | some e =>
    match batchOf (s.ibx die) e with
    | none => .next s
    | some b =>
      if ientHeld s die lane (b.entries.getD e.idx []) then .next s
      else if batchLate s b.rec' && ibDeadline b.rec' + compareNs < s.time.toNat then
        let y := freeBelow s ((fullWork s (ientOf (b.entries.getD e.idx [])) e.mat e.warm).iters + 1)
        .next (endEntry y.2 die lane (some y.1))
      else .next (endEntry s die lane none)

/-- The late batches' entries that have not been dispatched never start (R154). -/
def dropLate (s : State) (die : Nat) : State :=
  ((s.ibx die).batches.filter (fun b => batchLate s b.rec')).foldl (fun s b =>
    ((List.range b.entries.length).filter (fun i => b.dispatched ≤ i)).foldl (fun s i => notStarted s die b i)
      (s.modIbx die (fun y => { y with batches := y.batches.map (fun q => if q.id = b.id then { q with dispatched := b.entries.length } else q) }))) s

/-- The computing entry on a lane belongs to a late batch. -/
def entryLate (s : State) (die lane : Nat) : Bool :=
  match entryAt (s.ibx die) lane .computing with
  | some e => (match batchOf (s.ibx die) e with | some b => batchLate s b.rec' | none => false)
  | none => false

/-- DEADLINE_REACHED (R154, R155): the entry on the lane stops after `iters` residuals; entries of late batches not yet dispatched never
start. -/
def execDeadlineReached (die lane iters : Nat) (s : State) : Host.Outcome State Fault Refusal :=
  .next (dropLate (if entryLate s die lane then endEntry s die lane (some iters) else s) die)

/-- A batch all of whose entries have ended. -/
def batchDone (x : Ibex) (b : Batch) : Bool := b.outs.length == b.entries.length && !x.entries.any (fun e => e.seq == b.id)

/-- BATCH_COMPLETE (R159). -/
def execBatchComplete (die : Nat) (s : State) : Host.Outcome State Fault Refusal :=
  match (s.ibx die).batches.find? (batchDone (s.ibx die)) with
  | none => .next s
  | some b =>
    let os := b.outs.map (·.2)
    let sat := (os.map (·.sat)).sum
    let nan := (os.map (·.nan)).sum
    let fresh := (os.filter (fun o => o.deliver && !o.flags.getLsbD 2)).length
    let carried := (os.filter (·.carry)).length
    let s := s.modIbx die (fun x => { x with batches := x.batches.filter (fun q => q.id != b.id) })
    let s := countSat s (uIbex die) b.rec'.ctx sat nan
    .next (ibxReport s die b.rec' (worst (os.map (·.status))) fresh (carried + 2 ^ 16 * (os.length - fresh - carried)) (sat + nan))

/-! ### Fences (R161, R283) -/

/-- End a batch's entry with ABORTED_FENCED, or with what ranks above it among what it had met (R10): nothing more is written to its record. What
a body already written has counted stays (R159). -/
def fenceEntry (s : State) (die : Nat) (b : Batch) (idx : Nat) (o : EOutcome) : State :=
  let st := worst [o.status, stFenced]
  entryOver (devWrite s (ibxBy die b.rec'.ctx) (ibEnt b.rec' + 64 * idx + 17) [st, BitVec.ofNat 8 o.iters]) die b.id idx
    { status := st, iters := o.iters, sat := o.sat, nan := o.nan }

/-- What a dispatched entry has done when a fence ends it: a computing one some part of its work. -/
def fencedWork (s : State) (die : Nat) (b : Batch) (e : Entry) : EOutcome × State :=
  if e.phase = .computed then (e.out, s)
  else
    let c := ectxOf die b e
    let y := breakOff s c (fullWork s c.x e.mat e.warm)
    ({ iters := y.1.iters }, countLanes y.2 die y.1.fma 0)

/-- Fence the entries on a die that a test picks: dispatched ones by the test on them. -/
def fenceRunning (s : State) (die : Nat) (p : Entry → Bool) : State :=
  let es := (s.ibx die).entries.filter p
  es.foldl (fun s e =>
    match batchOf (s.ibx die) e with
    | none => s
    | some b =>
      let y := fencedWork s die b e
      let s := fenceEntry y.2 die b e.idx y.1
      s.modIbx die (fun x => { x with entries := x.entries.filter (fun y => !(y.seq == e.seq && y.idx == e.idx)) })) s

/-- Fence a context's work on an Ibex die: its batches' entries, and the records not yet checked. -/
def fenceIbex (s : State) (die c entry : Nat) : State :=
  let mine := (s.ibx die).batches.filter (fun b => b.rec'.ctx == c)
  let ids := mine.map (·.id)
  let arrived := (s.ibx die).arrived.filter (fun r => r.ctx == c)
  let k := ((s.ibx die).entries.filter (fun e => ids.contains e.seq)).length + (mine.map (fun b => b.entries.length - b.dispatched)).sum + arrived.length
  let s := fenceRunning s die (fun e => ids.contains e.seq)
  let s := mine.foldl (fun s b =>
    ((List.range b.entries.length).filter (fun i => b.dispatched ≤ i)).foldl (fun s i => fenceEntry s die b i {})
      (s.modIbx die (fun y => { y with batches := y.batches.map (fun q => if q.id = b.id then { q with dispatched := b.entries.length } else q) }))) s
  let s := arrived.foldl (fun s r => ibxReport (s.modIbx die (fun x => { x with arrived := x.arrived.erase r })) die r stFenced 0 0 0) s
  if k = 0 then s else post s (uIbex die) c 0x051 (min k 0xFFFF + 2 ^ 16 * entry)

/-- Fence lanes of a die: the entries whose groups hold them, one 0x051 for each context. -/
def fenceLanes (s : State) (die entry : Nat) (p : Nat → Bool) : State :=
  let hit := fun (e : Entry) => (List.range e.group).any (fun k => p (e.lane + k))
  let ctxs := ((s.ibx die).entries.filter hit).filterMap (fun e => (batchOf (s.ibx die) e).map (fun b => b.rec'.ctx))
  let s := fenceRunning s die hit
  ctxs.eraseDups.foldl (fun s c => post s (uIbex die) c 0x051 (min (ctxs.count c) 0xFFFF + 2 ^ 16 * entry)) s

/-! ### Hurdles on units (R283, R382, R412) -/

/-- Payload of the Hurdle events (R412). -/
def hurdlePay (kind t i : Nat) : Nat := t + 2 ^ 32 * kind + 2 ^ 35 * i

/-- The cores a unit holds. -/
def unitCores (kind i : Nat) : List Nat :=
  match kind with
  | 1 => [i]
  | 2 => (List.range 10).map (· + 10 * i)
  | 3 => (List.range 100).map (· + 100 * i)
  | _ => []

/-- End the running work of a core, cluster, die, lane or Ibex die (R283). -/
def fenceEngines (s : State) (kind i entry : Nat) : State :=
  match kind with
  | 4 => fenceLanes s (i / 16) entry (· == i % 16)
  | 5 => fenceLanes s i entry (fun _ => true)
  | _ => (unitCores kind i).foldl (fun s n => fenceCore s n entry) s

/-- Raise a Hurdle of kind 5 on a unit in a free entry. -/
def raiseUnit (s : State) (i kind idx : Nat) : State :=
  let t := kind + 256 * idx
  let s := s.modHurdle i (fun h => { h with busy := true, quiesced := false, lifting := false, result := stDone, kind := 5, target := BitVec.ofNat 32 t })
  fenceEngines (post s uHub 0 0x0A3 (hurdlePay 5 t i)) kind idx i

/-- The lowest free HUB_HURDLE entry. -/
def freeEntry (s : State) : Option Nat := (List.range 16).find? (fun i => !(s.hurdle i).busy)

/-- Firmware proposes a unit's retirement (R382): 0x0F5, PROPOSE, and a Hurdle of kind 5, now or once an entry frees. -/
def proposeUnit (s : State) (kind idx : Nat) : State :=
  let s := post { s with hub2 := { s.hub2 with propose := true } } uHub 0 0x0F5 (kind + 256 * idx)
  if unitFenced s kind idx then s
  else match freeEntry s with
    | some i => raiseUnit s i kind idx
    | none => { s with hub2 := { s.hub2 with wanted := s.hub2.wanted ++ [(kind, idx)] } }

/-- Propose the lanes of a die that are marked FAILED and not proposed yet (log 37). -/
def proposeLanes (s : State) (die : Nat) : State :=
  ((List.range 16).filter (fun i => (s.ibx die).failed.getLsbD i && !(s.ibx die).proposed.getLsbD i)).foldl (fun s i =>
    proposeUnit (s.modIbx die (fun x => { x with proposed := x.proposed ||| BitVec.ofNat 16 (2 ^ i) })) 4 (16 * die + i)) s

/-- HEADER_COMMIT (R143): the body acknowledged, the header is written and then the entry's STATUS and ITERS; the lanes are free, and
firmware proposes the retirement of lanes marked FAILED (R382). -/
def execHeaderCommit (die lane : Nat) (s : State) : Host.Outcome State Fault Refusal :=
  match entryAt (s.ibx die) lane .computed with
  | none => .next s
  | some e =>
    match batchOf (s.ibx die) e with
    | none => .next s
    | some b =>
      if ientHeld s die lane (b.entries.getD e.idx []) then .next s
      else
        let s := writeHeader s (ectxOf die b e) e.out
        let s := s.modIbx die (fun x => { x with entries := x.entries.filter (fun y => !(y.seq == e.seq && y.idx == e.idx)) })
        .next (proposeLanes (entryOver s die b.id e.idx e.out) die)

end Sys2Proof.Machine
end

