-- ==== Sys2Proof/Machine/Sync.lean ====
section
/-! DEFINITION. Folds: their configuration, their masks, and SYNC between devices (R279 to R282, R287). -/

namespace Sys2Proof.Machine

open Sys2Proof

/-- A die Fold's registers lie in die control, a device Fold's in the HUB block (R287). -/
def foldArea : FoldId → RegArea
  | .die _ _ => .admin
  | .dev _ => .hub

/-- FOLD_CFG (R279, R287): a write that would give two valid Folds one ADDR is ignored. -/
def execFoldCfg (who : Party) (f : FoldId) (value : BitVec 64) (s : State) : Host.Outcome State Fault Refusal :=
  .next (gated s who (foldArea f) (fun s =>
    let v := value.toNat
    let addr : BitVec 42 := BitVec.ofNat 42 (bitsOf v 6 42)
    if bitOf v 63 && s.folds.any (fun x => x.1 != foldKey f && x.2.valid && x.2.addr == addr) then s
    else s.modFold (foldKey f) (fun x => { x with valid := bitOf v 63, ctx := BitVec.ofNat 10 (bitsOf v 48 10), addr := addr })))

/-- The mask after a write of FOLD_MASK0 or FOLD_MASK1 (R287). -/
def maskWrite (k : Nat) (high : Bool) (v : Nat) (x : Fold) : Fold :=
  let m := x.mask.toNat
  if foldDev k then
    (if high then { x with localN := BitVec.ofNat 10 (max 1 (bitsOf v 48 10)) } else { x with mask := BitVec.ofNat 100 (bitsOf v 0 33) })
  else if high then { x with mask := BitVec.ofNat 100 (m % 2 ^ 64 + 2 ^ 64 * bitsOf v 0 36) }
  else { x with mask := BitVec.ofNat 100 (v % 2 ^ 64 + 2 ^ 64 * (m / 2 ^ 64)) }

/-- FOLD_MASK (R282): arrivals outside the new mask are cleared; arrivals that then equal it release the phase. -/
def execFoldMask (who : Party) (f : FoldId) (high : Bool) (value : BitVec 64) (s : State) : Host.Outcome State Fault Refusal :=
  .next (gated s who (foldArea f) (fun s =>
    let k := foldKey f
    let s := s.modFold k (fun x =>
      let y := maskWrite k high value.toNat x
      { y with arr := y.arr &&& y.mask, early := y.early &&& y.mask })
    foldSettle s k))

/-- A SYNC packet of a rank for device Fold `f` and a phase (R281, R282). -/
def syncArrive (s : State) (f rank : Nat) (phase : BitVec 48) : State :=
  let k := 512 + f
  let x := s.fold k
  let cur : BitVec 48 := BitVec.ofNat 48 (foldPhase s k).toNat
  let ahead := (phase - cur).toNat
  if !x.valid || !x.mask.getLsbD rank then foldDrop s k x.ctx.toNat rank
  else if ahead = 0 then foldSettle (s.modFold k (fun x => { x with arr := setBit100 x.arr rank })) k
  else if ahead = 1 then s.modFold k (fun x => { x with early := setBit100 x.early rank })
  else if ahead < 2 ^ 47 then foldDrop s k x.ctx.toNat rank
  else s

/-- SYNC_REPEAT (R281): a valid device Fold sends the SYNC of its latest completed local phase again. -/
def execSyncRepeat (f : Nat) (s : State) : Host.Outcome State Fault Refusal :=
  let x := s.fold (512 + f)
  match x.valid, x.sentPh with
  | true, some ph => .next (sendSync s (512 + f) ph)
  | _, _ => .next s

end Sys2Proof.Machine
end

