-- ==== Sys2Proof/Machine/Fabric.lean ====
section
/-! DEFINITION. The fabric: frames and retry, packets at their destination, responses, device time, links and routes (R222 to R236, R243). -/

namespace Sys2Proof.Machine

open Sys2Proof

/-! ### Ports (R222, R223, R232) -/

/-- The sections an optical port holds. -/
def opSects (s : State) (p : Nat) : List Sect := sectsOf s (.oport p)

/-- Mode of a port: off where it or its laser die is retired (R243). -/
def opMode (s : State) (p : Nat) : Nat :=
  let r := retiredOf (opSects s p)
  if oportRetired r p || laserRetired r (p / 8) then 0 else (portPlan (opSects s p) p).1

/-- The LANE_RATE limit lets the port run (R223). -/
def rateOk (s : State) (p : Nat) : Bool :=
  let r := (limitsOf s (opSects s p)).rate
  if opMode s p = 2 then 200 ≤ r else 100 ≤ r

/-- The launch limit in force at a port, in 0.1 dBm. -/
def launchLimit (s : State) (p : Nat) : Int := (limitsOf s (opSects s p)).launch

/-- The port may run: it is on, and the LANE_RATE limit does not hold it DOWN (R223). -/
def portTrains (s : State) (p : Nat) : Bool := opMode s p != 0 && rateOk s p

/-- Wavelengths a port uses: λ0 to λ3 for Ethernet (R222). -/
def litLines (s : State) (p : Nat) : Nat := if opMode s p = 2 then 4 else 8

/-- Start the link protocol afresh: sequence numbers, credit (R230, R231). -/
def freshLink (o : OPort) : OPort := { o with txSeq := 0, rxSeq := 0, unacked := [], nakOwed := false, credit := [], freed := [] }

/-- An access's packet still waits for its route to change path (R226). -/
def pathWaits (s : State) (a : Access) : Bool :=
  s.oports.any (fun o => o.2.waiting.any (fun k => k.xtag.toNat == a.tag % 4096 && k.dst.toNat == a.rank))

/-- A port moves to DOWN (R226, R232): Tally 0x091, OP_DOWNS, and its unacknowledged packets fail. -/
def linkDown (s : State) (p payload : Nat) : State :=
  let s := post (s.modOport p (fun o =>
    { (freshLink o) with state := 0, downs := stick o.downs 1, downSince := s.time, held := [], rxq := [], ready := [], bridge := [], retrain := false, advert := none }))
    (uOport p) 0 0x091 payload
  (s.accesses.filter (fun a => a.port == p && !pathWaits s a)).foldl loseAccess s

/-- Light the wavelengths a port uses: what their arms launch and whether their rings lock are readings that no rule fixes (log 30). -/
def light (s : State) (p : Nat) : State :=
  let n := litLines s p
  let (v, s) := freeBelow s (2 ^ 80)
  s.modOport p (fun o => { o with dark := false, rxlock := BitVec.ofNat 8 (v % 2 ^ n), txlock := BitVec.ofNat 8 (v / 2 ^ 8 % 2 ^ n),
                                  launch := (List.range n).map (fun i => BitVec.ofNat 8 (v / 2 ^ (16 + 8 * i))) })

/-- A port begins link training, lit (R232): a fabric port sends its rank, its peer's rank in the port plan, and its generation. A port that its rate holds
DOWN stays or goes there (R223). -/
def startTraining (s : State) (p : Nat) : State :=
  if !portTrains s p then (if (s.oport p).state = 0 then s else linkDown s p 0)
  else
    let l := opSects s p
    light (s.modOport p (fun o =>
      { o with state := 1, retryTrain := false, advert := if opMode s p = 1 then some (ownRank l, (portPlan l p).2, genOf s (.oport p)) else none })) p

/-- A port goes DOWN if it is not, and trains again. -/
def trainAgain (s : State) (p : Nat) : State := startTraining (if (s.oport p).state = 0 then s else linkDown s p 0) p

/-- Resend from ACKSEQ + 1 (R231): the event, its frames and Tally 0x092, or, when one of them has been resent 8 times, the link goes DOWN. Frames
without packets are counted by a free number (log 27). -/
def resend (s : State) (p : Nat) : State :=
  if (s.oport p).unacked.any (fun f => 8 ≤ f.resent) then trainAgain s p
  else
    let n := max 1 (s.oport p).unacked.length
    let (idle, s) := freeBelow s (257 - n)
    post (s.modOport p (fun o =>
      { o with outbox := o.outbox ++ o.unacked.map (fun f => frameWith o f.seq (0, 0) f.pkt),
               unacked := o.unacked.map (fun f => { f with sent := s.time, resent := f.resent + 1 }),
               ctr := ctrAddField (ctrAddField o.ctr 0x020 0 32 1) 0x020 32 32 (n + idle) })) (uOport p) 0 0x092 0

/-- A link in which frames are acknowledged: UP, or CALIBRATING before its sweep (R240). -/
def linkRuns (o : OPort) : Bool := o.state == 2 || o.state == 3

/-- RESEND_TIMEOUT (R231): the oldest frame has gone unacknowledged for 2 µs. -/
def execResendTimeout (p : Nat) (s : State) : Host.Outcome State Fault Refusal :=
  let o := s.oport p
  match o.unacked with
  | [] => .next s
  | f :: _ => if !linkRuns o || s.time.toNat < f.sent.toNat + 2000 then .next s else .next (settleColls (resend s p))

/-- Acknowledge frames up to a sequence number. -/
def ackFrames (o : OPort) (n : BitVec 12) : OPort :=
  match o.unacked.findIdx? (fun f => f.seq == n) with
  | some i => { o with unacked := o.unacked.drop (i + 1) }
  | none => o

/-! ### Packets arriving (R225, R229, R231, R233) -/

/-- The delta being applied changes the route, partition or tier-map entry that governs a packet (R31). -/
def affected (s : State) (k : FabPkt) : Bool :=
  match s.weave.nxt with
  | none => false
  | some g =>
    let a := k.addr.toNat % 2 ^ 48
    let l := s.weave.cur.sects
    routeTo l k.src.toNat != routeTo g.sects k.src.toNat || routeTo l k.dst.toNat != routeTo g.sects k.dst.toNat || govern l a != govern g.sects a

/-- A port's bridge must hold a packet (R31): its tag differs, its target is affected, and the port has not begun to return to g (R32). Responses pass, since
VC 1 always drains (R230; log 60). -/
def bridges (s : State) (p : Nat) (k : FabPkt) : Bool :=
  (s.weave.st == .applying || s.weave.adopted.contains (.oport p)) && k.genp != genPar s (.oport p) && vcOf k.typ.toNat != some 1 && affected s k

/-- The bridge has room for a packet: 64 KiB, at 8 bytes a word (R31). -/
def bridgeRoom (o : OPort) (k : FabPkt) : Bool := 8 * ((o.bridge.map pktWords).sum + pktWords k) ≤ 65536

/-- Words that a VC's receive buffer holds. -/
def rxWords (o : OPort) (vc : Nat) : Nat := ((o.rxq.filter (fun k => vcOf k.typ.toNat == some vc)).map pktWords).sum

/-- A packet has left its VC's receive buffer: its words are credit owed to the peer (R230). -/
def freeWords (o : OPort) (k : FabPkt) : OPort :=
  match vcOf k.typ.toNat with
  | some vc => { o with freed := tset dN o.freed vc (tget dN o.freed vc + pktWords k) }
  | none => o

/-- Drop a packet that cannot be routed (R225). -/
def misroute (s : State) (p : Nat) (tally : Bool) : State :=
  let s := s.modOport p (fun o => { o with ctr := ctrAddField o.ctr 0x038 32 32 1 })
  if tally then post s (uOport p) 0 0x098 0 else s

/-- A packet for another rank is forwarded once, on the primary route (R225). -/
def forward (s : State) (p : Nat) (k : FabPkt) : State :=
  match k.fwd, routeTo (opSects s p) k.dst.toNat with
  | false, some r => if portUp s r.prim then emit s r.prim { k with fwd := true } else misroute s p true
  | _, _ => misroute s p true

/-- Corrected words of a packet (R233): its two header words, its data words, its signal words. -/
def correctedWords (k : FabPkt) : Nat :=
  ((k.header :: k.header1 :: k.checks.take k.len.toNat ++ (if k.att then [k.sigc0, k.sigc1] else [])).filter (· == .single)).length

/-- An uncorrectable packet word arrived (R233). -/
def noteE2E (s : State) (p : Nat) : State := s.modOport p (fun o => { o with e2eUncorr := true })

/-- A packet passes the receive buffer and the bridge: at its destination it waits to be served, otherwise it is forwarded. -/
def passPacket (s : State) (p : Nat) (k : FabPkt) : State :=
  if k.dst.toNat = ownRank (opSects s p) then s.modOport p (fun o => { o with ready := o.ready ++ [k] }) else forward s p k

/-- Take a packet at its port (R225, R229 to R231, R233): the end-to-end check of its header, its type, the receive buffer of its VC, and the generation
bridge behind it. A packet that a full bridge does not take stays in the buffer, and its VC stops. One beyond the credit the port has given is dropped
(log 86). -/
def takePacket (s : State) (p : Nat) (k : FabPkt) : State :=
  let own := k.dst.toNat == ownRank (opSects s p)
  let s := if own then s.modOport p (fun o => { o with e2eCorr := stick o.e2eCorr (correctedWords k) }) else s
  if k.header = .double || k.header1 = .double then (noteE2E s p).modOport p (fun o => freeWords o k)
  else
    match vcOf k.typ.toNat with
    | none => misroute s p false
    | some vc =>
      if vcWords vc < rxWords (s.oport p) vc + pktWords k then s
      else if bridges s p k then
        (if bridgeRoom (s.oport p) k && rxWords (s.oport p) vc = 0 then s.modOport p (fun o => freeWords { o with bridge := o.bridge ++ [k] } k)
         else s.modOport p (fun o => { o with rxq := o.rxq ++ [k] }))
      else if own || rxWords (s.oport p) vc != 0 then s.modOport p (fun o => { o with rxq := o.rxq ++ [k] })
      else forward (s.modOport p (fun o => freeWords o k)) p k

/-- The bridge of a port lets its packets go, in order (R31), and with them those of other devices that it had stopped in the receive buffers. -/
def releaseBridge (s : State) (p : Nat) : State :=
  let b := (s.oport p).bridge
  let f := (s.oport p).rxq.filter (fun k => k.dst.toNat != ownRank (opSects s p))
  if b = [] && f = [] then s
  else
    let s := s.modOport p (fun o => f.foldl freeWords { o with bridge := [], rxq := o.rxq.filter (fun k => k.dst.toNat == ownRank (opSects s p)) })
    (b ++ f).foldl (fun s k => passPacket s p k) s

/-- FRAME_RECEIVE (R227, R231): a frame out of order or with a bad CRC is discarded and owes a NAK; the FEC's corrections count in either case (R244). -/
def execFrameReceive (p : Nat) (f : Frame) (s : State) : Host.Outcome State Fault Refusal :=
  let o := s.oport p
  if opMode s p ≠ 1 || !linkRuns o then .next s
  else
    let s := s.modOport p (fun o => { o with ctr := ctrAdd o.ctr 0x028 f.fec })
    if !f.crcOk || f.seq != o.rxSeq then .next (s.modOport p (fun o => { o with nakOwed := true }))
    else
      let s := s.modOport p (fun o => ackFrames { o with rxSeq := o.rxSeq + 1, nakOwed := false, ctr := ctrAdd o.ctr 0x018 1 } f.ackseq)
      let s := if f.nak then resend s p else s
      let s := if f.credit = 0 || f.creditVc.toNat = 3 then s else
        let vc := f.creditVc.toNat
        s.modOport p (fun o => { o with credit := tset vcWords o.credit vc (min (vcWords vc) (tget vcWords o.credit vc + f.credit)) })
      let s := if (s.oport p).held = [] then s else releaseHeld s p
      .next (settleColls (f.pkts.foldl (fun s k => takePacket s p k) s))

/-- Bytes that a packet's data words carry: as many as it names, where its LEN agrees (log 17). -/
def pktBytes (k : FabPkt) : Nat := if cdiv k.nbytes 8 = k.len.toNat then k.nbytes else 8 * k.len.toNat

/-- The bytes of a packet's data words (R228). -/
def pktData (k : FabPkt) : List Byte := unpackWords (pktBytes k) (k.data.take k.len.toNat)

/-- A packet waits in its buffer: a full bridge has stopped it, or the bridge at the memory port of its target would hold it (R31). -/
def frontStops (s : State) (p : Nat) (k : FabPkt) : Bool :=
  bridges s p k || (vcOf k.typ.toNat == some 0 && bridgeHolds s (.oport p) (k.addr.toNat % 2 ^ 48) (pktBytes k))

/-- The front packet of a virtual channel at a port, when it has a type and nothing stops it, and the state without it: what has left the bridge comes
first. -/
def takeFront (s : State) (p typ : Nat) : Option (FabPkt × State) :=
  let vc := vcOf typ
  match (s.oport p).ready.find? (fun k => vcOf k.typ.toNat == vc) with
  | some k => if k.typ.toNat = typ && !frontStops s p k then some (k, s.modOport p (fun o => { o with ready := o.ready.erase k })) else none
  | none =>
    match (s.oport p).rxq.find? (fun k => vcOf k.typ.toNat == vc) with
    | some k => if k.typ.toNat = typ && !frontStops s p k then some (k, s.modOport p (fun o => freeWords { o with rxq := o.rxq.erase k } k)) else none
    | none => none

/-! ### Requests at their destination (R229, R233, R234) -/

/-- A peer's requests are fenced (R283). -/
def rankFenced (s : State) (r : Nat) : Bool := hurdled s 4 r

/-- Why a request may not reach its region (R234, R291, R306): the response's status. -/
def reqRefuse (s : State) (p : Nat) (k : FabPkt) (a n : Nat) (write : Bool) : Option Status :=
  let l := opSects s p
  let c := k.ctx.toNat
  if rankFenced s k.src.toNat || Config.uniTop < a + n then some stPrivilege
  else if write && hitsSealed s a n then some stPrivilege
  else if c = 0 then none
  else if (s.ctx c).state != 1 || ctxFenced s c || !inRanges s l c a n || (write && hitsRo s c a n) then some stPrivilege
  else if hitsUnbacked s a n then some stBounds
  else none

/-- Count and record a refused request (R234). -/
def countReject (s : State) (p : Nat) (k : FabPkt) : State :=
  post (s.modOport p (fun o => { o with ctr := ctrAddField o.ctr 0x038 0 32 1 })) (uOport p) k.ctx.toNat 0x094 (k.src.toNat + 2 ^ 6 * k.ctx.toNat)

/-- Answer a request. -/
def respond (s : State) (p : Nat) (k : FabPkt) (typ : Nat) (st : Status) (data : List (BitVec 64)) (checks : List WordCheck) : State :=
  let a : FabPkt :=
    { typ := BitVec.ofNat 6 typ, genp := genPar s (.oport p), fwd := false, src := BitVec.ofNat 6 (ownRank (opSects s p)), dst := k.src,
      ctx := k.ctx, len := BitVec.ofNat 6 data.length, nbytes := k.nbytes, xtag := k.xtag, att := false, fmt := 0, status := st, addr := k.addr, data := data,
      checks := checks, header := .good, sig0 := 0, sig1 := 0 }
  (sendPkt s (opSects s p) k.src.toNat a).getD s

/-- A packet has an uncorrectable word after its header (R233): a data word, or with ATT a signal word (log 17). -/
def dataBad (k : FabPkt) : Bool := (k.checks.take k.len.toNat ++ (if k.att then [k.sigc0, k.sigc1] else [])).any (· == .double)

/-- Accesses that a packet's request makes at this device. -/
def pktBy (k : FabPkt) : By := { ctx := k.ctx.toNat }

/-- The address a packet names (R228). -/
def pktAddr (k : FabPkt) : Nat := k.addr.toNat % 2 ^ 48

/-- Fields of a signal's words (R275). -/
def pktSigAddr (k : FabPkt) : Nat := bitsOf k.sig0.toNat 0 48
def pktSigOp (k : FabPkt) : Nat := b2n (bitOf k.sig0.toNat 48)

/-- Apply the signal a packet carries, checked as its own write: its status (R234, R275). -/
def pktSignal (s : State) (p : Nat) (k : FabPkt) : Status × State :=
  if !k.att then (stDone, s)
  else
    let a := pktSigAddr k
    match reqRefuse s p k a 8 true with
    | some st => (st, countReject s p k)
    | none => if a % 8 ≠ 0 then (stDescriptor, s) else arriveSignal s k.ctx.toNat k.src.toNat a (pktSigOp k) k.sig1

/-- WRITE (R229, R234): the bytes are written, unless their tile is lost (R202), and then the signal that the packet carries is applied. -/
def execWrite (p : Nat) (s : State) : Host.Outcome State Fault Refusal :=
  match takeFront s p 0x01 with
  | none => .next s
  | some (k, s) =>
    if dataBad k then .next (settleColls (respond (noteE2E s p) p k 0x11 stEcc [] []))
    else
      match reqRefuse s p k (pktAddr k) (pktBytes k) true with
      | some st => .next (respond (countReject s p k) p k 0x11 st [] [])
      | none =>
        match devWrFault s (pktAddr k) (pktBytes k) with
        | some f => .next (settleColls (respond s p k 0x11 f.status [] []))
        | none =>
          let s := devWrite s (pktBy k) (pktAddr k) (pktData k)
          let (st, s) := pktSignal s p k
          .next (settleColls (respond s p k 0x11 st [] []))

/-- Add elements into a region (R182): what the conversions count. -/
def addInto (s : State) (b : By) (f a : Nat) (src : List Byte) : State × Nat × Nat :=
  let z := fmtSize f
  ((codes f (src.length / z) src).zipIdx).foldl (fun (x : State × Nat × Nat) v =>
    let at' := a + v.2 * z
    let e := encElem f ((decode f (leNat (devRead x.1 at' z))).add (decode f v.1))
    (devWrite x.1 b at' e.bytes, x.2.1 + e.sat, x.2.2 + e.nan)) (s, 0, 0)

/-- ADD (R182): add-on-writes at the destination; a FMT that R228 does not list is refused. -/
def execAdd (p : Nat) (s : State) : Host.Outcome State Fault Refusal :=
  match takeFront s p 0x02 with
  | none => .next s
  | some (k, s) =>
    let a := pktAddr k
    let n := pktBytes k
    if dataBad k then .next (respond (noteE2E s p) p k 0x11 stEcc [] [])
    else
      match reqRefuse s p k a n true with
      | some st => .next (respond (countReject s p k) p k 0x11 st [] [])
      | none =>
        if 1 < k.fmt.toNat then .next (respond s p k 0x11 stDescriptor [] [])
        else
          match devFault s a n with
          | some f => .next (respond (devTouch s (pktBy k) a n) p k 0x11 f.status [] [])
          | none =>
            let (s, sat, nan) := addInto (devTouch s (pktBy k) a n) (pktBy k) k.fmt.toNat a (pktData k)
            let s := countSat s (uMport (portOf s (a / 4096))) k.ctx.toNat sat nan
            let (st, s) := pktSignal s p k
            .next (settleColls (respond s p k 0x11 (worse st (if sat + nan = 0 then stDone else stSaturated)) [] []))

/-- READREQ (R229): the words read travel with the check codes they have in memory (R228). -/
def execReadreq (p : Nat) (s : State) : Host.Outcome State Fault Refusal :=
  match takeFront s p 0x03 with
  | none => .next s
  | some (k, s) =>
    let a := pktAddr k
    let n := pktBytes k
    match reqRefuse s p k a n false with
    | some st => .next (respond (countReject s p k) p k 0x10 st [] [])
    | none =>
      let ws := packWords (devRead s a n)
      let cs := (List.range ws.length).map (fun i => if (devFault s (a + 8 * i) (min 8 (n - 8 * i))).isSome then WordCheck.double else WordCheck.good)
      .next (respond (devTouch s (pktBy k) a n) p k 0x10 stDone ws cs)

/-- SIGNAL (R275): applied at the destination, and ACKed with its status; one with an uncorrectable word writes nothing (R233), and a fenced rank's is
dropped (R283). -/
def execSignalPacket (p : Nat) (s : State) : Host.Outcome State Fault Refusal :=
  match takeFront s p 0x04 with
  | none => .next s
  | some (k, s) =>
    if rankFenced s k.src.toNat then .next s
    else if dataBad k then .next (settleColls (respond (noteE2E s p) p k 0x11 stEcc [] []))
    else
      let (st, s) := pktSignal s p k
      .next (settleColls (respond s p k 0x11 st [] []))

/-! ### Responses at the requester -/

/-- The oldest access a response answers. -/
def answered (s : State) (k : FabPkt) (typs : List Nat) : Option Access :=
  s.accesses.find? (fun a => a.tag % 4096 == k.xtag.toNat && a.rank == k.src.toNat && typs.contains a.typ.toNat)

/-- The status a response gives its access: a refusal becomes FAULT_LINK (R234, R275). -/
def respStatus (st : Status) : Status := if refusedClass st then stLink else st

/-- The command or record that made an access still runs: after a fence nothing more is written for it (R410). -/
def ownerRuns (s : State) (a : Access) : Bool :=
  if a.unit < 800 then (s.core a.unit).running.any (fun r => r.start == a.owner.2)
  else (s.ce ((a.unit - 0x440) / 4)).inflight.any (fun r => r.order == a.owner.2)

/-- What a READRSP brings goes to its destination (R218): an element that a GCOPY gathers waits at its command for those before it; a read of another
owner is written. -/
def landRead (s : State) (a : Access) (bs : List Byte) : State :=
  match (if ownerRuns s a then a.dst else none) with
  | none => endAccess s a stDone
  | some (side, d) =>
    let w : Wr := { scratch := side, addr := d, bytes := bs }
    if a.unit < 800 then
      endAccess (s.modCore a.unit (fun c => { c with running := c.running.map (fun r => if r.start = a.owner.2 then { r with land := r.land ++ [(a.idx, w)] } else r) })) a stDone
    else
      match w.fault s with
      | some f => endAccess s a f.status
      | none => endAccess (applyWr { ctx := a.ctx } s w) a stDone

/-- READRSP (R229): the data goes to its destination and the access ends. -/
def execReadrsp (p : Nat) (s : State) : Host.Outcome State Fault Refusal :=
  match takeFront s p 0x10 with
  | none => .next s
  | some (k, s) =>
    match answered s k [0x03] with
    | none => .next s
    | some a =>
      if dataBad k then .next (settleColls (endAccess (noteE2E s p) a stEcc))
      else if k.status ≠ stDone then .next (settleColls (endAccess s a (respStatus k.status)))
      else .next (settleColls (landRead s a (unpackWords a.words (k.data.take k.len.toNat))))

/-- An owner has dropped a contribution of a context of this device (R256, R268). -/
def noteDropped (s : State) (a : Access) (st : Status) : State :=
  if st = stDropped then s.modCtx a.ctx (fun c => { c with ctr := ctrAddField c.ctr 0x198 32 32 1 }) else s

/-- ACK (R275). -/
def execAck (p : Nat) (s : State) : Host.Outcome State Fault Refusal :=
  match takeFront s p 0x11 with
  | none => .next s
  | some (k, s) =>
    match answered s k [0x01, 0x02, 0x04] with
    | none => .next s
    | some a => .next (settleColls (endAccess (noteDropped s a k.status) a (respStatus k.status)))

/-- ACK_TIMEOUT (R226): a packet unacknowledged 50 µs after sending is held to be lost. -/
def execAckTimeout (xtag : Nat) (s : State) : Host.Outcome State Fault Refusal :=
  match s.accesses.find? (fun a => a.live && a.tag % 4096 == xtag && decide (a.sent.toNat + 50000 ≤ s.time.toNat)) with
  | some a => .next (settleColls (loseAccess s a))
  | none => .next s

/-- A packet of a route that has left on a port is still unacknowledged (R226): a request without its response, or any frame on the port. -/
def routeOpen (s : State) (p rank : Nat) : Bool :=
  s.accesses.any (fun a => a.live && a.rank == rank) || (s.oport p).unacked.any (fun f => !f.pkt.fwd && f.pkt.dst.toNat == rank)

/-- ROUTE_PATH_CHANGE (R226): with no packet of the route unacknowledged, the route takes its new path, and its packets that have not left go there in
order (R235); with no path their accesses fail. -/
def execRoutePathChange (rank : Nat) (s : State) : Host.Outcome State Fault Refusal :=
  let pa := tget pathDef s.paths rank
  match pa.change, routeTo s.weave.cur.sects rank with
  | true, some r =>
    let old := livePort s r
    if routeOpen s old rank then .next s
    else
      let mine := fun (k : FabPkt) => !k.fwd && k.dst.toNat == rank
      let wait := (s.oport old).held.filter mine ++ (s.oport r.prim).waiting.filter mine
      let s := s.modOport old (fun o => { o with held := o.held.filter (fun k => !mine k) })
      let s := s.modOport r.prim (fun o => { o with waiting := o.waiting.filter (fun k => !mine k) })
      match wantPort s r with
      | some p =>
        let s := { s with paths := tset pathDef s.paths rank { alt := p != r.prim, change := false },
                          accesses := s.accesses.map (fun a => if a.rank = rank then { a with port := p } else a) }
        .next (wait.foldl (fun s k => emit s p k) s)
      | none =>
        let s := { s with paths := tset pathDef s.paths rank { pa with change := false } }
        .next (settleColls ((s.accesses.filter (fun a => a.rank == rank)).foldl (fun s a => endAccess s a stLink) s))
  | _, _ => .next s

/-! ### Device time (R236) and SYNC (R281) -/

/-- Slew the counter by at most 1 ns in each µs toward a target. -/
def slewTo (s : State) (target : Nat) : State :=
  if usOf s ≤ s.slewUs || target = s.time.toNat then s else { s with slew := some (s.time.toNat < target), slewUs := usOf s }

/-- The delay from rank 0 on a route (R236): on the alternate path the delays of both hops add up. The delay of the second hop, which this device does
not measure, is a free number (log 89). -/
def pathDelay (s : State) (r : Route) (d : Nat) : Nat × State :=
  if (tget pathDef s.paths r.rank).alt then let (x, s) := freeBelow s (2 ^ 16); (d + x, s) else (d, s)

/-- TIME (R236): the pair of times gives the link delay; the route to rank 0 steers device time. One with an uncorrectable word is not used (R233). -/
def execTime (p : Nat) (s : State) : Host.Outcome State Fault Refusal :=
  match takeFront s p 0x20 with
  | none => .next s
  | some (k, s) =>
    if dataBad k then .next (noteE2E s p)
    else
      let ts := k.data.getD 0 0
      let ta := k.data.getD 1 0
      let now := s.time
      let s := s.modOport p (fun o =>
        { o with lastTimeRx := some (ts, now),
                 delay := match o.lastTimeTx with | some t => if ta = 0 then o.delay else some (((now - t) - (ts - ta)).toNat / 2) | none => o.delay })
      let l := opSects s p
      match routeTo l 0, (s.oport p).delay with
      | some r, some d =>
        if ownRank l ≠ 0 && livePort s r == p then
          let (d, s) := pathDelay s r d
          .next (slewTo s (ts.toNat + d))
        else .next s
      | _, _ => .next s

/-- TIME_SEND (R236). -/
def execTimeSend (p : Nat) (s : State) : Host.Outcome State Fault Refusal :=
  if opMode s p ≠ 1 || !portUp s p then .next s
  else
    let k : FabPkt :=
      { typ := 0x20, genp := genPar s (.oport p), fwd := false, src := BitVec.ofNat 6 (ownRank (opSects s p)), dst := BitVec.ofNat 6 (portPlan (opSects s p) p).2,
        ctx := 0, len := 2, nbytes := 16, xtag := 0, att := false, fmt := 0, status := 0, addr := 0,
        data := [s.time, match (s.oport p).lastTimeRx with | some x => x.2 | none => 0], checks := [], header := .good, sig0 := 0, sig1 := 0 }
    .next ((emit s p k).modOport p (fun o => { o with lastTimeTx := some s.time }))

/-- SYNC (R281); a fenced rank's is dropped (R283). -/
def execSync (p : Nat) (s : State) : Host.Outcome State Fault Refusal :=
  match takeFront s p 0x21 with
  | none => .next s
  | some (k, s) =>
    if rankFenced s k.src.toNat then .next s
    else .next (syncArrive s (bitsOf k.addr.toNat 0 8) k.src.toNat (BitVec.ofNat 48 (bitsOf k.addr.toNat 8 48)))

/-! ### Link training (R232) -/

/-- The ports that a laser die feeds (R222). -/
def fedPorts (q : Nat) : List Nat := (List.range 8).map (8 * q + ·)

/-- A port has swept and retrained, or cannot: it neither calibrates nor trains. -/
def calDone (s : State) (p : Nat) : Bool := (s.oport p).state != 3 && (s.oport p).state != 1

/-- A laser die's recalibration completes once none of its ports calibrates or trains any more (R241, R244). -/
def settleLaser (s : State) (q : Nat) : State :=
  if (s.laser q).calibrating && (fedPorts q).all (calDone s) then s.modLaser q (fun l => { l with calibrating := false, recals := stick l.recals 1 }) else s

/-- A port that comes UP takes a retraining that was asked for while it calibrated (R243). -/
def takeRetrain (s : State) (p : Nat) : State :=
  if (s.oport p).retrain then settleColls (trainAgain (s.modOport p (fun o => { o with retrain := false })) p) else s

/-- A port comes UP: the packets that waited at it go. -/
def comeUp (s : State) (p : Nat) : State :=
  takeRetrain (releaseHeld (s.modOport p (fun o => { o with state := 2 })) p) p

/-- LINK_TRAINING (R232): with each end's rank equal to the other's port-plan peer the fabric port comes UP; otherwise it stays DOWN, as it does where its
rate holds it (R223). -/
def execLinkTraining (p peerRank peerPeer _peerGen : Nat) (s : State) : Host.Outcome State Fault Refusal :=
  let o := s.oport p
  let m := opMode s p
  if o.state ≠ 1 || m = 0 then .next s
  else if !rateOk s p then .next (settleLaser (settleColls (linkDown s p 0)) (p / 8))
  else if m = 2 then .next (settleLaser (comeUp s p) (p / 8))
  else if peerRank = (portPlan (opSects s p) p).2 && peerPeer = ownRank (opSects s p) then
    .next (settleLaser (comeUp (post s (uOport p) 0 0x090 0) p) (p / 8))
  else .next (settleLaser (settleColls ((linkDown s p 1).modOport p (fun o => { o with retryTrain := true }))) (p / 8))

/-- TRAINING_RETRY (R232): every 10 ms after a mismatch. -/
def execTrainingRetry (p : Nat) (s : State) : Host.Outcome State Fault Refusal :=
  let o := s.oport p
  if o.state = 0 && o.retryTrain && o.downSince.toNat + 10000000 ≤ s.time.toNat then .next (startTraining s p) else .next s

end Sys2Proof.Machine
end

