-- ==== Sys2Proof/Machine/QueuePairs.lean ====
section
/-! DEFINITION. Queue pairs of an Ethernet port: their records, RDMA READ requests, and retransmission (R238, R239). -/

namespace Sys2Proof.Machine

open Sys2Proof

/-- The fields of a queue-pair record (R239). -/
structure Qp where
  valid   : Bool
  ipv6    : Bool
  vlanen  : Bool
  pcp     : Nat
  dscp    : Nat
  vid     : Nat
  rqpn    : Nat
  npsn    : Nat
  mtu     : Nat
  retry   : Nat
  timeout : Nat
  maxrd   : Nat
  err     : Bool
  sport   : Nat
  lmac    : List Byte
  rmac    : List Byte
  lip     : List Byte
  rip     : List Byte
deriving DecidableEq, Repr, Inhabited

/-- Address of queue-pair record `i` of a port. -/
def qpAddr (s : State) (p i : Nat) : Nat := (s.oport p).qpBase.toNat * 128 + 128 * i

/-- A record's fields. PMTU 3, which R239 does not list, is taken as 4,096 bytes, and MAXRD as 1 to 16 (log 31). -/
def qpOf (r : List Byte) : Qp :=
  { valid := bitOf (fld r 0 1) 0, ipv6 := bitOf (fld r 0 1) 1, vlanen := bitOf (fld r 0 1) 2, pcp := bitsOf (fld r 0 1) 3 3, dscp := bitsOf (fld r 1 1) 0 6,
    vid := bitsOf (fld r 2 2) 0 12, rqpn := fld r 4 3, npsn := fld r 8 3,
    mtu := min 4096 (1024 * 2 ^ bitsOf (fld r 12 1) 0 2), retry := bitsOf (fld r 13 1) 0 3, timeout := bitsOf (fld r 14 1) 0 5,
    maxrd := max 1 (min 16 (bitsOf (fld r 15 1) 0 5)), err := bitOf (fld r 16 1) 0, sport := fld r 18 2, lmac := (r.drop 24).take 6, rmac := (r.drop 32).take 6,
    lip := (r.drop 40).take 16, rip := (r.drop 56).take 16 }

/-- The headers of a frame that a queue pair sends (R239): a VLAN tag only with VLANEN. -/
def Qp.hdr (q : Qp) : EthHdr :=
  { lmac := q.lmac, rmac := q.rmac, vid := if q.vlanen then some q.vid else none, pcp := q.pcp, dscp := q.dscp, ipv6 := q.ipv6, lip := q.lip, rip := q.rip,
    sport := q.sport, rqpn := q.rqpn }

def qpRec (s : State) (p i : Nat) : Qp := qpOf (uniRead s (qpAddr s p i) 128)

/-- Numbers of the valid records of a port. -/
def validQps (s : State) (p : Nat) : List Nat := (List.range (s.oport p).qpCount.toNat).filter (fun i => (qpRec s p i).valid)

/-- The valid record that a local queue-pair number names. -/
def qpByNumber (s : State) (p : Nat) (qpn : BitVec 24) : Option Nat :=
  if 0x100 ≤ qpn.toNat && (validQps s p).contains (qpn.toNat - 0x100) then some (qpn.toNat - 0x100) else none

def qpRun (s : State) (p i : Nat) : QpRun := tget qpDef (s.oport p).qps i
def setQpRun (s : State) (p i : Nat) (q : QpRun) : State := s.modOport p (fun o => { o with qps := tset qpDef o.qps i q })

/-- The port runs Ethernet. -/
def ethUp (s : State) (p : Nat) : Bool := opMode s p == 2 && (s.oport p).state == 2

/-- Transmission on a priority is paused (R237). -/
def pausedPrio (s : State) (p prio : Nat) : Bool := s.time.toNat < tget dN (s.oport p).paused prio

/-- Write a field of a queue-pair record. -/
def putQpField (s : State) (p i off n v : Nat) : State := devWrite s {} (qpAddr s p i + off) (natLE n v)

/-- Put frames in an Ethernet port's output. -/
def sendEth (s : State) (p : Nat) (l : List EthOut) : State := s.modOport p (fun o => { o with ethOut := o.ethOut ++ l })

/-- Send one RDMA READ request, if the queue pair may have one more outstanding and its priority is not paused: each response packet
takes one PSN (log 31). -/
def sendRead (s : State) (p i job tile raddr rkey len : Nat) : Option State :=
  let q := qpRec s p i
  let run := qpRun s p i
  if !ethUp s p || !q.valid || q.err || q.maxrd ≤ run.outstanding.length || pausedPrio s p q.pcp then none
  else
    let n := max 1 (cdiv len q.mtu)
    let s := putQpField s p i 8 3 ((q.npsn + n) % 2 ^ 24)
    let s := setQpRun s p i { run with outstanding := run.outstanding ++ [{ psn := q.npsn, pkts := n, job := job, tile := tile, raddr := raddr, len := len }],
                                       since := if run.outstanding = [] then s.time else run.since }
    some (sendEth s p [.readReq q.hdr i q.npsn raddr rkey len])

/-- Send a request of a queue pair again from its response packet number `got` on. -/
def againFrom (q : Qp) (i : Nat) (rkey : Nat → Nat) (x : RdRead) (got : Nat) : EthOut :=
  .readReq q.hdr i ((x.psn + got) % 2 ^ 24) (x.raddr + got * q.mtu) (rkey x.job) (x.len - got * q.mtu)

/-- Send the outstanding requests of a queue pair again (go-back-N): the oldest from the first packet not received. -/
def resendReads (s : State) (p i : Nat) (rkey : Nat → Nat) : State :=
  let q := qpRec s p i
  let run := qpRun s p i
  sendEth (setQpRun s p i { run with since := s.time }) p (run.outstanding.zipIdx.map (fun x => againFrom q i rkey x.1 (if x.2 = 0 then run.got else 0)))

/-- A PSN lies among the response packets of a request. -/
def RdRead.has (x : RdRead) (n : Nat) : Bool := (n + 2 ^ 24 - x.psn % 2 ^ 24) % 2 ^ 24 < x.pkts

/-- Send the outstanding requests of a queue pair again from the PSN of a NAK on (R238). -/
def resendFrom (s : State) (p i : Nat) (rkey : Nat → Nat) (n : Nat) : State :=
  let q := qpRec s p i
  let run := qpRun s p i
  sendEth (setQpRun s p i { run with since := s.time }) p
    ((run.outstanding.dropWhile (fun x => !x.has n)).map (fun x => againFrom q i rkey x (if x.has n then (n + 2 ^ 24 - x.psn % 2 ^ 24) % 2 ^ 24 else 0)))

end Sys2Proof.Machine
end

