-- ==== Sys2Proof/Machine/Trust.lean ====
section
/-! DEFINITION. Trust: keys and key identifiers, the signature block (R24, R349, R350), and reading an image by its address. -/

namespace Sys2Proof.Machine

open Sys2Proof

/-! ### Keys (R349, R350, R354) -/

/-- KEY_ID of a public key: the first 8 bytes of the SHA-256 digest of X ‖ Y (R349). -/
def keyId (k : List Byte) : List Byte := (sha256 k).take 8

/-- The public key in a slot; empty where the slot is. -/
def slotKey (s : State) (i : Nat) : List Byte := tget dL s.sec.keys i

/-- The keys of `n` slots from slot `lo` upward that hold one. -/
def slotKeys (s : State) (lo n : Nat) : List (List Byte) := ((List.range n).map (fun i => slotKey s (lo + i))).filter (· != [])

/-- The operator's Weave keys and the publishers' keys (R349). -/
def weaveKeys (s : State) : List (List Byte) := slotKeys s 0 4
def publisherKeys (s : State) : List (List Byte) := slotKeys s 4 16

/-- The firmware keys that no fuse has revoked (R349). -/
def romKeys (s : State) : List (List Byte) := ((List.range 4).filter (fun i => !s.sec.revoked.getLsbD i)).map Config.romKey

/-- The device identity digest: SHA-256 of 0x04, X, Y (R350). -/
def identityDigest : List Byte := sha256 (0x04#8 :: Config.identityKey)

/-- The BINDING of this device: the low 64 bits of the identity digest, bytes 0 to 7 (R350). -/
def deviceBinding : Nat := fld identityDigest 0 8

/-! ### Signature blocks (R24) -/

/-- What a signature covers and its block. -/
def signedPart (img : List Byte) : List Byte := img.take (img.length - 96)
def sigBlock (img : List Byte) : List Byte := img.drop (img.length - 96)

/-- The block's reserved bytes are zero. -/
def sigReservedOk (img : List Byte) : Bool := ((sigBlock img).drop 72).all (· == 0)

/-- One of the keys has the block's KEY_ID and verifies the signature over the SHA-256 digest of the signed part. -/
def signedBy (keys : List (List Byte)) (img : List Byte) : Bool :=
  let b := sigBlock img
  match keys.find? (fun k => keyId k == b.take 8) with
  | some k => Config.ecdsaVerify k (sha256 (signedPart img)) ((b.drop 8).take 32) ((b.drop 40).take 32)
  | none => false

/-- A signature block made with the identity key (R28, R355). -/
def deviceBlock (part : List Byte) : List Byte :=
  keyId Config.identityKey ++ (Config.identitySign (sha256 part)).take 64 ++ List.replicate 24 0

/-! ### Addresses the hub reads and writes (R37, R361) -/

/-- Why a region of device memory that the hub uses cannot be used: outside the unified range and every window in use, an uncorrectable
word, or the host link. -/
def hubReadFault (s : State) (a n : Nat) : Option Status :=
  match spaceOf a with
  | .host =>
    if (windowOf s s.weave.cur.sects a n).isNone then some stPrivilege else (devFault s a n).map (·.status)
  | .gap => some stBounds
  | .uni => if Config.uniTop < a + n then some stBounds else (devFault s a n).map (·.status)

/-- Why the hub cannot write a region: as for reading, but the words need not be readable. -/
def hubWriteFault (s : State) (a n : Nat) : Option Status :=
  match spaceOf a with
  | .host => if (windowOf s s.weave.cur.sects a n).isNone then some stPrivilege else if hostReach s s.weave.cur.sects a n then none else some stLink
  | .gap => some stBounds
  | .uni => if Config.uniTop < a + n then some stBounds else if hitsSealed s a n then some stPrivilege else (devWrFault s a n).map (·.status)

end Sys2Proof.Machine
end

