-- ==== Sys2Proof/Machine/Load.lean ====
section
/-! DEFINITION. The firmware loader: MANIFEST, LOAD, tile checks and DIGEST (R305 to R311, R383). -/

namespace Sys2Proof.Machine

open Sys2Proof

/-! ### The load ring's records -/

/-- The front record of a context's load ring. -/
def loaderFront (s : State) (c : Nat) : Option Rec := (s.ctx c).loader.head?
def loaderPop (s : State) (c : Nat) : State := s.modCtx c (fun x => { x with loader := x.loader.drop 1 })

/-- Complete a record of the loader: CORE 0x3E0, ENG 0 (R309, R383, R406). -/
def loaderReport (s : State) (r : Rec) (st : Status) (count detail : Nat) : State := reportRec s r st 0x3E0 0 count detail 0

/-! ### Manifests (R305, R306) -/

def manKind (m : List Byte) : Nat := fld m 6 1
def manSet (m : List Byte) : Nat := fld m 8 8
def manGen (m : List Byte) : Nat := fld m 16 4
def manTiles (m : List Byte) : Nat := fld m 20 4
def manLast (m : List Byte) : Nat := fld m 24 2
def manTotal (m : List Byte) : Nat := fld m 28 4

/-- The manifest's own fields hold (R305): layout, ranges, length, reserved bytes. -/
def manOk (m : List Byte) (len : Nat) : Bool :=
  fld m 0 4 == 0x464D_5457 && fld m 4 2 == 1 && decide (manKind m ≤ 1) && fld m 7 1 == 0 && decide (1 ≤ manTiles m) && decide (manTiles m ≤ 8388608) &&
    decide (1 ≤ manLast m) && decide (manLast m ≤ 4096) && fld m 26 2 == 0 && (((m.drop 32).take 32).all (· == 0)) && manTotal m == 64 + 32 * manTiles m + 96 &&
    len == manTotal m && sigReservedOk m

/-- Fields of a MANIFEST record (R306). -/
def mrAddr (r : Rec) : Nat := fld r.bytes 16 8
def mrLen (r : Rec) : Nat := fld r.bytes 24 4
def mrRelease (r : Rec) : Bool := bitOf (fld r.bytes 1 1) 0

def manRecFail (r : Rec) : Option Nat :=
  firstFail (reservedFails [gAll 0 1, (1, 1, 0x11), gAll 2 2, gAddr 16, gAll 24 4] 0 64 r.bytes ++ fails [(0, r.op != 0x72), (16, mrAddr r % 64 != 0)])

/-- The verified manifest at an address. -/
def sealedAt (s : State) (a : Nat) : Option Manifest := s.manifests.find? (fun m => m.addr == a)

/-- A LOAD that names the manifest is queued or running. -/
def manInUse (s : State) (a : Nat) : Bool :=
  s.loads.any (fun j => fld j.rec'.bytes 40 6 == a) || s.ctxs.any (fun x => x.2.loader.any (fun r => r.op == 0x71 && fld r.bytes 40 6 == a))

/-- The checks of a MANIFEST record, in the order of the table of R306, and what a passing record does. -/
def runManifest (s : State) (r : Rec) : Refuse × State :=
  let l := s.weave.cur.sects
  let a := mrAddr r
  let n := mrLen r
  match manRecFail r with
  | some o => ((stDescriptor, o), s)
  | none =>
    if mrRelease r then
      (if manInUse s a then ((stAlias, 16), s)
       else if (sealedAt s a).isNone then ((stDescriptor, 16), s)
       else if !inRanges s l r.ctx a n then ((stPrivilege, 16), s)
       else ((stDone, 0), { s with manifests := s.manifests.filter (fun m => m.addr != a) }))
    else if n < 192 || 64 + 32 * 8388608 + 96 < n then ((stDescriptor, 24), s)
    else if !inRanges s l r.ctx a n then ((stPrivilege, 16), s)
    else if hitsUnbacked s a n then ((stBounds, 16), s)
    else
      match devFault s a n with
      | some f => ((f.status, f.detail), devTouch s { ctx := r.ctx } a n)
      | none =>
        let m := devRead s a n
        let s := devTouch s { ctx := r.ctx } a n
        if !manOk m n then ((stDescriptor, 16), s)
        else if !signedBy (publisherKeys s) m then ((stPrivilege, 16), s)
        else if (sealedAt s a).isSome then ((stDone, 0), s)
        else if 64 ≤ s.manifests.length then ((stBounds, 16), s)
        else ((stDone, 0), { s with manifests := s.manifests ++ [{ ctx := r.ctx, addr := a, len := n }] })

/-- MANIFEST (R306). A record whose opcode the load ring does not have is refused here (log 15). -/
def execManifest (c : Nat) (s : State) : Host.Outcome State Fault Refusal :=
  match loaderFront s c with
  | some r =>
    if r.op = 0x71 || r.op = 0x73 || !fwServes s c then .next s
    else
      let (x, s) := runManifest (loaderPop s c) r
      .next (loaderReport s r x.1 0 x.2)
  | none => .next s

/-! ### LOAD records (R307, R309, R311) -/

structure LdRec where
  swap    : Bool
  install : Bool
  src     : Nat
  port    : Nat
  qp      : Nat
  retries : Nat
  rkey    : Nat
  first   : Nat
  raddr   : Nat
  dst     : Nat
  ntiles  : Nat
  man     : Nat
  entry   : Nat
  slot    : Nat
deriving DecidableEq, Repr, Inhabited

def ldOf (b : List Byte) : LdRec :=
  { swap := bitOf (fld b 1 1) 3, install := bitOf (fld b 1 1) 2, src := bitsOf (fld b 1 1) 0 2, port := bitsOf (fld b 4 1) 0 5, qp := bitsOf (fld b 5 1) 0 6,
    retries := bitsOf (fld b 6 1) 0 3, rkey := fld b 8 4, first := bitsOf (fld b 12 4) 0 23, raddr := fld b 16 8, dst := bitsOf (fld b 24 8) 0 48,
    ntiles := bitsOf (fld b 32 4) 0 24, man := bitsOf (fld b 40 8) 0 48, entry := bitsOf (fld b 48 2) 0 14, slot := bitsOf (fld b 50 1) 0 1 }

def ldGroups : List Group :=
  [gAll 0 1, (1, 1, 0x1F), gAll 2 2, (4, 1, 0x1F), (5, 1, 0x3F), (6, 1, 7), gAll 8 4, (12, 4, 2 ^ 23 - 1), gAll 16 8, gAddr 24, (32, 4, 2 ^ 24 - 1),
   gAddr 40, (48, 2, 2 ^ 14 - 1), (50, 1, 1)]

/-- Device address of the source of tile 0 for SRC 1 and 2: a host address lies in host space (log 32). -/
def LdRec.srcAt (x : LdRec) : Nat := if x.src = 1 then Config.hostBase + x.raddr else x.raddr

/-- The first failing field of a LOAD by itself (row 1 of R309). -/
def ldFail (b : List Byte) : Option Nat :=
  let x := ldOf b
  firstFail (reservedFails ldGroups 0 64 b ++
    fails [(1, x.src == 3 || (x.swap && !x.install)), (4, x.src != 0 && x.port != 0), (5, x.src != 0 && x.qp != 0), (8, x.src != 0 && x.rkey != 0),
      (16, x.src != 0 && decide (Config.devTop ≤ x.srcAt)), (24, x.dst % 4096 != 0), (32, x.ntiles == 0 || decide (8388608 < x.ntiles)),
      (48, !x.install && x.entry != 0), (50, !x.install && x.slot != 0)])

/-- Bytes fetched of manifest tile `t` of a manifest. -/
def tileLen (m : List Byte) (t : Nat) : Nat := if t + 1 = manTiles m then manLast m else 4096

/-- An adapter entry (R310). -/
def adAddr (s : State) (c e : Nat) : Nat := (s.ctx c).adbase.toNat * 64 + 64 * e
def adRead (s : State) (c e : Nat) : List Byte := uniRead s (adAddr s c e) 64
def adSlotAddr (b : List Byte) (k : Nat) : Nat := bitsOf (fld b (8 * k) 8) 0 48
def adGen (b : List Byte) (k : Nat) : Nat := fld b (16 + 4 * k) 4
def adUsers (b : List Byte) (k : Nat) : Nat := fld b (24 + 4 * k) 4
def adCur (b : List Byte) : Nat := bitsOf (fld b 32 1) 0 1
def adValid (b : List Byte) (k : Nat) : Bool := bitOf (fld b 32 1) (1 + k)
def adSet (b : List Byte) : Nat := fld b 40 8

/-- An entry with VALID of a slot set or cleared. -/
def adPutValid (b : List Byte) (k : Nat) (v : Bool) : Nat :=
  let f := fld b 32 1
  f - bitsOf f (1 + k) 1 * 2 ^ (1 + k) + b2n v * 2 ^ (1 + k)

/-- The INSTALL checks (R311). The table must lie in the context's ranges (log 32). -/
def installCheck (s : State) (c : Nat) (x : LdRec) (m : List Byte) : Option (Refuse × Option MemFault) :=
  let a := adAddr s c x.entry
  let t := s.ctx c
  if t.adn.toNat ≤ x.entry then some ((stDescriptor, 48), none)
  else if !inRanges s s.weave.cur.sects c a 64 then some ((stPrivilege, 48), none)
  else
    match devFault s a 64 with
    | some f => some ((f.status, f.detail), some f)
    | none =>
      let b := adRead s c x.entry
      let cur := adCur b
      (firstRefuse [chk (x.dst != adSlotAddr b x.slot) stDescriptor 24, chk (x.first != 0) stDescriptor 12, chk (x.ntiles != manTiles m) stDescriptor 32,
        chk ((manKind m == 0) != (x.entry == 0)) stDescriptor 48, chk (adSet b != 0 && adSet b != manSet m) stPrivilege 48, chk (adUsers b x.slot != 0) stAlias 50,
        chk (s.loads.any (fun j => j.rec'.ctx == c && (ldOf j.rec'.bytes).install && (ldOf j.rec'.bytes).entry == x.entry && (ldOf j.rec'.bytes).slot == x.slot)) stAlias 50,
        chk (cur == x.slot && !t.hold) stAlias 50, chk (adValid b cur && decide (manGen m ≤ adGen b cur)) stGeneration 40]).map (fun r => (r, none))

/-- The checks of a LOAD in the order of R309, with the region to touch where a read fails. -/
def loadCheck (s : State) (r : Rec) : Option (Refuse × Option (Nat × Nat)) :=
  let l := s.weave.cur.sects
  let x := ldOf r.bytes
  let c := r.ctx
  match ldFail r.bytes with
  | some o => some ((stDescriptor, o), none)
  | none =>
    match sealedAt s x.man with
    | none => some ((stPrivilege, 40), none)
    | some mf =>
      match devFault s x.man 64 with
      | some f => some ((f.status, f.detail), some (x.man, 64))
      | none =>
        let m := uniRead s x.man 64
        let last := tileLen m (x.first + x.ntiles - 1)
        let srcLen := 4096 * (x.ntiles - 1) + last
        let dstLen := 4096 * x.ntiles
        if manTiles m ≤ x.first then some ((stDescriptor, 12), none)
        else if manTiles m < x.first + x.ntiles then some ((stDescriptor, 32), none)
        else
          let place := firstRefuse
            [chk (x.src == 1 && !hostAllowed s l x.srcAt srcLen) stPrivilege 16, chk (x.src == 2 && !inRanges s l c x.raddr srcLen) stPrivilege 16,
             chk (!inRanges s l c x.dst dstLen) stPrivilege 24, chk (x.src == 2 && hitsUnbacked s x.raddr srcLen) stBounds 16,
             chk (hitsUnbacked s x.dst dstLen) stBounds 24]
          match place with
          | some y => some (y, none)
          | none =>
            let qa := qpAddr s x.port x.qp
            if x.src = 0 && opMode s x.port ≠ 2 then some ((stMode, 4), none)
            else if x.src = 0 && (s.oport x.port).qpCount.toNat ≤ x.qp then some ((stMode, 5), none)
            else
              match (if x.src = 0 then devFault s qa 128 else none) with
              | some f => some ((f.status, f.detail), some (qa, 128))
              | none =>
                if x.src = 0 && (!(qpRec s x.port x.qp).valid || (qpRec s x.port x.qp).err) then some ((stMode, 5), none)
                else if hitsSealed s x.dst dstLen || (x.src == 2 && meets x.dst dstLen x.raddr srcLen) then some ((stAlias, 24), none)
                else if x.install then (installCheck s c x (uniRead s mf.addr 64)).map (fun y => (y.1, y.2.map (fun _ => (adAddr s c x.entry, 64))))
                else none

/-! ### Running a LOAD (R308) -/

def getJob (s : State) (n : Nat) : Option LoadJob := s.loads.find? (fun j => j.num == n)
def putJob (s : State) (j : LoadJob) : State := { s with loads := s.loads.map (fun x => if x.num = j.num then j else x) }
def jobKey (s : State) (n : Nat) : Nat := ((getJob s n).map (fun j => (ldOf j.rec'.bytes).rkey)).getD 0

/-- Fill a tile's destination with zeros. -/
def zeroTile (s : State) (c : Nat) (x : LdRec) (t : Nat) : State := devWrite s { ctx := c } (x.dst + 4096 * t) (List.replicate 4096 0)

/-- Whether the tile at the destination has the manifest's digest. -/
def tileMatches (s : State) (x : LdRec) (t : Nat) : Bool :=
  sha256 (uniRead s (x.dst + 4096 * t) 4096) == uniRead s (x.man + 64 + 32 * (x.first + t)) 32

/-- Stop a LOAD with a status at a tile: nothing more is fetched, and its fetched unverified tiles are zeroed (R308, R309). -/
def stopJob (s : State) (j : LoadJob) (st : Status) (t : Option Nat) : State :=
  let x := ldOf j.rec'.bytes
  let s := (j.arrived.map (·.1) ++ j.again).foldl (fun s t => zeroTile s j.rec'.ctx x t) s
  putJob s { j with status := worse j.status st, stopped := match j.stopped with | some t => some t | none => t, arrived := [], again := [] }

/-- A tile's fetch ends with the bytes given: written, the rest of the tile zeroed, and its hash taken. A lost tile (R202) stops the LOAD. -/
def tileArrives (s : State) (j : LoadJob) (t : Nat) (bs : List Byte) : State :=
  let x := ldOf j.rec'.bytes
  let j := { j with flying := j.flying.filter (· != t) }
  match devWrFault s (x.dst + 4096 * t) 4096 with
  | some f => stopJob s j f.status (some t)
  | none =>
    let s := devWrite s { ctx := j.rec'.ctx } (x.dst + 4096 * t) (bs ++ List.replicate (4096 - bs.length) 0)
    putJob s { j with arrived := j.arrived ++ [(t, tileMatches s x t)] }

/-- The next tile a LOAD fetches, and the job without it. -/
def takeTile (j : LoadJob) : Option (Nat × LoadJob) :=
  if j.status ≠ stDone then none
  else
    match j.again with
    | t :: l => some (t, { j with again := l })
    | [] => if j.next < (ldOf j.rec'.bytes).ntiles then some (j.next, { j with next := j.next + 1 }) else none

/-- Fetch one tile, if the source takes another request. -/
def fetchTile (s : State) (n : Nat) : State :=
  match getJob s n with
  | none => s
  | some j =>
    let x := ldOf j.rec'.bytes
    match takeTile j with
    | none => s
    | some (t, j') =>
      let len := tileLen (uniRead s x.man 64) (x.first + t)
      if x.src = 0 then
        (match sendRead s x.port x.qp j.num t (x.raddr + 4096 * t) x.rkey len with
         | some s => putJob s { j' with flying := j'.flying ++ [t] }
         | none => s)
      else if j.arrived ≠ [] then s
      else
        let a := x.srcAt + 4096 * t
        match devFault s a len with
        | some f => stopJob (zeroTile (devTouch s { ctx := j.rec'.ctx } a len) j.rec'.ctx x t) j' f.status (some t)
        | none => tileArrives (devTouch s { ctx := j.rec'.ctx } a len) j' t (devRead s a len)

/-- Fetch as many tiles as the source takes now: at most 16 requests are ever outstanding. -/
def pumpJob (s : State) (n : Nat) : State := (List.range 16).foldl (fun s _ => fetchTile s n) s

/-- The slot after a LOAD with INSTALL that ended DONE (R311). -/
def installDone (s : State) (c : Nat) (x : LdRec) (gen : Nat) : State :=
  let b := adRead s c x.entry
  let a := adAddr s c x.entry
  let f := adPutValid b x.slot true
  let f := if x.swap then f - f % 2 + x.slot else f
  let s := devWrite (devWrite s { ctx := c } (a + 16 + 4 * x.slot) (natLE 4 gen)) { ctx := c } (a + 32) (natLE 1 f)
  if x.swap then post s uHub c 0x0B3 (x.entry + 2 ^ 14 * x.slot + 2 ^ 15 * (gen % 2 ^ 31)) else s

/-- End a LOAD once every tile in flight has been verified or zeroed. -/
def settleJob (s : State) (n : Nat) : State :=
  match getJob s n with
  | none => s
  | some j =>
    let x := ldOf j.rec'.bytes
    if j.flying ≠ [] || j.arrived ≠ [] || (j.status = stDone && (j.again ≠ [] || j.next < x.ntiles)) then s
    else
      let s := { s with loads := s.loads.filter (fun y => y.num != n) }
      let gen := manGen (uniRead s x.man 64)
      if j.status = stDone then
        loaderReport (if x.install then installDone s j.rec'.ctx x gen else s) j.rec' stDone j.verified (if x.install then gen else 0)
      else loaderReport s j.rec' j.status j.verified (j.stopped.getD 0)

/-- Fetch on and end, for every LOAD. -/
def runJobs (s : State) : State := (s.loads.map (·.num)).foldl (fun s n => settleJob (pumpJob s n) n) s

/-- Start a LOAD that has passed its checks; with INSTALL the slot's VALID clears (R311). -/
def startJob (s : State) (r : Rec) : State :=
  let x := ldOf r.bytes
  let s := if x.install then devWrite s { ctx := r.ctx } (adAddr s r.ctx x.entry + 32) (natLE 1 (adPutValid (adRead s r.ctx x.entry) x.slot false)) else s
  { s with loads := s.loads ++ [{ num := s.hub2.order, rec' := r }], hub2 := { s.hub2 with order := s.hub2.order + 1 } }

/-- LOAD (R307, R308): the record at the front of the load ring is checked and starts; the LOADs in progress fetch on. -/
def execLoad (c : Nat) (s : State) : Host.Outcome State Fault Refusal :=
  match loaderFront s c with
  | some r =>
    if r.op ≠ 0x71 || !fwServes s c then .next (runJobs s)
    else
      match loadCheck s r with
      | some (x, bad) =>
        let s := match bad with | some g => devTouch s { ctx := c } g.1 g.2 | none => s
        .next (loaderReport (loaderPop s c) r x.1 0 x.2)
      | none => .next (runJobs (startJob (loaderPop s c) r))
  | none => .next (runJobs s)

/-- Check the oldest fetched tile of a LOAD against its digest (R308). -/
def checkTile (s : State) (j : LoadJob) : State :=
  match j.arrived with
  | [] => s
  | (t, good) :: rest =>
    let c := j.rec'.ctx
    let x := ldOf j.rec'.bytes
    let k := tget dN j.tries t
    if good then putJob (ctxCount s c 0x1A0 4096) { j with arrived := rest, verified := j.verified + 1 }
    else
      let s := post (ctxCount s c 0x1A8 1) uHub c 0x0B2 (t % 2 ^ 32)
      if k < x.retries && j.status = stDone then putJob s { j with arrived := rest, again := j.again ++ [t], tries := tset dN j.tries t (k + 1) }
      else
        let s := zeroTile s c x t
        let s := j.again.foldl (fun s t => zeroTile s c x t) s
        putJob s { j with arrived := rest, again := [], status := worse j.status stDigest, stopped := match j.stopped with | some u => some u | none => some t }

/-- TILE_DIGEST_CHECK (R308). -/
def execTileDigestCheck (c : Nat) (s : State) : Host.Outcome State Fault Refusal :=
  match s.loads.find? (fun j => j.rec'.ctx == c && j.arrived != []) with
  | some j => .next (runJobs (checkTile s j))
  | none => .next s

/-- End every LOAD that a test picks with a status (R309): a tile of which part has arrived counts as fetched. -/
def endJobs (s : State) (p : LoadJob → Bool) (st : Status) : State :=
  (s.loads.filter p).foldl (fun s j =>
    let x := ldOf j.rec'.bytes
    let run := qpRun s x.port x.qp
    let part := match run.outstanding.head? with
      | some d => if x.src = 0 && d.job = j.num && run.got != 0 then [d.tile] else []
      | none => []
    let s := part.foldl (fun s t => zeroTile s j.rec'.ctx x t) s
    let s := if x.src = 0 then setQpRun s x.port x.qp { run with outstanding := run.outstanding.filter (fun d => d.job != j.num),
                                                                 got := if part = [] then run.got else 0 } else s
    let s := stopJob s j st (match part ++ j.arrived.map (·.1) ++ j.flying with | t :: _ => some t | [] => none)
    let s := match getJob s j.num with | some y => putJob s { y with flying := [] } | none => s
    settleJob s j.num) s

/-! ### DIGEST (R383) -/

def dgAddr (b : List Byte) : Nat := bitsOf (fld b 8 8) 0 48
def dgTiles (b : List Byte) : Nat := bitsOf (fld b 16 4) 0 24
def dgDst (b : List Byte) : Nat := bitsOf (fld b 24 8) 0 48

def digestFail (b : List Byte) : Option Nat :=
  firstFail (reservedFails [gAll 0 1, (1, 1, 0x10), gAll 2 2, gAddr 8, (16, 4, 2 ^ 24 - 1), gAddr 24] 0 64 b ++
    fails [(8, dgAddr b % 4096 != 0), (16, dgTiles b == 0 || decide (8388608 < dgTiles b)), (24, dgDst b % 64 != 0)])

/-- The refusals of a DIGEST record. -/
def digestCheck (s : State) (r : Rec) : Option Refuse :=
  let l := s.weave.cur.sects
  let b := r.bytes
  let n := 4096 * dgTiles b
  let m := 8 * dgTiles b + 32
  match digestFail b with
  | some o => some (stDescriptor, o)
  | none =>
    firstRefuse [chk (!inRanges s l r.ctx (dgAddr b) n) stPrivilege 8,
      chk (!inRanges s l r.ctx (dgDst b) m || hitsRo s r.ctx (dgDst b) m || hitsSealed s (dgDst b) m) stPrivilege 24, chk (hitsUnbacked s (dgAddr b) n) stBounds 8,
      chk (hitsUnbacked s (dgDst b) m) stBounds 24, chk (meets (dgAddr b) n (dgDst b) m) stAlias 24]

/-- The 8 bytes a tile's digest takes; all ones for a tile with an uncorrectable word. -/
def tileDigest (s : State) (a : Nat) : List Byte := if (uniFault s a 4096).isSome then List.replicate 8 0xFF else (sha256 (uniRead s a 4096)).take 8

/-- What a DIGEST record writes and reports: the fault of an uncorrectable word, else that of a destination that cannot be written (R202). -/
def runDigest (s : State) (r : Rec) : State :=
  let b := r.bytes
  let n := dgTiles b
  let ds := (List.range n).flatMap (fun t => tileDigest s (dgAddr b + 4096 * t))
  let root := sha256 ds
  let bad := ((uniFault s (dgAddr b) (4096 * n)).map MemFault.ecc).or (devWrFault s (dgDst b) (8 * n + 32))
  let s := devWrite (devTouch s { ctx := r.ctx } (dgAddr b) (4096 * n)) { ctx := r.ctx } (dgDst b) (ds ++ root)
  match bad with
  | some f => loaderReport s r f.status n f.detail
  | none => loaderReport s r stDone n (fld root 0 4)

/-- DIGEST (R383). -/
def execDigest (c : Nat) (s : State) : Host.Outcome State Fault Refusal :=
  match loaderFront s c with
  | some r =>
    if r.op ≠ 0x73 || !fwServes s c then .next s
    else
      match digestCheck s r with
      | some x => .next (loaderReport (loaderPop s c) r x.1 0 x.2)
      | none => .next (runDigest (loaderPop s c) r)
  | none => .next s

end Sys2Proof.Machine
end

