-- ==== Sys2Proof/Machine/Ethernet.lean ====
section
/-! DEFINITION. Frames that arrive at an Ethernet port, and the queue pairs' errors and timeouts (R237, R238). -/

namespace Sys2Proof.Machine

open Sys2Proof

/-- Count an Ethernet frame received intact (OP_FRAMES), or one dropped (OP_ETHCNT). -/
def countFrame (s : State) (p : Nat) : State := s.modOport p (fun o => { o with ctr := ctrAdd o.ctr 0x018 1 })
def countDropped (s : State) (p : Nat) : State := s.modOport p (fun o => { o with ctr := ctrAddField o.ctr 0x050 32 32 1 })

/-- The symbols that the FEC corrected in a frame count in OP_FEC (R244). -/
def countFec (s : State) (p n : Nat) : State := s.modOport p (fun o => { o with ctr := ctrAdd o.ctr 0x028 n })

/-- A RoCEv2 packet arrives: its frame and the FEC's corrections count. -/
def roceFrame (s : State) (p : Nat) (k : RocePkt) : State := countFec (countFrame s p) p k.fec

/-- Three quarters of the receive buffer of 256 KiB (R237). -/
def rxMark : Nat := 196608

/-- Read data enters the receive buffer (R237). How full it then is depends on how fast it drains, which no rule fixes: a free number. When that passes
three quarters the port sends a pause, of a free length, on the priority of each queue pair (log 90). -/
def rxArrive (s : State) (p : Nat) : State :=
  let old := (s.oport p).rxFill
  let (v, s) := freeBelow s (2 ^ 18 + 1)
  let (q, s) := freeBelow s (2 ^ 16 - 1)
  let s := s.modOport p (fun o => { o with rxFill := v })
  if rxMark < v && old ≤ rxMark then sendEth s p (((validQps s p).map (fun i => (qpRec s p i).pcp)).eraseDups.map (fun c => .pause c (q + 1))) else s

/-- The valid queue pair whose local address a resolution asks for. -/
def qpByAddr (s : State) (p : Nat) (v6 : Bool) (target : List Byte) : Option Nat :=
  (validQps s p).find? (fun i =>
    let q := qpRec s p i
    q.ipv6 == v6 && (if v6 then q.lip == target else q.lip == target ++ List.replicate 12 0))

/-- ARP_REQUEST (R237). -/
def execArpRequest (p : Nat) (target sender : List Byte) (s : State) : Host.Outcome State Fault Refusal :=
  if !ethUp s p then .next s
  else
    let s := countFrame s p
    match qpByAddr s p false target with
    | some i => .next (sendEth s p [.arpReply (qpRec s p i).lmac target sender])
    | none => .next (countDropped s p)

/-- NEIGHBOUR_SOLICITATION (R237). -/
def execNeighbourSolicitation (p : Nat) (target sender : List Byte) (s : State) : Host.Outcome State Fault Refusal :=
  if !ethUp s p then .next s
  else
    let s := countFrame s p
    match qpByAddr s p true target with
    | some i => .next (sendEth s p [.advert (qpRec s p i).lmac target sender])
    | none => .next (countDropped s p)

/-- PAUSE (R237): the port honours pauses on the priority of each queue pair. A quantum is 512 bit times at 800 Gb/s; zero quanta end the
pause (IEEE 802.1Qbb; log 31). -/
def execPause (p prio quanta : Nat) (s : State) : Host.Outcome State Fault Refusal :=
  if !ethUp s p then .next s
  else
    let s := countFrame s p
    if (validQps s p).any (fun i => (qpRec s p i).pcp == prio) then
      .next (runJobs (s.modOport p (fun o => { o with paused := tset dN o.paused prio (if quanta = 0 then 0 else s.time.toNat + cdiv (quanta * 512) 800) })))
    else .next s

/-- A queue pair enters error (R238): ERR, its outstanding requests end with FAULT_LINK, Tally 0x097. -/
def qpError (s : State) (p i : Nat) : State :=
  let jobs := (qpRun s p i).outstanding.map (·.job)
  let s := putQpField s p i 16 1 (fld (uniRead s (qpAddr s p i) 128) 16 1 ||| 1)
  let s := post s (uOport p) 0 0x097 i
  let s := endJobs s (fun j => jobs.contains j.num) stLink
  setQpRun s p i {}

/-- Retransmit, at most RETRY times (R238): from the PSN of a NAK, or from the oldest packet not received. -/
def qpRetry (s : State) (p i : Nat) (psn : Option Nat) : State :=
  let run := qpRun s p i
  if (qpRec s p i).retry ≤ run.retries then qpError s p i
  else
    let s := setQpRun s p i { run with retries := run.retries + 1 }
    match psn with
    | some n => resendFrom s p i (jobKey s) n
    | none => resendReads s p i (jobKey s)

/-- A frame whose invariant CRC fails or whose queue pair is unknown is dropped and counted. -/
def roceQp (s : State) (p : Nat) (k : RocePkt) : Option Nat := if k.icrcOk then qpByNumber s p k.qpn else none

/-- READ_RESPONSE (R238): the next packet of the oldest READ outstanding lands at its destination; a packet out of sequence is not used. -/
def execReadResponse (p : Nat) (pkt : RocePkt) (s : State) : Host.Outcome State Fault Refusal :=
  if !ethUp s p then .next s
  else
    let s := rxArrive (roceFrame s p pkt) p
    match roceQp s p pkt with
    | none => .next (countDropped s p)
    | some i =>
      let run := qpRun s p i
      let q := qpRec s p i
      match run.outstanding with
      | [] => .next s
      | d :: rest =>
        if pkt.psn.toNat ≠ (d.psn + run.got) % 2 ^ 24 then .next s
        else
          let off := run.got * q.mtu
          let bs := pkt.payload.take (min q.mtu (d.len - off))
          match getJob s d.job with
          | none => .next s
          | some j =>
            let x := ldOf j.rec'.bytes
            if run.got + 1 < d.pkts then
              .next (setQpRun (devWrite s { ctx := j.rec'.ctx } (x.dst + 4096 * d.tile + off) bs) p i { run with got := run.got + 1, retries := 0, since := s.time })
            else
              let s := setQpRun s p i { run with outstanding := rest, got := 0, retries := 0, since := s.time }
              let have' := uniRead s (x.dst + 4096 * d.tile) off
              .next (runJobs (tileArrives s j d.tile (have' ++ bs)))

/-- ACK_OR_NAK (R238). READ requests are acknowledged by their responses, so an ACK changes nothing here. A NAK for a sequence
error whose PSN is of no request outstanding is not used (log 31). -/
def execAckOrNak (p : Nat) (pkt : RocePkt) (s : State) : Host.Outcome State Fault Refusal :=
  if !ethUp s p then .next s
  else
    let s := roceFrame s p pkt
    match roceQp s p pkt with
    | none => .next (countDropped s p)
    | some i =>
      if !pkt.nak then .next s
      else if pkt.seqErr then .next (runJobs (if (qpRun s p i).outstanding.any (·.has pkt.psn.toNat) then qpRetry s p i (some pkt.psn.toNat) else s))
      else .next (runJobs (qpError s p i))

/-- REQUEST_PACKET (R238). -/
def execRequestPacket (p : Nat) (pkt : RocePkt) (s : State) : Host.Outcome State Fault Refusal :=
  if !ethUp s p then .next s
  else
    let s := roceFrame s p pkt
    match roceQp s p pkt with
    | none => .next (countDropped s p)
    | some i => .next (sendEth s p [.nakInvalid (qpRec s p i).hdr i pkt.psn.toNat])

/-- CNP (R238). -/
def execCnp (p : Nat) (s : State) : Host.Outcome State Fault Refusal :=
  if !ethUp s p then .next s else .next ((countFrame s p).modOport p (fun o => { o with ctr := ctrAddField o.ctr 0x050 0 32 1 }))

/-- QP_TIMEOUT (R238, R239): 4.096 µs × 2^TIMEOUT without progress. -/
def execQpTimeout (p qp : Nat) (s : State) : Host.Outcome State Fault Refusal :=
  let run := qpRun s p qp
  if run.outstanding = [] || s.time.toNat < run.since.toNat + 4096 * 2 ^ (qpRec s p qp).timeout then .next s
  else .next (runJobs (qpRetry s p qp none))

/-- DROPPED_FRAME (R237, R238). -/
def execDroppedFrame (p : Nat) (s : State) : Host.Outcome State Fault Refusal :=
  if !ethUp s p then .next s else .next (countDropped (countFrame s p) p)

end Sys2Proof.Machine
end

