-- ==== Sys2Proof/Machine/Optics.lean ====
section
/-! DEFINITION. Calibration of ports and lasers, and eye safety (R232, R240 to R243). -/

namespace Sys2Proof.Machine

open Sys2Proof

/-! ### Port calibration (R240) -/

/-- A port starts recalibrating: CALIBRATING, Tally 0x095 with the reason. A port that is off, TRIPPED or already calibrating does not
(log 30). -/
def startCal (s : State) (p reason : Nat) : State :=
  let o := s.oport p
  if opMode s p = 0 || o.state = 3 || o.state = 4 then s
  else post (s.modOport p (fun o => { o with state := 3, calSince := s.time })) (uOport p) 0 0x095 reason

/-- RECAL (R240): an OP_CTL write of 1. -/
def execRecal (who : Party) (p : Nat) (s : State) : Host.Outcome State Fault Refusal := .next (gated s who .admin (fun s => startCal s p 0))

/-- TRACKING_ERROR (R240). -/
def execTrackingError (p : Nat) (s : State) : Host.Outcome State Fault Refusal := .next (startCal s p 1)

/-- ERROR_RATIO_TRIGGER (R240). -/
def execErrorRatioTrigger (p : Nat) (s : State) : Host.Outcome State Fault Refusal := .next (startCal s p 2)

/-- CALIBRATION_SWEEP (R240): every frame acknowledged, or 10 µs passed; the port goes dark, sweeps its rings and goes on to training, lit. -/
def execCalibrationSweep (p : Nat) (s : State) : Host.Outcome State Fault Refusal :=
  let o := s.oport p
  if o.state ≠ 3 || (o.unacked ≠ [] && s.time.toNat < o.calSince.toNat + 10000) then .next s
  else .next (settleLaser (settleColls (startTraining (s.modOport p (fun o => { o with dark := true })) p)) (p / 8))

/-! ### RETRAIN (R232) -/

/-- RETRAIN: an OP_CTL write of 2; a port that calibrates takes it afterwards (R243). -/
def execRetrain (who : Party) (p : Nat) (s : State) : Host.Outcome State Fault Refusal :=
  .next (gated s who .admin (fun s =>
    let o := s.oport p
    if opMode s p = 0 || o.state = 4 then s
    else if o.state = 3 then s.modOport p (fun o => { o with retrain := true })
    else settleColls (startTraining (if o.state = 2 then linkDown s p 0 else s) p)))

/-! ### Lasers (R241) -/

/-- A laser die recalibrates: all eight ports it feeds calibrate at once, and its lines re-lock. Which lines lock and their power are readings that no
rule fixes (log 30). -/
def laserCal (s : State) (q reason : Nat) : State :=
  if laserRetired (retiredOf s.weave.cur.sects) q || (s.laser q).calibrating then s
  else
    let s := (fedPorts q).foldl (fun s p => startCal s p reason) (s.modLaser q (fun l => { l with calibrating := true }))
    let (v, s) := freeBelow s (2 ^ 72)
    settleLaser (s.modLaser q (fun l => { l with lock := BitVec.ofNat 8 v, fail := ~~~(BitVec.ofNat 8 v),
                                                 power := (List.range 8).map (fun i => BitVec.ofNat 8 (v / 2 ^ (8 + 8 * i))) })) q

/-- LS_RECAL (R241). -/
def execLsRecal (who : Party) (q : Nat) (s : State) : Host.Outcome State Fault Refusal :=
  .next (gated s who .admin (fun s => laserCal s q 0))

/-- LOCK_LOSS (R241). -/
def execLockLoss (q line : Nat) (s : State) : Host.Outcome State Fault Refusal :=
  if laserRetired (retiredOf s.weave.cur.sects) q then .next s
  else .next (laserCal (s.modLaser q (fun l => { l with lock := l.lock &&& ~~~(BitVec.ofNat 8 (2 ^ line)) })) q 1)

/-! ### Eye safety (R242) -/

/-- EYE_SAFETY_TRIP (R242): a launch above the limit by more than 0.5 dB darkens the port and latches TRIP. The operand is the launch the
photodiode of a lit wavelength has held for 2 µs. -/
def execEyeSafetyTrip (p line : Nat) (launch : BitVec 8) (s : State) : Host.Outcome State Fault Refusal :=
  let o := s.oport p
  if o.dark || litLines s p ≤ line || launch.toInt ≤ launchLimit s p + 5 then .next s
  else .next (settleLaser (post (s.modOport p (fun o => { o with state := 4, trip := true, dark := true, advert := none })) (uOport p) 0 0x096 line) (p / 8))

/-- CLEARTRIP (R242): an OP_CTL write of 3 relights a tripped port at 3 dB below the limit, and it trains. A port that is off or retired by now stays dark,
and is DOWN (R243; log 30). -/
def execCleartrip (who : Party) (p : Nat) (s : State) : Host.Outcome State Fault Refusal :=
  .next (gated s who .admin (fun s =>
    if (s.oport p).state ≠ 4 then s
    else
      let s := s.modOport p (fun o => { o with trip := false })
      if opMode s p = 0 then s.modOport p (fun o => { o with state := 0 })
      else
        (settleColls (startTraining s p)).modOport p (fun o =>
          { o with launch := if o.dark then o.launch else List.replicate (litLines s p) (BitVec.ofInt 8 (launchLimit s p - 30)) })))

end Sys2Proof.Machine
end

