-- ==== Sys2Proof/Machine/Tiers.lean ====
section
/-! DEFINITION. The two tiers: moves, hints, pinning, scrubbing, retirement, initialisation (10). -/

namespace Sys2Proof.Machine

open Sys2Proof

/-! ### Moves (R194, R196) -/

/-- The sections that the port of a class holds. -/
def classSects (s : State) (k : Nat) : List Sect := sectsOf s (.mport (chanOf s k / 16))

def tilePolicy (s : State) (t : Nat) : Nat := policyOf (classSects s (classOf s t)) t

/-- A compute die's slice is retired in the generation a class's port holds. -/
def sliceRetired (s : State) (k d : Nat) : Bool := (retiredOf (classSects s k)).contains (3, d) || s.tiers.outSlice.contains d

/-- One frame of the victim search (R194): skip, clear the use bit, or stop. -/
def searchFrom (s : State) (k d : Nat) : Nat → Nat → Option (Nat × Nat × State)
  | 0, _ => none
  | n + 1, pos =>
    let f := framesPer s
    let next := if f = 0 then 0 else (pos + 1) % f
    match tileIn s k (.sram d pos) with
    | none => searchFrom s k d n next
    | some x =>
      if tilePolicy s x = 1 || inMove s x then searchFrom s k d n next
      else if tget dB s.tiers.use (useKey k d pos) then
        searchFrom { s with tiers := { s.tiers with use := tset dB s.tiers.use (useKey k d pos) false } } k d n next
      else some (x, pos, { s with tiers := { s.tiers with hands := tset dN s.tiers.hands (k * 8 + d) next } })

/-- Use bits as a failed search leaves them: cleared where it passed, two full turns on. -/
def clearUses (s : State) (k d : Nat) : State :=
  { s with tiers := { s.tiers with use := s.tiers.use.filter (fun u =>
      !(u.1 / 2 ^ 20 == k * 8 + d &&
        (match tileIn s k (.sram d (u.1 % 2 ^ 20)) with | some x => tilePolicy s x != 1 && !inMove s x | none => false))) } }

/-- The frames that tile `y` (to come into X's frame) and tile `x` (leaving it) take, with a third tile where R194 moves one. -/
def moveInto (s : State) (k y x : Nat) : List (Nat × TFrame) :=
  let fy := frameOf s y
  let fx := frameOf s x
  if isSram fy then [(y, fx), (x, fy)]
  else
    let home : TFrame := .lp (indexOf s x)
    if isOverflow s x || frameOut s k home then [(y, fx), (x, fy)]
    else
      match tileIn s k home with
      | none => [(y, fx), (x, home)]
      | some o => if isOverflow s o && o != y then [(y, fx), (x, home), (o, fy)] else [(y, fx), (x, fy)]

/-- Begin a move of tile `y` of class `k` into X's frame: the tiles are held on the class's channel until it ends (R196). -/
def beginMove (s : State) (k y x : Nat) : State :=
  let ps := moveInto s k y x
  let inward := (ps.filter (fun p => isSram p.2)).length
  let outward := (ps.filter (fun p => isSram (frameOf s p.1) && !isSram p.2)).length
  { s with tiers := { s.tiers with moves := s.tiers.moves ++ [{ channel := chanOf s k, places := ps, inward := inward, outward := outward, retire := none }] } }

/-- A port cannot find a victim (MP_NOMOVE.NOVICTIM). -/
def countNoVictim (s : State) (k : Nat) : State := s.modMport (chanOf s k / 16) (fun m => { m with ctr := ctrAddField m.ctr 0x040 24 24 1 })

/-- A move of a tile uses the LPDDR5X tier of a channel that a delta has retired: nothing moves there (R202; log 71). -/
def moveLost (s : State) (t : Nat) : Bool := chanLost s t && !isSram (frameOf s t)

/-- Start a move that brings a tile into a slice: the victim search, then the move, or NOVICTIM. -/
def startMove (s : State) (y d : Nat) : State :=
  let k := classOf s y
  match searchFrom s k d (2 * framesPer s) (tget dN s.tiers.hands (k * 8 + d)) with
  | some (x, _, s') => beginMove s' k y x
  | none => countNoVictim (clearUses s k d) k

/-- End the move on a channel, if there is one. -/
def endMove (s : State) (ch : Nat) : State :=
  match s.tiers.moves.find? (fun m => m.channel == ch) with
  | some mv => finishMove s mv
  | none => s

/-- Move a tile into a slice at once: the channel's open move ends first. The flag says that it moved. -/
def moveNow (s : State) (y d : Nat) : State × Bool :=
  let ch := chanOf s (classOf s y)
  let s := endMove s ch
  let s' := startMove s y d
  (endMove s' ch, s'.tiers.moves.length != s.tiers.moves.length)

/-- MOVE_END (R196). -/
def execMoveEnd (channel : Nat) (s : State) : Host.Outcome State Fault Refusal := .next (endMove s channel)

/-! ### Promotion (R194) -/

/-- The filter entry of a tile at its port: its count, and the die whose engine made the last access. -/
def filterEntry (s : State) (t : Nat) : Nat × Nat := (((s.mport (portOf s t)).filter.find? (fun x => x.1 == t)).map (·.2)).getD (0, 0)

/-- PROMOTION (R194): a tile whose count reaches THRESH leaves the filter, and its move into the slice of the die whose engine made the access
is wanted. -/
def execPromotion (tile die : Nat) (s : State) : Host.Outcome State Fault Refusal :=
  let th := (s.mport (portOf s tile)).thresh.toNat
  let e := filterEntry s tile
  if s.hub.phase = .running && die < 8 && 0 < th && th ≤ e.1 && e.2 == die && tilePolicy s tile == 0 && tileBacked s tile && !isSram (frameOf s tile) &&
      !chanLost s tile && !chanFenced s (chanOf s (classOf s tile)) then
    .next { (s.modMport (portOf s tile) (fun m => { m with filter := m.filter.filter (fun x => x.1 != tile) })) with
      tiers := { s.tiers with promos := s.tiers.promos ++ [(tile, die)] } }
  else .next s

/-- A tile lies out of place under the tier map its port holds (R191). -/
def outOfPlace (s : State) (t : Nat) : Bool :=
  tileBacked s t &&
  (match tilePolicy s t with
   | 0 => false
   | 1 => !isSram (frameOf s t)
   | _ => isSram (frameOf s t))

/-- A pin move of the channel that serves a tile is pending: it goes ahead of hint moves and promotions (R192). -/
def pinsFirst (s : State) (t : Nat) : Bool :=
  (s.mport (portOf s t)).pinq.any (fun y => classOf s y == classOf s t && outOfPlace s y)

/-- TILE_MOVE (R194): the port starts a wanted move once the class's channel has none in progress and no pin move is pending on it. -/
def execTileMove (tile slice : Nat) (s : State) : Host.Outcome State Fault Refusal :=
  if s.tiers.promos.contains (tile, slice) && !chanFenced s (chanOf s (classOf s tile)) && !s.tiers.moves.any (fun m => m.channel == chanOf s (classOf s tile)) && !pinsFirst s tile then
    let s := { s with tiers := { s.tiers with promos := s.tiers.promos.erase (tile, slice) } }
    if isSram (frameOf s tile) || !tileBacked s tile || tilePolicy s tile != 0 || chanLost s tile then .next s else .next (startMove s tile slice)
  else .next s

/-! ### Hints (R195) -/

/-- Tiles of a hint's range, in increasing order. -/
def hintTiles (h : Hint) : List Nat := tilesOf h.base h.len

/-- A hinted tile that is left in place (MP_NOMOVE.IGNORED). -/
def countIgnored (s : State) (t : Nat) : State := s.modMport (portOf s t) (fun m => { m with ctr := ctrAddField m.ctr 0x040 0 24 1 })

/-- A tile lies in a slice that is retired (R195, R204). -/
def inRetired (s : State) (t : Nat) : Bool := match frameOf s t with | .sram e _ => sliceRetired s (classOf s t) e | .lp _ => false

/-- One tile of a MOVE_IN hint. -/
def moveInTile (d : Nat) (x : State × Nat) (t : Nat) : State × Nat :=
  let (s, n) := x
  let k := classOf s t
  if !tileBacked s t || 1 < tilePolicy s t || sliceRetired s k d || inRetired s t || moveLost s t then (countIgnored s t, n)
  else
    let there := match frameOf s t with | .sram e _ => e == d | .lp _ => false
    if there then x
    else
      let (s, ok) := moveNow s t d
      (s, if ok then n + 1 else n)

/-- A tile of the class in the LPDDR5X tier that may enter the SRAM tier: the port's choice (R194; log 7). -/
def moveOutChoice (s : State) (k x : Nat) : Option Nat :=
  let start := Config.moveOutPartner k x
  let at' (i : Nat) : Option Nat :=
    match tileIn s k (.lp ((start + i) % lpFrames)) with
    | some t => if tilePolicy s t ≤ 1 && !inMove s t then some t else none
    | none => none
  match at' 0 with
  | some t => some t
  | none => (List.range lpFrames).findSome? at'

/-- Move a tile out of the SRAM tier at once. -/
def moveOutNow (s : State) (x : Nat) : State × Bool :=
  let k := classOf s x
  let s := endMove s (chanOf s k)
  match moveOutChoice s k x with
  | some y => (endMove (beginMove s k y x) (chanOf s k), true)
  | none => (countNoVictim s k, false)

/-- One tile of a MOVE_OUT hint. -/
def moveOutTile (x : State × Nat) (t : Nat) : State × Nat :=
  let (s, n) := x
  if !tileBacked s t || tilePolicy s t != 0 || inRetired s t then (countIgnored s t, n)
  else
    match frameOf s t with
    | .lp _ => x
    | .sram _ _ =>
      if chanLost s t then (countIgnored s t, n)
      else
        let (s, ok) := moveOutNow s t
        (s, if ok then n + 1 else n)

/-- The byte REPORT gives for a tile. -/
def reportByte (s : State) (t : Nat) : Byte :=
  if !tileBacked s t then 0xFE
  else match frameOf s t with
    | .sram d _ => BitVec.ofNat 8 d
    | .lp _ => 0x80

/-- The hint in front is complete: its owner's COUNT grows by the tiles moved (R195), and a REPORT that could not be written ends it with the
fault (R216, R378). -/
def hintDone (s : State) (h : Hint) (moved : Nat) (f : Option MemFault) : State :=
  let s := { s with tiers := { s.tiers with hints := s.tiers.hints.drop 1 } }
  match h.owner with
  | some (n, start) => s.modCore n (fun c => { c with running := c.running.map (fun r =>
      if r.start = start then
        { r with hints := r.hints - 1, count := stick r.count moved,
                 status := match f with | some f => f.status | none => r.status,
                 detail := match f with | some f => BitVec.ofNat 32 f.detail | none => r.detail }
      else r) })
  | none => s

/-- The first hint waiting, when it is of an operation and its tiles' channels have no pin move to make first (R192). -/
def frontHint (s : State) (op : Nat) : Option Hint :=
  match s.tiers.hints with
  | h :: _ => if h.op = op && (h.op = 2 || !(s.mports.any (fun m => m.2.pinq != []) && (hintTiles h).any (pinsFirst s))) then some h else none
  | [] => none

/-- MOVE_IN (R195). -/
def execMoveIn (s : State) : Host.Outcome State Fault Refusal :=
  match frontHint s 0 with
  | some h => let x := (hintTiles h).foldl (moveInTile h.slice) (s, 0); .next (hintDone x.1 h x.2 none)
  | none => .next s

/-- MOVE_OUT (R195). -/
def execMoveOut (s : State) : Host.Outcome State Fault Refusal :=
  match frontHint s 1 with
  | some h => let x := (hintTiles h).foldl moveOutTile (s, 0); .next (hintDone x.1 h x.2 none)
  | none => .next s

/-- The running command that a hint belongs to. -/
def hintRun (s : State) (h : Hint) : Option Running :=
  match h.owner with
  | some (n, start) => (s.core n).running.find? (fun r => r.start == start)
  | none => none

/-- REPORT (R195): one byte per tile, at the descriptor's destination. A destination that cannot be written ends the command (R216, R324). -/
def execReport (s : State) : Host.Outcome State Fault Refusal :=
  match frontHint s 2 with
  | some h =>
    let bs := (hintTiles h).map (reportByte s)
    match h.dst, hintRun s h with
    | some (side, a), some r =>
      let w : Wr := { scratch := side, addr := a, bytes := bs }
      match w.fault s with
      | some f => .next (hintDone s h 0 (some f))
      | none => .next (hintDone (applyWr r.by (coreCount s r.core 0x068 bs.length) w) h 0 none)
    | _, _ => .next (hintDone s h 0 none)
  | none => .next s

/-! ### Fences of channels and memory-port dies (R283) -/

/-- A hint that a fence ends: its command ends with ABORTED_FENCED. -/
def fenceHint (s : State) (h : Hint) : State :=
  match h.owner with
  | some (n, start) => s.modCore n (fun c => { c with running := c.running.map (fun r =>
      if r.start = start then { r with hints := r.hints - 1, status := worse r.status stFenced } else r) })
  | none => s

/-- End the work of the fenced channels of port `m`: moves in progress or wanted, which leave every tile where it was, and hints; Tally 0x051 for
the contexts whose hints end (log 91). -/
def fenceChans (s : State) (m entry : Nat) : State :=
  let hs := s.tiers.hints.filter (fun h => hintStopped s h.op h.base h.len)
  let cs := hs.filterMap (fun h => (hintRun s h).map (fun r => r.rec'.ctx))
  let s := { s with tiers := { s.tiers with
    hints := s.tiers.hints.filter (fun h => !hintStopped s h.op h.base h.len)
    moves := s.tiers.moves.filter (fun v => !chanFenced s v.channel)
    promos := s.tiers.promos.filter (fun p => !chanFenced s (chanOf s (classOf s p.1))) } }
  let s := hs.foldl fenceHint s
  cs.eraseDups.foldl (fun s c => post s (uMport m) c 0x051 (min (cs.count c) 0xFFFF + 2 ^ 16 * entry)) s

/-- Nothing of a channel's work is left: no move on it, and no hint. -/
def chanQuiet (s : State) (ch : Nat) : Bool :=
  s.tiers.moves.all (fun v => v.channel != ch) && s.tiers.hints.all (fun h => (tilesOf h.base h.len).all (fun t => h.op == 2 || chanOf s (classOf s t) != ch))

/-! ### Pinned tiles (R192) -/

/-- Tier-map records sorted by base. -/
def byBase : List (List Byte) → List (List Byte)
  | [] => []
  | r :: rs =>
    let (lo, hi) := (byBase rs).span (fun x => fld x 0 8 < fld r 0 8)
    lo ++ r :: hi

/-- The tiles of records sorted by base, in increasing address order, each once: `up` is the first address not yet walked. -/
def walkTiles : Nat → List (List Byte) → List Nat
  | _, [] => []
  | up, r :: rs =>
    let lo := max up (fld r 0 8)
    let hi := fld r 0 8 + fld r 8 8
    tilesOf lo (hi - lo) ++ walkTiles (max up hi) rs

/-- Tiles of port `m` that its tier map leaves out of place, in increasing address order. -/
def pinWork (s : State) (m : Nat) : List Nat :=
  (walkTiles 0 (byBase ((sectRecs (sectsOf s (.mport m)) 4 24).filter (fun r => fld r 16 1 != 0)))).filter (fun t => portOf s t == m && outOfPlace s t)

/-- Where a tile pinned to SRAM goes: the lowest slice, cyclically from slice j mod 8, in service with a frame not holding a pinned tile. -/
def pinSlice (s : State) (t : Nat) : Option Nat :=
  let k := classOf s t
  ((List.range 8).map (fun i => (indexOf s t + i) % 8)).find? (fun d => !sliceRetired s k d &&
    (List.range (framesPer s)).any (fun p => match tileIn s k (.sram d p) with | some x => tilePolicy s x != 1 | none => false))

/-- PIN_MOVE (R192): the port moves its first tile that is out of place; one that finds no place waits behind the others. -/
def execPinMove (m : Nat) (s : State) : Host.Outcome State Fault Refusal :=
  match (s.mport m).pinq with
  | [] => .next s
  | t :: rest =>
    if !outOfPlace s t then .next (s.modMport m (fun x => { x with pinq := rest }))
    else
      let (s, ok) :=
        if chanLost s t || chanFenced s (chanOf s (classOf s t)) then (s, false)
        else if tilePolicy s t = 1 then (match pinSlice s t with | some d => moveNow s t d | none => (s, false))
        else moveOutNow s t
      .next (s.modMport m (fun x => { x with pinq := if ok then rest else rest ++ [t] }))

/-! ### Retirement (R199 to R202) -/

/-- Words of a tile without check-code errors. -/
def dropBad (s : State) (t : Nat) : State := { s with uniBad := s.uniBad.filter (fun w => w.1 / 512 != t) }

/-- RETIREMENT_COPY (R199): T released, the retiring frame's tile is copied into T's frame, T becomes unbacked, the frame leaves service. -/
def execRetirementCopy (cls : Nat) (s : State) : Host.Outcome State Fault Refusal :=
  match s.tiers.retiring.find? (fun r => r.cls == cls) with
  | none => .next s
  | some r =>
    if !topFreed s cls || chanFenced s (chanOf s cls) then .next s
    else
      let m := chanOf s cls / 16
      let s := endMove s (chanOf s cls)
      let t := topTile s cls
      let ft := frameOf s t
      let s := match tileIn s cls r.frame with
        | none => s
        | some z =>
          if z = t then s
          else
            let s := countMoveBytes s m r.frame ft
            let s := s.modMport m (fun x => { x with ctr := ctrAddField (ctrAddField x.ctr 0x038 0 32 (b2n (isSram ft))) 0x038 32 32 (b2n (isSram r.frame && !isSram ft)) })
            let s := setFrame s z ft
            if outOfPlace s z then s.modMport m (fun x => { x with pinq := x.pinq ++ [z] }) else s
      let s := setFrame (dropBad s t) t (homeFrame s t)
      let s := { s with
        nvmFrames := s.nvmFrames ++ [nvmName s cls r.frame]
        tiers := { s.tiers with topRetired := tset dN s.tiers.topRetired cls (framesLost s cls + 1), retiring := s.tiers.retiring.erase r,
                                released := s.tiers.released.filter (· != t), written := s.tiers.written.filter (· != t) } }
      .next (noteWaiting (post s (uMport m) 0 0x081 0) cls)

/-- A value of `n` bytes that nothing constrains (log 3). -/
def freeBytes (s : State) (n : Nat) : List Byte × State := (natLE n (Config.freeNat s.freeCtr), { s with freeCtr := s.freeCtr + 1 })

/-- MP_RELEASE (R200): the tile is released if it is the highest backed tile of a class with a retiring frame; its contents are discarded. -/
def execMpRelease (who : Party) (m : Nat) (value : BitVec 64) (s : State) : Host.Outcome State Fault Refusal :=
  .next (gated s who .admin (fun s =>
    let t := bitsOf value.toNat 12 29
    let k := classOf s t
    if portOf s t = m && tileBacked s t && t == topTile s k && s.tiers.retiring.any (fun r => r.cls == k) then
      let (bs, s) := freeBytes s 4096
      { s with uni := mwrite s.uni (t * 4096) bs, tiers := { s.tiers with released := (s.tiers.released.filter (· != t)) ++ [t] } }
    else s))

/-! ### Scrubbing (R198) -/

/-- One scrub visit to a frame: corrections, uncorrectable words, and the corrected-word trigger of R199. -/
def scrubFrame (s : State) (k : Nat) (f : TFrame) : State :=
  match tileIn s k f with
  | none => s
  | some t =>
    let l := badWords s.uniBad (t * 4096) 4096
    let fixed := (l.filter (fun w => w.2 == 1)).length
    let th := (s.mport (chanOf s k / 16)).cethresh.toNat
    let s := readErrors s {} l
    if 0 < th && th ≤ fixed then startRetire s k f else s

/-- Classes a port serves. -/
def classesOf (s : State) (m : Nat) : List Nat := (List.range (nChan s)).filter (fun k => chanOf s k / 16 == m)

/-- SCRUB_READ (R198): the next LPDDR5X frame of each channel, and after every 64 of them one SRAM frame of each class. -/
def execScrubRead (m : Nat) (s : State) : Host.Outcome State Fault Refusal :=
  let p := s.mport m
  if p.interval = 0 || !p.init || usOf s < p.scrubUs + p.interval.toNat then .next s
  else
    let i := p.scrubAt
    let ks := classesOf s m
    let s := ks.foldl (fun s k => scrubFrame (s.modMport m (fun x => { x with ctr := ctrAdd x.ctr 0x048 4096 })) k (.lp i)) s
    let s := if i % 64 ≠ 63 then s else
      let j := i / 64
      ks.foldl (fun s k => if framesPer s = 0 then s else scrubFrame s k (.sram (j / framesPer s % 8) (j % framesPer s))) s
    .next (s.modMport m (fun x => { x with scrubAt := (i + 1) % lpFrames, scrubUs := usOf s, passes := if i + 1 = lpFrames then stick x.passes 1 else x.passes }))

/-! ### Initialisation (R188, R203) -/

/-- The frames of the retirement list as classes and frames under the interleave in force, in slices that were in service at boot. -/
def framesGone (s : State) : List (Nat × TFrame) :=
  (s.nvmFrames.filterMap (nvmFrame s)).filter (fun x => match x.2 with | .sram d _ => !s.tiers.outSlice.contains d | .lp _ => true)

/-- Tiles whose place of R188 is a frame out of service lie instead in the frames that the class's unbacked tiles leave (log 25). -/
def placeRetired (s : State) : State :=
  let out := framesGone s
  (out.map (·.1)).eraseDups.foldl (fun s k =>
    let gone := (out.filter (fun x => x.1 == k)).map (·.2)
    let tops := (List.range (framesLost s k)).map (fun i => (backedOf s k + i) * nChan s + k)
    let spare := (tops.map (homeFrame s)).filter (fun f => !gone.contains f)
    let moved := (gone.map (tileAtHome s k)).filter (tileBacked s)
    (moved.zip spare).foldl (fun s x => setFrame s x.1 x.2) s) s

/-- Initialise the range: every frame zero with valid check bits, every tile at its place of R188. -/
def rangeInit (s : State) (outCh outSlice : List Nat) : State :=
  let s := { s with uni := [], uniBad := [], tiers := { outCh := outCh, outSlice := outSlice } }
  let s := { s with tiers := { s.tiers with topRetired := (framesGone s).foldl (fun t x => tmod dN t x.1 (· + 1)) [] } }
  placeRetired s

/-- RANGE_INIT_END (R203): the port has written every frame; INIT sets and KEPT reads 0. -/
def execRangeInitEnd (m : Nat) (s : State) : Host.Outcome State Fault Refusal :=
  if s.hub.phase ≠ .running || !s.weave.loaded || (s.mport m).init then .next s
  else .next (s.modMport m (fun x => { x with init := true, kept := false, ctr := ctrAdd x.ctr 0x050 (4096 * lpFrames * (classesOf s m).length) }))

/-- What a reset leaves of the moves in progress: they finish (R203, R204). -/
def finishMoves (s : State) : State := s.tiers.moves.foldl finishMove s

/-- A port adopts a tier map (R192): its tiles out of place wait for their moves, and tiles no longer under policy 0 leave its filter (R194). -/
def adoptTiers (s : State) (m : Nat) : State :=
  s.modMport m (fun x => { x with pinq := pinWork s m, filter := x.filter.filter (fun e => tilePolicy s e.1 == 0) })

end Sys2Proof.Machine
end

