-- ==== Sys2Proof/Machine/Contexts.lean ====
section
/-! DEFINITION. Contexts: creation and destruction (R288 to R290), the serving scheduler (R301 to R304, R312), and Hurdles
(R283 to R286, R412). -/

namespace Sys2Proof.Machine

open Sys2Proof

/-! ### Adapter slots and requests (R301, R304, R312) -/

def rqAdapter (b : List Byte) : Nat := bitsOf (fld b 4 2) 0 14
def rqPromptLen (b : List Byte) : Nat := bitsOf (fld b 8 4) 0 21
def rqMaxNew (b : List Byte) : Nat := fld b 12 2
def rqPrompt (b : List Byte) : Nat := bitsOf (fld b 16 8) 0 48
def rqOut (b : List Byte) : Nat := bitsOf (fld b 24 8) 0 48
def rqState (b : List Byte) : Nat := bitsOf (fld b 32 8) 0 48
def rqStateLen (b : List Byte) : Nat := bitsOf (fld b 40 8) 0 40

def rqGroups : List Group := [gAll 0 1, (1, 1, 0x10), gAll 2 2, (4, 2, 2 ^ 14 - 1), (8, 4, 2 ^ 21 - 1), gAll 12 2, gAddr 16, gAddr 24, gAddr 32, (40, 8, 2 ^ 40 - 1)]

/-- The first failing field of a request record (R301, R304). -/
def rqFail (adn : Nat) (b : List Byte) : Option Nat :=
  firstFail (reservedFails rqGroups 0 64 b ++
    fails [(0, fld b 0 1 != 0x70), (4, decide (adn ≤ rqAdapter b)), (8, rqPromptLen b == 0 || decide (1048576 < rqPromptLen b)), (32, rqState b % 4096 != 0)])

/-- The regions of a request: offset of the address field, address, length, whether it is written. -/
def rqRegions (b : List Byte) : List (Nat × Nat × Nat × Bool) :=
  [(16, rqPrompt b, 4 * rqPromptLen b, false), (24, rqOut b, 4 * rqMaxNew b, true), (32, rqState b, rqStateLen b, true)]

/-- Adapter entries a request pins: entry 0, and its own where that is another. -/
def rqEntries (b : List Byte) : List Nat := if rqAdapter b = 0 then [0] else [0, rqAdapter b]

/-- Why a request is not admitted (R304). -/
def rqCheck (s : State) (r : Rec) : Option Refuse :=
  let l := s.weave.cur.sects
  let b := r.bytes
  let c := r.ctx
  match rqFail (s.ctx c).adn.toNat b with
  | some o => some (stDescriptor, o)
  | none =>
    match (rqRegions b).find? (fun g => !inRanges s l c g.2.1 g.2.2.1 || (g.2.2.2 && (hitsRo s c g.2.1 g.2.2.1 || hitsSealed s g.2.1 g.2.2.1))) with
    | some g => some (stPrivilege, g.1)
    | none =>
      match (rqRegions b).find? (fun g => g.2.2.1 != 0 && hitsUnbacked s g.2.1 g.2.2.1) with
      | some g => some (stBounds, g.1)
      | none =>
        match (rqEntries b).findSome? (fun e => devFault s (adAddr s c e) 64) with
        | some f => some (f.status, f.detail)
        | none =>
          if (rqEntries b).all (fun e => let t := adRead s c e; adValid t (adCur t)) then none else some (stDescriptor, 4)

/-- Add to, or take from, USERS of a slot of an adapter entry (R312). -/
def adUse (s : State) (c e k : Nat) (add : Bool) : State :=
  let a := adAddr s c e + 24 + 4 * k
  let u := leNat (uniRead s a 4)
  devWrite s { ctx := c } a (natLE 4 (if add then u + 1 else u - 1))

/-- Admit a request: pin the CUR slots (R302, R312). -/
def admitOne (s : State) (r : Rec) : State :=
  let c := r.ctx
  let t0 := adRead s c 0
  let e := rqAdapter r.bytes
  let ta := adRead s c e
  let s := adUse s c 0 (adCur t0) true
  let s := if e = 0 then s else adUse s c e (adCur ta) true
  s.modCtx c (fun x => { x with requests := x.requests ++
    [{ rec' := r, slot0 := adCur t0 == 1, slotA := adCur ta == 1, gen := BitVec.ofNat 32 (adGen ta (adCur ta)), chunk := x.chunk.toNat, read := 0, tokens := 0 }] })

/-- End a running request: its pins are released and it completes (R304). -/
def endRequest (s : State) (c : Nat) (q : Request) (st : Status) : State :=
  let s := s.modCtx c (fun x => { x with requests := x.requests.erase q })
  let e := rqAdapter q.rec'.bytes
  let s := adUse s c 0 (b2n q.slot0) false
  let s := if e = 0 then s else adUse s c e (b2n q.slotA) false
  loaderReport s q.rec' st (if doneClass st then q.tokens else 0) (if doneClass st then q.gen.toNat else 0)

/-- Admissions at the start of a step: at most `n` records are looked at (R302). -/
def admitAll : Nat → Nat → State → State
  | 0, _, s => s
  | n + 1, c, s =>
    let x := s.ctx c
    if x.hold || x.maxreq.toNat ≤ x.requests.length then s
    else
      match x.reqs with
      | [] => s
      | r :: rest =>
        let s := s.modCtx c (fun x => { x with reqs := rest })
        match rqCheck s r with
        | some f => admitAll n c (loaderReport s r f.1 0 f.2)
        | none => admitAll n c (admitOne s r)

def promptDone (q : Request) : Bool := rqPromptLen q.rec'.bytes ≤ q.read

/-- Prompt chunks of a step, in admission order, within a budget: no later request overtakes one that does not fit (R302, R303). -/
def chunksOf : Nat → List Request → List (Request × Nat)
  | _, [] => []
  | budget, q :: qs =>
    let c := min q.chunk (rqPromptLen q.rec'.bytes - q.read)
    if budget < c then [] else (q, c) :: chunksOf (budget - c) qs

/-- Replace a request of a context. -/
def putRequest (s : State) (c : Nat) (q q' : Request) : State := s.modCtx c (fun x => { x with requests := x.requests.map (fun y => if y = q then q' else y) })

/-- A decoding request's token in a step: written at its place, or the request ends with the fault of that write, a step command's (R304); `ended` says
that the program marks its end. -/
def stepToken (s : State) (c : Nat) (ended : Bool) (q : Request) : State :=
  let a := rqOut q.rec'.bytes + 4 * q.tokens
  match devWrFault s a 4 with
  | some f => endRequest s c q f.status
  | none =>
    let s := devWrite s { ctx := c } a (natLE 4 (Config.token c q.rec'.seq.toNat q.tokens).toNat)
    let q' := { q with tokens := q.tokens + 1 }
    let s := putRequest s c q q'
    if ended || rqMaxNew q.rec'.bytes ≤ q'.tokens then endRequest s c q' stDone else s

/-- A request's next `n` prompt tokens in a step: read, or the request ends with the fault of that read (R304). -/
def stepChunk (s : State) (c : Nat) (q : Request) (n : Nat) : State :=
  let a := rqPrompt q.rec'.bytes + 4 * q.read
  let bad := devFault s a (4 * n)
  let s := devTouch s { ctx := c } a (4 * n)
  match bad with
  | some f => endRequest s c q f.status
  | none =>
    let q' := { q with read := q.read + n }
    let s := putRequest s c q q'
    if promptDone q' && rqMaxNew q'.rec'.bytes = 0 then endRequest s c q' stDone else s

/-- SERVING_STEP (R302, R304): admission, then one step of the serving program. `ended` names, by their place in admission order, decoding
requests whose end the program marks in this step. The tokens it generates are the program's (log 6). -/
def execServingStep (c : Nat) (ended : List Nat) (s : State) : Host.Outcome State Fault Refusal :=
  let x := s.ctx c
  if x.state ≠ 1 || x.kind ≠ 1 || ctxFenced s c || !fwServes s c then .next s
  else
    let s := admitAll (x.reqs.length) c s
    let all := (s.ctx c).requests
    let decoding := all.zipIdx.filter (fun y => promptDone y.1 && decide (y.1.tokens < rqMaxNew y.1.rec'.bytes))
    let chunks := chunksOf ((s.ctx c).tokbud.toNat - decoding.length) (all.filter (fun q => !promptDone q))
    let s := decoding.foldl (fun s y => stepToken s c (ended.contains y.2) y.1) s
    .next (chunks.foldl (fun s y => stepChunk s c y.1 y.2) s)

/-- CTX_SERVE (R314): HOLD, MAXREQ, CHUNK and TOKBUD under their clamps. -/
def serveWrite (x : Ctx) (v : Nat) : Ctx :=
  let tb := max (min 8192 (max 32 (bitsOf v 0 14))) x.requests.length
  let mr := min tb (max 1 (bitsOf v 32 14))
  { x with hold := bitOf v 63, maxreq := BitVec.ofNat 14 mr, chunk := BitVec.ofNat 13 (min 4096 (max 32 (bitsOf v 16 13 / 32 * 32))), tokbud := BitVec.ofNat 14 tb }

def execCtxServe (who : Party) (c : Nat) (value : BitVec 64) (s : State) : Host.Outcome State Fault Refusal :=
  .next (gated s who (.ctx c) (fun s => s.modCtx c (fun x => serveWrite x value.toNat)))

/-! ### Fences of a context (R283, R290, R412) -/

/-- End a context's loads, loader records and requests: Tally 0x051 in the hub's ring. -/
def fenceServing (s : State) (c entry : Nat) : State :=
  let x := s.ctx c
  let jobs := s.loads.filter (fun j => j.rec'.ctx == c)
  let k := jobs.length + x.loader.length + x.requests.length + x.reqs.length
  let s := endJobs s (fun j => j.rec'.ctx == c) stFenced
  let s := s.modCtx c (fun x => { x with loader := [], reqs := [] })
  let s := x.loader.foldl (fun s r => loaderReport s r stFenced 0 0) s
  let s := x.requests.foldl (fun s q => endRequest s c q stFenced) s
  let s := x.reqs.foldl (fun s r => loaderReport s r stFenced 0 0) s
  if k = 0 then s else post s uHub c 0x051 (min k 0xFFFF + 2 ^ 16 * entry)

/-- Fence a context on the device: on every core, Ibex die and collective engine, and its loads and requests. -/
def fenceCtx (s : State) (c entry : Nat) : State :=
  let s := (usedCores s).foldl (fun s n => fenceSlot s n c entry) s
  let s := (List.range 8).foldl (fun s d => fenceIbex s d c entry) s
  let s := (List.range 8).foldl (fun s e => fenceColls s e entry (· == c)) s
  fenceServing s c entry

/-- Nothing of a context's commands is left, apart from completion records (R284). -/
def ctxEnded (s : State) (c : Nat) : Bool :=
  s.cores.all (fun n => (n.2.queues.all (fun q => q.2.all (fun r => r.ctx != c))) && n.2.running.all (fun r => r.rec'.ctx != c)) &&
    s.dieHeld.all (fun q => q.2.all (fun r => r.ctx != c)) && (s.ctx c).intake.isEmpty &&
    s.ibex.all (fun d => d.2.arrived.all (fun r => r.ctx != c) && d.2.batches.all (fun b => b.rec'.ctx != c)) &&
    s.ces.all (fun e => e.2.queue.all (fun r => r.ctx != c) && e.2.inflight.all (fun x => x.rec'.ctx != c)) &&
    s.loads.all (fun j => j.rec'.ctx != c) && (s.ctx c).loader.isEmpty && (s.ctx c).requests.isEmpty && (s.ctx c).reqs.isEmpty

/-- R284 for a context: its commands have ended, and no access it issued is outstanding. -/
def ctxQuiet (s : State) (c : Nat) : Bool := ctxEnded s c && s.accesses.all (fun a => a.ctx != c)

/-! ### CREATE and DESTROY (R288 to R290) -/

/-- Tally 0x0B4 for a change of STATE. -/
def noteCtx (s : State) (c st : Nat) : State := post s uHub c 0x0B4 (c + 2 ^ 10 * st)

def setResult (s : State) (c : Nat) (st : Status) : State := s.modCtx c (fun x => { x with result := st })

/-- The entry that CREATE leaves: reset values but for CTX_CFG, CTX_PARTS, CTX_RO0 and CTX_RO1 (R289). -/
def created (x : Ctx) : Ctx := { state := 1, kind := x.kind, parts := x.parts, ro0 := x.ro0, ro1 := x.ro1 }

/-- A write of a register in a context's entry that only context 0 and administrator ports may write: the owner's is ignored (R314). -/
def gatedEntry (s : State) (who : Party) (c : Nat) (f : State → State) : State :=
  gated s who (.ctx c) (fun s => if mayAccess s who .admin true then f s else s)

/-- CREATE (R288, R289). -/
def execCreate (who : Party) (c : Nat) (s : State) : Host.Outcome State Fault Refusal :=
  .next (gatedEntry s who c (fun s =>
    if c = 0 then setResult s c stPrivilege
    else if (s.ctx c).state ≠ 0 then setResult s c stMode
    else noteCtx (s.modCtx c created) c 1))

/-- DESTROY (R288, R290): the context is DYING and fenced. -/
def execDestroy (who : Party) (c : Nat) (s : State) : Host.Outcome State Fault Refusal :=
  .next (gatedEntry s who c (fun s =>
    if c = 0 then setResult s c stPrivilege
    else if (s.ctx c).state ≠ 1 then setResult s c stMode
    else fenceCtx (noteCtx (s.modCtx c (fun x => { x with state := 2 })) c 2) c 0x1F))

/-- A core's slots without a destroyed context; its held completion records go with the ring (log 33). -/
def coreForget (c : Nat) (k : Core) : Core :=
  (List.range 32).foldl (fun k i =>
    if i ≠ 0 && (k.slot i).ctx.toNat = c then k.setSlot i { k.slot i with valid := false, drain := false } else k)
    { k with comps := k.comps.filter (fun x => x.ctx != c) }

/-- DESTROY_COMPLETE (R290, steps 3 to 6). -/
def execDestroyComplete (c : Nat) (s : State) : Host.Outcome State Fault Refusal :=
  if (s.ctx c).state ≠ 2 || !ctxQuiet s c then .next s
  else
    let s := (usedCores s).foldl (fun s n => s.modCore n (coreForget c)) s
    let s := (s.folds.map (·.1)).foldl (fun s k => s.modFold k (fun f => if f.ctx.toNat = c then { f with valid := false } else f)) s
    let s := s.modCtx c (fun x => { x with rings := x.rings.map (fun r => (r.1, { r.2 with en := false, deferred := none, retry := false })), comps := [], state := 0,
                                           result := stDone })
    .next (noteCtx { s with manifests := s.manifests.filter (fun m => m.ctx != c) } c 0)

/-! ### Hurdles (R283 to R286) -/

/-- Highest index of a kind of unit (R23). -/
def unitCount (kind : Nat) : Nat := [0, 800, 80, 8, 128, 8, 256, 16, 32, 4].getD kind 0

/-- A TARGET within the range of its KIND, none of it context 0, nor the port making the write (R283, R286). -/
def targetOk (who : Party) (kind t : Nat) : Bool :=
  match kind with
  | 1 => t < 2 ^ 26 && t % 2 ^ 16 < 800 && t / 2 ^ 16 != 0
  | 2 => t < 1024 && t != 0
  | 3 => t < 2 && partyPort who != some t
  | 4 => t < 33
  | 5 => t < 2 ^ 24 && t / 256 < unitCount (t % 256)
  | _ => false

/-- End the running work of a unit (R283): commands and entries of the engines, moves and hints of a channel or memory-port die, the collective records
of the optical port whose ring is the collective engine's, the calibration of a laser die (log 91). -/
def fenceUnit (s : State) (kind i entry : Nat) : State :=
  match kind with
  | 6 => fenceChans s (i / 16) entry
  | 7 => fenceChans s i entry
  | 8 => if i % 4 = 0 then fenceColls s (i / 4) entry (fun _ => true) else s
  | 9 => s.modLaser i (fun l => { l with calibrating := false })
  | _ => fenceEngines s kind i entry

/-- End the work of a fenced party. -/
def fenceParty (s : State) (kind t entry : Nat) : State :=
  match kind with
  | 1 => fenceSlot s (t % 2 ^ 16) (t / 2 ^ 16) entry
  | 2 => fenceCtx s t entry
  | 5 => fenceUnit s (t % 256) (t / 256) entry
  | _ => s

/-- A slot's work on a core has ended. -/
def slotEnded (s : State) (n c : Nat) : Bool :=
  (s.core n).queues.all (fun q => q.2.all (fun r => r.ctx != c)) && (s.core n).running.all (fun r => r.rec'.ctx != c)

def coreEnded (s : State) (n : Nat) : Bool := (s.core n).queues.all (fun q => q.2.isEmpty) && (s.core n).running.isEmpty

/-- R284 for a unit: its work has ended, and no access it issued is outstanding. -/
def unitQuiet (s : State) (kind i : Nat) : Bool :=
  match kind with
  | 4 => !laneBusy (s.ibx (i / 16)) (i % 16)
  | 5 => (s.ibx i).entries.isEmpty
  | 6 => chanQuiet s i
  | 7 => (List.range 16).all (fun c => chanQuiet s (16 * i + c))
  | 8 => i % 4 != 0 || ((s.ce (i / 4)).inflight.isEmpty && (s.ce (i / 4)).queue.isEmpty && s.accesses.all (fun a => a.unit != ceUnit (i / 4)))
  | 9 => !(s.laser i).calibrating
  | _ => (unitCores kind i).all (fun n => coreEnded s n && s.accesses.all (fun a => a.unit != n))

/-- R284 for a party: its commands have ended, its accesses have been acknowledged or have failed. -/
def partyQuiet (s : State) (kind t : Nat) : Bool :=
  match kind with
  | 1 => slotEnded s (t % 2 ^ 16) (t / 2 ^ 16) && s.accesses.all (fun a => !(a.unit == t % 2 ^ 16 && a.ctx == t / 2 ^ 16))
  | 2 => ctxQuiet s t
  | 4 => s.oports.all (fun p => (p.2.rxq ++ p.2.ready ++ p.2.bridge).all (fun k => k.src.toNat != t))
  | 5 => unitQuiet s (t % 256) (t / 256)
  | _ => true

/-- A Hurdle on a core goes: the core is no longer kept out of NORMAL (R382; log 37). -/
def trustCore (s : State) (kind t : Nat) : State :=
  if kind = 5 && t % 256 = 1 then s.modCore (t / 256) (fun c => { c with untrusted := false }) else s

/-- An entry has freed: a Hurdle that firmware still has to raise is raised in it (R382). -/
def raiseWanted (s : State) (i : Nat) : State :=
  match s.hub2.wanted with
  | [] => s
  | u :: rest =>
    let s := { s with hub2 := { s.hub2 with wanted := rest } }
    if unitFenced s u.1 u.2 then s else raiseUnit s i u.1 u.2

/-- Lift a Hurdle (R286). -/
def liftHurdle (s : State) (i : Nat) : State :=
  let h := s.hurdle i
  let s := s.modHurdle i (fun h => { h with busy := false, quiesced := false, lifting := false, result := stDone })
  raiseWanted (trustCore (post s uHub 0 0x0A5 (hurdlePay h.kind.toNat h.target.toNat i)) h.kind.toNat h.target.toNat) i

/-- Raise a Hurdle that has passed its checks (R283). -/
def raiseHurdle (s : State) (i : Nat) (kind : BitVec 3) (target : BitVec 32) : State :=
  let s := s.modHurdle i (fun h => { h with busy := true, quiesced := false, lifting := false, result := stDone, kind := kind, target := target })
  fenceParty (post s uHub 0 0x0A3 (hurdlePay kind.toNat target.toNat i)) kind.toNat target.toNat i

/-- A change that may close or open a host port to its windows (R324). -/
def withRewatch (s : State) (f : State → State) : State := rewatch s (f s)

/-- RAISE (R283, R286). -/
def execRaise (who : Party) (i : Nat) (kind : BitVec 3) (target : BitVec 32) (s : State) : Host.Outcome State Fault Refusal :=
  .next (gated s who .hub (fun s =>
    if (s.hurdle i).busy then s
    else if !targetOk who kind.toNat target.toNat then s.modHurdle i (fun h => { h with kind := kind, target := target, result := stDescriptor })
    else if hurdled s kind.toNat target.toNat then s.modHurdle i (fun h => { h with kind := kind, target := target, result := stAlias })
    else withRewatch s (fun s => raiseHurdle s i kind target)))

/-- LIFT (R286): held until QUIESCED. -/
def execLift (who : Party) (i : Nat) (s : State) : Host.Outcome State Fault Refusal :=
  .next (gated s who .hub (fun s =>
    let h := s.hurdle i
    if !h.busy then s.modHurdle i (fun h => { h with result := stMode })
    else if h.quiesced then withRewatch s (fun s => liftHurdle s i)
    else s.modHurdle i (fun h => { h with lifting := true })))

/-- QUIESCED (R284); a LIFT that waits for it is then applied. -/
def execQuiesced (i : Nat) (s : State) : Host.Outcome State Fault Refusal :=
  let h := s.hurdle i
  if !h.busy || h.quiesced || !partyQuiet s h.kind.toNat h.target.toNat then .next s
  else
    let s := post (s.modHurdle i (fun h => { h with quiesced := true })) uHub 0 0x0A4 (hurdlePay h.kind.toNat h.target.toNat i)
    .next (if h.lifting then withRewatch s (fun s => liftHurdle s i) else s)

end Sys2Proof.Machine
end

