-- ==== Sys2Proof/Machine/HostPort.lean ====
section
/-! DEFINITION. Host ports and the Gate: link training and hot reset, BAR 2, DMA windows, semaphores (R315 to R330). -/

namespace Sys2Proof.Machine

open Sys2Proof

/-- Number of a host port; context 0 has none and is taken as port A. -/
def portNum (p : Party) : Nat := if p = .portB then 1 else 0

/-! ### Links (R316, R317) -/

/-- HOST_LINK_TRAINING (R316): once the device is out of reset, training sets MODE to CXL or PCIe fallback. -/
def execHostLinkTraining (port : Party) (mode : BitVec 2) (speed : BitVec 3) (width : BitVec 5) (s : State) : Host.Outcome State Fault Refusal :=
  if s.hub.phase ≠ .running || !(mode == 1 || mode == 2) then .next s
  else .next (withRewatch s (fun s => s.modHp (portNum port) (fun h => { h with mode := mode, speed := speed, width := width })))

/-- HOT_RESET (R317): hot reset, link disable or loss of one port's link. -/
def execHotReset (port : Party) (s : State) : Host.Outcome State Fault Refusal :=
  .next (withRewatch s (fun s => s.modHp (portNum port) (fun h => { h with mode := 0, speed := 0, width := 0 })))

/-! ### BAR 2 (R318, R322, R323) -/

/-- The unified range is ready: every memory port in service has initialised its frames (R323). -/
def rangeReady (s : State) : Bool := (List.range 16).all (fun m => (s.mport m).init || unitRetired (retiredOf s.weave.cur.sects) (.mport m))

/-- A port may reach a region of BAR 2 (R318). -/
def bar2Allowed (s : State) (p a n : Nat) (write : Bool) : Bool :=
  portAdmin s p ||
    (match boundCtx s p with
     | some c => inRanges s s.weave.cur.sects c a n && !(write && hitsRo s c a n)
     | none => false)

/-- A BAR 2 read returns bytes to the host. -/
def busBytes (s : State) (bs : List Byte) (bad : Bool) : State := { s with bus2 := bs, poisoned := bad }

/-- BAR2_ACCESS (R322): a read (no data) or a write by a host port. -/
def execBar2Access (port : Party) (offset len : Nat) (data : Option (List Byte)) (s : State) : Host.Outcome State Fault Refusal :=
  let p := portNum port
  let a := (s.hp p).hdm.toNat * 2 ^ 28 + offset
  let n := match data with | some bs => bs.length | none => len
  let zeros := List.replicate n 0
  if (s.hp p).mode = 0 || s.hub.phase ≠ .running || n = 0 || 2 ^ 40 < offset + n then .next s
  else if hurdled s 3 p then .next (if data.isNone then busBytes s zeros false else s)
  else if !bar2Allowed s p a n data.isSome then
    .next (countOutside (if data.isNone then busBytes s zeros false else s) port)
  else if !rangeReady s then
    .next ((if data.isNone then busBytes s zeros false else s).modHp p (fun h => { h with notready := stick h.notready 1 }))
  else
    match data with
    | some bs => if hitsSealed s a n then .next (post s uHub 0 0x0B5 0) else .next (uniWrite s { cmd := false } a bs)
    | none => .next (busBytes (touchRead s { cmd := false } a n) (uniRead s a n) (uniFault s a n).isSome)

/-- HPX_HDM (R322, R329). -/
def execHpxHdm (who : Party) (port : Party) (value : BitVec 64) (s : State) : Host.Outcome State Fault Refusal :=
  .next (gated s who .admin (fun s => s.modHp (portNum port) (fun h => { h with hdm := BitVec.ofNat 7 (min 64 (bitsOf value.toNat 0 7)) })))

/-- The device as it was while a window was served by a port, 1 A, 2 B, 0 none. -/
def servedBy (s : State) (w : Nat) (c : BitVec 2) : State :=
  let b : BitVec 16 := BitVec.ofNat 16 (2 ^ w)
  let put (m : BitVec 16) (on : Bool) : BitVec 16 := if on then m ||| b else m &&& ~~~b
  (s.modHp 0 (fun h => { h with winmap := put h.winmap (c == 1) })).modHp 1 (fun h => { h with winmap := put h.winmap (c == 2) })

/-- The port that the map names for a window now, as windows record it: 1 A, 2 B, 0 none (R324, R325). -/
def winNow (s : State) (w : Nat) : BitVec 2 :=
  match winPort s w with
  | some 0 => 1
  | some _ => 2
  | none => 0

/-- WINDOW_MOVE (R325): the accesses in flight through the old port have ended; the window's words are watched through the port that
now serves it. -/
def execWindowMove (w : Nat) (s : State) : Host.Outcome State Fault Refusal :=
  let now := winNow s w
  let before := tget winDef s.windows w
  if w ≥ 16 || before = now then .next s
  else .next (rewatch (servedBy s w before) { s with windows := tset winDef s.windows w now })

/-! ### The Gate (R326 to R328) -/

/-- Code of a party that owns or writes: 1 port A, 2 port B, 3 a context, or context 0 writing. -/
def partyCode : Party → BitVec 2
  | .portA => 1
  | .portB => 2
  | .fw => 3

/-- The context for which a command acts: CTX from context 0, none from a port. -/
def actingCtx (who : Party) (ctx : BitVec 10) : BitVec 10 := if who = .fw then ctx else 0

/-- A party is a semaphore's owner. -/
def ownsSem (x : Sem) (who : Party) (ctx : BitVec 10) : Bool := x.owner == partyCode who && x.octx == actingCtx who ctx

/-- A quiesced Hurdle fences the owner of a semaphore (R327). -/
def ownerFenced (s : State) (x : Sem) : Bool :=
  let (kind, t) := if x.owner = 3 then (2, x.octx.toNat) else (3, x.owner.toNat - 1)
  s.hurdles.any (fun h => h.2.busy && h.2.quiesced && h.2.kind.toNat == kind && h.2.target.toNat == t)

/-- Write the outcome of a Gate command. -/
def semResult (s : State) (who : Party) (i : Nat) (st : Status) : State := s.modGate i (fun x => { x with result := st, rby := partyCode who })

/-- Grant a semaphore. -/
def semGrant (s : State) (who : Party) (i : Nat) (ctx : BitVec 10) (lease : BitVec 12) : State :=
  s.modGate i (fun x => { x with state := 1, owner := partyCode who, octx := actingCtx who ctx, token := x.token + 1, lease := lease, since := s.time,
                                 result := stDone, rby := partyCode who })

/-- ACQUIRE (R326, R327). -/
def execAcquire (who : Party) (i : Nat) (ctx : BitVec 10) (lease : BitVec 12) (s : State) : Host.Outcome State Fault Refusal :=
  .next (gated s who .all (fun s =>
    let x := s.gate i
    if x.state = 0 then semGrant s who i ctx lease
    else if x.state = 2 && !ownsSem x who ctx && ownerFenced s x then semGrant (post s uHub 0 0x0C1 x.token.toNat) who i ctx lease
    else semResult s who i stAlias))

/-- Why a RELEASE or RENEW is refused. -/
def semRefuse (x : Sem) (who : Party) (ctx : BitVec 10) (key : BitVec 16) : Option Status :=
  if x.state = 0 || !ownsSem x who ctx then some stPrivilege else if key != x.token then some stGeneration else none

/-- RELEASE (R326). -/
def execRelease (who : Party) (i : Nat) (ctx : BitVec 10) (key : BitVec 16) (s : State) : Host.Outcome State Fault Refusal :=
  .next (gated s who .all (fun s =>
    match semRefuse (s.gate i) who ctx key with
    | some st => semResult s who i st
    | none => semResult (s.modGate i (fun x => { x with state := 0, owner := 0, octx := 0, lease := 0 })) who i stDone))

/-- RENEW (R326). -/
def execRenew (who : Party) (i : Nat) (ctx : BitVec 10) (key : BitVec 16) (lease : BitVec 12) (s : State) : Host.Outcome State Fault Refusal :=
  .next (gated s who .all (fun s =>
    match semRefuse (s.gate i) who ctx key with
    | some st => semResult s who i st
    | none => semResult (s.modGate i (fun x => { x with state := 1, lease := lease, since := s.time })) who i stDone))

/-- LEASE_EXPIRY (R326). -/
def execLeaseExpiry (i : Nat) (s : State) : Host.Outcome State Fault Refusal :=
  let x := s.gate i
  if x.state ≠ 1 || x.lease = 0 || s.time.toNat < x.since.toNat + x.lease.toNat * 1000000 then .next s
  else .next (post (s.modGate i (fun x => { x with state := 2 })) uHub 0 0x0C0 (i + 2 ^ 6 * x.owner.toNat))

end Sys2Proof.Machine
end

