-- ==== Sys2Proof/Machine/Observe.lean ====
section
/-! DEFINITION. Tally rings, the device cross-trigger, the black-box record and the counter-reset operation (R362 to R376). -/

namespace Sys2Proof.Machine

open Sys2Proof

/-! ### A unit's queue and ring (R363, R364, R366) -/

/-- The order of records generated in one cycle: event code, then payload. -/
def recBefore (a b : TallyRec) : Bool := a.code.toNat < b.code.toNat || (a.code == b.code && decide (a.payload.toNat ≤ b.payload.toNat))

def insertRec (r : TallyRec) : List TallyRec → List TallyRec
  | [] => [r]
  | x :: xs => if recBefore x r then x :: insertRec r xs else r :: x :: xs

/-- The records of one cycle in their order; equal ones keep the order they were generated in. -/
def sortRecs (l : List TallyRec) : List TallyRec := l.foldl (fun acc r => insertRec r acc) []

/-- A record matches the trigger's comparison (R366). -/
def TallyUnit.hits (t : TallyUnit) (r : TallyRec) : Bool := r.code &&& t.mask == t.code &&& t.mask && (!t.ctxen || r.ctx == t.ctx)

/-- The first record of a list that fires the trigger, by its place. -/
def TallyUnit.firing (t : TallyUnit) (l : List TallyRec) : Option Nat := if t.arm && !t.triggered && !t.frozen then l.findIdx? t.hits else none

/-- Discard one record: the oldest that does not fire the trigger. -/
def discardOne (t : TallyUnit) (l : List TallyRec) : List TallyRec :=
  match t.firing l with
  | some 0 => l.take 1 ++ l.drop 2
  | _ => l.drop 1

/-- Discard down to 16 records: the rest, and how many went. -/
def discardTo : Nat → TallyUnit → List TallyRec → List TallyRec × Nat
  | 0, _, l => (l, 0)
  | n + 1, t, l =>
    if l.length ≤ 16 then (l, 0)
    else
      let x := discardTo n t (discardOne t l)
      (x.1, x.2 + 1)

/-- Append the cycle's records to the queue (R364). -/
def appendFresh (t : TallyUnit) : TallyUnit :=
  let l := t.queue ++ sortRecs t.fresh
  let x := discardTo l.length t l
  { t with fresh := [], queue := x.1, lost := stick t.lost x.2, lostSince := t.lostSince + x.2 }

/-- Write one record to the ring: the ring after it, and whether its trigger fired. -/
def ringWrite (cap : Nat) (t : TallyUnit) (r : TallyRec) : TallyUnit × Bool :=
  if t.frozen then ({ t with dropped := stick t.dropped 1 }, false)
  else
    let i := t.head.toNat % cap
    let t' := { t with slots := tset trecDef t.slots i r, head := t.head + 1, lastCode := r.code }
    if t.triggered then
      (if t.postLeft.toNat ≤ 1 then ({ t' with postLeft := 0, frozen := true }, false) else ({ t' with postLeft := t.postLeft - 1 }, false))
    else if t.arm && t.hits r then ({ t' with triggered := true, trigIdx := BitVec.ofNat 8 i, postLeft := t.post, frozen := t.post == 0 }, true)
    else (t', false)

/-! ### The black-box record (R371 to R373) -/

/-- Selection registers at manufacture (R373). -/
def selDef (j : Nat) : BitVec 64 := if j = 0 then 0xFF90 else 0

def bbxSelected (b : BlackBox) (r : TallyRec) : Bool :=
  let g := r.code.toNat / 16
  (tget selDef b.sel (g / 64)).getLsbD (g % 64)

/-- A selected record arrives at the hub's buffer. -/
def bbxAdmit (s : State) (r : TallyRec) : State :=
  let b := s.bbx
  if !bbxSelected b r then s
  else if b.frozen || b.closed then { s with bbx := { b with lost := stick b.lost 1 } }
  else if 256 ≤ b.buffer.length then { s with bbx := { b with lost := stick b.lost 1, lostSince := b.lostSince + 1 }, hub := { s.hub with bbxlost := true } }
  else { s with bbx := { b with buffer := b.buffer ++ [r] } }

/-- Write one record to the NVM die. -/
def bbxPut (b : BlackBox) (r : TallyRec) : BlackBox := { b with records := tset trecDef b.records (b.head.toNat % 4096) r, head := b.head + 1 }

/-- BLACK_BOX_WRITE (R371): the oldest buffered record is written; with room again, records lost are reported. -/
def execBlackBoxWrite (s : State) : Host.Outcome State Fault Refusal :=
  match s.bbx.frozen, s.bbx.buffer with
  | false, r :: rest =>
    let b := bbxPut { s.bbx with buffer := rest } r
    if b.lostSince = 0 then .next { s with bbx := b }
    else .next (post { s with bbx := { b with lostSince := 0 } } uHub 0 0x0FA (min b.lostSince 0xFFFF))
  | _, _ => .next s

/-- Freeze the black-box record with Tally 0x0F8 (R370, R373). -/
def bbxFreeze (s : State) (why : Nat) : State := post { s with bbx := { s.bbx with frozen := true } } uHub 0 0x0F8 why

/-- BBX_FREEZE (R373). -/
def execBbxFreeze (who : Party) (s : State) : Host.Outcome State Fault Refusal := .next (gated s who .admin (fun s => bbxFreeze s 0))

/-- Resume the black-box record (R373). -/
def bbxUnfreeze (s : State) : State := { s with bbx := { s.bbx with frozen := false, lost := 0 } }

/-- UNFREEZE (R373). -/
def execUnfreeze (who : Party) (s : State) : Host.Outcome State Fault Refusal := .next (gated s who .admin bbxUnfreeze)

/-- The reset marker (R372): whatever waits is written, then 0x0F0, and with HOLD a reset of cause 3 to 6 freezes the record. -/
def bbxMarker (s : State) (cause : Nat) : State :=
  let r : TallyRec := { time := BitVec.ofNat 48 s.time.toNat, unit := 0x7FF, ctx := 0, code := 0x0F0,
                        payload := BitVec.ofNat 46 (bitsOf s.time.toNat 48 16 + 2 ^ 16 * cause + 2 ^ 20 * s.hub.por.toNat) }
  if s.bbx.frozen then { s with bbx := { s.bbx with lost := stick s.bbx.lost 1 } }
  else
    let b := (s.bbx.buffer ++ [r]).foldl bbxPut { s.bbx with buffer := [] }
    { s with bbx := { b with frozen := b.hold && decide (3 ≤ cause) && decide (cause ≤ 6), lostSince := 0 } }

/-! ### TALLY_QUEUE_WRITE and the cross-trigger (R364, R366) -/

/-- One cycle of a unit's Tally logic. -/
def tallyCycle (s : State) (u : Nat) : State :=
  let s := s.modTally u appendFresh
  match (s.tally u).queue with
  | [] => s
  | r :: rest =>
    let t := s.tally u
    let x := ringWrite (tallyCap u) { t with queue := rest } r
    let s := bbxAdmit (s.modTally u (fun _ => { x.1 with lostSince := 0 })) r
    let s := if t.lostSince = 0 then s else post s u 0 0x0F9 (min t.lostSince 0xFFFF)
    if x.2 && t.xout then post { s with hub2 := { s.hub2 with xtrig := true } } uHub 0 0x0F2 u else s

/-- TALLY_QUEUE_WRITE (R364, R366). -/
def execTallyQueueWrite (unit : Nat) (s : State) : Host.Outcome State Fault Refusal := .next (tallyCycle s unit)

/-- A ring triggers as if its last record written had matched (R366). -/
def crossHit (u : Nat) (t : TallyUnit) : TallyUnit :=
  if !t.xin || t.triggered then t
  else { t with triggered := true, trigIdx := BitVec.ofNat 8 ((t.head.toNat + tallyCap u - 1) % tallyCap u), postLeft := t.post, frozen := t.frozen || t.post == 0 }

/-- CROSS_TRIGGER (R366, R372). -/
def execCrossTrigger (s : State) : Host.Outcome State Fault Refusal :=
  if !s.hub2.xtrig then .next s
  else
    let s := { s with tallies := s.tallies.map (fun t => (t.1, crossHit t.1 t.2)), hub2 := { s.hub2 with xtrig := false } }
    .next (if s.bbx.xin && !s.bbx.frozen then bbxFreeze s 1 else s)

/-- Rearm and freeze, as one write of TLY_CTL does: rearm first (R368). -/
def tlyRearm (t : TallyUnit) : TallyUnit := { t with triggered := false, frozen := false }
def tlyFreeze (t : TallyUnit) : TallyUnit := { t with frozen := true }

/-- The hub's Tally registers lie in the HUB block, the others in their units' blocks. -/
def tallyArea (u : Nat) : RegArea := if u = uHub then .hub else .admin

/-- TLY_FREEZE (R368). -/
def execTlyFreeze (who : Party) (unit : Nat) (s : State) : Host.Outcome State Fault Refusal :=
  .next (gated s who (tallyArea unit) (fun s => s.modTally unit tlyFreeze))

/-- REARM (R368). -/
def execRearm (who : Party) (unit : Nat) (s : State) : Host.Outcome State Fault Refusal :=
  .next (gated s who (tallyArea unit) (fun s => s.modTally unit tlyRearm))

/-! ### Counter reset (R374) -/

/-- Schedule a device-scope reset at T, 1,000 ns from now; ignored while one is pending. -/
def scheduleDev (s : State) : State :=
  match s.hub2.cntPend with
  | some _ => s
  | none => { s with hub2 := { s.hub2 with cntPend := some (s.time + 1000), cntT := s.time + 1000 } }

/-- Schedule a context-scope reset. -/
def scheduleCtx (s : State) (c : Nat) : State :=
  match (s.ctx c).cntPend with
  | some _ => s
  | none => s.modCtx c (fun x => { x with cntPend := some (s.time + 1000) })

/-- DEVICE_SCOPE_RESET (R374). -/
def execDeviceScopeReset (who : Party) (s : State) : Host.Outcome State Fault Refusal := .next (gated s who .admin scheduleDev)

/-- CONTEXT_SCOPE_RESET (R374). -/
def execContextScopeReset (who : Party) (c : Nat) (s : State) : Host.Outcome State Fault Refusal :=
  .next (gated s who .admin (fun s => scheduleCtx s c))

/-- GO (R374): a context's own reset. -/
def execGo (who : Party) (c : Nat) (s : State) : Host.Outcome State Fault Refusal := .next (gated s who (.ctx c) (fun s => scheduleCtx s c))

/-- Clear every counter outside the context table that R374 names, a count that clears on reading included (log 34). -/
def clearDev (s : State) : State :=
  { s with
    cores := s.cores.map (fun c => (c.1, { c.2 with ctr := [], corrected := 0 }))
    ibex := s.ibex.map (fun c => (c.1, { c.2 with ctr := [], corrected := 0 }))
    mports := s.mports.map (fun c => (c.1, { c.2 with ctr := [], corrected := 0, passes := 0 }))
    oports := s.oports.map (fun c => (c.1, { c.2 with ctr := [], e2eCorr := 0, downs := 0 }))
    lasers := s.lasers.map (fun c => (c.1, { c.2 with recals := 0 }))
    ces := s.ces.map (fun c => (c.1, { c.2 with missed := 0, carried := 0, dropped := 0 }))
    folds := s.folds.map (fun c => (c.1, { c.2 with miscnt := 0 }))
    hps := s.hps.map (fun c => (c.1, { c.2 with notready := 0, badsize := 0, outside := 0, dmard := 0, dmawr := 0 }))
    tallies := s.tallies.map (fun c => (c.1, { c.2 with lost := 0, dropped := 0 }))
    hub := { s.hub with glitch := 0 }
    hub2 := { s.hub2 with ctr := [], evtMissed := [] }
    pwr := { s.pwr with powerus := 0, thermus := 0 } }

/-- Clear a context's counters: all but THROTTLE, which R314 does not name. -/
def clearCtx (s : State) (c : Nat) : State := s.modCtx c (fun x => { x with ctr := x.ctr.filter (fun y => y.1 == 0x0E8) })

/-- COUNTER_CLEAR (R374): at T or after, the scope's counters clear, EPOCH advances, and the hub writes 0x0F1. -/
def execCounterClear (ctx : Option Nat) (s : State) : Host.Outcome State Fault Refusal :=
  match ctx with
  | none =>
    (match s.hub2.cntPend with
     | none => .next s
     | some t =>
       if s.time.toNat < t.toNat then .next s
       else
         let s := clearDev s
         .next (post { s with hub2 := { s.hub2 with cntPend := none, cntEpoch := s.hub2.cntEpoch + 1 } } uHub 0 0x0F1 1))
  | some c =>
    (match (s.ctx c).cntPend with
     | none => .next s
     | some t =>
       if s.time.toNat < t.toNat then .next s
       else .next (post ((clearCtx s c).modCtx c (fun x => { x with cntPend := none, cntEpoch := x.cntEpoch + 1 })) uHub c 0x0F1 (2 + 4 * c)))

end Sys2Proof.Machine
end

