-- ==== Sys2Proof/Machine/Options.lean ====
section
/-! DEFINITION. The option bytes: validity, the state machine that runs at every reset, and PROGRAM (R343 to R345). -/

namespace Sys2Proof.Machine

open Sys2Proof

/-- The ranges of the fields from byte 8 to byte 59 of an option image (R343). -/
def optRanges (b : List Byte) : Bool :=
  let within (v lo hi : Nat) : Bool := decide (lo ≤ v) && decide (v ≤ hi)
  let launch := sgn 16 (fld b 12 2)
  within (fld b 8 2) 500 3800 && within (fld b 10 2) 100 1200 && decide (-100 ≤ launch) && decide (launch ≤ 20) && within (fld b 14 2) 100 200 &&
    within (fld b 16 4) 1 64 && within (fld b 20 1) 0 16 && fld b 21 1 < 16 && within (fld b 22 1) 70 95 && within (fld b 23 1) 0 24 &&
    ((b.drop 24).take 36).all (· == 0)

/-- MAGIC of an option image. -/
def optMagic : Nat := 0x4254_504F

/-- A copy is valid (R343). -/
def optValid (b : List Byte) : Bool := b.length == 64 && fld b 0 4 == optMagic && optRanges b && fld b 60 4 == crc32 (b.take 60)

/-- An image with MAGIC, SEQ and CRC supplied by the hardware (R348). -/
def optSeal (seq : Nat) (b : List Byte) : List Byte :=
  let body := natLE 4 optMagic ++ natLE 4 seq ++ (b.drop 8).take 52
  body ++ natLE 4 (crc32 body)

def optSeq (b : List Byte) : Nat := fld b 4 4

/-- The image that OPT_MIRROR shows: under DEFAULT, that of R344 with SEQ 0 and its CRC. -/
def optMirror (s : State) : List Byte := match s.opt.image with | [] => optSeal 0 optDefault | i => i

/-- The option-byte state machine (R344): READ, SELECT, and APPLIED or DEFAULT with Tally 0x0D0. -/
def optBoot (s : State) : State :=
  let a := optValid s.opt.copyA
  let b := optValid s.opt.copyB
  let o := { s.opt with bada := !a, badb := !b, pend := false, result := 0, stage := [] }
  if a && (!b || optSeq s.opt.copyB ≤ optSeq s.opt.copyA) then { s with opt := { o with image := s.opt.copyA, src := 0, st := 0 } }
  else if b then { s with opt := { o with image := s.opt.copyB, src := 1, st := 0 } }
  else post { s with opt := { o with image := [], src := 2, st := 1 } } uHub 0 0x0D0 0

/-- The staged image's 64 bytes. -/
def optStaged (s : State) : List Byte := (List.range 8).flatMap (fun j => natLE 8 (tget d0 s.opt.stage j).toNat)

/-- Program the copy not in force with the staged image (R345). -/
def optProgram (s : State) : State :=
  let b := optStaged s
  if !optRanges b then { s with opt := { s.opt with result := stDescriptor } }
  else
    let seq := if s.opt.src = 2 then 1 else (optSeq s.opt.image + 1) % 2 ^ 32
    let img := optSeal seq b
    let o := { s.opt with pend := true, result := stDone }
    { s with opt := if s.opt.src = 0 then { o with copyB := img } else { o with copyA := img } }

/-- PROGRAM (R345): an OPT_CTL write; one from context 0 is ignored. -/
def execProgram (who : Party) (s : State) : Host.Outcome State Fault Refusal :=
  .next (if who = .fw then s else gated s who .hub optProgram)

end Sys2Proof.Machine
end

