-- ==== Sys2Proof/Machine/WeaveImage.lean ====
section
/-! DEFINITION. Weave images: layout, verification, limits, the built-in minimal Weave and composition (R22 to R28, R245, R246). -/

namespace Sys2Proof.Machine

open Sys2Proof

/-! ### The image (R22, R23) -/

/-- Header fields. -/
def wvKind (m : List Byte) : Nat := fld m 6 1
def wvCount (m : List Byte) : Nat := fld m 7 1
def wvGen (m : List Byte) : Nat := fld m 8 4
def wvBase (m : List Byte) : Nat := fld m 12 4
def wvBinding (m : List Byte) : Nat := fld m 16 8
def wvTotal (m : List Byte) : Nat := fld m 24 4

/-- TOTAL_LENGTH lies in range: a multiple of 8, at most 16 MiB, and long enough for the header, the directory and the signature block. -/
def wvTotalOk (m : List Byte) : Bool := wvTotal m % 8 == 0 && decide (wvTotal m ≤ 2 ^ 24) && decide (64 + 16 * wvCount m + 96 ≤ wvTotal m)

/-- All bytes of a part are zero. -/
def zeros (l : List Byte) : Bool := l.all (· == 0)

/-- A directory entry (R22). -/
structure DirEnt where
  typ  : Nat
  cnt  : Nat
  off  : Nat
  len  : Nat
  zero : Bool
deriving DecidableEq, Repr, Inhabited

def dirOf (m : List Byte) : List DirEnt :=
  (recordsOf (wvCount m) 16 (m.drop 64)).map (fun r =>
    { typ := fld r 0 1, cnt := fld r 2 2, off := fld r 4 4, len := fld r 8 4, zero := fld r 1 1 == 0 && fld r 12 4 == 0 })

/-- Bytes of a directory entry's section. -/
def sectBytes (m : List Byte) (d : DirEnt) : List Byte := (m.drop d.off).take d.len

/-- The sections of an image. -/
def imgSects (m : List Byte) : List Sect := (dirOf m).map (fun d => { typ := BitVec.ofNat 8 d.typ, count := d.cnt, bytes := sectBytes m d })

/-- The image holds a section of a type. -/
def hasType (m : List Byte) (t : Nat) : Bool := (dirOf m).any (fun d => d.typ == t)

/-- The header is wrong (R22): MAGIC, VERSION, KIND, SECTION_COUNT, TOTAL_LENGTH, BASE_GENERATION of a full Weave, a reserved byte. -/
def headerBad (m : List Byte) : Bool :=
  fld m 0 4 != 0x56414557 || fld m 4 2 != 1 || decide (1 < wvKind m) || wvCount m == 0 || decide (16 < wvCount m) || !wvTotalOk m ||
    m.length != wvTotal m || (wvKind m == 0 && wvBase m != 0) || !zeros ((m.drop 28).take 36) || !sigReservedOk m

/-- Fixed record size and the most records of a section type (R23). -/
def sectShape (t : Nat) : Nat × Nat :=
  [(0, 0), (32, 1), (160, 64), (4, 32), (24, 1024), (4, 32), (48, 256), (8, 8), (4, 1024), (272, 1)].getD t (0, 0)

/-- Number of units of a retired-unit kind (R23). -/
def kindCount (kind : Nat) : Nat := [0, 800, 80, 8, 128, 8, 256, 16, 32, 4].getD kind 0

/-- Record fields outside their ranges, and nonzero reserved fields, by type. -/
def recordBad (t : Nat) (r : List Byte) : Bool :=
  let v := leNat r
  match t with
  | 1 => !zeros (r.drop 8)
  | 2 => decide (63 < fld r 0 1) || !zeros ((r.drop 1).take 7) || !zeros ((r.drop 124).take 4) || !zeros (r.drop 144) || fld r 128 8 % 4096 != 0 ||
      fld r 136 8 % 4096 != 0 || decide (Config.uniTop < fld r 128 8 + fld r 136 8)
  | 3 => decide (32 < bitsOf v 0 6) || bitsOf v 6 2 != 0 || bitsOf v 13 3 != 0 || bitsOf v 21 10 != 0
  | 4 => fld r 0 8 % 4096 != 0 || fld r 8 8 % 4096 != 0 || decide (3 < fld r 16 1) || !zeros (r.drop 17)
  | 5 => decide (2 < bitsOf v 0 2) || bitsOf v 2 6 != 0 || bitsOf v 16 16 != 0
  | 8 => bitsOf v 0 8 == 0 || decide (9 < bitsOf v 0 8) || decide (kindCount (bitsOf v 0 8) ≤ bitsOf v 8 16) || bitsOf v 24 8 != 0
  | 9 => !zeros ((r.drop 13).take 3) || (recordsOf 16 16 (r.drop 16)).any (fun w => fld w 0 8 % 4096 != 0 || fld w 8 8 % 4096 != 0)
  | _ => false

/-- A section is wrong in its layout: its place, its type, its count, its records. The records of sharding plans are checked apart (R246). R23 says
'up to 8' clock plans: that a section without any is refused is the model's choice (log 69). -/
def sectBad (m : List Byte) (i : Nat) (d : DirEnt) : Bool :=
  let ds := dirOf m
  let shape := sectShape d.typ
  let others := (List.range ds.length).filter (· != i)
  d.typ == 0 || decide (9 < d.typ) || !d.zero || d.off % 8 != 0 || decide (d.off < 64 + 16 * wvCount m) || decide (wvTotal m - 96 < d.off + d.len) ||
    others.any (fun j => let e := ds.getD j default; e.typ == d.typ || meets d.off d.len e.off e.len) || decide (shape.2 < d.cnt) ||
    ((d.typ == 1 || d.typ == 9) && d.cnt != 1) || (d.typ == 5 && d.cnt != 32) || (d.typ == 7 && d.cnt == 0) ||
    (d.typ != 6 && (d.len != shape.1 * d.cnt || (recordsOf d.cnt shape.1 (sectBytes m d)).any (recordBad d.typ)))

/-- A full Weave contains every type but retired units (R23). -/
def typesMissing (m : List Byte) : Bool := wvKind m == 0 && ([1, 2, 3, 4, 5, 6, 7, 9].any (fun t => !hasType m t))

/-! ### The generation an image produces (R23) -/

/-- Sections in force, replaced by those in an image. -/
def produce (base : List Sect) (m : List Byte) : List Sect :=
  if wvKind m = 0 then imgSects m else base.filter (fun x => !hasType m x.typ.toNat) ++ imgSects m

/-- Two partitions of a list share a core, a lane or an address. -/
def partsShare : List Part → Bool
  | [] => false
  | p :: ps => ps.any (fun q => p.cores &&& q.cores != 0 || p.lanes &&& q.lanes != 0 || meets p.base p.len q.base q.len) || partsShare ps

/-- A partition has units, and the list retires all of them. -/
def partDead (r : List (Nat × Nat)) (p : Part) : Bool :=
  (p.cores != 0 || p.lanes != 0) && (List.range 800).all (fun n => !bitOf p.cores n || coreRetired r n) && (List.range 128).all (fun l => !bitOf p.lanes l || laneRetired r l)

/-- A route's port is off, Ethernet or retired. -/
def routeBad (l : List Sect) (p : Nat) : Bool :=
  let r := retiredOf l
  (portPlan l p).1 != 1 || oportRetired r p || laserRetired r (p / 8)

/-- A sharding plan record fails (R246). -/
def planBad (l : List Sect) (r : List Byte) : Bool :=
  let n := fld r 7 1
  let ranks := (List.range n).map (fun i => fld r (8 + i) 1)
  fld r 2 2 != 48 || fld r 4 1 == 0 || fld r 5 1 == 0 || fld r 6 1 == 0 || n != fld r 4 1 * fld r 5 1 * fld r 6 1 || decide (33 < n) || ranks.eraseDups.length != n ||
    ranks.any (fun x => x != ownRank l && (routeTo l x).isNone) || !zeros ((r.drop (8 + n)).take (40 - n))

/-- The sharding-plans section fails. -/
def plansBad (l : List Sect) : Bool :=
  match sectOf l 6 with
  | none => false
  | some x =>
    let rs := recordsOf x.count 48 x.bytes
    x.bytes.length != 48 * x.count || rs.any (planBad l) || (rs.map (fun r => fld r 0 2)).eraseDups.length != x.count

/-- Bytes pinned to SRAM, and the SRAM tier less its retired part (R25, R199, R202). -/
def pinnedBytes (l : List Sect) : Nat := ((sectRecs l 4 24).map (fun r => if fld r 16 1 = 1 then fld r 8 8 else 0)).sum
def sramBytes (s : State) (l : List Sect) : Nat :=
  let r := retiredOf l
  let frames (f : TFrame) : Nat := match f with | .sram d _ => if r.contains (3, d) then 0 else 4096 | .lp _ => 0
  ((List.range 8).filter (fun d => !r.contains (3, d))).length * 2 ^ 31 - (s.nvmFrames.map (fun x => frames x.2)).sum

/-! ### Placement by class (R193) -/

/-- What an interval of tiles leaves when another is cut out. -/
def cutOut (a b : Nat × Nat) : List (Nat × Nat) :=
  [(a.1, min a.2 b.1), (max a.1 b.2, a.2)].filter (fun x => x.1 < x.2)

/-- The tile intervals a tier map gives to policies that a test picks; the first record that covers a tile governs it (R23). -/
def policyParts (p : Nat → Bool) : List (Nat × Nat) → List (List Byte) → List (Nat × Nat)
  | _, [] => []
  | seen, r :: rs =>
    let x := (fld r 0 8 / 4096, (fld r 0 8 + fld r 8 8) / 4096)
    let mine := if p (fld r 16 1) then seen.foldl (fun l b => l.flatMap (cutOut · b)) [x] else []
    mine ++ policyParts p (x :: seen) rs

/-- Tiles of class `k` of `n` in an interval. -/
def classTiles (n k : Nat) (x : Nat × Nat) : Nat := (x.2 + (n - 1 - k)) / n - (x.1 + (n - 1 - k)) / n

/-- A generation's tier map asks more of a class than its frames in service hold (R193): for a boot Weave under the interleave it gives, else
under the one in force. -/
def classOver (s : State) (l : List Sect) (boot : Bool) : Bool :=
  let r := retiredOf l
  let out := if boot then (List.range 256).filter (chanRetired r) else s.tiers.outCh
  let s := { s with tiers := { s.tiers with outCh := out } }
  let n := nChan s
  let gone := s.nvmFrames.filterMap (nvmFrame s)
  let pin := policyParts (· == 1) [] (sectRecs l 4 24)
  let low := policyParts (fun p => p == 2 || p == 3) [] (sectRecs l 4 24)
  let slices := (List.range 8).filter (fun d => !r.contains (3, d) && (boot || !s.tiers.outSlice.contains d))
  (List.range n).any (fun k =>
    let lost (f : TFrame → Bool) : Nat := (gone.filter (fun x => x.1 == k && f x.2)).length
    let sram := slices.length * framesPer s - lost (fun f => match f with | .sram d _ => slices.contains d | .lp _ => false)
    let lp := if chanRetired r (chanOf s k) then 0 else lpFrames - lost (fun f => match f with | .sram _ _ => false | .lp _ => true)
    decide (sram < (pin.map (classTiles n k)).sum) || decide (lp < (low.map (classTiles n k)).sum))

/-! ### Routes and ranks (R224) -/

/-- The routes section leaves no single own rank, or names a peer twice. -/
def ranksBad (l : List Sect) : Bool :=
  let rs := (routesOf l).map (·.rank)
  rs.eraseDups.length != rs.length || ((List.range (rs.length + 1)).filter (fun x => !rs.contains x)).length != 1

/-- A route's ports do not fit the port plan's peers, or a fabric port has the device's own rank as its peer. -/
def peersBad (l : List Sect) : Bool :=
  let own := ownRank l
  (routesOf l).any (fun x => (portPlan l x.prim).2 != x.rank ||
    (match x.alt with | some a => (portPlan l a).2 == x.rank || (portPlan l a).2 == own | none => false)) ||
    (List.range 32).any (fun p => (portPlan l p).1 == 1 && (portPlan l p).2 == own)

/-- The clock plans of a generation. -/
def clockPlans (l : List Sect) : List (List Nat) := (sectRecs l 7 8).map (fun r => r.map (·.toNat))

/-- A unit of a list is retired in another list, by itself or with a unit that contains it. -/
def stillRetired (r : List (Nat × Nat)) (u : Nat × Nat) : Bool :=
  match u.1 with
  | 1 => coreRetired r u.2
  | 2 => r.contains u || r.contains (3, u.2 / 10)
  | 4 => laneRetired r u.2
  | 6 => chanRetired r u.2
  | _ => r.contains u

/-! ### Limits (R26) -/

/-- The Weave's limit values as they count: a value above the hardware absolute has no effect. -/
def capped (s : State) (l : List Sect) : Limits :=
  match weaveLimits l with
  | none => limitsOf s l
  | some w => { power := min 3800 w.power, current := min 1200 w.current, launch := min 20 w.launch, rate := min 200 w.rate, ring := min 64 w.ring, dma := min 16 w.dma,
                windows := w.windows }

/-- The windows in use of a list of limits. -/
def inUse (x : Limits) : List (Nat × Nat) := x.windows.take x.dma

/-- A generation raises a limit of another (R25, R26, R359): a larger value, or host memory that no window covered (log 38). -/
def raisesLimit (s : State) (old new : List Sect) : Bool :=
  let a := capped s old
  let b := capped s new
  decide (a.power < b.power) || decide (a.current < b.current) || decide (a.launch < b.launch) || decide (a.rate < b.rate) || decide (a.ring < b.ring) ||
    decide (a.dma < b.dma) || (inUse b).any (fun w => w.2 != 0 && !covered (inUse a) w.1 w.2)

/-! ### Verification (R24, R25) -/

/-- ERRSEC of a check: the directory index of the first of the types it rests on that the image holds. -/
def errIdx (m : List Byte) (types : List Nat) : Nat :=
  (types.findSome? (fun t => (dirOf m).findIdx? (fun d => d.typ == t))).getD 0xFF

/-- The BINDING and signature checks. `boot` accepts the device's own signature for an image bound to it (R28). -/
def bindingOk (s : State) (m : List Byte) : Bool := wvBinding m == 0 || (s.sec.derived && wvBinding m == deviceBinding)
def sigOk (s : State) (m : List Byte) (boot : Bool) : Bool :=
  signedBy (weaveKeys s) m || (boot && s.sec.derived && wvBinding m == deviceBinding && signedBy [Config.identityKey] m)

/-- The checks on the generation that an image produces, each with the types it rests on. R25 orders its own; where the further checks of R193, R224
and R246 stand among them is the model's choice: each after the check of R25 on the same section (log 69). -/
def objectFails (s : State) (cur : WeaveGen) (m : List Byte) (boot : Bool) : List (Bool × List Nat) :=
  let l := produce cur.sects m
  let r := retiredOf l
  let lim := limitsOf s l
  [((sectOf l 1).any (fun x => fld x.bytes 0 2 != 0x6480 || ((x.bytes.drop 2).take 6).map (·.toNat) != Config.inventory), [1]),
   (partsShare (partsOf l) || (partsOf l).any (partDead r), [2, 8]),
   ((routesOf l).any (fun x => routeBad l x.prim || (match x.alt with | some a => routeBad l a | none => false)), [3, 5, 8]),
   (ranksBad l, [3]),
   (peersBad l, [3, 5]),
   (plansBad l, [6, 3]),
   (decide (sramBytes s l < pinnedBytes l), [4, 8]),
   (classOver s l boot, [4]),
   ((clockPlans l).any (fun p => p.any (fun c => decide (24 < c)) || decide (lim.power < Config.planPower p)), [7, 9]),
   (!boot && wvKind m == 1 && !((retiredOf cur.sects).all (stillRetired r)), [8])]

/-- Verification (R25): the first failure, as status and ERRSEC. `boot` leaves out the delta checks and admits only a full Weave (R27). -/
def verifyImage (s : State) (cur : WeaveGen) (m : List Byte) (boot : Bool) : Option (Status × Nat) :=
  if headerBad m || typesMissing m then some (stDescriptor, 0xFF)
  else
    match (dirOf m).zipIdx.find? (fun x => sectBad m x.2 x.1) with
    | some x => some (stDescriptor, x.2)
    | none =>
      if !bindingOk s m || !sigOk s m boot then some (stPrivilege, 0xFF)
      else if boot && wvKind m = 1 then some (stDescriptor, 0xFF)
      else if !boot && wvKind m = 1 && (wvBase m ≠ cur.gen.toNat || wvGen m ≠ wvBase m + 1 || cur.gen = 0xFFFFFFFF) then some (stGeneration, 0xFF)
      else ((objectFails s cur m boot).find? (·.1)).map (fun x => (stDescriptor, errIdx m x.2))

/-! ### The minimal Weave and composition (R27, R28) -/

/-- The built-in minimal Weave (R27). Its limits section holds the hardware absolutes, so the option bytes alone bind; no DMA window is in use. -/
def minimalSects : List Sect :=
  [{ typ := 1, count := 1, bytes := natLE 2 0x6480 ++ Config.inventory.map (BitVec.ofNat 8) ++ List.replicate 24 0 },
   { typ := 2, count := 1, bytes := List.replicate 8 0 ++ natLE 100 (2 ^ 800 - 1) ++ natLE 16 (2 ^ 128 - 1) ++ List.replicate 4 0 ++ natLE 8 0 ++ natLE 8 Config.uniTop ++ List.replicate 16 0 },
   { typ := 3, count := 0, bytes := [] },
   { typ := 4, count := 0, bytes := [] },
   { typ := 5, count := 32, bytes := List.replicate 128 0 },
   { typ := 6, count := 0, bytes := [] },
   { typ := 7, count := 1, bytes := List.replicate 8 0 },
   { typ := 9, count := 1, bytes := natLE 2 3800 ++ natLE 2 1200 ++ natLE 2 20 ++ natLE 2 200 ++ natLE 4 64 ++ natLE 1 16 ++ List.replicate 259 0 }]

/-- The minimal Weave's generation. No image was adopted, so WEAVE_DIGEST reads 0 under it: the model's choice (log 69). -/
def minimalGen : WeaveGen := { gen := 0, sects := minimalSects, digest := [] }

/-- Bytes padded to a multiple of 8. -/
def pad8 (l : List Byte) : List Byte := l ++ List.replicate (roundup l.length 8 - l.length) 0

/-- Directory entries and sections laid out from an offset. -/
def layOut : Nat → List Sect → List Byte × List Byte
  | _, [] => ([], [])
  | off, x :: xs =>
    let b := pad8 x.bytes
    let r := layOut (off + b.length) xs
    ([x.typ, 0] ++ natLE 2 x.count ++ natLE 4 off ++ natLE 4 x.bytes.length ++ natLE 4 0 ++ r.1, b ++ r.2)

/-- The generation in force as a full Weave, bound to this device and signed by it (R28). -/
def composeWeave (g : WeaveGen) : List Byte :=
  let xs := (List.range 10).filterMap (fun t => sectOf g.sects t)
  let r := layOut (64 + 16 * xs.length) xs
  let total := 64 + r.1.length + r.2.length + 96
  let body := natLE 4 0x56414557 ++ natLE 2 1 ++ [0, BitVec.ofNat 8 xs.length] ++ natLE 4 g.gen.toNat ++ natLE 4 0 ++ natLE 8 deviceBinding ++ natLE 4 total ++
    List.replicate 36 0 ++ r.1 ++ r.2
  body ++ deviceBlock body

end Sys2Proof.Machine
end

