-- ==== Sys2Proof/Machine/Weave.lean ====
section
/-! DEFINITION. The WEAVE block: staging, applying a delta in generations, rollback, fences, PERSIST, boot, CCLK (R17, R27 to R37). -/

namespace Sys2Proof.Machine

open Sys2Proof

/-! ### Events and results (R35, R37) -/

def wvResult (s : State) (st : Status) : State := { s with weave := { s.weave with result := st } }

/-- Set a bit of WEAVE_EVT and write its Tally record with the new generation (R37; log 35). -/
def wvEvent (s : State) (bit gen : Nat) : State :=
  post { s with weave := { s.weave with evt := s.weave.evt ||| BitVec.ofNat 3 (2 ^ bit) } } uHub 0 (Config.weaveEvent bit) (gen % 2 ^ 32)

/-- The generation that a delta establishes. -/
def nextGen (s : State) : Nat := match s.weave.nxt with | some g => g.gen.toNat | none => s.weave.cur.gen.toNat

/-! ### The units (R30) -/

def allUnits : List CfgUnit :=
  (List.range 800).map .core ++ (List.range 128).map .lane ++ (List.range 16).map .mport ++ (List.range 32).map .oport

/-- The units that adopt: those that the generation in force does not retire. -/
def serviceUnits (s : State) : List CfgUnit := allUnits.filter (fun u => !unitRetired (retiredOf s.weave.cur.sects) u)

/-- Units still at g. -/
def unitsAtG (s : State) : List CfgUnit := (serviceUnits s).filter (fun u => !s.weave.adopted.contains u)

/-- WEAVE_LAG.LAG (R37). -/
def lagOf (s : State) : Nat :=
  match s.weave.st with
  | .applying => (unitsAtG s).length
  | .rollingBack => s.weave.adopted.length
  | _ => 0

/-- A unit is at a safe point (R30). -/
def unitSafe (s : State) : CfgUnit → Bool
  | .core n => (s.core n).running.isEmpty
  | .lane l => laneBetween s (l / 16) (l % 16)
  | .mport m => s.tiers.moves.all (fun x => x.channel / 16 != m)
  | .oport p => (s.oport p).held.isEmpty && (s.oport p).waiting.isEmpty

/-! ### What a unit does when its generation changes (R15, R31, R192, R202, R232, R243) -/

/-- The commands queued on a core that its new generation retires (R15, R33). -/
def refuseQueues (s : State) (n : Nat) : State :=
  let s := s.modCore n (fun c => { c with waits := [] })
  (List.range 32).foldl (fun s i => (List.range 4).foldl (fun s e =>
    ((s.core n).queue e i).foldl (fun s r => endHead s n e i r stDescriptor 4) s) s) s

/-- A port's mode and peer. -/
def portRole (s : State) (p : Nat) : Nat × Nat := (opMode s p, if opMode s p = 1 then (portPlan (opSects s p) p).2 else 0)

/-- A launch reading brought down to the limit in force (R243). -/
def clampLaunch (s : State) (p : Nat) : State :=
  s.modOport p (fun o => { o with launch := o.launch.map (fun v => if launchLimit s p < v.toInt then BitVec.ofInt 8 (launchLimit s p) else v) })

/-- A port under its new generation (R223, R232, R243): one whose role changes goes dark, or trains; a lowered rate takes it DOWN, and a rate that lets it
run again starts its training; otherwise it goes on, its launch within the new limit. -/
def portChange (old s : State) (p : Nat) : State :=
  let st := (s.oport p).state
  if opMode s p = 0 then
    (if st = 0 || st = 4 then s else linkDown s p 0).modOport p (fun o => { o with dark := true, retryTrain := false, advert := none })
  else if st = 4 then s
  else if portRole old p != portRole s p then trainAgain s p
  else if !rateOk s p then (if st = 0 then s else linkDown s p 0)
  else if st = 0 && !rateOk old p then startTraining s p
  else clampLaunch s p

/-- Channels of a port that the generation retires and that were in service at boot (R202). -/
def lostChannels (s : State) (m : Nat) : Nat :=
  let r := retiredOf (sectsOf s (.mport m))
  pack ((List.range 16).map (fun i => (1, b2n (chanRetired r (16 * m + i) && !s.tiers.outCh.contains (16 * m + i)))))

/-- Frames of the slices that the generation retires start retiring (R199, R202). -/
def retireSlices (s : State) (m : Nat) : State :=
  let r := retiredOf (sectsOf s (.mport m))
  ((slicesIn s).filter (fun d => r.contains (3, d))).foldl (fun s d => (classesOf s m).foldl (fun s k =>
    (List.range (framesPer s)).foldl (fun s p => startRetire s k (.sram d p)) s) s) s

/-- A unit has taken another generation. -/
def unitChange (old s : State) : CfgUnit → State
  | .core n =>
    let r := retiredOf (sectsOf s (.core n))
    if coreRetired r n && !coreRetired (retiredOf (sectsOf old (.core n))) n then refuseQueues s n else s
  | .lane _ => s
  | .mport m => adoptTiers (retireSlices (s.modMport m (fun x => { x with lost := x.lost ||| BitVec.ofNat 16 (lostChannels s m) })) m) m
  | .oport p => settleLaser (releaseBridge (settleColls (portChange old s p)) p) (p / 8)

/-- A unit adopts g + 1. -/
def adoptOne (s : State) (u : CfgUnit) : State := unitChange s { s with weave := { s.weave with adopted := u :: s.weave.adopted } } u

/-- A unit returns to g. -/
def returnOne (s : State) (u : CfgUnit) : State := unitChange s { s with weave := { s.weave with adopted := s.weave.adopted.filter (· != u) } } u

/-! ### The end of an APPLY (R32, R356, R382) -/

/-- The Hurdles of kind 5 on units that the generation in force retires are lifted (R382). -/
def liftRetired (s : State) : State :=
  let r := retiredOf s.weave.cur.sects
  ((List.range 16).filter (fun i => let h := s.hurdle i; h.busy && h.kind == 5 && stillRetired r (h.target.toNat % 256, h.target.toNat / 256))).foldl
    (fun s i => withRewatch s (fun s => liftHurdle s i)) s

/-- Clock plan 0 takes effect when its section is adopted (R23): every die asks for its code (R17). The section counts as adopted once every unit has
adopted it (log 70). -/
def adoptClocks (s : State) (l : List Sect) : State :=
  match clockPlan l 0 with
  | none => s
  | some p => (List.range 8).foldl (fun s d => askClk s d (min (p.getD d 0) (optCclkMax s))) s

/-- Every unit has adopted: g + 1 is active; no bridge holds anything any longer (R31). -/
def activateGen (s : State) : State :=
  match s.weave.nxt with
  | none => s
  | some g =>
    let clocks := hasType s.weave.image 7
    let s := withRewatch s (fun s => { s with
      weave := { s.weave with cur := g, nxt := none, adopted := [], fences := [], st := .idle, result := stDone, next := 0, image := [] }
      sec := { s.sec with wmeas := sha256 (s.sec.wmeas ++ g.digest) } })
    let s := (List.range 32).foldl releaseBridge s
    let s := if clocks then adoptClocks s g.sects else s
    wvEvent (liftRetired s) 0 g.gen.toNat

/-- A rollback has ended: every unit is at g. -/
def rolledBack (s : State) : State :=
  let g := nextGen s
  wvEvent { s with weave := { s.weave with nxt := none, adopted := [], fences := [], st := .idle, result := stDeadline, next := 0, image := [] } } 2 g

/-- A unit that the Weave fences is quiet: it changes generation, and the Hurdle lifts (R32, R284, R412). -/
def settleFence (change : State → CfgUnit → State) (s : State) (u : CfgUnit) : State :=
  let c := unitCode u
  let pay := hurdlePay 5 (c.1 + 256 * c.2) 0x1F
  if partyQuiet s 5 (c.1 + 256 * c.2) then
    let s := change (post s uHub 0 0x0A4 pay) u
    post { s with weave := { s.weave with fences := s.weave.fences.filter (· != u) } } uHub 0 0x0A5 pay
  else s

/-- Fence a unit with a Hurdle of the Weave (R32, R412): its work ends; once it is quiet, at once or at a later UNIT_ADOPT, it changes generation. -/
def weaveFence (change : State → CfgUnit → State) (s : State) (u : CfgUnit) : State :=
  let c := unitCode u
  let s := post s uHub 0 0x0A3 (hurdlePay 5 (c.1 + 256 * c.2) 0x1F)
  let s := fenceUnit { s with weave := { s.weave with fences := s.weave.fences ++ [u], fenced := stick s.weave.fenced 1 } } c.1 c.2 0x1F
  settleFence change s u

/-- The window has ended, or is treated as ended (R32): a delta that retires units is forced, any other rolls back. -/
def expireWindow (s : State) : State :=
  if hasType s.weave.image 8 then
    let us := (unitsAtG s).filter (fun u => !s.weave.fences.contains u)
    let g := nextGen s
    let s := us.foldl (weaveFence adoptOne) s
    let s := if us = [] then s else wvEvent s 1 g
    if unitsAtG s = [] then activateGen s else s
  else
    let s := { s with weave := { s.weave with st := .rollingBack, deadline := s.time + BitVec.ofNat 64 (s.weave.span * 1000) } }
    let s := ((List.range 32).filter (fun p => !s.weave.adopted.contains (.oport p))).foldl releaseBridge s
    if s.weave.adopted = [] then rolledBack s else s

/-- The unit in whose Tally ring a configuration unit's events go (R362). -/
def unitRing : CfgUnit → Nat
  | .core n => n
  | .lane l => uIbex (l / 16)
  | .mport m => uMport m
  | .oport p => uOport p

/-- The fault event of a unit that faults while adopting (R32; log 35). -/
def adoptFault (s : State) (u : CfgUnit) : State :=
  let x := Config.adoptFault (unitCode u).1 (unitCode u).2
  post s (unitRing u) 0 x.1 x.2

/-- The change has reached its end: g + 1 becomes active, or the rollback has completed. -/
def closeChange (s : State) : State :=
  match s.weave.st with
  | .applying => if unitsAtG s = [] then activateGen s else s
  | .rollingBack => if s.weave.adopted = [] then rolledBack s else s
  | _ => s

/-- UNIT_ADOPT (R30, R32): at its safe point a unit adopts, or returns to g; a unit that the Weave has fenced does so once it is quiet. -/
def execUnitAdopt (u : CfgUnit) (faults : Bool) (s : State) : Host.Outcome State Fault Refusal :=
  if unitRetired (retiredOf s.weave.cur.sects) u || !allUnits.contains u then .next s
  else if s.weave.fences.contains u then
    .next (closeChange (settleFence (if s.weave.st = .applying then adoptOne else returnOne) s u))
  else if !unitSafe s u then .next s
  else
    match s.weave.st with
    | .applying =>
      if s.weave.adopted.contains u then .next s
      else if faults then .next (expireWindow (adoptFault s u))
      else .next (closeChange (adoptOne s u))
    | .rollingBack =>
      if !s.weave.adopted.contains u then .next s else .next (closeChange (returnOne s u))
    | _ => .next s

/-- WINDOW_EXPIRY (R32). -/
def execWindowExpiry (s : State) : Host.Outcome State Fault Refusal :=
  if s.weave.st = .applying && s.weave.deadline.toNat ≤ s.time.toNat then .next (expireWindow s) else .next s

/-- ROLLBACK_WINDOW_EXPIRY (R32). -/
def execRollbackWindowExpiry (s : State) : Host.Outcome State Fault Refusal :=
  if s.weave.st = .rollingBack && s.weave.deadline.toNat ≤ s.time.toNat then
    let us := s.weave.adopted.filter (fun u => !s.weave.fences.contains u)
    let g := nextGen s
    let s := us.foldl (weaveFence returnOne) s
    .next (closeChange (if us = [] then s else wvEvent s 1 g))
  else .next s

/-! ### WEAVE_CTL (R35) -/

/-- The status with which an operation is refused in a state where it always is. -/
def wvRefusal : WvState → Option Status
  | .verifying => some stMode
  | .persisting => some stMode
  | .applying => some stGeneration
  | .rollingBack => some stGeneration
  | _ => none

/-- An image that cannot be read (R35). -/
def imageFault (s : State) (a n : Nat) : Option Status :=
  (hubReadFault s a n).map (fun _ => if spaceOf a == .host then stLink else stEcc)

/-- STAGE: the header gives TOTAL_LENGTH, and that many bytes are fetched. -/
def wvStage (s : State) : State :=
  match wvRefusal s.weave.st with
  | some st => wvResult s st
  | none =>
    let a := s.weave.src.toNat * 8
    let w := { s.weave with st := .verifying, next := 0, image := [], fetchErr := 0 }
    match imageFault s a 64 with
    | some f => { (devTouch s {} a 64) with weave := { w with fetchErr := f } }
    | none =>
      let h := devRead s a 64
      let n := if wvTotalOk h then wvTotal h else 64
      match imageFault s a n with
      | some f => { (devTouch s {} a n) with weave := { w with fetchErr := f } }
      | none => { (devTouch s {} a n) with weave := { w with image := devRead s a n } }

/-- APPLY: limits are raised only from a host port (R25, R26). -/
def wvApply (s : State) (who : Party) : State :=
  match s.weave.st with
  | .applying => wvResult s stGeneration
  | .rollingBack => wvResult s stGeneration
  | .staged =>
    let m := s.weave.image
    let l := produce s.weave.cur.sects m
    if wvKind m = 0 then wvResult s stMode
    else if who = .fw && raisesLimit s s.weave.cur.sects l then
      { s with weave := { s.weave with result := stPrivilege, errsec := BitVec.ofNat 8 (errIdx m [9]) } }
    else
      { s with weave := { s.weave with
          st := .applying, nxt := some { gen := BitVec.ofNat 32 (wvGen m), sects := l, digest := sha256 m }, adopted := [], span := s.weave.window.toNat,
          deadline := s.time + BitVec.ofNat 64 (s.weave.window.toNat * 1000), fenced := 0 } }
  | _ => wvResult s stMode

/-- ABORT. -/
def wvAbort (s : State) : State :=
  match s.weave.st with
  | .verifying => { s with weave := { s.weave with st := .idle, image := [], next := 0, result := stDone } }
  | .staged => { s with weave := { s.weave with st := .idle, image := [], next := 0, result := stDone } }
  | .applying => expireWindow s
  | _ => wvResult s stMode

/-- PERSIST: a composed Weave needs the identity key (R357). -/
def wvPersist (s : State) : State :=
  match wvRefusal s.weave.st with
  | some st => wvResult s st
  | none =>
    if s.weave.st = .staged then
      (if wvKind s.weave.image = 0 then { s with weave := { s.weave with st := .persisting, persist := s.weave.image } } else wvResult s stMode)
    else if s.sec.noid || !s.sec.derived then wvResult s stMode
    else { s with weave := { s.weave with st := .persisting, persist := composeWeave s.weave.cur } }

/-- An operation written to WEAVE_CTL (R35). The block works once the boot shepherd has loaded the Weave (log 38). -/
def wvRun (s : State) (who : Party) (op : Nat) : State :=
  if !s.weave.loaded then s
  else match op with
    | 1 => wvStage s
    | 2 => wvApply s who
    | 3 => wvAbort s
    | 4 => wvPersist s
    | _ => s

/-- The hub image hands over, and the SEC and WEAVE commands wait (R386). -/
def hubHandsOver (s : State) : Bool := s.hub2.fwState == 1 && s.hub2.fwTarget == 8

/-- A WEAVE_CTL write. -/
def wvCtl (who : Party) (op : Nat) (s : State) : State :=
  gated s who .admin (fun s =>
    if hubHandsOver s then { s with hub2 := { s.hub2 with heldOps := s.hub2.heldOps ++ [(who, 0, op)] } } else wvRun s who op)

/-- STAGE (R34, R35). -/
def execStage (who : Party) (s : State) : Host.Outcome State Fault Refusal := .next (wvCtl who 1 s)

/-- APPLY (R32, R35). -/
def execApply (who : Party) (s : State) : Host.Outcome State Fault Refusal := .next (wvCtl who 2 s)

/-- ABORT (R32, R35). -/
def execAbort (who : Party) (s : State) : Host.Outcome State Fault Refusal := .next (wvCtl who 3 s)

/-- PERSIST (R28, R35). -/
def execPersist (who : Party) (s : State) : Host.Outcome State Fault Refusal := .next (wvCtl who 4 s)

/-- VERIFICATION_END (R25, R35). -/
def execVerificationEnd (s : State) : Host.Outcome State Fault Refusal :=
  let w := s.weave
  if w.st ≠ .verifying then .next s
  else if w.fetchErr ≠ 0 then .next { s with weave := { w with st := .idle, next := 0, image := [], result := w.fetchErr, errsec := 0xFF } }
  else
    match verifyImage s w.cur w.image false with
    | some f => .next { s with weave := { w with st := .idle, next := 0, image := [], result := f.1, errsec := BitVec.ofNat 8 f.2 } }
    | none => .next { s with weave := { w with st := .staged, next := BitVec.ofNat 32 (wvGen w.image), result := stDone, errsec := 0xFF } }

/-- The slot that PERSIST writes becomes `x`; the other stays or loses its mark. -/
def putSlot (w : Weave) (x : WvSlot) (keepOther : Bool) : Weave :=
  if w.inUse then { w with slotA := x, slotB := { w.slotB with valid := w.slotB.valid && keepOther } }
  else { w with slotB := x, slotA := { w.slotA with valid := w.slotA.valid && keepOther } }

/-- PERSIST_END (R28, R35): after a good read-back the validity mark moves; otherwise the slot in use keeps it. -/
def execPersistEnd (readBackOk : Bool) (s : State) : Host.Outcome State Fault Refusal :=
  let w := s.weave
  if w.st ≠ .persisting then .next s
  else
    let w' := { w with st := .idle, next := 0, image := [], persist := [] }
    if readBackOk then
      .next { s with weave := { (putSlot w' { valid := true, gen := BitVec.ofNat 32 (wvGen w.persist), image := w.persist } false) with
                inUse := !w.inUse, result := stDone } }
    else .next { s with weave := { (putSlot w' {} true) with result := stEcc } }

/-! ### Boot (R27, R203, R356) -/

/-- The slots in the order the boot shepherd tries them: those with the mark, the higher generation first; number 0 is A. Of two slots of one
generation A goes first: the model's choice (log 69). -/
def bootSlots (w : Weave) : List (Nat × WvSlot) :=
  let l := if w.slotA.gen.toNat < w.slotB.gen.toNat then [(1, w.slotB), (0, w.slotA)] else [(0, w.slotA), (1, w.slotB)]
  l.filter (fun x => x.2.valid)

/-- The Weave that boots: 0 slot A, 1 slot B, 2 the minimal Weave. -/
def bootWeave (s : State) : Nat × WeaveGen :=
  match (bootSlots s.weave).find? (fun x => (verifyImage s minimalGen x.2.image true).isNone) with
  | some x => (x.1, { gen := BitVec.ofNat 32 (wvGen x.2.image), sects := imgSects x.2.image, digest := sha256 x.2.image })
  | none => (2, minimalGen)

/-- CCLK codes that a clock plan gives, under CCLKMAX (R342). -/
def planCode (s : State) (l : List Sect) (k d : Nat) : Option Nat := (clockPlan l k).map (fun p => min (p.getD d 0) (optCclkMax s))

/-- The device adopts a boot Weave whole. Under the minimal Weave no slot is in use: the bit that names the slot in use then stays as it was, so that
PERSIST writes the other one (slot B of a device that has never used B) and moves the mark to it: the model's choice (log 69). -/
def adoptBoot (s : State) (b : Nat × WeaveGen) : State :=
  let l := b.2.sects
  let r := retiredOf l
  let outCh := (List.range 256).filter (chanRetired r)
  let outSlice := (List.range 8).filter (fun d => r.contains (3, d))
  let kept := s.hub.keep && s.tiers.outCh == outCh && s.hub.keepDies == outSlice
  let d := if b.1 = 2 then List.replicate 32 0xFF else b.2.digest
  let s := { s with
    weave := { s.weave with cur := b.2, loaded := true, bootsrc := BitVec.ofNat 4 b.1, inUse := if b.1 = 2 then s.weave.inUse else b.1 == 1 }
    sec := { s.sec with wmeas := sha256 (List.replicate 32 0 ++ d) }
    hub2 := { s.hub2 with clkCode := (List.range 8).foldl (fun t d => tset d0 t d (BitVec.ofNat 5 ((planCode s l 0 d).getD 0))) s.hub2.clkCode } }
  let s := if kept then s else rangeInit s outCh outSlice
  let s := (List.range 16).foldl (fun s m => if r.contains (7, m) then s else
    let s := adoptTiers (s.modMport m (fun x => { x with init := kept, kept := kept })) m
    if kept then retireSlices s m else s) s
  (List.range 32).foldl (fun s p => if opMode s p = 0 then s else startTraining s p) s

/-- LOADING_AT_BOOT (R27): once the hub image runs. -/
def execLoadingAtBoot (s : State) : Host.Outcome State Fault Refusal :=
  if s.hub.phase ≠ .running || !s.sec.booted || s.sec.st = 2 || s.weave.loaded then .next s
  else .next (adoptBoot s (bootWeave s))

/-! ### CCLK (R17, R23, R342) -/

/-- CCLK_CHANGE (R17, R23): firmware asks for a clock plan of the generation in force on a die; the change takes effect once the die's cores are all
between commands, and no command issues there meanwhile. A plan that the generation does not have is refused with REFUSED_GENERATION (R33); no
register shows that status, which the model keeps (log 70). -/
def execCclkChange (die plan : Nat) (s : State) : Host.Outcome State Fault Refusal :=
  if !s.weave.loaded || 8 ≤ die then .next s
  else
    match planCode s s.weave.cur.sects plan die with
    | none => .next { s with hub2 := { s.hub2 with clkStatus := stGeneration } }
    | some c => .next (askClk { s with hub2 := { s.hub2 with clkStatus := stDone } } die c)

end Sys2Proof.Machine
end

