-- ==== Sys2Proof/Machine/Security.lean ====
section
/-! DEFINITION. The SEC block: firmware images and boot, attestation, the certificate, key slots, fuses, debug access (R349 to R361, R398). -/

namespace Sys2Proof.Machine

open Sys2Proof

/-! ### Firmware images (R351, R352) -/

def fwTgt (m : List Byte) : Nat := fld m 6 1
def fwSvn (m : List Byte) : Nat := fld m 7 1
def fwLen (m : List Byte) : Nat := fld m 8 4

/-- LENGTH in range: a multiple of 64, at most 4 MiB, with room for the header and the signature block. -/
def fwLenOk (m : List Byte) : Bool := fwLen m % 64 == 0 && decide (fwLen m ≤ 2 ^ 22) && decide (160 ≤ fwLen m)

/-- The header fails (R352). -/
def fwHeaderBad (m : List Byte) : Bool :=
  fld m 0 4 != 0x57464853 || fld m 4 2 != 1 || decide (8 < fwTgt m) || !fwLenOk m || !zeros ((m.drop 12).take 52)

/-- The checks of R352 on a whole image, the last one apart. -/
def fwCheck (s : State) (m : List Byte) : Option Status :=
  if fwHeaderBad m || m.length != fwLen m || !sigReservedOk m then some stDescriptor
  else if !signedBy (romKeys s) m then some stPrivilege
  else if fwSvn m < s.sec.fused.toNat then some stGeneration
  else none

/-- An image as it runs: SVN and measurement. -/
def fwImageOf (m : List Byte) : FwImage := { svn := BitVec.ofNat 8 (fwSvn m), digest := sha256 m, image := m }

/-- A copy in the NVM die verifies for a target. -/
def copyOk (s : State) (t : Nat) : Option FwImage → Option FwImage
  | some x => if (fwCheck s x.image).isNone && fwTgt x.image = t then some (fwImageOf x.image) else none
  | none => none

/-- The copies of a target in the order of R351, each with whether it is the second. -/
def bootCopies (f : FwTarget) : List (Bool × Option FwImage) :=
  let v (o : Option FwImage) : Nat := match o with | some x => x.svn.toNat + 1 | none => 0
  if v f.nvm0 < v f.nvm1 || (v f.nvm0 = v f.nvm1 && f.used1) then [(true, f.nvm1), (false, f.nvm0)] else [(false, f.nvm0), (true, f.nvm1)]

/-- The image that a target boots. -/
def bootImage (s : State) (t : Nat) : Option (Bool × FwImage) := (bootCopies (s.fw t)).findSome? (fun c => (copyOk s t c.2).map (fun x => (c.1, x)))

/-- Load, verify and measure one target's image; without one, FWBAD, and for a compute die Tally 0x0E0 (R351). -/
def bootTarget (s : State) (t : Nat) : State :=
  match bootImage s t with
  | some x => s.modFw t (fun f => { f with running := some x.2, used1 := x.1, report := s.time })
  | none =>
    let s := { s with sec := { s.sec with fwbad := s.sec.fwbad ||| BitVec.ofNat 9 (2 ^ t) } }
    if t = 8 then s else post s uHub 0 0x0E0 t

/-- FIRMWARE_BOOT (R351). -/
def execFirmwareBoot (s : State) : Host.Outcome State Fault Refusal :=
  if s.hub.phase ≠ .running || s.sec.booted then .next s
  else
    let s := bootTarget { s with sec := { s.sec with booted := true, derived := !s.sec.noid } } 8
    if (s.fw 8).running.isNone then .next { s with sec := { s.sec with st := 2 } }
    else .next ((List.range 8).foldl bootTarget s)

/-- FWPEND (R361). -/
def fwPend (s : State) : Nat := pack ((List.range 9).map (fun t => (1, b2n (s.fw t).staged.isSome)))

/-- Where a verified image goes: staged for its target, or in RECOVERY into the NVM copy not in use (R351, R352). -/
def fwStage (s : State) (m : List Byte) : State :=
  let x := some (fwImageOf m)
  if s.sec.st = 2 then s.modFw 8 (fun f => if f.used1 then { f with nvm0 := x } else { f with nvm1 := x })
  else s.modFw (fwTgt m) (fun f => { f with staged := x })

/-! ### Results -/

def secResult (s : State) (st : Status) : State := { s with sec := { s.sec with result := st } }
def secSrc (s : State) : Nat := s.sec.src.toNat * 64
def secDst (s : State) : Nat := s.sec.dst.toNat * 64

/-- Write a report to SEC_DST and set LEN. -/
def secWrite (s : State) (bs : List Byte) : State :=
  match hubWriteFault s (secDst s) bs.length with
  | some f => secResult s f
  | none => { (devWrite s {} (secDst s) bs) with sec := { s.sec with len := BitVec.ofNat 16 bs.length, result := stDone } }

/-- FWVERIFY of an image that holds an uncorrectable word: the checks that do not need the signed bytes come first (R352; log 39). -/
def fwEccResult (s : State) (a n : Nat) : Status :=
  let m := devRead s a n
  if (hubReadFault s (a + n - 96) 96).isNone && (romKeys s).all (fun k => keyId k != (sigBlock m).take 8) then stPrivilege
  else if fwSvn m < s.sec.fused.toNat then stGeneration else stEcc

/-- FWVERIFY (R352). In RECOVERY only a target-8 image from a host port is taken (R351; log 39). -/
def secFwverify (s : State) (who : Party) : State :=
  let a := secSrc s
  match hubReadFault s a 64 with
  | some f => secResult (devTouch s {} a 64) f
  | none =>
    let h := devRead s a 64
    if fwHeaderBad h then secResult (devTouch s {} a 64) stDescriptor
    else
      let n := fwLen h
      let m := devRead s a n
      let s' := devTouch s {} a n
      match hubReadFault s a n with
      | some f => secResult s' (if f = stEcc then fwEccResult s a n else f)
      | none =>
        match fwCheck s m with
        | some f => secResult s' f
        | none => if s.sec.st = 2 && (fwTgt m ≠ 8 || who = .fw) then secResult s' stMode else secResult (fwStage s' m) stDone

/-! ### Attestation (R355, R356) -/

/-- The 64 bytes of a key slot: zeros when it is empty. -/
def keyBytes (s : State) (i : Nat) : List Byte := match slotKey s i with | [] => List.replicate 64 0 | k => k

/-- The 32 bytes of a measurement; zeros for none. -/
def dig32 (l : List Byte) : List Byte := match l with | [] => List.replicate 32 0 | d => d

/-- Bytes 0 to 511 of the report (R355). -/
def attestBody (s : State) : List Byte :=
  natLE 4 0x54535441 ++ natLE 2 1 ++ [BitVec.ofNat 8 (b2n (s.opt.src == 2) + 2 * b2n (s.weave.bootsrc == 2) + 4 * b2n (fwPend s != 0)), 0] ++
    natLE 8 s.time.toNat ++ (List.range 4).flatMap (fun j => natLE 8 (tget d0 s.sec.nonce j).toNat) ++ identityDigest ++ dig32 s.sec.wmeas ++
    (List.range 9).flatMap (fun t => match (s.fw t).running with | some x => dig32 x.digest | none => List.replicate 32 0) ++
    sha256 ((List.range 20).flatMap (keyBytes s)) ++ optMirror s ++ natLE 4 s.weave.cur.gen.toNat ++ [s.sec.fused] ++ List.replicate 11 0

/-- ATTEST (R355, R357). -/
def secAttest (s : State) : State :=
  if s.sec.noid || !s.sec.derived then secResult s stMode
  else
    let b := attestBody s
    secWrite s (b ++ (Config.identitySign (sha256 b)).take 64)

/-- CERT (R350). -/
def secCert (s : State) : State := secWrite s (Config.certificate.take 1024)

/-! ### Key slots and fuses (R353, R354) -/

/-- ENROL: the checks of R354 in its table's order. -/
def secEnrol (s : State) (slot : Nat) : State :=
  let a := secSrc s
  if 19 < slot then secResult s stDescriptor
  else
    match hubReadFault s a 64 with
    | some f => secResult (devTouch s {} a 64) f
    | none =>
      let k := devRead s a 64
      let s := devTouch s {} a 64
      if slotKey s slot ≠ [] || (List.range 20).any (fun i => slotKey s i == k) then secResult s stAlias
      else if !Config.onCurve k then secResult s stDescriptor
      else secResult { s with sec := { s.sec with keys := tset dL s.sec.keys slot k } } stDone

/-- REVOKE. -/
def secRevoke (s : State) (slot : Nat) : State :=
  if 19 < slot || slotKey s slot = [] then secResult s stDescriptor
  else secResult { s with sec := { s.sec with keys := tset dL s.sec.keys slot [] } } stDone

/-- The lowest SVN among running images. -/
def lowestSvn (s : State) : Option Nat :=
  (List.range 9).foldl (fun m t => match (s.fw t).running with
    | some x => (match m with | none => some x.svn.toNat | some v => some (min v x.svn.toNat))
    | none => m) none

/-- FUSESVN (R353): FUSED never falls. -/
def secFusesvn (s : State) : State :=
  match lowestSvn s with
  | some v => secResult { s with sec := { s.sec with fused := BitVec.ofNat 8 (max s.sec.fused.toNat v) } } stDone
  | none => secResult s stDone

/-! ### SEC_CTL (R354, R360, R361) -/

/-- A command written to SEC_CTL, with its SLOT. -/
def secRun (s : State) (who : Party) (slot op : Nat) : State :=
  let admin := decide (who ≠ .fw)
  match op with
  | 1 => secAttest s
  | 2 => secCert s
  | 3 => secFwverify s who
  | 4 => if admin then secEnrol s slot else s
  | 5 => if admin then secRevoke s slot else s
  | 6 => if admin then secFusesvn s else s
  | _ => s

/-- A SEC_CTL write: SLOT is stored, and the command runs, or waits for a handover of the hub image (R386). -/
def secCtl (who : Party) (slot : BitVec 5) (op : Nat) (s : State) : State :=
  gated s who .hub (fun s =>
    let s := { s with sec := { s.sec with slot := slot } }
    if hubHandsOver s then { s with hub2 := { s.hub2 with heldOps := s.hub2.heldOps ++ [(who, 1, op + 8 * slot.toNat)] } }
    else secRun s who slot.toNat op)

/-- ATTEST (R355). -/
def execAttest (who : Party) (s : State) : Host.Outcome State Fault Refusal := .next (secCtl who s.sec.slot 1 s)

/-- CERT (R350). -/
def execCert (who : Party) (s : State) : Host.Outcome State Fault Refusal := .next (secCtl who s.sec.slot 2 s)

/-- FWVERIFY (R352). -/
def execFwverify (who : Party) (s : State) : Host.Outcome State Fault Refusal := .next (secCtl who s.sec.slot 3 s)

/-- ENROL (R354). -/
def execEnrol (who : Party) (slot : BitVec 5) (s : State) : Host.Outcome State Fault Refusal := .next (secCtl who slot 4 s)

/-- REVOKE (R354). -/
def execRevoke (who : Party) (slot : BitVec 5) (s : State) : Host.Outcome State Fault Refusal := .next (secCtl who slot 5 s)

/-- FUSESVN (R353). -/
def execFusesvn (who : Party) (s : State) : Host.Outcome State Fault Refusal := .next (secCtl who s.sec.slot 6 s)

/-! ### Debug access and JTAG (R336, R357, R398) -/

/-- SEC_DBG.OPEN set (R357): context 0 only reads the register. -/
def openDbg (who : Party) (s : State) : State :=
  gated s who .hub (fun s =>
    if who = .fw || !optJtag s || s.sec.openD then s
    else { s with sec := { s.sec with openD := true, noid := true, debug := true } })

/-- OPEN_DEBUG (R357). -/
def execOpenDebug (who : Party) (s : State) : Host.Outcome State Fault Refusal := .next (openDbg who s)

/-- The IDCODE register (R398). -/
def jtagIdcode : BitVec 64 := 0x1648046B

/-- JTAG_INSTRUCTION (R357, R398): `ir` 0 is BYPASS, 1 IDCODE, 2 SAMPLE/PRELOAD, 3 EXTEST, and 4 or more an instruction of the debug transport,
which with EXTEST acts only while OPEN is 1; the spec says nothing of what it does then. -/
def execJtagInstruction (ir : Nat) (s : State) : Host.Outcome State Fault Refusal :=
  let s := { s with hub2 := { s.hub2 with jtagIr := ir } }
  if ir = 1 then .next { s with bus := jtagIdcode }
  else if ir < 3 || !s.sec.openD then .next s
  else .fault .debugTransport

/-- TEST_ACCESS_PORT_RESET (R336): IEEE 1149.1 selects IDCODE, and nothing else of the device changes. -/
def execTestAccessPortReset (s : State) : Host.Outcome State Fault Refusal := .next { s with hub2 := { s.hub2 with jtagIr := 1 } }

end Sys2Proof.Machine
end

