-- ==== Sys2Proof/Machine/Firmware.lean ====
section
/-! DEFINITION. Firmware at work: reports and the watchdog, the core test, live replacement (R69, R381, R382, R386). -/

namespace Sys2Proof.Machine

open Sys2Proof

/-- The verified NVM copy in use of a target, from which an image restarts (R381, R386). -/
def keptImage (s : State) (t : Nat) : Option FwImage := copyOk s t (if (s.fw t).used1 then (s.fw t).nvm1 else (s.fw t).nvm0)

/-! ### Live replacement (R386) -/

/-- Run the SEC and WEAVE commands that waited for a handover, in order. -/
def runHeld (s : State) : State :=
  let l := s.hub2.heldOps
  l.foldl (fun s (x : Party × Nat × Nat) => if x.2.1 = 0 then wvRun s x.1 x.2.2 else secRun s x.1 (x.2.2 / 8) (x.2.2 % 8))
    { s with hub2 := { s.hub2 with heldOps := [] } }

/-- The staged image runs and is measured: STARTING. -/
def startImage (s : State) (t : Nat) : State :=
  s.modFw t (fun f => { f with running := f.staged, report := s.time })

/-- Store TARGET and run OP of HUB_FWLIVE. -/
def fwLive (s : State) (target : BitVec 4) (op : Nat) : State :=
  if s.hub2.fwState ≠ 0 then s
  else
    let s := { s with hub2 := { s.hub2 with fwTarget := target } }
    let t := target.toNat
    if op ≠ 1 then s
    else if 8 < t || (s.fw t).staged.isNone then { s with hub2 := { s.hub2 with fwResult := stMode } }
    else if (s.fw t).running.isNone then startImage { s with hub2 := { s.hub2 with fwState := 2, fwSince := s.time } } t
    else { s with hub2 := { s.hub2 with fwState := 1, fwSince := s.time } }

/-- ACTIVATE (R386). -/
def execActivate (who : Party) (target : BitVec 4) (s : State) : Host.Outcome State Fault Refusal := .next (gated s who .hub (fun s => fwLive s target 1))

/-- HANDOVER_COMPLETE (R386). -/
def execHandoverComplete (s : State) : Host.Outcome State Fault Refusal :=
  if s.hub2.fwState ≠ 1 then .next s
  else .next (runHeld (startImage { s with hub2 := { s.hub2 with fwState := 2 } } s.hub2.fwTarget.toNat))

/-- ACTIVATION_TIMEOUT (R386): no report within 10 ms of ACTIVATE. -/
def execActivationTimeout (s : State) : Host.Outcome State Fault Refusal :=
  if s.hub2.fwState = 0 || s.time.toNat < s.hub2.fwSince.toNat + 10000000 then .next s
  else
    let t := s.hub2.fwTarget.toNat
    let s := s.modFw t (fun f => { f with running := keptImage s t, report := s.time })
    .next (runHeld (post { s with hub2 := { s.hub2 with fwState := 0, fwResult := stDeadline } } uHub 0 0x0F7 t))

/-- The new image is kept in the NVM copy not in use, which becomes the one in use (R386). -/
def keepImage (s : State) (t : Nat) : State :=
  s.modFw t (fun f => if f.used1 then { f with nvm0 := f.staged, used1 := false, staged := none } else { f with nvm1 := f.staged, used1 := true, staged := none })

/-- FIRMWARE_REPORT (R381, R386): the watchdog restarts, and a report of the image being activated confirms it. -/
def execFirmwareReport (t : Nat) (s : State) : Host.Outcome State Fault Refusal :=
  match (s.fw t).running with
  | none => .next s
  | some x =>
    let s := s.modFw t (fun f => { f with report := s.time })
    if s.hub2.fwState = 2 && s.hub2.fwTarget.toNat = t && s.time.toNat < s.hub2.fwSince.toNat + 10000000 then
      .next (post { (keepImage s t) with hub2 := { s.hub2 with fwState := 0, fwResult := stDone } } uHub 0 0x0F6 (t + 16 * x.svn.toNat))
    else .next s

/-! ### Watchdog (R381) -/

/-- End the loads, digests and requests that a target holds with FAULT_TIMEOUT. -/
def timeoutCtx (s : State) (c : Nat) : State :=
  let x := s.ctx c
  let s := endJobs s (fun j => j.rec'.ctx == c) stTimeout
  let held (r : Rec) : Bool := r.op == 0x71 || r.op == 0x73
  let s := s.modCtx c (fun x => { x with loader := x.loader.filter (fun r => !held r), reqs := [] })
  let s := (x.loader.filter held).foldl (fun s r => loaderReport s r stTimeout 0 0) s
  let s := x.requests.foldl (fun s q => endRequest s c q stTimeout) s
  x.reqs.foldl (fun s r => loaderReport s r stTimeout 0 0) s

/-- WATCHDOG_EXPIRY (R381): no report for 100 ms. -/
def execWatchdogExpiry (t : Nat) (s : State) : Host.Outcome State Fault Refusal :=
  if (s.fw t).running.isNone || s.time.toNat < (s.fw t).report.toNat + 100000000 then .next s
  else
    let s := s.modFw t (fun f => { f with running := keptImage s t, report := s.time })
    let s := post { s with hub2 := { s.hub2 with wdog := true } } uHub 0 0x0F3 t
    .next (((s.ctxs.map (·.1)).filter (fun c => Config.ringServer c % 9 = t)).foldl timeoutCtx s)

/-! ### The core test (R69, R382) -/

/-- A core test can end: one has begun with an entry to TEST or RECOVERY, or waits since reset for the Weave and the range (R69); firmware
runs and the core is not retired. -/
def testable (s : State) (n : Nat) : Bool :=
  let c := s.core n
  s.sec.booted && s.sec.st != 2 && !coreRetired (retiredOf s.weave.cur.sects) n && c.testing.isSome &&
    (c.testing != some 1 || (s.weave.loaded && rangeReady s))

/-- CORE_TEST (R382): a pass requests NORMAL if the core is still in the state in which the test began; a failure fences the core,
proposes its retirement and keeps it out of NORMAL, whatever state it has reached. -/
def execCoreTest (core : Nat) (passed : Bool) (s : State) : Host.Outcome State Fault Refusal :=
  if !testable s core then .next s
  else if passed then
    .next (s.modCore core (fun c =>
      if c.testing = some c.serv then { c with req := 0, testing := none, untrusted := false, fwReq := false } else { c with testing := none, untrusted := false }))
  else
    .next (proposeUnit (s.modCore core (fun c =>
      let c := { c with untrusted := true, testing := none }
      if c.serv = 0 then { c with req := 3, fwReq := true } else c)) 1 core)

end Sys2Proof.Machine
end

