-- ==== Sys2Proof/Machine/Power.lean ====
section
/-! DEFINITION. Power, reset and pins: how an internal reset begins and ends, throttling, temperatures, event pins (R331 to R342). -/

namespace Sys2Proof.Machine

open Sys2Proof

/-! ### Resets (R203, R336 to R339, R372, R411) -/

/-- Causes 0, 1 and 4 to 6 are power-on resets; 2 and 3 are pin resets (R337). -/
def powerOnCause (c : Nat) : Bool := c != 2 && c != 3

/-- The tiers through a pin reset: placements and contents stay; moves have finished, hints and frames still retiring are forgotten (R203). -/
def keptTiers (t : Tiers) : Tiers := { t with moves := [], retiring := [], hints := [], promos := [], released := [] }

/-- What a reset leaves of the device: registers at their reset values, the NVM die and the always-on domain as they were, and after a pin
reset device time and the range's contents too (R6, R203, R338, R411). -/
def cleared (s : State) (por : Bool) : State :=
  { State.reset with
    pending := s.pending, host := s.host, freeCtr := s.freeCtr, nvmFrames := s.nvmFrames, bbx := s.bbx, hub := s.hub, bus := s.bus, bus2 := s.bus2, poisoned := s.poisoned,
    time := if por then 0 else s.time, uni := if por then [] else s.uni, uniBad := if por then [] else s.uniBad,
    tiers := if por then {} else keptTiers s.tiers,
    tallies := [], opt := { copyA := s.opt.copyA, copyB := s.opt.copyB },
    weave := { slotA := s.weave.slotA, slotB := s.weave.slotB, inUse := s.weave.inUse },
    hub2 := { evtMissed := [], jtagIr := s.hub2.jtagIr, smbAck := s.hub2.smbAck },
    pwr := { hotPrev := s.pwr.hotPrev, cool85 := s.pwr.cool85, therm := s.pwr.therm },
    sec := { debug := !por && s.sec.debug, noid := !por && s.sec.noid, keys := s.sec.keys, fused := s.sec.fused, revoked := s.sec.revoked,
             fw := s.sec.fw.map (fun t => (t.1, { nvm0 := t.2.nvm0, nvm1 := t.2.nvm1, used1 := t.2.used1 })) } }

/-- Causes 3 to 6 assert FAULT_N from their recognition until the device leaves the reset (R337). -/
def faultCause (c : Nat) : Bool := 3 ≤ c && c ≤ 6

/-- The always-on registers restart after a VBAK fault (R331). -/
def vbakRestart (h : Hub) : Hub := if h.vbakBad then { h with bklost := true, vbakBad := false, por := 0, pinc := 0, selfc := 0 } else { h with bklost := false }

/-- Count a reset by its class (R339). -/
def countReset (h : Hub) (cause : Nat) : Hub :=
  if powerOnCause cause then { h with por := stick h.por 1 }
  else if cause = 2 then { h with pinc := stick h.pinc 1 } else { h with selfc := stick h.selfc 1 }

/-- The compute dies that the generation in force retires. -/
def diesOut (s : State) : List Nat := (List.range 8).filter (fun d => (retiredOf s.weave.cur.sects).contains (3, d))

/-- The range is initialised and no delta has retired a channel since boot: its contents can outlast a pin reset (R202, R203). Until the Weave has
loaded again, what an earlier pin reset has left stands. -/
def memKept (s : State) : Bool :=
  if s.weave.loaded then
    (List.range 16).all (fun m => (unitRetired (retiredOf s.weave.cur.sects) (.mport m) || (s.mport m).init) && (s.mport m).lost == 0)
  else s.hub.keep

/-- A reset is recognised and begins (R337 to R339): counted, marked in the black-box record, and everything else takes its reset value.
Moves in progress finish first (R203). -/
def beginReset (s : State) (cause : Nat) : State :=
  let por := powerOnCause cause
  let keep := !por && memKept s
  let dies := if s.weave.loaded then diesOut s else s.hub.keepDies
  let h := countReset (if por then vbakRestart s.hub else s.hub) cause
  let s := bbxMarker { (finishMoves s) with hub := h } cause
  let s := cleared s por
  { s with
    hub := { bklost := h.bklost, vbakBad := h.vbakBad, por := h.por, pinc := h.pinc, selfc := h.selfc, bus0 := h.bus0, bus1 := h.bus1, evtin := h.evtin, pwrok := h.pwrok,
             phase := .inReset, cause := BitVec.ofNat 4 cause, since := s.time, optDone := false, keep := keep, keepDies := if keep then dies else [], lock := 0, rstn := false,
             faultRst := h.faultRst || faultCause cause },
    bbx := { s.bbx with closed := cause == 1 || cause == 4 || cause == 5 } }

/-- A cause is recognised (R337): outside a reset it begins one; within one it joins, and a power-on cause that joins a pin reset takes its
place. -/
def recognise (s : State) (cause : Nat) : State :=
  if s.hub.phase = .running || s.hub.phase = .off then beginReset s cause
  else if powerOnCause cause && !powerOnCause s.hub.cause.toNat then beginReset s cause
  else { s with hub := { s.hub with phase := .inReset, since := s.time, rstn := false, faultRst := s.hub.faultRst || faultCause cause } }

/-- Both shares of the 6.0 V bus are good. -/
def railsGood (s : State) : Bool := s.hub.bus0 && s.hub.bus1

/-- POWER_ON (R337): the internal rails come up from off. -/
def execPowerOn (s : State) : Host.Outcome State Fault Refusal :=
  if s.hub.phase = .off && railsGood s then .next (recognise s 0) else .next s

/-- SOFT_START (R332). -/
def execSoftStart (stage : Nat) (s : State) : Host.Outcome State Fault Refusal :=
  .next { s with hub := if stage = 0 then { s.hub with bus0 := true } else { s.hub with bus1 := true } }

/-- PWRFAIL (R337, R340). -/
def execPwrfail (s : State) : Host.Outcome State Fault Refusal := .next (recognise { s with hub := { s.hub with pwrok := false } } 1)

/-- PIN (R337, R340). -/
def execPin (s : State) : Host.Outcome State Fault Refusal := .next (recognise s 2)

/-- VIN (R331): the 36 V input faults, and the 6.0 V bus with it. -/
def execVin (s : State) : Host.Outcome State Fault Refusal := .next (recognise { s with hub := { s.hub with bus0 := false, bus1 := false } } 4)

/-- STAGE_FAULT (R332): the stage stops. -/
def execStageFault (stage : Nat) (s : State) : Host.Outcome State Fault Refusal :=
  .next (recognise { s with hub := if stage = 0 then { s.hub with bus0 := false } else { s.hub with bus1 := false } } 5)

/-- REFLOSS (R331). -/
def execRefloss (s : State) : Host.Outcome State Fault Refusal := .next (recognise { s with hub := { s.hub with lock := 0 } } 6)

/-- VBAK_FAULT (R331): the always-on registers hold unreliable values until the next power-on. -/
def execVbakFault (s : State) : Host.Outcome State Fault Refusal :=
  let (v, s) := freeBelow s (2 ^ 50)
  .next { s with hub := { s.hub with vbakBad := true, por := BitVec.ofNat 16 v, pinc := BitVec.ofNat 16 (v / 2 ^ 16), selfc := BitVec.ofNat 16 (v / 2 ^ 32) },
                 sec := { s.sec with noid := v.testBit 48, debug := v.testBit 49 } }

/-- PLL_LOCK (R342): the clocks start, and the option-byte state machine runs (R344). -/
def execPllLock (s : State) : Host.Outcome State Fault Refusal :=
  if s.hub.phase ≠ .inReset || s.hub.lock = 0x3F then .next s
  else
    let s' := { s with hub := { s.hub with lock := 0x3F, optDone := true } }
    .next (if s.hub.optDone then s' else optBoot s')

/-- RESET_RELEASE (R338): the stretch has ended. That PWR_OK and REFCLK have held for 1 ms is the board's part of the event. -/
def execResetRelease (s : State) : Host.Outcome State Fault Refusal :=
  if s.hub.phase ≠ .inReset || s.time.toNat < s.hub.since.toNat + 1000000 || !railsGood s || !s.pwr.cool85 || s.hub.lock ≠ 0x3F || !s.hub.optDone then .next s
  else .next { s with hub := { s.hub with phase := .released, since := s.time, pwrok := true } }

/-- RESET_EXIT (R338): RST_N has read high for 100 µs; after a power-on reset device time starts from zero. -/
def execResetExit (s : State) : Host.Outcome State Fault Refusal :=
  if s.hub.phase ≠ .released || s.time.toNat < s.hub.since.toNat + 100000 then .next s
  else .next { s with time := if powerOnCause s.hub.cause.toNat then 0 else s.time, hub := { s.hub with phase := .running, rstn := true, faultRst := false }, bbx := { s.bbx with closed := false } }

/-- Glitches that set NOISY within 1 ms on one pin (R340). -/
def glitchMax : Nat := 1025

/-- PIN_GLITCH (R340): a pulse shorter than its filter is counted; more than 1,024 on the pin within 1 ms set NOISY and write Tally 0x0D2, and the
pin's count starts again (log 52). In reset the register holds its reset value (R6). -/
def execPinGlitch (pwrOk : Bool) (s : State) : Host.Outcome State Fault Refusal :=
  if s.hub.phase ≠ .running then .next s else
  let l := (s.hub.glitches ++ [(pwrOk, s.time.toNat)]).filter (fun g => s.time.toNat < g.2 + 1000000)
  let h : Hub := { s.hub with glitch := stick s.hub.glitch 1, glitches := l }
  if (l.filter (fun g => g.1 == pwrOk)).length < glitchMax then .next { s with hub := h }
  else .next (post { s with hub := { h with noisy := true, glitches := l.filter (fun g => g.1 != pwrOk) } } uHub 0 0x0D2 (b2n pwrOk))

/-! ### Power (R333, R334) -/

/-- The dies that throttle: compute dies 0 to 7, then Ibex dies 0 to 7. -/
def throttleDies : List Nat := List.range 16

/-- The power level every compute and Ibex die is at. -/
def powerLevels (s : State) (f : Nat → Nat) : Tbl Nat := throttleDies.foldl (fun t d => tset dN t d (f (tget dN t d))) s.pwr.pLevel

/-- Sum of a list of samples over their count. -/
def avgOf (l : List Nat) : Nat := if l = [] then 0 else l.sum / l.length

/-- POWER_SAMPLE (R333): VIN in 10 mV, IIN in 0.1 A, VBAK in 20 mV. -/
def execPowerSample (vin iin vbak : Nat) (s : State) : Host.Outcome State Fault Refusal :=
  let lim := limitsOf s s.weave.cur.sects
  let samples := (vin * iin :: s.pwr.samples).take 10
  let mw := avgOf samples
  let above := decide (lim.current < iin) || decide (lim.power * 1000 < mw)
  let below := decide (iin * 100 < 95 * lim.current) && decide (mw * 100 < 95 * (lim.power * 1000))
  let lv := if above then powerLevels s (fun x => min 56 (x + 8)) else s.pwr.pLevel
  let full := throttleDies.all (fun d => tget dN lv d == 56)
  let run := if decide (lim.current * 11 < iin * 10) && full then s.pwr.overRun + 1 else 0
  let p := { s.pwr with
    vin := BitVec.ofNat 16 vin, iin := BitVec.ofNat 16 iin, vbak := BitVec.ofNat 8 vbak, pin := BitVec.ofNat 16 (mw / 1000), vrange := decide (vin < 3300) || decide (3900 < vin),
    vbaklow := decide (vbak < 135), samples := samples, pLevel := lv, overLim := above, belowUs := if below then s.pwr.belowUs + 1 else 0, overRun := run,
    powerus := if lv = [] then s.pwr.powerus else stick s.pwr.powerus 1, thermus := if s.pwr.tLevel = [] then s.pwr.thermus else stick s.pwr.thermus 1 }
  if s.hub.phase ≠ .running then .next s
  else if 20 ≤ run then .next (recognise { s with pwr := p } 5)
  else .next { s with pwr := p }

/-- THROTTLE_DECAY (R333): 10 µs below 95 % of both limits. -/
def execThrottleDecay (s : State) : Host.Outcome State Fault Refusal :=
  if s.pwr.belowUs < 10 then .next s
  else .next { s with pwr := { s.pwr with belowUs := s.pwr.belowUs - 10, pLevel := powerLevels s (fun x => x - 1) } }

/-- Throttle level of a die: the larger of its power and thermal levels; an Ibex die takes its compute die's where that is larger (R334). -/
def throttleLevel (s : State) (d : Nat) : Nat :=
  let own := max (tget dN s.pwr.pLevel d) (tget dN s.pwr.tLevel d)
  if d < 8 then own else max own (max (tget dN s.pwr.pLevel (d - 8)) (tget dN s.pwr.tLevel (d - 8)))

/-- THROTTLE_WINDOW (R334): at a window boundary a compute die, and its Ibex die, take their levels. -/
def execThrottleWindow (die : Nat) (s : State) : Host.Outcome State Fault Refusal :=
  .next { s with pwr := { s.pwr with applied := tset dN (tset dN s.pwr.applied die (throttleLevel s die)) (die + 8) (throttleLevel s (die + 8)) } }

/-! ### Temperature (R12, R335) -/

/-- The dies that a sensor acts on, numbered as those that throttle: kinds as PWR_TEMP numbers them. -/
def sensorDies (r : Reading) : List Nat :=
  match r.kind with
  | 0 => [r.index]
  | 1 => [r.index / 2]
  | 2 => [8 + r.index]
  | 3 => [r.index / 2]
  | 4 => [r.index]
  | 5 => [2 * r.index, 2 * r.index + 1]
  | 7 => [r.index / 2]
  | _ => List.range 8

/-- The hottest of the sensors that act on a die. -/
def hottestOn (rs : List Reading) (d : Nat) : Option Nat :=
  (rs.filter (fun r => (sensorDies r).contains d)).foldl (fun m r => match m with | none => some r.temp | some t => some (max t r.temp)) none

/-- A die's thermal level and whether it rises, after one reading of its sensors. -/
def thermStep (throt t level : Nat) (rising : Bool) : Nat × Bool :=
  let up := if throt ≤ t then true else if t + 2 < throt then false else rising
  let l := if up then min 56 (level + 4) else level - 1
  (if 95 ≤ t then max 48 l else l, up)

/-- One die's part of a reading. -/
def thermDie (throt : Nat) (rs : List Reading) (p : Pwr) (d : Nat) : Pwr :=
  match hottestOn rs d with
  | none => p
  | some t =>
    let x := thermStep throt t (tget dN p.tLevel d) (tget dB p.rising d)
    { p with tLevel := tset dN p.tLevel d x.1, rising := tset dB p.rising d x.2 }

/-- The first of the hottest readings. -/
def hottestOf (rs : List Reading) : Option Reading :=
  rs.foldl (fun m r => match m with | none => some r | some x => if x.temp < r.temp then some r else some x) none

/-- TEMPERATURE_READING (R335): one reading of every sensor. -/
def execTemperatureReading (rs : List Reading) (s : State) : Host.Outcome State Fault Refusal :=
  let throt := optThrot s
  let hot := (rs.filter (fun r => 100 ≤ r.temp)).map (fun r => (r.kind, r.index))
  let trip := hot.any (fun x => s.pwr.hotPrev.contains x)
  let any := rs.any (fun r => throt ≤ r.temp)
  let cool := rs.all (fun r => r.temp + 2 < throt)
  let p0 := { s.pwr with hotPrev := hot, cool85 := rs.all (fun r => r.temp < 85), therm := if any then true else if cool then false else s.pwr.therm }
  if s.hub.phase ≠ .running then .next { s with pwr := p0 }
  else
    let p := throttleDies.foldl (thermDie throt rs) p0
    let p := match hottestOf rs with
      | some r => { p with hottest := BitVec.ofNat 8 r.temp, kind := BitVec.ofNat 3 r.kind, index := BitVec.ofNat 5 r.index }
      | none => p
    let s := if any && !s.pwr.therm then post { s with pwr := p } uHub 0 0x0D1 0 else { s with pwr := p }
    .next (if trip then recognise s 3 else s)

/-! ### Event pins (R340, R341) -/

/-- Count a lost edge. -/
def missEdge (s : State) (k : Nat) : State := { s with hub2 := { s.hub2 with evtMissed := tmod d0 s.hub2.evtMissed k (fun x => stick x 1) } }

/-- Apply an accepted edge: an add of 1 to the counter word (R341). -/
def applyEdge (s : State) (k : Nat) : State :=
  let a := bitsOf (tget d0 s.hub.evtcfg k).toNat 3 45 * 8
  if a = 0 || !tileBacked s (a / 4096) then missEdge s k else (applySignal s {} a 1 1).2

/-- EVT_IN_EDGE (R340, R341). An edge less than 100 ns after the one before it is lost. -/
def execEvtInEdge (k : Nat) (rising : Bool) (s : State) : Host.Outcome State Fault Refusal :=
  if s.hub.phase ≠ .running then .next s
  else
    let last := tget dN s.hub2.evtLast k
    let lost := last ≠ 0 && s.time.toNat + 1 < last + 100
    let lv := if rising then s.hub.evtin ||| BitVec.ofNat 4 (2 ^ k) else s.hub.evtin &&& ~~~(BitVec.ofNat 4 (2 ^ k))
    let s := { s with hub2 := { s.hub2 with evtLast := tset dN s.hub2.evtLast k (s.time.toNat + 1) } }
    if lost then
      let s := missEdge s k
      let ms := s.time.toNat / 1000000
      if s.hub.lastD3 = some ms then .next s else .next (post { s with hub := { s.hub with lastD3 := some ms } } uHub 0 0x0D3 0)
    else
      let s := { s with hub := { s.hub with evtin := lv } }
      let edge := bitsOf (tget d0 s.hub.evtcfg k).toNat 48 2
      if (rising && (edge = 1 || edge = 3)) || (!rising && (edge = 2 || edge = 3)) then .next (applyEdge s k) else .next s

/-- Start pulses of 10 REFCLK on the pins of a mask (R341). -/
def startPulse (s : State) (mask : Nat) : State :=
  (List.range 4).foldl (fun s k => if mask.testBit k then { s with hub2 := { s.hub2 with pulseUntil := tset dN s.hub2.pulseUntil k (s.time.toNat + 100) } } else s) s

/-- PULSE (R341): an HUB_EVTOUT write. -/
def execPulse (who : Party) (mask : BitVec 4) (s : State) : Host.Outcome State Fault Refusal :=
  .next (gated s who .hub (fun s => startPulse s mask.toNat))

end Sys2Proof.Machine
end

