-- ==== Sys2Proof/Machine/Registers.lean ====
section
/-! DEFINITION. The register map of BAR 0 and BAR 4: what each register reads as, what a write of it does, which reads clear (R3 to R7, R321,
R402 to R404, and the register tables of the chapters). -/

namespace Sys2Proof.Machine

open Sys2Proof

/-! ### Registers -/

/-- A register: whether it is 64 bits wide, its value, its W1C bits, what a read clears, and what a write does: the writer, whether the low
and the high 32 bits are written, and the value. -/
structure Reg where
  wide : Bool
  val  : State → Nat
  w1c  : Nat := 0
  rc   : State → State := fun s => s
  put  : Party → Bool → Bool → Nat → State → State := fun _ _ _ _ s => s

/-- A read-only register of 32 or 64 bits. -/
def ro32 (f : State → Nat) : Reg := { wide := false, val := f }
def ro64 (f : State → Nat) : Reg := { wide := true, val := f }
/-- A register whose write needs only the value. -/
def rw32 (f : State → Nat) (g : Nat → State → State) : Reg := { wide := false, val := f, put := fun _ _ _ v s => g v s }
def rw64 (f : State → Nat) (g : Nat → State → State) : Reg := { wide := true, val := f, put := fun _ _ _ v s => g v s }

/-- The state that a command leads to. -/
def after (o : Host.Outcome State Fault Refusal) (s : State) : State := match o with | .next t => t | _ => s

/-- A write that is a command of its own. -/
def cmd (f : State → Host.Outcome State Fault Refusal) (s : State) : State := after (f s) s

/-- A value as a 64-bit register field. -/
def w64 (v : Nat) : BitVec 64 := BitVec.ofNat 64 v

/-! ### Tally rings (R362, R363, R369) -/

/-- A record's 128 bits. -/
def recBits (r : TallyRec) : Nat := pack [(46, r.payload.toNat), (12, r.code.toNat), (10, r.ctx.toNat), (12, r.unit.toNat), (48, r.time.toNat)]

/-- The 64-bit word `w` of a table of records. -/
def recWord (t : Tbl TallyRec) (w : Nat) : Nat := bitsOf (recBits (tget trecDef t (w / 2))) (64 * (w % 2)) 64

/-- TLY_CTL, TLY_TRIG, TLY_STAT and TLY_LOSS of a unit. -/
def tlyReg (u o : Nat) : Option Reg :=
  match o with
  | 0x00 => some (rw32 (fun s => let t := s.tally u; pack [(2, 0), (1, b2n t.xout), (1, b2n t.xin)])
      (fun v s => s.modTally u (fun t =>
        let t := { t with xin := bitOf v 3, xout := bitOf v 2 }
        let t := if bitOf v 0 then tlyRearm t else t
        if bitOf v 1 then tlyFreeze t else t)))
  | 0x08 => some (rw64 (fun s => let t := s.tally u
        pack [(16, t.post.toNat), (16, t.code.toNat), (16, t.mask.toNat), (14, t.ctx.toNat), (1, b2n t.ctxen), (1, b2n t.arm)])
      (fun v s => s.modTally u (fun t =>
        { t with post := BitVec.ofNat 8 (min (bitsOf v 0 8) (tallyCap u - 1)), code := BitVec.ofNat 12 (bitsOf v 16 12), mask := BitVec.ofNat 12 (bitsOf v 32 12),
                 ctx := BitVec.ofNat 10 (bitsOf v 48 10), ctxen := bitOf v 62, arm := bitOf v 63 })))
  | 0x10 => some (ro64 (fun s => let t := s.tally u
        pack [(32, t.head.toNat), (8, t.trigIdx.toNat), (8, t.postLeft.toNat), (14, 0), (1, b2n t.frozen), (1, b2n t.triggered)]))
  | 0x18 => some (ro64 (fun s => let t := s.tally u; pack [(32, t.lost.toNat), (32, t.dropped.toNat)]))
  | _ => none

/-- A unit's Tally registers at 0xE000 and its records at 0xF000 of its block. -/
def tlyBlock (u o : Nat) : Option Reg :=
  if 0xF000 ≤ o && o < 0xF000 + 16 * tallyCap u && o % 8 = 0 then some (ro64 (fun s => recWord (s.tally u).slots ((o - 0xF000) / 8)))
  else if 0xE000 ≤ o && o < 0xE020 then tlyReg u (o - 0xE000) else none

/-! ### Folds (R287) -/

/-- The registers of a Fold, by its number in the table. -/
def foldReg (k o : Nat) : Option Reg :=
  let id : FoldId := if foldDev k then .dev (foldNum k) else .die (k / 64) (foldNum k)
  let low (m : BitVec 100) : Nat := m.toNat % 2 ^ 64
  let high (m : BitVec 100) (l : BitVec 10) : Nat := if foldDev k then l.toNat * 2 ^ 48 else m.toNat / 2 ^ 64
  match o with
  | 0x00 => some { wide := true, val := fun s => let f := s.fold k; pack [(6, 0), (42, f.addr.toNat), (15, f.ctx.toNat), (1, b2n f.valid)],
                   put := fun who _ _ v => cmd (execFoldCfg who id (w64 v)) }
  | 0x08 => some { wide := true, val := fun s => low (s.fold k).mask, put := fun who _ _ v => cmd (execFoldMask who id false (w64 v)) }
  | 0x10 => some { wide := true, val := fun s => high (s.fold k).mask (s.fold k).localN, put := fun who _ hi v s => if foldDev k && !hi then s else cmd (execFoldMask who id true (w64 v)) s }
  | 0x18 => some (ro64 (fun s => low (s.fold k).arr))
  | 0x20 => some (ro64 (fun s => high (s.fold k).arr (s.fold k).localArr))
  | 0x28 => some { wide := true, w1c := 2 ^ 63 + 2 ^ 62,
                   val := fun s => let f := s.fold k
                                   pack [(16, f.miscnt.toNat), (16, 0), (16, ((List.range 100).filter (fun i => f.early.getLsbD i)).length + f.earlyLoc), (14, 0), (1, b2n f.badphase), (1, b2n f.misuse)],
                   put := fun _ _ _ v s => s.modFold k (fun f => { f with misuse := f.misuse && !bitOf v 63, badphase := f.badphase && !bitOf v 62 }) }
  | _ => none

/-! ### HUB (R287, R330, R348, R377 to R386, R403) -/

/-- HUB_FAULT (R380). -/
def hubFault (s : State) : Nat :=
  pack [(1, b2n (s.mports.any (fun m => m.2.maplost))), (1, b2n (s.sec.fwbad != 0)), (1, b2n (s.opt.src == 2)), (1, b2n s.hub2.wdog), (1, b2n s.hub2.propose),
        (1, b2n s.hub.bbxlost), (1, b2n (s.lasers.any (fun l => l.2.fail != 0)))]

/-- Store KIND and TARGET of an entry that is not BUSY. -/
def hurdleStore (i v : Nat) (s : State) : State :=
  if (s.hurdle i).busy then s
  else s.modHurdle i (fun h => { h with kind := BitVec.ofNat 3 (bitsOf v 40 3), target := BitVec.ofNat 32 (bitsOf v 0 32) })

/-- HUB_HURDLEi. -/
def hurdleReg (i : Nat) : Reg :=
  { wide := true,
    val := fun s => let h := s.hurdle i
                    pack [(32, h.target.toNat), (8, 0), (3, h.kind.toNat), (5, 0), (8, h.result.toNat), (6, 0), (1, b2n h.quiesced), (1, b2n h.busy)],
    put := fun who _ _ v s => match bitsOf v 32 2 with
      | 1 => cmd (execRaise who i (BitVec.ofNat 3 (bitsOf v 40 3)) (BitVec.ofNat 32 (bitsOf v 0 32))) s
      | 2 => cmd (execLift who i) (hurdleStore i v s)
      | _ => hurdleStore i v s }

/-- HUB_GATESTi and HUB_GATECMDi. -/
def gateReg (i : Nat) (isCmd : Bool) : Reg :=
  if isCmd then
    { wide := true, val := fun _ => 0,
      put := fun who _ _ v s =>
        let ctx : BitVec 10 := BitVec.ofNat 10 (bitsOf v 32 10)
        let key : BitVec 16 := BitVec.ofNat 16 (bitsOf v 48 16)
        let lease : BitVec 12 := BitVec.ofNat 12 (bitsOf v 16 12)
        match bitsOf v 0 2 with
        | 1 => cmd (execAcquire who i ctx lease) s
        | 2 => cmd (execRelease who i ctx key) s
        | 3 => cmd (execRenew who i ctx key lease) s
        | _ => s }
  else ro64 (fun s => let x := s.gate i
                      pack [(12, 0), (12, x.lease.toNat), (16, x.token.toNat), (8, x.result.toNat), (10, x.octx.toNat), (2, x.rby.toNat), (2, x.owner.toNat), (2, x.state.toNat)])

/-- HUB_EVTCFGk. -/
def evtReg (k : Nat) : Reg :=
  rw64 (fun s => (tget d0 s.hub.evtcfg k).toNat + 2 ^ 56 * (tget d0 s.hub2.evtMissed k).toNat)
    (fun v s => { s with hub := { s.hub with evtcfg := tset d0 s.hub.evtcfg k (w64 (bitsOf v 3 45 * 8 + bitsOf v 48 2 * 2 ^ 48)) } })

/-- The registers of the HUB block. -/
def hubReg (o : Nat) : Option Reg :=
  if 0xE000 ≤ o then tlyBlock uHub o
  else if 0x4000 ≤ o && o < 0x8000 then foldReg (512 + (o - 0x4000) / 0x40) ((o - 0x4000) % 0x40)
  else if 0x2000 ≤ o && o < 0x2400 && o % 8 = 0 then some (gateReg ((o - 0x2000) / 16) (o % 16 == 8))
  else if 0x0800 ≤ o && o < 0x0880 && o % 8 = 0 then some (hurdleReg ((o - 0x0800) / 8))
  else if 0x0120 ≤ o && o < 0x0140 && o % 8 = 0 then some (evtReg ((o - 0x0120) / 8))
  else match o with
    | 0x0000 => some (ro32 (fun _ => 0x64800100))
    | 0x0008 => some (ro64 (fun s => s.time.toNat))
    | 0x0010 => some (ro32 (fun s => pack [(31, s.hub.cause.toNat), (1, b2n s.hub.bklost)]))
    | 0x0018 => some (ro64 (fun s => pack [(16, 0), (16, s.hub.selfc.toNat), (16, s.hub.pinc.toNat), (16, s.hub.por.toNat)]))
    | 0x0100 => some (ro64 (fun s => pack ((List.range 8).map (fun d => (5, (tget d0 s.hub2.clkCode d).toNat)) ++ [(16, optCclkMax s), (8, s.hub.lock.toNat)])))
    | 0x0108 => some { wide := false, w1c := 2 ^ 31,
                       val := fun s => pack [(16, s.hub.glitch.toNat), (1, b2n s.hub.rstn), (1, b2n s.hub.pwrok), (2, 0), (4, s.hub.evtin.toNat), (7, 0), (1, b2n s.hub.noisy)],
                       rc := fun s => { s with hub := { s.hub with glitch := 0 } },
                       put := fun _ _ _ v s => { s with hub := { s.hub with noisy := s.hub.noisy && !bitOf v 31 } } }
    | 0x0110 => some (rw32 (fun s => s.hub.evtout.toNat)
        (fun v s => startPulse { s with hub := { s.hub with evtout := BitVec.ofNat 4 (bitsOf v 0 4) } } (bitsOf v 4 4)))
    | 0x0200 => some { wide := false, w1c := 0x38, val := hubFault,
                       put := fun _ _ _ v s => { s with
                         hub2 := { s.hub2 with wdog := s.hub2.wdog && !bitOf v 3, propose := s.hub2.propose && !bitOf v 4 }
                         hub := { s.hub with bbxlost := s.hub.bbxlost && !bitOf v 5 } } }
    | 0x0208 => some (rw32 (fun s => s.hub2.faulten.toNat) (fun v s => { s with hub2 := { s.hub2 with faulten := BitVec.ofNat 7 (bitsOf v 0 7) } }))
    | 0x0210 => some (rw32 (fun s => pack [(4, 0), (4, s.hub2.fwState.toNat), (4, s.hub2.fwTarget.toNat), (4, 0), (8, s.hub2.fwResult.toNat)])
        (fun v s => fwLive s (BitVec.ofNat 4 (bitsOf v 8 4)) (bitsOf v 0 2)))
    | 0x0218 => some (rw32 (fun s => pack [(8, s.hub2.tmuxSel.toNat), (12, s.hub2.tmuxArg.toNat), (12, s.hub2.tmuxUnit.toNat)])
        (fun v s => if optTmux s then { s with hub2 := { s.hub2 with tmuxSel := BitVec.ofNat 4 (bitsOf v 0 4), tmuxArg := BitVec.ofNat 8 (bitsOf v 8 8), tmuxUnit := BitVec.ofNat 12 (bitsOf v 20 12) } }
                    else s))
    | 0x0880 => some (rw32 (fun s => s.hub2.syncpoll.toNat) (fun v s => { s with hub2 := { s.hub2 with syncpoll := BitVec.ofNat 16 (max 1 (bitsOf v 0 16)) } }))
    | _ => none

/-! ### OPT, BBX, SEC, WEAVE (R348, R373, R361, R37) -/

/-- OPT: context 0 only reads OPT_MIRRORj and OPT_STATUS. -/
def optReg (o : Nat) : Option Reg :=
  if o < 0x40 && o % 8 = 0 then some (ro64 (fun s => fld (optMirror s) o 8))
  else if 0x40 ≤ o && o < 0x80 && o % 8 = 0 then
    some { wide := true, val := fun s => (tget d0 s.opt.stage ((o - 0x40) / 8)).toNat,
           put := fun who _ _ v s => if who = .fw then s else { s with opt := { s.opt with stage := tset d0 s.opt.stage ((o - 0x40) / 8) (w64 v) } } }
  else match o with
    | 0x100 => some { wide := false, val := fun _ => 0, put := fun who _ _ v s => if bitOf v 0 then cmd (execProgram who) s else s }
    | 0x108 => some (ro32 (fun s => pack [(4, s.opt.st.toNat), (4, s.opt.src.toNat), (1, b2n s.opt.bada), (1, b2n s.opt.badb), (6, b2n s.opt.pend), (8, s.opt.result.toNat)]))
    | _ => none

/-- BBX. -/
def bbxReg (o : Nat) : Option Reg :=
  if 0x10000 ≤ o && o < 0x20000 && o % 8 = 0 then some (ro64 (fun s => recWord s.bbx.records ((o - 0x10000) / 8)))
  else if 0x10 ≤ o && o < 0x30 && o % 8 = 0 then
    some (rw64 (fun s => (tget selDef s.bbx.sel ((o - 0x10) / 8)).toNat) (fun v s => { s with bbx := { s.bbx with sel := tset selDef s.bbx.sel ((o - 0x10) / 8) (w64 v) } }))
  else match o with
    | 0x00 => some (ro64 (fun s => pack [(32, s.bbx.head.toNat), (16, s.bbx.lost.toNat), (15, 0), (1, b2n s.bbx.frozen)]))
    | 0x08 => some (rw32 (fun s => pack [(3, b2n s.bbx.hold), (1, b2n s.bbx.xin)])
        (fun v s =>
          let s := { s with bbx := { s.bbx with hold := bitOf v 0, xin := bitOf v 3 } }
          let s := if bitOf v 2 then bbxUnfreeze s else s
          if bitOf v 1 then bbxFreeze s 0 else s))
    | _ => none

/-- The bytes 8j to 8j + 7 of a digest. -/
def digWord (l : List Byte) (j : Nat) : Nat := fld l (8 * j) 8

/-- SEC. -/
def secReg (o : Nat) : Option Reg :=
  if 0x20 ≤ o && o < 0x40 && o % 8 = 0 then
    some (rw64 (fun s => (tget d0 s.sec.nonce ((o - 0x20) / 8)).toNat) (fun v s => { s with sec := { s.sec with nonce := tset d0 s.sec.nonce ((o - 0x20) / 8) (w64 v) } }))
  else if 0x40 ≤ o && o < 0x60 && o % 8 = 0 then some (ro64 (fun s => if s.sec.derived then digWord identityDigest ((o - 0x40) / 8) else 0))
  else if 0x60 ≤ o && o < 0x80 && o % 8 = 0 then some (ro64 (fun s => digWord s.sec.wmeas ((o - 0x60) / 8)))
  else if 0x100 ≤ o && o < 0x1A0 && o % 8 = 0 then
    some (ro64 (fun s => match slotKey s ((o - 0x100) / 8) with | [] => 0 | k => leNat (keyId k)))
  else match o with
    | 0x000 => some { wide := false, val := fun s => s.sec.slot.toNat * 2 ^ 8,
                      put := fun who _ _ v s => secCtl who (BitVec.ofNat 5 (bitsOf v 8 5)) (bitsOf v 0 3) s }
    | 0x008 => some (ro64 (fun s => pack [(8, s.sec.st.toNat), (8, s.sec.result.toNat), (16, s.sec.len.toNat), (7, 0), (9, fwPend s), (9, s.sec.fwbad.toNat), (5, 0), (1, b2n s.sec.noid), (1, b2n s.sec.debug)]))
    | 0x010 => some (rw64 (fun s => s.sec.src.toNat * 64) (fun v s => { s with sec := { s.sec with src := BitVec.ofNat 58 (v / 64) } }))
    | 0x018 => some (rw64 (fun s => s.sec.dst.toNat * 64) (fun v s => { s with sec := { s.sec with dst := BitVec.ofNat 58 (v / 64) } }))
    | 0x080 => some (ro32 (fun s => s.sec.fused.toNat))
    | 0x088 => some (ro32 (fun s => pack ((List.range 20).map (fun i => (1, b2n (slotKey s i != []))))))
    | 0x200 => some { wide := false, val := fun s => b2n s.sec.openD, put := fun who _ _ v s => if bitOf v 0 then openDbg who s else s }
    | _ => none

/-- STATE of WEAVE_STATUS. -/
def wvCode : WvState → Nat
  | .idle => 0
  | .verifying => 1
  | .staged => 2
  | .applying => 3
  | .rollingBack => 4
  | .persisting => 5

/-- WEAVE. -/
def weaveReg (o : Nat) : Option Reg :=
  match o with
  | 0x000 => some { wide := false, val := fun _ => 0, put := fun who _ _ v s => wvCtl who (bitsOf v 0 3) s }
  | 0x004 => some (ro32 (fun s => pack [(8, wvCode s.weave.st), (8, s.weave.result.toNat), (8, s.weave.errsec.toNat), (8, s.weave.bootsrc.toNat)]))
  | 0x008 => some (ro32 (fun s => s.weave.cur.gen.toNat))
  | 0x00C => some (ro32 (fun s => s.weave.next.toNat))
  | 0x010 => some (rw64 (fun s => s.weave.src.toNat * 8) (fun v s => { s with weave := { s.weave with src := BitVec.ofNat 61 (v / 8) } }))
  | 0x018 => some (rw32 (fun s => s.weave.window.toNat) (fun v s => { s with weave := { s.weave with window := BitVec.ofNat 17 (min 100000 (max 100 (bitsOf v 0 17))) } }))
  | 0x01C => some (ro32 (fun s => pack [(16, lagOf s), (16, s.weave.fenced.toNat)]))
  | 0x020 => some (ro64 (fun s => digWord s.weave.cur.digest 0))
  | 0x028 => some { wide := false, w1c := 7, val := fun s => s.weave.evt.toNat,
                    put := fun _ _ _ v s => { s with weave := { s.weave with evt := s.weave.evt &&& ~~~(BitVec.ofNat 3 (bitsOf v 0 3)) } } }
  | _ => none

/-! ### Host ports, CTR, PWR (R329, R376, R46, R347) -/

/-- HPA and HPB. -/
def hpReg (p o : Nat) : Option Reg :=
  let me : Party := if p = 0 then .portA else .portB
  match o with
  | 0x000 => some (ro32 (fun s => let h := s.hp p
      pack [(16, h.mode.toNat), (8, h.width.toNat), (5, h.speed.toNat), (1, b2n (rangeReady s)), (1, b2n (hurdled s 3 p)), (1, b2n (portAdmin s p))]))
  | 0x008 => some (rw32 (fun s => let h := s.hp p; pack [(31, h.bindCtx.toNat), (1, b2n h.bindV)])
      (fun v s => if bitsOf v 0 10 = 0 then s else s.modHp p (fun h => { h with bindCtx := BitVec.ofNat 10 (bitsOf v 0 10), bindV := bitOf v 31 })))
  | 0x010 => some { wide := true, val := fun s => (s.hp p).hdm.toNat, put := fun who _ _ v s => cmd (execHpxHdm who me (w64 v)) s }
  | 0x018 => some (rw32 (fun s => (s.hp p).winmap.toNat) (fun v s => s.modHp p (fun h => { h with winmap := BitVec.ofNat 16 (bitsOf v 0 16) })))
  | 0x020 => some (ro64 (fun s => let h := s.hp p; pack [(32, h.outside.toNat), (16, h.badsize.toNat), (16, h.notready.toNat)]))
  | 0x028 => some (ro64 (fun s => (s.hp p).dmard.toNat))
  | 0x030 => some (ro64 (fun s => (s.hp p).dmawr.toNat))
  | _ => none

/-- CTR. -/
def ctrReg (o : Nat) : Option Reg :=
  match o with
  | 0x000 => some (ro64 (fun s => (tget d0 s.hub2.ctr 0).toNat))
  | 0x008 => some (ro64 (fun s => (tget d0 s.hub2.ctr 8).toNat))
  | 0x100 => some (rw32 (fun _ => 0) (fun v s => match bitsOf v 0 2 with
      | 1 => scheduleDev s
      | 2 => scheduleCtx s (bitsOf v 16 10)
      | _ => s))
  | 0x108 => some (ro64 (fun s => pack [(63, s.hub2.cntEpoch.toNat), (1, b2n s.hub2.cntPend.isSome)]))
  | 0x110 => some (ro64 (fun s => s.hub2.cntT.toNat))
  | _ => none

/-- PWR. -/
def pwrReg (o : Nat) : Option Reg :=
  match o with
  | 0x000 => some (ro64 (fun s => let p := s.pwr
      pack [(16, p.vin.toNat), (16, p.iin.toNat), (16, p.pin.toNat), (14, p.vbak.toNat), (1, b2n p.vbaklow), (1, b2n p.vrange)]))
  | 0x008 => some (ro32 (fun s => let l := limitsOf s s.weave.cur.sects; pack [(16, l.power), (16, l.current)]))
  | 0x010 => some (ro32 (fun s => let p := s.pwr; pack [(8, p.hottest.toNat), (5, p.index.toNat), (3, p.kind.toNat), (15, optThrot s), (1, b2n p.therm)]))
  | 0x018 => some (ro64 (fun s => pack [(32, s.pwr.thermus.toNat), (32, s.pwr.powerus.toNat)]))
  | 0x020 => some (ro64 (fun s => pack ((List.range 8).map (fun d => (6, tget dN s.pwr.applied d)))))
  | _ => none

/-! ### Cores and dies (R77, R102, R133, R221, R287) -/

/-- State of a tile buffer as CORE_TBUF codes it. -/
def bufCode : BufState → Nat
  | .empty => 0
  | .filling => 1
  | .full => 2
  | .draining => 3

/-- Records in one engine's queue. -/
def queueLen (c : Core) (e : Nat) : Nat := ((List.range 32).map (fun i => (c.queue e i).length)).sum

/-- Commands of contexts 1 to 1,023 that the service state holds (CORE_STATE.HELD). -/
def heldCount (c : Core) : Nat := if c.serv = 0 then 0 else (c.queues.map (fun q => (q.2.filter (fun r => r.ctx != 0)).length)).sum

/-- A counter of a core. -/
def coreCtr (n o : Nat) : Reg := ro64 (fun s => (tget d0 (s.core n).ctr o).toNat)

/-- CORE_SLOTi. -/
def slotReg (n i : Nat) : Reg :=
  { wide := true,
    val := fun s => let x := (s.core n).slot i
                    pack [(16, x.wbase.toNat), (24, x.wlen.toNat), (8, x.weight.toNat), (14, x.ctx.toNat), (1, b2n x.drain), (1, b2n x.valid)],
    put := fun who _ _ v s => cmd (execCoreSlot who n i (w64 v)) s }

/-- The block of core `n`. -/
def coreReg (n o : Nat) : Option Reg :=
  if 0x1000 ≤ o && o % 8 = 0 then some (ro64 (fun s => recWord (s.tally n).slots ((o - 0x1000) / 8)))
  else if 0x400 ≤ o && o < 0x420 then tlyReg n (o - 0x400)
  else if 0x200 ≤ o && o < 0x300 && o % 8 = 0 then some (slotReg n ((o - 0x200) / 8))
  else match o with
    | 0x000 => some (ro32 (fun s => pack [(4, n % 10), (4, n / 10 % 10), (8, n / 100), (15, n), (1, b2n (coreRetired (retiredOf (sectsOf s (.core n))) n))]))
    | 0x004 => some { wide := false, val := fun s => let c := s.core n; pack [(8, c.serv.toNat), (8, c.req.toNat), (8, min 255 (heldCount c))],
                      put := fun who _ _ v s => cmd (execCoreStateReq who n (BitVec.ofNat 2 (bitsOf v 8 2))) s }
    | 0x008 => some (ro32 (fun s => let c := s.core n
        pack [(4, bufCode c.buf0.st), (4, bufCode c.buf1.st), (1, b2n (c.buf0.st == .draining || c.buf1.st == .draining))]))
    | 0x010 => some { wide := false, w1c := 2 ^ 31, val := fun s => let c := s.core n; pack [(31, c.corrected.toNat), (1, b2n c.uncorr)],
                      rc := fun s => s.modCore n (fun c => { c with corrected := 0 }),
                      put := fun _ _ _ v s => s.modCore n (fun c => { c with uncorr := c.uncorr && !bitOf v 31 }) }
    | 0x014 => some (ro32 (fun s => let c := s.core n; pack [(3, 0), (28, c.errAddr.toNat), (1, b2n c.errTbuf)]))
    | 0x018 => some (coreCtr n 0x018)
    | 0x020 => some (coreCtr n 0x020)
    | 0x028 => some (coreCtr n 0x028)
    | 0x030 => some (ro64 (fun s => let c := s.core n; pack [(16, queueLen c 0 % 2 ^ 11), (16, queueLen c 1 % 2 ^ 11), (16, queueLen c 2 % 2 ^ 11), (16, queueLen c 3 % 2 ^ 11)]))
    | 0x038 => some (coreCtr n 0x038)
    | 0x040 => some (coreCtr n 0x040)
    | 0x048 => some (coreCtr n 0x048)
    | 0x050 => some (rw32 (fun s => let c := s.core n; (c.gpend.getD c.gshare).toNat) (fun v s => s.modCore n (fun c => { c with gpend := some (BitVec.ofNat 6 (bitsOf v 0 6)) })))
    | 0x058 => some (coreCtr n 0x058)
    | 0x060 => some (coreCtr n 0x060)
    | 0x068 => some (coreCtr n 0x068)
    | 0x070 => some (coreCtr n 0x070)
    | _ => none

/-- The block of compute die `d`: die control, clusters without registers, cores. -/
def dieReg (d o : Nat) : Option Reg :=
  if 0x100000 ≤ o then
    (let k := (o - 0x100000) / 0x2000
     if k < 100 then coreReg (100 * d + k) ((o - 0x100000) % 0x2000) else none)
  else if 0x10000 ≤ o then none
  else if 0x1000 ≤ o && o < 0x2000 then foldReg (64 * d + (o - 0x1000) / 0x40) ((o - 0x1000) % 0x40)
  else tlyBlock (uDie d) o

/-! ### Ibex dies, memory ports, optical ports, lasers (R162, R205, R244, R267) -/

/-- The block of Ibex die `d`. -/
def ibxReg (d o : Nat) : Option Reg :=
  let r (s : State) : List (Nat × Nat) := retiredOf s.weave.cur.sects
  match o with
  | 0x000 => some (ro32 (fun s => pack [(31, d), (1, b2n ((r s).contains (5, d)))]))
  | 0x004 => some (ro32 (fun s => pack ((List.range 16).map (fun i => (1, b2n (laneRetired (retiredOf (sectsOf s (.lane (16 * d + i)))) (16 * d + i)))) ++ [(16, (s.ibx d).failed.toNat)])))
  | 0x008 => some (ro32 (fun s => pack ((List.range 16).map (fun i => (1, b2n (laneBusy (s.ibx d) i))))))
  | 0x00C => some (ro32 (fun s => let x := s.ibx d
      let pend := match x.batches.find? (fun b => decide (b.dispatched < b.entries.length)) with | some b => b.entries.length - b.dispatched | none => 0
      pack [(16, pend), (7, (ibexHolds x).length)]))
  | 0x010 => some { wide := false, w1c := 2 ^ 31, val := fun s => let x := s.ibx d; pack [(16, x.corrected.toNat), (15, x.eccLane.toNat), (1, b2n x.uncorr)],
                    rc := fun s => s.modIbx d (fun x => { x with corrected := 0 }),
                    put := fun _ _ _ v s => s.modIbx d (fun x => { x with uncorr := x.uncorr && !bitOf v 31 }) }
  | 0x014 => some (ro32 (fun s => pack [(3, 0), (19, (s.ibx d).errAddr.toNat)]))
  | 0x018 => some (ro64 (fun s => (tget d0 (s.ibx d).ctr 0x018).toNat))
  | 0x020 => some (ro64 (fun s => (tget d0 (s.ibx d).ctr 0x020).toNat))
  | 0x028 => some (ro64 (fun s => (tget d0 (s.ibx d).ctr 0x028).toNat))
  | _ => tlyBlock (uIbex d) o

/-- The lowest unbacked device address (R201). -/
def topAddr (s : State) : Nat := ((List.range (nChan s)).map (fun k => backedOf s k * nChan s + k)).foldl min (Config.uniTop / 4096) * 4096

/-- The block of memory port `m`. -/
def mpReg (m o : Nat) : Option Reg :=
  let ctr (s : State) (off : Nat) : Nat := (tget d0 (s.mport m).ctr off).toNat
  match o with
  | 0x000 => some (ro32 (fun s => pack ((List.range 16).map (fun i => (1, b2n (s.tiers.outCh.contains (16 * m + i) || chanRetired (retiredOf (sectsOf s (.mport m))) (16 * m + i)))) ++ [(16, (s.mport m).lost.toNat)])))
  | 0x004 => some { wide := false, w1c := 8, val := fun s => let p := s.mport m; pack [(1, b2n p.init), (1, b2n p.kept), (1, b2n (p.pinq.any (outOfPlace s))), (1, b2n p.maplost)],
                    put := fun _ _ _ v s => s.modMport m (fun p => { p with maplost := p.maplost && !bitOf v 3 }) }
  | 0x008 => some (ro64 (fun s => topAddr s))
  | 0x010 => some (rw32 (fun s => (s.mport m).thresh.toNat) (fun v s => s.modMport m (fun p => { p with thresh := BitVec.ofNat 4 (bitsOf v 0 4) })))
  | 0x014 => some (rw32 (fun s => let p := s.mport m; pack [(16, p.interval.toNat), (16, p.passes.toNat)]) (fun v s => s.modMport m (fun p => { p with interval := BitVec.ofNat 16 (bitsOf v 0 16) })))
  | 0x018 => some { wide := false, w1c := 2 ^ 31, val := fun s => let p := s.mport m; pack [(16, p.corrected.toNat), (15, p.chan.toNat), (1, b2n p.uncorr)],
                    rc := fun s => s.modMport m (fun p => { p with corrected := 0 }),
                    put := fun _ _ _ v s => s.modMport m (fun p => { p with uncorr := p.uncorr && !bitOf v 31 }) }
  | 0x020 => some (ro64 (fun s => (s.mport m).errAddr.toNat * 8))
  | 0x028 => some (rw32 (fun s => pack [(16, min 0xFFFF ((s.nvmFrames.filterMap (nvmFrame s)).filter (fun x => chanOf s x.1 / 16 == m)).length),
                                        (12, min 0xFFF (s.tiers.retiring.filter (fun x => chanOf s x.cls / 16 == m)).length), (4, (s.mport m).cethresh.toNat)])
      (fun v s => s.modMport m (fun p => { p with cethresh := BitVec.ofNat 4 (bitsOf v 28 4) })))
  | 0x030 => some { wide := true, val := fun _ => 0, put := fun who _ _ v s => cmd (execMpRelease who m (w64 v)) s }
  | 0x038 => some (ro64 (fun s => ctr s 0x038))
  | 0x040 => some (ro64 (fun s => ctr s 0x040))
  | 0x048 => some (ro64 (fun s => ctr s 0x048))
  | 0x050 => some (ro64 (fun s => ctr s 0x050))
  | _ => tlyBlock (uMport m) o

/-- OP_STATUS.FREERUN (R236): a rank above 0 without an UP path to rank 0. -/
def freeRun (s : State) : Bool :=
  ownRank s.weave.cur.sects != 0 &&
    (match routeTo s.weave.cur.sects 0 with | some r => (wantPort s r).isNone | none => true)

/-- Launch bytes `i` to `i + 3`. -/
def launchBytes (o : OPort) (i : Nat) : Nat := pack ((List.range 4).map (fun k => (8, (o.launch.getD (i + k) 0).toNat)))

/-- The block of optical port `p`, with a collective engine's registers where it has one. -/
def opReg (p o : Nat) : Option Reg :=
  let ctr (s : State) (off : Nat) : Nat := (tget d0 (s.oport p).ctr off).toNat
  let ce (r : Reg) : Option Reg := if p % 4 = 0 then some r else none
  match o with
  | 0x000 => some { wide := false, val := fun _ => 0, put := fun who _ _ v s => match bitsOf v 0 2 with
      | 1 => cmd (execRecal who p) s
      | 2 => cmd (execRetrain who p) s
      | 3 => cmd (execCleartrip who p) s
      | _ => s }
  | 0x004 => some (ro32 (fun s => let x := s.oport p
      pack [(8, ownRank (opSects s p)), (16, (portPlan (opSects s p) p).2 % 2 ^ 6), (1, b2n (freeRun s)), (3, x.state.toNat), (2, (portPlan (opSects s p) p).1), (1, b2n x.trip),
            (1, b2n (oportRetired (retiredOf (opSects s p)) p))]))
  | 0x008 => some (ro64 (fun s => let x := s.oport p
      pack [(8, x.txlock.toNat), (8, x.rxlock.toNat), (16, (BitVec.ofInt 16 (launchLimit s p)).toNat), (32, launchBytes x 0)]))
  | 0x010 => some (ro32 (fun s => launchBytes (s.oport p) 4))
  | 0x018 => some (ro64 (fun s => ctr s 0x018))
  | 0x020 => some (ro64 (fun s => ctr s 0x020))
  | 0x028 => some (ro64 (fun s => ctr s 0x028))
  | 0x030 => some { wide := false, w1c := 2 ^ 31, val := fun s => let x := s.oport p; pack [(31, x.e2eCorr.toNat), (1, b2n x.e2eUncorr)],
                    rc := fun s => s.modOport p (fun x => { x with e2eCorr := 0 }),
                    put := fun _ _ _ v s => s.modOport p (fun x => { x with e2eUncorr := x.e2eUncorr && !bitOf v 31 }) }
  | 0x038 => some (ro64 (fun s => ctr s 0x038))
  | 0x040 => some (ro32 (fun s => (s.oport p).downs.toNat))
  | 0x048 => some (rw64 (fun s => let x := s.oport p; pack [(7, 0), (50, x.qpBase.toNat), (7, x.qpCount.toNat)])
      (fun v s => s.modOport p (fun x => { x with qpBase := BitVec.ofNat 41 (bitsOf v 7 41), qpCount := BitVec.ofNat 7 (min 64 (bitsOf v 57 7)) })))
  | 0x050 => some (ro64 (fun s => ctr s 0x050))
  | 0x100 => ce (ro32 (fun s => pack [(16, min 16 (s.ce (p / 4)).inflight.length), (9, s.areas.length)]))
  | 0x108 => ce (ro64 (fun s => let x := s.ce (p / 4); pack [(21, x.dropped.toNat), (21, x.carried.toNat), (22, x.missed.toNat)]))
  | _ => tlyBlock (uOport p) o

/-- The block of laser die `q`. -/
def lsReg (q o : Nat) : Option Reg :=
  match o with
  | 0x000 => some { wide := false, val := fun _ => 0, put := fun who _ _ v s => if bitOf v 0 then cmd (execLsRecal who q) s else s }
  | 0x004 => some (ro32 (fun s => let l := s.laser q
      pack [(8, l.lock.toNat), (22, l.fail.toNat), (1, b2n l.calibrating), (1, b2n (laserRetired (retiredOf s.weave.cur.sects) q))]))
  | 0x008 => some (ro64 (fun s => pack ((List.range 8).map (fun i => (8, ((s.laser q).power.getD i 0).toNat)))))
  | 0x010 => some (ro32 (fun s => (s.laser q).recals.toNat))
  | _ => tlyBlock (uLaser q) o

/-! ### Context entries (R314 and the chapters' own registers) -/

/-- Change a context's entry. -/
def ctxPut (c : Nat) (f : Nat → Ctx → Ctx) (v : Nat) (s : State) : State := s.modCtx c (f v)

/-- A register that only administrators write, and only while the context is FREE (R289, R314). -/
def freeOnly (c : Nat) (wide : Bool) (val : Ctx → Nat) (f : Nat → Ctx → Ctx) : Reg :=
  { wide := wide, val := fun s => val (s.ctx c),
    put := fun who _ _ v s => if (s.ctx c).state = 0 && mayAccess s who .admin true then s.modCtx c (f v) else s }

/-- A USERS field of the context's adapter table is above 0. -/
def adPinned (s : State) (c : Nat) : Bool :=
  (List.range (s.ctx c).adn.toNat).any (fun e => let t := adRead s c e; adUsers t 0 != 0 || adUsers t 1 != 0)

/-- CTX_RINGSTAT. -/
def ringStat (x : Ctx) : Nat := pack [(32, bitsOf (tget d0 x.ctr 0x0E8).toNat 0 32), (6, x.ringErr.toNat)]

/-- Offsets of the counters of a context's entry. -/
def ctxCtrs : List Nat := [0x100, 0x108, 0x118, 0x120, 0x128, 0x130, 0x138, 0x140, 0x148, 0x150, 0x168, 0x170, 0x178, 0x180, 0x198, 0x1A0, 0x1A8, 0x1B8]

/-- The entry of context `c`. -/
def ctxReg (c o : Nat) : Option Reg :=
  if o < 0x60 && o % 16 = 0 then
    some { wide := true, val := fun s => let r := (s.ctx c).ring (o / 16); pack [(6, 0), (50, r.base.toNat), (7, r.log2n.toNat), (1, b2n r.en)],
           put := fun who _ _ v s => cmd (execRingEnable who c (o / 16) (w64 v)) s }
  else if o < 0x60 && o % 16 = 8 then
    some (rw64 (fun s => ((s.ctx c).ring (o / 16)).caddr.toNat * 16)
      (fun v s => if ((s.ctx c).ring (o / 16)).en then s else s.modCtx c (fun x => x.modRing (o / 16) (fun r => { r with caddr := BitVec.ofNat 44 (bitsOf v 4 44) }))))
  else if ctxCtrs.contains o then some (ro64 (fun s => (tget d0 (s.ctx c).ctr o).toNat))
  else match o with
    | 0x0C0 => some { wide := true, val := fun s => let x := s.ctx c; pack [(48, 0), (14, x.result.toNat), (2, x.state.toNat)],
                      put := fun who _ _ v s => match bitsOf v 0 2 with
                        | 1 => cmd (execCreate who c) s
                        | 2 => cmd (execDestroy who c) s
                        | _ => s }
    | 0x0C8 => some (freeOnly c false (fun x => x.kind.toNat) (fun v x => if 1 < bitsOf v 0 2 then x else { x with kind := BitVec.ofNat 2 (bitsOf v 0 2) }))
    | 0x0D0 => some (freeOnly c true (fun x => x.parts.toNat) (fun v x => { x with parts := w64 v }))
    | 0x0D8 => some (freeOnly c true (fun x => x.ro0.toNat) (fun v x => { x with ro0 := w64 v }))
    | 0x0E0 => some (freeOnly c true (fun x => x.ro1.toNat) (fun v x => { x with ro1 := w64 v }))
    | 0x0E8 => some (ro64 (fun s => ringStat (s.ctx c)))
    | 0x0F0 => some { wide := true, val := fun s => let x := s.ctx c; pack [(16, x.tokbud.toNat), (16, x.chunk.toNat), (31, x.maxreq.toNat), (1, b2n x.hold)],
                      put := fun who _ _ v s => cmd (execCtxServe who c (w64 v)) s }
    | 0x0F8 => some (rw64 (fun s => let x := s.ctx c; pack [(6, 0), (44, x.adbase.toNat), (14, x.adn.toNat)])
        (fun v s => if adPinned s c then s else s.modCtx c (fun x => { x with adbase := BitVec.ofNat 42 (bitsOf v 6 42), adn := BitVec.ofNat 14 (bitsOf v 50 14) })))
    | 0x110 => some (rw64 (fun s => let x := s.ctx c; pack [(6, 0), (50, x.wpbase.toNat), (8, x.wpn.toNat)])
        (ctxPut c (fun v x => { x with wpbase := BitVec.ofNat 42 (bitsOf v 6 42), wpn := BitVec.ofNat 8 (min 64 (bitsOf v 56 8)) })))
    | 0x158 => some { wide := true, val := fun s => let x := s.ctx c; pack [(32, x.step.toNat), (16, x.commits.toNat), (16, x.expect.toNat)],
                      put := fun _ low high v s => s.modCtx c (fun x =>
                        let x := if low then { x with step := BitVec.ofNat 32 (bitsOf v 0 32), commits := 0 } else x
                        if high then { x with expect := BitVec.ofNat 16 (bitsOf v 48 16) } else x) }
    | 0x160 => some (rw64 (fun s => (s.ctx c).seed.toNat) (ctxPut c (fun v x => { x with seed := w64 v })))
    | 0x188 => some (rw64 (fun s => let x := s.ctx c; pack [(5, 0), (43, x.jbase.toNat), (16, x.jlen.toNat)])
        (ctxPut c (fun v x => { x with jbase := BitVec.ofNat 43 (bitsOf v 5 43), jlen := BitVec.ofNat 16 (bitsOf v 48 16) })))
    | 0x190 => some { wide := true, w1c := 2 ^ 63, val := fun s => let x := s.ctx c; pack [(63, x.jhead.toNat), (1, b2n x.jwrap)],
                      put := fun _ _ _ v s => s.modCtx c (fun x => { x with jwrap := x.jwrap && !bitOf v 63 }) }
    | 0x1C0 => some (rw64 (fun s => (s.ctx c).jtail.toNat) (ctxPut c (fun v x => { x with jtail := BitVec.ofNat 32 (min (bitsOf v 0 32) x.jhead.toNat) })))
    | 0x1B0 => some { wide := true, val := fun s => let x := s.ctx c; pack [(16, 0), (47, x.cntEpoch.toNat), (1, b2n x.cntPend.isSome)],
                      put := fun who _ _ v s => if bitOf v 0 then cmd (execGo who c) s else s }
    | _ => none

/-! ### The map (R402) and the areas (R318) -/

/-- The register at an offset of BAR 0; none where the offset is unassigned (R7). -/
def regAt (o : Nat) : Option Reg :=
  if o < 0x10000 then hubReg o
  else if o < 0x20000 then optReg (o - 0x10000)
  else if o < 0x40000 then bbxReg (o - 0x20000)
  else if o < 0x80000 then secReg (o - 0x40000)
  else if o < 0x100000 then weaveReg (o - 0x80000)
  else if o < 0x110000 then hpReg 0 (o - 0x100000)
  else if o < 0x120000 then hpReg 1 (o - 0x110000)
  else if o < 0x200000 then none
  else if o < 0x210000 then ctrReg (o - 0x200000)
  else if 0x400000 ≤ o && o < 0x410000 then pwrReg (o - 0x400000)
  else if 0x1000000 ≤ o && o < 0x3000000 then dieReg ((o - 0x1000000) / 0x400000) ((o - 0x1000000) % 0x400000)
  else if 0x3000000 ≤ o && o < 0x3200000 then ibxReg ((o - 0x3000000) / 0x40000) ((o - 0x3000000) % 0x40000)
  else if 0x3400000 ≤ o && o < 0x3500000 then mpReg ((o - 0x3400000) / 0x10000) ((o - 0x3400000) % 0x10000)
  else if 0x3600000 ≤ o && o < 0x3800000 then opReg ((o - 0x3600000) / 0x10000) ((o - 0x3600000) % 0x10000)
  else if 0x3800000 ≤ o && o < 0x3840000 then lsReg ((o - 0x3800000) / 0x10000) ((o - 0x3800000) % 0x10000)
  else if 0x4000000 ≤ o && o < 0x4400000 then ctxReg ((o - 0x4000000) / 0x1000) ((o - 0x4000000) % 0x1000)
  else none

/-- The area an offset lies in (R318, R361). -/
def areaAt (o : Nat) : RegArea :=
  if o < 0x100 then .all
  else if 0x2000 ≤ o && o < 0x2400 then .all
  else if 0x40040 ≤ o && o < 0x40060 then .allRead
  else if o < 0x20000 then .hub
  else if 0x40000 ≤ o && o < 0x80000 then .hub
  else if 0x100000 ≤ o && o < 0x110000 then .hp 0
  else if 0x110000 ≤ o && o < 0x120000 then .hp 1
  else if 0x4000000 ≤ o && o < 0x4400000 then .ctx ((o - 0x4000000) / 0x1000)
  else .admin

/-! ### Accesses (R4, R7, R318, R321) -/

/-- An access of 4 or 8 bytes, naturally aligned. -/
def sizeOk (o n : Nat) : Bool := (n == 4 || n == 8) && o % n == 0

/-- The register that covers 4 bytes at an offset, and whether they are its upper half. -/
def regHalf (o : Nat) : Option (Reg × Bool) :=
  match regAt o with
  | some r => some (r, false)
  | none => if o % 8 = 4 then (match regAt (o - 4) with | some r => if r.wide then some (r, true) else none | none => none) else none

/-- Read 4 bytes: the value, and the state after a field that the read clears. -/
def read4 (s : State) (o : Nat) : Nat × State :=
  match regHalf o with
  | some (r, up) => (bitsOf (r.val s) (if up then 32 else 0) 32, r.rc s)
  | none => (0, s)

/-- Read 8 bytes: a 64-bit register at once, otherwise its two halves. -/
def read8 (s : State) (o : Nat) : Nat × State :=
  match regAt o with
  | some r =>
    if r.wide then (r.val s % 2 ^ 64, r.rc s)
    else
      let a := read4 s o
      let b := read4 a.2 (o + 4)
      (a.1 + 2 ^ 32 * b.1, b.2)
  | none => let b := read4 s (o + 4); (2 ^ 32 * b.1, b.2)

/-- Write 4 bytes: the other half of a 64-bit register keeps its RW fields. -/
def write4 (who : Party) (s : State) (o v : Nat) : State :=
  match regHalf o with
  | some (r, up) =>
    let keep := r.val s - (r.val s &&& r.w1c)
    let v := v % 2 ^ 32
    if !r.wide then r.put who true false v s
    else if up then r.put who false true (keep % 2 ^ 32 + 2 ^ 32 * v) s
    else r.put who true false (v + 2 ^ 32 * bitsOf keep 32 32) s
  | none => s

/-- Write 8 bytes. -/
def write8 (who : Party) (s : State) (o v : Nat) : State :=
  match regAt o with
  | some r => if r.wide then r.put who true true (v % 2 ^ 64) s else write4 who (write4 who s o v) (o + 4) (v / 2 ^ 32)
  | none => write4 who s (o + 4) (v / 2 ^ 32)

/-- Count an access of a wrong size or alignment. -/
def countBadsize (s : State) (who : Party) : State :=
  match partyPort who with
  | some p => s.modHp p (fun h => { h with badsize := stick h.badsize 1 })
  | none => s

/-- First byte of BAR 4 as a command names it. -/
def bar4At : Nat := 2 ^ 28

/-- A 64-bit word of BAR 4 (R296). -/
def bar4Word (s : State) (o : Nat) : Nat :=
  let x := s.ctx (o / 64)
  match o % 64 / 8 with
  | 0 => (x.ring 0).written.toNat + 2 ^ 32 * (x.ring 1).written.toNat
  | 1 => (x.ring 2).written.toNat + 2 ^ 32 * (x.ring 3).written.toNat
  | 2 => (x.ring 4).written.toNat + 2 ^ 32 * (x.ring 5).written.toNat
  | 3 => ringStat x
  | _ => 0

/-- Bytes of BAR 4, at most 8. -/
def bar4Read (s : State) (o n : Nat) : Nat := ((List.range (min n 8)).map (fun i => bitsOf (bar4Word s (o + i)) (8 * ((o + i) % 8)) 8 * 2 ^ (8 * i))).sum

/-- The contexts whose BAR 4 bytes an access covers are within the party's rights (R318). -/
def bar4Allowed (s : State) (who : Party) (o n : Nat) : Bool :=
  mayAccess s who (.ctx (o / 64)) false && mayAccess s who (.ctx ((o + n - 1) / 64)) false

/-- REGISTER_READ (R4, R7, R318, R321): the value read is in `bus`. A port without a link, or fenced, reads nothing. -/
def execRegisterRead (who : Party) (offset size : Nat) (s : State) : Host.Outcome State Fault Refusal :=
  let none' (s : State) : State := { s with bus := 0 }
  if !partyLive s who then .next (none' s)
  else if bar4At ≤ offset then
    (if !served s (.ctx 0) then .next (none' s)
     else if bar4Allowed s who (offset - bar4At) size then .next { s with bus := w64 (bar4Read s (offset - bar4At) size) } else .next (none' (countOutside s who)))
  else if !sizeOk offset size then .next (none' (countBadsize s who))
  else
    let a := areaAt offset
    let b := areaAt (offset + size - 1)
    if !served s a || !served s b then .next (none' s)
    else if !mayAccess s who a false || !mayAccess s who b false then .next (none' (countOutside s who))
    else if who = .fw && 0x10040 ≤ offset && offset < 0x10104 then .next (none' s)
    else
      let x := if size = 8 then read8 s offset else read4 s offset
      .next { x.2 with bus := w64 x.1 }

/-- REGISTER_WRITE (R4, R7, R318, R321). A write to BAR 4 is discarded without being counted. -/
def execRegisterWrite (who : Party) (offset size : Nat) (value : BitVec 64) (s : State) : Host.Outcome State Fault Refusal :=
  if !partyLive s who || bar4At ≤ offset then .next s
  else if !sizeOk offset size then .next (countBadsize s who)
  else
    let a := areaAt offset
    let b := areaAt (offset + size - 1)
    if !served s a || !served s b then .next s
    else if !mayAccess s who a true || !mayAccess s who b true then .next (countOutside s who)
    else .next (if size = 8 then write8 who s offset value.toNat else write4 who s offset value.toNat)

/-! ### SMBus (R399) -/

/-- The device is in reset or its 36 V input is off. -/
def smbDown (s : State) : Bool := s.hub.phase != .running || !railsGood s

/-- The word that a command code returns (R399). -/
def smbWord (s : State) (code : Nat) : Nat :=
  let live (v : Nat) : Nat := if smbDown s then 0xFFFF else v
  match code with
  | 0x00 => 0x6480
  | 0x01 => live s.pwr.pin.toNat
  | 0x02 => live (pack [(8, s.pwr.hottest.toNat), (3, s.pwr.kind.toNat)])
  | 0x03 => pack [(15, s.hub.cause.toNat), (1, b2n s.hub.bklost)]
  | 0x04 => live (hubFault s)
  | 0x05 => s.hub.por.toNat
  | 0x06 => live s.pwr.vin.toNat
  | _ => 0xFFFF

/-- READ_WORD (R399). -/
def execReadWord (code : BitVec 8) (s : State) : Host.Outcome State Fault Refusal :=
  .next { s with bus := w64 (smbWord s code.toNat), hub2 := { s.hub2 with smbAck := true } }

/-- SMBUS_WRITE (R399): not acknowledged at its command byte. -/
def execSmbusWrite (_code : BitVec 8) (s : State) : Host.Outcome State Fault Refusal := .next { s with hub2 := { s.hub2 with smbAck := false } }

/-- SMBUS_CLOCK_TIMEOUT (R399): the interface is reset. -/
def execSmbusClockTimeout (s : State) : Host.Outcome State Fault Refusal := .next { s with hub2 := { s.hub2 with smbAck := true } }

/-! ### Output pins (R335, R341, R377, R380) -/

/-- FAULT_N is asserted (R380). -/
def faultPin (s : State) : Bool := (s.hub.phase != .running && s.hub.faultRst) || (s.hub.phase == .running && BitVec.ofNat 7 (hubFault s) &&& s.hub2.faulten != 0)

/-- Levels of EVT_OUT (R341): low in reset; a pulse lasts 10 REFCLK. -/
def evtOutPins (s : State) : Nat :=
  if s.hub.phase != .running then 0
  else pack ((List.range 4).map (fun k => (1, b2n (s.hub.evtout.getLsbD k || decide (s.time.toNat < tget dN s.hub2.pulseUntil k)))))

/-- A unit that keeps a Tally ring (R362). -/
def tallyUnitOk (u : Nat) : Bool :=
  u < 800 || (0x400 ≤ u && u < 0x408) || (0x410 ≤ u && u < 0x418) || (0x420 ≤ u && u < 0x430) || (0x440 ≤ u && u < 0x460) || (0x460 ≤ u && u < 0x464) || u == uHub

/-- TMUX[7:0] (R377), but for the record-written pulse of selection 3, which lasts one REFCLK (log 40). -/
def tmuxPins (s : State) : Nat :=
  let u := s.hub2.tmuxUnit.toNat
  let arg := s.hub2.tmuxArg.toNat
  let t := s.tally u
  if s.hub.phase != .running || !optTmux s then 0
  else match s.hub2.tmuxSel.toNat with
    | 1 => pack ((List.range 8).map (fun d => (1, b2n (tget dN s.pwr.applied d != 0))))
    | 2 => if arg ≤ 56 then bitsOf s.time.toNat arg 8 else 0
    | 3 => if tallyUnitOk u then pack [(1, 0), (1, b2n t.triggered), (1, b2n t.frozen), (1, b2n s.hub2.xtrig), (4, t.lastCode.toNat)] else 0
    | 4 => (foldPhase s (512 + arg)).toNat % 256
    | 5 => if arg < 8 then pack [(6, tget dN s.pwr.applied arg), (1, b2n s.pwr.therm), (1, b2n s.pwr.overLim)] else 0
    | _ => 0

end Sys2Proof.Machine
end

