-- ==== Sys2Proof/Machine/Dispatch.lean ====
section
/-! DEFINITION. The dispatch: one arm per command, each a direct call of its meaning. -/

namespace Sys2Proof.Machine

open Sys2Proof

/-- The effect of a command on everything but the queue of waiting commands. -/
def exec (i : Instr) (s : State) : Host.Outcome State Fault Refusal :=
  match i with
  | .stage who => Sys2Proof.Machine.execStage who s
  | .verificationEnd => Sys2Proof.Machine.execVerificationEnd s
  | .apply who => Sys2Proof.Machine.execApply who s
  | .abort who => Sys2Proof.Machine.execAbort who s
  | .persist who => Sys2Proof.Machine.execPersist who s
  | .persistEnd readBackOk => Sys2Proof.Machine.execPersistEnd readBackOk s
  | .unitAdopt u faults => Sys2Proof.Machine.execUnitAdopt u faults s
  | .windowExpiry => Sys2Proof.Machine.execWindowExpiry s
  | .rollbackWindowExpiry => Sys2Proof.Machine.execRollbackWindowExpiry s
  | .loadingAtBoot => Sys2Proof.Machine.execLoadingAtBoot s
  | .cclkChange die plan => Sys2Proof.Machine.execCclkChange die plan s
  | .ringIntakeRead c k => Sys2Proof.Machine.execRingIntakeRead c k s
  | .recordDelivery die c => Sys2Proof.Machine.execRecordDelivery die c s
  | .droverSelect core e => Sys2Proof.Machine.execDroverSelect core e s
  | .nop core e => Sys2Proof.Machine.execNop core e s
  | .matmul core => Sys2Proof.Machine.execMatmul core s
  | .vecop core => Sys2Proof.Machine.execVecop core s
  | .vecred core => Sys2Proof.Machine.execVecred core s
  | .update core => Sys2Proof.Machine.execUpdate core s
  | .copy core => Sys2Proof.Machine.execCopy core s
  | .push core => Sys2Proof.Machine.execPush core s
  | .pop core => Sys2Proof.Machine.execPop core s
  | .woodpileWriteback core => Sys2Proof.Machine.execWoodpileWriteback core s
  | .hotWindowMove core => Sys2Proof.Machine.execHotWindowMove core s
  | .gather core => Sys2Proof.Machine.execGather core s
  | .gatherSliceIssue core matrixReady => Sys2Proof.Machine.execGatherSliceIssue core matrixReady s
  | .gshareWindowStart core => Sys2Proof.Machine.execGshareWindowStart core s
  | .gatherTileWriteback core => Sys2Proof.Machine.execGatherTileWriteback core s
  | .gatherHeaderWrite core => Sys2Proof.Machine.execGatherHeaderWrite core s
  | .signal core e => Sys2Proof.Machine.execSignal core e s
  | .wait core e => Sys2Proof.Machine.execWait core e s
  | .waitEvaluation core e c => Sys2Proof.Machine.execWaitEvaluation core e c s
  | .pollIntervalExpiry host => Sys2Proof.Machine.execPollIntervalExpiry host s
  | .lineInvalidation line host => Sys2Proof.Machine.execLineInvalidation line host s
  | .waitTimeout core e c => Sys2Proof.Machine.execWaitTimeout core e c s
  | .commandComplete core e => Sys2Proof.Machine.execCommandComplete core e s
  | .completionRecordRelease core c => Sys2Proof.Machine.execCompletionRecordRelease core c s
  | .completionWriteRetry c => Sys2Proof.Machine.execCompletionWriteRetry c s
  | .coreStateReq who core req => Sys2Proof.Machine.execCoreStateReq who core req s
  | .serviceStateAdopt core => Sys2Proof.Machine.execServiceStateAdopt core s
  | .scratchpadWriteback core => Sys2Proof.Machine.execScratchpadWriteback core s
  | .coreSlot who core idx value => Sys2Proof.Machine.execCoreSlot who core idx value s
  | .tileFillStart core t => Sys2Proof.Machine.execTileFillStart core t s
  | .totalsFinal core t => Sys2Proof.Machine.execTotalsFinal core t s
  | .epilogueStart core t => Sys2Proof.Machine.execEpilogueStart core t s
  | .bufferEmpty core t => Sys2Proof.Machine.execBufferEmpty core t s
  | .ibatch die c => Sys2Proof.Machine.execIbatch die c s
  | .entryDispatch die => Sys2Proof.Machine.execEntryDispatch die s
  | .entryComputeEnd die lane => Sys2Proof.Machine.execEntryComputeEnd die lane s
  | .headerCommit die lane => Sys2Proof.Machine.execHeaderCommit die lane s
  | .deadlineReached die lane iters => Sys2Proof.Machine.execDeadlineReached die lane iters s
  | .batchComplete die => Sys2Proof.Machine.execBatchComplete die s
  | .promotion tile die => Sys2Proof.Machine.execPromotion tile die s
  | .tileMove tile slice => Sys2Proof.Machine.execTileMove tile slice s
  | .moveEnd channel => Sys2Proof.Machine.execMoveEnd channel s
  | .moveIn => Sys2Proof.Machine.execMoveIn s
  | .moveOut => Sys2Proof.Machine.execMoveOut s
  | .report => Sys2Proof.Machine.execReport s
  | .pinMove m => Sys2Proof.Machine.execPinMove m s
  | .scrubRead m => Sys2Proof.Machine.execScrubRead m s
  | .retirementCopy cls => Sys2Proof.Machine.execRetirementCopy cls s
  | .mpRelease who m value => Sys2Proof.Machine.execMpRelease who m value s
  | .rangeInitEnd m => Sys2Proof.Machine.execRangeInitEnd m s
  | .frameReceive p f => Sys2Proof.Machine.execFrameReceive p f s
  | .resendTimeout p => Sys2Proof.Machine.execResendTimeout p s
  | .write p => Sys2Proof.Machine.execWrite p s
  | .add p => Sys2Proof.Machine.execAdd p s
  | .readreq p => Sys2Proof.Machine.execReadreq p s
  | .signalPacket p => Sys2Proof.Machine.execSignalPacket p s
  | .readrsp p => Sys2Proof.Machine.execReadrsp p s
  | .ack p => Sys2Proof.Machine.execAck p s
  | .time p => Sys2Proof.Machine.execTime p s
  | .timeSend p => Sys2Proof.Machine.execTimeSend p s
  | .sync p => Sys2Proof.Machine.execSync p s
  | .syncRepeat f => Sys2Proof.Machine.execSyncRepeat f s
  | .ackTimeout xtag => Sys2Proof.Machine.execAckTimeout xtag s
  | .routePathChange rank => Sys2Proof.Machine.execRoutePathChange rank s
  | .linkTraining p peerRank peerPeer peerGen => Sys2Proof.Machine.execLinkTraining p peerRank peerPeer peerGen s
  | .trainingRetry p => Sys2Proof.Machine.execTrainingRetry p s
  | .arpRequest p target sender => Sys2Proof.Machine.execArpRequest p target sender s
  | .neighbourSolicitation p target sender => Sys2Proof.Machine.execNeighbourSolicitation p target sender s
  | .pause p prio quanta => Sys2Proof.Machine.execPause p prio quanta s
  | .readResponse p pkt => Sys2Proof.Machine.execReadResponse p pkt s
  | .ackOrNak p pkt => Sys2Proof.Machine.execAckOrNak p pkt s
  | .requestPacket p pkt => Sys2Proof.Machine.execRequestPacket p pkt s
  | .cnp p => Sys2Proof.Machine.execCnp p s
  | .qpTimeout p qp => Sys2Proof.Machine.execQpTimeout p qp s
  | .recal who p => Sys2Proof.Machine.execRecal who p s
  | .retrain who p => Sys2Proof.Machine.execRetrain who p s
  | .cleartrip who p => Sys2Proof.Machine.execCleartrip who p s
  | .trackingError p => Sys2Proof.Machine.execTrackingError p s
  | .errorRatioTrigger p => Sys2Proof.Machine.execErrorRatioTrigger p s
  | .calibrationSweep p => Sys2Proof.Machine.execCalibrationSweep p s
  | .lsRecal who q => Sys2Proof.Machine.execLsRecal who q s
  | .lockLoss q line => Sys2Proof.Machine.execLockLoss q line s
  | .eyeSafetyTrip p line launch => Sys2Proof.Machine.execEyeSafetyTrip p line launch s
  | .reduce e => Sys2Proof.Machine.execReduce e s
  | .allgather e => Sys2Proof.Machine.execAllgather e s
  | .allreduce e => Sys2Proof.Machine.execAllreduce e s
  | .permute e => Sys2Proof.Machine.execPermute e s
  | .permuteWritePhase e idx => Sys2Proof.Machine.execPermuteWritePhase e idx s
  | .settle e => Sys2Proof.Machine.execSettle e s
  | .normfin e => Sys2Proof.Machine.execNormfin e s
  | .normfinReduce e idx => Sys2Proof.Machine.execNormfinReduce e idx s
  | .sumBegin e idx => Sys2Proof.Machine.execSumBegin e idx s
  | .collectiveTimeout e idx => Sys2Proof.Machine.execCollectiveTimeout e idx s
  | .foldCfg who f value => Sys2Proof.Machine.execFoldCfg who f value s
  | .foldMask who f high value => Sys2Proof.Machine.execFoldMask who f high value s
  | .raise who idx kind target => Sys2Proof.Machine.execRaise who idx kind target s
  | .lift who idx => Sys2Proof.Machine.execLift who idx s
  | .quiesced idx => Sys2Proof.Machine.execQuiesced idx s
  | .create who c => Sys2Proof.Machine.execCreate who c s
  | .destroy who c => Sys2Proof.Machine.execDestroy who c s
  | .destroyComplete c => Sys2Proof.Machine.execDestroyComplete c s
  | .ringEnable who c k value => Sys2Proof.Machine.execRingEnable who c k value s
  | .ringDisable who c k value => Sys2Proof.Machine.execRingDisable who c k value s
  | .consumerIndexWrite c k => Sys2Proof.Machine.execConsumerIndexWrite c k s
  | .ringRateDefer c => Sys2Proof.Machine.execRingRateDefer c s
  | .request c => Sys2Proof.Machine.execRequest c s
  | .servingStep c ended => Sys2Proof.Machine.execServingStep c ended s
  | .ctxServe who c value => Sys2Proof.Machine.execCtxServe who c value s
  | .manifest c => Sys2Proof.Machine.execManifest c s
  | .load c => Sys2Proof.Machine.execLoad c s
  | .tileDigestCheck c => Sys2Proof.Machine.execTileDigestCheck c s
  | .digest c => Sys2Proof.Machine.execDigest c s
  | .hostLinkTraining port mode speed width => Sys2Proof.Machine.execHostLinkTraining port mode speed width s
  | .hotReset port => Sys2Proof.Machine.execHotReset port s
  | .bar2Access port offset len data => Sys2Proof.Machine.execBar2Access port offset len data s
  | .hpxHdm who port value => Sys2Proof.Machine.execHpxHdm who port value s
  | .windowMove w => Sys2Proof.Machine.execWindowMove w s
  | .acquire who idx ctx lease => Sys2Proof.Machine.execAcquire who idx ctx lease s
  | .release who idx ctx key => Sys2Proof.Machine.execRelease who idx ctx key s
  | .renew who idx ctx key lease => Sys2Proof.Machine.execRenew who idx ctx key lease s
  | .leaseExpiry idx => Sys2Proof.Machine.execLeaseExpiry idx s
  | .powerOn => Sys2Proof.Machine.execPowerOn s
  | .softStart stage => Sys2Proof.Machine.execSoftStart stage s
  | .pwrfail => Sys2Proof.Machine.execPwrfail s
  | .pin => Sys2Proof.Machine.execPin s
  | .vin => Sys2Proof.Machine.execVin s
  | .stageFault stage => Sys2Proof.Machine.execStageFault stage s
  | .refloss => Sys2Proof.Machine.execRefloss s
  | .vbakFault => Sys2Proof.Machine.execVbakFault s
  | .resetRelease => Sys2Proof.Machine.execResetRelease s
  | .resetExit => Sys2Proof.Machine.execResetExit s
  | .pllLock => Sys2Proof.Machine.execPllLock s
  | .pinGlitch pwrOk => Sys2Proof.Machine.execPinGlitch pwrOk s
  | .powerSample vin iin vbak => Sys2Proof.Machine.execPowerSample vin iin vbak s
  | .throttleDecay => Sys2Proof.Machine.execThrottleDecay s
  | .throttleWindow die => Sys2Proof.Machine.execThrottleWindow die s
  | .temperatureReading rs => Sys2Proof.Machine.execTemperatureReading rs s
  | .evtInEdge k rising => Sys2Proof.Machine.execEvtInEdge k rising s
  | .pulse who mask => Sys2Proof.Machine.execPulse who mask s
  | .program who => Sys2Proof.Machine.execProgram who s
  | .firmwareBoot => Sys2Proof.Machine.execFirmwareBoot s
  | .attest who => Sys2Proof.Machine.execAttest who s
  | .cert who => Sys2Proof.Machine.execCert who s
  | .fwverify who => Sys2Proof.Machine.execFwverify who s
  | .enrol who slot => Sys2Proof.Machine.execEnrol who slot s
  | .revoke who slot => Sys2Proof.Machine.execRevoke who slot s
  | .fusesvn who => Sys2Proof.Machine.execFusesvn who s
  | .openDebug who => Sys2Proof.Machine.execOpenDebug who s
  | .jtagInstruction ir => Sys2Proof.Machine.execJtagInstruction ir s
  | .readWord code => Sys2Proof.Machine.execReadWord code s
  | .smbusClockTimeout => Sys2Proof.Machine.execSmbusClockTimeout s
  | .tallyQueueWrite unit => Sys2Proof.Machine.execTallyQueueWrite unit s
  | .crossTrigger => Sys2Proof.Machine.execCrossTrigger s
  | .tlyFreeze who unit => Sys2Proof.Machine.execTlyFreeze who unit s
  | .rearm who unit => Sys2Proof.Machine.execRearm who unit s
  | .blackBoxWrite => Sys2Proof.Machine.execBlackBoxWrite s
  | .bbxFreeze who => Sys2Proof.Machine.execBbxFreeze who s
  | .unfreeze who => Sys2Proof.Machine.execUnfreeze who s
  | .deviceScopeReset who => Sys2Proof.Machine.execDeviceScopeReset who s
  | .contextScopeReset who c => Sys2Proof.Machine.execContextScopeReset who c s
  | .go who c => Sys2Proof.Machine.execGo who c s
  | .counterClear ctx => Sys2Proof.Machine.execCounterClear ctx s
  | .firmwareReport t => Sys2Proof.Machine.execFirmwareReport t s
  | .watchdogExpiry t => Sys2Proof.Machine.execWatchdogExpiry t s
  | .coreTest core passed => Sys2Proof.Machine.execCoreTest core passed s
  | .activate who target => Sys2Proof.Machine.execActivate who target s
  | .handoverComplete => Sys2Proof.Machine.execHandoverComplete s
  | .activationTimeout => Sys2Proof.Machine.execActivationTimeout s
  | .registerWrite who offset size value => Sys2Proof.Machine.execRegisterWrite who offset size value s
  | .registerRead who offset size => Sys2Proof.Machine.execRegisterRead who offset size s
  | .droppedFrame p => Sys2Proof.Machine.execDroppedFrame p s
  | .smbusWrite code => Sys2Proof.Machine.execSmbusWrite code s
  | .testAccessPortReset => Sys2Proof.Machine.execTestAccessPortReset s

end Sys2Proof.Machine
end

