-- ==== Sys2Proof/WellFormed.lean ====
section
/-! DEFINITION. Which commands exist on this device: every unit a command names is one the device has (R12, R14, R19). -/

namespace Sys2Proof

/-- A Fold that exists: 64 per compute die, 256 at device level (R19, R279). -/
def FoldId.ok : FoldId → Bool
  | .die d f => d < 8 && f < 64
  | .dev f => f < 256

/-- A unit that exists (R30). -/
def CfgUnit.ok : CfgUnit → Bool
  | .core n => n < 800
  | .lane l => l < 128
  | .mport m => m < 16
  | .oport p => p < 32

/-- A host port, as opposed to context 0. -/
def Party.isPort : Party → Bool
  | .portA => true
  | .portB => true
  | .fw => false

/-- An access of at least one byte within the 256 MiB of BAR 0, or within the 64 KiB of BAR 4 (R320), whose byte x is named 2^28 + x. -/
def regAccessOk (offset size : Nat) : Bool := 0 < size && (offset + size ≤ 2 ^ 28 || (2 ^ 28 ≤ offset && offset + size ≤ 2 ^ 28 + 2 ^ 16))

/-- Well-formed commands. -/
def Instr.wf : Instr → Bool
  | .stage _ => true
  | .verificationEnd => true
  | .apply _ => true
  | .abort _ => true
  | .persist _ => true
  | .persistEnd _ => true
  | .unitAdopt u _ => u.ok
  | .windowExpiry => true
  | .rollbackWindowExpiry => true
  | .loadingAtBoot => true
  | .cclkChange d _ => d < 8
  | .ringIntakeRead c k => c < 1024 && k < 6
  | .recordDelivery d c => d < 8 && c < 1024
  | .droverSelect n e => n < 800 && e < 4
  | .nop n e => n < 800 && e < 4
  | .matmul n => n < 800
  | .vecop n => n < 800
  | .vecred n => n < 800
  | .update n => n < 800
  | .copy n => n < 800
  | .push n => n < 800
  | .pop n => n < 800
  | .woodpileWriteback n => n < 800
  | .hotWindowMove n => n < 800
  | .gather n => n < 800
  | .gatherSliceIssue n _ => n < 800
  | .gshareWindowStart n => n < 800
  | .gatherTileWriteback n => n < 800
  | .gatherHeaderWrite n => n < 800
  | .signal n e => n < 800 && e < 4
  | .wait n e => n < 800 && e < 4
  | .waitEvaluation n e c => n < 800 && e < 4 && c < 1024
  | .pollIntervalExpiry _ => true
  | .lineInvalidation _ _ => true
  | .waitTimeout n e c => n < 800 && e < 4 && c < 1024
  | .commandComplete n e => n < 800 && e < 4
  | .completionRecordRelease n c => n < 800 && c < 1024
  | .completionWriteRetry c => c < 1024
  | .coreStateReq _ n _ => n < 800
  | .serviceStateAdopt n => n < 800
  | .scratchpadWriteback n => n < 800
  | .coreSlot _ n i _ => n < 800 && i < 32
  | .tileFillStart n _ => n < 800
  | .totalsFinal n _ => n < 800
  | .epilogueStart n _ => n < 800
  | .bufferEmpty n _ => n < 800
  | .ibatch d c => d < 8 && c < 1024
  | .entryDispatch d => d < 8
  | .entryComputeEnd d l => d < 8 && l < 16
  | .headerCommit d l => d < 8 && l < 16
  | .deadlineReached d l _ => d < 8 && l < 16
  | .batchComplete d => d < 8
  | .promotion _ d => d < 8
  | .tileMove _ _ => true
  | .moveEnd ch => ch < 256
  | .moveIn => true
  | .moveOut => true
  | .report => true
  | .pinMove m => m < 16
  | .scrubRead m => m < 16
  | .retirementCopy k => k < 256
  | .mpRelease _ m _ => m < 16
  | .rangeInitEnd m => m < 16
  | .frameReceive p _ => p < 32
  | .resendTimeout p => p < 32
  | .write p => p < 32
  | .add p => p < 32
  | .readreq p => p < 32
  | .signalPacket p => p < 32
  | .readrsp p => p < 32
  | .ack p => p < 32
  | .time p => p < 32
  | .timeSend p => p < 32
  | .sync p => p < 32
  | .syncRepeat f => f < 256
  | .ackTimeout x => x < 4096
  | .routePathChange r => r < 33
  | .linkTraining p _ _ _ => p < 32
  | .trainingRetry p => p < 32
  | .arpRequest p _ _ => p < 32
  | .neighbourSolicitation p _ _ => p < 32
  | .pause p prio _ => p < 32 && prio < 8
  | .readResponse p _ => p < 32
  | .ackOrNak p _ => p < 32
  | .requestPacket p _ => p < 32
  | .cnp p => p < 32
  | .qpTimeout p q => p < 32 && q < 128
  | .recal _ p => p < 32
  | .retrain _ p => p < 32
  | .cleartrip _ p => p < 32
  | .trackingError p => p < 32
  | .errorRatioTrigger p => p < 32
  | .calibrationSweep p => p < 32
  | .lsRecal _ q => q < 4
  | .lockLoss q l => q < 4 && l < 8
  | .eyeSafetyTrip p l _ => p < 32 && l < 8
  | .reduce e => e < 8
  | .allgather e => e < 8
  | .allreduce e => e < 8
  | .permute e => e < 8
  | .permuteWritePhase e _ => e < 8
  | .settle e => e < 8
  | .normfin e => e < 8
  | .normfinReduce e _ => e < 8
  | .sumBegin e _ => e < 8
  | .collectiveTimeout e _ => e < 8
  | .foldCfg _ f _ => f.ok
  | .foldMask _ f _ _ => f.ok
  | .raise _ i _ _ => i < 16
  | .lift _ i => i < 16
  | .quiesced i => i < 16
  | .create _ c => c < 1024
  | .destroy _ c => c < 1024
  | .destroyComplete c => c < 1024
  | .ringEnable _ c k _ => c < 1024 && k < 6
  | .ringDisable _ c k _ => c < 1024 && k < 6
  | .consumerIndexWrite c k => c < 1024 && k < 6
  | .ringRateDefer c => c < 1024
  | .request c => c < 1024
  | .servingStep c _ => c < 1024
  | .ctxServe _ c _ => c < 1024
  | .manifest c => c < 1024
  | .load c => c < 1024
  | .tileDigestCheck c => c < 1024
  | .digest c => c < 1024
  | .hostLinkTraining p _ _ _ => p.isPort
  | .hotReset p => p.isPort
  | .bar2Access p _ _ _ => p.isPort
  | .hpxHdm _ p _ => p.isPort
  | .windowMove w => w < 16
  | .acquire _ i _ _ => i < 64
  | .release _ i _ _ => i < 64
  | .renew _ i _ _ _ => i < 64
  | .leaseExpiry i => i < 64
  | .powerOn => true
  | .softStart st => st < 2
  | .pwrfail => true
  | .pin => true
  | .vin => true
  | .stageFault st => st < 2
  | .refloss => true
  | .vbakFault => true
  | .resetRelease => true
  | .resetExit => true
  | .pllLock => true
  | .pinGlitch _ => true
  | .powerSample _ _ _ => true
  | .throttleDecay => true
  | .throttleWindow d => d < 8
  | .temperatureReading _ => true
  | .evtInEdge k _ => k < 4
  | .pulse _ _ => true
  | .program _ => true
  | .firmwareBoot => true
  | .attest _ => true
  | .cert _ => true
  | .fwverify _ => true
  | .enrol _ _ => true
  | .revoke _ _ => true
  | .fusesvn _ => true
  | .openDebug _ => true
  | .jtagInstruction _ => true
  | .readWord _ => true
  | .smbusClockTimeout => true
  | .tallyQueueWrite _ => true
  | .crossTrigger => true
  | .tlyFreeze _ _ => true
  | .rearm _ _ => true
  | .blackBoxWrite => true
  | .bbxFreeze _ => true
  | .unfreeze _ => true
  | .deviceScopeReset _ => true
  | .contextScopeReset _ c => c < 1024
  | .go _ c => c < 1024
  | .counterClear _ => true
  | .firmwareReport t => t < 9
  | .watchdogExpiry t => t < 9
  | .coreTest n _ => n < 800
  | .activate _ _ => true
  | .handoverComplete => true
  | .activationTimeout => true
  | .registerWrite _ off sz _ => regAccessOk off sz
  | .registerRead _ off sz => regAccessOk off sz
  | .droppedFrame p => p < 32
  | .smbusWrite _ => true
  | .testAccessPortReset => true

end Sys2Proof
end

