-- ==== Sys2Proof/Safety.lean ====
section
/-! DEFINITION. What statements about the block say in common: which parts of the state two states agree on, the canonical form of
memory, who is admitted to write a register, and what a run of the block may never do. -/

namespace Sys2Proof.Machine

open Sys2Proof

/-- The parts of the state, one per field of State but for the queue of waiting commands and the counter of the free values. -/
inductive Field where
  | time | slew | slewUs | uni | uniBad | host | cores | ctxs | dieHeld | ibex | mports | tiers | nvmFrames | oports | lasers | accesses
  | nextTag | paths | ces | areas | folds | hurdles | hps | windows | gates | tallies | bbx | weave | hub | hub2 | pwr | opt | sec
  | manifests | loads | bus | bus2 | poisoned
deriving DecidableEq, Repr

/-- Two states agree on a part. -/
def Field.same (s t : State) : Field → Prop
  | .time => t.time = s.time
  | .slew => t.slew = s.slew
  | .slewUs => t.slewUs = s.slewUs
  | .uni => t.uni = s.uni
  | .uniBad => t.uniBad = s.uniBad
  | .host => t.host = s.host
  | .cores => t.cores = s.cores
  | .ctxs => t.ctxs = s.ctxs
  | .dieHeld => t.dieHeld = s.dieHeld
  | .ibex => t.ibex = s.ibex
  | .mports => t.mports = s.mports
  | .tiers => t.tiers = s.tiers
  | .nvmFrames => t.nvmFrames = s.nvmFrames
  | .oports => t.oports = s.oports
  | .lasers => t.lasers = s.lasers
  | .accesses => t.accesses = s.accesses
  | .nextTag => t.nextTag = s.nextTag
  | .paths => t.paths = s.paths
  | .ces => t.ces = s.ces
  | .areas => t.areas = s.areas
  | .folds => t.folds = s.folds
  | .hurdles => t.hurdles = s.hurdles
  | .hps => t.hps = s.hps
  | .windows => t.windows = s.windows
  | .gates => t.gates = s.gates
  | .tallies => t.tallies = s.tallies
  | .bbx => t.bbx = s.bbx
  | .weave => t.weave = s.weave
  | .hub => t.hub = s.hub
  | .hub2 => t.hub2 = s.hub2
  | .pwr => t.pwr = s.pwr
  | .opt => t.opt = s.opt
  | .sec => t.sec = s.sec
  | .manifests => t.manifests = s.manifests
  | .loads => t.loads = s.loads
  | .bus => t.bus = s.bus
  | .bus2 => t.bus2 = s.bus2
  | .poisoned => t.poisoned = s.poisoned

/-- From `s` to `t` at most the listed parts change, and the queue of waiting commands does not: the frame of a command. -/
def Only (l : List Field) (s t : State) : Prop := t.pending = s.pending ∧ ∀ f, f ∉ l → f.same s t

/-- Every memory of the device is in its canonical form: the unified range, host memory, and each core's scratchpad. -/
def MemCanon (s : State) : Prop :=
  Memory.wf s.uni = true ∧ Memory.wf s.host = true ∧ ∀ n, Memory.wf (s.core n).scratch = true

/-- Every waiting command is well-formed. -/
def QueueWf (s : State) : Prop := ∀ c ∈ s.pending, c.wf = true

/-- What no step may undo (R349, R353): the fuses that revoke a ROM key stay as they are, and the fused security version does not fall. -/
def FusesKept (s t : State) : Prop := t.sec.revoked = s.sec.revoked ∧ s.sec.fused.toNat ≤ t.sec.fused.toNat

/-- A party's register write takes effect (R283, R315, R318, R351): its access reaches the device, the block serves the area, and the
party has the right to write it. -/
def Admitted (s : State) (who : Party) (a : RegArea) : Prop :=
  partyLive s who = true ∧ served s a = true ∧ mayAccess s who a true = true

/-- A party's access reaches the device but lies outside its rights (R318). -/
def Outside (s : State) (who : Party) (a : RegArea) : Prop :=
  partyLive s who = true ∧ served s a = true ∧ mayAccess s who a true = false

/-- The parts that a read of device memory acts on: error records, counters, residency (R194, R197, R199, R205, R329). -/
def readParts : List Field := [.uniBad, .mports, .tiers, .tallies, .hps]

/-- The parts that a write of device memory acts on: memory, the watched WAITs and ring words (R269, R292), and what a read acts on. -/
def writeParts : List Field := [.uni, .host, .cores, .ctxs, .uniBad, .mports, .tiers, .tallies, .hps]

/-- The parts that a completion record acts on as it is reported: its write, its context's completion ring and counters (R88, R89). -/
def reportParts : List Field := writeParts

/-- What a ring's word, seen anew, changes of a context (R292, R298): what its rings have seen, and no index of the device's own. -/
structure RingsSeen (x y : Ctx) : Prop where
  rest : y = { x with rings := y.rings, ringErr := y.ringErr, takenUs := y.takenUs, taken := y.taken }
  ring : ∀ j, y.ring j = { x.ring j with other := (y.ring j).other, deferred := (y.ring j).deferred }

/-- From one state to another, every context has at most seen its rings' words anew. -/
structure CtxsSeen (s t : State) : Prop where
  ctx : ∀ c, RingsSeen (s.ctx c) (t.ctx c)

/-- The bytes stored at an address in the unified range are kept: a tile that is backed holds each of them, and no tile has lost its contents
(R187, R202). -/
def Backed (s : State) (a n : Nat) : Prop := hitsUnbacked s a n = false ∧ anyLost s = false

end Sys2Proof.Machine
end

