-- ==== Sys2Proof/Certificates/Slice0/Obligations.lean ====
section
/-! DEFINITION. What the model's block is claimed to do: one proposition for each statement, from the rules of the spec. A statement of several
clauses is their conjunction. `Only l s t` is the frame: from `s` to `t` at most the parts in `l` change, and the queue does not. -/

open Sys2Proof Sys2Proof.Machine

/-! ### The queue, time and reset -/

/-- A step takes the command at the front of the queue and is that command's effect on the state with the queue's rest. -/
def Obligations.StepRunsFrontCommand : Prop :=
  ∀ (c : Instr) (rest : List Instr) (s : State), s.pending = c :: rest → step s = exec c { s with pending := rest }

/-- With no command waiting, one nanosecond of device time passes and nothing else (model's choice, log 12); while a slew of R236 is due, two nanoseconds
pass, or none. -/
def Obligations.EmptyQueueLetsTimePass : Prop :=
  ∀ s : State, s.pending = [] →
    ∃ t, step s = .next t ∧ Only [.time, .slew] s t ∧
      (s.slew = none → t.time = s.time + 1 ∧ t.slew = none) ∧
      (s.slew = some true → t.time = s.time + 2 ∧ t.slew = none) ∧
      (s.slew = some false → t.time = s.time ∧ t.slew = none)

/-- Right after reset: every core is in STARTUP (R68), context 0 is LIVE and every other context FREE (R288), slot 0 of every core holds context 0 (R102),
no Hurdle is in use, every Gate semaphore is free, no Weave is loaded, and nothing waits. The memories and the queue after reset are in canonical form
and well-formed. -/
def Obligations.ResetState : Prop :=
  (let s := State.reset
   s.pending = [] ∧ (∀ n, (s.core n).serv = 1 ∧ (s.core n).running = [] ∧ ((s.core n).slot 0).valid = true ∧ ((s.core n).slot 0).ctx = 0) ∧
     (∀ n i, i ≠ 0 → ((s.core n).slot i).valid = false) ∧ (s.ctx 0).state = 1 ∧ (∀ c, c ≠ 0 → (s.ctx c).state = 0) ∧
     (∀ i, (s.hurdle i).busy = false) ∧ (∀ i, (s.gate i).state = 0) ∧ s.weave.loaded = false ∧ s.weave.st = .idle ∧ s.sec.openD = false) ∧
  (MemCanon State.reset ∧ QueueWf State.reset)

/-- Every command runs: in every state it answers a next state, whatever its operands, and leaves the queue of waiting commands alone. The one exception
is a JTAG instruction of the debug transport, or EXTEST, while OPEN is 1, which the spec gives no effect. -/
def Obligations.EveryCommandAnswers : Prop :=
  ∀ (c : Instr) (s : State), (∀ ir, c = .jtagInstruction ir → ir < 3 ∨ s.sec.openD = false) → ∃ t, exec c s = .next t ∧ t.pending = s.pending

/-- Every step keeps every memory of the device in canonical form and every waiting command well-formed. -/
def Obligations.StepKeepsCanonicalForm : Prop :=
  ∀ s t : State, MemCanon s → QueueWf s → step s = .next t → MemCanon t ∧ QueueWf t

/-- FUSESVN raises FUSED to the lowest SVN among the images that run, and reports DONE also where that raises nothing; no image older than FUSED is
booted, or staged by FWVERIFY; and whatever step is taken, FUSED never falls and no fuse that revokes a ROM key changes (R353). Completes (exec
answers next with the command's own effect): FUSESVN. -/
def Obligations.FuseVersionsNeverFall : Prop :=
  (∀ (who : Party) (v : Nat) (s : State), who ≠ .fw → Admitted s who .hub → hubHandsOver s = false →
    (∃ g x, g < 9 ∧ (s.fw g).running = some x ∧ x.svn.toNat = v) → (∀ g x, g < 9 → (s.fw g).running = some x → v ≤ x.svn.toNat) →
    ∃ t, exec (.fusesvn who) s = .next t ∧ Only [.sec] s t ∧ t.sec.result = stDone ∧ t.sec.fused.toNat = max s.sec.fused.toNat v ∧
      t.sec.keys = s.sec.keys ∧ (∀ g, t.fw g = s.fw g)) ∧
  (∀ (g : Nat) (b : Bool) (x : FwImage) (s : State), bootImage s g = some (b, x) → s.sec.fused.toNat ≤ x.svn.toNat) ∧
  (∀ (m : List Byte) (s : State), fwSvn m < s.sec.fused.toNat → fwCheck s m ≠ none) ∧
  (∀ s t : State, step s = .next t → FusesKept s t)

/-! ### The Weave (02) -/

/-- A delta from staging to its start. STAGE reads the header and then TOTAL_LENGTH bytes at WEAVE_SRC and verification begins; VERIFICATION_END accepts
an image that passes every check; APPLY starts the change to the new generation with the window's deadline. Completes (exec answers next with the
command's own effect): STAGE, VERIFICATION_END, APPLY. -/
def Obligations.StageVerifyApply : Prop :=
  (∀ (who : Party) (s : State), Admitted s who .admin → s.weave.loaded = true → hubHandsOver s = false →
    (s.weave.st = .idle ∨ s.weave.st = .staged) →
    let a := s.weave.src.toNat * 8
    let n := wvTotal (devRead s a 64)
    imageFault s a 64 = none → wvTotalOk (devRead s a 64) = true → imageFault s a n = none →
    ∃ t, exec (.stage who) s = .next t ∧ Only (.weave :: readParts) s t ∧ t.weave.st = .verifying ∧ t.weave.image = devRead s a n ∧
      t.weave.next = 0 ∧ t.weave.cur = s.weave.cur ∧ t.weave.result = s.weave.result) ∧
  (∀ s : State, s.weave.st = .verifying → s.weave.fetchErr = 0 → verifyImage s s.weave.cur s.weave.image false = none →
    ∃ t, exec .verificationEnd s = .next t ∧ Only [.weave] s t ∧ t.weave.st = .staged ∧ t.weave.result = stDone ∧ t.weave.errsec = 0xFF ∧
      t.weave.next.toNat = wvGen s.weave.image % 2 ^ 32 ∧ t.weave.image = s.weave.image ∧ t.weave.cur = s.weave.cur) ∧
  (∀ (who : Party) (s : State), Admitted s who .admin → s.weave.loaded = true → hubHandsOver s = false → s.weave.st = .staged →
    wvKind s.weave.image ≠ 0 → (who = .fw → raisesLimit s s.weave.cur.sects (produce s.weave.cur.sects s.weave.image) = false) →
    ∃ t g, exec (.apply who) s = .next t ∧ Only [.weave] s t ∧ t.weave.st = .applying ∧ t.weave.nxt = some g ∧
      g.sects = produce s.weave.cur.sects s.weave.image ∧ g.gen.toNat = wvGen s.weave.image % 2 ^ 32 ∧ t.weave.adopted = [] ∧
      t.weave.cur = s.weave.cur ∧ t.weave.deadline = s.time + BitVec.ofNat 64 (s.weave.window.toNat * 1000))

/-- VERIFICATION_END with a failing check, and the same operations in a state that refuses them: nothing is staged and the generation in force stays.
ABORT drops an image that is being verified or staged; PERSIST starts a write of a boot image that is staged, or of the composed Weave in force where
the identity key is there; PERSIST_END moves the validity mark after a good read-back only. Completes (exec answers next with the command's own
effect): VERIFICATION_END, ABORT, PERSIST, PERSIST_END. -/
def Obligations.WeaveOperationsEnd : Prop :=
  ((∀ (s : State) (f : Status × Nat), s.weave.st = .verifying → s.weave.fetchErr = 0 →
     verifyImage s s.weave.cur s.weave.image false = some f →
     ∃ t, exec .verificationEnd s = .next t ∧ Only [.weave] s t ∧ t.weave.st = .idle ∧ t.weave.result = f.1 ∧
       t.weave.errsec = BitVec.ofNat 8 f.2 ∧ t.weave.next = 0 ∧ t.weave.cur = s.weave.cur) ∧
   (∀ (who : Party) (s : State), Admitted s who .admin → s.weave.loaded = true → hubHandsOver s = false →
     (s.weave.st = .applying ∨ s.weave.st = .rollingBack) → ∀ c ∈ [Instr.stage who, .apply who, .persist who],
     ∃ t, exec c s = .next t ∧ Only [.weave] s t ∧ t.weave = { s.weave with result := stGeneration }) ∧
   (∀ (who : Party) (s : State), Admitted s who .admin → s.weave.loaded = true → hubHandsOver s = false →
     (s.weave.st = .verifying ∨ s.weave.st = .persisting) → ∀ c ∈ [Instr.stage who, .apply who, .persist who],
     ∃ t, exec c s = .next t ∧ Only [.weave] s t ∧ t.weave = { s.weave with result := stMode })) ∧
  ((∀ (who : Party) (s : State), Admitted s who .admin → s.weave.loaded = true → hubHandsOver s = false →
     (s.weave.st = .verifying ∨ s.weave.st = .staged) →
     ∃ t, exec (.abort who) s = .next t ∧ Only [.weave] s t ∧ t.weave.st = .idle ∧ t.weave.image = [] ∧ t.weave.next = 0 ∧
       t.weave.result = stDone ∧ t.weave.cur = s.weave.cur) ∧
   (∀ (who : Party) (s : State), Admitted s who .admin → s.weave.loaded = true → hubHandsOver s = false → s.weave.st = .staged →
     wvKind s.weave.image = 0 →
     ∃ t, exec (.persist who) s = .next t ∧ Only [.weave] s t ∧ t.weave.st = .persisting ∧ t.weave.persist = s.weave.image) ∧
   (∀ (who : Party) (s : State), Admitted s who .admin → s.weave.loaded = true → hubHandsOver s = false → s.weave.st = .idle →
     s.sec.noid = false → s.sec.derived = true →
     ∃ t, exec (.persist who) s = .next t ∧ Only [.weave] s t ∧ t.weave.st = .persisting ∧ t.weave.persist = composeWeave s.weave.cur) ∧
   (∀ s : State, s.weave.st = .persisting →
     (∃ t, exec (.persistEnd true) s = .next t ∧ Only [.weave] s t ∧ t.weave.st = .idle ∧ t.weave.result = stDone ∧
       t.weave.inUse = !s.weave.inUse ∧
       (if t.weave.inUse then t.weave.slotB.valid = true ∧ t.weave.slotB.image = s.weave.persist ∧ t.weave.slotA.valid = false
         else t.weave.slotA.valid = true ∧ t.weave.slotA.image = s.weave.persist ∧ t.weave.slotB.valid = false)) ∧
     (∃ t, exec (.persistEnd false) s = .next t ∧ Only [.weave] s t ∧ t.weave.st = .idle ∧ t.weave.result = stEcc ∧
       t.weave.inUse = s.weave.inUse ∧ (if s.weave.inUse then t.weave.slotB = s.weave.slotB else t.weave.slotA = s.weave.slotA))))

/-- A unit at a safe point adopts the next generation while it is applied, and the last one to do so makes it the generation in force; while a rollback
runs, a unit that had adopted returns. Stated for the Ibex lanes, of which nothing else changes, where no forced change of the lane waits for its
fence. UNIT_ADOPT, WINDOW_EXPIRY and ROLLBACK_WINDOW_EXPIRY at the end of a change. The last unit's adoption makes g + 1 the generation in force, with
DONE and WEAVE_EVT bit 0. A window that ends with units still at g, for a delta that retires nothing, ends in a rollback when some unit had adopted;
with none adopted the delta is dropped at once. The end of a rollback's window leaves g in force: the rollback is over, or each unit still at g + 1 is
fenced and returns when its fence is quiet. Completes (exec answers next with the command's own effect): UNIT_ADOPT, WINDOW_EXPIRY,
ROLLBACK_WINDOW_EXPIRY. -/
def Obligations.GenerationChanges : Prop :=
  ((∀ (l : Nat) (s : State) (g : WeaveGen), l < 128 → CfgUnit.lane l ∉ s.weave.fences → unitSafe s (.lane l) = true →
     unitRetired (retiredOf s.weave.cur.sects) (.lane l) = false → s.weave.st = .applying → s.weave.nxt = some g →
     CfgUnit.lane l ∉ s.weave.adopted → (∃ u, u ≠ CfgUnit.lane l ∧ u ∈ unitsAtG s) →
     ∃ t, exec (.unitAdopt (.lane l) false) s = .next t ∧ Only [.weave] s t ∧ t.weave.st = .applying ∧
       genOf s (.lane l) = s.weave.cur.gen ∧ genOf t (.lane l) = g.gen ∧ sectsOf t (.lane l) = g.sects ∧
       ∀ u, u ≠ CfgUnit.lane l → genOf t u = genOf s u) ∧
   (∀ (l : Nat) (s : State) (g : WeaveGen), l < 128 → CfgUnit.lane l ∉ s.weave.fences → unitSafe s (.lane l) = true →
     unitRetired (retiredOf s.weave.cur.sects) (.lane l) = false → s.weave.st = .rollingBack → s.weave.nxt = some g →
     CfgUnit.lane l ∈ s.weave.adopted → (∃ u, u ≠ CfgUnit.lane l ∧ u ∈ s.weave.adopted) →
     ∃ t, exec (.unitAdopt (.lane l) false) s = .next t ∧ Only [.weave] s t ∧ t.weave.st = .rollingBack ∧
       genOf t (.lane l) = s.weave.cur.gen)) ∧
  ((∀ (l : Nat) (s : State) (g : WeaveGen), l < 128 → CfgUnit.lane l ∉ s.weave.fences → unitSafe s (.lane l) = true →
     unitRetired (retiredOf s.weave.cur.sects) (.lane l) = false → s.weave.st = .applying → s.weave.nxt = some g →
     unitsAtG s = [CfgUnit.lane l] →
     ∃ t, exec (.unitAdopt (.lane l) false) s = .next t ∧ t.weave.cur = g ∧ t.weave.nxt = none ∧ t.weave.st = .idle ∧
       t.weave.result = stDone ∧ t.weave.evt.getLsbD 0 = true ∧ t.sec.wmeas = sha256 (s.sec.wmeas ++ g.digest)) ∧
   (∀ s : State, s.weave.st = .applying → s.weave.deadline.toNat ≤ s.time.toNat → hasType s.weave.image 8 = false →
     s.weave.adopted ≠ [] →
     ∃ t, exec .windowExpiry s = .next t ∧ t.weave.st = .rollingBack ∧ t.weave.cur = s.weave.cur ∧ t.weave.adopted = s.weave.adopted ∧
       t.weave.deadline = s.time + BitVec.ofNat 64 (s.weave.span * 1000)) ∧
   (∀ s : State, s.weave.st = .applying → s.weave.deadline.toNat ≤ s.time.toNat → hasType s.weave.image 8 = false →
     s.weave.adopted = [] →
     ∃ t, exec .windowExpiry s = .next t ∧ t.weave.st = .idle ∧ t.weave.cur = s.weave.cur ∧ t.weave.nxt = none ∧
       t.weave.result = stDeadline ∧ t.weave.evt.getLsbD 2 = true) ∧
   (∀ s : State, s.weave.st = .rollingBack → s.weave.deadline.toNat ≤ s.time.toNat →
     ∃ t, exec .rollbackWindowExpiry s = .next t ∧ t.weave.cur = s.weave.cur ∧
       ((∃ u ∈ s.weave.adopted, u ∉ s.weave.fences) → t.weave.evt.getLsbD 1 = true) ∧
       (t.weave.st = .idle ∧ t.weave.nxt = none ∧ t.weave.adopted = [] ∧ t.weave.result = stDeadline ∧ t.weave.evt.getLsbD 2 = true ∨
         t.weave.st = .rollingBack ∧ t.weave.adopted ≠ [] ∧ ∀ u ∈ t.weave.adopted, u ∈ t.weave.fences)))

/-- LOADING_AT_BOOT loads the image of the first slot that verifies, or the built-in minimal Weave. CCLK_CHANGE gives a die the code of a clock plan once
no command of its cores runs, and until then holds the change; a plan that the generation does not have leaves the die's code and answers
REFUSED_GENERATION (R23, R33, R76). Completes (exec answers next with the command's own effect): LOADING_AT_BOOT, CCLK_CHANGE. -/
def Obligations.BootLoadAndClock : Prop :=
  (∀ s : State, s.hub.phase = .running → s.sec.booted = true → s.sec.st ≠ 2 → s.weave.loaded = false →
    ∃ t, exec .loadingAtBoot s = .next t ∧ t.weave.loaded = true ∧ t.weave.cur = (bootWeave s).2 ∧
      t.weave.bootsrc = BitVec.ofNat 4 (bootWeave s).1 ∧ ((bootWeave s).1 = 2 → t.weave.cur = minimalGen)) ∧
  (∀ (d k c : Nat) (s : State), d < 8 → s.weave.loaded = true → planCode s s.weave.cur.sects k d = some c →
    ∃ t, exec (.cclkChange d k) s = .next t ∧ Only [.hub2] s t ∧ t.hub2.clkStatus = stDone ∧
      (∀ e, e ≠ d → tget d0 t.hub2.clkCode e = tget d0 s.hub2.clkCode e) ∧
      ((∀ i, i < 100 → (s.core (100 * d + i)).running = []) →
        tget d0 t.hub2.clkCode d = BitVec.ofNat 5 c ∧ ∀ x ∈ t.hub2.clkPend, x.1 ≠ d) ∧
      ((∃ i, i < 100 ∧ (s.core (100 * d + i)).running ≠ []) → t.hub2.clkCode = s.hub2.clkCode ∧ (d, c) ∈ t.hub2.clkPend) ∧
      t.hub2 = { s.hub2 with clkCode := t.hub2.clkCode, clkPend := t.hub2.clkPend, clkStatus := t.hub2.clkStatus }) ∧
  (∀ (d k : Nat) (s : State), d < 8 → s.weave.loaded = true → planCode s s.weave.cur.sects k d = none →
    ∃ t, exec (.cclkChange d k) s = .next t ∧ Only [.hub2] s t ∧ t.hub2 = { s.hub2 with clkStatus := stGeneration })

/-! ### Rings (15) -/

/-- RING_INTAKE_READ and REQUEST: the next record of a ring that runs is read where the producer is ahead and the consumer has room; the device's own
index advances by one, and the record goes to the consumer of its ring (R292, R295, R301). A record read with an uncorrectable word, or that the host
link cannot deliver, is not delivered (R295). Completes (exec answers next with the command's own effect): RING_INTAKE_READ, REQUEST. -/
def Obligations.RingIntake : Prop :=
  (∀ (c k : Nat) (cmd : Instr) (s : State), c < 1024 → k < 5 → (cmd = .ringIntakeRead c k ∨ (k = 4 ∧ cmd = .request c)) →
     (3 ≤ k → fwServes s c = true) → ringRuns s c k = true → (s.ctx c).state = 1 → ctxFenced s c = false →
     let r := (s.ctx c).ring k
     let a := r.addr + r.own.toNat % r.n * 64
     let x : Rec := { ctx := c, seq := r.own, bytes := devRead s a 64 }
     r.own ≠ r.other → devFault s a 64 = none → intakeFull s c k x.bytes = false →
     ∃ t, exec cmd s = .next t ∧ Only (readParts ++ [.ctxs, .ibex, .ces]) s t ∧ ((t.ctx c).ring k).own = r.own + 1 ∧
       (∀ j, j ≠ k → (t.ctx c).ring j = (s.ctx c).ring j) ∧ (∀ d, d ≠ c → t.ctx d = s.ctx d) ∧
       (k = 0 → (t.ctx c).intake = (s.ctx c).intake ++ [x]) ∧
       (k = 1 → let d := bitsOf (fld x.bytes 4 1) 0 3
         (t.ibx d).arrived = (s.ibx d).arrived ++ [x] ∧ ∀ e, e ≠ d → t.ibx e = s.ibx e) ∧
       (k = 2 → let e := bitsOf (fld x.bytes 4 1) 0 3
         (t.ce e).queue = (s.ce e).queue ++ [x] ∧ ∀ d, d ≠ e → t.ce d = s.ce d) ∧
       (k = 3 → (t.ctx c).loader = (s.ctx c).loader ++ [x]) ∧
       (k = 4 → (t.ctx c).reqs = (s.ctx c).reqs ++ [x])) ∧
  (∀ (c k : Nat) (s : State), c < 1024 → k < 5 →
     (3 ≤ k → fwServes s c = true) → ringRuns s c k = true → (s.ctx c).state = 1 → ctxFenced s c = false →
     let r := (s.ctx c).ring k
     let a := r.addr + r.own.toNat % r.n * 64
     r.own ≠ r.other →
     (devFault s a 64 = some .link →
       ∃ t, exec (.ringIntakeRead c k) s = .next t ∧ Only [.ctxs, .tallies] s t ∧ (t.ctx c).ringErr.getLsbD k = true ∧
         ((t.ctx c).ring k).own = r.own ∧ (t.ctx c).intake = (s.ctx c).intake) ∧
     (∀ w, devFault s a 64 = some (.ecc w) →
       ∃ t, exec (.ringIntakeRead c k) s = .next t ∧ ((t.ctx c).ring k).own = r.own + 1 ∧ (t.ctx c).intake = (s.ctx c).intake ∧
         (t.ctx c).loader = (s.ctx c).loader ∧ (t.ctx c).reqs = (s.ctx c).reqs))

/-- RING_ENABLE and RING_DISABLE. A write of EN 1 to a ring that is not enabled takes BASE and LOG2N, clamped to 4 to 16, and starts the ring at the index
in its own word, with the other word observed and watched from then on (R269, R292); a write of EN 0 stops the ring and clears its error. Completes
(exec answers next with the command's own effect): RING_ENABLE, RING_DISABLE. -/
def Obligations.RingEnableAndDisable : Prop :=
  (∀ (who : Party) (c k : Nat) (v : BitVec 64) (s : State), c < 1024 → k < 6 → Admitted s who (.ctx c) →
    ((s.ctx c).ring k).en = false → bitOf v.toNat 63 = true →
    let s1 := s.modCtx c (fun x => x.modRing k (fun r =>
      { r with log2n := BitVec.ofNat 5 (min 16 (max 4 (bitsOf v.toNat 56 5))), base := BitVec.ofNat 42 (bitsOf v.toNat 6 42) }))
    let r := (s1.ctx c).ring k
    let own : BitVec 32 := BitVec.ofNat 32 (devWord s1 (r.ownWord k)).toNat
    let w := devWord s1 (r.watched k)
    let seen : BitVec 32 := BitVec.ofNat 32 w.toNat
    ringBad s1 c k r = false → w.toNat < 2 ^ 32 → (if k = 5 then idxDist own seen else idxDist seen own) ≤ r.n →
    ∃ t, exec (.ringEnable who c k v) s = .next t ∧ Only (readParts ++ [.ctxs]) s t ∧
      (t.ctx c).ring k = { r with en := true, own := own, other := seen, written := own, deferred := none, retry := false, how := watchHow s1 (r.watched k) } ∧
      (t.ctx c).ringErr = (s.ctx c).ringErr ∧ (∀ j, j ≠ k → (t.ctx c).ring j = (s.ctx c).ring j) ∧ ∀ d, d ≠ c → t.ctx d = s.ctx d) ∧
  (∀ (who : Party) (c k : Nat) (v : BitVec 64) (s : State), c < 1024 → k < 6 → Admitted s who (.ctx c) →
    ((s.ctx c).ring k).en = true → bitOf v.toNat 63 = false →
    ∃ t, exec (.ringDisable who c k v) s = .next t ∧ Only [.ctxs] s t ∧ ((t.ctx c).ring k).en = false ∧
      ((t.ctx c).ring k).base = ((s.ctx c).ring k).base ∧ ((t.ctx c).ring k).log2n = ((s.ctx c).ring k).log2n ∧
      (t.ctx c).ringErr.getLsbD k = false ∧ (∀ j, j ≠ k → (t.ctx c).ringErr.getLsbD j = (s.ctx c).ringErr.getLsbD j) ∧
      (∀ j, j ≠ k → (t.ctx c).ring j = (s.ctx c).ring j) ∧ ∀ d, d ≠ c → t.ctx d = s.ctx d)

/-- CONSUMER_INDEX_WRITE: an index that has advanced is written, little-endian and with zeros above, to the device's word of the ring's pair, in host
memory or in the unified range; no other byte of memory changes (R292, R296). A ring whose own word the write meets sees it anew, and no index of the
device's own moves (R269). RING_RATE_DEFER: at the start of a later microsecond the deferral counts once in CTX_THROTTLE.N and the count of taken
indices starts again; with RING_RATE above zero and one ring deferred, its index word is taken (R298). Completes (exec answers next with the command's
own effect): CONSUMER_INDEX_WRITE, RING_RATE_DEFER. -/
def Obligations.RingIndexWords : Prop :=
  (∀ (c k : Nat) (s : State), c < 1024 → k < 5 → (s.ctx c).state ≠ 0 →
     let r := (s.ctx c).ring k
     let a := r.ownWord k
     r.own ≠ r.written →
     (spaceOf a = .host → hostReach s s.weave.cur.sects a 8 = true →
       ∃ t, exec (.consumerIndexWrite c k) s = .next t ∧ Only [.host, .hps, .ctxs] s t ∧
         mread t.host a 8 = natLE 8 r.own.toNat ∧ (∀ b, b < a ∨ a + 8 ≤ b → mget t.host b = mget s.host b) ∧
         (t.ctx c).ring k = { r with written := r.own } ∧ ∀ j, j ≠ k → (t.ctx c).ring j = (s.ctx c).ring j) ∧
     (spaceOf a = .uni → Backed s a 8 →
       ∃ t, exec (.consumerIndexWrite c k) s = .next t ∧ Only (writeParts ++ [.ctxs]) s t ∧ t.host = s.host ∧
         mread t.uni a 8 = natLE 8 r.own.toNat ∧ (∀ b, b < a ∨ a + 8 ≤ b → mget t.uni b = mget s.uni b) ∧
         (∀ n, (t.core n).scratch = (s.core n).scratch) ∧ ((t.ctx c).ring k).written = r.own ∧ ((t.ctx c).ring k).own = r.own ∧
         ∀ d, d ≠ c → RingsSeen (s.ctx d) (t.ctx d))) ∧
  (∀ (c k : Nat) (w : BitVec 64) (s : State), c < 1024 → k < 5 → ((s.ctx c).ring k).deferred = some w →
     (∀ j, j ≠ k → ((s.ctx c).ring j).deferred = none) → (s.ctx c).takenUs < usOf s → 0 < (limitsOf s s.weave.cur.sects).ring →
     let r := (s.ctx c).ring k
     let seen : BitVec 32 := BitVec.ofNat 32 w.toNat
     w.toNat < 2 ^ 32 → idxDist seen r.own ≤ r.n →
     ∃ t, exec (.ringRateDefer c) s = .next t ∧ Only [.ctxs, .tallies] s t ∧ ((t.ctx c).ring k).other = seen ∧
       ((t.ctx c).ring k).deferred = none ∧ ((t.ctx c).ring k).own = r.own ∧ (t.ctx c).takenUs = usOf s ∧ (t.ctx c).taken = 1 ∧
       bitsOf (tget d0 (t.ctx c).ctr 0x0E8).toNat 0 32 = min (bitsOf (tget d0 (s.ctx c).ctr 0x0E8).toNat 0 32 + 1) (2 ^ 32 - 1) ∧
       ∀ d, d ≠ c → t.ctx d = s.ctx d)

/-- COMPLETION_RECORD_RELEASE and COMPLETION_WRITE_RETRY: with room in the completion ring, the oldest record held for the context is written to the next
slot and the producer word follows; the record is no longer held (R89, R297). Where a completion record goes: on a reachable host completion ring, its
32 bytes stand in the slot of the producer index, and the producer word holds the next index (R88, R297). Completes (exec answers next with the
command's own effect): COMPLETION_RECORD_RELEASE, COMPLETION_WRITE_RETRY. -/
def Obligations.CompletionRecords : Prop :=
  ((∀ (n c : Nat) (x : Comp) (s : State), n < 800 → c < 1024 →
     let r := (s.ctx c).ring 5
     compRoom s c = true → compReach s c = true → (s.ctx c).comps = [] → (s.core n).comps.find? (fun y => y.ctx == c) = some x →
     ∃ t, exec (.completionRecordRelease n c) s = .next t ∧ Only reportParts s t ∧ ((t.ctx c).ring 5).own = r.own + 1 ∧
       ((t.ctx c).ring 5).written = r.own + 1 ∧ (t.core n).comps = (s.core n).comps.erase x ∧
       (∀ m, m ≠ n → (t.core m).comps = (s.core m).comps)) ∧
   (∀ (c : Nat) (x : Comp) (xs : List Comp) (s : State), c < 1024 → ((s.ctx c).ring 5).retry = true → (s.ctx c).comps = x :: xs →
     compRoom (s.modCtx c (fun y => y.modRing 5 (fun r => { r with retry := false }))) c = true → compReach s c = true →
     ∃ t, exec (.completionWriteRetry c) s = .next t ∧ Only reportParts s t ∧
       ((t.ctx c).ring 5).own = ((s.ctx c).ring 5).own + 1 ∧ ((t.ctx c).ring 5).retry = false ∧ (t.ctx c).comps = xs)) ∧
  (∀ (c : Nat) (x : Comp) (xs : List Comp) (s : State), c < 1024 → ((s.ctx c).ring 5).retry = true → (s.ctx c).comps = x :: xs →
     compRoom (s.modCtx c (fun y => y.modRing 5 (fun r => { r with retry := false }))) c = true → compReach s c = true →
     x.bytes.length = 32 →
     let r := (s.ctx c).ring 5
     let a := r.addr + r.own.toNat % r.n * 32
     spaceOf a = .host → spaceOf r.pair = .host → (a + 32 ≤ r.pair ∨ r.pair + 8 ≤ a) → hostReach s s.weave.cur.sects r.pair 8 = true →
     ∃ t, exec (.completionWriteRetry c) s = .next t ∧ mread t.host a 32 = x.bytes ∧ mread t.host r.pair 8 = natLE 8 (r.own + 1).toNat ∧
       (∀ b, (b < a ∨ a + 32 ≤ b) → (b < r.pair ∨ r.pair + 8 ≤ b) → mget t.host b = mget s.host b) ∧ t.uni = s.uni)

/-! ### The queues of a core (05, 14) -/

/-- RECORD_DELIVERY: a record that passes the intake's checks goes to the end of its slot's queue on its core, a record that fails them is refused and
goes to no queue; a record the intake holds comes first (R90, R91, R100). Completes (exec answers next with the command's own effect):
RECORD_DELIVERY. -/
def Obligations.RecordIsDelivered : Prop :=
  (∀ (d c i : Nat) (r : Rec) (rest : List Rec) (s : State), d < 8 → c < 1024 → tget dL s.dieHeld (heldKey d c) = [] →
    (s.ctx c).intake = r :: rest → intakeDie r = d → intakeCheck s r = none → slotFenced s r.coreN r.ctx = false →
    (s.core r.coreN).residentSlot r.ctx = some i → hasRoom (s.core r.coreN) r.eng i = true →
    ∃ t, exec (.recordDelivery d c) s = .next t ∧ Only [.ctxs, .cores] s t ∧ (t.ctx c).intake = rest ∧
      (t.core r.coreN).queue r.eng i = (s.core r.coreN).queue r.eng i ++ [r] ∧ (∀ n, n ≠ r.coreN → t.core n = s.core n) ∧
      (∀ e j, e < 4 → j < 32 → i < 32 → (e, j) ≠ (r.eng, i) → (t.core r.coreN).queue e j = (s.core r.coreN).queue e j)) ∧
  (∀ (d c i : Nat) (r : Rec) (s : State), d < 8 → c < 1024 → firstHeld s [] (tget dL s.dieHeld (heldKey d c)) = some r →
    intakeCheck s r = none → slotFenced s r.coreN r.ctx = false → (s.core r.coreN).residentSlot r.ctx = some i →
    ∃ t, exec (.recordDelivery d c) s = .next t ∧ Only [.dieHeld, .cores] s t ∧
      tget dL t.dieHeld (heldKey d c) = (tget dL s.dieHeld (heldKey d c)).erase r ∧
      (t.core r.coreN).queue r.eng i = (s.core r.coreN).queue r.eng i ++ [r]) ∧
  (∀ (d c : Nat) (x : Refuse) (r : Rec) (rest : List Rec) (s : State), d < 8 → c < 1024 → tget dL s.dieHeld (heldKey d c) = [] →
    (s.ctx c).intake = r :: rest → intakeDie r = d → intakeCheck s r = some x →
    ∃ t, exec (.recordDelivery d c) s = .next t ∧ Only reportParts s t ∧ (t.ctx c).intake = rest ∧
      (∀ n e i, (t.core n).queue e i = (s.core n).queue e i))

/-- DROVER_SELECT: of the heads that are eligible the pick of R94 is issued: it leaves its queue and runs on the engine (R93, R94). COMMAND_COMPLETE: the
oldest command of an engine whose last write is acknowledged ends and runs no more; every other running command of every core goes on, and every queue
stands (R89). Completes (exec answers next with the command's own effect): DROVER_SELECT, COMMAND_COMPLETE. -/
def Obligations.CommandsIssueAndComplete : Prop :=
  (∀ (n e i : Nat) (r : Rec) (q : List Rec) (s s2 : State), n < 800 → e < 4 →
     let s1 := (List.range 32).foldl (checkHead e n) s
     canAccept (s1.core n) e = true → droverPick s1 n e = some (i, s2) → (s2.core n).queue e i = r :: q → issueCheck s2 n i r = .ok () →
     ∃ t x, exec (.droverSelect n e) s = .next t ∧ Only (reportParts ++ [.hub2]) s t ∧
       (t.core n).running = (s1.core n).running ++ [x] ∧ x.rec' = r ∧ x.eng = e ∧ x.slot = i ∧ x.core = n ∧ x.issued = s1.time ∧
       x.done = false ∧ (t.core n).queue e i = q ∧ (∀ m, m ≠ n → t.core m = s1.core m)) ∧
  (∀ (n e : Nat) (r : Running) (s : State), n < 800 → e < 4 → completable s n e = some r →
     ∃ t, exec (.commandComplete n e) s = .next t ∧ Only (reportParts ++ [.hub2]) s t ∧
       (t.core n).running = (s.core n).running.filter (fun x => x.start != r.start) ∧
       (∀ m, m ≠ n → (t.core m).running = (s.core m).running) ∧ ∀ m, (t.core m).queues = (s.core m).queues)

/-- NOP, SIGNAL and WAIT take no engine time: the ready head leaves its queue, once its own effect is made (R79, R87, R272); a SIGNAL where no change of
generation holds its word at the bridge (R31). A WAIT whose condition does not hold yet is watched and stays at the head. The word a SIGNAL stores or
adds to in reachable host memory: a store leaves the value, an add the counter's saturating sum of R274, and no other byte of memory changes but the
completion record's (stated of the signal's own write). Completes (exec answers next with the command's own effect): NOP, SIGNAL, WAIT. -/
def Obligations.PlainHeadsAndSignals : Prop :=
  ((∀ (n e i : Nat) (r : Rec) (s : State), n < 800 → e < 4 →
     let s1 := (List.range 32).foldl (checkHead e n) s
     plainHead s1 n e 0x00 (fun _ => false) = some (i, r) →
     ∃ t, exec (.nop n e) s = .next t ∧ Only reportParts s t ∧ (t.core n).queue e i = ((s1.core n).queue e i).drop 1 ∧
       (t.core n).running = (s1.core n).running) ∧
   (∀ (n e i : Nat) (r : Rec) (s : State), n < 800 → e < 4 →
     let s1 := (List.range 32).foldl (checkHead e n) s
     plainHead s1 n e 0x40 (fun r => !sigAcked r.bytes) = some (i, r) → foldAt s1 (sigAddr r.bytes) = none →
     bridgeHolds s1 (.core n) (sigAddr r.bytes) 8 = false →
     ∃ t, exec (.signal n e) s = .next t ∧ Only reportParts s t ∧ (t.core n).queue e i = ((s1.core n).queue e i).drop 1 ∧
       (t.core n).running = (s1.core n).running) ∧
   (∀ (n e i : Nat) (r : Rec) (s : State), n < 800 → e < 4 →
     let s1 := (List.range 32).foldl (checkHead e n) s
     let a := sigAddr r.bytes
     plainHead s1 n e 0x41 (fun _ => false) = some (i, r) → devFault s1 a 8 = none →
     (waitHolds (waitCond r.bytes) (devWord s1 a) (sigValue r.bytes) = true →
       ∃ t, exec (.wait n e) s = .next t ∧ Only reportParts s t ∧ (t.core n).queue e i = ((s1.core n).queue e i).drop 1) ∧
     (waitHolds (waitCond r.bytes) (devWord s1 a) (sigValue r.bytes) = false →
       ∃ t w, exec (.wait n e) s = .next t ∧ Only reportParts s t ∧ (t.core n).waits = (s1.core n).waits ++ [w] ∧ w.rec' = r ∧ w.slot = i ∧
         w.eng = e ∧ w.start = s1.time ∧ w.last = devWord s1 a ∧ w.met = false ∧ (t.core n).queue e i = (s1.core n).queue e i))) ∧
  (∀ (b : By) (a op : Nat) (v : BitVec 64) (s : State), spaceOf a = .host → hostReach s s.weave.cur.sects a 8 = true →
     let x := applySignal s b a op v
     mread x.2.host a 8 = natLE 8 (if op = 0 then v else counterAdd (devWord s a) v).toNat ∧
       (∀ y, y < a ∨ a + 8 ≤ y → mget x.2.host y = mget s.host y) ∧ x.2.uni = s.uni ∧
       (x.1.1 = stDone ∨ (op ≠ 0 ∧ x.1.1 = stClamped)) ∧ Only [.host, .hps, .tallies] s x.2)

/-- WAIT_EVALUATION and WAIT_TIMEOUT end a watched WAIT whose last evaluation held, and whose TIMEOUT has passed: it leaves its queue and is watched no
more; a WAIT without a limit, or before it, goes on, with nothing changed (R87, R269, log 1). POLL_INTERVAL_EXPIRY and LINE_INVALIDATION: what the
host has stored stands in host memory, and every polled word, once the interval of HUB_SYNCPOLL has passed since the last reading, or every word
watched in the line, that can be read is evaluated again (R269, R270). Completes (exec answers next with the command's own effect): WAIT_EVALUATION,
POLL_INTERVAL_EXPIRY, LINE_INVALIDATION, WAIT_TIMEOUT. -/
def Obligations.WatchedWaits : Prop :=
  ((∀ (n e c : Nat) (w : Waiting) (s : State), n < 800 → e < 4 → c < 1024 → findWait (s.core n) e c = some w → w.fault = 0 → w.met = true →
     ∃ t, exec (.waitEvaluation n e c) s = .next t ∧ Only reportParts s t ∧
       (t.core n).queue w.eng w.slot = ((s.core n).queue w.eng w.slot).drop 1 ∧
       ∀ x ∈ (t.core n).waits, ¬(x.eng = w.eng ∧ x.slot = w.slot)) ∧
   (∀ (n e c : Nat) (w : Waiting) (s : State), n < 800 → e < 4 → c < 1024 → findWait (s.core n) e c = some w →
     waitTimeout w.rec'.bytes ≠ 0 → w.start.toNat + 1000 * waitTimeout w.rec'.bytes ≤ s.time.toNat →
     ∃ t, exec (.waitTimeout n e c) s = .next t ∧ Only reportParts s t ∧
       (t.core n).queue w.eng w.slot = ((s.core n).queue w.eng w.slot).drop 1 ∧
       ∀ x ∈ (t.core n).waits, ¬(x.eng = w.eng ∧ x.slot = w.slot)) ∧
   (∀ (n e c : Nat) (w : Waiting) (s : State), n < 800 → e < 4 → c < 1024 → findWait (s.core n) e c = some w →
     (waitTimeout w.rec'.bytes = 0 ∨ s.time.toNat < w.start.toNat + 1000 * waitTimeout w.rec'.bytes) →
     exec (.waitTimeout n e c) s = .next s)) ∧
  ((∀ (l : List (Nat × Byte)) (s : State) (p : Waiting → Bool) (cmd : Instr),
     (cmd = .pollIntervalExpiry l ∧ s.hub2.polledAt.toNat + 1000 * s.hub2.syncpoll.toNat ≤ s.time.toNat ∧ p = (fun w => decide (w.how = .polled)) ∨
       ∃ k, cmd = .lineInvalidation k l ∧ p = (fun w => decide (w.how = .cached) && sigAddr w.rec'.bytes / 64 == k)) →
     ∃ t, exec cmd s = .next t ∧ Only ([.host, .cores, .ctxs, .hub2] ++ readParts) s t ∧ t.host = (hostStores s l).host ∧ CtxsSeen s t ∧
       ∀ n w, w ∈ (s.core n).waits → p w = true → w.met = false → w.fault = 0 → spaceOf (sigAddr w.rec'.bytes) = .host →
         devFault s (sigAddr w.rec'.bytes) 8 = none →
         ∃ w' ∈ (t.core n).waits, w'.rec' = w.rec' ∧ w'.slot = w.slot ∧ w'.eng = w.eng ∧ w'.how = w.how ∧
           w'.last = devWord (hostStores s l) (sigAddr w.rec'.bytes) ∧
           w'.met = waitHolds (waitCond w.rec'.bytes) w'.last (sigValue w.rec'.bytes)) ∧
   (∀ (l : List (Nat × Byte)) (s : State), s.time.toNat < s.hub2.polledAt.toNat + 1000 * s.hub2.syncpoll.toNat →
     exec (.pollIntervalExpiry l) s = .next (hostStores s l)))

/-- CORE_STATE_REQ, SERVICE_STATE_ADOPT and SCRATCHPAD_WRITEBACK. A request only stores REQ; between commands the core takes it, with Tally 0x042 in its
ring; the oldest corrected word of the scratchpad is written back and good again (R68, R74). CORE_TEST: a pass requests NORMAL for a core still in the
state in which its test began; a failure keeps the core out of NORMAL, proposes its retirement and raises a Hurdle on it, in a free entry; stated for
a core that holds no command (R69, R382). Completes (exec answers next with the command's own effect): CORE_STATE_REQ, SERVICE_STATE_ADOPT,
SCRATCHPAD_WRITEBACK, CORE_TEST. -/
def Obligations.CoreServiceStates : Prop :=
  ((∀ (who : Party) (n : Nat) (q : BitVec 2) (s : State), n < 800 → Admitted s who .admin →
     ∃ t, exec (.coreStateReq who n q) s = .next t ∧ Only [.cores] s t ∧ t.core n = { s.core n with req := q, fwReq := false } ∧
       ∀ m, m ≠ n → t.core m = s.core m) ∧
   (∀ (n : Nat) (s : State), n < 800 → (s.core n).req ≠ (s.core n).serv → (s.core n).running = [] →
     ∃ t, exec (.serviceStateAdopt n) s = .next t ∧ Only [.cores, .tallies] s t ∧ (t.core n).serv = (s.core n).req ∧
       (t.core n).queues = (s.core n).queues ∧ (t.core n).scratch = (s.core n).scratch ∧ (∀ m, m ≠ n → t.core m = s.core m) ∧
       (∃ x, (t.tally n).fresh = (s.tally n).fresh ++ [x] ∧ x.code = 0x042 ∧
         x.payload.toNat = (s.core n).req.toNat + 16 * (s.core n).serv.toNat) ∧ ∀ u, u ≠ n → t.tally u = s.tally u) ∧
   (∀ (n w : Nat) (ws : List Nat) (s : State), n < 800 → (s.core n).wback = w :: ws →
     ∃ t, exec (.scratchpadWriteback n) s = .next t ∧ Only [.cores] s t ∧ (t.core n).wback = ws ∧ tget d0 (t.core n).bad w = 0 ∧
       (∀ v, v ≠ w → tget d0 (t.core n).bad v = tget d0 (s.core n).bad v) ∧ (t.core n).scratch = (s.core n).scratch ∧
       ∀ m, m ≠ n → t.core m = s.core m)) ∧
  ((∀ (n : Nat) (s : State), n < 800 → testable s n = true → (s.core n).testing = some (s.core n).serv →
     ∃ t, exec (.coreTest n true) s = .next t ∧ Only [.cores] s t ∧ (t.core n).req = 0 ∧ (t.core n).testing = none ∧ (t.core n).untrusted = false ∧
       (t.core n).serv = (s.core n).serv ∧ ∀ m, m ≠ n → t.core m = s.core m) ∧
   (∀ (n i : Nat) (s : State), n < 800 → testable s n = true → unitFenced s 1 n = false → freeEntry s = some i →
     (s.core n).running = [] → (s.core n).queues = [] →
     ∃ t, exec (.coreTest n false) s = .next t ∧ (t.core n).untrusted = true ∧ t.hub2.propose = true ∧ (t.hurdle i).busy = true ∧
       (t.hurdle i).kind = 5 ∧ (t.hurdle i).target.toNat = 1 + 256 * n ∧ ∀ j, j ≠ i → t.hurdle j = s.hurdle j))

/-- CORE_SLOT: an admitted write of a slot other than 0 that names a context no other slot of the core holds gives the slot that context with the clamped
WEIGHT and LEN; a write to slot 0, of context 0, or of a context another slot holds is ignored (R92, R102). Completes (exec answers next with the
command's own effect): CORE_SLOT. -/
def Obligations.CoreSlotWrite : Prop :=
  (∀ (who : Party) (n i : Nat) (v : BitVec 64) (s : State), n < 800 → i < 32 → Admitted s who .admin → i ≠ 0 →
    let x := (s.core n).slot i
    bitsOf v.toNat 48 10 ≠ 0 → bitOf v.toNat 63 = true → x.valid = false → x.drain = false →
    (∀ j, j < 32 → j ≠ i → ((s.core n).slot j).valid = true ∨ ((s.core n).slot j).drain = true → ((s.core n).slot j).ctx.toNat ≠ bitsOf v.toNat 48 10) →
    ∃ t, exec (.coreSlot who n i v) s = .next t ∧ Only [.cores] s t ∧ ((t.core n).slot i).valid = true ∧
      ((t.core n).slot i).ctx.toNat = bitsOf v.toNat 48 10 ∧ ((t.core n).slot i).weight.toNat = max 1 (bitsOf v.toNat 40 4) ∧
      ((t.core n).slot i).wlen.toNat = min 64 (max 1 (bitsOf v.toNat 16 7)) ∧ ((t.core n).slot i).wbase.toNat = bitsOf v.toNat 0 6 ∧
      (∀ j, j ≠ i → (t.core n).slot j = (s.core n).slot j) ∧ (t.core n).queues = (s.core n).queues ∧
      (t.core n).running = (s.core n).running ∧ ∀ m, m ≠ n → t.core m = s.core m) ∧
  (∀ (who : Party) (n i : Nat) (v : BitVec 64) (s : State), n < 800 → i < 32 → Admitted s who .admin →
    (i = 0 ∨ bitsOf v.toNat 48 10 = 0 ∨ bitOf v.toNat 63 = true ∧ ∃ j, j < 32 ∧ j ≠ i ∧ ((s.core n).slot j).valid = true ∧
      ((s.core n).slot j).ctx.toNat = bitsOf v.toNat 48 10) →
    ∃ t, exec (.coreSlot who n i v) s = .next t ∧ Only [.cores] s t ∧ ∀ m, t.core m = s.core m)

/-! ### Contexts, Hurdles, Folds (14, 15) -/

/-- CREATE sets every register of a FREE context's entry to its reset value but CTX_CFG, CTX_PARTS, CTX_RO0 and CTX_RO1; those four are written by
software while the context is FREE, and a write of them while it is LIVE or DYING is ignored (R289). Completes (exec answers next with the command's
own effect): CREATE, REGISTER_WRITE. -/
def Obligations.CreateSetsRegisters : Prop :=
  (∀ (who : Party) (c : Nat) (s : State), c < 1024 → c ≠ 0 → Admitted s who .admin → Admitted s who (.ctx c) → (s.ctx c).state = 0 →
    ∃ t, exec (.create who c) s = .next t ∧ Only [.ctxs, .tallies] s t ∧
      t.ctx c = { State.reset.ctx c with state := 1, kind := (s.ctx c).kind, parts := (s.ctx c).parts, ro0 := (s.ctx c).ro0, ro1 := (s.ctx c).ro1 } ∧
      ∀ d, d ≠ c → t.ctx d = s.ctx d) ∧
  (∀ (who : Party) (c : Nat) (v : BitVec 64) (s : State), c < 1024 → c ≠ 0 → Admitted s who .admin → Admitted s who (.ctx c) →
    let a := 0x4000000 + 0x1000 * c
    ((s.ctx c).state = 0 →
      (∃ t, exec (.registerWrite who (a + 0xD0) 8 v) s = .next t ∧ Only [.ctxs] s t ∧ t.ctx c = { s.ctx c with parts := v } ∧ ∀ d, d ≠ c → t.ctx d = s.ctx d) ∧
      (∃ t, exec (.registerWrite who (a + 0xD8) 8 v) s = .next t ∧ Only [.ctxs] s t ∧ t.ctx c = { s.ctx c with ro0 := v } ∧ ∀ d, d ≠ c → t.ctx d = s.ctx d) ∧
      (∃ t, exec (.registerWrite who (a + 0xE0) 8 v) s = .next t ∧ Only [.ctxs] s t ∧ t.ctx c = { s.ctx c with ro1 := v } ∧ ∀ d, d ≠ c → t.ctx d = s.ctx d) ∧
      ∃ t, exec (.registerWrite who (a + 0xC8) 4 v) s = .next t ∧ Only [.ctxs] s t ∧
        (v.toNat % 4 ≤ 1 → t.ctx c = { s.ctx c with kind := BitVec.ofNat 2 (v.toNat % 4) }) ∧ ∀ d, d ≠ c → t.ctx d = s.ctx d) ∧
    ((s.ctx c).state ≠ 0 → ∀ o ∈ [a + 0xC8, a + 0xD0, a + 0xD8, a + 0xE0],
      exec (.registerWrite who o 8 v) s = .next s ∧ exec (.registerWrite who o 4 v) s = .next s ∧ exec (.registerWrite who (o + 4) 4 v) s = .next s))

/-- CREATE makes a FREE context LIVE, with its rings disabled, its serving registers at their reset values, and CTX_CFG, CTX_PARTS and CTX_RO kept;
context 0 and a context that is not FREE are refused and keep their state (R288, R289). DESTROY makes a LIVE context DYING, which is fenced;
DESTROY_COMPLETE frees the context once nothing of it is left, with its rings disabled, its slots and Folds invalid and its manifests gone (R288,
R290). Completes (exec answers next with the command's own effect): CREATE, DESTROY, DESTROY_COMPLETE. -/
def Obligations.ContextLifecycle : Prop :=
  ((∀ (who : Party) (c : Nat) (s : State), c < 1024 → c ≠ 0 → Admitted s who .admin → Admitted s who (.ctx c) → (s.ctx c).state = 0 →
     ∃ t, exec (.create who c) s = .next t ∧ Only [.ctxs, .tallies] s t ∧ (t.ctx c).state = 1 ∧ (t.ctx c).result = stDone ∧
       (t.ctx c).kind = (s.ctx c).kind ∧ (t.ctx c).parts = (s.ctx c).parts ∧ (t.ctx c).ro0 = (s.ctx c).ro0 ∧ (t.ctx c).ro1 = (s.ctx c).ro1 ∧
       (∀ k, ((t.ctx c).ring k).en = false) ∧ (t.ctx c).maxreq = 256 ∧ (t.ctx c).chunk = 256 ∧ (t.ctx c).tokbud = 512 ∧
       (t.ctx c).requests = [] ∧ (∀ d, d ≠ c → t.ctx d = s.ctx d) ∧
       (∃ x, (t.tally uHub).fresh = (s.tally uHub).fresh ++ [x] ∧ x.code = 0x0B4 ∧ x.payload.toNat = c + 2 ^ 10) ∧
       ∀ u, u ≠ uHub → t.tally u = s.tally u) ∧
   (∀ (who : Party) (c : Nat) (s : State), c < 1024 → Admitted s who .admin → Admitted s who (.ctx c) → (c = 0 ∨ (s.ctx c).state ≠ 0) →
     ∃ t, exec (.create who c) s = .next t ∧ Only [.ctxs] s t ∧ (t.ctx c).state = (s.ctx c).state ∧
       (t.ctx c).result = (if c = 0 then stPrivilege else stMode) ∧ (t.ctx c).rings = (s.ctx c).rings ∧ ∀ d, d ≠ c → t.ctx d = s.ctx d)) ∧
  ((∀ (who : Party) (c : Nat) (s : State), c < 1024 → c ≠ 0 → Admitted s who .admin → Admitted s who (.ctx c) → (s.ctx c).state = 1 →
     ∃ t, exec (.destroy who c) s = .next t ∧ (t.ctx c).state = 2 ∧ ctxFenced t c = true) ∧
   (∀ (c : Nat) (s : State), c < 1024 → c ≠ 0 → (s.ctx c).state = 2 → ctxQuiet s c = true →
     ∃ t, exec (.destroyComplete c) s = .next t ∧ Only [.ctxs, .cores, .folds, .manifests, .tallies] s t ∧ (t.ctx c).state = 0 ∧
       (t.ctx c).result = stDone ∧ (∀ k, ((t.ctx c).ring k).en = false) ∧ (t.ctx c).comps = [] ∧
       (∀ m ∈ t.manifests, m.ctx ≠ c) ∧ (∀ m ∈ s.manifests, m.ctx ≠ c → m ∈ t.manifests) ∧
       (∀ k, (t.fold k).ctx.toNat = c → (t.fold k).valid = false) ∧ (∀ k, (s.fold k).ctx.toNat ≠ c → t.fold k = s.fold k) ∧
       (∀ n i, 0 < i → i < 32 → ((t.core n).slot i).ctx.toNat = c → ((t.core n).slot i).valid = false ∧ ((t.core n).slot i).drain = false) ∧
       (∀ n, (t.core n).scratch = (s.core n).scratch ∧ (t.core n).queues = (s.core n).queues) ∧ ∀ d, d ≠ c → t.ctx d = s.ctx d))

/-- CTX_SERVE stores HOLD, MAXREQ, CHUNK and TOKBUD under their clamps: TOKBUD from 32 to 8,192 and not below the requests running, MAXREQ from 1 to
TOKBUD, CHUNK a multiple of 32 from 32 to 4,096 (R302, R314). SERVING_STEP: each request still reading its prompt reads one chunk of it, in admission
order and within the budget; stated where nothing waits for admission, no request decodes, and the chunk's tokens can be read (R302, R303). Completes
(exec answers next with the command's own effect): SERVING_STEP, CTX_SERVE. -/
def Obligations.Serving : Prop :=
  (∀ (who : Party) (c : Nat) (v : BitVec 64) (s : State), c < 1024 → Admitted s who (.ctx c) → (s.ctx c).requests.length ≤ 8192 →
     ∃ t, exec (.ctxServe who c v) s = .next t ∧ Only [.ctxs] s t ∧
       (t.ctx c).hold = bitOf v.toNat 63 ∧ 32 ≤ (t.ctx c).tokbud.toNat ∧ (t.ctx c).tokbud.toNat ≤ 8192 ∧
       (s.ctx c).requests.length ≤ (t.ctx c).tokbud.toNat ∧ 1 ≤ (t.ctx c).maxreq.toNat ∧ (t.ctx c).maxreq.toNat ≤ (t.ctx c).tokbud.toNat ∧
       32 ≤ (t.ctx c).chunk.toNat ∧ (t.ctx c).chunk.toNat ≤ 4096 ∧ (t.ctx c).chunk.toNat % 32 = 0 ∧
       (32 ≤ bitsOf v.toNat 0 14 → bitsOf v.toNat 0 14 ≤ 8192 → (s.ctx c).requests.length ≤ bitsOf v.toNat 0 14 →
         (t.ctx c).tokbud.toNat = bitsOf v.toNat 0 14) ∧
       (t.ctx c).requests = (s.ctx c).requests ∧ (t.ctx c).rings = (s.ctx c).rings ∧ ∀ d, d ≠ c → t.ctx d = s.ctx d) ∧
  (∀ (c : Nat) (q : Request) (s : State), c < 1024 → (s.ctx c).state = 1 → (s.ctx c).kind = 1 → ctxFenced s c = false → fwServes s c = true →
     (s.ctx c).reqs = [] → (s.ctx c).requests = [q] → q.read < rqPromptLen q.rec'.bytes →
     let k := min q.chunk (rqPromptLen q.rec'.bytes - q.read)
     k ≤ (s.ctx c).tokbud.toNat → devFault s (rqPrompt q.rec'.bytes + 4 * q.read) (4 * k) = none → (q.read + k < rqPromptLen q.rec'.bytes ∨ rqMaxNew q.rec'.bytes ≠ 0) →
     ∃ t, exec (.servingStep c []) s = .next t ∧ Only (.ctxs :: readParts) s t ∧ (t.ctx c).requests = [{ q with read := q.read + k }] ∧
       ∀ d, d ≠ c → t.ctx d = s.ctx d)

/-- RAISE, QUIESCED and LIFT of a Hurdle. RAISE puts an unfenced target of a free entry behind it; QUIESCED is set once R284 holds; LIFT of a quiesced
Hurdle frees the entry, and LIFT before that waits for it (R283 to R286). What RAISE and LIFT refuse: a TARGET outside the range of its KIND, context
0 or the port that writes (DESCRIPTOR), a party already fenced (ALIAS), and LIFT of a free entry (MODE); RAISE on a busy entry changes nothing (R283,
R286). Completes (exec answers next with the command's own effect): RAISE, LIFT, QUIESCED. -/
def Obligations.Hurdles : Prop :=
  ((∀ (who : Party) (i : Nat) (kind : BitVec 3) (target : BitVec 32) (s : State), i < 16 → Admitted s who .hub → (s.hurdle i).busy = false →
     targetOk who kind.toNat target.toNat = true → hurdled s kind.toNat target.toNat = false →
     ∃ t, exec (.raise who i kind target) s = .next t ∧ (t.hurdle i).busy = true ∧ (t.hurdle i).quiesced = false ∧
       (t.hurdle i).kind = kind ∧ (t.hurdle i).target = target ∧ (t.hurdle i).result = stDone ∧
       hurdled t kind.toNat target.toNat = true ∧ ∀ j, j ≠ i → t.hurdle j = s.hurdle j) ∧
   (∀ (i : Nat) (s : State), i < 16 → (s.hurdle i).busy = true → (s.hurdle i).quiesced = false → (s.hurdle i).lifting = false →
     partyQuiet s (s.hurdle i).kind.toNat (s.hurdle i).target.toNat = true →
     ∃ t, exec (.quiesced i) s = .next t ∧ Only [.hurdles, .tallies] s t ∧ t.hurdle i = { s.hurdle i with quiesced := true } ∧
       (∀ j, j ≠ i → t.hurdle j = s.hurdle j) ∧ (∃ x, (t.tally uHub).fresh = (s.tally uHub).fresh ++ [x] ∧ x.code = 0x0A4)) ∧
   (∀ (who : Party) (i : Nat) (s : State), i < 16 → Admitted s who .hub → (s.hurdle i).busy = true → (s.hurdle i).quiesced = true →
     s.hub2.wanted = [] →
     ∃ t, exec (.lift who i) s = .next t ∧ (t.hurdle i).busy = false ∧ (t.hurdle i).quiesced = false ∧ (t.hurdle i).result = stDone ∧
       ∀ j, j ≠ i → t.hurdle j = s.hurdle j) ∧
   (∀ (who : Party) (i : Nat) (s : State), i < 16 → Admitted s who .hub → (s.hurdle i).busy = true → (s.hurdle i).quiesced = false →
     ∃ t, exec (.lift who i) s = .next t ∧ Only [.hurdles] s t ∧ t.hurdle i = { s.hurdle i with lifting := true } ∧
       ∀ j, j ≠ i → t.hurdle j = s.hurdle j)) ∧
  (∀ (who : Party) (i : Nat) (kind : BitVec 3) (target : BitVec 32) (s : State), i < 16 → Admitted s who .hub →
     ((s.hurdle i).busy = true → exec (.raise who i kind target) s = .next s) ∧
     ((s.hurdle i).busy = false → targetOk who kind.toNat target.toNat = false →
       ∃ t, exec (.raise who i kind target) s = .next t ∧ Only [.hurdles] s t ∧ (t.hurdle i).busy = false ∧ (t.hurdle i).result = stDescriptor ∧
         ∀ j, j ≠ i → t.hurdle j = s.hurdle j) ∧
     ((s.hurdle i).busy = false → targetOk who kind.toNat target.toNat = true → hurdled s kind.toNat target.toNat = true →
       ∃ t, exec (.raise who i kind target) s = .next t ∧ Only [.hurdles] s t ∧ (t.hurdle i).busy = false ∧ (t.hurdle i).result = stAlias) ∧
     ((s.hurdle i).busy = false →
       ∃ t, exec (.lift who i) s = .next t ∧ Only [.hurdles] s t ∧ (t.hurdle i).busy = false ∧ (t.hurdle i).result = stMode))

/-- FOLD_CFG and FOLD_MASK. A write of a Fold's configuration takes VALID, CTX and ADDR unless another valid Fold has that ADDR; a mask of a Fold that is
not valid only replaces its half and clears the arrivals outside it (R279, R282, R287). An arrival of a member core at its die's Fold that does not
complete the phase sets the core's bit and nothing else; the arrival of a context or a core that is no member is dropped with MISUSE (R280, R282).
SYNC_REPEAT sends the SYNC of a valid device Fold's latest completed phase again and changes nothing of the Fold (R281). SYNC: the packet of a member
rank for the phase that is open sets the rank's bit in its device Fold, where it does not complete the phase, and one for the phase after it is kept
as early; a rank that is no member is dropped with MISUSE; a fenced rank's packet changes no Fold (R281, R282, R283). Completes (exec answers next
with the command's own effect): SYNC, SYNC_REPEAT, FOLD_CFG, FOLD_MASK. -/
def Obligations.FoldsAndSyncs : Prop :=
  ((∀ (who : Party) (f : FoldId) (v : BitVec 64) (s : State), f.ok = true → Admitted s who (foldArea f) →
     (∀ x ∈ s.folds, x.1 ≠ foldKey f → x.2.valid = true → x.2.addr.toNat ≠ bitsOf v.toNat 6 42) →
     ∃ t, exec (.foldCfg who f v) s = .next t ∧ Only [.folds] s t ∧ (t.fold (foldKey f)).valid = bitOf v.toNat 63 ∧
       (t.fold (foldKey f)).ctx.toNat = bitsOf v.toNat 48 10 ∧ (t.fold (foldKey f)).addr.toNat = bitsOf v.toNat 6 42 ∧
       (t.fold (foldKey f)).mask = (s.fold (foldKey f)).mask ∧ (t.fold (foldKey f)).arr = (s.fold (foldKey f)).arr ∧
       ∀ k, k ≠ foldKey f → t.fold k = s.fold k) ∧
   (∀ (who : Party) (d f : Nat) (high : Bool) (v : BitVec 64) (s : State), d < 8 → f < 64 → Admitted s who .admin →
     (s.fold (foldKey (.die d f))).valid = false →
     let k := foldKey (.die d f)
     ∃ t, exec (.foldMask who (.die d f) high v) s = .next t ∧ Only [.folds] s t ∧
       (∀ i, i < 64 → (t.fold k).mask.getLsbD i = if high then (s.fold k).mask.getLsbD i else v.getLsbD i) ∧
       (∀ i, i < 36 → (t.fold k).mask.getLsbD (64 + i) = if high then v.getLsbD i else (s.fold k).mask.getLsbD (64 + i)) ∧
       (t.fold k).arr = (s.fold k).arr &&& (t.fold k).mask ∧ (t.fold k).early = (s.fold k).early &&& (t.fold k).mask ∧
       ∀ j, j ≠ k → t.fold j = s.fold j)) ∧
  (∀ (k ctx core : Nat) (s : State), k < 512 → core < 800 → (s.fold k).ctx.toNat = ctx →
     ((s.fold k).mask.getLsbD (core % 100) = true → core / 100 = k / 64 → (s.fold k).arr.getLsbD (core % 100) = false →
       (∃ i, i ≠ core % 100 ∧ (s.fold k).mask.getLsbD i = true ∧ (s.fold k).arr.getLsbD i = false) →
       let x := foldArrive s k ctx core 1 1
       x.1 = (stDone, 0) ∧ Only [.folds] s x.2 ∧ (∀ i, i < 100 → (x.2.fold k).arr.getLsbD i = ((s.fold k).arr.getLsbD i || decide (i = core % 100))) ∧
         (x.2.fold k).early = (s.fold k).early ∧ ∀ j, j ≠ k → x.2.fold j = s.fold j) ∧
     (((s.fold k).mask.getLsbD (core % 100) = false ∨ core / 100 ≠ k / 64) →
       let x := foldArrive s k ctx core 1 1
       x.1 = (stPrivilege, 0xFF) ∧ Only [.folds, .tallies] s x.2 ∧ (x.2.fold k).misuse = true ∧ (x.2.fold k).arr = (s.fold k).arr)) ∧
  (∀ (f : Nat) (ph : BitVec 48) (s : State), f < 256 → (s.fold (512 + f)).valid = true → (s.fold (512 + f)).sentPh = some ph →
     ∃ t, exec (.syncRepeat f) s = .next t ∧ Only [.oports, .paths, .accesses] s t ∧ t = sendSync s (512 + f) ph ∧
       t.fold (512 + f) = s.fold (512 + f)) ∧
  (∀ (p : Nat) (k : FabPkt) (s s1 : State), p < 32 → takeFront s p 0x21 = some (k, s1) →
     let f := 512 + bitsOf k.addr.toNat 0 8
     let r := k.src.toNat
     (rankFenced s1 r = true → exec (.sync p) s = .next s1 ∧ s1.folds = s.folds) ∧
     (rankFenced s1 r = false → (s.fold f).valid = true → (s.fold f).mask.getLsbD r = true →
       BitVec.ofNat 48 (bitsOf k.addr.toNat 8 48) = BitVec.ofNat 48 (foldPhase s f).toNat →
       (∃ i, i ≠ r ∧ (s.fold f).mask.getLsbD i = true ∧ (s.fold f).arr.getLsbD i = false) →
       ∃ t, exec (.sync p) s = .next t ∧ Only [.folds, .oports] s t ∧
         (∀ i, i < 100 → (t.fold f).arr.getLsbD i = ((s.fold f).arr.getLsbD i || decide (i = r))) ∧ ∀ j, j ≠ f → t.fold j = s.fold j) ∧
     (rankFenced s1 r = false → (s.fold f).valid = true → (s.fold f).mask.getLsbD r = true →
       BitVec.ofNat 48 (bitsOf k.addr.toNat 8 48) = BitVec.ofNat 48 (foldPhase s f).toNat + 1 →
       ∃ t, exec (.sync p) s = .next t ∧ Only [.folds, .oports] s t ∧ (t.fold f).arr = (s.fold f).arr ∧
         (∀ i, i < 100 → (t.fold f).early.getLsbD i = ((s.fold f).early.getLsbD i || decide (i = r))) ∧ ∀ j, j ≠ f → t.fold j = s.fold j) ∧
     (rankFenced s1 r = false → (s.fold f).mask.getLsbD r = false →
       ∃ t, exec (.sync p) s = .next t ∧ Only [.folds, .oports, .tallies] s t ∧ (t.fold f).misuse = true ∧ (t.fold f).arr = (s.fold f).arr))

/-! ### Host ports and the Gate (16) -/

/-- HOST_LINK_TRAINING brings a port's link up in the mode it trained; HOT_RESET takes it down; the other port's link stays, and so does every queue of a
core; of the contexts only how a ring's word is watched may change (R269, R292, R316, R317). HPX_HDM clamps the window's base to 64 of 256 MiB units
and changes no other register of the port, nor the other port (R322, R329). WINDOW_MOVE: once the map names another port for a window, the window is
served by that port (R325). Completes (exec answers next with the command's own effect): HOST_LINK_TRAINING, HOT_RESET, HPX_HDM, WINDOW_MOVE. -/
def Obligations.HostLinks : Prop :=
  ((∀ (port : Party) (mode : BitVec 2) (speed : BitVec 3) (width : BitVec 5) (s : State), port.isPort = true → s.hub.phase = .running →
     (mode = 1 ∨ mode = 2) →
     ∃ t, exec (.hostLinkTraining port mode speed width) s = .next t ∧ Only ([.cores, .ctxs] ++ readParts) s t ∧
       (t.hp (portNum port)).mode = mode ∧ (t.hp (portNum port)).speed = speed ∧ (t.hp (portNum port)).width = width ∧
       (t.hp (1 - portNum port)).mode = (s.hp (1 - portNum port)).mode ∧ (∀ n, (t.core n).queues = (s.core n).queues) ∧
       ∀ c k, (t.ctx c).ring k = { (s.ctx c).ring k with how := ((t.ctx c).ring k).how }) ∧
   (∀ (port : Party) (s : State), port.isPort = true →
     ∃ t, exec (.hotReset port) s = .next t ∧ Only ([.cores, .ctxs] ++ readParts) s t ∧ (t.hp (portNum port)).mode = 0 ∧
       (t.hp (portNum port)).hdm = (s.hp (portNum port)).hdm ∧ (t.hp (portNum port)).bindV = (s.hp (portNum port)).bindV ∧
       (t.hp (1 - portNum port)).mode = (s.hp (1 - portNum port)).mode ∧ (∀ n, (t.core n).queues = (s.core n).queues) ∧
       ∀ c k, (t.ctx c).ring k = { (s.ctx c).ring k with how := ((t.ctx c).ring k).how })) ∧
  (∀ (who port : Party) (v : BitVec 64) (s : State), port.isPort = true → Admitted s who .admin →
     ∃ t, exec (.hpxHdm who port v) s = .next t ∧ Only [.hps] s t ∧
       t.hp (portNum port) = { s.hp (portNum port) with hdm := (t.hp (portNum port)).hdm } ∧
       (t.hp (portNum port)).hdm.toNat = min 64 (v.toNat % 2 ^ 7) ∧ t.hp (1 - portNum port) = s.hp (1 - portNum port)) ∧
  (∀ (w : Nat) (s : State), w < 16 → tget winDef s.windows w ≠ winNow s w →
     ∃ t, exec (.windowMove w) s = .next t ∧ Only ([.windows, .cores, .ctxs] ++ readParts) s t ∧ tget winDef t.windows w = winNow s w ∧
       (∀ c k, (t.ctx c).ring k = { (s.ctx c).ring k with how := ((t.ctx c).ring k).how }) ∧
       ∀ v, v ≠ w → tget winDef t.windows v = tget winDef s.windows v)

/-- BAR2_ACCESS within a port's rights, with the range ready: a read returns the bytes of the unified range, poisoned where a word is uncorrectable, and
changes no byte; a write outside sealed manifests changes exactly the bytes written (R318, R322, R323). A BAR2_ACCESS that is turned away: through a
fenced port reads return zeros and writes are dropped; outside the port's rights, and before the range is ready, the same, counted in OUTSIDE or
NOTREADY (R283, R318, R323). Completes (exec answers next with the command's own effect): BAR2_ACCESS. -/
def Obligations.Bar2Accesses : Prop :=
  (∀ (port : Party) (off : Nat) (s : State), port.isPort = true →
     let p := portNum port
     let a := (s.hp p).hdm.toNat * 2 ^ 28 + off
     (s.hp p).mode ≠ 0 → s.hub.phase = .running → hurdled s 3 p = false → rangeReady s = true →
     (∀ len, 0 < len → off + len ≤ 2 ^ 40 → bar2Allowed s p a len false = true →
       ∃ t, exec (.bar2Access port off len none) s = .next t ∧ Only ([.bus2, .poisoned] ++ readParts) s t ∧ t.bus2 = uniRead s a len ∧
         t.poisoned = (uniFault s a len).isSome) ∧
     (∀ bs, bs ≠ [] → off + bs.length ≤ 2 ^ 40 → bar2Allowed s p a bs.length true = true → hitsSealed s a bs.length = false →
       Backed s a bs.length →
       ∃ t, exec (.bar2Access port off 0 (some bs)) s = .next t ∧ Only writeParts s t ∧ t.host = s.host ∧ mread t.uni a bs.length = bs ∧
         (∀ b, b < a ∨ a + bs.length ≤ b → mget t.uni b = mget s.uni b) ∧ ∀ n, (t.core n).scratch = (s.core n).scratch)) ∧
  (∀ (port : Party) (off len : Nat) (s : State), port.isPort = true → 0 < len → off + len ≤ 2 ^ 40 → s.hub.phase = .running →
     let p := portNum port
     let a := (s.hp p).hdm.toNat * 2 ^ 28 + off
     (s.hp p).mode ≠ 0 →
     (hurdled s 3 p = true → ∃ t, exec (.bar2Access port off len none) s = .next t ∧ Only [.bus2, .poisoned] s t ∧ t.bus2 = List.replicate len 0) ∧
     (hurdled s 3 p = false → bar2Allowed s p a len false = false →
       ∃ t, exec (.bar2Access port off len none) s = .next t ∧ Only [.bus2, .poisoned, .hps] s t ∧ t.bus2 = List.replicate len 0 ∧
         (t.hp p).outside = stick (s.hp p).outside 1) ∧
     (hurdled s 3 p = false → bar2Allowed s p a len false = true → rangeReady s = false →
       ∃ t, exec (.bar2Access port off len none) s = .next t ∧ Only [.bus2, .poisoned, .hps] s t ∧ t.bus2 = List.replicate len 0 ∧
         (t.hp p).notready = stick (s.hp p).notready 1))

/-- The Gate. ACQUIRE grants a FREE semaphore with the next token, and leaves one that another holds as it was, with ALIAS; RELEASE and RENEW by the owner
with its token free or prolong it; LEASE_EXPIRY makes a lease that has run out EXPIRED, and the owner keeps its token (R326 to R328). Completes (exec
answers next with the command's own effect): ACQUIRE, RELEASE, RENEW, LEASE_EXPIRY. -/
def Obligations.GateSemaphores : Prop :=
  (∀ (who : Party) (i : Nat) (ctx : BitVec 10) (lease : BitVec 12) (s : State), i < 64 → Admitted s who .all → (s.gate i).state = 0 →
    ∃ t, exec (.acquire who i ctx lease) s = .next t ∧ Only [.gates] s t ∧ (t.gate i).state = 1 ∧ (t.gate i).owner = partyCode who ∧
      (t.gate i).octx = actingCtx who ctx ∧ (t.gate i).token = (s.gate i).token + 1 ∧ (t.gate i).lease = lease ∧ (t.gate i).since = s.time ∧
      (t.gate i).result = stDone ∧ (t.gate i).rby = partyCode who ∧ ∀ j, j ≠ i → t.gate j = s.gate j) ∧
  (∀ (who : Party) (i : Nat) (ctx : BitVec 10) (lease : BitVec 12) (s : State), i < 64 → Admitted s who .all →
    ((s.gate i).state = 1 ∨ (s.gate i).state = 2 ∧ ownerFenced s (s.gate i) = false) →
    ∃ t, exec (.acquire who i ctx lease) s = .next t ∧ Only [.gates] s t ∧
      t.gate i = { s.gate i with result := stAlias, rby := partyCode who } ∧ ∀ j, j ≠ i → t.gate j = s.gate j) ∧
  (∀ (who : Party) (i : Nat) (ctx : BitVec 10) (key : BitVec 16) (s : State), i < 64 → Admitted s who .all → (s.gate i).state ≠ 0 →
    (s.gate i).owner = partyCode who → (s.gate i).octx = actingCtx who ctx → key = (s.gate i).token →
    (∃ t, exec (.release who i ctx key) s = .next t ∧ Only [.gates] s t ∧ (t.gate i).state = 0 ∧ (t.gate i).token = (s.gate i).token ∧
      (t.gate i).result = stDone ∧ ∀ j, j ≠ i → t.gate j = s.gate j) ∧
    ∀ lease, ∃ t, exec (.renew who i ctx key lease) s = .next t ∧ Only [.gates] s t ∧ (t.gate i).state = 1 ∧
      (t.gate i).token = (s.gate i).token ∧ (t.gate i).lease = lease ∧ (t.gate i).since = s.time ∧ (t.gate i).owner = (s.gate i).owner ∧
      (t.gate i).result = stDone ∧ ∀ j, j ≠ i → t.gate j = s.gate j) ∧
  (∀ (who : Party) (i : Nat) (ctx : BitVec 10) (key : BitVec 16) (s : State), i < 64 → Admitted s who .all →
    ((s.gate i).state = 0 ∨ (s.gate i).owner ≠ partyCode who) →
    ∃ t, exec (.release who i ctx key) s = .next t ∧ Only [.gates] s t ∧ t.gate i = { s.gate i with result := stPrivilege, rby := partyCode who }) ∧
  (∀ (i : Nat) (s : State), i < 64 → (s.gate i).state = 1 → (s.gate i).lease ≠ 0 →
    (s.gate i).since.toNat + (s.gate i).lease.toNat * 1000000 ≤ s.time.toNat →
    ∃ t, exec (.leaseExpiry i) s = .next t ∧ Only [.gates, .tallies] s t ∧ t.gate i = { s.gate i with state := 2 } ∧
      (∀ j, j ≠ i → t.gate j = s.gate j) ∧
      ∃ x, (t.tally uHub).fresh = (s.tally uHub).fresh ++ [x] ∧ x.code = 0x0C0 ∧ x.payload.toNat = i + 2 ^ 6 * (s.gate i).owner.toNat)

/-- Rights. A register write from a port outside its rights changes nothing but that port's OUTSIDE count; a write from a port that is down or fenced
changes nothing (R283, R315, R318); stated for commands of every area of registers. -/
def Obligations.WritesOutsideRights : Prop :=
  ∀ (who : Party) (a : RegArea) (s : State) (c : Instr),
    ((a = .admin ∧ (c = .stage who ∨ c = .apply who ∨ c = .abort who ∨ c = .persist who ∨ (∃ n q, c = .coreStateReq who n q) ∨
        (∃ n i v, c = .coreSlot who n i v) ∨ (∃ p v, c = .hpxHdm who p v) ∨ ∃ m v, c = .mpRelease who m v)) ∨
      (a = .hub ∧ ((∃ i k g, c = .raise who i k g) ∨ (∃ i, c = .lift who i) ∨ c = .attest who ∨ c = .cert who ∨ c = .fwverify who ∨
        (∃ i, c = .enrol who i) ∨ (∃ i, c = .revoke who i) ∨ c = .fusesvn who ∨ c = .openDebug who ∨ c = .program who ∨
        (∃ m, c = .pulse who m) ∨ ∃ g, c = .activate who g)) ∨
      (∃ x, a = .ctx x ∧ ((∃ k v, c = .ringEnable who x k v) ∨ (∃ k v, c = .ringDisable who x k v) ∨ (∃ v, c = .ctxServe who x v) ∨
        c = .create who x ∨ c = .destroy who x)) ∨
      (a = .all ∧ ((∃ i x l, c = .acquire who i x l) ∨ (∃ i x k, c = .release who i x k) ∨ ∃ i x k l, c = .renew who i x k l))) →
    (Outside s who a →
      ∃ t p, exec c s = .next t ∧ partyPort who = some p ∧ Only [.hps] s t ∧ t.hp p = { s.hp p with outside := stick (s.hp p).outside 1 } ∧
        ∀ q, q ≠ p → t.hp q = s.hp q) ∧
    (partyLive s who = false → exec c s = .next s)

/-- A BAR 0 access of 4 or 8 bytes that is not naturally aligned, or of another size, reads zero or writes nothing, and counts once in BADSIZE of its
port; a write to BAR 4 is discarded and counts nowhere (R321). Completes (exec answers next with the command's own effect): REGISTER_WRITE,
REGISTER_READ. -/
def Obligations.AccessSizes : Prop :=
  (∀ (who : Party) (o n p : Nat) (v : BitVec 64) (s : State), partyLive s who = true → partyPort who = some p → o < 2 ^ 28 → (n ≠ 4 ∧ n ≠ 8 ∨ o % n ≠ 0) →
    (∃ t, exec (.registerWrite who o n v) s = .next t ∧ Only [.hps] s t ∧ t.hp p = { s.hp p with badsize := stick (s.hp p).badsize 1 } ∧
      ∀ q, q ≠ p → t.hp q = s.hp q) ∧
    ∃ t, exec (.registerRead who o n) s = .next t ∧ Only [.bus, .hps] s t ∧ t.bus = 0 ∧ t.hp p = { s.hp p with badsize := stick (s.hp p).badsize 1 } ∧
      ∀ q, q ≠ p → t.hp q = s.hp q) ∧
  (∀ (who : Party) (o n : Nat) (v : BitVec 64) (s : State), 2 ^ 28 ≤ o → exec (.registerWrite who o n v) s = .next s)

/-! ### Power, reset, clocks, option bytes, pins (17, 21) -/

/-- A recognised cause begins an internal reset: PWRFAIL, PIN, VIN, a stage's fault and the loss of REFCLK, from outside a reset. The device is in reset
with that cause, the option bytes are to be read again, cores, contexts, Hurdles and the Gate are at their reset values, no Weave and no firmware
runs, the NVM die's keys, fuses, option copies and Weave slots stay, and a pin reset keeps device time (R337, R338). Completes (exec answers next with
the command's own effect): PWRFAIL, PIN, VIN, STAGE_FAULT, REFLOSS. -/
def Obligations.ResetBegins : Prop :=
  ∀ (s : State) (cmd : Instr) (cause : Nat), s.hub.phase = .running →
    ((cmd = .pwrfail ∧ cause = 1) ∨ (cmd = .pin ∧ cause = 2) ∨ (cmd = .vin ∧ cause = 4) ∨ ((∃ g, g < 2 ∧ cmd = .stageFault g) ∧ cause = 5) ∨
      (cmd = .refloss ∧ cause = 6)) →
    ∃ t, exec cmd s = .next t ∧ t.hub.phase = .inReset ∧ t.hub.cause.toNat = cause ∧ t.hub.rstn = false ∧ t.hub.optDone = false ∧ t.hub.lock = 0 ∧
      t.cores = [] ∧ t.ctxs = [] ∧ t.hurdles = [] ∧ t.gates = [] ∧ t.accesses = [] ∧ t.weave.loaded = false ∧ t.sec.booted = false ∧
      t.sec.openD = false ∧ t.sec.keys = s.sec.keys ∧ t.sec.fused = s.sec.fused ∧ t.weave.slotA = s.weave.slotA ∧ t.weave.slotB = s.weave.slotB ∧
      t.opt.copyA = s.opt.copyA ∧ t.opt.copyB = s.opt.copyB ∧ t.host = s.host ∧ t.time = (if cause = 2 then s.time else 0) ∧
      (cause ≠ 2 → t.uni = [] ∧ t.sec.noid = false ∧ t.sec.debug = false) ∧ (cause = 2 → t.sec.noid = s.sec.noid ∧ t.sec.debug = s.sec.debug)

/-- From power to running: the stages come up, POWER_ON begins a power-on reset, the PLLs lock and the option bytes are read, reset is released no earlier
than 1 ms after its last cause, and the device runs once RST_N has been high for 100 µs (R332, R337, R338, R342). RESET_RELEASE and RESET_EXIT wait:
before their time, or before their conditions hold, nothing changes (R338, log 1). Completes (exec answers next with the command's own effect):
POWER_ON, SOFT_START, RESET_RELEASE, RESET_EXIT, PLL_LOCK. -/
def Obligations.ResetEnds : Prop :=
  ((∀ (g : Nat) (s : State), g < 2 →
     ∃ t, exec (.softStart g) s = .next t ∧ Only [.hub] s t ∧ (g = 0 → t.hub = { s.hub with bus0 := true }) ∧ (g = 1 → t.hub = { s.hub with bus1 := true })) ∧
   (∀ s : State, s.hub.phase = .off → railsGood s = true →
     ∃ t, exec .powerOn s = .next t ∧ t.hub.phase = .inReset ∧ t.hub.cause = 0 ∧ t.time = 0 ∧ t.cores = [] ∧ t.uni = []) ∧
   (∀ s : State, s.hub.phase = .inReset → s.hub.lock ≠ 0x3F →
     ∃ t, exec .pllLock s = .next t ∧ Only [.hub, .opt, .tallies] s t ∧ t.hub.lock = 0x3F ∧ t.hub.optDone = true ∧ t.hub.phase = .inReset ∧
       (s.hub.optDone = true → t.opt = s.opt) ∧
       (s.hub.optDone = false → t.opt.bada = !optValid s.opt.copyA ∧ t.opt.badb = !optValid s.opt.copyB ∧
         (optValid s.opt.copyA = false → optValid s.opt.copyB = false → t.opt.src = 2 ∧ optImage t = optDefault))) ∧
   (∀ s : State, s.hub.phase = .inReset → s.hub.since.toNat + 1000000 ≤ s.time.toNat → railsGood s = true → s.pwr.cool85 = true → s.hub.lock = 0x3F →
     s.hub.optDone = true →
     ∃ t, exec .resetRelease s = .next t ∧ Only [.hub] s t ∧ t.hub.phase = .released ∧ t.hub.since = s.time) ∧
   (∀ s : State, s.hub.phase = .released → s.hub.since.toNat + 100000 ≤ s.time.toNat →
     ∃ t, exec .resetExit s = .next t ∧ Only [.hub, .time, .bbx] s t ∧ t.hub.phase = .running ∧ t.hub.rstn = true ∧ t.bbx.closed = false ∧
       t.time = (if powerOnCause s.hub.cause.toNat = true then 0 else s.time))) ∧
  (∀ s : State,
     (s.time.toNat < s.hub.since.toNat + 1000000 ∨ railsGood s = false ∨ s.pwr.cool85 = false ∨ s.hub.lock ≠ 0x3F → exec .resetRelease s = .next s) ∧
     (s.time.toNat < s.hub.since.toNat + 100000 → exec .resetExit s = .next s))

/-- VBAK_FAULT, PIN_GLITCH and the event pins. After a VBAK fault the always-on registers wait for a power-on with free values (log 3), and nothing else
changes; a glitch is counted, and more than 1,024 of one pin within 1 ms are noise; an edge that comes in time sets its level, and one that its
configuration counts adds 1 to the word; PULSE drives its pins for 100 ns (R331, R340, R341). Completes (exec answers next with the command's own
effect): VBAK_FAULT, PIN_GLITCH, EVT_IN_EDGE, PULSE. -/
def Obligations.PinsAndPulses : Prop :=
  (∀ s : State, ∃ t, exec .vbakFault s = .next t ∧ Only [.hub, .sec] s t ∧ t.hub.vbakBad = true ∧ t.hub.phase = s.hub.phase ∧
    t.sec.keys = s.sec.keys ∧ t.sec.fused = s.sec.fused) ∧
  (∀ (p : Bool) (s : State), s.hub.phase = .running →
    ∃ t, exec (.pinGlitch p) s = .next t ∧ Only [.hub, .tallies] s t ∧ t.hub.glitch = stick s.hub.glitch 1 ∧
      (s.hub.noisy = true → t.hub.noisy = true) ∧ (s.hub.glitches.length < 1024 → t.hub.noisy = s.hub.noisy) ∧
      (1024 ≤ (s.hub.glitches.filter (fun g => g.1 == p && decide (s.time.toNat < g.2 + 1000000))).length →
        t.hub.noisy = true ∧ ∃ x, (t.tally uHub).fresh = (s.tally uHub).fresh ++ [x] ∧ x.code = 0x0D2)) ∧
  (∀ (k : Nat) (up : Bool) (s : State), k < 4 → s.hub.phase = .running → tget dN s.hub2.evtLast k = 0 → bitsOf (tget d0 s.hub.evtcfg k).toNat 48 2 = 0 →
    ∃ t, exec (.evtInEdge k up) s = .next t ∧ Only [.hub, .hub2] s t ∧ t.hub.evtin.getLsbD k = up ∧
      (∀ j, j ≠ k → t.hub.evtin.getLsbD j = s.hub.evtin.getLsbD j) ∧ tget dN t.hub2.evtLast k = s.time.toNat + 1 ∧
      t.hub2.evtMissed = s.hub2.evtMissed) ∧
  (∀ (k : Nat) (up : Bool) (s : State), k < 4 → s.hub.phase = .running → tget dN s.hub2.evtLast k ≠ 0 → s.time.toNat + 1 < tget dN s.hub2.evtLast k + 100 →
    ∃ t, exec (.evtInEdge k up) s = .next t ∧ Only [.hub, .hub2, .tallies] s t ∧ t.hub.evtin = s.hub.evtin ∧
      tget d0 t.hub2.evtMissed k = stick (tget d0 s.hub2.evtMissed k) 1) ∧
  (∀ (who : Party) (m : BitVec 4) (s : State), Admitted s who .hub →
    ∃ t, exec (.pulse who m) s = .next t ∧ Only [.hub2] s t ∧
      ∀ k, tget dN t.hub2.pulseUntil k = if m.getLsbD k then s.time.toNat + 100 else tget dN s.hub2.pulseUntil k)

/-- Throttling. A sample above a limit raises every die's power level by 8, to at most 56; a sample below 95 % of both limits does not; ten such
microseconds lower it by 1; a die takes the larger of its levels at its window; a reading at 95 degrees or more puts the dies its sensor acts on at 48
at least (R333 to R335). Two consecutive readings of one sensor at 100 degrees or more reset the device with cause 3; one alone does not (R335, R337).
Completes (exec answers next with the command's own effect): POWER_SAMPLE, THROTTLE_DECAY, THROTTLE_WINDOW, TEMPERATURE_READING. -/
def Obligations.Throttling : Prop :=
  ((∀ (vin iin vbak : Nat) (s : State), s.hub.phase = .running → (limitsOf s s.weave.cur.sects).current < iin →
     iin * 10 ≤ (limitsOf s s.weave.cur.sects).current * 11 →
     ∃ t, exec (.powerSample vin iin vbak) s = .next t ∧ Only [.pwr] s t ∧ t.pwr.overLim = true ∧ t.pwr.iin = BitVec.ofNat 16 iin ∧
       ∀ d, d < 16 → tget dN t.pwr.pLevel d = min 56 (tget dN s.pwr.pLevel d + 8)) ∧
   (∀ (vin iin vbak : Nat) (s : State), s.hub.phase = .running → iin * 100 < 95 * (limitsOf s s.weave.cur.sects).current → s.pwr.samples = [] →
     vin * iin * 100 < 95 * ((limitsOf s s.weave.cur.sects).power * 1000) →
     ∃ t, exec (.powerSample vin iin vbak) s = .next t ∧ Only [.pwr] s t ∧ t.pwr.overLim = false ∧ t.pwr.pLevel = s.pwr.pLevel ∧
       t.pwr.belowUs = s.pwr.belowUs + 1) ∧
   (∀ s : State, 10 ≤ s.pwr.belowUs →
     ∃ t, exec .throttleDecay s = .next t ∧ Only [.pwr] s t ∧ t.pwr.belowUs = s.pwr.belowUs - 10 ∧ t.pwr.tLevel = s.pwr.tLevel ∧
       ∀ d, d < 16 → tget dN t.pwr.pLevel d = tget dN s.pwr.pLevel d - 1) ∧
   (∀ (d : Nat) (s : State), d < 8 →
     ∃ t, exec (.throttleWindow d) s = .next t ∧ Only [.pwr] s t ∧ tget dN t.pwr.applied d = throttleLevel s d ∧
       tget dN t.pwr.applied (d + 8) = throttleLevel s (d + 8) ∧ (∀ e, e ≠ d → e ≠ d + 8 → tget dN t.pwr.applied e = tget dN s.pwr.applied e) ∧
       t.pwr.pLevel = s.pwr.pLevel ∧ t.pwr.tLevel = s.pwr.tLevel) ∧
   (∀ (d x : Nat) (s : State), s.hub.phase = .running → d < 8 → 95 ≤ x → x < 100 →
     ∃ t, exec (.temperatureReading [⟨0, d, x⟩]) s = .next t ∧ Only [.pwr, .tallies] s t ∧ 48 ≤ tget dN t.pwr.tLevel d ∧
       t.pwr.hottest.toNat = x ∧ ∀ e, e ≠ d → tget dN t.pwr.tLevel e = tget dN s.pwr.tLevel e)) ∧
  (∀ (k d x : Nat) (s : State), s.hub.phase = .running → 100 ≤ x →
     ((k, d) ∈ s.pwr.hotPrev → ∃ t, exec (.temperatureReading [⟨k, d, x⟩]) s = .next t ∧ t.hub.phase = .inReset ∧ t.hub.cause = 3) ∧
     ((k, d) ∉ s.pwr.hotPrev → ∃ t, exec (.temperatureReading [⟨k, d, x⟩]) s = .next t ∧ t.hub.phase = .running ∧ t.pwr.hotPrev = [(k, d)]))

/-- PROGRAM writes the staged option image, sealed with the next sequence number, into the copy that is not in force, and never while it comes from
context 0 or a field is out of range; the image in force stays until the next reset (R345). Completes (exec answers next with the command's own
effect): PROGRAM. -/
def Obligations.OptionBytesProgram : Prop :=
  (∀ (who : Party) (s : State), who ≠ .fw → Admitted s who .hub → optRanges (optStaged s) = true →
    ∃ t img, exec (.program who) s = .next t ∧ Only [.opt] s t ∧ t.opt.pend = true ∧ t.opt.result = stDone ∧ t.opt.image = s.opt.image ∧
      t.opt.src = s.opt.src ∧ img = optSeal (if s.opt.src = 2 then 1 else (optSeq s.opt.image + 1) % 2 ^ 32) (optStaged s) ∧
      (if s.opt.src = 0 then t.opt.copyB = img ∧ t.opt.copyA = s.opt.copyA else t.opt.copyA = img ∧ t.opt.copyB = s.opt.copyB)) ∧
  (∀ (who : Party) (s : State), who ≠ .fw → Admitted s who .hub → optRanges (optStaged s) = false →
    ∃ t, exec (.program who) s = .next t ∧ Only [.opt] s t ∧ t.opt = { s.opt with result := stDescriptor }) ∧
  (∀ s : State, exec (.program .fw) s = .next s)

/-! ### Security and firmware (18, 19) -/

/-- FIRMWARE_BOOT: with a hub image that verifies, the device serves its registers and the hub runs that image; without one the hub ROM serves in
RECOVERY. It happens once after a reset: later it changes nothing (R351, log 1). ACTIVATE, HANDOVER_COMPLETE, FIRMWARE_REPORT and ACTIVATION_TIMEOUT:
a staged image replaces the running one once it has handed over, its report within 10 ms keeps it in the NVM die, and without one the kept image runs
again (R386). A firmware target that has not reported for 100 ms restarts from its kept image, with WDOG and Tally 0x0F3; a report within that time
restarts the watchdog and changes nothing else (R381). Completes (exec answers next with the command's own effect): FIRMWARE_BOOT, FIRMWARE_REPORT,
WATCHDOG_EXPIRY, ACTIVATE, HANDOVER_COMPLETE, ACTIVATION_TIMEOUT. -/
def Obligations.FirmwareRunsAndIsReplaced : Prop :=
  ((∀ s : State, s.hub.phase = .running → s.sec.booted = false → s.sec.st ≠ 2 →
     (bootImage s 8).isSome = true →
     ∃ t, exec .firmwareBoot s = .next t ∧ Only [.sec, .tallies] s t ∧ t.sec.booted = true ∧ t.sec.st = s.sec.st ∧ t.sec.derived = !s.sec.noid ∧
       (t.fw 8).running = (bootImage s 8).map (·.2) ∧ t.sec.keys = s.sec.keys ∧ t.sec.fused = s.sec.fused) ∧
   (∀ s : State, s.hub.phase = .running → s.sec.booted = false → (bootImage s 8).isSome = false → (s.fw 8).running = none →
     ∃ t, exec .firmwareBoot s = .next t ∧ Only [.sec] s t ∧ t.sec.booted = true ∧ t.sec.st = 2 ∧ t.sec.fwbad.getLsbD 8 = true) ∧
   (∀ s : State, s.sec.booted = true → exec .firmwareBoot s = .next s)) ∧
  ((∀ (who : Party) (g : BitVec 4) (x y : FwImage) (s : State), Admitted s who .hub → s.hub2.fwState = 0 → g.toNat ≤ 8 →
     (s.fw g.toNat).staged = some x → (s.fw g.toNat).running = some y →
     ∃ t, exec (.activate who g) s = .next t ∧ Only [.hub2] s t ∧ t.hub2.fwState = 1 ∧ t.hub2.fwTarget = g ∧ t.hub2.fwSince = s.time ∧
       ∀ u, t.fw u = s.fw u) ∧
   (∀ s : State, s.hub2.fwState = 1 → s.hub2.heldOps = [] →
     let g := s.hub2.fwTarget.toNat
     ∃ t, exec .handoverComplete s = .next t ∧ Only [.hub2, .sec] s t ∧ t.hub2.fwState = 2 ∧ (t.fw g).running = (s.fw g).staged ∧
       (t.fw g).report = s.time ∧ ∀ u, u ≠ g → t.fw u = s.fw u) ∧
   (∀ (g : Nat) (x : FwImage) (s : State), g < 9 → (s.fw g).running = some x → s.hub2.fwState = 2 → s.hub2.fwTarget.toNat = g →
     s.time.toNat < s.hub2.fwSince.toNat + 10000000 →
     ∃ t, exec (.firmwareReport g) s = .next t ∧ Only [.hub2, .sec, .tallies] s t ∧ t.hub2.fwState = 0 ∧ t.hub2.fwResult = stDone ∧
       (t.fw g).staged = none ∧ (t.fw g).running = some x ∧ (t.fw g).report = s.time ∧ (t.fw g).used1 = !(s.fw g).used1 ∧
       (if (t.fw g).used1 then (t.fw g).nvm1 = (s.fw g).staged else (t.fw g).nvm0 = (s.fw g).staged)) ∧
   (∀ s : State, s.hub2.fwState ≠ 0 → s.hub2.fwSince.toNat + 10000000 ≤ s.time.toNat → s.hub2.heldOps = [] →
     let g := s.hub2.fwTarget.toNat
     ∃ t, exec .activationTimeout s = .next t ∧ Only [.hub2, .sec, .tallies] s t ∧ t.hub2.fwState = 0 ∧ t.hub2.fwResult = stDeadline ∧
       (t.fw g).running = keptImage s g)) ∧
  ((∀ (g : Nat) (x : FwImage) (s : State), g < 9 → (s.fw g).running = some x → (s.fw g).report.toNat + 100000000 ≤ s.time.toNat →
     (∀ e ∈ s.ctxs, Config.ringServer e.1 % 9 ≠ g) →
     ∃ t, exec (.watchdogExpiry g) s = .next t ∧ Only [.hub2, .sec, .tallies] s t ∧ t.hub2.wdog = true ∧ (t.fw g).running = keptImage s g ∧
       (t.fw g).report = s.time ∧ ∀ u, u ≠ g → t.fw u = s.fw u) ∧
   (∀ (g : Nat) (x : FwImage) (s : State), g < 9 → (s.fw g).running = some x → s.hub2.fwState = 0 →
     ∃ t, exec (.firmwareReport g) s = .next t ∧ Only [.sec] s t ∧ t.fw g = { s.fw g with report := s.time } ∧ ∀ u, u ≠ g → t.fw u = s.fw u))

/-- ATTEST and CERT write the report, or the certificate, to reachable host memory at SEC_DST, and set LEN and RESULT; ATTEST needs the identity key
(R350, R355, R357). FWVERIFY of an image that passes every check stages it for its target and runs nothing; an image that fails a check changes no
firmware (R352). ENROL puts a 64-byte public key on the curve into an empty slot, and REVOKE empties a slot; a slot above 19 or an empty one is
refused (R354). OPEN: a host port may set SEC_DBG.OPEN where the option bytes enable JTAG; NOID is set with it. Context 0 may not (R357). Completes
(exec answers next with the command's own effect): ATTEST, CERT, FWVERIFY, ENROL, REVOKE, OPEN. -/
def Obligations.SecurityCommands : Prop :=
  (∀ (who : Party) (s : State), Admitted s who .hub → hubHandsOver s = false →
     (s.sec.noid = false → s.sec.derived = true →
       let b := attestBody s ++ (Config.identitySign (sha256 (attestBody s))).take 64
       hubWriteFault s (secDst s) b.length = none →
       ∃ t, exec (.attest who) s = .next t ∧ Only (.sec :: writeParts) s t ∧ t.sec.result = stDone ∧ t.sec.len = BitVec.ofNat 16 b.length ∧
         (spaceOf (secDst s) = .host → hostReach s s.weave.cur.sects (secDst s) b.length = true →
           mread t.host (secDst s) b.length = b ∧ ∀ x, x < secDst s ∨ secDst s + b.length ≤ x → mget t.host x = mget s.host x)) ∧
     (s.sec.noid = true →
       ∃ t, exec (.attest who) s = .next t ∧ Only [.sec] s t ∧ t.sec.result = stMode ∧ t.sec.len = s.sec.len) ∧
     (hubWriteFault s (secDst s) (Config.certificate.take 1024).length = none →
       ∃ t, exec (.cert who) s = .next t ∧ Only (.sec :: writeParts) s t ∧ t.sec.result = stDone ∧
         t.sec.len = BitVec.ofNat 16 (Config.certificate.take 1024).length)) ∧
  (∀ (who : Party) (s : State), Admitted s who .hub → hubHandsOver s = false → s.sec.st ≠ 2 →
     let a := secSrc s
     let n := fwLen (devRead s a 64)
     hubReadFault s a 64 = none → fwHeaderBad (devRead s a 64) = false → hubReadFault s a n = none →
     let m := devRead s a n
     (fwCheck s m = none →
       ∃ t, exec (.fwverify who) s = .next t ∧ Only (.sec :: readParts) s t ∧ t.sec.result = stDone ∧
         (t.fw (fwTgt m)).staged = some (fwImageOf m) ∧ (t.fw (fwTgt m)).running = (s.fw (fwTgt m)).running ∧
         ∀ u, u ≠ fwTgt m → t.fw u = s.fw u) ∧
     (∀ f, fwCheck s m = some f →
       ∃ t, exec (.fwverify who) s = .next t ∧ Only (.sec :: readParts) s t ∧ t.sec.result = f ∧ ∀ u, t.fw u = s.fw u)) ∧
  ((∀ (who : Party) (i : BitVec 5) (s : State), who ≠ .fw → Admitted s who .hub → hubHandsOver s = false → i.toNat ≤ 19 →
     let k := devRead s (secSrc s) 64
     hubReadFault s (secSrc s) 64 = none → slotKey s i.toNat = [] → (∀ j, j < 20 → slotKey s j ≠ k) → Config.onCurve k = true →
     ∃ t, exec (.enrol who i) s = .next t ∧ Only (.sec :: readParts) s t ∧ t.sec.result = stDone ∧ slotKey t i.toNat = k ∧
       (∀ j, j ≠ i.toNat → slotKey t j = slotKey s j) ∧ t.sec.fused = s.sec.fused) ∧
   (∀ (who : Party) (i : BitVec 5) (s : State), who ≠ .fw → Admitted s who .hub → hubHandsOver s = false → i.toNat ≤ 19 → slotKey s i.toNat ≠ [] →
     ∃ t, exec (.revoke who i) s = .next t ∧ Only [.sec] s t ∧ t.sec.result = stDone ∧ slotKey t i.toNat = [] ∧
       (∀ j, j ≠ i.toNat → slotKey t j = slotKey s j) ∧ t.sec.fused = s.sec.fused) ∧
   (∀ (who : Party) (i : BitVec 5) (s : State), Admitted s who .hub → hubHandsOver s = false → (19 < i.toNat ∨ slotKey s i.toNat = []) → who ≠ .fw →
     ∃ t, exec (.revoke who i) s = .next t ∧ Only [.sec] s t ∧ t.sec.result = stDescriptor ∧ t.sec.keys = s.sec.keys)) ∧
  ((∀ (who : Party) (s : State), who ≠ .fw → Admitted s who .hub → optJtag s = true → s.sec.openD = false →
     ∃ t, exec (.openDebug who) s = .next t ∧ Only [.sec] s t ∧ t.sec = { s.sec with openD := true, noid := true, debug := true }) ∧
   (∀ s : State, exec (.openDebug .fw) s = .next s))

/-! ### Observation (19) -/

/-- A reset of either kind empties every Tally ring: HEAD and every record slot read zero and every Tally register has its reset value; a device-wide
counter reset clears the counts of TLY_LOSS of every ring (R367). Completes (exec answers next with the command's own effect): POWER_ON, PWRFAIL, PIN,
VIN, STAGE_FAULT, REFLOSS, TEMPERATURE_READING, COUNTER_CLEAR. -/
def Obligations.ResetsEmptyTheRings : Prop :=
  (∀ (s : State) (cmd : Instr), s.hub.phase = .running →
    (cmd = .pwrfail ∨ cmd = .pin ∨ cmd = .vin ∨ (∃ g, g < 2 ∧ cmd = .stageFault g) ∨ cmd = .refloss ∨
      ∃ k d x, 100 ≤ x ∧ (k, d) ∈ s.pwr.hotPrev ∧ cmd = .temperatureReading [⟨k, d, x⟩]) →
    ∃ t, exec cmd s = .next t ∧ t.hub.phase = .inReset ∧ ∀ u, t.tally u = {} ∧ (t.tally u).head = 0 ∧
      ∀ i, tget trecDef (t.tally u).slots i = { time := 0, unit := 0, ctx := 0, code := 0, payload := 0 }) ∧
  (∀ s : State, s.hub.phase = .off → railsGood s = true →
    ∃ t, exec .powerOn s = .next t ∧ t.hub.phase = .inReset ∧ ∀ u, t.tally u = {} ∧ (t.tally u).head = 0 ∧
      ∀ i, tget trecDef (t.tally u).slots i = { time := 0, unit := 0, ctx := 0, code := 0, payload := 0 }) ∧
  (∀ (x : BitVec 64) (s : State), s.hub2.cntPend = some x → x.toNat ≤ s.time.toNat →
    ∃ t, exec (.counterClear none) s = .next t ∧ ∀ u, (t.tally u).dropped = 0 ∧ (t.tally u).lost = 0 ∧ (t.tally u).slots = (s.tally u).slots)

/-- TALLY_QUEUE_WRITE: a ring that is not frozen takes the first record of its queue at HEAD; a frozen one counts it in DROPPED (R363, R364, R368).
TLY_FREEZE, REARM and CROSS_TRIGGER act on the rings they name and on no record (R366, R368). The black-box record: BLACK_BOX_WRITE puts the oldest
buffered record at its head, and does nothing while frozen (log 1); BBX_FREEZE freezes it with Tally 0x0F8, UNFREEZE resumes it and clears LOST (R371,
R373). Completes (exec answers next with the command's own effect): TALLY_QUEUE_WRITE, CROSS_TRIGGER, TLY_FREEZE, REARM, BLACK_BOX_WRITE, BBX_FREEZE,
UNFREEZE. -/
def Obligations.TallyRecords : Prop :=
  (∀ (u : Nat) (r : TallyRec) (s : State), (s.tally u).fresh = [r] → (s.tally u).queue = [] → (s.tally u).arm = false → (s.tally u).triggered = false →
     (s.tally u).lostSince = 0 →
     ∃ t, exec (.tallyQueueWrite u) s = .next t ∧ Only [.tallies, .bbx, .hub] s t ∧ (t.tally u).queue = [] ∧ (t.tally u).fresh = [] ∧
       ((s.tally u).frozen = false → (t.tally u).head = (s.tally u).head + 1 ∧
         tget trecDef (t.tally u).slots ((s.tally u).head.toNat % tallyCap u) = r ∧
         ∀ i, i ≠ (s.tally u).head.toNat % tallyCap u → tget trecDef (t.tally u).slots i = tget trecDef (s.tally u).slots i) ∧
       ((s.tally u).frozen = true → (t.tally u).head = (s.tally u).head ∧ (t.tally u).dropped = stick (s.tally u).dropped 1) ∧
       ∀ v, v ≠ u → t.tally v = s.tally v) ∧
  ((∀ (who : Party) (u : Nat) (s : State), Admitted s who (tallyArea u) →
     (∃ t, exec (.tlyFreeze who u) s = .next t ∧ Only [.tallies] s t ∧ t.tally u = { s.tally u with frozen := true } ∧ ∀ v, v ≠ u → t.tally v = s.tally v) ∧
     ∃ t, exec (.rearm who u) s = .next t ∧ Only [.tallies] s t ∧ t.tally u = { s.tally u with triggered := false, frozen := false } ∧
       ∀ v, v ≠ u → t.tally v = s.tally v) ∧
   (∀ s : State, s.hub2.xtrig = true → s.bbx.xin = false →
     ∃ t, exec .crossTrigger s = .next t ∧ Only [.tallies, .hub2] s t ∧ t.hub2.xtrig = false ∧
       (∀ u, (s.tally u).xin = true → (s.tally u).triggered = false → (t.tally u).triggered = true ∧ (t.tally u).postLeft = (s.tally u).post) ∧
       (∀ u, (s.tally u).xin = false → t.tally u = s.tally u) ∧ ∀ u, (t.tally u).slots = (s.tally u).slots)) ∧
  ((∀ (r : TallyRec) (l : List TallyRec) (s : State), s.bbx.frozen = false → s.bbx.buffer = r :: l → s.bbx.lostSince = 0 →
     ∃ t, exec .blackBoxWrite s = .next t ∧ Only [.bbx] s t ∧ t.bbx.buffer = l ∧ t.bbx.head = s.bbx.head + 1 ∧
       tget trecDef t.bbx.records (s.bbx.head.toNat % 4096) = r ∧
       ∀ i, i ≠ s.bbx.head.toNat % 4096 → tget trecDef t.bbx.records i = tget trecDef s.bbx.records i) ∧
   (∀ s : State, s.bbx.frozen = true → exec .blackBoxWrite s = .next s) ∧
   (∀ (who : Party) (s : State), Admitted s who .admin →
     (∃ t, exec (.bbxFreeze who) s = .next t ∧ Only [.bbx, .tallies] s t ∧ t.bbx = { s.bbx with frozen := true } ∧
       ∃ x, (t.tally uHub).fresh = (s.tally uHub).fresh ++ [x] ∧ x.code = 0x0F8) ∧
     ∃ t, exec (.unfreeze who) s = .next t ∧ Only [.bbx] s t ∧ t.bbx = { s.bbx with frozen := false, lost := 0 }))

/-- Counter resets. DEVICE_SCOPE_RESET, CONTEXT_SCOPE_RESET and GO schedule one 1,000 ns ahead; COUNTER_CLEAR, at that time or later, clears the counters
of the scope, advances its EPOCH and writes 0x0F1; a second request while one is pending changes nothing (R374). Completes (exec answers next with the
command's own effect): DEVICE_SCOPE_RESET, CONTEXT_SCOPE_RESET, GO, COUNTER_CLEAR. -/
def Obligations.CounterResets : Prop :=
  (∀ (who : Party) (s : State), Admitted s who .admin → s.hub2.cntPend = none →
    ∃ t, exec (.deviceScopeReset who) s = .next t ∧ Only [.hub2] s t ∧ t.hub2 = { s.hub2 with cntPend := some (s.time + 1000), cntT := s.time + 1000 }) ∧
  (∀ (who : Party) (s : State) (x : BitVec 64), Admitted s who .admin → s.hub2.cntPend = some x → exec (.deviceScopeReset who) s = .next s) ∧
  (∀ (who : Party) (c : Nat) (cmd : Instr) (s : State), c < 1024 →
    (cmd = .contextScopeReset who c ∧ Admitted s who .admin ∨ cmd = .go who c ∧ Admitted s who (.ctx c)) → (s.ctx c).cntPend = none →
    ∃ t, exec cmd s = .next t ∧ Only [.ctxs] s t ∧ t.ctx c = { s.ctx c with cntPend := some (s.time + 1000) } ∧ ∀ d, d ≠ c → t.ctx d = s.ctx d) ∧
  (∀ (x : BitVec 64) (s : State), s.hub2.cntPend = some x → x.toNat ≤ s.time.toNat →
    ∃ t, exec (.counterClear none) s = .next t ∧ t.hub2.cntPend = none ∧ t.hub2.cntEpoch = s.hub2.cntEpoch + 1 ∧ t.hub2.ctr = [] ∧
      (∀ n, (t.core n).ctr = [] ∧ (t.core n).corrected = 0 ∧ (t.core n).scratch = (s.core n).scratch ∧ (t.core n).queues = (s.core n).queues) ∧
      (∀ p, (t.hp p).outside = 0 ∧ (t.hp p).mode = (s.hp p).mode) ∧ t.ctxs = s.ctxs ∧ t.uni = s.uni ∧ t.host = s.host) ∧
  (∀ (c : Nat) (x : BitVec 64) (s : State), c < 1024 → (s.ctx c).cntPend = some x → x.toNat ≤ s.time.toNat →
    ∃ t, exec (.counterClear (some c)) s = .next t ∧ Only [.ctxs, .tallies] s t ∧ (t.ctx c).cntPend = none ∧ (t.ctx c).cntEpoch = (s.ctx c).cntEpoch + 1 ∧
      (∀ o, o ≠ 0x0E8 → tget d0 (t.ctx c).ctr o = 0) ∧ tget d0 (t.ctx c).ctr 0x0E8 = tget d0 (s.ctx c).ctr 0x0E8 ∧
      (t.ctx c).rings = (s.ctx c).rings ∧ ∀ d, d ≠ c → t.ctx d = s.ctx d)

/-! ### Registers, JTAG and SMBus (01, 18, 21) -/

/-- REGISTER_WRITE and REGISTER_READ: WEAVE_SRC reads back what was written, with bits [2:0] zero, and WEAVE_WINDOW its clamped value; an offset that no
register has reads 0 and a write of it does nothing (R4, R7, R37). The JTAG instructions: IDCODE reads the device's code, BYPASS and SAMPLE/PRELOAD
only select, a reset of the test access port selects IDCODE and changes nothing else; EXTEST and the debug transport do nothing while OPEN is 0 (R336,
R357, R398). The SMBus: a Read Word answers the code's word and changes nothing else; a write is not acknowledged; a clock time-out resets the
interface (R399). Completes (exec answers next with the command's own effect): JTAG_INSTRUCTION, READ_WORD, SMBUS_CLOCK_TIMEOUT, REGISTER_WRITE,
REGISTER_READ, SMBUS_WRITE, TEST_ACCESS_PORT_RESET. -/
def Obligations.RegistersAndSideInterfaces : Prop :=
  ((∀ (who : Party) (v : BitVec 64) (s : State), Admitted s who .admin →
     ∃ t, exec (.registerWrite who 0x80010 8 v) s = .next t ∧ Only [.weave] s t ∧ t.weave = { s.weave with src := t.weave.src } ∧
       ∃ u, exec (.registerRead who 0x80010 8) t = .next u ∧ Only [.bus] t u ∧ u.bus.toNat = v.toNat / 8 * 8) ∧
   (∀ (who : Party) (v : BitVec 64) (s : State), Admitted s who .admin →
     ∃ t, exec (.registerWrite who 0x80018 4 v) s = .next t ∧ Only [.weave] s t ∧ t.weave = { s.weave with window := t.weave.window } ∧
       ∃ u, exec (.registerRead who 0x80018 4) t = .next u ∧ Only [.bus] t u ∧ u.bus.toNat = min 100000 (max 100 (v.toNat % 2 ^ 17))) ∧
   (∀ (who : Party) (o : Nat) (v : BitVec 64) (s : State), Admitted s who .admin → 0x120000 ≤ o → o < 0x200000 → o % 8 = 0 →
     exec (.registerWrite who o 8 v) s = .next s ∧ ∃ u, exec (.registerRead who o 8) s = .next u ∧ Only [.bus] s u ∧ u.bus = 0)) ∧
  ((∀ s : State, ∃ t, exec (.jtagInstruction 1) s = .next t ∧ Only [.hub2, .bus] s t ∧ t.bus = 0x1648046B ∧ t.hub2.jtagIr = 1) ∧
   (∀ (ir : Nat) (s : State), ir ≠ 1 → (ir < 3 ∨ s.sec.openD = false) →
     ∃ t, exec (.jtagInstruction ir) s = .next t ∧ Only [.hub2] s t ∧ t.hub2 = { s.hub2 with jtagIr := ir }) ∧
   (∀ s : State, ∃ t, exec .testAccessPortReset s = .next t ∧ Only [.hub2] s t ∧ t.hub2 = { s.hub2 with jtagIr := 1 }) ∧
   (∀ (ir : Nat) (s : State), 3 ≤ ir → s.sec.openD = true → exec (.jtagInstruction ir) s = .fault .debugTransport)) ∧
  (∀ (code : BitVec 8) (s : State),
     (∃ t, exec (.readWord code) s = .next t ∧ Only [.bus, .hub2] s t ∧ t.bus = BitVec.ofNat 64 (smbWord s code.toNat) ∧
       t.hub2 = { s.hub2 with smbAck := true }) ∧
     (∃ t, exec (.smbusWrite code) s = .next t ∧ Only [.hub2] s t ∧ t.hub2 = { s.hub2 with smbAck := false }) ∧
     ∃ t, exec .smbusClockTimeout s = .next t ∧ Only [.hub2] s t ∧ t.hub2 = { s.hub2 with smbAck := true })

/-! ### The memory tiers (10) -/

/-- Whatever a memory port moves between the tiers, no byte of the unified range changes: PROMOTION, TILE_MOVE, MOVE_END, MOVE_IN, MOVE_OUT, PIN_MOVE,
SCRUB_READ, RETIREMENT_COPY and RANGE_INIT_END answer a next state with the memories as they were (R193, R194, R196, R198, R199). -/
def Obligations.MovesKeepContents : Prop :=
  ∀ (s : State) (c : Instr),
    ((∃ g d, c = .promotion g d) ∨ (∃ g d, c = .tileMove g d) ∨ (∃ h, c = .moveEnd h) ∨ c = .moveIn ∨ c = .moveOut ∨ (∃ m, c = .pinMove m) ∨
      (∃ m, c = .scrubRead m) ∨ (∃ k, c = .retirementCopy k) ∨ ∃ m, c = .rangeInitEnd m) →
    ∃ t, exec c s = .next t ∧ Only [.tiers, .mports, .uniBad, .tallies, .nvmFrames, .cores] s t ∧ t.uni = s.uni ∧ t.host = s.host ∧
      ∀ n, (t.core n).scratch = (s.core n).scratch

/-- A promotion from its trigger to its move. PROMOTION of a policy-0 tile whose filter count has reached THRESH makes its move into the slice of the die
whose engine made the access wanted; TILE_MOVE starts it where no pin move of the channel waits and the victim search finds a frame; MOVE_END records
the new place of every tile of the move (R192, R194, R196). MOVE_IN and MOVE_OUT take the hint in front and add the tiles moved, at most as many as
the hint has, to their command's COUNT; REPORT writes a byte for each tile of its range to the descriptor's destination, a scratchpad or the unified
range, and nothing else of memory, and where that destination cannot be written ends its command with the fault; with its command gone it writes
nothing (R195, R216, R410). Completes (exec answers next with the command's own effect): PROMOTION, TILE_MOVE, MOVE_END, MOVE_IN, MOVE_OUT, REPORT. -/
def Obligations.PromotionsAndHints : Prop :=
  ((∀ (g d : Nat) (s : State), s.hub.phase = .running → d < 8 → 0 < (s.mport (portOf s g)).thresh.toNat →
     (s.mport (portOf s g)).thresh.toNat ≤ (filterEntry s g).1 → (filterEntry s g).2 = d → tilePolicy s g = 0 → tileBacked s g = true →
     isSram (frameOf s g) = false → chanLost s g = false → chanFenced s (chanOf s (classOf s g)) = false →
     ∃ t, exec (.promotion g d) s = .next t ∧ Only [.mports, .tiers] s t ∧ t.tiers.promos = s.tiers.promos ++ [(g, d)] ∧
       t.tiers.resid = s.tiers.resid ∧ filterEntry t g = (0, 0)) ∧
   (∀ (g d x pos : Nat) (s s' : State), (g, d) ∈ s.tiers.promos → (∀ m ∈ s.tiers.moves, m.channel ≠ chanOf s (classOf s g)) →
     isSram (frameOf s g) = false → tileBacked s g = true → tilePolicy s g = 0 → chanLost s g = false →
     chanFenced s (chanOf s (classOf s g)) = false → pinsFirst s g = false →
     let s1 : State := { s with tiers := { s.tiers with promos := s.tiers.promos.erase (g, d) } }
     let k := classOf s1 g
     searchFrom s1 k d (2 * framesPer s1) (tget dN s1.tiers.hands (k * 8 + d)) = some (x, pos, s') →
     ∃ t, exec (.tileMove g d) s = .next t ∧ Only [.tiers] s t ∧ t.tiers.promos = s.tiers.promos.erase (g, d) ∧
       ∃ m, t.tiers.moves = s.tiers.moves ++ [m] ∧ m.channel = chanOf s (classOf s g) ∧ m.places = moveInto s' k g x) ∧
   (∀ (h : Nat) (mv : Move) (s : State), s.tiers.moves.find? (fun m => m.channel == h) = some mv → (mv.places.map (·.1)).Nodup →
     ∃ t, exec (.moveEnd h) s = .next t ∧ Only [.tiers, .mports, .uniBad, .tallies] s t ∧ t.tiers.moves = s.tiers.moves.erase mv ∧
       ∀ p ∈ mv.places, frameOf t p.1 = p.2)) ∧
  ((∀ (op : Nat) (cmd : Instr) (h : Hint) (s : State), (op = 0 ∧ cmd = .moveIn ∨ op = 1 ∧ cmd = .moveOut) → frontHint s op = some h →
     ∃ t k, exec cmd s = .next t ∧ k ≤ (hintTiles h).length ∧ t.tiers.hints = s.tiers.hints.drop 1 ∧
       ∀ n start r, h.owner = some (n, start) → r ∈ (s.core n).running → r.start = start →
         { r with hints := r.hints - 1, count := stick r.count k } ∈ (t.core n).running) ∧
   (∀ (h : Hint) (side : Option Nat) (a : Nat) (r : Running) (s : State), frontHint s 2 = some h → h.dst = some (side, a) → hintRun s h = some r →
     let bs := (hintTiles h).map (reportByte s)
     let w : Wr := { scratch := side, addr := a, bytes := bs }
     (w.fault s = none →
       ∃ t, exec .report s = .next t ∧ t.tiers.hints = s.tiers.hints.drop 1 ∧
         (∀ n start x, h.owner = some (n, start) → x ∈ (s.core n).running → x.start = start →
           { x with hints := x.hints - 1, count := stick x.count 0 } ∈ (t.core n).running) ∧
         (∀ n, side = some n → Only [.tiers, .cores, .tallies] s t ∧ mread (t.core n).scratch a bs.length = bs ∧
           (∀ b, b < a ∨ a + bs.length ≤ b → mget (t.core n).scratch b = mget (s.core n).scratch b) ∧ ∀ m, m ≠ n → (t.core m).scratch = (s.core m).scratch) ∧
         (side = none → spaceOf a = .uni → Backed s a bs.length →
           Only writeParts s t ∧ mread t.uni a bs.length = bs ∧ (∀ b, b < a ∨ a + bs.length ≤ b → mget t.uni b = mget s.uni b) ∧ CtxsSeen s t ∧
             ∀ m, (t.core m).scratch = (s.core m).scratch)) ∧
     (∀ f, w.fault s = some f →
       ∃ t, exec .report s = .next t ∧ Only [.tiers, .cores] s t ∧ t.tiers.hints = s.tiers.hints.drop 1 ∧ (∀ m, (t.core m).scratch = (s.core m).scratch) ∧
         ∀ n start x, h.owner = some (n, start) → x ∈ (s.core n).running → x.start = start →
           { x with hints := x.hints - 1, count := stick x.count 0, status := f.status, detail := BitVec.ofNat 32 f.detail } ∈ (t.core n).running)) ∧
   (∀ (h : Hint) (s : State), frontHint s 2 = some h → hintRun s h = none →
     ∃ t, exec .report s = .next t ∧ Only [.tiers, .cores] s t ∧ t.tiers.hints = s.tiers.hints.drop 1 ∧ ∀ m, (t.core m).scratch = (s.core m).scratch))

/-- PIN_MOVE takes the port's first tile off its list; SCRUB_READ moves its port's position on by one, once its interval has passed; RANGE_INIT_END sets
INIT of a port of a device that has its Weave (R192, R198, R203). RETIREMENT_COPY takes a frame whose class has its highest tile released out of
service: one backed tile fewer in the class (R199, R201). Completes (exec answers next with the command's own effect): PIN_MOVE, SCRUB_READ,
RETIREMENT_COPY, RANGE_INIT_END. -/
def Obligations.PortWork : Prop :=
  ((∀ (m x : Nat) (rest : List Nat) (s : State), m < 16 → (s.mport m).pinq = x :: rest →
     ∃ t, exec (.pinMove m) s = .next t ∧ Only [.tiers, .mports, .uniBad, .tallies] s t ∧ ((t.mport m).pinq = rest ∨ (t.mport m).pinq = rest ++ [x]) ∧
       (outOfPlace s x = false → (t.mport m).pinq = rest ∧ t.tiers = s.tiers) ∧
       (outOfPlace s x = true → chanLost s x = true ∨ chanFenced s (chanOf s (classOf s x)) = true → (t.mport m).pinq = rest ++ [x] ∧ t.tiers = s.tiers)) ∧
   (∀ (m : Nat) (s : State), m < 16 → (s.mport m).interval ≠ 0 → (s.mport m).init = true → (s.mport m).scrubUs + (s.mport m).interval.toNat ≤ usOf s →
     ∃ t, exec (.scrubRead m) s = .next t ∧ Only [.tiers, .mports, .uniBad, .tallies] s t ∧
       (t.mport m).scrubAt = ((s.mport m).scrubAt + 1) % lpFrames ∧ (t.mport m).scrubUs = usOf s ∧
       ∀ w, uniCheck s w = 0 → uniCheck t w = 0) ∧
   (∀ (m : Nat) (s : State), m < 16 → s.hub.phase = .running → s.weave.loaded = true → (s.mport m).init = false →
     ∃ t, exec (.rangeInitEnd m) s = .next t ∧ Only [.mports] s t ∧ (t.mport m).init = true ∧ (t.mport m).kept = false ∧
       ∀ q, q ≠ m → t.mport q = s.mport q)) ∧
  (∀ (k : Nat) (r : Retiring) (s : State), k < 256 → s.tiers.retiring.find? (fun r => r.cls == k) = some r → topFreed s k = true →
     chanFenced s (chanOf s k) = false →
     ∃ t, exec (.retirementCopy k) s = .next t ∧ Only [.tiers, .nvmFrames, .mports, .uniBad, .tallies] s t ∧
       t.nvmFrames = s.nvmFrames ++ [nvmName s k r.frame] ∧ framesLost t k = framesLost s k + 1 ∧ ∀ j, j ≠ k → framesLost t j = framesLost s j)

/-- MP_RELEASE: the port of the named tile acts on it only where it is the highest backed tile of a class with a retiring frame. Its contents are then
discarded (the model's free value, log 3) and no other byte changes; a write that names any other tile changes nothing (R200). Completes (exec answers
next with the command's own effect): MP_RELEASE. -/
def Obligations.TileRelease : Prop :=
  ∀ (who : Party) (m : Nat) (v : BitVec 64) (s : State), m < 16 → Admitted s who .admin →
    let g := bitsOf v.toNat 12 29
    (portOf s g = m → tileBacked s g = true → g = topTile s (classOf s g) → (∃ r ∈ s.tiers.retiring, r.cls = classOf s g) →
      ∃ t, exec (.mpRelease who m v) s = .next t ∧ Only [.uni, .tiers] s t ∧ g ∈ t.tiers.released ∧ t.tiers.resid = s.tiers.resid ∧
        mread t.uni (g * 4096) 4096 = natLE 4096 (Config.freeNat s.freeCtr) ∧ ∀ b, b / 4096 ≠ g → mget t.uni b = mget s.uni b) ∧
    (portOf s g ≠ m ∨ tileBacked s g = false ∨ g ≠ topTile s (classOf s g) ∨ (∀ r ∈ s.tiers.retiring, r.cls ≠ classOf s g) →
      exec (.mpRelease who m v) s = .next s)

/-! ### Optical ports and links (12) -/

/-- LS_RECAL and LOCK_LOSS of a laser die that does not calibrate put the die and every port it feeds that runs and is not TRIPPED into calibration; the
die counts the recalibration when no port it feeds calibrates or trains any more, at once where none runs; what it locks to is free (log 30). A lock
lost while it calibrates only clears its line (R241, R244). RECAL, TRACKING_ERROR and ERROR_RATIO_TRIGGER put a port that runs into CALIBRATING with
Tally 0x095; CALIBRATION_SWEEP, with every frame acknowledged, goes on to training, lit again; stated where no collective is in flight (R240, R242).
Completes (exec answers next with the command's own effect): RECAL, TRACKING_ERROR, ERROR_RATIO_TRIGGER, CALIBRATION_SWEEP, LS_RECAL, LOCK_LOSS. -/
def Obligations.Calibration : Prop :=
  ((∀ (cmd : Instr) (q : Nat) (s : State), q < 4 → ((∃ who, Admitted s who .admin ∧ cmd = .lsRecal who q) ∨ ∃ line, line < 8 ∧ cmd = .lockLoss q line) →
     laserRetired (retiredOf s.weave.cur.sects) q = false → (s.laser q).calibrating = false →
     ∃ t, exec cmd s = .next t ∧ Only [.lasers, .oports, .tallies] s t ∧ (t.laser q).fail = ~~~(t.laser q).lock ∧ (∀ r, r ≠ q → t.laser r = s.laser r) ∧
       (∀ p, p / 8 ≠ q → t.oport p = s.oport p) ∧
       (∀ p, p / 8 = q → opMode s p ≠ 0 → (s.oport p).state ≠ 4 →
         (t.oport p).state = 3 ∧ (t.laser q).calibrating = true ∧ (t.laser q).recals = (s.laser q).recals) ∧
       ((∀ p, p / 8 = q → (opMode s p = 0 ∨ (s.oport p).state = 4) ∧ (s.oport p).state ≠ 1 ∧ (s.oport p).state ≠ 3) →
         (t.laser q).calibrating = false ∧ (t.laser q).recals = stick (s.laser q).recals 1)) ∧
   (∀ (q line : Nat) (s : State), q < 4 → line < 8 → laserRetired (retiredOf s.weave.cur.sects) q = false → (s.laser q).calibrating = true →
     ∃ t, exec (.lockLoss q line) s = .next t ∧ Only [.lasers] s t ∧
       t.laser q = { s.laser q with lock := (s.laser q).lock &&& ~~~(BitVec.ofNat 8 (2 ^ line)) } ∧ ∀ r, r ≠ q → t.laser r = s.laser r)) ∧
  ((∀ (who : Party) (p reason : Nat) (cmd : Instr) (s : State), p < 32 → Admitted s who .admin →
     (cmd = .recal who p ∧ reason = 0 ∨ cmd = .trackingError p ∧ reason = 1 ∨ cmd = .errorRatioTrigger p ∧ reason = 2) →
     opMode s p ≠ 0 → (s.oport p).state ≠ 3 → (s.oport p).state ≠ 4 →
     ∃ t, exec cmd s = .next t ∧ Only [.oports, .tallies] s t ∧ t.oport p = { s.oport p with state := 3, calSince := s.time } ∧
       (∀ q, q ≠ p → t.oport q = s.oport q) ∧
       ∃ x, (t.tally (uOport p)).fresh = (s.tally (uOport p)).fresh ++ [x] ∧ x.code = 0x095 ∧ x.payload.toNat = reason) ∧
   (∀ (p : Nat) (s : State), p < 32 → (s.oport p).state = 3 → (s.oport p).unacked = [] → portTrains s p = true → (∀ e, (s.ce e).inflight = []) →
     ∃ t, exec (.calibrationSweep p) s = .next t ∧ Only [.oports] s t ∧ (t.oport p).state = 1 ∧ (t.oport p).dark = false ∧
       (t.oport p).txSeq = (s.oport p).txSeq ∧ (t.oport p).rxSeq = (s.oport p).rxSeq ∧ (t.oport p).rxq = (s.oport p).rxq ∧
       ∀ q, q ≠ p → t.oport q = s.oport q))

/-- EYE_SAFETY_TRIP darkens a port one of whose wavelengths in use launches more than 0.5 dB above its limit and latches TRIP; CLEARTRIP relights it at 3
dB below the limit, in training, where the port may run, and leaves it dark and DOWN where it is off; it is the way out of TRIPPED; RETRAIN trains a
port that is neither off nor TRIPPED, one that calibrates once it has done so; stated where no collective is in flight and no access outstanding
(R222, R232, R242, R243). LINK_TRAINING brings up a fabric port whose peer has the rank its plan names, with sequence numbers and credit afresh, and
leaves another DOWN, to be tried again after 10 ms by TRAINING_RETRY; it brings up an Ethernet port whatever its peer (R232). Completes (exec answers
next with the command's own effect): LINK_TRAINING, TRAINING_RETRY, RETRAIN, CLEARTRIP, EYE_SAFETY_TRIP. -/
def Obligations.EyeSafetyAndTraining : Prop :=
  ((∀ (p line : Nat) (x : BitVec 8) (s : State), p < 32 → line < litLines s p → (s.oport p).dark = false → launchLimit s p + 5 < x.toInt →
     ∃ t, exec (.eyeSafetyTrip p line x) s = .next t ∧ Only [.oports, .lasers, .tallies] s t ∧
       t.oport p = { s.oport p with state := 4, trip := true, dark := true, advert := none } ∧
       (∀ q, q ≠ p → t.oport q = s.oport q) ∧ ∀ q, q ≠ p / 8 → t.laser q = s.laser q) ∧
   (∀ (who : Party) (p : Nat) (s : State), p < 32 → Admitted s who .admin → (s.oport p).state = 4 → (∀ e, (s.ce e).inflight = []) →
     (portTrains s p = true →
       ∃ t, exec (.cleartrip who p) s = .next t ∧ Only [.oports] s t ∧ (t.oport p).state = 1 ∧ (t.oport p).trip = false ∧ (t.oport p).dark = false ∧
         (t.oport p).launch = List.replicate (litLines s p) (BitVec.ofInt 8 (launchLimit s p - 30)) ∧ ∀ q, q ≠ p → t.oport q = s.oport q) ∧
     (opMode s p = 0 →
       ∃ t, exec (.cleartrip who p) s = .next t ∧ Only [.oports] s t ∧ t.oport p = { s.oport p with trip := false, state := 0 } ∧
         ∀ q, q ≠ p → t.oport q = s.oport q)) ∧
   (∀ (who : Party) (p : Nat) (s : State), p < 32 → Admitted s who .admin → opMode s p ≠ 0 → (s.oport p).state = 3 →
     ∃ t, exec (.retrain who p) s = .next t ∧ Only [.oports] s t ∧ t.oport p = { s.oport p with retrain := true } ∧ ∀ q, q ≠ p → t.oport q = s.oport q) ∧
   (∀ (who : Party) (p : Nat) (s : State), p < 32 → Admitted s who .admin → portTrains s p = true → (s.oport p).state ≠ 3 → (s.oport p).state ≠ 4 →
     (∀ e, (s.ce e).inflight = []) → s.accesses = [] →
     ∃ t, exec (.retrain who p) s = .next t ∧ Only [.oports, .tallies] s t ∧ (t.oport p).state = 1 ∧ ∀ q, q ≠ p → t.oport q = s.oport q)) ∧
  ((∀ (p a b g : Nat) (s : State), p < 32 → (s.oport p).state = 1 → rateOk s p = true → (s.oport p).retrain = false →
     (opMode s p = 1 ∧ a = (portPlan (opSects s p) p).2 ∧ b = ownRank (opSects s p) ∨ opMode s p = 2) →
     ∃ t, exec (.linkTraining p a b g) s = .next t ∧ Only [.oports, .lasers, .tallies, .accesses] s t ∧ (t.oport p).state = 2 ∧
       (t.oport p).rxSeq = (s.oport p).rxSeq ∧ (t.oport p).rxq = (s.oport p).rxq ∧
       ((s.oport p).held = [] → t.oport p = { s.oport p with state := 2 }) ∧ ∀ q, q ≠ p → t.oport q = s.oport q) ∧
   (∀ (p a b g : Nat) (s : State), p < 32 → (s.oport p).state = 1 → opMode s p = 1 → rateOk s p = true →
     (a ≠ (portPlan (opSects s p) p).2 ∨ b ≠ ownRank (opSects s p)) → s.accesses = [] → (∀ e, (s.ce e).inflight = []) →
     ∃ t, exec (.linkTraining p a b g) s = .next t ∧ Only [.oports, .lasers, .tallies] s t ∧ (t.oport p).state = 0 ∧ (t.oport p).retryTrain = true ∧
       (t.oport p).downSince = s.time ∧ ∀ q, q ≠ p → t.oport q = s.oport q) ∧
   (∀ (p a b g : Nat) (s : State), p < 32 → (s.oport p).state = 1 → opMode s p ≠ 0 → rateOk s p = false → s.accesses = [] → (∀ e, (s.ce e).inflight = []) →
     ∃ t, exec (.linkTraining p a b g) s = .next t ∧ Only [.oports, .lasers, .tallies] s t ∧ (t.oport p).state = 0 ∧ ∀ q, q ≠ p → t.oport q = s.oport q) ∧
   (∀ (p : Nat) (s : State), p < 32 → (s.oport p).state = 0 → (s.oport p).retryTrain = true → (s.oport p).downSince.toNat + 10000000 ≤ s.time.toNat →
     portTrains s p = true →
     ∃ t, exec (.trainingRetry p) s = .next t ∧ Only [.oports] s t ∧ (t.oport p).state = 1 ∧ (t.oport p).retryTrain = false ∧
       ∀ q, q ≠ p → t.oport q = s.oport q))

/-! ### The fabric (12) -/

/-- FRAME_RECEIVE: a frame in sequence with a good CRC advances the sequence; a packet in it for this device whose words are good goes to the receive
buffer, the credit it returns is the sender's again, and its NAK has every frame after ACKSEQ sent again, with Tally 0x092; any other frame is owed a
NAK and delivers nothing; the FEC's corrections count; stated where no packet waits at the port and no collective is in flight (R227, R230, R231,
R244). RESEND_TIMEOUT: where the oldest frame has gone unacknowledged for 2 µs, every frame unacknowledged is sent again, with Tally 0x092, up to
eight times; then the link goes DOWN and trains; stated where no collective is in flight and, for a link that goes DOWN, no access outstanding (R231).
Completes (exec answers next with the command's own effect): FRAME_RECEIVE, RESEND_TIMEOUT. -/
def Obligations.FabricFrames : Prop :=
  ((∀ (p vc : Nat) (f : Frame) (k : FabPkt) (s : State), p < 32 → opMode s p = 1 → linkRuns (s.oport p) = true → f.crcOk = true → f.seq = (s.oport p).rxSeq →
     f.nak = false → f.credit = 0 → (s.oport p).held = [] → f.pkts = [k] → (k.header = .good ∧ k.header1 = .good) → (∀ c ∈ k.checks, c = .good) →
     (k.sigc0 = .good ∧ k.sigc1 = .good) → vcOf k.typ.toNat = some vc → k.dst.toNat = ownRank (opSects s p) →
     rxWords (s.oport p) vc + pktWords k ≤ vcWords vc → bridges s p k = false → (∀ e, (s.ce e).inflight = []) →
     ∃ t, exec (.frameReceive p f) s = .next t ∧ Only [.oports] s t ∧ (t.oport p).rxSeq = (s.oport p).rxSeq + 1 ∧ (t.oport p).nakOwed = false ∧
       (t.oport p).rxq = (s.oport p).rxq ++ [k] ∧ (t.oport p).e2eCorr = (s.oport p).e2eCorr ∧ ∀ q, q ≠ p → t.oport q = s.oport q) ∧
   (∀ (p : Nat) (f : Frame) (s : State), p < 32 → opMode s p = 1 → linkRuns (s.oport p) = true → f.crcOk = true → f.seq = (s.oport p).rxSeq →
     (s.oport p).held = [] → f.pkts = [] → (∀ e, (s.ce e).inflight = []) →
     (f.nak = false → f.creditVc.toNat ≠ 3 →
       ∃ t, exec (.frameReceive p f) s = .next t ∧ Only [.oports] s t ∧ (t.oport p).rxSeq = (s.oport p).rxSeq + 1 ∧ (t.oport p).nakOwed = false ∧
         (f.credit ≠ 0 → tget vcWords (t.oport p).credit f.creditVc.toNat =
           min (vcWords f.creditVc.toNat) (tget vcWords (s.oport p).credit f.creditVc.toNat + f.credit)) ∧
         (∀ v, v ≠ f.creditVc.toNat → tget vcWords (t.oport p).credit v = tget vcWords (s.oport p).credit v) ∧ ∀ q, q ≠ p → t.oport q = s.oport q) ∧
     (f.nak = true → f.credit = 0 → (∀ x ∈ (ackFrames (s.oport p) f.ackseq).unacked, x.resent < 8) →
       ∃ t, exec (.frameReceive p f) s = .next t ∧ Only [.oports, .tallies] s t ∧ (t.oport p).rxSeq = (s.oport p).rxSeq + 1 ∧ (t.oport p).nakOwed = false ∧
         (t.oport p).unacked = (ackFrames (s.oport p) f.ackseq).unacked.map (fun x => { x with sent := s.time, resent := x.resent + 1 }) ∧
         (∃ x, (t.tally (uOport p)).fresh = (s.tally (uOport p)).fresh ++ [x] ∧ x.code = 0x092) ∧ ∀ q, q ≠ p → t.oport q = s.oport q)) ∧
   (∀ (p : Nat) (f : Frame) (s : State), p < 32 → opMode s p = 1 → linkRuns (s.oport p) = true → (f.crcOk = false ∨ f.seq ≠ (s.oport p).rxSeq) →
     ∃ t, exec (.frameReceive p f) s = .next t ∧ Only [.oports] s t ∧
       t.oport p = { s.oport p with nakOwed := true, ctr := ctrAdd (s.oport p).ctr 0x028 f.fec } ∧ ∀ q, q ≠ p → t.oport q = s.oport q)) ∧
  (∀ (p : Nat) (f : TxFrame) (rest : List TxFrame) (s : State), p < 32 → linkRuns (s.oport p) = true → (s.oport p).unacked = f :: rest →
     f.sent.toNat + 2000 ≤ s.time.toNat → (∀ e, (s.ce e).inflight = []) →
     ((∀ x ∈ f :: rest, x.resent < 8) →
       ∃ t, exec (.resendTimeout p) s = .next t ∧ Only [.oports, .tallies] s t ∧ (t.oport p).state = (s.oport p).state ∧
         (t.oport p).unacked = (f :: rest).map (fun x => { x with sent := s.time, resent := x.resent + 1 }) ∧
         (t.oport p).outbox = (s.oport p).outbox ++ (f :: rest).map (fun x => frameWith (s.oport p) x.seq (0, 0) x.pkt) ∧
         (∃ x, (t.tally (uOport p)).fresh = (s.tally (uOport p)).fresh ++ [x] ∧ x.code = 0x092) ∧ ∀ q, q ≠ p → t.oport q = s.oport q) ∧
     ((∃ x ∈ f :: rest, 8 ≤ x.resent) → s.accesses = [] → portTrains s p = true →
       ∃ t, exec (.resendTimeout p) s = .next t ∧ Only [.oports, .tallies] s t ∧ (t.oport p).state = 1 ∧ (t.oport p).unacked = [] ∧
         (t.oport p).downs = stick (s.oport p).downs 1 ∧ ∀ q, q ≠ p → t.oport q = s.oport q))

/-- WRITE: an admitted write packet without a signal stores its bytes at ADDR in the unified range, and no other byte changes; stated where no collective
is in flight (R229, R234). A request that R234 refuses is recorded with Tally 0x094 in the port's ring and changes no byte of memory. ADD, READREQ and
SIGNAL. An admitted add of elements, an admitted read and a signal packet complete: an add changes no byte outside its region and the word of a signal
that it carries, a read none at all, a signal only the 8 bytes of its word (R182, R229, R275); stated where no collective is in flight and no landing
area held. Completes (exec answers next with the command's own effect): WRITE, ADD, READREQ, SIGNAL_PACKET. -/
def Obligations.RequestPackets : Prop :=
  (∀ (p : Nat) (k : FabPkt) (s s1 : State), p < 32 → takeFront s p 0x01 = some (k, s1) → dataBad k = false → (∀ e, (s.ce e).inflight = []) →
     (k.att = true → s.areas = []) →
     let a := pktAddr k
     let bs := pktData k
     reqRefuse s1 p k a (pktBytes k) true = none → Backed s1 a bs.length →
     ∃ t, exec (.write p) s = .next t ∧ Only (writeParts ++ [.oports, .paths]) s t ∧ (∀ n, (t.core n).scratch = (s.core n).scratch) ∧
       (k.att = false → mread t.uni a bs.length = bs ∧ (∀ b, b < a ∨ a + bs.length ≤ b → mget t.uni b = mget s.uni b) ∧ t.host = s.host ∧ CtxsSeen s t) ∧
       (k.att = true → ∀ b, b < pktSigAddr k ∨ pktSigAddr k + 8 ≤ b → mget t.uni b = mget (mwrite s.uni a bs) b)) ∧
  (∀ (p typ : Nat) (cmd : Instr) (k : FabPkt) (st : Status) (s s1 : State), p < 32 →
     (typ = 0x01 ∧ cmd = .write p ∨ typ = 0x02 ∧ cmd = .add p ∨ typ = 0x03 ∧ cmd = .readreq p) → takeFront s p typ = some (k, s1) → dataBad k = false →
     reqRefuse s1 p k (pktAddr k) (pktBytes k) (decide (typ ≠ 0x03)) = some st →
     ∃ t, exec cmd s = .next t ∧ Only [.oports, .tallies, .paths] s t ∧
       ∃ x, (t.tally (uOport p)).fresh = (s.tally (uOport p)).fresh ++ [x] ∧ x.code = 0x094) ∧
  ((∀ (p : Nat) (k : FabPkt) (s s1 : State), p < 32 → takeFront s p 0x02 = some (k, s1) → dataBad k = false → k.fmt.toNat ≤ 1 →
     (∀ e, (s.ce e).inflight = []) → (k.att = true → s.areas = []) →
     reqRefuse s1 p k (pktAddr k) (pktBytes k) true = none → devFault s1 (pktAddr k) (pktBytes k) = none →
     ∃ t, exec (.add p) s = .next t ∧ Only (writeParts ++ [.oports, .paths, .hub2]) s t ∧
       (∀ b, b < pktAddr k ∨ pktAddr k + pktBytes k ≤ b → k.att = false ∨ b < pktSigAddr k ∨ pktSigAddr k + 8 ≤ b → mget t.uni b = mget s.uni b) ∧
       ∀ n, (t.core n).scratch = (s.core n).scratch) ∧
   (∀ (p : Nat) (k : FabPkt) (s s1 : State), p < 32 → takeFront s p 0x03 = some (k, s1) → reqRefuse s1 p k (pktAddr k) (pktBytes k) false = none →
     ∃ t, exec (.readreq p) s = .next t ∧ Only (readParts ++ [.oports, .paths]) s t ∧ t.uni = s.uni ∧ t.host = s.host) ∧
   (∀ (p : Nat) (k : FabPkt) (s s1 : State), p < 32 → takeFront s p 0x04 = some (k, s1) → rankFenced s1 k.src.toNat = false → dataBad k = false →
     (∀ e, (s.ce e).inflight = []) → (k.att = true → s.areas = []) →
     ∃ t, exec (.signalPacket p) s = .next t ∧ Only (writeParts ++ [.oports, .paths]) s t ∧
       (∀ b, b < pktSigAddr k ∨ pktSigAddr k + 8 ≤ b → mget t.uni b = mget s.uni b) ∧ ∀ n, (t.core n).scratch = (s.core n).scratch))

/-- READRSP and ACK end the access they answer, and it is no longer outstanding: a READRSP's data waits at the command whose gather asked for it, to be
written in order, and goes nowhere once that command has ended; ACK_TIMEOUT ends an access whose packet has gone unacknowledged for 50 µs; stated for
an access of a core, where no collective is in flight (R218, R226, R229, R275, R410). ROUTE_PATH_CHANGE: with no packet of the route unacknowledged
but those that wait for the change, the route takes the path it should and no longer changes; no packet waits for it any more, and its accesses go by
that port (R225, R226). Device time. TIME_SEND sends the time on a port that is UP; TIME records the pair, and a device that is not rank 0 slews
toward rank 0's time by one nanosecond in a microsecond at most; a TIME packet with an uncorrectable word is not used (R233, R236). Completes (exec
answers next with the command's own effect): READRSP, ACK, TIME, TIME_SEND, ACK_TIMEOUT, ROUTE_PATH_CHANGE. -/
def Obligations.ResponsesAndRoutes : Prop :=
  ((∀ (p : Nat) (k : FabPkt) (a : Access) (side : Option Nat) (d : Nat) (s s1 : State), p < 32 → takeFront s p 0x10 = some (k, s1) → answered s1 k [0x03] = some a →
     dataBad k = false → k.status = stDone → a.dst = some (side, d) → (∀ e, (s.ce e).inflight = []) → a.unit < 800 →
     let w : Wr := { scratch := side, addr := d, bytes := unpackWords a.words (k.data.take k.len.toNat) }
     ∃ t, exec (.readrsp p) s = .next t ∧ Only [.oports, .cores, .accesses] s t ∧ (∀ x ∈ t.accesses, x.tag ≠ a.tag) ∧
       (∀ x ∈ s.accesses, x.tag ≠ a.tag → x ∈ t.accesses) ∧ (∀ n, (t.core n).scratch = (s.core n).scratch) ∧
       ∀ r ∈ (s.core a.unit).running, r.start = a.owner.2 →
         { r with land := r.land ++ [(a.idx, w)], status := worse r.status stDone } ∈ (t.core a.unit).running) ∧
   (∀ (p : Nat) (k : FabPkt) (a : Access) (s s1 : State), p < 32 → takeFront s p 0x11 = some (k, s1) → answered s1 k [0x01, 0x02, 0x04] = some a →
     (∀ e, (s.ce e).inflight = []) → a.unit < 800 →
     ∃ t, exec (.ack p) s = .next t ∧ Only [.oports, .cores, .accesses, .ctxs] s t ∧ (k.status ≠ stDropped → t.ctxs = s.ctxs) ∧
       (∀ x ∈ t.accesses, x.tag ≠ a.tag) ∧ (∀ x ∈ s.accesses, x.tag ≠ a.tag → x ∈ t.accesses) ∧
       ∀ r ∈ (s.core a.unit).running, r.start = a.owner.2 → respStatus k.status ≠ stEcc →
         { r with status := worse r.status (respStatus k.status) } ∈ (t.core a.unit).running) ∧
   (∀ (x : Nat) (a : Access) (s : State), x < 4096 →
     s.accesses.find? (fun a => a.live && a.tag % 4096 == x && decide (a.sent.toNat + 50000 ≤ s.time.toNat)) = some a →
     (∀ e, (s.ce e).inflight = []) → a.unit < 800 →
     ∃ t, exec (.ackTimeout x) s = .next t ∧ Only [.cores, .accesses, .ctxs, .tallies] s t ∧ (∀ y ∈ t.accesses, y.tag ≠ a.tag) ∧
       ∀ r ∈ (s.core a.unit).running, r.start = a.owner.2 → { r with status := worse r.status stLink } ∈ (t.core a.unit).running)) ∧
  (∀ (rank p : Nat) (r : Route) (s : State), rank < 33 → (tget pathDef s.paths rank).change = true → routeTo s.weave.cur.sects rank = some r →
     routeOpen s (livePort s r) rank = false → wantPort s r = some p →
     ∃ t, exec (.routePathChange rank) s = .next t ∧ Only [.oports, .paths, .accesses] s t ∧
       tget pathDef t.paths rank = { alt := decide (p ≠ r.prim), change := false } ∧ (∀ q, q ≠ rank → tget pathDef t.paths q = tget pathDef s.paths q) ∧
       (∀ k ∈ (t.oport r.prim).waiting, k.fwd = true ∨ k.dst.toNat ≠ rank) ∧
       (∀ k ∈ (s.oport r.prim).waiting, k.fwd = false → k.dst.toNat = rank → k ∈ (t.oport p).held ∨ ∃ f ∈ (t.oport p).outbox, k ∈ f.pkts) ∧
       t.accesses.map (·.tag) = s.accesses.map (·.tag) ∧ ∀ a ∈ t.accesses, a.rank = rank → a.port = p) ∧
  ((∀ (p : Nat) (s : State), p < 32 → opMode s p = 1 → portUp s p = true →
     ∃ t, exec (.timeSend p) s = .next t ∧ Only [.oports] s t ∧ (t.oport p).lastTimeTx = some s.time ∧ ∀ q, q ≠ p → t.oport q = s.oport q) ∧
   (∀ (p : Nat) (k : FabPkt) (s s1 : State), p < 32 → takeFront s p 0x20 = some (k, s1) →
     (dataBad k = false →
       ∃ t, exec (.time p) s = .next t ∧ Only [.oports, .slew, .slewUs] s t ∧ t.time = s.time ∧ (t.oport p).lastTimeRx = some (k.data.getD 0 0, s.time) ∧
         (t.slew ≠ s.slew → s.slewUs < usOf s ∧ t.slewUs = usOf s ∧ ownRank (opSects s p) ≠ 0)) ∧
     (dataBad k = true →
       ∃ t, exec (.time p) s = .next t ∧ Only [.oports] s t ∧ (t.oport p).e2eUncorr = true ∧ (t.oport p).lastTimeRx = (s.oport p).lastTimeRx)))

/-! ### Ethernet (12) -/

/-- Frames at an Ethernet port that is up: ARP and neighbour resolution of a valid queue pair's address are answered, and of any other dropped and
counted; a request packet gets a NAK from its queue pair's own addresses, and one of no queue pair is dropped and counted; a CNP and a dropped frame
are counted; each counts in OP_FRAMES (R237, R238, R239). Completes (exec answers next with the command's own effect): ARP_REQUEST,
NEIGHBOUR_SOLICITATION, ACK_OR_NAK, REQUEST_PACKET, CNP, DROPPED_FRAME. -/
def Obligations.EthernetFrames : Prop :=
  (∀ (p : Nat) (g sn : List Byte) (v6 : Bool) (cmd : Instr) (s : State), p < 32 → ethUp s p = true →
    (v6 = false ∧ cmd = .arpRequest p g sn ∨ v6 = true ∧ cmd = .neighbourSolicitation p g sn) →
    (∀ i, qpByAddr s p v6 g = some i →
      ∃ t f, exec cmd s = .next t ∧ Only [.oports] s t ∧ (t.oport p).ethOut = (s.oport p).ethOut ++ [f] ∧
        f = (if v6 then EthOut.advert (qpRec s p i).lmac g sn else EthOut.arpReply (qpRec s p i).lmac g sn) ∧ ∀ q, q ≠ p → t.oport q = s.oport q) ∧
    (qpByAddr s p v6 g = none →
      ∃ t, exec cmd s = .next t ∧ Only [.oports] s t ∧ (t.oport p).ethOut = (s.oport p).ethOut ∧
        bitsOf (tget d0 (t.oport p).ctr 0x050).toNat 32 32 = min (bitsOf (tget d0 (s.oport p).ctr 0x050).toNat 32 32 + 1) (2 ^ 32 - 1))) ∧
  (∀ (p i : Nat) (k : RocePkt) (s : State), p < 32 → ethUp s p = true → roceQp s p k = some i →
    ∃ t, exec (.requestPacket p k) s = .next t ∧ Only [.oports] s t ∧
      (t.oport p).ethOut = (s.oport p).ethOut ++ [EthOut.nakInvalid (qpRec s p i).hdr i k.psn.toNat]) ∧
  (∀ (p : Nat) (k : RocePkt) (cmd : Instr) (s : State), p < 32 → ethUp s p = true → roceQp s p k = none → (cmd = .requestPacket p k ∨ cmd = .ackOrNak p k) →
    ∃ t, exec cmd s = .next t ∧ Only [.oports] s t ∧ (t.oport p).ethOut = (s.oport p).ethOut ∧
      bitsOf (tget d0 (t.oport p).ctr 0x050).toNat 32 32 = min (bitsOf (tget d0 (s.oport p).ctr 0x050).toNat 32 32 + 1) (2 ^ 32 - 1)) ∧
  (∀ (p : Nat) (s : State), p < 32 → ethUp s p = true →
    (∃ t, exec (.cnp p) s = .next t ∧ Only [.oports] s t ∧ tget d0 (t.oport p).ctr 0x018 = stick (tget d0 (s.oport p).ctr 0x018) 1 ∧
      bitsOf (tget d0 (t.oport p).ctr 0x050).toNat 0 32 = min (bitsOf (tget d0 (s.oport p).ctr 0x050).toNat 0 32 + 1) (2 ^ 32 - 1)) ∧
    ∃ t, exec (.droppedFrame p) s = .next t ∧ Only [.oports] s t ∧ tget d0 (t.oport p).ctr 0x018 = stick (tget d0 (s.oport p).ctr 0x018) 1 ∧
      bitsOf (tget d0 (t.oport p).ctr 0x050).toNat 32 32 = min (bitsOf (tget d0 (s.oport p).ctr 0x050).toNat 32 32 + 1) (2 ^ 32 - 1))

/-- Queue pairs. PAUSE stops a priority that a valid queue pair uses for its quanta; a READ response in sequence that is not the last packet of its
request is stored at its place of the tile; an ACK changes nothing but the frame count; a NAK for a sequence error has what is outstanding sent again
from its PSN on, one whose PSN is of no request outstanding nothing (log 31), and a timeout all that is outstanding; stated where no LOAD is in
progress, but for the response's own (R237, R238). Completes (exec answers next with the command's own effect): PAUSE, READ_RESPONSE, ACK_OR_NAK,
QP_TIMEOUT. -/
def Obligations.QueuePairs : Prop :=
  (∀ (p prio quanta i : Nat) (s : State), p < 32 → prio < 8 → ethUp s p = true → i ∈ validQps s p → (qpRec s p i).pcp = prio → s.loads = [] →
    ∃ t, exec (.pause p prio quanta) s = .next t ∧ Only [.oports] s t ∧
      tget dN (t.oport p).paused prio = (if quanta = 0 then 0 else s.time.toNat + cdiv (quanta * 512) 800) ∧
      (∀ j, j ≠ prio → tget dN (t.oport p).paused j = tget dN (s.oport p).paused j) ∧ ∀ q, q ≠ p → t.oport q = s.oport q) ∧
  (∀ (p i : Nat) (k : RocePkt) (d : RdRead) (rest : List RdRead) (j : LoadJob) (s : State), p < 32 → ethUp s p = true → roceQp s p k = some i →
    (qpRun s p i).outstanding = d :: rest → k.psn.toNat = (d.psn + (qpRun s p i).got) % 2 ^ 24 → getJob s d.job = some j →
    (qpRun s p i).got + 1 < d.pkts →
    let off := (qpRun s p i).got * (qpRec s p i).mtu
    let a := (ldOf j.rec'.bytes).dst + 4096 * d.tile + off
    let bs := k.payload.take (min (qpRec s p i).mtu (d.len - off))
    spaceOf a = .uni → Backed s a bs.length →
    ∃ t, exec (.readResponse p k) s = .next t ∧ Only (.oports :: writeParts) s t ∧ mread t.uni a bs.length = bs ∧
      (∀ b, b < a ∨ a + bs.length ≤ b → mget t.uni b = mget s.uni b) ∧ (qpRun t p i).got = (qpRun s p i).got + 1 ∧
      (qpRun t p i).outstanding = (qpRun s p i).outstanding ∧ (qpRun t p i).since = s.time ∧ CtxsSeen s t) ∧
  (∀ (p i : Nat) (k : RocePkt) (s : State), p < 32 → ethUp s p = true → roceQp s p k = some i →
    (k.nak = false → ∃ t, exec (.ackOrNak p k) s = .next t ∧ Only [.oports] s t ∧ qpRun t p i = qpRun s p i ∧ (t.oport p).ethOut = (s.oport p).ethOut) ∧
    (k.nak = true → k.seqErr = true → s.loads = [] →
      ((qpRun s p i).outstanding.any (·.has k.psn.toNat) = true → (qpRun s p i).retries < (qpRec s p i).retry →
        ∃ t l, exec (.ackOrNak p k) s = .next t ∧ Only [.oports] s t ∧ (qpRun t p i).retries = (qpRun s p i).retries + 1 ∧
          (qpRun t p i).since = s.time ∧ (t.oport p).ethOut = (s.oport p).ethOut ++ l ∧
          l.length = ((qpRun s p i).outstanding.dropWhile (fun x => !x.has k.psn.toNat)).length) ∧
      ((qpRun s p i).outstanding.any (·.has k.psn.toNat) = false →
        ∃ t, exec (.ackOrNak p k) s = .next t ∧ Only [.oports] s t ∧ qpRun t p i = qpRun s p i ∧ (t.oport p).ethOut = (s.oport p).ethOut))) ∧
  (∀ (p i : Nat) (s : State), p < 32 → i < 128 → s.loads = [] → (qpRun s p i).outstanding ≠ [] → (qpRun s p i).retries < (qpRec s p i).retry →
    (qpRun s p i).since.toNat + 4096 * 2 ^ (qpRec s p i).timeout ≤ s.time.toNat →
    ∃ t l, exec (.qpTimeout p i) s = .next t ∧ Only [.oports] s t ∧ (qpRun t p i).retries = (qpRun s p i).retries + 1 ∧
      (t.oport p).ethOut = (s.oport p).ethOut ++ l ∧ l.length = (qpRun s p i).outstanding.length)

/-! ### Engines of a core (04, 05, 06, 07, 09, 11) -/

/-- The issued command of an opcode runs to its end on its engine. With no check-code error in the core's scratchpad or tile buffers, MATMUL, VECOP and
VECRED change the scratchpad and registers of their own core only, mark their command done, and touch no other running command (R58, R82, R83). What a
VECOP computes: element i of Z is the operation's result on elements i of X and Y, rounded once to the format of Z, and no byte of the scratchpad
outside Z changes (R82). Completes (exec answers next with the command's own effect): MATMUL, VECOP, VECRED. -/
def Obligations.MatrixAndVectorRun : Prop :=
  (∀ (n e op : Nat) (cmd : Instr) (r : Running) (s : State), n < 800 →
     (cmd = .matmul n ∧ e = 0 ∧ op = 0x01 ∨ cmd = .vecop n ∧ e = 1 ∧ op = 0x10 ∨ cmd = .vecred n ∧ e = 1 ∧ op = 0x11) →
     runningOp (s.core n) e [op] = some r → (s.core n).bad = [] → (op = 0x01 → tilesLeft (s.core n) r (matParam r.rec'.bytes) ≠ [] ∧ (s.core n).buf0.bad = [] ∧ (s.core n).buf1.bad = []) →
     ∃ t, exec cmd s = .next t ∧ Only [.cores] s t ∧ (∀ m, m ≠ n → t.core m = s.core m) ∧ (t.core n).queues = (s.core n).queues ∧
       (t.core n).running.map (·.start) = (s.core n).running.map (·.start) ∧
       (∀ x ∈ (t.core n).running, x.start = r.start → x.done = true ∧ x.rec' = r.rec' ∧ (x.status = stDone ∨ x.status = stSaturated)) ∧
       ∀ x ∈ (s.core n).running, x.start ≠ r.start → x ∈ (t.core n).running) ∧
  (∀ (n : Nat) (r : Running) (s : State), n < 800 → runningOp (s.core n) 1 [0x10] = some r → (s.core n).bad = [] →
     let p := vecParam r.rec'.bytes
     let z := fmtSize p.zfmt
     ∃ t, exec (.vecop n) s = .next t ∧
       (∀ i, i < p.count → mread (t.core n).scratch (p.z + i * z) z =
         (vecElem p (elemCode p.xfmt (spRead s n p.x p.regX.reg.2) i) (elemCode p.yfmt (spRead s n p.y p.regY.reg.2) i)).bytes) ∧
       ∀ a, (a < p.z ∨ p.z + p.count * z ≤ a) → mget (t.core n).scratch a = mget (s.core n).scratch a)

/-- The tile buffers. TILE_FILL_START lets the next tile of the oldest running MATMUL fill a free buffer once the array is free, TOTALS_FINAL makes a
buffer whose totals are final FULL and holds its tile's totals in it, EPILOGUE_START takes the FULL buffer that filled first and holds it until its
last row (R70, R71). BUFFER_EMPTY: by the CCLK of its last row the draining buffer has written its tile's rows, in order, and is EMPTY; the
operation's last tile makes its command done; stated where no word of the scratchpad or of the buffer is in error (R70, R71). Completes (exec answers
next with the command's own effect): TILE_FILL_START, TOTALS_FINAL, EPILOGUE_START, BUFFER_EMPTY. -/
def Obligations.TileBuffers : Prop :=
  ((∀ (n t : Nat) (one : Bool) (r : Running) (s : State), n < 800 → fillRun (s.core n) = some r → ((s.core n).buf one).st = .empty →
     (one = true → (s.core n).buf0.st ≠ .empty) → ((s.core n).buf one).emptyT ≤ t → arrayFree (s.core n) ≤ t →
     ∃ u, exec (.tileFillStart n t) s = .next u ∧ Only [.cores] s u ∧ ((u.core n).buf one).st = .filling ∧ ((u.core n).buf one).op = r.start ∧
       ((u.core n).buf one).tile = r.tiles ∧ ((u.core n).buf one).firstT = t ∧ (u.core n).buf (!one) = (s.core n).buf (!one) ∧
       (u.core n).scratch = (s.core n).scratch ∧ (∀ x ∈ (u.core n).running, x.start = r.start → x.tiles = r.tiles + 1) ∧
       ∀ m, m ≠ n → u.core m = s.core m) ∧
   (∀ (n t : Nat) (s : State), n < 800 → (s.core n).bad = [] →
     ∃ u, exec (.totalsFinal n t) s = .next u ∧ Only [.cores] s u ∧ (u.core n).scratch = (s.core n).scratch ∧ (u.core n).running = (s.core n).running ∧
       (∀ m, m ≠ n → u.core m = s.core m) ∧
       ∀ one, (∀ r, ((s.core n).buf one).st = .filling → fullAt ((s.core n).buf one) ≤ t →
           (s.core n).running.find? (fun x => x.start == ((s.core n).buf one).op) = some r →
           (u.core n).buf one = loadTots s n (matParam r.rec'.bytes) { (s.core n).buf one with st := .full, fullT := fullAt ((s.core n).buf one) }) ∧
         (((s.core n).buf one).st ≠ .filling ∨ t < fullAt ((s.core n).buf one) → (u.core n).buf one = (s.core n).buf one)) ∧
   (∀ (n t : Nat) (one : Bool) (r : Running) (s : State), n < 800 → oldestFull (s.core n) = some one → (s.core n).draining = false →
     ((s.core n).buf one).fullT + 1 ≤ t → (s.core n).epiFreeT ≤ t → (s.core n).running.find? (fun x => x.start == ((s.core n).buf one).op) = some r →
     ∃ u, exec (.epilogueStart n t) s = .next u ∧ Only [.cores] s u ∧
       (u.core n).buf one = { (s.core n).buf one with st := .draining, emptyT := (matParam r.rec'.bytes).drainTime ((s.core n).buf one).tile t } ∧
       t < ((u.core n).buf one).emptyT ∧ (u.core n).buf (!one) = (s.core n).buf (!one) ∧ ∀ m, m ≠ n → u.core m = s.core m)) ∧
  (∀ (n t : Nat) (one : Bool) (r : Running) (s : State), n < 800 → ((s.core n).buf one).st = .draining → ((s.core n).buf (!one)).st ≠ .draining →
     ((s.core n).buf one).emptyT ≤ t → (s.core n).running.find? (fun x => x.start == ((s.core n).buf one).op) = some r → (s.core n).bad = [] →
     ((s.core n).buf one).bad = [] →
     ∃ u, exec (.bufferEmpty n t) s = .next u ∧ Only [.cores] s u ∧ ((u.core n).buf one).st = .empty ∧ (u.core n).buf (!one) = (s.core n).buf (!one) ∧
       (u.core n).epiFreeT = ((s.core n).buf one).emptyT ∧ (∀ m, m ≠ n → u.core m = s.core m) ∧
       (u.core n).scratch =
         (tilePlan s n (matParam r.rec'.bytes) ((s.core n).buf one)).wrs.foldl (fun m w => mwrite m w.addr w.bytes) (s.core n).scratch ∧
       ((matParam r.rec'.bytes).tiles ≤ r.tiles → ((s.core n).buf (!one)).st = .empty → ∀ x ∈ (u.core n).running, x.start = r.start → x.done = true))

/-- UPDATE: with its descriptor in no COPYING phase, no fault on its way and no access held at the bridge of a change of generation (R31), its command
ends done, with the status and the count of its plan, and its final header waits for its completion (R177). COPY: a chain is walked as far as it goes.
One whose descriptors have all been carried out ends with the number of descriptors in DETAIL; a last descriptor that copies to the scratchpad leaves
there the writes of its walk, in order, before the chain ends; a HINT descriptor is handed to the memory ports and holds the chain until it is served;
stated of a descriptor that no change of generation holds at the bridge (R31, R195, R213, R220). Completes (exec answers next with the command's own
effect): UPDATE, COPY. -/
def Obligations.UpdateAndCopy : Prop :=
  (∀ (n : Nat) (r : Running) (s : State), n < 800 → runningOp (s.core n) 1 [0x12] = some r →
     (uHdr (devRead s (uCmd r.rec'.bytes).desc 64)).phase ≠ 2 →
     let o := updRun s r.by (sectsOf s (.core n)) (uCmd r.rec'.bytes) r.seed.toNat
     o.fault = none → updHeld s n o = false →
     ∃ t, exec (.update n) s = .next t ∧ (t.core n).running.map (·.start) = (s.core n).running.map (·.start) ∧
       ∀ x ∈ (t.core n).running, x.start = r.start → x.done = true ∧ x.rec' = r.rec' ∧ x.status = worst o.plan.status ∧ x.after = o.plan.after ∧
         x.count = BitVec.ofNat 32 o.plan.count) ∧
  ((∀ (n : Nat) (r : Running) (s : State), n < 800 → runningOp (s.core n) 2 [0x20] = some r → r.pos = r.chain.length → r.land = [] →
     copyWaits s n r = false → r.status = stDone →
     ∃ t, exec (.copy n) s = .next t ∧ Only [.cores] s t ∧ (∀ m, m ≠ n → t.core m = s.core m) ∧ (t.core n).scratch = (s.core n).scratch ∧
       ∀ x ∈ (t.core n).running, x.start = r.start → x.done = true ∧ x.detail = BitVec.ofNat 32 r.chain.length) ∧
   (∀ (n : Nat) (r : Running) (d : List Byte × List Byte) (s : State), n < 800 → runningOp (s.core n) 2 [0x20] = some r → r.land = [] →
     copyWaits s n r = false → r.status = stDone → r.chain[r.pos]? = some d → r.pos + 1 = r.chain.length → fld d.1 0 1 ≠ 3 → fld d.1 0 1 ≠ 4 →
     descHeld s n d.1 d.2 = false → (s.core n).bad = [] →
     let w := copyWalk s n (cDesc d.1)
     w.fault = none → (∀ x ∈ w.wrs, x.scratch = some n) →
     ∃ t, exec (.copy n) s = .next t ∧ Only (.cores :: readParts) s t ∧
       (∀ a, mget (t.core n).scratch a = mget (w.wrs.foldl (fun m x => mwrite m x.addr x.bytes) (s.core n).scratch) a) ∧
       ∀ x ∈ (t.core n).running, x.start = r.start → x.done = true ∧ x.detail = BitVec.ofNat 32 r.chain.length) ∧
   (∀ (n : Nat) (r : Running) (d : List Byte × List Byte) (s : State), n < 800 → runningOp (s.core n) 2 [0x20] = some r → r.land = [] →
     copyWaits s n r = false → r.status = stDone → r.chain[r.pos]? = some d → fld d.1 0 1 = 3 → descHeld s n d.1 d.2 = false →
     hintStopped s (hDesc d.1).hop (hDesc d.1).base (hDesc d.1).len = false →
     ∃ t h, exec (.copy n) s = .next t ∧ Only [.cores, .tiers] s t ∧ t.tiers.hints = s.tiers.hints ++ [h] ∧ h.op = (hDesc d.1).hop ∧
       h.base = (hDesc d.1).base ∧ h.len = (hDesc d.1).len ∧ h.owner = some (n, r.start) ∧ (t.core n).scratch = (s.core n).scratch ∧
       ∀ x ∈ (t.core n).running, x.start = r.start → x.done = false ∧ x.hints = 1 ∧ x.pos = r.pos + 1 ∧ x.tiles = r.pos))

/-- PUSH and POP with their operands readable, the pile in device memory, no tile lost and no access held at the bridge (R31), run to the descriptor's
write-back, which waits for the acknowledgement of the writes before it; a PUSH reports 64 bytes and its rounded payload (R105, R107, R108).
WOODPILE_WRITEBACK writes the descriptor of a PUSH or POP whose writes are acknowledged, its bytes at its place and no others; HOT_WINDOW_MOVE then
hands the tiles of the hot window to the memory ports, but those of a fenced unit (R105, R113, R283). Completes (exec answers next with the command's
own effect): PUSH, POP, WOODPILE_WRITEBACK, HOT_WINDOW_MOVE. -/
def Obligations.Woodpile : Prop :=
  ((∀ (n : Nat) (r : Running) (s : State), n < 800 → runningOp (s.core n) 2 [0x21] = some r →
     spFault s n (pCmd r.rec'.bytes).sp (pCmd r.rec'.bytes).bytes = none →
     let p := pushPlan s n r
     planHeld s n p = false → anyLost s = false → (∀ w ∈ p.wrs, spaceOf w.addr ≠ .host) →
     ∃ t, exec (.push n) s = .next t ∧ Only (writeParts) s t ∧
       ∀ x ∈ (t.core n).running, x.start = r.start → x.done = true ∧ x.after = p.after ∧ x.after.length = 1 ∧ x.count = BitVec.ofNat 32 p.count ∧
         64 ≤ p.count ∧ p.count % 64 = 0) ∧
   (∀ (n : Nat) (r : Running) (s : State), n < 800 → runningOp (s.core n) 2 [0x22] = some r →
     let p := popPlan s n r
     let w := wPile (devRead s (wpAt r.wptab n (pCmd r.rec'.bytes).pile) 64)
     planHeld s n p = false → p.status = [] → p.cut = false →
     ∃ t, exec (.pop n) s = .next t ∧ Only (writeParts) s t ∧
       ∀ x ∈ (t.core n).running, x.start = r.start → x.done = true ∧ (r.sat + r.nan = 0 → x.status = stDone) ∧ x.after = p.after ∧
         x.count = BitVec.ofNat 32 p.count ∧ x.detail = BitVec.ofNat 32 (w.depth - 1))) ∧
  ((∀ (n : Nat) (r : Running) (w : Wr) (s : State), n < 800 → awaitingBack (s.core n) = some r → r.after = [w] → w.scratch = none → spaceOf w.addr = .uni →
     Backed s w.addr w.bytes.length →
     ∃ t, exec (.woodpileWriteback n) s = .next t ∧ Only writeParts s t ∧ mread t.uni w.addr w.bytes.length = w.bytes ∧
       (∀ a, (a < w.addr ∨ w.addr + w.bytes.length ≤ a) → mget t.uni a = mget s.uni a) ∧
       ∀ x ∈ (t.core n).running, x.start = r.start → x.after = []) ∧
   (∀ (n : Nat) (r : Running) (h : Nat × Nat × Nat × Nat) (s : State), n < 800 →
     (s.core n).running.find? (fun r => r.done && r.hot.isSome && r.after = []) = some r → r.hot = some h →
     ∃ t, exec (.hotWindowMove n) s = .next t ∧ Only [.cores, .tiers] s t ∧ t.tiers.hints = s.tiers.hints ++ (hotHints s n h).filter (fun x => !hintStopped s x.op x.base x.len) ∧
       (∀ x ∈ (t.core n).running, x.start = r.start → x.hot = none) ∧ (t.core n).scratch = (s.core n).scratch))

/-- GATHER by its steps: a slice issued in a CCLK of its own counts its products, and a tile's last slice leaves its accumulator formed; a formed tile is
written back; with every tile written, the record's header counts the rows gathered, and the command is done; GATHER at once, where no word of the
unified range and of the scratchpad is in error, writes back every tile that is left, and no byte outside their accumulators changes; stated where the
record is not held at the bridge (R31, R125, R126, R127). Completes (exec answers next with the command's own effect): GATHER, GATHER_SLICE_ISSUE,
GSHARE_WINDOW_START, GATHER_TILE_WRITEBACK, GATHER_HEADER_WRITE. -/
def Obligations.GatherSteps : Prop :=
  (∀ (n : Nat) (m : Bool) (r : Running) (s : State), n < 800 → gatherFree s n = some r → formTile r < gatherTiles s r → r.slices < (gCmd r.rec'.bytes).rows →
    (m = true → (s.core n).gforcedW < (s.core n).gshare.toNat) → (s.core n).bad = [] →
    rdsFault s (sliceRds s n (gCmd r.rec'.bytes) (formTile r) r.slices) = none →
    ∃ t, exec (.gatherSliceIssue n m) s = .next t ∧ Only (.cores :: readParts) s t ∧ (t.core n).scratch = (s.core n).scratch ∧
      tget d0 (t.core n).ctr 0x018 = stick (tget d0 (s.core n).ctr 0x018) 1024 ∧
      tget d0 (t.core n).ctr (if m then 0x060 else 0x058) = stick (tget d0 (s.core n).ctr (if m then 0x060 else 0x058)) 1 ∧
      (t.core n).gforcedW = (s.core n).gforcedW + b2n m ∧
      ∀ x ∈ (t.core n).running, x.start = r.start → x.tiles = r.tiles ∧
        (r.slices + 1 < (gCmd r.rec'.bytes).rows → x.slices = r.slices + 1 ∧ x.formed = r.formed) ∧
        (r.slices + 1 = (gCmd r.rec'.bytes).rows → r.formed = false → x.slices = 0 ∧ x.formed = true)) ∧
  (∀ (n : Nat) (s : State), n < 800 →
    ∃ t, exec (.gshareWindowStart n) s = .next t ∧ Only [.cores] s t ∧ (t.core n).gforcedW = 0 ∧ (t.core n).gpend = none ∧
      (t.core n).gshare = (s.core n).gpend.getD (s.core n).gshare ∧ (t.core n).running = (s.core n).running ∧ ∀ m, m ≠ n → t.core m = s.core m) ∧
  (∀ (n : Nat) (cmd : Instr) (r : Running) (s : State), n < 800 → gatherFree s n = some r → r.formed = true →
    (cmd = .gatherTileWriteback n ∨ cmd = .gather n ∧ r.tiles + 1 = gatherTiles s r ∧ spaceOf (gCmd r.rec'.bytes).rec' = .uni) →
    let ws := tileWrs s n (gCmd r.rec'.bytes) r.tiles
    (∀ w ∈ ws, spaceOf w.addr = .uni ∧ Backed s w.addr w.bytes.length) →
    ∃ t, exec cmd s = .next t ∧ Only writeParts s t ∧ t.uni = ws.foldl (fun m w => mwrite m w.addr w.bytes) s.uni ∧
      ∀ x ∈ (t.core n).running, x.start = r.start → x.tiles = r.tiles + 1 ∧ x.done = r.done) ∧
  (∀ (n : Nat) (r : Running) (s : State), n < 800 → gatherFree s n = some r →
    let a := (gCmd r.rec'.bytes).rec'
    let h := devRead s a 64
    (statOf h).nt ≤ r.tiles → spaceOf a = .uni → Backed s a 64 →
    ∃ t, exec (.gatherHeaderWrite n) s = .next t ∧ Only writeParts s t ∧
      mread t.uni a 64 = setFld (setFld h 28 4 ((statOf h).rows + (gCmd r.rec'.bytes).rows)) 32 4 ((statOf h).gcount + 1) ∧
      (∀ b, (b < a ∨ a + 64 ≤ b) → mget t.uni b = mget s.uni b) ∧
      ∀ x ∈ (t.core n).running, x.start = r.start → x.done = true ∧ x.count = BitVec.ofNat 32 (gCmd r.rec'.bytes).rows) ∧
  (∀ (n : Nat) (r : Running) (s : State), n < 800 → gatherFree s n = some r → r.tiles < gatherTiles s r → (s.core n).bad = [] → s.uniBad = [] →
    let a := (gCmd r.rec'.bytes).rec'
    let x := gatherStat s (gCmd r.rec'.bytes)
    a + x.size ≤ Config.uniTop → Backed s a x.size →
    ∃ t, exec (.gather n) s = .next t ∧ Only writeParts s t ∧ (∀ b, (b < x.accAt a r.tiles ∨ a + x.size ≤ b) → mget t.uni b = mget s.uni b) ∧
      ∀ y ∈ (t.core n).running, y.start = r.start → y.tiles = x.nt ∧ y.done = false)

/-! ### The solver (08) -/

/-- IBATCH of the die's next arrived record, of the context named, that passes its checks queues its batch with a new number, a batch of context 0 before
those of others not yet begun (R140, R141). ENTRY_DISPATCH: the next entry of the batch in service goes to a group of lanes that is free and not
fenced; the batch counts it dispatched (R141). ENTRY_COMPUTE_END and DEADLINE_REACHED end the computation of the entry on a lane: it waits for its
header (R145, R154); stated where no lane-store word of the die has an error. HEADER_COMMIT writes STATUS and ITERS of the entry in the batch's table
and frees its lanes; stated where no lane is marked FAILED and the table lies in backed memory (R143). Dispatch, the computation's end and the header
are stated of an entry whose memory no change of generation holds at the bridge (R31). BATCH_COMPLETE reports the first batch all of whose entries
have ended, once, and drops it (R159). Completes (exec answers next with the command's own effect): IBATCH, ENTRY_DISPATCH, ENTRY_COMPUTE_END,
HEADER_COMMIT, DEADLINE_REACHED, BATCH_COMPLETE. -/
def Obligations.SolverBatches : Prop :=
  (∀ (d c : Nat) (r : Rec) (es : List (List Byte)) (s : State), d < 8 → c < 1024 → nextArrived (s.ibx d) = some r → r.ctx = c →
     ibatchCheck (s.modIbx d (fun x => { x with arrived := x.arrived.erase r })) d r = .ok es →
     ∃ t b, exec (.ibatch d c) s = .next t ∧ Only (.ibex :: readParts) s t ∧ (t.ibx d).arrived = (s.ibx d).arrived.erase r ∧ b ∈ (t.ibx d).batches ∧
       b.rec' = r ∧ b.id = (s.ibx d).nextId ∧ b.entries = es ∧ b.dispatched = 0 ∧ (t.ibx d).nextId = (s.ibx d).nextId + 1 ∧
       (∀ x ∈ (s.ibx d).batches, x ∈ (t.ibx d).batches) ∧ ∀ e, e ≠ d → t.ibx e = s.ibx e) ∧
  (∀ (d f : Nat) (b : Batch) (s : State), d < 8 → dispatching (s.ibx d) = some b → batchLate s b.rec' = false →
     let x := ientOf (b.entries.getD b.dispatched [])
     let good := ((groupsOf x.group).filter (groupAll (laneFor s d b.rec'.ctx) · x.group)).filter (groupAll (fun i => !(s.ibx d).failed.getLsbD i) · x.group)
     good.find? (fun f => groupAll (fun i => !laneBusy (s.ibx d) i && !laneFenced s d i) f x.group) = some f →
     ientHeld s d f (b.entries.getD b.dispatched []) = false →
     ∃ t y, exec (.entryDispatch d) s = .next t ∧ (t.ibx d).entries = (s.ibx d).entries ++ [y] ∧ y.seq = b.id ∧ y.idx = b.dispatched ∧ y.lane = f ∧
       y.group = x.group ∧ y.since = s.time ∧
       (t.ibx d).batches = (s.ibx d).batches.map (fun q => if q.id = b.id then { q with dispatched := b.dispatched + 1 } else q) ∧
       ∀ e, e ≠ d → t.ibx e = s.ibx e) ∧
  (∀ (d lane k : Nat) (cmd : Instr) (e : Entry) (b : Batch) (s : State), d < 8 → lane < 16 → entryAt (s.ibx d) lane .computing = some e →
     batchOf (s.ibx d) e = some b → (s.ibx d).bad = [] →
     (cmd = .entryComputeEnd d lane ∧ ientHeld s d lane (b.entries.getD e.idx []) = false ∨ cmd = .deadlineReached d lane k ∧ batchLate s b.rec' = true) →
     ∃ t, exec cmd s = .next t ∧ (∀ y ∈ (t.ibx d).entries, y.seq = e.seq → y.idx = e.idx → y.phase = .computed ∧ y.lane = e.lane ∧ y.group = e.group) ∧
       (t.ibx d).entries.length = (s.ibx d).entries.length ∧ ∀ y, y ≠ d → t.ibx y = s.ibx y) ∧
  (∀ (d lane : Nat) (e : Entry) (b : Batch) (s : State), d < 8 → lane < 16 → entryAt (s.ibx d) lane .computed = some e → batchOf (s.ibx d) e = some b →
     (s.ibx d).failed = 0 → ientHeld s d lane (b.entries.getD e.idx []) = false →
     let a := ibEnt b.rec' + 64 * e.idx + 17
     spaceOf a = .uni → Backed s a 2 →
     ∃ t, exec (.headerCommit d lane) s = .next t ∧ Only (.ibex :: writeParts) s t ∧ mread t.uni a 2 = [e.out.status, BitVec.ofNat 8 e.out.iters] ∧
       (t.ibx d).entries = (s.ibx d).entries.filter (fun y => !(y.seq == e.seq && y.idx == e.idx)) ∧ ∀ y, y ≠ d → t.ibx y = s.ibx y) ∧
  (∀ (d : Nat) (b : Batch) (s : State), d < 8 → (s.ibx d).batches.find? (batchDone (s.ibx d)) = some b →
     ∃ t, exec (.batchComplete d) s = .next t ∧ Only (reportParts ++ [.ibex, .hub2]) s t ∧
       (t.ibx d).batches = (s.ibx d).batches.filter (fun q => q.id != b.id) ∧ (t.ibx d).entries = (s.ibx d).entries ∧ ∀ y, y ≠ d → t.ibx y = s.ibx y)

/-! ### Collectives (13) -/

/-- Each collective record that may start and passes its checks leaves its engine's queue, takes the next number and holds its landing area; a record
refused by its checks only leaves the queue and completes (R251, R254, R255, R260 to R262). The later steps of a collective record end its waiting:
SUM_BEGIN once every contribution is there or its deadline has passed, PERMUTE_WRITE_PHASE and NORMFIN_REDUCE once their arrivals are,
COLLECTIVE_TIMEOUT when what it waits for has missed its deadline; stated of a record that no change of generation holds at the bridge (R31, R252,
R255, R261). Completes (exec answers next with the command's own effect): REDUCE, ALLGATHER, ALLREDUCE, PERMUTE, PERMUTE_WRITE_PHASE, SETTLE, NORMFIN,
NORMFIN_REDUCE, SUM_BEGIN, COLLECTIVE_TIMEOUT. -/
def Obligations.Collectives : Prop :=
  (∀ (e op : Nat) (cmd : Instr) (r : Rec) (s : State), e < 8 →
     (cmd = .reduce e ∧ op = 0x60 ∨ cmd = .allgather e ∧ op = 0x61 ∨ cmd = .allreduce e ∧ op = 0x62 ∨ cmd = .permute e ∧ op = 0x63 ∨
       cmd = .settle e ∧ op = 0x64 ∨ cmd = .normfin e ∧ op = 0x65) →
     startable s e (fun o => o = op || (op == 0x60 && !(0x60 ≤ o && o ≤ 0x65))) = some r →
     (collCheck (s.modCe e (fun c => { c with queue := c.queue.erase r })) e r = none →
       ∃ t, exec cmd s = .next t ∧ (t.ce e).queue = (s.ce e).queue.erase r ∧ s.hub2.order < t.hub2.order ∧
         (findArea t r.ctx (crecOf r.bytes).land).isSome = true ∧ (∀ d, d ≠ e → (t.ce d).queue = (s.ce d).queue)) ∧
     (∀ x, collCheck (s.modCe e (fun c => { c with queue := c.queue.erase r })) e r = some (x, none) →
       ∃ t, exec cmd s = .next t ∧ Only (.ces :: reportParts) s t ∧ (t.ce e).queue = (s.ce e).queue.erase r ∧ (t.ce e).inflight = (s.ce e).inflight)) ∧
  (∀ (e i : Nat) (cmd : Instr) (k : Coll) (s : State), e < 8 → (s.ce e).inflight[i]? = some k →
     let w := cwOf s e k.rec'
     ((cmd = .sumBegin e i ∧ k.phase = .waiting ∧ w.c.sums = true ∧ w.own.isSome = true ∧ collHeld s e w = false ∧
         (sumThere s w = true ∨ w.c.replay = false ∧ collLate s w.c = true)) ∨
       (cmd = .permuteWritePhase e i ∧ k.phase = .waiting ∧ w.c.op = 0x63 ∧ permuted s w = true ∧ collHeld s e w = false) ∨
       (cmd = .normfinReduce e i ∧ k.phase = .waiting ∧ w.c.op = 0x65 ∧ normThere s w = true ∧ collHeld s e w = false) ∨
       (cmd = .collectiveTimeout e i ∧ (w.c.replay && w.c.sums) = false ∧ collLate s w.c = true ∧
         (k.phase = .gathering ∧ gathered s w = false ∨ k.phase = .waiting ∧ w.c.op = 0x63 ∧ permuted s w = false ∨
           k.phase = .waiting ∧ w.c.op = 0x65 ∧ normThere s w = false))) →
     ∃ t, exec cmd s = .next t ∧ (∀ x ∈ (t.ce e).inflight, x.order = k.order → x.phase ≠ .waiting) ∧ (t.ce e).queue = (s.ce e).queue ∧
       ∀ d, d ≠ e → (t.ce d).inflight = (s.ce d).inflight ∧ (t.ce d).queue = (s.ce d).queue)

/-! ### The loader (15, 19) -/

/-- MANIFEST of a record that names an unused verified manifest to release lets it go; one whose manifest is well formed seals its region exactly when a
publisher's key signed it; either way the record leaves its ring (R306). LOAD and DIGEST. A LOAD that fails its checks is refused and starts nothing;
one that passes them starts and its record leaves the ring; a DIGEST that passes its checks writes the digests of its tiles and their root at DST in
the unified range and no other byte of it, before its completion is reported with the root's first word, or with ECC and the first bad address (R308,
R309, R383). TILE_DIGEST_CHECK: the oldest fetched tile whose hash agrees counts as verified, and its bytes as verified bytes of the context; one
whose hash does not agree is fetched again while retries are left, and is zeroed otherwise (R308). Stated of the check itself, which the LOADs'
further fetches follow. Completes (exec answers next with the command's own effect): MANIFEST, LOAD, TILE_DIGEST_CHECK, DIGEST. -/
def Obligations.LoaderRecords : Prop :=
  ((∀ (c : Nat) (r : Rec) (s : State), c < 1024 → loaderFront s c = some r → r.op = 0x72 → fwServes s c = true → r.ctx = c → manRecFail r = none →
     mrRelease r = true →
     manInUse (loaderPop s c) (mrAddr r) = false → (sealedAt s (mrAddr r)).isSome = true → inRanges s s.weave.cur.sects c (mrAddr r) (mrLen r) = true →
     ∃ t, exec (.manifest c) s = .next t ∧ Only (.manifests :: reportParts) s t ∧ t.manifests = s.manifests.filter (fun m => m.addr != mrAddr r) ∧
       (t.ctx c).loader = (s.ctx c).loader.drop 1) ∧
   (∀ (c : Nat) (r : Rec) (s : State), c < 1024 → loaderFront s c = some r → r.op = 0x72 → fwServes s c = true → r.ctx = c → manRecFail r = none →
     mrRelease r = false → 192 ≤ mrLen r → mrLen r ≤ 64 + 32 * 8388608 + 96 → inRanges s s.weave.cur.sects c (mrAddr r) (mrLen r) = true →
     hitsUnbacked s (mrAddr r) (mrLen r) = false → devFault s (mrAddr r) (mrLen r) = none → (sealedAt s (mrAddr r)).isNone = true → s.manifests.length < 64 →
     let m := devRead s (mrAddr r) (mrLen r)
     manOk m (mrLen r) = true →
     ∃ t, exec (.manifest c) s = .next t ∧ Only (.manifests :: reportParts) s t ∧
       t.manifests = (if signedBy (publisherKeys s) m = true then s.manifests ++ [{ ctx := c, addr := mrAddr r, len := mrLen r }] else s.manifests) ∧
       (t.ctx c).loader = (s.ctx c).loader.drop 1)) ∧
  ((∀ (c : Nat) (r : Rec) (s : State), c < 1024 → loaderFront s c = some r → r.op = 0x71 → fwServes s c = true → loadCheck s r = none →
     ∃ t, exec (.load c) s = .next t ∧ (t.ctx c).loader = (s.ctx c).loader.drop 1 ∧ t.hub2.order = s.hub2.order + 1) ∧
   (∀ (c : Nat) (x : Refuse) (r : Rec) (s : State), c < 1024 → loaderFront s c = some r → r.op = 0x71 → fwServes s c = true → loadCheck s r = some (x, none) →
     ∃ t, exec (.load c) s = .next t ∧ Only reportParts s t ∧ t.loads = s.loads ∧ (t.ctx c).loader = (s.ctx c).loader.drop 1) ∧
   (∀ (c : Nat) (r : Rec) (s : State), c < 1024 → loaderFront s c = some r → r.op = 0x73 → fwServes s c = true → digestCheck s r = none →
     spaceOf (dgDst r.bytes) = .uni → anyLost s = false →
     let n := dgTiles r.bytes
     let a := dgAddr r.bytes
     let d := dgDst r.bytes
     let ds := (List.range n).flatMap (fun i => tileDigest s (a + 4096 * i))
     ∃ t u, exec (.digest c) s = .next t ∧ Only reportParts s t ∧ (t.ctx c).loader = (s.ctx c).loader.drop 1 ∧
       t = (match uniFault s a (4096 * n) with
         | some x => loaderReport u r stEcc n (x % 2 ^ 32)
         | none => loaderReport u r stDone n (fld (sha256 ds) 0 4)) ∧
       mread u.uni d (8 * n + 32) = ds ++ sha256 ds ∧ ∀ b, b < d ∨ d + 8 * n + 32 ≤ b → mget u.uni b = mget s.uni b)) ∧
  ((∀ (c : Nat) (j : LoadJob) (s : State), c < 1024 → s.loads.find? (fun j => j.rec'.ctx == c && j.arrived != []) = some j →
     exec (.tileDigestCheck c) s = .next (runJobs (checkTile s j))) ∧
   (∀ (g : Nat) (rest : List (Nat × Bool)) (j : LoadJob) (s : State), j ∈ s.loads → j.arrived = (g, true) :: rest →
     Only [.ctxs, .loads] s (checkTile s j) ∧ { j with arrived := rest, verified := j.verified + 1 } ∈ (checkTile s j).loads ∧
       tget d0 ((checkTile s j).ctx j.rec'.ctx).ctr 0x1A0 = stick (tget d0 (s.ctx j.rec'.ctx).ctr 0x1A0) 4096) ∧
   (∀ (g : Nat) (rest : List (Nat × Bool)) (j : LoadJob) (s : State), j ∈ s.loads → j.arrived = (g, false) :: rest → j.status = stDone →
     tget dN j.tries g < (ldOf j.rec'.bytes).retries →
     ∃ j' ∈ (checkTile s j).loads, j'.num = j.num ∧ j'.again = j.again ++ [g] ∧ j'.status = stDone ∧ (checkTile s j).uni = s.uni))
end

