-- ==== Sys2Proof/Laws/State.lean ====
section
/-! SUPPORT. What each named update of the state leaves in each field and in each unit: one lemma per field and per unit, each by rfl or by
the laws of tables, so that no later proof unfolds a record update. -/

namespace Sys2Proof.Machine

open Sys2Proof

/-! ### Tables: a read after a write -/

theorem tget_filter_ne {α : Type} (d : Nat → α) (t : Tbl α) (k m : Nat) (h : m ≠ k) : tget d (t.filter (fun x => x.1 != k)) m = tget d t m := by
  induction t with
  | nil => rfl
  | cons x r ih =>
    obtain ⟨a, v⟩ := x
    by_cases ha : a = k
    · subst ha
      simp [tget, ih, h.symm]
    · by_cases hm : a = m <;> simp [tget, ha, hm, ih, h]

theorem tget_filter_eq {α : Type} (d : Nat → α) (t : Tbl α) (k : Nat) : tget d (t.filter (fun x => x.1 != k)) k = d k := by
  induction t with
  | nil => rfl
  | cons x r ih =>
    obtain ⟨a, v⟩ := x
    by_cases ha : a = k <;> simp [tget, ha, ih]

theorem tget_tins_self {α : Type} (d : Nat → α) (t : Tbl α) (k : Nat) (v : α) (h : ∀ x ∈ t, x.1 ≠ k) : tget d (tins t k v) k = v := by
  induction t with
  | nil => simp [tins, tget]
  | cons x r ih =>
    obtain ⟨a, w⟩ := x
    have ha : a ≠ k := h (a, w) (by simp)
    have hr : ∀ x ∈ r, x.1 ≠ k := fun x hx => h x (by simp [hx])
    by_cases hk : k < a <;> simp [tins, tget, hk, ha, ih hr]

theorem tget_tins_ne {α : Type} (d : Nat → α) (t : Tbl α) (k m : Nat) (v : α) (h : m ≠ k) : tget d (tins t k v) m = tget d t m := by
  induction t with
  | nil => simp [tins, tget, h.symm]
  | cons x r ih =>
    obtain ⟨a, w⟩ := x
    by_cases hk : k < a
    · simp [tins, tget, hk, h.symm]
    · simp only [tins, hk, if_false, tget, ih]

/-- A read of the entry just set gives what was set. -/
@[simp] theorem tget_tset_self {α : Type} [DecidableEq α] (d : Nat → α) (t : Tbl α) (k : Nat) (v : α) : tget d (tset d t k v) k = v := by
  unfold tset
  by_cases hv : v = d k
  · simp [hv, tget_filter_eq]
  · simp only [hv, if_false]
    exact tget_tins_self d _ k v (fun x hx => by simpa using (List.mem_filter.mp hx).2)

/-- Setting one entry leaves every other as it was. -/
theorem tget_tset_ne {α : Type} [DecidableEq α] (d : Nat → α) (t : Tbl α) (k m : Nat) (v : α) (h : m ≠ k) :
    tget d (tset d t k v) m = tget d t m := by
  unfold tset
  by_cases hv : v = d k
  · simp [hv, tget_filter_ne d t k m h]
  · simp [hv, tget_tins_ne d _ k m v h, tget_filter_ne d t k m h]

theorem tget_tset {α : Type} [DecidableEq α] (d : Nat → α) (t : Tbl α) (k m : Nat) (v : α) :
    tget d (tset d t k v) m = if m = k then v else tget d t m := by
  by_cases h : m = k
  · subst h; simp
  · simp [h, tget_tset_ne]

@[simp] theorem tget_tmod_self {α : Type} [DecidableEq α] (d : Nat → α) (t : Tbl α) (k : Nat) (f : α → α) : tget d (tmod d t k f) k = f (tget d t k) := by
  simp [tmod]

theorem tget_tmod_ne {α : Type} [DecidableEq α] (d : Nat → α) (t : Tbl α) (k m : Nat) (f : α → α) (h : m ≠ k) :
    tget d (tmod d t k f) m = tget d t m := tget_tset_ne d t k m _ h

/-! ### The named updates -/


section setCore

variable (s : State) (n : Nat) (c : Core)

@[simp] theorem State.setCore_pending : (s.setCore n c).pending = s.pending := rfl
@[simp] theorem State.setCore_time : (s.setCore n c).time = s.time := rfl
@[simp] theorem State.setCore_slew : (s.setCore n c).slew = s.slew := rfl
@[simp] theorem State.setCore_slewUs : (s.setCore n c).slewUs = s.slewUs := rfl
@[simp] theorem State.setCore_uni : (s.setCore n c).uni = s.uni := rfl
@[simp] theorem State.setCore_uniBad : (s.setCore n c).uniBad = s.uniBad := rfl
@[simp] theorem State.setCore_host : (s.setCore n c).host = s.host := rfl
@[simp] theorem State.setCore_ctxs : (s.setCore n c).ctxs = s.ctxs := rfl
@[simp] theorem State.setCore_dieHeld : (s.setCore n c).dieHeld = s.dieHeld := rfl
@[simp] theorem State.setCore_ibex : (s.setCore n c).ibex = s.ibex := rfl
@[simp] theorem State.setCore_mports : (s.setCore n c).mports = s.mports := rfl
@[simp] theorem State.setCore_tiers : (s.setCore n c).tiers = s.tiers := rfl
@[simp] theorem State.setCore_nvmFrames : (s.setCore n c).nvmFrames = s.nvmFrames := rfl
@[simp] theorem State.setCore_oports : (s.setCore n c).oports = s.oports := rfl
@[simp] theorem State.setCore_lasers : (s.setCore n c).lasers = s.lasers := rfl
@[simp] theorem State.setCore_accesses : (s.setCore n c).accesses = s.accesses := rfl
@[simp] theorem State.setCore_nextTag : (s.setCore n c).nextTag = s.nextTag := rfl
@[simp] theorem State.setCore_paths : (s.setCore n c).paths = s.paths := rfl
@[simp] theorem State.setCore_ces : (s.setCore n c).ces = s.ces := rfl
@[simp] theorem State.setCore_areas : (s.setCore n c).areas = s.areas := rfl
@[simp] theorem State.setCore_folds : (s.setCore n c).folds = s.folds := rfl
@[simp] theorem State.setCore_hurdles : (s.setCore n c).hurdles = s.hurdles := rfl
@[simp] theorem State.setCore_hps : (s.setCore n c).hps = s.hps := rfl
@[simp] theorem State.setCore_windows : (s.setCore n c).windows = s.windows := rfl
@[simp] theorem State.setCore_gates : (s.setCore n c).gates = s.gates := rfl
@[simp] theorem State.setCore_tallies : (s.setCore n c).tallies = s.tallies := rfl
@[simp] theorem State.setCore_bbx : (s.setCore n c).bbx = s.bbx := rfl
@[simp] theorem State.setCore_weave : (s.setCore n c).weave = s.weave := rfl
@[simp] theorem State.setCore_hub : (s.setCore n c).hub = s.hub := rfl
@[simp] theorem State.setCore_hub2 : (s.setCore n c).hub2 = s.hub2 := rfl
@[simp] theorem State.setCore_pwr : (s.setCore n c).pwr = s.pwr := rfl
@[simp] theorem State.setCore_opt : (s.setCore n c).opt = s.opt := rfl
@[simp] theorem State.setCore_sec : (s.setCore n c).sec = s.sec := rfl
@[simp] theorem State.setCore_manifests : (s.setCore n c).manifests = s.manifests := rfl
@[simp] theorem State.setCore_loads : (s.setCore n c).loads = s.loads := rfl
@[simp] theorem State.setCore_bus : (s.setCore n c).bus = s.bus := rfl
@[simp] theorem State.setCore_bus2 : (s.setCore n c).bus2 = s.bus2 := rfl
@[simp] theorem State.setCore_poisoned : (s.setCore n c).poisoned = s.poisoned := rfl
@[simp] theorem State.setCore_freeCtr : (s.setCore n c).freeCtr = s.freeCtr := rfl
@[simp] theorem State.setCore_get_core_self : (s.setCore n c).core n = c := tget_tset_self _ _ _ _
theorem State.setCore_get_core_ne (m : Nat) (h : m ≠ n) : (s.setCore n c).core m = s.core m := tget_tset_ne _ _ _ _ _ h
theorem State.setCore_get_core (m : Nat) : (s.setCore n c).core m = if m = n then c else s.core m := tget_tset _ _ _ _ _
@[simp] theorem State.setCore_get_ctx (m : Nat) : (s.setCore n c).ctx m = s.ctx m := rfl
@[simp] theorem State.setCore_get_ibx (m : Nat) : (s.setCore n c).ibx m = s.ibx m := rfl
@[simp] theorem State.setCore_get_mport (m : Nat) : (s.setCore n c).mport m = s.mport m := rfl
@[simp] theorem State.setCore_get_oport (m : Nat) : (s.setCore n c).oport m = s.oport m := rfl
@[simp] theorem State.setCore_get_laser (m : Nat) : (s.setCore n c).laser m = s.laser m := rfl
@[simp] theorem State.setCore_get_ce (m : Nat) : (s.setCore n c).ce m = s.ce m := rfl
@[simp] theorem State.setCore_get_hp (m : Nat) : (s.setCore n c).hp m = s.hp m := rfl
@[simp] theorem State.setCore_get_gate (m : Nat) : (s.setCore n c).gate m = s.gate m := rfl
@[simp] theorem State.setCore_get_hurdle (m : Nat) : (s.setCore n c).hurdle m = s.hurdle m := rfl
@[simp] theorem State.setCore_get_tally (m : Nat) : (s.setCore n c).tally m = s.tally m := rfl
@[simp] theorem State.setCore_get_fold (m : Nat) : (s.setCore n c).fold m = s.fold m := rfl
@[simp] theorem State.setCore_get_fw (m : Nat) : (s.setCore n c).fw m = s.fw m := rfl

end setCore

section modCore

variable (s : State) (n : Nat) (f : Core → Core)

@[simp] theorem State.modCore_pending : (s.modCore n f).pending = s.pending := rfl
@[simp] theorem State.modCore_time : (s.modCore n f).time = s.time := rfl
@[simp] theorem State.modCore_slew : (s.modCore n f).slew = s.slew := rfl
@[simp] theorem State.modCore_slewUs : (s.modCore n f).slewUs = s.slewUs := rfl
@[simp] theorem State.modCore_uni : (s.modCore n f).uni = s.uni := rfl
@[simp] theorem State.modCore_uniBad : (s.modCore n f).uniBad = s.uniBad := rfl
@[simp] theorem State.modCore_host : (s.modCore n f).host = s.host := rfl
@[simp] theorem State.modCore_ctxs : (s.modCore n f).ctxs = s.ctxs := rfl
@[simp] theorem State.modCore_dieHeld : (s.modCore n f).dieHeld = s.dieHeld := rfl
@[simp] theorem State.modCore_ibex : (s.modCore n f).ibex = s.ibex := rfl
@[simp] theorem State.modCore_mports : (s.modCore n f).mports = s.mports := rfl
@[simp] theorem State.modCore_tiers : (s.modCore n f).tiers = s.tiers := rfl
@[simp] theorem State.modCore_nvmFrames : (s.modCore n f).nvmFrames = s.nvmFrames := rfl
@[simp] theorem State.modCore_oports : (s.modCore n f).oports = s.oports := rfl
@[simp] theorem State.modCore_lasers : (s.modCore n f).lasers = s.lasers := rfl
@[simp] theorem State.modCore_accesses : (s.modCore n f).accesses = s.accesses := rfl
@[simp] theorem State.modCore_nextTag : (s.modCore n f).nextTag = s.nextTag := rfl
@[simp] theorem State.modCore_paths : (s.modCore n f).paths = s.paths := rfl
@[simp] theorem State.modCore_ces : (s.modCore n f).ces = s.ces := rfl
@[simp] theorem State.modCore_areas : (s.modCore n f).areas = s.areas := rfl
@[simp] theorem State.modCore_folds : (s.modCore n f).folds = s.folds := rfl
@[simp] theorem State.modCore_hurdles : (s.modCore n f).hurdles = s.hurdles := rfl
@[simp] theorem State.modCore_hps : (s.modCore n f).hps = s.hps := rfl
@[simp] theorem State.modCore_windows : (s.modCore n f).windows = s.windows := rfl
@[simp] theorem State.modCore_gates : (s.modCore n f).gates = s.gates := rfl
@[simp] theorem State.modCore_tallies : (s.modCore n f).tallies = s.tallies := rfl
@[simp] theorem State.modCore_bbx : (s.modCore n f).bbx = s.bbx := rfl
@[simp] theorem State.modCore_weave : (s.modCore n f).weave = s.weave := rfl
@[simp] theorem State.modCore_hub : (s.modCore n f).hub = s.hub := rfl
@[simp] theorem State.modCore_hub2 : (s.modCore n f).hub2 = s.hub2 := rfl
@[simp] theorem State.modCore_pwr : (s.modCore n f).pwr = s.pwr := rfl
@[simp] theorem State.modCore_opt : (s.modCore n f).opt = s.opt := rfl
@[simp] theorem State.modCore_sec : (s.modCore n f).sec = s.sec := rfl
@[simp] theorem State.modCore_manifests : (s.modCore n f).manifests = s.manifests := rfl
@[simp] theorem State.modCore_loads : (s.modCore n f).loads = s.loads := rfl
@[simp] theorem State.modCore_bus : (s.modCore n f).bus = s.bus := rfl
@[simp] theorem State.modCore_bus2 : (s.modCore n f).bus2 = s.bus2 := rfl
@[simp] theorem State.modCore_poisoned : (s.modCore n f).poisoned = s.poisoned := rfl
@[simp] theorem State.modCore_freeCtr : (s.modCore n f).freeCtr = s.freeCtr := rfl
@[simp] theorem State.modCore_get_core_self : (s.modCore n f).core n = f (s.core n) := tget_tset_self _ _ _ _
theorem State.modCore_get_core_ne (m : Nat) (h : m ≠ n) : (s.modCore n f).core m = s.core m := tget_tset_ne _ _ _ _ _ h
theorem State.modCore_get_core (m : Nat) : (s.modCore n f).core m = if m = n then f (s.core n) else s.core m := tget_tset _ _ _ _ _
@[simp] theorem State.modCore_get_ctx (m : Nat) : (s.modCore n f).ctx m = s.ctx m := rfl
@[simp] theorem State.modCore_get_ibx (m : Nat) : (s.modCore n f).ibx m = s.ibx m := rfl
@[simp] theorem State.modCore_get_mport (m : Nat) : (s.modCore n f).mport m = s.mport m := rfl
@[simp] theorem State.modCore_get_oport (m : Nat) : (s.modCore n f).oport m = s.oport m := rfl
@[simp] theorem State.modCore_get_laser (m : Nat) : (s.modCore n f).laser m = s.laser m := rfl
@[simp] theorem State.modCore_get_ce (m : Nat) : (s.modCore n f).ce m = s.ce m := rfl
@[simp] theorem State.modCore_get_hp (m : Nat) : (s.modCore n f).hp m = s.hp m := rfl
@[simp] theorem State.modCore_get_gate (m : Nat) : (s.modCore n f).gate m = s.gate m := rfl
@[simp] theorem State.modCore_get_hurdle (m : Nat) : (s.modCore n f).hurdle m = s.hurdle m := rfl
@[simp] theorem State.modCore_get_tally (m : Nat) : (s.modCore n f).tally m = s.tally m := rfl
@[simp] theorem State.modCore_get_fold (m : Nat) : (s.modCore n f).fold m = s.fold m := rfl
@[simp] theorem State.modCore_get_fw (m : Nat) : (s.modCore n f).fw m = s.fw m := rfl

end modCore

section setCtx

variable (s : State) (n : Nat) (x : Ctx)

@[simp] theorem State.setCtx_pending : (s.setCtx n x).pending = s.pending := rfl
@[simp] theorem State.setCtx_time : (s.setCtx n x).time = s.time := rfl
@[simp] theorem State.setCtx_slew : (s.setCtx n x).slew = s.slew := rfl
@[simp] theorem State.setCtx_slewUs : (s.setCtx n x).slewUs = s.slewUs := rfl
@[simp] theorem State.setCtx_uni : (s.setCtx n x).uni = s.uni := rfl
@[simp] theorem State.setCtx_uniBad : (s.setCtx n x).uniBad = s.uniBad := rfl
@[simp] theorem State.setCtx_host : (s.setCtx n x).host = s.host := rfl
@[simp] theorem State.setCtx_cores : (s.setCtx n x).cores = s.cores := rfl
@[simp] theorem State.setCtx_dieHeld : (s.setCtx n x).dieHeld = s.dieHeld := rfl
@[simp] theorem State.setCtx_ibex : (s.setCtx n x).ibex = s.ibex := rfl
@[simp] theorem State.setCtx_mports : (s.setCtx n x).mports = s.mports := rfl
@[simp] theorem State.setCtx_tiers : (s.setCtx n x).tiers = s.tiers := rfl
@[simp] theorem State.setCtx_nvmFrames : (s.setCtx n x).nvmFrames = s.nvmFrames := rfl
@[simp] theorem State.setCtx_oports : (s.setCtx n x).oports = s.oports := rfl
@[simp] theorem State.setCtx_lasers : (s.setCtx n x).lasers = s.lasers := rfl
@[simp] theorem State.setCtx_accesses : (s.setCtx n x).accesses = s.accesses := rfl
@[simp] theorem State.setCtx_nextTag : (s.setCtx n x).nextTag = s.nextTag := rfl
@[simp] theorem State.setCtx_paths : (s.setCtx n x).paths = s.paths := rfl
@[simp] theorem State.setCtx_ces : (s.setCtx n x).ces = s.ces := rfl
@[simp] theorem State.setCtx_areas : (s.setCtx n x).areas = s.areas := rfl
@[simp] theorem State.setCtx_folds : (s.setCtx n x).folds = s.folds := rfl
@[simp] theorem State.setCtx_hurdles : (s.setCtx n x).hurdles = s.hurdles := rfl
@[simp] theorem State.setCtx_hps : (s.setCtx n x).hps = s.hps := rfl
@[simp] theorem State.setCtx_windows : (s.setCtx n x).windows = s.windows := rfl
@[simp] theorem State.setCtx_gates : (s.setCtx n x).gates = s.gates := rfl
@[simp] theorem State.setCtx_tallies : (s.setCtx n x).tallies = s.tallies := rfl
@[simp] theorem State.setCtx_bbx : (s.setCtx n x).bbx = s.bbx := rfl
@[simp] theorem State.setCtx_weave : (s.setCtx n x).weave = s.weave := rfl
@[simp] theorem State.setCtx_hub : (s.setCtx n x).hub = s.hub := rfl
@[simp] theorem State.setCtx_hub2 : (s.setCtx n x).hub2 = s.hub2 := rfl
@[simp] theorem State.setCtx_pwr : (s.setCtx n x).pwr = s.pwr := rfl
@[simp] theorem State.setCtx_opt : (s.setCtx n x).opt = s.opt := rfl
@[simp] theorem State.setCtx_sec : (s.setCtx n x).sec = s.sec := rfl
@[simp] theorem State.setCtx_manifests : (s.setCtx n x).manifests = s.manifests := rfl
@[simp] theorem State.setCtx_loads : (s.setCtx n x).loads = s.loads := rfl
@[simp] theorem State.setCtx_bus : (s.setCtx n x).bus = s.bus := rfl
@[simp] theorem State.setCtx_bus2 : (s.setCtx n x).bus2 = s.bus2 := rfl
@[simp] theorem State.setCtx_poisoned : (s.setCtx n x).poisoned = s.poisoned := rfl
@[simp] theorem State.setCtx_freeCtr : (s.setCtx n x).freeCtr = s.freeCtr := rfl
@[simp] theorem State.setCtx_get_core (m : Nat) : (s.setCtx n x).core m = s.core m := rfl
@[simp] theorem State.setCtx_get_ctx_self : (s.setCtx n x).ctx n = x := tget_tset_self _ _ _ _
theorem State.setCtx_get_ctx_ne (m : Nat) (h : m ≠ n) : (s.setCtx n x).ctx m = s.ctx m := tget_tset_ne _ _ _ _ _ h
theorem State.setCtx_get_ctx (m : Nat) : (s.setCtx n x).ctx m = if m = n then x else s.ctx m := tget_tset _ _ _ _ _
@[simp] theorem State.setCtx_get_ibx (m : Nat) : (s.setCtx n x).ibx m = s.ibx m := rfl
@[simp] theorem State.setCtx_get_mport (m : Nat) : (s.setCtx n x).mport m = s.mport m := rfl
@[simp] theorem State.setCtx_get_oport (m : Nat) : (s.setCtx n x).oport m = s.oport m := rfl
@[simp] theorem State.setCtx_get_laser (m : Nat) : (s.setCtx n x).laser m = s.laser m := rfl
@[simp] theorem State.setCtx_get_ce (m : Nat) : (s.setCtx n x).ce m = s.ce m := rfl
@[simp] theorem State.setCtx_get_hp (m : Nat) : (s.setCtx n x).hp m = s.hp m := rfl
@[simp] theorem State.setCtx_get_gate (m : Nat) : (s.setCtx n x).gate m = s.gate m := rfl
@[simp] theorem State.setCtx_get_hurdle (m : Nat) : (s.setCtx n x).hurdle m = s.hurdle m := rfl
@[simp] theorem State.setCtx_get_tally (m : Nat) : (s.setCtx n x).tally m = s.tally m := rfl
@[simp] theorem State.setCtx_get_fold (m : Nat) : (s.setCtx n x).fold m = s.fold m := rfl
@[simp] theorem State.setCtx_get_fw (m : Nat) : (s.setCtx n x).fw m = s.fw m := rfl

end setCtx

section modCtx

variable (s : State) (n : Nat) (f : Ctx → Ctx)

@[simp] theorem State.modCtx_pending : (s.modCtx n f).pending = s.pending := rfl
@[simp] theorem State.modCtx_time : (s.modCtx n f).time = s.time := rfl
@[simp] theorem State.modCtx_slew : (s.modCtx n f).slew = s.slew := rfl
@[simp] theorem State.modCtx_slewUs : (s.modCtx n f).slewUs = s.slewUs := rfl
@[simp] theorem State.modCtx_uni : (s.modCtx n f).uni = s.uni := rfl
@[simp] theorem State.modCtx_uniBad : (s.modCtx n f).uniBad = s.uniBad := rfl
@[simp] theorem State.modCtx_host : (s.modCtx n f).host = s.host := rfl
@[simp] theorem State.modCtx_cores : (s.modCtx n f).cores = s.cores := rfl
@[simp] theorem State.modCtx_dieHeld : (s.modCtx n f).dieHeld = s.dieHeld := rfl
@[simp] theorem State.modCtx_ibex : (s.modCtx n f).ibex = s.ibex := rfl
@[simp] theorem State.modCtx_mports : (s.modCtx n f).mports = s.mports := rfl
@[simp] theorem State.modCtx_tiers : (s.modCtx n f).tiers = s.tiers := rfl
@[simp] theorem State.modCtx_nvmFrames : (s.modCtx n f).nvmFrames = s.nvmFrames := rfl
@[simp] theorem State.modCtx_oports : (s.modCtx n f).oports = s.oports := rfl
@[simp] theorem State.modCtx_lasers : (s.modCtx n f).lasers = s.lasers := rfl
@[simp] theorem State.modCtx_accesses : (s.modCtx n f).accesses = s.accesses := rfl
@[simp] theorem State.modCtx_nextTag : (s.modCtx n f).nextTag = s.nextTag := rfl
@[simp] theorem State.modCtx_paths : (s.modCtx n f).paths = s.paths := rfl
@[simp] theorem State.modCtx_ces : (s.modCtx n f).ces = s.ces := rfl
@[simp] theorem State.modCtx_areas : (s.modCtx n f).areas = s.areas := rfl
@[simp] theorem State.modCtx_folds : (s.modCtx n f).folds = s.folds := rfl
@[simp] theorem State.modCtx_hurdles : (s.modCtx n f).hurdles = s.hurdles := rfl
@[simp] theorem State.modCtx_hps : (s.modCtx n f).hps = s.hps := rfl
@[simp] theorem State.modCtx_windows : (s.modCtx n f).windows = s.windows := rfl
@[simp] theorem State.modCtx_gates : (s.modCtx n f).gates = s.gates := rfl
@[simp] theorem State.modCtx_tallies : (s.modCtx n f).tallies = s.tallies := rfl
@[simp] theorem State.modCtx_bbx : (s.modCtx n f).bbx = s.bbx := rfl
@[simp] theorem State.modCtx_weave : (s.modCtx n f).weave = s.weave := rfl
@[simp] theorem State.modCtx_hub : (s.modCtx n f).hub = s.hub := rfl
@[simp] theorem State.modCtx_hub2 : (s.modCtx n f).hub2 = s.hub2 := rfl
@[simp] theorem State.modCtx_pwr : (s.modCtx n f).pwr = s.pwr := rfl
@[simp] theorem State.modCtx_opt : (s.modCtx n f).opt = s.opt := rfl
@[simp] theorem State.modCtx_sec : (s.modCtx n f).sec = s.sec := rfl
@[simp] theorem State.modCtx_manifests : (s.modCtx n f).manifests = s.manifests := rfl
@[simp] theorem State.modCtx_loads : (s.modCtx n f).loads = s.loads := rfl
@[simp] theorem State.modCtx_bus : (s.modCtx n f).bus = s.bus := rfl
@[simp] theorem State.modCtx_bus2 : (s.modCtx n f).bus2 = s.bus2 := rfl
@[simp] theorem State.modCtx_poisoned : (s.modCtx n f).poisoned = s.poisoned := rfl
@[simp] theorem State.modCtx_freeCtr : (s.modCtx n f).freeCtr = s.freeCtr := rfl
@[simp] theorem State.modCtx_get_core (m : Nat) : (s.modCtx n f).core m = s.core m := rfl
@[simp] theorem State.modCtx_get_ctx_self : (s.modCtx n f).ctx n = f (s.ctx n) := tget_tset_self _ _ _ _
theorem State.modCtx_get_ctx_ne (m : Nat) (h : m ≠ n) : (s.modCtx n f).ctx m = s.ctx m := tget_tset_ne _ _ _ _ _ h
theorem State.modCtx_get_ctx (m : Nat) : (s.modCtx n f).ctx m = if m = n then f (s.ctx n) else s.ctx m := tget_tset _ _ _ _ _
@[simp] theorem State.modCtx_get_ibx (m : Nat) : (s.modCtx n f).ibx m = s.ibx m := rfl
@[simp] theorem State.modCtx_get_mport (m : Nat) : (s.modCtx n f).mport m = s.mport m := rfl
@[simp] theorem State.modCtx_get_oport (m : Nat) : (s.modCtx n f).oport m = s.oport m := rfl
@[simp] theorem State.modCtx_get_laser (m : Nat) : (s.modCtx n f).laser m = s.laser m := rfl
@[simp] theorem State.modCtx_get_ce (m : Nat) : (s.modCtx n f).ce m = s.ce m := rfl
@[simp] theorem State.modCtx_get_hp (m : Nat) : (s.modCtx n f).hp m = s.hp m := rfl
@[simp] theorem State.modCtx_get_gate (m : Nat) : (s.modCtx n f).gate m = s.gate m := rfl
@[simp] theorem State.modCtx_get_hurdle (m : Nat) : (s.modCtx n f).hurdle m = s.hurdle m := rfl
@[simp] theorem State.modCtx_get_tally (m : Nat) : (s.modCtx n f).tally m = s.tally m := rfl
@[simp] theorem State.modCtx_get_fold (m : Nat) : (s.modCtx n f).fold m = s.fold m := rfl
@[simp] theorem State.modCtx_get_fw (m : Nat) : (s.modCtx n f).fw m = s.fw m := rfl

end modCtx

section setIbx

variable (s : State) (n : Nat) (x : Ibex)

@[simp] theorem State.setIbx_pending : (s.setIbx n x).pending = s.pending := rfl
@[simp] theorem State.setIbx_time : (s.setIbx n x).time = s.time := rfl
@[simp] theorem State.setIbx_slew : (s.setIbx n x).slew = s.slew := rfl
@[simp] theorem State.setIbx_slewUs : (s.setIbx n x).slewUs = s.slewUs := rfl
@[simp] theorem State.setIbx_uni : (s.setIbx n x).uni = s.uni := rfl
@[simp] theorem State.setIbx_uniBad : (s.setIbx n x).uniBad = s.uniBad := rfl
@[simp] theorem State.setIbx_host : (s.setIbx n x).host = s.host := rfl
@[simp] theorem State.setIbx_cores : (s.setIbx n x).cores = s.cores := rfl
@[simp] theorem State.setIbx_ctxs : (s.setIbx n x).ctxs = s.ctxs := rfl
@[simp] theorem State.setIbx_dieHeld : (s.setIbx n x).dieHeld = s.dieHeld := rfl
@[simp] theorem State.setIbx_mports : (s.setIbx n x).mports = s.mports := rfl
@[simp] theorem State.setIbx_tiers : (s.setIbx n x).tiers = s.tiers := rfl
@[simp] theorem State.setIbx_nvmFrames : (s.setIbx n x).nvmFrames = s.nvmFrames := rfl
@[simp] theorem State.setIbx_oports : (s.setIbx n x).oports = s.oports := rfl
@[simp] theorem State.setIbx_lasers : (s.setIbx n x).lasers = s.lasers := rfl
@[simp] theorem State.setIbx_accesses : (s.setIbx n x).accesses = s.accesses := rfl
@[simp] theorem State.setIbx_nextTag : (s.setIbx n x).nextTag = s.nextTag := rfl
@[simp] theorem State.setIbx_paths : (s.setIbx n x).paths = s.paths := rfl
@[simp] theorem State.setIbx_ces : (s.setIbx n x).ces = s.ces := rfl
@[simp] theorem State.setIbx_areas : (s.setIbx n x).areas = s.areas := rfl
@[simp] theorem State.setIbx_folds : (s.setIbx n x).folds = s.folds := rfl
@[simp] theorem State.setIbx_hurdles : (s.setIbx n x).hurdles = s.hurdles := rfl
@[simp] theorem State.setIbx_hps : (s.setIbx n x).hps = s.hps := rfl
@[simp] theorem State.setIbx_windows : (s.setIbx n x).windows = s.windows := rfl
@[simp] theorem State.setIbx_gates : (s.setIbx n x).gates = s.gates := rfl
@[simp] theorem State.setIbx_tallies : (s.setIbx n x).tallies = s.tallies := rfl
@[simp] theorem State.setIbx_bbx : (s.setIbx n x).bbx = s.bbx := rfl
@[simp] theorem State.setIbx_weave : (s.setIbx n x).weave = s.weave := rfl
@[simp] theorem State.setIbx_hub : (s.setIbx n x).hub = s.hub := rfl
@[simp] theorem State.setIbx_hub2 : (s.setIbx n x).hub2 = s.hub2 := rfl
@[simp] theorem State.setIbx_pwr : (s.setIbx n x).pwr = s.pwr := rfl
@[simp] theorem State.setIbx_opt : (s.setIbx n x).opt = s.opt := rfl
@[simp] theorem State.setIbx_sec : (s.setIbx n x).sec = s.sec := rfl
@[simp] theorem State.setIbx_manifests : (s.setIbx n x).manifests = s.manifests := rfl
@[simp] theorem State.setIbx_loads : (s.setIbx n x).loads = s.loads := rfl
@[simp] theorem State.setIbx_bus : (s.setIbx n x).bus = s.bus := rfl
@[simp] theorem State.setIbx_bus2 : (s.setIbx n x).bus2 = s.bus2 := rfl
@[simp] theorem State.setIbx_poisoned : (s.setIbx n x).poisoned = s.poisoned := rfl
@[simp] theorem State.setIbx_freeCtr : (s.setIbx n x).freeCtr = s.freeCtr := rfl
@[simp] theorem State.setIbx_get_core (m : Nat) : (s.setIbx n x).core m = s.core m := rfl
@[simp] theorem State.setIbx_get_ctx (m : Nat) : (s.setIbx n x).ctx m = s.ctx m := rfl
@[simp] theorem State.setIbx_get_ibx_self : (s.setIbx n x).ibx n = x := tget_tset_self _ _ _ _
theorem State.setIbx_get_ibx_ne (m : Nat) (h : m ≠ n) : (s.setIbx n x).ibx m = s.ibx m := tget_tset_ne _ _ _ _ _ h
theorem State.setIbx_get_ibx (m : Nat) : (s.setIbx n x).ibx m = if m = n then x else s.ibx m := tget_tset _ _ _ _ _
@[simp] theorem State.setIbx_get_mport (m : Nat) : (s.setIbx n x).mport m = s.mport m := rfl
@[simp] theorem State.setIbx_get_oport (m : Nat) : (s.setIbx n x).oport m = s.oport m := rfl
@[simp] theorem State.setIbx_get_laser (m : Nat) : (s.setIbx n x).laser m = s.laser m := rfl
@[simp] theorem State.setIbx_get_ce (m : Nat) : (s.setIbx n x).ce m = s.ce m := rfl
@[simp] theorem State.setIbx_get_hp (m : Nat) : (s.setIbx n x).hp m = s.hp m := rfl
@[simp] theorem State.setIbx_get_gate (m : Nat) : (s.setIbx n x).gate m = s.gate m := rfl
@[simp] theorem State.setIbx_get_hurdle (m : Nat) : (s.setIbx n x).hurdle m = s.hurdle m := rfl
@[simp] theorem State.setIbx_get_tally (m : Nat) : (s.setIbx n x).tally m = s.tally m := rfl
@[simp] theorem State.setIbx_get_fold (m : Nat) : (s.setIbx n x).fold m = s.fold m := rfl
@[simp] theorem State.setIbx_get_fw (m : Nat) : (s.setIbx n x).fw m = s.fw m := rfl

end setIbx

section modIbx

variable (s : State) (n : Nat) (f : Ibex → Ibex)

@[simp] theorem State.modIbx_pending : (s.modIbx n f).pending = s.pending := rfl
@[simp] theorem State.modIbx_time : (s.modIbx n f).time = s.time := rfl
@[simp] theorem State.modIbx_slew : (s.modIbx n f).slew = s.slew := rfl
@[simp] theorem State.modIbx_slewUs : (s.modIbx n f).slewUs = s.slewUs := rfl
@[simp] theorem State.modIbx_uni : (s.modIbx n f).uni = s.uni := rfl
@[simp] theorem State.modIbx_uniBad : (s.modIbx n f).uniBad = s.uniBad := rfl
@[simp] theorem State.modIbx_host : (s.modIbx n f).host = s.host := rfl
@[simp] theorem State.modIbx_cores : (s.modIbx n f).cores = s.cores := rfl
@[simp] theorem State.modIbx_ctxs : (s.modIbx n f).ctxs = s.ctxs := rfl
@[simp] theorem State.modIbx_dieHeld : (s.modIbx n f).dieHeld = s.dieHeld := rfl
@[simp] theorem State.modIbx_mports : (s.modIbx n f).mports = s.mports := rfl
@[simp] theorem State.modIbx_tiers : (s.modIbx n f).tiers = s.tiers := rfl
@[simp] theorem State.modIbx_nvmFrames : (s.modIbx n f).nvmFrames = s.nvmFrames := rfl
@[simp] theorem State.modIbx_oports : (s.modIbx n f).oports = s.oports := rfl
@[simp] theorem State.modIbx_lasers : (s.modIbx n f).lasers = s.lasers := rfl
@[simp] theorem State.modIbx_accesses : (s.modIbx n f).accesses = s.accesses := rfl
@[simp] theorem State.modIbx_nextTag : (s.modIbx n f).nextTag = s.nextTag := rfl
@[simp] theorem State.modIbx_paths : (s.modIbx n f).paths = s.paths := rfl
@[simp] theorem State.modIbx_ces : (s.modIbx n f).ces = s.ces := rfl
@[simp] theorem State.modIbx_areas : (s.modIbx n f).areas = s.areas := rfl
@[simp] theorem State.modIbx_folds : (s.modIbx n f).folds = s.folds := rfl
@[simp] theorem State.modIbx_hurdles : (s.modIbx n f).hurdles = s.hurdles := rfl
@[simp] theorem State.modIbx_hps : (s.modIbx n f).hps = s.hps := rfl
@[simp] theorem State.modIbx_windows : (s.modIbx n f).windows = s.windows := rfl
@[simp] theorem State.modIbx_gates : (s.modIbx n f).gates = s.gates := rfl
@[simp] theorem State.modIbx_tallies : (s.modIbx n f).tallies = s.tallies := rfl
@[simp] theorem State.modIbx_bbx : (s.modIbx n f).bbx = s.bbx := rfl
@[simp] theorem State.modIbx_weave : (s.modIbx n f).weave = s.weave := rfl
@[simp] theorem State.modIbx_hub : (s.modIbx n f).hub = s.hub := rfl
@[simp] theorem State.modIbx_hub2 : (s.modIbx n f).hub2 = s.hub2 := rfl
@[simp] theorem State.modIbx_pwr : (s.modIbx n f).pwr = s.pwr := rfl
@[simp] theorem State.modIbx_opt : (s.modIbx n f).opt = s.opt := rfl
@[simp] theorem State.modIbx_sec : (s.modIbx n f).sec = s.sec := rfl
@[simp] theorem State.modIbx_manifests : (s.modIbx n f).manifests = s.manifests := rfl
@[simp] theorem State.modIbx_loads : (s.modIbx n f).loads = s.loads := rfl
@[simp] theorem State.modIbx_bus : (s.modIbx n f).bus = s.bus := rfl
@[simp] theorem State.modIbx_bus2 : (s.modIbx n f).bus2 = s.bus2 := rfl
@[simp] theorem State.modIbx_poisoned : (s.modIbx n f).poisoned = s.poisoned := rfl
@[simp] theorem State.modIbx_freeCtr : (s.modIbx n f).freeCtr = s.freeCtr := rfl
@[simp] theorem State.modIbx_get_core (m : Nat) : (s.modIbx n f).core m = s.core m := rfl
@[simp] theorem State.modIbx_get_ctx (m : Nat) : (s.modIbx n f).ctx m = s.ctx m := rfl
@[simp] theorem State.modIbx_get_ibx_self : (s.modIbx n f).ibx n = f (s.ibx n) := tget_tset_self _ _ _ _
theorem State.modIbx_get_ibx_ne (m : Nat) (h : m ≠ n) : (s.modIbx n f).ibx m = s.ibx m := tget_tset_ne _ _ _ _ _ h
theorem State.modIbx_get_ibx (m : Nat) : (s.modIbx n f).ibx m = if m = n then f (s.ibx n) else s.ibx m := tget_tset _ _ _ _ _
@[simp] theorem State.modIbx_get_mport (m : Nat) : (s.modIbx n f).mport m = s.mport m := rfl
@[simp] theorem State.modIbx_get_oport (m : Nat) : (s.modIbx n f).oport m = s.oport m := rfl
@[simp] theorem State.modIbx_get_laser (m : Nat) : (s.modIbx n f).laser m = s.laser m := rfl
@[simp] theorem State.modIbx_get_ce (m : Nat) : (s.modIbx n f).ce m = s.ce m := rfl
@[simp] theorem State.modIbx_get_hp (m : Nat) : (s.modIbx n f).hp m = s.hp m := rfl
@[simp] theorem State.modIbx_get_gate (m : Nat) : (s.modIbx n f).gate m = s.gate m := rfl
@[simp] theorem State.modIbx_get_hurdle (m : Nat) : (s.modIbx n f).hurdle m = s.hurdle m := rfl
@[simp] theorem State.modIbx_get_tally (m : Nat) : (s.modIbx n f).tally m = s.tally m := rfl
@[simp] theorem State.modIbx_get_fold (m : Nat) : (s.modIbx n f).fold m = s.fold m := rfl
@[simp] theorem State.modIbx_get_fw (m : Nat) : (s.modIbx n f).fw m = s.fw m := rfl

end modIbx

section setMport

variable (s : State) (n : Nat) (x : MPort)

@[simp] theorem State.setMport_pending : (s.setMport n x).pending = s.pending := rfl
@[simp] theorem State.setMport_time : (s.setMport n x).time = s.time := rfl
@[simp] theorem State.setMport_slew : (s.setMport n x).slew = s.slew := rfl
@[simp] theorem State.setMport_slewUs : (s.setMport n x).slewUs = s.slewUs := rfl
@[simp] theorem State.setMport_uni : (s.setMport n x).uni = s.uni := rfl
@[simp] theorem State.setMport_uniBad : (s.setMport n x).uniBad = s.uniBad := rfl
@[simp] theorem State.setMport_host : (s.setMport n x).host = s.host := rfl
@[simp] theorem State.setMport_cores : (s.setMport n x).cores = s.cores := rfl
@[simp] theorem State.setMport_ctxs : (s.setMport n x).ctxs = s.ctxs := rfl
@[simp] theorem State.setMport_dieHeld : (s.setMport n x).dieHeld = s.dieHeld := rfl
@[simp] theorem State.setMport_ibex : (s.setMport n x).ibex = s.ibex := rfl
@[simp] theorem State.setMport_tiers : (s.setMport n x).tiers = s.tiers := rfl
@[simp] theorem State.setMport_nvmFrames : (s.setMport n x).nvmFrames = s.nvmFrames := rfl
@[simp] theorem State.setMport_oports : (s.setMport n x).oports = s.oports := rfl
@[simp] theorem State.setMport_lasers : (s.setMport n x).lasers = s.lasers := rfl
@[simp] theorem State.setMport_accesses : (s.setMport n x).accesses = s.accesses := rfl
@[simp] theorem State.setMport_nextTag : (s.setMport n x).nextTag = s.nextTag := rfl
@[simp] theorem State.setMport_paths : (s.setMport n x).paths = s.paths := rfl
@[simp] theorem State.setMport_ces : (s.setMport n x).ces = s.ces := rfl
@[simp] theorem State.setMport_areas : (s.setMport n x).areas = s.areas := rfl
@[simp] theorem State.setMport_folds : (s.setMport n x).folds = s.folds := rfl
@[simp] theorem State.setMport_hurdles : (s.setMport n x).hurdles = s.hurdles := rfl
@[simp] theorem State.setMport_hps : (s.setMport n x).hps = s.hps := rfl
@[simp] theorem State.setMport_windows : (s.setMport n x).windows = s.windows := rfl
@[simp] theorem State.setMport_gates : (s.setMport n x).gates = s.gates := rfl
@[simp] theorem State.setMport_tallies : (s.setMport n x).tallies = s.tallies := rfl
@[simp] theorem State.setMport_bbx : (s.setMport n x).bbx = s.bbx := rfl
@[simp] theorem State.setMport_weave : (s.setMport n x).weave = s.weave := rfl
@[simp] theorem State.setMport_hub : (s.setMport n x).hub = s.hub := rfl
@[simp] theorem State.setMport_hub2 : (s.setMport n x).hub2 = s.hub2 := rfl
@[simp] theorem State.setMport_pwr : (s.setMport n x).pwr = s.pwr := rfl
@[simp] theorem State.setMport_opt : (s.setMport n x).opt = s.opt := rfl
@[simp] theorem State.setMport_sec : (s.setMport n x).sec = s.sec := rfl
@[simp] theorem State.setMport_manifests : (s.setMport n x).manifests = s.manifests := rfl
@[simp] theorem State.setMport_loads : (s.setMport n x).loads = s.loads := rfl
@[simp] theorem State.setMport_bus : (s.setMport n x).bus = s.bus := rfl
@[simp] theorem State.setMport_bus2 : (s.setMport n x).bus2 = s.bus2 := rfl
@[simp] theorem State.setMport_poisoned : (s.setMport n x).poisoned = s.poisoned := rfl
@[simp] theorem State.setMport_freeCtr : (s.setMport n x).freeCtr = s.freeCtr := rfl
@[simp] theorem State.setMport_get_core (m : Nat) : (s.setMport n x).core m = s.core m := rfl
@[simp] theorem State.setMport_get_ctx (m : Nat) : (s.setMport n x).ctx m = s.ctx m := rfl
@[simp] theorem State.setMport_get_ibx (m : Nat) : (s.setMport n x).ibx m = s.ibx m := rfl
@[simp] theorem State.setMport_get_mport_self : (s.setMport n x).mport n = x := tget_tset_self _ _ _ _
theorem State.setMport_get_mport_ne (m : Nat) (h : m ≠ n) : (s.setMport n x).mport m = s.mport m := tget_tset_ne _ _ _ _ _ h
theorem State.setMport_get_mport (m : Nat) : (s.setMport n x).mport m = if m = n then x else s.mport m := tget_tset _ _ _ _ _
@[simp] theorem State.setMport_get_oport (m : Nat) : (s.setMport n x).oport m = s.oport m := rfl
@[simp] theorem State.setMport_get_laser (m : Nat) : (s.setMport n x).laser m = s.laser m := rfl
@[simp] theorem State.setMport_get_ce (m : Nat) : (s.setMport n x).ce m = s.ce m := rfl
@[simp] theorem State.setMport_get_hp (m : Nat) : (s.setMport n x).hp m = s.hp m := rfl
@[simp] theorem State.setMport_get_gate (m : Nat) : (s.setMport n x).gate m = s.gate m := rfl
@[simp] theorem State.setMport_get_hurdle (m : Nat) : (s.setMport n x).hurdle m = s.hurdle m := rfl
@[simp] theorem State.setMport_get_tally (m : Nat) : (s.setMport n x).tally m = s.tally m := rfl
@[simp] theorem State.setMport_get_fold (m : Nat) : (s.setMport n x).fold m = s.fold m := rfl
@[simp] theorem State.setMport_get_fw (m : Nat) : (s.setMport n x).fw m = s.fw m := rfl

end setMport

section modMport

variable (s : State) (n : Nat) (f : MPort → MPort)

@[simp] theorem State.modMport_pending : (s.modMport n f).pending = s.pending := rfl
@[simp] theorem State.modMport_time : (s.modMport n f).time = s.time := rfl
@[simp] theorem State.modMport_slew : (s.modMport n f).slew = s.slew := rfl
@[simp] theorem State.modMport_slewUs : (s.modMport n f).slewUs = s.slewUs := rfl
@[simp] theorem State.modMport_uni : (s.modMport n f).uni = s.uni := rfl
@[simp] theorem State.modMport_uniBad : (s.modMport n f).uniBad = s.uniBad := rfl
@[simp] theorem State.modMport_host : (s.modMport n f).host = s.host := rfl
@[simp] theorem State.modMport_cores : (s.modMport n f).cores = s.cores := rfl
@[simp] theorem State.modMport_ctxs : (s.modMport n f).ctxs = s.ctxs := rfl
@[simp] theorem State.modMport_dieHeld : (s.modMport n f).dieHeld = s.dieHeld := rfl
@[simp] theorem State.modMport_ibex : (s.modMport n f).ibex = s.ibex := rfl
@[simp] theorem State.modMport_tiers : (s.modMport n f).tiers = s.tiers := rfl
@[simp] theorem State.modMport_nvmFrames : (s.modMport n f).nvmFrames = s.nvmFrames := rfl
@[simp] theorem State.modMport_oports : (s.modMport n f).oports = s.oports := rfl
@[simp] theorem State.modMport_lasers : (s.modMport n f).lasers = s.lasers := rfl
@[simp] theorem State.modMport_accesses : (s.modMport n f).accesses = s.accesses := rfl
@[simp] theorem State.modMport_nextTag : (s.modMport n f).nextTag = s.nextTag := rfl
@[simp] theorem State.modMport_paths : (s.modMport n f).paths = s.paths := rfl
@[simp] theorem State.modMport_ces : (s.modMport n f).ces = s.ces := rfl
@[simp] theorem State.modMport_areas : (s.modMport n f).areas = s.areas := rfl
@[simp] theorem State.modMport_folds : (s.modMport n f).folds = s.folds := rfl
@[simp] theorem State.modMport_hurdles : (s.modMport n f).hurdles = s.hurdles := rfl
@[simp] theorem State.modMport_hps : (s.modMport n f).hps = s.hps := rfl
@[simp] theorem State.modMport_windows : (s.modMport n f).windows = s.windows := rfl
@[simp] theorem State.modMport_gates : (s.modMport n f).gates = s.gates := rfl
@[simp] theorem State.modMport_tallies : (s.modMport n f).tallies = s.tallies := rfl
@[simp] theorem State.modMport_bbx : (s.modMport n f).bbx = s.bbx := rfl
@[simp] theorem State.modMport_weave : (s.modMport n f).weave = s.weave := rfl
@[simp] theorem State.modMport_hub : (s.modMport n f).hub = s.hub := rfl
@[simp] theorem State.modMport_hub2 : (s.modMport n f).hub2 = s.hub2 := rfl
@[simp] theorem State.modMport_pwr : (s.modMport n f).pwr = s.pwr := rfl
@[simp] theorem State.modMport_opt : (s.modMport n f).opt = s.opt := rfl
@[simp] theorem State.modMport_sec : (s.modMport n f).sec = s.sec := rfl
@[simp] theorem State.modMport_manifests : (s.modMport n f).manifests = s.manifests := rfl
@[simp] theorem State.modMport_loads : (s.modMport n f).loads = s.loads := rfl
@[simp] theorem State.modMport_bus : (s.modMport n f).bus = s.bus := rfl
@[simp] theorem State.modMport_bus2 : (s.modMport n f).bus2 = s.bus2 := rfl
@[simp] theorem State.modMport_poisoned : (s.modMport n f).poisoned = s.poisoned := rfl
@[simp] theorem State.modMport_freeCtr : (s.modMport n f).freeCtr = s.freeCtr := rfl
@[simp] theorem State.modMport_get_core (m : Nat) : (s.modMport n f).core m = s.core m := rfl
@[simp] theorem State.modMport_get_ctx (m : Nat) : (s.modMport n f).ctx m = s.ctx m := rfl
@[simp] theorem State.modMport_get_ibx (m : Nat) : (s.modMport n f).ibx m = s.ibx m := rfl
@[simp] theorem State.modMport_get_mport_self : (s.modMport n f).mport n = f (s.mport n) := tget_tset_self _ _ _ _
theorem State.modMport_get_mport_ne (m : Nat) (h : m ≠ n) : (s.modMport n f).mport m = s.mport m := tget_tset_ne _ _ _ _ _ h
theorem State.modMport_get_mport (m : Nat) : (s.modMport n f).mport m = if m = n then f (s.mport n) else s.mport m := tget_tset _ _ _ _ _
@[simp] theorem State.modMport_get_oport (m : Nat) : (s.modMport n f).oport m = s.oport m := rfl
@[simp] theorem State.modMport_get_laser (m : Nat) : (s.modMport n f).laser m = s.laser m := rfl
@[simp] theorem State.modMport_get_ce (m : Nat) : (s.modMport n f).ce m = s.ce m := rfl
@[simp] theorem State.modMport_get_hp (m : Nat) : (s.modMport n f).hp m = s.hp m := rfl
@[simp] theorem State.modMport_get_gate (m : Nat) : (s.modMport n f).gate m = s.gate m := rfl
@[simp] theorem State.modMport_get_hurdle (m : Nat) : (s.modMport n f).hurdle m = s.hurdle m := rfl
@[simp] theorem State.modMport_get_tally (m : Nat) : (s.modMport n f).tally m = s.tally m := rfl
@[simp] theorem State.modMport_get_fold (m : Nat) : (s.modMport n f).fold m = s.fold m := rfl
@[simp] theorem State.modMport_get_fw (m : Nat) : (s.modMport n f).fw m = s.fw m := rfl

end modMport

section setOport

variable (s : State) (n : Nat) (x : OPort)

@[simp] theorem State.setOport_pending : (s.setOport n x).pending = s.pending := rfl
@[simp] theorem State.setOport_time : (s.setOport n x).time = s.time := rfl
@[simp] theorem State.setOport_slew : (s.setOport n x).slew = s.slew := rfl
@[simp] theorem State.setOport_slewUs : (s.setOport n x).slewUs = s.slewUs := rfl
@[simp] theorem State.setOport_uni : (s.setOport n x).uni = s.uni := rfl
@[simp] theorem State.setOport_uniBad : (s.setOport n x).uniBad = s.uniBad := rfl
@[simp] theorem State.setOport_host : (s.setOport n x).host = s.host := rfl
@[simp] theorem State.setOport_cores : (s.setOport n x).cores = s.cores := rfl
@[simp] theorem State.setOport_ctxs : (s.setOport n x).ctxs = s.ctxs := rfl
@[simp] theorem State.setOport_dieHeld : (s.setOport n x).dieHeld = s.dieHeld := rfl
@[simp] theorem State.setOport_ibex : (s.setOport n x).ibex = s.ibex := rfl
@[simp] theorem State.setOport_mports : (s.setOport n x).mports = s.mports := rfl
@[simp] theorem State.setOport_tiers : (s.setOport n x).tiers = s.tiers := rfl
@[simp] theorem State.setOport_nvmFrames : (s.setOport n x).nvmFrames = s.nvmFrames := rfl
@[simp] theorem State.setOport_lasers : (s.setOport n x).lasers = s.lasers := rfl
@[simp] theorem State.setOport_accesses : (s.setOport n x).accesses = s.accesses := rfl
@[simp] theorem State.setOport_nextTag : (s.setOport n x).nextTag = s.nextTag := rfl
@[simp] theorem State.setOport_paths : (s.setOport n x).paths = s.paths := rfl
@[simp] theorem State.setOport_ces : (s.setOport n x).ces = s.ces := rfl
@[simp] theorem State.setOport_areas : (s.setOport n x).areas = s.areas := rfl
@[simp] theorem State.setOport_folds : (s.setOport n x).folds = s.folds := rfl
@[simp] theorem State.setOport_hurdles : (s.setOport n x).hurdles = s.hurdles := rfl
@[simp] theorem State.setOport_hps : (s.setOport n x).hps = s.hps := rfl
@[simp] theorem State.setOport_windows : (s.setOport n x).windows = s.windows := rfl
@[simp] theorem State.setOport_gates : (s.setOport n x).gates = s.gates := rfl
@[simp] theorem State.setOport_tallies : (s.setOport n x).tallies = s.tallies := rfl
@[simp] theorem State.setOport_bbx : (s.setOport n x).bbx = s.bbx := rfl
@[simp] theorem State.setOport_weave : (s.setOport n x).weave = s.weave := rfl
@[simp] theorem State.setOport_hub : (s.setOport n x).hub = s.hub := rfl
@[simp] theorem State.setOport_hub2 : (s.setOport n x).hub2 = s.hub2 := rfl
@[simp] theorem State.setOport_pwr : (s.setOport n x).pwr = s.pwr := rfl
@[simp] theorem State.setOport_opt : (s.setOport n x).opt = s.opt := rfl
@[simp] theorem State.setOport_sec : (s.setOport n x).sec = s.sec := rfl
@[simp] theorem State.setOport_manifests : (s.setOport n x).manifests = s.manifests := rfl
@[simp] theorem State.setOport_loads : (s.setOport n x).loads = s.loads := rfl
@[simp] theorem State.setOport_bus : (s.setOport n x).bus = s.bus := rfl
@[simp] theorem State.setOport_bus2 : (s.setOport n x).bus2 = s.bus2 := rfl
@[simp] theorem State.setOport_poisoned : (s.setOport n x).poisoned = s.poisoned := rfl
@[simp] theorem State.setOport_freeCtr : (s.setOport n x).freeCtr = s.freeCtr := rfl
@[simp] theorem State.setOport_get_core (m : Nat) : (s.setOport n x).core m = s.core m := rfl
@[simp] theorem State.setOport_get_ctx (m : Nat) : (s.setOport n x).ctx m = s.ctx m := rfl
@[simp] theorem State.setOport_get_ibx (m : Nat) : (s.setOport n x).ibx m = s.ibx m := rfl
@[simp] theorem State.setOport_get_mport (m : Nat) : (s.setOport n x).mport m = s.mport m := rfl
@[simp] theorem State.setOport_get_oport_self : (s.setOport n x).oport n = x := tget_tset_self _ _ _ _
theorem State.setOport_get_oport_ne (m : Nat) (h : m ≠ n) : (s.setOport n x).oport m = s.oport m := tget_tset_ne _ _ _ _ _ h
theorem State.setOport_get_oport (m : Nat) : (s.setOport n x).oport m = if m = n then x else s.oport m := tget_tset _ _ _ _ _
@[simp] theorem State.setOport_get_laser (m : Nat) : (s.setOport n x).laser m = s.laser m := rfl
@[simp] theorem State.setOport_get_ce (m : Nat) : (s.setOport n x).ce m = s.ce m := rfl
@[simp] theorem State.setOport_get_hp (m : Nat) : (s.setOport n x).hp m = s.hp m := rfl
@[simp] theorem State.setOport_get_gate (m : Nat) : (s.setOport n x).gate m = s.gate m := rfl
@[simp] theorem State.setOport_get_hurdle (m : Nat) : (s.setOport n x).hurdle m = s.hurdle m := rfl
@[simp] theorem State.setOport_get_tally (m : Nat) : (s.setOport n x).tally m = s.tally m := rfl
@[simp] theorem State.setOport_get_fold (m : Nat) : (s.setOport n x).fold m = s.fold m := rfl
@[simp] theorem State.setOport_get_fw (m : Nat) : (s.setOport n x).fw m = s.fw m := rfl

end setOport

section modOport

variable (s : State) (n : Nat) (f : OPort → OPort)

@[simp] theorem State.modOport_pending : (s.modOport n f).pending = s.pending := rfl
@[simp] theorem State.modOport_time : (s.modOport n f).time = s.time := rfl
@[simp] theorem State.modOport_slew : (s.modOport n f).slew = s.slew := rfl
@[simp] theorem State.modOport_slewUs : (s.modOport n f).slewUs = s.slewUs := rfl
@[simp] theorem State.modOport_uni : (s.modOport n f).uni = s.uni := rfl
@[simp] theorem State.modOport_uniBad : (s.modOport n f).uniBad = s.uniBad := rfl
@[simp] theorem State.modOport_host : (s.modOport n f).host = s.host := rfl
@[simp] theorem State.modOport_cores : (s.modOport n f).cores = s.cores := rfl
@[simp] theorem State.modOport_ctxs : (s.modOport n f).ctxs = s.ctxs := rfl
@[simp] theorem State.modOport_dieHeld : (s.modOport n f).dieHeld = s.dieHeld := rfl
@[simp] theorem State.modOport_ibex : (s.modOport n f).ibex = s.ibex := rfl
@[simp] theorem State.modOport_mports : (s.modOport n f).mports = s.mports := rfl
@[simp] theorem State.modOport_tiers : (s.modOport n f).tiers = s.tiers := rfl
@[simp] theorem State.modOport_nvmFrames : (s.modOport n f).nvmFrames = s.nvmFrames := rfl
@[simp] theorem State.modOport_lasers : (s.modOport n f).lasers = s.lasers := rfl
@[simp] theorem State.modOport_accesses : (s.modOport n f).accesses = s.accesses := rfl
@[simp] theorem State.modOport_nextTag : (s.modOport n f).nextTag = s.nextTag := rfl
@[simp] theorem State.modOport_paths : (s.modOport n f).paths = s.paths := rfl
@[simp] theorem State.modOport_ces : (s.modOport n f).ces = s.ces := rfl
@[simp] theorem State.modOport_areas : (s.modOport n f).areas = s.areas := rfl
@[simp] theorem State.modOport_folds : (s.modOport n f).folds = s.folds := rfl
@[simp] theorem State.modOport_hurdles : (s.modOport n f).hurdles = s.hurdles := rfl
@[simp] theorem State.modOport_hps : (s.modOport n f).hps = s.hps := rfl
@[simp] theorem State.modOport_windows : (s.modOport n f).windows = s.windows := rfl
@[simp] theorem State.modOport_gates : (s.modOport n f).gates = s.gates := rfl
@[simp] theorem State.modOport_tallies : (s.modOport n f).tallies = s.tallies := rfl
@[simp] theorem State.modOport_bbx : (s.modOport n f).bbx = s.bbx := rfl
@[simp] theorem State.modOport_weave : (s.modOport n f).weave = s.weave := rfl
@[simp] theorem State.modOport_hub : (s.modOport n f).hub = s.hub := rfl
@[simp] theorem State.modOport_hub2 : (s.modOport n f).hub2 = s.hub2 := rfl
@[simp] theorem State.modOport_pwr : (s.modOport n f).pwr = s.pwr := rfl
@[simp] theorem State.modOport_opt : (s.modOport n f).opt = s.opt := rfl
@[simp] theorem State.modOport_sec : (s.modOport n f).sec = s.sec := rfl
@[simp] theorem State.modOport_manifests : (s.modOport n f).manifests = s.manifests := rfl
@[simp] theorem State.modOport_loads : (s.modOport n f).loads = s.loads := rfl
@[simp] theorem State.modOport_bus : (s.modOport n f).bus = s.bus := rfl
@[simp] theorem State.modOport_bus2 : (s.modOport n f).bus2 = s.bus2 := rfl
@[simp] theorem State.modOport_poisoned : (s.modOport n f).poisoned = s.poisoned := rfl
@[simp] theorem State.modOport_freeCtr : (s.modOport n f).freeCtr = s.freeCtr := rfl
@[simp] theorem State.modOport_get_core (m : Nat) : (s.modOport n f).core m = s.core m := rfl
@[simp] theorem State.modOport_get_ctx (m : Nat) : (s.modOport n f).ctx m = s.ctx m := rfl
@[simp] theorem State.modOport_get_ibx (m : Nat) : (s.modOport n f).ibx m = s.ibx m := rfl
@[simp] theorem State.modOport_get_mport (m : Nat) : (s.modOport n f).mport m = s.mport m := rfl
@[simp] theorem State.modOport_get_oport_self : (s.modOport n f).oport n = f (s.oport n) := tget_tset_self _ _ _ _
theorem State.modOport_get_oport_ne (m : Nat) (h : m ≠ n) : (s.modOport n f).oport m = s.oport m := tget_tset_ne _ _ _ _ _ h
theorem State.modOport_get_oport (m : Nat) : (s.modOport n f).oport m = if m = n then f (s.oport n) else s.oport m := tget_tset _ _ _ _ _
@[simp] theorem State.modOport_get_laser (m : Nat) : (s.modOport n f).laser m = s.laser m := rfl
@[simp] theorem State.modOport_get_ce (m : Nat) : (s.modOport n f).ce m = s.ce m := rfl
@[simp] theorem State.modOport_get_hp (m : Nat) : (s.modOport n f).hp m = s.hp m := rfl
@[simp] theorem State.modOport_get_gate (m : Nat) : (s.modOport n f).gate m = s.gate m := rfl
@[simp] theorem State.modOport_get_hurdle (m : Nat) : (s.modOport n f).hurdle m = s.hurdle m := rfl
@[simp] theorem State.modOport_get_tally (m : Nat) : (s.modOport n f).tally m = s.tally m := rfl
@[simp] theorem State.modOport_get_fold (m : Nat) : (s.modOport n f).fold m = s.fold m := rfl
@[simp] theorem State.modOport_get_fw (m : Nat) : (s.modOport n f).fw m = s.fw m := rfl

end modOport

section modLaser

variable (s : State) (n : Nat) (f : Laser → Laser)

@[simp] theorem State.modLaser_pending : (s.modLaser n f).pending = s.pending := rfl
@[simp] theorem State.modLaser_time : (s.modLaser n f).time = s.time := rfl
@[simp] theorem State.modLaser_slew : (s.modLaser n f).slew = s.slew := rfl
@[simp] theorem State.modLaser_slewUs : (s.modLaser n f).slewUs = s.slewUs := rfl
@[simp] theorem State.modLaser_uni : (s.modLaser n f).uni = s.uni := rfl
@[simp] theorem State.modLaser_uniBad : (s.modLaser n f).uniBad = s.uniBad := rfl
@[simp] theorem State.modLaser_host : (s.modLaser n f).host = s.host := rfl
@[simp] theorem State.modLaser_cores : (s.modLaser n f).cores = s.cores := rfl
@[simp] theorem State.modLaser_ctxs : (s.modLaser n f).ctxs = s.ctxs := rfl
@[simp] theorem State.modLaser_dieHeld : (s.modLaser n f).dieHeld = s.dieHeld := rfl
@[simp] theorem State.modLaser_ibex : (s.modLaser n f).ibex = s.ibex := rfl
@[simp] theorem State.modLaser_mports : (s.modLaser n f).mports = s.mports := rfl
@[simp] theorem State.modLaser_tiers : (s.modLaser n f).tiers = s.tiers := rfl
@[simp] theorem State.modLaser_nvmFrames : (s.modLaser n f).nvmFrames = s.nvmFrames := rfl
@[simp] theorem State.modLaser_oports : (s.modLaser n f).oports = s.oports := rfl
@[simp] theorem State.modLaser_accesses : (s.modLaser n f).accesses = s.accesses := rfl
@[simp] theorem State.modLaser_nextTag : (s.modLaser n f).nextTag = s.nextTag := rfl
@[simp] theorem State.modLaser_paths : (s.modLaser n f).paths = s.paths := rfl
@[simp] theorem State.modLaser_ces : (s.modLaser n f).ces = s.ces := rfl
@[simp] theorem State.modLaser_areas : (s.modLaser n f).areas = s.areas := rfl
@[simp] theorem State.modLaser_folds : (s.modLaser n f).folds = s.folds := rfl
@[simp] theorem State.modLaser_hurdles : (s.modLaser n f).hurdles = s.hurdles := rfl
@[simp] theorem State.modLaser_hps : (s.modLaser n f).hps = s.hps := rfl
@[simp] theorem State.modLaser_windows : (s.modLaser n f).windows = s.windows := rfl
@[simp] theorem State.modLaser_gates : (s.modLaser n f).gates = s.gates := rfl
@[simp] theorem State.modLaser_tallies : (s.modLaser n f).tallies = s.tallies := rfl
@[simp] theorem State.modLaser_bbx : (s.modLaser n f).bbx = s.bbx := rfl
@[simp] theorem State.modLaser_weave : (s.modLaser n f).weave = s.weave := rfl
@[simp] theorem State.modLaser_hub : (s.modLaser n f).hub = s.hub := rfl
@[simp] theorem State.modLaser_hub2 : (s.modLaser n f).hub2 = s.hub2 := rfl
@[simp] theorem State.modLaser_pwr : (s.modLaser n f).pwr = s.pwr := rfl
@[simp] theorem State.modLaser_opt : (s.modLaser n f).opt = s.opt := rfl
@[simp] theorem State.modLaser_sec : (s.modLaser n f).sec = s.sec := rfl
@[simp] theorem State.modLaser_manifests : (s.modLaser n f).manifests = s.manifests := rfl
@[simp] theorem State.modLaser_loads : (s.modLaser n f).loads = s.loads := rfl
@[simp] theorem State.modLaser_bus : (s.modLaser n f).bus = s.bus := rfl
@[simp] theorem State.modLaser_bus2 : (s.modLaser n f).bus2 = s.bus2 := rfl
@[simp] theorem State.modLaser_poisoned : (s.modLaser n f).poisoned = s.poisoned := rfl
@[simp] theorem State.modLaser_freeCtr : (s.modLaser n f).freeCtr = s.freeCtr := rfl
@[simp] theorem State.modLaser_get_core (m : Nat) : (s.modLaser n f).core m = s.core m := rfl
@[simp] theorem State.modLaser_get_ctx (m : Nat) : (s.modLaser n f).ctx m = s.ctx m := rfl
@[simp] theorem State.modLaser_get_ibx (m : Nat) : (s.modLaser n f).ibx m = s.ibx m := rfl
@[simp] theorem State.modLaser_get_mport (m : Nat) : (s.modLaser n f).mport m = s.mport m := rfl
@[simp] theorem State.modLaser_get_oport (m : Nat) : (s.modLaser n f).oport m = s.oport m := rfl
@[simp] theorem State.modLaser_get_laser_self : (s.modLaser n f).laser n = f (s.laser n) := tget_tset_self _ _ _ _
theorem State.modLaser_get_laser_ne (m : Nat) (h : m ≠ n) : (s.modLaser n f).laser m = s.laser m := tget_tset_ne _ _ _ _ _ h
theorem State.modLaser_get_laser (m : Nat) : (s.modLaser n f).laser m = if m = n then f (s.laser n) else s.laser m := tget_tset _ _ _ _ _
@[simp] theorem State.modLaser_get_ce (m : Nat) : (s.modLaser n f).ce m = s.ce m := rfl
@[simp] theorem State.modLaser_get_hp (m : Nat) : (s.modLaser n f).hp m = s.hp m := rfl
@[simp] theorem State.modLaser_get_gate (m : Nat) : (s.modLaser n f).gate m = s.gate m := rfl
@[simp] theorem State.modLaser_get_hurdle (m : Nat) : (s.modLaser n f).hurdle m = s.hurdle m := rfl
@[simp] theorem State.modLaser_get_tally (m : Nat) : (s.modLaser n f).tally m = s.tally m := rfl
@[simp] theorem State.modLaser_get_fold (m : Nat) : (s.modLaser n f).fold m = s.fold m := rfl
@[simp] theorem State.modLaser_get_fw (m : Nat) : (s.modLaser n f).fw m = s.fw m := rfl

end modLaser

section modCe

variable (s : State) (n : Nat) (f : CEngine → CEngine)

@[simp] theorem State.modCe_pending : (s.modCe n f).pending = s.pending := rfl
@[simp] theorem State.modCe_time : (s.modCe n f).time = s.time := rfl
@[simp] theorem State.modCe_slew : (s.modCe n f).slew = s.slew := rfl
@[simp] theorem State.modCe_slewUs : (s.modCe n f).slewUs = s.slewUs := rfl
@[simp] theorem State.modCe_uni : (s.modCe n f).uni = s.uni := rfl
@[simp] theorem State.modCe_uniBad : (s.modCe n f).uniBad = s.uniBad := rfl
@[simp] theorem State.modCe_host : (s.modCe n f).host = s.host := rfl
@[simp] theorem State.modCe_cores : (s.modCe n f).cores = s.cores := rfl
@[simp] theorem State.modCe_ctxs : (s.modCe n f).ctxs = s.ctxs := rfl
@[simp] theorem State.modCe_dieHeld : (s.modCe n f).dieHeld = s.dieHeld := rfl
@[simp] theorem State.modCe_ibex : (s.modCe n f).ibex = s.ibex := rfl
@[simp] theorem State.modCe_mports : (s.modCe n f).mports = s.mports := rfl
@[simp] theorem State.modCe_tiers : (s.modCe n f).tiers = s.tiers := rfl
@[simp] theorem State.modCe_nvmFrames : (s.modCe n f).nvmFrames = s.nvmFrames := rfl
@[simp] theorem State.modCe_oports : (s.modCe n f).oports = s.oports := rfl
@[simp] theorem State.modCe_lasers : (s.modCe n f).lasers = s.lasers := rfl
@[simp] theorem State.modCe_accesses : (s.modCe n f).accesses = s.accesses := rfl
@[simp] theorem State.modCe_nextTag : (s.modCe n f).nextTag = s.nextTag := rfl
@[simp] theorem State.modCe_paths : (s.modCe n f).paths = s.paths := rfl
@[simp] theorem State.modCe_areas : (s.modCe n f).areas = s.areas := rfl
@[simp] theorem State.modCe_folds : (s.modCe n f).folds = s.folds := rfl
@[simp] theorem State.modCe_hurdles : (s.modCe n f).hurdles = s.hurdles := rfl
@[simp] theorem State.modCe_hps : (s.modCe n f).hps = s.hps := rfl
@[simp] theorem State.modCe_windows : (s.modCe n f).windows = s.windows := rfl
@[simp] theorem State.modCe_gates : (s.modCe n f).gates = s.gates := rfl
@[simp] theorem State.modCe_tallies : (s.modCe n f).tallies = s.tallies := rfl
@[simp] theorem State.modCe_bbx : (s.modCe n f).bbx = s.bbx := rfl
@[simp] theorem State.modCe_weave : (s.modCe n f).weave = s.weave := rfl
@[simp] theorem State.modCe_hub : (s.modCe n f).hub = s.hub := rfl
@[simp] theorem State.modCe_hub2 : (s.modCe n f).hub2 = s.hub2 := rfl
@[simp] theorem State.modCe_pwr : (s.modCe n f).pwr = s.pwr := rfl
@[simp] theorem State.modCe_opt : (s.modCe n f).opt = s.opt := rfl
@[simp] theorem State.modCe_sec : (s.modCe n f).sec = s.sec := rfl
@[simp] theorem State.modCe_manifests : (s.modCe n f).manifests = s.manifests := rfl
@[simp] theorem State.modCe_loads : (s.modCe n f).loads = s.loads := rfl
@[simp] theorem State.modCe_bus : (s.modCe n f).bus = s.bus := rfl
@[simp] theorem State.modCe_bus2 : (s.modCe n f).bus2 = s.bus2 := rfl
@[simp] theorem State.modCe_poisoned : (s.modCe n f).poisoned = s.poisoned := rfl
@[simp] theorem State.modCe_freeCtr : (s.modCe n f).freeCtr = s.freeCtr := rfl
@[simp] theorem State.modCe_get_core (m : Nat) : (s.modCe n f).core m = s.core m := rfl
@[simp] theorem State.modCe_get_ctx (m : Nat) : (s.modCe n f).ctx m = s.ctx m := rfl
@[simp] theorem State.modCe_get_ibx (m : Nat) : (s.modCe n f).ibx m = s.ibx m := rfl
@[simp] theorem State.modCe_get_mport (m : Nat) : (s.modCe n f).mport m = s.mport m := rfl
@[simp] theorem State.modCe_get_oport (m : Nat) : (s.modCe n f).oport m = s.oport m := rfl
@[simp] theorem State.modCe_get_laser (m : Nat) : (s.modCe n f).laser m = s.laser m := rfl
@[simp] theorem State.modCe_get_ce_self : (s.modCe n f).ce n = f (s.ce n) := tget_tset_self _ _ _ _
theorem State.modCe_get_ce_ne (m : Nat) (h : m ≠ n) : (s.modCe n f).ce m = s.ce m := tget_tset_ne _ _ _ _ _ h
theorem State.modCe_get_ce (m : Nat) : (s.modCe n f).ce m = if m = n then f (s.ce n) else s.ce m := tget_tset _ _ _ _ _
@[simp] theorem State.modCe_get_hp (m : Nat) : (s.modCe n f).hp m = s.hp m := rfl
@[simp] theorem State.modCe_get_gate (m : Nat) : (s.modCe n f).gate m = s.gate m := rfl
@[simp] theorem State.modCe_get_hurdle (m : Nat) : (s.modCe n f).hurdle m = s.hurdle m := rfl
@[simp] theorem State.modCe_get_tally (m : Nat) : (s.modCe n f).tally m = s.tally m := rfl
@[simp] theorem State.modCe_get_fold (m : Nat) : (s.modCe n f).fold m = s.fold m := rfl
@[simp] theorem State.modCe_get_fw (m : Nat) : (s.modCe n f).fw m = s.fw m := rfl

end modCe

section modHp

variable (s : State) (n : Nat) (f : HPort → HPort)

@[simp] theorem State.modHp_pending : (s.modHp n f).pending = s.pending := rfl
@[simp] theorem State.modHp_time : (s.modHp n f).time = s.time := rfl
@[simp] theorem State.modHp_slew : (s.modHp n f).slew = s.slew := rfl
@[simp] theorem State.modHp_slewUs : (s.modHp n f).slewUs = s.slewUs := rfl
@[simp] theorem State.modHp_uni : (s.modHp n f).uni = s.uni := rfl
@[simp] theorem State.modHp_uniBad : (s.modHp n f).uniBad = s.uniBad := rfl
@[simp] theorem State.modHp_host : (s.modHp n f).host = s.host := rfl
@[simp] theorem State.modHp_cores : (s.modHp n f).cores = s.cores := rfl
@[simp] theorem State.modHp_ctxs : (s.modHp n f).ctxs = s.ctxs := rfl
@[simp] theorem State.modHp_dieHeld : (s.modHp n f).dieHeld = s.dieHeld := rfl
@[simp] theorem State.modHp_ibex : (s.modHp n f).ibex = s.ibex := rfl
@[simp] theorem State.modHp_mports : (s.modHp n f).mports = s.mports := rfl
@[simp] theorem State.modHp_tiers : (s.modHp n f).tiers = s.tiers := rfl
@[simp] theorem State.modHp_nvmFrames : (s.modHp n f).nvmFrames = s.nvmFrames := rfl
@[simp] theorem State.modHp_oports : (s.modHp n f).oports = s.oports := rfl
@[simp] theorem State.modHp_lasers : (s.modHp n f).lasers = s.lasers := rfl
@[simp] theorem State.modHp_accesses : (s.modHp n f).accesses = s.accesses := rfl
@[simp] theorem State.modHp_nextTag : (s.modHp n f).nextTag = s.nextTag := rfl
@[simp] theorem State.modHp_paths : (s.modHp n f).paths = s.paths := rfl
@[simp] theorem State.modHp_ces : (s.modHp n f).ces = s.ces := rfl
@[simp] theorem State.modHp_areas : (s.modHp n f).areas = s.areas := rfl
@[simp] theorem State.modHp_folds : (s.modHp n f).folds = s.folds := rfl
@[simp] theorem State.modHp_hurdles : (s.modHp n f).hurdles = s.hurdles := rfl
@[simp] theorem State.modHp_windows : (s.modHp n f).windows = s.windows := rfl
@[simp] theorem State.modHp_gates : (s.modHp n f).gates = s.gates := rfl
@[simp] theorem State.modHp_tallies : (s.modHp n f).tallies = s.tallies := rfl
@[simp] theorem State.modHp_bbx : (s.modHp n f).bbx = s.bbx := rfl
@[simp] theorem State.modHp_weave : (s.modHp n f).weave = s.weave := rfl
@[simp] theorem State.modHp_hub : (s.modHp n f).hub = s.hub := rfl
@[simp] theorem State.modHp_hub2 : (s.modHp n f).hub2 = s.hub2 := rfl
@[simp] theorem State.modHp_pwr : (s.modHp n f).pwr = s.pwr := rfl
@[simp] theorem State.modHp_opt : (s.modHp n f).opt = s.opt := rfl
@[simp] theorem State.modHp_sec : (s.modHp n f).sec = s.sec := rfl
@[simp] theorem State.modHp_manifests : (s.modHp n f).manifests = s.manifests := rfl
@[simp] theorem State.modHp_loads : (s.modHp n f).loads = s.loads := rfl
@[simp] theorem State.modHp_bus : (s.modHp n f).bus = s.bus := rfl
@[simp] theorem State.modHp_bus2 : (s.modHp n f).bus2 = s.bus2 := rfl
@[simp] theorem State.modHp_poisoned : (s.modHp n f).poisoned = s.poisoned := rfl
@[simp] theorem State.modHp_freeCtr : (s.modHp n f).freeCtr = s.freeCtr := rfl
@[simp] theorem State.modHp_get_core (m : Nat) : (s.modHp n f).core m = s.core m := rfl
@[simp] theorem State.modHp_get_ctx (m : Nat) : (s.modHp n f).ctx m = s.ctx m := rfl
@[simp] theorem State.modHp_get_ibx (m : Nat) : (s.modHp n f).ibx m = s.ibx m := rfl
@[simp] theorem State.modHp_get_mport (m : Nat) : (s.modHp n f).mport m = s.mport m := rfl
@[simp] theorem State.modHp_get_oport (m : Nat) : (s.modHp n f).oport m = s.oport m := rfl
@[simp] theorem State.modHp_get_laser (m : Nat) : (s.modHp n f).laser m = s.laser m := rfl
@[simp] theorem State.modHp_get_ce (m : Nat) : (s.modHp n f).ce m = s.ce m := rfl
@[simp] theorem State.modHp_get_hp_self : (s.modHp n f).hp n = f (s.hp n) := tget_tset_self _ _ _ _
theorem State.modHp_get_hp_ne (m : Nat) (h : m ≠ n) : (s.modHp n f).hp m = s.hp m := tget_tset_ne _ _ _ _ _ h
theorem State.modHp_get_hp (m : Nat) : (s.modHp n f).hp m = if m = n then f (s.hp n) else s.hp m := tget_tset _ _ _ _ _
@[simp] theorem State.modHp_get_gate (m : Nat) : (s.modHp n f).gate m = s.gate m := rfl
@[simp] theorem State.modHp_get_hurdle (m : Nat) : (s.modHp n f).hurdle m = s.hurdle m := rfl
@[simp] theorem State.modHp_get_tally (m : Nat) : (s.modHp n f).tally m = s.tally m := rfl
@[simp] theorem State.modHp_get_fold (m : Nat) : (s.modHp n f).fold m = s.fold m := rfl
@[simp] theorem State.modHp_get_fw (m : Nat) : (s.modHp n f).fw m = s.fw m := rfl

end modHp

section modGate

variable (s : State) (n : Nat) (f : Sem → Sem)

@[simp] theorem State.modGate_pending : (s.modGate n f).pending = s.pending := rfl
@[simp] theorem State.modGate_time : (s.modGate n f).time = s.time := rfl
@[simp] theorem State.modGate_slew : (s.modGate n f).slew = s.slew := rfl
@[simp] theorem State.modGate_slewUs : (s.modGate n f).slewUs = s.slewUs := rfl
@[simp] theorem State.modGate_uni : (s.modGate n f).uni = s.uni := rfl
@[simp] theorem State.modGate_uniBad : (s.modGate n f).uniBad = s.uniBad := rfl
@[simp] theorem State.modGate_host : (s.modGate n f).host = s.host := rfl
@[simp] theorem State.modGate_cores : (s.modGate n f).cores = s.cores := rfl
@[simp] theorem State.modGate_ctxs : (s.modGate n f).ctxs = s.ctxs := rfl
@[simp] theorem State.modGate_dieHeld : (s.modGate n f).dieHeld = s.dieHeld := rfl
@[simp] theorem State.modGate_ibex : (s.modGate n f).ibex = s.ibex := rfl
@[simp] theorem State.modGate_mports : (s.modGate n f).mports = s.mports := rfl
@[simp] theorem State.modGate_tiers : (s.modGate n f).tiers = s.tiers := rfl
@[simp] theorem State.modGate_nvmFrames : (s.modGate n f).nvmFrames = s.nvmFrames := rfl
@[simp] theorem State.modGate_oports : (s.modGate n f).oports = s.oports := rfl
@[simp] theorem State.modGate_lasers : (s.modGate n f).lasers = s.lasers := rfl
@[simp] theorem State.modGate_accesses : (s.modGate n f).accesses = s.accesses := rfl
@[simp] theorem State.modGate_nextTag : (s.modGate n f).nextTag = s.nextTag := rfl
@[simp] theorem State.modGate_paths : (s.modGate n f).paths = s.paths := rfl
@[simp] theorem State.modGate_ces : (s.modGate n f).ces = s.ces := rfl
@[simp] theorem State.modGate_areas : (s.modGate n f).areas = s.areas := rfl
@[simp] theorem State.modGate_folds : (s.modGate n f).folds = s.folds := rfl
@[simp] theorem State.modGate_hurdles : (s.modGate n f).hurdles = s.hurdles := rfl
@[simp] theorem State.modGate_hps : (s.modGate n f).hps = s.hps := rfl
@[simp] theorem State.modGate_windows : (s.modGate n f).windows = s.windows := rfl
@[simp] theorem State.modGate_tallies : (s.modGate n f).tallies = s.tallies := rfl
@[simp] theorem State.modGate_bbx : (s.modGate n f).bbx = s.bbx := rfl
@[simp] theorem State.modGate_weave : (s.modGate n f).weave = s.weave := rfl
@[simp] theorem State.modGate_hub : (s.modGate n f).hub = s.hub := rfl
@[simp] theorem State.modGate_hub2 : (s.modGate n f).hub2 = s.hub2 := rfl
@[simp] theorem State.modGate_pwr : (s.modGate n f).pwr = s.pwr := rfl
@[simp] theorem State.modGate_opt : (s.modGate n f).opt = s.opt := rfl
@[simp] theorem State.modGate_sec : (s.modGate n f).sec = s.sec := rfl
@[simp] theorem State.modGate_manifests : (s.modGate n f).manifests = s.manifests := rfl
@[simp] theorem State.modGate_loads : (s.modGate n f).loads = s.loads := rfl
@[simp] theorem State.modGate_bus : (s.modGate n f).bus = s.bus := rfl
@[simp] theorem State.modGate_bus2 : (s.modGate n f).bus2 = s.bus2 := rfl
@[simp] theorem State.modGate_poisoned : (s.modGate n f).poisoned = s.poisoned := rfl
@[simp] theorem State.modGate_freeCtr : (s.modGate n f).freeCtr = s.freeCtr := rfl
@[simp] theorem State.modGate_get_core (m : Nat) : (s.modGate n f).core m = s.core m := rfl
@[simp] theorem State.modGate_get_ctx (m : Nat) : (s.modGate n f).ctx m = s.ctx m := rfl
@[simp] theorem State.modGate_get_ibx (m : Nat) : (s.modGate n f).ibx m = s.ibx m := rfl
@[simp] theorem State.modGate_get_mport (m : Nat) : (s.modGate n f).mport m = s.mport m := rfl
@[simp] theorem State.modGate_get_oport (m : Nat) : (s.modGate n f).oport m = s.oport m := rfl
@[simp] theorem State.modGate_get_laser (m : Nat) : (s.modGate n f).laser m = s.laser m := rfl
@[simp] theorem State.modGate_get_ce (m : Nat) : (s.modGate n f).ce m = s.ce m := rfl
@[simp] theorem State.modGate_get_hp (m : Nat) : (s.modGate n f).hp m = s.hp m := rfl
@[simp] theorem State.modGate_get_gate_self : (s.modGate n f).gate n = f (s.gate n) := tget_tset_self _ _ _ _
theorem State.modGate_get_gate_ne (m : Nat) (h : m ≠ n) : (s.modGate n f).gate m = s.gate m := tget_tset_ne _ _ _ _ _ h
theorem State.modGate_get_gate (m : Nat) : (s.modGate n f).gate m = if m = n then f (s.gate n) else s.gate m := tget_tset _ _ _ _ _
@[simp] theorem State.modGate_get_hurdle (m : Nat) : (s.modGate n f).hurdle m = s.hurdle m := rfl
@[simp] theorem State.modGate_get_tally (m : Nat) : (s.modGate n f).tally m = s.tally m := rfl
@[simp] theorem State.modGate_get_fold (m : Nat) : (s.modGate n f).fold m = s.fold m := rfl
@[simp] theorem State.modGate_get_fw (m : Nat) : (s.modGate n f).fw m = s.fw m := rfl

end modGate

section modHurdle

variable (s : State) (n : Nat) (f : Hurdle → Hurdle)

@[simp] theorem State.modHurdle_pending : (s.modHurdle n f).pending = s.pending := rfl
@[simp] theorem State.modHurdle_time : (s.modHurdle n f).time = s.time := rfl
@[simp] theorem State.modHurdle_slew : (s.modHurdle n f).slew = s.slew := rfl
@[simp] theorem State.modHurdle_slewUs : (s.modHurdle n f).slewUs = s.slewUs := rfl
@[simp] theorem State.modHurdle_uni : (s.modHurdle n f).uni = s.uni := rfl
@[simp] theorem State.modHurdle_uniBad : (s.modHurdle n f).uniBad = s.uniBad := rfl
@[simp] theorem State.modHurdle_host : (s.modHurdle n f).host = s.host := rfl
@[simp] theorem State.modHurdle_cores : (s.modHurdle n f).cores = s.cores := rfl
@[simp] theorem State.modHurdle_ctxs : (s.modHurdle n f).ctxs = s.ctxs := rfl
@[simp] theorem State.modHurdle_dieHeld : (s.modHurdle n f).dieHeld = s.dieHeld := rfl
@[simp] theorem State.modHurdle_ibex : (s.modHurdle n f).ibex = s.ibex := rfl
@[simp] theorem State.modHurdle_mports : (s.modHurdle n f).mports = s.mports := rfl
@[simp] theorem State.modHurdle_tiers : (s.modHurdle n f).tiers = s.tiers := rfl
@[simp] theorem State.modHurdle_nvmFrames : (s.modHurdle n f).nvmFrames = s.nvmFrames := rfl
@[simp] theorem State.modHurdle_oports : (s.modHurdle n f).oports = s.oports := rfl
@[simp] theorem State.modHurdle_lasers : (s.modHurdle n f).lasers = s.lasers := rfl
@[simp] theorem State.modHurdle_accesses : (s.modHurdle n f).accesses = s.accesses := rfl
@[simp] theorem State.modHurdle_nextTag : (s.modHurdle n f).nextTag = s.nextTag := rfl
@[simp] theorem State.modHurdle_paths : (s.modHurdle n f).paths = s.paths := rfl
@[simp] theorem State.modHurdle_ces : (s.modHurdle n f).ces = s.ces := rfl
@[simp] theorem State.modHurdle_areas : (s.modHurdle n f).areas = s.areas := rfl
@[simp] theorem State.modHurdle_folds : (s.modHurdle n f).folds = s.folds := rfl
@[simp] theorem State.modHurdle_hps : (s.modHurdle n f).hps = s.hps := rfl
@[simp] theorem State.modHurdle_windows : (s.modHurdle n f).windows = s.windows := rfl
@[simp] theorem State.modHurdle_gates : (s.modHurdle n f).gates = s.gates := rfl
@[simp] theorem State.modHurdle_tallies : (s.modHurdle n f).tallies = s.tallies := rfl
@[simp] theorem State.modHurdle_bbx : (s.modHurdle n f).bbx = s.bbx := rfl
@[simp] theorem State.modHurdle_weave : (s.modHurdle n f).weave = s.weave := rfl
@[simp] theorem State.modHurdle_hub : (s.modHurdle n f).hub = s.hub := rfl
@[simp] theorem State.modHurdle_hub2 : (s.modHurdle n f).hub2 = s.hub2 := rfl
@[simp] theorem State.modHurdle_pwr : (s.modHurdle n f).pwr = s.pwr := rfl
@[simp] theorem State.modHurdle_opt : (s.modHurdle n f).opt = s.opt := rfl
@[simp] theorem State.modHurdle_sec : (s.modHurdle n f).sec = s.sec := rfl
@[simp] theorem State.modHurdle_manifests : (s.modHurdle n f).manifests = s.manifests := rfl
@[simp] theorem State.modHurdle_loads : (s.modHurdle n f).loads = s.loads := rfl
@[simp] theorem State.modHurdle_bus : (s.modHurdle n f).bus = s.bus := rfl
@[simp] theorem State.modHurdle_bus2 : (s.modHurdle n f).bus2 = s.bus2 := rfl
@[simp] theorem State.modHurdle_poisoned : (s.modHurdle n f).poisoned = s.poisoned := rfl
@[simp] theorem State.modHurdle_freeCtr : (s.modHurdle n f).freeCtr = s.freeCtr := rfl
@[simp] theorem State.modHurdle_get_core (m : Nat) : (s.modHurdle n f).core m = s.core m := rfl
@[simp] theorem State.modHurdle_get_ctx (m : Nat) : (s.modHurdle n f).ctx m = s.ctx m := rfl
@[simp] theorem State.modHurdle_get_ibx (m : Nat) : (s.modHurdle n f).ibx m = s.ibx m := rfl
@[simp] theorem State.modHurdle_get_mport (m : Nat) : (s.modHurdle n f).mport m = s.mport m := rfl
@[simp] theorem State.modHurdle_get_oport (m : Nat) : (s.modHurdle n f).oport m = s.oport m := rfl
@[simp] theorem State.modHurdle_get_laser (m : Nat) : (s.modHurdle n f).laser m = s.laser m := rfl
@[simp] theorem State.modHurdle_get_ce (m : Nat) : (s.modHurdle n f).ce m = s.ce m := rfl
@[simp] theorem State.modHurdle_get_hp (m : Nat) : (s.modHurdle n f).hp m = s.hp m := rfl
@[simp] theorem State.modHurdle_get_gate (m : Nat) : (s.modHurdle n f).gate m = s.gate m := rfl
@[simp] theorem State.modHurdle_get_hurdle_self : (s.modHurdle n f).hurdle n = f (s.hurdle n) := tget_tset_self _ _ _ _
theorem State.modHurdle_get_hurdle_ne (m : Nat) (h : m ≠ n) : (s.modHurdle n f).hurdle m = s.hurdle m := tget_tset_ne _ _ _ _ _ h
theorem State.modHurdle_get_hurdle (m : Nat) : (s.modHurdle n f).hurdle m = if m = n then f (s.hurdle n) else s.hurdle m := tget_tset _ _ _ _ _
@[simp] theorem State.modHurdle_get_tally (m : Nat) : (s.modHurdle n f).tally m = s.tally m := rfl
@[simp] theorem State.modHurdle_get_fold (m : Nat) : (s.modHurdle n f).fold m = s.fold m := rfl
@[simp] theorem State.modHurdle_get_fw (m : Nat) : (s.modHurdle n f).fw m = s.fw m := rfl

end modHurdle

section modTally

variable (s : State) (n : Nat) (f : TallyUnit → TallyUnit)

@[simp] theorem State.modTally_pending : (s.modTally n f).pending = s.pending := rfl
@[simp] theorem State.modTally_time : (s.modTally n f).time = s.time := rfl
@[simp] theorem State.modTally_slew : (s.modTally n f).slew = s.slew := rfl
@[simp] theorem State.modTally_slewUs : (s.modTally n f).slewUs = s.slewUs := rfl
@[simp] theorem State.modTally_uni : (s.modTally n f).uni = s.uni := rfl
@[simp] theorem State.modTally_uniBad : (s.modTally n f).uniBad = s.uniBad := rfl
@[simp] theorem State.modTally_host : (s.modTally n f).host = s.host := rfl
@[simp] theorem State.modTally_cores : (s.modTally n f).cores = s.cores := rfl
@[simp] theorem State.modTally_ctxs : (s.modTally n f).ctxs = s.ctxs := rfl
@[simp] theorem State.modTally_dieHeld : (s.modTally n f).dieHeld = s.dieHeld := rfl
@[simp] theorem State.modTally_ibex : (s.modTally n f).ibex = s.ibex := rfl
@[simp] theorem State.modTally_mports : (s.modTally n f).mports = s.mports := rfl
@[simp] theorem State.modTally_tiers : (s.modTally n f).tiers = s.tiers := rfl
@[simp] theorem State.modTally_nvmFrames : (s.modTally n f).nvmFrames = s.nvmFrames := rfl
@[simp] theorem State.modTally_oports : (s.modTally n f).oports = s.oports := rfl
@[simp] theorem State.modTally_lasers : (s.modTally n f).lasers = s.lasers := rfl
@[simp] theorem State.modTally_accesses : (s.modTally n f).accesses = s.accesses := rfl
@[simp] theorem State.modTally_nextTag : (s.modTally n f).nextTag = s.nextTag := rfl
@[simp] theorem State.modTally_paths : (s.modTally n f).paths = s.paths := rfl
@[simp] theorem State.modTally_ces : (s.modTally n f).ces = s.ces := rfl
@[simp] theorem State.modTally_areas : (s.modTally n f).areas = s.areas := rfl
@[simp] theorem State.modTally_folds : (s.modTally n f).folds = s.folds := rfl
@[simp] theorem State.modTally_hurdles : (s.modTally n f).hurdles = s.hurdles := rfl
@[simp] theorem State.modTally_hps : (s.modTally n f).hps = s.hps := rfl
@[simp] theorem State.modTally_windows : (s.modTally n f).windows = s.windows := rfl
@[simp] theorem State.modTally_gates : (s.modTally n f).gates = s.gates := rfl
@[simp] theorem State.modTally_bbx : (s.modTally n f).bbx = s.bbx := rfl
@[simp] theorem State.modTally_weave : (s.modTally n f).weave = s.weave := rfl
@[simp] theorem State.modTally_hub : (s.modTally n f).hub = s.hub := rfl
@[simp] theorem State.modTally_hub2 : (s.modTally n f).hub2 = s.hub2 := rfl
@[simp] theorem State.modTally_pwr : (s.modTally n f).pwr = s.pwr := rfl
@[simp] theorem State.modTally_opt : (s.modTally n f).opt = s.opt := rfl
@[simp] theorem State.modTally_sec : (s.modTally n f).sec = s.sec := rfl
@[simp] theorem State.modTally_manifests : (s.modTally n f).manifests = s.manifests := rfl
@[simp] theorem State.modTally_loads : (s.modTally n f).loads = s.loads := rfl
@[simp] theorem State.modTally_bus : (s.modTally n f).bus = s.bus := rfl
@[simp] theorem State.modTally_bus2 : (s.modTally n f).bus2 = s.bus2 := rfl
@[simp] theorem State.modTally_poisoned : (s.modTally n f).poisoned = s.poisoned := rfl
@[simp] theorem State.modTally_freeCtr : (s.modTally n f).freeCtr = s.freeCtr := rfl
@[simp] theorem State.modTally_get_core (m : Nat) : (s.modTally n f).core m = s.core m := rfl
@[simp] theorem State.modTally_get_ctx (m : Nat) : (s.modTally n f).ctx m = s.ctx m := rfl
@[simp] theorem State.modTally_get_ibx (m : Nat) : (s.modTally n f).ibx m = s.ibx m := rfl
@[simp] theorem State.modTally_get_mport (m : Nat) : (s.modTally n f).mport m = s.mport m := rfl
@[simp] theorem State.modTally_get_oport (m : Nat) : (s.modTally n f).oport m = s.oport m := rfl
@[simp] theorem State.modTally_get_laser (m : Nat) : (s.modTally n f).laser m = s.laser m := rfl
@[simp] theorem State.modTally_get_ce (m : Nat) : (s.modTally n f).ce m = s.ce m := rfl
@[simp] theorem State.modTally_get_hp (m : Nat) : (s.modTally n f).hp m = s.hp m := rfl
@[simp] theorem State.modTally_get_gate (m : Nat) : (s.modTally n f).gate m = s.gate m := rfl
@[simp] theorem State.modTally_get_hurdle (m : Nat) : (s.modTally n f).hurdle m = s.hurdle m := rfl
@[simp] theorem State.modTally_get_tally_self : (s.modTally n f).tally n = f (s.tally n) := tget_tset_self _ _ _ _
theorem State.modTally_get_tally_ne (m : Nat) (h : m ≠ n) : (s.modTally n f).tally m = s.tally m := tget_tset_ne _ _ _ _ _ h
theorem State.modTally_get_tally (m : Nat) : (s.modTally n f).tally m = if m = n then f (s.tally n) else s.tally m := tget_tset _ _ _ _ _
@[simp] theorem State.modTally_get_fold (m : Nat) : (s.modTally n f).fold m = s.fold m := rfl
@[simp] theorem State.modTally_get_fw (m : Nat) : (s.modTally n f).fw m = s.fw m := rfl

end modTally

section modFold

variable (s : State) (n : Nat) (f : Fold → Fold)

@[simp] theorem State.modFold_pending : (s.modFold n f).pending = s.pending := rfl
@[simp] theorem State.modFold_time : (s.modFold n f).time = s.time := rfl
@[simp] theorem State.modFold_slew : (s.modFold n f).slew = s.slew := rfl
@[simp] theorem State.modFold_slewUs : (s.modFold n f).slewUs = s.slewUs := rfl
@[simp] theorem State.modFold_uni : (s.modFold n f).uni = s.uni := rfl
@[simp] theorem State.modFold_uniBad : (s.modFold n f).uniBad = s.uniBad := rfl
@[simp] theorem State.modFold_host : (s.modFold n f).host = s.host := rfl
@[simp] theorem State.modFold_cores : (s.modFold n f).cores = s.cores := rfl
@[simp] theorem State.modFold_ctxs : (s.modFold n f).ctxs = s.ctxs := rfl
@[simp] theorem State.modFold_dieHeld : (s.modFold n f).dieHeld = s.dieHeld := rfl
@[simp] theorem State.modFold_ibex : (s.modFold n f).ibex = s.ibex := rfl
@[simp] theorem State.modFold_mports : (s.modFold n f).mports = s.mports := rfl
@[simp] theorem State.modFold_tiers : (s.modFold n f).tiers = s.tiers := rfl
@[simp] theorem State.modFold_nvmFrames : (s.modFold n f).nvmFrames = s.nvmFrames := rfl
@[simp] theorem State.modFold_oports : (s.modFold n f).oports = s.oports := rfl
@[simp] theorem State.modFold_lasers : (s.modFold n f).lasers = s.lasers := rfl
@[simp] theorem State.modFold_accesses : (s.modFold n f).accesses = s.accesses := rfl
@[simp] theorem State.modFold_nextTag : (s.modFold n f).nextTag = s.nextTag := rfl
@[simp] theorem State.modFold_paths : (s.modFold n f).paths = s.paths := rfl
@[simp] theorem State.modFold_ces : (s.modFold n f).ces = s.ces := rfl
@[simp] theorem State.modFold_areas : (s.modFold n f).areas = s.areas := rfl
@[simp] theorem State.modFold_hurdles : (s.modFold n f).hurdles = s.hurdles := rfl
@[simp] theorem State.modFold_hps : (s.modFold n f).hps = s.hps := rfl
@[simp] theorem State.modFold_windows : (s.modFold n f).windows = s.windows := rfl
@[simp] theorem State.modFold_gates : (s.modFold n f).gates = s.gates := rfl
@[simp] theorem State.modFold_tallies : (s.modFold n f).tallies = s.tallies := rfl
@[simp] theorem State.modFold_bbx : (s.modFold n f).bbx = s.bbx := rfl
@[simp] theorem State.modFold_weave : (s.modFold n f).weave = s.weave := rfl
@[simp] theorem State.modFold_hub : (s.modFold n f).hub = s.hub := rfl
@[simp] theorem State.modFold_hub2 : (s.modFold n f).hub2 = s.hub2 := rfl
@[simp] theorem State.modFold_pwr : (s.modFold n f).pwr = s.pwr := rfl
@[simp] theorem State.modFold_opt : (s.modFold n f).opt = s.opt := rfl
@[simp] theorem State.modFold_sec : (s.modFold n f).sec = s.sec := rfl
@[simp] theorem State.modFold_manifests : (s.modFold n f).manifests = s.manifests := rfl
@[simp] theorem State.modFold_loads : (s.modFold n f).loads = s.loads := rfl
@[simp] theorem State.modFold_bus : (s.modFold n f).bus = s.bus := rfl
@[simp] theorem State.modFold_bus2 : (s.modFold n f).bus2 = s.bus2 := rfl
@[simp] theorem State.modFold_poisoned : (s.modFold n f).poisoned = s.poisoned := rfl
@[simp] theorem State.modFold_freeCtr : (s.modFold n f).freeCtr = s.freeCtr := rfl
@[simp] theorem State.modFold_get_core (m : Nat) : (s.modFold n f).core m = s.core m := rfl
@[simp] theorem State.modFold_get_ctx (m : Nat) : (s.modFold n f).ctx m = s.ctx m := rfl
@[simp] theorem State.modFold_get_ibx (m : Nat) : (s.modFold n f).ibx m = s.ibx m := rfl
@[simp] theorem State.modFold_get_mport (m : Nat) : (s.modFold n f).mport m = s.mport m := rfl
@[simp] theorem State.modFold_get_oport (m : Nat) : (s.modFold n f).oport m = s.oport m := rfl
@[simp] theorem State.modFold_get_laser (m : Nat) : (s.modFold n f).laser m = s.laser m := rfl
@[simp] theorem State.modFold_get_ce (m : Nat) : (s.modFold n f).ce m = s.ce m := rfl
@[simp] theorem State.modFold_get_hp (m : Nat) : (s.modFold n f).hp m = s.hp m := rfl
@[simp] theorem State.modFold_get_gate (m : Nat) : (s.modFold n f).gate m = s.gate m := rfl
@[simp] theorem State.modFold_get_hurdle (m : Nat) : (s.modFold n f).hurdle m = s.hurdle m := rfl
@[simp] theorem State.modFold_get_tally (m : Nat) : (s.modFold n f).tally m = s.tally m := rfl
@[simp] theorem State.modFold_get_fold_self : (s.modFold n f).fold n = f (s.fold n) := tget_tset_self _ _ _ _
theorem State.modFold_get_fold_ne (m : Nat) (h : m ≠ n) : (s.modFold n f).fold m = s.fold m := tget_tset_ne _ _ _ _ _ h
theorem State.modFold_get_fold (m : Nat) : (s.modFold n f).fold m = if m = n then f (s.fold n) else s.fold m := tget_tset _ _ _ _ _
@[simp] theorem State.modFold_get_fw (m : Nat) : (s.modFold n f).fw m = s.fw m := rfl

end modFold

section modFw

variable (s : State) (n : Nat) (f : FwTarget → FwTarget)

@[simp] theorem State.modFw_pending : (s.modFw n f).pending = s.pending := rfl
@[simp] theorem State.modFw_time : (s.modFw n f).time = s.time := rfl
@[simp] theorem State.modFw_slew : (s.modFw n f).slew = s.slew := rfl
@[simp] theorem State.modFw_slewUs : (s.modFw n f).slewUs = s.slewUs := rfl
@[simp] theorem State.modFw_uni : (s.modFw n f).uni = s.uni := rfl
@[simp] theorem State.modFw_uniBad : (s.modFw n f).uniBad = s.uniBad := rfl
@[simp] theorem State.modFw_host : (s.modFw n f).host = s.host := rfl
@[simp] theorem State.modFw_cores : (s.modFw n f).cores = s.cores := rfl
@[simp] theorem State.modFw_ctxs : (s.modFw n f).ctxs = s.ctxs := rfl
@[simp] theorem State.modFw_dieHeld : (s.modFw n f).dieHeld = s.dieHeld := rfl
@[simp] theorem State.modFw_ibex : (s.modFw n f).ibex = s.ibex := rfl
@[simp] theorem State.modFw_mports : (s.modFw n f).mports = s.mports := rfl
@[simp] theorem State.modFw_tiers : (s.modFw n f).tiers = s.tiers := rfl
@[simp] theorem State.modFw_nvmFrames : (s.modFw n f).nvmFrames = s.nvmFrames := rfl
@[simp] theorem State.modFw_oports : (s.modFw n f).oports = s.oports := rfl
@[simp] theorem State.modFw_lasers : (s.modFw n f).lasers = s.lasers := rfl
@[simp] theorem State.modFw_accesses : (s.modFw n f).accesses = s.accesses := rfl
@[simp] theorem State.modFw_nextTag : (s.modFw n f).nextTag = s.nextTag := rfl
@[simp] theorem State.modFw_paths : (s.modFw n f).paths = s.paths := rfl
@[simp] theorem State.modFw_ces : (s.modFw n f).ces = s.ces := rfl
@[simp] theorem State.modFw_areas : (s.modFw n f).areas = s.areas := rfl
@[simp] theorem State.modFw_folds : (s.modFw n f).folds = s.folds := rfl
@[simp] theorem State.modFw_hurdles : (s.modFw n f).hurdles = s.hurdles := rfl
@[simp] theorem State.modFw_hps : (s.modFw n f).hps = s.hps := rfl
@[simp] theorem State.modFw_windows : (s.modFw n f).windows = s.windows := rfl
@[simp] theorem State.modFw_gates : (s.modFw n f).gates = s.gates := rfl
@[simp] theorem State.modFw_tallies : (s.modFw n f).tallies = s.tallies := rfl
@[simp] theorem State.modFw_bbx : (s.modFw n f).bbx = s.bbx := rfl
@[simp] theorem State.modFw_weave : (s.modFw n f).weave = s.weave := rfl
@[simp] theorem State.modFw_hub : (s.modFw n f).hub = s.hub := rfl
@[simp] theorem State.modFw_hub2 : (s.modFw n f).hub2 = s.hub2 := rfl
@[simp] theorem State.modFw_pwr : (s.modFw n f).pwr = s.pwr := rfl
@[simp] theorem State.modFw_opt : (s.modFw n f).opt = s.opt := rfl
@[simp] theorem State.modFw_manifests : (s.modFw n f).manifests = s.manifests := rfl
@[simp] theorem State.modFw_loads : (s.modFw n f).loads = s.loads := rfl
@[simp] theorem State.modFw_bus : (s.modFw n f).bus = s.bus := rfl
@[simp] theorem State.modFw_bus2 : (s.modFw n f).bus2 = s.bus2 := rfl
@[simp] theorem State.modFw_poisoned : (s.modFw n f).poisoned = s.poisoned := rfl
@[simp] theorem State.modFw_freeCtr : (s.modFw n f).freeCtr = s.freeCtr := rfl
@[simp] theorem State.modFw_get_core (m : Nat) : (s.modFw n f).core m = s.core m := rfl
@[simp] theorem State.modFw_get_ctx (m : Nat) : (s.modFw n f).ctx m = s.ctx m := rfl
@[simp] theorem State.modFw_get_ibx (m : Nat) : (s.modFw n f).ibx m = s.ibx m := rfl
@[simp] theorem State.modFw_get_mport (m : Nat) : (s.modFw n f).mport m = s.mport m := rfl
@[simp] theorem State.modFw_get_oport (m : Nat) : (s.modFw n f).oport m = s.oport m := rfl
@[simp] theorem State.modFw_get_laser (m : Nat) : (s.modFw n f).laser m = s.laser m := rfl
@[simp] theorem State.modFw_get_ce (m : Nat) : (s.modFw n f).ce m = s.ce m := rfl
@[simp] theorem State.modFw_get_hp (m : Nat) : (s.modFw n f).hp m = s.hp m := rfl
@[simp] theorem State.modFw_get_gate (m : Nat) : (s.modFw n f).gate m = s.gate m := rfl
@[simp] theorem State.modFw_get_hurdle (m : Nat) : (s.modFw n f).hurdle m = s.hurdle m := rfl
@[simp] theorem State.modFw_get_tally (m : Nat) : (s.modFw n f).tally m = s.tally m := rfl
@[simp] theorem State.modFw_get_fold (m : Nat) : (s.modFw n f).fold m = s.fold m := rfl
@[simp] theorem State.modFw_get_fw_self : (s.modFw n f).fw n = f (s.fw n) := tget_tset_self _ _ _ _
theorem State.modFw_get_fw_ne (m : Nat) (h : m ≠ n) : (s.modFw n f).fw m = s.fw m := tget_tset_ne _ _ _ _ _ h
theorem State.modFw_get_fw (m : Nat) : (s.modFw n f).fw m = if m = n then f (s.fw n) else s.fw m := tget_tset _ _ _ _ _

end modFw

section post

variable (s : State) (u c code payload : Nat)

@[simp] theorem post_pending : (post s u c code payload).pending = s.pending := rfl
@[simp] theorem post_time : (post s u c code payload).time = s.time := rfl
@[simp] theorem post_slew : (post s u c code payload).slew = s.slew := rfl
@[simp] theorem post_slewUs : (post s u c code payload).slewUs = s.slewUs := rfl
@[simp] theorem post_uni : (post s u c code payload).uni = s.uni := rfl
@[simp] theorem post_uniBad : (post s u c code payload).uniBad = s.uniBad := rfl
@[simp] theorem post_host : (post s u c code payload).host = s.host := rfl
@[simp] theorem post_cores : (post s u c code payload).cores = s.cores := rfl
@[simp] theorem post_ctxs : (post s u c code payload).ctxs = s.ctxs := rfl
@[simp] theorem post_dieHeld : (post s u c code payload).dieHeld = s.dieHeld := rfl
@[simp] theorem post_ibex : (post s u c code payload).ibex = s.ibex := rfl
@[simp] theorem post_mports : (post s u c code payload).mports = s.mports := rfl
@[simp] theorem post_tiers : (post s u c code payload).tiers = s.tiers := rfl
@[simp] theorem post_nvmFrames : (post s u c code payload).nvmFrames = s.nvmFrames := rfl
@[simp] theorem post_oports : (post s u c code payload).oports = s.oports := rfl
@[simp] theorem post_lasers : (post s u c code payload).lasers = s.lasers := rfl
@[simp] theorem post_accesses : (post s u c code payload).accesses = s.accesses := rfl
@[simp] theorem post_nextTag : (post s u c code payload).nextTag = s.nextTag := rfl
@[simp] theorem post_paths : (post s u c code payload).paths = s.paths := rfl
@[simp] theorem post_ces : (post s u c code payload).ces = s.ces := rfl
@[simp] theorem post_areas : (post s u c code payload).areas = s.areas := rfl
@[simp] theorem post_folds : (post s u c code payload).folds = s.folds := rfl
@[simp] theorem post_hurdles : (post s u c code payload).hurdles = s.hurdles := rfl
@[simp] theorem post_hps : (post s u c code payload).hps = s.hps := rfl
@[simp] theorem post_windows : (post s u c code payload).windows = s.windows := rfl
@[simp] theorem post_gates : (post s u c code payload).gates = s.gates := rfl
@[simp] theorem post_bbx : (post s u c code payload).bbx = s.bbx := rfl
@[simp] theorem post_weave : (post s u c code payload).weave = s.weave := rfl
@[simp] theorem post_hub : (post s u c code payload).hub = s.hub := rfl
@[simp] theorem post_hub2 : (post s u c code payload).hub2 = s.hub2 := rfl
@[simp] theorem post_pwr : (post s u c code payload).pwr = s.pwr := rfl
@[simp] theorem post_opt : (post s u c code payload).opt = s.opt := rfl
@[simp] theorem post_sec : (post s u c code payload).sec = s.sec := rfl
@[simp] theorem post_manifests : (post s u c code payload).manifests = s.manifests := rfl
@[simp] theorem post_loads : (post s u c code payload).loads = s.loads := rfl
@[simp] theorem post_bus : (post s u c code payload).bus = s.bus := rfl
@[simp] theorem post_bus2 : (post s u c code payload).bus2 = s.bus2 := rfl
@[simp] theorem post_poisoned : (post s u c code payload).poisoned = s.poisoned := rfl
@[simp] theorem post_freeCtr : (post s u c code payload).freeCtr = s.freeCtr := rfl
@[simp] theorem post_get_core (m : Nat) : (post s u c code payload).core m = s.core m := rfl
@[simp] theorem post_get_ctx (m : Nat) : (post s u c code payload).ctx m = s.ctx m := rfl
@[simp] theorem post_get_ibx (m : Nat) : (post s u c code payload).ibx m = s.ibx m := rfl
@[simp] theorem post_get_mport (m : Nat) : (post s u c code payload).mport m = s.mport m := rfl
@[simp] theorem post_get_oport (m : Nat) : (post s u c code payload).oport m = s.oport m := rfl
@[simp] theorem post_get_laser (m : Nat) : (post s u c code payload).laser m = s.laser m := rfl
@[simp] theorem post_get_ce (m : Nat) : (post s u c code payload).ce m = s.ce m := rfl
@[simp] theorem post_get_hp (m : Nat) : (post s u c code payload).hp m = s.hp m := rfl
@[simp] theorem post_get_gate (m : Nat) : (post s u c code payload).gate m = s.gate m := rfl
@[simp] theorem post_get_hurdle (m : Nat) : (post s u c code payload).hurdle m = s.hurdle m := rfl
@[simp] theorem post_get_fold (m : Nat) : (post s u c code payload).fold m = s.fold m := rfl
@[simp] theorem post_get_fw (m : Nat) : (post s u c code payload).fw m = s.fw m := rfl
theorem post_get_tally_ne (m : Nat) (h : m ≠ u) : (post s u c code payload).tally m = s.tally m := tget_tset_ne _ _ _ _ _ h

end post

section rings

variable (x : Ctx) (k : Nat) (f : Ring → Ring)

@[simp] theorem Ctx.modRing_state : (x.modRing k f).state = x.state := rfl
@[simp] theorem Ctx.modRing_result : (x.modRing k f).result = x.result := rfl
@[simp] theorem Ctx.modRing_kind : (x.modRing k f).kind = x.kind := rfl
@[simp] theorem Ctx.modRing_parts : (x.modRing k f).parts = x.parts := rfl
@[simp] theorem Ctx.modRing_ro0 : (x.modRing k f).ro0 = x.ro0 := rfl
@[simp] theorem Ctx.modRing_ro1 : (x.modRing k f).ro1 = x.ro1 := rfl
@[simp] theorem Ctx.modRing_ringErr : (x.modRing k f).ringErr = x.ringErr := rfl
@[simp] theorem Ctx.modRing_taken : (x.modRing k f).taken = x.taken := rfl
@[simp] theorem Ctx.modRing_takenUs : (x.modRing k f).takenUs = x.takenUs := rfl
@[simp] theorem Ctx.modRing_lastB1 : (x.modRing k f).lastB1 = x.lastB1 := rfl
@[simp] theorem Ctx.modRing_hold : (x.modRing k f).hold = x.hold := rfl
@[simp] theorem Ctx.modRing_maxreq : (x.modRing k f).maxreq = x.maxreq := rfl
@[simp] theorem Ctx.modRing_chunk : (x.modRing k f).chunk = x.chunk := rfl
@[simp] theorem Ctx.modRing_tokbud : (x.modRing k f).tokbud = x.tokbud := rfl
@[simp] theorem Ctx.modRing_adn : (x.modRing k f).adn = x.adn := rfl
@[simp] theorem Ctx.modRing_adbase : (x.modRing k f).adbase = x.adbase := rfl
@[simp] theorem Ctx.modRing_wpn : (x.modRing k f).wpn = x.wpn := rfl
@[simp] theorem Ctx.modRing_wpbase : (x.modRing k f).wpbase = x.wpbase := rfl
@[simp] theorem Ctx.modRing_expect : (x.modRing k f).expect = x.expect := rfl
@[simp] theorem Ctx.modRing_commits : (x.modRing k f).commits = x.commits := rfl
@[simp] theorem Ctx.modRing_step : (x.modRing k f).step = x.step := rfl
@[simp] theorem Ctx.modRing_seed : (x.modRing k f).seed = x.seed := rfl
@[simp] theorem Ctx.modRing_jlen : (x.modRing k f).jlen = x.jlen := rfl
@[simp] theorem Ctx.modRing_jbase : (x.modRing k f).jbase = x.jbase := rfl
@[simp] theorem Ctx.modRing_jwrap : (x.modRing k f).jwrap = x.jwrap := rfl
@[simp] theorem Ctx.modRing_jhead : (x.modRing k f).jhead = x.jhead := rfl
@[simp] theorem Ctx.modRing_jtail : (x.modRing k f).jtail = x.jtail := rfl
@[simp] theorem Ctx.modRing_cntPend : (x.modRing k f).cntPend = x.cntPend := rfl
@[simp] theorem Ctx.modRing_cntEpoch : (x.modRing k f).cntEpoch = x.cntEpoch := rfl
@[simp] theorem Ctx.modRing_ctr : (x.modRing k f).ctr = x.ctr := rfl
@[simp] theorem Ctx.modRing_comps : (x.modRing k f).comps = x.comps := rfl
@[simp] theorem Ctx.modRing_intake : (x.modRing k f).intake = x.intake := rfl
@[simp] theorem Ctx.modRing_reqs : (x.modRing k f).reqs = x.reqs := rfl
@[simp] theorem Ctx.modRing_requests : (x.modRing k f).requests = x.requests := rfl
@[simp] theorem Ctx.modRing_loader : (x.modRing k f).loader = x.loader := rfl
@[simp] theorem Ctx.modRing_ring_self : (x.modRing k f).ring k = f (x.ring k) := tget_tset_self _ _ _ _
theorem Ctx.modRing_ring_ne (m : Nat) (h : m ≠ k) : (x.modRing k f).ring m = x.ring m := tget_tset_ne _ _ _ _ _ h

end rings

end Sys2Proof.Machine
end

