-- ==== Sys2Proof/Laws/Memory.lean ====
section
/-! SUPPORT. The laws of memory and of tables: a read after a write, the bytes a write leaves alone, and that every operation keeps the
canonical form. -/

namespace Sys2Proof.Machine

open Sys2Proof

/-! ### The canonical form -/

/-- The canonical form said once: the keys rise and no entry is its default. -/
theorem twf_iff {α : Type} [DecidableEq α] (d : Nat → α) (t : Tbl α) :
    twf d t = true ↔ t.Pairwise (fun x y => x.1 < y.1) ∧ ∀ x ∈ t, x.2 ≠ d x.1 := by
  induction t with
  | nil => simp [twf]
  | cons x r ih =>
    obtain ⟨a, v⟩ := x
    cases r with
    | nil => simp [twf]
    | cons y r =>
      obtain ⟨b, w⟩ := y
      simp only [twf, Bool.and_eq_true, decide_eq_true_eq, ih, List.pairwise_cons, List.mem_cons, forall_eq_or_imp]
      constructor
      · rintro ⟨⟨hv, hab⟩, ⟨hb, hr⟩, hw, hn⟩
        exact ⟨⟨⟨hab, fun z hz => lt_trans hab (hb z hz)⟩, hb, hr⟩, hv, hw, hn⟩
      · rintro ⟨⟨⟨hab, _⟩, hb, hr⟩, hv, hw, hn⟩
        exact ⟨⟨hv, hab⟩, ⟨hb, hr⟩, hw, hn⟩

theorem mem_tins {α : Type} (t : Tbl α) (k : Nat) (v : α) (x : Nat × α) : x ∈ tins t k v ↔ x = (k, v) ∨ x ∈ t := by
  induction t with
  | nil => simp [tins]
  | cons y r ih =>
    obtain ⟨a, w⟩ := y
    simp only [tins]
    split <;> simp [ih, or_left_comm]

theorem tins_rises {α : Type} (t : Tbl α) (k : Nat) (v : α) (h : t.Pairwise (fun x y => x.1 < y.1)) (hk : ∀ x ∈ t, x.1 ≠ k) :
    (tins t k v).Pairwise (fun x y => x.1 < y.1) := by
  induction t with
  | nil => simp [tins]
  | cons y r ih =>
    obtain ⟨a, w⟩ := y
    have hp := List.pairwise_cons.mp h
    simp only [tins]
    split
    · rename_i hka
      refine List.pairwise_cons.mpr ⟨?_, h⟩
      intro z hz
      rcases List.mem_cons.mp hz with rfl | hz
      · exact hka
      · exact lt_trans hka (hp.1 z hz)
    · rename_i hka
      have hak : a < k := by
        have := hk (a, w) (by simp)
        simp only [] at this
        omega
      refine List.pairwise_cons.mpr ⟨?_, ih hp.2 (fun x hx => hk x (by simp [hx]))⟩
      intro z hz
      rcases (mem_tins r k v z).mp hz with rfl | hz
      · exact hak
      · exact hp.1 z hz

/-- Setting an entry keeps the canonical form. -/
theorem twf_tset {α : Type} [DecidableEq α] (d : Nat → α) (t : Tbl α) (k : Nat) (v : α) (h : twf d t = true) : twf d (tset d t k v) = true := by
  rw [twf_iff] at h ⊢
  have hf : (t.filter (fun x => x.1 != k)).Pairwise (fun x y => x.1 < y.1) := h.1.filter _
  have hn : ∀ x ∈ t.filter (fun x => x.1 != k), x.2 ≠ d x.1 := fun x hx => h.2 x (List.mem_filter.mp hx).1
  have hk : ∀ x ∈ t.filter (fun x => x.1 != k), x.1 ≠ k := fun x hx => by simpa using (List.mem_filter.mp hx).2
  unfold tset
  by_cases hv : v = d k
  · rw [if_pos hv]
    exact ⟨hf, hn⟩
  · simp only [hv, if_false]
    refine ⟨tins_rises _ k v hf hk, fun x hx => ?_⟩
    rcases (mem_tins _ k v x).mp hx with rfl | hx
    · exact hv
    · exact hn x hx

theorem Memory.wf_mset (m : Mem) (a : Nat) (b : Byte) (h : Memory.wf m = true) : Memory.wf (mset m a b) = true :=
  twf_tset zeroByte m a b h

/-- Writing bytes keeps the canonical form. -/
theorem Memory.wf_mwrite (m : Mem) (a : Nat) (bs : List Byte) (h : Memory.wf m = true) : Memory.wf (mwrite m a bs) = true := by
  induction bs generalizing m a with
  | nil => exact h
  | cons b bs ih => exact ih _ _ (Memory.wf_mset m a b h)

theorem foldl_wf {α : Type} (f : Mem → α → Mem) (l : List α) (hf : ∀ m x, Memory.wf m = true → Memory.wf (f m x) = true) (m : Mem)
    (h : Memory.wf m = true) : Memory.wf (l.foldl f m) = true := by
  induction l generalizing m with
  | nil => exact h
  | cons x l ih => exact ih _ (hf m x h)

/-! ### A read after a write -/

@[simp] theorem mget_mset_self (m : Mem) (a : Nat) (b : Byte) : mget (mset m a b) a = b := tget_tset_self zeroByte m a b

theorem mget_mset_ne (m : Mem) (a x : Nat) (b : Byte) (h : x ≠ a) : mget (mset m a b) x = mget m x := tget_tset_ne zeroByte m a x b h

/-- A byte outside the bytes written reads as before. -/
theorem mget_mwrite_out (m : Mem) (a x : Nat) (bs : List Byte) (h : x < a ∨ a + bs.length ≤ x) : mget (mwrite m a bs) x = mget m x := by
  induction bs generalizing m a with
  | nil => rfl
  | cons b bs ih =>
    simp only [List.length_cons] at h
    rw [mwrite, ih _ _ (by omega), mget_mset_ne _ _ _ _ (by omega)]

/-- A byte inside the bytes written reads as written. -/
theorem mget_mwrite_in (m : Mem) (a i : Nat) (bs : List Byte) (h : i < bs.length) : mget (mwrite m a bs) (a + i) = bs[i] := by
  induction bs generalizing m a i with
  | nil => simp at h
  | cons b bs ih =>
    cases i with
    | zero => rw [mwrite, mget_mwrite_out _ _ _ _ (by omega)]; simp
    | succ i =>
      have hi : i < bs.length := by simpa using h
      have := ih (mset m a b) (a + 1) i hi
      rw [mwrite, show a + (i + 1) = a + 1 + i by omega, this]
      simp

@[simp] theorem mread_length (m : Mem) (a n : Nat) : (mread m a n).length = n := by
  induction n generalizing a with
  | zero => rfl
  | succ n ih => simp [mread, ih]

theorem mread_congr (m k : Mem) (a n : Nat) (h : ∀ x, a ≤ x → x < a + n → mget m x = mget k x) : mread m a n = mread k a n := by
  induction n generalizing a with
  | zero => rfl
  | succ n ih =>
    simp only [mread]
    rw [h a (by omega) (by omega), ih (a + 1) (fun x hx hx' => h x (by omega) (by omega))]

/-- A read of the bytes just written gives what was written. -/
theorem mread_mwrite (m : Mem) (a : Nat) (bs : List Byte) : mread (mwrite m a bs) a bs.length = bs := by
  induction bs generalizing m a with
  | nil => rfl
  | cons b bs ih =>
    simp only [List.length_cons, mread, mwrite]
    rw [ih, mget_mwrite_out _ _ _ _ (by omega)]
    simp

/-- A read of bytes that a write leaves alone gives what it gave before. -/
theorem mread_mwrite_out (m : Mem) (a n b : Nat) (bs : List Byte) (h : b + n ≤ a ∨ a + bs.length ≤ b) :
    mread (mwrite m a bs) b n = mread m b n :=
  mread_congr _ _ _ _ (fun x hx hx' => mget_mwrite_out m a x bs (by omega))

@[simp] theorem natLE_length (n v : Nat) : (natLE n v).length = n := by
  induction n generalizing v with
  | zero => rfl
  | succ n ih => simp [natLE, ih]

end Sys2Proof.Machine
end

