-- ==== Sys2Proof/Laws/Keeps.lean ====
section
/-! SUPPORT. What an operation keeps, said once: the parts of the state it may change, and the two things no operation undoes (the
canonical form of memory, the fuses). Every operation of the model has one lemma `<operation>_keeps` in these words. -/

namespace Sys2Proof.Machine

open Sys2Proof

/-- From `s` to `t` at most the listed parts change; memory stays canonical; no fuse falls. -/
structure Keeps (l : List Field) (s t : State) : Prop where
  only : Only l s t
  canon : MemCanon s → MemCanon t
  fuses : FusesKept s t

/-- A command that gives a next state which keeps what `Keeps` says. -/
def Gives (l : List Field) (s : State) (o : Host.Outcome State Fault Refusal) : Prop := ∃ t, o = .next t ∧ Keeps l s t

theorem Field.same_refl (s : State) (f : Field) : f.same s s := by cases f <;> rfl

theorem Field.same_trans {s t u : State} {f : Field} (h : f.same s t) (k : f.same t u) : f.same s u := by
  cases f <;> exact k.trans h

theorem Only.refl (l : List Field) (s : State) : Only l s s := ⟨rfl, fun f _ => f.same_refl s⟩

theorem Only.trans {l : List Field} {s t u : State} (h : Only l s t) (k : Only l t u) : Only l s u :=
  ⟨k.1.trans h.1, fun f hf => Field.same_trans (h.2 f hf) (k.2 f hf)⟩

theorem Only.mono {l m : List Field} {s t : State} (h : Only l s t) (hm : ∀ f ∈ l, f ∈ m) : Only m s t :=
  ⟨h.1, fun f hf => h.2 f (fun hl => hf (hm f hl))⟩

theorem Keeps.refl (l : List Field) (s : State) : Keeps l s s := ⟨Only.refl l s, id, rfl, Nat.le_refl _⟩

theorem Keeps.trans {l : List Field} {s t u : State} (h : Keeps l s t) (k : Keeps l t u) : Keeps l s u :=
  ⟨h.only.trans k.only, k.canon ∘ h.canon, k.fuses.1.trans h.fuses.1, h.fuses.2.trans k.fuses.2⟩

theorem Keeps.mono {l m : List Field} {s t : State} (h : Keeps l s t) (hm : ∀ f ∈ l, f ∈ m) : Keeps m s t := ⟨h.only.mono hm, h.canon, h.fuses⟩

/-- One more operation, which keeps what its own lemma says. -/
theorem Keeps.step {l m : List Field} {s t u : State} (h : Keeps l s t) (k : Keeps m t u) (hm : ∀ f ∈ m, f ∈ l) : Keeps l s u :=
  h.trans (k.mono hm)

theorem Keeps.then {l m : List Field} {s t u : State} (k : Keeps m t u) (h : Keeps l s t) (hm : ∀ f ∈ m, f ∈ l) : Keeps l s u :=
  h.step k hm

/-- One more record update that touches no memory and no fuse. -/
theorem Keeps.upd {l : List Field} {s t u : State} (h : Keeps l s t) (hp : u.pending = t.pending) (hu : u.uni = t.uni) (hh : u.host = t.host)
    (hc : u.cores = t.cores) (hr : u.sec.revoked = t.sec.revoked) (hf : u.sec.fused = t.sec.fused) (ho : ∀ f, f ∉ l → f.same t u) : Keeps l s u := by
  refine h.trans ⟨⟨hp, ho⟩, fun c => ?_, hr, by rw [hf]⟩
  refine ⟨hu ▸ c.1, hh ▸ c.2.1, fun n => ?_⟩
  have := c.2.2 n
  unfold State.core at this ⊢
  rwa [hc]

theorem Keeps.ite {l : List Field} {s t u : State} {c : Prop} [Decidable c] (ht : c → Keeps l s t) (hu : ¬c → Keeps l s u) :
    Keeps l s (if c then t else u) := by
  split
  · exact ht ‹_›
  · exact hu ‹_›

theorem Keeps.foldl {α : Type} {l : List Field} {s t : State} {f : State → α → State} {xs : List α} (h : Keeps l s t)
    (hf : ∀ u x, Keeps l s u → Keeps l s (f u x)) : Keeps l s (xs.foldl f t) := by
  induction xs generalizing t with
  | nil => exact h
  | cons x xs ih => exact ih (hf t x h)

theorem Keeps.foldl_fst {α β : Type} {l : List Field} {s : State} {p : State × β} {f : State × β → α → State × β} {xs : List α} (h : Keeps l s p.1)
    (hf : ∀ u x, Keeps l s u.1 → Keeps l s (f u x).1) : Keeps l s (xs.foldl f p).1 := by
  induction xs generalizing p with
  | nil => exact h
  | cons x xs ih => exact ih (hf p x h)

theorem Keeps.foldl_snd {α β : Type} {l : List Field} {s : State} {p : β × State} {f : β × State → α → β × State} {xs : List α} (h : Keeps l s p.2)
    (hf : ∀ u x, Keeps l s u.2 → Keeps l s (f u x).2) : Keeps l s (xs.foldl f p).2 := by
  induction xs generalizing p with
  | nil => exact h
  | cons x xs ih => exact ih (hf p x h)

theorem Keeps.foldr {α : Type} {l : List Field} {s t : State} {f : α → State → State} {xs : List α} (h : Keeps l s t)
    (hf : ∀ u x, Keeps l s u → Keeps l s (f x u)) : Keeps l s (xs.foldr f t) := by
  induction xs with
  | nil => exact h
  | cons x xs ih => exact hf _ x ih

/-- The state of a pair that a match has named. -/
theorem Keeps.snd {α : Type} {l : List Field} {s t : State} {p : α × State} {a : α} (e : p = (a, t)) (h : Keeps l s p.2) : Keeps l s t := by
  subst e
  exact h

theorem Keeps.fst {α : Type} {l : List Field} {s t : State} {p : State × α} {a : α} (e : p = (t, a)) (h : Keeps l s p.1) : Keeps l s t := by
  subst e
  exact h

theorem Keeps.getD {l : List Field} {s t : State} {o : Option State} (h : Keeps l s t) (ho : ∀ u, o = some u → Keeps l s u) : Keeps l s (o.getD t) := by
  cases o with
  | none => exact h
  | some u => exact ho u rfl

theorem Gives.next {l : List Field} {s t : State} (h : Keeps l s t) : Gives l s (.next t) := ⟨t, rfl, h⟩

theorem Gives.ite {l : List Field} {s : State} {c : Prop} [Decidable c] {o p : Host.Outcome State Fault Refusal} (ho : c → Gives l s o)
    (hp : ¬c → Gives l s p) : Gives l s (if c then o else p) := by
  split
  · exact ho ‹_›
  · exact hp ‹_›

theorem Gives.mono {l m : List Field} {s : State} {o : Host.Outcome State Fault Refusal} (h : Gives l s o) (hm : ∀ f ∈ l, f ∈ m) : Gives m s o := by
  obtain ⟨t, ht, k⟩ := h
  exact ⟨t, ht, k.mono hm⟩

/-- What the command answers is a next state, and what that state keeps. -/
theorem Gives.keeps {l : List Field} {s t : State} {o : Host.Outcome State Fault Refusal} (h : Gives l s o) (e : o = .next t) : Keeps l s t := by
  obtain ⟨u, hu, hk⟩ := h
  rw [hu] at e
  cases e
  exact hk

/-- A walk over a core's slots that never writes the scratchpad. -/
theorem Core.foldl_scratch {α : Type} (l : List α) (f : Core → α → Core) (hf : ∀ c i, (f c i).scratch = c.scratch) (c : Core) :
    (l.foldl f c).scratch = c.scratch := by
  induction l generalizing c with
  | nil => rfl
  | cons i l ih => rw [List.foldl_cons, ih, hf]

/-! ### The named updates of one unit -/

theorem MemCanon.setCore {s : State} (h : MemCanon s) (n : Nat) (c : Core) (hc : Memory.wf c.scratch = true) : MemCanon (s.setCore n c) := by
  refine ⟨h.1, h.2.1, fun m => ?_⟩
  by_cases hm : m = n
  · subst hm
    simpa [State.core, State.setCore] using hc
  · have := h.2.2 m
    simpa [State.core, State.setCore, tget_tset_ne _ _ _ _ _ hm] using this

theorem State.setCore_keeps (s : State) (n : Nat) (c : Core) (hc : Memory.wf (s.core n).scratch = true → Memory.wf c.scratch = true) :
    Keeps [.cores] s (s.setCore n c) :=
  ⟨⟨rfl, fun f hf => by cases f <;> first | rfl | exact absurd (by decide) hf⟩, fun h => h.setCore n c (hc (h.2.2 n)), rfl, Nat.le_refl _⟩

theorem State.modCore_keeps (s : State) (n : Nat) (f : Core → Core) (hf : ∀ c, Memory.wf c.scratch = true → Memory.wf (f c).scratch = true) :
    Keeps [.cores] s (s.modCore n f) := s.setCore_keeps n _ (hf _)

theorem State.setCtx_keeps (s : State) (c : Nat) (x : Ctx) : Keeps [.ctxs] s (s.setCtx c x) :=
  (Keeps.refl _ s).upd rfl rfl rfl rfl rfl rfl (fun f hf => by cases f <;> first | rfl | exact absurd (by decide) hf)

/-- One more write of memory that keeps its canonical form. -/
theorem Keeps.set_uni {l : List Field} {s t : State} {x : Mem} (h : Keeps l s t) (hx : Memory.wf t.uni = true → Memory.wf x = true)
    (hm : ∀ f ∈ [Field.uni], f ∈ l) : Keeps l s { t with uni := x } :=
  h.step ⟨⟨rfl, fun f hf => by cases f <;> first | rfl | exact absurd (by decide) hf⟩, fun c => ⟨hx c.1, c.2⟩, rfl, Nat.le_refl _⟩ hm

theorem Keeps.set_host {l : List Field} {s t : State} {x : Mem} (h : Keeps l s t) (hx : Memory.wf t.host = true → Memory.wf x = true)
    (hm : ∀ f ∈ [Field.host], f ∈ l) : Keeps l s { t with host := x } :=
  h.step ⟨⟨rfl, fun f hf => by cases f <;> first | rfl | exact absurd (by decide) hf⟩, fun c => ⟨c.1, hx c.2.1, c.2.2⟩, rfl, Nat.le_refl _⟩ hm

/-- One more update of every core that has something to say, which leaves its scratchpad alone. -/
theorem Keeps.set_cores_map {l : List Field} {s t : State} {g : Nat × Core → Core} (h : Keeps l s t) (hg : ∀ c, (g c).scratch = c.2.scratch)
    (hm : ∀ f ∈ [Field.cores], f ∈ l) : Keeps l s { t with cores := t.cores.map (fun c => (c.1, g c)) } := by
  refine h.step ⟨⟨rfl, fun f hf => by cases f <;> first | rfl | exact absurd (by decide) hf⟩, fun c => ⟨c.1, c.2.1, fun n => ?_⟩, rfl, Nat.le_refl _⟩ hm
  have key : (tget coreDef (t.cores.map (fun c => (c.1, g c))) n).scratch = (tget coreDef t.cores n).scratch := by
    induction t.cores with
    | nil => rfl
    | cons x r ih =>
      obtain ⟨a, v⟩ := x
      by_cases ha : a = n
      · simp [tget, ha, hg]
      · simpa [tget, ha] using ih
  have := c.2.2 n
  simp only [State.core] at this ⊢
  rwa [key]

/-! ### One record update -/

theorem Keeps.set_hub2 {l : List Field} {s t : State} {x0 : Hub2} (h : Keeps l s t) (hm : ∀ f ∈ [Field.hub2], f ∈ l) :
    Keeps l s { t with hub2 := x0 } :=
  h.step (Keeps.upd (Keeps.refl [Field.hub2] t) rfl rfl rfl rfl rfl rfl (fun f hf => by cases f <;> first | rfl | exact absurd (by decide) hf)) hm

theorem Keeps.set_weave {l : List Field} {s t : State} {x0 : Weave} (h : Keeps l s t) (hm : ∀ f ∈ [Field.weave], f ∈ l) :
    Keeps l s { t with weave := x0 } :=
  h.step (Keeps.upd (Keeps.refl [Field.weave] t) rfl rfl rfl rfl rfl rfl (fun f hf => by cases f <;> first | rfl | exact absurd (by decide) hf)) hm

theorem Keeps.set_tiers {l : List Field} {s t : State} {x0 : Tiers} (h : Keeps l s t) (hm : ∀ f ∈ [Field.tiers], f ∈ l) :
    Keeps l s { t with tiers := x0 } :=
  h.step (Keeps.upd (Keeps.refl [Field.tiers] t) rfl rfl rfl rfl rfl rfl (fun f hf => by cases f <;> first | rfl | exact absurd (by decide) hf)) hm

theorem Keeps.set_hub {l : List Field} {s t : State} {x0 : Hub} (h : Keeps l s t) (hm : ∀ f ∈ [Field.hub], f ∈ l) :
    Keeps l s { t with hub := x0 } :=
  h.step (Keeps.upd (Keeps.refl [Field.hub] t) rfl rfl rfl rfl rfl rfl (fun f hf => by cases f <;> first | rfl | exact absurd (by decide) hf)) hm

theorem Keeps.set_sec {l : List Field} {s t : State} {x0 : Sec} (h : Keeps l s t) (hr : x0.revoked = t.sec.revoked) (hf : x0.fused = t.sec.fused) (hm : ∀ f ∈ [Field.sec], f ∈ l) :
    Keeps l s { t with sec := x0 } :=
  h.step (Keeps.upd (Keeps.refl [Field.sec] t) rfl rfl rfl rfl hr hf (fun f hf => by cases f <;> first | rfl | exact absurd (by decide) hf)) hm

theorem Keeps.set_bbx {l : List Field} {s t : State} {x0 : BlackBox} (h : Keeps l s t) (hm : ∀ f ∈ [Field.bbx], f ∈ l) :
    Keeps l s { t with bbx := x0 } :=
  h.step (Keeps.upd (Keeps.refl [Field.bbx] t) rfl rfl rfl rfl rfl rfl (fun f hf => by cases f <;> first | rfl | exact absurd (by decide) hf)) hm

theorem Keeps.set_pwr {l : List Field} {s t : State} {x0 : Pwr} (h : Keeps l s t) (hm : ∀ f ∈ [Field.pwr], f ∈ l) :
    Keeps l s { t with pwr := x0 } :=
  h.step (Keeps.upd (Keeps.refl [Field.pwr] t) rfl rfl rfl rfl rfl rfl (fun f hf => by cases f <;> first | rfl | exact absurd (by decide) hf)) hm

theorem Keeps.set_uniBad {l : List Field} {s t : State} {x0 : Tbl (BitVec 2)} (h : Keeps l s t) (hm : ∀ f ∈ [Field.uniBad], f ∈ l) :
    Keeps l s { t with uniBad := x0 } :=
  h.step (Keeps.upd (Keeps.refl [Field.uniBad] t) rfl rfl rfl rfl rfl rfl (fun f hf => by cases f <;> first | rfl | exact absurd (by decide) hf)) hm

theorem Keeps.set_opt {l : List Field} {s t : State} {x0 : Opt} (h : Keeps l s t) (hm : ∀ f ∈ [Field.opt], f ∈ l) :
    Keeps l s { t with opt := x0 } :=
  h.step (Keeps.upd (Keeps.refl [Field.opt] t) rfl rfl rfl rfl rfl rfl (fun f hf => by cases f <;> first | rfl | exact absurd (by decide) hf)) hm

theorem Keeps.set_bus {l : List Field} {s t : State} {x0 : BitVec 64} (h : Keeps l s t) (hm : ∀ f ∈ [Field.bus], f ∈ l) :
    Keeps l s { t with bus := x0 } :=
  h.step (Keeps.upd (Keeps.refl [Field.bus] t) rfl rfl rfl rfl rfl rfl (fun f hf => by cases f <;> first | rfl | exact absurd (by decide) hf)) hm

theorem Keeps.set_manifests {l : List Field} {s t : State} {x0 : List Manifest} (h : Keeps l s t) (hm : ∀ f ∈ [Field.manifests], f ∈ l) :
    Keeps l s { t with manifests := x0 } :=
  h.step (Keeps.upd (Keeps.refl [Field.manifests] t) rfl rfl rfl rfl rfl rfl (fun f hf => by cases f <;> first | rfl | exact absurd (by decide) hf)) hm

theorem Keeps.set_freeCtr {l : List Field} {s t : State} {x0 : Nat} (h : Keeps l s t)  :
    Keeps l s { t with freeCtr := x0 } :=
  h.step (Keeps.upd (Keeps.refl [] t) rfl rfl rfl rfl rfl rfl (fun f hf => by cases f <;> first | rfl | exact absurd (by decide) hf)) (fun f hf => absurd hf (by simp))

theorem Keeps.set_paths {l : List Field} {s t : State} {x0 : Tbl Path} (h : Keeps l s t) (hm : ∀ f ∈ [Field.paths], f ∈ l) :
    Keeps l s { t with paths := x0 } :=
  h.step (Keeps.upd (Keeps.refl [Field.paths] t) rfl rfl rfl rfl rfl rfl (fun f hf => by cases f <;> first | rfl | exact absurd (by decide) hf)) hm

theorem Keeps.set_loads {l : List Field} {s t : State} {x0 : List LoadJob} (h : Keeps l s t) (hm : ∀ f ∈ [Field.loads], f ∈ l) :
    Keeps l s { t with loads := x0 } :=
  h.step (Keeps.upd (Keeps.refl [Field.loads] t) rfl rfl rfl rfl rfl rfl (fun f hf => by cases f <;> first | rfl | exact absurd (by decide) hf)) hm

theorem Keeps.set_dieHeld {l : List Field} {s t : State} {x0 : Tbl (List Rec)} (h : Keeps l s t) (hm : ∀ f ∈ [Field.dieHeld], f ∈ l) :
    Keeps l s { t with dieHeld := x0 } :=
  h.step (Keeps.upd (Keeps.refl [Field.dieHeld] t) rfl rfl rfl rfl rfl rfl (fun f hf => by cases f <;> first | rfl | exact absurd (by decide) hf)) hm

theorem Keeps.set_bbx_hub {l : List Field} {s t : State} {x0 : BlackBox} {x1 : Hub} (h : Keeps l s t) (hm : ∀ f ∈ [Field.bbx, Field.hub], f ∈ l) :
    Keeps l s { t with bbx := x0, hub := x1 } :=
  h.step (Keeps.upd (Keeps.refl [Field.bbx, Field.hub] t) rfl rfl rfl rfl rfl rfl (fun f hf => by cases f <;> first | rfl | exact absurd (by decide) hf)) hm

theorem Keeps.set_areas {l : List Field} {s t : State} {x0 : List Area} (h : Keeps l s t) (hm : ∀ f ∈ [Field.areas], f ∈ l) :
    Keeps l s { t with areas := x0 } :=
  h.step (Keeps.upd (Keeps.refl [Field.areas] t) rfl rfl rfl rfl rfl rfl (fun f hf => by cases f <;> first | rfl | exact absurd (by decide) hf)) hm

theorem Keeps.set_windows {l : List Field} {s t : State} {x0 : Tbl (BitVec 2)} (h : Keeps l s t) (hm : ∀ f ∈ [Field.windows], f ∈ l) :
    Keeps l s { t with windows := x0 } :=
  h.step (Keeps.upd (Keeps.refl [Field.windows] t) rfl rfl rfl rfl rfl rfl (fun f hf => by cases f <;> first | rfl | exact absurd (by decide) hf)) hm

theorem Keeps.set_weave_sec {l : List Field} {s t : State} {x0 : Weave} {x1 : Sec} (h : Keeps l s t) (hr : x1.revoked = t.sec.revoked) (hf : x1.fused = t.sec.fused) (hm : ∀ f ∈ [Field.weave, Field.sec], f ∈ l) :
    Keeps l s { t with weave := x0, sec := x1 } :=
  h.step (Keeps.upd (Keeps.refl [Field.weave, Field.sec] t) rfl rfl rfl rfl hr hf (fun f hf => by cases f <;> first | rfl | exact absurd (by decide) hf)) hm

theorem Keeps.set_weave_hub2_sec {l : List Field} {s t : State} {x0 : Weave} {x1 : Hub2} {x2 : Sec} (h : Keeps l s t) (hr : x2.revoked = t.sec.revoked) (hf : x2.fused = t.sec.fused) (hm : ∀ f ∈ [Field.weave, Field.hub2, Field.sec], f ∈ l) :
    Keeps l s { t with weave := x0, hub2 := x1, sec := x2 } :=
  h.step (Keeps.upd (Keeps.refl [Field.weave, Field.hub2, Field.sec] t) rfl rfl rfl rfl hr hf (fun f hf => by cases f <;> first | rfl | exact absurd (by decide) hf)) hm

theorem Keeps.set_time_slew {l : List Field} {s t : State} {x0 : BitVec 64} {x1 : Option Bool} (h : Keeps l s t) (hm : ∀ f ∈ [Field.time, Field.slew], f ∈ l) :
    Keeps l s { t with time := x0, slew := x1 } :=
  h.step (Keeps.upd (Keeps.refl [Field.time, Field.slew] t) rfl rfl rfl rfl rfl rfl (fun f hf => by cases f <;> first | rfl | exact absurd (by decide) hf)) hm

theorem Keeps.set_time_bbx_hub {l : List Field} {s t : State} {x0 : BitVec 64} {x1 : BlackBox} {x2 : Hub} (h : Keeps l s t) (hm : ∀ f ∈ [Field.time, Field.bbx, Field.hub], f ∈ l) :
    Keeps l s { t with time := x0, bbx := x1, hub := x2 } :=
  h.step (Keeps.upd (Keeps.refl [Field.time, Field.bbx, Field.hub] t) rfl rfl rfl rfl rfl rfl (fun f hf => by cases f <;> first | rfl | exact absurd (by decide) hf)) hm

theorem Keeps.set_time {l : List Field} {s t : State} {x0 : BitVec 64} (h : Keeps l s t) (hm : ∀ f ∈ [Field.time], f ∈ l) :
    Keeps l s { t with time := x0 } :=
  h.step (Keeps.upd (Keeps.refl [Field.time] t) rfl rfl rfl rfl rfl rfl (fun f hf => by cases f <;> first | rfl | exact absurd (by decide) hf)) hm

theorem Keeps.set_tiers_nvmFrames {l : List Field} {s t : State} {x0 : Tiers} {x1 : List (Nat × TFrame)} (h : Keeps l s t) (hm : ∀ f ∈ [Field.tiers, Field.nvmFrames], f ∈ l) :
    Keeps l s { t with tiers := x0, nvmFrames := x1 } :=
  h.step (Keeps.upd (Keeps.refl [Field.tiers, Field.nvmFrames] t) rfl rfl rfl rfl rfl rfl (fun f hf => by cases f <;> first | rfl | exact absurd (by decide) hf)) hm

theorem Keeps.set_tallies_hub2 {l : List Field} {s t : State} {x0 : Tbl TallyUnit} {x1 : Hub2} (h : Keeps l s t) (hm : ∀ f ∈ [Field.tallies, Field.hub2], f ∈ l) :
    Keeps l s { t with tallies := x0, hub2 := x1 } :=
  h.step (Keeps.upd (Keeps.refl [Field.tallies, Field.hub2] t) rfl rfl rfl rfl rfl rfl (fun f hf => by cases f <;> first | rfl | exact absurd (by decide) hf)) hm

theorem Keeps.set_tallies {l : List Field} {s t : State} {x0 : Tbl TallyUnit} (h : Keeps l s t) (hm : ∀ f ∈ [Field.tallies], f ∈ l) :
    Keeps l s { t with tallies := x0 } :=
  h.step (Keeps.upd (Keeps.refl [Field.tallies] t) rfl rfl rfl rfl rfl rfl (fun f hf => by cases f <;> first | rfl | exact absurd (by decide) hf)) hm

theorem Keeps.set_slew_slewUs {l : List Field} {s t : State} {x0 : Option Bool} {x1 : Nat} (h : Keeps l s t) (hm : ∀ f ∈ [Field.slew, Field.slewUs], f ∈ l) :
    Keeps l s { t with slew := x0, slewUs := x1 } :=
  h.step (Keeps.upd (Keeps.refl [Field.slew, Field.slewUs] t) rfl rfl rfl rfl rfl rfl (fun f hf => by cases f <;> first | rfl | exact absurd (by decide) hf)) hm

theorem Keeps.set_oports {l : List Field} {s t : State} {x0 : Tbl OPort} (h : Keeps l s t) (hm : ∀ f ∈ [Field.oports], f ∈ l) :
    Keeps l s { t with oports := x0 } :=
  h.step (Keeps.upd (Keeps.refl [Field.oports] t) rfl rfl rfl rfl rfl rfl (fun f hf => by cases f <;> first | rfl | exact absurd (by decide) hf)) hm

theorem Keeps.set_mports {l : List Field} {s t : State} {x0 : Tbl MPort} (h : Keeps l s t) (hm : ∀ f ∈ [Field.mports], f ∈ l) :
    Keeps l s { t with mports := x0 } :=
  h.step (Keeps.upd (Keeps.refl [Field.mports] t) rfl rfl rfl rfl rfl rfl (fun f hf => by cases f <;> first | rfl | exact absurd (by decide) hf)) hm

theorem Keeps.set_lasers {l : List Field} {s t : State} {x0 : Tbl Laser} (h : Keeps l s t) (hm : ∀ f ∈ [Field.lasers], f ∈ l) :
    Keeps l s { t with lasers := x0 } :=
  h.step (Keeps.upd (Keeps.refl [Field.lasers] t) rfl rfl rfl rfl rfl rfl (fun f hf => by cases f <;> first | rfl | exact absurd (by decide) hf)) hm

theorem Keeps.set_ibex {l : List Field} {s t : State} {x0 : Tbl Ibex} (h : Keeps l s t) (hm : ∀ f ∈ [Field.ibex], f ∈ l) :
    Keeps l s { t with ibex := x0 } :=
  h.step (Keeps.upd (Keeps.refl [Field.ibex] t) rfl rfl rfl rfl rfl rfl (fun f hf => by cases f <;> first | rfl | exact absurd (by decide) hf)) hm

theorem Keeps.set_hurdles {l : List Field} {s t : State} {x0 : Tbl Hurdle} (h : Keeps l s t) (hm : ∀ f ∈ [Field.hurdles], f ∈ l) :
    Keeps l s { t with hurdles := x0 } :=
  h.step (Keeps.upd (Keeps.refl [Field.hurdles] t) rfl rfl rfl rfl rfl rfl (fun f hf => by cases f <;> first | rfl | exact absurd (by decide) hf)) hm

theorem Keeps.set_hub2_loads {l : List Field} {s t : State} {x0 : Hub2} {x1 : List LoadJob} (h : Keeps l s t) (hm : ∀ f ∈ [Field.hub2, Field.loads], f ∈ l) :
    Keeps l s { t with hub2 := x0, loads := x1 } :=
  h.step (Keeps.upd (Keeps.refl [Field.hub2, Field.loads] t) rfl rfl rfl rfl rfl rfl (fun f hf => by cases f <;> first | rfl | exact absurd (by decide) hf)) hm

theorem Keeps.set_hub2_bus {l : List Field} {s t : State} {x0 : Hub2} {x1 : BitVec 64} (h : Keeps l s t) (hm : ∀ f ∈ [Field.hub2, Field.bus], f ∈ l) :
    Keeps l s { t with hub2 := x0, bus := x1 } :=
  h.step (Keeps.upd (Keeps.refl [Field.hub2, Field.bus] t) rfl rfl rfl rfl rfl rfl (fun f hf => by cases f <;> first | rfl | exact absurd (by decide) hf)) hm

theorem Keeps.set_hub_sec {l : List Field} {s t : State} {x0 : Hub} {x1 : Sec} (h : Keeps l s t) (hr : x1.revoked = t.sec.revoked) (hf : x1.fused = t.sec.fused) (hm : ∀ f ∈ [Field.hub, Field.sec], f ∈ l) :
    Keeps l s { t with hub := x0, sec := x1 } :=
  h.step (Keeps.upd (Keeps.refl [Field.hub, Field.sec] t) rfl rfl rfl rfl hr hf (fun f hf => by cases f <;> first | rfl | exact absurd (by decide) hf)) hm

theorem Keeps.set_hps {l : List Field} {s t : State} {x0 : Tbl HPort} (h : Keeps l s t) (hm : ∀ f ∈ [Field.hps], f ∈ l) :
    Keeps l s { t with hps := x0 } :=
  h.step (Keeps.upd (Keeps.refl [Field.hps] t) rfl rfl rfl rfl rfl rfl (fun f hf => by cases f <;> first | rfl | exact absurd (by decide) hf)) hm

theorem Keeps.set_gates {l : List Field} {s t : State} {x0 : Tbl Sem} (h : Keeps l s t) (hm : ∀ f ∈ [Field.gates], f ∈ l) :
    Keeps l s { t with gates := x0 } :=
  h.step (Keeps.upd (Keeps.refl [Field.gates] t) rfl rfl rfl rfl rfl rfl (fun f hf => by cases f <;> first | rfl | exact absurd (by decide) hf)) hm

theorem Keeps.set_folds {l : List Field} {s t : State} {x0 : Tbl Fold} (h : Keeps l s t) (hm : ∀ f ∈ [Field.folds], f ∈ l) :
    Keeps l s { t with folds := x0 } :=
  h.step (Keeps.upd (Keeps.refl [Field.folds] t) rfl rfl rfl rfl rfl rfl (fun f hf => by cases f <;> first | rfl | exact absurd (by decide) hf)) hm

theorem Keeps.set_ctxs {l : List Field} {s t : State} {x0 : Tbl Ctx} (h : Keeps l s t) (hm : ∀ f ∈ [Field.ctxs], f ∈ l) :
    Keeps l s { t with ctxs := x0 } :=
  h.step (Keeps.upd (Keeps.refl [Field.ctxs] t) rfl rfl rfl rfl rfl rfl (fun f hf => by cases f <;> first | rfl | exact absurd (by decide) hf)) hm

theorem Keeps.set_ces {l : List Field} {s t : State} {x0 : Tbl CEngine} (h : Keeps l s t) (hm : ∀ f ∈ [Field.ces], f ∈ l) :
    Keeps l s { t with ces := x0 } :=
  h.step (Keeps.upd (Keeps.refl [Field.ces] t) rfl rfl rfl rfl rfl rfl (fun f hf => by cases f <;> first | rfl | exact absurd (by decide) hf)) hm

theorem Keeps.set_bus2_poisoned {l : List Field} {s t : State} {x0 : List Byte} {x1 : Bool} (h : Keeps l s t) (hm : ∀ f ∈ [Field.bus2, Field.poisoned], f ∈ l) :
    Keeps l s { t with bus2 := x0, poisoned := x1 } :=
  h.step (Keeps.upd (Keeps.refl [Field.bus2, Field.poisoned] t) rfl rfl rfl rfl rfl rfl (fun f hf => by cases f <;> first | rfl | exact absurd (by decide) hf)) hm

theorem Keeps.set_accesses_paths {l : List Field} {s t : State} {x0 : List Access} {x1 : Tbl Path} (h : Keeps l s t) (hm : ∀ f ∈ [Field.accesses, Field.paths], f ∈ l) :
    Keeps l s { t with accesses := x0, paths := x1 } :=
  h.step (Keeps.upd (Keeps.refl [Field.accesses, Field.paths] t) rfl rfl rfl rfl rfl rfl (fun f hf => by cases f <;> first | rfl | exact absurd (by decide) hf)) hm

theorem Keeps.set_accesses_nextTag {l : List Field} {s t : State} {x0 : List Access} {x1 : Nat} (h : Keeps l s t) (hm : ∀ f ∈ [Field.accesses, Field.nextTag], f ∈ l) :
    Keeps l s { t with accesses := x0, nextTag := x1 } :=
  h.step (Keeps.upd (Keeps.refl [Field.accesses, Field.nextTag] t) rfl rfl rfl rfl rfl rfl (fun f hf => by cases f <;> first | rfl | exact absurd (by decide) hf)) hm

theorem Keeps.set_accesses {l : List Field} {s t : State} {x0 : List Access} (h : Keeps l s t) (hm : ∀ f ∈ [Field.accesses], f ∈ l) :
    Keeps l s { t with accesses := x0 } :=
  h.step (Keeps.upd (Keeps.refl [Field.accesses] t) rfl rfl rfl rfl rfl rfl (fun f hf => by cases f <;> first | rfl | exact absurd (by decide) hf)) hm


end Sys2Proof.Machine
end

