-- ==== Sys2Proof/Laws/Ops.lean ====
section
/-! SUPPORT. What each operation of Machine/Ops.lean keeps. -/

namespace Sys2Proof.Machine

open Sys2Proof

theorem State.modTally_keeps : ∀ s a1 a2, Keeps [.tallies] s (State.modTally s a1 a2) := by
  intro s a1 a2
  unfold State.modTally
  repeat' (first
    | (with_reducible apply Keeps.ite)
    | with_reducible exact Keeps.refl _ _
    | with_reducible assumption
    | (with_reducible apply Keeps.foldl)
    | (with_reducible refine Keeps.snd (by assumption) ?_)
    | (with_reducible refine Keeps.fst (by assumption) ?_)
    | (with_reducible fail_if_no_progress (apply Keeps.set_tallies ?_ (by decide))))

theorem post_keeps : ∀ s a1 a2 a3 a4, Keeps [.tallies] s (post s a1 a2 a3 a4) := by
  intro s a1 a2 a3 a4
  unfold post
  repeat' (first
    | (with_reducible apply Keeps.ite)
    | with_reducible exact Keeps.refl _ _
    | with_reducible assumption
    | (with_reducible apply Keeps.then (State.modTally_keeps ..) ?_ (by decide)))

theorem enterRecovery_keeps : ∀ s a1, Keeps [.cores, .tallies] s (enterRecovery s a1) := by
  intro s a1
  unfold enterRecovery
  repeat' (first
    | (with_reducible apply Keeps.ite)
    | with_reducible exact Keeps.refl _ _
    | with_reducible assumption
    | (with_reducible apply Keeps.then (State.modCore_keeps _ _ _ ?_) ?_ (by decide))
    | (with_reducible exact fun _ h => h)
    | (with_reducible exact fun h => h)
    | (with_reducible apply Keeps.then (post_keeps ..) ?_ (by decide))
    | (with_reducible apply Keeps.foldl)
    | (with_reducible refine Keeps.snd (by assumption) ?_)
    | (with_reducible refine Keeps.fst (by assumption) ?_)
    | intro _)

theorem spTouch_keeps : ∀ s a1 a2 a3 a4, Keeps [.cores, .tallies] s (spTouch s a1 a2 a3 a4) := by
  intro s a1 a2 a3 a4
  unfold spTouch
  have key : Keeps [.cores, .tallies] s ((List.filter (fun x => x.2 == 1) (badWords (s.core a1).bad a3 a4)).foldl (fun s x =>
      if (s.core a1).wback.contains x.1 then s else
      post (s.modCore a1 (fun c => { c with corrected := stick c.corrected 1, wback := c.wback ++ [x.1] })) a1 a2 0x040 (x.1 * 8)) s) := by
    refine Keeps.foldl (Keeps.refl _ _) (fun u x h => Keeps.ite (fun _ => h) (fun _ => ?_))
    refine Keeps.step (h.step (State.modCore_keeps _ _ _ ?_) ?_) (post_keeps ..) (by decide)
    exacts [fun _ h => h, by decide]
  dsimp only
  split
  · refine Keeps.step (Keeps.step (key.step (State.modCore_keeps _ _ _ ?_) ?_) (post_keeps ..) (by decide)) (enterRecovery_keeps ..) (by decide)
    exacts [fun _ h => h, by decide]
  · exact key

theorem State.modHp_keeps : ∀ s a1 a2, Keeps [.hps] s (State.modHp s a1 a2) := by
  intro s a1 a2
  unfold State.modHp
  repeat' (first
    | (with_reducible apply Keeps.ite)
    | with_reducible exact Keeps.refl _ _
    | with_reducible assumption
    | (with_reducible apply Keeps.foldl)
    | (with_reducible refine Keeps.snd (by assumption) ?_)
    | (with_reducible refine Keeps.fst (by assumption) ?_)
    | (with_reducible fail_if_no_progress (apply Keeps.set_hps ?_ (by decide))))

theorem countDma_keeps : ∀ s a1 a2 a3, Keeps [.hps] s (countDma s a1 a2 a3) := by
  intro s a1 a2 a3
  unfold countDma
  repeat' (first
    | (with_reducible apply Keeps.ite)
    | with_reducible exact Keeps.refl _ _
    | with_reducible assumption
    | (with_reducible apply Keeps.then (State.modHp_keeps ..) ?_ (by decide))
    | (with_reducible apply Keeps.foldl)
    | (with_reducible refine Keeps.snd (by assumption) ?_)
    | (with_reducible refine Keeps.fst (by assumption) ?_)
    | intro _
    | dsimp only
    | split)

theorem State.setMport_keeps : ∀ s a1 a2, Keeps [.mports] s (State.setMport s a1 a2) := by
  intro s a1 a2
  unfold State.setMport
  repeat' (first
    | (with_reducible apply Keeps.ite)
    | with_reducible exact Keeps.refl _ _
    | with_reducible assumption
    | (with_reducible apply Keeps.foldl)
    | (with_reducible refine Keeps.snd (by assumption) ?_)
    | (with_reducible refine Keeps.fst (by assumption) ?_)
    | (with_reducible fail_if_no_progress (apply Keeps.set_mports ?_ (by decide))))

theorem State.modMport_keeps : ∀ s a1 a2, Keeps [.mports] s (State.modMport s a1 a2) := by
  intro s a1 a2
  unfold State.modMport
  repeat' (first
    | (with_reducible apply Keeps.ite)
    | with_reducible exact Keeps.refl _ _
    | with_reducible assumption
    | (with_reducible apply Keeps.then (State.setMport_keeps ..) ?_ (by decide)))

theorem noteCorrected_keeps : ∀ s a1 a2, Keeps [.mports, .tallies] s (noteCorrected s a1 a2) := by
  intro s a1 a2
  unfold noteCorrected
  repeat' (first
    | (with_reducible apply Keeps.ite)
    | with_reducible exact Keeps.refl _ _
    | with_reducible assumption
    | (with_reducible apply Keeps.then (post_keeps ..) ?_ (by decide))
    | (with_reducible apply Keeps.then (State.modMport_keeps ..) ?_ (by decide)))

theorem readMap_keeps : ∀ s a1 a2, Keeps [.mports, .tiers, .tallies] s (readMap s a1 a2) := by
  intro s a1 a2
  unfold readMap
  repeat' (first
    | (with_reducible apply Keeps.ite)
    | with_reducible exact Keeps.refl _ _
    | with_reducible assumption
    | (with_reducible apply Keeps.then (noteCorrected_keeps ..) ?_ (by decide))
    | (with_reducible apply Keeps.then (post_keeps ..) ?_ (by decide))
    | (with_reducible apply Keeps.then (State.modMport_keeps ..) ?_ (by decide))
    | (with_reducible apply Keeps.foldl)
    | (with_reducible refine Keeps.snd (by assumption) ?_)
    | (with_reducible refine Keeps.fst (by assumption) ?_)
    | (with_reducible fail_if_no_progress (apply Keeps.set_tiers ?_ (by decide)))
    | intro _)

theorem countWriteBack_keeps : ∀ s a1, Keeps [.mports] s (countWriteBack s a1) := by
  intro s a1
  unfold countWriteBack
  repeat' (first
    | (with_reducible apply Keeps.ite)
    | with_reducible exact Keeps.refl _ _
    | with_reducible assumption
    | (with_reducible apply Keeps.then (State.modMport_keeps ..) ?_ (by decide))
    | (with_reducible apply Keeps.foldl)
    | (with_reducible refine Keeps.snd (by assumption) ?_)
    | (with_reducible refine Keeps.fst (by assumption) ?_)
    | intro _
    | dsimp only
    | split)

theorem noteWaiting_keeps : ∀ s a1, Keeps [.tiers, .tallies] s (noteWaiting s a1) := by
  intro s a1
  unfold noteWaiting
  repeat' (first
    | (with_reducible apply Keeps.ite)
    | with_reducible exact Keeps.refl _ _
    | with_reducible assumption
    | (with_reducible apply Keeps.then (post_keeps ..) ?_ (by decide))
    | (with_reducible apply Keeps.foldl)
    | (with_reducible refine Keeps.snd (by assumption) ?_)
    | (with_reducible refine Keeps.fst (by assumption) ?_)
    | (with_reducible fail_if_no_progress (apply Keeps.set_tiers ?_ (by decide)))
    | intro _)

theorem startRetire_keeps : ∀ s a1 a2, Keeps [.tiers, .tallies] s (startRetire s a1 a2) := by
  intro s a1 a2
  unfold startRetire
  repeat' (first
    | (with_reducible apply Keeps.ite)
    | with_reducible exact Keeps.refl _ _
    | with_reducible assumption
    | (with_reducible apply Keeps.then (noteWaiting_keeps ..) ?_ (by decide))
    | (with_reducible apply Keeps.foldl)
    | (with_reducible refine Keeps.snd (by assumption) ?_)
    | (with_reducible refine Keeps.fst (by assumption) ?_)
    | (with_reducible fail_if_no_progress (apply Keeps.set_tiers ?_ (by decide)))
    | intro _)

theorem noteUncorr_keeps : ∀ s a1 a2, Keeps [.mports, .tallies] s (noteUncorr s a1 a2) := by
  intro s a1 a2
  unfold noteUncorr
  repeat' (first
    | (with_reducible apply Keeps.ite)
    | with_reducible exact Keeps.refl _ _
    | with_reducible assumption
    | (with_reducible apply Keeps.then (post_keeps ..) ?_ (by decide))
    | (with_reducible apply Keeps.then (State.modMport_keeps ..) ?_ (by decide)))

theorem readErrors_keeps : ∀ s a1 a2, Keeps [.uniBad, .mports, .tiers, .tallies] s (readErrors s a1 a2) := by
  intro s a1 a2
  unfold readErrors
  repeat' (first
    | (with_reducible apply Keeps.ite)
    | with_reducible exact Keeps.refl _ _
    | with_reducible assumption
    | (with_reducible apply Keeps.then (countWriteBack_keeps ..) ?_ (by decide))
    | (with_reducible apply Keeps.then (noteCorrected_keeps ..) ?_ (by decide))
    | (with_reducible apply Keeps.then (startRetire_keeps ..) ?_ (by decide))
    | (with_reducible apply Keeps.then (noteUncorr_keeps ..) ?_ (by decide))
    | (with_reducible apply Keeps.foldl)
    | (with_reducible refine Keeps.snd (by assumption) ?_)
    | (with_reducible refine Keeps.fst (by assumption) ?_)
    | (with_reducible fail_if_no_progress (apply Keeps.set_uniBad ?_ (by decide)))
    | intro _)

theorem moveErrors_keeps : ∀ s a1, Keeps [.uniBad, .mports, .tiers, .tallies] s (moveErrors s a1) := by
  intro s a1
  unfold moveErrors
  repeat' (first
    | (with_reducible apply Keeps.ite)
    | with_reducible exact Keeps.refl _ _
    | with_reducible assumption
    | (with_reducible apply Keeps.then (readErrors_keeps ..) ?_ (by decide)))

theorem countMoveBytes_keeps : ∀ s a1 a2 a3, Keeps [.mports] s (countMoveBytes s a1 a2 a3) := by
  intro s a1 a2 a3
  unfold countMoveBytes
  repeat' (first
    | (with_reducible apply Keeps.ite)
    | with_reducible exact Keeps.refl _ _
    | with_reducible assumption
    | (with_reducible apply Keeps.then (State.modMport_keeps ..) ?_ (by decide)))

theorem setFrame_keeps : ∀ s a1 a2, Keeps [.tiers] s (setFrame s a1 a2) := by
  intro s a1 a2
  unfold setFrame
  repeat' (first
    | (with_reducible apply Keeps.ite)
    | with_reducible exact Keeps.refl _ _
    | with_reducible assumption
    | (with_reducible apply Keeps.foldl)
    | (with_reducible refine Keeps.snd (by assumption) ?_)
    | (with_reducible refine Keeps.fst (by assumption) ?_)
    | (with_reducible fail_if_no_progress (apply Keeps.set_tiers ?_ (by decide))))

theorem trimFilter_keeps : ∀ s a1, Keeps [.mports] s (trimFilter s a1) := by
  intro s a1
  unfold trimFilter
  repeat' (first
    | (with_reducible apply Keeps.ite)
    | with_reducible exact Keeps.refl _ _
    | with_reducible assumption
    | (with_reducible apply Keeps.then (State.modMport_keeps ..) ?_ (by decide))
    | (with_reducible apply Keeps.foldl)
    | (with_reducible refine Keeps.snd (by assumption) ?_)
    | (with_reducible refine Keeps.fst (by assumption) ?_)
    | intro _)

theorem finishMove_keeps : ∀ s a1, Keeps [.uniBad, .mports, .tiers, .tallies] s (finishMove s a1) := by
  intro s a1
  unfold finishMove
  repeat' (first
    | (with_reducible apply Keeps.ite)
    | with_reducible exact Keeps.refl _ _
    | with_reducible assumption
    | (with_reducible apply Keeps.then (moveErrors_keeps ..) ?_ (by decide))
    | (with_reducible apply Keeps.then (countMoveBytes_keeps ..) ?_ (by decide))
    | (with_reducible apply Keeps.then (setFrame_keeps ..) ?_ (by decide))
    | (with_reducible apply Keeps.then (trimFilter_keeps ..) ?_ (by decide))
    | (with_reducible apply Keeps.then (State.modMport_keeps ..) ?_ (by decide))
    | (with_reducible apply Keeps.foldl)
    | (with_reducible refine Keeps.snd (by assumption) ?_)
    | (with_reducible refine Keeps.fst (by assumption) ?_)
    | (with_reducible fail_if_no_progress (apply Keeps.set_tiers ?_ (by decide)))
    | intro _)

theorem waitMove_keeps : ∀ s a1, Keeps [.uniBad, .mports, .tiers, .tallies] s (waitMove s a1) := by
  intro s a1
  unfold waitMove
  repeat' (first
    | (with_reducible apply Keeps.ite)
    | with_reducible exact Keeps.refl _ _
    | with_reducible assumption
    | (with_reducible apply Keeps.then (finishMove_keeps ..) ?_ (by decide))
    | (with_reducible apply Keeps.foldl)
    | (with_reducible refine Keeps.snd (by assumption) ?_)
    | (with_reducible refine Keeps.fst (by assumption) ?_)
    | intro _
    | dsimp only
    | split)

theorem noteWritten_keeps : ∀ s a1, Keeps [.tiers, .tallies] s (noteWritten s a1) := by
  intro s a1
  unfold noteWritten
  repeat' (first
    | (with_reducible apply Keeps.ite)
    | with_reducible exact Keeps.refl _ _
    | with_reducible assumption
    | (with_reducible apply Keeps.then (noteWaiting_keeps ..) ?_ (by decide))
    | (with_reducible apply Keeps.foldl)
    | (with_reducible refine Keeps.snd (by assumption) ?_)
    | (with_reducible refine Keeps.fst (by assumption) ?_)
    | (with_reducible fail_if_no_progress (apply Keeps.set_tiers ?_ (by decide)))
    | intro _)

theorem touchTile_keeps : ∀ a0 a1 a2 a3 s a5, Keeps [.uniBad, .mports, .tiers, .tallies] s (touchTile a0 a1 a2 a3 s a5) := by
  intro a0 a1 a2 a3 s a5
  unfold touchTile
  repeat' (first
    | (with_reducible apply Keeps.ite)
    | with_reducible exact Keeps.refl _ _
    | with_reducible assumption
    | (with_reducible apply Keeps.then (post_keeps ..) ?_ (by decide))
    | (with_reducible apply Keeps.then (State.modMport_keeps ..) ?_ (by decide))
    | (with_reducible apply Keeps.then (readMap_keeps ..) ?_ (by decide))
    | (with_reducible apply Keeps.then (waitMove_keeps ..) ?_ (by decide))
    | (with_reducible apply Keeps.then (noteWritten_keeps ..) ?_ (by decide))
    | (with_reducible apply Keeps.foldl)
    | (with_reducible refine Keeps.snd (by assumption) ?_)
    | (with_reducible refine Keeps.fst (by assumption) ?_)
    | (with_reducible fail_if_no_progress (apply Keeps.set_tiers ?_ (by decide)))
    | intro _
    | dsimp only
    | split)

theorem touchRead_keeps : ∀ s a1 a2 a3, Keeps [.uniBad, .mports, .tiers, .tallies] s (touchRead s a1 a2 a3) := by
  intro s a1 a2 a3
  unfold touchRead
  repeat' (first
    | (with_reducible apply Keeps.ite)
    | with_reducible exact Keeps.refl _ _
    | with_reducible assumption
    | (with_reducible apply Keeps.then (touchTile_keeps ..) ?_ (by decide))
    | (with_reducible apply Keeps.then (readErrors_keeps ..) ?_ (by decide))
    | (with_reducible apply Keeps.foldl)
    | (with_reducible refine Keeps.snd (by assumption) ?_)
    | (with_reducible refine Keeps.fst (by assumption) ?_)
    | intro _)

theorem devTouch_keeps : ∀ s a1 a2 a3, Keeps [.uniBad, .mports, .tiers, .hps, .tallies] s (devTouch s a1 a2 a3) := by
  intro s a1 a2 a3
  unfold devTouch
  repeat' (first
    | (with_reducible apply Keeps.ite)
    | with_reducible exact Keeps.refl _ _
    | with_reducible assumption
    | (with_reducible apply Keeps.then (countDma_keeps ..) ?_ (by decide))
    | (with_reducible apply Keeps.then (touchRead_keeps ..) ?_ (by decide))
    | (with_reducible apply Keeps.foldl)
    | (with_reducible refine Keeps.snd (by assumption) ?_)
    | (with_reducible refine Keeps.fst (by assumption) ?_)
    | intro _
    | dsimp only
    | split)

theorem State.modCe_keeps : ∀ s a1 a2, Keeps [.ces] s (State.modCe s a1 a2) := by
  intro s a1 a2
  unfold State.modCe
  repeat' (first
    | (with_reducible apply Keeps.ite)
    | with_reducible exact Keeps.refl _ _
    | with_reducible assumption
    | (with_reducible apply Keeps.foldl)
    | (with_reducible refine Keeps.snd (by assumption) ?_)
    | (with_reducible refine Keeps.fst (by assumption) ?_)
    | (with_reducible fail_if_no_progress (apply Keeps.set_ces ?_ (by decide))))

theorem State.modCtx_keeps : ∀ s a1 a2, Keeps [.ctxs] s (State.modCtx s a1 a2) := by
  intro s a1 a2
  unfold State.modCtx
  repeat' (first
    | (with_reducible apply Keeps.ite)
    | with_reducible exact Keeps.refl _ _
    | with_reducible assumption
    | (with_reducible apply Keeps.then (State.setCtx_keeps ..) ?_ (by decide)))

theorem State.modFold_keeps : ∀ s a1 a2, Keeps [.folds] s (State.modFold s a1 a2) := by
  intro s a1 a2
  unfold State.modFold
  repeat' (first
    | (with_reducible apply Keeps.ite)
    | with_reducible exact Keeps.refl _ _
    | with_reducible assumption
    | (with_reducible apply Keeps.foldl)
    | (with_reducible refine Keeps.snd (by assumption) ?_)
    | (with_reducible refine Keeps.fst (by assumption) ?_)
    | (with_reducible fail_if_no_progress (apply Keeps.set_folds ?_ (by decide))))

theorem State.modFw_keeps : ∀ s a1 a2, Keeps [.sec] s (State.modFw s a1 a2) := by
  intro s a1 a2
  unfold State.modFw
  repeat' (first
    | (with_reducible apply Keeps.ite)
    | with_reducible exact Keeps.refl _ _
    | with_reducible assumption
    | (with_reducible apply Keeps.foldl)
    | (with_reducible refine Keeps.snd (by assumption) ?_)
    | (with_reducible refine Keeps.fst (by assumption) ?_)
    | (with_reducible fail_if_no_progress (apply Keeps.set_sec ?_ ?_ ?_ (by decide)))
    | with_reducible rfl)

theorem State.modGate_keeps : ∀ s a1 a2, Keeps [.gates] s (State.modGate s a1 a2) := by
  intro s a1 a2
  unfold State.modGate
  repeat' (first
    | (with_reducible apply Keeps.ite)
    | with_reducible exact Keeps.refl _ _
    | with_reducible assumption
    | (with_reducible apply Keeps.foldl)
    | (with_reducible refine Keeps.snd (by assumption) ?_)
    | (with_reducible refine Keeps.fst (by assumption) ?_)
    | (with_reducible fail_if_no_progress (apply Keeps.set_gates ?_ (by decide))))

theorem State.modHurdle_keeps : ∀ s a1 a2, Keeps [.hurdles] s (State.modHurdle s a1 a2) := by
  intro s a1 a2
  unfold State.modHurdle
  repeat' (first
    | (with_reducible apply Keeps.ite)
    | with_reducible exact Keeps.refl _ _
    | with_reducible assumption
    | (with_reducible apply Keeps.foldl)
    | (with_reducible refine Keeps.snd (by assumption) ?_)
    | (with_reducible refine Keeps.fst (by assumption) ?_)
    | (with_reducible fail_if_no_progress (apply Keeps.set_hurdles ?_ (by decide))))

theorem State.setIbx_keeps : ∀ s a1 a2, Keeps [.ibex] s (State.setIbx s a1 a2) := by
  intro s a1 a2
  unfold State.setIbx
  repeat' (first
    | (with_reducible apply Keeps.ite)
    | with_reducible exact Keeps.refl _ _
    | with_reducible assumption
    | (with_reducible apply Keeps.foldl)
    | (with_reducible refine Keeps.snd (by assumption) ?_)
    | (with_reducible refine Keeps.fst (by assumption) ?_)
    | (with_reducible fail_if_no_progress (apply Keeps.set_ibex ?_ (by decide))))

theorem State.modIbx_keeps : ∀ s a1 a2, Keeps [.ibex] s (State.modIbx s a1 a2) := by
  intro s a1 a2
  unfold State.modIbx
  repeat' (first
    | (with_reducible apply Keeps.ite)
    | with_reducible exact Keeps.refl _ _
    | with_reducible assumption
    | (with_reducible apply Keeps.then (State.setIbx_keeps ..) ?_ (by decide)))

theorem State.modLaser_keeps : ∀ s a1 a2, Keeps [.lasers] s (State.modLaser s a1 a2) := by
  intro s a1 a2
  unfold State.modLaser
  repeat' (first
    | (with_reducible apply Keeps.ite)
    | with_reducible exact Keeps.refl _ _
    | with_reducible assumption
    | (with_reducible apply Keeps.foldl)
    | (with_reducible refine Keeps.snd (by assumption) ?_)
    | (with_reducible refine Keeps.fst (by assumption) ?_)
    | (with_reducible fail_if_no_progress (apply Keeps.set_lasers ?_ (by decide))))

theorem State.setOport_keeps : ∀ s a1 a2, Keeps [.oports] s (State.setOport s a1 a2) := by
  intro s a1 a2
  unfold State.setOport
  repeat' (first
    | (with_reducible apply Keeps.ite)
    | with_reducible exact Keeps.refl _ _
    | with_reducible assumption
    | (with_reducible apply Keeps.foldl)
    | (with_reducible refine Keeps.snd (by assumption) ?_)
    | (with_reducible refine Keeps.fst (by assumption) ?_)
    | (with_reducible fail_if_no_progress (apply Keeps.set_oports ?_ (by decide))))

theorem State.modOport_keeps : ∀ s a1 a2, Keeps [.oports] s (State.modOport s a1 a2) := by
  intro s a1 a2
  unfold State.modOport
  repeat' (first
    | (with_reducible apply Keeps.ite)
    | with_reducible exact Keeps.refl _ _
    | with_reducible assumption
    | (with_reducible apply Keeps.then (State.setOport_keeps ..) ?_ (by decide)))

theorem settleClk_keeps : ∀ s a1, Keeps [.hub2] s (settleClk s a1) := by
  intro s a1
  unfold settleClk
  repeat' (first
    | (with_reducible apply Keeps.ite)
    | with_reducible exact Keeps.refl _ _
    | with_reducible assumption
    | (with_reducible apply Keeps.foldl)
    | (with_reducible refine Keeps.snd (by assumption) ?_)
    | (with_reducible refine Keeps.fst (by assumption) ?_)
    | (with_reducible fail_if_no_progress (apply Keeps.set_hub2 ?_ (by decide)))
    | intro _
    | dsimp only
    | split)

theorem askClk_keeps : ∀ s a1 a2, Keeps [.hub2] s (askClk s a1 a2) := by
  intro s a1 a2
  unfold askClk
  repeat' (first
    | (with_reducible apply Keeps.ite)
    | with_reducible exact Keeps.refl _ _
    | with_reducible assumption
    | (with_reducible apply Keeps.then (settleClk_keeps ..) ?_ (by decide))
    | (with_reducible apply Keeps.foldl)
    | (with_reducible refine Keeps.snd (by assumption) ?_)
    | (with_reducible refine Keeps.fst (by assumption) ?_)
    | (with_reducible fail_if_no_progress (apply Keeps.set_hub2 ?_ (by decide))))

theorem freeBelow_keeps : ∀ s a1, Keeps [] s (freeBelow s a1).2 := by
  intro s a1
  unfold freeBelow
  repeat' (first
    | (with_reducible apply Keeps.ite)
    | with_reducible exact Keeps.refl _ _
    | with_reducible assumption
    | (with_reducible apply Keeps.foldl)
    | (with_reducible refine Keeps.snd (by assumption) ?_)
    | (with_reducible refine Keeps.fst (by assumption) ?_)
    | (with_reducible fail_if_no_progress (apply Keeps.set_freeCtr ?_)))

theorem ctxCount_keeps : ∀ s a1 a2 a3, Keeps [.ctxs] s (ctxCount s a1 a2 a3) := by
  intro s a1 a2 a3
  unfold ctxCount
  repeat' (first
    | (with_reducible apply Keeps.ite)
    | with_reducible exact Keeps.refl _ _
    | with_reducible assumption
    | (with_reducible apply Keeps.then (State.modCtx_keeps ..) ?_ (by decide))
    | (with_reducible apply Keeps.foldl)
    | (with_reducible refine Keeps.snd (by assumption) ?_)
    | (with_reducible refine Keeps.fst (by assumption) ?_)
    | intro _)

theorem writeErrors_keeps : ∀ s a1 a2 a3, Keeps [.uniBad, .mports, .tiers, .tallies] s (writeErrors s a1 a2 a3) := by
  intro s a1 a2 a3
  unfold writeErrors
  repeat' (first
    | (with_reducible apply Keeps.ite)
    | with_reducible exact Keeps.refl _ _
    | with_reducible assumption
    | (with_reducible apply Keeps.then (noteCorrected_keeps ..) ?_ (by decide))
    | (with_reducible apply Keeps.then (startRetire_keeps ..) ?_ (by decide))
    | (with_reducible apply Keeps.then (noteUncorr_keeps ..) ?_ (by decide))
    | (with_reducible apply Keeps.foldl)
    | (with_reducible refine Keeps.snd (by assumption) ?_)
    | (with_reducible refine Keeps.fst (by assumption) ?_)
    | (with_reducible fail_if_no_progress (apply Keeps.set_uniBad ?_ (by decide)))
    | intro _)

theorem ringError_keeps : ∀ s a1 a2 a3 a4, Keeps [.ctxs, .tallies] s (ringError s a1 a2 a3 a4) := by
  intro s a1 a2 a3 a4
  unfold ringError
  repeat' (first
    | (with_reducible apply Keeps.ite)
    | with_reducible exact Keeps.refl _ _
    | with_reducible assumption
    | (with_reducible apply Keeps.then (post_keeps ..) ?_ (by decide))
    | (with_reducible apply Keeps.then (State.modCtx_keeps ..) ?_ (by decide)))

theorem takeIndex_keeps : ∀ s a1 a2 a3, Keeps [.ctxs, .tallies] s (takeIndex s a1 a2 a3) := by
  intro s a1 a2 a3
  unfold takeIndex
  repeat' (first
    | (with_reducible apply Keeps.ite)
    | with_reducible exact Keeps.refl _ _
    | with_reducible assumption
    | (with_reducible apply Keeps.then (ringError_keeps ..) ?_ (by decide))
    | (with_reducible apply Keeps.then (State.modCtx_keeps ..) ?_ (by decide))
    | (with_reducible apply Keeps.foldl)
    | (with_reducible refine Keeps.snd (by assumption) ?_)
    | (with_reducible refine Keeps.fst (by assumption) ?_)
    | intro _)

theorem observeValue_keeps : ∀ s a1 a2 a3, Keeps [.ctxs, .tallies] s (observeValue s a1 a2 a3) := by
  intro s a1 a2 a3
  unfold observeValue
  repeat' (first
    | (with_reducible apply Keeps.ite)
    | with_reducible exact Keeps.refl _ _
    | with_reducible assumption
    | (with_reducible apply Keeps.then (takeIndex_keeps ..) ?_ (by decide))
    | (with_reducible apply Keeps.then (State.modCtx_keeps ..) ?_ (by decide))
    | (with_reducible apply Keeps.foldl)
    | (with_reducible refine Keeps.snd (by assumption) ?_)
    | (with_reducible refine Keeps.fst (by assumption) ?_)
    | intro _)

theorem evalRings_keeps : ∀ s a1 a2, Keeps [.ctxs, .tallies] s (evalRings s a1 a2) := by
  intro s a1 a2
  unfold evalRings
  repeat' (first
    | (with_reducible apply Keeps.ite)
    | with_reducible exact Keeps.refl _ _
    | with_reducible assumption
    | (with_reducible apply Keeps.then (observeValue_keeps ..) ?_ (by decide))
    | (with_reducible apply Keeps.foldl)
    | (with_reducible refine Keeps.snd (by assumption) ?_)
    | (with_reducible refine Keeps.fst (by assumption) ?_)
    | intro _)

theorem evalWaits_keeps : ∀ s a1 a2, Keeps [.cores] s (evalWaits s a1 a2) := by
  intro s a1 a2
  unfold evalWaits
  split
  · exact Keeps.refl _ _
  · exact Keeps.set_cores_map (Keeps.refl _ s) (fun _ => rfl) (by decide)

theorem uniWrite_keeps : ∀ s a1 a2 a3, Keeps [.uni, .uniBad, .cores, .ctxs, .mports, .tiers, .tallies] s (uniWrite s a1 a2 a3) := by
  intro s a1 a2 a3
  unfold uniWrite
  refine Keeps.step ?_ (evalRings_keeps ..) (by decide)
  refine Keeps.step ?_ (evalWaits_keeps ..) (by decide)
  refine Keeps.set_uni (Keeps.step (Keeps.foldl (Keeps.refl _ _) (fun _ _ h => h.step (touchTile_keeps ..) (by decide))) (writeErrors_keeps ..) (by decide)) (fun h => ?_) (by decide)
  split
  · exact foldl_wf _ _ (fun m x hm => by split; exacts [Memory.wf_mset _ _ _ hm, hm]) _ h
  · exact Memory.wf_mwrite _ _ _ h

theorem devWrite_keeps : ∀ s a1 a2 a3, Keeps [.uni, .uniBad, .host, .cores, .ctxs, .mports, .tiers, .hps, .tallies] s (devWrite s a1 a2 a3) := by
  intro s a1 a2 a3
  unfold devWrite
  split
  · split
    · exact Keeps.step (Keeps.set_host (Keeps.refl _ _) (Memory.wf_mwrite _ _ _) (by decide)) (countDma_keeps ..) (by decide)
    · exact Keeps.refl _ _
  · exact (uniWrite_keeps ..).mono (by decide)

theorem coreCount_keeps : ∀ s a1 a2 a3, Keeps [.cores] s (coreCount s a1 a2 a3) := by
  intro s a1 a2 a3
  unfold coreCount
  repeat' (first
    | (with_reducible apply Keeps.ite)
    | with_reducible exact Keeps.refl _ _
    | with_reducible assumption
    | (with_reducible apply Keeps.then (State.modCore_keeps _ _ _ ?_) ?_ (by decide))
    | (with_reducible exact fun _ h => h)
    | (with_reducible exact fun h => h)
    | (with_reducible apply Keeps.foldl)
    | (with_reducible refine Keeps.snd (by assumption) ?_)
    | (with_reducible refine Keeps.fst (by assumption) ?_)
    | intro _)

theorem countSat_keeps : ∀ s a1 a2 a3 a4, Keeps [.ctxs, .tallies, .hub2] s (countSat s a1 a2 a3 a4) := by
  intro s a1 a2 a3 a4
  unfold countSat
  repeat' (first
    | (with_reducible apply Keeps.ite)
    | with_reducible exact Keeps.refl _ _
    | with_reducible assumption
    | (with_reducible apply Keeps.then (post_keeps ..) ?_ (by decide))
    | (with_reducible apply Keeps.then (ctxCount_keeps ..) ?_ (by decide))
    | (with_reducible apply Keeps.foldl)
    | (with_reducible refine Keeps.snd (by assumption) ?_)
    | (with_reducible refine Keeps.fst (by assumption) ?_)
    | (with_reducible fail_if_no_progress (apply Keeps.set_hub2 ?_ (by decide)))
    | intro _)

theorem compWrite_keeps : ∀ s a1 a2, Keeps [.uni, .uniBad, .host, .cores, .ctxs, .mports, .tiers, .hps, .tallies] s (compWrite s a1 a2) := by
  intro s a1 a2
  unfold compWrite
  repeat' (first
    | (with_reducible apply Keeps.ite)
    | with_reducible exact Keeps.refl _ _
    | with_reducible assumption
    | (with_reducible apply Keeps.then (devWrite_keeps ..) ?_ (by decide))
    | (with_reducible apply Keeps.then (State.modCtx_keeps ..) ?_ (by decide)))

theorem spWrite_keeps : ∀ s a1 a2 a3 a4, Keeps [.cores, .tallies] s (spWrite s a1 a2 a3 a4) := by
  intro s a1 a2 a3 a4
  unfold spWrite
  refine Keeps.step ?_ (State.modCore_keeps _ _ _ (fun _ h => Memory.wf_mwrite _ _ _ h)) (by decide)
  refine Keeps.foldl (Keeps.refl _ _) (fun u x h => ?_)
  refine Keeps.ite (fun _ => Keeps.ite (fun _ => ?_) (fun _ => ?_)) (fun _ => ?_)
  · refine Keeps.step (h.step (State.modCore_keeps _ _ _ ?_) ?_) (post_keeps ..) (by decide)
    exacts [fun _ h => h, by decide]
  · refine Keeps.step (h.step (State.modCore_keeps _ _ _ ?_) ?_) (post_keeps ..) (by decide)
    exacts [fun _ h => h, by decide]
  · refine h.step (State.modCore_keeps _ _ _ ?_) (by decide)
    exact fun _ h => h

theorem applyWr_keeps : ∀ a0 s a2, Keeps [.uni, .uniBad, .host, .cores, .ctxs, .mports, .tiers, .hps, .tallies] s (applyWr a0 s a2) := by
  intro a0 s a2
  unfold applyWr
  repeat' (first
    | (with_reducible apply Keeps.ite)
    | with_reducible exact Keeps.refl _ _
    | with_reducible assumption
    | (with_reducible apply Keeps.then (spWrite_keeps ..) ?_ (by decide))
    | (with_reducible apply Keeps.then (devWrite_keeps ..) ?_ (by decide))
    | (with_reducible apply Keeps.foldl)
    | (with_reducible refine Keeps.snd (by assumption) ?_)
    | (with_reducible refine Keeps.fst (by assumption) ?_)
    | intro _
    | dsimp only
    | split)

theorem applyWrs_keeps : ∀ a0 s a2, Keeps [.uni, .uniBad, .host, .cores, .ctxs, .mports, .tiers, .hps, .tallies] s (applyWrs a0 s a2) := by
  intro a0 s a2
  unfold applyWrs
  repeat' (first
    | (with_reducible apply Keeps.ite)
    | with_reducible exact Keeps.refl _ _
    | with_reducible assumption
    | (with_reducible apply Keeps.then (applyWr_keeps ..) ?_ (by decide))
    | (with_reducible apply Keeps.foldl)
    | (with_reducible refine Keeps.snd (by assumption) ?_)
    | (with_reducible refine Keeps.fst (by assumption) ?_)
    | intro _)

theorem report_keeps : ∀ s a1 a2, Keeps [.uni, .uniBad, .host, .cores, .ctxs, .mports, .tiers, .hps, .tallies] s (report s a1 a2) := by
  intro s a1 a2
  unfold report
  repeat' (first
    | (with_reducible apply Keeps.ite)
    | with_reducible exact Keeps.refl _ _
    | with_reducible assumption
    | (with_reducible apply Keeps.then (compWrite_keeps ..) ?_ (by decide))
    | (with_reducible apply Keeps.then (State.modCtx_keeps ..) ?_ (by decide))
    | (with_reducible apply Keeps.foldl)
    | (with_reducible refine Keeps.snd (by assumption) ?_)
    | (with_reducible refine Keeps.fst (by assumption) ?_)
    | intro _)

theorem reportRec_keeps : ∀ s a1 a2 a3 a4 a5 a6 a7, Keeps [.uni, .uniBad, .host, .cores, .ctxs, .mports, .tiers, .hps, .tallies] s (reportRec s a1 a2 a3 a4 a5 a6 a7) := by
  intro s a1 a2 a3 a4 a5 a6 a7
  unfold reportRec
  repeat' (first
    | (with_reducible apply Keeps.ite)
    | with_reducible exact Keeps.refl _ _
    | with_reducible assumption
    | (with_reducible apply Keeps.then (report_keeps ..) ?_ (by decide))
    | (with_reducible apply Keeps.foldl)
    | (with_reducible refine Keeps.snd (by assumption) ?_)
    | (with_reducible refine Keeps.fst (by assumption) ?_)
    | intro _)

theorem markBad_keeps : ∀ s a1, Keeps [.uniBad] s (markBad s a1) := by
  intro s a1
  unfold markBad
  repeat' (first
    | (with_reducible apply Keeps.ite)
    | with_reducible exact Keeps.refl _ _
    | with_reducible assumption
    | (with_reducible apply Keeps.foldl)
    | (with_reducible refine Keeps.snd (by assumption) ?_)
    | (with_reducible refine Keeps.fst (by assumption) ?_)
    | (with_reducible fail_if_no_progress (apply Keeps.set_uniBad ?_ (by decide))))

end Sys2Proof.Machine
end

