-- ==== Sys2Proof/Laws/FabOps.lean ====
section
/-! SUPPORT. What each operation of Machine/FabOps.lean keeps. -/

namespace Sys2Proof.Machine

open Sys2Proof

theorem noteSent_keeps : ∀ s a1 a2, Keeps [.accesses] s (noteSent s a1 a2) := by
  intro s a1 a2
  unfold noteSent
  repeat' (first
    | (with_reducible apply Keeps.ite)
    | with_reducible exact Keeps.refl _ _
    | with_reducible assumption
    | (with_reducible apply Keeps.foldl)
    | (with_reducible refine Keeps.snd (by assumption) ?_)
    | (with_reducible refine Keeps.fst (by assumption) ?_)
    | (with_reducible fail_if_no_progress (apply Keeps.set_accesses ?_ (by decide))))

theorem emit_keeps : ∀ s a1 a2, Keeps [.oports, .accesses] s (emit s a1 a2) := by
  intro s a1 a2
  unfold emit
  repeat' (first
    | (with_reducible apply Keeps.ite)
    | with_reducible exact Keeps.refl _ _
    | with_reducible assumption
    | (with_reducible apply Keeps.then (State.modOport_keeps ..) ?_ (by decide))
    | (with_reducible apply Keeps.then (noteSent_keeps ..) ?_ (by decide))
    | (with_reducible apply Keeps.foldl)
    | (with_reducible refine Keeps.snd (by assumption) ?_)
    | (with_reducible refine Keeps.fst (by assumption) ?_)
    | intro _)

theorem ownerStatus_keeps : ∀ s a1 a2, Keeps [.cores, .ces] s (ownerStatus s a1 a2) := by
  intro s a1 a2
  unfold ownerStatus
  repeat' (first
    | (with_reducible apply Keeps.ite)
    | with_reducible exact Keeps.refl _ _
    | with_reducible assumption
    | (with_reducible apply Keeps.then (State.modCore_keeps _ _ _ ?_) ?_ (by decide))
    | (with_reducible exact fun _ h => h)
    | (with_reducible exact fun h => h)
    | (with_reducible apply Keeps.then (State.modCe_keeps ..) ?_ (by decide))
    | (with_reducible apply Keeps.foldl)
    | (with_reducible refine Keeps.snd (by assumption) ?_)
    | (with_reducible refine Keeps.fst (by assumption) ?_)
    | intro _)

theorem waitPath_keeps : ∀ s a1 a2, Keeps [.oports, .paths] s (waitPath s a1 a2) := by
  intro s a1 a2
  unfold waitPath
  repeat' (first
    | (with_reducible apply Keeps.ite)
    | with_reducible exact Keeps.refl _ _
    | with_reducible assumption
    | (with_reducible apply Keeps.then (State.modOport_keeps ..) ?_ (by decide))
    | (with_reducible apply Keeps.foldl)
    | (with_reducible refine Keeps.snd (by assumption) ?_)
    | (with_reducible refine Keeps.fst (by assumption) ?_)
    | (with_reducible fail_if_no_progress (apply Keeps.set_paths ?_ (by decide))))

theorem sendPkt_keeps : ∀ s a1 a2 a3 t, sendPkt s a1 a2 a3 = some t → Keeps [.oports, .accesses, .paths] s t := by
  intro s a1 a2 a3 t h
  unfold sendPkt at h
  repeat' (split at h)
  all_goals first
    | (cases h; done)
    | cases h
  all_goals repeat' (first
    | (with_reducible apply Keeps.ite)
    | with_reducible exact Keeps.refl _ _
    | with_reducible assumption
    | (with_reducible apply Keeps.then (emit_keeps ..) ?_ (by decide))
    | (with_reducible apply Keeps.then (waitPath_keeps ..) ?_ (by decide)))

theorem request_keeps : ∀ s a1 a2, Keeps [.cores, .oports, .accesses, .nextTag, .paths, .ces] s (request s a1 a2) := by
  intro s a1 a2
  unfold request
  repeat' (first
    | (with_reducible apply Keeps.ite)
    | with_reducible exact Keeps.refl _ _
    | with_reducible assumption
    | (with_reducible apply Keeps.then (ownerStatus_keeps ..) ?_ (by decide))
    | (with_reducible refine Keeps.step ?_ (sendPkt_keeps _ _ _ _ _ (by assumption)) (by decide))
    | (with_reducible apply Keeps.foldl)
    | (with_reducible refine Keeps.snd (by assumption) ?_)
    | (with_reducible refine Keeps.fst (by assumption) ?_)
    | (with_reducible fail_if_no_progress (apply Keeps.set_accesses_nextTag ?_ (by decide)))
    | (with_reducible apply Keeps.getD)
    | intro _
    | dsimp only
    | split)

theorem endAccess_keeps : ∀ s a1 a2, Keeps [.cores, .accesses, .ces] s (endAccess s a1 a2) := by
  intro s a1 a2
  unfold endAccess
  repeat' (first
    | (with_reducible apply Keeps.ite)
    | with_reducible exact Keeps.refl _ _
    | with_reducible assumption
    | (with_reducible apply Keeps.then (ownerStatus_keeps ..) ?_ (by decide))
    | (with_reducible apply Keeps.foldl)
    | (with_reducible refine Keeps.snd (by assumption) ?_)
    | (with_reducible refine Keeps.fst (by assumption) ?_)
    | (with_reducible fail_if_no_progress (apply Keeps.set_accesses ?_ (by decide))))

theorem loseAccess_keeps : ∀ s a1, Keeps [.cores, .ctxs, .accesses, .ces, .tallies] s (loseAccess s a1) := by
  intro s a1
  unfold loseAccess
  repeat' (first
    | (with_reducible apply Keeps.ite)
    | with_reducible exact Keeps.refl _ _
    | with_reducible assumption
    | (with_reducible apply Keeps.then (endAccess_keeps ..) ?_ (by decide))
    | (with_reducible apply Keeps.then (ctxCount_keeps ..) ?_ (by decide))
    | (with_reducible apply Keeps.then (post_keeps ..) ?_ (by decide))
    | (with_reducible apply Keeps.foldl)
    | (with_reducible refine Keeps.snd (by assumption) ?_)
    | (with_reducible refine Keeps.fst (by assumption) ?_)
    | intro _)

theorem releaseHeld_keeps : ∀ s a1, Keeps [.oports, .accesses] s (releaseHeld s a1) := by
  intro s a1
  unfold releaseHeld
  repeat' (first
    | (with_reducible apply Keeps.ite)
    | with_reducible exact Keeps.refl _ _
    | with_reducible assumption
    | (with_reducible apply Keeps.then (emit_keeps ..) ?_ (by decide))
    | (with_reducible apply Keeps.then (State.modOport_keeps ..) ?_ (by decide))
    | (with_reducible apply Keeps.foldl)
    | (with_reducible refine Keeps.snd (by assumption) ?_)
    | (with_reducible refine Keeps.fst (by assumption) ?_)
    | intro _)

end Sys2Proof.Machine
end

