-- ==== Sys2Proof/Laws/Folds.lean ====
section
/-! SUPPORT. What each operation of Machine/Folds.lean keeps. -/

namespace Sys2Proof.Machine

open Sys2Proof

theorem applySignal_keeps : ∀ s a1 a2 a3 a4, Keeps [.uni, .uniBad, .host, .cores, .ctxs, .mports, .tiers, .hps, .tallies] s (applySignal s a1 a2 a3 a4).2 := by
  intro s a1 a2 a3 a4
  unfold applySignal
  repeat' (first
    | (with_reducible apply Keeps.ite)
    | with_reducible exact Keeps.refl _ _
    | with_reducible assumption
    | (with_reducible apply Keeps.then (devWrite_keeps ..) ?_ (by decide))
    | (with_reducible apply Keeps.then (devTouch_keeps ..) ?_ (by decide))
    | (with_reducible apply Keeps.then (post_keeps ..) ?_ (by decide))
    | (with_reducible apply Keeps.foldl)
    | (with_reducible refine Keeps.snd (by assumption) ?_)
    | (with_reducible refine Keeps.fst (by assumption) ?_)
    | intro _
    | dsimp only
    | split)

theorem foldDrop_keeps : ∀ s a1 a2 a3, Keeps [.folds, .tallies] s (foldDrop s a1 a2 a3) := by
  intro s a1 a2 a3
  unfold foldDrop
  repeat' (first
    | (with_reducible apply Keeps.ite)
    | with_reducible exact Keeps.refl _ _
    | with_reducible assumption
    | (with_reducible apply Keeps.then (post_keeps ..) ?_ (by decide))
    | (with_reducible apply Keeps.then (State.modFold_keeps ..) ?_ (by decide)))

theorem sendSync_keeps : ∀ s a1 a2, Keeps [.oports, .accesses, .paths] s (sendSync s a1 a2) := by
  intro s a1 a2
  unfold sendSync
  repeat' (first
    | (with_reducible apply Keeps.ite)
    | with_reducible exact Keeps.refl _ _
    | with_reducible assumption
    | (with_reducible refine Keeps.step ?_ (sendPkt_keeps _ _ _ _ _ (by assumption)) (by decide))
    | (with_reducible apply Keeps.foldl)
    | (with_reducible refine Keeps.snd (by assumption) ?_)
    | (with_reducible refine Keeps.fst (by assumption) ?_)
    | (with_reducible apply Keeps.getD)
    | intro _)

theorem setOwn_keeps : ∀ s a1, Keeps [.oports, .accesses, .paths, .folds] s (setOwn s a1) := by
  intro s a1
  unfold setOwn
  repeat' (first
    | (with_reducible apply Keeps.ite)
    | with_reducible exact Keeps.refl _ _
    | with_reducible assumption
    | (with_reducible apply Keeps.then (sendSync_keeps ..) ?_ (by decide))
    | (with_reducible apply Keeps.then (State.modFold_keeps ..) ?_ (by decide)))

theorem foldRelease_keeps : ∀ s a1, Keeps [.uni, .uniBad, .cores, .ctxs, .mports, .tiers, .oports, .accesses, .paths, .folds, .tallies] s (foldRelease s a1) := by
  intro s a1
  unfold foldRelease
  repeat' (first
    | (with_reducible apply Keeps.ite)
    | with_reducible exact Keeps.refl _ _
    | with_reducible assumption
    | (with_reducible apply Keeps.then (State.modFold_keeps ..) ?_ (by decide))
    | (with_reducible apply Keeps.then (noteUncorr_keeps ..) ?_ (by decide))
    | (with_reducible apply Keeps.then (uniWrite_keeps ..) ?_ (by decide))
    | (with_reducible apply Keeps.then (setOwn_keeps ..) ?_ (by decide))
    | (with_reducible apply Keeps.foldl)
    | (with_reducible refine Keeps.snd (by assumption) ?_)
    | (with_reducible refine Keeps.fst (by assumption) ?_)
    | intro _)

theorem foldSettle_keeps : ∀ s a1, Keeps [.uni, .uniBad, .cores, .ctxs, .mports, .tiers, .oports, .accesses, .paths, .folds, .tallies] s (foldSettle s a1) := by
  intro s a1
  unfold foldSettle
  repeat' (first
    | (with_reducible apply Keeps.ite)
    | with_reducible exact Keeps.refl _ _
    | with_reducible assumption
    | (with_reducible apply Keeps.then (foldRelease_keeps ..) ?_ (by decide))
    | (with_reducible apply Keeps.foldl)
    | (with_reducible refine Keeps.snd (by assumption) ?_)
    | (with_reducible refine Keeps.fst (by assumption) ?_)
    | intro _)

theorem foldArrive_keeps : ∀ s a1 a2 a3 a4 a5, Keeps [.uni, .uniBad, .cores, .ctxs, .mports, .tiers, .oports, .accesses, .paths, .folds, .tallies] s (foldArrive s a1 a2 a3 a4 a5).2 := by
  intro s a1 a2 a3 a4 a5
  unfold foldArrive
  repeat' (first
    | (with_reducible apply Keeps.ite)
    | with_reducible exact Keeps.refl _ _
    | with_reducible assumption
    | (with_reducible apply Keeps.then (foldDrop_keeps ..) ?_ (by decide))
    | (with_reducible apply Keeps.then (State.modFold_keeps ..) ?_ (by decide))
    | (with_reducible apply Keeps.then (foldSettle_keeps ..) ?_ (by decide))
    | (with_reducible apply Keeps.then (setOwn_keeps ..) ?_ (by decide))
    | (with_reducible apply Keeps.foldl)
    | (with_reducible refine Keeps.snd (by assumption) ?_)
    | (with_reducible refine Keeps.fst (by assumption) ?_)
    | intro _
    | dsimp only
    | split)

end Sys2Proof.Machine
end

