-- ==== Sys2Proof/Laws/Plan.lean ====
section
/-! SUPPORT. What each operation of Machine/Plan.lean keeps. -/

namespace Sys2Proof.Machine

open Sys2Proof

theorem Rd.touch_keeps : ∀ s a1 a2, Keeps [.uniBad, .cores, .mports, .tiers, .hps, .tallies] s (Rd.touch s a1 a2) := by
  intro s a1 a2
  unfold Rd.touch
  repeat' (first
    | (with_reducible apply Keeps.ite)
    | with_reducible exact Keeps.refl _ _
    | with_reducible assumption
    | (with_reducible apply Keeps.then (spTouch_keeps ..) ?_ (by decide))
    | (with_reducible apply Keeps.then (devTouch_keeps ..) ?_ (by decide))
    | (with_reducible apply Keeps.foldl)
    | (with_reducible refine Keeps.snd (by assumption) ?_)
    | (with_reducible refine Keeps.fst (by assumption) ?_)
    | intro _
    | dsimp only
    | split)

theorem freeLead_keeps : ∀ s a1, Keeps [] s (freeLead s a1).2 := by
  intro s a1
  unfold freeLead
  repeat' (first
    | (with_reducible apply Keeps.ite)
    | with_reducible exact Keeps.refl _ _
    | with_reducible assumption
    | (with_reducible apply Keeps.then (freeBelow_keeps ..) ?_ (by decide)))

theorem rdsTouch_keeps : ∀ a0 s a2, Keeps [.uniBad, .cores, .mports, .tiers, .hps, .tallies] s (rdsTouch a0 s a2) := by
  intro a0 s a2
  induction a2 generalizing s with
  | nil => exact Keeps.refl _ _
  | cons r l ih =>
    unfold rdsTouch
    split
    · exact Rd.touch_keeps ..
    · exact (Rd.touch_keeps ..).trans (ih _)

theorem putRun_keeps : ∀ s a1 a2, Keeps [.cores] s (putRun s a1 a2) := by
  intro s a1 a2
  unfold putRun
  repeat' (first
    | (with_reducible apply Keeps.ite)
    | with_reducible exact Keeps.refl _ _
    | with_reducible assumption
    | (with_reducible apply Keeps.then (State.modCore_keeps _ _ _ ?_) ?_ (by decide))
    | (with_reducible exact fun _ h => h))

theorem runPlan_keeps : ∀ s a1 a2 a3, Keeps [.uni, .uniBad, .host, .cores, .ctxs, .mports, .tiers, .hps, .tallies] s (runPlan s a1 a2 a3) := by
  intro s a1 a2 a3
  unfold runPlan
  repeat' (first
    | (with_reducible apply Keeps.ite)
    | with_reducible exact Keeps.refl _ _
    | with_reducible assumption
    | (with_reducible apply Keeps.then (rdsTouch_keeps ..) ?_ (by decide))
    | (with_reducible apply Keeps.then (freeLead_keeps ..) ?_ (by decide))
    | (with_reducible apply Keeps.then (applyWrs_keeps ..) ?_ (by decide))
    | (with_reducible apply Keeps.then (coreCount_keeps ..) ?_ (by decide))
    | (with_reducible apply Keeps.then (putRun_keeps ..) ?_ (by decide))
    | (with_reducible apply Keeps.foldl)
    | (with_reducible refine Keeps.snd (by assumption) ?_)
    | (with_reducible refine Keeps.fst (by assumption) ?_)
    | intro _
    | dsimp only
    | split)

end Sys2Proof.Machine
end

