-- ==== Sys2Proof/Laws/Collectives.lean ====
section
/-! SUPPORT. What each operation of Machine/Collectives.lean keeps. -/

namespace Sys2Proof.Machine

open Sys2Proof

theorem modColl_keeps : ∀ s a1 a2 a3, Keeps [.ces] s (modColl s a1 a2 a3) := by
  intro s a1 a2 a3
  unfold modColl
  repeat' (first
    | (with_reducible apply Keeps.ite)
    | with_reducible exact Keeps.refl _ _
    | with_reducible assumption
    | (with_reducible apply Keeps.then (State.modCe_keeps ..) ?_ (by decide)))

theorem finishColl_keeps : ∀ s a1 a2 a3, Keeps [.ces] s (finishColl s a1 a2 a3) := by
  intro s a1 a2 a3
  unfold finishColl
  repeat' (first
    | (with_reducible apply Keeps.ite)
    | with_reducible exact Keeps.refl _ _
    | with_reducible assumption
    | (with_reducible apply Keeps.then (modColl_keeps ..) ?_ (by decide)))

theorem collReport_keeps : ∀ s a1 a2 a3 a4 a5 a6, Keeps [.uni, .uniBad, .host, .cores, .ctxs, .mports, .tiers, .hps, .tallies] s (collReport s a1 a2 a3 a4 a5 a6) := by
  intro s a1 a2 a3 a4 a5 a6
  unfold collReport
  repeat' (first
    | (with_reducible apply Keeps.ite)
    | with_reducible exact Keeps.refl _ _
    | with_reducible assumption
    | (with_reducible apply Keeps.then (reportRec_keeps ..) ?_ (by decide)))

theorem endColl_keeps : ∀ s a1 a2 a3, Keeps [.uni, .uniBad, .host, .cores, .ctxs, .mports, .tiers, .ces, .hps, .tallies, .hub2] s (endColl s a1 a2 a3) := by
  intro s a1 a2 a3
  unfold endColl
  repeat' (first
    | (with_reducible apply Keeps.ite)
    | with_reducible exact Keeps.refl _ _
    | with_reducible assumption
    | (with_reducible apply Keeps.then (State.modCe_keeps ..) ?_ (by decide))
    | (with_reducible apply Keeps.then (countSat_keeps ..) ?_ (by decide))
    | (with_reducible apply Keeps.then (collReport_keeps ..) ?_ (by decide)))

theorem settleEngine_keeps : ∀ s a1, Keeps [.uni, .uniBad, .host, .cores, .ctxs, .mports, .tiers, .ces, .hps, .tallies, .hub2] s (settleEngine s a1) := by
  intro s a1
  unfold settleEngine
  repeat' (first
    | (with_reducible apply Keeps.ite)
    | with_reducible exact Keeps.refl _ _
    | with_reducible assumption
    | (with_reducible apply Keeps.then (finishColl_keeps ..) ?_ (by decide))
    | (with_reducible apply Keeps.then (endColl_keeps ..) ?_ (by decide))
    | (with_reducible apply Keeps.foldl)
    | (with_reducible apply Keeps.foldl_snd)
    | (with_reducible refine Keeps.snd (by assumption) ?_)
    | (with_reducible refine Keeps.fst (by assumption) ?_)
    | intro _)

theorem settleColls_keeps : ∀ s, Keeps [.uni, .uniBad, .host, .cores, .ctxs, .mports, .tiers, .ces, .hps, .tallies, .hub2] s (settleColls s) := by
  intro s
  unfold settleColls
  repeat' (first
    | (with_reducible apply Keeps.ite)
    | with_reducible exact Keeps.refl _ _
    | with_reducible assumption
    | (with_reducible apply Keeps.then (settleEngine_keeps ..) ?_ (by decide))
    | (with_reducible apply Keeps.foldl)
    | (with_reducible apply Keeps.foldl_snd)
    | (with_reducible refine Keeps.snd (by assumption) ?_)
    | (with_reducible refine Keeps.fst (by assumption) ?_)
    | intro _)

theorem countFates_keeps : ∀ s a1 a2 a3 a4, Keeps [.ces] s (countFates s a1 a2 a3 a4) := by
  intro s a1 a2 a3 a4
  unfold countFates
  repeat' (first
    | (with_reducible apply Keeps.ite)
    | with_reducible exact Keeps.refl _ _
    | with_reducible assumption
    | (with_reducible apply Keeps.then (State.modCe_keeps ..) ?_ (by decide)))

theorem journal_keeps : ∀ s a1 a2 a3 a4 a5 a6 a7 a8, Keeps [.uni, .uniBad, .host, .cores, .ctxs, .mports, .tiers, .hps, .tallies] s (journal s a1 a2 a3 a4 a5 a6 a7 a8) := by
  intro s a1 a2 a3 a4 a5 a6 a7 a8
  unfold journal
  repeat' (first
    | (with_reducible apply Keeps.ite)
    | with_reducible exact Keeps.refl _ _
    | with_reducible assumption
    | (with_reducible apply Keeps.then (State.modCtx_keeps ..) ?_ (by decide))
    | (with_reducible apply Keeps.then (devWrite_keeps ..) ?_ (by decide))
    | (with_reducible apply Keeps.foldl)
    | (with_reducible apply Keeps.foldl_snd)
    | (with_reducible refine Keeps.snd (by assumption) ?_)
    | (with_reducible refine Keeps.fst (by assumption) ?_)
    | intro _)

theorem arriveSignal_keeps : ∀ s a1 a2 a3 a4 a5, Keeps [.uni, .uniBad, .host, .cores, .ctxs, .mports, .tiers, .ces, .hps, .tallies] s (arriveSignal s a1 a2 a3 a4 a5).2 := by
  intro s a1 a2 a3 a4 a5
  unfold arriveSignal
  repeat' (first
    | (with_reducible apply Keeps.ite)
    | with_reducible exact Keeps.refl _ _
    | with_reducible assumption
    | (with_reducible apply Keeps.then (countFates_keeps ..) ?_ (by decide))
    | (with_reducible apply Keeps.then (journal_keeps ..) ?_ (by decide))
    | (with_reducible apply Keeps.then (applySignal_keeps ..) ?_ (by decide))
    | (with_reducible apply Keeps.foldl)
    | (with_reducible apply Keeps.foldl_snd)
    | (with_reducible refine Keeps.snd (by assumption) ?_)
    | (with_reducible refine Keeps.fst (by assumption) ?_)
    | intro _
    | dsimp only
    | split)

theorem breakColl_keeps : ∀ s a1 a2 a3, Keeps [.ces] s (breakColl s a1 a2 a3) := by
  intro s a1 a2 a3
  unfold breakColl
  repeat' (first
    | (with_reducible apply Keeps.ite)
    | with_reducible exact Keeps.refl _ _
    | with_reducible assumption
    | (with_reducible apply Keeps.then (finishColl_keeps ..) ?_ (by decide))
    | (with_reducible apply Keeps.then (modColl_keeps ..) ?_ (by decide))
    | (with_reducible apply Keeps.foldl)
    | (with_reducible apply Keeps.foldl_snd)
    | (with_reducible refine Keeps.snd (by assumption) ?_)
    | (with_reducible refine Keeps.fst (by assumption) ?_)
    | intro _
    | dsimp only
    | split)

theorem putArea_keeps : ∀ s a1, Keeps [.areas] s (putArea s a1) := by
  intro s a1
  unfold putArea
  repeat' (first
    | (with_reducible apply Keeps.ite)
    | with_reducible exact Keeps.refl _ _
    | with_reducible assumption
    | (with_reducible apply Keeps.foldl)
    | (with_reducible apply Keeps.foldl_snd)
    | (with_reducible refine Keeps.snd (by assumption) ?_)
    | (with_reducible refine Keeps.fst (by assumption) ?_)
    | (with_reducible fail_if_no_progress (apply Keeps.set_areas ?_ (by decide))))

theorem closeArea_keeps : ∀ s a1, Keeps [.areas, .hub2] s (closeArea s a1) := by
  intro s a1
  unfold closeArea
  repeat' (first
    | (with_reducible apply Keeps.ite)
    | with_reducible exact Keeps.refl _ _
    | with_reducible assumption
    | (with_reducible apply Keeps.then (putArea_keeps ..) ?_ (by decide))
    | (with_reducible apply Keeps.foldl)
    | (with_reducible apply Keeps.foldl_snd)
    | (with_reducible refine Keeps.snd (by assumption) ?_)
    | (with_reducible refine Keeps.fst (by assumption) ?_)
    | (with_reducible fail_if_no_progress (apply Keeps.set_hub2 ?_ (by decide)))
    | intro _
    | dsimp only
    | split)

theorem permuteCut_keeps : ∀ s a1 a2 a3, Keeps [.uni, .uniBad, .host, .cores, .ctxs, .mports, .tiers, .hps, .tallies] s (permuteCut s a1 a2 a3).2 := by
  intro s a1 a2 a3
  unfold permuteCut
  repeat' (first
    | (with_reducible apply Keeps.ite)
    | with_reducible exact Keeps.refl _ _
    | with_reducible assumption
    | (with_reducible apply Keeps.then (freeLead_keeps ..) ?_ (by decide))
    | (with_reducible apply Keeps.then (applyWrs_keeps ..) ?_ (by decide)))

theorem fencePermute_keeps : ∀ a0 s a2, Keeps [.uni, .uniBad, .host, .cores, .ctxs, .mports, .tiers, .hps, .tallies] s (fencePermute a0 s a2).1 := by
  intro a0 s a2
  unfold fencePermute
  repeat' (first
    | (with_reducible apply Keeps.ite)
    | with_reducible exact Keeps.refl _ _
    | with_reducible assumption
    | (with_reducible apply Keeps.then (permuteCut_keeps ..) ?_ (by decide))
    | (with_reducible apply Keeps.foldl)
    | (with_reducible apply Keeps.foldl_snd)
    | (with_reducible refine Keeps.snd (by assumption) ?_)
    | (with_reducible refine Keeps.fst (by assumption) ?_)
    | intro _
    | dsimp only
    | split)

theorem fenceColls_keeps : ∀ s a1 a2 a3, Keeps [.uni, .uniBad, .host, .cores, .ctxs, .mports, .tiers, .ces, .hps, .tallies, .hub2] s (fenceColls s a1 a2 a3) := by
  intro s a1 a2 a3
  unfold fenceColls
  repeat' (first
    | (with_reducible apply Keeps.ite)
    | with_reducible exact Keeps.refl _ _
    | with_reducible assumption
    | (with_reducible apply Keeps.then (fencePermute_keeps ..) ?_ (by decide))
    | (with_reducible apply Keeps.then (endColl_keeps ..) ?_ (by decide))
    | (with_reducible apply Keeps.then (State.modCe_keeps ..) ?_ (by decide))
    | (with_reducible apply Keeps.then (collReport_keeps ..) ?_ (by decide))
    | (with_reducible apply Keeps.then (post_keeps ..) ?_ (by decide))
    | (with_reducible apply Keeps.foldl)
    | (with_reducible apply Keeps.foldl_snd)
    | (with_reducible refine Keeps.snd (by assumption) ?_)
    | (with_reducible refine Keeps.fst (by assumption) ?_)
    | intro _)

theorem holdArea_keeps : ∀ s a1 a2 a3, Keeps [.areas] s (holdArea s a1 a2 a3) := by
  intro s a1 a2 a3
  unfold holdArea
  repeat' (first
    | (with_reducible apply Keeps.ite)
    | with_reducible exact Keeps.refl _ _
    | with_reducible assumption
    | (with_reducible apply Keeps.then (putArea_keeps ..) ?_ (by decide))
    | (with_reducible apply Keeps.foldl)
    | (with_reducible apply Keeps.foldl_snd)
    | (with_reducible refine Keeps.snd (by assumption) ?_)
    | (with_reducible refine Keeps.fst (by assumption) ?_)
    | (with_reducible fail_if_no_progress (apply Keeps.set_areas ?_ (by decide)))
    | intro _
    | dsimp only
    | split)

theorem Keeps.reading {l : List Field} {s t : State} {e order : Nat} {w : CW} {rds : List Rd} {k : State → State} (h : Keeps l s t)
    (hl : ∀ f ∈ [.uniBad, .cores, .mports, .tiers, .ces, .hps, .tallies], f ∈ l) (hk : ∀ u, Keeps l u (k u)) : Keeps l s (reading t e order w rds k) := by
  have hr : Keeps l s (rdsTouch (ceBy e w.r.ctx) t rds) := h.step ((rdsTouch_keeps ..).mono (m := [.uniBad, .cores, .mports, .tiers, .ces, .hps, .tallies]) (by decide)) hl
  unfold Machine.reading
  dsimp only
  split
  · exact hr.step ((breakColl_keeps ..).mono (m := [.uniBad, .cores, .mports, .tiers, .ces, .hps, .tallies]) (by decide)) hl
  · exact hr.trans (hk _)

theorem Keeps.writing {l : List Field} {s t : State} {e order : Nat} {w : CW} {ws : List Wr} {k : State → State} (h : Keeps l s t)
    (hl : ∀ f ∈ [.uni, .uniBad, .host, .cores, .ctxs, .mports, .tiers, .ces, .hps, .tallies], f ∈ l) (hk : ∀ u, Keeps l u (k u)) : Keeps l s (writing t e order w ws k) := by
  have hr : Keeps l s (applyWrs (ceBy e w.r.ctx) t (coalesce (upToFault t ws).1)) := h.step ((applyWrs_keeps ..).mono (m := [.uni, .uniBad, .host, .cores, .ctxs, .mports, .tiers, .ces, .hps, .tallies]) (by decide)) hl
  unfold Machine.writing
  dsimp only
  split
  · exact hr.step ((breakColl_keeps ..).mono (m := [.uni, .uniBad, .host, .cores, .ctxs, .mports, .tiers, .ces, .hps, .tallies]) (by decide)) hl
  · exact hr.trans (hk _)

theorem sendBlock_keeps : ∀ s a1 a2 a3 a4 a5 a6 a7 a8, Keeps [.cores, .oports, .accesses, .nextTag, .paths, .ces] s (sendBlock s a1 a2 a3 a4 a5 a6 a7 a8) := by
  intro s a1 a2 a3 a4 a5 a6 a7 a8
  unfold sendBlock
  repeat' (first
    | (with_reducible apply Keeps.ite)
    | with_reducible exact Keeps.refl _ _
    | with_reducible assumption
    | (with_reducible apply Keeps.then (request_keeps ..) ?_ (by decide))
    | (with_reducible apply Keeps.foldl)
    | (with_reducible apply Keeps.foldl_snd)
    | (with_reducible refine Keeps.snd (by assumption) ?_)
    | (with_reducible refine Keeps.fst (by assumption) ?_)
    | intro _)

theorem sendGather_keeps : ∀ s a1 a2 a3, Keeps [.uni, .uniBad, .host, .cores, .ctxs, .mports, .tiers, .oports, .accesses, .nextTag, .paths, .ces, .hps, .tallies] s (sendGather s a1 a2 a3) := by
  intro s a1 a2 a3
  unfold sendGather
  repeat' (first
    | (with_reducible apply Keeps.ite)
    | with_reducible exact Keeps.refl _ _
    | with_reducible assumption
    | (with_reducible apply Keeps.reading ?_ (by decide))
    | (with_reducible apply Keeps.writing ?_ (by decide))
    | (with_reducible apply Keeps.then (sendBlock_keeps ..) ?_ (by decide))
    | (with_reducible apply Keeps.foldl)
    | (with_reducible apply Keeps.foldl_snd)
    | (with_reducible refine Keeps.snd (by assumption) ?_)
    | (with_reducible refine Keeps.fst (by assumption) ?_)
    | intro _
    | dsimp only
    | split)

theorem sendPermute_keeps : ∀ s a1 a2 a3, Keeps [.uni, .uniBad, .host, .cores, .ctxs, .mports, .tiers, .oports, .accesses, .nextTag, .paths, .ces, .hps, .tallies] s (sendPermute s a1 a2 a3) := by
  intro s a1 a2 a3
  unfold sendPermute
  repeat' (first
    | (with_reducible apply Keeps.ite)
    | with_reducible exact Keeps.refl _ _
    | with_reducible assumption
    | (with_reducible apply Keeps.reading ?_ (by decide))
    | (with_reducible apply Keeps.writing ?_ (by decide))
    | (with_reducible apply Keeps.then (sendBlock_keeps ..) ?_ (by decide))
    | (with_reducible apply Keeps.foldl)
    | (with_reducible apply Keeps.foldl_snd)
    | (with_reducible refine Keeps.snd (by assumption) ?_)
    | (with_reducible refine Keeps.fst (by assumption) ?_)
    | intro _)

theorem runSettle_keeps : ∀ s a1 a2 a3, Keeps [.uni, .uniBad, .host, .cores, .ctxs, .mports, .tiers, .ces, .areas, .hps, .tallies, .hub2] s (runSettle s a1 a2 a3) := by
  intro s a1 a2 a3
  unfold runSettle
  repeat' (first
    | (with_reducible apply Keeps.ite)
    | with_reducible exact Keeps.refl _ _
    | with_reducible assumption
    | (with_reducible apply Keeps.then (finishColl_keeps ..) ?_ (by decide))
    | (with_reducible apply Keeps.then (closeArea_keeps ..) ?_ (by decide))
    | (with_reducible apply Keeps.reading ?_ (by decide))
    | (with_reducible apply Keeps.writing ?_ (by decide))
    | (with_reducible apply Keeps.then (journal_keeps ..) ?_ (by decide))
    | (with_reducible apply Keeps.then (countFates_keeps ..) ?_ (by decide))
    | (with_reducible apply Keeps.then (State.modCtx_keeps ..) ?_ (by decide))
    | (with_reducible apply Keeps.then (modColl_keeps ..) ?_ (by decide))
    | (with_reducible apply Keeps.foldl)
    | (with_reducible apply Keeps.foldl_snd)
    | (with_reducible refine Keeps.snd (by assumption) ?_)
    | (with_reducible refine Keeps.fst (by assumption) ?_)
    | intro _
    | dsimp only
    | split)

theorem startNorm_keeps : ∀ s a1 a2 a3, Keeps [.uni, .uniBad, .host, .cores, .ctxs, .mports, .tiers, .oports, .accesses, .nextTag, .paths, .ces, .hps, .tallies] s (startNorm s a1 a2 a3) := by
  intro s a1 a2 a3
  unfold startNorm
  repeat' (first
    | (with_reducible apply Keeps.ite)
    | with_reducible exact Keeps.refl _ _
    | with_reducible assumption
    | (with_reducible apply Keeps.reading ?_ (by decide))
    | (with_reducible apply Keeps.then (modColl_keeps ..) ?_ (by decide))
    | (with_reducible apply Keeps.writing ?_ (by decide))
    | (with_reducible apply Keeps.then (sendBlock_keeps ..) ?_ (by decide))
    | (with_reducible apply Keeps.foldl)
    | (with_reducible apply Keeps.foldl_snd)
    | (with_reducible refine Keeps.snd (by assumption) ?_)
    | (with_reducible refine Keeps.fst (by assumption) ?_)
    | intro _)

theorem sendContrib_keeps : ∀ s a1 a2 a3, Keeps [.uniBad, .cores, .mports, .tiers, .oports, .accesses, .nextTag, .paths, .ces, .hps, .tallies] s (sendContrib s a1 a2 a3) := by
  intro s a1 a2 a3
  unfold sendContrib
  repeat' (first
    | (with_reducible apply Keeps.ite)
    | with_reducible exact Keeps.refl _ _
    | with_reducible assumption
    | (with_reducible apply Keeps.reading ?_ (by decide))
    | (with_reducible apply Keeps.then (sendBlock_keeps ..) ?_ (by decide))
    | (with_reducible apply Keeps.foldl)
    | (with_reducible apply Keeps.foldl_snd)
    | (with_reducible refine Keeps.snd (by assumption) ?_)
    | (with_reducible refine Keeps.fst (by assumption) ?_)
    | intro _
    | dsimp only
    | split)

theorem startColl_keeps : ∀ s a1 a2, Keeps [.uni, .uniBad, .host, .cores, .ctxs, .mports, .tiers, .oports, .accesses, .nextTag, .paths, .ces, .areas, .hps, .tallies, .hub2] s (startColl s a1 a2) := by
  intro s a1 a2
  unfold startColl
  repeat' (first
    | (with_reducible apply Keeps.ite)
    | with_reducible exact Keeps.refl _ _
    | with_reducible assumption
    | (with_reducible apply Keeps.then (State.modCe_keeps ..) ?_ (by decide))
    | (with_reducible apply Keeps.then (collReport_keeps ..) ?_ (by decide))
    | (with_reducible apply Keeps.then (devTouch_keeps ..) ?_ (by decide))
    | (with_reducible apply Keeps.then (holdArea_keeps ..) ?_ (by decide))
    | (with_reducible apply Keeps.then (sendGather_keeps ..) ?_ (by decide))
    | (with_reducible apply Keeps.then (sendPermute_keeps ..) ?_ (by decide))
    | (with_reducible apply Keeps.then (runSettle_keeps ..) ?_ (by decide))
    | (with_reducible apply Keeps.then (startNorm_keeps ..) ?_ (by decide))
    | (with_reducible apply Keeps.then (sendContrib_keeps ..) ?_ (by decide))
    | (with_reducible apply Keeps.then (modColl_keeps ..) ?_ (by decide))
    | (with_reducible apply Keeps.then (finishColl_keeps ..) ?_ (by decide))
    | (with_reducible apply Keeps.then (settleEngine_keeps ..) ?_ (by decide))
    | (with_reducible apply Keeps.foldl)
    | (with_reducible apply Keeps.foldl_snd)
    | (with_reducible refine Keeps.snd (by assumption) ?_)
    | (with_reducible refine Keeps.fst (by assumption) ?_)
    | (with_reducible fail_if_no_progress (apply Keeps.set_hub2 ?_ (by decide)))
    | intro _
    | dsimp only
    | split)

theorem execReduce_keeps : ∀ a0 s, Gives [.uni, .uniBad, .host, .cores, .ctxs, .mports, .tiers, .oports, .accesses, .nextTag, .paths, .ces, .areas, .hps, .tallies, .hub2] s (execReduce a0 s) := by
  intro a0 s
  unfold execReduce
  repeat' (first
    | (with_reducible apply Gives.ite)
    | (with_reducible apply Keeps.ite)
    | with_reducible exact Keeps.refl _ _
    | with_reducible assumption
    | (with_reducible apply Keeps.then (startColl_keeps ..) ?_ (by decide))
    | (with_reducible apply Gives.next))

theorem execAllgather_keeps : ∀ a0 s, Gives [.uni, .uniBad, .host, .cores, .ctxs, .mports, .tiers, .oports, .accesses, .nextTag, .paths, .ces, .areas, .hps, .tallies, .hub2] s (execAllgather a0 s) := by
  intro a0 s
  unfold execAllgather
  repeat' (first
    | (with_reducible apply Gives.ite)
    | (with_reducible apply Keeps.ite)
    | with_reducible exact Keeps.refl _ _
    | with_reducible assumption
    | (with_reducible apply Keeps.then (startColl_keeps ..) ?_ (by decide))
    | (with_reducible apply Gives.next))

theorem execAllreduce_keeps : ∀ a0 s, Gives [.uni, .uniBad, .host, .cores, .ctxs, .mports, .tiers, .oports, .accesses, .nextTag, .paths, .ces, .areas, .hps, .tallies, .hub2] s (execAllreduce a0 s) := by
  intro a0 s
  unfold execAllreduce
  repeat' (first
    | (with_reducible apply Gives.ite)
    | (with_reducible apply Keeps.ite)
    | with_reducible exact Keeps.refl _ _
    | with_reducible assumption
    | (with_reducible apply Keeps.then (startColl_keeps ..) ?_ (by decide))
    | (with_reducible apply Gives.next))

theorem execPermute_keeps : ∀ a0 s, Gives [.uni, .uniBad, .host, .cores, .ctxs, .mports, .tiers, .oports, .accesses, .nextTag, .paths, .ces, .areas, .hps, .tallies, .hub2] s (execPermute a0 s) := by
  intro a0 s
  unfold execPermute
  repeat' (first
    | (with_reducible apply Gives.ite)
    | (with_reducible apply Keeps.ite)
    | with_reducible exact Keeps.refl _ _
    | with_reducible assumption
    | (with_reducible apply Keeps.then (startColl_keeps ..) ?_ (by decide))
    | (with_reducible apply Gives.next))

theorem execPermuteWritePhase_keeps : ∀ a0 a1 s, Gives [.uni, .uniBad, .host, .cores, .ctxs, .mports, .tiers, .ces, .hps, .tallies, .hub2] s (execPermuteWritePhase a0 a1 s) := by
  intro a0 a1 s
  unfold execPermuteWritePhase
  repeat' (first
    | (with_reducible apply Gives.ite)
    | (with_reducible apply Keeps.ite)
    | with_reducible exact Keeps.refl _ _
    | with_reducible assumption
    | (with_reducible apply Keeps.then (settleEngine_keeps ..) ?_ (by decide))
    | (with_reducible apply Keeps.then (finishColl_keeps ..) ?_ (by decide))
    | (with_reducible apply Keeps.then (rdsTouch_keeps ..) ?_ (by decide))
    | (with_reducible apply Keeps.then (permuteCut_keeps ..) ?_ (by decide))
    | (with_reducible apply Keeps.then (breakColl_keeps ..) ?_ (by decide))
    | (with_reducible apply Keeps.then (modColl_keeps ..) ?_ (by decide))
    | (with_reducible apply Keeps.writing ?_ (by decide))
    | (with_reducible apply Gives.next)
    | (with_reducible apply Keeps.foldl)
    | (with_reducible apply Keeps.foldl_snd)
    | (with_reducible refine Keeps.snd (by assumption) ?_)
    | (with_reducible refine Keeps.fst (by assumption) ?_)
    | intro _
    | dsimp only
    | split)

theorem execSettle_keeps : ∀ a0 s, Gives [.uni, .uniBad, .host, .cores, .ctxs, .mports, .tiers, .oports, .accesses, .nextTag, .paths, .ces, .areas, .hps, .tallies, .hub2] s (execSettle a0 s) := by
  intro a0 s
  unfold execSettle
  repeat' (first
    | (with_reducible apply Gives.ite)
    | (with_reducible apply Keeps.ite)
    | with_reducible exact Keeps.refl _ _
    | with_reducible assumption
    | (with_reducible apply Keeps.then (startColl_keeps ..) ?_ (by decide))
    | (with_reducible apply Gives.next))

theorem execNormfin_keeps : ∀ a0 s, Gives [.uni, .uniBad, .host, .cores, .ctxs, .mports, .tiers, .oports, .accesses, .nextTag, .paths, .ces, .areas, .hps, .tallies, .hub2] s (execNormfin a0 s) := by
  intro a0 s
  unfold execNormfin
  repeat' (first
    | (with_reducible apply Gives.ite)
    | (with_reducible apply Keeps.ite)
    | with_reducible exact Keeps.refl _ _
    | with_reducible assumption
    | (with_reducible apply Keeps.then (startColl_keeps ..) ?_ (by decide))
    | (with_reducible apply Gives.next))

theorem execNormfinReduce_keeps : ∀ a0 a1 s, Gives [.uni, .uniBad, .host, .cores, .ctxs, .mports, .tiers, .ces, .hps, .tallies, .hub2] s (execNormfinReduce a0 a1 s) := by
  intro a0 a1 s
  unfold execNormfinReduce
  repeat' (first
    | (with_reducible apply Gives.ite)
    | (with_reducible apply Keeps.ite)
    | with_reducible exact Keeps.refl _ _
    | with_reducible assumption
    | (with_reducible apply Keeps.then (settleEngine_keeps ..) ?_ (by decide))
    | (with_reducible apply Keeps.reading ?_ (by decide))
    | (with_reducible apply Keeps.writing ?_ (by decide))
    | (with_reducible apply Keeps.then (finishColl_keeps ..) ?_ (by decide))
    | (with_reducible apply Gives.next)
    | (with_reducible apply Keeps.foldl)
    | (with_reducible apply Keeps.foldl_snd)
    | (with_reducible refine Keeps.snd (by assumption) ?_)
    | (with_reducible refine Keeps.fst (by assumption) ?_)
    | intro _
    | dsimp only
    | split)

theorem sumFates_keeps : ∀ s a1 a2 a3 a4 a5, Keeps [.uni, .uniBad, .host, .cores, .ctxs, .mports, .tiers, .ces, .areas, .hps, .tallies] s (sumFates s a1 a2 a3 a4 a5) := by
  intro s a1 a2 a3 a4 a5
  unfold sumFates
  repeat' (first
    | (with_reducible apply Keeps.ite)
    | with_reducible exact Keeps.refl _ _
    | with_reducible assumption
    | (with_reducible apply Keeps.then (journal_keeps ..) ?_ (by decide))
    | (with_reducible apply Keeps.then (countFates_keeps ..) ?_ (by decide))
    | (with_reducible apply Keeps.then (State.modCtx_keeps ..) ?_ (by decide))
    | (with_reducible apply Keeps.then (putArea_keeps ..) ?_ (by decide))
    | (with_reducible apply Keeps.foldl)
    | (with_reducible apply Keeps.foldl_snd)
    | (with_reducible refine Keeps.snd (by assumption) ?_)
    | (with_reducible refine Keeps.fst (by assumption) ?_)
    | intro _
    | dsimp only
    | split)

theorem runSum_keeps : ∀ s a1 a2 a3 a4, Keeps [.uni, .uniBad, .host, .cores, .ctxs, .mports, .tiers, .oports, .accesses, .nextTag, .paths, .ces, .areas, .hps, .tallies] s (runSum s a1 a2 a3 a4) := by
  intro s a1 a2 a3 a4
  unfold runSum
  repeat' (first
    | (with_reducible apply Keeps.ite)
    | with_reducible exact Keeps.refl _ _
    | with_reducible assumption
    | (with_reducible apply Keeps.reading ?_ (by decide))
    | (with_reducible apply Keeps.writing ?_ (by decide))
    | (with_reducible apply Keeps.then (sumFates_keeps ..) ?_ (by decide))
    | (with_reducible apply Keeps.then (modColl_keeps ..) ?_ (by decide))
    | (with_reducible apply Keeps.then (sendGather_keeps ..) ?_ (by decide))
    | (with_reducible apply Keeps.then (finishColl_keeps ..) ?_ (by decide))
    | (with_reducible apply Keeps.foldl)
    | (with_reducible apply Keeps.foldl_snd)
    | (with_reducible refine Keeps.snd (by assumption) ?_)
    | (with_reducible refine Keeps.fst (by assumption) ?_)
    | intro _)

theorem waitTimedOut_keeps : ∀ s a1, Keeps [.areas] s (waitTimedOut s a1) := by
  intro s a1
  unfold waitTimedOut
  repeat' (first
    | (with_reducible apply Keeps.ite)
    | with_reducible exact Keeps.refl _ _
    | with_reducible assumption
    | (with_reducible apply Keeps.then (putArea_keeps ..) ?_ (by decide))
    | (with_reducible apply Keeps.foldl)
    | (with_reducible apply Keeps.foldl_snd)
    | (with_reducible refine Keeps.snd (by assumption) ?_)
    | (with_reducible refine Keeps.fst (by assumption) ?_)
    | intro _
    | dsimp only
    | split)

theorem execSumBegin_keeps : ∀ a0 a1 s, Gives [.uni, .uniBad, .host, .cores, .ctxs, .mports, .tiers, .oports, .accesses, .nextTag, .paths, .ces, .areas, .hps, .tallies, .hub2] s (execSumBegin a0 a1 s) := by
  intro a0 a1 s
  unfold execSumBegin
  repeat' (first
    | (with_reducible apply Gives.ite)
    | (with_reducible apply Keeps.ite)
    | with_reducible exact Keeps.refl _ _
    | with_reducible assumption
    | (with_reducible apply Keeps.then (settleEngine_keeps ..) ?_ (by decide))
    | (with_reducible apply Keeps.then (runSum_keeps ..) ?_ (by decide))
    | (with_reducible apply Keeps.then (finishColl_keeps ..) ?_ (by decide))
    | (with_reducible apply Keeps.then (waitTimedOut_keeps ..) ?_ (by decide))
    | (with_reducible apply Gives.next)
    | (with_reducible apply Keeps.foldl)
    | (with_reducible apply Keeps.foldl_snd)
    | (with_reducible refine Keeps.snd (by assumption) ?_)
    | (with_reducible refine Keeps.fst (by assumption) ?_)
    | intro _
    | dsimp only
    | split)

theorem execCollectiveTimeout_keeps : ∀ a0 a1 s, Gives [.uni, .uniBad, .host, .cores, .ctxs, .mports, .tiers, .ces, .hps, .tallies, .hub2] s (execCollectiveTimeout a0 a1 s) := by
  intro a0 a1 s
  unfold execCollectiveTimeout
  repeat' (first
    | (with_reducible apply Gives.ite)
    | (with_reducible apply Keeps.ite)
    | with_reducible exact Keeps.refl _ _
    | with_reducible assumption
    | (with_reducible apply Keeps.then (settleEngine_keeps ..) ?_ (by decide))
    | (with_reducible apply Keeps.then (finishColl_keeps ..) ?_ (by decide))
    | (with_reducible apply Gives.next)
    | (with_reducible apply Keeps.foldl)
    | (with_reducible apply Keeps.foldl_snd)
    | (with_reducible refine Keeps.snd (by assumption) ?_)
    | (with_reducible refine Keeps.fst (by assumption) ?_)
    | intro _
    | dsimp only
    | split)

theorem putColl_keeps : ∀ s a1 a2, Keeps [.ces] s (putColl s a1 a2) := by
  intro s a1 a2
  unfold putColl
  repeat' (first
    | (with_reducible apply Keeps.ite)
    | with_reducible exact Keeps.refl _ _
    | with_reducible assumption
    | (with_reducible apply Keeps.then (State.modCe_keeps ..) ?_ (by decide)))

end Sys2Proof.Machine
end

