-- ==== Sys2Proof/Laws/CollectiveState.lean ====
section
/-! SUPPORT. What the work of a collective engine leaves of the engines' queues, of the records in flight and of the landing areas: records leave, or
leave their waiting, and nothing else comes of them. -/

namespace Sys2Proof.Machine

open Sys2Proof

/-- From `s` to `t` only engine `e` moves: every queue stands, completion order does not run back, no landing area goes, and its records in flight keep their phase or are no
longer waiting. -/
structure CollStay (e : Nat) (s t : State) : Prop where
  queue : ∀ d, (t.ce d).queue = (s.ce d).queue
  order : s.hub2.order ≤ t.hub2.order
  areas : ∀ a ∈ s.areas, ∃ b ∈ t.areas, b.land = a.land ∧ b.ctx = a.ctx
  others : ∀ d, d ≠ e → (t.ce d).inflight = (s.ce d).inflight
  phase : ∀ x ∈ (t.ce e).inflight, ∃ y ∈ (s.ce e).inflight, x.order = y.order ∧ (x.phase = y.phase ∨ x.phase ≠ .waiting)

theorem CollStay.refl (e : Nat) (s : State) : CollStay e s s :=
  ⟨fun _ => rfl, Nat.le_refl _, fun a h => ⟨a, h, rfl, rfl⟩, fun _ _ => rfl, fun x h => ⟨x, h, rfl, Or.inl rfl⟩⟩

theorem CollStay.trans {e : Nat} {s t u : State} (h : CollStay e s t) (g : CollStay e t u) : CollStay e s u := by
  refine ⟨fun d => (g.queue d).trans (h.queue d), Nat.le_trans h.order g.order, fun a ha => ?_, fun d hd => (g.others d hd).trans (h.others d hd), fun x hx => ?_⟩
  · obtain ⟨b, hb, h1, h2⟩ := h.areas a ha
    obtain ⟨c, hc, h3, h4⟩ := g.areas b hb
    exact ⟨c, hc, h3.trans h1, h4.trans h2⟩
  · obtain ⟨y, hy, h1, h2⟩ := g.phase x hx
    obtain ⟨z, hz, h3, h4⟩ := h.phase y hy
    refine ⟨z, hz, h1.trans h3, ?_⟩
    rcases h2 with h2 | h2
    · rcases h4 with h4 | h4
      · exact Or.inl (h2.trans h4)
      · exact Or.inr (by rw [h2]; exact h4)
    · exact Or.inr h2

theorem CollStay.foldl {e : Nat} {α : Type} {f : State → α → State} (hf : ∀ s x, CollStay e s (f s x)) (l : List α) (s : State) : CollStay e s (l.foldl f s) := by
  induction l generalizing s with
  | nil => exact CollStay.refl e s
  | cons x l ih => exact (hf s x).trans (ih _)

theorem CollStay.of {e : Nat} {s t : State} (h1 : t.ces = s.ces) (h2 : t.areas = s.areas) (h3 : s.hub2.order ≤ t.hub2.order) : CollStay e s t := by
  have hc : ∀ d, t.ce d = s.ce d := fun d => by unfold State.ce; rw [h1]
  exact ⟨fun d => by rw [hc], h3, fun a h => ⟨a, by rw [h2]; exact h, rfl, rfl⟩, fun d _ => by rw [hc], fun x h => ⟨x, by rw [← hc]; exact h, rfl, Or.inl rfl⟩⟩

/-- An operation on other parts of the state. -/
theorem Keeps.collStay {l : List Field} {e : Nat} {s t : State} (h : Keeps l s t) (h1 : Field.ces ∉ l) (h2 : Field.areas ∉ l) (h3 : Field.hub2 ∉ l) : CollStay e s t :=
  CollStay.of (h.only.2 .ces h1) (h.only.2 .areas h2) (by rw [show t.hub2 = s.hub2 from h.only.2 .hub2 h3])

theorem CollStay.modCe {e : Nat} {s : State} {f : CEngine → CEngine} (hq : (f (s.ce e)).queue = (s.ce e).queue)
    (hi : ∀ x ∈ (f (s.ce e)).inflight, ∃ y ∈ (s.ce e).inflight, x.order = y.order ∧ (x.phase = y.phase ∨ x.phase ≠ .waiting)) : CollStay e s (s.modCe e f) := by
  refine ⟨fun d => ?_, Nat.le_refl _, fun a h => ⟨a, h, rfl, rfl⟩, fun d hd => by rw [State.modCe_get_ce_ne _ _ _ _ hd], fun x hx => ?_⟩
  · rw [State.modCe_get_ce]
    split
    · next h => subst h; exact hq
    · rfl
  · rw [State.modCe_get_ce_self] at hx
    exact hi x hx

theorem CollStay.modCe_map {e : Nat} {s : State} {g : Coll → Coll} (hg : ∀ y, (g y).order = y.order ∧ ((g y).phase = y.phase ∨ (g y).phase ≠ .waiting)) :
    CollStay e s (s.modCe e (fun c => { c with inflight := c.inflight.map g })) := by
  refine CollStay.modCe rfl (fun x hx => ?_)
  obtain ⟨y, hy, rfl⟩ := List.mem_map.mp hx
  exact ⟨y, hy, (hg y).1, (hg y).2⟩

theorem countFates_stay (s : State) (e a b c : Nat) : CollStay e s (countFates s e a b c) :=
  CollStay.modCe (f := fun x => { x with missed := stick x.missed a, carried := stick x.carried b, dropped := stick x.dropped c }) rfl (fun x h => ⟨x, h, rfl, Or.inl rfl⟩)

theorem journal_stay (e : Nat) (s : State) (z a b c d f g h : Nat) : CollStay e s (journal s z a b c d f g h) :=
  (journal_keeps ..).collStay (by decide) (by decide) (by decide)

theorem modColl_stay (s : State) (e o : Nat) (f : Coll → Coll) (hf : ∀ y, (f y).order = y.order ∧ ((f y).phase = y.phase ∨ (f y).phase ≠ .waiting)) : CollStay e s (modColl s e o f) := by
  refine CollStay.modCe_map (fun y => ?_)
  split
  · exact hf y
  · exact ⟨rfl, Or.inl rfl⟩

theorem finishColl_stay (s : State) (e o : Nat) (l : List Status) : CollStay e s (finishColl s e o l) :=
  modColl_stay _ _ _ _ (fun _ => ⟨rfl, Or.inr (by simp)⟩)

theorem rdsTouch_stay (d : Nat) (b : By) (s : State) (l : List Rd) : CollStay d s (rdsTouch b s l) :=
  (rdsTouch_keeps ..).collStay (by decide) (by decide) (by decide)

theorem applyWrs_stay (d : Nat) (b : By) (s : State) (l : List Wr) : CollStay d s (applyWrs b s l) :=
  (applyWrs_keeps ..).collStay (by decide) (by decide) (by decide)

/-- A record that meets a fault: from a state that follows `s` without it, its finish. -/
theorem breakColl_then (s : State) (e o : Nat) (f : MemFault) : ∃ u l, CollStay e s u ∧ breakColl s e o f = finishColl u e o l := by
  unfold breakColl
  split
  · exact ⟨_, _, modColl_stay s e o (fun x => { x with ecc := x.ecc.or _ }) (fun _ => ⟨rfl, Or.inl rfl⟩), rfl⟩
  · exact ⟨s, _, CollStay.refl .., rfl⟩

theorem breakColl_stay (s : State) (e o : Nat) (f : MemFault) : CollStay e s (breakColl s e o f) := by
  obtain ⟨u, l, h, g⟩ := breakColl_then s e o f
  rw [g]
  exact h.trans (finishColl_stay ..)

/-- What a record's reads come to: what follows them, from a state in which only they have been made, or its finish by a fault. -/
theorem reading_then (s : State) (e o : Nat) (w : CW) (l : List Rd) (k : State → State) : ∃ t, CollStay e s t ∧
    (reading s e o w l k = k t ∨ ∃ q, reading s e o w l k = finishColl t e o q) := by
  unfold reading
  dsimp only
  split
  · obtain ⟨u, q, h, g⟩ := breakColl_then (rdsTouch (ceBy e w.r.ctx) s l) e o ‹_›
    exact ⟨u, (rdsTouch_stay ..).trans h, Or.inr ⟨q, g⟩⟩
  · exact ⟨_, rdsTouch_stay .., Or.inl rfl⟩

/-- The same of its writes. -/
theorem writing_then (s : State) (e o : Nat) (w : CW) (l : List Wr) (k : State → State) : ∃ t, CollStay e s t ∧
    (writing s e o w l k = k t ∨ ∃ q, writing s e o w l k = finishColl t e o q) := by
  unfold writing
  dsimp only
  split
  · obtain ⟨u, q, h, g⟩ := breakColl_then (applyWrs (ceBy e w.r.ctx) s (coalesce (upToFault s l).1)) e o ‹_›
    exact ⟨u, (applyWrs_stay ..).trans h, Or.inr ⟨q, g⟩⟩
  · exact ⟨_, applyWrs_stay .., Or.inl rfl⟩

theorem reading_stay {s : State} {e o : Nat} {w : CW} {l : List Rd} {k : State → State} (h : ∀ t, CollStay e t (k t)) : CollStay e s (reading s e o w l k) := by
  obtain ⟨t, ht, g | ⟨q, g⟩⟩ := reading_then s e o w l k
  · rw [g]; exact ht.trans (h t)
  · rw [g]; exact ht.trans (finishColl_stay ..)

theorem writing_stay {s : State} {e o : Nat} {w : CW} {l : List Wr} {k : State → State} (h : ∀ t, CollStay e t (k t)) : CollStay e s (writing s e o w l k) := by
  obtain ⟨t, ht, g | ⟨q, g⟩⟩ := writing_then s e o w l k
  · rw [g]; exact ht.trans (h t)
  · rw [g]; exact ht.trans (finishColl_stay ..)

theorem sendPkt_stay (e : Nat) (s : State) (l : List Sect) (r : Nat) (k : FabPkt) : CollStay e s ((sendPkt s l r k).getD s) := by
  cases h : sendPkt s l r k with
  | none => exact CollStay.refl ..
  | some t => exact (sendPkt_keeps _ _ _ _ _ h).collStay (by decide) (by decide) (by decide)

theorem request_stay (e : Nat) (s : State) (l : List Sect) (q : ReqArg) (h : q.unit = ceUnit e) : CollStay e s (request s l q) := by
  unfold request
  dsimp only
  split
  · unfold ownerStatus
    dsimp only
    rw [h, if_neg (by unfold ceUnit; omega), show (ceUnit e - 0x440) / 4 = e by unfold ceUnit; omega]
    refine CollStay.modCe_map (fun y => ?_)
    split
    · exact ⟨rfl, Or.inl rfl⟩
    · exact ⟨rfl, Or.inl rfl⟩
  · next u hu =>
    refine CollStay.trans ?_ (sendPkt_stay ..)
    exact CollStay.of rfl rfl (Nat.le_refl _)

theorem sendBlock_stay (s : State) (e : Nat) (w : CW) (o k a v : Nat) (d : List (Nat × List Byte)) (b : Bool) : CollStay e s (sendBlock s e w o k a v d b) := by
  unfold sendBlock
  dsimp only
  split
  · split
    · exact request_stay _ _ _ _ rfl
    · exact CollStay.refl ..
  · exact CollStay.foldl (fun s x => request_stay e s w.l _ rfl) _ _

theorem sendGather_stay (s : State) (e o : Nat) (w : CW) : CollStay e s (sendGather s e o w) := by
  unfold sendGather
  split
  · exact CollStay.refl ..
  · exact reading_stay (fun _ => writing_stay (fun _ => CollStay.foldl (fun s x => sendBlock_stay ..) _ _))

theorem sendPermute_stay (s : State) (e o : Nat) (w : CW) : CollStay e s (sendPermute s e o w) := by
  unfold sendPermute
  split
  · exact CollStay.refl ..
  · exact reading_stay (fun _ => writing_stay (fun _ => CollStay.foldl (fun s x => sendBlock_stay ..) _ _))

theorem startNorm_stay (s : State) (e o : Nat) (w : CW) : CollStay e s (startNorm s e o w) := by
  unfold startNorm
  refine reading_stay (fun t => ?_)
  refine CollStay.trans (modColl_stay t e o (fun x => { x with stale := (normSum t w.c).2 }) (fun _ => ⟨rfl, Or.inl rfl⟩)) ?_
  exact writing_stay (fun _ => CollStay.foldl (fun s x => sendBlock_stay ..) _ _)

theorem sendContrib_stay (s : State) (e o : Nat) (w : CW) : CollStay e s (sendContrib s e o w) := by
  unfold sendContrib
  refine CollStay.foldl (fun s x => ?_) _ _
  split
  · exact CollStay.refl ..
  · split
    · exact CollStay.refl ..
    · exact reading_stay (fun _ => sendBlock_stay ..)

theorem putArea_stay (e : Nat) (s : State) (a : Area) : CollStay e s (putArea s a) := by
  refine ⟨fun _ => rfl, Nat.le_refl _, fun b hb => ?_, fun _ _ => rfl, fun x h => ⟨x, h, rfl, Or.inl rfl⟩⟩
  refine ⟨_, List.mem_map.mpr ⟨b, hb, rfl⟩, ?_⟩
  split
  · next h => simp only [Bool.and_eq_true, decide_eq_true_eq] at h; exact ⟨h.1.symm, h.2.symm⟩
  · exact ⟨rfl, rfl⟩

theorem countSat_stay (e : Nat) (s : State) (u c sat nan : Nat) : CollStay e s (countSat s u c sat nan) := by
  have h : ∀ (s : State) (o : Nat) (a n k : Nat), CollStay e s (post { (ctxCount s c a n) with hub2 := { s.hub2 with ctr := ctrAdd s.hub2.ctr o n } } u c k (min n (2 ^ 32 - 1))) := fun s o a n k =>
    CollStay.of ((ctxCount_keeps s c a n).only.2 .ces (by decide)) ((ctxCount_keeps s c a n).only.2 .areas (by decide)) (Nat.le_refl _)
  unfold countSat
  have h1 : CollStay e s (if sat = 0 then s else post { (ctxCount s c 0x100 sat) with hub2 := { s.hub2 with ctr := ctrAdd s.hub2.ctr 0 sat } } u c 0x030 (min sat (2 ^ 32 - 1))) := by
    split
    · exact CollStay.refl ..
    · exact h ..
  dsimp only
  split
  · exact h1
  · exact h1.trans (h ..)

theorem ctx_stay (e : Nat) (s : State) (c : Nat) (f : Ctx → Ctx) : CollStay e s (s.modCtx c f) := CollStay.of rfl rfl (Nat.le_refl _)

theorem ctxIf_stay (e : Nat) (s : State) (p : Prop) [Decidable p] (c : Nat) (f : Ctx → Ctx) : CollStay e s (if p then s else s.modCtx c f) := by
  split
  · exact CollStay.refl ..
  · exact ctx_stay ..

theorem endColl_stay (s : State) (e : Nat) (x : Coll) (l : List Status) : CollStay e s (endColl s e x l) := by
  unfold endColl
  dsimp only
  refine CollStay.trans ?_ ((collReport_keeps ..).collStay (by decide) (by decide) (by decide))
  have h1 : CollStay e s (s.modCe e (fun c => { c with inflight := c.inflight.filter (fun y => y.order != x.order) })) :=
    CollStay.modCe rfl (fun y hy => ⟨y, (List.mem_filter.mp hy).1, rfl, Or.inl rfl⟩)
  exact h1.trans (countSat_stay e _ (uOport (4 * e)) x.rec'.ctx x.sat x.nan)

theorem settleEngine_stay (s : State) (e : Nat) : CollStay e s (settleEngine s e) := by
  unfold settleEngine
  dsimp only
  refine CollStay.trans (CollStay.foldl (fun s x => ?_) _ s) (CollStay.foldl (fun s x => ?_) _ _)
  · split
    · exact finishColl_stay ..
    · exact CollStay.refl ..
  · split
    · exact endColl_stay ..
    · exact CollStay.refl ..

theorem closeArea_stay (e : Nat) (s : State) (w : CW) : CollStay e s (closeArea s w) := by
  unfold closeArea
  split
  · have h1 : CollStay e s { s with hub2 := { s.hub2 with order := s.hub2.order + 1 } } := CollStay.of rfl rfl (Nat.le_succ _)
    exact h1.trans (putArea_stay ..)
  · exact CollStay.refl ..

theorem sumFates_stay (s : State) (e : Nat) (w : CW) (x : SumSets) (l : List Nat) (d : Nat × List Nat) : CollStay e s (sumFates s e w x l d) := by
  unfold sumFates
  dsimp only
  generalize hv : (if x.carried = [] then _ else _ : State) = v
  have h1 : CollStay e s v := by
    rw [← hv]
    exact (CollStay.foldl (fun s x => journal_stay ..) _ _).trans ((CollStay.foldl (fun s x => journal_stay ..) _ _).trans
      ((CollStay.foldl (fun s x => journal_stay ..) _ _).trans ((countFates_stay ..).trans (ctxIf_stay ..))))
  split
  · exact h1.trans (putArea_stay ..)
  · exact h1

/-- SETTLE's work ends in its record's finish. -/
theorem runSettle_then (s : State) (e o : Nat) (w : CW) : ∃ u l, CollStay e s u ∧ runSettle s e o w = finishColl u e o l := by
  unfold runSettle
  dsimp only
  split
  · exact ⟨_, _, closeArea_stay .., rfl⟩
  · generalize List.flatMap _ _ = rds
    generalize hk : (fun s_1 => _ : State → State) = f
    obtain ⟨t, ht, g | ⟨q, g⟩⟩ := reading_then s e o w rds f
    · rw [g, ← hk]
      dsimp only
      generalize blockWrs _ _ _ = ws
      generalize hj : (fun s_1 => _ : State → State) = h
      obtain ⟨u, hu, j | ⟨q, j⟩⟩ := writing_then t e o w ws h
      · rw [j, ← hj]
        refine ⟨_, _, (ht.trans hu).trans ?_, rfl⟩
        refine CollStay.trans ?_ (closeArea_stay ..)
        refine CollStay.trans ?_ (modColl_stay _ _ _ _ (fun _ => ⟨rfl, Or.inl rfl⟩))
        exact (CollStay.foldl (fun s x => journal_stay ..) _ _).trans ((countFates_stay ..).trans (ctxIf_stay ..))
      · rw [j]; exact ⟨u, q, ht.trans hu, rfl⟩
    · rw [g]; exact ⟨t, q, ht, rfl⟩

theorem runSettle_stay (s : State) (e o : Nat) (w : CW) : CollStay e s (runSettle s e o w) := by
  obtain ⟨u, l, h, g⟩ := runSettle_then s e o w
  rw [g]
  exact h.trans (finishColl_stay ..)

/-- The sum ends its record, or leaves it gathering. -/
theorem runSum_ends (s : State) (e : Nat) (k : Coll) (w : CW) (sh : Nat) : ∃ u, CollStay e s u ∧
    ((∃ l, runSum s e k w sh = finishColl u e k.order l) ∨ runSum s e k w sh = sendGather (modColl u e k.order (fun y => { y with phase := .gathering })) e k.order w) := by
  unfold runSum
  dsimp only
  generalize (if w.c.replay = true then _ else _ : List Rd) ++ _ = rds
  generalize hk : (fun s_1 => _ : State → State) = f
  obtain ⟨t, ht, g | ⟨q, g⟩⟩ := reading_then s e k.order w rds f
  · rw [g, ← hk]
    dsimp only
    generalize blockWrs w (w.t.elems sh) _ ++ _ ++ _ = ws
    generalize hj : (fun s_1 => _ : State → State) = h
    obtain ⟨u, hu, j | ⟨q, j⟩⟩ := writing_then t e k.order w ws h
    · rw [j, ← hj]
      dsimp only
      have key : ∀ v, CollStay e s v → ∃ u, CollStay e s u ∧
          ((∃ l, (if w.c.op = 0x62 then sendGather (modColl v e k.order (fun y => { y with phase := .gathering })) e k.order w else finishColl v e k.order []) = finishColl u e k.order l) ∨
            (if w.c.op = 0x62 then sendGather (modColl v e k.order (fun y => { y with phase := .gathering })) e k.order w else finishColl v e k.order []) =
              sendGather (modColl u e k.order (fun y => { y with phase := .gathering })) e k.order w) := by
        intro v hv
        refine ⟨v, hv, ?_⟩
        split
        · exact Or.inr rfl
        · exact Or.inl ⟨[], rfl⟩
      refine key _ ?_
      refine (ht.trans hu).trans (CollStay.trans ?_ (modColl_stay _ _ _ _ (fun _ => ⟨rfl, Or.inl rfl⟩)))
      split
      · exact CollStay.refl ..
      · exact sumFates_stay ..
    · rw [j]; exact ⟨u, ht.trans hu, Or.inl ⟨q, rfl⟩⟩
  · rw [g]; exact ⟨t, ht, Or.inl ⟨q, rfl⟩⟩

end Sys2Proof.Machine
end

