-- ==== Sys2Proof/Laws/Copy.lean ====
section
/-! SUPPORT. What each operation of Machine/Copy.lean keeps. -/

namespace Sys2Proof.Machine

open Sys2Proof

theorem copyWrites_keeps : ∀ s a1 a2 a3, Keeps [.uni, .uniBad, .host, .cores, .ctxs, .mports, .tiers, .hps, .tallies] s (copyWrites s a1 a2 a3).1 := by
  intro s a1 a2 a3
  unfold copyWrites
  repeat' (first
    | (with_reducible apply Keeps.ite)
    | with_reducible exact Keeps.refl _ _
    | with_reducible assumption
    | (with_reducible apply Keeps.then (coreCount_keeps ..) ?_ (by decide))
    | (with_reducible apply Keeps.then (applyWrs_keeps ..) ?_ (by decide)))

theorem gElem_keeps : ∀ a0 a1 a2 a3 w a5, Keeps [.uni, .uniBad, .host, .cores, .ctxs, .mports, .tiers, .oports, .accesses, .nextTag, .paths, .ces, .hps, .tallies] w.st (gElem a0 a1 a2 a3 w a5).st := by
  intro a0 a1 a2 a3 w a5
  unfold gElem
  extract_lets s r sz i ga side lrd rank base grd src v e s'
  split
  · exact Keeps.refl _ _
  split
  · split
    · exact (rdsTouch_keeps ..).mono (by decide)
    · split
      · split
        · exact (rdsTouch_keeps ..).mono (by decide)
        · exact Keeps.step ((rdsTouch_keeps ..).mono (by decide)) (copyWrites_keeps ..) (by decide)
      · exact (rdsTouch_keeps ..).mono (by decide)
  split
  · split
    · exact (Rd.touch_keeps ..).mono (by decide)
    · exact Keeps.step (Keeps.step ((Rd.touch_keeps ..).mono (by decide)) (request_keeps ..) (by decide)) (coreCount_keeps ..) (by decide)
  · exact (request_keeps ..).mono (by decide)

theorem gWalk_keeps : ∀ s a1 a2 a3 a4 a5, Keeps [.uni, .uniBad, .host, .cores, .ctxs, .mports, .tiers, .oports, .accesses, .nextTag, .paths, .ces, .hps, .tallies] s (gWalk s a1 a2 a3 a4 a5).st := by
  intro s a1 a2 a3 a4 a5
  have key : ∀ (xs : List (List Nat × Nat)) (w : GWalk), Keeps [.uni, .uniBad, .host, .cores, .ctxs, .mports, .tiers, .oports, .accesses, .nextTag, .paths, .ces, .hps, .tallies] w.st (xs.foldl (gElem (sectsOf s (.core a1)) a1 (gDesc a3) (dtdOf a4)) w).st := by
    intro xs
    induction xs with
    | nil => exact fun w => Keeps.refl _ _
    | cons x xs ih => exact fun w => Keeps.trans (gElem_keeps ..) (ih _)
  have h := key ((walk (gDesc a3).n).zipIdx.take a5) { st := s, run := a2 }
  unfold gWalk
  exact h

theorem landAll_keeps : ∀ s a1 a2, Keeps [.uni, .uniBad, .host, .cores, .ctxs, .mports, .tiers, .hps, .tallies] s (landAll s a1 a2).1 := by
  intro s a1 a2
  unfold landAll
  repeat' (first
    | (with_reducible apply Keeps.ite)
    | with_reducible exact Keeps.refl _ _
    | with_reducible assumption
    | (with_reducible apply Keeps.then (freeLead_keeps ..) ?_ (by decide))
    | (with_reducible apply Keeps.then (copyWrites_keeps ..) ?_ (by decide))
    | (with_reducible apply Keeps.foldl)
    | (with_reducible refine Keeps.snd (by assumption) ?_)
    | (with_reducible refine Keeps.fst (by assumption) ?_)
    | intro _
    | dsimp only
    | split)

theorem copySettle_keeps : ∀ s a1 a2, Keeps [.uni, .uniBad, .host, .cores, .ctxs, .mports, .tiers, .hps, .tallies] s (copySettle s a1 a2).1 := by
  intro s a1 a2
  unfold copySettle
  repeat' (first
    | (with_reducible apply Keeps.ite)
    | with_reducible exact Keeps.refl _ _
    | with_reducible assumption
    | (with_reducible apply Keeps.then (landAll_keeps ..) ?_ (by decide)))

theorem runHint_keeps : ∀ s a1 a2 a3, Keeps [.tiers] s (runHint s a1 a2 a3).1 := by
  intro s a1 a2 a3
  unfold runHint
  repeat' (first
    | (with_reducible apply Keeps.ite)
    | with_reducible exact Keeps.refl _ _
    | with_reducible assumption
    | (with_reducible apply Keeps.foldl)
    | (with_reducible refine Keeps.snd (by assumption) ?_)
    | (with_reducible refine Keeps.fst (by assumption) ?_)
    | (with_reducible fail_if_no_progress (apply Keeps.set_tiers ?_ (by decide)))
    | intro _
    | dsimp only
    | split)

theorem runGcopy_keeps : ∀ s a1 a2 a3 a4, Keeps [.uni, .uniBad, .host, .cores, .ctxs, .mports, .tiers, .oports, .accesses, .nextTag, .paths, .ces, .hps, .tallies] s (runGcopy s a1 a2 a3 a4).1 := by
  intro s a1 a2 a3 a4
  unfold runGcopy
  repeat' (first
    | (with_reducible apply Keeps.ite)
    | with_reducible exact Keeps.refl _ _
    | with_reducible assumption
    | (with_reducible apply Keeps.then (gWalk_keeps ..) ?_ (by decide)))

theorem runCopyDesc_keeps : ∀ s a1 a2 a3, Keeps [.uni, .uniBad, .host, .cores, .ctxs, .mports, .tiers, .hps, .tallies] s (runCopyDesc s a1 a2 a3).1 := by
  intro s a1 a2 a3
  unfold runCopyDesc
  repeat' (first
    | (with_reducible apply Keeps.ite)
    | with_reducible exact Keeps.refl _ _
    | with_reducible assumption
    | (with_reducible apply Keeps.then (rdsTouch_keeps ..) ?_ (by decide))
    | (with_reducible apply Keeps.then (freeLead_keeps ..) ?_ (by decide))
    | (with_reducible apply Keeps.then (copyWrites_keeps ..) ?_ (by decide))
    | (with_reducible apply Keeps.foldl)
    | (with_reducible refine Keeps.snd (by assumption) ?_)
    | (with_reducible refine Keeps.fst (by assumption) ?_)
    | intro _
    | dsimp only
    | split)

theorem runChain_keeps : ∀ a0 s a2 a3, Keeps [.uni, .uniBad, .host, .cores, .ctxs, .mports, .tiers, .oports, .accesses, .nextTag, .paths, .ces, .hps, .tallies] s (runChain a0 s a2 a3) := by
  intro a0 s a2 a3
  induction a0 generalizing s a3 with
  | zero => exact (putRun_keeps ..).mono (by decide)
  | succ k ih =>
    unfold runChain
    split
    · exact (putRun_keeps ..).mono (by decide)
    have hs := (copySettle_keeps s a2 a3).mono (m := [.uni, .uniBad, .host, .cores, .ctxs, .mports, .tiers, .oports, .accesses, .nextTag, .paths, .ces, .hps, .tallies]) (by decide)
    generalize copySettle s a2 a3 = x at hs ⊢
    obtain ⟨u, r⟩ := x
    refine hs.trans ?_
    dsimp only
    split
    · exact (putRun_keeps ..).mono (by decide)
    split
    · exact (putRun_keeps ..).mono (by decide)
    split
    · exact (putRun_keeps ..).mono (by decide)
    split
    · exact (putRun_keeps ..).mono (by decide)
    · refine Keeps.trans ?_ (ih _ _)
      split
      · exact (runHint_keeps ..).mono (by decide)
      · exact Keeps.step ((putRun_keeps ..).mono (by decide)) (runGcopy_keeps ..) (by decide)
      · exact (runCopyDesc_keeps ..).mono (by decide)

theorem execCopy_keeps : ∀ a0 s, Gives [.uni, .uniBad, .host, .cores, .ctxs, .mports, .tiers, .oports, .accesses, .nextTag, .paths, .ces, .hps, .tallies] s (execCopy a0 s) := by
  intro a0 s
  unfold execCopy
  repeat' (first
    | (with_reducible apply Gives.ite)
    | (with_reducible apply Keeps.ite)
    | with_reducible exact Keeps.refl _ _
    | with_reducible assumption
    | (with_reducible apply Keeps.then (runChain_keeps ..) ?_ (by decide))
    | (with_reducible apply Gives.next)
    | (with_reducible apply Keeps.foldl)
    | (with_reducible refine Keeps.snd (by assumption) ?_)
    | (with_reducible refine Keeps.fst (by assumption) ?_)
    | intro _
    | dsimp only
    | split)

end Sys2Proof.Machine
end

