-- ==== Sys2Proof/Laws/Gather.lean ====
section
/-! SUPPORT. What each operation of Machine/Gather.lean keeps. -/

namespace Sys2Proof.Machine

open Sys2Proof

theorem gatherBreak_keeps : ∀ s a1 a2, Keeps [.uni, .uniBad, .host, .cores, .ctxs, .mports, .tiers, .hps, .tallies] s (gatherBreak s a1 a2) := by
  intro s a1 a2
  unfold gatherBreak
  repeat' (first
    | (with_reducible apply Keeps.ite)
    | with_reducible exact Keeps.refl _ _
    | with_reducible assumption
    | (with_reducible apply Keeps.then (post_keeps ..) ?_ (by decide))
    | (with_reducible apply Keeps.then (devWrite_keeps ..) ?_ (by decide))
    | (with_reducible apply Keeps.foldl)
    | (with_reducible refine Keeps.snd (by assumption) ?_)
    | (with_reducible refine Keeps.fst (by assumption) ?_)
    | intro _)

theorem readSlices_keeps : ∀ s a1 a2 a3 a4, Keeps [.uniBad, .cores, .mports, .tiers, .hps, .tallies] s (readSlices s a1 a2 a3 a4) := by
  intro s a1 a2 a3 a4
  unfold readSlices
  repeat' (first
    | (with_reducible apply Keeps.ite)
    | with_reducible exact Keeps.refl _ _
    | with_reducible assumption
    | (with_reducible apply Keeps.then (coreCount_keeps ..) ?_ (by decide))
    | (with_reducible apply Keeps.then (rdsTouch_keeps ..) ?_ (by decide))
    | (with_reducible apply Keeps.foldl)
    | (with_reducible refine Keeps.snd (by assumption) ?_)
    | (with_reducible refine Keeps.fst (by assumption) ?_)
    | intro _)

theorem gatherEnd_keeps : ∀ s a1 a2 a3, Keeps [.uni, .uniBad, .host, .cores, .ctxs, .mports, .tiers, .hps, .tallies] s (gatherEnd s a1 a2 a3).1 := by
  intro s a1 a2 a3
  unfold gatherEnd
  repeat' (first
    | (with_reducible apply Keeps.ite)
    | with_reducible exact Keeps.refl _ _
    | with_reducible assumption
    | (with_reducible apply Keeps.then (gatherBreak_keeps ..) ?_ (by decide))
    | (with_reducible apply Keeps.then (putRun_keeps ..) ?_ (by decide)))

theorem formTileNow_keeps : ∀ s a1 a2, Keeps [.uni, .uniBad, .host, .cores, .ctxs, .mports, .tiers, .hps, .tallies] s (formTileNow s a1 a2).1 := by
  intro s a1 a2
  unfold formTileNow
  repeat' (first
    | (with_reducible apply Keeps.ite)
    | with_reducible exact Keeps.refl _ _
    | with_reducible assumption
    | (with_reducible apply Keeps.then (coreCount_keeps ..) ?_ (by decide))
    | (with_reducible apply Keeps.then (readSlices_keeps ..) ?_ (by decide))
    | (with_reducible apply Keeps.then (gatherEnd_keeps ..) ?_ (by decide))
    | (with_reducible apply Keeps.then (putRun_keeps ..) ?_ (by decide))
    | (with_reducible apply Keeps.foldl)
    | (with_reducible refine Keeps.snd (by assumption) ?_)
    | (with_reducible refine Keeps.fst (by assumption) ?_)
    | intro _
    | dsimp only
    | split)

theorem writeTile_keeps : ∀ s a1 a2, Keeps [.uni, .uniBad, .host, .cores, .ctxs, .mports, .tiers, .hps, .tallies] s (writeTile s a1 a2).1 := by
  intro s a1 a2
  unfold writeTile
  repeat' (first
    | (with_reducible apply Keeps.ite)
    | with_reducible exact Keeps.refl _ _
    | with_reducible assumption
    | (with_reducible apply Keeps.then (applyWrs_keeps ..) ?_ (by decide))
    | (with_reducible apply Keeps.then (gatherEnd_keeps ..) ?_ (by decide))
    | (with_reducible apply Keeps.then (putRun_keeps ..) ?_ (by decide))
    | (with_reducible apply Keeps.foldl)
    | (with_reducible refine Keeps.snd (by assumption) ?_)
    | (with_reducible refine Keeps.fst (by assumption) ?_)
    | intro _
    | dsimp only
    | split)

theorem gatherStep_keeps : ∀ s a1 a2, Keeps [.uni, .uniBad, .host, .cores, .ctxs, .mports, .tiers, .hps, .tallies] s (gatherStep s a1 a2).1 := by
  intro s a1 a2
  unfold gatherStep
  repeat' (first
    | (with_reducible apply Keeps.ite)
    | with_reducible exact Keeps.refl _ _
    | with_reducible assumption
    | (with_reducible apply Keeps.then (formTileNow_keeps ..) ?_ (by decide))
    | (with_reducible apply Keeps.then (freeBelow_keeps ..) ?_ (by decide))
    | (with_reducible apply Keeps.then (writeTile_keeps ..) ?_ (by decide))
    | (with_reducible apply Keeps.foldl)
    | (with_reducible refine Keeps.snd (by assumption) ?_)
    | (with_reducible refine Keeps.fst (by assumption) ?_)
    | intro _
    | dsimp only
    | split)

theorem gatherAll_keeps : ∀ a0 s a2 a3, Keeps [.uni, .uniBad, .host, .cores, .ctxs, .mports, .tiers, .hps, .tallies] s (gatherAll a0 s a2 a3).1 := by
  intro a0 s a2 a3
  induction a0 generalizing s a3 with
  | zero => exact Keeps.refl _ _
  | succ k ih =>
    unfold gatherAll
    dsimp only
    split
    · exact Keeps.refl _ _
    · exact (gatherStep_keeps ..).trans (ih _ _)

theorem execGather_keeps : ∀ a0 s, Gives [.uni, .uniBad, .host, .cores, .ctxs, .mports, .tiers, .hps, .tallies] s (execGather a0 s) := by
  intro a0 s
  unfold execGather
  repeat' (first
    | (with_reducible apply Gives.ite)
    | (with_reducible apply Keeps.ite)
    | with_reducible exact Keeps.refl _ _
    | with_reducible assumption
    | (with_reducible apply Keeps.then (gatherAll_keeps ..) ?_ (by decide))
    | (with_reducible apply Gives.next)
    | (with_reducible apply Keeps.foldl)
    | (with_reducible refine Keeps.snd (by assumption) ?_)
    | (with_reducible refine Keeps.fst (by assumption) ?_)
    | intro _
    | dsimp only
    | split)

theorem execGatherSliceIssue_keeps : ∀ a0 a1 s, Gives [.uni, .uniBad, .host, .cores, .ctxs, .mports, .tiers, .hps, .tallies] s (execGatherSliceIssue a0 a1 s) := by
  intro a0 a1 s
  unfold execGatherSliceIssue
  repeat' (first
    | (with_reducible apply Gives.ite)
    | (with_reducible apply Keeps.ite)
    | with_reducible exact Keeps.refl _ _
    | with_reducible assumption
    | (with_reducible apply Keeps.then (coreCount_keeps ..) ?_ (by decide))
    | (with_reducible apply Keeps.then (readSlices_keeps ..) ?_ (by decide))
    | (with_reducible apply Keeps.then (State.modCore_keeps _ _ _ ?_) ?_ (by decide))
    | (with_reducible exact fun _ h => h)
    | (with_reducible exact fun h => h)
    | (with_reducible apply Keeps.then (gatherEnd_keeps ..) ?_ (by decide))
    | (with_reducible apply Keeps.then (putRun_keeps ..) ?_ (by decide))
    | (with_reducible apply Gives.next)
    | (with_reducible apply Keeps.foldl)
    | (with_reducible refine Keeps.snd (by assumption) ?_)
    | (with_reducible refine Keeps.fst (by assumption) ?_)
    | intro _
    | dsimp only
    | split)

theorem execGshareWindowStart_keeps : ∀ a0 s, Gives [.cores] s (execGshareWindowStart a0 s) := by
  intro a0 s
  unfold execGshareWindowStart
  repeat' (first
    | (with_reducible apply Gives.ite)
    | (with_reducible apply Keeps.ite)
    | with_reducible exact Keeps.refl _ _
    | with_reducible assumption
    | (with_reducible apply Keeps.then (State.modCore_keeps _ _ _ ?_) ?_ (by decide))
    | (with_reducible exact fun _ h => h)
    | (with_reducible exact fun h => h)
    | (with_reducible apply Gives.next))

theorem execGatherTileWriteback_keeps : ∀ a0 s, Gives [.uni, .uniBad, .host, .cores, .ctxs, .mports, .tiers, .hps, .tallies] s (execGatherTileWriteback a0 s) := by
  intro a0 s
  unfold execGatherTileWriteback
  repeat' (first
    | (with_reducible apply Gives.ite)
    | (with_reducible apply Keeps.ite)
    | with_reducible exact Keeps.refl _ _
    | with_reducible assumption
    | (with_reducible apply Keeps.then (writeTile_keeps ..) ?_ (by decide))
    | (with_reducible apply Gives.next)
    | (with_reducible apply Keeps.foldl)
    | (with_reducible refine Keeps.snd (by assumption) ?_)
    | (with_reducible refine Keeps.fst (by assumption) ?_)
    | intro _
    | dsimp only
    | split)

theorem execGatherHeaderWrite_keeps : ∀ a0 s, Gives [.uni, .uniBad, .host, .cores, .ctxs, .mports, .tiers, .hps, .tallies] s (execGatherHeaderWrite a0 s) := by
  intro a0 s
  unfold execGatherHeaderWrite
  repeat' (first
    | (with_reducible apply Gives.ite)
    | (with_reducible apply Keeps.ite)
    | with_reducible exact Keeps.refl _ _
    | with_reducible assumption
    | (with_reducible apply Keeps.then (gatherEnd_keeps ..) ?_ (by decide))
    | (with_reducible apply Keeps.then (putRun_keeps ..) ?_ (by decide))
    | (with_reducible apply Keeps.then (applyWr_keeps ..) ?_ (by decide))
    | (with_reducible apply Gives.next)
    | (with_reducible apply Keeps.foldl)
    | (with_reducible refine Keeps.snd (by assumption) ?_)
    | (with_reducible refine Keeps.fst (by assumption) ?_)
    | intro _
    | dsimp only
    | split)

end Sys2Proof.Machine
end

