-- ==== Sys2Proof/Laws/Matrix.lean ====
section
/-! SUPPORT. What each operation of Machine/Matrix.lean keeps. -/

namespace Sys2Proof.Machine

open Sys2Proof

theorem Core.setBuf_scratch (c : Core) (one : Bool) (b : TileBuf) : (c.setBuf one b).scratch = c.scratch := by cases one <;> rfl

theorem freeBufs_keeps : ∀ s a1 a2 a3, Keeps [.cores] s (freeBufs s a1 a2 a3) := by
  intro s a1 a2 a3
  unfold freeBufs
  repeat' (first
    | (with_reducible apply Keeps.ite)
    | with_reducible exact Keeps.refl _ _
    | with_reducible assumption
    | (with_reducible apply Keeps.then (State.modCore_keeps _ _ _ ?_) ?_ (by decide))
    | (with_reducible exact fun _ h => h))

theorem countFetches_keeps : ∀ s a1 a2 a3 a4, Keeps [.cores] s (countFetches s a1 a2 a3 a4) := by
  intro s a1 a2 a3 a4
  unfold countFetches
  repeat' (first
    | (with_reducible apply Keeps.ite)
    | with_reducible exact Keeps.refl _ _
    | with_reducible assumption
    | (with_reducible apply Keeps.then (coreCount_keeps ..) ?_ (by decide)))

theorem bufTouch_keeps : ∀ s a1 a2 a3, Keeps [.cores, .tallies] s (bufTouch s a1 a2 a3) := by
  intro s a1 a2 a3
  unfold bufTouch
  repeat' (first
    | (with_reducible apply Keeps.ite)
    | with_reducible exact Keeps.refl _ _
    | with_reducible assumption
    | (with_reducible apply Keeps.then (post_keeps ..) ?_ (by decide))
    | (with_reducible apply Keeps.then (State.modCore_keeps _ _ _ ?_) ?_ (by decide))
    | (with_reducible exact fun _ h => h)
    | (with_reducible exact fun h => h)
    | (with_reducible apply Keeps.then (enterRecovery_keeps ..) ?_ (by decide))
    | (with_reducible apply Keeps.foldl)
    | (with_reducible refine Keeps.snd (by assumption) ?_)
    | (with_reducible refine Keeps.fst (by assumption) ?_)
    | intro _
    | dsimp only
    | split)

theorem matFault_keeps : ∀ s a1 a2 a3 a4, Keeps [.cores] s (matFault s a1 a2 a3 a4).1 := by
  intro s a1 a2 a3 a4
  unfold matFault
  repeat' (first
    | (with_reducible apply Keeps.ite)
    | with_reducible exact Keeps.refl _ _
    | with_reducible assumption
    | (with_reducible apply Keeps.then (putRun_keeps ..) ?_ (by decide))
    | (with_reducible apply Keeps.then (freeBufs_keeps ..) ?_ (by decide)))

theorem drainTile_keeps : ∀ s a1 a2 a3 a4 a5 a6, Keeps [.uni, .uniBad, .host, .cores, .ctxs, .mports, .tiers, .hps, .tallies] s (drainTile s a1 a2 a3 a4 a5 a6).1 := by
  intro s a1 a2 a3 a4 a5 a6
  unfold drainTile
  repeat' (first
    | (with_reducible apply Keeps.ite)
    | with_reducible exact Keeps.refl _ _
    | with_reducible assumption
    | (with_reducible apply Keeps.then (freeLead_keeps ..) ?_ (by decide))
    | (with_reducible apply Keeps.then (applyWrs_keeps ..) ?_ (by decide))
    | (with_reducible apply Keeps.then (matFault_keeps ..) ?_ (by decide))
    | (with_reducible apply Keeps.then (bufTouch_keeps ..) ?_ (by decide))
    | (with_reducible apply Keeps.then (rdsTouch_keeps ..) ?_ (by decide))
    | (with_reducible apply Keeps.then (putRun_keeps ..) ?_ (by decide))
    | (with_reducible apply Keeps.foldl)
    | (with_reducible refine Keeps.snd (by assumption) ?_)
    | (with_reducible refine Keeps.fst (by assumption) ?_)
    | intro _
    | dsimp only
    | split)

theorem fillFault_keeps : ∀ s a1 a2 a3 a4 a5 a6, Keeps [.uniBad, .cores, .mports, .tiers, .hps, .tallies] s (fillFault s a1 a2 a3 a4 a5 a6).1 := by
  intro s a1 a2 a3 a4 a5 a6
  unfold fillFault
  repeat' (first
    | (with_reducible apply Keeps.ite)
    | with_reducible exact Keeps.refl _ _
    | with_reducible assumption
    | (with_reducible apply Keeps.then (matFault_keeps ..) ?_ (by decide))
    | (with_reducible apply Keeps.then (rdsTouch_keeps ..) ?_ (by decide))
    | (with_reducible apply Keeps.then (countFetches_keeps ..) ?_ (by decide)))

theorem runTile_keeps : ∀ s a1 a2 a3 a4 a5, Keeps [.uni, .uniBad, .host, .cores, .ctxs, .mports, .tiers, .hps, .tallies] s (runTile s a1 a2 a3 a4 a5).1 := by
  intro s a1 a2 a3 a4 a5
  unfold runTile
  repeat' (first
    | (with_reducible apply Keeps.ite)
    | with_reducible exact Keeps.refl _ _
    | with_reducible assumption
    | (with_reducible apply Keeps.then (drainTile_keeps ..) ?_ (by decide))
    | (with_reducible apply Keeps.then (fillFault_keeps ..) ?_ (by decide))
    | (with_reducible apply Keeps.then (rdsTouch_keeps ..) ?_ (by decide))
    | (with_reducible apply Keeps.then (countFetches_keeps ..) ?_ (by decide))
    | (with_reducible apply Keeps.foldl)
    | (with_reducible refine Keeps.snd (by assumption) ?_)
    | (with_reducible refine Keeps.fst (by assumption) ?_)
    | intro _
    | dsimp only
    | split)

theorem runStruck_keeps : ∀ s a1 a2 a3 a4 a5 a6 a7, Keeps [.uni, .uniBad, .host, .cores, .ctxs, .mports, .tiers, .hps, .tallies] s (runStruck s a1 a2 a3 a4 a5 a6 a7).1 := by
  intro s a1 a2 a3 a4 a5 a6 a7
  unfold runStruck
  repeat' (first
    | (with_reducible apply Keeps.ite)
    | with_reducible exact Keeps.refl _ _
    | with_reducible assumption
    | (with_reducible apply Keeps.then (freeLead_keeps ..) ?_ (by decide))
    | (with_reducible apply Keeps.then (applyWrs_keeps ..) ?_ (by decide))
    | (with_reducible apply Keeps.then (fillFault_keeps ..) ?_ (by decide)))

theorem runTiles_keeps : ∀ s a1 a2 a3 a4, Keeps [.uni, .uniBad, .host, .cores, .ctxs, .mports, .tiers, .hps, .tallies] s (runTiles s a1 a2 a3 a4).1 := by
  intro s a1 a2 a3 a4
  induction a4 generalizing s a2 with
  | nil => exact Keeps.refl _ _
  | cons i l ih =>
    cases l with
    | nil => exact (runTile_keeps ..).mono (by decide)
    | cons j l =>
      unfold runTiles
      extract_lets q near
      have hp : Keeps [.uni, .uniBad, .host, .cores, .ctxs, .mports, .tiers, .hps, .tallies] s (if near = true then freeBelow s 2 else (1, s)).2 := by
        split
        · exact (freeBelow_keeps ..).mono (by decide)
        · exact Keeps.refl _ _
      generalize (if near = true then freeBelow s 2 else (1, s)) = k at hp ⊢
      obtain ⟨k, u⟩ := k
      refine hp.trans ?_
      dsimp only
      split
      · split
        · exact (runStruck_keeps ..).mono (by decide)
        split
        · exact (fillFault_keeps ..).mono (by decide)
        · exact Keeps.step (Keeps.step ((countFetches_keeps ..).mono (by decide)) (rdsTouch_keeps ..) (by decide)) (runStruck_keeps ..) (by decide)
      · have hx := (runTile_keeps u a1 a2 a3 i false).mono (m := [.uni, .uniBad, .host, .cores, .ctxs, .mports, .tiers, .hps, .tallies]) (by decide)
        split
        · exact hx
        · exact hx.trans (ih _ _)

theorem execMatmul_keeps : ∀ a0 s, Gives [.uni, .uniBad, .host, .cores, .ctxs, .mports, .tiers, .hps, .tallies] s (execMatmul a0 s) := by
  intro a0 s
  unfold execMatmul
  repeat' (first
    | (with_reducible apply Gives.ite)
    | (with_reducible apply Keeps.ite)
    | with_reducible exact Keeps.refl _ _
    | with_reducible assumption
    | (with_reducible apply Keeps.then (coreCount_keeps ..) ?_ (by decide))
    | (with_reducible apply Keeps.then (freeBufs_keeps ..) ?_ (by decide))
    | (with_reducible apply Keeps.then (runTiles_keeps ..) ?_ (by decide))
    | (with_reducible apply Keeps.then (putRun_keeps ..) ?_ (by decide))
    | (with_reducible apply Gives.next)
    | (with_reducible apply Keeps.foldl)
    | (with_reducible refine Keeps.snd (by assumption) ?_)
    | (with_reducible refine Keeps.fst (by assumption) ?_)
    | intro _
    | dsimp only
    | split)

theorem execTileFillStart_keeps : ∀ a0 a1 s, Gives [.cores] s (execTileFillStart a0 a1 s) := by
  intro a0 a1 s
  unfold execTileFillStart
  repeat' (first
    | (with_reducible apply Gives.ite)
    | (with_reducible apply Keeps.ite)
    | with_reducible exact Keeps.refl _ _
    | with_reducible assumption
    | (with_reducible apply Keeps.then (freeBelow_keeps ..) ?_ (by decide))
    | (with_reducible apply Keeps.then (coreCount_keeps ..) ?_ (by decide))
    | (with_reducible apply Keeps.then (State.modCore_keeps _ _ _ ?_) ?_ (by decide))
    | (with_reducible exact fun _ h => h)
    | (with_reducible exact fun h => h)
    | (with_reducible apply Keeps.then (putRun_keeps ..) ?_ (by decide))
    | (with_reducible apply Gives.next)
    | (with_reducible apply Keeps.foldl)
    | (with_reducible refine Keeps.snd (by assumption) ?_)
    | (with_reducible refine Keeps.fst (by assumption) ?_)
    | intro _
    | dsimp only
    | split)

theorem struckRows_keeps : ∀ s a1 a2 a3 a4 a5, Keeps [.uni, .uniBad, .host, .cores, .ctxs, .mports, .tiers, .hps, .tallies] s (struckRows s a1 a2 a3 a4 a5).1 := by
  intro s a1 a2 a3 a4 a5
  unfold struckRows
  repeat' (first
    | (with_reducible apply Keeps.ite)
    | with_reducible exact Keeps.refl _ _
    | with_reducible assumption
    | (with_reducible apply Keeps.then (freeLead_keeps ..) ?_ (by decide))
    | (with_reducible apply Keeps.then (applyWrs_keeps ..) ?_ (by decide))
    | (with_reducible apply Keeps.foldl)
    | (with_reducible refine Keeps.snd (by assumption) ?_)
    | (with_reducible refine Keeps.fst (by assumption) ?_)
    | intro _
    | dsimp only
    | split)

theorem fillEnd_keeps : ∀ a0 a1 s a3, Keeps [.uni, .uniBad, .host, .cores, .ctxs, .mports, .tiers, .hps, .tallies] s (fillEnd a0 a1 s a3) := by
  intro a0 a1 s a3
  unfold fillEnd
  repeat' (first
    | (with_reducible apply Keeps.ite)
    | with_reducible exact Keeps.refl _ _
    | with_reducible assumption
    | (with_reducible apply Keeps.then (struckRows_keeps ..) ?_ (by decide))
    | (with_reducible apply Keeps.then (fillFault_keeps ..) ?_ (by decide))
    | (with_reducible apply Keeps.then (rdsTouch_keeps ..) ?_ (by decide))
    | (with_reducible apply Keeps.then (countFetches_keeps ..) ?_ (by decide))
    | (with_reducible apply Keeps.then (State.modCore_keeps _ _ _ ?_) ?_ (by decide))
    | (with_reducible exact fun _ h => h)
    | (with_reducible exact fun h => h)
    | (with_reducible apply Keeps.foldl)
    | (with_reducible refine Keeps.snd (by assumption) ?_)
    | (with_reducible refine Keeps.fst (by assumption) ?_)
    | (rw [Core.setBuf_scratch]; assumption)
    | intro _
    | dsimp only
    | split)

theorem execTotalsFinal_keeps : ∀ a0 a1 s, Gives [.uni, .uniBad, .host, .cores, .ctxs, .mports, .tiers, .hps, .tallies] s (execTotalsFinal a0 a1 s) := by
  intro a0 a1 s
  unfold execTotalsFinal
  repeat' (first
    | (with_reducible apply Gives.ite)
    | (with_reducible apply Keeps.ite)
    | with_reducible exact Keeps.refl _ _
    | with_reducible assumption
    | (with_reducible apply Keeps.then (fillEnd_keeps ..) ?_ (by decide))
    | (with_reducible apply Gives.next)
    | (with_reducible apply Keeps.foldl)
    | (with_reducible refine Keeps.snd (by assumption) ?_)
    | (with_reducible refine Keeps.fst (by assumption) ?_)
    | intro _)

theorem execEpilogueStart_keeps : ∀ a0 a1 s, Gives [.cores] s (execEpilogueStart a0 a1 s) := by
  intro a0 a1 s
  unfold execEpilogueStart
  repeat' (first
    | (with_reducible apply Gives.ite)
    | (with_reducible apply Keeps.ite)
    | with_reducible exact Keeps.refl _ _
    | with_reducible assumption
    | (with_reducible apply Keeps.then (State.modCore_keeps _ _ _ ?_) ?_ (by decide))
    | (with_reducible exact fun _ h => h)
    | (with_reducible exact fun h => h)
    | (with_reducible apply Gives.next)
    | (with_reducible apply Keeps.foldl)
    | (with_reducible refine Keeps.snd (by assumption) ?_)
    | (with_reducible refine Keeps.fst (by assumption) ?_)
    | (rw [Core.setBuf_scratch]; assumption)
    | intro _
    | dsimp only
    | split)

theorem execBufferEmpty_keeps : ∀ a0 a1 s, Gives [.uni, .uniBad, .host, .cores, .ctxs, .mports, .tiers, .hps, .tallies] s (execBufferEmpty a0 a1 s) := by
  intro a0 a1 s
  unfold execBufferEmpty
  extract_lets c one b
  split
  · exact Gives.next (Keeps.refl _ _)
  split
  · exact Gives.next (Keeps.refl _ _)
  extract_lets p other last q err s'
  split
  · exact Gives.next ((runStruck_keeps ..).mono (by decide))
  · refine Gives.next (Keeps.step ((State.modCore_keeps _ _ _ (fun c h => ?_)).mono (by decide)) (drainTile_keeps ..) (by decide))
    rw [← h]
    exact congrArg Memory.wf (Core.setBuf_scratch ..)

end Sys2Proof.Machine
end

