-- ==== Sys2Proof/Laws/Update.lean ====
section
/-! SUPPORT. What each operation of Machine/Update.lean keeps. -/

namespace Sys2Proof.Machine

open Sys2Proof

theorem updPart_keeps : ∀ s a1 a2, Keeps [.uni, .uniBad, .host, .cores, .ctxs, .mports, .tiers, .hps, .tallies] s (updPart s a1 a2).1 := by
  intro s a1 a2
  unfold updPart
  repeat' (first
    | (with_reducible apply Keeps.ite)
    | with_reducible exact Keeps.refl _ _
    | with_reducible assumption
    | (with_reducible apply Keeps.then (freeLead_keeps ..) ?_ (by decide))
    | (with_reducible apply Keeps.then (applyWrs_keeps ..) ?_ (by decide)))

theorem updWrites_keeps : ∀ s a1 a2, Keeps [.uni, .uniBad, .host, .cores, .ctxs, .mports, .tiers, .hps, .tallies] s (updWrites s a1 a2) := by
  intro s a1 a2
  unfold updWrites
  repeat' (first
    | (with_reducible apply Keeps.ite)
    | with_reducible exact Keeps.refl _ _
    | with_reducible assumption
    | (with_reducible apply Keeps.then (applyWrs_keeps ..) ?_ (by decide))
    | (with_reducible apply Keeps.then (rdsTouch_keeps ..) ?_ (by decide)))

theorem countRolled_keeps : ∀ s a1 a2 a3, Keeps [.ctxs, .tallies] s (countRolled s a1 a2 a3) := by
  intro s a1 a2 a3
  unfold countRolled
  repeat' (first
    | (with_reducible apply Keeps.ite)
    | with_reducible exact Keeps.refl _ _
    | with_reducible assumption
    | (with_reducible apply Keeps.then (post_keeps ..) ?_ (by decide))
    | (with_reducible apply Keeps.then (ctxCount_keeps ..) ?_ (by decide)))

theorem updRolled_keeps : ∀ s a1 a2 a3 a4 a5, Keeps [.uni, .uniBad, .host, .cores, .ctxs, .mports, .tiers, .hps, .tallies] s (updRolled s a1 a2 a3 a4 a5) := by
  intro s a1 a2 a3 a4 a5
  unfold updRolled
  repeat' (first
    | (with_reducible apply Keeps.ite)
    | with_reducible exact Keeps.refl _ _
    | with_reducible assumption
    | (with_reducible apply Keeps.then (applyWrs_keeps ..) ?_ (by decide))
    | (with_reducible apply Keeps.then (updWrites_keeps ..) ?_ (by decide))
    | (with_reducible apply Keeps.then (countRolled_keeps ..) ?_ (by decide))
    | (with_reducible apply Keeps.then (State.modCtx_keeps ..) ?_ (by decide))
    | (with_reducible apply Keeps.foldl)
    | (with_reducible refine Keeps.snd (by assumption) ?_)
    | (with_reducible refine Keeps.fst (by assumption) ?_)
    | intro _)

theorem updFence_keeps : ∀ s a1 a2, Keeps [.uni, .uniBad, .host, .cores, .ctxs, .mports, .tiers, .hps, .tallies] s (updFence s a1 a2).1 := by
  intro s a1 a2
  unfold updFence
  repeat' (first
    | (with_reducible apply Keeps.ite)
    | with_reducible exact Keeps.refl _ _
    | with_reducible assumption
    | (with_reducible apply Keeps.then (updPart_keeps ..) ?_ (by decide))
    | (with_reducible apply Keeps.then (freeBelow_keeps ..) ?_ (by decide))
    | (with_reducible apply Keeps.then (updRolled_keeps ..) ?_ (by decide))
    | (with_reducible apply Keeps.foldl)
    | (with_reducible refine Keeps.snd (by assumption) ?_)
    | (with_reducible refine Keeps.fst (by assumption) ?_)
    | intro _
    | dsimp only
    | split)

theorem updEvents_keeps : ∀ s a1 a2 a3, Keeps [.ctxs, .tallies] s (updEvents s a1 a2 a3) := by
  intro s a1 a2 a3
  unfold updEvents
  repeat' (first
    | (with_reducible apply Keeps.ite)
    | with_reducible exact Keeps.refl _ _
    | with_reducible assumption
    | (with_reducible apply Keeps.then (post_keeps ..) ?_ (by decide))
    | (with_reducible apply Keeps.then (ctxCount_keeps ..) ?_ (by decide))
    | (with_reducible apply Keeps.foldl)
    | (with_reducible refine Keeps.snd (by assumption) ?_)
    | (with_reducible refine Keeps.fst (by assumption) ?_)
    | intro _
    | dsimp only
    | split)

theorem updFault_keeps : ∀ s a1 a2 a3 a4, Keeps [.uni, .uniBad, .host, .cores, .ctxs, .mports, .tiers, .hps, .tallies] s (updFault s a1 a2 a3 a4) := by
  intro s a1 a2 a3 a4
  unfold updFault
  repeat' (first
    | (with_reducible apply Keeps.ite)
    | with_reducible exact Keeps.refl _ _
    | with_reducible assumption
    | (with_reducible apply Keeps.then (updWrites_keeps ..) ?_ (by decide))
    | (with_reducible apply Keeps.then (updPart_keeps ..) ?_ (by decide))
    | (with_reducible apply Keeps.then (rdsTouch_keeps ..) ?_ (by decide))
    | (with_reducible apply Keeps.then (devWrite_keeps ..) ?_ (by decide))
    | (with_reducible apply Keeps.then (putRun_keeps ..) ?_ (by decide))
    | (with_reducible apply Keeps.foldl)
    | (with_reducible refine Keeps.snd (by assumption) ?_)
    | (with_reducible refine Keeps.fst (by assumption) ?_)
    | intro _
    | dsimp only
    | split)

theorem updApply_keeps : ∀ s a1 a2 a3, Keeps [.uni, .uniBad, .host, .cores, .ctxs, .mports, .tiers, .hps, .tallies] s (updApply s a1 a2 a3) := by
  intro s a1 a2 a3
  unfold updApply
  repeat' (first
    | (with_reducible apply Keeps.ite)
    | with_reducible exact Keeps.refl _ _
    | with_reducible assumption
    | (with_reducible apply Keeps.then (updEvents_keeps ..) ?_ (by decide))
    | (with_reducible apply Keeps.then (updFault_keeps ..) ?_ (by decide))
    | (with_reducible apply Keeps.then (putRun_keeps ..) ?_ (by decide))
    | (with_reducible apply Keeps.then (updWrites_keeps ..) ?_ (by decide))
    | (with_reducible apply Keeps.foldl)
    | (with_reducible refine Keeps.snd (by assumption) ?_)
    | (with_reducible refine Keeps.fst (by assumption) ?_)
    | intro _
    | dsimp only
    | split)

theorem execUpdate_keeps : ∀ a0 s, Gives [.uni, .uniBad, .host, .cores, .ctxs, .mports, .tiers, .hps, .tallies] s (execUpdate a0 s) := by
  intro a0 s
  unfold execUpdate
  repeat' (first
    | (with_reducible apply Gives.ite)
    | (with_reducible apply Keeps.ite)
    | with_reducible exact Keeps.refl _ _
    | with_reducible assumption
    | (with_reducible apply Keeps.then (updApply_keeps ..) ?_ (by decide))
    | (with_reducible apply Keeps.then (updRolled_keeps ..) ?_ (by decide))
    | (with_reducible apply Gives.next)
    | (with_reducible apply Keeps.foldl)
    | (with_reducible refine Keeps.snd (by assumption) ?_)
    | (with_reducible refine Keeps.fst (by assumption) ?_)
    | intro _
    | dsimp only
    | split)

theorem updComplete_keeps : ∀ s a1 a2, Keeps [.ctxs, .tallies] s (updComplete s a1 a2) := by
  intro s a1 a2
  unfold updComplete
  repeat' (first
    | (with_reducible apply Keeps.ite)
    | with_reducible exact Keeps.refl _ _
    | with_reducible assumption
    | (with_reducible apply Keeps.then (State.modCtx_keeps ..) ?_ (by decide))
    | (with_reducible apply Keeps.then (countRolled_keeps ..) ?_ (by decide))
    | (with_reducible apply Keeps.then (post_keeps ..) ?_ (by decide))
    | (with_reducible apply Keeps.then (ctxCount_keeps ..) ?_ (by decide))
    | (with_reducible apply Keeps.foldl)
    | (with_reducible refine Keeps.snd (by assumption) ?_)
    | (with_reducible refine Keeps.fst (by assumption) ?_)
    | intro _)

end Sys2Proof.Machine
end

