-- ==== Sys2Proof/Laws/Vector.lean ====
section
/-! SUPPORT. What each operation of Machine/Vector.lean keeps. -/

namespace Sys2Proof.Machine

open Sys2Proof

theorem freeSet_keeps : ∀ s a1, Keeps [] s (freeSet s a1).2 := by
  intro s a1
  induction a1 generalizing s with
  | nil => exact Keeps.refl _ _
  | cons x l ih =>
    unfold freeSet
    exact (freeBelow_keeps ..).trans (ih _)

theorem execVecop_keeps : ∀ a0 s, Gives [.uni, .uniBad, .host, .cores, .ctxs, .mports, .tiers, .hps, .tallies] s (execVecop a0 s) := by
  intro a0 s
  unfold execVecop
  repeat' (first
    | (with_reducible apply Gives.ite)
    | (with_reducible apply Keeps.ite)
    | with_reducible exact Keeps.refl _ _
    | with_reducible assumption
    | (with_reducible apply Keeps.then (runPlan_keeps ..) ?_ (by decide))
    | (with_reducible apply Gives.next)
    | (with_reducible apply Keeps.foldl)
    | (with_reducible refine Keeps.snd (by assumption) ?_)
    | (with_reducible refine Keeps.fst (by assumption) ?_)
    | intro _
    | dsimp only
    | split)

theorem execVecred_keeps : ∀ a0 s, Gives [.uni, .uniBad, .host, .cores, .ctxs, .mports, .tiers, .hps, .tallies] s (execVecred a0 s) := by
  intro a0 s
  unfold execVecred
  repeat' (first
    | (with_reducible apply Gives.ite)
    | (with_reducible apply Keeps.ite)
    | with_reducible exact Keeps.refl _ _
    | with_reducible assumption
    | (with_reducible apply Keeps.then (freeSet_keeps ..) ?_ (by decide))
    | (with_reducible apply Keeps.then (runPlan_keeps ..) ?_ (by decide))
    | (with_reducible apply Gives.next)
    | (with_reducible apply Keeps.foldl)
    | (with_reducible refine Keeps.snd (by assumption) ?_)
    | (with_reducible refine Keeps.fst (by assumption) ?_)
    | intro _
    | dsimp only
    | split)

end Sys2Proof.Machine
end

