-- ==== Sys2Proof/Laws/Engines.lean ====
section
/-! SUPPORT. What each operation of Machine/Engines.lean keeps. -/

namespace Sys2Proof.Machine

open Sys2Proof

theorem countHeld_keeps : ∀ s a1 a2, Keeps [.cores] s (countHeld s a1 a2) := by
  intro s a1 a2
  unfold countHeld
  repeat' (first
    | (with_reducible apply Keeps.ite)
    | with_reducible exact Keeps.refl _ _
    | with_reducible assumption
    | (with_reducible apply Keeps.then (coreCount_keeps ..) ?_ (by decide))
    | (with_reducible apply Keeps.foldl)
    | (with_reducible apply Keeps.foldl_snd)
    | (with_reducible refine Keeps.snd (by assumption) ?_)
    | (with_reducible refine Keeps.fst (by assumption) ?_)
    | (with_reducible fail_if_no_progress (apply Keeps.set_freeCtr ?_))
    | intro _)

theorem coreReport_keeps : ∀ s a1 a2 a3, Keeps [.uni, .uniBad, .host, .cores, .ctxs, .mports, .tiers, .hps, .tallies] s (coreReport s a1 a2 a3) := by
  intro s a1 a2 a3
  unfold coreReport
  repeat' (first
    | (with_reducible apply Keeps.ite)
    | with_reducible exact Keeps.refl _ _
    | with_reducible assumption
    | (with_reducible apply Keeps.then (State.modCore_keeps _ _ _ ?_) ?_ (by decide))
    | (with_reducible exact fun _ h => h)
    | (with_reducible exact fun h => h)
    | (with_reducible apply Keeps.then (compWrite_keeps ..) ?_ (by decide))
    | (with_reducible apply Keeps.then (State.modCtx_keeps ..) ?_ (by decide))
    | (with_reducible apply Keeps.foldl)
    | (with_reducible apply Keeps.foldl_snd)
    | (with_reducible refine Keeps.snd (by assumption) ?_)
    | (with_reducible refine Keeps.fst (by assumption) ?_)
    | intro _)

theorem reportInOrder_keeps : ∀ s a1 a2 a3, Keeps [.uni, .uniBad, .host, .cores, .ctxs, .mports, .tiers, .hps, .tallies] s (reportInOrder s a1 a2 a3) := by
  intro s a1 a2 a3
  unfold reportInOrder
  repeat' (first
    | (with_reducible apply Keeps.ite)
    | with_reducible exact Keeps.refl _ _
    | with_reducible assumption
    | (with_reducible apply Keeps.then (State.modCore_keeps _ _ _ ?_) ?_ (by decide))
    | (with_reducible exact fun _ h => h)
    | (with_reducible exact fun h => h)
    | (with_reducible apply Keeps.then (coreReport_keeps ..) ?_ (by decide))
    | (with_reducible apply Keeps.foldl)
    | (with_reducible apply Keeps.foldl_snd)
    | (with_reducible refine Keeps.snd (by assumption) ?_)
    | (with_reducible refine Keeps.fst (by assumption) ?_)
    | intro _)

theorem endCmd_keeps : ∀ s a1 a2 a3 a4 a5 a6, Keeps [.uni, .uniBad, .host, .cores, .ctxs, .mports, .tiers, .hps, .tallies] s (endCmd s a1 a2 a3 a4 a5 a6) := by
  intro s a1 a2 a3 a4 a5 a6
  unfold endCmd
  repeat' (first
    | (with_reducible apply Keeps.ite)
    | with_reducible exact Keeps.refl _ _
    | with_reducible assumption
    | (with_reducible apply Keeps.then (post_keeps ..) ?_ (by decide))
    | (with_reducible apply Keeps.then (coreCount_keeps ..) ?_ (by decide))
    | (with_reducible apply Keeps.then (reportInOrder_keeps ..) ?_ (by decide))
    | (with_reducible apply Keeps.foldl)
    | (with_reducible apply Keeps.foldl_snd)
    | (with_reducible refine Keeps.snd (by assumption) ?_)
    | (with_reducible refine Keeps.fst (by assumption) ?_)
    | intro _)

theorem dropRun_keeps : ∀ s a1 a2, Keeps [.cores, .tiers, .hub2] s (dropRun s a1 a2) := by
  intro s a1 a2
  unfold dropRun
  repeat' (first
    | (with_reducible apply Keeps.ite)
    | with_reducible exact Keeps.refl _ _
    | with_reducible assumption
    | (with_reducible apply Keeps.then (State.modCore_keeps _ _ _ ?_) ?_ (by decide))
    | (with_reducible exact fun _ h => h)
    | (with_reducible exact fun h => h)
    | (with_reducible apply Keeps.then (settleClk_keeps ..) ?_ (by decide))
    | (with_reducible apply Keeps.then (freeBufs_keeps ..) ?_ (by decide))
    | (with_reducible apply Keeps.foldl)
    | (with_reducible apply Keeps.foldl_snd)
    | (with_reducible refine Keeps.snd (by assumption) ?_)
    | (with_reducible refine Keeps.fst (by assumption) ?_)
    | (with_reducible fail_if_no_progress (apply Keeps.set_tiers ?_ (by decide))))

theorem drainDone_keeps : ∀ s a1, Keeps [.cores] s (drainDone s a1) := by
  intro s a1
  refine State.modCore_keeps _ _ _ (fun c h => ?_)
  rw [Core.foldl_scratch _ _ (fun c i => by dsimp only; split <;> rfl)]
  exact h

theorem flushEnded_keeps : ∀ a0 s a2, Keeps [.uni, .uniBad, .host, .cores, .ctxs, .mports, .tiers, .hps, .tallies] s (flushEnded a0 s a2) := by
  intro a0 s a2
  induction a0 generalizing s with
  | zero => exact Keeps.refl _ _
  | succ k ih =>
    unfold flushEnded
    split
    · exact Keeps.refl _ _
    · refine Keeps.trans ?_ (ih _)
      with_reducible apply Keeps.then (coreReport_keeps ..) ?_ (by decide)
      with_reducible apply Keeps.then (State.modCore_keeps _ _ _ ?_) ?_ (by decide)
      · exact fun _ h => h
      · exact Keeps.refl _ _

theorem endRun_keeps : ∀ s a1 a2 a3, Keeps [.uni, .uniBad, .host, .cores, .ctxs, .mports, .tiers, .hps, .tallies, .hub2] s (endRun s a1 a2 a3) := by
  intro s a1 a2 a3
  unfold endRun
  repeat' (first
    | (with_reducible apply Keeps.ite)
    | with_reducible exact Keeps.refl _ _
    | with_reducible assumption
    | (with_reducible apply Keeps.then (countHeld_keeps ..) ?_ (by decide))
    | (with_reducible apply Keeps.then (countSat_keeps ..) ?_ (by decide))
    | (with_reducible apply Keeps.then (ctxCount_keeps ..) ?_ (by decide))
    | (with_reducible apply Keeps.then (endCmd_keeps ..) ?_ (by decide))
    | (with_reducible apply Keeps.then (dropRun_keeps ..) ?_ (by decide))
    | (with_reducible apply Keeps.then (drainDone_keeps ..) ?_ (by decide))
    | (with_reducible apply Keeps.then (flushEnded_keeps ..) ?_ (by decide))
    | (with_reducible apply Keeps.foldl)
    | (with_reducible apply Keeps.foldl_snd)
    | (with_reducible refine Keeps.snd (by assumption) ?_)
    | (with_reducible refine Keeps.fst (by assumption) ?_)
    | intro _)

theorem matFence_keeps : ∀ s a1 a2, Keeps [.uni, .uniBad, .host, .cores, .ctxs, .mports, .tiers, .hps, .tallies] s (matFence s a1 a2).1 := by
  intro s a1 a2
  unfold matFence
  repeat' (first
    | (with_reducible apply Keeps.ite)
    | with_reducible exact Keeps.refl _ _
    | with_reducible assumption
    | (with_reducible apply Keeps.then (freeBelow_keeps ..) ?_ (by decide))
    | (with_reducible apply Keeps.then (countFetches_keeps ..) ?_ (by decide))
    | (with_reducible apply Keeps.then (freeLead_keeps ..) ?_ (by decide))
    | (with_reducible apply Keeps.then (applyWrs_keeps ..) ?_ (by decide))
    | (with_reducible apply Keeps.foldl)
    | (with_reducible apply Keeps.foldl_snd)
    | (with_reducible refine Keeps.snd (by assumption) ?_)
    | (with_reducible refine Keeps.fst (by assumption) ?_)
    | intro _
    | dsimp only
    | split)

theorem standing_keeps : ∀ s a1 a2, Keeps [.uni, .uniBad, .host, .cores, .ctxs, .mports, .tiers, .hps, .tallies] s (standing s a1 a2).1 := by
  intro s a1 a2
  unfold standing
  repeat' (first
    | (with_reducible apply Keeps.ite)
    | with_reducible exact Keeps.refl _ _
    | with_reducible assumption
    | (with_reducible apply Keeps.then (coreCount_keeps ..) ?_ (by decide))
    | (with_reducible apply Keeps.then (applyWrs_keeps ..) ?_ (by decide)))

theorem standLead_keeps : ∀ s a1 a2, Keeps [.uni, .uniBad, .host, .cores, .ctxs, .mports, .tiers, .hps, .tallies] s (standLead s a1 a2).1 := by
  intro s a1 a2
  unfold standLead
  repeat' (first
    | (with_reducible apply Keeps.ite)
    | with_reducible exact Keeps.refl _ _
    | with_reducible assumption
    | (with_reducible apply Keeps.then (freeLead_keeps ..) ?_ (by decide))
    | (with_reducible apply Keeps.then (standing_keeps ..) ?_ (by decide)))

theorem copyFence_keeps : ∀ s a1 a2, Keeps [.uni, .uniBad, .host, .cores, .ctxs, .mports, .tiers, .oports, .accesses, .nextTag, .paths, .ces, .hps, .tallies] s (copyFence s a1 a2).1 := by
  intro s a1 a2
  unfold copyFence
  repeat' (first
    | (with_reducible apply Keeps.ite)
    | with_reducible exact Keeps.refl _ _
    | with_reducible assumption
    | (with_reducible apply Keeps.then (freeLead_keeps ..) ?_ (by decide))
    | (with_reducible apply Keeps.then (copyWrites_keeps ..) ?_ (by decide))
    | (with_reducible apply Keeps.then (freeBelow_keeps ..) ?_ (by decide))
    | (with_reducible apply Keeps.then (gWalk_keeps ..) ?_ (by decide))
    | (with_reducible apply Keeps.foldl)
    | (with_reducible apply Keeps.foldl_snd)
    | (with_reducible refine Keeps.snd (by assumption) ?_)
    | (with_reducible refine Keeps.fst (by assumption) ?_)
    | intro _
    | dsimp only
    | split)

theorem fencePart_keeps : ∀ s a1 a2, Keeps [.uni, .uniBad, .host, .cores, .ctxs, .mports, .tiers, .oports, .accesses, .nextTag, .paths, .ces, .hps, .tallies] s (fencePart s a1 a2).1 := by
  intro s a1 a2
  unfold fencePart
  repeat' (first
    | (with_reducible apply Keeps.ite)
    | with_reducible exact Keeps.refl _ _
    | with_reducible assumption
    | (with_reducible apply Keeps.then (matFence_keeps ..) ?_ (by decide))
    | (with_reducible apply Keeps.then (standLead_keeps ..) ?_ (by decide))
    | (with_reducible apply Keeps.then (freeSet_keeps ..) ?_ (by decide))
    | (with_reducible apply Keeps.then (standing_keeps ..) ?_ (by decide))
    | (with_reducible apply Keeps.then (updFence_keeps ..) ?_ (by decide))
    | (with_reducible apply Keeps.then (copyFence_keeps ..) ?_ (by decide))
    | (with_reducible apply Keeps.then (gatherBreak_keeps ..) ?_ (by decide))
    | (with_reducible apply Keeps.foldl)
    | (with_reducible apply Keeps.foldl_snd)
    | (with_reducible refine Keeps.snd (by assumption) ?_)
    | (with_reducible refine Keeps.fst (by assumption) ?_)
    | intro _
    | dsimp only
    | split)

theorem fenceRun_keeps : ∀ a0 s a2, Keeps [.uni, .uniBad, .host, .cores, .ctxs, .mports, .tiers, .oports, .accesses, .nextTag, .paths, .ces, .hps, .tallies, .hub2] s (fenceRun a0 s a2) := by
  intro a0 s a2
  unfold fenceRun
  repeat' (first
    | (with_reducible apply Keeps.ite)
    | with_reducible exact Keeps.refl _ _
    | with_reducible assumption
    | (with_reducible apply Keeps.then (endRun_keeps ..) ?_ (by decide))
    | (with_reducible apply Keeps.then (handHot_keeps ..) ?_ (by decide))
    | (with_reducible apply Keeps.then (fencePart_keeps ..) ?_ (by decide))
    | (with_reducible apply Keeps.foldl)
    | (with_reducible apply Keeps.foldl_snd)
    | (with_reducible refine Keeps.snd (by assumption) ?_)
    | (with_reducible refine Keeps.fst (by assumption) ?_)
    | intro _)

theorem popHead_keeps : ∀ s a1 a2 a3, Keeps [.cores] s (popHead s a1 a2 a3) := by
  intro s a1 a2 a3
  unfold popHead
  repeat' (first
    | (with_reducible apply Keeps.ite)
    | with_reducible exact Keeps.refl _ _
    | with_reducible assumption
    | (with_reducible apply Keeps.then (State.modCore_keeps _ _ _ ?_) ?_ (by decide))
    | (with_reducible exact fun _ h => h)
    | (with_reducible exact fun h => h)
    | (with_reducible apply Keeps.foldl)
    | (with_reducible apply Keeps.foldl_snd)
    | (with_reducible refine Keeps.snd (by assumption) ?_)
    | (with_reducible refine Keeps.fst (by assumption) ?_)
    | (show Memory.wf _ = true; assumption)
    | intro _)

theorem endHead_keeps : ∀ s a1 a2 a3 a4 a5 a6, Keeps [.uni, .uniBad, .host, .cores, .ctxs, .mports, .tiers, .hps, .tallies] s (endHead s a1 a2 a3 a4 a5 a6) := by
  intro s a1 a2 a3 a4 a5 a6
  unfold endHead
  repeat' (first
    | (with_reducible apply Keeps.ite)
    | with_reducible exact Keeps.refl _ _
    | with_reducible assumption
    | (with_reducible apply Keeps.then (drainDone_keeps ..) ?_ (by decide))
    | (with_reducible apply Keeps.then (endCmd_keeps ..) ?_ (by decide))
    | (with_reducible apply Keeps.then (popHead_keeps ..) ?_ (by decide)))

theorem fenceSlot_keeps : ∀ s a1 a2 a3, Keeps [.uni, .uniBad, .host, .cores, .ctxs, .mports, .tiers, .oports, .accesses, .nextTag, .paths, .ces, .hps, .tallies, .hub2] s (fenceSlot s a1 a2 a3) := by
  intro s a1 a2 a3
  unfold fenceSlot
  repeat' (first
    | (with_reducible apply Keeps.ite)
    | with_reducible exact Keeps.refl _ _
    | with_reducible assumption
    | (with_reducible apply Keeps.then (fenceRun_keeps ..) ?_ (by decide))
    | (with_reducible apply Keeps.then (State.modCore_keeps _ _ _ ?_) ?_ (by decide))
    | (with_reducible exact fun _ h => h)
    | (with_reducible exact fun h => h)
    | (with_reducible apply Keeps.then (endHead_keeps ..) ?_ (by decide))
    | (with_reducible apply Keeps.then (post_keeps ..) ?_ (by decide))
    | (with_reducible apply Keeps.foldl)
    | (with_reducible apply Keeps.foldl_snd)
    | (with_reducible refine Keeps.snd (by assumption) ?_)
    | (with_reducible refine Keeps.fst (by assumption) ?_)
    | intro _
    | dsimp only
    | split)

theorem fenceCore_keeps : ∀ s a1 a2, Keeps [.uni, .uniBad, .host, .cores, .ctxs, .mports, .tiers, .oports, .accesses, .nextTag, .paths, .ces, .hps, .tallies, .hub2] s (fenceCore s a1 a2) := by
  intro s a1 a2
  unfold fenceCore
  repeat' (first
    | (with_reducible apply Keeps.ite)
    | with_reducible exact Keeps.refl _ _
    | with_reducible assumption
    | (with_reducible apply Keeps.then (fenceSlot_keeps ..) ?_ (by decide))
    | (with_reducible apply Keeps.foldl)
    | (with_reducible apply Keeps.foldl_snd)
    | (with_reducible refine Keeps.snd (by assumption) ?_)
    | (with_reducible refine Keeps.fst (by assumption) ?_)
    | intro _)

theorem commandLost_keeps : ∀ s a1 a2 a3 a4, Keeps [.uni, .uniBad, .host, .cores, .ctxs, .mports, .tiers, .hps, .tallies] s (commandLost s a1 a2 a3 a4) := by
  intro s a1 a2 a3 a4
  unfold commandLost
  repeat' (first
    | (with_reducible apply Keeps.ite)
    | with_reducible exact Keeps.refl _ _
    | with_reducible assumption
    | (with_reducible apply Keeps.then (freeBelow_keeps ..) ?_ (by decide))
    | (with_reducible apply Keeps.then (enterRecovery_keeps ..) ?_ (by decide))
    | (with_reducible apply Keeps.then (post_keeps ..) ?_ (by decide))
    | (with_reducible apply Keeps.then (endHead_keeps ..) ?_ (by decide)))

theorem checkTouch_keeps : ∀ s a1 a2 a3, Keeps [.uniBad, .cores, .mports, .tiers, .hps, .tallies] s (checkTouch s a1 a2 a3) := by
  intro s a1 a2 a3
  unfold checkTouch
  repeat' (first
    | (with_reducible apply Keeps.ite)
    | with_reducible exact Keeps.refl _ _
    | with_reducible assumption
    | (with_reducible apply Keeps.then (spTouch_keeps ..) ?_ (by decide))
    | (with_reducible apply Keeps.then (devTouch_keeps ..) ?_ (by decide))
    | (with_reducible apply Keeps.foldl)
    | (with_reducible apply Keeps.foldl_snd)
    | (with_reducible refine Keeps.snd (by assumption) ?_)
    | (with_reducible refine Keeps.fst (by assumption) ?_)
    | intro _
    | dsimp only
    | split)

theorem checkHead_keeps : ∀ a0 a1 s a3, Keeps [.uni, .uniBad, .host, .cores, .ctxs, .mports, .tiers, .hps, .tallies] s (checkHead a0 a1 s a3) := by
  intro a0 a1 s a3
  unfold checkHead
  repeat' (first
    | (with_reducible apply Keeps.ite)
    | with_reducible exact Keeps.refl _ _
    | with_reducible assumption
    | (with_reducible apply Keeps.then (commandLost_keeps ..) ?_ (by decide))
    | (with_reducible apply Keeps.then (endHead_keeps ..) ?_ (by decide))
    | (with_reducible apply Keeps.then (checkTouch_keeps ..) ?_ (by decide))
    | (with_reducible apply Keeps.then (State.modCore_keeps _ _ _ ?_) ?_ (by decide))
    | (with_reducible exact fun _ h => h)
    | (with_reducible exact fun h => h)
    | (with_reducible apply Keeps.foldl)
    | (with_reducible apply Keeps.foldl_snd)
    | (with_reducible refine Keeps.snd (by assumption) ?_)
    | (with_reducible refine Keeps.fst (by assumption) ?_)
    | intro _
    | dsimp only
    | split)

end Sys2Proof.Machine
end

