-- ==== Sys2Proof/Laws/Ibex.lean ====
section
/-! SUPPORT. What each operation of Machine/Ibex.lean keeps. -/

namespace Sys2Proof.Machine

open Sys2Proof

theorem ibxPost_keeps : ∀ s a1 a2 a3 a4 a5, Keeps [.tallies] s (ibxPost s a1 a2 a3 a4 a5) := by
  intro s a1 a2 a3 a4 a5
  unfold ibxPost
  repeat' (first
    | (with_reducible apply Keeps.ite)
    | with_reducible exact Keeps.refl _ _
    | with_reducible assumption
    | (with_reducible apply Keeps.then (post_keeps ..) ?_ (by decide)))

theorem noteCold_keeps : ∀ s a1 a2, Keeps [.ctxs, .tallies] s (noteCold s a1 a2) := by
  intro s a1 a2
  unfold noteCold
  repeat' (first
    | (with_reducible apply Keeps.ite)
    | with_reducible exact Keeps.refl _ _
    | with_reducible assumption
    | (with_reducible apply Keeps.then (ibxPost_keeps ..) ?_ (by decide))
    | (with_reducible apply Keeps.then (ctxCount_keeps ..) ?_ (by decide))
    | (with_reducible apply Keeps.foldl)
    | (with_reducible apply Keeps.foldl_snd)
    | (with_reducible refine Keeps.snd (by assumption) ?_)
    | (with_reducible refine Keeps.fst (by assumption) ?_)
    | intro _)

theorem retryPosts_keeps : ∀ s a1 a2, Keeps [.tallies] s (retryPosts s a1 a2) := by
  intro s a1 a2
  unfold retryPosts
  repeat' (first
    | (with_reducible apply Keeps.ite)
    | with_reducible exact Keeps.refl _ _
    | with_reducible assumption
    | (with_reducible apply Keeps.then (ibxPost_keeps ..) ?_ (by decide))
    | (with_reducible apply Keeps.foldl)
    | (with_reducible apply Keeps.foldl_snd)
    | (with_reducible refine Keeps.snd (by assumption) ?_)
    | (with_reducible refine Keeps.fst (by assumption) ?_)
    | intro _)

theorem breakOff_keeps : ∀ s a1 a2, Keeps [.ctxs, .tallies] s (breakOff s a1 a2).2 := by
  intro s a1 a2
  unfold breakOff
  repeat' (first
    | (with_reducible apply Keeps.ite)
    | with_reducible exact Keeps.refl _ _
    | with_reducible assumption
    | (with_reducible apply Keeps.then (freeBelow_keeps ..) ?_ (by decide))
    | (with_reducible apply Keeps.then (noteCold_keeps ..) ?_ (by decide))
    | (with_reducible apply Keeps.then (retryPosts_keeps ..) ?_ (by decide))
    | (with_reducible apply Keeps.foldl)
    | (with_reducible apply Keeps.foldl_snd)
    | (with_reducible refine Keeps.snd (by assumption) ?_)
    | (with_reducible refine Keeps.fst (by assumption) ?_)
    | intro _
    | dsimp only
    | split)

theorem countLanes_keeps : ∀ s a1 a2 a3, Keeps [.ibex] s (countLanes s a1 a2 a3) := by
  intro s a1 a2 a3
  unfold countLanes
  repeat' (first
    | (with_reducible apply Keeps.ite)
    | with_reducible exact Keeps.refl _ _
    | with_reducible assumption
    | (with_reducible apply Keeps.then (freeBelow_keeps ..) ?_ (by decide))
    | (with_reducible apply Keeps.then (State.modIbx_keeps ..) ?_ (by decide)))

theorem fencedWork_keeps : ∀ s a1 a2 a3, Keeps [.ctxs, .ibex, .tallies] s (fencedWork s a1 a2 a3).2 := by
  intro s a1 a2 a3
  unfold fencedWork
  repeat' (first
    | (with_reducible apply Keeps.ite)
    | with_reducible exact Keeps.refl _ _
    | with_reducible assumption
    | (with_reducible apply Keeps.then (breakOff_keeps ..) ?_ (by decide))
    | (with_reducible apply Keeps.then (countLanes_keeps ..) ?_ (by decide))
    | (with_reducible apply Keeps.foldl)
    | (with_reducible apply Keeps.foldl_snd)
    | (with_reducible refine Keeps.snd (by assumption) ?_)
    | (with_reducible refine Keeps.fst (by assumption) ?_)
    | intro _
    | dsimp only
    | split)

theorem entryOver_keeps : ∀ s a1 a2 a3 a4, Keeps [.ibex] s (entryOver s a1 a2 a3 a4) := by
  intro s a1 a2 a3 a4
  unfold entryOver
  repeat' (first
    | (with_reducible apply Keeps.ite)
    | with_reducible exact Keeps.refl _ _
    | with_reducible assumption
    | (with_reducible apply Keeps.then (State.modIbx_keeps ..) ?_ (by decide)))

theorem fenceEntry_keeps : ∀ s a1 a2 a3 a4, Keeps [.uni, .uniBad, .host, .cores, .ctxs, .ibex, .mports, .tiers, .hps, .tallies] s (fenceEntry s a1 a2 a3 a4) := by
  intro s a1 a2 a3 a4
  unfold fenceEntry
  repeat' (first
    | (with_reducible apply Keeps.ite)
    | with_reducible exact Keeps.refl _ _
    | with_reducible assumption
    | (with_reducible apply Keeps.then (entryOver_keeps ..) ?_ (by decide))
    | (with_reducible apply Keeps.then (devWrite_keeps ..) ?_ (by decide)))

theorem fenceRunning_keeps : ∀ s a1 a2, Keeps [.uni, .uniBad, .host, .cores, .ctxs, .ibex, .mports, .tiers, .hps, .tallies] s (fenceRunning s a1 a2) := by
  intro s a1 a2
  unfold fenceRunning
  repeat' (first
    | (with_reducible apply Keeps.ite)
    | with_reducible exact Keeps.refl _ _
    | with_reducible assumption
    | (with_reducible apply Keeps.then (fencedWork_keeps ..) ?_ (by decide))
    | (with_reducible apply Keeps.then (fenceEntry_keeps ..) ?_ (by decide))
    | (with_reducible apply Keeps.then (State.modIbx_keeps ..) ?_ (by decide))
    | (with_reducible apply Keeps.foldl)
    | (with_reducible apply Keeps.foldl_snd)
    | (with_reducible refine Keeps.snd (by assumption) ?_)
    | (with_reducible refine Keeps.fst (by assumption) ?_)
    | intro _
    | dsimp only
    | split)

theorem fenceLanes_keeps : ∀ s a1 a2 a3, Keeps [.uni, .uniBad, .host, .cores, .ctxs, .ibex, .mports, .tiers, .hps, .tallies] s (fenceLanes s a1 a2 a3) := by
  intro s a1 a2 a3
  unfold fenceLanes
  repeat' (first
    | (with_reducible apply Keeps.ite)
    | with_reducible exact Keeps.refl _ _
    | with_reducible assumption
    | (with_reducible apply Keeps.then (fenceRunning_keeps ..) ?_ (by decide))
    | (with_reducible apply Keeps.then (post_keeps ..) ?_ (by decide))
    | (with_reducible apply Keeps.foldl)
    | (with_reducible apply Keeps.foldl_snd)
    | (with_reducible refine Keeps.snd (by assumption) ?_)
    | (with_reducible refine Keeps.fst (by assumption) ?_)
    | intro _)

theorem fenceEngines_keeps : ∀ s a1 a2 a3, Keeps [.uni, .uniBad, .host, .cores, .ctxs, .ibex, .mports, .tiers, .oports, .accesses, .nextTag, .paths, .ces, .hps, .tallies, .hub2] s (fenceEngines s a1 a2 a3) := by
  intro s a1 a2 a3
  unfold fenceEngines
  repeat' (first
    | (with_reducible apply Keeps.ite)
    | with_reducible exact Keeps.refl _ _
    | with_reducible assumption
    | (with_reducible apply Keeps.then (fenceLanes_keeps ..) ?_ (by decide))
    | (with_reducible apply Keeps.then (fenceCore_keeps ..) ?_ (by decide))
    | (with_reducible apply Keeps.foldl)
    | (with_reducible apply Keeps.foldl_snd)
    | (with_reducible refine Keeps.snd (by assumption) ?_)
    | (with_reducible refine Keeps.fst (by assumption) ?_)
    | intro _
    | dsimp only
    | split)

theorem raiseUnit_keeps : ∀ s a1 a2 a3, Keeps [.uni, .uniBad, .host, .cores, .ctxs, .ibex, .mports, .tiers, .oports, .accesses, .nextTag, .paths, .ces, .hurdles, .hps, .tallies, .hub2] s (raiseUnit s a1 a2 a3) := by
  intro s a1 a2 a3
  unfold raiseUnit
  repeat' (first
    | (with_reducible apply Keeps.ite)
    | with_reducible exact Keeps.refl _ _
    | with_reducible assumption
    | (with_reducible apply Keeps.then (State.modHurdle_keeps ..) ?_ (by decide))
    | (with_reducible apply Keeps.then (fenceEngines_keeps ..) ?_ (by decide))
    | (with_reducible apply Keeps.then (post_keeps ..) ?_ (by decide)))

theorem entryFault_keeps : ∀ s a1 a2, Keeps [.uniBad, .mports, .tiers, .hps, .tallies] s (entryFault s a1 a2).2 := by
  intro s a1 a2
  unfold entryFault
  repeat' (first
    | (with_reducible apply Keeps.ite)
    | with_reducible exact Keeps.refl _ _
    | with_reducible assumption
    | (with_reducible apply Keeps.then (devTouch_keeps ..) ?_ (by decide))
    | (with_reducible apply Keeps.foldl)
    | (with_reducible apply Keeps.foldl_snd)
    | (with_reducible refine Keeps.snd (by assumption) ?_)
    | (with_reducible refine Keeps.fst (by assumption) ?_)
    | intro _
    | dsimp only
    | split)

theorem fallback_keeps : ∀ s a1 a2 a3, Keeps [.uniBad, .mports, .tiers, .hps, .tallies] s (fallback s a1 a2 a3).2 := by
  intro s a1 a2 a3
  unfold fallback
  repeat' (first
    | (with_reducible apply Keeps.ite)
    | with_reducible exact Keeps.refl _ _
    | with_reducible assumption
    | (with_reducible apply Keeps.then (entryFault_keeps ..) ?_ (by decide))
    | (with_reducible apply Keeps.then (devTouch_keeps ..) ?_ (by decide))
    | (with_reducible apply Keeps.foldl)
    | (with_reducible apply Keeps.foldl_snd)
    | (with_reducible refine Keeps.snd (by assumption) ?_)
    | (with_reducible refine Keeps.fst (by assumption) ?_)
    | intro _
    | dsimp only
    | split)

theorem carryOr_keeps : ∀ s a1 a2 a3 a4, Keeps [.uniBad, .mports, .tiers, .hps, .tallies] s (carryOr s a1 a2 a3 a4).2 := by
  intro s a1 a2 a3 a4
  unfold carryOr
  repeat' (first
    | (with_reducible apply Keeps.ite)
    | with_reducible exact Keeps.refl _ _
    | with_reducible assumption
    | (with_reducible apply Keeps.then (entryFault_keeps ..) ?_ (by decide))
    | (with_reducible apply Keeps.then (devTouch_keeps ..) ?_ (by decide))
    | (with_reducible apply Keeps.then (fallback_keeps ..) ?_ (by decide))
    | (with_reducible apply Keeps.foldl)
    | (with_reducible apply Keeps.foldl_snd)
    | (with_reducible refine Keeps.snd (by assumption) ?_)
    | (with_reducible refine Keeps.fst (by assumption) ?_)
    | intro _
    | dsimp only
    | split)

theorem breakdown_keeps : ∀ s a1 a2, Keeps [.uniBad, .mports, .tiers, .hps, .tallies] s (breakdown s a1 a2).2 := by
  intro s a1 a2
  unfold breakdown
  repeat' (first
    | (with_reducible apply Keeps.ite)
    | with_reducible exact Keeps.refl _ _
    | with_reducible assumption
    | (with_reducible apply Keeps.then (carryOr_keeps ..) ?_ (by decide))
    | (with_reducible apply Keeps.then (ibxPost_keeps ..) ?_ (by decide)))

theorem countStop_keeps : ∀ s a1 a2, Keeps [.ibex] s (countStop s a1 a2) := by
  intro s a1 a2
  unfold countStop
  repeat' (first
    | (with_reducible apply Keeps.ite)
    | with_reducible exact Keeps.refl _ _
    | with_reducible assumption
    | (with_reducible apply Keeps.then (State.modIbx_keeps ..) ?_ (by decide))
    | (with_reducible apply Keeps.foldl)
    | (with_reducible apply Keeps.foldl_snd)
    | (with_reducible refine Keeps.snd (by assumption) ?_)
    | (with_reducible refine Keeps.fst (by assumption) ?_)
    | intro _)

theorem guardRes_keeps : ∀ s a1 a2 a3, Keeps [.uniBad, .mports, .tiers, .hps, .tallies] s (guardRes s a1 a2 a3).2 := by
  intro s a1 a2 a3
  unfold guardRes
  repeat' (first
    | (with_reducible apply Keeps.ite)
    | with_reducible exact Keeps.refl _ _
    | with_reducible assumption
    | (with_reducible apply Keeps.then (entryFault_keeps ..) ?_ (by decide))
    | (with_reducible apply Keeps.then (devTouch_keeps ..) ?_ (by decide))
    | (with_reducible apply Keeps.foldl)
    | (with_reducible apply Keeps.foldl_snd)
    | (with_reducible refine Keeps.snd (by assumption) ?_)
    | (with_reducible refine Keeps.fst (by assumption) ?_)
    | intro _
    | dsimp only
    | split)

theorem noteResult_keeps : ∀ s a1 a2, Keeps [.ctxs, .tallies] s (noteResult s a1 a2) := by
  intro s a1 a2
  unfold noteResult
  repeat' (first
    | (with_reducible apply Keeps.ite)
    | with_reducible exact Keeps.refl _ _
    | with_reducible assumption
    | (with_reducible apply Keeps.then (ctxCount_keeps ..) ?_ (by decide))
    | (with_reducible apply Keeps.then (ibxPost_keeps ..) ?_ (by decide))
    | (with_reducible apply Keeps.foldl)
    | (with_reducible apply Keeps.foldl_snd)
    | (with_reducible refine Keeps.snd (by assumption) ?_)
    | (with_reducible refine Keeps.fst (by assumption) ?_)
    | intro _)

theorem writeHeader_keeps : ∀ s a1 a2, Keeps [.uni, .uniBad, .host, .cores, .ctxs, .mports, .tiers, .hps, .tallies] s (writeHeader s a1 a2) := by
  intro s a1 a2
  unfold writeHeader
  repeat' (first
    | (with_reducible apply Keeps.ite)
    | with_reducible exact Keeps.refl _ _
    | with_reducible assumption
    | (with_reducible apply Keeps.then (devWrite_keeps ..) ?_ (by decide))
    | (with_reducible apply Keeps.then (noteResult_keeps ..) ?_ (by decide))
    | (with_reducible apply Keeps.foldl)
    | (with_reducible apply Keeps.foldl_snd)
    | (with_reducible refine Keeps.snd (by assumption) ?_)
    | (with_reducible refine Keeps.fst (by assumption) ?_)
    | intro _)

theorem writeBody_keeps : ∀ s a1 a2 a3, Keeps [.uni, .uniBad, .host, .cores, .ctxs, .mports, .tiers, .hps, .tallies] s (writeBody s a1 a2 a3) := by
  intro s a1 a2 a3
  unfold writeBody
  repeat' (first
    | (with_reducible apply Keeps.ite)
    | with_reducible exact Keeps.refl _ _
    | with_reducible assumption
    | (with_reducible apply Keeps.then (devWrite_keeps ..) ?_ (by decide))
    | (with_reducible apply Keeps.foldl)
    | (with_reducible apply Keeps.foldl_snd)
    | (with_reducible refine Keeps.snd (by assumption) ?_)
    | (with_reducible refine Keeps.fst (by assumption) ?_)
    | intro _)

theorem stopped_keeps : ∀ s a1 a2, Keeps [.uniBad, .mports, .tiers, .hps, .tallies] s (stopped s a1 a2).2 := by
  intro s a1 a2
  unfold stopped
  repeat' (first
    | (with_reducible apply Keeps.ite)
    | with_reducible exact Keeps.refl _ _
    | with_reducible assumption
    | (with_reducible apply Keeps.then (carryOr_keeps ..) ?_ (by decide))
    | (with_reducible apply Keeps.foldl)
    | (with_reducible apply Keeps.foldl_snd)
    | (with_reducible refine Keeps.snd (by assumption) ?_)
    | (with_reducible refine Keeps.fst (by assumption) ?_)
    | intro _
    | dsimp only
    | split)

theorem notStarted_keeps : ∀ s a1 a2 a3, Keeps [.uni, .uniBad, .host, .cores, .ctxs, .ibex, .mports, .tiers, .hps, .tallies] s (notStarted s a1 a2 a3) := by
  intro s a1 a2 a3
  unfold notStarted
  repeat' (first
    | (with_reducible apply Keeps.ite)
    | with_reducible exact Keeps.refl _ _
    | with_reducible assumption
    | (with_reducible apply Keeps.then (guardRes_keeps ..) ?_ (by decide))
    | (with_reducible apply Keeps.then (entryOver_keeps ..) ?_ (by decide))
    | (with_reducible apply Keeps.then (writeHeader_keeps ..) ?_ (by decide))
    | (with_reducible apply Keeps.then (writeBody_keeps ..) ?_ (by decide))
    | (with_reducible apply Keeps.then (countStop_keeps ..) ?_ (by decide))
    | (with_reducible apply Keeps.then (entryFault_keeps ..) ?_ (by decide))
    | (with_reducible apply Keeps.then (stopped_keeps ..) ?_ (by decide))
    | (with_reducible apply Keeps.foldl)
    | (with_reducible apply Keeps.foldl_snd)
    | (with_reducible refine Keeps.snd (by assumption) ?_)
    | (with_reducible refine Keeps.fst (by assumption) ?_)
    | intro _
    | dsimp only
    | split)

theorem dropLate_keeps : ∀ s a1, Keeps [.uni, .uniBad, .host, .cores, .ctxs, .ibex, .mports, .tiers, .hps, .tallies] s (dropLate s a1) := by
  intro s a1
  unfold dropLate
  repeat' (first
    | (with_reducible apply Keeps.ite)
    | with_reducible exact Keeps.refl _ _
    | with_reducible assumption
    | (with_reducible apply Keeps.then (notStarted_keeps ..) ?_ (by decide))
    | (with_reducible apply Keeps.then (State.modIbx_keeps ..) ?_ (by decide))
    | (with_reducible apply Keeps.foldl)
    | (with_reducible apply Keeps.foldl_snd)
    | (with_reducible refine Keeps.snd (by assumption) ?_)
    | (with_reducible refine Keeps.fst (by assumption) ?_)
    | intro _)

theorem laneGood_keeps : ∀ s a1 a2, Keeps [.ibex] s (laneGood s a1 a2) := by
  intro s a1 a2
  unfold laneGood
  repeat' (first
    | (with_reducible apply Keeps.ite)
    | with_reducible exact Keeps.refl _ _
    | with_reducible assumption
    | (with_reducible apply Keeps.then (State.modIbx_keeps ..) ?_ (by decide)))

theorem laneCorrect_keeps : ∀ s a1 a2 a3, Keeps [.ibex, .tallies] s (laneCorrect s a1 a2 a3) := by
  intro s a1 a2 a3
  unfold laneCorrect
  repeat' (first
    | (with_reducible apply Keeps.ite)
    | with_reducible exact Keeps.refl _ _
    | with_reducible assumption
    | (with_reducible apply Keeps.then (post_keeps ..) ?_ (by decide))
    | (with_reducible apply Keeps.then (State.modIbx_keeps ..) ?_ (by decide))
    | (with_reducible apply Keeps.then (laneGood_keeps ..) ?_ (by decide)))

theorem laneUncorr_keeps : ∀ s a1 a2 a3 a4, Keeps [.ibex, .tallies] s (laneUncorr s a1 a2 a3 a4) := by
  intro s a1 a2 a3 a4
  unfold laneUncorr
  repeat' (first
    | (with_reducible apply Keeps.ite)
    | with_reducible exact Keeps.refl _ _
    | with_reducible assumption
    | (with_reducible apply Keeps.then (ibxPost_keeps ..) ?_ (by decide))
    | (with_reducible apply Keeps.then (State.modIbx_keeps ..) ?_ (by decide)))

theorem laneMeet_keeps : ∀ s a1 a2 a3 a4 a5, Keeps [.ibex, .tallies] s (laneMeet s a1 a2 a3 a4 a5).2 := by
  intro s a1 a2 a3 a4 a5
  unfold laneMeet
  repeat' (first
    | (with_reducible apply Keeps.ite)
    | with_reducible exact Keeps.refl _ _
    | with_reducible assumption
    | (with_reducible apply Keeps.then (laneGood_keeps ..) ?_ (by decide))
    | (with_reducible apply Keeps.then (laneCorrect_keeps ..) ?_ (by decide))
    | (with_reducible apply Keeps.then (laneUncorr_keeps ..) ?_ (by decide))
    | (with_reducible apply Keeps.then (State.modIbx_keeps ..) ?_ (by decide))
    | (with_reducible apply Keeps.foldl)
    | (with_reducible apply Keeps.foldl_snd)
    | (with_reducible refine Keeps.snd (by assumption) ?_)
    | (with_reducible refine Keeps.fst (by assumption) ?_)
    | intro _
    | dsimp only
    | split)

theorem laneScan_keeps : ∀ s a1 a2 a3, Keeps [.ibex, .tallies] s (laneScan s a1 a2 a3).2 := by
  intro s a1 a2 a3
  unfold laneScan
  repeat' (first
    | (with_reducible apply Keeps.ite)
    | with_reducible exact Keeps.refl _ _
    | with_reducible assumption
    | (with_reducible apply Keeps.then (laneMeet_keeps ..) ?_ (by decide))
    | (with_reducible apply Keeps.then (freeBelow_keeps ..) ?_ (by decide))
    | (with_reducible apply Keeps.foldl)
    | (with_reducible apply Keeps.foldl_snd)
    | (with_reducible refine Keeps.snd (by assumption) ?_)
    | (with_reducible refine Keeps.fst (by assumption) ?_)
    | intro _
    | dsimp only
    | split)

theorem putEntry_keeps : ∀ s a1 a2, Keeps [.ibex] s (putEntry s a1 a2) := by
  intro s a1 a2
  unfold putEntry
  repeat' (first
    | (with_reducible apply Keeps.ite)
    | with_reducible exact Keeps.refl _ _
    | with_reducible assumption
    | (with_reducible apply Keeps.then (State.modIbx_keeps ..) ?_ (by decide)))

theorem finishEntry_keeps : ∀ s a1 a2 a3 a4 a5, Keeps [.uni, .uniBad, .host, .cores, .ctxs, .ibex, .mports, .tiers, .hps, .tallies] s (finishEntry s a1 a2 a3 a4 a5) := by
  intro s a1 a2 a3 a4 a5
  unfold finishEntry
  repeat' (first
    | (with_reducible apply Keeps.ite)
    | with_reducible exact Keeps.refl _ _
    | with_reducible assumption
    | (with_reducible apply Keeps.then (guardRes_keeps ..) ?_ (by decide))
    | (with_reducible apply Keeps.then (countLanes_keeps ..) ?_ (by decide))
    | (with_reducible apply Keeps.then (countStop_keeps ..) ?_ (by decide))
    | (with_reducible apply Keeps.then (putEntry_keeps ..) ?_ (by decide))
    | (with_reducible apply Keeps.then (writeBody_keeps ..) ?_ (by decide)))

theorem iterOutcome_keeps : ∀ s a1 a2 a3 a4 a5 a6 a7, Keeps [.uniBad, .mports, .tiers, .hps, .tallies] s (iterOutcome s a1 a2 a3 a4 a5 a6 a7).2 := by
  intro s a1 a2 a3 a4 a5 a6 a7
  unfold iterOutcome
  repeat' (first
    | (with_reducible apply Keeps.ite)
    | with_reducible exact Keeps.refl _ _
    | with_reducible assumption
    | (with_reducible apply Keeps.then (ibxPost_keeps ..) ?_ (by decide))
    | (with_reducible apply Keeps.then (breakdown_keeps ..) ?_ (by decide))
    | (with_reducible apply Keeps.then (freeBelow_keeps ..) ?_ (by decide))
    | (with_reducible apply Keeps.then (stopped_keeps ..) ?_ (by decide))
    | (with_reducible apply Keeps.foldl)
    | (with_reducible apply Keeps.foldl_snd)
    | (with_reducible refine Keeps.snd (by assumption) ?_)
    | (with_reducible refine Keeps.fst (by assumption) ?_)
    | intro _
    | dsimp only
    | split)

theorem runEntry_keeps : ∀ s a1 a2 a3 a4 a5, Keeps [.uniBad, .ctxs, .mports, .tiers, .hps, .tallies] s (runEntry s a1 a2 a3 a4 a5).2 := by
  intro s a1 a2 a3 a4 a5
  unfold runEntry
  repeat' (first
    | (with_reducible apply Keeps.ite)
    | with_reducible exact Keeps.refl _ _
    | with_reducible assumption
    | (with_reducible apply Keeps.then (breakOff_keeps ..) ?_ (by decide))
    | (with_reducible apply Keeps.then (stopped_keeps ..) ?_ (by decide))
    | (with_reducible apply Keeps.then (noteCold_keeps ..) ?_ (by decide))
    | (with_reducible apply Keeps.then (retryPosts_keeps ..) ?_ (by decide))
    | (with_reducible apply Keeps.then (breakdown_keeps ..) ?_ (by decide))
    | (with_reducible apply Keeps.then (iterOutcome_keeps ..) ?_ (by decide))
    | (with_reducible apply Keeps.then (entryFault_keeps ..) ?_ (by decide))
    | (with_reducible apply Keeps.then (devTouch_keeps ..) ?_ (by decide))
    | (with_reducible apply Keeps.foldl)
    | (with_reducible apply Keeps.foldl_snd)
    | (with_reducible refine Keeps.snd (by assumption) ?_)
    | (with_reducible refine Keeps.fst (by assumption) ?_)
    | intro _
    | dsimp only
    | split)

theorem endEntry_keeps : ∀ s a1 a2 a3, Keeps [.uni, .uniBad, .host, .cores, .ctxs, .ibex, .mports, .tiers, .hps, .tallies] s (endEntry s a1 a2 a3) := by
  intro s a1 a2 a3
  unfold endEntry
  repeat' (first
    | (with_reducible apply Keeps.ite)
    | with_reducible exact Keeps.refl _ _
    | with_reducible assumption
    | (with_reducible apply Keeps.then (laneScan_keeps ..) ?_ (by decide))
    | (with_reducible apply Keeps.then (breakOff_keeps ..) ?_ (by decide))
    | (with_reducible apply Keeps.then (finishEntry_keeps ..) ?_ (by decide))
    | (with_reducible apply Keeps.then (runEntry_keeps ..) ?_ (by decide))
    | (with_reducible apply Keeps.foldl)
    | (with_reducible apply Keeps.foldl_snd)
    | (with_reducible refine Keeps.snd (by assumption) ?_)
    | (with_reducible refine Keeps.fst (by assumption) ?_)
    | intro _
    | dsimp only
    | split)

theorem ibxReport_keeps : ∀ s a1 a2 a3 a4 a5 a6, Keeps [.uni, .uniBad, .host, .cores, .ctxs, .mports, .tiers, .hps, .tallies] s (ibxReport s a1 a2 a3 a4 a5 a6) := by
  intro s a1 a2 a3 a4 a5 a6
  unfold ibxReport
  repeat' (first
    | (with_reducible apply Keeps.ite)
    | with_reducible exact Keeps.refl _ _
    | with_reducible assumption
    | (with_reducible apply Keeps.then (reportRec_keeps ..) ?_ (by decide)))

theorem execIbatch_keeps : ∀ a0 a1 s, Gives [.uni, .uniBad, .host, .cores, .ctxs, .ibex, .mports, .tiers, .hps, .tallies] s (execIbatch a0 a1 s) := by
  intro a0 a1 s
  unfold execIbatch
  repeat' (first
    | (with_reducible apply Gives.ite)
    | (with_reducible apply Keeps.ite)
    | with_reducible exact Keeps.refl _ _
    | with_reducible assumption
    | (with_reducible apply Keeps.then (State.modIbx_keeps ..) ?_ (by decide))
    | (with_reducible apply Keeps.then (ibxReport_keeps ..) ?_ (by decide))
    | (with_reducible apply Keeps.then (devTouch_keeps ..) ?_ (by decide))
    | (with_reducible apply Gives.next)
    | (with_reducible apply Keeps.foldl)
    | (with_reducible apply Keeps.foldl_snd)
    | (with_reducible refine Keeps.snd (by assumption) ?_)
    | (with_reducible refine Keeps.fst (by assumption) ?_)
    | intro _
    | dsimp only
    | split)

theorem takeEntry_keeps : ∀ s a1 a2, Keeps [.ibex] s (takeEntry s a1 a2) := by
  intro s a1 a2
  unfold takeEntry
  repeat' (first
    | (with_reducible apply Keeps.ite)
    | with_reducible exact Keeps.refl _ _
    | with_reducible assumption
    | (with_reducible apply Keeps.then (State.modIbx_keeps ..) ?_ (by decide)))

theorem srcTouch_keeps : ∀ s a1 a2, Keeps [.uniBad, .mports, .tiers, .tallies] s (srcTouch s a1 a2) := by
  intro s a1 a2
  unfold srcTouch
  repeat' (first
    | (with_reducible apply Keeps.ite)
    | with_reducible exact Keeps.refl _ _
    | with_reducible assumption
    | (with_reducible apply Keeps.then (readErrors_keeps ..) ?_ (by decide))
    | (with_reducible apply Keeps.then (touchTile_keeps ..) ?_ (by decide))
    | (with_reducible apply Keeps.foldl)
    | (with_reducible apply Keeps.foldl_snd)
    | (with_reducible refine Keeps.snd (by assumption) ?_)
    | (with_reducible refine Keeps.fst (by assumption) ?_)
    | intro _)

theorem loadEntry_keeps : ∀ s a1 a2 a3 a4 a5, Keeps [.uniBad, .ctxs, .ibex, .mports, .tiers, .hps, .tallies] s (loadEntry s a1 a2 a3 a4 a5) := by
  intro s a1 a2 a3 a4 a5
  unfold loadEntry
  repeat' (first
    | (with_reducible apply Keeps.ite)
    | with_reducible exact Keeps.refl _ _
    | with_reducible assumption
    | (with_reducible apply Keeps.then (State.modIbx_keeps ..) ?_ (by decide))
    | (with_reducible apply Keeps.then (entryFault_keeps ..) ?_ (by decide))
    | (with_reducible apply Keeps.then (srcTouch_keeps ..) ?_ (by decide))
    | (with_reducible apply Keeps.then (ctxCount_keeps ..) ?_ (by decide))
    | (with_reducible apply Keeps.then (post_keeps ..) ?_ (by decide))
    | (with_reducible apply Keeps.foldl)
    | (with_reducible apply Keeps.foldl_snd)
    | (with_reducible refine Keeps.snd (by assumption) ?_)
    | (with_reducible refine Keeps.fst (by assumption) ?_)
    | intro _
    | dsimp only
    | split)

theorem execEntryDispatch_keeps : ∀ a0 s, Gives [.uni, .uniBad, .host, .cores, .ctxs, .ibex, .mports, .tiers, .hps, .tallies] s (execEntryDispatch a0 s) := by
  intro a0 s
  unfold execEntryDispatch
  repeat' (first
    | (with_reducible apply Gives.ite)
    | (with_reducible apply Keeps.ite)
    | with_reducible exact Keeps.refl _ _
    | with_reducible assumption
    | (with_reducible apply Keeps.then (takeEntry_keeps ..) ?_ (by decide))
    | (with_reducible apply Keeps.then (notStarted_keeps ..) ?_ (by decide))
    | (with_reducible apply Keeps.then (entryOver_keeps ..) ?_ (by decide))
    | (with_reducible apply Keeps.then (devWrite_keeps ..) ?_ (by decide))
    | (with_reducible apply Keeps.then (loadEntry_keeps ..) ?_ (by decide))
    | (with_reducible apply Gives.next)
    | (with_reducible apply Keeps.foldl)
    | (with_reducible apply Keeps.foldl_snd)
    | (with_reducible refine Keeps.snd (by assumption) ?_)
    | (with_reducible refine Keeps.fst (by assumption) ?_)
    | intro _
    | dsimp only
    | split)

theorem execEntryComputeEnd_keeps : ∀ a0 a1 s, Gives [.uni, .uniBad, .host, .cores, .ctxs, .ibex, .mports, .tiers, .hps, .tallies] s (execEntryComputeEnd a0 a1 s) := by
  intro a0 a1 s
  unfold execEntryComputeEnd
  repeat' (first
    | (with_reducible apply Gives.ite)
    | (with_reducible apply Keeps.ite)
    | with_reducible exact Keeps.refl _ _
    | with_reducible assumption
    | (with_reducible apply Keeps.then (freeBelow_keeps ..) ?_ (by decide))
    | (with_reducible apply Keeps.then (endEntry_keeps ..) ?_ (by decide))
    | (with_reducible apply Gives.next)
    | (with_reducible apply Keeps.foldl)
    | (with_reducible apply Keeps.foldl_snd)
    | (with_reducible refine Keeps.snd (by assumption) ?_)
    | (with_reducible refine Keeps.fst (by assumption) ?_)
    | intro _
    | dsimp only
    | split)

theorem proposeUnit_keeps : ∀ s a1 a2, Keeps [.uni, .uniBad, .host, .cores, .ctxs, .ibex, .mports, .tiers, .oports, .accesses, .nextTag, .paths, .ces, .hurdles, .hps, .tallies, .hub2] s (proposeUnit s a1 a2) := by
  intro s a1 a2
  unfold proposeUnit
  repeat' (first
    | (with_reducible apply Keeps.ite)
    | with_reducible exact Keeps.refl _ _
    | with_reducible assumption
    | (with_reducible apply Keeps.then (post_keeps ..) ?_ (by decide))
    | (with_reducible apply Keeps.then (raiseUnit_keeps ..) ?_ (by decide))
    | (with_reducible apply Keeps.foldl)
    | (with_reducible apply Keeps.foldl_snd)
    | (with_reducible refine Keeps.snd (by assumption) ?_)
    | (with_reducible refine Keeps.fst (by assumption) ?_)
    | (with_reducible fail_if_no_progress (apply Keeps.set_hub2 ?_ (by decide)))
    | intro _
    | dsimp only
    | split)

theorem proposeLanes_keeps : ∀ s a1, Keeps [.uni, .uniBad, .host, .cores, .ctxs, .ibex, .mports, .tiers, .oports, .accesses, .nextTag, .paths, .ces, .hurdles, .hps, .tallies, .hub2] s (proposeLanes s a1) := by
  intro s a1
  unfold proposeLanes
  repeat' (first
    | (with_reducible apply Keeps.ite)
    | with_reducible exact Keeps.refl _ _
    | with_reducible assumption
    | (with_reducible apply Keeps.then (proposeUnit_keeps ..) ?_ (by decide))
    | (with_reducible apply Keeps.then (State.modIbx_keeps ..) ?_ (by decide))
    | (with_reducible apply Keeps.foldl)
    | (with_reducible apply Keeps.foldl_snd)
    | (with_reducible refine Keeps.snd (by assumption) ?_)
    | (with_reducible refine Keeps.fst (by assumption) ?_)
    | intro _)

theorem execHeaderCommit_keeps : ∀ a0 a1 s, Gives [.uni, .uniBad, .host, .cores, .ctxs, .ibex, .mports, .tiers, .oports, .accesses, .nextTag, .paths, .ces, .hurdles, .hps, .tallies, .hub2] s (execHeaderCommit a0 a1 s) := by
  intro a0 a1 s
  unfold execHeaderCommit
  repeat' (first
    | (with_reducible apply Gives.ite)
    | (with_reducible apply Keeps.ite)
    | with_reducible exact Keeps.refl _ _
    | with_reducible assumption
    | (with_reducible apply Keeps.then (writeHeader_keeps ..) ?_ (by decide))
    | (with_reducible apply Keeps.then (State.modIbx_keeps ..) ?_ (by decide))
    | (with_reducible apply Keeps.then (proposeLanes_keeps ..) ?_ (by decide))
    | (with_reducible apply Keeps.then (entryOver_keeps ..) ?_ (by decide))
    | (with_reducible apply Gives.next)
    | (with_reducible apply Keeps.foldl)
    | (with_reducible apply Keeps.foldl_snd)
    | (with_reducible refine Keeps.snd (by assumption) ?_)
    | (with_reducible refine Keeps.fst (by assumption) ?_)
    | intro _
    | dsimp only
    | split)

theorem execDeadlineReached_keeps : ∀ a0 a1 a2 s, Gives [.uni, .uniBad, .host, .cores, .ctxs, .ibex, .mports, .tiers, .hps, .tallies] s (execDeadlineReached a0 a1 a2 s) := by
  intro a0 a1 a2 s
  unfold execDeadlineReached
  repeat' (first
    | (with_reducible apply Gives.ite)
    | (with_reducible apply Keeps.ite)
    | with_reducible exact Keeps.refl _ _
    | with_reducible assumption
    | (with_reducible apply Keeps.then (dropLate_keeps ..) ?_ (by decide))
    | (with_reducible apply Keeps.then (endEntry_keeps ..) ?_ (by decide))
    | (with_reducible apply Gives.next)
    | (with_reducible apply Keeps.foldl)
    | (with_reducible apply Keeps.foldl_snd)
    | (with_reducible refine Keeps.snd (by assumption) ?_)
    | (with_reducible refine Keeps.fst (by assumption) ?_)
    | intro _)

theorem execBatchComplete_keeps : ∀ a0 s, Gives [.uni, .uniBad, .host, .cores, .ctxs, .ibex, .mports, .tiers, .hps, .tallies, .hub2] s (execBatchComplete a0 s) := by
  intro a0 s
  unfold execBatchComplete
  repeat' (first
    | (with_reducible apply Gives.ite)
    | (with_reducible apply Keeps.ite)
    | with_reducible exact Keeps.refl _ _
    | with_reducible assumption
    | (with_reducible apply Keeps.then (State.modIbx_keeps ..) ?_ (by decide))
    | (with_reducible apply Keeps.then (countSat_keeps ..) ?_ (by decide))
    | (with_reducible apply Keeps.then (ibxReport_keeps ..) ?_ (by decide))
    | (with_reducible apply Gives.next)
    | (with_reducible apply Keeps.foldl)
    | (with_reducible apply Keeps.foldl_snd)
    | (with_reducible refine Keeps.snd (by assumption) ?_)
    | (with_reducible refine Keeps.fst (by assumption) ?_)
    | intro _
    | dsimp only
    | split)

theorem fenceIbex_keeps : ∀ s a1 a2 a3, Keeps [.uni, .uniBad, .host, .cores, .ctxs, .ibex, .mports, .tiers, .hps, .tallies] s (fenceIbex s a1 a2 a3) := by
  intro s a1 a2 a3
  unfold fenceIbex
  repeat' (first
    | (with_reducible apply Keeps.ite)
    | with_reducible exact Keeps.refl _ _
    | with_reducible assumption
    | (with_reducible apply Keeps.then (fenceRunning_keeps ..) ?_ (by decide))
    | (with_reducible apply Keeps.then (fenceEntry_keeps ..) ?_ (by decide))
    | (with_reducible apply Keeps.then (State.modIbx_keeps ..) ?_ (by decide))
    | (with_reducible apply Keeps.then (ibxReport_keeps ..) ?_ (by decide))
    | (with_reducible apply Keeps.then (post_keeps ..) ?_ (by decide))
    | (with_reducible apply Keeps.foldl)
    | (with_reducible apply Keeps.foldl_snd)
    | (with_reducible refine Keeps.snd (by assumption) ?_)
    | (with_reducible refine Keeps.fst (by assumption) ?_)
    | intro _)

end Sys2Proof.Machine
end

