-- ==== Sys2Proof/Laws/QueuePairs.lean ====
section
/-! SUPPORT. What each operation of Machine/QueuePairs.lean keeps. -/

namespace Sys2Proof.Machine

open Sys2Proof

theorem setQpRun_keeps : ∀ s a1 a2 a3, Keeps [.oports] s (setQpRun s a1 a2 a3) := by
  intro s a1 a2 a3
  unfold setQpRun
  repeat' (first
    | (with_reducible apply Keeps.ite)
    | with_reducible exact Keeps.refl _ _
    | with_reducible assumption
    | (with_reducible apply Keeps.then (State.modOport_keeps ..) ?_ (by decide)))

theorem sendEth_keeps : ∀ s a1 a2, Keeps [.oports] s (sendEth s a1 a2) := by
  intro s a1 a2
  unfold sendEth
  repeat' (first
    | (with_reducible apply Keeps.ite)
    | with_reducible exact Keeps.refl _ _
    | with_reducible assumption
    | (with_reducible apply Keeps.then (State.modOport_keeps ..) ?_ (by decide)))

theorem putQpField_keeps : ∀ s a1 a2 a3 a4 a5, Keeps [.uni, .uniBad, .host, .cores, .ctxs, .mports, .tiers, .hps, .tallies] s (putQpField s a1 a2 a3 a4 a5) := by
  intro s a1 a2 a3 a4 a5
  unfold putQpField
  repeat' (first
    | (with_reducible apply Keeps.ite)
    | with_reducible exact Keeps.refl _ _
    | with_reducible assumption
    | (with_reducible apply Keeps.then (devWrite_keeps ..) ?_ (by decide)))

theorem sendRead_keeps : ∀ s a1 a2 a3 a4 a5 a6 a7 t, sendRead s a1 a2 a3 a4 a5 a6 a7 = some t → Keeps [.uni, .uniBad, .host, .cores, .ctxs, .mports, .tiers, .oports, .hps, .tallies] s t := by
  intro s a1 a2 a3 a4 a5 a6 a7 t h
  simp only [sendRead] at h
  split at h
  · cases h
  · injection h with h
    subst h
    exact Keeps.step (Keeps.step ((putQpField_keeps ..).mono (by decide)) (setQpRun_keeps ..) (by decide)) (State.modOport_keeps ..) (by decide)

theorem resendFrom_keeps : ∀ s a1 a2 a3 a4, Keeps [.oports] s (resendFrom s a1 a2 a3 a4) := by
  intro s a1 a2 a3 a4
  unfold resendFrom
  repeat' (first
    | (with_reducible apply Keeps.ite)
    | with_reducible exact Keeps.refl _ _
    | with_reducible assumption
    | (with_reducible apply Keeps.then (sendEth_keeps ..) ?_ (by decide))
    | (with_reducible apply Keeps.then (setQpRun_keeps ..) ?_ (by decide)))

theorem resendReads_keeps : ∀ s a1 a2 a3, Keeps [.oports] s (resendReads s a1 a2 a3) := by
  intro s a1 a2 a3
  unfold resendReads
  repeat' (first
    | (with_reducible apply Keeps.ite)
    | with_reducible exact Keeps.refl _ _
    | with_reducible assumption
    | (with_reducible apply Keeps.then (sendEth_keeps ..) ?_ (by decide))
    | (with_reducible apply Keeps.then (setQpRun_keeps ..) ?_ (by decide)))

end Sys2Proof.Machine
end

