-- ==== Sys2Proof/Laws/Load.lean ====
section
/-! SUPPORT. What each operation of Machine/Load.lean keeps. -/

namespace Sys2Proof.Machine

open Sys2Proof

theorem loaderReport_keeps : ∀ s a1 a2 a3 a4, Keeps [.uni, .uniBad, .host, .cores, .ctxs, .mports, .tiers, .hps, .tallies] s (loaderReport s a1 a2 a3 a4) := by
  intro s a1 a2 a3 a4
  unfold loaderReport
  repeat' (first
    | (with_reducible apply Keeps.ite)
    | with_reducible exact Keeps.refl _ _
    | with_reducible assumption
    | (with_reducible apply Keeps.then (reportRec_keeps ..) ?_ (by decide)))

theorem putJob_keeps : ∀ s a1, Keeps [.loads] s (putJob s a1) := by
  intro s a1
  unfold putJob
  repeat' (first
    | (with_reducible apply Keeps.ite)
    | with_reducible exact Keeps.refl _ _
    | with_reducible assumption
    | (with_reducible apply Keeps.foldl)
    | (with_reducible refine Keeps.snd (by assumption) ?_)
    | (with_reducible refine Keeps.fst (by assumption) ?_)
    | (with_reducible fail_if_no_progress (apply Keeps.set_loads ?_ (by decide))))

theorem zeroTile_keeps : ∀ s a1 a2 a3, Keeps [.uni, .uniBad, .host, .cores, .ctxs, .mports, .tiers, .hps, .tallies] s (zeroTile s a1 a2 a3) := by
  intro s a1 a2 a3
  unfold zeroTile
  repeat' (first
    | (with_reducible apply Keeps.ite)
    | with_reducible exact Keeps.refl _ _
    | with_reducible assumption
    | (with_reducible apply Keeps.then (devWrite_keeps ..) ?_ (by decide)))

theorem checkTile_keeps : ∀ s a1, Keeps [.uni, .uniBad, .host, .cores, .ctxs, .mports, .tiers, .hps, .tallies, .loads] s (checkTile s a1) := by
  intro s a1
  unfold checkTile
  repeat' (first
    | (with_reducible apply Keeps.ite)
    | with_reducible exact Keeps.refl _ _
    | with_reducible assumption
    | (with_reducible apply Keeps.then (putJob_keeps ..) ?_ (by decide))
    | (with_reducible apply Keeps.then (ctxCount_keeps ..) ?_ (by decide))
    | (with_reducible apply Keeps.then (post_keeps ..) ?_ (by decide))
    | (with_reducible apply Keeps.then (zeroTile_keeps ..) ?_ (by decide))
    | (with_reducible apply Keeps.foldl)
    | (with_reducible refine Keeps.snd (by assumption) ?_)
    | (with_reducible refine Keeps.fst (by assumption) ?_)
    | intro _
    | dsimp only
    | split)

theorem stopJob_keeps : ∀ s a1 a2 a3, Keeps [.uni, .uniBad, .host, .cores, .ctxs, .mports, .tiers, .hps, .tallies, .loads] s (stopJob s a1 a2 a3) := by
  intro s a1 a2 a3
  unfold stopJob
  repeat' (first
    | (with_reducible apply Keeps.ite)
    | with_reducible exact Keeps.refl _ _
    | with_reducible assumption
    | (with_reducible apply Keeps.then (zeroTile_keeps ..) ?_ (by decide))
    | (with_reducible apply Keeps.then (putJob_keeps ..) ?_ (by decide))
    | (with_reducible apply Keeps.foldl)
    | (with_reducible refine Keeps.snd (by assumption) ?_)
    | (with_reducible refine Keeps.fst (by assumption) ?_)
    | intro _)

theorem installDone_keeps : ∀ s a1 a2 a3, Keeps [.uni, .uniBad, .host, .cores, .ctxs, .mports, .tiers, .hps, .tallies] s (installDone s a1 a2 a3) := by
  intro s a1 a2 a3
  unfold installDone
  repeat' (first
    | (with_reducible apply Keeps.ite)
    | with_reducible exact Keeps.refl _ _
    | with_reducible assumption
    | (with_reducible apply Keeps.then (devWrite_keeps ..) ?_ (by decide))
    | (with_reducible apply Keeps.then (post_keeps ..) ?_ (by decide))
    | (with_reducible apply Keeps.foldl)
    | (with_reducible refine Keeps.snd (by assumption) ?_)
    | (with_reducible refine Keeps.fst (by assumption) ?_)
    | intro _)

theorem settleJob_keeps : ∀ s a1, Keeps [.uni, .uniBad, .host, .cores, .ctxs, .mports, .tiers, .hps, .tallies, .loads] s (settleJob s a1) := by
  intro s a1
  unfold settleJob
  repeat' (first
    | (with_reducible apply Keeps.ite)
    | with_reducible exact Keeps.refl _ _
    | with_reducible assumption
    | (with_reducible apply Keeps.then (loaderReport_keeps ..) ?_ (by decide))
    | (with_reducible apply Keeps.then (installDone_keeps ..) ?_ (by decide))
    | (with_reducible apply Keeps.foldl)
    | (with_reducible refine Keeps.snd (by assumption) ?_)
    | (with_reducible refine Keeps.fst (by assumption) ?_)
    | (with_reducible fail_if_no_progress (apply Keeps.set_loads ?_ (by decide)))
    | intro _
    | dsimp only
    | split)

theorem endJobs_keeps : ∀ s a1 a2, Keeps [.uni, .uniBad, .host, .cores, .ctxs, .mports, .tiers, .oports, .hps, .tallies, .loads] s (endJobs s a1 a2) := by
  intro s a1 a2
  unfold endJobs
  repeat' (first
    | (with_reducible apply Keeps.ite)
    | with_reducible exact Keeps.refl _ _
    | with_reducible assumption
    | (with_reducible apply Keeps.then (zeroTile_keeps ..) ?_ (by decide))
    | (with_reducible apply Keeps.then (setQpRun_keeps ..) ?_ (by decide))
    | (with_reducible apply Keeps.then (stopJob_keeps ..) ?_ (by decide))
    | (with_reducible apply Keeps.then (putJob_keeps ..) ?_ (by decide))
    | (with_reducible apply Keeps.then (settleJob_keeps ..) ?_ (by decide))
    | (with_reducible apply Keeps.foldl)
    | (with_reducible refine Keeps.snd (by assumption) ?_)
    | (with_reducible refine Keeps.fst (by assumption) ?_)
    | intro _
    | dsimp only
    | split)

theorem tileArrives_keeps : ∀ s a1 a2 a3, Keeps [.uni, .uniBad, .host, .cores, .ctxs, .mports, .tiers, .hps, .tallies, .loads] s (tileArrives s a1 a2 a3) := by
  intro s a1 a2 a3
  unfold tileArrives
  repeat' (first
    | (with_reducible apply Keeps.ite)
    | with_reducible exact Keeps.refl _ _
    | with_reducible assumption
    | (with_reducible apply Keeps.then (stopJob_keeps ..) ?_ (by decide))
    | (with_reducible apply Keeps.then (devWrite_keeps ..) ?_ (by decide))
    | (with_reducible apply Keeps.then (putJob_keeps ..) ?_ (by decide))
    | (with_reducible apply Keeps.foldl)
    | (with_reducible refine Keeps.snd (by assumption) ?_)
    | (with_reducible refine Keeps.fst (by assumption) ?_)
    | intro _
    | dsimp only
    | split)

theorem fetchTile_keeps : ∀ s a1, Keeps [.uni, .uniBad, .host, .cores, .ctxs, .mports, .tiers, .oports, .hps, .tallies, .loads] s (fetchTile s a1) := by
  intro s a1
  unfold fetchTile
  repeat' (first
    | (with_reducible apply Keeps.ite)
    | with_reducible exact Keeps.refl _ _
    | with_reducible assumption
    | (with_reducible refine Keeps.step ?_ (sendRead_keeps _ _ _ _ _ _ _ _ _ (by assumption)) (by decide))
    | (with_reducible apply Keeps.then (putJob_keeps ..) ?_ (by decide))
    | (with_reducible apply Keeps.then (stopJob_keeps ..) ?_ (by decide))
    | (with_reducible apply Keeps.then (zeroTile_keeps ..) ?_ (by decide))
    | (with_reducible apply Keeps.then (devTouch_keeps ..) ?_ (by decide))
    | (with_reducible apply Keeps.then (tileArrives_keeps ..) ?_ (by decide))
    | (with_reducible apply Keeps.foldl)
    | (with_reducible refine Keeps.snd (by assumption) ?_)
    | (with_reducible refine Keeps.fst (by assumption) ?_)
    | (with_reducible apply Keeps.getD)
    | intro _
    | dsimp only
    | split)

theorem pumpJob_keeps : ∀ s a1, Keeps [.uni, .uniBad, .host, .cores, .ctxs, .mports, .tiers, .oports, .hps, .tallies, .loads] s (pumpJob s a1) := by
  intro s a1
  unfold pumpJob
  repeat' (first
    | (with_reducible apply Keeps.ite)
    | with_reducible exact Keeps.refl _ _
    | with_reducible assumption
    | (with_reducible apply Keeps.then (fetchTile_keeps ..) ?_ (by decide))
    | (with_reducible apply Keeps.foldl)
    | (with_reducible refine Keeps.snd (by assumption) ?_)
    | (with_reducible refine Keeps.fst (by assumption) ?_)
    | intro _)

theorem runJobs_keeps : ∀ s, Keeps [.uni, .uniBad, .host, .cores, .ctxs, .mports, .tiers, .oports, .hps, .tallies, .loads] s (runJobs s) := by
  intro s
  unfold runJobs
  repeat' (first
    | (with_reducible apply Keeps.ite)
    | with_reducible exact Keeps.refl _ _
    | with_reducible assumption
    | (with_reducible apply Keeps.then (settleJob_keeps ..) ?_ (by decide))
    | (with_reducible apply Keeps.then (pumpJob_keeps ..) ?_ (by decide))
    | (with_reducible apply Keeps.foldl)
    | (with_reducible refine Keeps.snd (by assumption) ?_)
    | (with_reducible refine Keeps.fst (by assumption) ?_)
    | intro _)

theorem runManifest_keeps : ∀ s a1, Keeps [.uniBad, .mports, .tiers, .hps, .tallies, .manifests] s (runManifest s a1).2 := by
  intro s a1
  unfold runManifest
  repeat' (first
    | (with_reducible apply Keeps.ite)
    | with_reducible exact Keeps.refl _ _
    | with_reducible assumption
    | (with_reducible apply Keeps.then (devTouch_keeps ..) ?_ (by decide))
    | (with_reducible apply Keeps.foldl)
    | (with_reducible refine Keeps.snd (by assumption) ?_)
    | (with_reducible refine Keeps.fst (by assumption) ?_)
    | (with_reducible fail_if_no_progress (apply Keeps.set_manifests ?_ (by decide)))
    | intro _
    | dsimp only
    | split)

theorem loaderPop_keeps : ∀ s a1, Keeps [.ctxs] s (loaderPop s a1) := by
  intro s a1
  unfold loaderPop
  repeat' (first
    | (with_reducible apply Keeps.ite)
    | with_reducible exact Keeps.refl _ _
    | with_reducible assumption
    | (with_reducible apply Keeps.then (State.modCtx_keeps ..) ?_ (by decide)))

theorem execManifest_keeps : ∀ a0 s, Gives [.uni, .uniBad, .host, .cores, .ctxs, .mports, .tiers, .hps, .tallies, .manifests] s (execManifest a0 s) := by
  intro a0 s
  unfold execManifest
  repeat' (first
    | (with_reducible apply Gives.ite)
    | (with_reducible apply Keeps.ite)
    | with_reducible exact Keeps.refl _ _
    | with_reducible assumption
    | (with_reducible apply Keeps.then (runManifest_keeps ..) ?_ (by decide))
    | (with_reducible apply Keeps.then (loaderPop_keeps ..) ?_ (by decide))
    | (with_reducible apply Keeps.then (loaderReport_keeps ..) ?_ (by decide))
    | (with_reducible apply Gives.next)
    | (with_reducible apply Keeps.foldl)
    | (with_reducible refine Keeps.snd (by assumption) ?_)
    | (with_reducible refine Keeps.fst (by assumption) ?_)
    | intro _
    | dsimp only
    | split)

theorem startJob_keeps : ∀ s a1, Keeps [.uni, .uniBad, .host, .cores, .ctxs, .mports, .tiers, .hps, .tallies, .hub2, .loads] s (startJob s a1) := by
  intro s a1
  unfold startJob
  repeat' (first
    | (with_reducible apply Keeps.ite)
    | with_reducible exact Keeps.refl _ _
    | with_reducible assumption
    | (with_reducible apply Keeps.then (devWrite_keeps ..) ?_ (by decide))
    | (with_reducible apply Keeps.foldl)
    | (with_reducible refine Keeps.snd (by assumption) ?_)
    | (with_reducible refine Keeps.fst (by assumption) ?_)
    | (with_reducible fail_if_no_progress (apply Keeps.set_hub2_loads ?_ (by decide)))
    | intro _)

theorem execLoad_keeps : ∀ a0 s, Gives [.uni, .uniBad, .host, .cores, .ctxs, .mports, .tiers, .oports, .hps, .tallies, .hub2, .loads] s (execLoad a0 s) := by
  intro a0 s
  unfold execLoad
  repeat' (first
    | (with_reducible apply Gives.ite)
    | (with_reducible apply Keeps.ite)
    | with_reducible exact Keeps.refl _ _
    | with_reducible assumption
    | (with_reducible apply Keeps.then (runJobs_keeps ..) ?_ (by decide))
    | (with_reducible apply Keeps.then (devTouch_keeps ..) ?_ (by decide))
    | (with_reducible apply Keeps.then (loaderReport_keeps ..) ?_ (by decide))
    | (with_reducible apply Keeps.then (loaderPop_keeps ..) ?_ (by decide))
    | (with_reducible apply Keeps.then (startJob_keeps ..) ?_ (by decide))
    | (with_reducible apply Gives.next)
    | (with_reducible apply Keeps.foldl)
    | (with_reducible refine Keeps.snd (by assumption) ?_)
    | (with_reducible refine Keeps.fst (by assumption) ?_)
    | intro _
    | dsimp only
    | split)

theorem execTileDigestCheck_keeps : ∀ a0 s, Gives [.uni, .uniBad, .host, .cores, .ctxs, .mports, .tiers, .oports, .hps, .tallies, .loads] s (execTileDigestCheck a0 s) := by
  intro a0 s
  unfold execTileDigestCheck
  repeat' (first
    | (with_reducible apply Gives.ite)
    | (with_reducible apply Keeps.ite)
    | with_reducible exact Keeps.refl _ _
    | with_reducible assumption
    | (with_reducible apply Keeps.then (runJobs_keeps ..) ?_ (by decide))
    | (with_reducible apply Keeps.then (checkTile_keeps ..) ?_ (by decide))
    | (with_reducible apply Gives.next)
    | (with_reducible apply Keeps.foldl)
    | (with_reducible refine Keeps.snd (by assumption) ?_)
    | (with_reducible refine Keeps.fst (by assumption) ?_)
    | intro _
    | dsimp only
    | split)

theorem runDigest_keeps : ∀ s a1, Keeps [.uni, .uniBad, .host, .cores, .ctxs, .mports, .tiers, .hps, .tallies] s (runDigest s a1) := by
  intro s a1
  unfold runDigest
  repeat' (first
    | (with_reducible apply Keeps.ite)
    | with_reducible exact Keeps.refl _ _
    | with_reducible assumption
    | (with_reducible apply Keeps.then (devWrite_keeps ..) ?_ (by decide))
    | (with_reducible apply Keeps.then (devTouch_keeps ..) ?_ (by decide))
    | (with_reducible apply Keeps.then (loaderReport_keeps ..) ?_ (by decide))
    | (with_reducible apply Keeps.foldl)
    | (with_reducible refine Keeps.snd (by assumption) ?_)
    | (with_reducible refine Keeps.fst (by assumption) ?_)
    | intro _
    | dsimp only
    | split)

theorem execDigest_keeps : ∀ a0 s, Gives [.uni, .uniBad, .host, .cores, .ctxs, .mports, .tiers, .hps, .tallies] s (execDigest a0 s) := by
  intro a0 s
  unfold execDigest
  repeat' (first
    | (with_reducible apply Gives.ite)
    | (with_reducible apply Keeps.ite)
    | with_reducible exact Keeps.refl _ _
    | with_reducible assumption
    | (with_reducible apply Keeps.then (loaderReport_keeps ..) ?_ (by decide))
    | (with_reducible apply Keeps.then (loaderPop_keeps ..) ?_ (by decide))
    | (with_reducible apply Keeps.then (runDigest_keeps ..) ?_ (by decide))
    | (with_reducible apply Gives.next)
    | (with_reducible apply Keeps.foldl)
    | (with_reducible refine Keeps.snd (by assumption) ?_)
    | (with_reducible refine Keeps.fst (by assumption) ?_)
    | intro _
    | dsimp only
    | split)

end Sys2Proof.Machine
end

