-- ==== Sys2Proof/Laws/Rights.lean ====
section
/-! SUPPORT. What each operation of Machine/Rights.lean keeps. -/

namespace Sys2Proof.Machine

open Sys2Proof

theorem countOutside_keeps : ∀ s a1, Keeps [.hps] s (countOutside s a1) := by
  intro s a1
  unfold countOutside
  repeat' (first
    | (with_reducible apply Keeps.ite)
    | with_reducible exact Keeps.refl _ _
    | with_reducible assumption
    | (with_reducible apply Keeps.then (State.modHp_keeps ..) ?_ (by decide))
    | (with_reducible apply Keeps.foldl)
    | (with_reducible refine Keeps.snd (by assumption) ?_)
    | (with_reducible refine Keeps.fst (by assumption) ?_)
    | intro _
    | dsimp only
    | split)

theorem Keeps.gated {l : List Field} {s t : State} {who : Party} {a : RegArea} {f : State → State} (h : Keeps l s t)
    (hl : ∀ f ∈ [Field.hps], f ∈ l) (hf : ∀ u, Keeps l u (f u)) : Keeps l s (gated t who a f) := by
  unfold Machine.gated
  split
  · exact h
  · split
    · exact h.trans (hf t)
    · exact h.step (countOutside_keeps ..) hl

/-- A register write takes effect exactly where the party is admitted. -/
theorem gated_admitted {s : State} {who : Party} {a : RegArea} (f : State → State) (h : Admitted s who a) : gated s who a f = f s := by
  obtain ⟨h1, h2, h3⟩ := h
  simp [gated, h1, h2, h3]

theorem gated_outside {s : State} {who : Party} {a : RegArea} (f : State → State) (h : Outside s who a) : gated s who a f = countOutside s who := by
  obtain ⟨h1, h2, h3⟩ := h
  simp [gated, h1, h2, h3]

theorem gated_down {s : State} {who : Party} {a : RegArea} (f : State → State) (h : partyLive s who = false) : gated s who a f = s := by
  simp [gated, h]

/-- A party outside its rights is a host port, and its access is counted there. -/
theorem countOutside_port {s : State} {who : Party} {a : RegArea} (h : Outside s who a) :
    ∃ p, partyPort who = some p ∧ countOutside s who = s.modHp p (fun x => { x with outside := stick x.outside 1 }) := by
  obtain ⟨h1, h2, h3⟩ := h
  cases hp : partyPort who with
  | none => simp [mayAccess, hp] at h3
  | some p => exact ⟨p, rfl, by simp [countOutside, hp]⟩

end Sys2Proof.Machine
end

