-- ==== Sys2Proof/Laws/CoreCmds.lean ====
section
/-! SUPPORT. What each operation of Machine/CoreCmds.lean keeps. -/

namespace Sys2Proof.Machine

open Sys2Proof

theorem waitTouch_keeps : ∀ s a1, Keeps [.uniBad, .mports, .tiers, .hps, .tallies] s (waitTouch s a1) := by
  intro s a1
  unfold waitTouch
  repeat' (first
    | (with_reducible apply Keeps.ite)
    | with_reducible exact Keeps.refl _ _
    | with_reducible assumption
    | (with_reducible apply Keeps.then (devTouch_keeps ..) ?_ (by decide)))

theorem reevaluate_keeps : ∀ s a1, Keeps [.uniBad, .cores, .mports, .tiers, .hps, .tallies] s (reevaluate s a1) := by
  intro s a1
  unfold reevaluate
  refine Keeps.set_cores_map ?_ (fun _ => rfl) (by decide)
  exact Keeps.foldl (Keeps.refl _ _) (fun _ _ h => h.step (waitTouch_keeps ..) (by decide))

theorem intakeRefuse_keeps : ∀ s a1 a2, Keeps [.uni, .uniBad, .host, .cores, .ctxs, .mports, .tiers, .hps, .tallies] s (intakeRefuse s a1 a2) := by
  intro s a1 a2
  unfold intakeRefuse
  repeat' (first
    | (with_reducible apply Keeps.ite)
    | with_reducible exact Keeps.refl _ _
    | with_reducible assumption
    | (with_reducible apply Keeps.then (reportRec_keeps ..) ?_ (by decide))
    | (with_reducible apply Keeps.then (post_keeps ..) ?_ (by decide)))

theorem deliver_keeps : ∀ s a1, Keeps [.uni, .uniBad, .host, .cores, .ctxs, .mports, .tiers, .hps, .tallies] s (deliver s a1) := by
  intro s a1
  unfold deliver
  repeat' (first
    | (with_reducible apply Keeps.ite)
    | with_reducible exact Keeps.refl _ _
    | with_reducible assumption
    | (with_reducible apply Keeps.then (intakeRefuse_keeps ..) ?_ (by decide))
    | (with_reducible apply Keeps.then (reportInOrder_keeps ..) ?_ (by decide))
    | (with_reducible apply Keeps.then (coreCount_keeps ..) ?_ (by decide))
    | (with_reducible apply Keeps.then (State.modCore_keeps _ _ _ ?_) ?_ (by decide))
    | (with_reducible exact fun _ h => h)
    | (with_reducible exact fun h => h)
    | (with_reducible apply Keeps.foldl)
    | (with_reducible apply Keeps.foldl_snd)
    | (with_reducible refine Keeps.snd (by assumption) ?_)
    | (with_reducible refine Keeps.fst (by assumption) ?_)
    | (show Memory.wf _ = true; assumption)
    | intro _
    | dsimp only
    | split)

theorem droverPick_keeps : ∀ s a1 a2 x0 t, droverPick s a1 a2 = some (x0, t) → Keeps [.cores] s t := by
  intro s a1 a2 x0 t h
  unfold droverPick at h
  dsimp only at h
  split at h
  · cases h; exact Keeps.refl _ _
  split at h
  · cases h
  split at h
  · cases h; exact Keeps.refl _ _
  · obtain ⟨i, _, hi⟩ := Option.map_eq_some_iff.mp h
    cases hi
    refine State.modCore_keeps _ _ _ ?_
    exact fun _ h => h

theorem droverSpend_keeps : ∀ s a1 a2 a3, Keeps [.cores] s (droverSpend s a1 a2 a3) := by
  intro s a1 a2 a3
  unfold droverSpend
  repeat' (first
    | (with_reducible apply Keeps.ite)
    | with_reducible exact Keeps.refl _ _
    | with_reducible assumption
    | (with_reducible apply Keeps.then (State.modCore_keeps _ _ _ ?_) ?_ (by decide))
    | (with_reducible exact fun _ h => h)
    | (with_reducible exact fun h => h)
    | (with_reducible apply Keeps.foldl)
    | (with_reducible apply Keeps.foldl_snd)
    | (with_reducible refine Keeps.snd (by assumption) ?_)
    | (with_reducible refine Keeps.fst (by assumption) ?_)
    | intro _)

theorem endWait_keeps : ∀ s a1 a2 a3 a4, Keeps [.uni, .uniBad, .host, .cores, .ctxs, .mports, .tiers, .hps, .tallies] s (endWait s a1 a2 a3 a4) := by
  intro s a1 a2 a3 a4
  unfold endWait
  repeat' (first
    | (with_reducible apply Keeps.ite)
    | with_reducible exact Keeps.refl _ _
    | with_reducible assumption
    | (with_reducible apply Keeps.then (endHead_keeps ..) ?_ (by decide))
    | (with_reducible apply Keeps.then (State.modCore_keeps _ _ _ ?_) ?_ (by decide))
    | (with_reducible exact fun _ h => h))

theorem execRecordDelivery_keeps : ∀ a0 a1 s, Gives [.uni, .uniBad, .host, .cores, .ctxs, .dieHeld, .mports, .tiers, .hps, .tallies] s (execRecordDelivery a0 a1 s) := by
  intro a0 a1 s
  unfold execRecordDelivery
  repeat' (first
    | (with_reducible apply Gives.ite)
    | (with_reducible apply Keeps.ite)
    | with_reducible exact Keeps.refl _ _
    | with_reducible assumption
    | (with_reducible apply Keeps.then (deliver_keeps ..) ?_ (by decide))
    | (with_reducible apply Keeps.then (State.modCtx_keeps ..) ?_ (by decide))
    | (with_reducible apply Gives.next)
    | (with_reducible apply Keeps.foldl)
    | (with_reducible apply Keeps.foldl_snd)
    | (with_reducible refine Keeps.snd (by assumption) ?_)
    | (with_reducible refine Keeps.fst (by assumption) ?_)
    | (with_reducible fail_if_no_progress (apply Keeps.set_dieHeld ?_ (by decide)))
    | intro _
    | dsimp only
    | split)

theorem issue_keeps : ∀ s a1 a2 a3 a4, Keeps [.cores, .hub2] s (issue s a1 a2 a3 a4) := by
  intro s a1 a2 a3 a4
  unfold issue
  repeat' (first
    | (with_reducible apply Keeps.ite)
    | with_reducible exact Keeps.refl _ _
    | with_reducible assumption
    | (with_reducible apply Keeps.then (popHead_keeps ..) ?_ (by decide))
    | (with_reducible apply Keeps.then (State.modCore_keeps _ _ _ ?_) ?_ (by decide))
    | (with_reducible exact fun _ h => h)
    | (with_reducible exact fun h => h)
    | (with_reducible apply Keeps.foldl)
    | (with_reducible apply Keeps.foldl_snd)
    | (with_reducible refine Keeps.snd (by assumption) ?_)
    | (with_reducible refine Keeps.fst (by assumption) ?_)
    | (with_reducible fail_if_no_progress (apply Keeps.set_hub2 ?_ (by decide))))

theorem execDroverSelect_keeps : ∀ a0 a1 s, Gives [.uni, .uniBad, .host, .cores, .ctxs, .mports, .tiers, .hps, .tallies, .hub2] s (execDroverSelect a0 a1 s) := by
  intro a0 a1 s
  unfold execDroverSelect
  repeat' (first
    | (with_reducible apply Gives.ite)
    | (with_reducible apply Keeps.ite)
    | with_reducible exact Keeps.refl _ _
    | with_reducible assumption
    | (with_reducible apply Keeps.then (checkHead_keeps ..) ?_ (by decide))
    | (with_reducible refine Keeps.step ?_ (droverPick_keeps _ _ _ _ _ (by assumption)) (by decide))
    | (with_reducible apply Keeps.then (coreCount_keeps ..) ?_ (by decide))
    | (with_reducible apply Keeps.then (endHead_keeps ..) ?_ (by decide))
    | (with_reducible apply Keeps.then (checkTouch_keeps ..) ?_ (by decide))
    | (with_reducible apply Keeps.then (issue_keeps ..) ?_ (by decide))
    | (with_reducible apply Keeps.then (droverSpend_keeps ..) ?_ (by decide))
    | (with_reducible apply Gives.next)
    | (with_reducible apply Keeps.foldl)
    | (with_reducible apply Keeps.foldl_snd)
    | (with_reducible refine Keeps.snd (by assumption) ?_)
    | (with_reducible refine Keeps.fst (by assumption) ?_)
    | (with_reducible apply Keeps.getD)
    | intro _
    | dsimp only
    | split)

theorem execNop_keeps : ∀ a0 a1 s, Gives [.uni, .uniBad, .host, .cores, .ctxs, .mports, .tiers, .hps, .tallies] s (execNop a0 a1 s) := by
  intro a0 a1 s
  unfold execNop
  repeat' (first
    | (with_reducible apply Gives.ite)
    | (with_reducible apply Keeps.ite)
    | with_reducible exact Keeps.refl _ _
    | with_reducible assumption
    | (with_reducible apply Keeps.then (checkHead_keeps ..) ?_ (by decide))
    | (with_reducible apply Keeps.then (endHead_keeps ..) ?_ (by decide))
    | (with_reducible apply Gives.next)
    | (with_reducible apply Keeps.foldl)
    | (with_reducible apply Keeps.foldl_snd)
    | (with_reducible refine Keeps.snd (by assumption) ?_)
    | (with_reducible refine Keeps.fst (by assumption) ?_)
    | intro _
    | dsimp only
    | split)

theorem runSignal_keeps : ∀ s a1 a2, Keeps [.uni, .uniBad, .host, .cores, .ctxs, .mports, .tiers, .oports, .accesses, .paths, .folds, .hps, .tallies] s (runSignal s a1 a2).2 := by
  intro s a1 a2
  unfold runSignal
  repeat' (first
    | (with_reducible apply Keeps.ite)
    | with_reducible exact Keeps.refl _ _
    | with_reducible assumption
    | (with_reducible apply Keeps.then (foldArrive_keeps ..) ?_ (by decide))
    | (with_reducible apply Keeps.then (applySignal_keeps ..) ?_ (by decide))
    | (with_reducible apply Keeps.foldl)
    | (with_reducible apply Keeps.foldl_snd)
    | (with_reducible refine Keeps.snd (by assumption) ?_)
    | (with_reducible refine Keeps.fst (by assumption) ?_)
    | intro _
    | dsimp only
    | split)

theorem execSignal_keeps : ∀ a0 a1 s, Gives [.uni, .uniBad, .host, .cores, .ctxs, .mports, .tiers, .oports, .accesses, .paths, .folds, .hps, .tallies] s (execSignal a0 a1 s) := by
  intro a0 a1 s
  unfold execSignal
  repeat' (first
    | (with_reducible apply Gives.ite)
    | (with_reducible apply Keeps.ite)
    | with_reducible exact Keeps.refl _ _
    | with_reducible assumption
    | (with_reducible apply Keeps.then (checkHead_keeps ..) ?_ (by decide))
    | (with_reducible apply Keeps.then (runSignal_keeps ..) ?_ (by decide))
    | (with_reducible apply Keeps.then (endHead_keeps ..) ?_ (by decide))
    | (with_reducible apply Gives.next)
    | (with_reducible apply Keeps.foldl)
    | (with_reducible apply Keeps.foldl_snd)
    | (with_reducible refine Keeps.snd (by assumption) ?_)
    | (with_reducible refine Keeps.fst (by assumption) ?_)
    | intro _
    | dsimp only
    | split)

theorem settleWait_keeps : ∀ s a1 a2 t, settleWait s a1 a2 = some t → Keeps [.uni, .uniBad, .host, .cores, .ctxs, .mports, .tiers, .hps, .tallies] s t := by
  intro s a1 a2 t h
  unfold settleWait at h
  repeat' (split at h)
  all_goals first
    | (cases h; done)
    | cases h
  all_goals repeat' (first
    | (with_reducible apply Keeps.ite)
    | with_reducible exact Keeps.refl _ _
    | with_reducible assumption
    | (with_reducible apply Keeps.then (endWait_keeps ..) ?_ (by decide)))

theorem execWait_keeps : ∀ a0 a1 s, Gives [.uni, .uniBad, .host, .cores, .ctxs, .mports, .tiers, .hps, .tallies] s (execWait a0 a1 s) := by
  intro a0 a1 s
  unfold execWait
  repeat' (first
    | (with_reducible apply Gives.ite)
    | (with_reducible apply Keeps.ite)
    | with_reducible exact Keeps.refl _ _
    | with_reducible assumption
    | (with_reducible apply Keeps.then (checkHead_keeps ..) ?_ (by decide))
    | (with_reducible apply Keeps.then (waitTouch_keeps ..) ?_ (by decide))
    | (with_reducible apply Keeps.then (post_keeps ..) ?_ (by decide))
    | (with_reducible refine Keeps.step ?_ (settleWait_keeps _ _ _ _ (by assumption)) (by decide))
    | (with_reducible apply Keeps.then (State.modCore_keeps _ _ _ ?_) ?_ (by decide))
    | (with_reducible exact fun _ h => h)
    | (with_reducible exact fun h => h)
    | (with_reducible apply Gives.next)
    | (with_reducible apply Keeps.foldl)
    | (with_reducible apply Keeps.foldl_snd)
    | (with_reducible refine Keeps.snd (by assumption) ?_)
    | (with_reducible refine Keeps.fst (by assumption) ?_)
    | (with_reducible apply Keeps.getD)
    | intro _
    | dsimp only
    | split)

theorem execWaitEvaluation_keeps : ∀ a0 a1 a2 s, Gives [.uni, .uniBad, .host, .cores, .ctxs, .mports, .tiers, .hps, .tallies] s (execWaitEvaluation a0 a1 a2 s) := by
  intro a0 a1 a2 s
  unfold execWaitEvaluation
  repeat' (first
    | (with_reducible apply Gives.ite)
    | (with_reducible apply Keeps.ite)
    | with_reducible exact Keeps.refl _ _
    | with_reducible assumption
    | (with_reducible refine Keeps.step ?_ (settleWait_keeps _ _ _ _ (by assumption)) (by decide))
    | (with_reducible apply Gives.next)
    | (with_reducible apply Keeps.foldl)
    | (with_reducible apply Keeps.foldl_snd)
    | (with_reducible refine Keeps.snd (by assumption) ?_)
    | (with_reducible refine Keeps.fst (by assumption) ?_)
    | (with_reducible apply Keeps.getD)
    | intro _
    | dsimp only
    | split)

theorem hostStores_keeps : ∀ s a1, Keeps [.host] s (hostStores s a1) := by
  intro s a1
  unfold hostStores
  refine Keeps.set_host (Keeps.refl _ _) (fun h => foldl_wf _ _ (fun m x hm => ?_) _ h) (by decide)
  split
  exacts [Memory.wf_mset _ _ _ hm, hm]

theorem observeRings_keeps : ∀ s a1, Keeps [.ctxs, .tallies] s (observeRings s a1) := by
  intro s a1
  unfold observeRings
  repeat' (first
    | (with_reducible apply Keeps.ite)
    | with_reducible exact Keeps.refl _ _
    | with_reducible assumption
    | (with_reducible apply Keeps.then (observeValue_keeps ..) ?_ (by decide))
    | (with_reducible apply Keeps.foldl)
    | (with_reducible apply Keeps.foldl_snd)
    | (with_reducible refine Keeps.snd (by assumption) ?_)
    | (with_reducible refine Keeps.fst (by assumption) ?_)
    | intro _)

theorem execPollIntervalExpiry_keeps : ∀ a0 s, Gives [.uniBad, .host, .cores, .ctxs, .mports, .tiers, .hps, .tallies, .hub2] s (execPollIntervalExpiry a0 s) := by
  intro a0 s
  unfold execPollIntervalExpiry
  repeat' (first
    | (with_reducible apply Gives.ite)
    | (with_reducible apply Keeps.ite)
    | with_reducible exact Keeps.refl _ _
    | with_reducible assumption
    | (with_reducible apply Keeps.then (hostStores_keeps ..) ?_ (by decide))
    | (with_reducible apply Keeps.then (observeRings_keeps ..) ?_ (by decide))
    | (with_reducible apply Keeps.then (reevaluate_keeps ..) ?_ (by decide))
    | (with_reducible apply Gives.next)
    | (with_reducible apply Keeps.foldl)
    | (with_reducible apply Keeps.foldl_snd)
    | (with_reducible refine Keeps.snd (by assumption) ?_)
    | (with_reducible refine Keeps.fst (by assumption) ?_)
    | (with_reducible fail_if_no_progress (apply Keeps.set_hub2 ?_ (by decide)))
    | intro _)

theorem execLineInvalidation_keeps : ∀ a0 a1 s, Gives [.uniBad, .host, .cores, .ctxs, .mports, .tiers, .hps, .tallies] s (execLineInvalidation a0 a1 s) := by
  intro a0 a1 s
  unfold execLineInvalidation
  repeat' (first
    | (with_reducible apply Gives.ite)
    | (with_reducible apply Keeps.ite)
    | with_reducible exact Keeps.refl _ _
    | with_reducible assumption
    | (with_reducible apply Keeps.then (reevaluate_keeps ..) ?_ (by decide))
    | (with_reducible apply Keeps.then (hostStores_keeps ..) ?_ (by decide))
    | (with_reducible apply Keeps.then (observeRings_keeps ..) ?_ (by decide))
    | (with_reducible apply Gives.next))

theorem execWaitTimeout_keeps : ∀ a0 a1 a2 s, Gives [.uni, .uniBad, .host, .cores, .ctxs, .mports, .tiers, .hps, .tallies] s (execWaitTimeout a0 a1 a2 s) := by
  intro a0 a1 a2 s
  unfold execWaitTimeout
  repeat' (first
    | (with_reducible apply Gives.ite)
    | (with_reducible apply Keeps.ite)
    | with_reducible exact Keeps.refl _ _
    | with_reducible assumption
    | (with_reducible refine Keeps.step ?_ (settleWait_keeps _ _ _ _ (by assumption)) (by decide))
    | (with_reducible apply Keeps.then (endWait_keeps ..) ?_ (by decide))
    | (with_reducible apply Gives.next)
    | (with_reducible apply Keeps.foldl)
    | (with_reducible apply Keeps.foldl_snd)
    | (with_reducible refine Keeps.snd (by assumption) ?_)
    | (with_reducible refine Keeps.fst (by assumption) ?_)
    | (with_reducible apply Keeps.getD)
    | intro _
    | dsimp only
    | split)

theorem execCommandComplete_keeps : ∀ a0 a1 s, Gives [.uni, .uniBad, .host, .cores, .ctxs, .mports, .tiers, .hps, .tallies, .hub2] s (execCommandComplete a0 a1 s) := by
  intro a0 a1 s
  unfold execCommandComplete
  repeat' (first
    | (with_reducible apply Gives.ite)
    | (with_reducible apply Keeps.ite)
    | with_reducible exact Keeps.refl _ _
    | with_reducible assumption
    | (with_reducible apply Keeps.then (applyWrs_keeps ..) ?_ (by decide))
    | (with_reducible apply Keeps.then (updComplete_keeps ..) ?_ (by decide))
    | (with_reducible apply Keeps.then (endRun_keeps ..) ?_ (by decide))
    | (with_reducible apply Keeps.then (handHot_keeps ..) ?_ (by decide))
    | (with_reducible apply Gives.next)
    | (with_reducible apply Keeps.foldl)
    | (with_reducible apply Keeps.foldl_snd)
    | (with_reducible refine Keeps.snd (by assumption) ?_)
    | (with_reducible refine Keeps.fst (by assumption) ?_)
    | intro _
    | dsimp only
    | split)

theorem holdRetry_keeps : ∀ s a1, Keeps [.ctxs] s (holdRetry s a1) := by
  intro s a1
  unfold holdRetry
  repeat' (first
    | (with_reducible apply Keeps.ite)
    | with_reducible exact Keeps.refl _ _
    | with_reducible assumption
    | (with_reducible apply Keeps.then (State.modCtx_keeps ..) ?_ (by decide)))

theorem releaseCore_keeps : ∀ s a1 a2, Keeps [.uni, .uniBad, .host, .cores, .ctxs, .mports, .tiers, .hps, .tallies] s (releaseCore s a1 a2) := by
  intro s a1 a2
  unfold releaseCore
  repeat' (first
    | (with_reducible apply Keeps.ite)
    | with_reducible exact Keeps.refl _ _
    | with_reducible assumption
    | (with_reducible apply Keeps.then (compWrite_keeps ..) ?_ (by decide))
    | (with_reducible apply Keeps.then (State.modCore_keeps _ _ _ ?_) ?_ (by decide))
    | (with_reducible exact fun _ h => h)
    | (with_reducible exact fun h => h)
    | (with_reducible apply Keeps.foldl)
    | (with_reducible apply Keeps.foldl_snd)
    | (with_reducible refine Keeps.snd (by assumption) ?_)
    | (with_reducible refine Keeps.fst (by assumption) ?_)
    | intro _
    | dsimp only
    | split)

theorem releaseCtx_keeps : ∀ s a1, Keeps [.uni, .uniBad, .host, .cores, .ctxs, .mports, .tiers, .hps, .tallies] s (releaseCtx s a1) := by
  intro s a1
  unfold releaseCtx
  repeat' (first
    | (with_reducible apply Keeps.ite)
    | with_reducible exact Keeps.refl _ _
    | with_reducible assumption
    | (with_reducible apply Keeps.then (compWrite_keeps ..) ?_ (by decide))
    | (with_reducible apply Keeps.then (State.modCtx_keeps ..) ?_ (by decide))
    | (with_reducible apply Keeps.foldl)
    | (with_reducible apply Keeps.foldl_snd)
    | (with_reducible refine Keeps.snd (by assumption) ?_)
    | (with_reducible refine Keeps.fst (by assumption) ?_)
    | intro _
    | dsimp only
    | split)

theorem execCompletionRecordRelease_keeps : ∀ a0 a1 s, Gives [.uni, .uniBad, .host, .cores, .ctxs, .mports, .tiers, .hps, .tallies] s (execCompletionRecordRelease a0 a1 s) := by
  intro a0 a1 s
  unfold execCompletionRecordRelease
  repeat' (first
    | (with_reducible apply Gives.ite)
    | (with_reducible apply Keeps.ite)
    | with_reducible exact Keeps.refl _ _
    | with_reducible assumption
    | (with_reducible apply Keeps.then (holdRetry_keeps ..) ?_ (by decide))
    | (with_reducible apply Keeps.then (releaseCore_keeps ..) ?_ (by decide))
    | (with_reducible apply Keeps.then (releaseCtx_keeps ..) ?_ (by decide))
    | (with_reducible apply Gives.next)
    | (with_reducible apply Keeps.foldl)
    | (with_reducible apply Keeps.foldl_snd)
    | (with_reducible refine Keeps.snd (by assumption) ?_)
    | (with_reducible refine Keeps.fst (by assumption) ?_)
    | intro _)

theorem execCompletionWriteRetry_keeps : ∀ a0 s, Gives [.uni, .uniBad, .host, .cores, .ctxs, .mports, .tiers, .hps, .tallies] s (execCompletionWriteRetry a0 s) := by
  intro a0 s
  unfold execCompletionWriteRetry
  repeat' (first
    | (with_reducible apply Gives.ite)
    | (with_reducible apply Keeps.ite)
    | with_reducible exact Keeps.refl _ _
    | with_reducible assumption
    | (with_reducible apply Keeps.then (State.modCtx_keeps ..) ?_ (by decide))
    | (with_reducible apply Keeps.then (releaseCtx_keeps ..) ?_ (by decide))
    | (with_reducible apply Keeps.then (releaseCore_keeps ..) ?_ (by decide))
    | (with_reducible apply Gives.next)
    | (with_reducible apply Keeps.foldl)
    | (with_reducible apply Keeps.foldl_snd)
    | (with_reducible refine Keeps.snd (by assumption) ?_)
    | (with_reducible refine Keeps.fst (by assumption) ?_)
    | intro _
    | dsimp only
    | split)

theorem execCoreStateReq_keeps : ∀ a0 a1 a2 s, Gives [.cores, .hps] s (execCoreStateReq a0 a1 a2 s) := by
  intro a0 a1 a2 s
  unfold execCoreStateReq
  repeat' (first
    | (with_reducible apply Gives.ite)
    | (with_reducible apply Keeps.ite)
    | with_reducible exact Keeps.refl _ _
    | with_reducible assumption
    | (with_reducible apply Keeps.gated ?_ (by decide))
    | (with_reducible apply Keeps.then (State.modCore_keeps _ _ _ ?_) ?_ (by decide))
    | (with_reducible exact fun _ h => h)
    | (with_reducible exact fun h => h)
    | (with_reducible apply Gives.next)
    | (with_reducible apply Keeps.foldl)
    | (with_reducible apply Keeps.foldl_snd)
    | (with_reducible refine Keeps.snd (by assumption) ?_)
    | (with_reducible refine Keeps.fst (by assumption) ?_)
    | intro _)

@[simp] theorem adoptState_scratch (c : Core) : (adoptState c).scratch = c.scratch := by
  unfold adoptState
  dsimp only
  split <;> rfl

theorem execServiceStateAdopt_keeps : ∀ a0 s, Gives [.cores, .tallies] s (execServiceStateAdopt a0 s) := by
  intro a0 s
  unfold execServiceStateAdopt
  dsimp only
  split
  · exact Gives.next (Keeps.refl _ _)
  · refine Gives.next (Keeps.step (Keeps.step (Keeps.refl _ _) (State.modCore_keeps _ _ _ (fun c h => ?_)) (by decide)) (post_keeps ..) (by decide))
    rw [adoptState_scratch]
    exact h

theorem execScratchpadWriteback_keeps : ∀ a0 s, Gives [.cores] s (execScratchpadWriteback a0 s) := by
  intro a0 s
  unfold execScratchpadWriteback
  repeat' (first
    | (with_reducible apply Gives.ite)
    | (with_reducible apply Keeps.ite)
    | with_reducible exact Keeps.refl _ _
    | with_reducible assumption
    | (with_reducible apply Keeps.then (State.modCore_keeps _ _ _ ?_) ?_ (by decide))
    | (with_reducible exact fun _ h => h)
    | (with_reducible exact fun h => h)
    | (with_reducible apply Gives.next)
    | (with_reducible apply Keeps.foldl)
    | (with_reducible apply Keeps.foldl_snd)
    | (with_reducible refine Keeps.snd (by assumption) ?_)
    | (with_reducible refine Keeps.fst (by assumption) ?_)
    | intro _
    | dsimp only
    | split)

@[simp] theorem slotWrite_scratch (c : Core) (i v : Nat) : (slotWrite c i v).scratch = c.scratch := by
  unfold slotWrite
  dsimp only
  split
  · rfl
  · split <;> rfl

theorem execCoreSlot_keeps : ∀ a0 a1 a2 a3 s, Gives [.cores, .hps] s (execCoreSlot a0 a1 a2 a3 s) := by
  intro a0 a1 a2 a3 s
  refine Gives.next (Keeps.gated (Keeps.refl _ _) (by decide) (fun u => Keeps.step (Keeps.refl _ _) (State.modCore_keeps _ _ _ (fun c h => ?_)) (by decide)))
  rw [slotWrite_scratch]
  exact h

end Sys2Proof.Machine
end

