-- ==== Sys2Proof/Laws/Rings.lean ====
section
/-! SUPPORT. What each operation of Machine/Rings.lean keeps. -/

namespace Sys2Proof.Machine

open Sys2Proof

theorem notePolled_keeps : ∀ s a1 a2, Keeps [.tallies] s (notePolled s a1 a2) := by
  intro s a1 a2
  unfold notePolled
  repeat' (first
    | (with_reducible apply Keeps.ite)
    | with_reducible exact Keeps.refl _ _
    | with_reducible assumption
    | (with_reducible apply Keeps.then (post_keeps ..) ?_ (by decide)))

theorem rewatchRing_keeps : ∀ s a1 a2, Keeps [.ctxs, .tallies] s (rewatchRing s a1 a2) := by
  intro s a1 a2
  unfold rewatchRing
  repeat' (first
    | (with_reducible apply Keeps.ite)
    | with_reducible exact Keeps.refl _ _
    | with_reducible assumption
    | (with_reducible apply Keeps.then (State.modCtx_keeps ..) ?_ (by decide))
    | (with_reducible apply Keeps.then (notePolled_keeps ..) ?_ (by decide))
    | (with_reducible apply Keeps.foldl)
    | (with_reducible apply Keeps.foldl_snd)
    | (with_reducible refine Keeps.snd (by assumption) ?_)
    | (with_reducible refine Keeps.fst (by assumption) ?_)
    | intro _)

theorem rewatch_keeps : ∀ a0 s, Keeps [.uniBad, .cores, .ctxs, .mports, .tiers, .hps, .tallies] s (rewatch a0 s) := by
  intro a0 s
  unfold rewatch
  dsimp only
  refine Keeps.foldl ?_ (fun _ _ h => h.step (rewatchRing_keeps ..) (by decide))
  refine Keeps.step ?_ (reevaluate_keeps ..) (by decide)
  refine Keeps.foldl ?_ (fun _ _ h => Keeps.ite (fun _ => h.step (post_keeps ..) (by decide)) (fun _ => h))
  exact Keeps.set_cores_map (Keeps.refl _ _) (fun _ => rfl) (by decide)

theorem badRecord_keeps : ∀ s a1 a2 a3, Keeps [.uni, .uniBad, .host, .cores, .ctxs, .mports, .tiers, .hps, .tallies] s (badRecord s a1 a2 a3) := by
  intro s a1 a2 a3
  unfold badRecord
  repeat' (first
    | (with_reducible apply Keeps.ite)
    | with_reducible exact Keeps.refl _ _
    | with_reducible assumption
    | (with_reducible apply Keeps.then (report_keeps ..) ?_ (by decide)))

theorem ownNext_keeps : ∀ s a1 a2, Keeps [.ctxs] s (ownNext s a1 a2) := by
  intro s a1 a2
  unfold ownNext
  repeat' (first
    | (with_reducible apply Keeps.ite)
    | with_reducible exact Keeps.refl _ _
    | with_reducible assumption
    | (with_reducible apply Keeps.then (State.modCtx_keeps ..) ?_ (by decide)))

theorem placeRecord_keeps : ∀ s a1 a2, Keeps [.ctxs, .ibex, .ces] s (placeRecord s a1 a2) := by
  intro s a1 a2
  unfold placeRecord
  repeat' (first
    | (with_reducible apply Keeps.ite)
    | with_reducible exact Keeps.refl _ _
    | with_reducible assumption
    | (with_reducible apply Keeps.then (State.modCtx_keeps ..) ?_ (by decide))
    | (with_reducible apply Keeps.then (State.modIbx_keeps ..) ?_ (by decide))
    | (with_reducible apply Keeps.then (State.modCe_keeps ..) ?_ (by decide))
    | (with_reducible apply Keeps.foldl)
    | (with_reducible apply Keeps.foldl_snd)
    | (with_reducible refine Keeps.snd (by assumption) ?_)
    | (with_reducible refine Keeps.fst (by assumption) ?_)
    | intro _
    | dsimp only
    | split)

theorem readRing_keeps : ∀ s a1 a2, Keeps [.uni, .uniBad, .host, .cores, .ctxs, .ibex, .mports, .tiers, .ces, .hps, .tallies] s (readRing s a1 a2) := by
  intro s a1 a2
  unfold readRing
  repeat' (first
    | (with_reducible apply Keeps.ite)
    | with_reducible exact Keeps.refl _ _
    | with_reducible assumption
    | (with_reducible apply Keeps.then (ringError_keeps ..) ?_ (by decide))
    | (with_reducible apply Keeps.then (ownNext_keeps ..) ?_ (by decide))
    | (with_reducible apply Keeps.then (badRecord_keeps ..) ?_ (by decide))
    | (with_reducible apply Keeps.then (devTouch_keeps ..) ?_ (by decide))
    | (with_reducible apply Keeps.then (placeRecord_keeps ..) ?_ (by decide))
    | (with_reducible apply Keeps.foldl)
    | (with_reducible apply Keeps.foldl_snd)
    | (with_reducible refine Keeps.snd (by assumption) ?_)
    | (with_reducible refine Keeps.fst (by assumption) ?_)
    | intro _
    | dsimp only
    | split)

theorem execRingIntakeRead_keeps : ∀ a0 a1 s, Gives [.uni, .uniBad, .host, .cores, .ctxs, .ibex, .mports, .tiers, .ces, .hps, .tallies] s (execRingIntakeRead a0 a1 s) := by
  intro a0 a1 s
  unfold execRingIntakeRead
  repeat' (first
    | (with_reducible apply Gives.ite)
    | (with_reducible apply Keeps.ite)
    | with_reducible exact Keeps.refl _ _
    | with_reducible assumption
    | (with_reducible apply Keeps.then (readRing_keeps ..) ?_ (by decide))
    | (with_reducible apply Gives.next))

theorem ringStart_keeps : ∀ s a1 a2, Keeps [.uniBad, .ctxs, .mports, .tiers, .hps, .tallies] s (ringStart s a1 a2) := by
  intro s a1 a2
  unfold ringStart
  repeat' (first
    | (with_reducible apply Keeps.ite)
    | with_reducible exact Keeps.refl _ _
    | with_reducible assumption
    | (with_reducible apply Keeps.then (State.modCtx_keeps ..) ?_ (by decide))
    | (with_reducible apply Keeps.then (devTouch_keeps ..) ?_ (by decide))
    | (with_reducible apply Keeps.then (takeIndex_keeps ..) ?_ (by decide))
    | (with_reducible apply Keeps.then (notePolled_keeps ..) ?_ (by decide))
    | (with_reducible apply Keeps.foldl)
    | (with_reducible apply Keeps.foldl_snd)
    | (with_reducible refine Keeps.snd (by assumption) ?_)
    | (with_reducible refine Keeps.fst (by assumption) ?_)
    | intro _)

theorem rbaseWrite_keeps : ∀ s a1 a2 a3, Keeps [.uniBad, .ctxs, .mports, .tiers, .hps, .tallies] s (rbaseWrite s a1 a2 a3) := by
  intro s a1 a2 a3
  unfold rbaseWrite
  repeat' (first
    | (with_reducible apply Keeps.ite)
    | with_reducible exact Keeps.refl _ _
    | with_reducible assumption
    | (with_reducible apply Keeps.then (State.modCtx_keeps ..) ?_ (by decide))
    | (with_reducible apply Keeps.then (ringStart_keeps ..) ?_ (by decide))
    | (with_reducible apply Keeps.foldl)
    | (with_reducible apply Keeps.foldl_snd)
    | (with_reducible refine Keeps.snd (by assumption) ?_)
    | (with_reducible refine Keeps.fst (by assumption) ?_)
    | intro _)

theorem execRingEnable_keeps : ∀ a0 a1 a2 a3 s, Gives [.uniBad, .ctxs, .mports, .tiers, .hps, .tallies] s (execRingEnable a0 a1 a2 a3 s) := by
  intro a0 a1 a2 a3 s
  unfold execRingEnable
  repeat' (first
    | (with_reducible apply Gives.ite)
    | (with_reducible apply Keeps.ite)
    | with_reducible exact Keeps.refl _ _
    | with_reducible assumption
    | (with_reducible apply Keeps.gated ?_ (by decide))
    | (with_reducible apply Keeps.then (rbaseWrite_keeps ..) ?_ (by decide))
    | (with_reducible apply Gives.next)
    | (with_reducible apply Keeps.foldl)
    | (with_reducible apply Keeps.foldl_snd)
    | (with_reducible refine Keeps.snd (by assumption) ?_)
    | (with_reducible refine Keeps.fst (by assumption) ?_)
    | intro _)

theorem execRingDisable_keeps : ∀ a0 a1 a2 a3 s, Gives [.uniBad, .ctxs, .mports, .tiers, .hps, .tallies] s (execRingDisable a0 a1 a2 a3 s) := by
  intro a0 a1 a2 a3 s
  unfold execRingDisable
  repeat' (first
    | (with_reducible apply Gives.ite)
    | (with_reducible apply Keeps.ite)
    | with_reducible exact Keeps.refl _ _
    | with_reducible assumption
    | (with_reducible apply Keeps.gated ?_ (by decide))
    | (with_reducible apply Keeps.then (rbaseWrite_keeps ..) ?_ (by decide))
    | (with_reducible apply Gives.next)
    | (with_reducible apply Keeps.foldl)
    | (with_reducible apply Keeps.foldl_snd)
    | (with_reducible refine Keeps.snd (by assumption) ?_)
    | (with_reducible refine Keeps.fst (by assumption) ?_)
    | intro _)

theorem execConsumerIndexWrite_keeps : ∀ a0 a1 s, Gives [.uni, .uniBad, .host, .cores, .ctxs, .mports, .tiers, .hps, .tallies] s (execConsumerIndexWrite a0 a1 s) := by
  intro a0 a1 s
  unfold execConsumerIndexWrite
  repeat' (first
    | (with_reducible apply Gives.ite)
    | (with_reducible apply Keeps.ite)
    | with_reducible exact Keeps.refl _ _
    | with_reducible assumption
    | (with_reducible apply Keeps.then (State.modCtx_keeps ..) ?_ (by decide))
    | (with_reducible apply Keeps.then (devWrite_keeps ..) ?_ (by decide))
    | (with_reducible apply Gives.next)
    | (with_reducible apply Keeps.foldl)
    | (with_reducible apply Keeps.foldl_snd)
    | (with_reducible refine Keeps.snd (by assumption) ?_)
    | (with_reducible refine Keeps.fst (by assumption) ?_)
    | intro _)

theorem takeDeferred_keeps : ∀ s a1, Keeps [.ctxs, .tallies] s (takeDeferred s a1) := by
  intro s a1
  unfold takeDeferred
  repeat' (first
    | (with_reducible apply Keeps.ite)
    | with_reducible exact Keeps.refl _ _
    | with_reducible assumption
    | (with_reducible apply Keeps.then (takeIndex_keeps ..) ?_ (by decide))
    | (with_reducible apply Keeps.then (State.modCtx_keeps ..) ?_ (by decide))
    | (with_reducible apply Keeps.foldl)
    | (with_reducible apply Keeps.foldl_snd)
    | (with_reducible refine Keeps.snd (by assumption) ?_)
    | (with_reducible refine Keeps.fst (by assumption) ?_)
    | intro _
    | dsimp only
    | split)

theorem execRingRateDefer_keeps : ∀ a0 s, Gives [.ctxs, .tallies] s (execRingRateDefer a0 s) := by
  intro a0 s
  unfold execRingRateDefer
  repeat' (first
    | (with_reducible apply Gives.ite)
    | (with_reducible apply Keeps.ite)
    | with_reducible exact Keeps.refl _ _
    | with_reducible assumption
    | (with_reducible apply Keeps.then (State.modCtx_keeps ..) ?_ (by decide))
    | (with_reducible apply Keeps.then (post_keeps ..) ?_ (by decide))
    | (with_reducible apply Keeps.then (takeDeferred_keeps ..) ?_ (by decide))
    | (with_reducible apply Gives.next)
    | (with_reducible apply Keeps.foldl)
    | (with_reducible apply Keeps.foldl_snd)
    | (with_reducible refine Keeps.snd (by assumption) ?_)
    | (with_reducible refine Keeps.fst (by assumption) ?_)
    | intro _)

theorem execRequest_keeps : ∀ a0 s, Gives [.uni, .uniBad, .host, .cores, .ctxs, .ibex, .mports, .tiers, .ces, .hps, .tallies] s (execRequest a0 s) := by
  intro a0 s
  unfold execRequest
  repeat' (first
    | (with_reducible apply Gives.ite)
    | (with_reducible apply Keeps.ite)
    | with_reducible exact Keeps.refl _ _
    | with_reducible assumption
    | (with_reducible apply Keeps.then (readRing_keeps ..) ?_ (by decide))
    | (with_reducible apply Gives.next))

end Sys2Proof.Machine
end

