-- ==== Sys2Proof/Laws/Tiers.lean ====
section
/-! SUPPORT. What each operation of Machine/Tiers.lean keeps. -/

namespace Sys2Proof.Machine

open Sys2Proof

theorem placeRetired_keeps : ∀ s, Keeps [.tiers] s (placeRetired s) := by
  intro s
  unfold placeRetired
  repeat' (first
    | (with_reducible apply Keeps.ite)
    | with_reducible exact Keeps.refl _ _
    | with_reducible assumption
    | (with_reducible apply Keeps.then (setFrame_keeps ..) ?_ (by decide))
    | (with_reducible apply Keeps.foldl)
    | (with_reducible refine Keeps.snd (by assumption) ?_)
    | (with_reducible refine Keeps.fst (by assumption) ?_)
    | intro _)

theorem rangeInit_keeps : ∀ s a1 a2, Keeps [.uni, .uniBad, .tiers] s (rangeInit s a1 a2) := by
  intro s a1 a2
  unfold rangeInit
  refine Keeps.step (Keeps.set_tiers ?_ (by decide)) (placeRetired_keeps ..) (by decide)
  refine ⟨⟨rfl, ?_⟩, fun h => ⟨rfl, h.2⟩, rfl, Nat.le_refl _⟩
  intro f hf
  cases f <;> first | rfl | exact absurd (by decide) hf

theorem adoptTiers_keeps : ∀ s a1, Keeps [.mports] s (adoptTiers s a1) := by
  intro s a1
  unfold adoptTiers
  repeat' (first
    | (with_reducible apply Keeps.ite)
    | with_reducible exact Keeps.refl _ _
    | with_reducible assumption
    | (with_reducible apply Keeps.then (State.modMport_keeps ..) ?_ (by decide)))

theorem beginMove_keeps : ∀ s a1 a2 a3, Keeps [.tiers] s (beginMove s a1 a2 a3) := by
  intro s a1 a2 a3
  unfold beginMove
  repeat' (first
    | (with_reducible apply Keeps.ite)
    | with_reducible exact Keeps.refl _ _
    | with_reducible assumption
    | (with_reducible apply Keeps.foldl)
    | (with_reducible refine Keeps.snd (by assumption) ?_)
    | (with_reducible refine Keeps.fst (by assumption) ?_)
    | (with_reducible fail_if_no_progress (apply Keeps.set_tiers ?_ (by decide))))

theorem finishMoves_keeps : ∀ s, Keeps [.uniBad, .mports, .tiers, .tallies] s (finishMoves s) := by
  intro s
  unfold finishMoves
  repeat' (first
    | (with_reducible apply Keeps.ite)
    | with_reducible exact Keeps.refl _ _
    | with_reducible assumption
    | (with_reducible apply Keeps.then (finishMove_keeps ..) ?_ (by decide))
    | (with_reducible apply Keeps.foldl)
    | (with_reducible refine Keeps.snd (by assumption) ?_)
    | (with_reducible refine Keeps.fst (by assumption) ?_)
    | intro _)

theorem clearUses_keeps : ∀ s a1 a2, Keeps [.tiers] s (clearUses s a1 a2) := by
  intro s a1 a2
  unfold clearUses
  repeat' (first
    | (with_reducible apply Keeps.ite)
    | with_reducible exact Keeps.refl _ _
    | with_reducible assumption
    | (with_reducible apply Keeps.foldl)
    | (with_reducible refine Keeps.snd (by assumption) ?_)
    | (with_reducible refine Keeps.fst (by assumption) ?_)
    | (with_reducible fail_if_no_progress (apply Keeps.set_tiers ?_ (by decide))))

theorem countIgnored_keeps : ∀ s a1, Keeps [.mports] s (countIgnored s a1) := by
  intro s a1
  unfold countIgnored
  repeat' (first
    | (with_reducible apply Keeps.ite)
    | with_reducible exact Keeps.refl _ _
    | with_reducible assumption
    | (with_reducible apply Keeps.then (State.modMport_keeps ..) ?_ (by decide)))

theorem countNoVictim_keeps : ∀ s a1, Keeps [.mports] s (countNoVictim s a1) := by
  intro s a1
  unfold countNoVictim
  repeat' (first
    | (with_reducible apply Keeps.ite)
    | with_reducible exact Keeps.refl _ _
    | with_reducible assumption
    | (with_reducible apply Keeps.then (State.modMport_keeps ..) ?_ (by decide)))

theorem dropBad_keeps : ∀ s a1, Keeps [.uniBad] s (dropBad s a1) := by
  intro s a1
  unfold dropBad
  repeat' (first
    | (with_reducible apply Keeps.ite)
    | with_reducible exact Keeps.refl _ _
    | with_reducible assumption
    | (with_reducible apply Keeps.foldl)
    | (with_reducible refine Keeps.snd (by assumption) ?_)
    | (with_reducible refine Keeps.fst (by assumption) ?_)
    | (with_reducible fail_if_no_progress (apply Keeps.set_uniBad ?_ (by decide))))

theorem endMove_keeps : ∀ s a1, Keeps [.uniBad, .mports, .tiers, .tallies] s (endMove s a1) := by
  intro s a1
  unfold endMove
  repeat' (first
    | (with_reducible apply Keeps.ite)
    | with_reducible exact Keeps.refl _ _
    | with_reducible assumption
    | (with_reducible apply Keeps.then (finishMove_keeps ..) ?_ (by decide))
    | (with_reducible apply Keeps.foldl)
    | (with_reducible refine Keeps.snd (by assumption) ?_)
    | (with_reducible refine Keeps.fst (by assumption) ?_)
    | intro _
    | dsimp only
    | split)

theorem fenceHint_keeps : ∀ s a1, Keeps [.cores] s (fenceHint s a1) := by
  intro s a1
  unfold fenceHint
  repeat' (first
    | (with_reducible apply Keeps.ite)
    | with_reducible exact Keeps.refl _ _
    | with_reducible assumption
    | (with_reducible apply Keeps.then (State.modCore_keeps _ _ _ ?_) ?_ (by decide))
    | (with_reducible exact fun _ h => h)
    | (with_reducible exact fun h => h)
    | (with_reducible apply Keeps.foldl)
    | (with_reducible refine Keeps.snd (by assumption) ?_)
    | (with_reducible refine Keeps.fst (by assumption) ?_)
    | intro _
    | dsimp only
    | split)

theorem fenceChans_keeps : ∀ s a1 a2, Keeps [.cores, .tiers, .tallies] s (fenceChans s a1 a2) := by
  intro s a1 a2
  unfold fenceChans
  repeat' (first
    | (with_reducible apply Keeps.ite)
    | with_reducible exact Keeps.refl _ _
    | with_reducible assumption
    | (with_reducible apply Keeps.then (fenceHint_keeps ..) ?_ (by decide))
    | (with_reducible apply Keeps.then (post_keeps ..) ?_ (by decide))
    | (with_reducible apply Keeps.foldl)
    | (with_reducible refine Keeps.snd (by assumption) ?_)
    | (with_reducible refine Keeps.fst (by assumption) ?_)
    | (with_reducible fail_if_no_progress (apply Keeps.set_tiers ?_ (by decide)))
    | intro _)

theorem execPromotion_keeps : ∀ a0 a1 s, Gives [.mports, .tiers] s (execPromotion a0 a1 s) := by
  intro a0 a1 s
  unfold execPromotion
  repeat' (first
    | (with_reducible apply Gives.ite)
    | (with_reducible apply Keeps.ite)
    | with_reducible exact Keeps.refl _ _
    | with_reducible assumption
    | (with_reducible apply Keeps.then (State.modMport_keeps ..) ?_ (by decide))
    | (with_reducible apply Gives.next)
    | (with_reducible apply Keeps.foldl)
    | (with_reducible refine Keeps.snd (by assumption) ?_)
    | (with_reducible refine Keeps.fst (by assumption) ?_)
    | (with_reducible fail_if_no_progress (apply Keeps.set_tiers ?_ (by decide)))
    | intro _)

theorem searchFrom_keeps : ∀ s a1 a2 a3 a4 x0 x1 t, searchFrom s a1 a2 a3 a4 = some (x0, x1, t) → Keeps [.tiers] s t := by
  intro s a1 a2 a3
  induction a3 generalizing s with
  | zero => intro a4 x0 x1 t h; simp [searchFrom] at h
  | succ n ih =>
    intro a4 x0 x1 t h
    unfold searchFrom at h
    dsimp only at h
    split at h
    · exact ih _ _ _ _ _ h
    · split at h
      · exact ih _ _ _ _ _ h
      · split at h
        · exact Keeps.trans (Keeps.set_tiers (Keeps.refl _ _) (by decide)) (ih _ _ _ _ _ h)
        · cases h
          exact Keeps.set_tiers (Keeps.refl _ _) (by decide)

theorem startMove_keeps : ∀ s a1 a2, Keeps [.mports, .tiers] s (startMove s a1 a2) := by
  intro s a1 a2
  unfold startMove
  repeat' (first
    | (with_reducible apply Keeps.ite)
    | with_reducible exact Keeps.refl _ _
    | with_reducible assumption
    | (with_reducible refine Keeps.step ?_ (searchFrom_keeps _ _ _ _ _ _ _ _ (by assumption)) (by decide))
    | (with_reducible apply Keeps.then (beginMove_keeps ..) ?_ (by decide))
    | (with_reducible apply Keeps.then (countNoVictim_keeps ..) ?_ (by decide))
    | (with_reducible apply Keeps.then (clearUses_keeps ..) ?_ (by decide))
    | (with_reducible apply Keeps.foldl)
    | (with_reducible refine Keeps.snd (by assumption) ?_)
    | (with_reducible refine Keeps.fst (by assumption) ?_)
    | (with_reducible apply Keeps.getD)
    | intro _
    | dsimp only
    | split)

theorem execTileMove_keeps : ∀ a0 a1 s, Gives [.mports, .tiers] s (execTileMove a0 a1 s) := by
  intro a0 a1 s
  unfold execTileMove
  repeat' (first
    | (with_reducible apply Gives.ite)
    | (with_reducible apply Keeps.ite)
    | with_reducible exact Keeps.refl _ _
    | with_reducible assumption
    | (with_reducible apply Keeps.then (startMove_keeps ..) ?_ (by decide))
    | (with_reducible apply Gives.next)
    | (with_reducible apply Keeps.foldl)
    | (with_reducible refine Keeps.snd (by assumption) ?_)
    | (with_reducible refine Keeps.fst (by assumption) ?_)
    | (with_reducible fail_if_no_progress (apply Keeps.set_tiers ?_ (by decide)))
    | intro _)

theorem execMoveEnd_keeps : ∀ a0 s, Gives [.uniBad, .mports, .tiers, .tallies] s (execMoveEnd a0 s) := by
  intro a0 s
  unfold execMoveEnd
  repeat' (first
    | (with_reducible apply Gives.ite)
    | (with_reducible apply Keeps.ite)
    | with_reducible exact Keeps.refl _ _
    | with_reducible assumption
    | (with_reducible apply Keeps.then (endMove_keeps ..) ?_ (by decide))
    | (with_reducible apply Gives.next))

theorem moveNow_keeps : ∀ s a1 a2, Keeps [.uniBad, .mports, .tiers, .tallies] s (moveNow s a1 a2).1 := by
  intro s a1 a2
  unfold moveNow
  repeat' (first
    | (with_reducible apply Keeps.ite)
    | with_reducible exact Keeps.refl _ _
    | with_reducible assumption
    | (with_reducible apply Keeps.then (endMove_keeps ..) ?_ (by decide))
    | (with_reducible apply Keeps.then (startMove_keeps ..) ?_ (by decide)))

theorem moveInTile_keeps : ∀ a0 s a2, Keeps [.uniBad, .mports, .tiers, .tallies] s.1 (moveInTile a0 s a2).1 := by
  rintro a0 ⟨s, n⟩ a2
  have key : ∀ b : Bool, Keeps [.uniBad, .mports, .tiers, .tallies] s (if b = true then (s, n) else ((moveNow s a2 a0).1, if (moveNow s a2 a0).2 = true then n + 1 else n)).1 := by
    intro b
    cases b
    · exact (moveNow_keeps ..).mono (by decide)
    · exact Keeps.refl _ _
  simp only [moveInTile]
  split
  · exact (countIgnored_keeps ..).mono (by decide)
  · exact key _

theorem hintDone_keeps : ∀ s a1 a2 a3, Keeps [.cores, .tiers] s (hintDone s a1 a2 a3) := by
  intro s a1 a2 a3
  unfold hintDone
  repeat' (first
    | (with_reducible apply Keeps.ite)
    | with_reducible exact Keeps.refl _ _
    | with_reducible assumption
    | (with_reducible apply Keeps.then (State.modCore_keeps _ _ _ ?_) ?_ (by decide))
    | (with_reducible exact fun _ h => h)
    | (with_reducible exact fun h => h)
    | (with_reducible apply Keeps.foldl)
    | (with_reducible refine Keeps.snd (by assumption) ?_)
    | (with_reducible refine Keeps.fst (by assumption) ?_)
    | (with_reducible fail_if_no_progress (apply Keeps.set_tiers ?_ (by decide)))
    | intro _
    | dsimp only
    | split)

theorem execMoveIn_keeps : ∀ s, Gives [.uniBad, .cores, .mports, .tiers, .tallies] s (execMoveIn s) := by
  intro s
  unfold execMoveIn
  repeat' (first
    | (with_reducible apply Gives.ite)
    | (with_reducible apply Keeps.ite)
    | with_reducible exact Keeps.refl _ _
    | with_reducible assumption
    | (with_reducible apply Keeps.then (moveInTile_keeps ..) ?_ (by decide))
    | (with_reducible apply Keeps.foldl_fst)
    | (with_reducible apply Keeps.then (hintDone_keeps ..) ?_ (by decide))
    | (with_reducible apply Gives.next)
    | (with_reducible apply Keeps.foldl)
    | (with_reducible refine Keeps.snd (by assumption) ?_)
    | (with_reducible refine Keeps.fst (by assumption) ?_)
    | intro _
    | dsimp only
    | split)

theorem moveOutNow_keeps : ∀ s a1, Keeps [.uniBad, .mports, .tiers, .tallies] s (moveOutNow s a1).1 := by
  intro s a1
  unfold moveOutNow
  repeat' (first
    | (with_reducible apply Keeps.ite)
    | with_reducible exact Keeps.refl _ _
    | with_reducible assumption
    | (with_reducible apply Keeps.then (endMove_keeps ..) ?_ (by decide))
    | (with_reducible apply Keeps.then (beginMove_keeps ..) ?_ (by decide))
    | (with_reducible apply Keeps.then (countNoVictim_keeps ..) ?_ (by decide))
    | (with_reducible apply Keeps.foldl)
    | (with_reducible refine Keeps.snd (by assumption) ?_)
    | (with_reducible refine Keeps.fst (by assumption) ?_)
    | intro _
    | dsimp only
    | split)

theorem moveOutTile_keeps : ∀ s a1, Keeps [.uniBad, .mports, .tiers, .tallies] s.1 (moveOutTile s a1).1 := by
  rintro ⟨s, n⟩ a1
  unfold moveOutTile
  dsimp only
  split
  · exact (countIgnored_keeps ..).mono (by decide)
  split
  · exact Keeps.refl _ _
  split
  · exact (countIgnored_keeps ..).mono (by decide)
  · exact (moveOutNow_keeps ..).mono (by decide)

theorem execMoveOut_keeps : ∀ s, Gives [.uniBad, .cores, .mports, .tiers, .tallies] s (execMoveOut s) := by
  intro s
  unfold execMoveOut
  repeat' (first
    | (with_reducible apply Gives.ite)
    | (with_reducible apply Keeps.ite)
    | with_reducible exact Keeps.refl _ _
    | with_reducible assumption
    | (with_reducible apply Keeps.then (moveOutTile_keeps ..) ?_ (by decide))
    | (with_reducible apply Keeps.foldl_fst)
    | (with_reducible apply Keeps.then (hintDone_keeps ..) ?_ (by decide))
    | (with_reducible apply Gives.next)
    | (with_reducible apply Keeps.foldl)
    | (with_reducible refine Keeps.snd (by assumption) ?_)
    | (with_reducible refine Keeps.fst (by assumption) ?_)
    | intro _
    | dsimp only
    | split)

theorem execReport_keeps : ∀ s, Gives [.uni, .uniBad, .host, .cores, .ctxs, .mports, .tiers, .hps, .tallies] s (execReport s) := by
  intro s
  unfold execReport
  repeat' (first
    | (with_reducible apply Gives.ite)
    | (with_reducible apply Keeps.ite)
    | with_reducible exact Keeps.refl _ _
    | with_reducible assumption
    | (with_reducible apply Keeps.then (hintDone_keeps ..) ?_ (by decide))
    | (with_reducible apply Keeps.then (applyWr_keeps ..) ?_ (by decide))
    | (with_reducible apply Keeps.then (coreCount_keeps ..) ?_ (by decide))
    | (with_reducible apply Gives.next)
    | (with_reducible apply Keeps.foldl)
    | (with_reducible refine Keeps.snd (by assumption) ?_)
    | (with_reducible refine Keeps.fst (by assumption) ?_)
    | intro _
    | dsimp only
    | split)

theorem execPinMove_keeps : ∀ a0 s, Gives [.uniBad, .mports, .tiers, .tallies] s (execPinMove a0 s) := by
  intro a0 s
  unfold execPinMove
  repeat' (first
    | (with_reducible apply Gives.ite)
    | (with_reducible apply Keeps.ite)
    | with_reducible exact Keeps.refl _ _
    | with_reducible assumption
    | (with_reducible apply Keeps.then (State.modMport_keeps ..) ?_ (by decide))
    | (with_reducible apply Keeps.then (moveNow_keeps ..) ?_ (by decide))
    | (with_reducible apply Keeps.then (moveOutNow_keeps ..) ?_ (by decide))
    | (with_reducible apply Gives.next)
    | (with_reducible apply Keeps.foldl)
    | (with_reducible refine Keeps.snd (by assumption) ?_)
    | (with_reducible refine Keeps.fst (by assumption) ?_)
    | intro _
    | dsimp only
    | split)

theorem scrubFrame_keeps : ∀ s a1 a2, Keeps [.uniBad, .mports, .tiers, .tallies] s (scrubFrame s a1 a2) := by
  intro s a1 a2
  unfold scrubFrame
  repeat' (first
    | (with_reducible apply Keeps.ite)
    | with_reducible exact Keeps.refl _ _
    | with_reducible assumption
    | (with_reducible apply Keeps.then (readErrors_keeps ..) ?_ (by decide))
    | (with_reducible apply Keeps.then (startRetire_keeps ..) ?_ (by decide))
    | (with_reducible apply Keeps.foldl)
    | (with_reducible refine Keeps.snd (by assumption) ?_)
    | (with_reducible refine Keeps.fst (by assumption) ?_)
    | intro _
    | dsimp only
    | split)

theorem execScrubRead_keeps : ∀ a0 s, Gives [.uniBad, .mports, .tiers, .tallies] s (execScrubRead a0 s) := by
  intro a0 s
  unfold execScrubRead
  repeat' (first
    | (with_reducible apply Gives.ite)
    | (with_reducible apply Keeps.ite)
    | with_reducible exact Keeps.refl _ _
    | with_reducible assumption
    | (with_reducible apply Keeps.then (scrubFrame_keeps ..) ?_ (by decide))
    | (with_reducible apply Keeps.then (State.modMport_keeps ..) ?_ (by decide))
    | (with_reducible apply Gives.next)
    | (with_reducible apply Keeps.foldl)
    | (with_reducible refine Keeps.snd (by assumption) ?_)
    | (with_reducible refine Keeps.fst (by assumption) ?_)
    | intro _)

theorem execRetirementCopy_keeps : ∀ a0 s, Gives [.uniBad, .mports, .tiers, .nvmFrames, .tallies] s (execRetirementCopy a0 s) := by
  intro a0 s
  unfold execRetirementCopy
  repeat' (first
    | (with_reducible apply Gives.ite)
    | (with_reducible apply Keeps.ite)
    | with_reducible exact Keeps.refl _ _
    | with_reducible assumption
    | (with_reducible apply Keeps.then (endMove_keeps ..) ?_ (by decide))
    | (with_reducible apply Keeps.then (countMoveBytes_keeps ..) ?_ (by decide))
    | (with_reducible apply Keeps.then (State.modMport_keeps ..) ?_ (by decide))
    | (with_reducible apply Keeps.then (setFrame_keeps ..) ?_ (by decide))
    | (with_reducible apply Keeps.then (dropBad_keeps ..) ?_ (by decide))
    | (with_reducible apply Keeps.then (noteWaiting_keeps ..) ?_ (by decide))
    | (with_reducible apply Keeps.then (post_keeps ..) ?_ (by decide))
    | (with_reducible apply Gives.next)
    | (with_reducible apply Keeps.foldl)
    | (with_reducible refine Keeps.snd (by assumption) ?_)
    | (with_reducible refine Keeps.fst (by assumption) ?_)
    | (with_reducible fail_if_no_progress (apply Keeps.set_tiers_nvmFrames ?_ (by decide)))
    | intro _
    | dsimp only
    | split)

theorem freeBytes_keeps : ∀ s a1, Keeps [] s (freeBytes s a1).2 := by
  intro s a1
  unfold freeBytes
  repeat' (first
    | (with_reducible apply Keeps.ite)
    | with_reducible exact Keeps.refl _ _
    | with_reducible assumption
    | (with_reducible apply Keeps.foldl)
    | (with_reducible refine Keeps.snd (by assumption) ?_)
    | (with_reducible refine Keeps.fst (by assumption) ?_)
    | (with_reducible fail_if_no_progress (apply Keeps.set_freeCtr ?_)))

theorem execMpRelease_keeps : ∀ a0 a1 a2 s, Gives [.uni, .tiers, .hps] s (execMpRelease a0 a1 a2 s) := by
  intro a0 a1 a2 s
  refine Gives.next (Keeps.gated (Keeps.refl _ _) (by decide) (fun u => Keeps.ite (fun _ => ?_) (fun _ => Keeps.refl _ _)))
  have h : Keeps [.uni, .tiers, .hps] u { u with uni := mwrite u.uni (bitsOf a2.toNat 12 29 * 4096) (freeBytes u 4096).1 } :=
    Keeps.set_uni (Keeps.refl _ _) (Memory.wf_mwrite _ _ _) (by decide)
  refine Keeps.upd h rfl rfl rfl rfl rfl rfl ?_
  intro f hf
  cases f <;> first | rfl | exact absurd (by decide) hf

theorem execRangeInitEnd_keeps : ∀ a0 s, Gives [.mports] s (execRangeInitEnd a0 s) := by
  intro a0 s
  unfold execRangeInitEnd
  repeat' (first
    | (with_reducible apply Gives.ite)
    | (with_reducible apply Keeps.ite)
    | with_reducible exact Keeps.refl _ _
    | with_reducible assumption
    | (with_reducible apply Keeps.then (State.modMport_keeps ..) ?_ (by decide))
    | (with_reducible apply Gives.next)
    | (with_reducible apply Keeps.foldl)
    | (with_reducible refine Keeps.snd (by assumption) ?_)
    | (with_reducible refine Keeps.fst (by assumption) ?_)
    | intro _)

end Sys2Proof.Machine
end

