-- ==== Sys2Proof/Laws/Contexts.lean ====
section
/-! SUPPORT. What each operation of Machine/Contexts.lean keeps. -/

namespace Sys2Proof.Machine

open Sys2Proof

theorem Keeps.withRewatch {l : List Field} {s t : State} {f : State → State} (h : Keeps l s t) (hl : ∀ f ∈ [.uniBad, .cores, .ctxs, .mports, .tiers, .hps, .tallies], f ∈ l)
    (hf : ∀ u, Keeps l u (f u)) : Keeps l s (withRewatch t f) := by
  unfold Machine.withRewatch
  exact (h.trans (hf t)).step (rewatch_keeps ..) hl

theorem raiseWanted_keeps : ∀ s a1, Keeps [.uni, .uniBad, .host, .cores, .ctxs, .ibex, .mports, .tiers, .oports, .accesses, .nextTag, .paths, .ces, .hurdles, .hps, .tallies, .hub2] s (raiseWanted s a1) := by
  intro s a1
  unfold raiseWanted
  repeat' (first
    | (with_reducible apply Keeps.ite)
    | with_reducible exact Keeps.refl _ _
    | with_reducible assumption
    | (with_reducible apply Keeps.then (raiseUnit_keeps ..) ?_ (by decide))
    | (with_reducible apply Keeps.foldl)
    | (with_reducible apply Keeps.foldl_snd)
    | (with_reducible refine Keeps.snd (by assumption) ?_)
    | (with_reducible refine Keeps.fst (by assumption) ?_)
    | (with_reducible fail_if_no_progress (apply Keeps.set_hub2 ?_ (by decide)))
    | intro _
    | dsimp only
    | split)

theorem trustCore_keeps : ∀ s a1 a2, Keeps [.cores] s (trustCore s a1 a2) := by
  intro s a1 a2
  unfold trustCore
  repeat' (first
    | (with_reducible apply Keeps.ite)
    | with_reducible exact Keeps.refl _ _
    | with_reducible assumption
    | (with_reducible apply Keeps.then (State.modCore_keeps _ _ _ ?_) ?_ (by decide))
    | (with_reducible exact fun _ h => h)
    | (with_reducible exact fun h => h)
    | (with_reducible apply Keeps.foldl)
    | (with_reducible apply Keeps.foldl_snd)
    | (with_reducible refine Keeps.snd (by assumption) ?_)
    | (with_reducible refine Keeps.fst (by assumption) ?_)
    | intro _)

theorem liftHurdle_keeps : ∀ s a1, Keeps [.uni, .uniBad, .host, .cores, .ctxs, .ibex, .mports, .tiers, .oports, .accesses, .nextTag, .paths, .ces, .hurdles, .hps, .tallies, .hub2] s (liftHurdle s a1) := by
  intro s a1
  unfold liftHurdle
  repeat' (first
    | (with_reducible apply Keeps.ite)
    | with_reducible exact Keeps.refl _ _
    | with_reducible assumption
    | (with_reducible apply Keeps.then (State.modHurdle_keeps ..) ?_ (by decide))
    | (with_reducible apply Keeps.then (raiseWanted_keeps ..) ?_ (by decide))
    | (with_reducible apply Keeps.then (trustCore_keeps ..) ?_ (by decide))
    | (with_reducible apply Keeps.then (post_keeps ..) ?_ (by decide)))

theorem adUse_keeps : ∀ s a1 a2 a3 a4, Keeps [.uni, .uniBad, .host, .cores, .ctxs, .mports, .tiers, .hps, .tallies] s (adUse s a1 a2 a3 a4) := by
  intro s a1 a2 a3 a4
  unfold adUse
  repeat' (first
    | (with_reducible apply Keeps.ite)
    | with_reducible exact Keeps.refl _ _
    | with_reducible assumption
    | (with_reducible apply Keeps.then (devWrite_keeps ..) ?_ (by decide)))

theorem admitOne_keeps : ∀ s a1, Keeps [.uni, .uniBad, .host, .cores, .ctxs, .mports, .tiers, .hps, .tallies] s (admitOne s a1) := by
  intro s a1
  unfold admitOne
  repeat' (first
    | (with_reducible apply Keeps.ite)
    | with_reducible exact Keeps.refl _ _
    | with_reducible assumption
    | (with_reducible apply Keeps.then (adUse_keeps ..) ?_ (by decide))
    | (with_reducible apply Keeps.then (State.modCtx_keeps ..) ?_ (by decide))
    | (with_reducible apply Keeps.foldl)
    | (with_reducible apply Keeps.foldl_snd)
    | (with_reducible refine Keeps.snd (by assumption) ?_)
    | (with_reducible refine Keeps.fst (by assumption) ?_)
    | intro _)

theorem admitAll_keeps : ∀ a0 a1 s, Keeps [.uni, .uniBad, .host, .cores, .ctxs, .mports, .tiers, .hps, .tallies] s (admitAll a0 a1 s) := by
  intro a0 a1 s
  induction a0 generalizing s with
  | zero => exact Keeps.refl _ _
  | succ n ih =>
    unfold admitAll
    dsimp only
    split
    · exact Keeps.refl _ _
    split
    · exact Keeps.refl _ _
    split
    · exact Keeps.trans (Keeps.step ((State.modCtx_keeps ..).mono (by decide)) (loaderReport_keeps ..) (by decide)) (ih _)
    · exact Keeps.trans (Keeps.step ((State.modCtx_keeps ..).mono (by decide)) (admitOne_keeps ..) (by decide)) (ih _)

theorem endRequest_keeps : ∀ s a1 a2 a3, Keeps [.uni, .uniBad, .host, .cores, .ctxs, .mports, .tiers, .hps, .tallies] s (endRequest s a1 a2 a3) := by
  intro s a1 a2 a3
  unfold endRequest
  repeat' (first
    | (with_reducible apply Keeps.ite)
    | with_reducible exact Keeps.refl _ _
    | with_reducible assumption
    | (with_reducible apply Keeps.then (State.modCtx_keeps ..) ?_ (by decide))
    | (with_reducible apply Keeps.then (adUse_keeps ..) ?_ (by decide))
    | (with_reducible apply Keeps.then (loaderReport_keeps ..) ?_ (by decide))
    | (with_reducible apply Keeps.foldl)
    | (with_reducible apply Keeps.foldl_snd)
    | (with_reducible refine Keeps.snd (by assumption) ?_)
    | (with_reducible refine Keeps.fst (by assumption) ?_)
    | intro _)

theorem fenceUnit_keeps : ∀ s a1 a2 a3, Keeps [.uni, .uniBad, .host, .cores, .ctxs, .ibex, .mports, .tiers, .oports, .lasers, .accesses, .nextTag, .paths, .ces, .hps, .tallies, .hub2] s (fenceUnit s a1 a2 a3) := by
  intro s a1 a2 a3
  unfold fenceUnit
  repeat' (first
    | (with_reducible apply Keeps.ite)
    | with_reducible exact Keeps.refl _ _
    | with_reducible assumption
    | (with_reducible apply Keeps.then (fenceChans_keeps ..) ?_ (by decide))
    | (with_reducible apply Keeps.then (fenceColls_keeps ..) ?_ (by decide))
    | (with_reducible apply Keeps.then (State.modLaser_keeps ..) ?_ (by decide))
    | (with_reducible apply Keeps.then (fenceEngines_keeps ..) ?_ (by decide))
    | (with_reducible apply Keeps.foldl)
    | (with_reducible apply Keeps.foldl_snd)
    | (with_reducible refine Keeps.snd (by assumption) ?_)
    | (with_reducible refine Keeps.fst (by assumption) ?_)
    | intro _
    | dsimp only
    | split)

theorem fenceServing_keeps : ∀ s a1 a2, Keeps [.uni, .uniBad, .host, .cores, .ctxs, .mports, .tiers, .oports, .hps, .tallies, .loads] s (fenceServing s a1 a2) := by
  intro s a1 a2
  unfold fenceServing
  repeat' (first
    | (with_reducible apply Keeps.ite)
    | with_reducible exact Keeps.refl _ _
    | with_reducible assumption
    | (with_reducible apply Keeps.then (endJobs_keeps ..) ?_ (by decide))
    | (with_reducible apply Keeps.then (State.modCtx_keeps ..) ?_ (by decide))
    | (with_reducible apply Keeps.then (loaderReport_keeps ..) ?_ (by decide))
    | (with_reducible apply Keeps.then (endRequest_keeps ..) ?_ (by decide))
    | (with_reducible apply Keeps.then (post_keeps ..) ?_ (by decide))
    | (with_reducible apply Keeps.foldl)
    | (with_reducible apply Keeps.foldl_snd)
    | (with_reducible refine Keeps.snd (by assumption) ?_)
    | (with_reducible refine Keeps.fst (by assumption) ?_)
    | intro _)

theorem fenceCtx_keeps : ∀ s a1 a2, Keeps [.uni, .uniBad, .host, .cores, .ctxs, .ibex, .mports, .tiers, .oports, .accesses, .nextTag, .paths, .ces, .hps, .tallies, .hub2, .loads] s (fenceCtx s a1 a2) := by
  intro s a1 a2
  unfold fenceCtx
  repeat' (first
    | (with_reducible apply Keeps.ite)
    | with_reducible exact Keeps.refl _ _
    | with_reducible assumption
    | (with_reducible apply Keeps.then (fenceSlot_keeps ..) ?_ (by decide))
    | (with_reducible apply Keeps.then (fenceIbex_keeps ..) ?_ (by decide))
    | (with_reducible apply Keeps.then (fenceColls_keeps ..) ?_ (by decide))
    | (with_reducible apply Keeps.then (fenceServing_keeps ..) ?_ (by decide))
    | (with_reducible apply Keeps.foldl)
    | (with_reducible apply Keeps.foldl_snd)
    | (with_reducible refine Keeps.snd (by assumption) ?_)
    | (with_reducible refine Keeps.fst (by assumption) ?_)
    | intro _)

theorem fenceParty_keeps : ∀ s a1 a2 a3, Keeps [.uni, .uniBad, .host, .cores, .ctxs, .ibex, .mports, .tiers, .oports, .lasers, .accesses, .nextTag, .paths, .ces, .hps, .tallies, .hub2, .loads] s (fenceParty s a1 a2 a3) := by
  intro s a1 a2 a3
  unfold fenceParty
  repeat' (first
    | (with_reducible apply Keeps.ite)
    | with_reducible exact Keeps.refl _ _
    | with_reducible assumption
    | (with_reducible apply Keeps.then (fenceSlot_keeps ..) ?_ (by decide))
    | (with_reducible apply Keeps.then (fenceCtx_keeps ..) ?_ (by decide))
    | (with_reducible apply Keeps.then (fenceUnit_keeps ..) ?_ (by decide))
    | (with_reducible apply Keeps.foldl)
    | (with_reducible apply Keeps.foldl_snd)
    | (with_reducible refine Keeps.snd (by assumption) ?_)
    | (with_reducible refine Keeps.fst (by assumption) ?_)
    | intro _
    | dsimp only
    | split)

theorem raiseHurdle_keeps : ∀ s a1 a2 a3, Keeps [.uni, .uniBad, .host, .cores, .ctxs, .ibex, .mports, .tiers, .oports, .lasers, .accesses, .nextTag, .paths, .ces, .hurdles, .hps, .tallies, .hub2, .loads] s (raiseHurdle s a1 a2 a3) := by
  intro s a1 a2 a3
  unfold raiseHurdle
  repeat' (first
    | (with_reducible apply Keeps.ite)
    | with_reducible exact Keeps.refl _ _
    | with_reducible assumption
    | (with_reducible apply Keeps.then (State.modHurdle_keeps ..) ?_ (by decide))
    | (with_reducible apply Keeps.then (fenceParty_keeps ..) ?_ (by decide))
    | (with_reducible apply Keeps.then (post_keeps ..) ?_ (by decide)))

theorem execRaise_keeps : ∀ a0 a1 a2 a3 s, Gives [.uni, .uniBad, .host, .cores, .ctxs, .ibex, .mports, .tiers, .oports, .lasers, .accesses, .nextTag, .paths, .ces, .hurdles, .hps, .tallies, .hub2, .loads] s (execRaise a0 a1 a2 a3 s) := by
  intro a0 a1 a2 a3 s
  unfold execRaise
  repeat' (first
    | (with_reducible apply Gives.ite)
    | (with_reducible apply Keeps.ite)
    | with_reducible exact Keeps.refl _ _
    | with_reducible assumption
    | (with_reducible apply Keeps.gated ?_ (by decide))
    | (with_reducible apply Keeps.then (State.modHurdle_keeps ..) ?_ (by decide))
    | (with_reducible apply Keeps.withRewatch ?_ (by decide))
    | (with_reducible apply Keeps.then (raiseHurdle_keeps ..) ?_ (by decide))
    | (with_reducible apply Gives.next)
    | (with_reducible apply Keeps.foldl)
    | (with_reducible apply Keeps.foldl_snd)
    | (with_reducible refine Keeps.snd (by assumption) ?_)
    | (with_reducible refine Keeps.fst (by assumption) ?_)
    | intro _)

theorem execLift_keeps : ∀ a0 a1 s, Gives [.uni, .uniBad, .host, .cores, .ctxs, .ibex, .mports, .tiers, .oports, .accesses, .nextTag, .paths, .ces, .hurdles, .hps, .tallies, .hub2] s (execLift a0 a1 s) := by
  intro a0 a1 s
  unfold execLift
  repeat' (first
    | (with_reducible apply Gives.ite)
    | (with_reducible apply Keeps.ite)
    | with_reducible exact Keeps.refl _ _
    | with_reducible assumption
    | (with_reducible apply Keeps.gated ?_ (by decide))
    | (with_reducible apply Keeps.then (State.modHurdle_keeps ..) ?_ (by decide))
    | (with_reducible apply Keeps.withRewatch ?_ (by decide))
    | (with_reducible apply Keeps.then (liftHurdle_keeps ..) ?_ (by decide))
    | (with_reducible apply Gives.next)
    | (with_reducible apply Keeps.foldl)
    | (with_reducible apply Keeps.foldl_snd)
    | (with_reducible refine Keeps.snd (by assumption) ?_)
    | (with_reducible refine Keeps.fst (by assumption) ?_)
    | intro _)

theorem execQuiesced_keeps : ∀ a0 s, Gives [.uni, .uniBad, .host, .cores, .ctxs, .ibex, .mports, .tiers, .oports, .accesses, .nextTag, .paths, .ces, .hurdles, .hps, .tallies, .hub2] s (execQuiesced a0 s) := by
  intro a0 s
  unfold execQuiesced
  repeat' (first
    | (with_reducible apply Gives.ite)
    | (with_reducible apply Keeps.ite)
    | with_reducible exact Keeps.refl _ _
    | with_reducible assumption
    | (with_reducible apply Keeps.then (post_keeps ..) ?_ (by decide))
    | (with_reducible apply Keeps.then (State.modHurdle_keeps ..) ?_ (by decide))
    | (with_reducible apply Keeps.withRewatch ?_ (by decide))
    | (with_reducible apply Keeps.then (liftHurdle_keeps ..) ?_ (by decide))
    | (with_reducible apply Gives.next)
    | (with_reducible apply Keeps.foldl)
    | (with_reducible apply Keeps.foldl_snd)
    | (with_reducible refine Keeps.snd (by assumption) ?_)
    | (with_reducible refine Keeps.fst (by assumption) ?_)
    | intro _)

theorem Keeps.gatedEntry {l : List Field} {s t : State} {who : Party} {c : Nat} {f : State → State} (h : Keeps l s t)
    (hl : ∀ f ∈ [Field.hps], f ∈ l) (hf : ∀ u, Keeps l u (f u)) : Keeps l s (gatedEntry t who c f) := by
  unfold Machine.gatedEntry
  exact Keeps.gated h hl (fun u => Keeps.ite (fun _ => hf u) (fun _ => Keeps.refl _ _))

theorem setResult_keeps : ∀ s a1 a2, Keeps [.ctxs] s (setResult s a1 a2) := by
  intro s a1 a2
  unfold setResult
  repeat' (first
    | (with_reducible apply Keeps.ite)
    | with_reducible exact Keeps.refl _ _
    | with_reducible assumption
    | (with_reducible apply Keeps.then (State.modCtx_keeps ..) ?_ (by decide)))

theorem noteCtx_keeps : ∀ s a1 a2, Keeps [.tallies] s (noteCtx s a1 a2) := by
  intro s a1 a2
  unfold noteCtx
  repeat' (first
    | (with_reducible apply Keeps.ite)
    | with_reducible exact Keeps.refl _ _
    | with_reducible assumption
    | (with_reducible apply Keeps.then (post_keeps ..) ?_ (by decide)))

theorem execCreate_keeps : ∀ a0 a1 s, Gives [.ctxs, .hps, .tallies] s (execCreate a0 a1 s) := by
  intro a0 a1 s
  unfold execCreate
  repeat' (first
    | (with_reducible apply Gives.ite)
    | (with_reducible apply Keeps.ite)
    | with_reducible exact Keeps.refl _ _
    | with_reducible assumption
    | (with_reducible apply Keeps.gatedEntry ?_ (by decide))
    | (with_reducible apply Keeps.then (setResult_keeps ..) ?_ (by decide))
    | (with_reducible apply Keeps.then (noteCtx_keeps ..) ?_ (by decide))
    | (with_reducible apply Keeps.then (State.modCtx_keeps ..) ?_ (by decide))
    | (with_reducible apply Gives.next)
    | (with_reducible apply Keeps.foldl)
    | (with_reducible apply Keeps.foldl_snd)
    | (with_reducible refine Keeps.snd (by assumption) ?_)
    | (with_reducible refine Keeps.fst (by assumption) ?_)
    | intro _)

theorem execDestroy_keeps : ∀ a0 a1 s, Gives [.uni, .uniBad, .host, .cores, .ctxs, .ibex, .mports, .tiers, .oports, .accesses, .nextTag, .paths, .ces, .hps, .tallies, .hub2, .loads] s (execDestroy a0 a1 s) := by
  intro a0 a1 s
  unfold execDestroy
  repeat' (first
    | (with_reducible apply Gives.ite)
    | (with_reducible apply Keeps.ite)
    | with_reducible exact Keeps.refl _ _
    | with_reducible assumption
    | (with_reducible apply Keeps.gatedEntry ?_ (by decide))
    | (with_reducible apply Keeps.then (setResult_keeps ..) ?_ (by decide))
    | (with_reducible apply Keeps.then (fenceCtx_keeps ..) ?_ (by decide))
    | (with_reducible apply Keeps.then (noteCtx_keeps ..) ?_ (by decide))
    | (with_reducible apply Keeps.then (State.modCtx_keeps ..) ?_ (by decide))
    | (with_reducible apply Gives.next)
    | (with_reducible apply Keeps.foldl)
    | (with_reducible apply Keeps.foldl_snd)
    | (with_reducible refine Keeps.snd (by assumption) ?_)
    | (with_reducible refine Keeps.fst (by assumption) ?_)
    | intro _)

@[simp] theorem coreForget_scratch (c : Nat) (x : Core) : (coreForget c x).scratch = x.scratch := by
  unfold coreForget
  rw [Core.foldl_scratch _ _ (fun c i => by dsimp only; split <;> rfl)]

theorem execDestroyComplete_keeps : ∀ a0 s, Gives [.cores, .ctxs, .folds, .tallies, .manifests] s (execDestroyComplete a0 s) := by
  intro a0 s
  unfold execDestroyComplete
  split
  · exact Gives.next (Keeps.refl _ _)
  · refine Gives.next (Keeps.step (Keeps.set_manifests (Keeps.step (Keeps.foldl (Keeps.foldl (Keeps.refl _ _) (fun _ _ h => ?_)) (fun _ _ h => ?_))
      (State.modCtx_keeps ..) (by decide)) (by decide)) (noteCtx_keeps ..) (by decide))
    · refine h.step (State.modCore_keeps _ _ _ (fun c hc => ?_)) (by decide)
      rw [coreForget_scratch]
      exact hc
    · exact h.step (State.modFold_keeps ..) (by decide)

theorem putRequest_keeps : ∀ s a1 a2 a3, Keeps [.ctxs] s (putRequest s a1 a2 a3) := by
  intro s a1 a2 a3
  unfold putRequest
  repeat' (first
    | (with_reducible apply Keeps.ite)
    | with_reducible exact Keeps.refl _ _
    | with_reducible assumption
    | (with_reducible apply Keeps.then (State.modCtx_keeps ..) ?_ (by decide)))

theorem stepToken_keeps : ∀ s a1 a2 a3, Keeps [.uni, .uniBad, .host, .cores, .ctxs, .mports, .tiers, .hps, .tallies] s (stepToken s a1 a2 a3) := by
  intro s a1 a2 a3
  unfold stepToken
  repeat' (first
    | (with_reducible apply Keeps.ite)
    | with_reducible exact Keeps.refl _ _
    | with_reducible assumption
    | (with_reducible apply Keeps.then (endRequest_keeps ..) ?_ (by decide))
    | (with_reducible apply Keeps.then (devWrite_keeps ..) ?_ (by decide))
    | (with_reducible apply Keeps.then (putRequest_keeps ..) ?_ (by decide))
    | (with_reducible apply Keeps.foldl)
    | (with_reducible apply Keeps.foldl_snd)
    | (with_reducible refine Keeps.snd (by assumption) ?_)
    | (with_reducible refine Keeps.fst (by assumption) ?_)
    | intro _
    | dsimp only
    | split)

theorem stepChunk_keeps : ∀ s a1 a2 a3, Keeps [.uni, .uniBad, .host, .cores, .ctxs, .mports, .tiers, .hps, .tallies] s (stepChunk s a1 a2 a3) := by
  intro s a1 a2 a3
  unfold stepChunk
  repeat' (first
    | (with_reducible apply Keeps.ite)
    | with_reducible exact Keeps.refl _ _
    | with_reducible assumption
    | (with_reducible apply Keeps.then (devTouch_keeps ..) ?_ (by decide))
    | (with_reducible apply Keeps.then (endRequest_keeps ..) ?_ (by decide))
    | (with_reducible apply Keeps.then (putRequest_keeps ..) ?_ (by decide))
    | (with_reducible apply Keeps.foldl)
    | (with_reducible apply Keeps.foldl_snd)
    | (with_reducible refine Keeps.snd (by assumption) ?_)
    | (with_reducible refine Keeps.fst (by assumption) ?_)
    | intro _
    | dsimp only
    | split)

theorem execServingStep_keeps : ∀ a0 a1 s, Gives [.uni, .uniBad, .host, .cores, .ctxs, .mports, .tiers, .hps, .tallies] s (execServingStep a0 a1 s) := by
  intro a0 a1 s
  unfold execServingStep
  repeat' (first
    | (with_reducible apply Gives.ite)
    | (with_reducible apply Keeps.ite)
    | with_reducible exact Keeps.refl _ _
    | with_reducible assumption
    | (with_reducible apply Keeps.then (admitAll_keeps ..) ?_ (by decide))
    | (with_reducible apply Keeps.then (stepToken_keeps ..) ?_ (by decide))
    | (with_reducible apply Keeps.then (stepChunk_keeps ..) ?_ (by decide))
    | (with_reducible apply Gives.next)
    | (with_reducible apply Keeps.foldl)
    | (with_reducible apply Keeps.foldl_snd)
    | (with_reducible refine Keeps.snd (by assumption) ?_)
    | (with_reducible refine Keeps.fst (by assumption) ?_)
    | intro _)

theorem execCtxServe_keeps : ∀ a0 a1 a2 s, Gives [.ctxs, .hps] s (execCtxServe a0 a1 a2 s) := by
  intro a0 a1 a2 s
  unfold execCtxServe
  repeat' (first
    | (with_reducible apply Gives.ite)
    | (with_reducible apply Keeps.ite)
    | with_reducible exact Keeps.refl _ _
    | with_reducible assumption
    | (with_reducible apply Keeps.gated ?_ (by decide))
    | (with_reducible apply Keeps.then (State.modCtx_keeps ..) ?_ (by decide))
    | (with_reducible apply Gives.next)
    | (with_reducible apply Keeps.foldl)
    | (with_reducible apply Keeps.foldl_snd)
    | (with_reducible refine Keeps.snd (by assumption) ?_)
    | (with_reducible refine Keeps.fst (by assumption) ?_)
    | intro _)

end Sys2Proof.Machine
end

