-- ==== Sys2Proof/Laws/Effects.lean ====
section
/-! SUPPORT. What the shared operations do to the values that statements speak of: the bytes that a write of device memory leaves, what it
leaves of the cores, where a completion record goes. -/

namespace Sys2Proof.Machine

open Sys2Proof

/-- The entry of a table whose entries a function of the default's kind has changed. -/
theorem tget_map {α : Type} (d : Nat → α) (g : α → α) (hd : ∀ k, g (d k) = d k) (t : Tbl α) (k : Nat) :
    tget d (t.map (fun x => (x.1, g x.2))) k = g (tget d t k) := by
  induction t with
  | nil => exact (hd k).symm
  | cons x r ih =>
    obtain ⟨a, v⟩ := x
    simp only [List.map_cons, tget]
    split <;> simp [ih]

/-! ### One unit where its table is kept -/

theorem Keeps.core {l : List Field} {s t : State} (h : Keeps l s t) (hl : Field.cores ∉ l) (n : Nat) : t.core n = s.core n := by
  unfold State.core
  rw [show t.cores = s.cores from h.only.2 .cores hl]

theorem Keeps.ctx {l : List Field} {s t : State} (h : Keeps l s t) (hl : Field.ctxs ∉ l) (n : Nat) : t.ctx n = s.ctx n := by
  unfold State.ctx
  rw [show t.ctxs = s.ctxs from h.only.2 .ctxs hl]

theorem Keeps.ibx {l : List Field} {s t : State} (h : Keeps l s t) (hl : Field.ibex ∉ l) (n : Nat) : t.ibx n = s.ibx n := by
  unfold State.ibx
  rw [show t.ibex = s.ibex from h.only.2 .ibex hl]

theorem Keeps.mport {l : List Field} {s t : State} (h : Keeps l s t) (hl : Field.mports ∉ l) (n : Nat) : t.mport n = s.mport n := by
  unfold State.mport
  rw [show t.mports = s.mports from h.only.2 .mports hl]

theorem Keeps.oport {l : List Field} {s t : State} (h : Keeps l s t) (hl : Field.oports ∉ l) (n : Nat) : t.oport n = s.oport n := by
  unfold State.oport
  rw [show t.oports = s.oports from h.only.2 .oports hl]

theorem Keeps.laser {l : List Field} {s t : State} (h : Keeps l s t) (hl : Field.lasers ∉ l) (n : Nat) : t.laser n = s.laser n := by
  unfold State.laser
  rw [show t.lasers = s.lasers from h.only.2 .lasers hl]

theorem Keeps.ce {l : List Field} {s t : State} (h : Keeps l s t) (hl : Field.ces ∉ l) (n : Nat) : t.ce n = s.ce n := by
  unfold State.ce
  rw [show t.ces = s.ces from h.only.2 .ces hl]

theorem Keeps.hp {l : List Field} {s t : State} (h : Keeps l s t) (hl : Field.hps ∉ l) (n : Nat) : t.hp n = s.hp n := by
  unfold State.hp
  rw [show t.hps = s.hps from h.only.2 .hps hl]

theorem Keeps.gate {l : List Field} {s t : State} (h : Keeps l s t) (hl : Field.gates ∉ l) (n : Nat) : t.gate n = s.gate n := by
  unfold State.gate
  rw [show t.gates = s.gates from h.only.2 .gates hl]

theorem Keeps.hurdle {l : List Field} {s t : State} (h : Keeps l s t) (hl : Field.hurdles ∉ l) (n : Nat) : t.hurdle n = s.hurdle n := by
  unfold State.hurdle
  rw [show t.hurdles = s.hurdles from h.only.2 .hurdles hl]

theorem Keeps.tally {l : List Field} {s t : State} (h : Keeps l s t) (hl : Field.tallies ∉ l) (n : Nat) : t.tally n = s.tally n := by
  unfold State.tally
  rw [show t.tallies = s.tallies from h.only.2 .tallies hl]

theorem Keeps.fold {l : List Field} {s t : State} (h : Keeps l s t) (hl : Field.folds ∉ l) (n : Nat) : t.fold n = s.fold n := by
  unfold State.fold
  rw [show t.folds = s.folds from h.only.2 .folds hl]

theorem Keeps.fw {l : List Field} {s t : State} (h : Keeps l s t) (hl : Field.sec ∉ l) (n : Nat) : t.fw n = s.fw n := by
  unfold State.fw
  rw [show t.sec = s.sec from h.only.2 .sec hl]

/-! ### Backed tiles -/

/-- Whether a tile is backed depends on the frames and channels out of service alone. -/
theorem tileBacked_congr {s t : State} (h1 : t.tiers.topRetired = s.tiers.topRetired) (h2 : t.tiers.outCh = s.tiers.outCh)
    (h3 : t.tiers.outSlice = s.tiers.outSlice) (x : Nat) : tileBacked t x = tileBacked s x := by
  have n : nChan t = nChan s := by simp only [nChan, h2]
  have b : ∀ k, backedOf t k = backedOf s k := fun k => by simp only [backedOf, slicesIn, framesPer, framesLost, h1, h3, n]
  unfold tileBacked indexOf classOf
  rw [n, b]

theorem hitsUnbacked_congr {s t : State} (h1 : t.tiers.topRetired = s.tiers.topRetired) (h2 : t.tiers.outCh = s.tiers.outCh)
    (h3 : t.tiers.outSlice = s.tiers.outSlice) (a n : Nat) : hitsUnbacked t a n = hitsUnbacked s a n := by
  simp only [hitsUnbacked, h1, h2, h3, tileBacked_congr h1 h2 h3]

/-- No word of the tile maps is uncorrectable and no channel is lost. -/
structure Lossless (s : State) : Prop where
  map : ∀ w, tget d0 s.tiers.mapBad w ≠ 2
  lost : ∀ m, (s.mport m).lost = 0

/-- What an access at a memory port leaves of everything but the ports' other registers, the tiers' own books and the Tally. -/
structure Backing (s t : State) : Prop where
  top : t.tiers.topRetired = s.tiers.topRetired
  ch : t.tiers.outCh = s.tiers.outCh
  slice : t.tiers.outSlice = s.tiers.outSlice
  hints : t.tiers.hints = s.tiers.hints
  map : ∀ w, tget d0 s.tiers.mapBad w ≠ 2 → tget d0 t.tiers.mapBad w ≠ 2
  lost : ∀ m, (t.mport m).lost = (s.mport m).lost

theorem Backing.refl (s : State) : Backing s s := ⟨rfl, rfl, rfl, rfl, fun _ => id, fun _ => rfl⟩

theorem Backing.of {s t : State} (h : t.tiers = s.tiers) (k : t.mports = s.mports) : Backing s t := by
  refine ⟨?_, ?_, ?_, ?_, fun w => ?_, fun m => ?_⟩
  · rw [h]
  · rw [h]
  · rw [h]
  · rw [h]
  · rw [h]; exact id
  · rw [State.mport, k]; rfl

/-- An operation that touches neither the tiers nor the ports. -/
theorem Keeps.backing {l : List Field} {s t : State} (h : Keeps l s t) (ht : Field.tiers ∉ l) (hm : Field.mports ∉ l) : Backing s t :=
  Backing.of (h.only.2 .tiers ht) (h.only.2 .mports hm)

/-- Only the tiers change, and none of what `Backing` names. -/
theorem Backing.tiers {s : State} {x : Tiers} (h1 : x.topRetired = s.tiers.topRetired) (h2 : x.outCh = s.tiers.outCh) (h3 : x.outSlice = s.tiers.outSlice)
    (h4 : x.hints = s.tiers.hints) (h5 : x.mapBad = s.tiers.mapBad) : Backing s { s with tiers := x } :=
  ⟨h1, h2, h3, h4, fun w => by rw [h5]; exact id, fun _ => rfl⟩

theorem Backing.modMport (s : State) (m : Nat) (f : MPort → MPort) (hf : ∀ x, (f x).lost = x.lost) : Backing s (s.modMport m f) :=
  ⟨rfl, rfl, rfl, rfl, fun _ => id, fun k => by
    rw [State.modMport_get_mport]
    split
    · subst k; exact hf _
    · rfl⟩

theorem Backing.trans {s t u : State} (h : Backing s t) (k : Backing t u) : Backing s u :=
  ⟨k.top.trans h.top, k.ch.trans h.ch, k.slice.trans h.slice, k.hints.trans h.hints, fun w hw => k.map w (h.map w hw), fun m => (k.lost m).trans (h.lost m)⟩

theorem Backing.after {s t u : State} (k : Backing t u) (h : Backing s t) : Backing s u := h.trans k

theorem Backing.unbacked {s t : State} (h : Backing s t) (a n : Nat) : hitsUnbacked t a n = hitsUnbacked s a n :=
  hitsUnbacked_congr h.top h.ch h.slice a n

theorem Backing.lossless {s t : State} (h : Backing s t) (l : Lossless s) : Lossless t := ⟨fun w => h.map w (l.map w), fun m => (h.lost m).trans (l.lost m)⟩

theorem Backing.foldl {α : Type} {f : State → α → State} (hf : ∀ s x, Backing s (f s x)) (l : List α) (s : State) : Backing s (l.foldl f s) := by
  induction l generalizing s with
  | nil => exact Backing.refl s
  | cons x l ih => exact (hf s x).trans (ih _)

theorem post_backing (s : State) (u c k p : Nat) : Backing s (post s u c k p) := (post_keeps ..).backing (by decide) (by decide)

theorem noteCorrected_backing (s : State) (c a : Nat) : Backing s (noteCorrected s c a) :=
  Backing.after (post_backing ..) (Backing.modMport _ _ _ (fun _ => rfl))

theorem noteUncorr_backing (s : State) (c a : Nat) : Backing s (noteUncorr s c a) :=
  Backing.after (post_backing ..) (Backing.modMport _ _ _ (fun _ => rfl))

theorem noteWaiting_backing (s : State) (k : Nat) : Backing s (noteWaiting s k) := by
  unfold noteWaiting
  split
  · exact Backing.refl s
  · refine Backing.foldl (fun u x => ?_) _ s
    split
    · exact Backing.after (post_backing ..) (Backing.tiers rfl rfl rfl rfl rfl)
    · exact Backing.refl u

theorem startRetire_backing (s : State) (k : Nat) (f : TFrame) : Backing s (startRetire s k f) := by
  unfold startRetire
  split
  · exact Backing.refl s
  · exact Backing.after (noteWaiting_backing ..) (Backing.tiers rfl rfl rfl rfl rfl)

theorem countWriteBack_backing (s : State) (a : Nat) : Backing s (countWriteBack s a) := by
  unfold countWriteBack
  split
  · exact Backing.modMport _ _ _ (fun _ => rfl)
  · exact Backing.refl _

theorem readErrors_backing (s : State) (b : By) (l : List (Nat × BitVec 2)) : Backing s (readErrors s b l) := by
  unfold readErrors
  refine Backing.foldl (fun u x => ?_) _ s
  dsimp only
  split
  · exact Backing.after (countWriteBack_backing ..) (Backing.after (noteCorrected_backing ..) (Backing.of rfl rfl))
  · split
    · exact (noteUncorr_backing ..).trans (startRetire_backing ..)
    · exact noteUncorr_backing ..

theorem trimFilter_backing (s : State) (m : Nat) : Backing s (trimFilter s m) := by
  unfold trimFilter
  split
  · exact Backing.refl _
  · exact Backing.modMport _ _ _ (fun _ => rfl)

theorem countMoveBytes_backing (s : State) (m : Nat) (o n : TFrame) : Backing s (countMoveBytes s m o n) := Backing.modMport _ _ _ (fun _ => rfl)

theorem setFrame_backing (s : State) (t : Nat) (f : TFrame) : Backing s (setFrame s t f) := Backing.tiers rfl rfl rfl rfl rfl

theorem finishMove_backing (s : State) (mv : Move) : Backing s (finishMove s mv) := by
  have h : Backing s { s with tiers := { s.tiers with moves := s.tiers.moves.erase mv } } := Backing.tiers rfl rfl rfl rfl rfl
  have h := h.trans (Backing.foldl (f := fun s p => moveErrors s p.1) (fun u x => readErrors_backing ..) mv.places _)
  have h := h.trans (Backing.foldl (f := fun s p => countMoveBytes s (mv.channel / 16) (frameOf s p.1) p.2) (fun u x => countMoveBytes_backing ..) mv.places _)
  have h := h.trans (Backing.foldl (f := fun s p => setFrame s p.1 p.2) (fun u x => setFrame_backing ..) mv.places _)
  exact Backing.after (trimFilter_backing ..) (Backing.after (Backing.modMport _ _ _ (fun _ => rfl)) h)

theorem waitMove_backing (s : State) (t : Nat) : Backing s (waitMove s t) := by
  unfold waitMove
  split
  · exact finishMove_backing ..
  · exact Backing.refl s

theorem readMap_backing (s : State) (c t : Nat) : Backing s (readMap s c t) := by
  unfold readMap
  dsimp only
  split
  · exact Backing.refl s
  split
  · refine Backing.trans (t := { s with tiers := { s.tiers with mapBad := tset d0 s.tiers.mapBad (mapWordOf s t) 0 } }) ?_ (noteCorrected_backing ..)
    refine ⟨rfl, rfl, rfl, rfl, fun w hw => ?_, fun _ => rfl⟩
    by_cases e : w = mapWordOf s t
    · subst e
      rw [tget_tset_self]
      decide
    · rw [tget_tset_ne _ _ _ _ _ e]
      exact hw
  split
  · exact Backing.after (post_backing ..) (Backing.after (Backing.modMport _ _ _ (fun _ => rfl)) (Backing.tiers rfl rfl rfl rfl rfl))
  · exact Backing.refl s

theorem noteWritten_backing (s : State) (t : Nat) : Backing s (noteWritten s t) := by
  unfold noteWritten
  split
  · exact Backing.after (noteWaiting_backing ..) (Backing.tiers rfl rfl rfl rfl rfl)
  · exact Backing.refl s

theorem touchTile_backing (b : By) (w : Bool) (a n : Nat) (s : State) (x : Nat) : Backing s (touchTile b w a n s x) := by
  have h : Backing s (if w then noteWritten (readMap (waitMove s x) b.ctx x) x else readMap (waitMove s x) b.ctx x) := by
    have h := (waitMove_backing s x).trans (readMap_backing _ b.ctx x)
    split
    · exact h.trans (noteWritten_backing ..)
    · exact h
  unfold touchTile
  dsimp only
  split
  · exact Backing.after (post_backing ..) (Backing.modMport _ _ _ (fun _ => rfl))
  refine h.trans ?_
  generalize (if w then noteWritten (readMap (waitMove s x) b.ctx x) x else readMap (waitMove s x) b.ctx x) = u
  repeat' split
  all_goals first
    | exact Backing.refl u
    | exact Backing.tiers rfl rfl rfl rfl rfl
    | exact Backing.modMport _ _ _ (fun _ => rfl)
    | exact Backing.after (Backing.modMport _ _ _ (fun _ => rfl)) (Backing.modMport _ _ _ (fun _ => rfl))

theorem writeErrors_backing (s : State) (b : By) (a n : Nat) : Backing s (writeErrors s b a n) := by
  unfold writeErrors
  refine Backing.foldl (fun u x => ?_) _ s
  split
  · split
    · exact Backing.after (noteCorrected_backing ..) (Backing.of rfl rfl)
    · split
      · exact (noteUncorr_backing ..).trans (startRetire_backing ..)
      · exact noteUncorr_backing ..
  · exact Backing.of rfl rfl

/-- Every tile of a region that hits no unbacked tile is backed. -/
theorem backed_of {s : State} {a n t : Nat} (h : hitsUnbacked s a n = false) (h0 : a / 4096 ≤ t) (h1 : t * 4096 < a + n) : tileBacked s t = true := by
  unfold hitsUnbacked at h
  split at h
  · next hr =>
    simp only [Bool.and_eq_true, decide_eq_true_eq] at hr
    obtain ⟨⟨r1, r2⟩, r3⟩ := hr
    have hn : nChan s = 256 := by simp [nChan, r2]
    have ht : a + n ≤ Config.uniTop := by simpa using h
    unfold tileBacked
    have b : backedOf s (classOf s t) = lpFrames + 8 * 2048 := by
      have hs : slicesIn s = List.range 8 := by simp [slicesIn, r3]
      have hf : framesPer s = 2048 := by simp only [framesPer, hn]
      have hl : framesLost s (classOf s t) = 0 := by simp only [framesLost, r1]; rfl
      rw [backedOf, hs, hf, hl, List.length_range, Nat.sub_zero]
    rw [b]
    simp only [indexOf, hn, Bool.and_eq_true, decide_eq_true_eq]
    have : t * 4096 < Config.uniTop := by omega
    refine ⟨this, ?_⟩
    unfold Config.uniTop at this
    simp only [lpFrames]
    omega
  · rw [List.any_eq_false] at h
    have := h (t - a / 4096) (by rw [List.mem_range]; omega)
    simpa [show a / 4096 + (t - a / 4096) = t by omega] using this

theorem tileLost_lossless {s : State} (l : Lossless s) (t : Nat) : tileLost s t = false := by
  have h : ∀ w, (tget d0 s.tiers.mapBad w == 2) = false := fun w => by simpa using l.map w
  have z : ∀ i, (0 : BitVec 16).getLsbD i = false := fun i => by simp
  simp only [tileLost, chanLost, h, l.lost, z, Bool.and_false, Bool.false_or, Bool.false_and]

theorem lossless_of {s : State} (h : anyLost s = false) : Lossless s := by
  simp only [anyLost, Bool.or_eq_false_iff, bne_eq_false_iff_eq, List.any_eq_false] at h
  refine ⟨fun w => by simp [h.1, tget, d0], fun m => ?_⟩
  have key : ∀ l : Tbl MPort, (∀ x ∈ l, ¬x.2.lost ≠ 0) → (tget mportDef l m).lost = 0 := by
    intro l
    induction l with
    | nil => intro _; rfl
    | cons x r ih =>
      obtain ⟨k, v⟩ := x
      intro hl
      simp only [tget]
      split
      · simpa using hl _ List.mem_cons_self
      · exact ih (fun y hy => hl y (List.mem_cons_of_mem _ hy))
  exact key _ (fun x hx => by simpa using h.2 x hx)

/-- The bytes of a write whose every tile takes it. -/
theorem mwrite_zipIdx (p : Nat → Bool) (bs : List Byte) (m : Mem) (a k : Nat) (h : ∀ i, i < bs.length → p (a + k + i) = true) :
    (bs.zipIdx k).foldl (fun m x => if p (a + x.2) then mset m (a + x.2) x.1 else m) m = mwrite m (a + k) bs := by
  induction bs generalizing m k with
  | nil => rfl
  | cons b bs ih =>
    simp only [List.zipIdx_cons, List.foldl_cons, mwrite]
    have h0 := h 0 (by simp)
    rw [Nat.add_zero] at h0
    rw [if_pos h0, ih _ (k + 1) (fun i hi => by
      have := h (i + 1) (by simpa using hi)
      rwa [show a + (k + 1) + i = a + k + (i + 1) by omega])]
    rfl

/-! ### Writes of device memory -/

theorem evalWaits_uni (s : State) (a n : Nat) : (evalWaits s a n).uni = s.uni := by
  unfold evalWaits
  split <;> rfl

/-- One WAIT after an evaluation: what it waits for is what it was. -/
def SameWait (w v : Waiting) : Prop := v.rec' = w.rec' ∧ v.slot = w.slot ∧ v.eng = w.eng ∧ v.start = w.start ∧ v.how = w.how

/-- What a write of memory or a completion leaves of a core: its commands, its scratchpad, its service state and its buffers; its WAITs but
for their evaluations. -/
structure CoreStays (c d : Core) : Prop where
  queues : d.queues = c.queues
  running : d.running = c.running
  scratch : d.scratch = c.scratch
  bad : d.bad = c.bad
  serv : d.serv = c.serv
  req : d.req = c.req
  buf0 : d.buf0 = c.buf0
  buf1 : d.buf1 = c.buf1
  epi : d.epiFreeT = c.epiFreeT
  passed : d.passed = c.passed
  wback : d.wback = c.wback
  waits : ∃ g : Waiting → Waiting, (∀ w, SameWait w (g w)) ∧ d.waits = c.waits.map g

theorem SameWait.refl (w : Waiting) : SameWait w w := ⟨rfl, rfl, rfl, rfl, rfl⟩

theorem SameWait.trans {u v w : Waiting} (h : SameWait u v) (k : SameWait v w) : SameWait u w :=
  ⟨k.1.trans h.1, k.2.1.trans h.2.1, k.2.2.1.trans h.2.2.1, k.2.2.2.1.trans h.2.2.2.1, k.2.2.2.2.trans h.2.2.2.2⟩

theorem CoreStays.refl (c : Core) : CoreStays c c :=
  ⟨rfl, rfl, rfl, rfl, rfl, rfl, rfl, rfl, rfl, rfl, rfl, id, fun w => SameWait.refl w, (List.map_id _).symm⟩

theorem CoreStays.trans {c d e : Core} (h : CoreStays c d) (k : CoreStays d e) : CoreStays c e := by
  obtain ⟨g, hg, hw⟩ := h.waits
  obtain ⟨f, hf, kw⟩ := k.waits
  exact ⟨k.queues.trans h.queues, k.running.trans h.running, k.scratch.trans h.scratch, k.bad.trans h.bad, k.serv.trans h.serv, k.req.trans h.req,
    k.buf0.trans h.buf0, k.buf1.trans h.buf1, k.epi.trans h.epi, k.passed.trans h.passed, k.wback.trans h.wback,
    f ∘ g, fun w => (hg w).trans (hf (g w)), by rw [kw, hw, List.map_map]⟩

/-- A core that differs in no field that `CoreStays` names. -/
theorem CoreStays.of {c d : Core} (h : d.queues = c.queues ∧ d.running = c.running ∧ d.scratch = c.scratch ∧ d.bad = c.bad ∧ d.serv = c.serv ∧
    d.req = c.req ∧ d.buf0 = c.buf0 ∧ d.buf1 = c.buf1 ∧ d.epiFreeT = c.epiFreeT ∧ d.passed = c.passed ∧ d.wback = c.wback ∧ d.waits = c.waits) :
    CoreStays c d := by
  obtain ⟨h1, h2, h3, h4, h5, h6, h7, h8, h9, h10, h11, h12⟩ := h
  exact ⟨h1, h2, h3, h4, h5, h6, h7, h8, h9, h10, h11, id, fun w => SameWait.refl w, by rw [h12, List.map_id]⟩

theorem CoreStays.queue {c d : Core} (h : CoreStays c d) (e i : Nat) : d.queue e i = c.queue e i := by
  unfold Core.queue
  rw [h.queues]

/-- Every core stays, in that sense, from one state to another. -/
structure CoresStay (s t : State) : Prop where
  core : ∀ k, CoreStays (s.core k) (t.core k)

theorem CoresStay.refl (s : State) : CoresStay s s := ⟨fun _ => CoreStays.refl _⟩

theorem CoresStay.trans {s t u : State} (h : CoresStay s t) (k : CoresStay t u) : CoresStay s u := ⟨fun n => (h.core n).trans (k.core n)⟩

theorem CoresStay.of {s t : State} (h : t.cores = s.cores) : CoresStay s t := ⟨fun k => by
  unfold State.core
  rw [h]
  exact CoreStays.refl _⟩

/-- Where an operation keeps the cores altogether. -/
theorem Keeps.coresStay {l : List Field} {s t : State} (h : Keeps l s t) (hl : Field.cores ∉ l) : CoresStay s t := CoresStay.of (h.only.2 .cores hl)

theorem CoresStay.modCore {s : State} {n : Nat} {f : Core → Core} (h : CoreStays (s.core n) (f (s.core n))) : CoresStay s (s.modCore n f) := ⟨fun k => by
  rw [State.modCore_get_core]
  split
  · subst k
    exact h
  · exact CoreStays.refl _⟩

/-- A write of the unified range evaluates WAITs and changes nothing else of a core. -/
theorem evalWaits_cores (s : State) (a n : Nat) : CoresStay s (evalWaits s a n) := by
  unfold evalWaits
  split
  · exact CoresStay.refl s
  · refine ⟨fun k => ?_⟩
    have key : ∀ t : Tbl Core, CoreStays (tget coreDef t k) (tget coreDef (t.map (fun c => (c.1, { c.2 with waits := c.2.waits.map (fun w =>
      if w.how = .monitored && !w.met && w.fault == 0 && meets a n (fld w.rec'.bytes 16 6) 8 then
        (if (uniFault s (fld w.rec'.bytes 16 6) 8).isSome then { w with fault := stEcc }
         else { w with last := uniWord s (fld w.rec'.bytes 16 6), met := waitHolds (bitsOf (fld w.rec'.bytes 8 1) 0 3) (uniWord s (fld w.rec'.bytes 16 6)) (BitVec.ofNat 64 (fld w.rec'.bytes 24 8)) })
      else w) }))) k) := by
      intro t
      induction t with
      | nil => exact CoreStays.refl _
      | cons x r ih =>
        obtain ⟨c, v⟩ := x
        simp only [List.map_cons, tget]
        split
        · refine ⟨rfl, rfl, rfl, rfl, rfl, rfl, rfl, rfl, rfl, rfl, rfl, _, fun w => ?_, rfl⟩
          split
          · split <;> exact ⟨rfl, rfl, rfl, rfl, rfl⟩
          · exact SameWait.refl w
        · exact ih
    exact key s.cores

theorem RingsSeen.refl (x : Ctx) : RingsSeen x x := ⟨rfl, fun _ => rfl⟩

theorem RingsSeen.trans {x y z : Ctx} (h : RingsSeen x y) (g : RingsSeen y z) : RingsSeen x z :=
  ⟨by rw [g.rest, h.rest], fun j => by rw [g.ring j, h.ring j]⟩

theorem CtxsSeen.refl (s : State) : CtxsSeen s s := ⟨fun _ => RingsSeen.refl _⟩

theorem CtxsSeen.trans {s t u : State} (h : CtxsSeen s t) (g : CtxsSeen t u) : CtxsSeen s u := ⟨fun c => (h.ctx c).trans (g.ctx c)⟩

theorem CtxsSeen.after {s t u : State} (g : CtxsSeen t u) (h : CtxsSeen s t) : CtxsSeen s u := h.trans g

theorem CtxsSeen.of {s t : State} (h : t.ctxs = s.ctxs) : CtxsSeen s t := ⟨fun c => by
  unfold State.ctx
  rw [h]
  exact RingsSeen.refl _⟩

theorem Keeps.ctxsSeen {l : List Field} {s t : State} (h : Keeps l s t) (hl : Field.ctxs ∉ l) : CtxsSeen s t := CtxsSeen.of (h.only.2 .ctxs hl)

theorem CtxsSeen.modCtx (s : State) (c : Nat) (f : Ctx → Ctx) (h : ∀ x, RingsSeen x (f x)) : CtxsSeen s (s.modCtx c f) := ⟨fun d => by
  by_cases e : d = c
  · subst e; rw [State.modCtx_get_ctx_self]; exact h _
  · rw [State.modCtx_get_ctx_ne _ _ _ _ e]; exact RingsSeen.refl _⟩

theorem CtxsSeen.foldl {α : Type} {f : State → α → State} (hf : ∀ s x, CtxsSeen s (f s x)) (l : List α) (s : State) : CtxsSeen s (l.foldl f s) := by
  induction l generalizing s with
  | nil => exact CtxsSeen.refl s
  | cons x l ih => exact (hf s x).trans (ih _)

theorem RingsSeen.modRing (x : Ctx) (k : Nat) (f : Ring → Ring) (hf : ∀ r, f r = { r with other := (f r).other, deferred := (f r).deferred }) :
    RingsSeen x (x.modRing k f) := by
  refine ⟨rfl, fun j => ?_⟩
  by_cases e : j = k
  · subst e; rw [Ctx.modRing_ring_self]; exact hf _
  · rw [Ctx.modRing_ring_ne _ _ _ _ e]

theorem takeIndex_ctxs (s : State) (c k : Nat) (w : BitVec 64) : CtxsSeen s (takeIndex s c k w) := by
  unfold takeIndex
  dsimp only
  generalize (if k = 5 then idxDist _ _ else idxDist _ _) = d
  split
  · unfold ringError
    refine CtxsSeen.after ((post_keeps ..).ctxsSeen (by decide)) ?_
    exact CtxsSeen.modCtx _ _ _ (fun _ => ⟨rfl, fun _ => rfl⟩)
  · exact CtxsSeen.modCtx _ _ _ (fun _ => RingsSeen.modRing _ _ _ (fun _ => rfl))

theorem observeValue_ctxs (s : State) (c k : Nat) (w : BitVec 64) : CtxsSeen s (observeValue s c k w) := by
  unfold observeValue
  dsimp only
  split
  · exact CtxsSeen.refl s
  split
  · exact takeIndex_ctxs ..
  have h : CtxsSeen s (s.modCtx c (fun x => if x.takenUs = usOf s || anyDeferred x then x else { x with takenUs := usOf s, taken := 0 })) := by
    refine CtxsSeen.modCtx _ _ _ (fun x => ?_)
    split
    · exact RingsSeen.refl _
    · exact ⟨rfl, fun _ => rfl⟩
  split
  · refine CtxsSeen.after (takeIndex_ctxs ..) (h.trans ?_)
    exact CtxsSeen.modCtx _ _ _ (fun _ => ⟨rfl, fun _ => rfl⟩)
  · refine h.trans ?_
    exact CtxsSeen.modCtx _ _ _ (fun _ => RingsSeen.modRing _ _ _ (fun _ => rfl))

theorem evalRings_ctxs (s : State) (a n : Nat) : CtxsSeen s (evalRings s a n) := by
  unfold evalRings
  refine CtxsSeen.foldl (fun u x => ?_) _ s
  dsimp only
  split
  · exact CtxsSeen.refl u
  · exact observeValue_ctxs ..

/-- The state that the touches and the errors of a write leave, before its bytes. -/
def beforeWrite (s : State) (b : By) (a n : Nat) : State := writeErrors ((tilesOf a n).foldl (touchTile b true a n) s) b a n

theorem beforeWrite_keeps (s : State) (b : By) (a n : Nat) : Keeps [.uniBad, .mports, .tiers, .tallies] s (beforeWrite s b a n) :=
  Keeps.step (Keeps.foldl (Keeps.refl _ s) (fun _ _ k => k.step (touchTile_keeps ..) (by decide))) (writeErrors_keeps ..) (by decide)

theorem beforeWrite_backing (s : State) (b : By) (a n : Nat) : Backing s (beforeWrite s b a n) :=
  (Backing.foldl (fun _ _ => touchTile_backing ..) _ s).trans (writeErrors_backing ..)

/-- The bytes that a write leaves where every tile takes it. -/
theorem written_uni {s : State} (a : Nat) (bs : List Byte) (h : hitsUnbacked s a bs.length = false) (l : Lossless s) :
    (if hitsUnbacked s a bs.length || anyLost s then bs.zipIdx.foldl (fun m x => if tileTakes s ((a + x.2) / 4096) then mset m (a + x.2) x.1 else m) s.uni
      else mwrite s.uni a bs) = mwrite s.uni a bs := by
  split
  · refine mwrite_zipIdx (fun x => tileTakes s (x / 4096)) bs s.uni a 0 (fun i hi => ?_)
    simp only [tileTakes, tileLost_lossless l, Bool.not_false, Bool.and_true]
    exact backed_of h (Nat.div_le_div_right (by omega)) (by omega)
  · rfl

/-- A write of backed memory that no loss stands against leaves its bytes at its address and no others. -/
theorem uniWrite_uni (s : State) (b : By) (a : Nat) (bs : List Byte) (h : hitsUnbacked s a bs.length = false) (l : Lossless s) :
    (uniWrite s b a bs).uni = mwrite s.uni a bs := by
  have k := beforeWrite_backing s b a bs.length
  have hu : (beforeWrite s b a bs.length).uni = s.uni := (beforeWrite_keeps ..).only.2 .uni (by decide)
  have w := written_uni (s := beforeWrite s b a bs.length) a bs (by rw [k.unbacked]; exact h) (k.lossless l)
  unfold uniWrite
  dsimp only
  rw [(evalRings_keeps ..).only.2 .uni (by decide), evalWaits_uni]
  exact w.trans (by rw [hu])

theorem uniWrite_cores (s : State) (b : By) (a : Nat) (bs : List Byte) : CoresStay s (uniWrite s b a bs) := by
  have h : CoresStay s (beforeWrite s b a bs.length) := (beforeWrite_keeps ..).coresStay (by decide)
  unfold uniWrite
  dsimp only
  refine CoresStay.trans (CoresStay.trans (h.trans (CoresStay.of ?_)) (evalWaits_cores ..)) ((evalRings_keeps ..).coresStay (by decide))
  rfl

theorem uniWrite_ctxs (s : State) (b : By) (a : Nat) (bs : List Byte) : CtxsSeen s (uniWrite s b a bs) := by
  have h : CtxsSeen s (beforeWrite s b a bs.length) := (beforeWrite_keeps ..).ctxsSeen (by decide)
  unfold uniWrite
  dsimp only
  exact CtxsSeen.after (evalRings_ctxs ..) (CtxsSeen.after ((evalWaits_keeps ..).ctxsSeen (by decide)) (CtxsSeen.trans h (CtxsSeen.of rfl)))

/-- What a write of device memory leaves: the unified range. -/
theorem devWrite_uni (s : State) (b : By) (a : Nat) (bs : List Byte) (ha : spaceOf a = .uni) (h : hitsUnbacked s a bs.length = false)
    (l : Lossless s) :
    (devWrite s b a bs).uni = mwrite s.uni a bs := by
  unfold devWrite
  rw [ha]
  exact uniWrite_uni s b a bs h l

/-- What a write of device memory leaves: reachable host memory. -/
theorem devWrite_host (s : State) (b : By) (a : Nat) (bs : List Byte) (ha : spaceOf a = .host)
    (h : hostReach s s.weave.cur.sects a bs.length = true) :
    (devWrite s b a bs).host = mwrite s.host a bs ∧ Only [.host, .hps] s (devWrite s b a bs) := by
  unfold devWrite
  rw [ha]
  simp only [h, if_true]
  have k := countDma_keeps { s with host := mwrite s.host a bs } true a bs.length
  refine ⟨k.only.2 .host (by decide), ?_⟩
  exact Only.trans (t := { s with host := mwrite s.host a bs }) ⟨rfl, fun f hf => by cases f <;> first | rfl | exact absurd (by decide) hf⟩ (k.only.mono (by decide))

theorem devWrite_cores (s : State) (b : By) (a : Nat) (bs : List Byte) : CoresStay s (devWrite s b a bs) := by
  unfold devWrite
  split
  · split
    · exact CoresStay.trans (t := { s with host := mwrite s.host a bs }) (CoresStay.of rfl) ((countDma_keeps ..).coresStay (by decide))
    · exact CoresStay.refl s
  · exact uniWrite_cores ..

theorem uniWrite_backing (s : State) (b : By) (a : Nat) (bs : List Byte) : Backing s (uniWrite s b a bs) := by
  have h := beforeWrite_backing s b a bs.length
  unfold uniWrite
  dsimp only
  refine Backing.after ((evalRings_keeps ..).backing (by decide) (by decide)) (Backing.after ((evalWaits_keeps ..).backing (by decide) (by decide)) ?_)
  exact h.trans (Backing.of rfl rfl)

theorem devWrite_backing (s : State) (b : By) (a : Nat) (bs : List Byte) : Backing s (devWrite s b a bs) := by
  unfold devWrite
  split
  · split
    · exact Backing.after ((countDma_keeps ..).backing (by decide) (by decide)) (Backing.of rfl rfl)
    · exact Backing.refl s
  · exact uniWrite_backing ..

/-! ### Completions -/

theorem compWrite_cores (s : State) (c : Nat) (b : List Byte) : CoresStay s (compWrite s c b) := by
  unfold compWrite
  exact ((devWrite_cores ..).trans (devWrite_cores ..)).trans ((State.modCtx_keeps ..).coresStay (by decide))

theorem report_cores (s : State) (c : Nat) (b : List Byte) : CoresStay s (report s c b) := by
  unfold report
  split
  · exact compWrite_cores ..
  · dsimp only
    refine CoresStay.trans ?_ ((State.modCtx_keeps ..).coresStay (by decide))
    split
    · exact (State.modCtx_keeps ..).coresStay (by decide)
    · exact CoresStay.refl s

theorem reportRec_cores (s : State) (r : Rec) (st : Status) (a b c d e : Nat) : CoresStay s (reportRec s r st a b c d e) := by
  unfold reportRec
  split
  · exact CoresStay.refl s
  · exact report_cores ..

theorem coreReport_cores (s : State) (n c : Nat) (b : List Byte) : CoresStay s (coreReport s n c b) := by
  unfold coreReport
  split
  · exact CoresStay.modCore (CoreStays.of ⟨rfl, rfl, rfl, rfl, rfl, rfl, rfl, rfl, rfl, rfl, rfl, rfl⟩)
  · split
    · exact compWrite_cores ..
    · dsimp only
      refine CoresStay.trans ?_ (CoresStay.modCore (CoreStays.of ⟨rfl, rfl, rfl, rfl, rfl, rfl, rfl, rfl, rfl, rfl, rfl, rfl⟩))
      split
      · exact (State.modCtx_keeps ..).coresStay (by decide)
      · exact CoresStay.refl s

theorem coreCount_cores (s : State) (n o k : Nat) : CoresStay s (coreCount s n o k) := by
  unfold coreCount
  split
  · exact CoresStay.refl s
  · exact CoresStay.modCore (CoreStays.of ⟨rfl, rfl, rfl, rfl, rfl, rfl, rfl, rfl, rfl, rfl, rfl, rfl⟩)

theorem reportInOrder_cores (s : State) (n : Nat) (r : Rec) (b : List Byte) : CoresStay s (reportInOrder s n r b) := by
  unfold reportInOrder
  split
  · exact CoresStay.modCore (CoreStays.of ⟨rfl, rfl, rfl, rfl, rfl, rfl, rfl, rfl, rfl, rfl, rfl, rfl⟩)
  · exact coreReport_cores ..

theorem flushEnded_cores (k : Nat) (s : State) (n : Nat) : CoresStay s (flushEnded k s n) := by
  induction k generalizing s with
  | zero => exact CoresStay.refl s
  | succ k ih =>
    unfold flushEnded
    split
    · exact CoresStay.refl s
    · refine CoresStay.trans (CoresStay.trans ?_ (coreReport_cores ..)) (ih _)
      exact CoresStay.modCore (CoreStays.of ⟨rfl, rfl, rfl, rfl, rfl, rfl, rfl, rfl, rfl, rfl, rfl, rfl⟩)

theorem endCmd_cores (s : State) (n : Nat) (r : Rec) (st : Status) (a b c : Nat) : CoresStay s (endCmd s n r st a b c) := by
  have h : CoresStay s (if refusedClass st then post (coreCount s n 0x048 1) n r.ctx 0x050 (st.toNat + 2 ^ 8 * r.op + 2 ^ 16 * r.tag) else coreCount s n 0x040 1) := by
    split
    · exact (coreCount_cores ..).trans ((post_keeps ..).coresStay (by decide))
    · exact coreCount_cores ..
  unfold endCmd
  dsimp only
  split
  · exact h
  · exact h.trans (reportInOrder_cores ..)

theorem drainDone_cores (s : State) (n : Nat) : CoresStay s (drainDone s n) := by
  unfold drainDone
  refine CoresStay.modCore ?_
  have key : ∀ (f : Core → Nat → Core) (l : List Nat) (c : Core), (∀ c i, CoreStays c (f c i)) → CoreStays c (l.foldl f c) := by
    intro f l
    induction l with
    | nil => intro c _; exact CoreStays.refl c
    | cons x l ih => intro c hf; exact (hf c x).trans (ih _ hf)
  refine key _ _ _ (fun c i => ?_)
  dsimp only
  split
  · exact CoreStays.of ⟨rfl, rfl, rfl, rfl, rfl, rfl, rfl, rfl, rfl, rfl, rfl, rfl⟩
  · exact CoreStays.refl c

/-- A head command ended without engine time leaves its queue; nothing else of any core's work changes. -/
theorem endHead_cores (s : State) (n e i : Nat) (r : Rec) (st : Status) (d : Nat) : CoresStay (popHead s n e i) (endHead s n e i r st d) :=
  (endCmd_cores ..).trans (drainDone_cores ..)

@[simp] theorem Core.setQueue_queue_self (c : Core) (e i : Nat) (q : List Rec) : (c.setQueue e i q).queue e i = q := tget_tset_self _ _ _ _

theorem Core.setQueue_queue_ne (c : Core) (e i x j : Nat) (q : List Rec) (h : x * 32 + j ≠ e * 32 + i) : (c.setQueue e i q).queue x j = c.queue x j :=
  tget_tset_ne _ _ _ _ _ h

theorem endHead_queue (s : State) (n e i : Nat) (r : Rec) (st : Status) (d : Nat) :
    ((endHead s n e i r st d).core n).queue e i = ((s.core n).queue e i).drop 1 := by
  rw [((endHead_cores s n e i r st d).core n).queue]
  simp [popHead, Core.setQueue, Core.queue]

theorem endHead_running (s : State) (n e i : Nat) (r : Rec) (st : Status) (d k : Nat) : ((endHead s n e i r st d).core k).running = (s.core k).running := by
  rw [((endHead_cores s n e i r st d).core k).running]
  simp only [popHead, State.modCore_get_core]
  split
  · subst k
    rfl
  · rfl

theorem endHead_waits (s : State) (n e i : Nat) (r : Rec) (st : Status) (d k : Nat) :
    ∃ g : Waiting → Waiting, (∀ w, SameWait w (g w)) ∧ ((endHead s n e i r st d).core k).waits = (s.core k).waits.map g := by
  obtain ⟨g, hg, h⟩ := ((endHead_cores s n e i r st d).core k).waits
  refine ⟨g, hg, h.trans ?_⟩
  simp only [popHead, State.modCore_get_core]
  split
  · subst k
    rfl
  · rfl

/-! ### What a completion leaves of a context -/

/-- From `s` to `t`, context `c` has at most reported: its completion ring and the records held for it; of every other context, and of the other
rings of `c`, at most what its rings have seen has changed. -/
structure Reported (c : Nat) (s t : State) : Prop where
  rest : t.ctx c = { s.ctx c with rings := (t.ctx c).rings, comps := (t.ctx c).comps, ringErr := (t.ctx c).ringErr, takenUs := (t.ctx c).takenUs,
                                  taken := (t.ctx c).taken }
  ring : ∀ j, j ≠ 5 → (t.ctx c).ring j = { (s.ctx c).ring j with other := ((t.ctx c).ring j).other, deferred := ((t.ctx c).ring j).deferred }
  ctx : ∀ d, d ≠ c → RingsSeen (s.ctx d) (t.ctx d)

theorem CtxsSeen.reported {s t : State} (c : Nat) (h : CtxsSeen s t) : Reported c s t :=
  ⟨by rw [(h.ctx c).rest], fun j _ => (h.ctx c).ring j, fun d _ => h.ctx d⟩

theorem Reported.refl (c : Nat) (s : State) : Reported c s s := (CtxsSeen.refl s).reported c

theorem Reported.trans {c : Nat} {s t u : State} (h : Reported c s t) (g : Reported c t u) : Reported c s u :=
  ⟨by rw [g.rest, h.rest], fun j hj => by rw [g.ring j hj, h.ring j hj], fun d hd => (h.ctx d hd).trans (g.ctx d hd)⟩

theorem Reported.after {c : Nat} {s t u : State} (g : Reported c t u) (h : Reported c s t) : Reported c s u := h.trans g

theorem Reported.of (c : Nat) {s t : State} (h : t.ctxs = s.ctxs) : Reported c s t := (CtxsSeen.of h).reported c

theorem Keeps.reported {l : List Field} {s t : State} (c : Nat) (h : Keeps l s t) (hl : Field.ctxs ∉ l) : Reported c s t :=
  Reported.of c (h.only.2 .ctxs hl)

theorem Reported.modCtx {c : Nat} {s : State} {f : Ctx → Ctx} (h : f (s.ctx c) = { s.ctx c with rings := (f (s.ctx c)).rings, comps := (f (s.ctx c)).comps })
    (hr : ∀ j, j ≠ 5 → (f (s.ctx c)).ring j = (s.ctx c).ring j) : Reported c s (s.modCtx c f) :=
  ⟨by rw [State.modCtx_get_ctx_self]; rw [h], fun j hj => by rw [State.modCtx_get_ctx_self]; rw [hr j hj],
    fun d hd => by rw [State.modCtx_get_ctx_ne _ _ _ _ hd]; exact RingsSeen.refl _⟩

theorem Reported.modCore (c : Nat) (s : State) (n : Nat) (f : Core → Core) : Reported c s (s.modCore n f) := Reported.of c rfl

theorem devWrite_ctxs (s : State) (b : By) (a : Nat) (bs : List Byte) : CtxsSeen s (devWrite s b a bs) := by
  unfold devWrite
  split
  · split
    · exact CtxsSeen.trans (t := { s with host := mwrite s.host a bs }) (CtxsSeen.of rfl) ((countDma_keeps ..).ctxsSeen (by decide))
    · exact CtxsSeen.refl s
  · exact uniWrite_ctxs ..

theorem compWrite_reported (s : State) (c : Nat) (b : List Byte) : Reported c s (compWrite s c b) := by
  unfold compWrite
  dsimp only
  refine Reported.trans ?_ (Reported.modCtx rfl (fun j hj => by apply Ctx.modRing_ring_ne; exact hj))
  exact ((devWrite_ctxs ..).trans (devWrite_ctxs ..)).reported c

theorem report_reported (s : State) (c : Nat) (b : List Byte) : Reported c s (report s c b) := by
  unfold report
  split
  · exact compWrite_reported ..
  · dsimp only
    refine Reported.trans ?_ (Reported.modCtx rfl (fun _ _ => rfl))
    split
    · exact Reported.modCtx rfl (fun j hj => by apply Ctx.modRing_ring_ne; exact hj)
    · exact Reported.refl ..

theorem reportRec_reported (s : State) (r : Rec) (st : Status) (a b x d e : Nat) : Reported r.ctx s (reportRec s r st a b x d e) := by
  unfold reportRec
  split
  · exact Reported.refl ..
  · exact report_reported ..

theorem coreReport_reported (s : State) (n c : Nat) (b : List Byte) : Reported c s (coreReport s n c b) := by
  unfold coreReport
  split
  · exact Reported.of c rfl
  · split
    · exact compWrite_reported ..
    · dsimp only
      refine Reported.trans ?_ (Reported.modCore ..)
      split
      · exact Reported.modCtx rfl (fun j hj => by apply Ctx.modRing_ring_ne; exact hj)
      · exact Reported.refl ..

theorem reportInOrder_reported (s : State) (n : Nat) (r : Rec) (b : List Byte) : Reported r.ctx s (reportInOrder s n r b) := by
  unfold reportInOrder
  split
  · exact Reported.of _ rfl
  · exact coreReport_reported ..

theorem clearBit6_bit (x : BitVec 6) (k j : Nat) (hj : j < 6) : (clearBit6 x k).getLsbD j = (x.getLsbD j && decide (j ≠ k)) := by
  simp only [clearBit6, BitVec.getLsbD_and, BitVec.getLsbD_not, BitVec.getLsbD_ofNat, Nat.testBit_two_pow, hj, decide_true, Bool.true_and]
  by_cases h : k = j
  · simp [h]
  · simp [h, Ne.symm h]

/-! ### A write of memory leaves all of a core but its WAITs -/

theorem evalWaits_rest (s : State) (a n k : Nat) : ∃ ws, (evalWaits s a n).core k = { s.core k with waits := ws } := by
  unfold evalWaits
  split
  · exact ⟨_, rfl⟩
  · simp only [State.core]
    induction s.cores with
    | nil => exact ⟨[], rfl⟩
    | cons x r ih =>
      obtain ⟨c, v⟩ := x
      simp only [List.map_cons, tget]
      split
      · exact ⟨_, rfl⟩
      · exact ih

theorem uniWrite_rest (s : State) (b : By) (a : Nat) (bs : List Byte) (k : Nat) : ∃ ws, (uniWrite s b a bs).core k = { s.core k with waits := ws } := by
  have h1 : (beforeWrite s b a bs.length).core k = s.core k := (beforeWrite_keeps ..).core (by decide) k
  unfold uniWrite
  dsimp only
  rw [← h1, (evalRings_keeps ..).core (by decide) k]
  exact evalWaits_rest ..

theorem devWrite_rest (s : State) (b : By) (a : Nat) (bs : List Byte) (k : Nat) : ∃ ws, (devWrite s b a bs).core k = { s.core k with waits := ws } := by
  unfold devWrite
  split
  · split
    · have h : (countDma { s with host := mwrite s.host a bs } true a bs.length).core k = s.core k := (countDma_keeps ..).core (by decide) k
      exact ⟨(s.core k).waits, h⟩
    · exact ⟨_, rfl⟩
  · exact uniWrite_rest ..

/-- The two writes of a completion record: its bytes and the producer word. -/
def compPut (s : State) (c : Nat) (b : List Byte) : State :=
  devWrite (devWrite s { ctx := c } (((s.ctx c).ring 5).addr + (((s.ctx c).ring 5).own.toNat % ((s.ctx c).ring 5).n) * 32) b) { ctx := c }
    ((s.ctx c).ring 5).pair (natLE 8 (((s.ctx c).ring 5).own + 1).toNat)

theorem compPut_ctxs (s : State) (c : Nat) (b : List Byte) : CtxsSeen s (compPut s c b) := (devWrite_ctxs ..).trans (devWrite_ctxs ..)

theorem compWrite_put (s : State) (c : Nat) (b : List Byte) :
    compWrite s c b = (compPut s c b).modCtx c (fun x => x.modRing 5 (fun q => { q with own := q.own + 1, written := q.own + 1 })) := rfl

theorem compWrite_rest (s : State) (c : Nat) (b : List Byte) (k : Nat) : ∃ ws, (compWrite s c b).core k = { s.core k with waits := ws } := by
  rw [compWrite_put, State.modCtx_get_core]
  obtain ⟨v, hv⟩ := devWrite_rest s { ctx := c } (((s.ctx c).ring 5).addr + (((s.ctx c).ring 5).own.toNat % ((s.ctx c).ring 5).n) * 32) b k
  obtain ⟨w, hw⟩ := devWrite_rest (devWrite s { ctx := c } (((s.ctx c).ring 5).addr + (((s.ctx c).ring 5).own.toNat % ((s.ctx c).ring 5).n) * 32) b) { ctx := c }
    ((s.ctx c).ring 5).pair (natLE 8 (((s.ctx c).ring 5).own + 1).toNat) k
  exact ⟨w, by unfold compPut; rw [hw, hv]⟩

/-- A completion record's write takes the next slot of the ring. -/
theorem compWrite_ring (s : State) (c : Nat) (b : List Byte) :
    (((compWrite s c b).ctx c).ring 5).own = ((s.ctx c).ring 5).own + 1 ∧ (((compWrite s c b).ctx c).ring 5).written = ((s.ctx c).ring 5).own + 1 ∧
      (((compWrite s c b).ctx c).ring 5).retry = ((s.ctx c).ring 5).retry ∧ ((compWrite s c b).ctx c).comps = (s.ctx c).comps := by
  have h := (compPut_ctxs s c b).ctx c
  rw [compWrite_put]
  simp only [State.modCtx_get_ctx_self, Ctx.modRing_ring_self, Ctx.modRing_comps]
  refine ⟨?_, ?_, ?_, ?_⟩
  · rw [h.ring 5]
  · rw [h.ring 5]
  · rw [h.ring 5]
  · rw [h.rest]

/-! ### Reaching host memory -/

/-- Whether host memory is reached depends on the limits, the map of the windows, the links and the Hurdles. -/
theorem hostReach_congr {s t : State} (ho : t.opt = s.opt) (hh : t.hurdles = s.hurdles)
    (hp : ∀ p, (t.hp p).mode = (s.hp p).mode ∧ (t.hp p).winmap = (s.hp p).winmap) (l : List Sect) (a n : Nat) : hostReach t l a n = hostReach s l a n := by
  have h1 : ∀ p, hpUp t p = hpUp s p := fun p => by simp only [hpUp, hurdled, (hp p).1, hh]
  have h2 : ∀ w, winPort t w = winPort s w := fun w => by simp only [winPort, (hp _).2, h1]
  have h3 : windowOf t l a n = windowOf s l a n := by simp only [windowOf, dmaWindows, limitsOf, optFld, optImage, ho]
  have h4 : hostPort t l a n = hostPort s l a n := by
    unfold hostPort
    rw [h3, show winPort t = winPort s from funext h2]
  unfold hostReach
  rw [h4, show hpUp t = hpUp s from funext h1]

/-- Counting the bytes of an access changes no port's link and no map. -/
theorem countDma_hp (s : State) (w : Bool) (a n p : Nat) :
    ((countDma s w a n).hp p).mode = (s.hp p).mode ∧ ((countDma s w a n).hp p).winmap = (s.hp p).winmap := by
  unfold countDma
  split
  · rw [State.modHp_get_hp]
    split
    · subst p
      split <;> exact ⟨rfl, rfl⟩
    · exact ⟨rfl, rfl⟩
  · exact ⟨rfl, rfl⟩

/-- A write of device memory changes nothing of what reaches host memory. -/
theorem devWrite_reach (s : State) (e : By) (x : Nat) (bs : List Byte) (l : List Sect) (a n : Nat) :
    hostReach (devWrite s e x bs) l a n = hostReach s l a n := by
  refine hostReach_congr ((devWrite_keeps ..).only.2 .opt (by decide)) ((devWrite_keeps ..).only.2 .hurdles (by decide)) (fun p => ?_) l a n
  unfold devWrite
  split
  · split
    · exact countDma_hp ..
    · exact ⟨rfl, rfl⟩
  · have h : (uniWrite s e x bs).hp p = s.hp p := (uniWrite_keeps ..).hp (by decide) p
    rw [h]
    exact ⟨rfl, rfl⟩

end Sys2Proof.Machine
end

