-- ==== Sys2Proof/Laws/ContextState.lean ====
section
/-! SUPPORT. No report, count or end of a command changes the STATE of a context: said once for every operation below a fence (R284, R290). -/

namespace Sys2Proof.Machine

open Sys2Proof

/-- Every context is in the same state before and after. -/
structure SameStates (s t : State) : Prop where
  state : ∀ d, (t.ctx d).state = (s.ctx d).state

theorem SameStates.refl (s : State) : SameStates s s := ⟨fun _ => rfl⟩

theorem SameStates.trans {s t u : State} (h : SameStates s t) (k : SameStates t u) : SameStates s u := ⟨fun d => (k.state d).trans (h.state d)⟩

theorem SameStates.then {s t u : State} (k : SameStates t u) (h : SameStates s t) : SameStates s u := h.trans k

theorem SameStates.of {s t : State} (h : t.ctxs = s.ctxs) : SameStates s t := ⟨fun d => by unfold State.ctx; rw [h]⟩

theorem Keeps.sameStates {l : List Field} {s t : State} (h : Keeps l s t) (hl : Field.ctxs ∉ l) : SameStates s t := .of (h.only.2 .ctxs hl)

theorem CtxsSeen.sameStates {s t : State} (h : CtxsSeen s t) : SameStates s t := ⟨fun d => by rw [(h.ctx d).rest]⟩

theorem Reported.sameStates {c : Nat} {s t : State} (h : Reported c s t) : SameStates s t := ⟨fun d => by
  by_cases hd : d = c
  · subst hd; rw [h.rest]
  · rw [(h.ctx d hd).rest]⟩

theorem SameStates.modCtx {s : State} {c : Nat} {f : Ctx → Ctx} (h : ∀ x, (f x).state = x.state) : SameStates s (s.modCtx c f) := ⟨fun d => by
  rw [State.modCtx_get_ctx]
  split
  · next e => subst e; exact h _
  · rfl⟩

theorem SameStates.modCore (s : State) (n : Nat) (f : Core → Core) : SameStates s (s.modCore n f) := .of rfl

theorem SameStates.ite {s t u : State} {c : Prop} [Decidable c] (ht : c → SameStates s t) (hu : ¬c → SameStates s u) : SameStates s (if c then t else u) := by
  split
  · exact ht ‹_›
  · exact hu ‹_›

theorem SameStates.foldl {α : Type} {s t : State} {f : State → α → State} {xs : List α} (h : SameStates s t)
    (hf : ∀ u x, SameStates s u → SameStates s (f u x)) : SameStates s (xs.foldl f t) := by
  induction xs generalizing t with
  | nil => exact h
  | cons x xs ih => exact ih (hf t x h)

theorem SameStates.foldl_fst {α β : Type} {s : State} {p : State × β} {f : State × β → α → State × β} {xs : List α} (h : SameStates s p.1)
    (hf : ∀ u x, SameStates s u.1 → SameStates s (f u x).1) : SameStates s (xs.foldl f p).1 := by
  induction xs generalizing p with
  | nil => exact h
  | cons x xs ih => exact ih (hf p x h)

theorem SameStates.foldl_snd {α β : Type} {s : State} {p : β × State} {f : β × State → α → β × State} {xs : List α} (h : SameStates s p.2)
    (hf : ∀ u x, SameStates s u.2 → SameStates s (f u x).2) : SameStates s (xs.foldl f p).2 := by
  induction xs generalizing p with
  | nil => exact h
  | cons x xs ih => exact ih (hf p x h)

theorem SameStates.snd {α : Type} {s t : State} {p : α × State} {a : α} (e : p = (a, t)) (h : SameStates s p.2) : SameStates s t := by
  subst e
  exact h

theorem SameStates.fst {α : Type} {s t : State} {p : State × α} {a : α} (e : p = (t, a)) (h : SameStates s p.1) : SameStates s t := by
  subst e
  exact h

theorem devWrite_sameStates (s : State) (b : By) (a : Nat) (bs : List Byte) : SameStates s (devWrite s b a bs) := (devWrite_ctxs ..).sameStates

theorem reportRec_sameStates (s : State) (r : Rec) (st : Status) (a b c d e : Nat) : SameStates s (reportRec s r st a b c d e) := (reportRec_reported ..).sameStates

theorem coreReport_sameStates (s : State) (n c : Nat) (b : List Byte) : SameStates s (coreReport s n c b) := (coreReport_reported ..).sameStates

theorem reportInOrder_sameStates (s : State) (n : Nat) (r : Rec) (b : List Byte) : SameStates s (reportInOrder s n r b) := (reportInOrder_reported ..).sameStates

theorem SameStates.set_hub2 {s t : State} {x : Hub2} (h : SameStates s t) : SameStates s { t with hub2 := x } := h.trans (.of rfl)

theorem SameStates.set_loads {s t : State} {x : List LoadJob} (h : SameStates s t) : SameStates s { t with loads := x } := h.trans (.of rfl)

theorem ctxCount_sameStates : ∀ s a1 a2 a3, SameStates s (ctxCount s a1 a2 a3) := by
  intro s a1 a2 a3
  unfold ctxCount
  repeat' (first
    | (with_reducible apply SameStates.ite)
    | with_reducible exact SameStates.refl _
    | with_reducible assumption
    | (with_reducible apply SameStates.then (SameStates.modCtx ?_) ?_)
    | (exact fun _ => rfl)
    | (with_reducible apply SameStates.foldl)
    | (with_reducible refine SameStates.snd (by assumption) ?_)
    | (with_reducible refine SameStates.fst (by assumption) ?_)
    | intro _)


theorem countSat_sameStates : ∀ s a1 a2 a3 a4, SameStates s (countSat s a1 a2 a3 a4) := by
  intro s a1 a2 a3 a4
  unfold countSat
  repeat' (first
    | (with_reducible apply SameStates.ite)
    | with_reducible exact SameStates.refl _
    | with_reducible assumption
    | (with_reducible apply SameStates.then ((post_keeps ..).sameStates (by decide)) ?_)
    | (with_reducible apply SameStates.then (ctxCount_sameStates ..) ?_)
    | (with_reducible apply SameStates.foldl)
    | (with_reducible refine SameStates.snd (by assumption) ?_)
    | (with_reducible refine SameStates.fst (by assumption) ?_)
    | (with_reducible fail_if_no_progress (apply SameStates.set_hub2 ?_))
    | intro _)


theorem endCmd_sameStates : ∀ s a1 a2 a3 a4 a5 a6, SameStates s (endCmd s a1 a2 a3 a4 a5 a6) := by
  intro s a1 a2 a3 a4 a5 a6
  unfold endCmd
  repeat' (first
    | (with_reducible apply SameStates.ite)
    | with_reducible exact SameStates.refl _
    | with_reducible assumption
    | (with_reducible apply SameStates.then ((post_keeps ..).sameStates (by decide)) ?_)
    | (with_reducible apply SameStates.then ((coreCount_keeps ..).sameStates (by decide)) ?_)
    | (with_reducible apply SameStates.then (reportInOrder_sameStates ..) ?_)
    | (with_reducible apply SameStates.foldl)
    | (with_reducible apply SameStates.foldl_snd)
    | (with_reducible refine SameStates.snd (by assumption) ?_)
    | (with_reducible refine SameStates.fst (by assumption) ?_)
    | intro _)


theorem flushEnded_sameStates : ∀ a0 s a2, SameStates s (flushEnded a0 s a2) := by
  intro a0 s a2
  induction a0 generalizing s with
  | zero => exact SameStates.refl _
  | succ k ih =>
    unfold flushEnded
    split
    · exact SameStates.refl _
    · exact SameStates.trans (SameStates.then (coreReport_sameStates ..) (SameStates.modCore ..)) (ih _)


theorem endRun_sameStates : ∀ s a1 a2 a3, SameStates s (endRun s a1 a2 a3) := by
  intro s a1 a2 a3
  unfold endRun
  repeat' (first
    | (with_reducible apply SameStates.ite)
    | with_reducible exact SameStates.refl _
    | with_reducible assumption
    | (with_reducible apply SameStates.then ((countHeld_keeps ..).sameStates (by decide)) ?_)
    | (with_reducible apply SameStates.then (countSat_sameStates ..) ?_)
    | (with_reducible apply SameStates.then (ctxCount_sameStates ..) ?_)
    | (with_reducible apply SameStates.then (endCmd_sameStates ..) ?_)
    | (with_reducible apply SameStates.then ((dropRun_keeps ..).sameStates (by decide)) ?_)
    | (with_reducible apply SameStates.then ((drainDone_keeps ..).sameStates (by decide)) ?_)
    | (with_reducible apply SameStates.then (flushEnded_sameStates ..) ?_)
    | (with_reducible apply SameStates.foldl)
    | (with_reducible apply SameStates.foldl_snd)
    | (with_reducible refine SameStates.snd (by assumption) ?_)
    | (with_reducible refine SameStates.fst (by assumption) ?_)
    | intro _)


theorem applyWr_sameStates : ∀ a0 s a2, SameStates s (applyWr a0 s a2) := by
  intro a0 s a2
  unfold applyWr
  repeat' (first
    | (with_reducible apply SameStates.ite)
    | with_reducible exact SameStates.refl _
    | with_reducible assumption
    | (with_reducible apply SameStates.then ((spWrite_keeps ..).sameStates (by decide)) ?_)
    | (with_reducible apply SameStates.then (devWrite_sameStates ..) ?_)
    | (with_reducible apply SameStates.foldl)
    | (with_reducible refine SameStates.snd (by assumption) ?_)
    | (with_reducible refine SameStates.fst (by assumption) ?_)
    | intro _
    | dsimp only
    | split)


theorem applyWrs_sameStates : ∀ a0 s a2, SameStates s (applyWrs a0 s a2) := by
  intro a0 s a2
  unfold applyWrs
  repeat' (first
    | (with_reducible apply SameStates.ite)
    | with_reducible exact SameStates.refl _
    | with_reducible assumption
    | (with_reducible apply SameStates.then (applyWr_sameStates ..) ?_)
    | (with_reducible apply SameStates.foldl)
    | (with_reducible refine SameStates.snd (by assumption) ?_)
    | (with_reducible refine SameStates.fst (by assumption) ?_)
    | intro _)


theorem matFence_sameStates : ∀ s a1 a2, SameStates s (matFence s a1 a2).1 := by
  intro s a1 a2
  unfold matFence
  repeat' (first
    | (with_reducible apply SameStates.ite)
    | with_reducible exact SameStates.refl _
    | with_reducible assumption
    | (with_reducible apply SameStates.then ((freeBelow_keeps ..).sameStates (by decide)) ?_)
    | (with_reducible apply SameStates.then ((countFetches_keeps ..).sameStates (by decide)) ?_)
    | (with_reducible apply SameStates.then ((freeLead_keeps ..).sameStates (by decide)) ?_)
    | (with_reducible apply SameStates.then (applyWrs_sameStates ..) ?_)
    | (with_reducible apply SameStates.foldl)
    | (with_reducible apply SameStates.foldl_snd)
    | (with_reducible refine SameStates.snd (by assumption) ?_)
    | (with_reducible refine SameStates.fst (by assumption) ?_)
    | intro _
    | dsimp only
    | split)


theorem standing_sameStates : ∀ s a1 a2, SameStates s (standing s a1 a2).1 := by
  intro s a1 a2
  unfold standing
  repeat' (first
    | (with_reducible apply SameStates.ite)
    | with_reducible exact SameStates.refl _
    | with_reducible assumption
    | (with_reducible apply SameStates.then ((coreCount_keeps ..).sameStates (by decide)) ?_)
    | (with_reducible apply SameStates.then (applyWrs_sameStates ..) ?_))


theorem standLead_sameStates : ∀ s a1 a2, SameStates s (standLead s a1 a2).1 := by
  intro s a1 a2
  unfold standLead
  repeat' (first
    | (with_reducible apply SameStates.ite)
    | with_reducible exact SameStates.refl _
    | with_reducible assumption
    | (with_reducible apply SameStates.then ((freeLead_keeps ..).sameStates (by decide)) ?_)
    | (with_reducible apply SameStates.then (standing_sameStates ..) ?_))


theorem updPart_sameStates : ∀ s a1 a2, SameStates s (updPart s a1 a2).1 := by
  intro s a1 a2
  unfold updPart
  repeat' (first
    | (with_reducible apply SameStates.ite)
    | with_reducible exact SameStates.refl _
    | with_reducible assumption
    | (with_reducible apply SameStates.then ((freeLead_keeps ..).sameStates (by decide)) ?_)
    | (with_reducible apply SameStates.then (applyWrs_sameStates ..) ?_))


theorem updWrites_sameStates : ∀ s a1 a2, SameStates s (updWrites s a1 a2) := by
  intro s a1 a2
  unfold updWrites
  repeat' (first
    | (with_reducible apply SameStates.ite)
    | with_reducible exact SameStates.refl _
    | with_reducible assumption
    | (with_reducible apply SameStates.then (applyWrs_sameStates ..) ?_)
    | (with_reducible apply SameStates.then ((rdsTouch_keeps ..).sameStates (by decide)) ?_))


theorem countRolled_sameStates : ∀ s a1 a2 a3, SameStates s (countRolled s a1 a2 a3) := by
  intro s a1 a2 a3
  unfold countRolled
  repeat' (first
    | (with_reducible apply SameStates.ite)
    | with_reducible exact SameStates.refl _
    | with_reducible assumption
    | (with_reducible apply SameStates.then ((post_keeps ..).sameStates (by decide)) ?_)
    | (with_reducible apply SameStates.then (ctxCount_sameStates ..) ?_))


theorem updRolled_sameStates : ∀ s a1 a2 a3 a4 a5, SameStates s (updRolled s a1 a2 a3 a4 a5) := by
  intro s a1 a2 a3 a4 a5
  unfold updRolled
  dsimp only
  repeat' (first
    | (with_reducible apply SameStates.ite)
    | with_reducible exact SameStates.refl _
    | (with_reducible apply SameStates.then (SameStates.modCtx ?_) ?_)
    | (exact fun x => by unfold countCommit; split <;> rfl)
    | (with_reducible apply SameStates.then (countRolled_sameStates ..) ?_)
    | (with_reducible apply SameStates.then (applyWrs_sameStates ..) ?_)
    | (with_reducible apply SameStates.then (updWrites_sameStates ..) ?_)
    | intro _
    | dsimp only
    | split)


theorem updFence_sameStates : ∀ s a1 a2, SameStates s (updFence s a1 a2).1 := by
  intro s a1 a2
  unfold updFence
  repeat' (first
    | (with_reducible apply SameStates.ite)
    | with_reducible exact SameStates.refl _
    | with_reducible assumption
    | (with_reducible apply SameStates.then (updPart_sameStates ..) ?_)
    | (with_reducible apply SameStates.then ((freeBelow_keeps ..).sameStates (by decide)) ?_)
    | (with_reducible apply SameStates.then (updRolled_sameStates ..) ?_)
    | (with_reducible apply SameStates.foldl)
    | (with_reducible refine SameStates.snd (by assumption) ?_)
    | (with_reducible refine SameStates.fst (by assumption) ?_)
    | intro _
    | dsimp only
    | split)


theorem copyWrites_sameStates : ∀ s a1 a2 a3, SameStates s (copyWrites s a1 a2 a3).1 := by
  intro s a1 a2 a3
  unfold copyWrites
  repeat' (first
    | (with_reducible apply SameStates.ite)
    | with_reducible exact SameStates.refl _
    | with_reducible assumption
    | (with_reducible apply SameStates.then ((coreCount_keeps ..).sameStates (by decide)) ?_)
    | (with_reducible apply SameStates.then (applyWrs_sameStates ..) ?_))


theorem gElem_sameStates : ∀ a0 a1 a2 a3 w a5, SameStates w.st (gElem a0 a1 a2 a3 w a5).st := by
  intro a0 a1 a2 a3 w a5
  unfold gElem
  extract_lets s r sz i ga side lrd rank base grd src v e s'
  split
  · exact SameStates.refl _
  split
  · split
    · exact (rdsTouch_keeps ..).sameStates (by decide)
    · split
      · split
        · exact (rdsTouch_keeps ..).sameStates (by decide)
        · exact SameStates.then (copyWrites_sameStates ..) ((rdsTouch_keeps ..).sameStates (by decide))
      · exact (rdsTouch_keeps ..).sameStates (by decide)
  split
  · split
    · exact (Rd.touch_keeps ..).sameStates (by decide)
    · exact SameStates.then ((coreCount_keeps ..).sameStates (by decide)) (SameStates.then ((request_keeps ..).sameStates (by decide)) ((Rd.touch_keeps ..).sameStates (by decide)))
  · exact (request_keeps ..).sameStates (by decide)


theorem gWalk_sameStates : ∀ s a1 a2 a3 a4 a5, SameStates s (gWalk s a1 a2 a3 a4 a5).st := by
  intro s a1 a2 a3 a4 a5
  have key : ∀ (xs : List (List Nat × Nat)) (w : GWalk), SameStates w.st (xs.foldl (gElem (sectsOf s (.core a1)) a1 (gDesc a3) (dtdOf a4)) w).st := by
    intro xs
    induction xs with
    | nil => exact fun w => SameStates.refl _
    | cons x xs ih => exact fun w => SameStates.trans (gElem_sameStates ..) (ih _)
  have h := key ((walk (gDesc a3).n).zipIdx.take a5) { st := s, run := a2 }
  unfold gWalk
  exact h


theorem copyFence_sameStates : ∀ s a1 a2, SameStates s (copyFence s a1 a2).1 := by
  intro s a1 a2
  unfold copyFence
  repeat' (first
    | (with_reducible apply SameStates.ite)
    | with_reducible exact SameStates.refl _
    | with_reducible assumption
    | (with_reducible apply SameStates.then ((freeLead_keeps ..).sameStates (by decide)) ?_)
    | (with_reducible apply SameStates.then (copyWrites_sameStates ..) ?_)
    | (with_reducible apply SameStates.then ((freeBelow_keeps ..).sameStates (by decide)) ?_)
    | (with_reducible apply SameStates.then (gWalk_sameStates ..) ?_)
    | (with_reducible apply SameStates.foldl)
    | (with_reducible apply SameStates.foldl_snd)
    | (with_reducible refine SameStates.snd (by assumption) ?_)
    | (with_reducible refine SameStates.fst (by assumption) ?_)
    | intro _
    | dsimp only
    | split)


theorem gatherBreak_sameStates : ∀ s a1 a2, SameStates s (gatherBreak s a1 a2) := by
  intro s a1 a2
  unfold gatherBreak
  repeat' (first
    | (with_reducible apply SameStates.ite)
    | with_reducible exact SameStates.refl _
    | with_reducible assumption
    | (with_reducible apply SameStates.then ((post_keeps ..).sameStates (by decide)) ?_)
    | (with_reducible apply SameStates.then (devWrite_sameStates ..) ?_)
    | (with_reducible apply SameStates.foldl)
    | (with_reducible refine SameStates.snd (by assumption) ?_)
    | (with_reducible refine SameStates.fst (by assumption) ?_)
    | intro _)


theorem fencePart_sameStates : ∀ s a1 a2, SameStates s (fencePart s a1 a2).1 := by
  intro s a1 a2
  unfold fencePart
  repeat' (first
    | (with_reducible apply SameStates.ite)
    | with_reducible exact SameStates.refl _
    | with_reducible assumption
    | (with_reducible apply SameStates.then (matFence_sameStates ..) ?_)
    | (with_reducible apply SameStates.then (standLead_sameStates ..) ?_)
    | (with_reducible apply SameStates.then ((freeSet_keeps ..).sameStates (by decide)) ?_)
    | (with_reducible apply SameStates.then (standing_sameStates ..) ?_)
    | (with_reducible apply SameStates.then (updFence_sameStates ..) ?_)
    | (with_reducible apply SameStates.then (copyFence_sameStates ..) ?_)
    | (with_reducible apply SameStates.then (gatherBreak_sameStates ..) ?_)
    | (with_reducible apply SameStates.foldl)
    | (with_reducible apply SameStates.foldl_snd)
    | (with_reducible refine SameStates.snd (by assumption) ?_)
    | (with_reducible refine SameStates.fst (by assumption) ?_)
    | intro _
    | dsimp only
    | split)


theorem fenceRun_sameStates : ∀ a0 s a2, SameStates s (fenceRun a0 s a2) := by
  intro a0 s a2
  unfold fenceRun
  repeat' (first
    | (with_reducible apply SameStates.ite)
    | with_reducible exact SameStates.refl _
    | with_reducible assumption
    | (with_reducible apply SameStates.then (endRun_sameStates ..) ?_)
    | (with_reducible apply SameStates.then ((handHot_keeps ..).sameStates (by decide)) ?_)
    | (with_reducible apply SameStates.then (fencePart_sameStates ..) ?_)
    | (with_reducible apply SameStates.foldl)
    | (with_reducible apply SameStates.foldl_snd)
    | (with_reducible refine SameStates.snd (by assumption) ?_)
    | (with_reducible refine SameStates.fst (by assumption) ?_)
    | intro _)


theorem endHead_sameStates : ∀ s a1 a2 a3 a4 a5 a6, SameStates s (endHead s a1 a2 a3 a4 a5 a6) := by
  intro s a1 a2 a3 a4 a5 a6
  unfold endHead
  repeat' (first
    | (with_reducible apply SameStates.ite)
    | with_reducible exact SameStates.refl _
    | with_reducible assumption
    | (with_reducible apply SameStates.then ((drainDone_keeps ..).sameStates (by decide)) ?_)
    | (with_reducible apply SameStates.then (endCmd_sameStates ..) ?_)
    | (with_reducible apply SameStates.then ((popHead_keeps ..).sameStates (by decide)) ?_))


theorem fenceSlot_sameStates : ∀ s a1 a2 a3, SameStates s (fenceSlot s a1 a2 a3) := by
  intro s a1 a2 a3
  unfold fenceSlot
  repeat' (first
    | (with_reducible apply SameStates.ite)
    | with_reducible exact SameStates.refl _
    | with_reducible assumption
    | (with_reducible apply SameStates.then (fenceRun_sameStates ..) ?_)
    | (with_reducible apply SameStates.then (SameStates.modCore _ _ _) ?_)
    | (with_reducible apply SameStates.then (endHead_sameStates ..) ?_)
    | (with_reducible apply SameStates.then ((post_keeps ..).sameStates (by decide)) ?_)
    | (with_reducible apply SameStates.foldl)
    | (with_reducible apply SameStates.foldl_snd)
    | (with_reducible refine SameStates.snd (by assumption) ?_)
    | (with_reducible refine SameStates.fst (by assumption) ?_)
    | intro _
    | dsimp only
    | split)


theorem noteCold_sameStates : ∀ s a1 a2, SameStates s (noteCold s a1 a2) := by
  intro s a1 a2
  unfold noteCold
  repeat' (first
    | (with_reducible apply SameStates.ite)
    | with_reducible exact SameStates.refl _
    | with_reducible assumption
    | (with_reducible apply SameStates.then ((ibxPost_keeps ..).sameStates (by decide)) ?_)
    | (with_reducible apply SameStates.then (ctxCount_sameStates ..) ?_)
    | (with_reducible apply SameStates.foldl)
    | (with_reducible apply SameStates.foldl_snd)
    | (with_reducible refine SameStates.snd (by assumption) ?_)
    | (with_reducible refine SameStates.fst (by assumption) ?_)
    | intro _)


theorem breakOff_sameStates : ∀ s a1 a2, SameStates s (breakOff s a1 a2).2 := by
  intro s a1 a2
  unfold breakOff
  repeat' (first
    | (with_reducible apply SameStates.ite)
    | with_reducible exact SameStates.refl _
    | with_reducible assumption
    | (with_reducible apply SameStates.then ((freeBelow_keeps ..).sameStates (by decide)) ?_)
    | (with_reducible apply SameStates.then (noteCold_sameStates ..) ?_)
    | (with_reducible apply SameStates.then ((retryPosts_keeps ..).sameStates (by decide)) ?_)
    | (with_reducible apply SameStates.foldl)
    | (with_reducible apply SameStates.foldl_snd)
    | (with_reducible refine SameStates.snd (by assumption) ?_)
    | (with_reducible refine SameStates.fst (by assumption) ?_)
    | intro _
    | dsimp only
    | split)


theorem fencedWork_sameStates : ∀ s a1 a2 a3, SameStates s (fencedWork s a1 a2 a3).2 := by
  intro s a1 a2 a3
  unfold fencedWork
  repeat' (first
    | (with_reducible apply SameStates.ite)
    | with_reducible exact SameStates.refl _
    | with_reducible assumption
    | (with_reducible apply SameStates.then (breakOff_sameStates ..) ?_)
    | (with_reducible apply SameStates.then ((countLanes_keeps ..).sameStates (by decide)) ?_)
    | (with_reducible apply SameStates.foldl)
    | (with_reducible apply SameStates.foldl_snd)
    | (with_reducible refine SameStates.snd (by assumption) ?_)
    | (with_reducible refine SameStates.fst (by assumption) ?_)
    | intro _
    | dsimp only
    | split)


theorem fenceEntry_sameStates : ∀ s a1 a2 a3 a4, SameStates s (fenceEntry s a1 a2 a3 a4) := by
  intro s a1 a2 a3 a4
  unfold fenceEntry
  repeat' (first
    | (with_reducible apply SameStates.ite)
    | with_reducible exact SameStates.refl _
    | with_reducible assumption
    | (with_reducible apply SameStates.then ((entryOver_keeps ..).sameStates (by decide)) ?_)
    | (with_reducible apply SameStates.then (devWrite_sameStates ..) ?_))


theorem fenceRunning_sameStates : ∀ s a1 a2, SameStates s (fenceRunning s a1 a2) := by
  intro s a1 a2
  unfold fenceRunning
  repeat' (first
    | (with_reducible apply SameStates.ite)
    | with_reducible exact SameStates.refl _
    | with_reducible assumption
    | (with_reducible apply SameStates.then (fencedWork_sameStates ..) ?_)
    | (with_reducible apply SameStates.then (fenceEntry_sameStates ..) ?_)
    | (with_reducible apply SameStates.then ((State.modIbx_keeps ..).sameStates (by decide)) ?_)
    | (with_reducible apply SameStates.foldl)
    | (with_reducible apply SameStates.foldl_snd)
    | (with_reducible refine SameStates.snd (by assumption) ?_)
    | (with_reducible refine SameStates.fst (by assumption) ?_)
    | intro _
    | dsimp only
    | split)


theorem ibxReport_sameStates : ∀ s a1 a2 a3 a4 a5 a6, SameStates s (ibxReport s a1 a2 a3 a4 a5 a6) := by
  intro s a1 a2 a3 a4 a5 a6
  unfold ibxReport
  repeat' (first
    | (with_reducible apply SameStates.ite)
    | with_reducible exact SameStates.refl _
    | with_reducible assumption
    | (with_reducible apply SameStates.then (reportRec_sameStates ..) ?_))


theorem fenceIbex_sameStates : ∀ s a1 a2 a3, SameStates s (fenceIbex s a1 a2 a3) := by
  intro s a1 a2 a3
  unfold fenceIbex
  repeat' (first
    | (with_reducible apply SameStates.ite)
    | with_reducible exact SameStates.refl _
    | with_reducible assumption
    | (with_reducible apply SameStates.then (fenceRunning_sameStates ..) ?_)
    | (with_reducible apply SameStates.then (fenceEntry_sameStates ..) ?_)
    | (with_reducible apply SameStates.then ((State.modIbx_keeps ..).sameStates (by decide)) ?_)
    | (with_reducible apply SameStates.then (ibxReport_sameStates ..) ?_)
    | (with_reducible apply SameStates.then ((post_keeps ..).sameStates (by decide)) ?_)
    | (with_reducible apply SameStates.foldl)
    | (with_reducible apply SameStates.foldl_snd)
    | (with_reducible refine SameStates.snd (by assumption) ?_)
    | (with_reducible refine SameStates.fst (by assumption) ?_)
    | intro _)


theorem permuteCut_sameStates : ∀ s a1 a2 a3, SameStates s (permuteCut s a1 a2 a3).2 := by
  intro s a1 a2 a3
  unfold permuteCut
  repeat' (first
    | (with_reducible apply SameStates.ite)
    | with_reducible exact SameStates.refl _
    | with_reducible assumption
    | (with_reducible apply SameStates.then ((freeLead_keeps ..).sameStates (by decide)) ?_)
    | (with_reducible apply SameStates.then (applyWrs_sameStates ..) ?_))


theorem fencePermute_sameStates : ∀ a0 s a2, SameStates s (fencePermute a0 s a2).1 := by
  intro a0 s a2
  unfold fencePermute
  repeat' (first
    | (with_reducible apply SameStates.ite)
    | with_reducible exact SameStates.refl _
    | with_reducible assumption
    | (with_reducible apply SameStates.then (permuteCut_sameStates ..) ?_)
    | (with_reducible apply SameStates.foldl)
    | (with_reducible apply SameStates.foldl_snd)
    | (with_reducible refine SameStates.snd (by assumption) ?_)
    | (with_reducible refine SameStates.fst (by assumption) ?_)
    | intro _
    | dsimp only
    | split)


theorem collReport_sameStates : ∀ s a1 a2 a3 a4 a5 a6, SameStates s (collReport s a1 a2 a3 a4 a5 a6) := by
  intro s a1 a2 a3 a4 a5 a6
  unfold collReport
  repeat' (first
    | (with_reducible apply SameStates.ite)
    | with_reducible exact SameStates.refl _
    | with_reducible assumption
    | (with_reducible apply SameStates.then (reportRec_sameStates ..) ?_))


theorem endColl_sameStates : ∀ s a1 a2 a3, SameStates s (endColl s a1 a2 a3) := by
  intro s a1 a2 a3
  unfold endColl
  repeat' (first
    | (with_reducible apply SameStates.ite)
    | with_reducible exact SameStates.refl _
    | with_reducible assumption
    | (with_reducible apply SameStates.then ((State.modCe_keeps ..).sameStates (by decide)) ?_)
    | (with_reducible apply SameStates.then (countSat_sameStates ..) ?_)
    | (with_reducible apply SameStates.then (collReport_sameStates ..) ?_))


theorem fenceColls_sameStates : ∀ s a1 a2 a3, SameStates s (fenceColls s a1 a2 a3) := by
  intro s a1 a2 a3
  unfold fenceColls
  repeat' (first
    | (with_reducible apply SameStates.ite)
    | with_reducible exact SameStates.refl _
    | with_reducible assumption
    | (with_reducible apply SameStates.then (fencePermute_sameStates ..) ?_)
    | (with_reducible apply SameStates.then (endColl_sameStates ..) ?_)
    | (with_reducible apply SameStates.then ((State.modCe_keeps ..).sameStates (by decide)) ?_)
    | (with_reducible apply SameStates.then (collReport_sameStates ..) ?_)
    | (with_reducible apply SameStates.then ((post_keeps ..).sameStates (by decide)) ?_)
    | (with_reducible apply SameStates.foldl)
    | (with_reducible apply SameStates.foldl_snd)
    | (with_reducible refine SameStates.snd (by assumption) ?_)
    | (with_reducible refine SameStates.fst (by assumption) ?_)
    | intro _)


theorem zeroTile_sameStates : ∀ s a1 a2 a3, SameStates s (zeroTile s a1 a2 a3) := by
  intro s a1 a2 a3
  unfold zeroTile
  repeat' (first
    | (with_reducible apply SameStates.ite)
    | with_reducible exact SameStates.refl _
    | with_reducible assumption
    | (with_reducible apply SameStates.then (devWrite_sameStates ..) ?_))


theorem stopJob_sameStates : ∀ s a1 a2 a3, SameStates s (stopJob s a1 a2 a3) := by
  intro s a1 a2 a3
  unfold stopJob
  repeat' (first
    | (with_reducible apply SameStates.ite)
    | with_reducible exact SameStates.refl _
    | with_reducible assumption
    | (with_reducible apply SameStates.then (zeroTile_sameStates ..) ?_)
    | (with_reducible apply SameStates.then ((putJob_keeps ..).sameStates (by decide)) ?_)
    | (with_reducible apply SameStates.foldl)
    | (with_reducible refine SameStates.snd (by assumption) ?_)
    | (with_reducible refine SameStates.fst (by assumption) ?_)
    | intro _)


theorem loaderReport_sameStates : ∀ s a1 a2 a3 a4, SameStates s (loaderReport s a1 a2 a3 a4) := by
  intro s a1 a2 a3 a4
  unfold loaderReport
  repeat' (first
    | (with_reducible apply SameStates.ite)
    | with_reducible exact SameStates.refl _
    | with_reducible assumption
    | (with_reducible apply SameStates.then (reportRec_sameStates ..) ?_))


theorem installDone_sameStates : ∀ s a1 a2 a3, SameStates s (installDone s a1 a2 a3) := by
  intro s a1 a2 a3
  unfold installDone
  repeat' (first
    | (with_reducible apply SameStates.ite)
    | with_reducible exact SameStates.refl _
    | with_reducible assumption
    | (with_reducible apply SameStates.then (devWrite_sameStates ..) ?_)
    | (with_reducible apply SameStates.then ((post_keeps ..).sameStates (by decide)) ?_)
    | (with_reducible apply SameStates.foldl)
    | (with_reducible refine SameStates.snd (by assumption) ?_)
    | (with_reducible refine SameStates.fst (by assumption) ?_)
    | intro _)


theorem settleJob_sameStates : ∀ s a1, SameStates s (settleJob s a1) := by
  intro s a1
  unfold settleJob
  repeat' (first
    | (with_reducible apply SameStates.ite)
    | with_reducible exact SameStates.refl _
    | with_reducible assumption
    | (with_reducible apply SameStates.then (loaderReport_sameStates ..) ?_)
    | (with_reducible apply SameStates.then (installDone_sameStates ..) ?_)
    | (with_reducible apply SameStates.foldl)
    | (with_reducible refine SameStates.snd (by assumption) ?_)
    | (with_reducible refine SameStates.fst (by assumption) ?_)
    | (with_reducible fail_if_no_progress (apply SameStates.set_loads ?_))
    | intro _
    | dsimp only
    | split)


theorem endJobs_sameStates : ∀ s a1 a2, SameStates s (endJobs s a1 a2) := by
  intro s a1 a2
  unfold endJobs
  repeat' (first
    | (with_reducible apply SameStates.ite)
    | with_reducible exact SameStates.refl _
    | with_reducible assumption
    | (with_reducible apply SameStates.then (zeroTile_sameStates ..) ?_)
    | (with_reducible apply SameStates.then ((setQpRun_keeps ..).sameStates (by decide)) ?_)
    | (with_reducible apply SameStates.then (stopJob_sameStates ..) ?_)
    | (with_reducible apply SameStates.then ((putJob_keeps ..).sameStates (by decide)) ?_)
    | (with_reducible apply SameStates.then (settleJob_sameStates ..) ?_)
    | (with_reducible apply SameStates.foldl)
    | (with_reducible refine SameStates.snd (by assumption) ?_)
    | (with_reducible refine SameStates.fst (by assumption) ?_)
    | intro _
    | dsimp only
    | split)


theorem adUse_sameStates : ∀ s a1 a2 a3 a4, SameStates s (adUse s a1 a2 a3 a4) := by
  intro s a1 a2 a3 a4
  unfold adUse
  repeat' (first
    | (with_reducible apply SameStates.ite)
    | with_reducible exact SameStates.refl _
    | with_reducible assumption
    | (with_reducible apply SameStates.then (devWrite_sameStates ..) ?_))


theorem endRequest_sameStates : ∀ s a1 a2 a3, SameStates s (endRequest s a1 a2 a3) := by
  intro s a1 a2 a3
  unfold endRequest
  repeat' (first
    | (with_reducible apply SameStates.ite)
    | with_reducible exact SameStates.refl _
    | with_reducible assumption
    | (with_reducible apply SameStates.then (SameStates.modCtx ?_) ?_)
    | (exact fun _ => rfl)
    | (with_reducible apply SameStates.then (adUse_sameStates ..) ?_)
    | (with_reducible apply SameStates.then (loaderReport_sameStates ..) ?_)
    | (with_reducible apply SameStates.foldl)
    | (with_reducible apply SameStates.foldl_snd)
    | (with_reducible refine SameStates.snd (by assumption) ?_)
    | (with_reducible refine SameStates.fst (by assumption) ?_)
    | intro _)


theorem fenceServing_sameStates : ∀ s a1 a2, SameStates s (fenceServing s a1 a2) := by
  intro s a1 a2
  unfold fenceServing
  repeat' (first
    | (with_reducible apply SameStates.ite)
    | with_reducible exact SameStates.refl _
    | with_reducible assumption
    | (with_reducible apply SameStates.then (endJobs_sameStates ..) ?_)
    | (with_reducible apply SameStates.then (SameStates.modCtx ?_) ?_)
    | (exact fun _ => rfl)
    | (with_reducible apply SameStates.then (loaderReport_sameStates ..) ?_)
    | (with_reducible apply SameStates.then (endRequest_sameStates ..) ?_)
    | (with_reducible apply SameStates.then ((post_keeps ..).sameStates (by decide)) ?_)
    | (with_reducible apply SameStates.foldl)
    | (with_reducible apply SameStates.foldl_snd)
    | (with_reducible refine SameStates.snd (by assumption) ?_)
    | (with_reducible refine SameStates.fst (by assumption) ?_)
    | intro _)


theorem fenceCtx_sameStates : ∀ s a1 a2, SameStates s (fenceCtx s a1 a2) := by
  intro s a1 a2
  unfold fenceCtx
  repeat' (first
    | (with_reducible apply SameStates.ite)
    | with_reducible exact SameStates.refl _
    | with_reducible assumption
    | (with_reducible apply SameStates.then (fenceSlot_sameStates ..) ?_)
    | (with_reducible apply SameStates.then (fenceIbex_sameStates ..) ?_)
    | (with_reducible apply SameStates.then (fenceColls_sameStates ..) ?_)
    | (with_reducible apply SameStates.then (fenceServing_sameStates ..) ?_)
    | (with_reducible apply SameStates.foldl)
    | (with_reducible apply SameStates.foldl_snd)
    | (with_reducible refine SameStates.snd (by assumption) ?_)
    | (with_reducible refine SameStates.fst (by assumption) ?_)
    | intro _)


end Sys2Proof.Machine
end

