-- ==== Sys2Proof/Laws/Moves.lean ====
section
/-! SUPPORT. What a move of tiles, and the reading of words with errors that goes with it, leaves of the memory tiers and of the memory
ports (R194 to R199), and where a tile's frame is recorded. -/

namespace Sys2Proof.Machine

open Sys2Proof

/-- From `s` to `t` tiles have moved and words been read: hints, wanted promotions, the frames out of service and the queues of pinned tiles
stand, and no word has become bad. -/
structure Moved (s t : State) : Prop where
  hints : t.tiers.hints = s.tiers.hints
  promos : t.tiers.promos = s.tiers.promos
  lost : t.tiers.topRetired = s.tiers.topRetired
  outCh : t.tiers.outCh = s.tiers.outCh
  outSlice : t.tiers.outSlice = s.tiers.outSlice
  pinq : ∀ m, (t.mport m).pinq = (s.mport m).pinq
  good : ∀ w, uniCheck s w = 0 → uniCheck t w = 0

theorem Moved.refl (s : State) : Moved s s := ⟨rfl, rfl, rfl, rfl, rfl, fun _ => rfl, fun _ h => h⟩

theorem Moved.trans {s t u : State} (h : Moved s t) (k : Moved t u) : Moved s u :=
  ⟨k.hints.trans h.hints, k.promos.trans h.promos, k.lost.trans h.lost, k.outCh.trans h.outCh, k.outSlice.trans h.outSlice,
    fun m => (k.pinq m).trans (h.pinq m), fun w hw => k.good w (h.good w hw)⟩

theorem Moved.foldl {α : Type} {f : State → α → State} (hf : ∀ s x, Moved s (f s x)) (l : List α) (s : State) : Moved s (l.foldl f s) := by
  induction l generalizing s with
  | nil => exact Moved.refl s
  | cons x l ih => exact (hf s x).trans (ih _)

theorem Moved.foldl_fst {α β : Type} {f : State × β → α → State × β} (hf : ∀ p x, Moved p.1 (f p x).1) (l : List α) (p : State × β) :
    Moved p.1 (l.foldl f p).1 := by
  induction l generalizing p with
  | nil => exact Moved.refl p.1
  | cons x l ih => exact (hf p x).trans (ih _)

theorem Moved.of {s t : State} (h1 : t.tiers = s.tiers) (h2 : t.mports = s.mports) (h3 : t.uniBad = s.uniBad) : Moved s t := by
  refine ⟨by rw [h1], by rw [h1], by rw [h1], by rw [h1], by rw [h1], fun m => by unfold State.mport; rw [h2], fun w hw => ?_⟩
  unfold uniCheck at hw ⊢
  rwa [h3]

theorem post_moved (s : State) (u c k p : Nat) : Moved s (post s u c k p) := Moved.of rfl rfl rfl

theorem Moved.modMport {s : State} {m : Nat} {f : MPort → MPort} (h : ∀ x, (f x).pinq = x.pinq) : Moved s (s.modMport m f) :=
  ⟨rfl, rfl, rfl, rfl, rfl, fun k => by
    rw [State.modMport_get_mport]
    split
    · next e => subst e; exact h _
    · rfl, fun _ h => h⟩

theorem noteCorrected_moved (s : State) (c a : Nat) : Moved s (noteCorrected s c a) := by
  unfold noteCorrected
  refine Moved.trans ?_ (post_moved ..)
  exact Moved.modMport (fun _ => rfl)

theorem noteUncorr_moved (s : State) (c a : Nat) : Moved s (noteUncorr s c a) := by
  unfold noteUncorr
  refine Moved.trans ?_ (post_moved ..)
  exact Moved.modMport (fun _ => rfl)

/-- From `s` to `t` nothing of the tiers has changed but the frames that retire, and of the rest only Tallies. -/
structure OnlyRetiring (s t : State) : Prop where
  tiers : ∃ l, t.tiers = { s.tiers with retiring := l }
  mports : t.mports = s.mports
  uniBad : t.uniBad = s.uniBad

theorem OnlyRetiring.refl (s : State) : OnlyRetiring s s := ⟨⟨s.tiers.retiring, rfl⟩, rfl, rfl⟩

theorem OnlyRetiring.trans {s t u : State} (h : OnlyRetiring s t) (k : OnlyRetiring t u) : OnlyRetiring s u := by
  obtain ⟨l, hl⟩ := h.tiers
  obtain ⟨r, hr⟩ := k.tiers
  exact ⟨⟨r, by rw [hr, hl]⟩, k.mports.trans h.mports, k.uniBad.trans h.uniBad⟩

theorem OnlyRetiring.foldl {α : Type} {f : State → α → State} (hf : ∀ s x, OnlyRetiring s (f s x)) (l : List α) (s : State) : OnlyRetiring s (l.foldl f s) := by
  induction l generalizing s with
  | nil => exact OnlyRetiring.refl s
  | cons x l ih => exact (hf s x).trans (ih _)

theorem noteWaiting_only (s : State) (k : Nat) : OnlyRetiring s (noteWaiting s k) := by
  unfold noteWaiting
  split
  · exact OnlyRetiring.refl s
  · refine OnlyRetiring.foldl (fun u r => ?_) _ s
    split
    · exact ⟨⟨_, rfl⟩, rfl, rfl⟩
    · exact OnlyRetiring.refl u

theorem startRetire_only (s : State) (k : Nat) (f : TFrame) : OnlyRetiring s (startRetire s k f) := by
  unfold startRetire
  split
  · exact OnlyRetiring.refl s
  · refine OnlyRetiring.trans ?_ (noteWaiting_only ..)
    exact ⟨⟨_, rfl⟩, rfl, rfl⟩

theorem OnlyRetiring.moved {s t : State} (h : OnlyRetiring s t) : Moved s t := by
  obtain ⟨l, h1⟩ := h.tiers
  refine ⟨by rw [h1], by rw [h1], by rw [h1], by rw [h1], by rw [h1], fun m => by unfold State.mport; rw [h.mports], fun w hw => ?_⟩
  unfold uniCheck at hw ⊢
  rwa [h.uniBad]

theorem countWriteBack_moved (s : State) (a : Nat) : Moved s (countWriteBack s a) ∧ (countWriteBack s a).tiers = s.tiers := by
  unfold countWriteBack
  split
  · exact ⟨Moved.modMport (fun _ => rfl), rfl⟩
  · exact ⟨Moved.refl s, rfl⟩

theorem readErrors_moved (s : State) (b : By) (l : List (Nat × BitVec 2)) : Moved s (readErrors s b l) := by
  unfold readErrors
  refine Moved.foldl (fun s x => ?_) l s
  dsimp only
  split
  · refine Moved.trans (Moved.trans ?_ (noteCorrected_moved ..)) (countWriteBack_moved ..).1
    refine ⟨rfl, rfl, rfl, rfl, rfl, fun _ => rfl, fun w hw => ?_⟩
    unfold uniCheck at hw ⊢
    dsimp only
    rw [tget_tset]
    split
    · rfl
    · exact hw
  · split
    · exact Moved.trans (noteUncorr_moved ..) (startRetire_only ..).moved
    · exact noteUncorr_moved ..

/-- Reading words with errors changes nothing of the tiers but the frames that retire. -/
theorem readErrors_tiers (s : State) (b : By) (l : List (Nat × BitVec 2)) : ∃ r, (readErrors s b l).tiers = { s.tiers with retiring := r } := by
  unfold readErrors
  induction l generalizing s with
  | nil => exact ⟨s.tiers.retiring, rfl⟩
  | cons x l ih =>
    rw [List.foldl_cons]
    obtain ⟨r, hr⟩ := ih (if x.2 = 1 then countWriteBack (noteCorrected { s with uniBad := tset d0 s.uniBad x.1 0 } b.ctx (x.1 * 8)) (x.1 * 8)
      else if b.cmd then startRetire (noteUncorr s b.ctx (x.1 * 8)) (classOf s (x.1 * 8 / 4096)) (frameOf s (x.1 * 8 / 4096)) else noteUncorr s b.ctx (x.1 * 8))
    refine ⟨r, hr.trans ?_⟩
    split
    · rw [(countWriteBack_moved ..).2]
      rfl
    · split
      · obtain ⟨q, h1⟩ := (startRetire_only (noteUncorr s b.ctx (x.1 * 8)) (classOf s (x.1 * 8 / 4096)) (frameOf s (x.1 * 8 / 4096))).tiers
        rw [h1]
        rfl
      · rfl

theorem trimFilter_moved (s : State) (m : Nat) : Moved s (trimFilter s m) := by
  unfold trimFilter
  split
  · exact Moved.refl s
  · exact Moved.modMport (fun _ => rfl)

theorem trimFilter_tiers (s : State) (m : Nat) : (trimFilter s m).tiers = s.tiers := by
  unfold trimFilter
  split <;> rfl

theorem countMoveBytes_moved (s : State) (m : Nat) (a b : TFrame) : Moved s (countMoveBytes s m a b) := by
  unfold countMoveBytes
  exact Moved.modMport (fun _ => rfl)

theorem setFrame_moved (s : State) (t : Nat) (f : TFrame) : Moved s (setFrame s t f) := ⟨rfl, rfl, rfl, rfl, rfl, fun _ => rfl, fun _ h => h⟩

theorem finishMove_moved (s : State) (mv : Move) : Moved s (finishMove s mv) := by
  unfold finishMove
  refine Moved.trans ?_ (trimFilter_moved ..)
  refine Moved.trans (Moved.trans (Moved.trans (Moved.trans ?_ (Moved.foldl (fun s x => readErrors_moved s {} _) mv.places _))
    (Moved.foldl (fun s x => countMoveBytes_moved ..) mv.places _)) (Moved.foldl (fun s x => setFrame_moved ..) mv.places _)) (Moved.modMport (fun _ => rfl))
  exact ⟨rfl, rfl, rfl, rfl, rfl, fun _ => rfl, fun _ h => h⟩

theorem endMove_moved (s : State) (ch : Nat) : Moved s (endMove s ch) := by
  unfold endMove
  split
  · exact finishMove_moved ..
  · exact Moved.refl s

/-- The victim search changes nothing but use bits and the hand. -/
theorem searchFrom_state {k d : Nat} : ∀ (n : Nat) (s : State) (pos : Nat) {x p : Nat} {s' : State}, searchFrom s k d n pos = some (x, p, s') →
    ∃ u h, s' = { s with tiers := { s.tiers with use := u, hands := h } } := by
  intro n
  induction n with
  | zero => intro s pos x p s' h; cases h
  | succ n ih =>
    intro s pos x p s' h
    unfold searchFrom at h
    dsimp only at h
    split at h
    · exact ih _ _ h
    · split at h
      · exact ih _ _ h
      · split at h
        · obtain ⟨u, q, e⟩ := ih _ _ h
          exact ⟨u, q, e⟩
        · cases h
          exact ⟨s.tiers.use, _, rfl⟩

theorem beginMove_moved (s : State) (k y x : Nat) : Moved s (beginMove s k y x) := ⟨rfl, rfl, rfl, rfl, rfl, fun _ => rfl, fun _ h => h⟩

theorem countNoVictim_moved (s : State) (k : Nat) : Moved s (countNoVictim s k) := by
  unfold countNoVictim
  exact Moved.modMport (fun _ => rfl)

theorem countIgnored_moved (s : State) (t : Nat) : Moved s (countIgnored s t) := by
  unfold countIgnored
  exact Moved.modMport (fun _ => rfl)

theorem startMove_moved (s : State) (y d : Nat) : Moved s (startMove s y d) := by
  unfold startMove
  dsimp only
  split
  · next h =>
    obtain ⟨u, q, e⟩ := searchFrom_state _ _ _ h
    refine Moved.trans ?_ (beginMove_moved ..)
    subst e
    exact ⟨rfl, rfl, rfl, rfl, rfl, fun _ => rfl, fun _ h => h⟩
  · refine Moved.trans ?_ (countNoVictim_moved ..)
    exact ⟨rfl, rfl, rfl, rfl, rfl, fun _ => rfl, fun _ h => h⟩

theorem moveNow_moved (s : State) (y d : Nat) : Moved s (moveNow s y d).1 := by
  unfold moveNow
  exact ((endMove_moved ..).trans (startMove_moved ..)).trans (endMove_moved ..)

theorem moveOutNow_moved (s : State) (x : Nat) : Moved s (moveOutNow s x).1 := by
  unfold moveOutNow
  dsimp only
  split
  · exact ((endMove_moved ..).trans (beginMove_moved ..)).trans (endMove_moved ..)
  · exact (endMove_moved ..).trans (countNoVictim_moved ..)

/-- One tile of a hint moves at most once. -/
theorem moveInTile_moved (d : Nat) (p : State × Nat) (t : Nat) : Moved p.1 (moveInTile d p t).1 ∧ (moveInTile d p t).2 ≤ p.2 + 1 := by
  obtain ⟨s, n⟩ := p
  unfold moveInTile
  dsimp only
  split
  · exact ⟨countIgnored_moved .., Nat.le_succ n⟩
  · have key : ∀ b : Bool, Moved s (if b = true then (s, n) else ((moveNow s t d).1, if (moveNow s t d).2 = true then n + 1 else n)).1 ∧
        (if b = true then (s, n) else ((moveNow s t d).1, if (moveNow s t d).2 = true then n + 1 else n)).2 ≤ n + 1 := by
      intro b
      cases b
      · refine ⟨moveNow_moved .., ?_⟩
        show (if (moveNow s t d).2 = true then n + 1 else n) ≤ n + 1
        split
        · exact Nat.le_refl _
        · exact Nat.le_succ n
      · exact ⟨Moved.refl s, Nat.le_succ n⟩
    exact key _

theorem moveOutTile_moved (p : State × Nat) (t : Nat) : Moved p.1 (moveOutTile p t).1 ∧ (moveOutTile p t).2 ≤ p.2 + 1 := by
  obtain ⟨s, n⟩ := p
  unfold moveOutTile
  dsimp only
  split
  · exact ⟨countIgnored_moved .., Nat.le_succ n⟩
  · split
    · exact ⟨Moved.refl s, Nat.le_succ n⟩
    · split
      · exact ⟨countIgnored_moved .., Nat.le_succ n⟩
      · refine ⟨moveOutNow_moved .., ?_⟩
        dsimp only
        split
        · exact Nat.le_refl _
        · exact Nat.le_succ n

/-- All the tiles of a hint: the count grows by at most one each. -/
theorem hint_moved {f : State × Nat → Nat → State × Nat} (hf : ∀ p t, Moved p.1 (f p t).1 ∧ (f p t).2 ≤ p.2 + 1) (l : List Nat) (p : State × Nat) :
    Moved p.1 (l.foldl f p).1 ∧ (l.foldl f p).2 ≤ p.2 + l.length := by
  induction l generalizing p with
  | nil => exact ⟨Moved.refl p.1, Nat.le_refl _⟩
  | cons x l ih =>
    obtain ⟨h1, h2⟩ := hf p x
    obtain ⟨k1, k2⟩ := ih (f p x)
    refine ⟨h1.trans k1, ?_⟩
    simp only [List.foldl_cons, List.length_cons]
    omega

/-! ### Where a tile's frame is recorded -/

theorem find_filter_ne (l : List (Nat × TFrame)) (t u : Nat) (h : u ≠ t) :
    (l.filter (fun x => x.1 != t)).find? (fun x => x.1 == u) = l.find? (fun x => x.1 == u) := by
  rw [List.find?_filter]
  congr 1
  funext x
  by_cases hx : x.1 = u
  · simp [hx, h]
  · simp [hx]

/-- A tile's frame is what was recorded for it last; every other tile keeps its own. -/
theorem frameOf_setFrame (s : State) (t u : Nat) (f : TFrame) : frameOf (setFrame s t f) u = if u = t then f else frameOf s u := by
  have hh : homeFrame (setFrame s t f) u = homeFrame s u := rfl
  unfold frameOf
  rw [hh]
  unfold setFrame
  dsimp only
  have hself : ∀ r : List (Nat × TFrame), (r.filter (fun x => x.1 != t)).find? (fun x => x.1 == t) = none := by
    intro r
    rw [List.find?_eq_none]
    intro x hx
    have := (List.mem_filter.mp hx).2
    simpa using this
  by_cases hf : f = homeFrame s t
  · rw [if_pos hf]
    by_cases hu : u = t
    · subst hu
      rw [if_pos rfl, hself, hf]
    · rw [if_neg hu, find_filter_ne _ _ _ hu]
  · rw [if_neg hf]
    by_cases hu : u = t
    · subst hu
      have : ((s.tiers.resid.filter (fun x => x.1 != u)).filter (fun x => decide (x.1 < u))).find? (fun x => x.1 == u) = none := by
        rw [List.find?_eq_none]
        intro x hx
        have := (List.mem_filter.mp (List.mem_filter.mp hx).1).2
        simpa using this
      rw [if_pos rfl, List.find?_append, List.find?_append, this]
      simp
    · rw [if_neg hu]
      have hsplit : ∀ r : List (Nat × TFrame), (∀ x ∈ r, x.1 ≠ t) →
          (r.filter (fun x => decide (x.1 < t)) ++ [(t, f)] ++ r.filter (fun x => decide (t < x.1))).find? (fun x => x.1 == u) = r.find? (fun x => x.1 == u) := by
        intro r hr
        rw [List.find?_append, List.find?_append]
        have h0 : [(t, f)].find? (fun x => x.1 == u) = none := by simp [Ne.symm hu]
        rw [h0, List.find?_filter, List.find?_filter]
        by_cases hlt : u < t
        · have h1 : (fun x : Nat × TFrame => decide (decide (x.1 < t) = true ∧ (x.1 == u) = true)) = (fun x => x.1 == u) := by
            funext x
            by_cases hx : x.1 = u
            · simp [hx, hlt]
            · simp [hx]
          have h2 : r.find? (fun x => decide (decide (t < x.1) = true ∧ (x.1 == u) = true)) = none := by
            rw [List.find?_eq_none]
            intro x hx
            simp only [decide_eq_true_eq, beq_iff_eq, not_and]
            intro h3 h4
            omega
          rw [h1, h2]
          simp
        · have h1 : (fun x : Nat × TFrame => decide (decide (t < x.1) = true ∧ (x.1 == u) = true)) = (fun x => x.1 == u) := by
            funext x
            by_cases hx : x.1 = u
            · simp [hx, show t < u by omega]
            · simp [hx]
          have h2 : r.find? (fun x => decide (decide (x.1 < t) = true ∧ (x.1 == u) = true)) = none := by
            rw [List.find?_eq_none]
            intro x hx
            simp only [decide_eq_true_eq, beq_iff_eq, not_and]
            intro h3 h4
            omega
          rw [h1, h2]
          simp
      rw [hsplit _ (fun x hx => by have := (List.mem_filter.mp hx).2; simpa using this), find_filter_ne _ _ _ hu]

/-- Every tile of a move, each named once, lies in the frame the move gives it. -/
theorem frameOf_places (l : List (Nat × TFrame)) (hn : (l.map (·.1)).Nodup) (s : State) :
    (∀ p ∈ l, frameOf (l.foldl (fun s p => setFrame s p.1 p.2) s) p.1 = p.2) ∧
      ∀ u, u ∉ l.map (·.1) → frameOf (l.foldl (fun s p => setFrame s p.1 p.2) s) u = frameOf s u := by
  induction l generalizing s with
  | nil => exact ⟨fun p hp => absurd hp (by simp), fun _ _ => rfl⟩
  | cons x l ih =>
    rw [List.map_cons, List.nodup_cons] at hn
    obtain ⟨h1, h2⟩ := ih hn.2 (setFrame s x.1 x.2)
    refine ⟨fun p hp => ?_, fun u hu => ?_⟩
    · rcases List.mem_cons.mp hp with rfl | hp
      · rw [List.foldl_cons, h2 _ hn.1, frameOf_setFrame, if_pos rfl]
      · exact h1 p hp
    · rw [List.map_cons, List.mem_cons, not_or] at hu
      rw [List.foldl_cons, h2 u hu.2, frameOf_setFrame, if_neg hu.1]

theorem trimFilter_frameOf (s : State) (m t : Nat) : frameOf (trimFilter s m) t = frameOf s t := by
  unfold trimFilter
  split <;> rfl

/-- A move that ends has recorded the new frame of every one of its tiles. -/
theorem finishMove_frames (s : State) (mv : Move) (hn : (mv.places.map (·.1)).Nodup) : ∀ p ∈ mv.places, frameOf (finishMove s mv) p.1 = p.2 := by
  intro p hp
  unfold finishMove
  dsimp only
  rw [trimFilter_frameOf]
  exact (frameOf_places mv.places hn _).1 p hp

/-- The moves in progress once one has ended: all the others. -/
theorem finishMove_moves (s : State) (mv : Move) : (finishMove s mv).tiers.moves = s.tiers.moves.erase mv := by
  have fold : ∀ {α : Type} (f : State → α → State), (∀ s x, (f s x).tiers.moves = s.tiers.moves) → ∀ (l : List α) s, (l.foldl f s).tiers.moves = s.tiers.moves := by
    intro α f hf l
    induction l with
    | nil => exact fun _ => rfl
    | cons x l ih => exact fun s => (ih _).trans (hf s x)
  unfold finishMove
  dsimp only
  rw [trimFilter_tiers]
  show (List.foldl (fun s p => setFrame s p.1 p.2) _ mv.places).tiers.moves = _
  rw [fold (fun s (p : Nat × TFrame) => setFrame s p.1 p.2) (fun _ _ => rfl), fold (fun s (p : Nat × TFrame) => countMoveBytes s _ (frameOf s p.1) p.2) (fun _ _ => rfl),
    fold (fun s (p : Nat × TFrame) => moveErrors s p.1) (fun s x => by
      obtain ⟨r, h⟩ := readErrors_tiers s {} (badWords s.uniBad (x.1 * 4096) 4096)
      unfold moveErrors
      rw [h])]

end Sys2Proof.Machine
end

