-- ==== Sys2Proof/Laws/Runs.lean ====
section
/-! SUPPORT. What an engine's command leaves of its core when the scratchpad has no check-code error: its writes, and its own entry among
the running commands (R58, R74, R82, R83). -/

namespace Sys2Proof.Machine

open Sys2Proof

/-! ### Writes of one core's scratchpad -/

/-- What changes of the cores is in core `n`, and its scratchpad stands. -/
structure OnCore (n : Nat) (s t : State) : Prop where
  scratch : (t.core n).scratch = (s.core n).scratch
  others : ∀ m, m ≠ n → t.core m = s.core m

theorem OnCore.refl (n : Nat) (s : State) : OnCore n s s := ⟨rfl, fun _ _ => rfl⟩

theorem OnCore.trans {n : Nat} {s t u : State} (h : OnCore n s t) (g : OnCore n t u) : OnCore n s u :=
  ⟨g.scratch.trans h.scratch, fun m hm => (g.others m hm).trans (h.others m hm)⟩

theorem OnCore.foldl {n : Nat} {α : Type} {f : State → α → State} (hf : ∀ s x, OnCore n s (f s x)) (l : List α) (s : State) : OnCore n s (l.foldl f s) := by
  induction l generalizing s with
  | nil => exact OnCore.refl n s
  | cons x l ih => exact (hf s x).trans (ih _)

theorem OnCore.of {n : Nat} {s t : State} (h : t.cores = s.cores) : OnCore n s t := ⟨by unfold State.core; rw [h], fun m _ => by unfold State.core; rw [h]⟩

theorem OnCore.post {n : Nat} {s t : State} {a b c d : Nat} (h : OnCore n s t) : OnCore n s (post t a b c d) := h.trans (OnCore.of rfl)

theorem OnCore.modCore {n : Nat} {s : State} {f : Core → Core} (h : (f (s.core n)).scratch = (s.core n).scratch) : OnCore n s (s.modCore n f) :=
  ⟨by rw [State.modCore_get_core_self]; exact h, fun m hm => State.modCore_get_core_ne _ _ _ _ hm⟩

/-- A write of a core's scratchpad leaves its bytes at its address and no others, and every other core as it was. -/
theorem spWrite_core (s : State) (n c a : Nat) (bs : List Byte) :
    ((spWrite s n c a bs).core n).scratch = mwrite (s.core n).scratch a bs ∧ (∀ m, m ≠ n → (spWrite s n c a bs).core m = s.core m) := by
  unfold spWrite
  dsimp only
  have h := OnCore.foldl (n := n) (f := fun s x => if (partWords a bs.length).contains x.1 then
      (if x.2 = 1 then
        post (s.modCore n (fun c => { c with bad := tset d0 c.bad x.1 0, corrected := stick c.corrected 1, wback := c.wback.filter (· != x.1) })) n c 0x040 (x.1 * 8)
       else post (s.modCore n (fun c => { c with uncorr := true, errTbuf := false, errAddr := BitVec.ofNat 17 x.1 })) n c 0x041 (x.1 * 8))
    else s.modCore n (fun c => { c with bad := tset d0 c.bad x.1 0, wback := c.wback.filter (· != x.1) })) (fun s (x : Nat × BitVec 2) => by
      split
      · split
        · exact OnCore.post (OnCore.modCore rfl)
        · exact OnCore.post (OnCore.modCore rfl)
      · exact OnCore.modCore rfl) (badWords (s.core n).bad a bs.length) s
  refine ⟨?_, fun m hm => ?_⟩
  · rw [State.modCore_get_core_self]
    show mwrite _ a bs = _
    rw [h.scratch]
  · rw [State.modCore_get_core_ne _ _ _ _ hm, h.others m hm]

/-- With no word in error a write of the scratchpad is its bytes and nothing besides. -/
theorem spWrite_clean (s : State) (n c a : Nat) (bs : List Byte) (h : (s.core n).bad = []) :
    spWrite s n c a bs = s.modCore n (fun c => { c with scratch := mwrite c.scratch a bs }) := by
  unfold spWrite
  rw [h]
  rfl

/-- Bytes after writes in order. -/
def wroteAll (m : Mem) (ws : List Wr) : Mem := ws.foldl (fun m w => mwrite m w.addr w.bytes) m

/-- Writes of one core's scratchpad with no word in error. -/
theorem applyWrs_clean (c : By) (n : Nat) : ∀ (ws : List Wr) (s : State), (∀ w ∈ ws, w.scratch = some n) → (s.core n).bad = [] →
    Keeps [.cores] s (applyWrs c s ws) ∧ (applyWrs c s ws).core n = { s.core n with scratch := wroteAll (s.core n).scratch ws } ∧
      ∀ m, m ≠ n → (applyWrs c s ws).core m = s.core m := by
  intro ws
  induction ws with
  | nil => exact fun s _ _ => ⟨Keeps.refl _ _, rfl, fun _ _ => rfl⟩
  | cons w ws ih =>
    intro s hw hb
    have h0 : applyWr c s w = s.modCore n (fun c => { c with scratch := mwrite c.scratch w.addr w.bytes }) := by
      unfold applyWr
      rw [hw w (by simp)]
      exact spWrite_clean s n c.ctx w.addr w.bytes hb
    have hc : (applyWr c s w).core n = { s.core n with scratch := mwrite (s.core n).scratch w.addr w.bytes } := by
      rw [h0, State.modCore_get_core_self]
    obtain ⟨k1, k2, k3⟩ := ih (applyWr c s w) (fun x hx => hw x (List.mem_cons_of_mem _ hx)) (by rw [hc]; exact hb)
    refine ⟨?_, ?_, fun m hm => ?_⟩
    · refine Keeps.trans ?_ k1
      rw [h0]
      exact State.modCore_keeps _ _ _ (fun _ h => Memory.wf_mwrite _ _ _ h)
    · show (applyWrs c (applyWr c s w) ws).core n = _
      rw [k2, hc]
      rfl
    · show (applyWrs c (applyWr c s w) ws).core m = _
      rw [k3 m hm, h0, State.modCore_get_core_ne _ _ _ _ hm]

/-! ### Element writes gathered by blocks -/

theorem segments_scratch (sp : Option Nat) : ∀ (l : List Host.Cell), ∀ w ∈ segments sp l, w.scratch = sp := by
  intro l
  induction l with
  | nil => intro w hw; cases hw
  | cons x l ih =>
    obtain ⟨a, b⟩ := x
    intro w hw
    unfold segments at hw
    split at hw
    · next v vs e =>
      have hv := ih v (by rw [e]; simp)
      split at hw
      · rcases List.mem_cons.mp hw with rfl | hw
        · exact hv
        · exact ih w (by rw [e]; exact List.mem_cons_of_mem _ hw)
      · rcases List.mem_cons.mp hw with rfl | hw
        · rfl
        · exact ih w (by rw [e]; exact hw)
    · rcases List.mem_cons.mp hw with rfl | hw
      · rfl
      · cases hw

theorem gatherRuns_scratch (n : Nat) : ∀ (l : List Wr), (∀ w ∈ l, w.scratch = some n) → ∀ blk cells, (∀ w ∈ gatherRuns (some n) blk cells l, w.scratch = some n) := by
  intro l
  induction l with
  | nil => exact fun _ blk cells w hw => segments_scratch _ _ w hw
  | cons v l ih =>
    intro h blk cells w hw
    have hv := h v (by simp)
    have hl := fun x hx => h x (List.mem_cons_of_mem _ hx)
    unfold gatherRuns at hw
    rw [hv] at hw
    split at hw
    · exact ih hl _ _ w hw
    · rcases List.mem_append.mp hw with hw | hw
      · exact segments_scratch _ _ w hw
      · exact ih hl _ _ w hw

theorem splitBlock_scratch (w v : Wr) (h : v ∈ splitBlock w) : v.scratch = w.scratch := by
  unfold splitBlock at h
  dsimp only at h
  split at h
  · simp at h; rw [h]
  · simp at h; rcases h with rfl | rfl <;> rfl

/-- Gathering keeps writes in their core's scratchpad. -/
theorem coalesce_scratch (n : Nat) (l : List Wr) (h : ∀ w ∈ l, w.scratch = some n) : ∀ w ∈ coalesce l, w.scratch = some n := by
  have hs : ∀ w ∈ l.flatMap splitBlock, w.scratch = some n := by
    intro w hw
    obtain ⟨v, hv, hw⟩ := List.mem_flatMap.mp hw
    rw [splitBlock_scratch v w hw, h v hv]
  unfold coalesce
  cases hl : l.flatMap splitBlock with
  | nil => intro w hw; exact absurd hw (by simp [gatherRuns, segments])
  | cons v r =>
    rw [hl] at hs
    have hv := hs v (by simp)
    intro w hw
    unfold gatherRuns at hw
    rw [hv, if_neg (by rintro ⟨h, -⟩; cases h)] at hw
    simp only [segments, List.nil_append] at hw
    exact gatherRuns_scratch n r (fun x hx => hs x (List.mem_cons_of_mem _ hx)) _ _ w hw

/-! ### Gathered writes leave the same bytes -/

theorem mget_mset (m : Mem) (a x : Nat) (b : Byte) : mget (mset m a b) x = if x = a then b else mget m x := tget_tset zeroByte m a x b

/-- Cells written in order. -/
def wroteCells (m : Mem) (l : List Host.Cell) : Mem := l.foldl (fun m c => mset m c.1 c.2) m

theorem wroteCells_congr (x : Nat) : ∀ (l : List Host.Cell) (m k : Mem), mget m x = mget k x → mget (wroteCells m l) x = mget (wroteCells k l) x := by
  intro l
  induction l with
  | nil => exact fun _ _ h => h
  | cons c l ih =>
    intro m k h
    refine ih _ _ ?_
    rw [mget_mset, mget_mset, h]

theorem wroteCells_out (x : Nat) : ∀ (l : List Host.Cell) (m : Mem), (∀ c ∈ l, c.1 ≠ x) → mget (wroteCells m l) x = mget m x := by
  intro l
  induction l with
  | nil => exact fun _ _ => rfl
  | cons c l ih =>
    intro m h
    refine (ih _ (fun d hd => h d (List.mem_cons_of_mem _ hd))).trans ?_
    rw [mget_mset, if_neg (Ne.symm (h c (by simp)))]

theorem mwrite_congr (x : Nat) : ∀ (bs : List Byte) (a : Nat) (m k : Mem), mget m x = mget k x → mget (mwrite m a bs) x = mget (mwrite k a bs) x := by
  intro bs
  induction bs with
  | nil => exact fun _ _ _ h => h
  | cons b bs ih =>
    intro a m k h
    refine ih _ _ _ ?_
    rw [mget_mset, mget_mset, h]

theorem wroteAll_congr (x : Nat) : ∀ (l : List Wr) (m k : Mem), mget m x = mget k x → mget (wroteAll m l) x = mget (wroteAll k l) x := by
  intro l
  induction l with
  | nil => exact fun _ _ h => h
  | cons w l ih => exact fun m k h => ih _ _ (mwrite_congr x _ _ _ _ h)

theorem segments_wrote (sp : Option Nat) : ∀ (l : List Host.Cell) (m : Mem), wroteAll m (segments sp l) = wroteCells m l := by
  intro l
  induction l with
  | nil => exact fun _ => rfl
  | cons c l ih =>
    obtain ⟨a, b⟩ := c
    intro m
    unfold segments
    split
    · next w ws e =>
      have h := ih (mset m a b)
      rw [e] at h
      split
      · next ha =>
        show wroteAll (mwrite (mset m a b) (a + 1) w.bytes) ws = _
        rw [← ha]
        exact h
      · exact h
    · next e =>
      have h := ih (mset m a b)
      rw [e] at h
      exact h

/-- Cells in strictly rising order. -/
def Rising (l : List Host.Cell) : Prop := l.Pairwise (fun c d => c.1 < d.1)

theorem putByte_mem (a : Nat) (b : Byte) : ∀ (l : List Host.Cell), ∀ c ∈ putByte l a b, c = (a, b) ∨ c ∈ l := by
  intro l
  induction l with
  | nil => intro c hc; simp only [putByte, List.mem_singleton] at hc; exact Or.inl hc
  | cons d l ih =>
    obtain ⟨k, y⟩ := d
    intro c hc
    unfold putByte at hc
    split at hc
    · exact List.mem_cons.mp hc
    · split at hc
      · rcases List.mem_cons.mp hc with h | h
        · exact Or.inl h
        · exact Or.inr (List.mem_cons_of_mem _ h)
      · rcases List.mem_cons.mp hc with h | h
        · exact Or.inr (by rw [h]; simp)
        · exact (ih c h).imp id (List.mem_cons_of_mem _)

theorem putByte_rising (a : Nat) (b : Byte) : ∀ (l : List Host.Cell), Rising l → Rising (putByte l a b) := by
  intro l
  induction l with
  | nil => intro _; simp [putByte, Rising]
  | cons d l ih =>
    obtain ⟨k, y⟩ := d
    intro h
    obtain ⟨h1, h2⟩ := List.pairwise_cons.mp h
    unfold putByte
    split
    · next hk =>
      refine List.pairwise_cons.mpr ⟨fun c hc => ?_, h⟩
      rcases List.mem_cons.mp hc with rfl | hc
      · exact hk
      · exact Nat.lt_trans hk (h1 c hc)
    · split
      · next hk => subst hk; exact List.pairwise_cons.mpr ⟨h1, h2⟩
      · refine List.pairwise_cons.mpr ⟨fun c hc => ?_, ih h2⟩
        rcases putByte_mem a b l c hc with rfl | hc
        · show k < a; omega
        · exact h1 c hc

theorem putByte_wrote (x a : Nat) (b : Byte) : ∀ (l : List Host.Cell) (m : Mem), Rising l →
    mget (wroteCells m (putByte l a b)) x = mget (mset (wroteCells m l) a b) x := by
  intro l
  induction l with
  | nil => exact fun _ _ => rfl
  | cons d l ih =>
    obtain ⟨k, y⟩ := d
    intro m h
    obtain ⟨h1, h2⟩ := List.pairwise_cons.mp h
    have first : ∀ (r : List Host.Cell) (u v : Mem), (∀ c ∈ r, c.1 ≠ a) → (x ≠ a → mget u x = mget v x) →
        mget (wroteCells (mset u a b) r) x = mget (mset (wroteCells v r) a b) x := by
      intro r u v hr huv
      by_cases hx : x = a
      · subst hx
        rw [wroteCells_out _ _ _ hr, mget_mset, mget_mset, if_pos rfl, if_pos rfl]
      · rw [mget_mset _ a x, if_neg hx]
        exact wroteCells_congr _ _ _ _ (by rw [mget_mset, if_neg hx]; exact huv hx)
    unfold putByte
    split
    · next hk =>
      refine first ((k, y) :: l) m m (fun c hc => ?_) (fun _ => rfl)
      rcases List.mem_cons.mp hc with rfl | hc
      · exact Nat.ne_of_gt hk
      · have := h1 c hc; dsimp only at this; omega
    · split
      · next hk =>
        subst hk
        refine first l m (mset m a y) (fun c hc => Nat.ne_of_gt (h1 c hc)) (fun hx => ?_)
        rw [mget_mset, if_neg hx]
      · exact ih _ h2

theorem putBytes_from (a : Nat) : ∀ (bs : List Byte) (i : Nat) (l : List Host.Cell), Rising l →
    Rising ((bs.zipIdx i).foldl (fun l x => putByte l (a + x.2) x.1) l) ∧
    ∀ m x, mget (wroteCells m ((bs.zipIdx i).foldl (fun l x => putByte l (a + x.2) x.1) l)) x = mget (mwrite (wroteCells m l) (a + i) bs) x := by
  intro bs
  induction bs with
  | nil => exact fun i l h => ⟨h, fun _ _ => rfl⟩
  | cons b bs ih =>
    intro i l h
    rw [List.zipIdx_cons, List.foldl_cons]
    obtain ⟨h1, h2⟩ := ih (i + 1) (putByte l (a + i) b) (putByte_rising _ _ _ h)
    refine ⟨h1, fun m x => ?_⟩
    rw [h2]
    exact mwrite_congr _ _ _ _ _ (putByte_wrote x (a + i) b l m h)

theorem putBytes_wrote (l : List Host.Cell) (a : Nat) (bs : List Byte) (h : Rising l) :
    Rising (putBytes l a bs) ∧ ∀ m x, mget (wroteCells m (putBytes l a bs)) x = mget (mwrite (wroteCells m l) a bs) x := putBytes_from a bs 0 l h

theorem mwrite_append : ∀ (l k : List Byte) (a : Nat) (m : Mem), mwrite m a (l ++ k) = mwrite (mwrite m a l) (a + l.length) k := by
  intro l
  induction l with
  | nil => exact fun _ _ _ => rfl
  | cons b l ih =>
    intro k a m
    show mwrite (mset m a b) (a + 1) (l ++ k) = _
    rw [ih, List.length_cons, Nat.add_assoc a 1, Nat.add_comm 1]
    rfl

theorem splitBlock_wrote (m : Mem) (w : Wr) : wroteAll m (splitBlock w) = mwrite m w.addr w.bytes := by
  unfold splitBlock
  dsimp only
  split
  · rfl
  · next h =>
    have hl : (w.bytes.take (64 - w.addr % 64)).length = 64 - w.addr % 64 := by rw [List.length_take]; omega
    show mwrite (mwrite m w.addr (w.bytes.take (64 - w.addr % 64))) (w.addr + (64 - w.addr % 64)) (w.bytes.drop (64 - w.addr % 64)) = _
    conv => rhs; rw [← List.take_append_drop (64 - w.addr % 64) w.bytes, mwrite_append, hl]

theorem wroteAll_append (m : Mem) (l k : List Wr) : wroteAll m (l ++ k) = wroteAll (wroteAll m l) k := List.foldl_append ..

theorem gatherRuns_wrote (n x : Nat) : ∀ (l : List Wr), (∀ w ∈ l, w.scratch = some n) → ∀ blk cells m, Rising cells →
    mget (wroteAll m (gatherRuns (some n) blk cells l)) x = mget (wroteAll (wroteCells m cells) l) x := by
  intro l
  induction l with
  | nil => intro _ blk cells m _; unfold gatherRuns; rw [segments_wrote]; rfl
  | cons v l ih =>
    intro h blk cells m hr
    have hv := h v (by simp)
    have hl := fun y hy => h y (List.mem_cons_of_mem _ hy)
    unfold gatherRuns
    rw [hv]
    split
    · rw [ih hl _ _ _ (putBytes_wrote cells v.addr v.bytes hr).1]
      exact wroteAll_congr _ _ _ _ ((putBytes_wrote cells v.addr v.bytes hr).2 m x)
    · rw [wroteAll_append, ih hl _ _ _ (putBytes_wrote [] v.addr v.bytes List.Pairwise.nil).1, segments_wrote]
      exact wroteAll_congr _ _ _ _ ((putBytes_wrote [] v.addr v.bytes List.Pairwise.nil).2 _ x)

/-- Gathering element writes by blocks changes no byte of the result. -/
theorem coalesce_wrote (n x : Nat) (m : Mem) (l : List Wr) (h : ∀ w ∈ l, w.scratch = some n) : mget (wroteAll m (coalesce l)) x = mget (wroteAll m l) x := by
  have hs : ∀ w ∈ l.flatMap splitBlock, w.scratch = some n := by
    intro w hw
    obtain ⟨v, hv, hw⟩ := List.mem_flatMap.mp hw
    rw [splitBlock_scratch v w hw, h v hv]
  have hw : ∀ (l : List Wr) m, wroteAll m (l.flatMap splitBlock) = wroteAll m l := by
    intro l
    induction l with
    | nil => exact fun _ => rfl
    | cons v l ih => intro m; rw [List.flatMap_cons, wroteAll_append, splitBlock_wrote, ih]; rfl
  rw [← hw l m]
  unfold coalesce
  cases hl : l.flatMap splitBlock with
  | nil => rfl
  | cons v r =>
    rw [hl] at hs
    have hv := hs v (by simp)
    unfold gatherRuns
    rw [hv, if_neg (by rintro ⟨h, -⟩; cases h)]
    simp only [segments, List.nil_append]
    rw [gatherRuns_wrote n x r (fun y hy => hs y (List.mem_cons_of_mem _ hy)) _ _ _ (putBytes_wrote [] v.addr v.bytes List.Pairwise.nil).1]
    exact wroteAll_congr _ _ _ _ ((putBytes_wrote [] v.addr v.bytes List.Pairwise.nil).2 _ x)

/-! ### A running command's own entry -/

/-- No word of a core's tile buffers has an error. -/
def bufsGood (c : Core) : Prop := c.buf0.bad = [] ∧ c.buf1.bad = []

/-- From `s` to `t` core `n` alone has changed, and there neither its queues, nor its words in error, nor any running command but the one
that started as `st`. -/
structure CoreRan (n st : Nat) (s t : State) : Prop where
  keeps : Keeps [.cores] s t
  others : ∀ m, m ≠ n → t.core m = s.core m
  queues : (t.core n).queues = (s.core n).queues
  bad : (t.core n).bad = (s.core n).bad
  starts : (t.core n).running.map (·.start) = (s.core n).running.map (·.start)
  rest : ∀ x ∈ (s.core n).running, x.start ≠ st → x ∈ (t.core n).running
  bufs : bufsGood (s.core n) → bufsGood (t.core n)

theorem CoreRan.refl (n st : Nat) (s : State) : CoreRan n st s s := ⟨Keeps.refl _ _, fun _ _ => rfl, rfl, rfl, rfl, fun _ h _ => h, id⟩

theorem CoreRan.trans {n st : Nat} {s t u : State} (h : CoreRan n st s t) (g : CoreRan n st t u) : CoreRan n st s u :=
  ⟨h.keeps.trans g.keeps, fun m hm => (g.others m hm).trans (h.others m hm), g.queues.trans h.queues, g.bad.trans h.bad, g.starts.trans h.starts,
    fun x hx hs => g.rest x (h.rest x hx hs) hs, fun k => g.bufs (h.bufs k)⟩

theorem CoreRan.modCore {n st : Nat} {s : State} {f : Core → Core} (hw : ∀ c, Memory.wf c.scratch = true → Memory.wf (f c).scratch = true)
    (hq : (f (s.core n)).queues = (s.core n).queues) (hb : (f (s.core n)).bad = (s.core n).bad) (hr : (f (s.core n)).running = (s.core n).running)
    (hg : bufsGood (s.core n) → bufsGood (f (s.core n))) : CoreRan n st s (s.modCore n f) := by
  refine ⟨State.modCore_keeps _ _ _ hw, fun m hm => State.modCore_get_core_ne _ _ _ _ hm, ?_, ?_, ?_, fun x hx _ => ?_, fun h => ?_⟩
  · rw [State.modCore_get_core_self, hq]
  · rw [State.modCore_get_core_self, hb]
  · rw [State.modCore_get_core_self, hr]
  · rw [State.modCore_get_core_self, hr]; exact hx
  · rw [State.modCore_get_core_self]; exact hg h

theorem CoreRan.foldl {n st : Nat} {α : Type} {f : State → α → State} (hf : ∀ s x, CoreRan n st s (f s x)) (l : List α) (s : State) : CoreRan n st s (l.foldl f s) := by
  induction l generalizing s with
  | nil => exact CoreRan.refl ..
  | cons x l ih => exact (hf s x).trans (ih _)

/-- A running command's entry is replaced, and no other. -/
theorem putRun_ran (s : State) (n : Nat) (r : Running) : CoreRan n r.start s (putRun s n r) ∧
    (∀ x ∈ ((putRun s n r).core n).running, x.start = r.start → x = r) ∧ ((putRun s n r).core n).scratch = (s.core n).scratch := by
  unfold putRun
  refine ⟨⟨State.modCore_keeps _ _ _ (fun _ h => h), fun m hm => State.modCore_get_core_ne _ _ _ _ hm, ?_, ?_, ?_, fun x hx hs => ?_, fun h => ?_⟩, fun x hx hs => ?_, ?_⟩
  · rw [State.modCore_get_core_self]
  · rw [State.modCore_get_core_self]
  · rw [State.modCore_get_core_self]
    simp only [List.map_map]
    refine List.map_congr_left (fun x _ => ?_)
    dsimp only [Function.comp]
    split
    · next h => exact h.symm
    · rfl
  · rw [State.modCore_get_core_self]
    exact List.mem_map.mpr ⟨x, hx, by rw [if_neg hs]⟩
  · rw [State.modCore_get_core_self]; exact h
  · rw [State.modCore_get_core_self] at hx
    obtain ⟨y, _, e⟩ := List.mem_map.mp hx
    split at e
    · exact e.symm
    · next h => subst e; exact absurd hs h
  · rw [State.modCore_get_core_self]

theorem applyWrs_ran (c : By) (n st : Nat) (ws : List Wr) (s : State) (hw : ∀ w ∈ ws, w.scratch = some n) (hb : (s.core n).bad = []) : CoreRan n st s (applyWrs c s ws) := by
  obtain ⟨k1, k2, k3⟩ := applyWrs_clean c n ws s hw hb
  exact ⟨k1, k3, by rw [k2], by rw [k2], by rw [k2], fun x hx _ => by rw [k2]; exact hx, fun h => by rw [k2]; exact h⟩

/-- Reads of the scratchpad with no word in error have no side effect. -/
theorem rdsTouch_clean (c : By) (n : Nat) (s : State) (hb : (s.core n).bad = []) : ∀ (l : List Rd), (∀ r ∈ l, r.scratch = some n) →
    rdsTouch c s l = s ∧ rdsFault s l = none := by
  have hf : ∀ r : Rd, r.scratch = some n → r.fault s = none ∧ r.touch s c = s := by
    intro r hr
    unfold Rd.fault Rd.touch
    rw [hr]
    dsimp only
    unfold spFault spTouch
    rw [hb]
    exact ⟨rfl, rfl⟩
  intro l
  induction l with
  | nil => exact fun _ => ⟨rfl, rfl⟩
  | cons r l ih =>
    intro h
    obtain ⟨h1, h2⟩ := hf r (h r (by simp))
    obtain ⟨h3, h4⟩ := ih (fun x hx => h x (List.mem_cons_of_mem _ hx))
    refine ⟨?_, ?_⟩
    · unfold rdsTouch
      rw [h1, h2]
      exact h3
    · unfold rdsFault at h4 ⊢
      rw [List.findSome?_cons, h1]
      exact h4

theorem upToFault_of {s : State} {ws : List Wr} (h : ∀ w ∈ ws, w.fault s = none) : upToFault s ws = (ws, none) := by
  unfold upToFault
  congr 1
  · exact List.takeWhile_eq_self_iff.mpr (fun w hw => by simp [h w hw])
  · exact List.findSome?_eq_none_iff.mpr h

theorem upToFault_clean (n : Nat) (s : State) (ws : List Wr) (h : ∀ w ∈ ws, w.scratch = some n) : upToFault s ws = (ws, none) :=
  upToFault_of (fun w hw => by unfold Wr.fault; rw [h w hw])

/-- A counter of a core: nothing else of any core. -/
theorem coreCount_ran (s : State) (n o k st : Nat) : CoreRan n st s (coreCount s n o k) := by
  unfold coreCount
  split
  · exact CoreRan.refl ..
  · exact CoreRan.modCore (fun _ h => h) rfl rfl rfl id

theorem coreCount_scratch (s : State) (n o k : Nat) : ((coreCount s n o k).core n).scratch = (s.core n).scratch := by
  unfold coreCount
  split
  · rfl
  · rw [State.modCore_get_core_self]

/-- What a POP counts besides its writes. -/
theorem popCount_ran (s : State) (n st op k m : Nat) :
    CoreRan n st s (if op = 0x22 then coreCount s n k m else s) ∧ ((if op = 0x22 then coreCount s n k m else s).core n).scratch = (s.core n).scratch := by
  split
  · exact ⟨coreCount_ran .., coreCount_scratch ..⟩
  · exact ⟨CoreRan.refl .., rfl⟩

/-- The entry a command's plan leaves among the running commands, every write of it landed. -/
abbrev planEntry (r : Running) (p : Plan) : Running :=
  { r with done := true, status := worst (p.status ++ satStatus (r.sat + wrsSat p.wrs) (r.nan + wrsNan p.wrs)), count := BitVec.ofNat 32 p.count, detail := BitVec.ofNat 32 p.detail, sat := r.sat + wrsSat p.wrs, nan := r.nan + wrsNan p.wrs, after := p.after, hot := p.hot }

/-- A plan of which every write lands: its reads, its writes, what a POP counts, and its own entry done. -/
theorem runPlan_eq (s : State) (n : Nat) (r : Running) (p : Plan) (hc : p.cut = false) (hf : ∀ w ∈ p.wrs, w.fault (rdsTouch r.by s p.rds) = none) :
    runPlan s n r p = putRun (if r.rec'.op = 0x22 then coreCount (applyWrs r.by (rdsTouch r.by s p.rds) (coalesce p.wrs)) n 0x068 (wrsBytes p.wrs)
      else applyWrs r.by (rdsTouch r.by s p.rds) (coalesce p.wrs)) n (planEntry r p) := by
  unfold runPlan
  dsimp only
  rw [hc]
  simp only [Bool.false_eq_true, if_false]
  rw [upToFault_of hf]
  simp only [Option.map_none, Option.toList_none, List.append_nil, Option.isSome_none, Bool.false_eq_true, if_false]

/-- A plan within one core's scratchpad, no word of it in error. -/
theorem runPlan_clean (s : State) (n : Nat) (r : Running) (p : Plan) (hb : (s.core n).bad = []) (hr : ∀ x ∈ p.rds, x.scratch = some n)
    (hw : ∀ w ∈ p.wrs, w.scratch = some n) (hc : p.cut = false) :
    CoreRan n r.start s (runPlan s n r p) ∧ ((runPlan s n r p).core n).scratch = wroteAll (s.core n).scratch (coalesce p.wrs) ∧
      ∀ x ∈ ((runPlan s n r p).core n).running, x.start = r.start → x = planEntry r p := by
  have e := runPlan_eq s n r p hc (fun w h => by unfold Wr.fault; rw [hw w h])
  rw [(rdsTouch_clean r.by n s hb p.rds hr).1] at e
  rw [e]
  have k1 := applyWrs_ran r.by n r.start (coalesce p.wrs) s (coalesce_scratch n p.wrs hw) hb
  have k2 := applyWrs_clean r.by n (coalesce p.wrs) s (coalesce_scratch n p.wrs hw) hb
  obtain ⟨c1, c2⟩ := popCount_ran (applyWrs r.by s (coalesce p.wrs)) n r.start r.rec'.op 0x068 (wrsBytes p.wrs)
  obtain ⟨p1, p2, p3⟩ := putRun_ran _ n (planEntry r p)
  exact ⟨(k1.trans c1).trans p1, by rw [p3, c2, k2.2.1], p2⟩

theorem worst_sat (a b : Nat) : worst (satStatus a b) = stDone ∨ worst (satStatus a b) = stSaturated := by
  unfold satStatus
  split
  · exact Or.inl (by decide)
  · exact Or.inr (by decide)

/-! ### What runs and what waits in the queues stands -/

/-- No core's running commands nor queues change. -/
structure SameRun (s t : State) : Prop where
  run : ∀ k, (t.core k).running = (s.core k).running
  queues : ∀ k, (t.core k).queues = (s.core k).queues

theorem SameRun.refl (s : State) : SameRun s s := ⟨fun _ => rfl, fun _ => rfl⟩
theorem SameRun.trans {s t u : State} (h : SameRun s t) (g : SameRun t u) : SameRun s u :=
  ⟨fun k => (g.run k).trans (h.run k), fun k => (g.queues k).trans (h.queues k)⟩
theorem CoresStay.sameRun {s t : State} (h : CoresStay s t) : SameRun s t := ⟨fun k => (h.core k).running, fun k => (h.core k).queues⟩
theorem SameRun.modCore {s : State} {n : Nat} {f : Core → Core} (h1 : (f (s.core n)).running = (s.core n).running) (h2 : (f (s.core n)).queues = (s.core n).queues) :
    SameRun s (s.modCore n f) :=
  ⟨fun k => by rw [State.modCore_get_core]; split; (next h => subst h; exact h1); rfl, fun k => by rw [State.modCore_get_core]; split; (next h => subst h; exact h2); rfl⟩
theorem SameRun.foldl {α : Type} {f : State → α → State} (hf : ∀ s x, SameRun s (f s x)) (l : List α) (s : State) : SameRun s (l.foldl f s) := by
  induction l generalizing s with
  | nil => exact SameRun.refl s
  | cons x l ih => exact (hf s x).trans (ih _)

theorem SameRun.of {s t : State} (h : t.cores = s.cores) : SameRun s t := (CoresStay.of h).sameRun

theorem SameRun.post {s t : State} {a b c d : Nat} (h : SameRun s t) : SameRun s (post t a b c d) := h.trans (SameRun.of rfl)

theorem spWrite_run (s : State) (n c a : Nat) (bs : List Byte) : SameRun s (spWrite s n c a bs) := by
  unfold spWrite
  refine SameRun.trans (SameRun.foldl (fun s x => ?_) _ _) (SameRun.modCore rfl rfl)
  split
  · split
    · exact SameRun.post (SameRun.modCore rfl rfl)
    · exact SameRun.post (SameRun.modCore rfl rfl)
  · exact SameRun.modCore rfl rfl

theorem applyWrs_run (c : By) (s : State) (ws : List Wr) : SameRun s (applyWrs c s ws) := by
  refine SameRun.foldl (fun s w => ?_) _ _
  unfold applyWr
  split
  · exact spWrite_run ..
  · exact (devWrite_cores ..).sameRun

theorem enterRecovery_run (s : State) (n : Nat) : SameRun s (enterRecovery s n) := by
  unfold enterRecovery
  dsimp only
  split
  · exact SameRun.modCore rfl rfl
  · exact SameRun.post (SameRun.modCore rfl rfl)

theorem spTouch_run (s : State) (n c a k : Nat) : SameRun s (spTouch s n c a k) := by
  unfold spTouch
  dsimp only
  have h1 := SameRun.foldl (f := fun s (x : Nat × BitVec 2) => if (s.core n).wback.contains x.1 then s else
    post (s.modCore n (fun c => { c with corrected := stick c.corrected 1, wback := c.wback ++ [x.1] })) n c 0x040 (x.1 * 8)) (fun s x => by
      split
      · exact SameRun.refl s
      · exact SameRun.post (SameRun.modCore rfl rfl)) (List.filter (fun x => x.2 == 1) (badWords (s.core n).bad a k)) s
  split
  · refine h1.trans (SameRun.trans ?_ (enterRecovery_run ..))
    exact SameRun.post (SameRun.modCore rfl rfl)
  · exact h1

theorem Rd.touch_run (s : State) (c : By) (r : Rd) : SameRun s (r.touch s c) := by
  unfold Rd.touch
  split
  · exact spTouch_run ..
  · exact SameRun.of ((devTouch_keeps ..).only.2 .cores (by decide))

theorem rdsTouch_run (c : By) : ∀ (l : List Rd) (s : State), SameRun s (rdsTouch c s l) := by
  intro l
  induction l with
  | nil => exact SameRun.refl
  | cons r l ih =>
    intro s
    unfold rdsTouch
    split
    · exact Rd.touch_run ..
    · exact (Rd.touch_run ..).trans (ih _)

theorem enterRecovery_ne (s : State) (n m : Nat) (h : m ≠ n) : (enterRecovery s n).core m = s.core m := by
  unfold enterRecovery
  dsimp only
  split
  · exact State.modCore_get_core_ne _ _ _ _ h
  · exact (OnCore.post (OnCore.modCore rfl)).others m h

theorem spTouch_ne (s : State) (n c a k m : Nat) (h : m ≠ n) : (spTouch s n c a k).core m = s.core m := by
  unfold spTouch
  dsimp only
  have h1 := (OnCore.foldl (n := n) (f := fun s (x : Nat × BitVec 2) => if (s.core n).wback.contains x.1 then s else
    post (s.modCore n (fun c => { c with corrected := stick c.corrected 1, wback := c.wback ++ [x.1] })) n c 0x040 (x.1 * 8)) (fun s x => by
      split
      · exact OnCore.refl n s
      · exact OnCore.post (OnCore.modCore rfl)) (List.filter (fun x => x.2 == 1) (badWords (s.core n).bad a k)) s).others m h
  split
  · rw [enterRecovery_ne _ _ _ h]
    refine Eq.trans ?_ h1
    exact (OnCore.post (OnCore.modCore rfl)).others m h
  · exact h1

/-- Reads leave a core with no word in error as it was. -/
theorem rdsTouch_core (c : By) (n : Nat) : ∀ (l : List Rd) (s : State), (s.core n).bad = [] → (rdsTouch c s l).core n = s.core n := by
  have one : ∀ (r : Rd) (s : State), (s.core n).bad = [] → (r.touch s c).core n = s.core n := by
    intro r s hb
    unfold Rd.touch
    split
    · next m _ =>
      by_cases h : n = m
      · subst h
        unfold spTouch
        rw [hb]
        rfl
      · exact spTouch_ne _ _ _ _ _ _ h
    · exact (devTouch_keeps ..).core (by decide) n
  intro l
  induction l with
  | nil => exact fun _ _ => rfl
  | cons r l ih =>
    intro s hb
    unfold rdsTouch
    split
    · exact one r s hb
    · rw [ih _ (by rw [one r s hb]; exact hb), one r s hb]

theorem popCount_run (s : State) (n op k m : Nat) : SameRun s (if op = 0x22 then coreCount s n k m else s) := by
  split
  · unfold coreCount
    split
    · exact SameRun.refl s
    · exact SameRun.modCore rfl rfl
  · exact SameRun.refl s

/-- What a command's plan leaves of the running commands: its own entry, done, with what its completion will report. -/
theorem runPlan_run (s : State) (n : Nat) (r : Running) (p : Plan) (hc : p.cut = false) (hl : ∀ w ∈ p.wrs, ∀ t : State, w.fault t = none) :
    ((runPlan s n r p).core n).running.map (·.start) = (s.core n).running.map (·.start) ∧
      (∀ x ∈ ((runPlan s n r p).core n).running, x.start = r.start → x = planEntry r p) ∧
      ∀ m, m ≠ n → ((runPlan s n r p).core m).running = (s.core m).running := by
  rw [runPlan_eq s n r p hc (fun w hw => hl w hw _)]
  have k := ((rdsTouch_run r.by p.rds s).trans (applyWrs_run r.by (rdsTouch r.by s p.rds) (coalesce p.wrs))).trans
    (popCount_run (applyWrs r.by (rdsTouch r.by s p.rds) (coalesce p.wrs)) n r.rec'.op 0x068 (wrsBytes p.wrs))
  obtain ⟨p1, p2, -⟩ := putRun_ran _ n (planEntry r p)
  exact ⟨by rw [p1.starts, k.run], p2, fun m hm => by rw [p1.others m hm, k.run]⟩

end Sys2Proof.Machine
end

