-- ==== Sys2Proof/Laws/Ethernet.lean ====
section
/-! SUPPORT. What each operation of Machine/Ethernet.lean keeps. -/

namespace Sys2Proof.Machine

open Sys2Proof

theorem countDropped_keeps : ∀ s a1, Keeps [.oports] s (countDropped s a1) := by
  intro s a1
  unfold countDropped
  repeat' (first
    | (with_reducible apply Keeps.ite)
    | with_reducible exact Keeps.refl _ _
    | with_reducible assumption
    | (with_reducible apply Keeps.then (State.modOport_keeps ..) ?_ (by decide)))

theorem countFec_keeps : ∀ s a1 a2, Keeps [.oports] s (countFec s a1 a2) := by
  intro s a1 a2
  unfold countFec
  repeat' (first
    | (with_reducible apply Keeps.ite)
    | with_reducible exact Keeps.refl _ _
    | with_reducible assumption
    | (with_reducible apply Keeps.then (State.modOport_keeps ..) ?_ (by decide)))

theorem countFrame_keeps : ∀ s a1, Keeps [.oports] s (countFrame s a1) := by
  intro s a1
  unfold countFrame
  repeat' (first
    | (with_reducible apply Keeps.ite)
    | with_reducible exact Keeps.refl _ _
    | with_reducible assumption
    | (with_reducible apply Keeps.then (State.modOport_keeps ..) ?_ (by decide)))

theorem execArpRequest_keeps : ∀ a0 a1 a2 s, Gives [.oports] s (execArpRequest a0 a1 a2 s) := by
  intro a0 a1 a2 s
  unfold execArpRequest
  repeat' (first
    | (with_reducible apply Gives.ite)
    | (with_reducible apply Keeps.ite)
    | with_reducible exact Keeps.refl _ _
    | with_reducible assumption
    | (with_reducible apply Keeps.then (countFrame_keeps ..) ?_ (by decide))
    | (with_reducible apply Keeps.then (sendEth_keeps ..) ?_ (by decide))
    | (with_reducible apply Keeps.then (countDropped_keeps ..) ?_ (by decide))
    | (with_reducible apply Gives.next)
    | (with_reducible apply Keeps.foldl)
    | (with_reducible apply Keeps.foldl_snd)
    | (with_reducible refine Keeps.snd (by assumption) ?_)
    | (with_reducible refine Keeps.fst (by assumption) ?_)
    | intro _
    | dsimp only
    | split)

theorem execNeighbourSolicitation_keeps : ∀ a0 a1 a2 s, Gives [.oports] s (execNeighbourSolicitation a0 a1 a2 s) := by
  intro a0 a1 a2 s
  unfold execNeighbourSolicitation
  repeat' (first
    | (with_reducible apply Gives.ite)
    | (with_reducible apply Keeps.ite)
    | with_reducible exact Keeps.refl _ _
    | with_reducible assumption
    | (with_reducible apply Keeps.then (countFrame_keeps ..) ?_ (by decide))
    | (with_reducible apply Keeps.then (sendEth_keeps ..) ?_ (by decide))
    | (with_reducible apply Keeps.then (countDropped_keeps ..) ?_ (by decide))
    | (with_reducible apply Gives.next)
    | (with_reducible apply Keeps.foldl)
    | (with_reducible apply Keeps.foldl_snd)
    | (with_reducible refine Keeps.snd (by assumption) ?_)
    | (with_reducible refine Keeps.fst (by assumption) ?_)
    | intro _
    | dsimp only
    | split)

theorem execPause_keeps : ∀ a0 a1 a2 s, Gives [.uni, .uniBad, .host, .cores, .ctxs, .mports, .tiers, .oports, .hps, .tallies, .loads] s (execPause a0 a1 a2 s) := by
  intro a0 a1 a2 s
  unfold execPause
  repeat' (first
    | (with_reducible apply Gives.ite)
    | (with_reducible apply Keeps.ite)
    | with_reducible exact Keeps.refl _ _
    | with_reducible assumption
    | (with_reducible apply Keeps.then (countFrame_keeps ..) ?_ (by decide))
    | (with_reducible apply Keeps.then (runJobs_keeps ..) ?_ (by decide))
    | (with_reducible apply Keeps.then (State.modOport_keeps ..) ?_ (by decide))
    | (with_reducible apply Gives.next)
    | (with_reducible apply Keeps.foldl)
    | (with_reducible apply Keeps.foldl_snd)
    | (with_reducible refine Keeps.snd (by assumption) ?_)
    | (with_reducible refine Keeps.fst (by assumption) ?_)
    | intro _)

theorem rxArrive_keeps : ∀ s a1, Keeps [.oports] s (rxArrive s a1) := by
  intro s a1
  unfold rxArrive
  repeat' (first
    | (with_reducible apply Keeps.ite)
    | with_reducible exact Keeps.refl _ _
    | with_reducible assumption
    | (with_reducible apply Keeps.then (freeBelow_keeps ..) ?_ (by decide))
    | (with_reducible apply Keeps.then (State.modOport_keeps ..) ?_ (by decide))
    | (with_reducible apply Keeps.then (sendEth_keeps ..) ?_ (by decide))
    | (with_reducible apply Keeps.foldl)
    | (with_reducible apply Keeps.foldl_snd)
    | (with_reducible refine Keeps.snd (by assumption) ?_)
    | (with_reducible refine Keeps.fst (by assumption) ?_)
    | intro _)

theorem roceFrame_keeps : ∀ s a1 a2, Keeps [.oports] s (roceFrame s a1 a2) := by
  intro s a1 a2
  unfold roceFrame
  repeat' (first
    | (with_reducible apply Keeps.ite)
    | with_reducible exact Keeps.refl _ _
    | with_reducible assumption
    | (with_reducible apply Keeps.then (countFec_keeps ..) ?_ (by decide))
    | (with_reducible apply Keeps.then (countFrame_keeps ..) ?_ (by decide)))

theorem execReadResponse_keeps : ∀ a0 a1 s, Gives [.uni, .uniBad, .host, .cores, .ctxs, .mports, .tiers, .oports, .hps, .tallies, .loads] s (execReadResponse a0 a1 s) := by
  intro a0 a1 s
  unfold execReadResponse
  repeat' (first
    | (with_reducible apply Gives.ite)
    | (with_reducible apply Keeps.ite)
    | with_reducible exact Keeps.refl _ _
    | with_reducible assumption
    | (with_reducible apply Keeps.then (rxArrive_keeps ..) ?_ (by decide))
    | (with_reducible apply Keeps.then (roceFrame_keeps ..) ?_ (by decide))
    | (with_reducible apply Keeps.then (countDropped_keeps ..) ?_ (by decide))
    | (with_reducible apply Keeps.then (setQpRun_keeps ..) ?_ (by decide))
    | (with_reducible apply Keeps.then (devWrite_keeps ..) ?_ (by decide))
    | (with_reducible apply Keeps.then (runJobs_keeps ..) ?_ (by decide))
    | (with_reducible apply Keeps.then (tileArrives_keeps ..) ?_ (by decide))
    | (with_reducible apply Gives.next)
    | (with_reducible apply Keeps.foldl)
    | (with_reducible apply Keeps.foldl_snd)
    | (with_reducible refine Keeps.snd (by assumption) ?_)
    | (with_reducible refine Keeps.fst (by assumption) ?_)
    | intro _
    | dsimp only
    | split)

theorem qpError_keeps : ∀ s a1 a2, Keeps [.uni, .uniBad, .host, .cores, .ctxs, .mports, .tiers, .oports, .hps, .tallies, .loads] s (qpError s a1 a2) := by
  intro s a1 a2
  unfold qpError
  repeat' (first
    | (with_reducible apply Keeps.ite)
    | with_reducible exact Keeps.refl _ _
    | with_reducible assumption
    | (with_reducible apply Keeps.then (putQpField_keeps ..) ?_ (by decide))
    | (with_reducible apply Keeps.then (post_keeps ..) ?_ (by decide))
    | (with_reducible apply Keeps.then (endJobs_keeps ..) ?_ (by decide))
    | (with_reducible apply Keeps.then (setQpRun_keeps ..) ?_ (by decide)))

theorem qpRetry_keeps : ∀ s a1 a2 a3, Keeps [.uni, .uniBad, .host, .cores, .ctxs, .mports, .tiers, .oports, .hps, .tallies, .loads] s (qpRetry s a1 a2 a3) := by
  intro s a1 a2 a3
  unfold qpRetry
  repeat' (first
    | (with_reducible apply Keeps.ite)
    | with_reducible exact Keeps.refl _ _
    | with_reducible assumption
    | (with_reducible apply Keeps.then (qpError_keeps ..) ?_ (by decide))
    | (with_reducible apply Keeps.then (setQpRun_keeps ..) ?_ (by decide))
    | (with_reducible apply Keeps.then (resendFrom_keeps ..) ?_ (by decide))
    | (with_reducible apply Keeps.then (resendReads_keeps ..) ?_ (by decide))
    | (with_reducible apply Keeps.foldl)
    | (with_reducible apply Keeps.foldl_snd)
    | (with_reducible refine Keeps.snd (by assumption) ?_)
    | (with_reducible refine Keeps.fst (by assumption) ?_)
    | intro _
    | dsimp only
    | split)

theorem execAckOrNak_keeps : ∀ a0 a1 s, Gives [.uni, .uniBad, .host, .cores, .ctxs, .mports, .tiers, .oports, .hps, .tallies, .loads] s (execAckOrNak a0 a1 s) := by
  intro a0 a1 s
  unfold execAckOrNak
  repeat' (first
    | (with_reducible apply Gives.ite)
    | (with_reducible apply Keeps.ite)
    | with_reducible exact Keeps.refl _ _
    | with_reducible assumption
    | (with_reducible apply Keeps.then (roceFrame_keeps ..) ?_ (by decide))
    | (with_reducible apply Keeps.then (countDropped_keeps ..) ?_ (by decide))
    | (with_reducible apply Keeps.then (runJobs_keeps ..) ?_ (by decide))
    | (with_reducible apply Keeps.then (qpRetry_keeps ..) ?_ (by decide))
    | (with_reducible apply Keeps.then (qpError_keeps ..) ?_ (by decide))
    | (with_reducible apply Gives.next)
    | (with_reducible apply Keeps.foldl)
    | (with_reducible apply Keeps.foldl_snd)
    | (with_reducible refine Keeps.snd (by assumption) ?_)
    | (with_reducible refine Keeps.fst (by assumption) ?_)
    | intro _
    | dsimp only
    | split)

theorem execRequestPacket_keeps : ∀ a0 a1 s, Gives [.oports] s (execRequestPacket a0 a1 s) := by
  intro a0 a1 s
  unfold execRequestPacket
  repeat' (first
    | (with_reducible apply Gives.ite)
    | (with_reducible apply Keeps.ite)
    | with_reducible exact Keeps.refl _ _
    | with_reducible assumption
    | (with_reducible apply Keeps.then (roceFrame_keeps ..) ?_ (by decide))
    | (with_reducible apply Keeps.then (countDropped_keeps ..) ?_ (by decide))
    | (with_reducible apply Keeps.then (sendEth_keeps ..) ?_ (by decide))
    | (with_reducible apply Gives.next)
    | (with_reducible apply Keeps.foldl)
    | (with_reducible apply Keeps.foldl_snd)
    | (with_reducible refine Keeps.snd (by assumption) ?_)
    | (with_reducible refine Keeps.fst (by assumption) ?_)
    | intro _
    | dsimp only
    | split)

theorem execCnp_keeps : ∀ a0 s, Gives [.oports] s (execCnp a0 s) := by
  intro a0 s
  unfold execCnp
  repeat' (first
    | (with_reducible apply Gives.ite)
    | (with_reducible apply Keeps.ite)
    | with_reducible exact Keeps.refl _ _
    | with_reducible assumption
    | (with_reducible apply Keeps.then (State.modOport_keeps ..) ?_ (by decide))
    | (with_reducible apply Keeps.then (countFrame_keeps ..) ?_ (by decide))
    | (with_reducible apply Gives.next)
    | (with_reducible apply Keeps.foldl)
    | (with_reducible apply Keeps.foldl_snd)
    | (with_reducible refine Keeps.snd (by assumption) ?_)
    | (with_reducible refine Keeps.fst (by assumption) ?_)
    | intro _)

theorem execQpTimeout_keeps : ∀ a0 a1 s, Gives [.uni, .uniBad, .host, .cores, .ctxs, .mports, .tiers, .oports, .hps, .tallies, .loads] s (execQpTimeout a0 a1 s) := by
  intro a0 a1 s
  unfold execQpTimeout
  repeat' (first
    | (with_reducible apply Gives.ite)
    | (with_reducible apply Keeps.ite)
    | with_reducible exact Keeps.refl _ _
    | with_reducible assumption
    | (with_reducible apply Keeps.then (runJobs_keeps ..) ?_ (by decide))
    | (with_reducible apply Keeps.then (qpRetry_keeps ..) ?_ (by decide))
    | (with_reducible apply Gives.next)
    | (with_reducible apply Keeps.foldl)
    | (with_reducible apply Keeps.foldl_snd)
    | (with_reducible refine Keeps.snd (by assumption) ?_)
    | (with_reducible refine Keeps.fst (by assumption) ?_)
    | intro _)

theorem execDroppedFrame_keeps : ∀ a0 s, Gives [.oports] s (execDroppedFrame a0 s) := by
  intro a0 s
  unfold execDroppedFrame
  repeat' (first
    | (with_reducible apply Gives.ite)
    | (with_reducible apply Keeps.ite)
    | with_reducible exact Keeps.refl _ _
    | with_reducible assumption
    | (with_reducible apply Keeps.then (countDropped_keeps ..) ?_ (by decide))
    | (with_reducible apply Keeps.then (countFrame_keeps ..) ?_ (by decide))
    | (with_reducible apply Gives.next)
    | (with_reducible apply Keeps.foldl)
    | (with_reducible apply Keeps.foldl_snd)
    | (with_reducible refine Keeps.snd (by assumption) ?_)
    | (with_reducible refine Keeps.fst (by assumption) ?_)
    | intro _)

end Sys2Proof.Machine
end

