-- ==== Sys2Proof/Laws/Sync.lean ====
section
/-! SUPPORT. What each operation of Machine/Sync.lean keeps. -/

namespace Sys2Proof.Machine

open Sys2Proof

theorem syncArrive_keeps : ∀ s a1 a2 a3, Keeps [.uni, .uniBad, .cores, .ctxs, .mports, .tiers, .oports, .accesses, .paths, .folds, .tallies] s (syncArrive s a1 a2 a3) := by
  intro s a1 a2 a3
  unfold syncArrive
  repeat' (first
    | (with_reducible apply Keeps.ite)
    | with_reducible exact Keeps.refl _ _
    | with_reducible assumption
    | (with_reducible apply Keeps.then (foldDrop_keeps ..) ?_ (by decide))
    | (with_reducible apply Keeps.then (foldSettle_keeps ..) ?_ (by decide))
    | (with_reducible apply Keeps.then (State.modFold_keeps ..) ?_ (by decide))
    | (with_reducible apply Keeps.foldl)
    | (with_reducible apply Keeps.foldl_snd)
    | (with_reducible refine Keeps.snd (by assumption) ?_)
    | (with_reducible refine Keeps.fst (by assumption) ?_)
    | intro _)

theorem execSyncRepeat_keeps : ∀ a0 s, Gives [.oports, .accesses, .paths] s (execSyncRepeat a0 s) := by
  intro a0 s
  unfold execSyncRepeat
  repeat' (first
    | (with_reducible apply Gives.ite)
    | (with_reducible apply Keeps.ite)
    | with_reducible exact Keeps.refl _ _
    | with_reducible assumption
    | (with_reducible apply Keeps.then (sendSync_keeps ..) ?_ (by decide))
    | (with_reducible apply Gives.next)
    | (with_reducible apply Keeps.foldl)
    | (with_reducible apply Keeps.foldl_snd)
    | (with_reducible refine Keeps.snd (by assumption) ?_)
    | (with_reducible refine Keeps.fst (by assumption) ?_)
    | intro _
    | dsimp only
    | split)

theorem execFoldCfg_keeps : ∀ a0 a1 a2 s, Gives [.folds, .hps] s (execFoldCfg a0 a1 a2 s) := by
  intro a0 a1 a2 s
  unfold execFoldCfg
  repeat' (first
    | (with_reducible apply Gives.ite)
    | (with_reducible apply Keeps.ite)
    | with_reducible exact Keeps.refl _ _
    | with_reducible assumption
    | (with_reducible apply Keeps.gated ?_ (by decide))
    | (with_reducible apply Keeps.then (State.modFold_keeps ..) ?_ (by decide))
    | (with_reducible apply Gives.next)
    | (with_reducible apply Keeps.foldl)
    | (with_reducible apply Keeps.foldl_snd)
    | (with_reducible refine Keeps.snd (by assumption) ?_)
    | (with_reducible refine Keeps.fst (by assumption) ?_)
    | intro _)

theorem execFoldMask_keeps : ∀ a0 a1 a2 a3 s, Gives [.uni, .uniBad, .cores, .ctxs, .mports, .tiers, .oports, .accesses, .paths, .folds, .hps, .tallies] s (execFoldMask a0 a1 a2 a3 s) := by
  intro a0 a1 a2 a3 s
  unfold execFoldMask
  repeat' (first
    | (with_reducible apply Gives.ite)
    | (with_reducible apply Keeps.ite)
    | with_reducible exact Keeps.refl _ _
    | with_reducible assumption
    | (with_reducible apply Keeps.gated ?_ (by decide))
    | (with_reducible apply Keeps.then (State.modFold_keeps ..) ?_ (by decide))
    | (with_reducible apply Keeps.then (foldSettle_keeps ..) ?_ (by decide))
    | (with_reducible apply Gives.next)
    | (with_reducible apply Keeps.foldl)
    | (with_reducible apply Keeps.foldl_snd)
    | (with_reducible refine Keeps.snd (by assumption) ?_)
    | (with_reducible refine Keeps.fst (by assumption) ?_)
    | intro _)

end Sys2Proof.Machine
end

