-- ==== Sys2Proof/Laws/Fabric.lean ====
section
/-! SUPPORT. What each operation of Machine/Fabric.lean keeps. -/

namespace Sys2Proof.Machine

open Sys2Proof

theorem misroute_keeps : ∀ s a1 a2, Keeps [.oports, .tallies] s (misroute s a1 a2) := by
  intro s a1 a2
  unfold misroute
  repeat' (first
    | (with_reducible apply Keeps.ite)
    | with_reducible exact Keeps.refl _ _
    | with_reducible assumption
    | (with_reducible apply Keeps.then (State.modOport_keeps ..) ?_ (by decide))
    | (with_reducible apply Keeps.then (post_keeps ..) ?_ (by decide))
    | (with_reducible apply Keeps.foldl)
    | (with_reducible apply Keeps.foldl_snd)
    | (with_reducible refine Keeps.snd (by assumption) ?_)
    | (with_reducible refine Keeps.fst (by assumption) ?_)
    | intro _)

theorem forward_keeps : ∀ s a1 a2, Keeps [.oports, .accesses, .tallies] s (forward s a1 a2) := by
  intro s a1 a2
  unfold forward
  repeat' (first
    | (with_reducible apply Keeps.ite)
    | with_reducible exact Keeps.refl _ _
    | with_reducible assumption
    | (with_reducible apply Keeps.then (emit_keeps ..) ?_ (by decide))
    | (with_reducible apply Keeps.then (misroute_keeps ..) ?_ (by decide))
    | (with_reducible apply Keeps.foldl)
    | (with_reducible apply Keeps.foldl_snd)
    | (with_reducible refine Keeps.snd (by assumption) ?_)
    | (with_reducible refine Keeps.fst (by assumption) ?_)
    | intro _
    | dsimp only
    | split)

theorem passPacket_keeps : ∀ s a1 a2, Keeps [.oports, .accesses, .tallies] s (passPacket s a1 a2) := by
  intro s a1 a2
  unfold passPacket
  repeat' (first
    | (with_reducible apply Keeps.ite)
    | with_reducible exact Keeps.refl _ _
    | with_reducible assumption
    | (with_reducible apply Keeps.then (State.modOport_keeps ..) ?_ (by decide))
    | (with_reducible apply Keeps.then (forward_keeps ..) ?_ (by decide))
    | (with_reducible apply Keeps.foldl)
    | (with_reducible apply Keeps.foldl_snd)
    | (with_reducible refine Keeps.snd (by assumption) ?_)
    | (with_reducible refine Keeps.fst (by assumption) ?_)
    | intro _)

theorem releaseBridge_keeps : ∀ s a1, Keeps [.oports, .accesses, .tallies] s (releaseBridge s a1) := by
  intro s a1
  unfold releaseBridge
  repeat' (first
    | (with_reducible apply Keeps.ite)
    | with_reducible exact Keeps.refl _ _
    | with_reducible assumption
    | (with_reducible apply Keeps.then (State.modOport_keeps ..) ?_ (by decide))
    | (with_reducible apply Keeps.then (passPacket_keeps ..) ?_ (by decide))
    | (with_reducible apply Keeps.foldl)
    | (with_reducible apply Keeps.foldl_snd)
    | (with_reducible refine Keeps.snd (by assumption) ?_)
    | (with_reducible refine Keeps.fst (by assumption) ?_)
    | intro _)

theorem addInto_keeps : ∀ s a1 a2 a3 a4, Keeps [.uni, .uniBad, .host, .cores, .ctxs, .mports, .tiers, .hps, .tallies] s (addInto s a1 a2 a3 a4).1 := by
  intro s a1 a2 a3 a4
  unfold addInto
  exact Keeps.foldl_fst (Keeps.refl _ _) (fun _ _ h => h.step (devWrite_keeps ..) (by decide))

theorem linkDown_keeps : ∀ s a1 a2, Keeps [.cores, .ctxs, .oports, .accesses, .ces, .tallies] s (linkDown s a1 a2) := by
  intro s a1 a2
  unfold linkDown
  repeat' (first
    | (with_reducible apply Keeps.ite)
    | with_reducible exact Keeps.refl _ _
    | with_reducible assumption
    | (with_reducible apply Keeps.then (post_keeps ..) ?_ (by decide))
    | (with_reducible apply Keeps.then (State.modOport_keeps ..) ?_ (by decide))
    | (with_reducible apply Keeps.then (loseAccess_keeps ..) ?_ (by decide))
    | (with_reducible apply Keeps.foldl)
    | (with_reducible apply Keeps.foldl_snd)
    | (with_reducible refine Keeps.snd (by assumption) ?_)
    | (with_reducible refine Keeps.fst (by assumption) ?_)
    | intro _)

theorem light_keeps : ∀ s a1, Keeps [.oports] s (light s a1) := by
  intro s a1
  unfold light
  repeat' (first
    | (with_reducible apply Keeps.ite)
    | with_reducible exact Keeps.refl _ _
    | with_reducible assumption
    | (with_reducible apply Keeps.then (freeBelow_keeps ..) ?_ (by decide))
    | (with_reducible apply Keeps.then (State.modOport_keeps ..) ?_ (by decide)))

theorem startTraining_keeps : ∀ s a1, Keeps [.cores, .ctxs, .oports, .accesses, .ces, .tallies] s (startTraining s a1) := by
  intro s a1
  unfold startTraining
  repeat' (first
    | (with_reducible apply Keeps.ite)
    | with_reducible exact Keeps.refl _ _
    | with_reducible assumption
    | (with_reducible apply Keeps.then (linkDown_keeps ..) ?_ (by decide))
    | (with_reducible apply Keeps.then (light_keeps ..) ?_ (by decide))
    | (with_reducible apply Keeps.then (State.modOport_keeps ..) ?_ (by decide))
    | (with_reducible apply Keeps.foldl)
    | (with_reducible apply Keeps.foldl_snd)
    | (with_reducible refine Keeps.snd (by assumption) ?_)
    | (with_reducible refine Keeps.fst (by assumption) ?_)
    | intro _)

theorem settleLaser_keeps : ∀ s a1, Keeps [.lasers] s (settleLaser s a1) := by
  intro s a1
  unfold settleLaser
  repeat' (first
    | (with_reducible apply Keeps.ite)
    | with_reducible exact Keeps.refl _ _
    | with_reducible assumption
    | (with_reducible apply Keeps.then (State.modLaser_keeps ..) ?_ (by decide))
    | (with_reducible apply Keeps.foldl)
    | (with_reducible apply Keeps.foldl_snd)
    | (with_reducible refine Keeps.snd (by assumption) ?_)
    | (with_reducible refine Keeps.fst (by assumption) ?_)
    | intro _)

theorem trainAgain_keeps : ∀ s a1, Keeps [.cores, .ctxs, .oports, .accesses, .ces, .tallies] s (trainAgain s a1) := by
  intro s a1
  unfold trainAgain
  repeat' (first
    | (with_reducible apply Keeps.ite)
    | with_reducible exact Keeps.refl _ _
    | with_reducible assumption
    | (with_reducible apply Keeps.then (startTraining_keeps ..) ?_ (by decide))
    | (with_reducible apply Keeps.then (linkDown_keeps ..) ?_ (by decide))
    | (with_reducible apply Keeps.foldl)
    | (with_reducible apply Keeps.foldl_snd)
    | (with_reducible refine Keeps.snd (by assumption) ?_)
    | (with_reducible refine Keeps.fst (by assumption) ?_)
    | intro _)

theorem takeRetrain_keeps : ∀ s a1, Keeps [.uni, .uniBad, .host, .cores, .ctxs, .mports, .tiers, .oports, .accesses, .ces, .hps, .tallies, .hub2] s (takeRetrain s a1) := by
  intro s a1
  unfold takeRetrain
  repeat' (first
    | (with_reducible apply Keeps.ite)
    | with_reducible exact Keeps.refl _ _
    | with_reducible assumption
    | (with_reducible apply Keeps.then (settleColls_keeps ..) ?_ (by decide))
    | (with_reducible apply Keeps.then (trainAgain_keeps ..) ?_ (by decide))
    | (with_reducible apply Keeps.then (State.modOport_keeps ..) ?_ (by decide))
    | (with_reducible apply Keeps.foldl)
    | (with_reducible apply Keeps.foldl_snd)
    | (with_reducible refine Keeps.snd (by assumption) ?_)
    | (with_reducible refine Keeps.fst (by assumption) ?_)
    | intro _)

theorem comeUp_keeps : ∀ s a1, Keeps [.uni, .uniBad, .host, .cores, .ctxs, .mports, .tiers, .oports, .accesses, .ces, .hps, .tallies, .hub2] s (comeUp s a1) := by
  intro s a1
  unfold comeUp
  repeat' (first
    | (with_reducible apply Keeps.ite)
    | with_reducible exact Keeps.refl _ _
    | with_reducible assumption
    | (with_reducible apply Keeps.then (takeRetrain_keeps ..) ?_ (by decide))
    | (with_reducible apply Keeps.then (releaseHeld_keeps ..) ?_ (by decide))
    | (with_reducible apply Keeps.then (State.modOport_keeps ..) ?_ (by decide)))

theorem countReject_keeps : ∀ s a1 a2, Keeps [.oports, .tallies] s (countReject s a1 a2) := by
  intro s a1 a2
  unfold countReject
  repeat' (first
    | (with_reducible apply Keeps.ite)
    | with_reducible exact Keeps.refl _ _
    | with_reducible assumption
    | (with_reducible apply Keeps.then (post_keeps ..) ?_ (by decide))
    | (with_reducible apply Keeps.then (State.modOport_keeps ..) ?_ (by decide)))

theorem resend_keeps : ∀ s a1, Keeps [.cores, .ctxs, .oports, .accesses, .ces, .tallies] s (resend s a1) := by
  intro s a1
  unfold resend
  repeat' (first
    | (with_reducible apply Keeps.ite)
    | with_reducible exact Keeps.refl _ _
    | with_reducible assumption
    | (with_reducible apply Keeps.then (trainAgain_keeps ..) ?_ (by decide))
    | (with_reducible apply Keeps.then (freeBelow_keeps ..) ?_ (by decide))
    | (with_reducible apply Keeps.then (post_keeps ..) ?_ (by decide))
    | (with_reducible apply Keeps.then (State.modOport_keeps ..) ?_ (by decide))
    | (with_reducible apply Keeps.foldl)
    | (with_reducible apply Keeps.foldl_snd)
    | (with_reducible refine Keeps.snd (by assumption) ?_)
    | (with_reducible refine Keeps.fst (by assumption) ?_)
    | intro _)

theorem noteE2E_keeps : ∀ s a1, Keeps [.oports] s (noteE2E s a1) := by
  intro s a1
  unfold noteE2E
  repeat' (first
    | (with_reducible apply Keeps.ite)
    | with_reducible exact Keeps.refl _ _
    | with_reducible assumption
    | (with_reducible apply Keeps.then (State.modOport_keeps ..) ?_ (by decide)))

theorem takePacket_keeps : ∀ s a1 a2, Keeps [.oports, .accesses, .tallies] s (takePacket s a1 a2) := by
  intro s a1 a2
  unfold takePacket
  repeat' (first
    | (with_reducible apply Keeps.ite)
    | with_reducible exact Keeps.refl _ _
    | with_reducible assumption
    | (with_reducible apply Keeps.then (State.modOport_keeps ..) ?_ (by decide))
    | (with_reducible apply Keeps.then (noteE2E_keeps ..) ?_ (by decide))
    | (with_reducible apply Keeps.then (misroute_keeps ..) ?_ (by decide))
    | (with_reducible apply Keeps.then (forward_keeps ..) ?_ (by decide))
    | (with_reducible apply Keeps.foldl)
    | (with_reducible apply Keeps.foldl_snd)
    | (with_reducible refine Keeps.snd (by assumption) ?_)
    | (with_reducible refine Keeps.fst (by assumption) ?_)
    | intro _
    | dsimp only
    | split)

theorem execFrameReceive_keeps : ∀ a0 a1 s, Gives [.uni, .uniBad, .host, .cores, .ctxs, .mports, .tiers, .oports, .accesses, .ces, .hps, .tallies, .hub2] s (execFrameReceive a0 a1 s) := by
  intro a0 a1 s
  unfold execFrameReceive
  repeat' (first
    | (with_reducible apply Gives.ite)
    | (with_reducible apply Keeps.ite)
    | with_reducible exact Keeps.refl _ _
    | with_reducible assumption
    | (with_reducible apply Keeps.then (State.modOport_keeps ..) ?_ (by decide))
    | (with_reducible apply Keeps.then (resend_keeps ..) ?_ (by decide))
    | (with_reducible apply Keeps.then (releaseHeld_keeps ..) ?_ (by decide))
    | (with_reducible apply Keeps.then (settleColls_keeps ..) ?_ (by decide))
    | (with_reducible apply Keeps.then (takePacket_keeps ..) ?_ (by decide))
    | (with_reducible apply Gives.next)
    | (with_reducible apply Keeps.foldl)
    | (with_reducible apply Keeps.foldl_snd)
    | (with_reducible refine Keeps.snd (by assumption) ?_)
    | (with_reducible refine Keeps.fst (by assumption) ?_)
    | intro _)

theorem execResendTimeout_keeps : ∀ a0 s, Gives [.uni, .uniBad, .host, .cores, .ctxs, .mports, .tiers, .oports, .accesses, .ces, .hps, .tallies, .hub2] s (execResendTimeout a0 s) := by
  intro a0 s
  unfold execResendTimeout
  repeat' (first
    | (with_reducible apply Gives.ite)
    | (with_reducible apply Keeps.ite)
    | with_reducible exact Keeps.refl _ _
    | with_reducible assumption
    | (with_reducible apply Keeps.then (settleColls_keeps ..) ?_ (by decide))
    | (with_reducible apply Keeps.then (resend_keeps ..) ?_ (by decide))
    | (with_reducible apply Gives.next)
    | (with_reducible apply Keeps.foldl)
    | (with_reducible apply Keeps.foldl_snd)
    | (with_reducible refine Keeps.snd (by assumption) ?_)
    | (with_reducible refine Keeps.fst (by assumption) ?_)
    | intro _
    | dsimp only
    | split)

theorem takeFront_keeps : ∀ s a1 a2 x0 t, takeFront s a1 a2 = some (x0, t) → Keeps [.oports] s t := by
  intro s a1 a2 x0 t h
  unfold takeFront at h
  dsimp only at h
  split at h
  · split at h
    · cases h
      exact State.modOport_keeps ..
    · cases h
  split at h
  · split at h
    · cases h
      exact State.modOport_keeps ..
    · cases h
  · cases h

theorem respond_keeps : ∀ s a1 a2 a3 a4 a5 a6, Keeps [.oports, .accesses, .paths] s (respond s a1 a2 a3 a4 a5 a6) := by
  intro s a1 a2 a3 a4 a5 a6
  unfold respond
  repeat' (first
    | (with_reducible apply Keeps.ite)
    | with_reducible exact Keeps.refl _ _
    | with_reducible assumption
    | (with_reducible refine Keeps.step ?_ (sendPkt_keeps _ _ _ _ _ (by assumption)) (by decide))
    | (with_reducible apply Keeps.foldl)
    | (with_reducible apply Keeps.foldl_snd)
    | (with_reducible refine Keeps.snd (by assumption) ?_)
    | (with_reducible refine Keeps.fst (by assumption) ?_)
    | (with_reducible apply Keeps.getD)
    | intro _)

theorem pktSignal_keeps : ∀ s a1 a2, Keeps [.uni, .uniBad, .host, .cores, .ctxs, .mports, .tiers, .oports, .ces, .hps, .tallies] s (pktSignal s a1 a2).2 := by
  intro s a1 a2
  unfold pktSignal
  repeat' (first
    | (with_reducible apply Keeps.ite)
    | with_reducible exact Keeps.refl _ _
    | with_reducible assumption
    | (with_reducible apply Keeps.then (countReject_keeps ..) ?_ (by decide))
    | (with_reducible apply Keeps.then (arriveSignal_keeps ..) ?_ (by decide))
    | (with_reducible apply Keeps.foldl)
    | (with_reducible apply Keeps.foldl_snd)
    | (with_reducible refine Keeps.snd (by assumption) ?_)
    | (with_reducible refine Keeps.fst (by assumption) ?_)
    | intro _
    | dsimp only
    | split)

theorem execWrite_keeps : ∀ a0 s, Gives [.uni, .uniBad, .host, .cores, .ctxs, .mports, .tiers, .oports, .accesses, .paths, .ces, .hps, .tallies, .hub2] s (execWrite a0 s) := by
  intro a0 s
  unfold execWrite
  repeat' (first
    | (with_reducible apply Gives.ite)
    | (with_reducible apply Keeps.ite)
    | with_reducible exact Keeps.refl _ _
    | with_reducible assumption
    | (with_reducible refine Keeps.step ?_ (takeFront_keeps _ _ _ _ _ (by assumption)) (by decide))
    | (with_reducible apply Keeps.then (settleColls_keeps ..) ?_ (by decide))
    | (with_reducible apply Keeps.then (respond_keeps ..) ?_ (by decide))
    | (with_reducible apply Keeps.then (noteE2E_keeps ..) ?_ (by decide))
    | (with_reducible apply Keeps.then (countReject_keeps ..) ?_ (by decide))
    | (with_reducible apply Keeps.then (devWrite_keeps ..) ?_ (by decide))
    | (with_reducible apply Keeps.then (pktSignal_keeps ..) ?_ (by decide))
    | (with_reducible apply Gives.next)
    | (with_reducible apply Keeps.foldl)
    | (with_reducible apply Keeps.foldl_snd)
    | (with_reducible refine Keeps.snd (by assumption) ?_)
    | (with_reducible refine Keeps.fst (by assumption) ?_)
    | (with_reducible apply Keeps.getD)
    | intro _
    | dsimp only
    | split)

theorem execAdd_keeps : ∀ a0 s, Gives [.uni, .uniBad, .host, .cores, .ctxs, .mports, .tiers, .oports, .accesses, .paths, .ces, .hps, .tallies, .hub2] s (execAdd a0 s) := by
  intro a0 s
  unfold execAdd
  repeat' (first
    | (with_reducible apply Gives.ite)
    | (with_reducible apply Keeps.ite)
    | with_reducible exact Keeps.refl _ _
    | with_reducible assumption
    | (with_reducible refine Keeps.step ?_ (takeFront_keeps _ _ _ _ _ (by assumption)) (by decide))
    | (with_reducible apply Keeps.then (respond_keeps ..) ?_ (by decide))
    | (with_reducible apply Keeps.then (noteE2E_keeps ..) ?_ (by decide))
    | (with_reducible apply Keeps.then (countReject_keeps ..) ?_ (by decide))
    | (with_reducible apply Keeps.then (devTouch_keeps ..) ?_ (by decide))
    | (with_reducible apply Keeps.then (addInto_keeps ..) ?_ (by decide))
    | (with_reducible apply Keeps.then (countSat_keeps ..) ?_ (by decide))
    | (with_reducible apply Keeps.then (pktSignal_keeps ..) ?_ (by decide))
    | (with_reducible apply Keeps.then (settleColls_keeps ..) ?_ (by decide))
    | (with_reducible apply Gives.next)
    | (with_reducible apply Keeps.foldl)
    | (with_reducible apply Keeps.foldl_snd)
    | (with_reducible refine Keeps.snd (by assumption) ?_)
    | (with_reducible refine Keeps.fst (by assumption) ?_)
    | (with_reducible apply Keeps.getD)
    | intro _
    | dsimp only
    | split)

theorem execReadreq_keeps : ∀ a0 s, Gives [.uniBad, .mports, .tiers, .oports, .accesses, .paths, .hps, .tallies] s (execReadreq a0 s) := by
  intro a0 s
  unfold execReadreq
  repeat' (first
    | (with_reducible apply Gives.ite)
    | (with_reducible apply Keeps.ite)
    | with_reducible exact Keeps.refl _ _
    | with_reducible assumption
    | (with_reducible refine Keeps.step ?_ (takeFront_keeps _ _ _ _ _ (by assumption)) (by decide))
    | (with_reducible apply Keeps.then (respond_keeps ..) ?_ (by decide))
    | (with_reducible apply Keeps.then (countReject_keeps ..) ?_ (by decide))
    | (with_reducible apply Keeps.then (devTouch_keeps ..) ?_ (by decide))
    | (with_reducible apply Gives.next)
    | (with_reducible apply Keeps.foldl)
    | (with_reducible apply Keeps.foldl_snd)
    | (with_reducible refine Keeps.snd (by assumption) ?_)
    | (with_reducible refine Keeps.fst (by assumption) ?_)
    | (with_reducible apply Keeps.getD)
    | intro _
    | dsimp only
    | split)

theorem execSignalPacket_keeps : ∀ a0 s, Gives [.uni, .uniBad, .host, .cores, .ctxs, .mports, .tiers, .oports, .accesses, .paths, .ces, .hps, .tallies, .hub2] s (execSignalPacket a0 s) := by
  intro a0 s
  unfold execSignalPacket
  repeat' (first
    | (with_reducible apply Gives.ite)
    | (with_reducible apply Keeps.ite)
    | with_reducible exact Keeps.refl _ _
    | with_reducible assumption
    | (with_reducible refine Keeps.step ?_ (takeFront_keeps _ _ _ _ _ (by assumption)) (by decide))
    | (with_reducible apply Keeps.then (settleColls_keeps ..) ?_ (by decide))
    | (with_reducible apply Keeps.then (respond_keeps ..) ?_ (by decide))
    | (with_reducible apply Keeps.then (noteE2E_keeps ..) ?_ (by decide))
    | (with_reducible apply Keeps.then (pktSignal_keeps ..) ?_ (by decide))
    | (with_reducible apply Gives.next)
    | (with_reducible apply Keeps.foldl)
    | (with_reducible apply Keeps.foldl_snd)
    | (with_reducible refine Keeps.snd (by assumption) ?_)
    | (with_reducible refine Keeps.fst (by assumption) ?_)
    | (with_reducible apply Keeps.getD)
    | intro _
    | dsimp only
    | split)

theorem landRead_keeps : ∀ s a1 a2, Keeps [.uni, .uniBad, .host, .cores, .ctxs, .mports, .tiers, .accesses, .ces, .hps, .tallies] s (landRead s a1 a2) := by
  intro s a1 a2
  unfold landRead
  repeat' (first
    | (with_reducible apply Keeps.ite)
    | with_reducible exact Keeps.refl _ _
    | with_reducible assumption
    | (with_reducible apply Keeps.then (endAccess_keeps ..) ?_ (by decide))
    | (with_reducible apply Keeps.then (State.modCore_keeps _ _ _ ?_) ?_ (by decide))
    | (with_reducible exact fun _ h => h)
    | (with_reducible exact fun h => h)
    | (with_reducible apply Keeps.then (applyWr_keeps ..) ?_ (by decide))
    | (with_reducible apply Keeps.foldl)
    | (with_reducible apply Keeps.foldl_snd)
    | (with_reducible refine Keeps.snd (by assumption) ?_)
    | (with_reducible refine Keeps.fst (by assumption) ?_)
    | intro _
    | dsimp only
    | split)

theorem execReadrsp_keeps : ∀ a0 s, Gives [.uni, .uniBad, .host, .cores, .ctxs, .mports, .tiers, .oports, .accesses, .ces, .hps, .tallies, .hub2] s (execReadrsp a0 s) := by
  intro a0 s
  unfold execReadrsp
  repeat' (first
    | (with_reducible apply Gives.ite)
    | (with_reducible apply Keeps.ite)
    | with_reducible exact Keeps.refl _ _
    | with_reducible assumption
    | (with_reducible refine Keeps.step ?_ (takeFront_keeps _ _ _ _ _ (by assumption)) (by decide))
    | (with_reducible apply Keeps.then (settleColls_keeps ..) ?_ (by decide))
    | (with_reducible apply Keeps.then (endAccess_keeps ..) ?_ (by decide))
    | (with_reducible apply Keeps.then (noteE2E_keeps ..) ?_ (by decide))
    | (with_reducible apply Keeps.then (landRead_keeps ..) ?_ (by decide))
    | (with_reducible apply Gives.next)
    | (with_reducible apply Keeps.foldl)
    | (with_reducible apply Keeps.foldl_snd)
    | (with_reducible refine Keeps.snd (by assumption) ?_)
    | (with_reducible refine Keeps.fst (by assumption) ?_)
    | (with_reducible apply Keeps.getD)
    | intro _
    | dsimp only
    | split)

theorem noteDropped_keeps : ∀ s a1 a2, Keeps [.ctxs] s (noteDropped s a1 a2) := by
  intro s a1 a2
  unfold noteDropped
  repeat' (first
    | (with_reducible apply Keeps.ite)
    | with_reducible exact Keeps.refl _ _
    | with_reducible assumption
    | (with_reducible apply Keeps.then (State.modCtx_keeps ..) ?_ (by decide))
    | (with_reducible apply Keeps.foldl)
    | (with_reducible apply Keeps.foldl_snd)
    | (with_reducible refine Keeps.snd (by assumption) ?_)
    | (with_reducible refine Keeps.fst (by assumption) ?_)
    | intro _)

theorem execAck_keeps : ∀ a0 s, Gives [.uni, .uniBad, .host, .cores, .ctxs, .mports, .tiers, .oports, .accesses, .ces, .hps, .tallies, .hub2] s (execAck a0 s) := by
  intro a0 s
  unfold execAck
  repeat' (first
    | (with_reducible apply Gives.ite)
    | (with_reducible apply Keeps.ite)
    | with_reducible exact Keeps.refl _ _
    | with_reducible assumption
    | (with_reducible refine Keeps.step ?_ (takeFront_keeps _ _ _ _ _ (by assumption)) (by decide))
    | (with_reducible apply Keeps.then (settleColls_keeps ..) ?_ (by decide))
    | (with_reducible apply Keeps.then (endAccess_keeps ..) ?_ (by decide))
    | (with_reducible apply Keeps.then (noteDropped_keeps ..) ?_ (by decide))
    | (with_reducible apply Gives.next)
    | (with_reducible apply Keeps.foldl)
    | (with_reducible apply Keeps.foldl_snd)
    | (with_reducible refine Keeps.snd (by assumption) ?_)
    | (with_reducible refine Keeps.fst (by assumption) ?_)
    | (with_reducible apply Keeps.getD)
    | intro _
    | dsimp only
    | split)

theorem pathDelay_keeps : ∀ s a1 a2, Keeps [] s (pathDelay s a1 a2).2 := by
  intro s a1 a2
  unfold pathDelay
  repeat' (first
    | (with_reducible apply Keeps.ite)
    | with_reducible exact Keeps.refl _ _
    | with_reducible assumption
    | (with_reducible apply Keeps.then (freeBelow_keeps ..) ?_ (by decide))
    | (with_reducible apply Keeps.foldl)
    | (with_reducible apply Keeps.foldl_snd)
    | (with_reducible refine Keeps.snd (by assumption) ?_)
    | (with_reducible refine Keeps.fst (by assumption) ?_)
    | intro _
    | dsimp only
    | split)

theorem slewTo_keeps : ∀ s a1, Keeps [.slew, .slewUs] s (slewTo s a1) := by
  intro s a1
  unfold slewTo
  repeat' (first
    | (with_reducible apply Keeps.ite)
    | with_reducible exact Keeps.refl _ _
    | with_reducible assumption
    | (with_reducible apply Keeps.foldl)
    | (with_reducible apply Keeps.foldl_snd)
    | (with_reducible refine Keeps.snd (by assumption) ?_)
    | (with_reducible refine Keeps.fst (by assumption) ?_)
    | (with_reducible fail_if_no_progress (apply Keeps.set_slew_slewUs ?_ (by decide)))
    | intro _)

theorem execTime_keeps : ∀ a0 s, Gives [.slew, .slewUs, .oports] s (execTime a0 s) := by
  intro a0 s
  unfold execTime
  repeat' (first
    | (with_reducible apply Gives.ite)
    | (with_reducible apply Keeps.ite)
    | with_reducible exact Keeps.refl _ _
    | with_reducible assumption
    | (with_reducible refine Keeps.step ?_ (takeFront_keeps _ _ _ _ _ (by assumption)) (by decide))
    | (with_reducible apply Keeps.then (noteE2E_keeps ..) ?_ (by decide))
    | (with_reducible apply Keeps.then (State.modOport_keeps ..) ?_ (by decide))
    | (with_reducible apply Keeps.then (pathDelay_keeps ..) ?_ (by decide))
    | (with_reducible apply Keeps.then (slewTo_keeps ..) ?_ (by decide))
    | (with_reducible apply Gives.next)
    | (with_reducible apply Keeps.foldl)
    | (with_reducible apply Keeps.foldl_snd)
    | (with_reducible refine Keeps.snd (by assumption) ?_)
    | (with_reducible refine Keeps.fst (by assumption) ?_)
    | (with_reducible apply Keeps.getD)
    | intro _
    | dsimp only
    | split)

theorem execTimeSend_keeps : ∀ a0 s, Gives [.oports, .accesses] s (execTimeSend a0 s) := by
  intro a0 s
  unfold execTimeSend
  repeat' (first
    | (with_reducible apply Gives.ite)
    | (with_reducible apply Keeps.ite)
    | with_reducible exact Keeps.refl _ _
    | with_reducible assumption
    | (with_reducible apply Keeps.then (State.modOport_keeps ..) ?_ (by decide))
    | (with_reducible apply Keeps.then (emit_keeps ..) ?_ (by decide))
    | (with_reducible apply Gives.next)
    | (with_reducible apply Keeps.foldl)
    | (with_reducible apply Keeps.foldl_snd)
    | (with_reducible refine Keeps.snd (by assumption) ?_)
    | (with_reducible refine Keeps.fst (by assumption) ?_)
    | intro _)

theorem execSync_keeps : ∀ a0 s, Gives [.uni, .uniBad, .cores, .ctxs, .mports, .tiers, .oports, .accesses, .paths, .folds, .tallies] s (execSync a0 s) := by
  intro a0 s
  unfold execSync
  repeat' (first
    | (with_reducible apply Gives.ite)
    | (with_reducible apply Keeps.ite)
    | with_reducible exact Keeps.refl _ _
    | with_reducible assumption
    | (with_reducible refine Keeps.step ?_ (takeFront_keeps _ _ _ _ _ (by assumption)) (by decide))
    | (with_reducible apply Keeps.then (syncArrive_keeps ..) ?_ (by decide))
    | (with_reducible apply Gives.next)
    | (with_reducible apply Keeps.foldl)
    | (with_reducible apply Keeps.foldl_snd)
    | (with_reducible refine Keeps.snd (by assumption) ?_)
    | (with_reducible refine Keeps.fst (by assumption) ?_)
    | (with_reducible apply Keeps.getD)
    | intro _
    | dsimp only
    | split)

theorem execAckTimeout_keeps : ∀ a0 s, Gives [.uni, .uniBad, .host, .cores, .ctxs, .mports, .tiers, .accesses, .ces, .hps, .tallies, .hub2] s (execAckTimeout a0 s) := by
  intro a0 s
  unfold execAckTimeout
  repeat' (first
    | (with_reducible apply Gives.ite)
    | (with_reducible apply Keeps.ite)
    | with_reducible exact Keeps.refl _ _
    | with_reducible assumption
    | (with_reducible apply Keeps.then (settleColls_keeps ..) ?_ (by decide))
    | (with_reducible apply Keeps.then (loseAccess_keeps ..) ?_ (by decide))
    | (with_reducible apply Gives.next)
    | (with_reducible apply Keeps.foldl)
    | (with_reducible apply Keeps.foldl_snd)
    | (with_reducible refine Keeps.snd (by assumption) ?_)
    | (with_reducible refine Keeps.fst (by assumption) ?_)
    | intro _
    | dsimp only
    | split)

theorem execRoutePathChange_keeps : ∀ a0 s, Gives [.uni, .uniBad, .host, .cores, .ctxs, .mports, .tiers, .oports, .accesses, .paths, .ces, .hps, .tallies, .hub2] s (execRoutePathChange a0 s) := by
  intro a0 s
  unfold execRoutePathChange
  repeat' (first
    | (with_reducible apply Gives.ite)
    | (with_reducible apply Keeps.ite)
    | with_reducible exact Keeps.refl _ _
    | with_reducible assumption
    | (with_reducible apply Keeps.then (State.modOport_keeps ..) ?_ (by decide))
    | (with_reducible apply Keeps.then (emit_keeps ..) ?_ (by decide))
    | (with_reducible apply Keeps.then (settleColls_keeps ..) ?_ (by decide))
    | (with_reducible apply Keeps.then (endAccess_keeps ..) ?_ (by decide))
    | (with_reducible apply Gives.next)
    | (with_reducible apply Keeps.foldl)
    | (with_reducible apply Keeps.foldl_snd)
    | (with_reducible refine Keeps.snd (by assumption) ?_)
    | (with_reducible refine Keeps.fst (by assumption) ?_)
    | (with_reducible fail_if_no_progress (apply Keeps.set_accesses_paths ?_ (by decide)))
    | intro _
    | dsimp only
    | split)

theorem execLinkTraining_keeps : ∀ a0 a1 a2 a3 s, Gives [.uni, .uniBad, .host, .cores, .ctxs, .mports, .tiers, .oports, .lasers, .accesses, .ces, .hps, .tallies, .hub2] s (execLinkTraining a0 a1 a2 a3 s) := by
  intro a0 a1 a2 a3 s
  unfold execLinkTraining
  repeat' (first
    | (with_reducible apply Gives.ite)
    | (with_reducible apply Keeps.ite)
    | with_reducible exact Keeps.refl _ _
    | with_reducible assumption
    | (with_reducible apply Keeps.then (settleLaser_keeps ..) ?_ (by decide))
    | (with_reducible apply Keeps.then (settleColls_keeps ..) ?_ (by decide))
    | (with_reducible apply Keeps.then (linkDown_keeps ..) ?_ (by decide))
    | (with_reducible apply Keeps.then (comeUp_keeps ..) ?_ (by decide))
    | (with_reducible apply Keeps.then (post_keeps ..) ?_ (by decide))
    | (with_reducible apply Keeps.then (State.modOport_keeps ..) ?_ (by decide))
    | (with_reducible apply Gives.next)
    | (with_reducible apply Keeps.foldl)
    | (with_reducible apply Keeps.foldl_snd)
    | (with_reducible refine Keeps.snd (by assumption) ?_)
    | (with_reducible refine Keeps.fst (by assumption) ?_)
    | intro _)

theorem execTrainingRetry_keeps : ∀ a0 s, Gives [.cores, .ctxs, .oports, .accesses, .ces, .tallies] s (execTrainingRetry a0 s) := by
  intro a0 s
  unfold execTrainingRetry
  repeat' (first
    | (with_reducible apply Gives.ite)
    | (with_reducible apply Keeps.ite)
    | with_reducible exact Keeps.refl _ _
    | with_reducible assumption
    | (with_reducible apply Keeps.then (startTraining_keeps ..) ?_ (by decide))
    | (with_reducible apply Gives.next)
    | (with_reducible apply Keeps.foldl)
    | (with_reducible apply Keeps.foldl_snd)
    | (with_reducible refine Keeps.snd (by assumption) ?_)
    | (with_reducible refine Keeps.fst (by assumption) ?_)
    | intro _)

end Sys2Proof.Machine
end

