-- ==== Sys2Proof/Laws/Security.lean ====
section
/-! SUPPORT. What each operation of Machine/Security.lean keeps. -/

namespace Sys2Proof.Machine

open Sys2Proof

theorem bootTarget_keeps : ∀ s a1, Keeps [.tallies, .sec] s (bootTarget s a1) := by
  intro s a1
  unfold bootTarget
  split
  · exact (State.modFw_keeps ..).mono (by decide)
  · have h : Keeps [.tallies, .sec] s { s with sec := { s.sec with fwbad := s.sec.fwbad ||| BitVec.ofNat 9 (2 ^ a1) } } :=
      Keeps.set_sec (Keeps.refl _ _) rfl rfl (by decide)
    exact Keeps.ite (fun _ => h) (fun _ => h.step (post_keeps ..) (by decide))

theorem execFirmwareBoot_keeps : ∀ s, Gives [.tallies, .sec] s (execFirmwareBoot s) := by
  intro s
  unfold execFirmwareBoot
  repeat' (first
    | (with_reducible apply Gives.ite)
    | (with_reducible apply Keeps.ite)
    | with_reducible exact Keeps.refl _ _
    | with_reducible assumption
    | (with_reducible apply Keeps.then (bootTarget_keeps ..) ?_ (by decide))
    | (with_reducible apply Gives.next)
    | (with_reducible apply Keeps.foldl)
    | (with_reducible apply Keeps.foldl_snd)
    | (with_reducible refine Keeps.snd (by assumption) ?_)
    | (with_reducible refine Keeps.fst (by assumption) ?_)
    | (with_reducible fail_if_no_progress (apply Keeps.set_sec ?_ ?_ ?_ (by decide)))
    | with_reducible rfl
    | intro _)

theorem secResult_keeps : ∀ s a1, Keeps [.sec] s (secResult s a1) := by
  intro s a1
  unfold secResult
  repeat' (first
    | (with_reducible apply Keeps.ite)
    | with_reducible exact Keeps.refl _ _
    | with_reducible assumption
    | (with_reducible apply Keeps.foldl)
    | (with_reducible apply Keeps.foldl_snd)
    | (with_reducible refine Keeps.snd (by assumption) ?_)
    | (with_reducible refine Keeps.fst (by assumption) ?_)
    | (with_reducible fail_if_no_progress (apply Keeps.set_sec ?_ ?_ ?_ (by decide)))
    | with_reducible rfl)

theorem secWrite_keeps : ∀ s a1, Keeps [.uni, .uniBad, .host, .cores, .ctxs, .mports, .tiers, .hps, .tallies, .sec] s (secWrite s a1) := by
  intro s a1
  unfold secWrite
  split
  · exact (secResult_keeps ..).mono (by decide)
  · have h := devWrite_keeps s {} (secDst s) a1
    exact Keeps.set_sec (h.mono (by decide)) h.fuses.1.symm (congrArg Sec.fused (h.only.2 .sec (by decide))).symm (by decide)

theorem secAttest_keeps : ∀ s, Keeps [.uni, .uniBad, .host, .cores, .ctxs, .mports, .tiers, .hps, .tallies, .sec] s (secAttest s) := by
  intro s
  unfold secAttest
  repeat' (first
    | (with_reducible apply Keeps.ite)
    | with_reducible exact Keeps.refl _ _
    | with_reducible assumption
    | (with_reducible apply Keeps.then (secResult_keeps ..) ?_ (by decide))
    | (with_reducible apply Keeps.then (secWrite_keeps ..) ?_ (by decide))
    | (with_reducible apply Keeps.foldl)
    | (with_reducible apply Keeps.foldl_snd)
    | (with_reducible refine Keeps.snd (by assumption) ?_)
    | (with_reducible refine Keeps.fst (by assumption) ?_)
    | intro _)

theorem secCert_keeps : ∀ s, Keeps [.uni, .uniBad, .host, .cores, .ctxs, .mports, .tiers, .hps, .tallies, .sec] s (secCert s) := by
  intro s
  unfold secCert
  repeat' (first
    | (with_reducible apply Keeps.ite)
    | with_reducible exact Keeps.refl _ _
    | with_reducible assumption
    | (with_reducible apply Keeps.then (secWrite_keeps ..) ?_ (by decide)))

theorem fwStage_keeps : ∀ s a1, Keeps [.sec] s (fwStage s a1) := by
  intro s a1
  unfold fwStage
  repeat' (first
    | (with_reducible apply Keeps.ite)
    | with_reducible exact Keeps.refl _ _
    | with_reducible assumption
    | (with_reducible apply Keeps.then (State.modFw_keeps ..) ?_ (by decide))
    | (with_reducible apply Keeps.foldl)
    | (with_reducible apply Keeps.foldl_snd)
    | (with_reducible refine Keeps.snd (by assumption) ?_)
    | (with_reducible refine Keeps.fst (by assumption) ?_)
    | intro _)

theorem secFwverify_keeps : ∀ s a1, Keeps [.uniBad, .mports, .tiers, .hps, .tallies, .sec] s (secFwverify s a1) := by
  intro s a1
  unfold secFwverify
  repeat' (first
    | (with_reducible apply Keeps.ite)
    | with_reducible exact Keeps.refl _ _
    | with_reducible assumption
    | (with_reducible apply Keeps.then (secResult_keeps ..) ?_ (by decide))
    | (with_reducible apply Keeps.then (devTouch_keeps ..) ?_ (by decide))
    | (with_reducible apply Keeps.then (fwStage_keeps ..) ?_ (by decide))
    | (with_reducible apply Keeps.foldl)
    | (with_reducible apply Keeps.foldl_snd)
    | (with_reducible refine Keeps.snd (by assumption) ?_)
    | (with_reducible refine Keeps.fst (by assumption) ?_)
    | intro _
    | dsimp only
    | split)

theorem secEnrol_keeps : ∀ s a1, Keeps [.uniBad, .mports, .tiers, .hps, .tallies, .sec] s (secEnrol s a1) := by
  intro s a1
  have h : Keeps [.uniBad, .mports, .tiers, .hps, .tallies, .sec] s (devTouch s {} (secSrc s) 64) := (devTouch_keeps ..).mono (by decide)
  unfold secEnrol
  dsimp only
  split
  · exact (secResult_keeps ..).mono (by decide)
  split
  · exact Keeps.step ((devTouch_keeps ..).mono (by decide)) (secResult_keeps ..) (by decide)
  split
  · exact h.step (secResult_keeps ..) (by decide)
  split
  · exact h.step (secResult_keeps ..) (by decide)
  · refine Keeps.then (secResult_keeps ..) ?_ (by decide)
    exact Keeps.set_sec h rfl rfl (by decide)

theorem secRevoke_keeps : ∀ s a1, Keeps [.sec] s (secRevoke s a1) := by
  intro s a1
  unfold secRevoke
  repeat' (first
    | (with_reducible apply Keeps.ite)
    | with_reducible exact Keeps.refl _ _
    | with_reducible assumption
    | (with_reducible apply Keeps.then (secResult_keeps ..) ?_ (by decide))
    | (with_reducible apply Keeps.foldl)
    | (with_reducible apply Keeps.foldl_snd)
    | (with_reducible refine Keeps.snd (by assumption) ?_)
    | (with_reducible refine Keeps.fst (by assumption) ?_)
    | (with_reducible fail_if_no_progress (apply Keeps.set_sec ?_ ?_ ?_ (by decide)))
    | with_reducible rfl
    | intro _)

theorem lowestSvn_lt (s : State) (v : Nat) (h : lowestSvn s = some v) : v < 256 := by
  unfold lowestSvn at h
  have key : ∀ (l : List Nat) (m : Option Nat), (∀ w, m = some w → w < 256) → ∀ v, l.foldl (fun m t => match (s.fw t).running with
      | some x => (match m with | none => some x.svn.toNat | some v => some (min v x.svn.toNat))
      | none => m) m = some v → v < 256 := by
    intro l
    induction l with
    | nil => exact fun m hm v hv => hm v hv
    | cons t l ih =>
      intro m hm v hv
      refine ih _ ?_ v hv
      intro w hw
      dsimp only at hw
      split at hw
      · split at hw <;> cases hw
        · exact BitVec.isLt _
        · exact lt_of_le_of_lt (Nat.min_le_right _ _) (BitVec.isLt _)
      · exact hm w hw
  exact key _ none (by simp) v h

theorem secFusesvn_keeps : ∀ s, Keeps [.sec] s (secFusesvn s) := by
  intro s
  unfold secFusesvn
  split
  · rename_i v hv
    refine Keeps.step ?_ (secResult_keeps ..) (by decide)
    refine ⟨⟨rfl, fun f hf => by cases f <;> first | rfl | exact absurd (by decide) hf⟩, id, rfl, ?_⟩
    have hv := lowestSvn_lt s v hv
    have hf := s.sec.fused.isLt
    have : max s.sec.fused.toNat v < 2 ^ 8 := by omega
    rw [BitVec.toNat_ofNat, Nat.mod_eq_of_lt this]
    exact Nat.le_max_left _ _
  · exact (secResult_keeps ..).mono (by decide)

theorem secRun_keeps : ∀ s a1 a2 a3, Keeps [.uni, .uniBad, .host, .cores, .ctxs, .mports, .tiers, .hps, .tallies, .sec] s (secRun s a1 a2 a3) := by
  intro s a1 a2 a3
  unfold secRun
  repeat' (first
    | (with_reducible apply Keeps.ite)
    | with_reducible exact Keeps.refl _ _
    | with_reducible assumption
    | (with_reducible apply Keeps.then (secAttest_keeps ..) ?_ (by decide))
    | (with_reducible apply Keeps.then (secCert_keeps ..) ?_ (by decide))
    | (with_reducible apply Keeps.then (secFwverify_keeps ..) ?_ (by decide))
    | (with_reducible apply Keeps.then (secEnrol_keeps ..) ?_ (by decide))
    | (with_reducible apply Keeps.then (secRevoke_keeps ..) ?_ (by decide))
    | (with_reducible apply Keeps.then (secFusesvn_keeps ..) ?_ (by decide))
    | (with_reducible apply Keeps.foldl)
    | (with_reducible apply Keeps.foldl_snd)
    | (with_reducible refine Keeps.snd (by assumption) ?_)
    | (with_reducible refine Keeps.fst (by assumption) ?_)
    | intro _
    | dsimp only
    | split)

theorem secCtl_keeps : ∀ a0 a1 a2 s, Keeps [.uni, .uniBad, .host, .cores, .ctxs, .mports, .tiers, .hps, .tallies, .hub2, .sec] s (secCtl a0 a1 a2 s) := by
  intro a0 a1 a2 s
  unfold secCtl
  repeat' (first
    | (with_reducible apply Keeps.ite)
    | with_reducible exact Keeps.refl _ _
    | with_reducible assumption
    | (with_reducible apply Keeps.gated ?_ (by decide))
    | (with_reducible apply Keeps.then (secRun_keeps ..) ?_ (by decide))
    | (with_reducible apply Keeps.foldl)
    | (with_reducible apply Keeps.foldl_snd)
    | (with_reducible refine Keeps.snd (by assumption) ?_)
    | (with_reducible refine Keeps.fst (by assumption) ?_)
    | (with_reducible fail_if_no_progress (apply Keeps.set_hub2 ?_ (by decide)))
    | (with_reducible fail_if_no_progress (apply Keeps.set_sec ?_ ?_ ?_ (by decide)))
    | with_reducible rfl
    | intro _)

theorem execAttest_keeps : ∀ a0 s, Gives [.uni, .uniBad, .host, .cores, .ctxs, .mports, .tiers, .hps, .tallies, .hub2, .sec] s (execAttest a0 s) := by
  intro a0 s
  unfold execAttest
  repeat' (first
    | (with_reducible apply Gives.ite)
    | (with_reducible apply Keeps.ite)
    | with_reducible exact Keeps.refl _ _
    | with_reducible assumption
    | (with_reducible apply Keeps.then (secCtl_keeps ..) ?_ (by decide))
    | (with_reducible apply Gives.next))

theorem execCert_keeps : ∀ a0 s, Gives [.uni, .uniBad, .host, .cores, .ctxs, .mports, .tiers, .hps, .tallies, .hub2, .sec] s (execCert a0 s) := by
  intro a0 s
  unfold execCert
  repeat' (first
    | (with_reducible apply Gives.ite)
    | (with_reducible apply Keeps.ite)
    | with_reducible exact Keeps.refl _ _
    | with_reducible assumption
    | (with_reducible apply Keeps.then (secCtl_keeps ..) ?_ (by decide))
    | (with_reducible apply Gives.next))

theorem execFwverify_keeps : ∀ a0 s, Gives [.uni, .uniBad, .host, .cores, .ctxs, .mports, .tiers, .hps, .tallies, .hub2, .sec] s (execFwverify a0 s) := by
  intro a0 s
  unfold execFwverify
  repeat' (first
    | (with_reducible apply Gives.ite)
    | (with_reducible apply Keeps.ite)
    | with_reducible exact Keeps.refl _ _
    | with_reducible assumption
    | (with_reducible apply Keeps.then (secCtl_keeps ..) ?_ (by decide))
    | (with_reducible apply Gives.next))

theorem execEnrol_keeps : ∀ a0 a1 s, Gives [.uni, .uniBad, .host, .cores, .ctxs, .mports, .tiers, .hps, .tallies, .hub2, .sec] s (execEnrol a0 a1 s) := by
  intro a0 a1 s
  unfold execEnrol
  repeat' (first
    | (with_reducible apply Gives.ite)
    | (with_reducible apply Keeps.ite)
    | with_reducible exact Keeps.refl _ _
    | with_reducible assumption
    | (with_reducible apply Keeps.then (secCtl_keeps ..) ?_ (by decide))
    | (with_reducible apply Gives.next))

theorem execRevoke_keeps : ∀ a0 a1 s, Gives [.uni, .uniBad, .host, .cores, .ctxs, .mports, .tiers, .hps, .tallies, .hub2, .sec] s (execRevoke a0 a1 s) := by
  intro a0 a1 s
  unfold execRevoke
  repeat' (first
    | (with_reducible apply Gives.ite)
    | (with_reducible apply Keeps.ite)
    | with_reducible exact Keeps.refl _ _
    | with_reducible assumption
    | (with_reducible apply Keeps.then (secCtl_keeps ..) ?_ (by decide))
    | (with_reducible apply Gives.next))

theorem execFusesvn_keeps : ∀ a0 s, Gives [.uni, .uniBad, .host, .cores, .ctxs, .mports, .tiers, .hps, .tallies, .hub2, .sec] s (execFusesvn a0 s) := by
  intro a0 s
  unfold execFusesvn
  repeat' (first
    | (with_reducible apply Gives.ite)
    | (with_reducible apply Keeps.ite)
    | with_reducible exact Keeps.refl _ _
    | with_reducible assumption
    | (with_reducible apply Keeps.then (secCtl_keeps ..) ?_ (by decide))
    | (with_reducible apply Gives.next))

theorem openDbg_keeps : ∀ a0 s, Keeps [.hps, .sec] s (openDbg a0 s) := by
  intro a0 s
  unfold openDbg
  repeat' (first
    | (with_reducible apply Keeps.ite)
    | with_reducible exact Keeps.refl _ _
    | with_reducible assumption
    | (with_reducible apply Keeps.gated ?_ (by decide))
    | (with_reducible apply Keeps.foldl)
    | (with_reducible apply Keeps.foldl_snd)
    | (with_reducible refine Keeps.snd (by assumption) ?_)
    | (with_reducible refine Keeps.fst (by assumption) ?_)
    | (with_reducible fail_if_no_progress (apply Keeps.set_sec ?_ ?_ ?_ (by decide)))
    | with_reducible rfl
    | intro _)

theorem execOpenDebug_keeps : ∀ a0 s, Gives [.hps, .sec] s (execOpenDebug a0 s) := by
  intro a0 s
  unfold execOpenDebug
  repeat' (first
    | (with_reducible apply Gives.ite)
    | (with_reducible apply Keeps.ite)
    | with_reducible exact Keeps.refl _ _
    | with_reducible assumption
    | (with_reducible apply Keeps.then (openDbg_keeps ..) ?_ (by decide))
    | (with_reducible apply Gives.next))

theorem execJtagInstruction_keeps (a0 : Nat) (s t : State) (h : execJtagInstruction a0 s = .next t) : Keeps [.hub2, .bus] s t := by
  have k : Keeps [.hub2, .bus] s { s with hub2 := { s.hub2 with jtagIr := a0 } } := Keeps.set_hub2 (Keeps.refl _ _) (by decide)
  unfold execJtagInstruction at h
  dsimp only at h
  split at h
  · cases h
    exact Keeps.set_bus k (by decide)
  split at h
  · cases h
    exact k
  · cases h

theorem execTestAccessPortReset_keeps : ∀ s, Gives [.hub2] s (execTestAccessPortReset s) := by
  intro s
  unfold execTestAccessPortReset
  repeat' (first
    | (with_reducible apply Gives.ite)
    | (with_reducible apply Keeps.ite)
    | with_reducible exact Keeps.refl _ _
    | with_reducible assumption
    | (with_reducible apply Gives.next)
    | (with_reducible apply Keeps.foldl)
    | (with_reducible apply Keeps.foldl_snd)
    | (with_reducible refine Keeps.snd (by assumption) ?_)
    | (with_reducible refine Keeps.fst (by assumption) ?_)
    | (with_reducible fail_if_no_progress (apply Keeps.set_hub2 ?_ (by decide))))

end Sys2Proof.Machine
end

