-- ==== Sys2Proof/Laws/Weave.lean ====
section
/-! SUPPORT. What each operation of Machine/Weave.lean keeps. -/

namespace Sys2Proof.Machine

open Sys2Proof

theorem adoptClocks_keeps : ∀ s a1, Keeps [.hub2] s (adoptClocks s a1) := by
  intro s a1
  unfold adoptClocks
  repeat' (first
    | (with_reducible apply Keeps.ite)
    | with_reducible exact Keeps.refl _ _
    | with_reducible assumption
    | (with_reducible apply Keeps.then (askClk_keeps ..) ?_ (by decide))
    | (with_reducible apply Keeps.foldl)
    | (with_reducible apply Keeps.foldl_snd)
    | (with_reducible refine Keeps.snd (by assumption) ?_)
    | (with_reducible refine Keeps.fst (by assumption) ?_)
    | intro _
    | dsimp only
    | split)

theorem wvEvent_keeps : ∀ s a1 a2, Keeps [.tallies, .weave] s (wvEvent s a1 a2) := by
  intro s a1 a2
  unfold wvEvent
  repeat' (first
    | (with_reducible apply Keeps.ite)
    | with_reducible exact Keeps.refl _ _
    | with_reducible assumption
    | (with_reducible apply Keeps.then (post_keeps ..) ?_ (by decide))
    | (with_reducible apply Keeps.foldl)
    | (with_reducible apply Keeps.foldl_snd)
    | (with_reducible refine Keeps.snd (by assumption) ?_)
    | (with_reducible refine Keeps.fst (by assumption) ?_)
    | (with_reducible fail_if_no_progress (apply Keeps.set_weave ?_ (by decide))))

theorem liftRetired_keeps : ∀ s, Keeps [.uni, .uniBad, .host, .cores, .ctxs, .ibex, .mports, .tiers, .oports, .accesses, .nextTag, .paths, .ces, .hurdles, .hps, .tallies, .hub2] s (liftRetired s) := by
  intro s
  unfold liftRetired
  repeat' (first
    | (with_reducible apply Keeps.ite)
    | with_reducible exact Keeps.refl _ _
    | with_reducible assumption
    | (with_reducible apply Keeps.withRewatch ?_ (by decide))
    | (with_reducible apply Keeps.then (liftHurdle_keeps ..) ?_ (by decide))
    | (with_reducible apply Keeps.foldl)
    | (with_reducible apply Keeps.foldl_snd)
    | (with_reducible refine Keeps.snd (by assumption) ?_)
    | (with_reducible refine Keeps.fst (by assumption) ?_)
    | intro _)

theorem activateGen_keeps : ∀ s, Keeps [.uni, .uniBad, .host, .cores, .ctxs, .ibex, .mports, .tiers, .oports, .accesses, .nextTag, .paths, .ces, .hurdles, .hps, .tallies, .weave, .hub2, .sec] s (activateGen s) := by
  intro s
  unfold activateGen
  split
  · exact Keeps.refl _ _
  · next g hg =>
    with_reducible refine Keeps.then (wvEvent_keeps ..) (Keeps.then (liftRetired_keeps ..) ?_ (by decide)) (by decide)
    have h : ∀ u, Keeps [.uni, .uniBad, .host, .cores, .ctxs, .ibex, .mports, .tiers, .oports, .accesses, .nextTag, .paths, .ces, .hurdles, .hps, .tallies, .weave, .hub2, .sec] s u → Keeps [.uni, .uniBad, .host, .cores, .ctxs, .ibex, .mports, .tiers, .oports, .accesses, .nextTag, .paths, .ces, .hurdles, .hps, .tallies, .weave, .hub2, .sec] s ((List.range 32).foldl releaseBridge u) := fun u h =>
      Keeps.foldl h (fun _ _ h => h.step (releaseBridge_keeps ..) (by decide))
    have hw := h _ (Keeps.withRewatch (l := [.uni, .uniBad, .host, .cores, .ctxs, .ibex, .mports, .tiers, .oports, .accesses, .nextTag, .paths, .ces, .hurdles, .hps, .tallies, .weave, .hub2, .sec]) (t := s) (f := fun s => { s with
      weave := { s.weave with cur := g, nxt := none, adopted := [], fences := [], st := .idle, result := stDone, next := 0, image := [] }
      sec := { s.sec with wmeas := sha256 (s.sec.wmeas ++ g.digest) } }) (Keeps.refl _ _) (by decide) (fun u => Keeps.set_weave_sec (Keeps.refl _ _) rfl rfl (by decide)))
    split
    · exact hw.step (adoptClocks_keeps ..) (by decide)
    · exact hw

theorem retireSlices_keeps : ∀ s a1, Keeps [.tiers, .tallies] s (retireSlices s a1) := by
  intro s a1
  unfold retireSlices
  repeat' (first
    | (with_reducible apply Keeps.ite)
    | with_reducible exact Keeps.refl _ _
    | with_reducible assumption
    | (with_reducible apply Keeps.then (startRetire_keeps ..) ?_ (by decide))
    | (with_reducible apply Keeps.foldl)
    | (with_reducible apply Keeps.foldl_snd)
    | (with_reducible refine Keeps.snd (by assumption) ?_)
    | (with_reducible refine Keeps.fst (by assumption) ?_)
    | intro _)

theorem adoptBoot_keeps : ∀ s a1, Keeps [.uni, .uniBad, .cores, .ctxs, .mports, .tiers, .oports, .accesses, .ces, .tallies, .weave, .hub2, .sec] s (adoptBoot s a1) := by
  intro s a1
  unfold adoptBoot
  repeat' (first
    | (with_reducible apply Keeps.ite)
    | with_reducible exact Keeps.refl _ _
    | with_reducible assumption
    | (with_reducible apply Keeps.then (rangeInit_keeps ..) ?_ (by decide))
    | (with_reducible apply Keeps.then (adoptTiers_keeps ..) ?_ (by decide))
    | (with_reducible apply Keeps.then (State.modMport_keeps ..) ?_ (by decide))
    | (with_reducible apply Keeps.then (retireSlices_keeps ..) ?_ (by decide))
    | (with_reducible apply Keeps.then (startTraining_keeps ..) ?_ (by decide))
    | (with_reducible apply Keeps.foldl)
    | (with_reducible apply Keeps.foldl_snd)
    | (with_reducible refine Keeps.snd (by assumption) ?_)
    | (with_reducible refine Keeps.fst (by assumption) ?_)
    | (with_reducible fail_if_no_progress (apply Keeps.set_weave_hub2_sec ?_ ?_ ?_ (by decide)))
    | with_reducible rfl
    | intro _)

theorem adoptFault_keeps : ∀ s a1, Keeps [.tallies] s (adoptFault s a1) := by
  intro s a1
  unfold adoptFault
  repeat' (first
    | (with_reducible apply Keeps.ite)
    | with_reducible exact Keeps.refl _ _
    | with_reducible assumption
    | (with_reducible apply Keeps.then (post_keeps ..) ?_ (by decide)))

theorem refuseQueues_keeps : ∀ s a1, Keeps [.uni, .uniBad, .host, .cores, .ctxs, .mports, .tiers, .hps, .tallies] s (refuseQueues s a1) := by
  intro s a1
  unfold refuseQueues
  repeat' (first
    | (with_reducible apply Keeps.ite)
    | with_reducible exact Keeps.refl _ _
    | with_reducible assumption
    | (with_reducible apply Keeps.then (State.modCore_keeps _ _ _ ?_) ?_ (by decide))
    | (with_reducible exact fun _ h => h)
    | (with_reducible exact fun h => h)
    | (with_reducible apply Keeps.then (endHead_keeps ..) ?_ (by decide))
    | (with_reducible apply Keeps.foldl)
    | (with_reducible apply Keeps.foldl_snd)
    | (with_reducible refine Keeps.snd (by assumption) ?_)
    | (with_reducible refine Keeps.fst (by assumption) ?_)
    | intro _)

theorem clampLaunch_keeps : ∀ s a1, Keeps [.oports] s (clampLaunch s a1) := by
  intro s a1
  unfold clampLaunch
  repeat' (first
    | (with_reducible apply Keeps.ite)
    | with_reducible exact Keeps.refl _ _
    | with_reducible assumption
    | (with_reducible apply Keeps.then (State.modOport_keeps ..) ?_ (by decide)))

theorem portChange_keeps : ∀ a0 s a2, Keeps [.cores, .ctxs, .oports, .accesses, .ces, .tallies] s (portChange a0 s a2) := by
  intro a0 s a2
  unfold portChange
  repeat' (first
    | (with_reducible apply Keeps.ite)
    | with_reducible exact Keeps.refl _ _
    | with_reducible assumption
    | (with_reducible apply Keeps.then (State.modOport_keeps ..) ?_ (by decide))
    | (with_reducible apply Keeps.then (linkDown_keeps ..) ?_ (by decide))
    | (with_reducible apply Keeps.then (trainAgain_keeps ..) ?_ (by decide))
    | (with_reducible apply Keeps.then (startTraining_keeps ..) ?_ (by decide))
    | (with_reducible apply Keeps.then (clampLaunch_keeps ..) ?_ (by decide))
    | (with_reducible apply Keeps.foldl)
    | (with_reducible apply Keeps.foldl_snd)
    | (with_reducible refine Keeps.snd (by assumption) ?_)
    | (with_reducible refine Keeps.fst (by assumption) ?_)
    | intro _)

theorem unitChange_keeps : ∀ a0 s a2, Keeps [.uni, .uniBad, .host, .cores, .ctxs, .mports, .tiers, .oports, .lasers, .accesses, .ces, .hps, .tallies, .hub2] s (unitChange a0 s a2) := by
  intro a0 s a2
  unfold unitChange
  repeat' (first
    | (with_reducible apply Keeps.ite)
    | with_reducible exact Keeps.refl _ _
    | with_reducible assumption
    | (with_reducible apply Keeps.then (refuseQueues_keeps ..) ?_ (by decide))
    | (with_reducible apply Keeps.then (adoptTiers_keeps ..) ?_ (by decide))
    | (with_reducible apply Keeps.then (retireSlices_keeps ..) ?_ (by decide))
    | (with_reducible apply Keeps.then (State.modMport_keeps ..) ?_ (by decide))
    | (with_reducible apply Keeps.then (settleLaser_keeps ..) ?_ (by decide))
    | (with_reducible apply Keeps.then (releaseBridge_keeps ..) ?_ (by decide))
    | (with_reducible apply Keeps.then (settleColls_keeps ..) ?_ (by decide))
    | (with_reducible apply Keeps.then (portChange_keeps ..) ?_ (by decide))
    | (with_reducible apply Keeps.foldl)
    | (with_reducible apply Keeps.foldl_snd)
    | (with_reducible refine Keeps.snd (by assumption) ?_)
    | (with_reducible refine Keeps.fst (by assumption) ?_)
    | intro _
    | dsimp only
    | split)

theorem adoptOne_keeps : ∀ s a1, Keeps [.uni, .uniBad, .host, .cores, .ctxs, .mports, .tiers, .oports, .lasers, .accesses, .ces, .hps, .tallies, .weave, .hub2] s (adoptOne s a1) := by
  intro s a1
  unfold adoptOne
  repeat' (first
    | (with_reducible apply Keeps.ite)
    | with_reducible exact Keeps.refl _ _
    | with_reducible assumption
    | (with_reducible apply Keeps.then (unitChange_keeps ..) ?_ (by decide))
    | (with_reducible apply Keeps.foldl)
    | (with_reducible apply Keeps.foldl_snd)
    | (with_reducible refine Keeps.snd (by assumption) ?_)
    | (with_reducible refine Keeps.fst (by assumption) ?_)
    | (with_reducible fail_if_no_progress (apply Keeps.set_weave ?_ (by decide))))

theorem rolledBack_keeps : ∀ s, Keeps [.tallies, .weave] s (rolledBack s) := by
  intro s
  unfold rolledBack
  repeat' (first
    | (with_reducible apply Keeps.ite)
    | with_reducible exact Keeps.refl _ _
    | with_reducible assumption
    | (with_reducible apply Keeps.then (wvEvent_keeps ..) ?_ (by decide))
    | (with_reducible apply Keeps.foldl)
    | (with_reducible apply Keeps.foldl_snd)
    | (with_reducible refine Keeps.snd (by assumption) ?_)
    | (with_reducible refine Keeps.fst (by assumption) ?_)
    | (with_reducible fail_if_no_progress (apply Keeps.set_weave ?_ (by decide))))

theorem closeChange_keeps : ∀ s, Keeps [.uni, .uniBad, .host, .cores, .ctxs, .ibex, .mports, .tiers, .oports, .accesses, .nextTag, .paths, .ces, .hurdles, .hps, .tallies, .weave, .hub2, .sec] s (closeChange s) := by
  intro s
  unfold closeChange
  repeat' (first
    | (with_reducible apply Keeps.ite)
    | with_reducible exact Keeps.refl _ _
    | with_reducible assumption
    | (with_reducible apply Keeps.then (activateGen_keeps ..) ?_ (by decide))
    | (with_reducible apply Keeps.then (rolledBack_keeps ..) ?_ (by decide))
    | (with_reducible apply Keeps.foldl)
    | (with_reducible apply Keeps.foldl_snd)
    | (with_reducible refine Keeps.snd (by assumption) ?_)
    | (with_reducible refine Keeps.fst (by assumption) ?_)
    | intro _
    | dsimp only
    | split)

theorem wvResult_keeps : ∀ s a1, Keeps [.weave] s (wvResult s a1) := by
  intro s a1
  unfold wvResult
  repeat' (first
    | (with_reducible apply Keeps.ite)
    | with_reducible exact Keeps.refl _ _
    | with_reducible assumption
    | (with_reducible apply Keeps.foldl)
    | (with_reducible apply Keeps.foldl_snd)
    | (with_reducible refine Keeps.snd (by assumption) ?_)
    | (with_reducible refine Keeps.fst (by assumption) ?_)
    | (with_reducible fail_if_no_progress (apply Keeps.set_weave ?_ (by decide))))

theorem wvStage_keeps : ∀ s, Keeps [.uniBad, .mports, .tiers, .hps, .tallies, .weave] s (wvStage s) := by
  intro s
  unfold wvStage
  repeat' (first
    | (with_reducible apply Keeps.ite)
    | with_reducible exact Keeps.refl _ _
    | with_reducible assumption
    | (with_reducible apply Keeps.then (wvResult_keeps ..) ?_ (by decide))
    | (with_reducible apply Keeps.then (devTouch_keeps ..) ?_ (by decide))
    | (with_reducible apply Keeps.foldl)
    | (with_reducible apply Keeps.foldl_snd)
    | (with_reducible refine Keeps.snd (by assumption) ?_)
    | (with_reducible refine Keeps.fst (by assumption) ?_)
    | (with_reducible fail_if_no_progress (apply Keeps.set_weave ?_ (by decide)))
    | intro _
    | dsimp only
    | split)

theorem wvApply_keeps : ∀ s a1, Keeps [.weave] s (wvApply s a1) := by
  intro s a1
  unfold wvApply
  repeat' (first
    | (with_reducible apply Keeps.ite)
    | with_reducible exact Keeps.refl _ _
    | with_reducible assumption
    | (with_reducible apply Keeps.then (wvResult_keeps ..) ?_ (by decide))
    | (with_reducible apply Keeps.foldl)
    | (with_reducible apply Keeps.foldl_snd)
    | (with_reducible refine Keeps.snd (by assumption) ?_)
    | (with_reducible refine Keeps.fst (by assumption) ?_)
    | (with_reducible fail_if_no_progress (apply Keeps.set_weave ?_ (by decide)))
    | intro _
    | dsimp only
    | split)

theorem Keeps.settleFence {l : List Field} {s t : State} {change : State → CfgUnit → State} {u : CfgUnit} (h : Keeps l s t)
    (hl : ∀ f ∈ [.tallies, .weave], f ∈ l) (hf : ∀ x c, Keeps l x (change x c)) : Keeps l s (settleFence change t u) := by
  have hp : ∀ v c p, Keeps l v (post v uHub 0 c p) := fun v c p => (Keeps.refl l v).step ((post_keeps ..).mono (m := [.tallies, .weave]) (by decide)) hl
  unfold Machine.settleFence
  dsimp only
  split
  · refine Keeps.trans ?_ (hp _ _ _)
    refine Keeps.step (m := [.tallies, .weave]) ?_ (Keeps.set_weave (Keeps.refl _ _) (by decide)) hl
    exact (h.trans (hp _ _ _)).trans (hf _ _)
  · exact h

theorem Keeps.weaveFence {l : List Field} {s t : State} {change : State → CfgUnit → State} {u : CfgUnit} (h : Keeps l s t)
    (hl : ∀ f ∈ [.uni, .uniBad, .host, .cores, .ctxs, .ibex, .mports, .tiers, .oports, .lasers, .accesses, .nextTag, .paths, .ces, .hps, .tallies, .weave, .hub2], f ∈ l) (hf : ∀ x c, Keeps l x (change x c)) : Keeps l s (weaveFence change t u) := by
  have hp := (post_keeps t uHub 0 0x0A3 (hurdlePay 5 ((unitCode u).1 + 256 * (unitCode u).2) 0x1F)).mono (m := [.uni, .uniBad, .host, .cores, .ctxs, .ibex, .mports, .tiers, .oports, .lasers, .accesses, .nextTag, .paths, .ces, .hps, .tallies, .weave, .hub2]) (by decide)
  unfold Machine.weaveFence
  refine Keeps.settleFence (h.step (Keeps.trans hp ?_) hl) (fun f hm => hl f (by revert f; decide)) hf
  exact Keeps.trans (Keeps.set_weave (Keeps.refl _ _) (by decide)) ((fenceUnit_keeps ..).mono (by decide))

theorem expireWindow_keeps : ∀ s, Keeps [.uni, .uniBad, .host, .cores, .ctxs, .ibex, .mports, .tiers, .oports, .lasers, .accesses, .nextTag, .paths, .ces, .hurdles, .hps, .tallies, .weave, .hub2, .sec] s (expireWindow s) := by
  intro s
  unfold expireWindow
  repeat' (first
    | (with_reducible apply Keeps.ite)
    | with_reducible exact Keeps.refl _ _
    | with_reducible assumption
    | (with_reducible apply Keeps.weaveFence ?_ (by decide))
    | (with_reducible apply Keeps.then (adoptOne_keeps ..) ?_ (by decide))
    | (with_reducible apply Keeps.then (wvEvent_keeps ..) ?_ (by decide))
    | (with_reducible apply Keeps.then (activateGen_keeps ..) ?_ (by decide))
    | (with_reducible apply Keeps.then (releaseBridge_keeps ..) ?_ (by decide))
    | (with_reducible apply Keeps.then (rolledBack_keeps ..) ?_ (by decide))
    | (with_reducible apply Keeps.foldl)
    | (with_reducible apply Keeps.foldl_snd)
    | (with_reducible refine Keeps.snd (by assumption) ?_)
    | (with_reducible refine Keeps.fst (by assumption) ?_)
    | (with_reducible fail_if_no_progress (apply Keeps.set_weave ?_ (by decide)))
    | intro _)

theorem wvAbort_keeps : ∀ s, Keeps [.uni, .uniBad, .host, .cores, .ctxs, .ibex, .mports, .tiers, .oports, .lasers, .accesses, .nextTag, .paths, .ces, .hurdles, .hps, .tallies, .weave, .hub2, .sec] s (wvAbort s) := by
  intro s
  unfold wvAbort
  repeat' (first
    | (with_reducible apply Keeps.ite)
    | with_reducible exact Keeps.refl _ _
    | with_reducible assumption
    | (with_reducible apply Keeps.then (expireWindow_keeps ..) ?_ (by decide))
    | (with_reducible apply Keeps.then (wvResult_keeps ..) ?_ (by decide))
    | (with_reducible apply Keeps.foldl)
    | (with_reducible apply Keeps.foldl_snd)
    | (with_reducible refine Keeps.snd (by assumption) ?_)
    | (with_reducible refine Keeps.fst (by assumption) ?_)
    | (with_reducible fail_if_no_progress (apply Keeps.set_weave ?_ (by decide)))
    | intro _
    | dsimp only
    | split)

theorem wvPersist_keeps : ∀ s, Keeps [.weave] s (wvPersist s) := by
  intro s
  unfold wvPersist
  repeat' (first
    | (with_reducible apply Keeps.ite)
    | with_reducible exact Keeps.refl _ _
    | with_reducible assumption
    | (with_reducible apply Keeps.then (wvResult_keeps ..) ?_ (by decide))
    | (with_reducible apply Keeps.foldl)
    | (with_reducible apply Keeps.foldl_snd)
    | (with_reducible refine Keeps.snd (by assumption) ?_)
    | (with_reducible refine Keeps.fst (by assumption) ?_)
    | (with_reducible fail_if_no_progress (apply Keeps.set_weave ?_ (by decide)))
    | intro _
    | dsimp only
    | split)

theorem wvRun_keeps : ∀ s a1 a2, Keeps [.uni, .uniBad, .host, .cores, .ctxs, .ibex, .mports, .tiers, .oports, .lasers, .accesses, .nextTag, .paths, .ces, .hurdles, .hps, .tallies, .weave, .hub2, .sec] s (wvRun s a1 a2) := by
  intro s a1 a2
  unfold wvRun
  repeat' (first
    | (with_reducible apply Keeps.ite)
    | with_reducible exact Keeps.refl _ _
    | with_reducible assumption
    | (with_reducible apply Keeps.then (wvStage_keeps ..) ?_ (by decide))
    | (with_reducible apply Keeps.then (wvApply_keeps ..) ?_ (by decide))
    | (with_reducible apply Keeps.then (wvAbort_keeps ..) ?_ (by decide))
    | (with_reducible apply Keeps.then (wvPersist_keeps ..) ?_ (by decide))
    | (with_reducible apply Keeps.foldl)
    | (with_reducible apply Keeps.foldl_snd)
    | (with_reducible refine Keeps.snd (by assumption) ?_)
    | (with_reducible refine Keeps.fst (by assumption) ?_)
    | intro _
    | dsimp only
    | split)

theorem wvCtl_keeps : ∀ a0 a1 s, Keeps [.uni, .uniBad, .host, .cores, .ctxs, .ibex, .mports, .tiers, .oports, .lasers, .accesses, .nextTag, .paths, .ces, .hurdles, .hps, .tallies, .weave, .hub2, .sec] s (wvCtl a0 a1 s) := by
  intro a0 a1 s
  unfold wvCtl
  repeat' (first
    | (with_reducible apply Keeps.ite)
    | with_reducible exact Keeps.refl _ _
    | with_reducible assumption
    | (with_reducible apply Keeps.gated ?_ (by decide))
    | (with_reducible apply Keeps.then (wvRun_keeps ..) ?_ (by decide))
    | (with_reducible apply Keeps.foldl)
    | (with_reducible apply Keeps.foldl_snd)
    | (with_reducible refine Keeps.snd (by assumption) ?_)
    | (with_reducible refine Keeps.fst (by assumption) ?_)
    | (with_reducible fail_if_no_progress (apply Keeps.set_hub2 ?_ (by decide)))
    | intro _)

theorem execStage_keeps : ∀ a0 s, Gives [.uni, .uniBad, .host, .cores, .ctxs, .ibex, .mports, .tiers, .oports, .lasers, .accesses, .nextTag, .paths, .ces, .hurdles, .hps, .tallies, .weave, .hub2, .sec] s (execStage a0 s) := by
  intro a0 s
  unfold execStage
  repeat' (first
    | (with_reducible apply Gives.ite)
    | (with_reducible apply Keeps.ite)
    | with_reducible exact Keeps.refl _ _
    | with_reducible assumption
    | (with_reducible apply Keeps.then (wvCtl_keeps ..) ?_ (by decide))
    | (with_reducible apply Gives.next))

theorem execVerificationEnd_keeps : ∀ s, Gives [.weave] s (execVerificationEnd s) := by
  intro s
  unfold execVerificationEnd
  repeat' (first
    | (with_reducible apply Gives.ite)
    | (with_reducible apply Keeps.ite)
    | with_reducible exact Keeps.refl _ _
    | with_reducible assumption
    | (with_reducible apply Gives.next)
    | (with_reducible apply Keeps.foldl)
    | (with_reducible apply Keeps.foldl_snd)
    | (with_reducible refine Keeps.snd (by assumption) ?_)
    | (with_reducible refine Keeps.fst (by assumption) ?_)
    | (with_reducible fail_if_no_progress (apply Keeps.set_weave ?_ (by decide)))
    | intro _
    | dsimp only
    | split)

theorem execApply_keeps : ∀ a0 s, Gives [.uni, .uniBad, .host, .cores, .ctxs, .ibex, .mports, .tiers, .oports, .lasers, .accesses, .nextTag, .paths, .ces, .hurdles, .hps, .tallies, .weave, .hub2, .sec] s (execApply a0 s) := by
  intro a0 s
  unfold execApply
  repeat' (first
    | (with_reducible apply Gives.ite)
    | (with_reducible apply Keeps.ite)
    | with_reducible exact Keeps.refl _ _
    | with_reducible assumption
    | (with_reducible apply Keeps.then (wvCtl_keeps ..) ?_ (by decide))
    | (with_reducible apply Gives.next))

theorem execAbort_keeps : ∀ a0 s, Gives [.uni, .uniBad, .host, .cores, .ctxs, .ibex, .mports, .tiers, .oports, .lasers, .accesses, .nextTag, .paths, .ces, .hurdles, .hps, .tallies, .weave, .hub2, .sec] s (execAbort a0 s) := by
  intro a0 s
  unfold execAbort
  repeat' (first
    | (with_reducible apply Gives.ite)
    | (with_reducible apply Keeps.ite)
    | with_reducible exact Keeps.refl _ _
    | with_reducible assumption
    | (with_reducible apply Keeps.then (wvCtl_keeps ..) ?_ (by decide))
    | (with_reducible apply Gives.next))

theorem execPersist_keeps : ∀ a0 s, Gives [.uni, .uniBad, .host, .cores, .ctxs, .ibex, .mports, .tiers, .oports, .lasers, .accesses, .nextTag, .paths, .ces, .hurdles, .hps, .tallies, .weave, .hub2, .sec] s (execPersist a0 s) := by
  intro a0 s
  unfold execPersist
  repeat' (first
    | (with_reducible apply Gives.ite)
    | (with_reducible apply Keeps.ite)
    | with_reducible exact Keeps.refl _ _
    | with_reducible assumption
    | (with_reducible apply Keeps.then (wvCtl_keeps ..) ?_ (by decide))
    | (with_reducible apply Gives.next))

theorem execPersistEnd_keeps : ∀ a0 s, Gives [.weave] s (execPersistEnd a0 s) := by
  intro a0 s
  unfold execPersistEnd
  repeat' (first
    | (with_reducible apply Gives.ite)
    | (with_reducible apply Keeps.ite)
    | with_reducible exact Keeps.refl _ _
    | with_reducible assumption
    | (with_reducible apply Gives.next)
    | (with_reducible apply Keeps.foldl)
    | (with_reducible apply Keeps.foldl_snd)
    | (with_reducible refine Keeps.snd (by assumption) ?_)
    | (with_reducible refine Keeps.fst (by assumption) ?_)
    | (with_reducible fail_if_no_progress (apply Keeps.set_weave ?_ (by decide)))
    | intro _)

theorem returnOne_keeps : ∀ s a1, Keeps [.uni, .uniBad, .host, .cores, .ctxs, .mports, .tiers, .oports, .lasers, .accesses, .ces, .hps, .tallies, .weave, .hub2] s (returnOne s a1) := by
  intro s a1
  unfold returnOne
  repeat' (first
    | (with_reducible apply Keeps.ite)
    | with_reducible exact Keeps.refl _ _
    | with_reducible assumption
    | (with_reducible apply Keeps.then (unitChange_keeps ..) ?_ (by decide))
    | (with_reducible apply Keeps.foldl)
    | (with_reducible apply Keeps.foldl_snd)
    | (with_reducible refine Keeps.snd (by assumption) ?_)
    | (with_reducible refine Keeps.fst (by assumption) ?_)
    | (with_reducible fail_if_no_progress (apply Keeps.set_weave ?_ (by decide))))

theorem execUnitAdopt_keeps : ∀ a0 a1 s, Gives [.uni, .uniBad, .host, .cores, .ctxs, .ibex, .mports, .tiers, .oports, .lasers, .accesses, .nextTag, .paths, .ces, .hurdles, .hps, .tallies, .weave, .hub2, .sec] s (execUnitAdopt a0 a1 s) := by
  intro a0 a1 s
  unfold execUnitAdopt
  repeat' (first
    | (with_reducible apply Gives.ite)
    | (with_reducible apply Keeps.ite)
    | with_reducible exact Keeps.refl _ _
    | with_reducible assumption
    | (with_reducible apply Keeps.then (closeChange_keeps ..) ?_ (by decide))
    | (with_reducible apply Keeps.settleFence ?_ (by decide))
    | (with_reducible apply Keeps.then (adoptOne_keeps ..) ?_ (by decide))
    | (with_reducible apply Keeps.then (returnOne_keeps ..) ?_ (by decide))
    | (with_reducible apply Keeps.then (expireWindow_keeps ..) ?_ (by decide))
    | (with_reducible apply Keeps.then (adoptFault_keeps ..) ?_ (by decide))
    | (with_reducible apply Gives.next)
    | (with_reducible apply Keeps.foldl)
    | (with_reducible apply Keeps.foldl_snd)
    | (with_reducible refine Keeps.snd (by assumption) ?_)
    | (with_reducible refine Keeps.fst (by assumption) ?_)
    | intro _
    | dsimp only
    | split)

theorem execWindowExpiry_keeps : ∀ s, Gives [.uni, .uniBad, .host, .cores, .ctxs, .ibex, .mports, .tiers, .oports, .lasers, .accesses, .nextTag, .paths, .ces, .hurdles, .hps, .tallies, .weave, .hub2, .sec] s (execWindowExpiry s) := by
  intro s
  unfold execWindowExpiry
  repeat' (first
    | (with_reducible apply Gives.ite)
    | (with_reducible apply Keeps.ite)
    | with_reducible exact Keeps.refl _ _
    | with_reducible assumption
    | (with_reducible apply Keeps.then (expireWindow_keeps ..) ?_ (by decide))
    | (with_reducible apply Gives.next)
    | (with_reducible apply Keeps.foldl)
    | (with_reducible apply Keeps.foldl_snd)
    | (with_reducible refine Keeps.snd (by assumption) ?_)
    | (with_reducible refine Keeps.fst (by assumption) ?_)
    | intro _)

theorem execRollbackWindowExpiry_keeps : ∀ s, Gives [.uni, .uniBad, .host, .cores, .ctxs, .ibex, .mports, .tiers, .oports, .lasers, .accesses, .nextTag, .paths, .ces, .hurdles, .hps, .tallies, .weave, .hub2, .sec] s (execRollbackWindowExpiry s) := by
  intro s
  unfold execRollbackWindowExpiry
  repeat' (first
    | (with_reducible apply Gives.ite)
    | (with_reducible apply Keeps.ite)
    | with_reducible exact Keeps.refl _ _
    | with_reducible assumption
    | (with_reducible apply Keeps.weaveFence ?_ (by decide))
    | (with_reducible apply Keeps.then (returnOne_keeps ..) ?_ (by decide))
    | (with_reducible apply Keeps.then (closeChange_keeps ..) ?_ (by decide))
    | (with_reducible apply Keeps.then (wvEvent_keeps ..) ?_ (by decide))
    | (with_reducible apply Gives.next)
    | (with_reducible apply Keeps.foldl)
    | (with_reducible apply Keeps.foldl_snd)
    | (with_reducible refine Keeps.snd (by assumption) ?_)
    | (with_reducible refine Keeps.fst (by assumption) ?_)
    | intro _)

theorem execLoadingAtBoot_keeps : ∀ s, Gives [.uni, .uniBad, .cores, .ctxs, .mports, .tiers, .oports, .accesses, .ces, .tallies, .weave, .hub2, .sec] s (execLoadingAtBoot s) := by
  intro s
  unfold execLoadingAtBoot
  repeat' (first
    | (with_reducible apply Gives.ite)
    | (with_reducible apply Keeps.ite)
    | with_reducible exact Keeps.refl _ _
    | with_reducible assumption
    | (with_reducible apply Keeps.then (adoptBoot_keeps ..) ?_ (by decide))
    | (with_reducible apply Gives.next)
    | (with_reducible apply Keeps.foldl)
    | (with_reducible apply Keeps.foldl_snd)
    | (with_reducible refine Keeps.snd (by assumption) ?_)
    | (with_reducible refine Keeps.fst (by assumption) ?_)
    | intro _)

theorem execCclkChange_keeps : ∀ a0 a1 s, Gives [.hub2] s (execCclkChange a0 a1 s) := by
  intro a0 a1 s
  unfold execCclkChange
  repeat' (first
    | (with_reducible apply Gives.ite)
    | (with_reducible apply Keeps.ite)
    | with_reducible exact Keeps.refl _ _
    | with_reducible assumption
    | (with_reducible apply Keeps.then (askClk_keeps ..) ?_ (by decide))
    | (with_reducible apply Gives.next)
    | (with_reducible apply Keeps.foldl)
    | (with_reducible apply Keeps.foldl_snd)
    | (with_reducible refine Keeps.snd (by assumption) ?_)
    | (with_reducible refine Keeps.fst (by assumption) ?_)
    | (with_reducible fail_if_no_progress (apply Keeps.set_hub2 ?_ (by decide)))
    | intro _
    | dsimp only
    | split)

end Sys2Proof.Machine
end

