-- ==== Sys2Proof/Laws/Firmware.lean ====
section
/-! SUPPORT. What each operation of Machine/Firmware.lean keeps. -/

namespace Sys2Proof.Machine

open Sys2Proof

theorem keepImage_keeps : ∀ s a1, Keeps [.sec] s (keepImage s a1) := by
  intro s a1
  unfold keepImage
  repeat' (first
    | (with_reducible apply Keeps.ite)
    | with_reducible exact Keeps.refl _ _
    | with_reducible assumption
    | (with_reducible apply Keeps.then (State.modFw_keeps ..) ?_ (by decide)))

theorem execFirmwareReport_keeps : ∀ a0 s, Gives [.tallies, .hub2, .sec] s (execFirmwareReport a0 s) := by
  intro a0 s
  unfold execFirmwareReport
  repeat' (first
    | (with_reducible apply Gives.ite)
    | (with_reducible apply Keeps.ite)
    | with_reducible exact Keeps.refl _ _
    | with_reducible assumption
    | (with_reducible apply Keeps.then (State.modFw_keeps ..) ?_ (by decide))
    | (with_reducible apply Keeps.then (post_keeps ..) ?_ (by decide))
    | (with_reducible apply Keeps.then (keepImage_keeps ..) ?_ (by decide))
    | (with_reducible apply Gives.next)
    | (with_reducible apply Keeps.foldl)
    | (with_reducible apply Keeps.foldl_snd)
    | (with_reducible refine Keeps.snd (by assumption) ?_)
    | (with_reducible refine Keeps.fst (by assumption) ?_)
    | (with_reducible fail_if_no_progress (apply Keeps.set_hub2 ?_ (by decide)))
    | intro _
    | dsimp only
    | split)

theorem timeoutCtx_keeps : ∀ s a1, Keeps [.uni, .uniBad, .host, .cores, .ctxs, .mports, .tiers, .oports, .hps, .tallies, .loads] s (timeoutCtx s a1) := by
  intro s a1
  unfold timeoutCtx
  repeat' (first
    | (with_reducible apply Keeps.ite)
    | with_reducible exact Keeps.refl _ _
    | with_reducible assumption
    | (with_reducible apply Keeps.then (endJobs_keeps ..) ?_ (by decide))
    | (with_reducible apply Keeps.then (State.modCtx_keeps ..) ?_ (by decide))
    | (with_reducible apply Keeps.then (loaderReport_keeps ..) ?_ (by decide))
    | (with_reducible apply Keeps.then (endRequest_keeps ..) ?_ (by decide))
    | (with_reducible apply Keeps.foldl)
    | (with_reducible apply Keeps.foldl_snd)
    | (with_reducible refine Keeps.snd (by assumption) ?_)
    | (with_reducible refine Keeps.fst (by assumption) ?_)
    | intro _)

theorem execWatchdogExpiry_keeps : ∀ a0 s, Gives [.uni, .uniBad, .host, .cores, .ctxs, .mports, .tiers, .oports, .hps, .tallies, .hub2, .sec, .loads] s (execWatchdogExpiry a0 s) := by
  intro a0 s
  unfold execWatchdogExpiry
  repeat' (first
    | (with_reducible apply Gives.ite)
    | (with_reducible apply Keeps.ite)
    | with_reducible exact Keeps.refl _ _
    | with_reducible assumption
    | (with_reducible apply Keeps.then (State.modFw_keeps ..) ?_ (by decide))
    | (with_reducible apply Keeps.then (post_keeps ..) ?_ (by decide))
    | (with_reducible apply Keeps.then (timeoutCtx_keeps ..) ?_ (by decide))
    | (with_reducible apply Gives.next)
    | (with_reducible apply Keeps.foldl)
    | (with_reducible apply Keeps.foldl_snd)
    | (with_reducible refine Keeps.snd (by assumption) ?_)
    | (with_reducible refine Keeps.fst (by assumption) ?_)
    | (with_reducible fail_if_no_progress (apply Keeps.set_hub2 ?_ (by decide)))
    | intro _)

theorem execCoreTest_keeps : ∀ a0 a1 s, Gives [.uni, .uniBad, .host, .cores, .ctxs, .ibex, .mports, .tiers, .oports, .accesses, .nextTag, .paths, .ces, .hurdles, .hps, .tallies, .hub2] s (execCoreTest a0 a1 s) := by
  intro a0 a1 s
  unfold execCoreTest
  repeat' (first
    | (with_reducible apply Gives.ite)
    | (with_reducible apply Keeps.ite)
    | with_reducible exact Keeps.refl _ _
    | with_reducible assumption
    | (with_reducible apply Keeps.then (State.modCore_keeps _ _ _ ?_) ?_ (by decide))
    | (with_reducible exact fun _ h => h)
    | (with_reducible exact fun h => h)
    | (with_reducible apply Keeps.then (proposeUnit_keeps ..) ?_ (by decide))
    | (with_reducible apply Gives.next)
    | (with_reducible apply Keeps.foldl)
    | (with_reducible apply Keeps.foldl_snd)
    | (with_reducible refine Keeps.snd (by assumption) ?_)
    | (with_reducible refine Keeps.fst (by assumption) ?_)
    | intro _
    | dsimp only
    | split)

theorem startImage_keeps : ∀ s a1, Keeps [.sec] s (startImage s a1) := by
  intro s a1
  unfold startImage
  repeat' (first
    | (with_reducible apply Keeps.ite)
    | with_reducible exact Keeps.refl _ _
    | with_reducible assumption
    | (with_reducible apply Keeps.then (State.modFw_keeps ..) ?_ (by decide)))

theorem fwLive_keeps : ∀ s a1 a2, Keeps [.hub2, .sec] s (fwLive s a1 a2) := by
  intro s a1 a2
  unfold fwLive
  repeat' (first
    | (with_reducible apply Keeps.ite)
    | with_reducible exact Keeps.refl _ _
    | with_reducible assumption
    | (with_reducible apply Keeps.then (startImage_keeps ..) ?_ (by decide))
    | (with_reducible apply Keeps.foldl)
    | (with_reducible apply Keeps.foldl_snd)
    | (with_reducible refine Keeps.snd (by assumption) ?_)
    | (with_reducible refine Keeps.fst (by assumption) ?_)
    | (with_reducible fail_if_no_progress (apply Keeps.set_hub2 ?_ (by decide)))
    | intro _)

theorem execActivate_keeps : ∀ a0 a1 s, Gives [.hps, .hub2, .sec] s (execActivate a0 a1 s) := by
  intro a0 a1 s
  unfold execActivate
  repeat' (first
    | (with_reducible apply Gives.ite)
    | (with_reducible apply Keeps.ite)
    | with_reducible exact Keeps.refl _ _
    | with_reducible assumption
    | (with_reducible apply Keeps.gated ?_ (by decide))
    | (with_reducible apply Keeps.then (fwLive_keeps ..) ?_ (by decide))
    | (with_reducible apply Gives.next)
    | (with_reducible apply Keeps.foldl)
    | (with_reducible apply Keeps.foldl_snd)
    | (with_reducible refine Keeps.snd (by assumption) ?_)
    | (with_reducible refine Keeps.fst (by assumption) ?_)
    | intro _)

theorem runHeld_keeps : ∀ s, Keeps [.uni, .uniBad, .host, .cores, .ctxs, .ibex, .mports, .tiers, .oports, .lasers, .accesses, .nextTag, .paths, .ces, .hurdles, .hps, .tallies, .weave, .hub2, .sec] s (runHeld s) := by
  intro s
  unfold runHeld
  repeat' (first
    | (with_reducible apply Keeps.ite)
    | with_reducible exact Keeps.refl _ _
    | with_reducible assumption
    | (with_reducible apply Keeps.then (wvRun_keeps ..) ?_ (by decide))
    | (with_reducible apply Keeps.then (secRun_keeps ..) ?_ (by decide))
    | (with_reducible apply Keeps.foldl)
    | (with_reducible apply Keeps.foldl_snd)
    | (with_reducible refine Keeps.snd (by assumption) ?_)
    | (with_reducible refine Keeps.fst (by assumption) ?_)
    | (with_reducible fail_if_no_progress (apply Keeps.set_hub2 ?_ (by decide)))
    | intro _)

theorem execHandoverComplete_keeps : ∀ s, Gives [.uni, .uniBad, .host, .cores, .ctxs, .ibex, .mports, .tiers, .oports, .lasers, .accesses, .nextTag, .paths, .ces, .hurdles, .hps, .tallies, .weave, .hub2, .sec] s (execHandoverComplete s) := by
  intro s
  unfold execHandoverComplete
  repeat' (first
    | (with_reducible apply Gives.ite)
    | (with_reducible apply Keeps.ite)
    | with_reducible exact Keeps.refl _ _
    | with_reducible assumption
    | (with_reducible apply Keeps.then (runHeld_keeps ..) ?_ (by decide))
    | (with_reducible apply Keeps.then (startImage_keeps ..) ?_ (by decide))
    | (with_reducible apply Gives.next)
    | (with_reducible apply Keeps.foldl)
    | (with_reducible apply Keeps.foldl_snd)
    | (with_reducible refine Keeps.snd (by assumption) ?_)
    | (with_reducible refine Keeps.fst (by assumption) ?_)
    | (with_reducible fail_if_no_progress (apply Keeps.set_hub2 ?_ (by decide)))
    | intro _)

theorem execActivationTimeout_keeps : ∀ s, Gives [.uni, .uniBad, .host, .cores, .ctxs, .ibex, .mports, .tiers, .oports, .lasers, .accesses, .nextTag, .paths, .ces, .hurdles, .hps, .tallies, .weave, .hub2, .sec] s (execActivationTimeout s) := by
  intro s
  unfold execActivationTimeout
  repeat' (first
    | (with_reducible apply Gives.ite)
    | (with_reducible apply Keeps.ite)
    | with_reducible exact Keeps.refl _ _
    | with_reducible assumption
    | (with_reducible apply Keeps.then (State.modFw_keeps ..) ?_ (by decide))
    | (with_reducible apply Keeps.then (runHeld_keeps ..) ?_ (by decide))
    | (with_reducible apply Keeps.then (post_keeps ..) ?_ (by decide))
    | (with_reducible apply Gives.next)
    | (with_reducible apply Keeps.foldl)
    | (with_reducible apply Keeps.foldl_snd)
    | (with_reducible refine Keeps.snd (by assumption) ?_)
    | (with_reducible refine Keeps.fst (by assumption) ?_)
    | (with_reducible fail_if_no_progress (apply Keeps.set_hub2 ?_ (by decide)))
    | intro _)

end Sys2Proof.Machine
end

