-- ==== Sys2Proof/Laws/HostPort.lean ====
section
/-! SUPPORT. What each operation of Machine/HostPort.lean keeps. -/

namespace Sys2Proof.Machine

open Sys2Proof

theorem busBytes_keeps : ∀ s a1 a2, Keeps [.bus2, .poisoned] s (busBytes s a1 a2) := by
  intro s a1 a2
  unfold busBytes
  repeat' (first
    | (with_reducible apply Keeps.ite)
    | with_reducible exact Keeps.refl _ _
    | with_reducible assumption
    | (with_reducible apply Keeps.foldl)
    | (with_reducible apply Keeps.foldl_snd)
    | (with_reducible refine Keeps.snd (by assumption) ?_)
    | (with_reducible refine Keeps.fst (by assumption) ?_)
    | (with_reducible fail_if_no_progress (apply Keeps.set_bus2_poisoned ?_ (by decide))))

theorem execHostLinkTraining_keeps : ∀ a0 a1 a2 a3 s, Gives [.uniBad, .cores, .ctxs, .mports, .tiers, .hps, .tallies] s (execHostLinkTraining a0 a1 a2 a3 s) := by
  intro a0 a1 a2 a3 s
  unfold execHostLinkTraining
  repeat' (first
    | (with_reducible apply Gives.ite)
    | (with_reducible apply Keeps.ite)
    | with_reducible exact Keeps.refl _ _
    | with_reducible assumption
    | (with_reducible apply Keeps.withRewatch ?_ (by decide))
    | (with_reducible apply Keeps.then (State.modHp_keeps ..) ?_ (by decide))
    | (with_reducible apply Gives.next)
    | (with_reducible apply Keeps.foldl)
    | (with_reducible apply Keeps.foldl_snd)
    | (with_reducible refine Keeps.snd (by assumption) ?_)
    | (with_reducible refine Keeps.fst (by assumption) ?_)
    | intro _)

theorem execHotReset_keeps : ∀ a0 s, Gives [.uniBad, .cores, .ctxs, .mports, .tiers, .hps, .tallies] s (execHotReset a0 s) := by
  intro a0 s
  unfold execHotReset
  repeat' (first
    | (with_reducible apply Gives.ite)
    | (with_reducible apply Keeps.ite)
    | with_reducible exact Keeps.refl _ _
    | with_reducible assumption
    | (with_reducible apply Keeps.withRewatch ?_ (by decide))
    | (with_reducible apply Keeps.then (State.modHp_keeps ..) ?_ (by decide))
    | (with_reducible apply Gives.next)
    | (with_reducible apply Keeps.foldl)
    | (with_reducible apply Keeps.foldl_snd)
    | (with_reducible refine Keeps.snd (by assumption) ?_)
    | (with_reducible refine Keeps.fst (by assumption) ?_)
    | intro _)

theorem execBar2Access_keeps : ∀ a0 a1 a2 a3 s, Gives [.uni, .uniBad, .cores, .ctxs, .mports, .tiers, .hps, .tallies, .bus2, .poisoned] s (execBar2Access a0 a1 a2 a3 s) := by
  intro a0 a1 a2 a3 s
  unfold execBar2Access
  repeat' (first
    | (with_reducible apply Gives.ite)
    | (with_reducible apply Keeps.ite)
    | with_reducible exact Keeps.refl _ _
    | with_reducible assumption
    | (with_reducible apply Keeps.then (busBytes_keeps ..) ?_ (by decide))
    | (with_reducible apply Keeps.then (countOutside_keeps ..) ?_ (by decide))
    | (with_reducible apply Keeps.then (State.modHp_keeps ..) ?_ (by decide))
    | (with_reducible apply Keeps.then (post_keeps ..) ?_ (by decide))
    | (with_reducible apply Keeps.then (uniWrite_keeps ..) ?_ (by decide))
    | (with_reducible apply Keeps.then (touchRead_keeps ..) ?_ (by decide))
    | (with_reducible apply Gives.next)
    | (with_reducible apply Keeps.foldl)
    | (with_reducible apply Keeps.foldl_snd)
    | (with_reducible refine Keeps.snd (by assumption) ?_)
    | (with_reducible refine Keeps.fst (by assumption) ?_)
    | intro _
    | dsimp only
    | split)

theorem execHpxHdm_keeps : ∀ a0 a1 a2 s, Gives [.hps] s (execHpxHdm a0 a1 a2 s) := by
  intro a0 a1 a2 s
  unfold execHpxHdm
  repeat' (first
    | (with_reducible apply Gives.ite)
    | (with_reducible apply Keeps.ite)
    | with_reducible exact Keeps.refl _ _
    | with_reducible assumption
    | (with_reducible apply Keeps.gated ?_ (by decide))
    | (with_reducible apply Keeps.then (State.modHp_keeps ..) ?_ (by decide))
    | (with_reducible apply Gives.next)
    | (with_reducible apply Keeps.foldl)
    | (with_reducible apply Keeps.foldl_snd)
    | (with_reducible refine Keeps.snd (by assumption) ?_)
    | (with_reducible refine Keeps.fst (by assumption) ?_)
    | intro _)

theorem servedBy_keeps : ∀ s a1 a2, Keeps [.hps] s (servedBy s a1 a2) := by
  intro s a1 a2
  unfold servedBy
  repeat' (first
    | (with_reducible apply Keeps.ite)
    | with_reducible exact Keeps.refl _ _
    | with_reducible assumption
    | (with_reducible apply Keeps.then (State.modHp_keeps ..) ?_ (by decide)))

theorem execWindowMove_keeps : ∀ a0 s, Gives [.uniBad, .cores, .ctxs, .mports, .tiers, .hps, .windows, .tallies] s (execWindowMove a0 s) := by
  intro a0 s
  unfold execWindowMove
  repeat' (first
    | (with_reducible apply Gives.ite)
    | (with_reducible apply Keeps.ite)
    | with_reducible exact Keeps.refl _ _
    | with_reducible assumption
    | (with_reducible apply Keeps.then (rewatch_keeps ..) ?_ (by decide))
    | (with_reducible apply Gives.next)
    | (with_reducible apply Keeps.foldl)
    | (with_reducible apply Keeps.foldl_snd)
    | (with_reducible refine Keeps.snd (by assumption) ?_)
    | (with_reducible refine Keeps.fst (by assumption) ?_)
    | (with_reducible fail_if_no_progress (apply Keeps.set_windows ?_ (by decide)))
    | intro _)

theorem semGrant_keeps : ∀ s a1 a2 a3 a4, Keeps [.gates] s (semGrant s a1 a2 a3 a4) := by
  intro s a1 a2 a3 a4
  unfold semGrant
  repeat' (first
    | (with_reducible apply Keeps.ite)
    | with_reducible exact Keeps.refl _ _
    | with_reducible assumption
    | (with_reducible apply Keeps.then (State.modGate_keeps ..) ?_ (by decide)))

theorem semResult_keeps : ∀ s a1 a2 a3, Keeps [.gates] s (semResult s a1 a2 a3) := by
  intro s a1 a2 a3
  unfold semResult
  repeat' (first
    | (with_reducible apply Keeps.ite)
    | with_reducible exact Keeps.refl _ _
    | with_reducible assumption
    | (with_reducible apply Keeps.then (State.modGate_keeps ..) ?_ (by decide)))

theorem execAcquire_keeps : ∀ a0 a1 a2 a3 s, Gives [.hps, .gates, .tallies] s (execAcquire a0 a1 a2 a3 s) := by
  intro a0 a1 a2 a3 s
  unfold execAcquire
  repeat' (first
    | (with_reducible apply Gives.ite)
    | (with_reducible apply Keeps.ite)
    | with_reducible exact Keeps.refl _ _
    | with_reducible assumption
    | (with_reducible apply Keeps.gated ?_ (by decide))
    | (with_reducible apply Keeps.then (semGrant_keeps ..) ?_ (by decide))
    | (with_reducible apply Keeps.then (post_keeps ..) ?_ (by decide))
    | (with_reducible apply Keeps.then (semResult_keeps ..) ?_ (by decide))
    | (with_reducible apply Gives.next)
    | (with_reducible apply Keeps.foldl)
    | (with_reducible apply Keeps.foldl_snd)
    | (with_reducible refine Keeps.snd (by assumption) ?_)
    | (with_reducible refine Keeps.fst (by assumption) ?_)
    | intro _)

theorem execRelease_keeps : ∀ a0 a1 a2 a3 s, Gives [.hps, .gates] s (execRelease a0 a1 a2 a3 s) := by
  intro a0 a1 a2 a3 s
  unfold execRelease
  repeat' (first
    | (with_reducible apply Gives.ite)
    | (with_reducible apply Keeps.ite)
    | with_reducible exact Keeps.refl _ _
    | with_reducible assumption
    | (with_reducible apply Keeps.gated ?_ (by decide))
    | (with_reducible apply Keeps.then (semResult_keeps ..) ?_ (by decide))
    | (with_reducible apply Keeps.then (State.modGate_keeps ..) ?_ (by decide))
    | (with_reducible apply Gives.next)
    | (with_reducible apply Keeps.foldl)
    | (with_reducible apply Keeps.foldl_snd)
    | (with_reducible refine Keeps.snd (by assumption) ?_)
    | (with_reducible refine Keeps.fst (by assumption) ?_)
    | intro _
    | dsimp only
    | split)

theorem execRenew_keeps : ∀ a0 a1 a2 a3 a4 s, Gives [.hps, .gates] s (execRenew a0 a1 a2 a3 a4 s) := by
  intro a0 a1 a2 a3 a4 s
  unfold execRenew
  repeat' (first
    | (with_reducible apply Gives.ite)
    | (with_reducible apply Keeps.ite)
    | with_reducible exact Keeps.refl _ _
    | with_reducible assumption
    | (with_reducible apply Keeps.gated ?_ (by decide))
    | (with_reducible apply Keeps.then (semResult_keeps ..) ?_ (by decide))
    | (with_reducible apply Keeps.then (State.modGate_keeps ..) ?_ (by decide))
    | (with_reducible apply Gives.next)
    | (with_reducible apply Keeps.foldl)
    | (with_reducible apply Keeps.foldl_snd)
    | (with_reducible refine Keeps.snd (by assumption) ?_)
    | (with_reducible refine Keeps.fst (by assumption) ?_)
    | intro _
    | dsimp only
    | split)

theorem execLeaseExpiry_keeps : ∀ a0 s, Gives [.gates, .tallies] s (execLeaseExpiry a0 s) := by
  intro a0 s
  unfold execLeaseExpiry
  repeat' (first
    | (with_reducible apply Gives.ite)
    | (with_reducible apply Keeps.ite)
    | with_reducible exact Keeps.refl _ _
    | with_reducible assumption
    | (with_reducible apply Keeps.then (post_keeps ..) ?_ (by decide))
    | (with_reducible apply Keeps.then (State.modGate_keeps ..) ?_ (by decide))
    | (with_reducible apply Gives.next)
    | (with_reducible apply Keeps.foldl)
    | (with_reducible apply Keeps.foldl_snd)
    | (with_reducible refine Keeps.snd (by assumption) ?_)
    | (with_reducible refine Keeps.fst (by assumption) ?_)
    | intro _)

end Sys2Proof.Machine
end

