-- ==== Sys2Proof/Laws/Observe.lean ====
section
/-! SUPPORT. What each operation of Machine/Observe.lean keeps. -/

namespace Sys2Proof.Machine

open Sys2Proof

theorem bbxAdmit_keeps : ∀ s a1, Keeps [.bbx, .hub] s (bbxAdmit s a1) := by
  intro s a1
  unfold bbxAdmit
  repeat' (first
    | (with_reducible apply Keeps.ite)
    | with_reducible exact Keeps.refl _ _
    | with_reducible assumption
    | (with_reducible apply Keeps.foldl)
    | (with_reducible apply Keeps.foldl_snd)
    | (with_reducible refine Keeps.snd (by assumption) ?_)
    | (with_reducible refine Keeps.fst (by assumption) ?_)
    | (with_reducible fail_if_no_progress (apply Keeps.set_bbx ?_ (by decide)))
    | (with_reducible fail_if_no_progress (apply Keeps.set_bbx_hub ?_ (by decide)))
    | intro _)

theorem bbxFreeze_keeps : ∀ s a1, Keeps [.tallies, .bbx] s (bbxFreeze s a1) := by
  intro s a1
  unfold bbxFreeze
  repeat' (first
    | (with_reducible apply Keeps.ite)
    | with_reducible exact Keeps.refl _ _
    | with_reducible assumption
    | (with_reducible apply Keeps.then (post_keeps ..) ?_ (by decide))
    | (with_reducible apply Keeps.foldl)
    | (with_reducible apply Keeps.foldl_snd)
    | (with_reducible refine Keeps.snd (by assumption) ?_)
    | (with_reducible refine Keeps.fst (by assumption) ?_)
    | (with_reducible fail_if_no_progress (apply Keeps.set_bbx ?_ (by decide))))

theorem bbxMarker_keeps : ∀ s a1, Keeps [.bbx] s (bbxMarker s a1) := by
  intro s a1
  unfold bbxMarker
  repeat' (first
    | (with_reducible apply Keeps.ite)
    | with_reducible exact Keeps.refl _ _
    | with_reducible assumption
    | (with_reducible apply Keeps.foldl)
    | (with_reducible apply Keeps.foldl_snd)
    | (with_reducible refine Keeps.snd (by assumption) ?_)
    | (with_reducible refine Keeps.fst (by assumption) ?_)
    | (with_reducible fail_if_no_progress (apply Keeps.set_bbx ?_ (by decide)))
    | intro _)

theorem bbxUnfreeze_keeps : ∀ s, Keeps [.bbx] s (bbxUnfreeze s) := by
  intro s
  unfold bbxUnfreeze
  repeat' (first
    | (with_reducible apply Keeps.ite)
    | with_reducible exact Keeps.refl _ _
    | with_reducible assumption
    | (with_reducible apply Keeps.foldl)
    | (with_reducible apply Keeps.foldl_snd)
    | (with_reducible refine Keeps.snd (by assumption) ?_)
    | (with_reducible refine Keeps.fst (by assumption) ?_)
    | (with_reducible fail_if_no_progress (apply Keeps.set_bbx ?_ (by decide))))

theorem clearCtx_keeps : ∀ s a1, Keeps [.ctxs] s (clearCtx s a1) := by
  intro s a1
  unfold clearCtx
  repeat' (first
    | (with_reducible apply Keeps.ite)
    | with_reducible exact Keeps.refl _ _
    | with_reducible assumption
    | (with_reducible apply Keeps.then (State.modCtx_keeps ..) ?_ (by decide)))

theorem clearDev_keeps : ∀ s, Keeps [.cores, .ibex, .mports, .oports, .lasers, .ces, .folds, .hps, .tallies, .hub, .hub2, .pwr] s (clearDev s) := by
  intro s
  have h := Keeps.set_cores_map (l := [.cores]) (g := fun c => { c.2 with ctr := [], corrected := 0 }) (Keeps.refl _ s) (fun _ => rfl) (by decide)
  unfold clearDev
  refine Keeps.upd (t := { s with cores := s.cores.map (fun c => (c.1, { c.2 with ctr := [], corrected := 0 })) }) (h.mono (by decide)) rfl rfl rfl rfl rfl rfl ?_
  intro f hf
  cases f <;> first | rfl | exact absurd (by decide) hf

theorem tallyCycle_keeps : ∀ s a1, Keeps [.tallies, .bbx, .hub, .hub2] s (tallyCycle s a1) := by
  intro s a1
  unfold tallyCycle
  repeat' (first
    | (with_reducible apply Keeps.ite)
    | with_reducible exact Keeps.refl _ _
    | with_reducible assumption
    | (with_reducible apply Keeps.then (State.modTally_keeps ..) ?_ (by decide))
    | (with_reducible apply Keeps.then (bbxAdmit_keeps ..) ?_ (by decide))
    | (with_reducible apply Keeps.then (post_keeps ..) ?_ (by decide))
    | (with_reducible apply Keeps.foldl)
    | (with_reducible apply Keeps.foldl_snd)
    | (with_reducible refine Keeps.snd (by assumption) ?_)
    | (with_reducible refine Keeps.fst (by assumption) ?_)
    | (with_reducible fail_if_no_progress (apply Keeps.set_hub2 ?_ (by decide)))
    | intro _
    | dsimp only
    | split)

theorem execTallyQueueWrite_keeps : ∀ a0 s, Gives [.tallies, .bbx, .hub, .hub2] s (execTallyQueueWrite a0 s) := by
  intro a0 s
  unfold execTallyQueueWrite
  repeat' (first
    | (with_reducible apply Gives.ite)
    | (with_reducible apply Keeps.ite)
    | with_reducible exact Keeps.refl _ _
    | with_reducible assumption
    | (with_reducible apply Keeps.then (tallyCycle_keeps ..) ?_ (by decide))
    | (with_reducible apply Gives.next))

theorem execCrossTrigger_keeps : ∀ s, Gives [.tallies, .bbx, .hub2] s (execCrossTrigger s) := by
  intro s
  unfold execCrossTrigger
  repeat' (first
    | (with_reducible apply Gives.ite)
    | (with_reducible apply Keeps.ite)
    | with_reducible exact Keeps.refl _ _
    | with_reducible assumption
    | (with_reducible apply Keeps.then (bbxFreeze_keeps ..) ?_ (by decide))
    | (with_reducible apply Gives.next)
    | (with_reducible apply Keeps.foldl)
    | (with_reducible apply Keeps.foldl_snd)
    | (with_reducible refine Keeps.snd (by assumption) ?_)
    | (with_reducible refine Keeps.fst (by assumption) ?_)
    | (with_reducible fail_if_no_progress (apply Keeps.set_tallies_hub2 ?_ (by decide)))
    | intro _)

theorem execTlyFreeze_keeps : ∀ a0 a1 s, Gives [.hps, .tallies] s (execTlyFreeze a0 a1 s) := by
  intro a0 a1 s
  unfold execTlyFreeze
  repeat' (first
    | (with_reducible apply Gives.ite)
    | (with_reducible apply Keeps.ite)
    | with_reducible exact Keeps.refl _ _
    | with_reducible assumption
    | (with_reducible apply Keeps.gated ?_ (by decide))
    | (with_reducible apply Keeps.then (State.modTally_keeps ..) ?_ (by decide))
    | (with_reducible apply Gives.next)
    | (with_reducible apply Keeps.foldl)
    | (with_reducible apply Keeps.foldl_snd)
    | (with_reducible refine Keeps.snd (by assumption) ?_)
    | (with_reducible refine Keeps.fst (by assumption) ?_)
    | intro _)

theorem execRearm_keeps : ∀ a0 a1 s, Gives [.hps, .tallies] s (execRearm a0 a1 s) := by
  intro a0 a1 s
  unfold execRearm
  repeat' (first
    | (with_reducible apply Gives.ite)
    | (with_reducible apply Keeps.ite)
    | with_reducible exact Keeps.refl _ _
    | with_reducible assumption
    | (with_reducible apply Keeps.gated ?_ (by decide))
    | (with_reducible apply Keeps.then (State.modTally_keeps ..) ?_ (by decide))
    | (with_reducible apply Gives.next)
    | (with_reducible apply Keeps.foldl)
    | (with_reducible apply Keeps.foldl_snd)
    | (with_reducible refine Keeps.snd (by assumption) ?_)
    | (with_reducible refine Keeps.fst (by assumption) ?_)
    | intro _)

theorem execBlackBoxWrite_keeps : ∀ s, Gives [.tallies, .bbx] s (execBlackBoxWrite s) := by
  intro s
  unfold execBlackBoxWrite
  repeat' (first
    | (with_reducible apply Gives.ite)
    | (with_reducible apply Keeps.ite)
    | with_reducible exact Keeps.refl _ _
    | with_reducible assumption
    | (with_reducible apply Keeps.then (post_keeps ..) ?_ (by decide))
    | (with_reducible apply Gives.next)
    | (with_reducible apply Keeps.foldl)
    | (with_reducible apply Keeps.foldl_snd)
    | (with_reducible refine Keeps.snd (by assumption) ?_)
    | (with_reducible refine Keeps.fst (by assumption) ?_)
    | (with_reducible fail_if_no_progress (apply Keeps.set_bbx ?_ (by decide)))
    | intro _
    | dsimp only
    | split)

theorem execBbxFreeze_keeps : ∀ a0 s, Gives [.hps, .tallies, .bbx] s (execBbxFreeze a0 s) := by
  intro a0 s
  unfold execBbxFreeze
  repeat' (first
    | (with_reducible apply Gives.ite)
    | (with_reducible apply Keeps.ite)
    | with_reducible exact Keeps.refl _ _
    | with_reducible assumption
    | (with_reducible apply Keeps.gated ?_ (by decide))
    | (with_reducible apply Keeps.then (bbxFreeze_keeps ..) ?_ (by decide))
    | (with_reducible apply Gives.next)
    | (with_reducible apply Keeps.foldl)
    | (with_reducible apply Keeps.foldl_snd)
    | (with_reducible refine Keeps.snd (by assumption) ?_)
    | (with_reducible refine Keeps.fst (by assumption) ?_)
    | intro _)

theorem execUnfreeze_keeps : ∀ a0 s, Gives [.hps, .bbx] s (execUnfreeze a0 s) := by
  intro a0 s
  unfold execUnfreeze
  repeat' (first
    | (with_reducible apply Gives.ite)
    | (with_reducible apply Keeps.ite)
    | with_reducible exact Keeps.refl _ _
    | with_reducible assumption
    | (with_reducible apply Keeps.gated ?_ (by decide))
    | (with_reducible apply Keeps.then (bbxUnfreeze_keeps ..) ?_ (by decide))
    | (with_reducible apply Gives.next)
    | (with_reducible apply Keeps.foldl)
    | (with_reducible apply Keeps.foldl_snd)
    | (with_reducible refine Keeps.snd (by assumption) ?_)
    | (with_reducible refine Keeps.fst (by assumption) ?_)
    | intro _)

theorem scheduleDev_keeps : ∀ s, Keeps [.hub2] s (scheduleDev s) := by
  intro s
  unfold scheduleDev
  repeat' (first
    | (with_reducible apply Keeps.ite)
    | with_reducible exact Keeps.refl _ _
    | with_reducible assumption
    | (with_reducible apply Keeps.foldl)
    | (with_reducible apply Keeps.foldl_snd)
    | (with_reducible refine Keeps.snd (by assumption) ?_)
    | (with_reducible refine Keeps.fst (by assumption) ?_)
    | (with_reducible fail_if_no_progress (apply Keeps.set_hub2 ?_ (by decide)))
    | intro _
    | dsimp only
    | split)

theorem execDeviceScopeReset_keeps : ∀ a0 s, Gives [.hps, .hub2] s (execDeviceScopeReset a0 s) := by
  intro a0 s
  unfold execDeviceScopeReset
  repeat' (first
    | (with_reducible apply Gives.ite)
    | (with_reducible apply Keeps.ite)
    | with_reducible exact Keeps.refl _ _
    | with_reducible assumption
    | (with_reducible apply Keeps.gated ?_ (by decide))
    | (with_reducible apply Keeps.then (scheduleDev_keeps ..) ?_ (by decide))
    | (with_reducible apply Gives.next)
    | (with_reducible apply Keeps.foldl)
    | (with_reducible apply Keeps.foldl_snd)
    | (with_reducible refine Keeps.snd (by assumption) ?_)
    | (with_reducible refine Keeps.fst (by assumption) ?_)
    | intro _)

theorem scheduleCtx_keeps : ∀ s a1, Keeps [.ctxs] s (scheduleCtx s a1) := by
  intro s a1
  unfold scheduleCtx
  repeat' (first
    | (with_reducible apply Keeps.ite)
    | with_reducible exact Keeps.refl _ _
    | with_reducible assumption
    | (with_reducible apply Keeps.then (State.modCtx_keeps ..) ?_ (by decide))
    | (with_reducible apply Keeps.foldl)
    | (with_reducible apply Keeps.foldl_snd)
    | (with_reducible refine Keeps.snd (by assumption) ?_)
    | (with_reducible refine Keeps.fst (by assumption) ?_)
    | intro _
    | dsimp only
    | split)

theorem execContextScopeReset_keeps : ∀ a0 a1 s, Gives [.ctxs, .hps] s (execContextScopeReset a0 a1 s) := by
  intro a0 a1 s
  unfold execContextScopeReset
  repeat' (first
    | (with_reducible apply Gives.ite)
    | (with_reducible apply Keeps.ite)
    | with_reducible exact Keeps.refl _ _
    | with_reducible assumption
    | (with_reducible apply Keeps.gated ?_ (by decide))
    | (with_reducible apply Keeps.then (scheduleCtx_keeps ..) ?_ (by decide))
    | (with_reducible apply Gives.next)
    | (with_reducible apply Keeps.foldl)
    | (with_reducible apply Keeps.foldl_snd)
    | (with_reducible refine Keeps.snd (by assumption) ?_)
    | (with_reducible refine Keeps.fst (by assumption) ?_)
    | intro _)

theorem execGo_keeps : ∀ a0 a1 s, Gives [.ctxs, .hps] s (execGo a0 a1 s) := by
  intro a0 a1 s
  unfold execGo
  repeat' (first
    | (with_reducible apply Gives.ite)
    | (with_reducible apply Keeps.ite)
    | with_reducible exact Keeps.refl _ _
    | with_reducible assumption
    | (with_reducible apply Keeps.gated ?_ (by decide))
    | (with_reducible apply Keeps.then (scheduleCtx_keeps ..) ?_ (by decide))
    | (with_reducible apply Gives.next)
    | (with_reducible apply Keeps.foldl)
    | (with_reducible apply Keeps.foldl_snd)
    | (with_reducible refine Keeps.snd (by assumption) ?_)
    | (with_reducible refine Keeps.fst (by assumption) ?_)
    | intro _)

theorem execCounterClear_keeps : ∀ a0 s, Gives [.cores, .ctxs, .ibex, .mports, .oports, .lasers, .ces, .folds, .hps, .tallies, .hub, .hub2, .pwr] s (execCounterClear a0 s) := by
  intro a0 s
  unfold execCounterClear
  repeat' (first
    | (with_reducible apply Gives.ite)
    | (with_reducible apply Keeps.ite)
    | with_reducible exact Keeps.refl _ _
    | with_reducible assumption
    | (with_reducible apply Keeps.then (clearDev_keeps ..) ?_ (by decide))
    | (with_reducible apply Keeps.then (post_keeps ..) ?_ (by decide))
    | (with_reducible apply Keeps.then (State.modCtx_keeps ..) ?_ (by decide))
    | (with_reducible apply Keeps.then (clearCtx_keeps ..) ?_ (by decide))
    | (with_reducible apply Gives.next)
    | (with_reducible apply Keeps.foldl)
    | (with_reducible apply Keeps.foldl_snd)
    | (with_reducible refine Keeps.snd (by assumption) ?_)
    | (with_reducible refine Keeps.fst (by assumption) ?_)
    | (with_reducible fail_if_no_progress (apply Keeps.set_hub2 ?_ (by decide)))
    | intro _
    | dsimp only
    | split)

end Sys2Proof.Machine
end

