-- ==== Sys2Proof/Laws/Optics.lean ====
section
/-! SUPPORT. What each operation of Machine/Optics.lean keeps. -/

namespace Sys2Proof.Machine

open Sys2Proof

theorem startCal_keeps : ∀ s a1 a2, Keeps [.oports, .tallies] s (startCal s a1 a2) := by
  intro s a1 a2
  unfold startCal
  repeat' (first
    | (with_reducible apply Keeps.ite)
    | with_reducible exact Keeps.refl _ _
    | with_reducible assumption
    | (with_reducible apply Keeps.then (post_keeps ..) ?_ (by decide))
    | (with_reducible apply Keeps.then (State.modOport_keeps ..) ?_ (by decide))
    | (with_reducible apply Keeps.foldl)
    | (with_reducible apply Keeps.foldl_snd)
    | (with_reducible refine Keeps.snd (by assumption) ?_)
    | (with_reducible refine Keeps.fst (by assumption) ?_)
    | intro _)

theorem execRecal_keeps : ∀ a0 a1 s, Gives [.oports, .hps, .tallies] s (execRecal a0 a1 s) := by
  intro a0 a1 s
  unfold execRecal
  repeat' (first
    | (with_reducible apply Gives.ite)
    | (with_reducible apply Keeps.ite)
    | with_reducible exact Keeps.refl _ _
    | with_reducible assumption
    | (with_reducible apply Keeps.gated ?_ (by decide))
    | (with_reducible apply Keeps.then (startCal_keeps ..) ?_ (by decide))
    | (with_reducible apply Gives.next)
    | (with_reducible apply Keeps.foldl)
    | (with_reducible apply Keeps.foldl_snd)
    | (with_reducible refine Keeps.snd (by assumption) ?_)
    | (with_reducible refine Keeps.fst (by assumption) ?_)
    | intro _)

theorem execRetrain_keeps : ∀ a0 a1 s, Gives [.uni, .uniBad, .host, .cores, .ctxs, .mports, .tiers, .oports, .accesses, .ces, .hps, .tallies, .hub2] s (execRetrain a0 a1 s) := by
  intro a0 a1 s
  unfold execRetrain
  repeat' (first
    | (with_reducible apply Gives.ite)
    | (with_reducible apply Keeps.ite)
    | with_reducible exact Keeps.refl _ _
    | with_reducible assumption
    | (with_reducible apply Keeps.gated ?_ (by decide))
    | (with_reducible apply Keeps.then (State.modOport_keeps ..) ?_ (by decide))
    | (with_reducible apply Keeps.then (settleColls_keeps ..) ?_ (by decide))
    | (with_reducible apply Keeps.then (startTraining_keeps ..) ?_ (by decide))
    | (with_reducible apply Keeps.then (linkDown_keeps ..) ?_ (by decide))
    | (with_reducible apply Gives.next)
    | (with_reducible apply Keeps.foldl)
    | (with_reducible apply Keeps.foldl_snd)
    | (with_reducible refine Keeps.snd (by assumption) ?_)
    | (with_reducible refine Keeps.fst (by assumption) ?_)
    | intro _)

theorem execCleartrip_keeps : ∀ a0 a1 s, Gives [.uni, .uniBad, .host, .cores, .ctxs, .mports, .tiers, .oports, .accesses, .ces, .hps, .tallies, .hub2] s (execCleartrip a0 a1 s) := by
  intro a0 a1 s
  unfold execCleartrip
  repeat' (first
    | (with_reducible apply Gives.ite)
    | (with_reducible apply Keeps.ite)
    | with_reducible exact Keeps.refl _ _
    | with_reducible assumption
    | (with_reducible apply Keeps.gated ?_ (by decide))
    | (with_reducible apply Keeps.then (State.modOport_keeps ..) ?_ (by decide))
    | (with_reducible apply Keeps.then (settleColls_keeps ..) ?_ (by decide))
    | (with_reducible apply Keeps.then (startTraining_keeps ..) ?_ (by decide))
    | (with_reducible apply Gives.next)
    | (with_reducible apply Keeps.foldl)
    | (with_reducible apply Keeps.foldl_snd)
    | (with_reducible refine Keeps.snd (by assumption) ?_)
    | (with_reducible refine Keeps.fst (by assumption) ?_)
    | intro _)

theorem execTrackingError_keeps : ∀ a0 s, Gives [.oports, .tallies] s (execTrackingError a0 s) := by
  intro a0 s
  unfold execTrackingError
  repeat' (first
    | (with_reducible apply Gives.ite)
    | (with_reducible apply Keeps.ite)
    | with_reducible exact Keeps.refl _ _
    | with_reducible assumption
    | (with_reducible apply Keeps.then (startCal_keeps ..) ?_ (by decide))
    | (with_reducible apply Gives.next))

theorem execErrorRatioTrigger_keeps : ∀ a0 s, Gives [.oports, .tallies] s (execErrorRatioTrigger a0 s) := by
  intro a0 s
  unfold execErrorRatioTrigger
  repeat' (first
    | (with_reducible apply Gives.ite)
    | (with_reducible apply Keeps.ite)
    | with_reducible exact Keeps.refl _ _
    | with_reducible assumption
    | (with_reducible apply Keeps.then (startCal_keeps ..) ?_ (by decide))
    | (with_reducible apply Gives.next))

theorem execCalibrationSweep_keeps : ∀ a0 s, Gives [.uni, .uniBad, .host, .cores, .ctxs, .mports, .tiers, .oports, .lasers, .accesses, .ces, .hps, .tallies, .hub2] s (execCalibrationSweep a0 s) := by
  intro a0 s
  unfold execCalibrationSweep
  repeat' (first
    | (with_reducible apply Gives.ite)
    | (with_reducible apply Keeps.ite)
    | with_reducible exact Keeps.refl _ _
    | with_reducible assumption
    | (with_reducible apply Keeps.then (settleLaser_keeps ..) ?_ (by decide))
    | (with_reducible apply Keeps.then (settleColls_keeps ..) ?_ (by decide))
    | (with_reducible apply Keeps.then (startTraining_keeps ..) ?_ (by decide))
    | (with_reducible apply Keeps.then (State.modOport_keeps ..) ?_ (by decide))
    | (with_reducible apply Gives.next)
    | (with_reducible apply Keeps.foldl)
    | (with_reducible apply Keeps.foldl_snd)
    | (with_reducible refine Keeps.snd (by assumption) ?_)
    | (with_reducible refine Keeps.fst (by assumption) ?_)
    | intro _)

theorem laserCal_keeps : ∀ s a1 a2, Keeps [.oports, .lasers, .tallies] s (laserCal s a1 a2) := by
  intro s a1 a2
  unfold laserCal
  repeat' (first
    | (with_reducible apply Keeps.ite)
    | with_reducible exact Keeps.refl _ _
    | with_reducible assumption
    | (with_reducible apply Keeps.then (startCal_keeps ..) ?_ (by decide))
    | (with_reducible apply Keeps.then (State.modLaser_keeps ..) ?_ (by decide))
    | (with_reducible apply Keeps.then (freeBelow_keeps ..) ?_ (by decide))
    | (with_reducible apply Keeps.then (settleLaser_keeps ..) ?_ (by decide))
    | (with_reducible apply Keeps.foldl)
    | (with_reducible apply Keeps.foldl_snd)
    | (with_reducible refine Keeps.snd (by assumption) ?_)
    | (with_reducible refine Keeps.fst (by assumption) ?_)
    | intro _)

theorem execLsRecal_keeps : ∀ a0 a1 s, Gives [.oports, .lasers, .hps, .tallies] s (execLsRecal a0 a1 s) := by
  intro a0 a1 s
  unfold execLsRecal
  repeat' (first
    | (with_reducible apply Gives.ite)
    | (with_reducible apply Keeps.ite)
    | with_reducible exact Keeps.refl _ _
    | with_reducible assumption
    | (with_reducible apply Keeps.gated ?_ (by decide))
    | (with_reducible apply Keeps.then (laserCal_keeps ..) ?_ (by decide))
    | (with_reducible apply Gives.next)
    | (with_reducible apply Keeps.foldl)
    | (with_reducible apply Keeps.foldl_snd)
    | (with_reducible refine Keeps.snd (by assumption) ?_)
    | (with_reducible refine Keeps.fst (by assumption) ?_)
    | intro _)

theorem execLockLoss_keeps : ∀ a0 a1 s, Gives [.oports, .lasers, .tallies] s (execLockLoss a0 a1 s) := by
  intro a0 a1 s
  unfold execLockLoss
  repeat' (first
    | (with_reducible apply Gives.ite)
    | (with_reducible apply Keeps.ite)
    | with_reducible exact Keeps.refl _ _
    | with_reducible assumption
    | (with_reducible apply Keeps.then (laserCal_keeps ..) ?_ (by decide))
    | (with_reducible apply Keeps.then (State.modLaser_keeps ..) ?_ (by decide))
    | (with_reducible apply Gives.next)
    | (with_reducible apply Keeps.foldl)
    | (with_reducible apply Keeps.foldl_snd)
    | (with_reducible refine Keeps.snd (by assumption) ?_)
    | (with_reducible refine Keeps.fst (by assumption) ?_)
    | intro _)

theorem execEyeSafetyTrip_keeps : ∀ a0 a1 a2 s, Gives [.oports, .lasers, .tallies] s (execEyeSafetyTrip a0 a1 a2 s) := by
  intro a0 a1 a2 s
  unfold execEyeSafetyTrip
  repeat' (first
    | (with_reducible apply Gives.ite)
    | (with_reducible apply Keeps.ite)
    | with_reducible exact Keeps.refl _ _
    | with_reducible assumption
    | (with_reducible apply Keeps.then (settleLaser_keeps ..) ?_ (by decide))
    | (with_reducible apply Keeps.then (post_keeps ..) ?_ (by decide))
    | (with_reducible apply Keeps.then (State.modOport_keeps ..) ?_ (by decide))
    | (with_reducible apply Gives.next)
    | (with_reducible apply Keeps.foldl)
    | (with_reducible apply Keeps.foldl_snd)
    | (with_reducible refine Keeps.snd (by assumption) ?_)
    | (with_reducible refine Keeps.fst (by assumption) ?_)
    | intro _)

end Sys2Proof.Machine
end

