-- ==== Sys2Proof/Laws/Options.lean ====
section
/-! SUPPORT. What each operation of Machine/Options.lean keeps. -/

namespace Sys2Proof.Machine

open Sys2Proof

theorem optBoot_keeps : ∀ s, Keeps [.tallies, .opt] s (optBoot s) := by
  intro s
  unfold optBoot
  repeat' (first
    | (with_reducible apply Keeps.ite)
    | with_reducible exact Keeps.refl _ _
    | with_reducible assumption
    | (with_reducible apply Keeps.then (post_keeps ..) ?_ (by decide))
    | (with_reducible apply Keeps.foldl)
    | (with_reducible apply Keeps.foldl_snd)
    | (with_reducible refine Keeps.snd (by assumption) ?_)
    | (with_reducible refine Keeps.fst (by assumption) ?_)
    | (with_reducible fail_if_no_progress (apply Keeps.set_opt ?_ (by decide)))
    | intro _)

theorem optProgram_keeps : ∀ s, Keeps [.opt] s (optProgram s) := by
  intro s
  unfold optProgram
  repeat' (first
    | (with_reducible apply Keeps.ite)
    | with_reducible exact Keeps.refl _ _
    | with_reducible assumption
    | (with_reducible apply Keeps.foldl)
    | (with_reducible apply Keeps.foldl_snd)
    | (with_reducible refine Keeps.snd (by assumption) ?_)
    | (with_reducible refine Keeps.fst (by assumption) ?_)
    | (with_reducible fail_if_no_progress (apply Keeps.set_opt ?_ (by decide)))
    | intro _)

theorem execProgram_keeps : ∀ a0 s, Gives [.hps, .opt] s (execProgram a0 s) := by
  intro a0 s
  unfold execProgram
  repeat' (first
    | (with_reducible apply Gives.ite)
    | (with_reducible apply Keeps.ite)
    | with_reducible exact Keeps.refl _ _
    | with_reducible assumption
    | (with_reducible apply Keeps.gated ?_ (by decide))
    | (with_reducible apply Keeps.then (optProgram_keeps ..) ?_ (by decide))
    | (with_reducible apply Gives.next)
    | (with_reducible apply Keeps.foldl)
    | (with_reducible apply Keeps.foldl_snd)
    | (with_reducible refine Keeps.snd (by assumption) ?_)
    | (with_reducible refine Keeps.fst (by assumption) ?_)
    | intro _)

end Sys2Proof.Machine
end

