-- ==== Sys2Proof/Laws/Power.lean ====
section
/-! SUPPORT. What each operation of Machine/Power.lean keeps. -/

namespace Sys2Proof.Machine

open Sys2Proof

theorem missEdge_keeps : ∀ s a1, Keeps [.hub2] s (missEdge s a1) := by
  intro s a1
  unfold missEdge
  repeat' (first
    | (with_reducible apply Keeps.ite)
    | with_reducible exact Keeps.refl _ _
    | with_reducible assumption
    | (with_reducible apply Keeps.foldl)
    | (with_reducible apply Keeps.foldl_snd)
    | (with_reducible refine Keeps.snd (by assumption) ?_)
    | (with_reducible refine Keeps.fst (by assumption) ?_)
    | (with_reducible fail_if_no_progress (apply Keeps.set_hub2 ?_ (by decide))))

theorem applyEdge_keeps : ∀ s a1, Keeps [.uni, .uniBad, .host, .cores, .ctxs, .mports, .tiers, .hps, .tallies, .hub2] s (applyEdge s a1) := by
  intro s a1
  unfold applyEdge
  repeat' (first
    | (with_reducible apply Keeps.ite)
    | with_reducible exact Keeps.refl _ _
    | with_reducible assumption
    | (with_reducible apply Keeps.then (missEdge_keeps ..) ?_ (by decide))
    | (with_reducible apply Keeps.then (applySignal_keeps ..) ?_ (by decide))
    | (with_reducible apply Keeps.foldl)
    | (with_reducible apply Keeps.foldl_snd)
    | (with_reducible refine Keeps.snd (by assumption) ?_)
    | (with_reducible refine Keeps.fst (by assumption) ?_)
    | intro _)

theorem cleared_keeps : ∀ s a1, Keeps [.time, .slew, .slewUs, .uni, .uniBad, .cores, .ctxs, .dieHeld, .ibex, .mports, .tiers, .oports, .lasers, .accesses, .nextTag, .paths, .ces, .areas, .folds, .hurdles, .hps, .windows, .gates, .tallies, .weave, .hub2, .pwr, .opt, .sec, .manifests, .loads] s (cleared s a1) := by
  intro s a1
  refine ⟨⟨rfl, ?_⟩, fun h => ?_, rfl, Nat.le_refl _⟩
  · intro f hf
    cases f <;> first | rfl | exact absurd (by decide) hf
  · refine ⟨?_, h.2.1, fun n => rfl⟩
    unfold cleared
    dsimp only
    split
    exacts [rfl, h.1]

theorem beginReset_keeps : ∀ s a1, Keeps [.time, .slew, .slewUs, .uni, .uniBad, .cores, .ctxs, .dieHeld, .ibex, .mports, .tiers, .oports, .lasers, .accesses, .nextTag, .paths, .ces, .areas, .folds, .hurdles, .hps, .windows, .gates, .tallies, .bbx, .weave, .hub, .hub2, .pwr, .opt, .sec, .manifests, .loads] s (beginReset s a1) := by
  intro s a1
  unfold beginReset
  repeat' (first
    | (with_reducible apply Keeps.ite)
    | with_reducible exact Keeps.refl _ _
    | with_reducible assumption
    | (with_reducible apply Keeps.then (bbxMarker_keeps ..) ?_ (by decide))
    | (with_reducible apply Keeps.then (finishMoves_keeps ..) ?_ (by decide))
    | (with_reducible apply Keeps.then (cleared_keeps ..) ?_ (by decide))
    | (with_reducible apply Keeps.foldl)
    | (with_reducible apply Keeps.foldl_snd)
    | (with_reducible refine Keeps.snd (by assumption) ?_)
    | (with_reducible refine Keeps.fst (by assumption) ?_)
    | (with_reducible fail_if_no_progress (apply Keeps.set_bbx_hub ?_ (by decide))))

theorem recognise_keeps : ∀ s a1, Keeps [.time, .slew, .slewUs, .uni, .uniBad, .cores, .ctxs, .dieHeld, .ibex, .mports, .tiers, .oports, .lasers, .accesses, .nextTag, .paths, .ces, .areas, .folds, .hurdles, .hps, .windows, .gates, .tallies, .bbx, .weave, .hub, .hub2, .pwr, .opt, .sec, .manifests, .loads] s (recognise s a1) := by
  intro s a1
  unfold recognise
  repeat' (first
    | (with_reducible apply Keeps.ite)
    | with_reducible exact Keeps.refl _ _
    | with_reducible assumption
    | (with_reducible apply Keeps.then (beginReset_keeps ..) ?_ (by decide))
    | (with_reducible apply Keeps.foldl)
    | (with_reducible apply Keeps.foldl_snd)
    | (with_reducible refine Keeps.snd (by assumption) ?_)
    | (with_reducible refine Keeps.fst (by assumption) ?_)
    | (with_reducible fail_if_no_progress (apply Keeps.set_hub ?_ (by decide)))
    | intro _)

theorem execPowerOn_keeps : ∀ s, Gives [.time, .slew, .slewUs, .uni, .uniBad, .cores, .ctxs, .dieHeld, .ibex, .mports, .tiers, .oports, .lasers, .accesses, .nextTag, .paths, .ces, .areas, .folds, .hurdles, .hps, .windows, .gates, .tallies, .bbx, .weave, .hub, .hub2, .pwr, .opt, .sec, .manifests, .loads] s (execPowerOn s) := by
  intro s
  unfold execPowerOn
  repeat' (first
    | (with_reducible apply Gives.ite)
    | (with_reducible apply Keeps.ite)
    | with_reducible exact Keeps.refl _ _
    | with_reducible assumption
    | (with_reducible apply Keeps.then (recognise_keeps ..) ?_ (by decide))
    | (with_reducible apply Gives.next)
    | (with_reducible apply Keeps.foldl)
    | (with_reducible apply Keeps.foldl_snd)
    | (with_reducible refine Keeps.snd (by assumption) ?_)
    | (with_reducible refine Keeps.fst (by assumption) ?_)
    | intro _)

theorem execSoftStart_keeps : ∀ a0 s, Gives [.hub] s (execSoftStart a0 s) := by
  intro a0 s
  unfold execSoftStart
  repeat' (first
    | (with_reducible apply Gives.ite)
    | (with_reducible apply Keeps.ite)
    | with_reducible exact Keeps.refl _ _
    | with_reducible assumption
    | (with_reducible apply Gives.next)
    | (with_reducible apply Keeps.foldl)
    | (with_reducible apply Keeps.foldl_snd)
    | (with_reducible refine Keeps.snd (by assumption) ?_)
    | (with_reducible refine Keeps.fst (by assumption) ?_)
    | (with_reducible fail_if_no_progress (apply Keeps.set_hub ?_ (by decide))))

theorem execPwrfail_keeps : ∀ s, Gives [.time, .slew, .slewUs, .uni, .uniBad, .cores, .ctxs, .dieHeld, .ibex, .mports, .tiers, .oports, .lasers, .accesses, .nextTag, .paths, .ces, .areas, .folds, .hurdles, .hps, .windows, .gates, .tallies, .bbx, .weave, .hub, .hub2, .pwr, .opt, .sec, .manifests, .loads] s (execPwrfail s) := by
  intro s
  unfold execPwrfail
  repeat' (first
    | (with_reducible apply Gives.ite)
    | (with_reducible apply Keeps.ite)
    | with_reducible exact Keeps.refl _ _
    | with_reducible assumption
    | (with_reducible apply Keeps.then (recognise_keeps ..) ?_ (by decide))
    | (with_reducible apply Gives.next)
    | (with_reducible apply Keeps.foldl)
    | (with_reducible apply Keeps.foldl_snd)
    | (with_reducible refine Keeps.snd (by assumption) ?_)
    | (with_reducible refine Keeps.fst (by assumption) ?_)
    | (with_reducible fail_if_no_progress (apply Keeps.set_hub ?_ (by decide))))

theorem execPin_keeps : ∀ s, Gives [.time, .slew, .slewUs, .uni, .uniBad, .cores, .ctxs, .dieHeld, .ibex, .mports, .tiers, .oports, .lasers, .accesses, .nextTag, .paths, .ces, .areas, .folds, .hurdles, .hps, .windows, .gates, .tallies, .bbx, .weave, .hub, .hub2, .pwr, .opt, .sec, .manifests, .loads] s (execPin s) := by
  intro s
  unfold execPin
  repeat' (first
    | (with_reducible apply Gives.ite)
    | (with_reducible apply Keeps.ite)
    | with_reducible exact Keeps.refl _ _
    | with_reducible assumption
    | (with_reducible apply Keeps.then (recognise_keeps ..) ?_ (by decide))
    | (with_reducible apply Gives.next))

theorem execVin_keeps : ∀ s, Gives [.time, .slew, .slewUs, .uni, .uniBad, .cores, .ctxs, .dieHeld, .ibex, .mports, .tiers, .oports, .lasers, .accesses, .nextTag, .paths, .ces, .areas, .folds, .hurdles, .hps, .windows, .gates, .tallies, .bbx, .weave, .hub, .hub2, .pwr, .opt, .sec, .manifests, .loads] s (execVin s) := by
  intro s
  unfold execVin
  repeat' (first
    | (with_reducible apply Gives.ite)
    | (with_reducible apply Keeps.ite)
    | with_reducible exact Keeps.refl _ _
    | with_reducible assumption
    | (with_reducible apply Keeps.then (recognise_keeps ..) ?_ (by decide))
    | (with_reducible apply Gives.next)
    | (with_reducible apply Keeps.foldl)
    | (with_reducible apply Keeps.foldl_snd)
    | (with_reducible refine Keeps.snd (by assumption) ?_)
    | (with_reducible refine Keeps.fst (by assumption) ?_)
    | (with_reducible fail_if_no_progress (apply Keeps.set_hub ?_ (by decide))))

theorem execStageFault_keeps : ∀ a0 s, Gives [.time, .slew, .slewUs, .uni, .uniBad, .cores, .ctxs, .dieHeld, .ibex, .mports, .tiers, .oports, .lasers, .accesses, .nextTag, .paths, .ces, .areas, .folds, .hurdles, .hps, .windows, .gates, .tallies, .bbx, .weave, .hub, .hub2, .pwr, .opt, .sec, .manifests, .loads] s (execStageFault a0 s) := by
  intro a0 s
  unfold execStageFault
  repeat' (first
    | (with_reducible apply Gives.ite)
    | (with_reducible apply Keeps.ite)
    | with_reducible exact Keeps.refl _ _
    | with_reducible assumption
    | (with_reducible apply Keeps.then (recognise_keeps ..) ?_ (by decide))
    | (with_reducible apply Gives.next)
    | (with_reducible apply Keeps.foldl)
    | (with_reducible apply Keeps.foldl_snd)
    | (with_reducible refine Keeps.snd (by assumption) ?_)
    | (with_reducible refine Keeps.fst (by assumption) ?_)
    | (with_reducible fail_if_no_progress (apply Keeps.set_hub ?_ (by decide))))

theorem execRefloss_keeps : ∀ s, Gives [.time, .slew, .slewUs, .uni, .uniBad, .cores, .ctxs, .dieHeld, .ibex, .mports, .tiers, .oports, .lasers, .accesses, .nextTag, .paths, .ces, .areas, .folds, .hurdles, .hps, .windows, .gates, .tallies, .bbx, .weave, .hub, .hub2, .pwr, .opt, .sec, .manifests, .loads] s (execRefloss s) := by
  intro s
  unfold execRefloss
  repeat' (first
    | (with_reducible apply Gives.ite)
    | (with_reducible apply Keeps.ite)
    | with_reducible exact Keeps.refl _ _
    | with_reducible assumption
    | (with_reducible apply Keeps.then (recognise_keeps ..) ?_ (by decide))
    | (with_reducible apply Gives.next)
    | (with_reducible apply Keeps.foldl)
    | (with_reducible apply Keeps.foldl_snd)
    | (with_reducible refine Keeps.snd (by assumption) ?_)
    | (with_reducible refine Keeps.fst (by assumption) ?_)
    | (with_reducible fail_if_no_progress (apply Keeps.set_hub ?_ (by decide))))

theorem execVbakFault_keeps : ∀ s, Gives [.hub, .sec] s (execVbakFault s) := by
  intro s
  unfold execVbakFault
  repeat' (first
    | (with_reducible apply Gives.ite)
    | (with_reducible apply Keeps.ite)
    | with_reducible exact Keeps.refl _ _
    | with_reducible assumption
    | (with_reducible apply Keeps.then (freeBelow_keeps ..) ?_ (by decide))
    | (with_reducible apply Gives.next)
    | (with_reducible apply Keeps.foldl)
    | (with_reducible apply Keeps.foldl_snd)
    | (with_reducible refine Keeps.snd (by assumption) ?_)
    | (with_reducible refine Keeps.fst (by assumption) ?_)
    | (with_reducible fail_if_no_progress (apply Keeps.set_hub_sec ?_ ?_ ?_ (by decide)))
    | with_reducible rfl)

theorem execResetRelease_keeps : ∀ s, Gives [.hub] s (execResetRelease s) := by
  intro s
  unfold execResetRelease
  repeat' (first
    | (with_reducible apply Gives.ite)
    | (with_reducible apply Keeps.ite)
    | with_reducible exact Keeps.refl _ _
    | with_reducible assumption
    | (with_reducible apply Gives.next)
    | (with_reducible apply Keeps.foldl)
    | (with_reducible apply Keeps.foldl_snd)
    | (with_reducible refine Keeps.snd (by assumption) ?_)
    | (with_reducible refine Keeps.fst (by assumption) ?_)
    | (with_reducible fail_if_no_progress (apply Keeps.set_hub ?_ (by decide)))
    | intro _)

theorem execResetExit_keeps : ∀ s, Gives [.time, .bbx, .hub] s (execResetExit s) := by
  intro s
  unfold execResetExit
  repeat' (first
    | (with_reducible apply Gives.ite)
    | (with_reducible apply Keeps.ite)
    | with_reducible exact Keeps.refl _ _
    | with_reducible assumption
    | (with_reducible apply Gives.next)
    | (with_reducible apply Keeps.foldl)
    | (with_reducible apply Keeps.foldl_snd)
    | (with_reducible refine Keeps.snd (by assumption) ?_)
    | (with_reducible refine Keeps.fst (by assumption) ?_)
    | (with_reducible fail_if_no_progress (apply Keeps.set_time_bbx_hub ?_ (by decide)))
    | intro _)

theorem execPllLock_keeps : ∀ s, Gives [.tallies, .hub, .opt] s (execPllLock s) := by
  intro s
  unfold execPllLock
  repeat' (first
    | (with_reducible apply Gives.ite)
    | (with_reducible apply Keeps.ite)
    | with_reducible exact Keeps.refl _ _
    | with_reducible assumption
    | (with_reducible apply Keeps.then (optBoot_keeps ..) ?_ (by decide))
    | (with_reducible apply Gives.next)
    | (with_reducible apply Keeps.foldl)
    | (with_reducible apply Keeps.foldl_snd)
    | (with_reducible refine Keeps.snd (by assumption) ?_)
    | (with_reducible refine Keeps.fst (by assumption) ?_)
    | (with_reducible fail_if_no_progress (apply Keeps.set_hub ?_ (by decide)))
    | intro _)

theorem execPinGlitch_keeps : ∀ a0 s, Gives [.tallies, .hub] s (execPinGlitch a0 s) := by
  intro a0 s
  unfold execPinGlitch
  repeat' (first
    | (with_reducible apply Gives.ite)
    | (with_reducible apply Keeps.ite)
    | with_reducible exact Keeps.refl _ _
    | with_reducible assumption
    | (with_reducible apply Keeps.then (post_keeps ..) ?_ (by decide))
    | (with_reducible apply Gives.next)
    | (with_reducible apply Keeps.foldl)
    | (with_reducible apply Keeps.foldl_snd)
    | (with_reducible refine Keeps.snd (by assumption) ?_)
    | (with_reducible refine Keeps.fst (by assumption) ?_)
    | (with_reducible fail_if_no_progress (apply Keeps.set_hub ?_ (by decide)))
    | intro _)

theorem execPowerSample_keeps : ∀ a0 a1 a2 s, Gives [.time, .slew, .slewUs, .uni, .uniBad, .cores, .ctxs, .dieHeld, .ibex, .mports, .tiers, .oports, .lasers, .accesses, .nextTag, .paths, .ces, .areas, .folds, .hurdles, .hps, .windows, .gates, .tallies, .bbx, .weave, .hub, .hub2, .pwr, .opt, .sec, .manifests, .loads] s (execPowerSample a0 a1 a2 s) := by
  intro a0 a1 a2 s
  unfold execPowerSample
  repeat' (first
    | (with_reducible apply Gives.ite)
    | (with_reducible apply Keeps.ite)
    | with_reducible exact Keeps.refl _ _
    | with_reducible assumption
    | (with_reducible apply Keeps.then (recognise_keeps ..) ?_ (by decide))
    | (with_reducible apply Gives.next)
    | (with_reducible apply Keeps.foldl)
    | (with_reducible apply Keeps.foldl_snd)
    | (with_reducible refine Keeps.snd (by assumption) ?_)
    | (with_reducible refine Keeps.fst (by assumption) ?_)
    | (with_reducible fail_if_no_progress (apply Keeps.set_pwr ?_ (by decide)))
    | intro _)

theorem execThrottleDecay_keeps : ∀ s, Gives [.pwr] s (execThrottleDecay s) := by
  intro s
  unfold execThrottleDecay
  repeat' (first
    | (with_reducible apply Gives.ite)
    | (with_reducible apply Keeps.ite)
    | with_reducible exact Keeps.refl _ _
    | with_reducible assumption
    | (with_reducible apply Gives.next)
    | (with_reducible apply Keeps.foldl)
    | (with_reducible apply Keeps.foldl_snd)
    | (with_reducible refine Keeps.snd (by assumption) ?_)
    | (with_reducible refine Keeps.fst (by assumption) ?_)
    | (with_reducible fail_if_no_progress (apply Keeps.set_pwr ?_ (by decide)))
    | intro _)

theorem execThrottleWindow_keeps : ∀ a0 s, Gives [.pwr] s (execThrottleWindow a0 s) := by
  intro a0 s
  unfold execThrottleWindow
  repeat' (first
    | (with_reducible apply Gives.ite)
    | (with_reducible apply Keeps.ite)
    | with_reducible exact Keeps.refl _ _
    | with_reducible assumption
    | (with_reducible apply Gives.next)
    | (with_reducible apply Keeps.foldl)
    | (with_reducible apply Keeps.foldl_snd)
    | (with_reducible refine Keeps.snd (by assumption) ?_)
    | (with_reducible refine Keeps.fst (by assumption) ?_)
    | (with_reducible fail_if_no_progress (apply Keeps.set_pwr ?_ (by decide))))

theorem execTemperatureReading_keeps : ∀ a0 s, Gives [.time, .slew, .slewUs, .uni, .uniBad, .cores, .ctxs, .dieHeld, .ibex, .mports, .tiers, .oports, .lasers, .accesses, .nextTag, .paths, .ces, .areas, .folds, .hurdles, .hps, .windows, .gates, .tallies, .bbx, .weave, .hub, .hub2, .pwr, .opt, .sec, .manifests, .loads] s (execTemperatureReading a0 s) := by
  intro a0 s
  unfold execTemperatureReading
  repeat' (first
    | (with_reducible apply Gives.ite)
    | (with_reducible apply Keeps.ite)
    | with_reducible exact Keeps.refl _ _
    | with_reducible assumption
    | (with_reducible apply Keeps.then (post_keeps ..) ?_ (by decide))
    | (with_reducible apply Keeps.then (recognise_keeps ..) ?_ (by decide))
    | (with_reducible apply Gives.next)
    | (with_reducible apply Keeps.foldl)
    | (with_reducible apply Keeps.foldl_snd)
    | (with_reducible refine Keeps.snd (by assumption) ?_)
    | (with_reducible refine Keeps.fst (by assumption) ?_)
    | (with_reducible fail_if_no_progress (apply Keeps.set_pwr ?_ (by decide)))
    | intro _)

theorem execEvtInEdge_keeps : ∀ a0 a1 s, Gives [.uni, .uniBad, .host, .cores, .ctxs, .mports, .tiers, .hps, .tallies, .hub, .hub2] s (execEvtInEdge a0 a1 s) := by
  intro a0 a1 s
  unfold execEvtInEdge
  repeat' (first
    | (with_reducible apply Gives.ite)
    | (with_reducible apply Keeps.ite)
    | with_reducible exact Keeps.refl _ _
    | with_reducible assumption
    | (with_reducible apply Keeps.then (missEdge_keeps ..) ?_ (by decide))
    | (with_reducible apply Keeps.then (post_keeps ..) ?_ (by decide))
    | (with_reducible apply Keeps.then (applyEdge_keeps ..) ?_ (by decide))
    | (with_reducible apply Gives.next)
    | (with_reducible apply Keeps.foldl)
    | (with_reducible apply Keeps.foldl_snd)
    | (with_reducible refine Keeps.snd (by assumption) ?_)
    | (with_reducible refine Keeps.fst (by assumption) ?_)
    | (with_reducible fail_if_no_progress (apply Keeps.set_hub ?_ (by decide)))
    | (with_reducible fail_if_no_progress (apply Keeps.set_hub2 ?_ (by decide)))
    | intro _)

theorem startPulse_keeps : ∀ s a1, Keeps [.hub2] s (startPulse s a1) := by
  intro s a1
  unfold startPulse
  repeat' (first
    | (with_reducible apply Keeps.ite)
    | with_reducible exact Keeps.refl _ _
    | with_reducible assumption
    | (with_reducible apply Keeps.foldl)
    | (with_reducible apply Keeps.foldl_snd)
    | (with_reducible refine Keeps.snd (by assumption) ?_)
    | (with_reducible refine Keeps.fst (by assumption) ?_)
    | (with_reducible fail_if_no_progress (apply Keeps.set_hub2 ?_ (by decide)))
    | intro _)

theorem execPulse_keeps : ∀ a0 a1 s, Gives [.hps, .hub2] s (execPulse a0 a1 s) := by
  intro a0 a1 s
  unfold execPulse
  repeat' (first
    | (with_reducible apply Gives.ite)
    | (with_reducible apply Keeps.ite)
    | with_reducible exact Keeps.refl _ _
    | with_reducible assumption
    | (with_reducible apply Keeps.gated ?_ (by decide))
    | (with_reducible apply Keeps.then (startPulse_keeps ..) ?_ (by decide))
    | (with_reducible apply Gives.next)
    | (with_reducible apply Keeps.foldl)
    | (with_reducible apply Keeps.foldl_snd)
    | (with_reducible refine Keeps.snd (by assumption) ?_)
    | (with_reducible refine Keeps.fst (by assumption) ?_)
    | intro _)

end Sys2Proof.Machine
end

