-- ==== Sys2Proof/Laws/Registers.lean ====
section
/-! SUPPORT. What an access to a register keeps: each register of the map, then the accesses of Machine/Registers.lean. -/

namespace Sys2Proof.Machine

open Sys2Proof

/-- Every part of the state. -/
def Field.all : List Field :=
  [.time, .slew, .slewUs, .uni, .uniBad, .host, .cores, .ctxs, .dieHeld, .ibex, .mports, .tiers, .nvmFrames, .oports, .lasers, .accesses,
   .nextTag, .paths, .ces, .areas, .folds, .hurdles, .hps, .windows, .gates, .tallies, .bbx, .weave, .hub, .hub2, .pwr, .opt, .sec,
   .manifests, .loads, .bus, .bus2, .poisoned]

theorem Field.mem_all (f : Field) : f ∈ Field.all := by cases f <;> decide

/-- What every command keeps, whichever part it acts on. -/
theorem Keeps.all {l : List Field} {s t : State} (h : Keeps l s t) : Keeps Field.all s t := h.mono (fun f _ => f.mem_all)

theorem Gives.all {l : List Field} {s : State} {o : Host.Outcome State Fault Refusal} (h : Gives l s o) : Gives Field.all s o :=
  h.mono (fun f _ => f.mem_all)

/-- A register whose accesses keep the canonical form and the fuses. -/
def Reg.Ok (r : Reg) : Prop :=
  (∀ s, Keeps Field.all s (r.rc s)) ∧ ∀ who lo hi v s, Keeps Field.all s (r.put who lo hi v s)

/-- Where an offset has a register, it is such a register. -/
structure OkReg (o : Option Reg) : Prop where
  ok : ∀ r, o = some r → r.Ok

theorem OkReg.none : OkReg none := ⟨fun _ h => nomatch h⟩

theorem OkReg.some {r : Reg} (h : r.Ok) : OkReg (some r) := by
  refine ⟨fun q hq => ?_⟩
  cases hq
  exact h

theorem OkReg.ite {c : Prop} [Decidable c] {a b : Option Reg} (ha : OkReg a) (hb : OkReg b) : OkReg (if c then a else b) := by
  split
  · exact ha
  · exact hb

theorem ro32_ok (f : State → Nat) : (ro32 f).Ok := ⟨fun s => Keeps.refl _ s, fun _ _ _ _ s => Keeps.refl _ s⟩

theorem ro64_ok (f : State → Nat) : (ro64 f).Ok := ⟨fun s => Keeps.refl _ s, fun _ _ _ _ s => Keeps.refl _ s⟩

theorem rw32_ok {f : State → Nat} {g : Nat → State → State} (h : ∀ v s, Keeps Field.all s (g v s)) : (rw32 f g).Ok :=
  ⟨fun s => Keeps.refl _ s, fun _ _ _ v s => h v s⟩

theorem rw64_ok {f : State → Nat} {g : Nat → State → State} (h : ∀ v s, Keeps Field.all s (g v s)) : (rw64 f g).Ok :=
  ⟨fun s => Keeps.refl _ s, fun _ _ _ v s => h v s⟩

theorem wo_ok {w : Bool} {f : State → Nat} {m : Nat} {g : Party → Bool → Bool → Nat → State → State} (h : ∀ who lo hi v s, Keeps Field.all s (g who lo hi v s)) :
    Reg.Ok { wide := w, val := f, w1c := m, put := g } :=
  ⟨fun s => Keeps.refl _ s, h⟩

theorem cmd_keeps {f : State → Host.Outcome State Fault Refusal} {l : List Field} {s : State} (h : Gives l s (f s)) : Keeps Field.all s (cmd f s) := by
  obtain ⟨t, ht, k⟩ := h
  simpa only [cmd, ht, after] using k.all

theorem tlyReg_ok (u o : Nat) : OkReg (tlyReg u o) := by
  unfold tlyReg
  split
  · exact .some (rw32_ok fun v s => (State.modTally_keeps ..).all)
  · exact .some (rw64_ok fun v s => (State.modTally_keeps ..).all)
  · exact .some (ro64_ok _)
  · exact .some (ro64_ok _)
  · exact .none

theorem tlyBlock_ok (u o : Nat) : OkReg (tlyBlock u o) := by
  unfold tlyBlock
  exact .ite (.some (ro64_ok _)) (.ite (tlyReg_ok ..) .none)

theorem foldReg_ok (k o : Nat) : OkReg (foldReg k o) := by
  unfold foldReg
  dsimp only
  split
  · exact .some (wo_ok fun _ _ _ _ _ => cmd_keeps (execFoldCfg_keeps ..))
  · exact .some (wo_ok fun _ _ _ _ _ => cmd_keeps (execFoldMask_keeps ..))
  · exact .some (wo_ok fun _ _ _ _ _ => Keeps.ite (fun _ => Keeps.refl ..) (fun _ => cmd_keeps (execFoldMask_keeps ..)))
  · exact .some (ro64_ok _)
  · exact .some (ro64_ok _)
  · exact .some (wo_ok fun _ _ _ _ _ => (State.modFold_keeps ..).all)
  · exact .none

theorem hurdleStore_keeps (i v : Nat) (s : State) : Keeps [.hurdles] s (hurdleStore i v s) := by
  unfold hurdleStore
  split
  · exact Keeps.refl ..
  · exact State.modHurdle_keeps ..

theorem hurdleReg_ok (i : Nat) : (hurdleReg i).Ok := by
  refine wo_ok fun who _ _ v s => ?_
  split
  · exact cmd_keeps (execRaise_keeps ..)
  · exact (hurdleStore_keeps i v s).all.trans (cmd_keeps (execLift_keeps ..))
  · exact (hurdleStore_keeps i v s).all

theorem gateReg_ok (i : Nat) (c : Bool) : (gateReg i c).Ok := by
  unfold gateReg
  split
  · refine wo_ok fun who _ _ v s => ?_
    dsimp only
    split
    · exact cmd_keeps (execAcquire_keeps ..)
    · exact cmd_keeps (execRelease_keeps ..)
    · exact cmd_keeps (execRenew_keeps ..)
    · exact Keeps.refl ..
  · exact ro64_ok _

theorem evtReg_ok (k : Nat) : (evtReg k).Ok := rw64_ok fun _ s => ((Keeps.refl [.hub] s).set_hub (by decide)).all

theorem hubReg_ok (o : Nat) : OkReg (hubReg o) := by
  unfold hubReg
  refine .ite (tlyBlock_ok ..) (.ite (foldReg_ok ..) (.ite (.some (gateReg_ok ..)) (.ite (.some (hurdleReg_ok ..)) (.ite (.some (evtReg_ok ..)) ?_))))
  split
  · exact .some (ro32_ok _)
  · exact .some (ro64_ok _)
  · exact .some (ro32_ok _)
  · exact .some (ro64_ok _)
  · exact .some (ro64_ok _)
  · exact .some ⟨fun s => ((Keeps.refl [.hub] s).set_hub (by decide)).all, fun _ _ _ _ s => ((Keeps.refl [.hub] s).set_hub (by decide)).all⟩
  · exact .some (rw32_ok fun _ s => ((Keeps.refl [.hub] s).set_hub (by decide)).all.trans (startPulse_keeps ..).all)
  · exact .some (wo_ok fun _ _ _ _ s => (Keeps.refl Field.all s).upd rfl rfl rfl rfl rfl rfl (fun f h => absurd f.mem_all h))
  · exact .some (rw32_ok fun _ s => ((Keeps.refl [.hub2] s).set_hub2 (by decide)).all)
  · exact .some (rw32_ok fun _ s => (fwLive_keeps ..).all)
  · refine .some (rw32_ok fun _ s => ?_)
    exact Keeps.ite (fun _ => ((Keeps.refl [.hub2] s).set_hub2 (by decide)).all) (fun _ => Keeps.refl ..)
  · exact .some (rw32_ok fun _ s => ((Keeps.refl [.hub2] s).set_hub2 (by decide)).all)
  · exact .none

theorem optReg_ok (o : Nat) : OkReg (optReg o) := by
  unfold optReg
  refine .ite (.some (ro64_ok _)) (.ite (.some (wo_ok fun who _ _ v s => ?_)) ?_)
  · exact Keeps.ite (fun _ => Keeps.refl ..) (fun _ => ((Keeps.refl [.opt] s).set_opt (by decide)).all)
  · split
    · exact .some (wo_ok fun who _ _ v s => Keeps.ite (fun _ => cmd_keeps (execProgram_keeps ..)) (fun _ => Keeps.refl ..))
    · exact .some (ro32_ok _)
    · exact .none

theorem bbxReg_ok (o : Nat) : OkReg (bbxReg o) := by
  unfold bbxReg
  refine .ite (.some (ro64_ok _)) (.ite (.some (rw64_ok fun _ s => ((Keeps.refl [.bbx] s).set_bbx (by decide)).all)) ?_)
  split
  · exact .some (ro64_ok _)
  · refine .some (rw32_ok fun v s => ?_)
    have h : Keeps Field.all s { s with bbx := { s.bbx with hold := bitOf v 0, xin := bitOf v 3 } } := ((Keeps.refl [.bbx] s).set_bbx (by decide)).all
    have k := Keeps.ite (c := bitOf v 2 = true) (fun _ => h.trans (bbxUnfreeze_keeps ..).all) (fun _ => h)
    exact Keeps.ite (fun _ => k.trans (bbxFreeze_keeps ..).all) (fun _ => k)
  · exact .none

theorem secReg_ok (o : Nat) : OkReg (secReg o) := by
  unfold secReg
  refine .ite (.some (rw64_ok fun _ s => Keeps.set_sec (Keeps.refl Field.all s) (by rfl) (by rfl) (by decide))) (.ite (.some (ro64_ok _)) (.ite (.some (ro64_ok _)) (.ite (.some (ro64_ok _)) ?_)))
  split
  · exact .some (wo_ok fun _ _ _ _ _ => (secCtl_keeps ..).all)
  · exact .some (ro64_ok _)
  · exact .some (rw64_ok fun _ s => Keeps.set_sec (Keeps.refl Field.all s) (by rfl) (by rfl) (by decide))
  · exact .some (rw64_ok fun _ s => Keeps.set_sec (Keeps.refl Field.all s) (by rfl) (by rfl) (by decide))
  · exact .some (ro32_ok _)
  · exact .some (ro32_ok _)
  · exact .some (wo_ok fun _ _ _ _ _ => Keeps.ite (fun _ => (openDbg_keeps ..).all) (fun _ => Keeps.refl ..))
  · exact .none

theorem weaveReg_ok (o : Nat) : OkReg (weaveReg o) := by
  unfold weaveReg
  split
  · exact .some (wo_ok fun _ _ _ _ _ => (wvCtl_keeps ..).all)
  · exact .some (ro32_ok _)
  · exact .some (ro32_ok _)
  · exact .some (ro32_ok _)
  · exact .some (rw64_ok fun _ s => ((Keeps.refl [.weave] s).set_weave (by decide)).all)
  · exact .some (rw32_ok fun _ s => ((Keeps.refl [.weave] s).set_weave (by decide)).all)
  · exact .some (ro32_ok _)
  · exact .some (ro64_ok _)
  · exact .some (wo_ok fun _ _ _ _ s => ((Keeps.refl [.weave] s).set_weave (by decide)).all)
  · exact .none

theorem hpReg_ok (p o : Nat) : OkReg (hpReg p o) := by
  unfold hpReg
  dsimp only
  split
  · exact .some (ro32_ok _)
  · exact .some (rw32_ok fun _ _ => Keeps.ite (fun _ => Keeps.refl ..) (fun _ => (State.modHp_keeps ..).all))
  · exact .some (wo_ok fun _ _ _ _ _ => cmd_keeps (execHpxHdm_keeps ..))
  · exact .some (rw32_ok fun _ _ => (State.modHp_keeps ..).all)
  · exact .some (ro64_ok _)
  · exact .some (ro64_ok _)
  · exact .some (ro64_ok _)
  · exact .none

theorem ctrReg_ok (o : Nat) : OkReg (ctrReg o) := by
  unfold ctrReg
  split
  · exact .some (ro64_ok _)
  · exact .some (ro64_ok _)
  · refine .some (rw32_ok fun v s => ?_)
    split
    · exact (scheduleDev_keeps ..).all
    · exact (scheduleCtx_keeps ..).all
    · exact Keeps.refl ..
  · exact .some (ro64_ok _)
  · exact .some (ro64_ok _)
  · exact .none

theorem pwrReg_ok (o : Nat) : OkReg (pwrReg o) := by
  unfold pwrReg
  split
  all_goals first | exact .some (ro64_ok _) | exact .some (ro32_ok _) | exact .none

/-- An update of a core that leaves its scratchpad alone. -/
theorem Core.keeps_scratch (s : State) (n : Nat) {f : Core → Core} (h : ∀ c, (f c).scratch = c.scratch) : Keeps Field.all s (s.modCore n f) :=
  (State.modCore_keeps s n f (fun c hc => by rw [h]; exact hc)).all

theorem slotReg_ok (n i : Nat) : (slotReg n i).Ok := wo_ok fun _ _ _ _ _ => cmd_keeps (execCoreSlot_keeps ..)

theorem coreReg_ok (n o : Nat) : OkReg (coreReg n o) := by
  unfold coreReg
  refine .ite (.some (ro64_ok _)) (.ite (tlyReg_ok ..) (.ite (.some (slotReg_ok ..)) ?_))
  split
  case h_2 => exact .some (wo_ok fun _ _ _ _ _ => cmd_keeps (execCoreStateReq_keeps ..))
  case h_4 => exact .some ⟨fun s => by dsimp only; apply Core.keeps_scratch; intro c; rfl, fun _ _ _ _ s => by dsimp only; apply Core.keeps_scratch; intro c; rfl⟩
  all_goals first
    | exact .some (ro32_ok _)
    | exact .some (ro64_ok _)
    | exact .some (rw32_ok fun _ s => by apply Core.keeps_scratch; intro c; rfl)
    | exact .none

theorem dieReg_ok (d o : Nat) : OkReg (dieReg d o) := by
  unfold dieReg
  dsimp only
  exact .ite (.ite (coreReg_ok ..) .none) (.ite .none (.ite (foldReg_ok ..) (tlyBlock_ok ..)))

theorem ibxReg_ok (d o : Nat) : OkReg (ibxReg d o) := by
  unfold ibxReg
  dsimp only
  split
  case h_5 => exact .some ⟨fun s => by dsimp only; exact (State.modIbx_keeps ..).all, fun _ _ _ _ s => by dsimp only; exact (State.modIbx_keeps ..).all⟩
  all_goals first
    | exact .some (ro32_ok _)
    | exact .some (ro64_ok _)
    | exact tlyBlock_ok ..

theorem mpReg_ok (m o : Nat) : OkReg (mpReg m o) := by
  unfold mpReg
  dsimp only
  split
  case h_6 => exact .some ⟨fun s => by dsimp only; exact (State.modMport_keeps ..).all, fun _ _ _ _ s => by dsimp only; exact (State.modMport_keeps ..).all⟩
  all_goals first
    | exact .some (ro32_ok _)
    | exact .some (ro64_ok _)
    | exact .some (rw32_ok fun _ _ => (State.modMport_keeps ..).all)
    | exact .some (wo_ok fun _ _ _ _ _ => (State.modMport_keeps ..).all)
    | exact .some (wo_ok fun _ _ _ _ _ => cmd_keeps (execMpRelease_keeps ..))
    | exact tlyBlock_ok ..

theorem opReg_ok (p o : Nat) : OkReg (opReg p o) := by
  unfold opReg
  dsimp only
  split
  case h_1 =>
    refine .some (wo_ok fun who _ _ v s => ?_)
    split
    · exact cmd_keeps (execRecal_keeps ..)
    · exact cmd_keeps (execRetrain_keeps ..)
    · exact cmd_keeps (execCleartrip_keeps ..)
    · exact Keeps.refl ..
  case h_8 => exact .some ⟨fun s => by dsimp only; exact (State.modOport_keeps ..).all, fun _ _ _ _ s => by dsimp only; exact (State.modOport_keeps ..).all⟩
  all_goals first
    | exact .some (ro32_ok _)
    | exact .some (ro64_ok _)
    | exact .some (rw64_ok fun _ _ => (State.modOport_keeps ..).all)
    | exact .ite (.some (ro32_ok _)) .none
    | exact .ite (.some (ro64_ok _)) .none
    | exact tlyBlock_ok ..

theorem lsReg_ok (q o : Nat) : OkReg (lsReg q o) := by
  unfold lsReg
  split
  · exact .some (wo_ok fun _ _ _ _ _ => Keeps.ite (fun _ => cmd_keeps (execLsRecal_keeps ..)) (fun _ => Keeps.refl ..))
  · exact .some (ro32_ok _)
  · exact .some (ro64_ok _)
  · exact .some (ro32_ok _)
  · exact tlyBlock_ok ..

theorem freeOnly_ok (c : Nat) (w : Bool) (f : Ctx → Nat) (g : Nat → Ctx → Ctx) : (freeOnly c w f g).Ok :=
  wo_ok fun _ _ _ _ _ => Keeps.ite (fun _ => (State.modCtx_keeps ..).all) (fun _ => Keeps.refl ..)

theorem ctxPut_keeps (c : Nat) (f : Nat → Ctx → Ctx) (v : Nat) (s : State) : Keeps [.ctxs] s (ctxPut c f v s) := State.modCtx_keeps ..

theorem ctxReg_ok (c o : Nat) : OkReg (ctxReg c o) := by
  unfold ctxReg
  refine .ite (.some (wo_ok fun _ _ _ _ _ => cmd_keeps (execRingEnable_keeps ..))) (.ite (.some (rw64_ok fun v s => ?_)) (.ite (.some (ro64_ok _)) ?_))
  · exact Keeps.ite (fun _ => Keeps.refl ..) (fun _ => (State.modCtx_keeps ..).all)
  split
  case h_1 =>
    refine .some (wo_ok fun who _ _ v s => ?_)
    split
    · exact cmd_keeps (execCreate_keeps ..)
    · exact cmd_keeps (execDestroy_keeps ..)
    · exact Keeps.refl ..
  all_goals first
    | exact .some (freeOnly_ok ..)
    | exact .some (ro64_ok _)
    | exact .some (wo_ok fun _ _ _ _ _ => cmd_keeps (execCtxServe_keeps ..))
    | exact .some (rw64_ok fun _ _ => Keeps.ite (fun _ => Keeps.refl ..) (fun _ => (State.modCtx_keeps ..).all))
    | exact .some (rw64_ok fun _ _ => (ctxPut_keeps ..).all)
    | exact .some (wo_ok fun _ _ _ _ _ => (State.modCtx_keeps ..).all)
    | exact .some (wo_ok fun _ _ _ _ _ => Keeps.ite (fun _ => cmd_keeps (execGo_keeps ..)) (fun _ => Keeps.refl ..))
    | exact .none

theorem regAt_ok (o : Nat) : OkReg (regAt o) := by
  unfold regAt
  exact .ite (hubReg_ok ..) (.ite (optReg_ok ..) (.ite (bbxReg_ok ..) (.ite (secReg_ok ..) (.ite (weaveReg_ok ..) (.ite (hpReg_ok ..)
    (.ite (hpReg_ok ..) (.ite .none (.ite (ctrReg_ok ..) (.ite (pwrReg_ok ..) (.ite (dieReg_ok ..) (.ite (ibxReg_ok ..) (.ite (mpReg_ok ..)
    (.ite (opReg_ok ..) (.ite (lsReg_ok ..) (.ite (ctxReg_ok ..) .none)))))))))))))))

theorem regHalf_ok {o : Nat} {r : Reg} {up : Bool} (h : regHalf o = some (r, up)) : r.Ok := by
  unfold regHalf at h
  split at h
  · next q hq =>
    cases h
    exact (regAt_ok _).ok _ hq
  · split at h
    · split at h
      · next q hq =>
        split at h
        · cases h
          exact (regAt_ok _).ok _ hq
        · cases h
      · cases h
    · cases h

theorem read4_keeps (s : State) (o : Nat) : Keeps Field.all s (read4 s o).2 := by
  unfold read4
  split
  · next h => exact (regHalf_ok h).1 s
  · exact Keeps.refl ..

theorem read8_keeps (s : State) (o : Nat) : Keeps Field.all s (read8 s o).2 := by
  unfold read8
  split
  · next h =>
    split
    · exact ((regAt_ok _).ok _ h).1 s
    · exact (read4_keeps ..).trans (read4_keeps ..)
  · exact read4_keeps ..

theorem write4_keeps (who : Party) (s : State) (o v : Nat) : Keeps Field.all s (write4 who s o v) := by
  unfold write4
  split
  · next h =>
    have k := (regHalf_ok h).2 who
    exact Keeps.ite (fun _ => k ..) (fun _ => Keeps.ite (fun _ => k ..) (fun _ => k ..))
  · exact Keeps.refl ..

theorem write8_keeps (who : Party) (s : State) (o v : Nat) : Keeps Field.all s (write8 who s o v) := by
  unfold write8
  split
  · next h => exact Keeps.ite (fun _ => ((regAt_ok _).ok _ h).2 ..) (fun _ => (write4_keeps ..).trans (write4_keeps ..))
  · exact write4_keeps ..

theorem countBadsize_keeps (s : State) (who : Party) : Keeps [.hps] s (countBadsize s who) := by
  unfold countBadsize
  split
  · exact State.modHp_keeps ..
  · exact Keeps.refl ..

/-- The value read goes to the bus. -/
theorem Keeps.all_bus {s t : State} (v : BitVec 64) (h : Keeps Field.all s t) : Keeps Field.all s { t with bus := v } :=
  h.set_bus (by decide)

theorem execRegisterRead_keeps (who : Party) (o n : Nat) (s : State) : Gives Field.all s (execRegisterRead who o n s) := by
  have r := Keeps.refl Field.all s
  unfold execRegisterRead
  dsimp only
  refine Gives.ite (fun _ => .next (r.all_bus _)) fun _ => Gives.ite (fun _ => ?_) fun _ => Gives.ite (fun _ => ?_) fun _ => Gives.ite (fun _ => .next (r.all_bus _)) fun _ =>
    Gives.ite (fun _ => ?_) fun _ => Gives.ite (fun _ => .next (r.all_bus _)) fun _ => .next (Keeps.all_bus _ ?_)
  · exact Gives.ite (fun _ => .next (r.all_bus _)) fun _ => Gives.ite (fun _ => .next (r.all_bus _)) fun _ =>
      .next ((countOutside_keeps ..).all.all_bus _)
  · exact .next ((countBadsize_keeps ..).all.all_bus _)
  · exact .next ((countOutside_keeps ..).all.all_bus _)
  · split
    · exact read8_keeps ..
    · exact read4_keeps ..

theorem execRegisterWrite_keeps (who : Party) (o n : Nat) (v : BitVec 64) (s : State) : Gives Field.all s (execRegisterWrite who o n v s) := by
  unfold execRegisterWrite
  dsimp only
  exact Gives.ite (fun _ => .next (Keeps.refl ..)) fun _ => Gives.ite (fun _ => .next (countBadsize_keeps ..).all) fun _ =>
    Gives.ite (fun _ => .next (Keeps.refl ..)) fun _ => Gives.ite (fun _ => .next (countOutside_keeps ..).all) fun _ =>
    .next (Keeps.ite (fun _ => write8_keeps ..) (fun _ => write4_keeps ..))

theorem execReadWord_keeps (c : BitVec 8) (s : State) : Gives [.bus, .hub2] s (execReadWord c s) :=
  .next ((Keeps.refl [.bus, .hub2] s).set_hub2_bus (by decide))

theorem execSmbusWrite_keeps (c : BitVec 8) (s : State) : Gives [.hub2] s (execSmbusWrite c s) :=
  .next ((Keeps.refl [.hub2] s).set_hub2 (by decide))

theorem execSmbusClockTimeout_keeps (s : State) : Gives [.hub2] s (execSmbusClockTimeout s) :=
  .next ((Keeps.refl [.hub2] s).set_hub2 (by decide))

end Sys2Proof.Machine
end

