-- ==== Sys2Proof/Laws/Step.lean ====
section
/-! SUPPORT. What a command and a step keep, whichever command it is. -/

namespace Sys2Proof.Machine

open Sys2Proof

/-- No command touches the queue, unsorts a memory or lowers a fuse. -/
theorem exec_keeps (c : Instr) (s t : State) (h : exec c s = .next t) : Keeps Field.all s t := by
  cases c with
  | stage who => exact Gives.keeps (o := execStage who s) (execStage_keeps ..).all h
  | verificationEnd => exact Gives.keeps (o := execVerificationEnd s) (execVerificationEnd_keeps ..).all h
  | apply who => exact Gives.keeps (o := execApply who s) (execApply_keeps ..).all h
  | abort who => exact Gives.keeps (o := execAbort who s) (execAbort_keeps ..).all h
  | persist who => exact Gives.keeps (o := execPersist who s) (execPersist_keeps ..).all h
  | persistEnd readBackOk => exact Gives.keeps (o := execPersistEnd readBackOk s) (execPersistEnd_keeps ..).all h
  | unitAdopt u faults => exact Gives.keeps (o := execUnitAdopt u faults s) (execUnitAdopt_keeps ..).all h
  | windowExpiry => exact Gives.keeps (o := execWindowExpiry s) (execWindowExpiry_keeps ..).all h
  | rollbackWindowExpiry => exact Gives.keeps (o := execRollbackWindowExpiry s) (execRollbackWindowExpiry_keeps ..).all h
  | loadingAtBoot => exact Gives.keeps (o := execLoadingAtBoot s) (execLoadingAtBoot_keeps ..).all h
  | cclkChange die plan => exact Gives.keeps (o := execCclkChange die plan s) (execCclkChange_keeps ..).all h
  | ringIntakeRead c k => exact Gives.keeps (o := execRingIntakeRead c k s) (execRingIntakeRead_keeps ..).all h
  | recordDelivery die c => exact Gives.keeps (o := execRecordDelivery die c s) (execRecordDelivery_keeps ..).all h
  | droverSelect core e => exact Gives.keeps (o := execDroverSelect core e s) (execDroverSelect_keeps ..).all h
  | nop core e => exact Gives.keeps (o := execNop core e s) (execNop_keeps ..).all h
  | matmul core => exact Gives.keeps (o := execMatmul core s) (execMatmul_keeps ..).all h
  | vecop core => exact Gives.keeps (o := execVecop core s) (execVecop_keeps ..).all h
  | vecred core => exact Gives.keeps (o := execVecred core s) (execVecred_keeps ..).all h
  | update core => exact Gives.keeps (o := execUpdate core s) (execUpdate_keeps ..).all h
  | copy core => exact Gives.keeps (o := execCopy core s) (execCopy_keeps ..).all h
  | push core => exact Gives.keeps (o := execPush core s) (execPush_keeps ..).all h
  | pop core => exact Gives.keeps (o := execPop core s) (execPop_keeps ..).all h
  | woodpileWriteback core => exact Gives.keeps (o := execWoodpileWriteback core s) (execWoodpileWriteback_keeps ..).all h
  | hotWindowMove core => exact Gives.keeps (o := execHotWindowMove core s) (execHotWindowMove_keeps ..).all h
  | gather core => exact Gives.keeps (o := execGather core s) (execGather_keeps ..).all h
  | gatherSliceIssue core matrixReady => exact Gives.keeps (o := execGatherSliceIssue core matrixReady s) (execGatherSliceIssue_keeps ..).all h
  | gshareWindowStart core => exact Gives.keeps (o := execGshareWindowStart core s) (execGshareWindowStart_keeps ..).all h
  | gatherTileWriteback core => exact Gives.keeps (o := execGatherTileWriteback core s) (execGatherTileWriteback_keeps ..).all h
  | gatherHeaderWrite core => exact Gives.keeps (o := execGatherHeaderWrite core s) (execGatherHeaderWrite_keeps ..).all h
  | signal core e => exact Gives.keeps (o := execSignal core e s) (execSignal_keeps ..).all h
  | wait core e => exact Gives.keeps (o := execWait core e s) (execWait_keeps ..).all h
  | waitEvaluation core e c => exact Gives.keeps (o := execWaitEvaluation core e c s) (execWaitEvaluation_keeps ..).all h
  | pollIntervalExpiry host => exact Gives.keeps (o := execPollIntervalExpiry host s) (execPollIntervalExpiry_keeps ..).all h
  | lineInvalidation line host => exact Gives.keeps (o := execLineInvalidation line host s) (execLineInvalidation_keeps ..).all h
  | waitTimeout core e c => exact Gives.keeps (o := execWaitTimeout core e c s) (execWaitTimeout_keeps ..).all h
  | commandComplete core e => exact Gives.keeps (o := execCommandComplete core e s) (execCommandComplete_keeps ..).all h
  | completionRecordRelease core c => exact Gives.keeps (o := execCompletionRecordRelease core c s) (execCompletionRecordRelease_keeps ..).all h
  | completionWriteRetry c => exact Gives.keeps (o := execCompletionWriteRetry c s) (execCompletionWriteRetry_keeps ..).all h
  | coreStateReq who core req => exact Gives.keeps (o := execCoreStateReq who core req s) (execCoreStateReq_keeps ..).all h
  | serviceStateAdopt core => exact Gives.keeps (o := execServiceStateAdopt core s) (execServiceStateAdopt_keeps ..).all h
  | scratchpadWriteback core => exact Gives.keeps (o := execScratchpadWriteback core s) (execScratchpadWriteback_keeps ..).all h
  | coreSlot who core i value => exact Gives.keeps (o := execCoreSlot who core i value s) (execCoreSlot_keeps ..).all h
  | tileFillStart core t => exact Gives.keeps (o := execTileFillStart core t s) (execTileFillStart_keeps ..).all h
  | totalsFinal core t => exact Gives.keeps (o := execTotalsFinal core t s) (execTotalsFinal_keeps ..).all h
  | epilogueStart core t => exact Gives.keeps (o := execEpilogueStart core t s) (execEpilogueStart_keeps ..).all h
  | bufferEmpty core t => exact Gives.keeps (o := execBufferEmpty core t s) (execBufferEmpty_keeps ..).all h
  | ibatch die c => exact Gives.keeps (o := execIbatch die c s) (execIbatch_keeps ..).all h
  | entryDispatch die => exact Gives.keeps (o := execEntryDispatch die s) (execEntryDispatch_keeps ..).all h
  | entryComputeEnd die lane => exact Gives.keeps (o := execEntryComputeEnd die lane s) (execEntryComputeEnd_keeps ..).all h
  | headerCommit die lane => exact Gives.keeps (o := execHeaderCommit die lane s) (execHeaderCommit_keeps ..).all h
  | deadlineReached die lane iters => exact Gives.keeps (o := execDeadlineReached die lane iters s) (execDeadlineReached_keeps ..).all h
  | batchComplete die => exact Gives.keeps (o := execBatchComplete die s) (execBatchComplete_keeps ..).all h
  | promotion tile die => exact Gives.keeps (o := execPromotion tile die s) (execPromotion_keeps ..).all h
  | tileMove tile slice => exact Gives.keeps (o := execTileMove tile slice s) (execTileMove_keeps ..).all h
  | moveEnd channel => exact Gives.keeps (o := execMoveEnd channel s) (execMoveEnd_keeps ..).all h
  | moveIn => exact Gives.keeps (o := execMoveIn s) (execMoveIn_keeps ..).all h
  | moveOut => exact Gives.keeps (o := execMoveOut s) (execMoveOut_keeps ..).all h
  | report => exact Gives.keeps (o := execReport s) (execReport_keeps ..).all h
  | pinMove m => exact Gives.keeps (o := execPinMove m s) (execPinMove_keeps ..).all h
  | scrubRead m => exact Gives.keeps (o := execScrubRead m s) (execScrubRead_keeps ..).all h
  | retirementCopy cls => exact Gives.keeps (o := execRetirementCopy cls s) (execRetirementCopy_keeps ..).all h
  | mpRelease who m value => exact Gives.keeps (o := execMpRelease who m value s) (execMpRelease_keeps ..).all h
  | rangeInitEnd m => exact Gives.keeps (o := execRangeInitEnd m s) (execRangeInitEnd_keeps ..).all h
  | frameReceive p f => exact Gives.keeps (o := execFrameReceive p f s) (execFrameReceive_keeps ..).all h
  | resendTimeout p => exact Gives.keeps (o := execResendTimeout p s) (execResendTimeout_keeps ..).all h
  | write p => exact Gives.keeps (o := execWrite p s) (execWrite_keeps ..).all h
  | add p => exact Gives.keeps (o := execAdd p s) (execAdd_keeps ..).all h
  | readreq p => exact Gives.keeps (o := execReadreq p s) (execReadreq_keeps ..).all h
  | signalPacket p => exact Gives.keeps (o := execSignalPacket p s) (execSignalPacket_keeps ..).all h
  | readrsp p => exact Gives.keeps (o := execReadrsp p s) (execReadrsp_keeps ..).all h
  | ack p => exact Gives.keeps (o := execAck p s) (execAck_keeps ..).all h
  | time p => exact Gives.keeps (o := execTime p s) (execTime_keeps ..).all h
  | timeSend p => exact Gives.keeps (o := execTimeSend p s) (execTimeSend_keeps ..).all h
  | sync p => exact Gives.keeps (o := execSync p s) (execSync_keeps ..).all h
  | syncRepeat f => exact Gives.keeps (o := execSyncRepeat f s) (execSyncRepeat_keeps ..).all h
  | ackTimeout xtag => exact Gives.keeps (o := execAckTimeout xtag s) (execAckTimeout_keeps ..).all h
  | routePathChange rank => exact Gives.keeps (o := execRoutePathChange rank s) (execRoutePathChange_keeps ..).all h
  | linkTraining p peerRank peerPeer peerGen => exact Gives.keeps (o := execLinkTraining p peerRank peerPeer peerGen s) (execLinkTraining_keeps ..).all h
  | trainingRetry p => exact Gives.keeps (o := execTrainingRetry p s) (execTrainingRetry_keeps ..).all h
  | arpRequest p target sender => exact Gives.keeps (o := execArpRequest p target sender s) (execArpRequest_keeps ..).all h
  | neighbourSolicitation p target sender => exact Gives.keeps (o := execNeighbourSolicitation p target sender s) (execNeighbourSolicitation_keeps ..).all h
  | pause p prio quanta => exact Gives.keeps (o := execPause p prio quanta s) (execPause_keeps ..).all h
  | readResponse p pkt => exact Gives.keeps (o := execReadResponse p pkt s) (execReadResponse_keeps ..).all h
  | ackOrNak p pkt => exact Gives.keeps (o := execAckOrNak p pkt s) (execAckOrNak_keeps ..).all h
  | requestPacket p pkt => exact Gives.keeps (o := execRequestPacket p pkt s) (execRequestPacket_keeps ..).all h
  | cnp p => exact Gives.keeps (o := execCnp p s) (execCnp_keeps ..).all h
  | qpTimeout p qp => exact Gives.keeps (o := execQpTimeout p qp s) (execQpTimeout_keeps ..).all h
  | recal who p => exact Gives.keeps (o := execRecal who p s) (execRecal_keeps ..).all h
  | retrain who p => exact Gives.keeps (o := execRetrain who p s) (execRetrain_keeps ..).all h
  | cleartrip who p => exact Gives.keeps (o := execCleartrip who p s) (execCleartrip_keeps ..).all h
  | trackingError p => exact Gives.keeps (o := execTrackingError p s) (execTrackingError_keeps ..).all h
  | errorRatioTrigger p => exact Gives.keeps (o := execErrorRatioTrigger p s) (execErrorRatioTrigger_keeps ..).all h
  | calibrationSweep p => exact Gives.keeps (o := execCalibrationSweep p s) (execCalibrationSweep_keeps ..).all h
  | lsRecal who q => exact Gives.keeps (o := execLsRecal who q s) (execLsRecal_keeps ..).all h
  | lockLoss q line => exact Gives.keeps (o := execLockLoss q line s) (execLockLoss_keeps ..).all h
  | eyeSafetyTrip p line launch => exact Gives.keeps (o := execEyeSafetyTrip p line launch s) (execEyeSafetyTrip_keeps ..).all h
  | reduce e => exact Gives.keeps (o := execReduce e s) (execReduce_keeps ..).all h
  | allgather e => exact Gives.keeps (o := execAllgather e s) (execAllgather_keeps ..).all h
  | allreduce e => exact Gives.keeps (o := execAllreduce e s) (execAllreduce_keeps ..).all h
  | permute e => exact Gives.keeps (o := execPermute e s) (execPermute_keeps ..).all h
  | permuteWritePhase e i => exact Gives.keeps (o := execPermuteWritePhase e i s) (execPermuteWritePhase_keeps ..).all h
  | settle e => exact Gives.keeps (o := execSettle e s) (execSettle_keeps ..).all h
  | normfin e => exact Gives.keeps (o := execNormfin e s) (execNormfin_keeps ..).all h
  | normfinReduce e i => exact Gives.keeps (o := execNormfinReduce e i s) (execNormfinReduce_keeps ..).all h
  | sumBegin e i => exact Gives.keeps (o := execSumBegin e i s) (execSumBegin_keeps ..).all h
  | collectiveTimeout e i => exact Gives.keeps (o := execCollectiveTimeout e i s) (execCollectiveTimeout_keeps ..).all h
  | foldCfg who f value => exact Gives.keeps (o := execFoldCfg who f value s) (execFoldCfg_keeps ..).all h
  | foldMask who f high value => exact Gives.keeps (o := execFoldMask who f high value s) (execFoldMask_keeps ..).all h
  | raise who i kind target => exact Gives.keeps (o := execRaise who i kind target s) (execRaise_keeps ..).all h
  | lift who i => exact Gives.keeps (o := execLift who i s) (execLift_keeps ..).all h
  | quiesced i => exact Gives.keeps (o := execQuiesced i s) (execQuiesced_keeps ..).all h
  | create who c => exact Gives.keeps (o := execCreate who c s) (execCreate_keeps ..).all h
  | destroy who c => exact Gives.keeps (o := execDestroy who c s) (execDestroy_keeps ..).all h
  | destroyComplete c => exact Gives.keeps (o := execDestroyComplete c s) (execDestroyComplete_keeps ..).all h
  | ringEnable who c k value => exact Gives.keeps (o := execRingEnable who c k value s) (execRingEnable_keeps ..).all h
  | ringDisable who c k value => exact Gives.keeps (o := execRingDisable who c k value s) (execRingDisable_keeps ..).all h
  | consumerIndexWrite c k => exact Gives.keeps (o := execConsumerIndexWrite c k s) (execConsumerIndexWrite_keeps ..).all h
  | ringRateDefer c => exact Gives.keeps (o := execRingRateDefer c s) (execRingRateDefer_keeps ..).all h
  | request c => exact Gives.keeps (o := execRequest c s) (execRequest_keeps ..).all h
  | servingStep c ended => exact Gives.keeps (o := execServingStep c ended s) (execServingStep_keeps ..).all h
  | ctxServe who c value => exact Gives.keeps (o := execCtxServe who c value s) (execCtxServe_keeps ..).all h
  | manifest c => exact Gives.keeps (o := execManifest c s) (execManifest_keeps ..).all h
  | load c => exact Gives.keeps (o := execLoad c s) (execLoad_keeps ..).all h
  | tileDigestCheck c => exact Gives.keeps (o := execTileDigestCheck c s) (execTileDigestCheck_keeps ..).all h
  | digest c => exact Gives.keeps (o := execDigest c s) (execDigest_keeps ..).all h
  | hostLinkTraining port mode speed width => exact Gives.keeps (o := execHostLinkTraining port mode speed width s) (execHostLinkTraining_keeps ..).all h
  | hotReset port => exact Gives.keeps (o := execHotReset port s) (execHotReset_keeps ..).all h
  | bar2Access port offset len data => exact Gives.keeps (o := execBar2Access port offset len data s) (execBar2Access_keeps ..).all h
  | hpxHdm who port value => exact Gives.keeps (o := execHpxHdm who port value s) (execHpxHdm_keeps ..).all h
  | windowMove w => exact Gives.keeps (o := execWindowMove w s) (execWindowMove_keeps ..).all h
  | acquire who i ctx lease => exact Gives.keeps (o := execAcquire who i ctx lease s) (execAcquire_keeps ..).all h
  | release who i ctx key => exact Gives.keeps (o := execRelease who i ctx key s) (execRelease_keeps ..).all h
  | renew who i ctx key lease => exact Gives.keeps (o := execRenew who i ctx key lease s) (execRenew_keeps ..).all h
  | leaseExpiry i => exact Gives.keeps (o := execLeaseExpiry i s) (execLeaseExpiry_keeps ..).all h
  | powerOn => exact Gives.keeps (o := execPowerOn s) (execPowerOn_keeps ..).all h
  | softStart stage => exact Gives.keeps (o := execSoftStart stage s) (execSoftStart_keeps ..).all h
  | pwrfail => exact Gives.keeps (o := execPwrfail s) (execPwrfail_keeps ..).all h
  | pin => exact Gives.keeps (o := execPin s) (execPin_keeps ..).all h
  | vin => exact Gives.keeps (o := execVin s) (execVin_keeps ..).all h
  | stageFault stage => exact Gives.keeps (o := execStageFault stage s) (execStageFault_keeps ..).all h
  | refloss => exact Gives.keeps (o := execRefloss s) (execRefloss_keeps ..).all h
  | vbakFault => exact Gives.keeps (o := execVbakFault s) (execVbakFault_keeps ..).all h
  | resetRelease => exact Gives.keeps (o := execResetRelease s) (execResetRelease_keeps ..).all h
  | resetExit => exact Gives.keeps (o := execResetExit s) (execResetExit_keeps ..).all h
  | pllLock => exact Gives.keeps (o := execPllLock s) (execPllLock_keeps ..).all h
  | pinGlitch pwrOk => exact Gives.keeps (o := execPinGlitch pwrOk s) (execPinGlitch_keeps ..).all h
  | powerSample vin iin vbak => exact Gives.keeps (o := execPowerSample vin iin vbak s) (execPowerSample_keeps ..).all h
  | throttleDecay => exact Gives.keeps (o := execThrottleDecay s) (execThrottleDecay_keeps ..).all h
  | throttleWindow die => exact Gives.keeps (o := execThrottleWindow die s) (execThrottleWindow_keeps ..).all h
  | temperatureReading rs => exact Gives.keeps (o := execTemperatureReading rs s) (execTemperatureReading_keeps ..).all h
  | evtInEdge k rising => exact Gives.keeps (o := execEvtInEdge k rising s) (execEvtInEdge_keeps ..).all h
  | pulse who mask => exact Gives.keeps (o := execPulse who mask s) (execPulse_keeps ..).all h
  | program who => exact Gives.keeps (o := execProgram who s) (execProgram_keeps ..).all h
  | firmwareBoot => exact Gives.keeps (o := execFirmwareBoot s) (execFirmwareBoot_keeps ..).all h
  | attest who => exact Gives.keeps (o := execAttest who s) (execAttest_keeps ..).all h
  | cert who => exact Gives.keeps (o := execCert who s) (execCert_keeps ..).all h
  | fwverify who => exact Gives.keeps (o := execFwverify who s) (execFwverify_keeps ..).all h
  | enrol who slot => exact Gives.keeps (o := execEnrol who slot s) (execEnrol_keeps ..).all h
  | revoke who slot => exact Gives.keeps (o := execRevoke who slot s) (execRevoke_keeps ..).all h
  | fusesvn who => exact Gives.keeps (o := execFusesvn who s) (execFusesvn_keeps ..).all h
  | openDebug who => exact Gives.keeps (o := execOpenDebug who s) (execOpenDebug_keeps ..).all h
  | jtagInstruction _ => exact (execJtagInstruction_keeps _ s t h).all
  | readWord code => exact Gives.keeps (o := execReadWord code s) (execReadWord_keeps ..).all h
  | smbusClockTimeout => exact Gives.keeps (o := execSmbusClockTimeout s) (execSmbusClockTimeout_keeps ..).all h
  | tallyQueueWrite unit => exact Gives.keeps (o := execTallyQueueWrite unit s) (execTallyQueueWrite_keeps ..).all h
  | crossTrigger => exact Gives.keeps (o := execCrossTrigger s) (execCrossTrigger_keeps ..).all h
  | tlyFreeze who unit => exact Gives.keeps (o := execTlyFreeze who unit s) (execTlyFreeze_keeps ..).all h
  | rearm who unit => exact Gives.keeps (o := execRearm who unit s) (execRearm_keeps ..).all h
  | blackBoxWrite => exact Gives.keeps (o := execBlackBoxWrite s) (execBlackBoxWrite_keeps ..).all h
  | bbxFreeze who => exact Gives.keeps (o := execBbxFreeze who s) (execBbxFreeze_keeps ..).all h
  | unfreeze who => exact Gives.keeps (o := execUnfreeze who s) (execUnfreeze_keeps ..).all h
  | deviceScopeReset who => exact Gives.keeps (o := execDeviceScopeReset who s) (execDeviceScopeReset_keeps ..).all h
  | contextScopeReset who c => exact Gives.keeps (o := execContextScopeReset who c s) (execContextScopeReset_keeps ..).all h
  | go who c => exact Gives.keeps (o := execGo who c s) (execGo_keeps ..).all h
  | counterClear ctx => exact Gives.keeps (o := execCounterClear ctx s) (execCounterClear_keeps ..).all h
  | firmwareReport t => exact Gives.keeps (o := execFirmwareReport t s) (execFirmwareReport_keeps ..).all h
  | watchdogExpiry t => exact Gives.keeps (o := execWatchdogExpiry t s) (execWatchdogExpiry_keeps ..).all h
  | coreTest core passed => exact Gives.keeps (o := execCoreTest core passed s) (execCoreTest_keeps ..).all h
  | activate who target => exact Gives.keeps (o := execActivate who target s) (execActivate_keeps ..).all h
  | handoverComplete => exact Gives.keeps (o := execHandoverComplete s) (execHandoverComplete_keeps ..).all h
  | activationTimeout => exact Gives.keeps (o := execActivationTimeout s) (execActivationTimeout_keeps ..).all h
  | registerWrite who offset size value => exact Gives.keeps (o := execRegisterWrite who offset size value s) (execRegisterWrite_keeps ..).all h
  | registerRead who offset size => exact Gives.keeps (o := execRegisterRead who offset size s) (execRegisterRead_keeps ..).all h
  | droppedFrame p => exact Gives.keeps (o := execDroppedFrame p s) (execDroppedFrame_keeps ..).all h
  | smbusWrite code => exact Gives.keeps (o := execSmbusWrite code s) (execSmbusWrite_keeps ..).all h
  | testAccessPortReset => exact Gives.keeps (o := execTestAccessPortReset s) (execTestAccessPortReset_keeps ..).all h

/-- Time passing alone changes the clock. -/
theorem tick_keeps (s : State) : Keeps [.time, .slew] s (tick s) := by
  unfold tick
  repeat' (first
    | exact Keeps.refl ..
    | exact (Keeps.refl _ _).upd rfl rfl rfl rfl rfl rfl (fun f hf => by cases f <;> first | rfl | exact absurd (by decide) hf)
    | split)

/-- What one step runs: the waiting command at the front, or the clock. -/
theorem step_cons {s : State} {c : Instr} {rest : List Instr} (h : s.pending = c :: rest) : step s = exec c { s with pending := rest } := by
  unfold step
  rw [h]

theorem step_nil {s : State} (h : s.pending = []) : step s = .next (tick s) := by
  unfold step
  rw [h]

end Sys2Proof.Machine
end

