-- ==== Sys2Proof/Laws/Facts.lean ====
section
/-! SUPPORT. What single operations change and leave, in the words that statements use. -/

namespace Sys2Proof.Machine

open Sys2Proof

/-- A Drover's pick changes at most the credits of its core. -/
theorem droverPick_credit {s t : State} {n e i : Nat} (h : droverPick s n e = some (i, t)) :
    (∀ m, m ≠ n → t.core m = s.core m) ∧ (∃ cr, t.core n = { s.core n with credit := cr }) ∧ t.time = s.time ∧ t.hub2 = s.hub2 ∧ (∀ c, t.ctx c = s.ctx c) := by
  unfold droverPick at h
  split at h
  · cases h; exact ⟨fun _ _ => rfl, ⟨_, rfl⟩, rfl, rfl, fun _ => rfl⟩
  · dsimp only at h
    split at h
    · cases h
    · split at h
      · cases h; exact ⟨fun _ _ => rfl, ⟨_, rfl⟩, rfl, rfl, fun _ => rfl⟩
      · rw [Option.map_eq_some_iff] at h
        obtain ⟨a, _, h2⟩ := h
        cases h2
        refine ⟨fun m hm => State.modCore_get_core_ne _ _ _ _ hm, ⟨_, State.modCore_get_core_self ..⟩, rfl, rfl, fun _ => rfl⟩

theorem droverSpend_credit (s : State) (n e i : Nat) :
    (∀ m, m ≠ n → (droverSpend s n e i).core m = s.core m) ∧ (∃ cr pt, (droverSpend s n e i).core n = { s.core n with credit := cr, ptr := pt }) ∧
      (droverSpend s n e i).time = s.time := by
  unfold droverSpend
  split
  · exact ⟨fun _ _ => rfl, ⟨_, _, rfl⟩, rfl⟩
  · exact ⟨fun m hm => State.modCore_get_core_ne _ _ _ _ hm, ⟨_, _, State.modCore_get_core_self ..⟩, rfl⟩

theorem issue_core (s : State) (n e i : Nat) (r : Rec) :
    (∀ m, m ≠ n → (issue s n e i r).core m = s.core m) ∧
      (∃ x, ((issue s n e i r).core n).running = (s.core n).running ++ [x] ∧ x.rec' = r ∧ x.eng = e ∧ x.slot = i ∧ x.core = n ∧ x.issued = s.time ∧ x.done = false) ∧
      ((issue s n e i r).core n).queue e i = ((s.core n).queue e i).drop 1 := by
  unfold issue
  dsimp only
  refine ⟨fun m hm => ?_, ⟨{ start := s.hub2.order, rec' := r, slot := i, eng := e, core := n, issued := s.time, wptab := (s.ctx r.ctx).wptab, seed := (s.ctx r.ctx).seed, step := (s.ctx r.ctx).step, chain := (passedAt (s.core n) e i).getD [], rd := (regionsOf r ((passedAt (s.core n) e i).getD [])).1, wr := (regionsOf r ((passedAt (s.core n) e i).getD [])).2 }, ?_, rfl, rfl, rfl, rfl, rfl, rfl⟩, ?_⟩
  · rw [State.modCore_get_core_ne _ _ _ _ hm, popHead, State.modCore_get_core_ne _ _ _ _ hm]; rfl
  · rw [State.modCore_get_core_self]
    simp only [popHead, State.modCore_get_core_self]; rfl
  · rw [State.modCore_get_core_self]
    simp only [popHead, State.modCore_get_core_self]
    exact Core.setQueue_queue_self ..

theorem checkHeads_keeps (e n : Nat) (s : State) : Keeps reportParts s ((List.range 32).foldl (checkHead e n) s) :=
  Keeps.foldl (Keeps.refl _ _) (fun u x h => h.trans ((checkHead_keeps e n u x).mono (by decide)))

theorem applySignal_cores (s : State) (c : By) (a op : Nat) (v : BitVec 64) : CoresStay s (applySignal s c a op v).2 := by
  unfold applySignal
  split
  · exact CoresStay.refl _
  · split
    · exact devWrite_cores ..
    · split
      · exact (devTouch_keeps ..).coresStay (by decide)
      · dsimp only
        have h : CoresStay s (devWrite (devTouch s c a 8) c a (natLE 8 (counterAdd (devWord s a) v).toNat)) :=
          ((devTouch_keeps ..).coresStay (by decide)).trans (devWrite_cores ..)
        split
        · exact h.trans (CoresStay.of rfl)
        · exact h

theorem endWait_effect (s : State) (n : Nat) (w : Waiting) (st : Status) (d : Nat) :
    ((endWait s n w st d).core n).queue w.eng w.slot = ((s.core n).queue w.eng w.slot).drop 1 ∧
      ∀ x ∈ ((endWait s n w st d).core n).waits, ¬(x.eng = w.eng ∧ x.slot = w.slot) := by
  unfold endWait
  refine ⟨?_, ?_⟩
  · rw [endHead_queue, State.modCore_get_core_self]; rfl
  · obtain ⟨g, hg, h⟩ := endHead_waits (s.modCore n (fun c => { c with waits := c.waits.filter (fun x => !(x.eng == w.eng && x.slot == w.slot)) })) n w.eng w.slot w.rec' st d n
    intro x hx
    rw [h] at hx
    simp only [State.modCore_get_core_self, List.mem_map, List.mem_filter] at hx
    obtain ⟨y, ⟨-, hy⟩, rfl⟩ := hx
    rw [(hg y).2.2.1, (hg y).2.1]
    intro h; simp [h.1, h.2] at hy

theorem countHeld_run (s : State) (n : Nat) (r : Running) : SameRun s (countHeld s n r) := by
  unfold countHeld
  split
  · exact SameRun.trans (SameRun.of (t := { s with freeCtr := s.freeCtr + 1 }) rfl) (popCount_run _ n 0x22 _ _)
  · exact SameRun.refl s

theorem settleClk_run (s : State) (d : Nat) : SameRun s (settleClk s d) := by
  unfold settleClk
  split
  · exact SameRun.refl s
  · split
    · exact SameRun.of rfl
    · exact SameRun.refl s

theorem ctxCount_run (s : State) (c o k : Nat) : SameRun s (ctxCount s c o k) := SameRun.of ((ctxCount_keeps ..).only.2 .cores (by decide))

/-- A command that leaves its engine is the one entry taken from the running commands. -/
theorem dropRun_run (s : State) (n : Nat) (r : Running) :
    ((dropRun s n r).core n).running = (s.core n).running.filter (fun x => x.start != r.start) ∧
      (∀ m, m ≠ n → ((dropRun s n r).core m).running = (s.core m).running) ∧ ∀ m, ((dropRun s n r).core m).queues = (s.core m).queues := by
  have h1 : SameRun (s.modCore n (fun c => { c with running := c.running.filter (fun x => x.start != r.start) })) (dropRun s n r) := by
    unfold dropRun freeBufs
    refine SameRun.trans ?_ (settleClk_run ..)
    refine SameRun.trans ?_ (SameRun.modCore rfl rfl)
    exact SameRun.of rfl
  refine ⟨?_, fun m hm => ?_, fun m => ?_⟩
  · rw [h1.run, State.modCore_get_core_self]
  · rw [h1.run, State.modCore_get_core_ne _ _ _ _ hm]
  · rw [h1.queues, State.modCore_get_core]
    split
    · next h => subst h; rfl
    · rfl

theorem endRun_run (s : State) (n : Nat) (r : Running) (st : Status) :
    ((endRun s n r st).core n).running = (s.core n).running.filter (fun x => x.start != r.start) ∧
      (∀ m, m ≠ n → ((endRun s n r st).core m).running = (s.core m).running) ∧ ∀ m, ((endRun s n r st).core m).queues = (s.core m).queues := by
  unfold endRun
  dsimp only
  generalize hu : (if r.rec'.op = 0x30 && doneClass st then ctxCount _ _ _ _ else _ : State) = u
  have cu : SameRun s u := by
    have h1 : SameRun s (countHeld (countSat s n r.rec'.ctx r.sat r.nan) n r) :=
      (SameRun.of ((countSat_keeps ..).only.2 .cores (by decide))).trans (countHeld_run ..)
    rw [← hu]
    split
    · refine SameRun.trans ?_ (ctxCount_run ..)
      split
      · exact (h1.trans (ctxCount_run ..)).trans (ctxCount_run ..)
      · exact h1
    · split
      · exact (h1.trans (ctxCount_run ..)).trans (ctxCount_run ..)
      · exact h1
  have key : ∀ a b c k, SameRun (dropRun u n r) (drainDone (flushEnded k (endCmd (dropRun u n r) n r.rec' st a b c) n) n) := fun a b c k =>
    (((endCmd_cores ..).trans (flushEnded_cores ..)).trans (drainDone_cores ..)).sameRun
  obtain ⟨d1, d2, d3⟩ := dropRun_run u n r
  refine ⟨?_, fun m hm => ?_, fun m => ?_⟩
  · rw [(key _ _ _ _).run, d1, cu.run]
  · rw [(key _ _ _ _).run, d2 m hm, cu.run]
  · rw [(key _ _ _ _).queues, d3, cu.queues]

theorem post_oport (s : State) (u c k p q : Nat) : (post s u c k p).oport q = s.oport q := rfl

/-- With no collective in flight nothing completes. -/
theorem settleColls_idle (s : State) (h : ∀ e, (s.ce e).inflight = []) : settleColls s = s := by
  have h1 : ∀ e, settleEngine s e = s := fun e => by unfold settleEngine; simp only [h, List.foldl_nil]
  have h2 : ∀ l : List Nat, l.foldl settleEngine s = s := by
    intro l
    induction l with
    | nil => rfl
    | cons x l ih => rw [List.foldl_cons, h1, ih]
  exact h2 _

/-- A port goes DOWN with no access outstanding. -/
theorem linkDown_idle (s : State) (p payload : Nat) (h : s.accesses = []) : linkDown s p payload =
    post (s.modOport p (fun o => { (freshLink o) with state := 0, downs := stick o.downs 1, downSince := s.time, held := [], rxq := [], ready := [], bridge := [], retrain := false, advert := none })) (uOport p) 0 0x091 payload := by
  unfold linkDown
  show List.foldl loseAccess _ (List.filter _ s.accesses) = _
  rw [h]; rfl

theorem linkDown_down (s : State) (p payload : Nat) (h : s.accesses = []) : Keeps [.oports, .tallies] s (linkDown s p payload) ∧
    ((linkDown s p payload).oport p).state = 0 ∧ ((linkDown s p payload).oport p).downSince = s.time ∧ (∀ q, q ≠ p → (linkDown s p payload).oport q = s.oport q) := by
  rw [linkDown_idle _ _ _ h]
  refine ⟨((State.modOport_keeps s p _).mono (by decide)).step (post_keeps ..) (by decide), ?_, ?_, fun q hq => ?_⟩
  · rw [post_oport, State.modOport_get_oport_self]
  · rw [post_oport, State.modOport_get_oport_self]
  · rw [post_oport, State.modOport_get_oport_ne _ _ _ _ hq]

theorem setBit100_bit (m : BitVec 100) (i j : Nat) (hj : j < 100) : (setBit100 m i).getLsbD j = (m.getLsbD j || decide (j = i)) := by
  unfold setBit100
  rw [BitVec.getLsbD_or, BitVec.getLsbD_ofNat]
  simp only [hj, decide_true, Bool.true_and, Nat.testBit_two_pow]
  simp [eq_comm]

theorem foldSettle_open {s : State} {k : Nat} (h : (s.fold k).arr ≠ (s.fold k).mask) : foldSettle s k = s := by
  unfold foldSettle
  dsimp only
  rw [if_neg]
  simp [h]

theorem stick_zero {w : Nat} (v : BitVec w) : stick v 0 = v := by
  unfold stick
  have := v.isLt
  simp [this]

/-- The packet taken is off its buffer; nothing else changes. -/
theorem takeFront_some {s t : State} {p typ : Nat} {k : FabPkt} (h : takeFront s p typ = some (k, t)) :
    k.typ.toNat = typ ∧ (t = s.modOport p (fun o => { o with ready := o.ready.erase k }) ∧ k ∈ (s.oport p).ready ∨
      t = s.modOport p (fun o => freeWords { o with rxq := o.rxq.erase k } k) ∧ k ∈ (s.oport p).rxq) := by
  unfold takeFront at h
  dsimp only at h
  split at h
  · next e =>
    split at h
    · next hc => cases h; simp only [Bool.and_eq_true, decide_eq_true_eq] at hc; exact ⟨hc.1, Or.inl ⟨rfl, List.mem_of_find?_eq_some e⟩⟩
    · cases h
  · split at h
    · next e =>
      split at h
      · next hc => cases h; simp only [Bool.and_eq_true, decide_eq_true_eq] at hc; exact ⟨hc.1, Or.inr ⟨rfl, List.mem_of_find?_eq_some e⟩⟩
      · cases h
    · cases h

/-- A refusal of nothing bounds the region. -/
theorem reqRefuse_none {s : State} {p a n : Nat} {k : FabPkt} {w : Bool} (h : reqRefuse s p k a n w = none) : a + n ≤ Config.uniTop := by
  unfold reqRefuse at h
  dsimp only at h
  by_contra hc
  rw [if_pos (by simp; right; omega)] at h
  cases h

theorem not_host {a : Nat} (h : a ≤ Config.uniTop) : spaceOf a ≠ .host := by
  have : Config.uniTop < Config.hostBase := by decide
  unfold spaceOf
  split
  · decide
  · split
    · decide
    · omega

theorem devWrite_dev (s : State) (e : By) (a : Nat) (bs : List Byte) (h : spaceOf a ≠ .host) : devWrite s e a bs = uniWrite s e a bs := by
  unfold devWrite
  split
  · next e => exact absurd e h
  · rfl

theorem foldl_mset_out {b a : Nat} (g : Byte × Nat → Bool) : ∀ (l : List (Byte × Nat)) (m : Mem), (∀ x ∈ l, a + x.2 ≠ b) →
    mget (l.foldl (fun m x => if g x = true then mset m (a + x.2) x.1 else m) m) b = mget m b := by
  intro l
  induction l with
  | nil => exact fun _ _ => rfl
  | cons x l ih =>
    intro m h
    rw [List.foldl_cons, ih _ (fun y hy => h y (List.mem_cons_of_mem _ hy))]
    split
    · exact mget_mset_ne _ _ _ _ (Ne.symm (h x (by simp)))
    · rfl

/-- A write of device memory changes no byte of the unified range outside its region. -/
theorem uniWrite_out (s : State) (e : By) (a b : Nat) (bs : List Byte) (h : b < a ∨ a + bs.length ≤ b) : mget (uniWrite s e a bs).uni b = mget s.uni b := by
  have u : (beforeWrite s e a bs.length).uni = s.uni := (beforeWrite_keeps ..).only.2 .uni (by decide)
  have w : (uniWrite s e a bs).uni = (if hitsUnbacked (beforeWrite s e a bs.length) a bs.length || anyLost (beforeWrite s e a bs.length) then
      bs.zipIdx.foldl (fun m x => if tileTakes (beforeWrite s e a bs.length) ((a + x.2) / 4096) then mset m (a + x.2) x.1 else m) (beforeWrite s e a bs.length).uni
    else mwrite (beforeWrite s e a bs.length).uni a bs) := by
    unfold uniWrite
    dsimp only
    rw [(evalRings_keeps ..).only.2 .uni (by decide), evalWaits_uni]
    rfl
  rw [w]
  split
  · rw [foldl_mset_out (fun x => tileTakes (beforeWrite s e a bs.length) ((a + x.2) / 4096)), u]
    intro x hx
    have := List.mem_zipIdx hx
    omega
  · rw [mget_mwrite_out _ _ _ _ h, u]

theorem devWrite_out (s : State) (e : By) (a b : Nat) (bs : List Byte) (h : b < a ∨ a + bs.length ≤ b) : mget (devWrite s e a bs).uni b = mget s.uni b := by
  unfold devWrite
  split
  · split
    · have := (countDma_keeps { s with host := mwrite s.host a bs } true a bs.length).only.2 .uni (by decide)
      rw [show (countDma { s with host := mwrite s.host a bs } true a bs.length).uni = s.uni from this]
    · rfl
  · exact uniWrite_out s e a b bs h

theorem fillRds_scratch (n : Nat) (p : MatParam) (i : Nat) : ∀ r ∈ fillRds n p i, r.scratch = some n := by
  intro r hr
  unfold fillRds at hr
  simp only [List.mem_append, List.mem_map] at hr
  rcases hr with (⟨_, _, rfl⟩ | ⟨_, _, rfl⟩) | hr
  · rfl
  · rfl
  · split at hr
    · obtain ⟨_, _, rfl⟩ := List.mem_map.mp hr; rfl
    · cases hr

theorem epiRds_scratch (n : Nat) (p : MatParam) (i : Nat) : ∀ r ∈ epiRds n p i, r.scratch = some n := by
  intro r hr
  unfold epiRds at hr
  simp only [List.mem_append] at hr
  rcases hr with (hr | hr) | hr
  all_goals
    split at hr
    · simp at hr; rw [hr]; rfl
    · cases hr

/-- With no word in error no fetch of a tile meets one. -/
theorem faultFetch_clean (s : State) (n : Nat) (p : MatParam) (i : Nat) (hb : (s.core n).bad = []) : faultFetch s n p i = none := by
  unfold faultFetch
  dsimp only
  rw [(rdsTouch_clean {} n s hb _ (fillRds_scratch n p i)).2]
  rfl

theorem drainFault_clean (s : State) (n : Nat) (p : MatParam) (b : TileBuf) (hb : (s.core n).bad = []) (ht : b.bad = []) : drainFault s n p b = none := by
  have h : (epiRds n p b.tile).find? (fun r => (r.fault s).isSome) = none := by
    rw [List.find?_eq_none]
    intro r hr
    have := List.findSome?_eq_none_iff.mp (rdsTouch_clean {} n s hb _ (epiRds_scratch n p b.tile)).2 r hr
    simp [this]
  unfold drainFault
  dsimp only
  rw [h, ht]
  rfl

theorem drainRow_scratch (n : Nat) (p : MatParam) (b : TileBuf) (cs bs : List F32) (s : State) (r : Nat) : ∀ w ∈ drainRow n p b cs bs s r, w.scratch = some n := by
  intro w hw
  unfold drainRow at hw
  simp only [List.mem_append, List.mem_singleton] at hw
  rcases hw with (hw | hw) | hw
  · rw [hw]
  · split at hw
    · simp at hw; rw [hw]
    · cases hw
  · split at hw
    · simp at hw; rw [hw]
    · cases hw

/-- What a tile's buffer writes lies in its core's scratchpad. -/
theorem tilePlan_scratch (s : State) (n : Nat) (p : MatParam) (b : TileBuf) : ∀ w ∈ (tilePlan s n p b).wrs, w.scratch = some n := by
  intro w hw
  unfold tilePlan at hw
  dsimp only at hw
  split at hw
  · obtain ⟨r, _, hw⟩ := List.mem_flatMap.mp hw
    exact drainRow_scratch _ _ _ _ _ _ _ w hw
  · rcases List.mem_append.mp hw with hw | hw
    · obtain ⟨r, _, hw⟩ := List.mem_flatMap.mp hw
      exact drainRow_scratch _ _ _ _ _ _ _ w hw
    · split at hw
      · simp at hw; rw [hw]
      · cases hw

theorem tilePlan_clean (s : State) (n : Nat) (p : MatParam) (b : TileBuf) (hb : (s.core n).bad = []) (ht : b.bad = []) :
    (tilePlan s n p b).rds = epiRds n p b.tile ∧ (tilePlan s n p b).cut = false := by
  unfold tilePlan
  dsimp only
  rw [drainFault_clean s n p b hb ht]
  exact ⟨rfl, rfl⟩

/-- A tile drained with no word in error: its writes, and its command's entry. -/
theorem drainTile_clean (s : State) (n : Nat) (r : Running) (p : MatParam) (b : TileBuf) (last : Bool) (t : Nat) (hb : (s.core n).bad = []) (ht : b.bad = []) :
    CoreRan n r.start s (drainTile s n r p b last t).1 ∧ (drainTile s n r p b last t).2.start = r.start ∧ (drainTile s n r p b last t).2.rec' = r.rec' ∧
      (drainTile s n r p b last t).2.done = last ∧
      (last = true → (drainTile s n r p b last t).2.status = stDone ∨ (drainTile s n r p b last t).2.status = stSaturated) ∧
      (∀ x ∈ ((drainTile s n r p b last t).1.core n).running, x.start = r.start → x = (drainTile s n r p b last t).2) ∧
      ((drainTile s n r p b last t).1.core n).scratch = wroteAll (s.core n).scratch (tilePlan s n p b).wrs := by
  obtain ⟨h1, h2⟩ := tilePlan_clean s n p b hb ht
  have h3 := tilePlan_scratch s n p b
  have e : drainTile s n r p b last t = (putRun (applyWrs r.by s (tilePlan s n p b).wrs) n { r with sat := r.sat + wrsSat (tilePlan s n p b).wrs, nan := r.nan + wrsNan (tilePlan s n p b).wrs, done := last, status := if last then worst (satStatus (r.sat + wrsSat (tilePlan s n p b).wrs) (r.nan + wrsNan (tilePlan s n p b).wrs)) else r.status },
      { r with sat := r.sat + wrsSat (tilePlan s n p b).wrs, nan := r.nan + wrsNan (tilePlan s n p b).wrs, done := last, status := if last then worst (satStatus (r.sat + wrsSat (tilePlan s n p b).wrs) (r.nan + wrsNan (tilePlan s n p b).wrs)) else r.status }) := by
    have k := applyWrs_ran r.by n r.start (tilePlan s n p b).wrs s h3 hb
    unfold drainTile
    dsimp only
    rw [h2, ht]
    simp only [Bool.false_eq_true, if_false]
    rw [drainFault_clean s n p b hb ht]
    dsimp only
    have hbt : bufTouch (applyWrs r.by s (tilePlan s n p b).wrs) n r.rec'.ctx (List.filter (fun x => x.2 == 1) (badWords [] 0 (p.rowsIn b.tile * p.bufRow))) =
      applyWrs r.by s (tilePlan s n p b).wrs := rfl
    rw [hbt, h1, (rdsTouch_clean _ n _ (by rw [k.bad]; exact hb) _ (epiRds_scratch n p b.tile)).1]
  rw [e]
  have k1 := applyWrs_ran r.by n r.start (tilePlan s n p b).wrs s h3 hb
  obtain ⟨p1, p2, p3⟩ := putRun_ran (applyWrs r.by s (tilePlan s n p b).wrs) n { r with sat := r.sat + wrsSat (tilePlan s n p b).wrs, nan := r.nan + wrsNan (tilePlan s n p b).wrs, done := last, status := if last then worst (satStatus (r.sat + wrsSat (tilePlan s n p b).wrs) (r.nan + wrsNan (tilePlan s n p b).wrs)) else r.status }
  refine ⟨k1.trans p1, rfl, rfl, rfl, fun hl => ?_, p2, ?_⟩
  · dsimp only
    rw [if_pos hl]
    exact worst_sat _ _
  · exact p3.trans (by rw [(applyWrs_clean r.by n _ s h3 hb).2.1])

theorem heldTile_good {c : Core} (h : bufsGood c) {r : Running} {i : Nat} {b : TileBuf} (hb : heldTile c r i = some b) : b.bad = [] := by
  have := List.mem_of_find?_eq_some hb
  simp only [List.mem_cons, List.not_mem_nil, or_false] at this
  rcases this with rfl | rfl
  · exact h.1
  · exact h.2

theorem countFetches_ran (s : State) (n : Nat) (p : MatParam) (i q st : Nat) : CoreRan n st s (countFetches s n p i q) :=
  (coreCount_ran ..).trans (coreCount_ran ..)

/-- A tile run whole with no word in error: its reads, its writes, and its command's entry. -/
theorem runTile_clean (s : State) (n : Nat) (r : Running) (p : MatParam) (i : Nat) (last : Bool) (hb : (s.core n).bad = []) (hg : bufsGood (s.core n)) :
    CoreRan n r.start s (runTile s n r p i last).1 ∧ (runTile s n r p i last).2.start = r.start ∧ (runTile s n r p i last).2.rec' = r.rec' ∧
      (runTile s n r p i last).2.done = last ∧ (last = true → (runTile s n r p i last).2.status = stDone ∨ (runTile s n r p i last).2.status = stSaturated) ∧
      ∀ x ∈ ((runTile s n r p i last).1.core n).running, x.start = r.start → x = (runTile s n r p i last).2 := by
  unfold runTile
  split
  · next b e =>
    obtain ⟨h1, h2, h3, h4, h5, h6, -⟩ := drainTile_clean s n r p b last 0 hb (heldTile_good hg e)
    exact ⟨h1, h2, h3, h4, h5, h6⟩
  · rw [faultFetch_clean s n p i hb]
    dsimp only
    have k := countFetches_ran s n p i p.fetches r.start
    have hb' : ((countFetches s n p i p.fetches).core n).bad = [] := by rw [k.bad]; exact hb
    rw [(rdsTouch_clean r.by n _ hb' _ (fillRds_scratch n p i)).1]
    obtain ⟨h1, h2, h3, h4, h5, h6, -⟩ := drainTile_clean (countFetches s n p i p.fetches) n r p (loadTots (countFetches s n p i p.fetches) n p { tile := i }) last 0 hb' rfl
    exact ⟨k.trans h1, h2, h3, h4, h5, h6⟩

theorem ctrAdd_ne (t : Tbl (BitVec 64)) (o x n : Nat) (h : x ≠ o) : tget d0 (ctrAdd t o n) x = tget d0 t x := tget_tset_ne _ _ _ _ _ h

theorem ctrAddField_ne (t : Tbl (BitVec 64)) (o l w x n : Nat) (h : x ≠ o) : tget d0 (ctrAddField t o l w n) x = tget d0 t x := tget_tset_ne _ _ _ _ _ h

theorem ctrAdd_self (t : Tbl (BitVec 64)) (o n : Nat) : tget d0 (ctrAdd t o n) o = stick (tget d0 t o) n := tget_tmod_self ..

theorem ctrAddField_low32 (t : Tbl (BitVec 64)) (o n : Nat) : bitsOf (tget d0 (ctrAddField t o 0 32 n) o).toNat 0 32 = min (bitsOf (tget d0 t o).toNat 0 32 + n) (2 ^ 32 - 1) := by
  simp only [ctrAddField, tget_tmod_self, bitsOf]
  have := (tget d0 t o).isLt
  simp only [BitVec.toNat_ofNat]
  omega

theorem ctrAddField_high32 (t : Tbl (BitVec 64)) (o n : Nat) : bitsOf (tget d0 (ctrAddField t o 32 32 n) o).toNat 32 32 = min (bitsOf (tget d0 t o).toNat 32 32 + n) (2 ^ 32 - 1) := by
  simp only [ctrAddField, tget_tmod_self, bitsOf]
  have := (tget d0 t o).isLt
  simp only [BitVec.toNat_ofNat]
  omega

theorem coreCount_core (s : State) (n o k : Nat) (hk : k ≠ 0) : (coreCount s n o k).core n = { s.core n with ctr := ctrAdd (s.core n).ctr o k } := by
  unfold coreCount
  rw [if_neg hk, State.modCore_get_core_self]

theorem setFld_length (r : List Byte) (o n v : Nat) (h : o + n ≤ r.length) : (setFld r o n v).length = r.length := by
  have : (natLE n v).length = n := by simp
  unfold setFld setBytes
  simp [this]
  omega

theorem gatedEntry_admitted {s : State} {who : Party} {c : Nat} (f : State → State) (h : Admitted s who .admin) (h2 : Admitted s who (.ctx c)) :
    gatedEntry s who c f = f s := by
  unfold gatedEntry; rw [gated_admitted _ h2, if_pos h.2.2]

theorem mem_tins_self {α : Type} (t : Tbl α) (k : Nat) (v : α) : (k, v) ∈ tins t k v := by
  induction t with
  | nil => simp [tins]
  | cons x r ih => unfold tins; split <;> simp [ih]

theorem mem_tset {α : Type} [DecidableEq α] (d : Nat → α) (t : Tbl α) (k : Nat) (v : α) (h : v ≠ d k) : (k, v) ∈ tset d t k v := by
  unfold tset; simp only [h, if_false]; exact mem_tins_self ..

theorem modHurdle_mem (s : State) (i : Nat) (f : Hurdle → Hurdle) (h : (f (s.hurdle i)).busy = true) : (i, f (s.hurdle i)) ∈ (s.modHurdle i f).hurdles :=
  mem_tset _ _ _ _ (fun e => by rw [e] at h; cases h)

theorem tget_mapk {α : Type} (d : Nat → α) (g : Nat → α → α) (hd : ∀ k, g k (d k) = d k) (t : Tbl α) (k : Nat) :
    tget d (t.map (fun x => (x.1, g x.1 x.2))) k = g k (tget d t k) := by
  induction t with
  | nil => exact (hd k).symm
  | cons x r ih =>
    obtain ⟨a, v⟩ := x
    simp only [List.map_cons, tget]
    split
    · next h => subst h; rfl
    · exact ih

theorem tget_filter_key {α : Type} (d : Nat → α) (t : Tbl α) (c k : Nat) : tget d (t.filter (fun y => y.1 == c)) k = if k = c then tget d t k else d k := by
  induction t with
  | nil => simp [tget]
  | cons x r ih =>
    obtain ⟨a, v⟩ := x
    by_cases h : a = c
    · subst h
      simp only [List.filter_cons, beq_self_eq_true, if_true, tget]
      rw [ih]
      by_cases hk : a = k
      · subst hk; simp
      · simp [hk, Ne.symm hk]
    · simp only [List.filter_cons, beq_iff_eq, h, if_false, tget]
      rw [ih]
      by_cases hk : a = k
      · subst hk; simp [h]
      · simp [hk]

theorem tget_not_mem {α : Type} (d : Nat → α) (t : Tbl α) (k : Nat) (h : k ∉ t.map (·.1)) : tget d t k = d k := by
  induction t with
  | nil => rfl
  | cons x r ih =>
    simp only [List.map_cons, List.mem_cons, not_or] at h
    unfold tget; simp only [Ne.symm h.1, if_false]; exact ih h.2

theorem keeps_ibx {l : List Field} {s t : State} (h : Keeps l s t) (hf : .ibex ∉ l) (d : Nat) : t.ibx d = s.ibx d := by
  have := h.only.2 .ibex hf
  unfold State.ibx
  rw [show t.ibex = s.ibex from this]

end Sys2Proof.Machine
end

