-- ==== Sys2Proof/Laws/ContextFacts.lean ====
section
/-! SUPPORT. What intake, delivery, contexts and Folds change and leave. -/

namespace Sys2Proof.Machine

open Sys2Proof

theorem intakeCheck_taken (s : State) (c : Nat) (rest : List Rec) (r : Rec) :
    intakeCheck (s.modCtx c (fun x => { x with intake := rest })) r = intakeCheck s r := by
  have h : ∀ d, ((s.modCtx c (fun x => { x with intake := rest })).ctx d).parts = (s.ctx d).parts := by
    intro d; by_cases hd : d = c
    · subst hd; rw [State.modCtx_get_ctx_self]
    · rw [State.modCtx_get_ctx_ne _ _ _ _ hd]
  unfold intakeCheck ctxParts
  simp only [h]
  rfl

theorem slotFenced_taken (s : State) (c n d : Nat) (rest : List Rec) :
    slotFenced (s.modCtx c (fun x => { x with intake := rest })) n d = slotFenced s n d := by
  have h : ((s.modCtx c (fun x => { x with intake := rest })).ctx d).state = (s.ctx d).state := by
    by_cases hd : d = c
    · subst hd; rw [State.modCtx_get_ctx_self]
    · rw [State.modCtx_get_ctx_ne _ _ _ _ hd]
  unfold slotFenced ctxFenced
  simp only [h]
  rfl

theorem foldl_modCore (Q : Core → Prop) (f : Core → Core) (hq : ∀ x, Q (f x)) (l : List Nat) (s : State) (m : Nat) :
    (m ∈ l → Q ((l.foldl (fun s n => s.modCore n f) s).core m)) ∧ (m ∉ l → (l.foldl (fun s n => s.modCore n f) s).core m = s.core m) := by
  induction l generalizing s with
  | nil => exact ⟨fun h => absurd h (by simp), fun _ => rfl⟩
  | cons n l ih =>
    refine ⟨fun h => ?_, fun h => ?_⟩
    · by_cases hm : m ∈ l
      · exact (ih _).1 hm
      · have : m = n := by simpa [hm] using h
        subst this
        rw [List.foldl_cons, (ih _).2 hm, State.modCore_get_core_self]; exact hq _
    · rw [List.foldl_cons, (ih _).2 (fun h' => h (List.mem_cons_of_mem _ h')), State.modCore_get_core_ne _ _ _ _ (fun e => h (by simp [e]))]

theorem foldl_modCore_rel (R : Core → Core → Prop) (hr : ∀ x, R x x) (ht : ∀ x y z, R x y → R y z → R x z) (f : Core → Core) (hq : ∀ x, R x (f x)) (l : List Nat) (s : State) (m : Nat) :
    R (s.core m) ((l.foldl (fun s n => s.modCore n f) s).core m) := by
  induction l generalizing s with
  | nil => exact hr _
  | cons n l ih =>
    rw [List.foldl_cons]
    refine ht _ _ _ ?_ (ih _)
    rw [State.modCore_get_core]; split
    · next e => subst e; exact hq _
    · exact hr _

theorem foldl_modFold_get (f : Fold → Fold) (hf : ∀ x, f (f x) = f x) (l : List Nat) (s : State) (m : Nat) :
    (l.foldl (fun s n => s.modFold n f) s).fold m = if m ∈ l then f (s.fold m) else s.fold m := by
  induction l generalizing s with
  | nil => simp
  | cons n l ih =>
    rw [List.foldl_cons, ih, State.modFold_get_fold]
    by_cases h : m = n
    · subst h; simp [hf]
    · simp [h]

@[simp] theorem Core.setSlot_slot_self (c : Core) (i : Nat) (x : Slot) : (c.setSlot i x).slot i = x := tget_tset_self _ _ _ _

theorem Core.setSlot_slot_ne (c : Core) (i j : Nat) (x : Slot) (h : j ≠ i) : (c.setSlot i x).slot j = c.slot j := tget_tset_ne _ _ _ _ _ h

theorem coreForget_slot (c : Nat) (k : Core) (i : Nat) (hi : i < 32) (h0 : 0 < i) :
    ((coreForget c k).slot i).ctx.toNat = c → ((coreForget c k).slot i).valid = false ∧ ((coreForget c k).slot i).drain = false := by
  unfold coreForget
  generalize ({ k with comps := k.comps.filter (fun x => x.ctx != c) } : Core) = k0
  have key : ∀ (l : List Nat) (k : Core), (i ∈ l →
      (((l.foldl (fun k i => if i ≠ 0 && (k.slot i).ctx.toNat = c then k.setSlot i { k.slot i with valid := false, drain := false } else k) k).slot i).ctx.toNat = c →
       ((l.foldl (fun k i => if i ≠ 0 && (k.slot i).ctx.toNat = c then k.setSlot i { k.slot i with valid := false, drain := false } else k) k).slot i).valid = false ∧
       ((l.foldl (fun k i => if i ≠ 0 && (k.slot i).ctx.toNat = c then k.setSlot i { k.slot i with valid := false, drain := false } else k) k).slot i).drain = false)) ∧
      (i ∉ l → (l.foldl (fun k i => if i ≠ 0 && (k.slot i).ctx.toNat = c then k.setSlot i { k.slot i with valid := false, drain := false } else k) k).slot i = k.slot i) := by
    intro l
    induction l with
    | nil => intro k; exact ⟨fun h => absurd h (by simp), fun _ => rfl⟩
    | cons n l ih =>
      intro k
      rw [List.foldl_cons]
      refine ⟨fun h => ?_, fun h => ?_⟩
      · by_cases hm : i ∈ l
        · exact (ih _).1 hm
        · have : i = n := by simpa [hm] using h
          subst this
          rw [(ih _).2 hm]
          split
          · intro _; simp
          · next h' => intro h2; exact absurd h2 (by simpa [Nat.pos_iff_ne_zero.mp h0] using h')
      · rw [(ih _).2 (fun h' => h (List.mem_cons_of_mem _ h'))]
        split
        · rw [Core.setSlot_slot_ne _ _ _ _ (fun e => h (by simp [e]))]
        · rfl
  exact (key _ _).1 (by simpa using hi)

theorem coreForget_same (c : Nat) (k : Core) : (coreForget c k).scratch = k.scratch ∧ (coreForget c k).queues = k.queues := by
  unfold coreForget
  have : ∀ (l : List Nat) (k : Core), (l.foldl (fun k i => if i ≠ 0 && (k.slot i).ctx.toNat = c then k.setSlot i { k.slot i with valid := false, drain := false } else k) k).scratch = k.scratch ∧
      (l.foldl (fun k i => if i ≠ 0 && (k.slot i).ctx.toNat = c then k.setSlot i { k.slot i with valid := false, drain := false } else k) k).queues = k.queues := by
    intro l
    induction l with
    | nil => intro k; exact ⟨rfl, rfl⟩
    | cons n l ih =>
      intro k; rw [List.foldl_cons, (ih _).1, (ih _).2]; split <;> exact ⟨rfl, rfl⟩
  exact this _ _

theorem ring_map_en (l : Tbl Ring) (k : Nat) : (tget ringDef (l.map (fun r => (r.1, { r.2 with en := false, deferred := none, retry := false }))) k).en = false := by
  rw [tget_map ringDef (fun r => { r with en := false, deferred := none, retry := false }) (fun _ => rfl)]

theorem with_manifests_ctx (s : State) (l : List Manifest) (d : Nat) : ({ s with manifests := l } : State).ctx d = s.ctx d := rfl

theorem twoWords_bit (a b i : Nat) : (a % 2 ^ 64 + 2 ^ 64 * b).testBit i = if i < 64 then a.testBit i else b.testBit (i - 64) := by
  rw [Nat.add_comm, Nat.testBit_two_pow_mul_add _ (Nat.mod_lt _ (by decide)), Nat.testBit_mod_two_pow]
  split <;> simp [*]

theorem ofNat_bit (x i : Nat) (h : i < 100) : (BitVec.ofNat 100 x).getLsbD i = x.testBit i := by rw [BitVec.getLsbD_ofNat]; simp [h]

end Sys2Proof.Machine
end

