-- ==== Sys2Proof/Laws/LoaderState.lean ====
section
/-! SUPPORT. Only the loader's own commands take records off a load ring: no fetch, check, end or report of a LOAD changes what waits there (R302, R308). -/

namespace Sys2Proof.Machine

open Sys2Proof

/-- Every context's load ring holds the same records before and after. -/
structure SameLoaders (s t : State) : Prop where
  loader : ∀ d, (t.ctx d).loader = (s.ctx d).loader

theorem SameLoaders.refl (s : State) : SameLoaders s s := ⟨fun _ => rfl⟩

theorem SameLoaders.trans {s t u : State} (h : SameLoaders s t) (k : SameLoaders t u) : SameLoaders s u := ⟨fun d => (k.loader d).trans (h.loader d)⟩

theorem SameLoaders.then {s t u : State} (k : SameLoaders t u) (h : SameLoaders s t) : SameLoaders s u := h.trans k

theorem SameLoaders.of {s t : State} (h : t.ctxs = s.ctxs) : SameLoaders s t := ⟨fun d => by unfold State.ctx; rw [h]⟩

theorem Keeps.sameLoaders {l : List Field} {s t : State} (h : Keeps l s t) (hl : Field.ctxs ∉ l) : SameLoaders s t := .of (h.only.2 .ctxs hl)

theorem CtxsSeen.sameLoaders {s t : State} (h : CtxsSeen s t) : SameLoaders s t := ⟨fun d => by rw [(h.ctx d).rest]⟩

theorem Reported.sameLoaders {c : Nat} {s t : State} (h : Reported c s t) : SameLoaders s t := ⟨fun d => by
  by_cases hd : d = c
  · subst hd; rw [h.rest]
  · rw [(h.ctx d hd).rest]⟩

theorem SameLoaders.modCtx {s : State} {c : Nat} {f : Ctx → Ctx} (h : ∀ x, (f x).loader = x.loader) : SameLoaders s (s.modCtx c f) := ⟨fun d => by
  rw [State.modCtx_get_ctx]
  split
  · next e => subst e; exact h _
  · rfl⟩

theorem SameLoaders.modCore (s : State) (n : Nat) (f : Core → Core) : SameLoaders s (s.modCore n f) := .of rfl

theorem SameLoaders.ite {s t u : State} {c : Prop} [Decidable c] (ht : c → SameLoaders s t) (hu : ¬c → SameLoaders s u) : SameLoaders s (if c then t else u) := by
  split
  · exact ht ‹_›
  · exact hu ‹_›

theorem SameLoaders.foldl {α : Type} {s t : State} {f : State → α → State} {xs : List α} (h : SameLoaders s t)
    (hf : ∀ u x, SameLoaders s u → SameLoaders s (f u x)) : SameLoaders s (xs.foldl f t) := by
  induction xs generalizing t with
  | nil => exact h
  | cons x xs ih => exact ih (hf t x h)

theorem SameLoaders.foldl_fst {α β : Type} {s : State} {p : State × β} {f : State × β → α → State × β} {xs : List α} (h : SameLoaders s p.1)
    (hf : ∀ u x, SameLoaders s u.1 → SameLoaders s (f u x).1) : SameLoaders s (xs.foldl f p).1 := by
  induction xs generalizing p with
  | nil => exact h
  | cons x xs ih => exact ih (hf p x h)

theorem SameLoaders.foldl_snd {α β : Type} {s : State} {p : β × State} {f : β × State → α → β × State} {xs : List α} (h : SameLoaders s p.2)
    (hf : ∀ u x, SameLoaders s u.2 → SameLoaders s (f u x).2) : SameLoaders s (xs.foldl f p).2 := by
  induction xs generalizing p with
  | nil => exact h
  | cons x xs ih => exact ih (hf p x h)

theorem SameLoaders.snd {α : Type} {s t : State} {p : α × State} {a : α} (e : p = (a, t)) (h : SameLoaders s p.2) : SameLoaders s t := by
  subst e
  exact h

theorem SameLoaders.fst {α : Type} {s t : State} {p : State × α} {a : α} (e : p = (t, a)) (h : SameLoaders s p.1) : SameLoaders s t := by
  subst e
  exact h

theorem devWrite_sameLoaders (s : State) (b : By) (a : Nat) (bs : List Byte) : SameLoaders s (devWrite s b a bs) := (devWrite_ctxs ..).sameLoaders

theorem reportRec_sameLoaders (s : State) (r : Rec) (st : Status) (a b c d e : Nat) : SameLoaders s (reportRec s r st a b c d e) := (reportRec_reported ..).sameLoaders

theorem coreReport_sameLoaders (s : State) (n c : Nat) (b : List Byte) : SameLoaders s (coreReport s n c b) := (coreReport_reported ..).sameLoaders

theorem reportInOrder_sameLoaders (s : State) (n : Nat) (r : Rec) (b : List Byte) : SameLoaders s (reportInOrder s n r b) := (reportInOrder_reported ..).sameLoaders

theorem SameLoaders.set_hub2 {s t : State} {x : Hub2} (h : SameLoaders s t) : SameLoaders s { t with hub2 := x } := h.trans (.of rfl)

theorem SameLoaders.set_loads {s t : State} {x : List LoadJob} (h : SameLoaders s t) : SameLoaders s { t with loads := x } := h.trans (.of rfl)

theorem loaderReport_sameLoaders : ∀ s a1 a2 a3 a4, SameLoaders s (loaderReport s a1 a2 a3 a4) := by
  intro s a1 a2 a3 a4
  unfold loaderReport
  repeat' (first
    | (with_reducible apply SameLoaders.ite)
    | with_reducible exact SameLoaders.refl _
    | with_reducible assumption
    | (with_reducible apply SameLoaders.then (reportRec_sameLoaders ..) ?_))


theorem installDone_sameLoaders : ∀ s a1 a2 a3, SameLoaders s (installDone s a1 a2 a3) := by
  intro s a1 a2 a3
  unfold installDone
  repeat' (first
    | (with_reducible apply SameLoaders.ite)
    | with_reducible exact SameLoaders.refl _
    | with_reducible assumption
    | (with_reducible apply SameLoaders.then (devWrite_sameLoaders ..) ?_)
    | (with_reducible apply SameLoaders.then ((post_keeps ..).sameLoaders (by decide)) ?_)
    | (with_reducible apply SameLoaders.foldl)
    | (with_reducible refine SameLoaders.snd (by assumption) ?_)
    | (with_reducible refine SameLoaders.fst (by assumption) ?_)
    | intro _)


theorem settleJob_sameLoaders : ∀ s a1, SameLoaders s (settleJob s a1) := by
  intro s a1
  unfold settleJob
  repeat' (first
    | (with_reducible apply SameLoaders.ite)
    | with_reducible exact SameLoaders.refl _
    | with_reducible assumption
    | (with_reducible apply SameLoaders.then (loaderReport_sameLoaders ..) ?_)
    | (with_reducible apply SameLoaders.then (installDone_sameLoaders ..) ?_)
    | (with_reducible apply SameLoaders.foldl)
    | (with_reducible refine SameLoaders.snd (by assumption) ?_)
    | (with_reducible refine SameLoaders.fst (by assumption) ?_)
    | (with_reducible fail_if_no_progress (apply SameLoaders.set_loads ?_))
    | intro _
    | dsimp only
    | split)


theorem putQpField_sameLoaders : ∀ s a1 a2 a3 a4 a5, SameLoaders s (putQpField s a1 a2 a3 a4 a5) := by
  intro s a1 a2 a3 a4 a5
  unfold putQpField
  repeat' (first
    | (with_reducible apply SameLoaders.ite)
    | with_reducible exact SameLoaders.refl _
    | with_reducible assumption
    | (with_reducible apply SameLoaders.then (devWrite_sameLoaders ..) ?_))


theorem sendRead_sameLoaders : ∀ s a1 a2 a3 a4 a5 a6 a7 t, sendRead s a1 a2 a3 a4 a5 a6 a7 = some t → SameLoaders s t := by
  intro s a1 a2 a3 a4 a5 a6 a7 t h
  simp only [sendRead] at h
  split at h
  · cases h
  · injection h with h
    subst h
    exact SameLoaders.then ((State.modOport_keeps ..).sameLoaders (by decide)) (SameLoaders.then ((setQpRun_keeps ..).sameLoaders (by decide)) (putQpField_sameLoaders ..))


theorem zeroTile_sameLoaders : ∀ s a1 a2 a3, SameLoaders s (zeroTile s a1 a2 a3) := by
  intro s a1 a2 a3
  unfold zeroTile
  repeat' (first
    | (with_reducible apply SameLoaders.ite)
    | with_reducible exact SameLoaders.refl _
    | with_reducible assumption
    | (with_reducible apply SameLoaders.then (devWrite_sameLoaders ..) ?_))


theorem stopJob_sameLoaders : ∀ s a1 a2 a3, SameLoaders s (stopJob s a1 a2 a3) := by
  intro s a1 a2 a3
  unfold stopJob
  repeat' (first
    | (with_reducible apply SameLoaders.ite)
    | with_reducible exact SameLoaders.refl _
    | with_reducible assumption
    | (with_reducible apply SameLoaders.then (zeroTile_sameLoaders ..) ?_)
    | (with_reducible apply SameLoaders.then ((putJob_keeps ..).sameLoaders (by decide)) ?_)
    | (with_reducible apply SameLoaders.foldl)
    | (with_reducible refine SameLoaders.snd (by assumption) ?_)
    | (with_reducible refine SameLoaders.fst (by assumption) ?_)
    | intro _)


theorem tileArrives_sameLoaders : ∀ s a1 a2 a3, SameLoaders s (tileArrives s a1 a2 a3) := by
  intro s a1 a2 a3
  unfold tileArrives
  repeat' (first
    | (with_reducible apply SameLoaders.ite)
    | with_reducible exact SameLoaders.refl _
    | with_reducible assumption
    | (with_reducible apply SameLoaders.then (stopJob_sameLoaders ..) ?_)
    | (with_reducible apply SameLoaders.then (devWrite_sameLoaders ..) ?_)
    | (with_reducible apply SameLoaders.then ((putJob_keeps ..).sameLoaders (by decide)) ?_)
    | (with_reducible apply SameLoaders.foldl)
    | (with_reducible refine SameLoaders.snd (by assumption) ?_)
    | (with_reducible refine SameLoaders.fst (by assumption) ?_)
    | intro _
    | dsimp only
    | split)


theorem fetchTile_sameLoaders : ∀ s a1, SameLoaders s (fetchTile s a1) := by
  intro s a1
  unfold fetchTile
  repeat' (first
    | (with_reducible apply SameLoaders.ite)
    | with_reducible exact SameLoaders.refl _
    | with_reducible assumption
    | (with_reducible refine SameLoaders.trans ?_ (sendRead_sameLoaders _ _ _ _ _ _ _ _ _ (by assumption)))
    | (with_reducible apply SameLoaders.then ((putJob_keeps ..).sameLoaders (by decide)) ?_)
    | (with_reducible apply SameLoaders.then (stopJob_sameLoaders ..) ?_)
    | (with_reducible apply SameLoaders.then (zeroTile_sameLoaders ..) ?_)
    | (with_reducible apply SameLoaders.then ((devTouch_keeps ..).sameLoaders (by decide)) ?_)
    | (with_reducible apply SameLoaders.then (tileArrives_sameLoaders ..) ?_)
    | (with_reducible apply SameLoaders.foldl)
    | (with_reducible refine SameLoaders.snd (by assumption) ?_)
    | (with_reducible refine SameLoaders.fst (by assumption) ?_)
    | (with_reducible apply SameLoaders.getD)
    | intro _
    | dsimp only
    | split)


theorem pumpJob_sameLoaders : ∀ s a1, SameLoaders s (pumpJob s a1) := by
  intro s a1
  unfold pumpJob
  repeat' (first
    | (with_reducible apply SameLoaders.ite)
    | with_reducible exact SameLoaders.refl _
    | with_reducible assumption
    | (with_reducible apply SameLoaders.then (fetchTile_sameLoaders ..) ?_)
    | (with_reducible apply SameLoaders.foldl)
    | (with_reducible refine SameLoaders.snd (by assumption) ?_)
    | (with_reducible refine SameLoaders.fst (by assumption) ?_)
    | intro _)


theorem runJobs_sameLoaders : ∀ s, SameLoaders s (runJobs s) := by
  intro s
  unfold runJobs
  repeat' (first
    | (with_reducible apply SameLoaders.ite)
    | with_reducible exact SameLoaders.refl _
    | with_reducible assumption
    | (with_reducible apply SameLoaders.then (settleJob_sameLoaders ..) ?_)
    | (with_reducible apply SameLoaders.then (pumpJob_sameLoaders ..) ?_)
    | (with_reducible apply SameLoaders.foldl)
    | (with_reducible refine SameLoaders.snd (by assumption) ?_)
    | (with_reducible refine SameLoaders.fst (by assumption) ?_)
    | intro _)


theorem loaderPop_loader (s : State) (c : Nat) : ((loaderPop s c).ctx c).loader = (s.ctx c).loader.drop 1 := by
  unfold loaderPop
  rw [State.modCtx_get_ctx_self]

theorem loaderPop_ne (s : State) (c d : Nat) (h : d ≠ c) : (loaderPop s c).ctx d = s.ctx d := State.modCtx_get_ctx_ne _ _ _ _ h

theorem loaderPop_parts (s : State) (c d : Nat) : ((loaderPop s c).ctx d).parts = (s.ctx d).parts := by
  unfold loaderPop
  rw [State.modCtx_get_ctx]
  split
  · next h => subst h; rfl
  · rfl

/-- The ranges of a context do not depend on its load ring. -/
theorem loaderPop_inRanges (s : State) (c d : Nat) (l : List Sect) (a n : Nat) : inRanges (loaderPop s c) l d a n = inRanges s l d a n := by
  unfold inRanges ctxRanges ctxParts
  rw [loaderPop_parts]

end Sys2Proof.Machine
end

