-- ==== Sys2Proof/Laws/EngineFacts.lean ====
section
/-! SUPPORT. What the engines of a core, the solver and the collective engines change and leave. -/

namespace Sys2Proof.Machine

open Sys2Proof

theorem vecPlan_clean (s : State) (n : Nat) (b : List Byte) (hb : (s.core n).bad = []) : (∀ x ∈ (vecPlan s n b).rds, x.scratch = some n) ∧
    (∀ w ∈ (vecPlan s n b).wrs, w.scratch = some n) ∧ (vecPlan s n b).cut = false ∧ (vecPlan s n b).status = [] := by
  have hr : ∀ r ∈ ([⟨some n, (vecParam b).x, (vecParam b).regX.reg.2⟩, ⟨some n, (vecParam b).y, (vecParam b).regY.reg.2⟩] : List Rd), r.scratch = some n := by
    intro r hr; simp at hr; rcases hr with rfl | rfl <;> rfl
  have hf := (rdsTouch_clean {} n s hb _ hr).2
  unfold vecPlan
  dsimp only
  rw [hf]
  refine ⟨hr, fun w hw => ?_, rfl, rfl⟩
  obtain ⟨i, _, rfl⟩ := List.mem_map.mp hw
  rfl

theorem redPlan_clean (s : State) (n : Nat) (b : List Byte) (hb : (s.core n).bad = []) : (∀ x ∈ (redPlan s n b).rds, x.scratch = some n) ∧
    (∀ w ∈ (redPlan s n b).wrs, w.scratch = some n) ∧ (redPlan s n b).cut = false ∧ (redPlan s n b).status = [] := by
  have hr : ∀ r ∈ (redRows s n (redParam b)).map (·.1), r.scratch = some n := by
    intro r hr
    obtain ⟨x, hx, rfl⟩ := List.mem_map.mp hr
    unfold redRows at hx
    obtain ⟨i, _, rfl⟩ := List.mem_map.mp hx
    rfl
  have hf := (rdsTouch_clean {} n s hb _ hr).2
  unfold redPlan
  dsimp only
  rw [hf]
  refine ⟨hr, fun w hw => ?_, rfl, rfl⟩
  obtain ⟨x, hx, rfl⟩ := List.mem_map.mp hw
  unfold redRows at hx
  obtain ⟨i, _, rfl⟩ := List.mem_map.mp hx
  rfl

theorem runTiles_clean (n : Nat) (p : MatParam) : ∀ (l : List Nat) (s : State) (r : Running), l ≠ [] → (s.core n).bad = [] → bufsGood (s.core n) →
    CoreRan n r.start s (runTiles s n r p l).1 ∧ ∀ x ∈ ((runTiles s n r p l).1.core n).running, x.start = r.start →
      x.done = true ∧ x.rec' = r.rec' ∧ (x.status = stDone ∨ x.status = stSaturated) := by
  intro l
  induction l with
  | nil => exact fun _ _ h => absurd rfl h
  | cons i l ih =>
    intro s r _ hb hg
    cases l with
    | nil =>
      unfold runTiles
      obtain ⟨h1, h2, h3, h4, h5, h6⟩ := runTile_clean s n r p i true hb hg
      refine ⟨h1, fun x hx hs => ?_⟩
      rw [h6 x hx hs]
      exact ⟨h4, h3, h5 rfl⟩
    | cons j l =>
      obtain ⟨h1, h2, h3, h4, h5, h6⟩ := runTile_clean s n r p i false hb hg
      unfold runTiles
      dsimp only
      rw [faultFetch_clean s n p j hb]
      simp only [ite_self, Bool.false_eq_true, if_false, Bool.false_and]
      rw [h4]
      simp only [Bool.false_eq_true, if_false]
      obtain ⟨g1, g2⟩ := ih (runTile s n r p i false).1 (runTile s n r p i false).2 (by simp) (by rw [h1.bad]; exact hb) (h1.bufs hg)
      rw [h2] at g1 g2
      rw [h3] at g2
      exact ⟨h1.trans g1, g2⟩

/-- Writes of one size at adjacent places: each stands where it was written. -/
theorem wroteAll_elems (z sz : Nat) (g : Nat → Wr) (ha : ∀ i, (g i).addr = z + i * sz) (hl : ∀ i, (g i).bytes.length = sz) (m : Mem) : ∀ k,
    (∀ i, i < k → mread (wroteAll m ((List.range k).map g)) (z + i * sz) sz = (g i).bytes) ∧
      ∀ a, (a < z ∨ z + k * sz ≤ a) → mget (wroteAll m ((List.range k).map g)) a = mget m a := by
  intro k
  induction k with
  | zero => exact ⟨fun i hi => absurd hi (by omega), fun _ _ => rfl⟩
  | succ k ih =>
    have e : wroteAll m ((List.range (k + 1)).map g) = mwrite (wroteAll m ((List.range k).map g)) (z + k * sz) (g k).bytes := by
      rw [List.range_succ, List.map_append, wroteAll_append]
      show mwrite _ (g k).addr _ = _
      rw [ha]
    rw [e]
    refine ⟨fun i hi => ?_, fun a h => ?_⟩
    · by_cases hk : i = k
      · subst hk
        have := mread_mwrite (wroteAll m ((List.range i).map g)) (z + i * sz) (g i).bytes
        rw [hl] at this
        exact this
      · have hik : i < k := by omega
        rw [mread_mwrite_out _ _ _ _ _ (Or.inl _)]
        · exact ih.1 i hik
        · have : (i + 1) * sz ≤ k * sz := Nat.mul_le_mul_right _ hik
          rw [Nat.add_mul, Nat.one_mul] at this
          omega
    · rw [Nat.add_mul, Nat.one_mul] at h
      rw [mget_mwrite_out _ _ _ _ (by rw [hl]; rcases h with h | h <;> [left; right] <;> first | exact Nat.lt_of_lt_of_le h (Nat.le_add_right _ _) | omega)]
      exact ih.2 a (by omega)

theorem updEvents_run (s : State) (n : Nat) (r : Running) (o : UOut) : SameRun s (updEvents s n r o) := by
  have hc : ∀ u c a b x y z w, SameRun u (post (ctxCount u c a b) x y z w) := fun u c a b x y z w => SameRun.post (ctxCount_run ..)
  unfold updEvents
  dsimp only
  generalize hv : (if o.nf = 0 then s else post _ _ _ _ _ : State) = v
  have h1 : SameRun s v := by
    rw [← hv]
    split
    · exact SameRun.refl _
    · exact hc ..
  refine h1.trans ?_
  split
  · exact hc ..
  · exact SameRun.refl _

theorem updWrites_run (s : State) (b : By) (o : UOut) : SameRun s (updWrites s b o) :=
  (((rdsTouch_run ..).trans (applyWrs_run ..)).trans (rdsTouch_run ..)).trans (applyWrs_run ..)

/-- An update that meets no fault: its own entry, done, with what its completion will report. -/
theorem updApply_same (s : State) (n : Nat) (r : Running) (o : UOut) (h : o.fault = none) : ∃ u, SameRun s u ∧
    updApply s n r o = putRun u n { r with done := true, status := worst o.plan.status, count := BitVec.ofNat 32 o.plan.count, detail := BitVec.ofNat 32 o.plan.detail, sat := r.sat + wrsSat o.wrs, nan := r.nan + wrsNan o.wrs, told := o.told, slices := o.commit, after := o.plan.after } := by
  unfold updApply
  rw [h]
  exact ⟨_, (updEvents_run ..).trans (updWrites_run ..), rfl⟩

theorem runChain_done (k : Nat) (s : State) (n : Nat) (r : Running) (h : r.done = true) : runChain k s n r = putRun s n r := by
  cases k with
  | zero => rfl
  | succ k => unfold runChain; rw [h]; rfl

/-- A chain that waits for nothing and has met nothing goes on at its next descriptor. -/
theorem copySettle_clear (s : State) (n : Nat) (r : Running) (hl : r.land = []) (hst : r.status = stDone) : copySettle s n r = (s, { r with tiles := r.pos }) := by
  have h : landAll s n r = (s, r) := by unfold landAll; rw [hl]; rfl
  unfold copySettle
  rw [h]
  dsimp only
  rw [hst]
  rfl

/-- A chain whose descriptors have all been carried out ends with their number. -/
theorem runChain_end (k : Nat) (s : State) (n : Nat) (r : Running) (hd : r.done = false) (hst : r.status = stDone) (hl : r.land = []) (hw : copyWaits s n r = false)
    (hc : r.chain[r.pos]? = none) : runChain (k + 1) s n r =
      putRun s n { r with tiles := r.pos, done := true, status := worst ([r.status] ++ satStatus r.sat r.nan), detail := BitVec.ofNat 32 r.pos } := by
  have e : ({ r with tiles := r.pos } : Running).chain[r.pos]? = none := hc
  unfold runChain
  rw [hd, hw, copySettle_clear s n r hl hst]
  simp only [Bool.or_self, Bool.false_eq_true, if_false, hst]
  rw [show faultClass stDone = false from rfl]
  simp only [Bool.false_eq_true, if_false]
  rw [if_neg (by decide), hc]

theorem runningOp_done {c : Core} {e : Nat} {l : List Nat} {r : Running} (h : runningOp c e l = some r) : r.done = false := by
  unfold runningOp at h
  have := List.find?_some h
  simp at this
  simp [this]

theorem putRun_wait (s : State) (n m k : Nat) (r : Running) : waitingAccess (putRun s n r) m k = waitingAccess s m k := rfl

theorem coreCount_on (s : State) (n o k : Nat) : OnCore n s (coreCount s n o k) := by
  unfold coreCount
  split
  · exact OnCore.refl ..
  · exact OnCore.modCore (f := fun c => { c with ctr := ctrAdd c.ctr o k }) rfl

theorem piecesFrom_sat (k : Nat) : ∀ (a : Nat) (bs : List Byte), wrsSat (piecesFrom k a bs) = 0 ∧ wrsNan (piecesFrom k a bs) = 0 := by
  induction k with
  | zero => exact fun _ _ => ⟨rfl, rfl⟩
  | succ k ih =>
    intro a bs
    obtain ⟨h1, h2⟩ := ih (a + 64) (bs.drop 64)
    unfold wrsSat at h1 ⊢
    unfold wrsNan at h2 ⊢
    unfold piecesFrom
    simp only [List.map_cons, List.sum_cons, h1, h2]
    trivial

theorem pieces_sat (a : Nat) (bs : List Byte) : wrsSat (pieces a bs) = 0 ∧ wrsNan (pieces a bs) = 0 := piecesFrom_sat _ a bs

theorem roundup_mod (x : Nat) : (64 + roundup x 64) % 64 = 0 := by
  unfold roundup; omega

theorem popPlan_good (s : State) (n : Nat) (r : Running) (h : (popPlan s n r).status = []) (hc : (popPlan s n r).cut = false) :
    (∀ w ∈ (popPlan s n r).wrs, w.scratch = some n) ∧ wrsSat (popPlan s n r).wrs = 0 ∧ wrsNan (popPlan s n r).wrs = 0 ∧
      (popPlan s n r).detail = (wPile (devRead s (wpAt r.wptab n (pCmd r.rec'.bytes).pile) 64)).depth - 1 := by
  revert h hc
  unfold popPlan
  dsimp only
  split
  · intro h; cases h
  · split
    · intro h; cases h
    · split
      · intro h; cases h
      · intro _ _
        refine ⟨fun w hw => ?_, ?_, ?_, rfl⟩
        · obtain ⟨_, _, rfl⟩ := List.mem_map.mp hw; rfl
        · unfold wrsSat; rw [List.map_map]; exact (pieces_sat ..).1
        · unfold wrsNan; rw [List.map_map]; exact (pieces_sat ..).2

theorem piecesFrom_wrote : ∀ (k a : Nat) (bs : List Byte) (m : Mem), bs.length ≤ 64 * k → wroteAll m (piecesFrom k a bs) = mwrite m a bs := by
  intro k
  induction k with
  | zero =>
    intro a bs m h
    cases bs with
    | nil => rfl
    | cons b bs => simp at h
  | succ k ih =>
    intro a bs m h
    show wroteAll (mwrite m a (bs.take 64)) (piecesFrom k (a + 64) (bs.drop 64)) = _
    rw [ih _ _ _ (by rw [List.length_drop]; omega)]
    by_cases hl : 64 ≤ bs.length
    · have ht : (bs.take 64).length = 64 := by rw [List.length_take]; omega
      conv => rhs; rw [← List.take_append_drop 64 bs, mwrite_append, ht]
    · rw [List.drop_eq_nil_of_le (by omega), List.take_of_length_le (by omega)]
      rfl

theorem pieces_wrote (a : Nat) (bs : List Byte) (m : Mem) : wroteAll m (pieces a bs) = mwrite m a bs :=
  piecesFrom_wrote _ _ _ _ (by unfold cdiv; omega)

theorem piecesFrom_bytes : ∀ (k a : Nat) (bs : List Byte), bs.length ≤ 64 * k → (piecesFrom k a bs).flatMap (·.bytes) = bs := by
  intro k
  induction k with
  | zero =>
    intro a bs h
    cases bs with
    | nil => rfl
    | cons b bs => simp at h
  | succ k ih =>
    intro a bs h
    show bs.take 64 ++ (piecesFrom k (a + 64) (bs.drop 64)).flatMap (·.bytes) = bs
    rw [ih _ _ (by rw [List.length_drop]; omega), List.take_append_drop]

theorem pieces_bytes (a : Nat) (bs : List Byte) : (pieces a bs).flatMap (·.bytes) = bs := piecesFrom_bytes _ _ _ (by unfold cdiv; omega)

theorem piecesFrom_in : ∀ (k a : Nat) (bs : List Byte), ∀ w ∈ piecesFrom k a bs, w.scratch = none ∧ a ≤ w.addr ∧ w.addr + w.bytes.length ≤ a + bs.length + 64 * k := by
  intro k
  induction k with
  | zero => intro a bs w hw; cases hw
  | succ k ih =>
    intro a bs w hw
    rcases List.mem_cons.mp hw with rfl | hw
    · refine ⟨rfl, Nat.le_refl _, ?_⟩
      dsimp only
      rw [List.length_take]
      omega
    · obtain ⟨h1, h2, h3⟩ := ih _ _ w hw
      rw [List.length_drop] at h3
      exact ⟨h1, by omega, by omega⟩

/-- Writes of device memory each of whose regions is backed leave their bytes, in order, where nothing is lost. -/
theorem applyWrs_uni (b : By) : ∀ (ws : List Wr) (s : State), (∀ w ∈ ws, w.scratch = none ∧ spaceOf w.addr = .uni ∧ hitsUnbacked s w.addr w.bytes.length = false) → Lossless s →
    (applyWrs b s ws).uni = wroteAll s.uni ws ∧ Backing s (applyWrs b s ws) := by
  intro ws
  induction ws with
  | nil => exact fun s _ _ => ⟨rfl, Backing.refl s⟩
  | cons w ws ih =>
    intro s h l
    obtain ⟨h1, h2, h3⟩ := h w (by simp)
    have e : applyWr b s w = devWrite s b w.addr w.bytes := by unfold applyWr; rw [h1]
    have k : Backing s (applyWr b s w) := by rw [e]; exact devWrite_backing ..
    obtain ⟨g1, g2⟩ := ih (applyWr b s w) (fun v hv => by
      obtain ⟨v1, v2, v3⟩ := h v (List.mem_cons_of_mem _ hv)
      exact ⟨v1, v2, by rw [k.unbacked]; exact v3⟩) (k.lossless l)
    refine ⟨?_, k.trans g2⟩
    show (applyWrs b (applyWr b s w) ws).uni = _
    rw [g1, e, devWrite_uni s b w.addr w.bytes h2 h3 l]
    rfl

/-- A read of device memory is of its bytes and of which tiles are backed. -/
theorem devRead_congr {s t : State} (k : Backing s t) (a n : Nat) (hu : ∀ x, a ≤ x → x < a + n → mget t.uni x = mget s.uni x) (hh : t.host = s.host) :
    devRead t a n = devRead s a n := by
  have hm : mread t.uni a n = mread s.uni a n := by
    have g : ∀ (n a : Nat), (∀ x, a ≤ x → x < a + n → mget t.uni x = mget s.uni x) → mread t.uni a n = mread s.uni a n := by
      intro n
      induction n with
      | zero => exact fun _ _ => rfl
      | succ n ih =>
        intro a h
        show mget t.uni a :: mread t.uni (a + 1) n = mget s.uni a :: mread s.uni (a + 1) n
        rw [h a (Nat.le_refl _) (by omega), ih (a + 1) (fun x h1 h2 => h x (by omega) (by omega))]
    exact g n a hu
  have hb : ∀ x, tileBacked t x = tileBacked s x := fun x => tileBacked_congr k.top k.ch k.slice x
  have hr : uniRead t a n = uniRead s a n := by
    unfold uniRead
    rw [k.unbacked, hm]
    simp only [hb]
  unfold devRead
  split
  · rw [hh]
  · exact hr

/-- A GATHER's tile of the accumulators, written: its bytes and no others of the unified range, and its command's entry. -/
theorem writeTile_next (s : State) (n : Nat) (r : Running) (hf : (upToFault s (tileWrs s n (gCmd r.rec'.bytes) r.tiles)).2 = none) :
    writeTile s n r = (putRun (applyWrs r.by s (tileWrs s n (gCmd r.rec'.bytes) r.tiles)) n (setSlices { r with tiles := r.tiles + 1, formed := false } r.slices),
      setSlices { r with tiles := r.tiles + 1, formed := false } r.slices) := by
  have h : upToFault s (tileWrs s n (gCmd r.rec'.bytes) r.tiles) = (tileWrs s n (gCmd r.rec'.bytes) r.tiles, none) :=
    upToFault_of (fun w hw => by
      have := List.findSome?_eq_none_iff.mp hf w hw
      exact this)
  unfold writeTile
  rw [h]

theorem setSlices_same (r : Running) (k : Nat) : (setSlices r k).start = r.start ∧ (setSlices r k).rec' = r.rec' ∧ (setSlices r k).tiles = r.tiles ∧ (setSlices r k).done = r.done := by
  unfold setSlices
  split <;> exact ⟨rfl, rfl, rfl, rfl⟩

theorem mem_queueBatch (l : List Batch) (b : Batch) : b ∈ queueBatch l b ∧ ∀ x ∈ l, x ∈ queueBatch l b := by
  unfold queueBatch
  dsimp only
  split
  · refine ⟨by simp, fun x hx => ?_⟩
    have h := List.takeWhile_append_dropWhile (p := fun (x : Batch) => x.rec'.ctx == 0 || decide (0 < x.dispatched)) (l := l)
    rw [← h] at hx
    rcases List.mem_append.mp hx with h1 | h1
    · simp only [List.append_assoc, List.mem_append]; exact Or.inl h1
    · simp only [List.append_assoc, List.mem_append]; exact Or.inr (Or.inr h1)
  · exact ⟨by simp, fun x hx => by simp [hx]⟩

theorem entryOver_ibx (s : State) (d id idx : Nat) (o : EOutcome) : ((entryOver s d id idx o).ibx d).entries = (s.ibx d).entries ∧ ((entryOver s d id idx o).ibx d).failed = (s.ibx d).failed ∧
    ∀ y, y ≠ d → (entryOver s d id idx o).ibx y = s.ibx y := by
  unfold entryOver
  refine ⟨?_, ?_, fun y hy => State.modIbx_get_ibx_ne _ _ _ _ hy⟩
  all_goals rw [State.modIbx_get_ibx_self]

theorem writeHeader_last (s : State) (e : ECtx) (o : EOutcome) (hsp : spaceOf (ibEnt e.rec' + 64 * e.idx + 17) = .uni) (hu : hitsUnbacked s (ibEnt e.rec' + 64 * e.idx + 17) 2 = false)
    (l : Lossless s) : mread (writeHeader s e o).uni (ibEnt e.rec' + 64 * e.idx + 17) 2 = [o.status, BitVec.ofNat 8 o.iters] := by
  unfold writeHeader
  dsimp only
  generalize hq : (if o.deliver = true then _ else _ : State) = u
  have hb : Backing s (noteResult u e o) := by
    refine Backing.trans ?_ ((noteResult_keeps ..).backing (by decide) (by decide))
    rw [← hq]
    split
    · exact devWrite_backing ..
    · split
      · exact devWrite_backing ..
      · exact Backing.refl s
  rw [devWrite_uni _ _ _ _ hsp (by rw [show ([o.status, BitVec.ofNat 8 o.iters] : List Byte).length = 2 from rfl, hb.unbacked]; exact hu) (hb.lossless l)]
  exact mread_mwrite _ _ [o.status, BitVec.ofNat 8 o.iters]

theorem proposeLanes_none (s : State) (d : Nat) (h : (s.ibx d).failed = 0) : proposeLanes s d = s := by
  unfold proposeLanes
  rw [h]
  simp

theorem loadEntry_puts (s : State) (d : Nat) (b : Batch) (idx lane g : Nat) : ∃ u y, loadEntry s d b idx lane g = u.modIbx d (fun x => { x with entries := x.entries ++ [y] }) ∧
    Keeps (.ctxs :: readParts) s u ∧ y.seq = b.id ∧ y.idx = idx ∧ y.lane = lane ∧ y.group = g ∧ y.since = s.time := by
  unfold loadEntry
  dsimp only
  split
  · next f _ => exact ⟨_, _, rfl, (entryFault_keeps ..).mono (by decide), rfl, rfl, rfl, rfl, rfl⟩
  · generalize (if (ientOf (b.entries.getD idx [])).srck = 0 then assemble _ _ else _ : Assembled) = as
    generalize hu : (if as.flat = true then ctxCount _ _ _ _ else _ : State) = u
    have ku : Keeps (.ctxs :: readParts) s u := by
      rw [← hu]
      have h1 := (srcTouch_keeps s (ibxBy d b.rec'.ctx) (ientOf (b.entries.getD idx []))).mono (m := .ctxs :: readParts) (by decide)
      split
      · exact (h1.step (post_keeps ..) (by decide)).step (ctxCount_keeps ..) (by decide)
      · exact h1
    split
    · next f _ => exact ⟨_, _, rfl, ku.step (entryFault_keeps ..) (by decide), rfl, rfl, rfl, rfl, rfl⟩
    · exact ⟨_, _, rfl, ku, rfl, rfl, rfl, rfl, rfl⟩
    · exact ⟨_, _, rfl, ku, rfl, rfl, rfl, rfl, rfl⟩

/-- An entry of a die whose lane store has no error meets none. -/
theorem laneScan_clean (s : State) (d : Nat) (r : Rec) (e : Entry) (h : (s.ibx d).bad = []) : laneScan s d r e = (false, s) := by
  unfold laneScan laneErrs
  rw [h]
  rfl

/-- From `s` to `t` no die's entries, batches nor failed lanes change, and of no other die anything. -/
structure SameEntries (d : Nat) (s t : State) : Prop where
  entries : (t.ibx d).entries = (s.ibx d).entries
  batches : (t.ibx d).batches = (s.ibx d).batches
  failed : (t.ibx d).failed = (s.ibx d).failed
  others : ∀ y, y ≠ d → t.ibx y = s.ibx y

theorem SameEntries.trans {d : Nat} {s t u : State} (h : SameEntries d s t) (g : SameEntries d t u) : SameEntries d s u :=
  ⟨g.entries.trans h.entries, g.batches.trans h.batches, g.failed.trans h.failed, fun y hy => (g.others y hy).trans (h.others y hy)⟩

theorem Keeps.sameEntries {l : List Field} {s t : State} (h : Keeps l s t) (hl : Field.ibex ∉ l) (d : Nat) : SameEntries d s t := by
  have k := keeps_ibx h hl
  exact ⟨by rw [k], by rw [k], by rw [k], fun y _ => k y⟩

theorem SameEntries.modIbx (s : State) (d : Nat) (f : Ibex → Ibex) (h1 : (f (s.ibx d)).entries = (s.ibx d).entries) (h2 : (f (s.ibx d)).batches = (s.ibx d).batches)
    (h3 : (f (s.ibx d)).failed = (s.ibx d).failed) : SameEntries d s (s.modIbx d f) :=
  ⟨by rw [State.modIbx_get_ibx_self]; exact h1, by rw [State.modIbx_get_ibx_self]; exact h2, by rw [State.modIbx_get_ibx_self]; exact h3,
    fun y hy => State.modIbx_get_ibx_ne _ _ _ _ hy⟩

theorem countLanes_same (s : State) (d f k : Nat) : SameEntries d s (countLanes s d f k) := by
  unfold countLanes
  have h := (freeBelow_keeps s (2 ^ 40)).sameEntries (by decide) d
  rcases hf : freeBelow s (2 ^ 40) with ⟨x, u⟩
  rw [hf] at h
  exact h.trans (SameEntries.modIbx _ _ _ rfl rfl rfl)

theorem countStop_same (s : State) (d : Nat) (o : EOutcome) : SameEntries d s (countStop s d o) := by
  unfold countStop
  split
  · exact SameEntries.modIbx _ _ _ rfl rfl rfl
  · exact ⟨rfl, rfl, rfl, fun _ _ => rfl⟩

/-- An entry's computation is over: it waits for its header, and nothing else of the die's queue changes. -/
theorem finishEntry_ends (s : State) (d : Nat) (b : By) (e : Entry) (x : IEnt) (o : EOutcome) : ∃ o', ((finishEntry s d b e x o).ibx d).entries = (s.ibx d).entries.map (fun y => if y.seq = e.seq && y.idx = e.idx then { e with phase := .computed, out := o' } else y) ∧
    ((finishEntry s d b e x o).ibx d).batches = (s.ibx d).batches ∧ ((finishEntry s d b e x o).ibx d).failed = (s.ibx d).failed ∧ ∀ z, z ≠ d → (finishEntry s d b e x o).ibx z = s.ibx z := by
  unfold finishEntry
  have h1 := (guardRes_keeps s b x o).sameEntries (by decide) d
  rcases hg : guardRes s b x o with ⟨o1, u⟩
  rw [hg] at h1
  dsimp only
  have h2 := (h1.trans (countStop_same u d o1)).trans (countLanes_same (countStop u d o1) d o1.fma (if o1.stopped || o1.status = stEcc then 0 else laneCycles e x))
  have h3 := h2.trans ((writeBody_keeps (countLanes (countStop u d o1) d o1.fma (if o1.stopped || o1.status = stEcc then 0 else laneCycles e x)) b x o1).sameEntries (by decide) d)
  generalize writeBody (countLanes (countStop u d o1) d o1.fma _) b x o1 = v at h3
  unfold putEntry
  refine ⟨{ o1 with body := [] }, ?_, ?_, ?_, fun z hz => ?_⟩
  · rw [State.modIbx_get_ibx_self, ← h3.entries]
  · rw [State.modIbx_get_ibx_self]; exact h3.batches
  · rw [State.modIbx_get_ibx_self]; exact h3.failed
  · rw [State.modIbx_get_ibx_ne _ _ _ _ hz, h3.others z hz]

theorem endEntry_ends (s : State) (d lane : Nat) (stop : Option Nat) (e : Entry) (b : Batch) (he : entryAt (s.ibx d) lane .computing = some e) (hb : batchOf (s.ibx d) e = some b) (hbad : (s.ibx d).bad = []) :
    ∃ o', ((endEntry s d lane stop).ibx d).entries = (s.ibx d).entries.map (fun y => if y.seq = e.seq && y.idx = e.idx then { e with phase := .computed, out := o' } else y) ∧
    ((endEntry s d lane stop).ibx d).batches = (s.ibx d).batches ∧ ((endEntry s d lane stop).ibx d).failed = (s.ibx d).failed ∧ ∀ z, z ≠ d → (endEntry s d lane stop).ibx z = s.ibx z := by
  have e1 : endEntry s d lane stop = finishEntry (runEntry s (ectxOf d b e) e.mat e.warm e.mu stop).2 d (ectxOf d b e).by e (ectxOf d b e).x (runEntry s (ectxOf d b e) e.mat e.warm e.mu stop).1 := by
    unfold endEntry
    rw [he]
    dsimp only
    rw [hb]
    dsimp only
    rw [laneScan_clean _ _ _ _ hbad]
    simp only [Bool.false_eq_true, if_false]
  rw [e1]
  have k := keeps_ibx (runEntry_keeps s (ectxOf d b e) e.mat e.warm e.mu stop) (by decide)
  obtain ⟨o', h1, h2, h3, h4⟩ := finishEntry_ends (runEntry s (ectxOf d b e) e.mat e.warm e.mu stop).2 d (ectxOf d b e).by e (ectxOf d b e).x (runEntry s (ectxOf d b e) e.mat e.warm e.mu stop).1
  exact ⟨o', by rw [h1, k], by rw [h2, k], by rw [h3, k], fun z hz => by rw [h4 z hz, k]⟩

theorem finishColl_mem (s : State) (e o : Nat) (l : List Status) : ∀ x ∈ ((finishColl s e o l).ce e).inflight, x.order = o → x.phase = .finished := by
  unfold finishColl modColl
  rw [State.modCe_get_ce_self]
  intro x hx ho
  obtain ⟨y, hy, rfl⟩ := List.mem_map.mp hx
  split at ho
  · next h => rw [if_pos h]
  · next h => exact absurd ho h

/-- After its own work is over a record no longer waits, whatever follows on its engine. -/
theorem finished_then {e o : Nat} {l : List Status} {s t u : State} (h : CollStay e s t) (g : CollStay e (finishColl t e o l) u) :
    CollStay e s u ∧ ∀ x ∈ (u.ce e).inflight, x.order = o → x.phase ≠ .waiting := by
  refine ⟨(h.trans (finishColl_stay ..)).trans g, fun x hx ho => ?_⟩
  obtain ⟨y, hy, h1, h2⟩ := g.phase x hx
  have h3 := finishColl_mem t e o l y hy (by rw [← h1]; exact ho)
  rcases h2 with h2 | h2
  · rw [h2, h3]; simp
  · exact h2

theorem gather_then {e o : Nat} {s t u : State} (h : CollStay e s t) (g : CollStay e (modColl t e o (fun y => { y with phase := .gathering })) u) :
    CollStay e s u ∧ ∀ x ∈ (u.ce e).inflight, x.order = o → x.phase ≠ .waiting := by
  refine ⟨(h.trans (modColl_stay _ _ _ (fun y => { y with phase := .gathering }) (fun _ => ⟨rfl, Or.inr (by simp)⟩))).trans g, fun x hx ho => ?_⟩
  obtain ⟨y, hy, h1, h2⟩ := g.phase x hx
  have h3 : y.phase = .gathering := by
    unfold modColl at hy
    rw [State.modCe_get_ce_self] at hy
    obtain ⟨z, hz, rfl⟩ := List.mem_map.mp hy
    split at h1
    · next h => rw [if_pos h]
    · next h => exact absurd (h1.symm.trans ho) h
  rcases h2 with h2 | h2
  · rw [h2, h3]; simp
  · exact h2

theorem runSum_then (s : State) (e : Nat) (k : Coll) (w : CW) (sh : Nat) : CollStay e s (settleEngine (runSum s e k w sh) e) ∧
    ∀ x ∈ ((settleEngine (runSum s e k w sh) e).ce e).inflight, x.order = k.order → x.phase ≠ .waiting := by
  obtain ⟨u, hu, ⟨l, h⟩ | h⟩ := runSum_ends s e k w sh
  · rw [h]; exact finished_then hu (settleEngine_stay ..)
  · rw [h]; exact gather_then hu ((sendGather_stay ..).trans (settleEngine_stay ..))

theorem holdArea_holds (s : State) (c l st : Nat) : (∃ a ∈ (holdArea s c l st).areas, a.land = l ∧ a.ctx = c) ∧ Keeps [.areas] s (holdArea s c l st) := by
  refine ⟨?_, holdArea_keeps ..⟩
  unfold holdArea
  split
  · next a ha =>
    have h1 := List.find?_some ha
    have h2 := List.mem_of_find?_eq_some ha
    simp only [Bool.and_eq_true, beq_iff_eq] at h1
    unfold putArea
    exact ⟨_, List.mem_map.mpr ⟨a, h2, rfl⟩, by rw [if_pos (by simp)]; exact ⟨h1.1, h1.2⟩⟩
  · dsimp only
    exact ⟨{ land := l, ctx := c }, List.mem_append_right _ (List.mem_singleton.mpr rfl), rfl, rfl⟩

theorem findArea_of {s : State} {c l : Nat} (h : ∃ a ∈ s.areas, a.land = l ∧ a.ctx = c) : (findArea s c l).isSome = true := by
  obtain ⟨a, ha, h1, h2⟩ := h
  unfold findArea
  rw [List.find?_isSome]
  exact ⟨a, ha, by simp [h1, h2]⟩

theorem contribTail (e o n : Nat) (v : State) (w : CW) : CollStay e v (if w.own.isNone then
    (if !collOpen v e o then v else if n = 0x62 then modColl v e o (fun x => { x with phase := .gathering }) else finishColl v e o []) else v) := by
  split
  · split
    · exact CollStay.refl ..
    · split
      · exact modColl_stay _ _ _ _ (fun y => ⟨rfl, Or.inr (by simp)⟩)
      · exact finishColl_stay ..
  · exact CollStay.refl ..

theorem startColl_starts (s : State) (e : Nat) (ops : Nat → Bool) (r : Rec) (h : startable s e ops = some r) (hk : collCheck (s.modCe e (fun c => { c with queue := c.queue.erase r })) e r = none) :
    ∃ u, Keeps [.areas, .hub2, .ces] s u ∧ (∀ d, (u.ce d).queue = if d = e then (s.ce e).queue.erase r else (s.ce d).queue) ∧ u.hub2.order = s.hub2.order + 1 ∧
      (∃ a ∈ u.areas, a.land = (crecOf r.bytes).land ∧ a.ctx = r.ctx) ∧ CollStay e u (startColl s e ops) := by
  let w := cwOf (s.modCe e (fun c => { c with queue := c.queue.erase r })) e r
  let s1 := s.modCe e (fun c => { c with queue := c.queue.erase r })
  let s2 : State := { s1 with hub2 := { s1.hub2 with order := s1.hub2.order + 1 } }
  let s3 := holdArea s2 r.ctx w.c.land w.c.step
  let s4 := s3.modCe e (fun c => { c with inflight := c.inflight ++ [{ rec' := r, order := s1.hub2.order, phase := if r.op = 0x61 then .gathering else .waiting }] })
  have hq : ∀ (t : State) (e : Nat), CollStay e t (settleEngine t e) := fun t e => settleEngine_stay t e
  obtain ⟨ha, hk3⟩ := holdArea_holds s2 r.ctx w.c.land w.c.step
  have hce : ∀ d, s3.ce d = s1.ce d := fun d => by
    show tget ceDef s3.ces d = _
    rw [show s3.ces = s2.ces from hk3.only.2 .ces (by decide)]
    rfl
  refine ⟨s4, ?_, fun d => ?_, ?_, ha, ?_⟩
  · have k1 : Keeps [.areas, .hub2, .ces] s s1 := (State.modCe_keeps ..).mono (by decide)
    have k2 : Keeps [.areas, .hub2, .ces] s s2 := k1.upd rfl rfl rfl rfl rfl rfl (fun f hf => by cases f <;> first | rfl | exact absurd (by decide) hf)
    exact (k2.trans (hk3.mono (by decide))).trans ((State.modCe_keeps ..).mono (by decide))
  · rw [State.modCe_get_ce]
    split
    · next h => subst h; dsimp only; rw [hce, State.modCe_get_ce_self]
    · next h => rw [hce, State.modCe_get_ce_ne _ _ _ _ h]
  · rw [show s4.hub2 = s3.hub2 from rfl, show s3.hub2 = s2.hub2 from hk3.only.2 .hub2 (by decide)]
    rfl
  · unfold startColl
    rw [h]
    dsimp only
    rw [hk]
    dsimp only
    refine CollStay.trans ?_ (settleEngine_stay ..)
    split
    · exact sendGather_stay s4 ..
    · exact sendPermute_stay s4 ..
    · exact runSettle_stay s4 ..
    · exact startNorm_stay s4 ..
    · exact (sendContrib_stay s4 e s1.hub2.order w).trans (contribTail ..)

end Sys2Proof.Machine
end

