-- ==== Sys2Proof/Laws/FabricFacts.lean ====
section
/-! SUPPORT. What ports, lasers, frames and responses change and leave. -/

namespace Sys2Proof.Machine

open Sys2Proof

/-- What a hint's end does to a record of the command that queued it. -/
def hintEnded (k : Nat) (f : Option MemFault) (r : Running) : Running :=
  { r with hints := r.hints - 1, count := stick r.count k,
           status := match f with | some f => f.status | none => r.status,
           detail := match f with | some f => BitVec.ofNat 32 f.detail | none => r.detail }

theorem hintDone_core (s : State) (h : Hint) (k : Nat) (f : Option MemFault) (m : Nat) : ∃ l, (hintDone s h k f).core m = { s.core m with running := l } ∧
    ∀ n start r, h.owner = some (n, start) → n = m → r ∈ (s.core m).running → r.start = start → hintEnded k f r ∈ l := by
  unfold hintDone
  dsimp only
  split
  · next n start e =>
    rw [State.modCore_get_core]
    split
    · next e2 =>
      subst e2
      refine ⟨_, rfl, fun n' start' r ho hn hr hs => ?_⟩
      rw [e] at ho
      cases ho
      rw [List.mem_map]
      exact ⟨r, hr, by rw [if_pos hs]; rfl⟩
    · next e2 => exact ⟨(s.core m).running, rfl, fun n' start' r ho hn => by rw [e] at ho; cases ho; exact absurd hn.symm e2⟩
  · next e => exact ⟨(s.core m).running, rfl, fun n' start' r ho => by rw [e] at ho; cases ho⟩

theorem hintDone_hints (s : State) (h : Hint) (k : Nat) (f : Option MemFault) : (hintDone s h k f).tiers.hints = s.tiers.hints.drop 1 := by
  unfold hintDone; dsimp only; split <;> rfl

theorem startCal_runs (s : State) (p r : Nat) (h0 : opMode s p ≠ 0) (h3 : (s.oport p).state ≠ 3) (h4 : (s.oport p).state ≠ 4) :
    startCal s p r = post (s.modOport p (fun o => { o with state := 3, calSince := s.time })) (uOport p) 0 0x095 r := by
  unfold startCal; dsimp only; rw [if_neg (by simp [h0]; exact ⟨h3, h4⟩)]

theorem startCal_others (s : State) (p r q : Nat) (h : q ≠ p) : (startCal s p r).oport q = s.oport q := by
  unfold startCal; dsimp only; split
  · rfl
  · rw [post_oport, State.modOport_get_oport_ne _ _ _ _ h]

theorem startCal_weave (s : State) (p r : Nat) : (startCal s p r).weave = s.weave := (startCal_keeps s p r).only.2 .weave (by decide)

theorem opMode_congr {s t : State} (h : t.weave = s.weave) (p : Nat) : opMode t p = opMode s p := by
  unfold opMode opSects sectsOf; rw [h]

/-- Of the ports told to calibrate, each that runs and is not TRIPPED calibrates, and no other port changes. -/
theorem startCals_on (r : Nat) : ∀ (l : List Nat) (u : State), (∀ p, p ∉ l → (l.foldl (fun s p => startCal s p r) u).oport p = u.oport p) ∧
    ∀ p ∈ l, opMode u p ≠ 0 → (u.oport p).state ≠ 4 → ((l.foldl (fun s p => startCal s p r) u).oport p).state = 3 := by
  have one : ∀ (u : State) (p : Nat), opMode u p ≠ 0 → (u.oport p).state ≠ 4 → ((startCal u p r).oport p).state = 3 := by
    intro u p h0 h4
    by_cases h3 : (u.oport p).state = 3
    · unfold startCal; dsimp only; rw [if_pos (by simp [h3])]; exact h3
    · rw [startCal_runs u p r h0 h3 h4]
      rw [post_oport, State.modOport_get_oport_self]
  have stay : ∀ (l : List Nat) (u : State) (p : Nat), (u.oport p).state = 3 → ((l.foldl (fun s p => startCal s p r) u).oport p).state = 3 := by
    intro l
    induction l with
    | nil => exact fun _ _ h => h
    | cons x l ih =>
      intro u p h
      refine ih _ p ?_
      by_cases hp : p = x
      · subst hp; unfold startCal; dsimp only; rw [if_pos (by simp [h])]; exact h
      · rw [startCal_others _ _ _ _ hp]; exact h
  intro l
  induction l with
  | nil => exact fun u => ⟨fun _ _ => rfl, fun i hi => absurd hi (by simp)⟩
  | cons x l ih =>
    intro u
    obtain ⟨h1, h2⟩ := ih (startCal u x r)
    refine ⟨fun p hp => ?_, fun i hi h0 h4 => ?_⟩
    · rw [List.foldl_cons, h1 p (fun h => hp (List.mem_cons_of_mem _ h)), startCal_others _ _ _ _ (fun h => hp (by simp [h]))]
    · rw [List.foldl_cons]
      by_cases hx : i = x
      · subst hx; exact stay _ _ _ (one u _ h0 h4)
      · rcases List.mem_cons.mp hi with rfl | hi
        · exact absurd rfl hx
        · refine h2 i hi ?_ ?_
          · rw [opMode_congr (startCal_weave ..)]; exact h0
          · rw [startCal_others _ _ _ _ hx]; exact h4

theorem mem_fedPorts (q p : Nat) : p ∈ fedPorts q ↔ p / 8 = q := by
  unfold fedPorts
  rw [List.mem_map]
  constructor
  · rintro ⟨i, hi, rfl⟩
    have := List.mem_range.mp hi
    omega
  · intro h
    exact ⟨p % 8, List.mem_range.mpr (Nat.mod_lt _ (by decide)), by omega⟩

/-- A recalibration of a laser die leaves the ports and lasers of the others. -/
theorem laserCal_others (s : State) (q r : Nat) : (∀ p, p / 8 ≠ q → (laserCal s q r).oport p = s.oport p) ∧ ∀ k, k ≠ q → (laserCal s q r).laser k = s.laser k := by
  unfold laserCal
  split
  · exact ⟨fun _ _ => rfl, fun _ _ => rfl⟩
  · dsimp only
    generalize hv : List.foldl _ _ _ = v
    have ho : ∀ p, p / 8 ≠ q → v.oport p = s.oport p := by
      intro p hp
      rw [← hv, (startCals_on r (fedPorts q) _).1 p (fun h => hp ((mem_fedPorts q p).mp h))]
      rfl
    have hl : ∀ k, k ≠ q → v.laser k = s.laser k := by
      intro k hk
      have h : v.laser k = (s.modLaser q (fun l => { l with calibrating := true })).laser k := by
        rw [← hv]
        exact (Keeps.foldl (l := [.oports, .tallies]) (Keeps.refl _ _) (fun u x h => h.trans (startCal_keeps ..))).laser (by decide) k
      rw [h, State.modLaser_get_laser_ne _ _ _ _ hk]
    unfold settleLaser
    refine ⟨fun p hp => ?_, fun k hk => ?_⟩
    · split <;> exact ho p hp
    · split
      · rw [State.modLaser_get_laser_ne _ _ _ _ hk, State.modLaser_get_laser_ne _ _ _ _ hk]
        exact hl k hk
      · rw [State.modLaser_get_laser_ne _ _ _ _ hk]
        exact hl k hk

/-- Once a laser die recalibrates, each of its ports that runs and is not TRIPPED calibrates, and the die counts the recalibration when the last of them has trained again. -/
theorem laserCal_starts (s : State) (q r : Nat) (h1 : laserRetired (retiredOf s.weave.cur.sects) q = false) (h2 : (s.laser q).calibrating = false) :
    (∀ p, p / 8 = q → opMode s p ≠ 0 → (s.oport p).state ≠ 4 → ((laserCal s q r).oport p).state = 3) ∧
    ((laserCal s q r).laser q).fail = ~~~((laserCal s q r).laser q).lock ∧
    ∀ p, p / 8 = q → opMode s p ≠ 0 → (s.oport p).state ≠ 4 → ((laserCal s q r).laser q).calibrating = true ∧ ((laserCal s q r).laser q).recals = (s.laser q).recals := by
  unfold laserCal
  rw [if_neg (by simp [h1, h2])]
  dsimp only
  generalize hv : List.foldl _ _ _ = v
  have h3 : ∀ p, p / 8 = q → opMode s p ≠ 0 → (s.oport p).state ≠ 4 → (v.oport p).state = 3 := by
    intro p hp h0 h4
    rw [← hv]
    exact (startCals_on r (fedPorts q) _).2 p ((mem_fedPorts q p).mpr hp) h0 h4
  have hl : v.laser q = { s.laser q with calibrating := true } := by
    have h : v.laser q = (s.modLaser q (fun l => { l with calibrating := true })).laser q := by
      rw [← hv]
      exact (Keeps.foldl (l := [.oports, .tallies]) (Keeps.refl _ _) (fun u x h => h.trans (startCal_keeps ..))).laser (by decide) q
    rw [h, State.modLaser_get_laser_self]
  refine ⟨fun p hp h0 h4 => ?_, ?_, fun p hp h0 h4 => ?_⟩
  · unfold settleLaser
    split <;> exact h3 p hp h0 h4
  · unfold settleLaser
    split
    · rw [State.modLaser_get_laser_self, State.modLaser_get_laser_self]
    · rw [State.modLaser_get_laser_self]
  · unfold settleLaser
    rw [if_neg, State.modLaser_get_laser_self]
    · rw [show State.laser (freeBelow v (2 ^ 72)).2 q = v.laser q from rfl, hl]
      exact ⟨rfl, rfl⟩
    · rw [State.modLaser_get_laser_self, Bool.and_eq_true, List.all_eq_true]
      rintro ⟨_, h⟩
      have := h p ((mem_fedPorts q p).mpr hp)
      unfold calDone at this
      rw [show (State.modLaser (freeBelow v (2 ^ 72)).2 q _).oport p = v.oport p from rfl, h3 p hp h0 h4] at this
      simp at this

/-- Lighting a port leaves the others and everything but its light. -/
theorem light_same (s : State) (p : Nat) : (∃ rx tx la, (light s p).oport p = { s.oport p with dark := false, rxlock := rx, txlock := tx, launch := la }) ∧ ∀ q, q ≠ p → (light s p).oport q = s.oport q := by
  have h : light s p = ((freeBelow s (2 ^ 80)).2).modOport p (fun o =>
    { o with dark := false, rxlock := BitVec.ofNat 8 ((freeBelow s (2 ^ 80)).1 % 2 ^ litLines s p), txlock := BitVec.ofNat 8 ((freeBelow s (2 ^ 80)).1 / 2 ^ 8 % 2 ^ litLines s p),
             launch := (List.range (litLines s p)).map (fun i => BitVec.ofNat 8 ((freeBelow s (2 ^ 80)).1 / 2 ^ (16 + 8 * i))) }) := rfl
  refine ⟨⟨BitVec.ofNat 8 ((freeBelow s (2 ^ 80)).1 % 2 ^ litLines s p), BitVec.ofNat 8 ((freeBelow s (2 ^ 80)).1 / 2 ^ 8 % 2 ^ litLines s p),
    (List.range (litLines s p)).map (fun i => BitVec.ofNat 8 ((freeBelow s (2 ^ 80)).1 / 2 ^ (16 + 8 * i))), ?_⟩, fun q hq => ?_⟩
  · rw [h, State.modOport_get_oport_self]; rfl
  · rw [h, State.modOport_get_oport_ne _ _ _ _ hq]; rfl

/-- A port that may train is lit and in TRAINING, tells its peer who it is, and keeps everything else; no other port changes. -/
theorem startTraining_trains (s : State) (p : Nat) (h : portTrains s p = true) :
    (∃ rx tx la adv, (startTraining s p).oport p = { s.oport p with state := 1, retryTrain := false, advert := adv, dark := false, rxlock := rx, txlock := tx, launch := la }) ∧
    (∀ q, q ≠ p → (startTraining s p).oport q = s.oport q) ∧ Keeps [.oports] s (startTraining s p) := by
  have e : startTraining s p = light (s.modOport p (fun o =>
      { o with state := 1, retryTrain := false, advert := if opMode s p = 1 then some (ownRank (opSects s p), (portPlan (opSects s p) p).2, genOf s (.oport p)) else none })) p := by
    unfold startTraining
    rw [if_neg (by simp [h])]
  obtain ⟨⟨rx, tx, la, h1⟩, h2⟩ := light_same (s.modOport p (fun o =>
      { o with state := 1, retryTrain := false, advert := if opMode s p = 1 then some (ownRank (opSects s p), (portPlan (opSects s p) p).2, genOf s (.oport p)) else none })) p
  refine ⟨⟨rx, tx, la, if opMode s p = 1 then some (ownRank (opSects s p), (portPlan (opSects s p) p).2, genOf s (.oport p)) else none, ?_⟩, fun q hq => ?_, ?_⟩
  · rw [e, h1, State.modOport_get_oport_self]
  · rw [e, h2 q hq, State.modOport_get_oport_ne _ _ _ _ hq]
  · rw [e]
    exact ((State.modOport_keeps ..).mono (by decide)).trans ((light_keeps ..).mono (by decide))

theorem retrain_runs {who : Party} {p : Nat} {s u : State} (ha : Admitted s who .admin) (h0 : opMode s p ≠ 0) (h3 : (s.oport p).state ≠ 3) (h4 : (s.oport p).state ≠ 4)
    (hu : (if (s.oport p).state = 2 then linkDown s p 0 else s) = u) (ht : portTrains u p = true) (hi : ∀ e, (u.ce e).inflight = []) : exec (.retrain who p) s = .next (startTraining u p) := by
  show execRetrain who p s = _; unfold execRetrain; rw [gated_admitted _ ha]; dsimp only; rw [if_neg (by simp [h0]; exact h4), if_neg h3, hu, settleColls_idle]
  intro e
  rw [(startTraining_trains u p ht).2.2.ce (by decide)]
  exact hi e

theorem ackFrames_same (o : OPort) (n : BitVec 12) : (ackFrames o n).rxSeq = o.rxSeq ∧ (ackFrames o n).nakOwed = o.nakOwed ∧ (ackFrames o n).rxq = o.rxq ∧ (ackFrames o n).e2eCorr = o.e2eCorr ∧
    (ackFrames o n).held = o.held ∧ (ackFrames o n).ctr = o.ctr := by
  unfold ackFrames; split <;> exact ⟨rfl, rfl, rfl, rfl, rfl, rfl⟩

/-- A packet whose words all hold their check codes and that is for this device enters the receive queue, when the credit its sender holds covers it and no change of generation bridges it. -/
theorem takePacket_own (u : State) (p : Nat) (k : FabPkt) {vc : Nat} (hh : k.header = .good ∧ k.header1 = .good) (hch : ∀ c ∈ k.checks, c = .good) (hsg : k.sigc0 = .good ∧ k.sigc1 = .good)
    (hv : vcOf k.typ.toNat = some vc) (hd : k.dst.toNat = ownRank (opSects u p)) (hr : rxWords (u.oport p) vc + pktWords k ≤ vcWords vc) (hn : bridges u p k = false) :
    takePacket u p k = (u.modOport p (fun o => { o with e2eCorr := stick o.e2eCorr 0 })).modOport p (fun o => { o with rxq := o.rxq ++ [k] }) := by
  have hfix : correctedWords k = 0 := by
    have : (k.header :: k.header1 :: k.checks.take k.len.toNat ++ (if k.att then [k.sigc0, k.sigc1] else [])).filter (· == .single) = [] := by
      rw [List.filter_eq_nil_iff]
      intro c hc
      have : c = .good := by
        rcases List.mem_append.mp hc with h | h
        · rcases List.mem_cons.mp h with rfl | h
          · exact hh.1
          rcases List.mem_cons.mp h with rfl | h
          · exact hh.2
          exact hch c (List.mem_of_mem_take h)
        · split at h
          · simp only [List.mem_cons, List.not_mem_nil, or_false] at h
            rcases h with rfl | rfl
            · exact hsg.1
            · exact hsg.2
          · exact absurd h (by simp)
      rw [this]; decide
    unfold correctedWords
    rw [this]; rfl
  have hb : bridges (u.modOport p (fun o => { o with e2eCorr := stick o.e2eCorr 0 })) p k = false := by
    rw [← hn]; rfl
  have hw : rxWords ((u.modOport p (fun o => { o with e2eCorr := stick o.e2eCorr 0 })).oport p) vc = rxWords (u.oport p) vc := by
    rw [State.modOport_get_oport_self]; rfl
  unfold takePacket
  dsimp only
  have ho : (k.dst.toNat == ownRank (opSects u p)) = true := by rw [hd]; exact beq_self_eq_true _
  simp only [ho, if_true, Bool.true_or]
  rw [hfix, if_neg (by rw [hh.1, hh.2]; decide), hv]
  dsimp only
  rw [hw, if_neg (by omega), hb, if_neg (by decide)]

theorem frame_runs {p : Nat} {f : Frame} {k : FabPkt} {s : State} (hm : opMode s p = 1) (h2 : linkRuns (s.oport p) = true) (hc : f.crcOk = true) (hs : f.seq = (s.oport p).rxSeq)
    (hn : f.nak = false) (hcr : f.credit = 0) (hh : (s.oport p).held = []) (hpk : f.pkts = [k]) : exec (.frameReceive p f) s =
      .next (settleColls (takePacket ((s.modOport p (fun o => { o with ctr := ctrAdd o.ctr 0x028 f.fec })).modOport p
        (fun o => ackFrames { o with rxSeq := o.rxSeq + 1, nakOwed := false, ctr := ctrAdd o.ctr 0x018 1 } f.ackseq)) p k)) := by
  show execFrameReceive p f s = _
  unfold execFrameReceive
  dsimp only
  rw [if_neg (by simp [hm, h2]), if_neg (by simp [hc, hs]), hn, hcr, hpk]
  simp only [Bool.false_eq_true, if_false, Bool.true_or, decide_true, if_true, List.foldl_cons, List.foldl_nil]
  rw [if_pos]
  rw [State.modOport_get_oport_self, (ackFrames_same ..).2.2.2.2.1, State.modOport_get_oport_self]
  exact hh

theorem codes_length (f n : Nat) (bs : List Byte) : (codes f n bs).length = n := by
  have : ∀ n z bs, (recordsOf n z bs).length = n := by
    intro n z
    induction n with
    | zero => exact fun _ => rfl
    | succ n ih => intro bs; simp [recordsOf, ih]
  unfold codes; simp [this]

/-- An add of elements into a region changes no byte outside it. -/
theorem addInto_out (s : State) (y : By) (f a b : Nat) (src : List Byte) (h : b < a ∨ a + src.length ≤ b) :
    mget (addInto s y f a src).1.uni b = mget s.uni b ∧ ∀ n, ((addInto s y f a src).1.core n).scratch = (s.core n).scratch := by
  unfold addInto
  dsimp only
  generalize hl : (codes f (src.length / fmtSize f) src).zipIdx = l
  have hb : ∀ v ∈ l, v.2 < src.length / fmtSize f := by
    intro v hv
    rw [← hl] at hv
    have := List.mem_zipIdx hv
    rw [codes_length] at this
    omega
  clear hl
  have key : ∀ (l : List (Nat × Nat)), (∀ v ∈ l, v.2 < src.length / fmtSize f) → ∀ x : State × Nat × Nat,
      mget (l.foldl (fun (x : State × Nat × Nat) v => (devWrite x.1 y (a + v.2 * fmtSize f) (encElem f ((decode f (leNat (devRead x.1 (a + v.2 * fmtSize f) (fmtSize f)))).add (decode f v.1))).bytes, x.2.1 + (encElem f ((decode f (leNat (devRead x.1 (a + v.2 * fmtSize f) (fmtSize f)))).add (decode f v.1))).sat, x.2.2 + (encElem f ((decode f (leNat (devRead x.1 (a + v.2 * fmtSize f) (fmtSize f)))).add (decode f v.1))).nan)) x).1.uni b = mget x.1.uni b ∧
      ∀ n, ((l.foldl (fun (x : State × Nat × Nat) v => (devWrite x.1 y (a + v.2 * fmtSize f) (encElem f ((decode f (leNat (devRead x.1 (a + v.2 * fmtSize f) (fmtSize f)))).add (decode f v.1))).bytes, x.2.1 + (encElem f ((decode f (leNat (devRead x.1 (a + v.2 * fmtSize f) (fmtSize f)))).add (decode f v.1))).sat, x.2.2 + (encElem f ((decode f (leNat (devRead x.1 (a + v.2 * fmtSize f) (fmtSize f)))).add (decode f v.1))).nan)) x).1.core n).scratch = (x.1.core n).scratch := by
    intro l
    induction l with
    | nil => exact fun _ _ => ⟨rfl, fun _ => rfl⟩
    | cons v l ih =>
      intro hv x
      rw [List.foldl_cons]
      obtain ⟨h1, h2⟩ := ih (fun w hw => hv w (List.mem_cons_of_mem _ hw)) (devWrite x.1 y (a + v.2 * fmtSize f) (encElem f ((decode f (leNat (devRead x.1 (a + v.2 * fmtSize f) (fmtSize f)))).add (decode f v.1))).bytes, x.2.1 + (encElem f ((decode f (leNat (devRead x.1 (a + v.2 * fmtSize f) (fmtSize f)))).add (decode f v.1))).sat, x.2.2 + (encElem f ((decode f (leNat (devRead x.1 (a + v.2 * fmtSize f) (fmtSize f)))).add (decode f v.1))).nan)
      refine ⟨h1.trans (devWrite_out _ _ _ _ _ ?_), fun n => (h2 n).trans ((devWrite_cores ..).core n).scratch⟩
      have h3 := hv v (by simp)
      have h4 : v.2 * fmtSize f + fmtSize f ≤ src.length := by
        have : (v.2 + 1) * fmtSize f ≤ src.length / fmtSize f * fmtSize f := Nat.mul_le_mul_right _ h3
        have := Nat.div_mul_le_self src.length (fmtSize f)
        rw [Nat.add_mul, Nat.one_mul] at *
        omega
      unfold encElem
      dsimp only
      rw [natLE_length]
      omega
  exact key l hb (s, 0, 0)

theorem applySignal_out (s : State) (y : By) (a op b : Nat) (v : BitVec 64) (h : b < a ∨ a + 8 ≤ b) : mget (applySignal s y a op v).2.uni b = mget s.uni b := by
  have touch : mget (devTouch s y a 8).uni b = mget s.uni b := by rw [(devTouch_keeps s y a 8).only.2 .uni (by decide)]
  unfold applySignal
  split
  · rfl
  · split
    · exact devWrite_out _ _ _ _ _ (by rw [natLE_length]; exact h)
    · split
      · exact touch
      · dsimp only
        have : mget (devWrite (devTouch s y a 8) y a (natLE 8 (counterAdd (devWord s a) v).toNat)).uni b = mget s.uni b := by
          rw [devWrite_out _ _ _ _ _ (by rw [natLE_length]; exact h), touch]
        split
        · exact this
        · exact this

/-- How an access's end shows in the record of the command it serves (R197). -/
def accessEnded (a : Access) (st : Status) (r : Running) : Running :=
  { r with status := worse r.status st, detail := if st = stEcc && r.status != stEcc then BitVec.ofNat 32 a.addr.toNat else r.detail }

theorem endAccess_core (s : State) (a : Access) (st : Status) (h : a.unit < 800) : Keeps [.cores, .accesses] s (endAccess s a st) ∧
    (∀ m, ((endAccess s a st).core m).scratch = (s.core m).scratch) ∧ (endAccess s a st).accesses = s.accesses.filter (fun x => x.tag != a.tag) ∧
    ∀ r ∈ (s.core a.unit).running, r.start = a.owner.2 → accessEnded a st r ∈ ((endAccess s a st).core a.unit).running := by
  unfold endAccess ownerStatus
  rw [if_pos h]
  refine ⟨(Keeps.set_accesses (l := [.cores, .accesses]) (Keeps.refl _ s) (by decide)).step (State.modCore_keeps _ _ _ (fun _ h => h)) (by decide), fun m => ?_, rfl, fun r hr hs => ?_⟩
  · rw [State.modCore_get_core]
    split
    · next e => subst e; rfl
    · rfl
  · rw [State.modCore_get_core_self]
    exact List.mem_map.mpr ⟨r, hr, by rw [if_pos hs]; rfl⟩

theorem emit_waiting (s : State) (p q : Nat) (k : FabPkt) : ((emit s p k).oport q).waiting = (s.oport q).waiting := by
  unfold emit
  split <;>
  · rw [State.modOport_get_oport]
    split
    · next e => subst e; rfl
    · rfl

theorem emit_time (s : State) (p : Nat) (k : FabPkt) : ∀ q, q ≠ p → (emit s p k).oport q = s.oport q := by
  intro q hq
  unfold emit
  split <;> rw [State.modOport_get_oport_ne _ _ _ _ hq]
  rfl

theorem countFrame_oport (s : State) (p : Nat) : (countFrame s p).oport p = { s.oport p with ctr := ctrAdd (s.oport p).ctr 0x018 1 } := State.modOport_get_oport_self ..

theorem countFrame_rec (s : State) (p i : Nat) : qpRec (countFrame s p) p i = qpRec s p i := by
  unfold qpRec qpAddr
  rw [countFrame_oport]; rfl

theorem countFrame_valid (s : State) (p : Nat) : validQps (countFrame s p) p = validQps s p := by
  unfold validQps
  simp only [countFrame_rec, countFrame_oport]

theorem countFrame_byAddr (s : State) (p : Nat) (v : Bool) (g : List Byte) : qpByAddr (countFrame s p) p v g = qpByAddr s p v g := by
  unfold qpByAddr
  simp only [countFrame_rec, countFrame_valid]

theorem countFrame_roce (s : State) (p : Nat) (k : RocePkt) : roceQp (countFrame s p) p k = roceQp s p k := by
  unfold roceQp qpByNumber
  simp only [countFrame_valid]

theorem runJobs_idle (s : State) (h : s.loads = []) : runJobs s = s := by
  unfold runJobs; rw [h]; rfl

theorem setQpRun_self (s : State) (p i : Nat) (q : QpRun) : qpRun (setQpRun s p i q) p i = q ∧ ((setQpRun s p i q).oport p).ethOut = (s.oport p).ethOut := by
  unfold setQpRun qpRun
  rw [State.modOport_get_oport_self]
  exact ⟨tget_tset_self .., rfl⟩

theorem resendReads_same (s : State) (p i : Nat) (f : Nat → Nat) : qpRun (resendReads s p i f) p i = { qpRun s p i with since := s.time } ∧
    ∃ l, ((resendReads s p i f).oport p).ethOut = (s.oport p).ethOut ++ l ∧ l.length = (qpRun s p i).outstanding.length := by
  unfold resendReads sendEth
  refine ⟨?_, ?_⟩
  · have h := (setQpRun_self s p i { qpRun s p i with since := s.time }).1
    rw [← h]
    dsimp only
    generalize setQpRun s p i { qpRun s p i with since := s.time } = u
    unfold qpRun
    rw [State.modOport_get_oport_self]
  · dsimp only
    rw [State.modOport_get_oport_self, (setQpRun_self s p i _).2]
    exact ⟨_, rfl, by simp⟩

/-- What is no request of this device changes no record of its accesses as it leaves. -/
theorem noteSent_other (s : State) (p : Nat) (k : FabPkt) (h : vcOf k.typ.toNat ≠ some 0) : noteSent s p k = s := by
  unfold noteSent
  have : (fun a : Access => if (!a.live && !k.fwd && vcOf k.typ.toNat == some 0 && a.tag % 4096 == k.xtag.toNat && a.rank == k.dst.toNat) = true then
      { a with live := true, port := p, sent := s.time } else a) = id := by
    funext a
    rw [if_neg (by simp [h])]
    rfl
  rw [this, List.map_id]

theorem emit_other (s : State) (p : Nat) (k : FabPkt) (h : vcOf k.typ.toNat ≠ some 0) : Keeps [.oports] s (emit s p k) := by
  unfold emit
  rw [noteSent_other s p k h]
  split <;> exact State.modOport_keeps ..

/-- An answer leaves the device's own accesses. -/
theorem respond_answers (s : State) (p : Nat) (k : FabPkt) (typ : Nat) (st : Status) (d : List (BitVec 64)) (c : List WordCheck) (h : typ = 0x10 ∨ typ = 0x11) :
    Keeps [.oports, .paths] s (respond s p k typ st d c) := by
  unfold respond
  dsimp only
  generalize hq : (FabPkt.mk (BitVec.ofNat 6 typ) _ _ _ _ _ _ _ _ _ _ _ _ _ _ _ _ _ _ _ _) = q
  have hv : vcOf q.typ.toNat ≠ some 0 := by
    rw [← hq]
    rcases h with rfl | rfl
    · show vcOf (16#6).toNat ≠ some 0; decide
    · show vcOf (17#6).toNat ≠ some 0; decide
  generalize k.src.toNat = r
  unfold sendPkt
  split
  · exact Keeps.refl _ _
  · split
    · exact Keeps.refl _ _
    · split
      · exact (emit_other _ _ _ hv).mono (by decide)
      · exact (waitPath_keeps ..).mono (by decide)

/-- The signal that a packet carries changes no byte but its word's, where no landing area is held. -/
theorem pktSignal_out (s : State) (p : Nat) (k : FabPkt) (h : k.att = true → s.areas = []) : Keeps [.uni, .uniBad, .host, .cores, .ctxs, .mports, .tiers, .oports, .hps, .tallies] s (pktSignal s p k).2 ∧
    ((k.att = false → (pktSignal s p k).2 = s) ∧ ∀ b, b < pktSigAddr k ∨ pktSigAddr k + 8 ≤ b → mget (pktSignal s p k).2.uni b = mget s.uni b) ∧
    ∀ n, ((pktSignal s p k).2.core n).scratch = (s.core n).scratch := by
  unfold pktSignal
  cases ha : k.att with
  | false => exact ⟨Keeps.refl _ _, ⟨fun _ => rfl, fun _ _ => rfl⟩, fun _ => rfl⟩
  | true =>
    simp only [Bool.not_true, Bool.false_eq_true, if_false]
    split
    · exact ⟨(countReject_keeps ..).mono (by decide), ⟨fun h => (by cases h), fun b _ => by rw [(countReject_keeps s p k).only.2 .uni (by decide)]⟩, fun n => by rw [(countReject_keeps s p k).core (by decide)]⟩
    · split
      · exact ⟨Keeps.refl _ _, ⟨fun _ => rfl, fun _ _ => rfl⟩, fun _ => rfl⟩
      · unfold arriveSignal
        rw [h ha]
        exact ⟨(applySignal_keeps ..).mono (by decide), ⟨fun h => (by cases h), fun b hb => applySignal_out _ _ _ _ _ _ hb⟩, fun n => ((applySignal_cores ..).core n).scratch⟩

end Sys2Proof.Machine
end

