-- ==== Sys2Proof/Laws/LoadFacts.lean ====
section
/-! SUPPORT. Lengths of digests, what a touch of device memory leaves of the tiles' backing, and a list of checks that refuses nothing (R308, R309). -/

namespace Sys2Proof.Machine

open Sys2Proof

theorem shaRound_length (v : List Nat) (wk : Nat) (h : v.length = 8) : (shaRound v wk).length = 8 := by
  unfold shaRound
  simp [h]

theorem shaRounds_length (ks w v : List Nat) (h : v.length = 8) : (shaRounds ks w v).length = 8 := by
  induction ks generalizing w v with
  | nil => exact h
  | cons k ks ih => exact ih _ _ (shaRound_length _ _ h)

theorem shaBlocks_length (ks : List Nat) (n : Nat) (bs : List Byte) (v : List Nat) (h : v.length = 8) : (shaBlocks ks n bs v).length = 8 := by
  induction n generalizing bs v with
  | zero => exact h
  | succ n ih => exact ih _ _ (by unfold shaBlock; rw [List.length_zipWith, h, shaRounds_length _ _ _ h]; rfl)

/-- A digest is 32 bytes. -/
theorem sha256_length (m : List Byte) : (sha256 m).length = 32 := by
  have h4 : ∀ v, (natBE 4 v).length = 4 := by intro v; unfold natBE; rw [List.length_reverse, natLE_length]
  have flat : ∀ l : List Nat, (l.flatMap (natBE 4)).length = 4 * l.length := by
    intro l
    induction l with
    | nil => rfl
    | cons x l ih => rw [List.flatMap_cons, List.length_append, h4, ih, List.length_cons]; omega
  unfold sha256
  dsimp only
  rw [flat, shaBlocks_length]
  rw [List.length_map]
  decide

/-- A read of the unified range changes no tile's backing. -/
theorem touchRead_backing (s : State) (e : By) (a n : Nat) : Backing s (touchRead s e a n) := by
  unfold touchRead
  exact (Backing.foldl (fun u x => touchTile_backing ..) _ s).trans (readErrors_backing ..)

/-- A read or write of device memory changes no tile's backing. -/
theorem devTouch_backing (s : State) (e : By) (a n : Nat) : Backing s (devTouch s e a n) := by
  unfold devTouch
  split
  · split
    · exact (countDma_keeps s false a n).backing (by decide) (by decide)
    · exact Backing.refl s
  · exact touchRead_backing ..

/-- Where no check refuses, every check passed. -/
theorem firstRefuse_none : ∀ {l : List (Option Refuse)}, firstRefuse l = none → ∀ x ∈ l, x = none
  | [], _, _, h => absurd h (by simp)
  | none :: l, h, x, hx => by
    rcases List.mem_cons.mp hx with rfl | hx
    · rfl
    · exact firstRefuse_none (l := l) h x hx
  | some y :: l, h, _, _ => by simp [firstRefuse] at h

/-- A tile digest is 8 bytes. -/
theorem tileDigest_length (s : State) (a : Nat) : (tileDigest s a).length = 8 := by
  unfold tileDigest
  split
  · rfl
  · rw [List.length_take, sha256_length]; rfl

end Sys2Proof.Machine
end

