-- ==== Sys2Proof/Laws/GatherRun.lean ====
section
/-! SUPPORT. A GATHER run at once: where no word of the unified range and of the core's scratchpad has a check-code error, its tiles are formed and written
back one by one, and nothing stops it (R125, R126). -/

namespace Sys2Proof.Machine

open Sys2Proof

/-! ### No word of the unified range in error -/

/-- An operation leaves the unified range without a word in error where it was so. -/
structure StaysGood (s t : State) : Prop where
  good : s.uniBad = [] → t.uniBad = []

theorem StaysGood.refl (s : State) : StaysGood s s := ⟨id⟩

theorem StaysGood.trans {s t u : State} (h : StaysGood s t) (k : StaysGood t u) : StaysGood s u := ⟨k.good ∘ h.good⟩

theorem StaysGood.after {s t u : State} (k : StaysGood t u) (h : StaysGood s t) : StaysGood s u := h.trans k

theorem StaysGood.of {s t : State} (h : t.uniBad = s.uniBad) : StaysGood s t := ⟨fun g => h.trans g⟩

theorem Keeps.staysGood {l : List Field} {s t : State} (h : Keeps l s t) (hl : Field.uniBad ∉ l) : StaysGood s t := StaysGood.of (h.only.2 .uniBad hl)

theorem StaysGood.foldl {α : Type} {f : State → α → State} (hf : ∀ s x, StaysGood s (f s x)) (l : List α) (s : State) : StaysGood s (l.foldl f s) := by
  induction l generalizing s with
  | nil => exact StaysGood.refl s
  | cons x l ih => exact (hf s x).trans (ih _)

theorem moveErrors_good (s : State) (t : Nat) : StaysGood s (moveErrors s t) := ⟨fun h => by unfold moveErrors; rw [h]; unfold badWords readErrors; exact h⟩

theorem finishMove_good (s : State) (mv : Move) : StaysGood s (finishMove s mv) := by
  have h1 : ∀ u : State, StaysGood u (mv.places.foldl (fun u p => moveErrors u p.1) u) := fun u =>
    StaysGood.foldl (f := fun u (p : Nat × TFrame) => moveErrors u p.1) (fun v p => moveErrors_good v p.1) mv.places u
  have h2 : ∀ (m : Nat) (u : State), StaysGood u (mv.places.foldl (fun u p => countMoveBytes u m (frameOf u p.1) p.2) u) := fun m u =>
    StaysGood.foldl (fun v p => (countMoveBytes_keeps ..).staysGood (by decide)) _ u
  have h3 : ∀ u : State, StaysGood u (mv.places.foldl (fun u p => setFrame u p.1 p.2) u) := fun u =>
    StaysGood.foldl (fun v p => (setFrame_keeps ..).staysGood (by decide)) _ u
  have h4 : ∀ (u : State) (m : Nat), StaysGood u (trimFilter u m) := fun u m => by
    unfold trimFilter
    split
    · exact StaysGood.refl _
    · exact StaysGood.of rfl
  unfold finishMove
  dsimp only
  have h5 : ∀ (u : State) (m : Nat) (f : MPort → MPort), StaysGood u (u.modMport m f) := fun u m f => StaysGood.of rfl
  exact (h4 _ _).after ((h5 _ _ _).after ((h3 _).after ((h2 _ _).after ((h1 _).after (StaysGood.of rfl)))))

theorem touchTile_good (b : By) (w : Bool) (a n : Nat) (s : State) (t : Nat) : StaysGood s (touchTile b w a n s t) := by
  have hm : StaysGood s (waitMove s t) := by
    unfold waitMove
    split
    · exact finishMove_good ..
    · exact StaysGood.refl s
  have hr : ∀ u : State, StaysGood u (readMap u b.ctx t) := fun u => by
    unfold readMap
    dsimp only
    split
    · exact StaysGood.refl u
    · split
      · exact ((noteCorrected_keeps ..).staysGood (by decide)).after (StaysGood.of rfl)
      · split
        · exact ((post_keeps ..).staysGood (by decide)).after (StaysGood.of rfl)
        · exact StaysGood.refl u
  have hn : ∀ u : State, StaysGood u (if w then noteWritten u t else u) := fun u => by
    split
    · exact (noteWritten_keeps ..).staysGood (by decide)
    · exact StaysGood.refl u
  unfold touchTile
  dsimp only
  split
  · exact ((post_keeps ..).staysGood (by decide)).after (StaysGood.of rfl)
  · refine (hm.trans (hr _)).trans ((hn _).trans ?_)
    generalize (if w then _ else _) = u
    repeat' split
    all_goals exact StaysGood.of rfl

theorem devTouch_good (s : State) (b : By) (a n : Nat) : StaysGood s (devTouch s b a n) := by
  unfold devTouch
  split
  · split
    · exact (countDma_keeps s false a n).staysGood (by decide)
    · exact StaysGood.refl s
  · have h : StaysGood s ((tilesOf a n).foldl (touchTile b false a n) s) := StaysGood.foldl (fun u x => touchTile_good b false a n u x) _ s
    unfold touchRead
    dsimp only
    refine h.trans ⟨fun g => ?_⟩
    rw [g]
    exact g

theorem uniWrite_good (s : State) (b : By) (a : Nat) (bs : List Byte) : StaysGood s (uniWrite s b a bs) := by
  unfold uniWrite
  dsimp only
  refine StaysGood.trans (StaysGood.foldl (fun u x => touchTile_good b true a bs.length u x) (tilesOf a bs.length) s) ?_
  generalize List.foldl (touchTile b true a bs.length) s (tilesOf a bs.length) = u
  refine StaysGood.trans (t := writeErrors u b a bs.length) ⟨fun h => by unfold writeErrors; rw [h]; exact h⟩ ?_
  exact ((evalRings_keeps ..).staysGood (by decide)).after (((evalWaits_keeps ..).staysGood (by decide)).after (StaysGood.of rfl))

theorem devWrite_good (s : State) (b : By) (a : Nat) (bs : List Byte) : StaysGood s (devWrite s b a bs) := by
  unfold devWrite
  split
  · split
    · exact ((countDma_keeps ..).staysGood (by decide)).after (StaysGood.of rfl)
    · exact StaysGood.refl s
  · exact uniWrite_good ..

theorem rdsTouch_good (b : By) : ∀ (l : List Rd) (s : State), StaysGood s (rdsTouch b s l) := by
  have one : ∀ (r : Rd) (s : State), StaysGood s (r.touch s b) := fun r s => by
    unfold Rd.touch
    split
    · exact (spTouch_keeps ..).staysGood (by decide)
    · exact devTouch_good ..
  intro l
  induction l with
  | nil => exact StaysGood.refl
  | cons r l ih =>
    intro s
    unfold rdsTouch
    split
    · exact one r s
    · exact (one r s).trans (ih _)

theorem rdsTouch_backing (b : By) : ∀ (l : List Rd) (s : State), Backing s (rdsTouch b s l) := by
  have one : ∀ (r : Rd) (s : State), Backing s (r.touch s b) := fun r s => by
    unfold Rd.touch
    split
    · exact (spTouch_keeps ..).backing (by decide) (by decide)
    · exact devTouch_backing ..
  intro l
  induction l with
  | nil => exact Backing.refl
  | cons r l ih =>
    intro s
    unfold rdsTouch
    split
    · exact one r s
    · exact (one r s).trans (ih _)

theorem applyWrs_good (b : By) : ∀ (ws : List Wr) (s : State), (∀ w ∈ ws, w.scratch = none) → StaysGood s (applyWrs b s ws) ∧ ∀ n, ((applyWrs b s ws).core n).bad = (s.core n).bad := by
  intro ws
  induction ws with
  | nil => exact fun s _ => ⟨StaysGood.refl s, fun _ => rfl⟩
  | cons w ws ih =>
    intro s h
    have e : applyWr b s w = devWrite s b w.addr w.bytes := by unfold applyWr; rw [h w (by simp)]
    obtain ⟨g1, g2⟩ := ih (applyWr b s w) (fun v hv => h v (List.mem_cons_of_mem _ hv))
    refine ⟨StaysGood.trans (by rw [e]; exact devWrite_good ..) g1, fun n => (g2 n).trans ?_⟩
    rw [e]
    exact ((devWrite_cores s b w.addr w.bytes).core n).bad

/-! ### No fault -/

theorem anyTileLost {s : State} (l : Lossless s) (ts : List Nat) : ts.find? (tileLost s) = none :=
  List.find?_eq_none.mpr (fun t _ => by rw [tileLost_lossless l t]; simp)

theorem devFault_good {s : State} (l : Lossless s) (h : s.uniBad = []) {a n : Nat} (ha : spaceOf a = .uni) : devFault s a n = none := by
  unfold devFault
  rw [ha]
  dsimp only
  unfold uniFault
  rw [h, anyTileLost l]
  simp [badWords]

theorem devWrFault_good {s : State} (l : Lossless s) {a n : Nat} (ha : spaceOf a = .uni) : devWrFault s a n = none := by
  unfold devWrFault
  rw [ha, anyTileLost l]
  simp

/-- A part of a region that hits no unbacked tile hits none. -/
theorem hitsUnbacked_part {s : State} {a n b m : Nat} (h : hitsUnbacked s a n = false) (h1 : a ≤ b) (h2 : b + m ≤ a + n) : hitsUnbacked s b m = false := by
  have hb : ∀ t, b / 4096 ≤ t → t * 4096 < b + m → tileBacked s t = true := fun t t1 t2 => backed_of h (by omega) (by omega)
  unfold hitsUnbacked at h ⊢
  split
  · next hr =>
    rw [if_pos hr] at h
    simp only [decide_eq_false_iff_not] at h ⊢
    omega
  · rw [List.any_eq_false]
    intro i hi
    rw [List.mem_range] at hi
    rw [hb _ (by omega) (by omega)]
    simp

theorem spaceOf_uni {a : Nat} (h : a < Config.uniTop) : spaceOf a = .uni := by unfold spaceOf; rw [if_pos h]

/-! ### The pieces of a tile -/

theorem piecesFrom_len : ∀ (k a : Nat) (bs : List Byte), bs.length = 64 * k → ∀ w ∈ piecesFrom k a bs, w.scratch = none ∧ a ≤ w.addr ∧ w.addr + w.bytes.length ≤ a + 64 * k ∧ 0 < w.bytes.length := by
  intro k
  induction k with
  | zero => intro a bs _ w hw; cases hw
  | succ k ih =>
    intro a bs hl w hw
    rcases List.mem_cons.mp hw with rfl | hw
    · refine ⟨rfl, Nat.le_refl _, ?_, ?_⟩ <;> (dsimp only; rw [List.length_take]; omega)
    · obtain ⟨h1, h2, h3, h4⟩ := ih _ _ (by rw [List.length_drop]; omega) w hw
      exact ⟨h1, by omega, by omega, h4⟩

theorem f32Bytes_length : ∀ l : List F32, (f32Bytes l).length = 4 * l.length := by
  intro l
  induction l with
  | nil => rfl
  | cons x l ih =>
    show (natLE 4 x.toNat ++ f32Bytes l).length = _
    rw [List.length_append, ih, natLE_length, List.length_cons]
    omega

/-- A tile's totals go to the 4 KiB of its accumulator. -/
theorem tileWrs_in (s : State) (n : Nat) (g : GCmd) (t : Nat) :
    ∀ w ∈ tileWrs s n g t, w.scratch = none ∧ (gatherStat s g).accAt g.rec' t ≤ w.addr ∧ w.addr + w.bytes.length ≤ (gatherStat s g).accAt g.rec' t + 4096 ∧ 0 < w.bytes.length := by
  intro w h
  unfold tileWrs at h
  dsimp only at h
  unfold pieces at h
  have hl : ∀ f : Nat → Nat → F32, ((List.range 32).flatMap (fun p => (List.range 32).map (f p))).length = 1024 := fun f => by
    simp only [List.length_flatMap, List.length_map, List.length_range]
    rfl
  rw [f32Bytes_length, hl] at h
  exact piecesFrom_len 64 _ _ (by rw [f32Bytes_length, hl]) w h

theorem wroteAll_out (a : Nat) : ∀ (ws : List Wr) (m : Mem), (∀ w ∈ ws, a < w.addr ∨ w.addr + w.bytes.length ≤ a) → mget (wroteAll m ws) a = mget m a := by
  intro ws
  induction ws with
  | nil => intro m _; rfl
  | cons w ws ih =>
    intro m h
    show mget (wroteAll (mwrite m w.addr w.bytes) ws) a = _
    rw [ih _ (fun v hv => h v (List.mem_cons_of_mem _ hv)), mget_mwrite_out _ _ _ _ (h w (List.mem_cons_self ..))]

/-! ### The run -/

/-- Where a GATHER `r` of core `n` stands that began in `s`: it is now `q`, and nothing has stopped it. -/
structure Gathering (s : State) (n : Nat) (r : Running) (u : State) (q : Running) : Prop where
  keeps : Keeps [.uni, .uniBad, .host, .cores, .ctxs, .mports, .tiers, .hps, .tallies] s u
  back  : Backing s u
  good  : u.uniBad = []
  bad   : (u.core n).bad = []
  mem   : ∀ a, (a < (gatherStat s (gCmd r.rec'.bytes)).accAt (gCmd r.rec'.bytes).rec' r.tiles ∨
            (gCmd r.rec'.bytes).rec' + (gatherStat s (gCmd r.rec'.bytes)).size ≤ a) → mget u.uni a = mget s.uni a
  rec'  : q.rec' = r.rec'
  start : q.start = r.start
  done  : q.done = false
  tiles : r.tiles ≤ q.tiles

theorem Gathering.stat {s u : State} {n : Nat} {r q : Running} (h : Gathering s n r u q) (hs : spaceOf (gCmd r.rec'.bytes).rec' = .uni) :
    gatherStat u (gCmd r.rec'.bytes) = gatherStat s (gCmd r.rec'.bytes) := by
  unfold gatherStat
  congr 1
  have hm : mread u.uni (gCmd r.rec'.bytes).rec' 64 = mread s.uni (gCmd r.rec'.bytes).rec' 64 :=
    mread_congr _ _ _ _ (fun x _ h2 => h.mem x (Or.inl (by unfold Stat.accAt; omega)))
  unfold devRead
  rw [hs]
  dsimp only
  unfold uniRead
  rw [h.back.unbacked, hm]
  simp only [fun x => tileBacked_congr h.back.top h.back.ch h.back.slice x]

theorem readSlices_run (u : State) (n : Nat) (r : Running) (t : Nat) (ks : List Nat) (hb : (u.core n).bad = []) :
    Keeps [.uniBad, .cores, .mports, .tiers, .hps, .tallies] u (readSlices u n r t ks) ∧ Backing u (readSlices u n r t ks) ∧ StaysGood u (readSlices u n r t ks) ∧
      ((readSlices u n r t ks).core n).bad = [] := by
  have key : ∀ (f : State → Nat → List Rd) (ks : List Nat) (u : State), (u.core n).bad = [] →
      Keeps [.uniBad, .cores, .mports, .tiers, .hps, .tallies] u (ks.foldl (fun s k => rdsTouch r.by s (f s k)) u) ∧ Backing u (ks.foldl (fun s k => rdsTouch r.by s (f s k)) u) ∧
        StaysGood u (ks.foldl (fun s k => rdsTouch r.by s (f s k)) u) ∧ ((ks.foldl (fun s k => rdsTouch r.by s (f s k)) u).core n).bad = [] := by
    intro f ks
    induction ks with
    | nil => exact fun u h => ⟨Keeps.refl _ _, Backing.refl u, StaysGood.refl u, h⟩
    | cons k ks ih =>
      intro u h
      obtain ⟨g1, g2, g3, g4⟩ := ih (rdsTouch r.by u (f u k)) (by rw [rdsTouch_core r.by n _ u h]; exact h)
      exact ⟨((rdsTouch_keeps ..).mono (by decide)).trans g1, (rdsTouch_backing ..).trans g2, (rdsTouch_good ..).trans g3, g4⟩
  obtain ⟨g1, g2, g3, g4⟩ := key (fun s k => sliceRds s n (gCmd r.rec'.bytes) t k) ks u hb
  unfold readSlices
  refine ⟨g1.trans ((coreCount_keeps ..).mono (by decide)), g2.trans ((coreCount_keeps ..).backing (by decide) (by decide)),
    g3.trans ((coreCount_keeps ..).staysGood (by decide)), ?_⟩
  exact ((coreCount_cores ..).core n).bad.trans g4

theorem Gathering.noFault {s u : State} {n : Nat} {r q : Running} (h : Gathering s n r u q) (l : Lossless s)
    (hu : (gCmd r.rec'.bytes).rec' + (gatherStat s (gCmd r.rec'.bytes)).size ≤ Config.uniTop) {t : Nat} (ht : t < (gatherStat s (gCmd r.rec'.bytes)).nt) (k : Nat) :
    tileFault u n (gCmd r.rec'.bytes) t k = none := by
  have hsz : (gatherStat s (gCmd r.rec'.bytes)).size = 64 + 6144 * (gatherStat s (gCmd r.rec'.bytes)).nt := rfl
  have hst := h.stat (spaceOf_uni (by omega))
  unfold tileFault
  rw [List.findSome?_eq_none_iff]
  intro k _
  rw [Option.map_eq_none_iff]
  unfold rdsFault
  rw [List.findSome?_eq_none_iff]
  have hsp : ∀ j, (sliceRd n (gCmd r.rec'.bytes) j k).fault u = none := fun j => by
    unfold Rd.fault sliceRd
    dsimp only
    unfold spFault
    rw [h.bad]
    rfl
  have hac : (accRd (gatherStat u (gCmd r.rec'.bytes)) (gCmd r.rec'.bytes) t).fault u = none := by
    rw [hst]
    unfold Rd.fault accRd
    dsimp only
    exact devFault_good (h.back.lossless l) h.good (spaceOf_uni (by unfold Stat.accAt; omega))
  intro x hx
  unfold sliceRds at hx
  dsimp only at hx
  rcases List.mem_append.mp hx with hx | hx
  · split at hx
    · rw [List.mem_singleton.mp hx]; exact hac
    · cases hx
  · rcases List.mem_cons.mp hx with rfl | hx
    · exact hsp _
    · split at hx
      · cases hx
      · rw [List.mem_singleton.mp hx]; exact hsp _

/-- One step of a GATHER that nothing stops: the tile that waits is written back, or the forming tile is finished. -/
theorem Gathering.step {s u : State} {n : Nat} {r q : Running} (h : Gathering s n r u q) (l : Lossless s)
    (hu : (gCmd r.rec'.bytes).rec' + (gatherStat s (gCmd r.rec'.bytes)).size ≤ Config.uniTop)
    (hb : hitsUnbacked s (gCmd r.rec'.bytes).rec' (gatherStat s (gCmd r.rec'.bytes)).size = false) (ht : q.tiles < (gatherStat s (gCmd r.rec'.bytes)).nt) :
    Gathering s n r (gatherStep u n q).1 (gatherStep u n q).2 ∧
      (∀ y ∈ ((gatherStep u n q).1.core n).running, y.start = r.start → y = (gatherStep u n q).2) ∧
      2 * q.tiles + b2n q.formed < 2 * (gatherStep u n q).2.tiles + b2n (gatherStep u n q).2.formed ∧ (gatherStep u n q).2.tiles ≤ q.tiles + 1 := by
  have hsz : (gatherStat s (gCmd r.rec'.bytes)).size = 64 + 6144 * (gatherStat s (gCmd r.rec'.bytes)).nt := rfl
  have hst := h.stat (spaceOf_uni (by omega))
  have hg : gCmd q.rec'.bytes = gCmd r.rec'.bytes := by rw [h.rec']
  have hstep : gatherStep u n q = if q.formed then writeTile u n q else formTileNow u n q := by
    unfold gatherStep
    dsimp only
    by_cases hf : formTile q < gatherTiles u q
    · have hn := h.noFault l hu (t := formTile q) (by unfold gatherTiles at hf; rw [hg, hst] at hf; exact hf) q.slices
      simp only [hg, hn, Bool.and_false, Bool.false_eq_true, if_false]
      cases q.formed <;> rfl
    · simp only [hf, decide_false, Bool.false_and, Bool.false_eq_true, if_false]
      cases q.formed <;> rfl
  cases hf : q.formed with
  | false =>
    have e : gatherStep u n q = (putRun (coreCount (readSlices u n q (formTile q) ((List.range (gCmd r.rec'.bytes).rows).drop q.slices)) n 0x058 ((gCmd r.rec'.bytes).rows - q.slices)) n
        (setSlices q (gCmd r.rec'.bytes).rows), setSlices q (gCmd r.rec'.bytes).rows) := by
      rw [hstep, hf, if_neg (by decide)]
      unfold formTileNow
      dsimp only
      rw [hg, h.noFault l hu (by unfold formTile; rw [hf]; simpa [b2n] using ht)]
    rw [e]
    have hset : setSlices q (gCmd r.rec'.bytes).rows = { q with slices := 0, formed := true } := by
      unfold setSlices
      rw [hg, hf, if_pos (by simp)]
    obtain ⟨k1, k2, k3, k4⟩ := readSlices_run u n q (formTile q) ((List.range (gCmd r.rec'.bytes).rows).drop q.slices) h.bad
    generalize hv : readSlices u n q (formTile q) ((List.range (gCmd r.rec'.bytes).rows).drop q.slices) = v at k1 k2 k3 k4
    obtain ⟨p1, p2, -⟩ := putRun_ran (coreCount v n 0x058 ((gCmd r.rec'.bytes).rows - q.slices)) n (setSlices q (gCmd r.rec'.bytes).rows)
    dsimp only
    rw [hset] at p1 p2 ⊢
    have kk : Keeps [.uniBad, .cores, .mports, .tiers, .hps, .tallies] u (putRun (coreCount v n 0x058 ((gCmd r.rec'.bytes).rows - q.slices)) n { q with slices := 0, formed := true }) :=
      (k1.trans ((coreCount_keeps ..).mono (by decide))).trans (p1.keeps.mono (by decide))
    refine ⟨⟨h.keeps.trans (kk.mono (by decide)), ?_, ?_, ?_, fun a ha => ?_, h.rec', h.start, h.done, h.tiles⟩, fun y hy hs => p2 y hy (hs.trans h.start.symm), ?_, ?_⟩
    · exact ((h.back.trans k2).trans ((coreCount_keeps ..).backing (by decide) (by decide))).trans (p1.keeps.backing (by decide) (by decide))
    · exact (((coreCount_keeps ..).staysGood (by decide)).trans (p1.keeps.staysGood (by decide))).good (k3.good h.good)
    · exact (p1.bad.trans ((coreCount_cores ..).core n).bad).trans k4
    · rw [show (putRun _ n _).uni = u.uni from kk.only.2 .uni (by decide)]
      exact h.mem a ha
    · simp [b2n]
    · simp
  | true =>
    have hin := tileWrs_in u n (gCmd r.rec'.bytes) q.tiles
    rw [hst] at hin
    have hacc : (gatherStat s (gCmd r.rec'.bytes)).accAt (gCmd r.rec'.bytes).rec' q.tiles + 4096 ≤ (gCmd r.rec'.bytes).rec' + (gatherStat s (gCmd r.rec'.bytes)).size := by
      unfold Stat.accAt; omega
    have hlo : (gatherStat s (gCmd r.rec'.bytes)).accAt (gCmd r.rec'.bytes).rec' r.tiles ≤ (gatherStat s (gCmd r.rec'.bytes)).accAt (gCmd r.rec'.bytes).rec' q.tiles := by
      have := h.tiles
      unfold Stat.accAt; omega
    have hrec : (gCmd r.rec'.bytes).rec' ≤ (gatherStat s (gCmd r.rec'.bytes)).accAt (gCmd r.rec'.bytes).rec' q.tiles := by unfold Stat.accAt; omega
    have hw : ∀ w ∈ tileWrs u n (gCmd q.rec'.bytes) q.tiles, w.scratch = none ∧ spaceOf w.addr = .uni ∧ hitsUnbacked u w.addr w.bytes.length = false := by
      rw [hg]
      intro w hw
      obtain ⟨w1, w2, w3, w4⟩ := hin w hw
      exact ⟨w1, spaceOf_uni (by omega), by rw [h.back.unbacked]; exact hitsUnbacked_part hb (by omega) (by omega)⟩
    have hl := h.back.lossless l
    have e := writeTile_next u n q (by
      rw [upToFault_of (fun w hx => by
        unfold Wr.fault
        rw [(hw w hx).1]
        exact devWrFault_good hl (hw w hx).2.1)])
    obtain ⟨a1, a2⟩ := applyWrs_uni q.by (tileWrs u n (gCmd q.rec'.bytes) q.tiles) u hw hl
    obtain ⟨a3, a4⟩ := applyWrs_good q.by (tileWrs u n (gCmd q.rec'.bytes) q.tiles) u (fun w hx => (hw w hx).1)
    have ak : Keeps [.uni, .uniBad, .host, .cores, .ctxs, .mports, .tiers, .hps, .tallies] u (applyWrs q.by u (tileWrs u n (gCmd q.rec'.bytes) q.tiles)) := (applyWrs_keeps ..).mono (by decide)
    rw [hstep, hf, if_pos rfl, e]
    generalize applyWrs q.by u (tileWrs u n (gCmd q.rec'.bytes) q.tiles) = v at a1 a2 a3 a4 ak
    obtain ⟨s1, s2, s3, s4⟩ := setSlices_same { q with tiles := q.tiles + 1, formed := false } q.slices
    obtain ⟨p1, p2, -⟩ := putRun_ran v n (setSlices { q with tiles := q.tiles + 1, formed := false } q.slices)
    dsimp only at s1 s2 s3 s4 ⊢
    refine ⟨⟨(h.keeps.trans ak).trans (p1.keeps.mono (by decide)), ?_, ?_, ?_, fun a ha => ?_, s2.trans h.rec', s1.trans h.start, s4.trans h.done, ?_⟩,
      fun y hy hs => p2 y hy (hs.trans (h.start.symm.trans s1.symm)), ?_, ?_⟩
    · exact (h.back.trans a2).trans (p1.keeps.backing (by decide) (by decide))
    · exact (p1.keeps.staysGood (by decide)).good (a3.good h.good)
    · exact p1.bad.trans ((a4 n).trans h.bad)
    · rw [show (putRun v n _).uni = v.uni from p1.keeps.only.2 .uni (by decide), a1, hg, wroteAll_out a _ _ (fun w hx => ?_)]
      · exact h.mem a ha
      · obtain ⟨-, w2, w3, -⟩ := hin w hx
        rcases ha with ha | ha
        · left; omega
        · right; omega
    · have := h.tiles
      omega
    · rw [s3]; simp [b2n]; omega
    · omega

/-- A GATHER that nothing stops has written every tile. -/
theorem Gathering.all {s : State} {n : Nat} {r : Running} (l : Lossless s)
    (hu : (gCmd r.rec'.bytes).rec' + (gatherStat s (gCmd r.rec'.bytes)).size ≤ Config.uniTop)
    (hb : hitsUnbacked s (gCmd r.rec'.bytes).rec' (gatherStat s (gCmd r.rec'.bytes)).size = false) :
    ∀ (k : Nat) (u : State) (q : Running), Gathering s n r u q → q.tiles ≤ (gatherStat s (gCmd r.rec'.bytes)).nt →
      2 * (gatherStat s (gCmd r.rec'.bytes)).nt ≤ k + (2 * q.tiles + b2n q.formed) →
      (∀ y ∈ (u.core n).running, y.start = r.start → y = q) ∨ q.tiles < (gatherStat s (gCmd r.rec'.bytes)).nt →
      Gathering s n r (gatherAll k u n q).1 (gatherAll k u n q).2 ∧ (gatherAll k u n q).2.tiles = (gatherStat s (gCmd r.rec'.bytes)).nt ∧
        ∀ y ∈ ((gatherAll k u n q).1.core n).running, y.start = r.start → y = (gatherAll k u n q).2 := by
  have hsz : (gatherStat s (gCmd r.rec'.bytes)).size = 64 + 6144 * (gatherStat s (gCmd r.rec'.bytes)).nt := rfl
  have hone : ∀ b : Bool, b2n b ≤ 1 := by decide
  intro k
  induction k with
  | zero =>
    intro u q h ht hk hy
    have := hone q.formed
    have hq : q.tiles = (gatherStat s (gCmd r.rec'.bytes)).nt := by omega
    exact ⟨h, hq, hy.resolve_right (by omega)⟩
  | succ k ih =>
    intro u q h ht hk hy
    have hg : gatherTiles u q = (gatherStat s (gCmd r.rec'.bytes)).nt := by
      unfold gatherTiles
      rw [h.rec', h.stat (spaceOf_uni (by omega))]
    unfold gatherAll
    by_cases hq : q.tiles < (gatherStat s (gCmd r.rec'.bytes)).nt
    · rw [if_neg (by rw [h.done, hg]; simpa using hq)]
      obtain ⟨g1, g2, g3, g4⟩ := h.step l hu hb hq
      exact ih _ _ g1 (by omega) (by omega) (Or.inl g2)
    · rw [if_pos (by rw [hg]; simp; omega)]
      exact ⟨h, Nat.le_antisymm ht (Nat.le_of_not_lt hq), hy.resolve_right hq⟩

end Sys2Proof.Machine
end

