-- ==== Sys2Proof/Laws/PowerFacts.lean ====
section
/-! SUPPORT. What resets, readings, firmware and keys change and leave. -/

namespace Sys2Proof.Machine

open Sys2Proof

theorem finishMoves_same (s : State) : (finishMoves s).time = s.time ∧ (finishMoves s).sec = s.sec ∧ (finishMoves s).weave = s.weave ∧ (finishMoves s).opt = s.opt ∧ (finishMoves s).host = s.host ∧ (finishMoves s).hub = s.hub :=
  ⟨(finishMoves_keeps s).only.2 .time (by decide), (finishMoves_keeps s).only.2 .sec (by decide), (finishMoves_keeps s).only.2 .weave (by decide), (finishMoves_keeps s).only.2 .opt (by decide),
   (finishMoves_keeps s).only.2 .host (by decide), (finishMoves_keeps s).only.2 .hub (by decide)⟩

theorem bbxMarker_same (s : State) (c : Nat) : (bbxMarker s c).time = s.time ∧ (bbxMarker s c).sec = s.sec ∧ (bbxMarker s c).weave = s.weave ∧ (bbxMarker s c).opt = s.opt ∧ (bbxMarker s c).host = s.host :=
  ⟨(bbxMarker_keeps s c).only.2 .time (by decide), (bbxMarker_keeps s c).only.2 .sec (by decide), (bbxMarker_keeps s c).only.2 .weave (by decide), (bbxMarker_keeps s c).only.2 .opt (by decide),
   (bbxMarker_keeps s c).only.2 .host (by decide)⟩

theorem beginReset_spec (s : State) (cause : Nat) (hc : cause < 16) :
    let t := beginReset s cause
    t.hub.phase = .inReset ∧ t.hub.cause.toNat = cause ∧ t.hub.rstn = false ∧ t.hub.optDone = false ∧ t.hub.lock = 0 ∧
      t.cores = [] ∧ t.ctxs = [] ∧ t.hurdles = [] ∧ t.gates = [] ∧ t.accesses = [] ∧ t.weave.loaded = false ∧ t.sec.booted = false ∧
      t.sec.openD = false ∧ t.sec.keys = s.sec.keys ∧ t.sec.fused = s.sec.fused ∧ t.weave.slotA = s.weave.slotA ∧ t.weave.slotB = s.weave.slotB ∧
      t.opt.copyA = s.opt.copyA ∧ t.opt.copyB = s.opt.copyB ∧ t.host = s.host ∧ t.time = (if powerOnCause cause then 0 else s.time) ∧
      (powerOnCause cause = true → t.uni = [] ∧ t.sec.noid = false ∧ t.sec.debug = false) ∧ (powerOnCause cause = false → t.sec.noid = s.sec.noid ∧ t.sec.debug = s.sec.debug) := by
  obtain ⟨f1, f2, f3, f4, f5, f6⟩ := finishMoves_same s
  unfold beginReset
  dsimp only
  obtain ⟨g1, g2, g3, g4, g5⟩ := bbxMarker_same { (finishMoves s) with hub := countReset (if powerOnCause cause = true then vbakRestart s.hub else s.hub) cause } cause
  generalize bbxMarker { (finishMoves s) with hub := countReset (if powerOnCause cause = true then vbakRestart s.hub else s.hub) cause } cause = u at *
  refine ⟨rfl, ?_, rfl, rfl, rfl, rfl, rfl, rfl, rfl, rfl, rfl, rfl, rfl, ?_, ?_, ?_, ?_, ?_, ?_, ?_, ?_, ?_, ?_⟩
  · rw [BitVec.toNat_ofNat]; exact Nat.mod_eq_of_lt hc
  · show u.sec.keys = _; rw [g2]; exact congrArg Sec.keys f2
  · show u.sec.fused = _; rw [g2]; exact congrArg Sec.fused f2
  · show u.weave.slotA = _; rw [g3]; exact congrArg Weave.slotA f3
  · show u.weave.slotB = _; rw [g3]; exact congrArg Weave.slotB f3
  · show u.opt.copyA = _; rw [g4]; exact congrArg Opt.copyA f4
  · show u.opt.copyB = _; rw [g4]; exact congrArg Opt.copyB f4
  · show u.host = _; rw [g5]; exact f5
  · show (if powerOnCause cause = true then 0 else u.time) = _; rw [g1]; show (if powerOnCause cause = true then 0 else (finishMoves s).time) = _; rw [f1]
  · intro h; unfold cleared; rw [h]; exact ⟨rfl, rfl, rfl⟩
  · intro h; unfold cleared; rw [h, g2]
    refine ⟨?_, ?_⟩
    · show (true && (finishMoves s).sec.noid) = _; rw [f2]; rfl
    · show (true && (finishMoves s).sec.debug) = _; rw [f2]; rfl

theorem foldl_tset (f : Nat → Nat) (l : List Nat) (hn : l.Nodup) (t : Tbl Nat) (d : Nat) :
    tget dN (l.foldl (fun t d => tset dN t d (f (tget dN t d))) t) d = if d ∈ l then f (tget dN t d) else tget dN t d := by
  induction l generalizing t with
  | nil => simp
  | cons x l ih =>
    rw [List.foldl_cons, ih (List.nodup_cons.mp hn).2]
    by_cases hx : d = x
    · subst hx; rw [if_neg (List.nodup_cons.mp hn).1, if_pos List.mem_cons_self, tget_tset_self]
    · rw [tget_tset_ne _ _ _ _ _ hx]; simp [hx]

theorem powerLevels_get (s : State) (f : Nat → Nat) (d : Nat) : tget dN (powerLevels s f) d = if d < 16 then f (tget dN s.pwr.pLevel d) else tget dN s.pwr.pLevel d := by
  unfold powerLevels throttleDies
  rw [foldl_tset f _ List.nodup_range]; simp

theorem thermDie_ne (throt : Nat) (rs : List Reading) (p : Pwr) (d : Nat) (h : hottestOn rs d = none) : thermDie throt rs p d = p := by unfold thermDie; rw [h]

theorem hottestOn_one (d x e : Nat) : hottestOn [⟨0, d, x⟩] e = if e = d then some x else none := by
  unfold hottestOn sensorDies
  by_cases h : e = d
  · subst h; simp
  · simp [h]

theorem thermDies_one (throt d x : Nat) (l : List Nat) (hn : l.Nodup) (p : Pwr) (hx : 95 ≤ x) :
    (d ∈ l → 48 ≤ tget dN (l.foldl (thermDie throt [⟨0, d, x⟩]) p).tLevel d) ∧ (∀ e, e ≠ d → tget dN (l.foldl (thermDie throt [⟨0, d, x⟩]) p).tLevel e = tget dN p.tLevel e) ∧
    (d ∉ l → l.foldl (thermDie throt [⟨0, d, x⟩]) p = p) := by
  induction l generalizing p with
  | nil => exact ⟨fun h => absurd h (by simp), fun _ _ => rfl, fun _ => rfl⟩
  | cons y l ih =>
    obtain ⟨h1, h2, h3⟩ := ih (List.nodup_cons.mp hn).2 (thermDie throt [⟨0, d, x⟩] p y)
    by_cases hy : y = d
    · subst hy
      have hd : y ∉ l := (List.nodup_cons.mp hn).1
      have e1 := h3 hd
      refine ⟨fun _ => ?_, fun e he => ?_, fun h => absurd List.mem_cons_self h⟩
      · rw [List.foldl_cons, e1]
        unfold thermDie; rw [hottestOn_one, if_pos rfl]; dsimp only; rw [tget_tset_self]
        unfold thermStep; simp only [if_pos hx]; omega
      · rw [List.foldl_cons, e1]
        unfold thermDie; rw [hottestOn_one, if_pos rfl]; dsimp only; rw [tget_tset_ne _ _ _ _ _ he]
    · have e1 : thermDie throt [⟨0, d, x⟩] p y = p := thermDie_ne _ _ _ _ (by rw [hottestOn_one, if_neg hy])
      rw [e1] at h1 h2 h3
      rw [List.foldl_cons, e1]
      exact ⟨fun h => h1 (by simpa [Ne.symm hy] using h), h2, fun h => h3 (fun h' => h (List.mem_cons_of_mem _ h'))⟩

theorem thermDies_hotPrev (throt : Nat) (rs : List Reading) (l : List Nat) (p : Pwr) : (l.foldl (thermDie throt rs) p).hotPrev = p.hotPrev := by
  induction l generalizing p with
  | nil => rfl
  | cons y l ih => rw [List.foldl_cons, ih]; unfold thermDie; split <;> rfl

theorem beginReset_phase (s : State) (cause : Nat) : (beginReset s cause).hub.phase = .inReset ∧ (beginReset s cause).hub.cause = BitVec.ofNat 4 cause := ⟨rfl, rfl⟩

theorem bootTarget_fw (s : State) (t u : Nat) (h : u ≠ t) : (bootTarget s t).fw u = s.fw u := by
  unfold bootTarget
  split
  · exact State.modFw_get_fw_ne _ _ _ _ h
  · dsimp only; split <;> rfl

theorem bootTarget_sec (s : State) (t : Nat) : (bootTarget s t).sec.st = s.sec.st ∧ (bootTarget s t).sec.booted = s.sec.booted ∧ (bootTarget s t).sec.derived = s.sec.derived ∧ (bootTarget s t).sec.keys = s.sec.keys ∧ (bootTarget s t).sec.fused = s.sec.fused := by
  unfold bootTarget
  split
  · exact ⟨rfl, rfl, rfl, rfl, rfl⟩
  · dsimp only; split <;> exact ⟨rfl, rfl, rfl, rfl, rfl⟩

theorem bootTargets_keep (l : List Nat) (hl : 8 ∉ l) (s : State) : Keeps [.tallies, .sec] s (l.foldl bootTarget s) ∧ (l.foldl bootTarget s).fw 8 = s.fw 8 ∧ (l.foldl bootTarget s).sec.st = s.sec.st ∧
    (l.foldl bootTarget s).sec.booted = s.sec.booted ∧ (l.foldl bootTarget s).sec.derived = s.sec.derived ∧ (l.foldl bootTarget s).sec.keys = s.sec.keys ∧ (l.foldl bootTarget s).sec.fused = s.sec.fused := by
  induction l generalizing s with
  | nil => exact ⟨Keeps.refl _ _, rfl, rfl, rfl, rfl, rfl, rfl⟩
  | cons x l ih =>
    simp only [List.mem_cons, not_or] at hl
    obtain ⟨a1, a2, a3, a4, a5, a6, a7⟩ := ih hl.2 (bootTarget s x)
    obtain ⟨b1, b2, b3, b4, b5⟩ := bootTarget_sec s x
    rw [List.foldl_cons]
    exact ⟨(bootTarget_keeps s x).trans a1, by rw [a2, bootTarget_fw _ _ _ hl.1], a3.trans b1, a4.trans b2, a5.trans b3, a6.trans b4, a7.trans b5⟩

theorem slot_same (s : State) : ({ s with sec := { s.sec with slot := s.sec.slot } } : State) = s := rfl

theorem secCtl_same (who : Party) (op : Nat) (s : State) (ha : Admitted s who .hub) (hh : hubHandsOver s = false) : secCtl who s.sec.slot op s = secRun s who s.sec.slot.toNat op := by
  unfold secCtl
  rw [gated_admitted _ ha]
  dsimp only
  rw [slot_same, if_neg (by rw [hh]; decide)]

theorem secCtl_slot (who : Party) (i : BitVec 5) (op : Nat) (s : State) (ha : Admitted s who .hub) (hh : hubHandsOver s = false) : secCtl who i op s = secRun { s with sec := { s.sec with slot := i } } who i.toNat op := by
  unfold secCtl
  rw [gated_admitted _ ha]
  dsimp only
  rw [if_neg]
  have : hubHandsOver { s with sec := { s.sec with slot := i } } = hubHandsOver s := rfl
  rw [this, hh]; decide

theorem fwCheck_congr {s t : State} (h : t.sec = s.sec) (m : List Byte) : fwCheck t m = fwCheck s m := by unfold fwCheck romKeys; rw [h]

theorem secResult_fw (s : State) (st : Status) (u : Nat) : (secResult s st).fw u = s.fw u := rfl

theorem secResult_slotKey (s : State) (k : Tbl (List Byte)) (st : Status) (j : Nat) : slotKey (secResult { s with sec := { s.sec with keys := k } } st) j = tget dL k j := rfl

theorem with_hub2_fw (s : State) (x : Hub2) (u : Nat) : ({ s with hub2 := x } : State).fw u = s.fw u := rfl

theorem runHeld_nil (s : State) (h : s.hub2.heldOps = []) : runHeld s = s := by
  unfold runHeld
  dsimp only
  rw [h]
  show ({ s with hub2 := { s.hub2 with heldOps := [] } } : State) = s
  rw [← h]

theorem fenceSlot_idle (s : State) (n c e : Nat) (h1 : (s.core n).running = []) (h2 : (s.core n).queues = []) :
    (fenceSlot s n c e).hub2 = s.hub2 ∧ ((fenceSlot s n c e).core n).untrusted = (s.core n).untrusted ∧ ((fenceSlot s n c e).core n).running = [] ∧ ((fenceSlot s n c e).core n).queues = [] := by
  unfold fenceSlot
  split
  · exact ⟨rfl, rfl, h1, h2⟩
  · next i _ =>
    have hq : ∀ e, (s.core n).queue e i = [] := fun e => by unfold Core.queue; rw [h2]; rfl
    simp only [h1, hq, List.filter_nil, List.map_nil]
    have : inRingOrder ((List.range 4).flatMap (fun _ => ([] : List (Nat × Rec)))) = [] := by
      rw [show (List.range 4).flatMap (fun _ => ([] : List (Nat × Rec))) = [] from by decide]
      rfl
    simp only [this, List.foldl_nil, List.length_nil, Nat.add_zero, if_true]
    rw [State.modCore_get_core_self]
    exact ⟨rfl, rfl, h1, h2⟩

theorem fenceCore_idle (s : State) (n e : Nat) (h1 : (s.core n).running = []) (h2 : (s.core n).queues = []) :
    (fenceCore s n e).hub2 = s.hub2 ∧ ((fenceCore s n e).core n).untrusted = (s.core n).untrusted ∧ ((fenceCore s n e).core n).running = [] ∧ ((fenceCore s n e).core n).queues = [] := by
  unfold fenceCore
  have key : ∀ (l : List Nat) (s' : State), s'.hub2 = s.hub2 ∧ (s'.core n).untrusted = (s.core n).untrusted ∧ (s'.core n).running = [] ∧ (s'.core n).queues = [] →
      let u := l.foldl (fun s i => let x := (s.core n).slot i; if x.valid || x.drain then fenceSlot s n x.ctx.toNat e else s) s'
      u.hub2 = s.hub2 ∧ (u.core n).untrusted = (s.core n).untrusted ∧ (u.core n).running = [] ∧ (u.core n).queues = [] := by
    intro l
    induction l with
    | nil => intro s' h; exact h
    | cons x l ih =>
      intro s' h
      refine ih _ ?_
      dsimp only
      split
      · obtain ⟨a, b, c, d⟩ := fenceSlot_idle s' n ((s'.core n).slot x).ctx.toNat e h.2.2.1 h.2.2.2
        exact ⟨a.trans h.1, b.trans h.2.1, c, d⟩
      · exact h
  exact key _ s ⟨rfl, rfl, h1, h2⟩

theorem fenceEngines_one (s : State) (n e : Nat) : fenceEngines s 1 n e = fenceCore s n e := by
  simp only [fenceEngines, unitCores, List.foldl_cons, List.foldl_nil]

end Sys2Proof.Machine
end

