-- ==== Sys2Proof/Laws/RegisterFacts.lean ====
section
/-! SUPPORT. Where an address of the register map leads for the blocks of the contexts (R118), and the lowest security version that runs (R353). -/

namespace Sys2Proof.Machine

open Sys2Proof

/-- The register that an address of context `c`'s block of registers names. -/
theorem regAt_ctx (c o x : Nat) (hc : c < 1024) (ho : o < 0x1000) (hx : x = 0x4000000 + 0x1000 * c + o) : regAt x = ctxReg c o := by
  have n : ∀ l u : Nat, u ≤ 0x4000000 → ¬ ((decide (l ≤ x) && decide (x < u)) = true) := by
    intro l u hu h
    rw [Bool.and_eq_true, decide_eq_true_eq, decide_eq_true_eq] at h
    omega
  have m : ∀ u : Nat, u ≤ 0x4000000 → ¬ x < u := by intro u hu h; omega
  have h1 : (x - 0x4000000) / 0x1000 = c := by omega
  have h2 : (x - 0x4000000) % 0x1000 = o := by omega
  have h3 : (decide (0x4000000 ≤ x) && decide (x < 0x4400000)) = true := by rw [Bool.and_eq_true, decide_eq_true_eq, decide_eq_true_eq]; omega
  unfold regAt
  rw [if_neg (m 0x10000 (by decide)), if_neg (m 0x20000 (by decide)), if_neg (m 0x40000 (by decide)), if_neg (m 0x80000 (by decide)), if_neg (m 0x100000 (by decide)),
    if_neg (m 0x110000 (by decide)), if_neg (m 0x120000 (by decide)), if_neg (m 0x200000 (by decide)), if_neg (m 0x210000 (by decide)), if_neg (n 0x400000 0x410000 (by decide)),
    if_neg (n 0x1000000 0x3000000 (by decide)), if_neg (n 0x3000000 0x3200000 (by decide)), if_neg (n 0x3400000 0x3500000 (by decide)),
    if_neg (n 0x3600000 0x3800000 (by decide)), if_neg (n 0x3800000 0x3840000 (by decide)), if_pos h3, h1, h2]

/-- The area of the register map that an address of context `c`'s block lies in. -/
theorem areaAt_ctx (c o x : Nat) (hc : c < 1024) (ho : o < 0x1000) (hx : x = 0x4000000 + 0x1000 * c + o) : areaAt x = .ctx c := by
  have n : ∀ l u : Nat, u ≤ 0x4000000 → ¬ ((decide (l ≤ x) && decide (x < u)) = true) := by
    intro l u hu h
    rw [Bool.and_eq_true, decide_eq_true_eq, decide_eq_true_eq] at h
    omega
  have m : ∀ u : Nat, u ≤ 0x4000000 → ¬ x < u := by intro u hu h; omega
  have h1 : (x - 0x4000000) / 0x1000 = c := by omega
  have h3 : (decide (0x4000000 ≤ x) && decide (x < 0x4400000)) = true := by rw [Bool.and_eq_true, decide_eq_true_eq, decide_eq_true_eq]; omega
  unfold areaAt
  rw [if_neg (m 0x100 (by decide)), if_neg (n 0x2000 0x2400 (by decide)), if_neg (n 0x40040 0x40060 (by decide)), if_neg (m 0x20000 (by decide)),
    if_neg (n 0x40000 0x80000 (by decide)), if_neg (n 0x100000 0x110000 (by decide)), if_neg (n 0x110000 0x120000 (by decide)), if_pos h3, h1]

/-- The lowest SVN among the images that run, from an image that has it and none below it. -/
theorem lowestSvn_eq (s : State) (v : Nat) (h1 : ∃ g x, g < 9 ∧ (s.fw g).running = some x ∧ x.svn.toNat = v)
    (h2 : ∀ g x, g < 9 → (s.fw g).running = some x → v ≤ x.svn.toNat) : lowestSvn s = some v := by
  obtain ⟨g, x, hg, hx, hv⟩ := h1
  unfold lowestSvn
  have key : ∀ (l : List Nat) (m : Option Nat), (∀ g ∈ l, g < 9) → (∀ w, m = some w → v ≤ w) → (m = some v ∨ g ∈ l) →
      l.foldl (fun m t => match (s.fw t).running with
        | some x => (match m with | none => some x.svn.toNat | some v => some (min v x.svn.toNat))
        | none => m) m = some v := by
    intro l
    induction l with
    | nil => intro m _ _ h; simpa using h
    | cons a l ih =>
      intro m hl hm h
      rw [List.foldl_cons]
      refine ih _ (fun g hg => hl g (List.mem_cons_of_mem _ hg)) ?_ ?_
      · intro w hw
        cases hr : (s.fw a).running with
        | none => rw [hr] at hw; exact hm w hw
        | some y =>
          have hy := h2 a y (hl a (List.mem_cons_self ..)) hr
          rw [hr] at hw
          cases m with
          | none => simp at hw; omega
          | some u => have := hm u rfl; simp at hw; omega
      · rcases h with h | h
        · left
          subst h
          cases hr : (s.fw a).running with
          | none => rfl
          | some y =>
            have hy := h2 a y (hl a (List.mem_cons_self ..)) hr
            simp; omega
        · rcases List.mem_cons.mp h with h | h
          · left
            subst h
            rw [hx]
            cases m with
            | none => simp [hv]
            | some u => have := hm u rfl; simp; omega
          · exact .inr h
  exact key _ none (fun g hg => by simpa using hg) (by simp) (.inr (by simpa using hg))

end Sys2Proof.Machine
end

