-- ==== Sys2Proof/Laws/Watch.lean ====
section
/-! SUPPORT. What reading watched words again does to the cores and to the host ports: the WAITs of the one, the byte counts of the other
(R269, R270, R329). -/

namespace Sys2Proof.Machine

open Sys2Proof

/-- From `s` to `t` the cores keep all but their WAITs, and the host ports all but their counts of bytes. -/
structure OnlyWatch (s t : State) : Prop where
  core : ∀ n, ∃ ws, t.core n = { s.core n with waits := ws }
  hp : ∀ p, ∃ r w, t.hp p = { s.hp p with dmard := r, dmawr := w }

theorem OnlyWatch.refl (s : State) : OnlyWatch s s := ⟨fun _ => ⟨_, rfl⟩, fun _ => ⟨_, _, rfl⟩⟩

theorem OnlyWatch.trans {s t u : State} (h : OnlyWatch s t) (k : OnlyWatch t u) : OnlyWatch s u := by
  refine ⟨fun n => ?_, fun p => ?_⟩
  · obtain ⟨a, ha⟩ := h.core n
    obtain ⟨b, hb⟩ := k.core n
    exact ⟨b, by rw [hb, ha]⟩
  · obtain ⟨a, b, ha⟩ := h.hp p
    obtain ⟨c, d, hb⟩ := k.hp p
    exact ⟨c, d, by rw [hb, ha]⟩

theorem OnlyWatch.of {s t : State} (hc : t.cores = s.cores) (hh : t.hps = s.hps) : OnlyWatch s t :=
  ⟨fun n => ⟨(s.core n).waits, by unfold State.core; rw [hc]⟩, fun p => ⟨(s.hp p).dmard, (s.hp p).dmawr, by unfold State.hp; rw [hh]⟩⟩

theorem Keeps.onlyWatch {l : List Field} {s t : State} (h : Keeps l s t) (hc : Field.cores ∉ l) (hh : Field.hps ∉ l) : OnlyWatch s t :=
  .of (h.only.2 .cores hc) (h.only.2 .hps hh)

theorem OnlyWatch.foldl {α : Type} {f : State → α → State} (hf : ∀ s x, OnlyWatch s (f s x)) (l : List α) (s : State) : OnlyWatch s (l.foldl f s) := by
  induction l generalizing s with
  | nil => exact OnlyWatch.refl s
  | cons x l ih => exact (hf s x).trans (ih _)

theorem OnlyWatch.waits (s : State) (g : Waiting → Waiting) :
    OnlyWatch s { s with cores := s.cores.map (fun c => (c.1, { c.2 with waits := c.2.waits.map g })) } :=
  ⟨fun n => ⟨(s.core n).waits.map g, tget_map coreDef (fun c => { c with waits := c.waits.map g }) (fun _ => rfl) s.cores n⟩, fun _ => ⟨_, _, rfl⟩⟩

theorem countDma_watch (s : State) (w : Bool) (a n : Nat) : OnlyWatch s (countDma s w a n) := by
  unfold countDma
  split
  · refine ⟨fun _ => ⟨_, rfl⟩, fun p => ?_⟩
    rw [State.modHp_get_hp]
    split
    · subst p
      split <;> exact ⟨_, _, rfl⟩
    · exact ⟨_, _, rfl⟩
  · exact OnlyWatch.refl s

theorem devTouch_watch (s : State) (e : By) (a n : Nat) : OnlyWatch s (devTouch s e a n) := by
  unfold devTouch
  split
  · split
    · exact countDma_watch ..
    · exact OnlyWatch.refl s
  · exact (touchRead_keeps ..).onlyWatch (by decide) (by decide)

theorem waitTouch_watch (s : State) (w : Waiting) : OnlyWatch s (waitTouch s w) := by
  unfold waitTouch
  exact devTouch_watch ..

theorem reevaluate_watch (s : State) (p : Waiting → Bool) : OnlyWatch s (reevaluate s p) := by
  unfold reevaluate
  exact (OnlyWatch.foldl waitTouch_watch _ s).trans (OnlyWatch.waits ..)

theorem rewatchRing_watch (s : State) (c k : Nat) : OnlyWatch s (rewatchRing s c k) := by
  have h := (State.modCtx_keeps s c (fun x => x.modRing k (fun r => { r with how := watchHow s (((s.ctx c).ring k).watched k) }))).onlyWatch (by decide) (by decide)
  unfold rewatchRing
  dsimp only
  split
  · exact h.trans ((notePolled_keeps ..).onlyWatch (by decide) (by decide))
  · exact h

/-- What a change at a host port does to the words watched through it. -/
theorem rewatch_watch (old s : State) : OnlyWatch s (rewatch old s) := by
  unfold rewatch
  refine OnlyWatch.trans (OnlyWatch.trans (OnlyWatch.trans (OnlyWatch.waits ..) (OnlyWatch.foldl (fun s x => ?_) _ _)) (reevaluate_watch ..))
    (OnlyWatch.foldl (fun s _ => rewatchRing_watch ..) _ _)
  dsimp only
  split
  · exact (post_keeps ..).onlyWatch (by decide) (by decide)
  · exact OnlyWatch.refl s

/-- From `s` to `t` a context changes at most how its rings' words are watched. -/
structure OnlyHow (s t : State) : Prop where
  rest : ∀ c, t.ctx c = { s.ctx c with rings := (t.ctx c).rings }
  ring : ∀ c k, (t.ctx c).ring k = { (s.ctx c).ring k with how := ((t.ctx c).ring k).how }

theorem OnlyHow.of {s t : State} (h : t.ctxs = s.ctxs) : OnlyHow s t := by
  have e : ∀ c, t.ctx c = s.ctx c := fun c => by unfold State.ctx; rw [h]
  exact ⟨fun c => by rw [e], fun c k => by rw [e]⟩

theorem OnlyHow.refl (s : State) : OnlyHow s s := .of rfl

theorem OnlyHow.trans {s t u : State} (h : OnlyHow s t) (g : OnlyHow t u) : OnlyHow s u :=
  ⟨fun c => by rw [g.rest c, h.rest c], fun c k => by rw [g.ring c k, h.ring c k]⟩

theorem Keeps.onlyHow {l : List Field} {s t : State} (h : Keeps l s t) (hl : Field.ctxs ∉ l) : OnlyHow s t := .of (h.only.2 .ctxs hl)

theorem rewatchRing_how (s : State) (c k : Nat) : OnlyHow s (rewatchRing s c k) := by
  have h : OnlyHow s (s.modCtx c (fun x => x.modRing k (fun r => { r with how := watchHow s (((s.ctx c).ring k).watched k) }))) := by
    refine ⟨fun d => ?_, fun d j => ?_⟩
    · rw [State.modCtx_get_ctx]
      split
      · next e => subst e; rfl
      · rfl
    · rw [State.modCtx_get_ctx]
      split
      · next e =>
        subst e
        by_cases hj : j = k
        · subst hj; rw [Ctx.modRing_ring_self]
        · rw [Ctx.modRing_ring_ne _ _ _ _ hj]
      · rfl
  unfold rewatchRing
  dsimp only
  split
  · exact h.trans ((notePolled_keeps ..).onlyHow (by decide))
  · exact h

/-- After a change of what watches reach, a ring is at most watched in another way (R269, R292). -/
theorem rewatch_how (old s : State) : OnlyHow s (rewatch old s) := by
  unfold rewatch
  dsimp only
  have f : ∀ (l : List (Nat × Nat)) (u : State), OnlyHow u (l.foldl (fun s x => rewatchRing s x.1 x.2) u) := by
    intro l
    induction l with
    | nil => exact fun u => OnlyHow.refl u
    | cons x l ih => exact fun u => (rewatchRing_how ..).trans (ih _)
  refine OnlyHow.trans ?_ (f _ _)
  refine OnlyHow.trans ?_ ((reevaluate_keeps ..).onlyHow (by decide))
  have g : ∀ (l : List (Nat × Waiting)) (u : State), OnlyHow u (l.foldl (fun s x => if watchHow s (sigAddr x.2.rec'.bytes) = .polled then post s x.1 x.2.rec'.ctx 0x0A6 (bitsOf (sigAddr x.2.rec'.bytes) 3 43) else s) u) := by
    intro l
    induction l with
    | nil => exact fun u => OnlyHow.refl u
    | cons x l ih =>
      refine fun u => OnlyHow.trans ?_ (ih _)
      dsimp only
      split
      · exact (post_keeps ..).onlyHow (by decide)
      · exact OnlyHow.refl u
  refine OnlyHow.trans ?_ (g _ _)
  exact OnlyHow.of rfl

end Sys2Proof.Machine
end

