-- ==== Sys2Proof/Laws/WeaveFacts.lean ====
section
/-! SUPPORT. What the steps of a Weave change leave, one fact per operation. -/

namespace Sys2Proof.Machine

open Sys2Proof

theorem unitChange_lane (o s : State) (l : Nat) : unitChange o s (.lane l) = s := rfl

theorem mem_allUnits_lane {l : Nat} (h : l < 128) : CfgUnit.lane l ∈ allUnits := by
  simp [allUnits, h]

theorem foldl_weave {α} (f : State → α → State) (l : List α) (hf : ∀ s x, (f s x).weave = s.weave ∧ (f s x).time = s.time) (s : State) : (l.foldl f s).weave = s.weave ∧ (l.foldl f s).time = s.time := by
  induction l generalizing s with
  | nil => exact ⟨rfl, rfl⟩
  | cons x l ih => rw [List.foldl_cons]; exact ⟨(ih _).1.trans (hf s x).1, (ih _).2.trans (hf s x).2⟩

theorem releaseBridge_weave (s : State) (p : Nat) : (releaseBridge s p).weave = s.weave ∧ (releaseBridge s p).time = s.time :=
  ⟨(releaseBridge_keeps s p).only.2 .weave (by decide), (releaseBridge_keeps s p).only.2 .time (by decide)⟩

theorem rolledBack_weave (s : State) : (rolledBack s).weave = { s.weave with nxt := none, adopted := [], fences := [], st := .idle, result := stDeadline, next := 0, image := [], evt := s.weave.evt ||| BitVec.ofNat 3 (2 ^ 2) } := rfl

theorem wvEvent_weave (s : State) (b g : Nat) : (wvEvent s b g).weave = { s.weave with evt := s.weave.evt ||| BitVec.ofNat 3 (2 ^ b) } := rfl

/-- A forced change leaves the generation in force as it is. -/
theorem weaveFence_cur (s : State) (u : CfgUnit) : (weaveFence returnOne s u).weave.cur = s.weave.cur := by
  have back : ∀ s, (returnOne s u).weave.cur = s.weave.cur := by
    intro s
    unfold returnOne
    rw [(unitChange_keeps ..).only.2 .weave (by decide)]
  have p1 : ∀ s a b c d, (post s a b c d).weave = s.weave := fun s a b c d => (post_keeps ..).only.2 .weave (by decide)
  unfold weaveFence settleFence
  dsimp only
  split
  · rw [p1]
    show (returnOne _ u).weave.cur = _
    rw [back, p1, (fenceUnit_keeps ..).only.2 .weave (by decide)]
    exact (congrArg Weave.cur (p1 s uHub 0 0x0A3 (hurdlePay 5 ((unitCode u).1 + 256 * (unitCode u).2) 0x1F)) :)
  · rw [(fenceUnit_keeps ..).only.2 .weave (by decide)]
    exact (congrArg Weave.cur (p1 s uHub 0 0x0A3 (hurdlePay 5 ((unitCode u).1 + 256 * (unitCode u).2) 0x1F)) :)

/-- A forced return of a unit: it waits for its fence, or it has returned. -/
theorem weaveFence_returned (s : State) (u : CfgUnit) : (weaveFence returnOne s u).weave.st = s.weave.st ∧
    (∀ v, v ∈ (weaveFence returnOne s u).weave.adopted → v ∈ s.weave.adopted ∧ (v = u → u ∈ (weaveFence returnOne s u).weave.fences)) ∧
    ∀ v, v ≠ u → v ∈ s.weave.fences → v ∈ (weaveFence returnOne s u).weave.fences := by
  have back : ∀ s, (returnOne s u).weave = { s.weave with adopted := s.weave.adopted.filter (· != u) } := by
    intro s
    unfold returnOne
    rw [(unitChange_keeps ..).only.2 .weave (by decide)]
  have p1 : ∀ s a b c d, (post s a b c d).weave = s.weave := fun s a b c d => (post_keeps ..).only.2 .weave (by decide)
  have fu : ∀ s a b c, (fenceUnit s a b c).weave = s.weave := fun s a b c => (fenceUnit_keeps ..).only.2 .weave (by decide)
  unfold weaveFence settleFence
  dsimp only
  split
  · simp only [p1, back, fu]
    refine ⟨trivial, fun v hv => ⟨(List.mem_filter.mp hv).1, fun h => ?_⟩, fun v hv h => ?_⟩
    · have := (List.mem_filter.mp hv).2
      rw [h] at this
      simp at this
    · exact List.mem_filter.mpr ⟨List.mem_append_left _ h, by simpa using hv⟩
  · simp only [p1, fu]
    exact ⟨trivial, fun v hv => ⟨hv, fun _ => by simp⟩, fun v _ h => List.mem_append_left _ h⟩

theorem weaveFences_cur (l : List CfgUnit) (s : State) : (l.foldl (weaveFence returnOne) s).weave.cur = s.weave.cur := by
  induction l generalizing s with
  | nil => rfl
  | cons x l ih => rw [List.foldl_cons, ih, weaveFence_cur]

/-- A forced end of a rollback: each unit still at g + 1 waits for its fence. -/
theorem weaveFences_returned (l : List CfgUnit) (s : State) (h : ∀ u ∈ s.weave.adopted, u ∈ l ∨ u ∈ s.weave.fences) :
    (l.foldl (weaveFence returnOne) s).weave.cur = s.weave.cur ∧ (l.foldl (weaveFence returnOne) s).weave.st = s.weave.st ∧
    (∀ u ∈ (l.foldl (weaveFence returnOne) s).weave.adopted, u ∈ (l.foldl (weaveFence returnOne) s).weave.fences) := by
  induction l generalizing s with
  | nil => exact ⟨rfl, rfl, fun u hu => (h u hu).resolve_left (by simp)⟩
  | cons x l ih =>
    rw [List.foldl_cons]
    obtain ⟨h1, h2, h3⟩ := weaveFence_returned s x
    obtain ⟨i1, i2, i3⟩ := ih (weaveFence returnOne s x) (fun u hu => by
      obtain ⟨j1, j2⟩ := h2 u hu
      rcases h u j1 with j | j
      · rcases List.mem_cons.mp j with rfl | j
        · exact Or.inr (j2 rfl)
        · exact Or.inl j
      · by_cases hx : u = x
        · subst hx; exact Or.inr (j2 rfl)
        · exact Or.inr (h3 u hx j))
    exact ⟨i1.trans (weaveFence_cur s x), i2.trans h1, i3⟩

theorem adoptBoot_weave (s : State) (b : Nat × WeaveGen) : (adoptBoot s b).weave = { s.weave with cur := b.2, loaded := true, bootsrc := BitVec.ofNat 4 b.1, inUse := if b.1 = 2 then s.weave.inUse else b.1 == 1 } := by
  unfold adoptBoot
  dsimp only
  have f1 : ∀ (l : List Nat) (s : State), (l.foldl (fun s p => if opMode s p = 0 then s else startTraining s p) s).weave = s.weave := by
    intro l
    induction l with
    | nil => intro s; rfl
    | cons x l ih =>
      intro s
      rw [List.foldl_cons, ih]
      split
      · rfl
      · exact (startTraining_keeps ..).only.2 .weave (by decide)
  have f2 : ∀ (c k : Nat → Bool) (g : Nat → MPort → MPort) (l : List Nat) (s : State),
      (l.foldl (fun s m => if c m then s else if k m then retireSlices (adoptTiers (s.modMport m (g m)) m) m else adoptTiers (s.modMport m (g m)) m) s).weave = s.weave := by
    intro c k g l
    induction l with
    | nil => intro s; rfl
    | cons x l ih =>
      intro s
      rw [List.foldl_cons, ih]
      split
      · rfl
      · split
        · rw [(retireSlices_keeps ..).only.2 .weave (by decide), (adoptTiers_keeps ..).only.2 .weave (by decide)]; rfl
        · exact (adoptTiers_keeps ..).only.2 .weave (by decide)
  rw [f1]
  generalize hk : (s.hub.keep && _ && _) = k
  refine (f2 (fun m => (retiredOf b.2.sects).contains (7, m)) (fun _ => k) (fun m x => { x with init := k, kept := k }) (List.range 16) _).trans ?_
  split
  · rfl
  · rw [(rangeInit_keeps ..).only.2 .weave (by decide)]

theorem eventBits_set (x : BitVec 3) : (x ||| BitVec.ofNat 3 (2^1) ||| BitVec.ofNat 3 (2^2)).getLsbD 2 = true ∧ (x ||| BitVec.ofNat 3 (2^1) ||| BitVec.ofNat 3 (2^2)).getLsbD 1 = true := by simp

end Sys2Proof.Machine
end

