-- ==== Sys2Proof/Tests/Slice0.lean ====
section
/-! SUPPORT. The model's own tests: terms that well-formedness refuses, the spec's worked numbers, and for each statement with hypotheses one theorem
that shows, for each of its clauses, a concrete state and operands that meet all the clause's hypotheses together, at a boundary of their ranges. -/

namespace Sys2Proof.Tests

set_option Elab.async false
set_option linter.unusedTactic false
set_option linter.unusedVariables false
set_option linter.unreachableTactic false

open Sys2Proof Sys2Proof.Machine

/-! ### Small states -/

/-- `n` bytes, zero but for the listed fields (offset, width in bytes, value). -/
def fieldsOf (n : Nat) (l : List (Nat × Nat × Nat)) : List Byte := l.foldl (fun b x => setFld b x.1 x.2.1 x.2.2) (List.replicate n 0)

/-- A memory that holds `b` at address `a`. -/
def memAt (a : Nat) (b : List Byte) : Mem := mwrite [] a b

/-- A 64-byte record of context `c`. -/
def recOf (c : Nat) (l : List (Nat × Nat × Nat)) : Rec := { ctx := c, seq := 0, bytes := fieldsOf 64 l }

/-- A command that engine `e` of core `n` runs from slot 31, with start number 9. -/
def runOf (n e : Nat) (r : Rec) : Running := { start := 9, rec' := r, slot := 31, eng := e, core := n, issued := 0, wptab := 0, seed := 0 }

/-- After reset with one core, one context, one optical port changed. -/
def onCore (n : Nat) (c : Core) : State := { State.reset with cores := [(n, c)] }
def onCtx (c : Nat) (x : Ctx) : State := { State.reset with ctxs := [(c, x)] }

/-- After reset with record `r` of context 1023 at the head of engine `e`'s queue of slot 31 of core 799, its checks passed. -/
def headState (e : Nat) (r : Rec) : State := { State.reset with ctxs := [(1023, { state := 1, parts := 1 })], cores := [(799, { serv := 0, req := 0, slots := [(31, { valid := true, ctx := 1023, weight := 1 })], queues := [(32 * e + 31, [r])], passed := [(32 * e + 31, some [])], credit := [(32 * e + 31, 1)] })] }

/-- Option bytes with the defaults' limits, all administrator bits but bit 3, and 16 DMA windows (R344). -/
def optAll : List Byte := fieldsOf 64 [(8, 2, 3800), (10, 2, 1200), (12, 2, 20), (14, 2, 200), (16, 4, 64), (20, 1, 16), (21, 1, 7), (22, 1, 95), (23, 1, 8)]

/-- Sections of a Weave with one partition of everything, one DMA window of 1 GiB at the first host address, routes to ranks 1 (port 31, then 30) and 2,
ports 30 and 31 to fabric peers, port 29 Ethernet, all lanes and cores, and no clock change. -/
def sectsUp : List Sect := [
  { typ := 2, count := 1, bytes := fieldsOf 160 [(8, 100, 2 ^ 800 - 1), (108, 16, 2 ^ 128 - 1), (136, 8, Config.uniTop)] },
  { typ := 3, count := 2, bytes := fieldsOf 8 [(0, 4, 1 + 31 * 256 + 30 * 65536 + 2 ^ 31), (4, 4, 2 + 30 * 256)] },
  { typ := 5, count := 32, bytes := fieldsOf 128 [(116, 4, 2), (120, 4, 1), (124, 4, 1 + 7 * 256)] },
  { typ := 7, count := 1, bytes := fieldsOf 8 [] },
  { typ := 9, count := 1, bytes := fieldsOf 272 [(0, 2, 3800), (2, 2, 1200), (4, 2, 20), (6, 2, 200), (8, 4, 64), (12, 1, 16), (24, 8, 2 ^ 30)] }]

/-- A device that runs with that Weave: booted, its identity key derived, both host ports up, window 0 mapped to port A. -/
def up : State := { State.reset with hps := [(0, { mode := 1, winmap := 1 }), (1, { mode := 1 })], weave := { loaded := true, cur := { gen := 1, sects := sectsUp, digest := [] } }, opt := { image := optAll }, sec := { booted := true, derived := true } }

/-- After reset with port A up. -/
def portUpA : State := { State.reset with hps := [(0, { mode := 1, winmap := 0xFFFF })] }

/-- A fabric packet of one type from a rank, with the address it names. -/
def pktOf (typ src addr : Nat) : FabPkt := { typ := BitVec.ofNat 6 typ, genp := false, fwd := false, src := BitVec.ofNat 6 src, dst := 0, ctx := 0, len := 1, nbytes := 8, xtag := 0, att := false, fmt := 0, status := 0, addr := BitVec.ofNat 64 addr, data := [], checks := [], header := .good, sig0 := 0, sig1 := 0 }

/-- A port whose receive buffer has one packet ready. -/
def onPort (p : Nat) (k : FabPkt) (s : State) : State := { s with oports := [(p, { ready := [k] })] }

/-- A GATHER of one row over one tile, its accumulator formed. -/
def gState : State := { State.reset with uni := memAt 0x1000 (fieldsOf 64 [(2, 2, 32)]), cores := [(799, { running := [{ runOf 799 3 (recOf 1023 [(0, 1, 0x30), (10, 2, 1), (24, 8, 0x1000)]) with formed := true }] })] }

theorem tget_single_ne {α : Type} (d : Nat → α) {j k : Nat} (v : α) (h : j ≠ k) : tget d [(k, v)] j = d j := by
  simp [tget, Ne.symm h]

/-- A short write of the hub to the first bytes of device memory meets no fault (R355). -/
theorem hubWriteFault_zero (s : State) (n : Nat) (h : n ≤ 2 ^ 20) (hm : s.manifests = []) (hl : anyLost s = false) : hubWriteFault s 0 n = none := by
  unfold hubWriteFault
  rw [show spaceOf 0 = Space.uni from by decide]
  simp only [hitsSealed, hm, List.any_nil, Bool.false_eq_true, if_false]
  rw [if_neg (by unfold Config.uniTop; omega)]
  unfold devWrFault
  rw [show spaceOf 0 = Space.uni from by decide, hl]
  rfl

/-- The body of an attestation report is short (R355). -/
theorem attestBody_short (s : State) (h : ((List.range 4).flatMap (fun j => natLE 8 (tget d0 s.sec.nonce j).toNat)).length ≤ 100)
    (hf : s.sec.fw = []) (hw : (dig32 s.sec.wmeas).length ≤ 100) (ho : (optMirror s).length ≤ 1000) : (attestBody s).length ≤ 2 ^ 19 := by
  have hr : ∀ t, (s.fw t).running = none := fun t => by unfold State.fw; rw [hf]; rfl
  unfold attestBody identityDigest
  simp only [hr, List.length_append, natLE_length, sha256_length, List.length_cons, List.length_nil, List.length_replicate, List.length_flatMap, List.map_const',
    List.sum_replicate, List.length_range, smul_eq_mul] at h ⊢
  omega

/-- A retired-units section that takes every compute die and every Ibex die but the last out of service (R23). -/
def sectsRetire : List Sect := [{ typ := 8, count := 15, bytes := (List.range 8).flatMap (fun d => natLE 4 (3 + 256 * d)) ++ (List.range 7).flatMap (fun d => natLE 4 (5 + 256 * d)) }]

theorem sectsRetire_units : retiredOf sectsRetire = [(3, 0), (3, 1), (3, 2), (3, 3), (3, 4), (3, 5), (3, 6), (3, 7), (5, 0), (5, 1), (5, 2), (5, 3), (5, 4), (5, 5), (5, 6)] := by decide +kernel

/-- With every compute die retired no core is in service. -/
theorem cores_out (r : List (Nat × Nat)) (h : ∀ d < 8, (3, d) ∈ r) : ((List.range 800).map CfgUnit.core).filter (fun u => !unitRetired r u) = [] := by
  rw [List.filter_eq_nil_iff]
  intro u hu
  obtain ⟨n, hn, rfl⟩ := List.mem_map.mp hu
  simp [unitRetired, coreRetired, h (n / 100) (by have := List.mem_range.mp hn; omega)]

/-- The units in service with those sections, and all of them but the last lane. -/
def unitsLeft : List CfgUnit := (List.range 16).map (fun l => .lane (112 + l)) ++ (List.range 16).map .mport ++ (List.range 32).map .oport
def adoptedBut : List CfgUnit := unitsLeft.filter (· != .lane 127)

theorem unitsLeft_eq : allUnits.filter (fun u => !unitRetired (retiredOf sectsRetire) u) = unitsLeft := by
  rw [sectsRetire_units]
  unfold allUnits
  rw [List.filter_append, List.filter_append, List.filter_append, cores_out _ (by decide)]
  decide +kernel

theorem unitsLeft_last : (allUnits.filter (fun u => !unitRetired (retiredOf sectsRetire) u)).filter (fun u => !adoptedBut.contains u) = [CfgUnit.lane 127] := by
  rw [unitsLeft_eq]
  decide +kernel

/-! ### Well-formedness: one term for each check, refused, and its neighbour within the bound accepted -/

def illCores : List Instr := [.cclkChange 8 0, .ringIntakeRead 1024 0, .ringIntakeRead 0 6, .recordDelivery 8 0, .recordDelivery 0 1024, .droverSelect 800 0, .droverSelect 0 4,
  .nop 800 0, .nop 0 4, .matmul 800, .vecop 800, .vecred 800, .update 800, .copy 800, .push 800, .pop 800, .woodpileWriteback 800, .hotWindowMove 800, .gather 800,
  .gatherSliceIssue 800 true, .gshareWindowStart 800, .gatherTileWriteback 800, .gatherHeaderWrite 800, .signal 800 0, .signal 0 4, .wait 800 0, .wait 0 4]
def illWaits : List Instr := [.waitEvaluation 800 0 0, .waitEvaluation 0 4 0, .waitEvaluation 0 0 1024, .waitTimeout 800 0 0, .waitTimeout 0 4 0, .waitTimeout 0 0 1024,
  .commandComplete 800 0, .commandComplete 0 4, .completionRecordRelease 800 0, .completionRecordRelease 0 1024, .completionWriteRetry 1024, .coreStateReq .fw 800 0,
  .serviceStateAdopt 800, .scratchpadWriteback 800, .coreSlot .fw 800 0 0, .coreSlot .fw 0 32 0, .tileFillStart 800 0, .totalsFinal 800 0, .epilogueStart 800 0, .bufferEmpty 800 0,
  .unitAdopt (.core 800) false, .unitAdopt (.lane 128) false, .unitAdopt (.mport 16) false, .unitAdopt (.oport 32) false, .coreTest 800 true]
def illSolverMemory : List Instr := [.ibatch 8 0, .ibatch 0 1024, .entryDispatch 8, .entryComputeEnd 8 0, .entryComputeEnd 0 16, .headerCommit 8 0, .headerCommit 0 16,
  .deadlineReached 8 0 1, .deadlineReached 0 16 1, .batchComplete 8, .promotion 0 8, .moveEnd 256, .pinMove 16, .scrubRead 16, .retirementCopy 256, .mpRelease .fw 16 0, .rangeInitEnd 16]
def illPorts : List Instr := [.resendTimeout 32, .write 32, .add 32, .readreq 32, .signalPacket 32, .readrsp 32, .ack 32, .time 32, .timeSend 32, .sync 32, .syncRepeat 256,
  .ackTimeout 4096, .routePathChange 33, .linkTraining 32 0 0 0, .trainingRetry 32, .arpRequest 32 [] [], .neighbourSolicitation 32 [] [], .pause 32 0 0, .pause 0 8 0, .cnp 32,
  .qpTimeout 32 0, .qpTimeout 0 128, .recal .fw 32, .retrain .fw 32, .cleartrip .fw 32, .trackingError 32, .errorRatioTrigger 32, .calibrationSweep 32, .lsRecal .fw 4,
  .lockLoss 4 0, .lockLoss 0 8, .eyeSafetyTrip 32 0 0, .eyeSafetyTrip 0 8 0, .droppedFrame 32,
  .frameReceive 32 { seq := 0, ackseq := 0, nak := false, train := false, credit := 0, creditVc := 0, crcOk := true, pkts := [] },
  .readResponse 32 ⟨0, 0, true, false, false, true, [], 0⟩, .ackOrNak 32 ⟨0, 0, true, false, false, true, [], 0⟩, .requestPacket 32 ⟨0, 0, true, false, false, true, [], 0⟩]
def illSync : List Instr := [.reduce 8, .allgather 8, .allreduce 8, .permute 8, .permuteWritePhase 8 0, .settle 8, .normfin 8, .normfinReduce 8 0, .sumBegin 8 0,
  .collectiveTimeout 8 0, .foldCfg .fw (.die 8 0) 0, .foldCfg .fw (.die 0 64) 0, .foldCfg .fw (.dev 256) 0, .foldMask .fw (.dev 256) true 0, .raise .fw 16 0 0, .lift .fw 16, .quiesced 16]
def illContexts : List Instr := [.create .fw 1024, .destroy .fw 1024, .destroyComplete 1024, .ringEnable .fw 1024 0 0, .ringEnable .fw 0 6 0, .ringDisable .fw 1024 0 0,
  .ringDisable .fw 0 6 0, .consumerIndexWrite 1024 0, .consumerIndexWrite 0 6, .ringRateDefer 1024, .request 1024, .servingStep 1024 [], .ctxServe .fw 1024 0, .manifest 1024, .load 1024,
  .tileDigestCheck 1024, .digest 1024, .contextScopeReset .fw 1024, .go .fw 1024]
def illDevice : List Instr := [.hostLinkTraining .fw 0 0 0, .hotReset .fw, .bar2Access .fw 0 1 none, .hpxHdm .fw .fw 0, .windowMove 16, .acquire .fw 64 0 0, .release .fw 64 0 0,
  .renew .fw 64 0 0 0, .leaseExpiry 64, .softStart 2, .stageFault 2, .throttleWindow 8, .evtInEdge 4 true, .firmwareReport 9, .watchdogExpiry 9, .registerWrite .fw 0 0 0,
  .registerWrite .fw (2 ^ 28 - 4) 8 0, .registerWrite .fw (2 ^ 28 + 2 ^ 16) 4 0, .registerRead .fw 0 0]

/-- Each check of `Instr.wf` refuses a term one past its bound (R12, R14, R19, R320). -/
theorem test_wf_refuses : (illCores ++ illWaits ++ illSolverMemory ++ illPorts ++ illSync ++ illContexts ++ illDevice).all (fun c => !c.wf) = true := by decide +kernel

/-- A term at each of the bounds is accepted. -/
theorem test_wf_accepts : [Instr.ringIntakeRead 1023 5, .recordDelivery 7 1023, .droverSelect 799 3, .waitTimeout 799 3 1023, .coreSlot .fw 799 31 0, .entryComputeEnd 7 15,
    .moveEnd 255, .mpRelease .fw 15 0, .qpTimeout 31 127, .pause 31 7 0, .routePathChange 32, .lockLoss 3 7, .foldCfg .fw (.die 7 63) 0, .foldCfg .fw (.dev 255) 0, .raise .fw 15 0 0,
    .unitAdopt (.lane 127) false, .hotReset .portB, .acquire .fw 63 0 0, .evtInEdge 3 true, .firmwareReport 8, .registerWrite .fw (2 ^ 28 - 8) 8 0].all Instr.wf = true := by decide +kernel

/-! ### The spec's own numbers -/

/-- Both vectors of the generator (R51). -/
theorem test_evulan : evulan 0 0 = 0xE0C3_A9CD_4477_321C ∧ evulan 1 0x0000_0001_8000_0005 = 0x65EE_C82D_2AD1_C80F := by decide +kernel

/-- The two state writes of the worked case of 03 (R47, R48). -/
theorem test_stochastic : (srBf16 0x3F80_4000 0x321C).code = 0x3F81 ∧ (srL16 0x3A80_2C80 0xC82D).code = 0x7600 ∧ (encL16 (dec32 0x3A80_2C80)).code = 0x7601 := by decide +kernel

/-- The chunk of the worked case of 04 (R58): a product 21 bits below the leading one falls out. -/
theorem test_chunk : chunkTotal 8 16 (List.zipWith (fun a b => (bf16f.decode a).mul (bf16f.decode b)) [0x3F81, 0x3A80, 0x4040, 0xBF00, 0, 0, 0, 0]
    [0x3F81, 0x3A80, 0x3F80, 0x3F80, 0x3F80, 0x3F80, 0x3F80, 0x3F80]) 0 = 0x4061_0100 := by decide +kernel

/-- The weight of the worked case of 09: stochastic rounding with word 3 of vector 1, and the grid values of its moments (R43, R45, R48). -/
theorem test_weight : (srBf16 0x3F7F_C000 0xE0C3).code = 0x3F7F ∧ (encL16 (dec32 0x3C80_0000)).code = 0x7A00 ∧ (bf16f.encode (dec32 0x3D80_0000)).code = 0x3D80 := by decide +kernel

/-- The element (57, 1000) of the worked case of 11 is read and written where it says (R209). -/
theorem test_copy_address : posAddr 0 [2, 12288, 64, 0] [8, 57, 31, 0] = 702416 ∧ posAddr 0 [2, 64, 8192, 0] [8, 57, 31, 0] = 257616 := by decide +kernel

/-- A digest of the Secure Hash Standard's own example, "abc" (R24 names the function). -/
theorem test_sha256 : sha256 [0x61, 0x62, 0x63] = (List.range 32).map (fun i => BitVec.ofNat 8 (0xba7816bf8f01cfea414140de5dae2223b00361a396177a9cb410ff61f20015ad / 2 ^ (8 * (31 - i)))) := by
  decide +kernel

/-- Some outcomes of one command, read as a number. -/
def after (o : Host.Outcome State Fault Refusal) (f : State → Nat) : Nat := match o with | .next t => f t | _ => 0

/-- Step 1 of the worked case of 16: ACQUIRE of a free semaphore whose TOKEN is 0x0012 makes it HELD by A with TOKEN 0x0013 (R326). -/
theorem test_gate : after (exec (.acquire .portA 3 0 50) { portUpA with gates := [(3, { token := 0x12 })] }) (fun t => (t.gate 3).token.toNat) = 0x13 ∧
    after (exec (.acquire .portA 3 0 50) { portUpA with gates := [(3, { token := 0x12 })] }) (fun t => (t.gate 3).state.toNat) = 1 := by decide +kernel

/-- The worked address of CORE_SLOT5 of core 347 (21): a write of it reaches that slot (R77, R102). -/
theorem test_core_slot_address : after (exec (.registerWrite .fw 0x01D5_E228 8 (BitVec.ofNat 64 (2 ^ 63 + 12 * 2 ^ 48))) State.reset) (fun t => ((t.core 347).slot 5).ctx.toNat) = 12 := by decide +kernel

/-- The worked address of CTX_SERVE of context 12 (21): writing HOLD there sets it (R303, R314). -/
theorem test_ctx_serve_address : after (exec (.registerWrite .fw 0x0400_C0F0 8 (BitVec.ofNat 64 (2 ^ 63))) (onCtx 12 { state := 1 })) (fun t => b2n (t.ctx 12).hold) = 1 := by decide +kernel

/-- No row of the table gives bits, so no word spells a command. -/
theorem test_no_words : decodeTableWord 64 0x50 = none := by decide +kernel

/-! ### Every statement's hypotheses can be met -/

theorem witness_StepRunsFrontCommand :
    ∃ c : Instr, ∃ rest : List Instr, ∃ s : State, (s.pending = c :: rest) := by
  exact ⟨.nop 799 3, [.moveIn], { State.reset with pending := [.nop 799 3, .moveIn] }, by decide +kernel⟩

theorem witness_EmptyQueueLetsTimePass :
    ∃ s : State, (s.pending = []) := by
  exact ⟨State.reset, by decide +kernel⟩

theorem witness_EveryCommandAnswers :
    ∃ c : Instr, ∃ s : State, (∀ ir, c = .jtagInstruction ir → ir < 3 ∨ s.sec.openD = false) := by
  refine ⟨.jtagInstruction 2, State.reset, ?_⟩
  repeat' (first | exact fun ir h => .inl (by cases h; decide) | (refine And.intro ?_ ?_) | decide +kernel | (refine And.intro ?_ ?_) | rfl | (intro _) | (dsimp only; decide +kernel))

theorem witness_StepKeepsCanonicalForm :
    ∃ s : State, ∃ t : State, (MemCanon s) ∧ (QueueWf s) ∧ (step s = .next t) := by
  refine ⟨State.reset, { State.reset with time := 1 }, ?_⟩
  repeat' (first | exact fun _ => rfl | exact fun c h => absurd h (List.not_mem_nil) | (refine And.intro ?_ ?_) | decide +kernel | (refine And.intro ?_ ?_) | rfl | (intro _) | (dsimp only; decide +kernel))

theorem witness_FuseVersionsNeverFall :
    (∃ who : Party, ∃ v : Nat, ∃ s : State, (who ≠ .fw) ∧ (Admitted s who .hub) ∧ (hubHandsOver s = false) ∧ (∃ g x, g < 9 ∧ (s.fw g).running = some x ∧ x.svn.toNat = v) ∧ (∀ g x, g < 9 → (s.fw g).running = some x → v ≤ x.svn.toNat)) ∧
    (∃ m : List Byte, ∃ s : State, (fwSvn m < s.sec.fused.toNat)) ∧
    (∃ s : State, ∃ t : State, (step s = .next t)) := by
  refine ⟨?_, ?_, ?_⟩
  · refine ⟨.portA, 5, { portUpA with sec := { fw := [(8, { running := some ⟨5, [], []⟩ })] } }, ?_⟩
    repeat' (first | exact ⟨8, ⟨5, [], []⟩, by decide +kernel⟩ | exact fun g x hg h => (by decide +kernel : ∀ g < 9, ∀ x ∈ (tget fwDef [(8, { running := some ⟨5, [], []⟩ })] g).running.toList, 5 ≤ x.svn.toNat) g hg x (by rw [show (tget fwDef [(8, { running := some ⟨5, [], []⟩ })] g).running = some x from h]; exact List.mem_singleton.mpr rfl) | (refine And.intro ?_ ?_) | decide +kernel | (refine And.intro ?_ ?_) | rfl | (intro _) | (dsimp only; decide +kernel))
  · exact ⟨[0, 0, 0, 0, 0, 0, 0, 4], { State.reset with sec := { fused := 5 } }, by decide +kernel⟩
  · refine ⟨State.reset, { State.reset with time := 1 }, ?_⟩
    repeat' (first | decide +kernel | (refine And.intro ?_ ?_) | rfl | (intro _) | (dsimp only; decide +kernel))

theorem witness_StageVerifyApply :
    (∃ who : Party, ∃ s : State, (Admitted s who .admin) ∧ (s.weave.loaded = true) ∧ (hubHandsOver s = false) ∧ (s.weave.st = .idle ∨ s.weave.st = .staged) ∧ (let a := s.weave.src.toNat * 8; (let n := wvTotal (devRead s a 64); (imageFault s a 64 = none) ∧ (wvTotalOk (devRead s a 64) = true) ∧ (imageFault s a n = none)))) ∧
    (∃ who : Party, ∃ s : State, (Admitted s who .admin) ∧ (s.weave.loaded = true) ∧ (hubHandsOver s = false) ∧ (s.weave.st = .staged) ∧ (wvKind s.weave.image ≠ 0) ∧ (who = .fw → raisesLimit s s.weave.cur.sects (produce s.weave.cur.sects s.weave.image) = false)) := by
  refine ⟨?_, ?_⟩
  · refine ⟨.fw, { State.reset with weave := { loaded := true }, uni := memAt 24 [160] }, ?_⟩
    repeat' (first | decide +kernel | (refine And.intro ?_ ?_) | rfl | (intro _) | (dsimp only; decide +kernel))
  · refine ⟨.fw, { State.reset with weave := { loaded := true, st := .staged, image := fieldsOf 64 [(6, 1, 1)] } }, ?_⟩
    repeat' (first | decide +kernel | (refine And.intro ?_ ?_) | rfl | (intro _) | (dsimp only; decide +kernel))

theorem witness_WeaveOperationsEnd :
    (∃ s : State, ∃ f : Status × Nat, (s.weave.st = .verifying) ∧ (s.weave.fetchErr = 0) ∧ (verifyImage s s.weave.cur s.weave.image false = some f)) ∧
    (∃ who : Party, ∃ s : State, (Admitted s who .admin) ∧ (s.weave.loaded = true) ∧ (hubHandsOver s = false) ∧ (s.weave.st = .applying ∨ s.weave.st = .rollingBack)) ∧
    (∃ who : Party, ∃ s : State, (Admitted s who .admin) ∧ (s.weave.loaded = true) ∧ (hubHandsOver s = false) ∧ (s.weave.st = .verifying ∨ s.weave.st = .persisting)) ∧
    (∃ who : Party, ∃ s : State, (Admitted s who .admin) ∧ (s.weave.loaded = true) ∧ (hubHandsOver s = false) ∧ (s.weave.st = .verifying ∨ s.weave.st = .staged)) ∧
    (∃ who : Party, ∃ s : State, (Admitted s who .admin) ∧ (s.weave.loaded = true) ∧ (hubHandsOver s = false) ∧ (s.weave.st = .staged) ∧ (wvKind s.weave.image = 0)) ∧
    (∃ who : Party, ∃ s : State, (Admitted s who .admin) ∧ (s.weave.loaded = true) ∧ (hubHandsOver s = false) ∧ (s.weave.st = .idle) ∧ (s.sec.noid = false) ∧ (s.sec.derived = true)) ∧
    (∃ s : State, (s.weave.st = .persisting)) := by
  refine ⟨?_, ?_, ?_, ?_, ?_, ?_, ?_⟩
  · exact ⟨{ State.reset with weave := { st := .verifying } }, (stDescriptor, 0xFF), by decide +kernel⟩
  · refine ⟨.fw, { State.reset with weave := { loaded := true, st := .rollingBack } }, ?_⟩
    repeat' (first | decide +kernel | (refine And.intro ?_ ?_) | rfl | (intro _) | (dsimp only; decide +kernel))
  · refine ⟨.fw, { State.reset with weave := { loaded := true, st := .persisting } }, ?_⟩
    repeat' (first | decide +kernel | (refine And.intro ?_ ?_) | rfl | (intro _) | (dsimp only; decide +kernel))
  · refine ⟨.fw, { State.reset with weave := { loaded := true, st := .staged } }, ?_⟩
    repeat' (first | decide +kernel | (refine And.intro ?_ ?_) | rfl | (intro _) | (dsimp only; decide +kernel))
  · refine ⟨.fw, { State.reset with weave := { loaded := true, st := .staged } }, ?_⟩
    repeat' (first | decide +kernel | (refine And.intro ?_ ?_) | rfl | (intro _) | (dsimp only; decide +kernel))
  · refine ⟨.fw, { State.reset with weave := { loaded := true }, sec := { derived := true } }, ?_⟩
    repeat' (first | decide +kernel | (refine And.intro ?_ ?_) | rfl | (intro _) | (dsimp only; decide +kernel))
  · exact ⟨{ State.reset with weave := { st := .persisting } }, by decide +kernel⟩

theorem witness_GenerationChanges :
    (∃ l : Nat, ∃ s : State, ∃ g : WeaveGen, (l < 128) ∧ (CfgUnit.lane l ∉ s.weave.fences) ∧ (unitSafe s (.lane l) = true) ∧ (unitRetired (retiredOf s.weave.cur.sects) (.lane l) = false) ∧ (s.weave.st = .applying) ∧ (s.weave.nxt = some g) ∧ (CfgUnit.lane l ∉ s.weave.adopted) ∧ (∃ u, u ≠ CfgUnit.lane l ∧ u ∈ unitsAtG s)) ∧
    (∃ l : Nat, ∃ s : State, ∃ g : WeaveGen, (l < 128) ∧ (CfgUnit.lane l ∉ s.weave.fences) ∧ (unitSafe s (.lane l) = true) ∧ (unitRetired (retiredOf s.weave.cur.sects) (.lane l) = false) ∧ (s.weave.st = .rollingBack) ∧ (s.weave.nxt = some g) ∧ (CfgUnit.lane l ∈ s.weave.adopted) ∧ (∃ u, u ≠ CfgUnit.lane l ∧ u ∈ s.weave.adopted)) ∧
    (∃ l : Nat, ∃ s : State, ∃ g : WeaveGen, (l < 128) ∧ (CfgUnit.lane l ∉ s.weave.fences) ∧ (unitSafe s (.lane l) = true) ∧ (unitRetired (retiredOf s.weave.cur.sects) (.lane l) = false) ∧ (s.weave.st = .applying) ∧ (s.weave.nxt = some g) ∧ (unitsAtG s = [CfgUnit.lane l])) ∧
    (∃ s : State, (s.weave.st = .applying) ∧ (s.weave.deadline.toNat ≤ s.time.toNat) ∧ (hasType s.weave.image 8 = false) ∧ (s.weave.adopted ≠ [])) ∧
    (∃ s : State, (s.weave.st = .applying) ∧ (s.weave.deadline.toNat ≤ s.time.toNat) ∧ (hasType s.weave.image 8 = false) ∧ (s.weave.adopted = [])) ∧
    (∃ s : State, (s.weave.st = .rollingBack) ∧ (s.weave.deadline.toNat ≤ s.time.toNat)) := by
  refine ⟨?_, ?_, ?_, ?_, ?_, ?_⟩
  · refine ⟨127, { State.reset with weave := { st := .applying, nxt := some { gen := 1, sects := [], digest := [] } } }, { gen := 1, sects := [], digest := [] }, ?_⟩
    repeat' (first | exact ⟨.core 0, by decide +kernel, List.mem_filter.mpr ⟨List.mem_filter.mpr ⟨by simp [allUnits], by decide +kernel⟩, by decide +kernel⟩⟩ | (refine And.intro ?_ ?_) | decide +kernel | (refine And.intro ?_ ?_) | rfl | (intro _) | (dsimp only; decide +kernel))
  · refine ⟨127, { State.reset with weave := { st := .rollingBack, nxt := some { gen := 1, sects := [], digest := [] }, adopted := [.core 0, .lane 127] } }, { gen := 1, sects := [], digest := [] }, ?_⟩
    repeat' (first | exact ⟨.core 0, by decide +kernel⟩ | (refine And.intro ?_ ?_) | decide +kernel | (refine And.intro ?_ ?_) | rfl | (intro _) | (dsimp only; decide +kernel))
  · refine ⟨127, { State.reset with weave := { st := .applying, nxt := some { gen := 1, sects := [], digest := [] }, cur := { gen := 0, sects := sectsRetire, digest := [] }, adopted := adoptedBut } }, { gen := 1, sects := [], digest := [] }, ?_⟩
    repeat' (first | (unfold unitsAtG serviceUnits; exact unitsLeft_last) | (refine And.intro ?_ ?_) | decide +kernel | (refine And.intro ?_ ?_) | rfl | (intro _) | (dsimp only; decide +kernel))
  · exact ⟨{ State.reset with weave := { st := .applying, adopted := [.core 0] } }, by decide +kernel⟩
  · exact ⟨{ State.reset with weave := { st := .applying } }, by decide +kernel⟩
  · exact ⟨{ State.reset with weave := { st := .rollingBack } }, by decide +kernel⟩

theorem witness_BootLoadAndClock :
    (∃ s : State, (s.hub.phase = .running) ∧ (s.sec.booted = true) ∧ (s.sec.st ≠ 2) ∧ (s.weave.loaded = false)) ∧
    (∃ d : Nat, ∃ k : Nat, ∃ c : Nat, ∃ s : State, (d < 8) ∧ (s.weave.loaded = true) ∧ (planCode s s.weave.cur.sects k d = some c)) ∧
    (∃ d : Nat, ∃ k : Nat, ∃ s : State, (d < 8) ∧ (s.weave.loaded = true) ∧ (planCode s s.weave.cur.sects k d = none)) := by
  refine ⟨?_, ?_, ?_⟩
  · exact ⟨{ State.reset with sec := { booted := true } }, by decide +kernel⟩
  · exact ⟨7, 0, 0, { State.reset with weave := { loaded := true } }, by decide +kernel⟩
  · exact ⟨7, 8, { State.reset with weave := { loaded := true } }, by decide +kernel⟩

theorem witness_RingIntake :
    (∃ c : Nat, ∃ k : Nat, ∃ cmd : Instr, ∃ s : State, (c < 1024) ∧ (k < 5) ∧ (cmd = .ringIntakeRead c k ∨ (k = 4 ∧ cmd = .request c)) ∧ (3 ≤ k → fwServes s c = true) ∧ (ringRuns s c k = true) ∧ ((s.ctx c).state = 1) ∧ (ctxFenced s c = false) ∧ (let r := (s.ctx c).ring k; (let a := r.addr + r.own.toNat % r.n * 64; (let x : Rec := { ctx := c, seq := r.own, bytes := devRead s a 64 }; (r.own ≠ r.other) ∧ (devFault s a 64 = none) ∧ (intakeFull s c k x.bytes = false))))) ∧
    (∃ c : Nat, ∃ k : Nat, ∃ s : State, (c < 1024) ∧ (k < 5) ∧ (3 ≤ k → fwServes s c = true) ∧ (ringRuns s c k = true) ∧ ((s.ctx c).state = 1) ∧ (ctxFenced s c = false) ∧ (let r := (s.ctx c).ring k; (let a := r.addr + r.own.toNat % r.n * 64; (r.own ≠ r.other) ∧ (devFault s a 64 = some .link)))) ∧
    (∃ c : Nat, ∃ k : Nat, ∃ s : State, (c < 1024) ∧ (k < 5) ∧ (3 ≤ k → fwServes s c = true) ∧ (ringRuns s c k = true) ∧ ((s.ctx c).state = 1) ∧ (ctxFenced s c = false) ∧ (let r := (s.ctx c).ring k; (let a := r.addr + r.own.toNat % r.n * 64; (r.own ≠ r.other) ∧ (∃ w, (devFault s a 64 = some (.ecc w)))))) := by
  refine ⟨?_, ?_, ?_⟩
  · exact ⟨1023, 4, .request 1023, { State.reset with sec := { booted := true }, ctxs := [(1023, { state := 1, rings := [(4, { en := true, caddr := 0x100, other := 1 })] })], uni := memAt 0x1000 [1] }, by decide +kernel⟩
  · exact ⟨1023, 4, { State.reset with sec := { booted := true }, ctxs := [(1023, { state := 1, rings := [(4, { en := true, base := 2 ^ 38, caddr := 0x100, other := 1 })] })], uni := memAt 0x1000 [1] }, by decide +kernel⟩
  · refine ⟨1023, 4, { State.reset with sec := { booted := true }, ctxs := [(1023, { state := 1, rings := [(4, { en := true, caddr := 0x100, other := 1 })] })], uni := memAt 0x1000 [1], uniBad := [(7, 2)] }, ?_⟩
    repeat' (first | decide +kernel | (refine And.intro ?_ ?_) | rfl | (intro _) | (dsimp only; decide +kernel) | (refine ⟨56, ?_⟩))

theorem witness_RingEnableAndDisable :
    (∃ who : Party, ∃ c : Nat, ∃ k : Nat, ∃ v : BitVec 64, ∃ s : State, (c < 1024) ∧ (k < 6) ∧ (Admitted s who (.ctx c)) ∧ (((s.ctx c).ring k).en = false) ∧ (bitOf v.toNat 63 = true) ∧ (let s1 := s.modCtx c (fun x => x.modRing k (fun r => { r with log2n := BitVec.ofNat 5 (min 16 (max 4 (bitsOf v.toNat 56 5))), base := BitVec.ofNat 42 (bitsOf v.toNat 6 42) })); (let r := (s1.ctx c).ring k; (let own : BitVec 32 := BitVec.ofNat 32 (devWord s1 (r.ownWord k)).toNat; (let w := devWord s1 (r.watched k); (let seen : BitVec 32 := BitVec.ofNat 32 w.toNat; (ringBad s1 c k r = false) ∧ (w.toNat < 2 ^ 32) ∧ ((if k = 5 then idxDist own seen else idxDist seen own) ≤ r.n))))))) ∧
    (∃ who : Party, ∃ c : Nat, ∃ k : Nat, ∃ v : BitVec 64, ∃ s : State, (c < 1024) ∧ (k < 6) ∧ (Admitted s who (.ctx c)) ∧ (((s.ctx c).ring k).en = true) ∧ (bitOf v.toNat 63 = false)) := by
  refine ⟨?_, ?_⟩
  · refine ⟨.fw, 1023, 5, 0x8400000000000000, { State.reset with ctxs := [(1023, { state := 1, parts := 1, rings := [(5, { caddr := 0x100 })] })] }, ?_⟩
    repeat' (first | decide +kernel | (refine And.intro ?_ ?_) | rfl | (intro _) | (dsimp only; decide +kernel))
  · refine ⟨.fw, 1023, 5, 0, { State.reset with ctxs := [(1023, { rings := [(5, { en := true })] })] }, ?_⟩
    repeat' (first | decide +kernel | (refine And.intro ?_ ?_) | rfl | (intro _) | (dsimp only; decide +kernel))

theorem witness_RingIndexWords :
    (∃ c : Nat, ∃ k : Nat, ∃ s : State, (c < 1024) ∧ (k < 5) ∧ ((s.ctx c).state ≠ 0) ∧ (let r := (s.ctx c).ring k; (let a := r.ownWord k; (r.own ≠ r.written) ∧ (spaceOf a = .host) ∧ (hostReach s s.weave.cur.sects a 8 = true)))) ∧
    (∃ c : Nat, ∃ k : Nat, ∃ s : State, (c < 1024) ∧ (k < 5) ∧ ((s.ctx c).state ≠ 0) ∧ (let r := (s.ctx c).ring k; (let a := r.ownWord k; (r.own ≠ r.written) ∧ (spaceOf a = .uni) ∧ (Backed s a 8)))) ∧
    (∃ c : Nat, ∃ k : Nat, ∃ w : BitVec 64, ∃ s : State, (c < 1024) ∧ (k < 5) ∧ (((s.ctx c).ring k).deferred = some w) ∧ (∀ j, j ≠ k → ((s.ctx c).ring j).deferred = none) ∧ ((s.ctx c).takenUs < usOf s) ∧ (0 < (limitsOf s s.weave.cur.sects).ring) ∧ (let r := (s.ctx c).ring k; (let seen : BitVec 32 := BitVec.ofNat 32 w.toNat; (w.toNat < 2 ^ 32) ∧ (idxDist seen r.own ≤ r.n)))) := by
  refine ⟨?_, ?_, ?_⟩
  · exact ⟨1023, 4, { up with ctxs := [(1023, { state := 1, rings := [(4, { own := 1, caddr := 2 ^ 40 })] })] }, by decide +kernel⟩
  · refine ⟨1023, 4, { State.reset with ctxs := [(1023, { state := 1, rings := [(4, { own := 1, caddr := 0x100 })] })] }, ?_⟩
    repeat' (first | decide +kernel | (refine And.intro ?_ ?_) | rfl | (intro _) | (dsimp only; decide +kernel))
  · refine ⟨1023, 4, 1, { State.reset with time := 1000, ctxs := [(1023, { state := 1, rings := [(4, { en := true, deferred := some 1 })] })] }, ?_⟩
    repeat' (first | exact fun j h => congrArg Ring.deferred (tget_single_ne ringDef _ h) | (refine And.intro ?_ ?_) | decide +kernel | (refine And.intro ?_ ?_) | rfl | (intro _) | (dsimp only; decide +kernel))

theorem witness_CompletionRecords :
    (∃ n : Nat, ∃ c : Nat, ∃ x : Comp, ∃ s : State, (n < 800) ∧ (c < 1024) ∧ (let r := (s.ctx c).ring 5; (compRoom s c = true) ∧ (compReach s c = true) ∧ ((s.ctx c).comps = []) ∧ ((s.core n).comps.find? (fun y => y.ctx == c) = some x))) ∧
    (∃ c : Nat, ∃ x : Comp, ∃ xs : List Comp, ∃ s : State, (c < 1024) ∧ (((s.ctx c).ring 5).retry = true) ∧ ((s.ctx c).comps = x :: xs) ∧ (compRoom (s.modCtx c (fun y => y.modRing 5 (fun r => { r with retry := false }))) c = true) ∧ (compReach s c = true)) ∧
    (∃ c : Nat, ∃ x : Comp, ∃ xs : List Comp, ∃ s : State, (c < 1024) ∧ (((s.ctx c).ring 5).retry = true) ∧ ((s.ctx c).comps = x :: xs) ∧ (compRoom (s.modCtx c (fun y => y.modRing 5 (fun r => { r with retry := false }))) c = true) ∧ (compReach s c = true) ∧ (x.bytes.length = 32) ∧ (let r := (s.ctx c).ring 5; (let a := r.addr + r.own.toNat % r.n * 32; (spaceOf a = .host) ∧ (spaceOf r.pair = .host) ∧ (a + 32 ≤ r.pair ∨ r.pair + 8 ≤ a) ∧ (hostReach s s.weave.cur.sects r.pair 8 = true)))) := by
  refine ⟨?_, ?_, ?_⟩
  · exact ⟨799, 1023, ⟨1023, []⟩, { State.reset with ctxs := [(1023, { rings := [(5, { en := true, caddr := 0x100 })] })], cores := [(799, { comps := [⟨1023, []⟩] })] }, by decide +kernel⟩
  · exact ⟨1023, ⟨1023, []⟩, [], { State.reset with ctxs := [(1023, { rings := [(5, { en := true, caddr := 0x100, retry := true })], comps := [⟨1023, []⟩] })] }, by decide +kernel⟩
  · exact ⟨1023, ⟨1023, List.replicate 32 7⟩, [], { up with ctxs := [(1023, { rings := [(5, { en := true, base := 2 ^ 38, caddr := 2 ^ 40 + 0x100, retry := true })], comps := [⟨1023, List.replicate 32 7⟩] })] }, by decide +kernel⟩

theorem witness_RecordIsDelivered :
    (∃ d : Nat, ∃ c : Nat, ∃ i : Nat, ∃ r : Rec, ∃ rest : List Rec, ∃ s : State, (d < 8) ∧ (c < 1024) ∧ (tget dL s.dieHeld (heldKey d c) = []) ∧ ((s.ctx c).intake = r :: rest) ∧ (intakeDie r = d) ∧ (intakeCheck s r = none) ∧ (slotFenced s r.coreN r.ctx = false) ∧ ((s.core r.coreN).residentSlot r.ctx = some i) ∧ (hasRoom (s.core r.coreN) r.eng i = true)) ∧
    (∃ d : Nat, ∃ c : Nat, ∃ i : Nat, ∃ r : Rec, ∃ s : State, (d < 8) ∧ (c < 1024) ∧ (firstHeld s [] (tget dL s.dieHeld (heldKey d c)) = some r) ∧ (intakeCheck s r = none) ∧ (slotFenced s r.coreN r.ctx = false) ∧ ((s.core r.coreN).residentSlot r.ctx = some i)) ∧
    (∃ d : Nat, ∃ c : Nat, ∃ x : Refuse, ∃ r : Rec, ∃ rest : List Rec, ∃ s : State, (d < 8) ∧ (c < 1024) ∧ (tget dL s.dieHeld (heldKey d c) = []) ∧ ((s.ctx c).intake = r :: rest) ∧ (intakeDie r = d) ∧ (intakeCheck s r = some x)) := by
  refine ⟨?_, ?_, ?_⟩
  · exact ⟨7, 1023, 31, recOf 1023 [(4, 2, 799), (6, 1, 3)], [], { State.reset with cores := [(799, { slots := [(31, { valid := true, ctx := 1023 })] })], ctxs := [(1023, { parts := 1, intake := [recOf 1023 [(4, 2, 799), (6, 1, 3)]] })] }, by decide +kernel⟩
  · exact ⟨7, 1023, 31, recOf 1023 [(4, 2, 799), (6, 1, 3)], { State.reset with cores := [(799, { slots := [(31, { valid := true, ctx := 1023 })] })], ctxs := [(1023, { parts := 1 })], dieHeld := [(heldKey 7 1023, [recOf 1023 [(4, 2, 799), (6, 1, 3)]])] }, by decide +kernel⟩
  · exact ⟨7, 1023, (stDescriptor, 7), recOf 1023 [(4, 2, 799), (7, 1, 1)], [], { State.reset with ctxs := [(1023, { parts := 1, intake := [recOf 1023 [(4, 2, 799), (7, 1, 1)]] })] }, by decide +kernel⟩

theorem witness_CommandsIssueAndComplete :
    (∃ n : Nat, ∃ e : Nat, ∃ i : Nat, ∃ r : Rec, ∃ q : List Rec, ∃ s : State, ∃ s2 : State, (n < 800) ∧ (e < 4) ∧ (let s1 := (List.range 32).foldl (checkHead e n) s; (canAccept (s1.core n) e = true) ∧ (droverPick s1 n e = some (i, s2)) ∧ ((s2.core n).queue e i = r :: q) ∧ (issueCheck s2 n i r = .ok ()))) ∧
    (∃ n : Nat, ∃ e : Nat, ∃ r : Running, ∃ s : State, (n < 800) ∧ (e < 4) ∧ (completable s n e = some r)) := by
  refine ⟨?_, ?_⟩
  · refine ⟨799, 1, 31, recOf 1023 [(0, 1, 0x10), (4, 2, 799), (12, 4, 1)], [], (headState 1 (recOf 1023 [(0, 1, 0x10), (4, 2, 799), (12, 4, 1)])), (headState 1 (recOf 1023 [(0, 1, 0x10), (4, 2, 799), (12, 4, 1)])), ?_⟩
    repeat' (first | decide +kernel | (refine And.intro ?_ ?_) | rfl | (intro _) | (dsimp only; decide +kernel))
  · exact ⟨799, 3, { runOf 799 3 (recOf 1023 [(4, 2, 799), (6, 1, 3)]) with done := true }, { State.reset with cores := [(799, { running := [{ runOf 799 3 (recOf 1023 [(4, 2, 799), (6, 1, 3)]) with done := true }] })] }, by decide +kernel⟩

theorem witness_PlainHeadsAndSignals :
    (∃ n : Nat, ∃ e : Nat, ∃ i : Nat, ∃ r : Rec, ∃ s : State, (n < 800) ∧ (e < 4) ∧ (let s1 := (List.range 32).foldl (checkHead e n) s; (plainHead s1 n e 0x00 (fun _ => false) = some (i, r)))) ∧
    (∃ n : Nat, ∃ e : Nat, ∃ i : Nat, ∃ r : Rec, ∃ s : State, (n < 800) ∧ (e < 4) ∧ (let s1 := (List.range 32).foldl (checkHead e n) s; (plainHead s1 n e 0x40 (fun r => !sigAcked r.bytes) = some (i, r)) ∧ (foldAt s1 (sigAddr r.bytes) = none) ∧ (bridgeHolds s1 (.core n) (sigAddr r.bytes) 8 = false))) ∧
    (∃ n : Nat, ∃ e : Nat, ∃ i : Nat, ∃ r : Rec, ∃ s : State, (n < 800) ∧ (e < 4) ∧ (let s1 := (List.range 32).foldl (checkHead e n) s; (let a := sigAddr r.bytes; (plainHead s1 n e 0x41 (fun _ => false) = some (i, r)) ∧ (devFault s1 a 8 = none) ∧ (waitHolds (waitCond r.bytes) (devWord s1 a) (sigValue r.bytes) = true)))) ∧
    (∃ n : Nat, ∃ e : Nat, ∃ i : Nat, ∃ r : Rec, ∃ s : State, (n < 800) ∧ (e < 4) ∧ (let s1 := (List.range 32).foldl (checkHead e n) s; (let a := sigAddr r.bytes; (plainHead s1 n e 0x41 (fun _ => false) = some (i, r)) ∧ (devFault s1 a 8 = none) ∧ (waitHolds (waitCond r.bytes) (devWord s1 a) (sigValue r.bytes) = false)))) ∧
    (∃ b : By, ∃ a : Nat, ∃ op : Nat, ∃ v : BitVec 64, ∃ s : State, (spaceOf a = .host) ∧ (hostReach s s.weave.cur.sects a 8 = true)) := by
  refine ⟨?_, ?_, ?_, ?_, ?_⟩
  · exact ⟨799, 3, 31, recOf 1023 [(4, 2, 799), (6, 1, 3)], (headState 3 (recOf 1023 [(4, 2, 799), (6, 1, 3)])), by decide +kernel⟩
  · exact ⟨799, 3, 31, recOf 1023 [(0, 1, 0x40), (4, 2, 799), (6, 1, 3), (16, 8, 0x2000)], (headState 3 (recOf 1023 [(0, 1, 0x40), (4, 2, 799), (6, 1, 3), (16, 8, 0x2000)])), by decide +kernel⟩
  · exact ⟨799, 3, 31, recOf 1023 [(0, 1, 0x41), (4, 2, 799), (6, 1, 3), (16, 8, 0x2000)], (headState 3 (recOf 1023 [(0, 1, 0x41), (4, 2, 799), (6, 1, 3), (16, 8, 0x2000)])), by decide +kernel⟩
  · exact ⟨799, 3, 31, recOf 1023 [(0, 1, 0x41), (4, 2, 799), (6, 1, 3), (16, 8, 0x2000), (24, 8, 1)], (headState 3 (recOf 1023 [(0, 1, 0x41), (4, 2, 799), (6, 1, 3), (16, 8, 0x2000), (24, 8, 1)])), by decide +kernel⟩
  · exact ⟨{ ctx := 1023 }, Config.hostBase, 0, 1, up, by decide +kernel⟩

theorem witness_WatchedWaits :
    (∃ n : Nat, ∃ e : Nat, ∃ c : Nat, ∃ w : Waiting, ∃ s : State, (n < 800) ∧ (e < 4) ∧ (c < 1024) ∧ (findWait (s.core n) e c = some w) ∧ (w.fault = 0) ∧ (w.met = true)) ∧
    (∃ n : Nat, ∃ e : Nat, ∃ c : Nat, ∃ w : Waiting, ∃ s : State, (n < 800) ∧ (e < 4) ∧ (c < 1024) ∧ (findWait (s.core n) e c = some w) ∧ (waitTimeout w.rec'.bytes ≠ 0) ∧ (w.start.toNat + 1000 * waitTimeout w.rec'.bytes ≤ s.time.toNat)) ∧
    (∃ n : Nat, ∃ e : Nat, ∃ c : Nat, ∃ w : Waiting, ∃ s : State, (n < 800) ∧ (e < 4) ∧ (c < 1024) ∧ (findWait (s.core n) e c = some w) ∧ (waitTimeout w.rec'.bytes = 0 ∨ s.time.toNat < w.start.toNat + 1000 * waitTimeout w.rec'.bytes)) ∧
    (∃ l : List (Nat × Byte), ∃ s : State, ∃ p : Waiting → Bool, ∃ cmd : Instr, (cmd = .pollIntervalExpiry l ∧ s.hub2.polledAt.toNat + 1000 * s.hub2.syncpoll.toNat ≤ s.time.toNat ∧ p = (fun w => decide (w.how = .polled)) ∨ ∃ k, cmd = .lineInvalidation k l ∧ p = (fun w => decide (w.how = .cached) && sigAddr w.rec'.bytes / 64 == k))) ∧
    (∃ l : List (Nat × Byte), ∃ s : State, (s.time.toNat < s.hub2.polledAt.toNat + 1000 * s.hub2.syncpoll.toNat)) := by
  refine ⟨?_, ?_, ?_, ?_, ?_⟩
  · exact ⟨799, 3, 1023, { rec' := recOf 1023 [(0, 1, 0x41), (4, 2, 799), (6, 1, 3), (16, 8, 0x2000)], slot := 31, eng := 3, start := 0, how := .monitored, last := 0, met := true }, { State.reset with cores := [(799, { waits := [{ rec' := recOf 1023 [(0, 1, 0x41), (4, 2, 799), (6, 1, 3), (16, 8, 0x2000)], slot := 31, eng := 3, start := 0, how := .monitored, last := 0, met := true }] })] }, by decide +kernel⟩
  · exact ⟨799, 3, 1023, { rec' := recOf 1023 [(0, 1, 0x41), (4, 2, 799), (6, 1, 3), (12, 4, 1), (16, 8, 0x2000)], slot := 31, eng := 3, start := 0, how := .monitored, last := 0, met := true }, { State.reset with time := 1000, cores := [(799, { waits := [{ rec' := recOf 1023 [(0, 1, 0x41), (4, 2, 799), (6, 1, 3), (12, 4, 1), (16, 8, 0x2000)], slot := 31, eng := 3, start := 0, how := .monitored, last := 0, met := true }] })] }, by decide +kernel⟩
  · exact ⟨799, 3, 1023, { rec' := recOf 1023 [(0, 1, 0x41), (4, 2, 799), (6, 1, 3), (12, 4, 1), (16, 8, 0x2000)], slot := 31, eng := 3, start := 0, how := .monitored, last := 0, met := true }, { State.reset with time := 999, cores := [(799, { waits := [{ rec' := recOf 1023 [(0, 1, 0x41), (4, 2, 799), (6, 1, 3), (12, 4, 1), (16, 8, 0x2000)], slot := 31, eng := 3, start := 0, how := .monitored, last := 0, met := true }] })] }, by decide +kernel⟩
  · refine ⟨[], State.reset, (fun w => decide (w.how = .cached) && sigAddr w.rec'.bytes / 64 == 5), .lineInvalidation 5 [], ?_⟩
    repeat' (first | exact .inr ⟨5, rfl, rfl⟩ | (refine And.intro ?_ ?_) | decide +kernel | (refine And.intro ?_ ?_) | rfl | (intro _) | (dsimp only; decide +kernel))
  · exact ⟨[], { State.reset with hub2 := { polledAt := 1, syncpoll := 1 } }, by decide +kernel⟩

theorem witness_CoreServiceStates :
    (∃ who : Party, ∃ n : Nat, ∃ q : BitVec 2, ∃ s : State, (n < 800) ∧ (Admitted s who .admin)) ∧
    (∃ n : Nat, ∃ s : State, (n < 800) ∧ ((s.core n).req ≠ (s.core n).serv) ∧ ((s.core n).running = [])) ∧
    (∃ n : Nat, ∃ w : Nat, ∃ ws : List Nat, ∃ s : State, (n < 800) ∧ ((s.core n).wback = w :: ws)) ∧
    (∃ n : Nat, ∃ s : State, (n < 800) ∧ (testable s n = true) ∧ ((s.core n).testing = some (s.core n).serv)) ∧
    (∃ n : Nat, ∃ i : Nat, ∃ s : State, (n < 800) ∧ (testable s n = true) ∧ (unitFenced s 1 n = false) ∧ (freeEntry s = some i) ∧ ((s.core n).running = []) ∧ ((s.core n).queues = [])) := by
  refine ⟨?_, ?_, ?_, ?_, ?_⟩
  · refine ⟨.fw, 799, 3, State.reset, ?_⟩
    repeat' (first | decide +kernel | (refine And.intro ?_ ?_) | rfl | (intro _) | (dsimp only; decide +kernel))
  · exact ⟨799, { State.reset with cores := [(799, { req := 2 })] }, by decide +kernel⟩
  · exact ⟨799, 131071, [], { State.reset with cores := [(799, { wback := [131071] })] }, by decide +kernel⟩
  · exact ⟨799, { State.reset with sec := { booted := true }, cores := [(799, { serv := 2, req := 2, testing := some 2 })] }, by decide +kernel⟩
  · exact ⟨799, 15, { State.reset with sec := { booted := true }, cores := [(799, { serv := 2, req := 2, testing := some 2 })], hurdles := (List.range 15).map (fun i => (i, { busy := true, kind := 2, target := BitVec.ofNat 32 (i + 1) })) }, by decide +kernel⟩

theorem witness_CoreSlotWrite :
    (∃ who : Party, ∃ n : Nat, ∃ i : Nat, ∃ v : BitVec 64, ∃ s : State, (n < 800) ∧ (i < 32) ∧ (Admitted s who .admin) ∧ (i ≠ 0) ∧ (let x := (s.core n).slot i; (bitsOf v.toNat 48 10 ≠ 0) ∧ (bitOf v.toNat 63 = true) ∧ (x.valid = false) ∧ (x.drain = false) ∧ (∀ j, j < 32 → j ≠ i → ((s.core n).slot j).valid = true ∨ ((s.core n).slot j).drain = true → ((s.core n).slot j).ctx.toNat ≠ bitsOf v.toNat 48 10))) ∧
    (∃ who : Party, ∃ n : Nat, ∃ i : Nat, ∃ v : BitVec 64, ∃ s : State, (n < 800) ∧ (i < 32) ∧ (Admitted s who .admin) ∧ (i = 0 ∨ bitsOf v.toNat 48 10 = 0 ∨ bitOf v.toNat 63 = true ∧ ∃ j, j < 32 ∧ j ≠ i ∧ ((s.core n).slot j).valid = true ∧ ((s.core n).slot j).ctx.toNat = bitsOf v.toNat 48 10)) := by
  refine ⟨?_, ?_⟩
  · refine ⟨.fw, 799, 31, BitVec.ofNat 64 (2 ^ 63 + 1023 * 2 ^ 48), State.reset, ?_⟩
    repeat' (first | decide +kernel | (refine And.intro ?_ ?_) | rfl | (intro _) | (dsimp only; decide +kernel))
  · refine ⟨.fw, 799, 0, 0, State.reset, ?_⟩
    repeat' (first | decide +kernel | (refine And.intro ?_ ?_) | rfl | (intro _) | (dsimp only; decide +kernel))

theorem witness_CreateSetsRegisters :
    (∃ who : Party, ∃ c : Nat, ∃ s : State, (c < 1024) ∧ (c ≠ 0) ∧ (Admitted s who .admin) ∧ (Admitted s who (.ctx c)) ∧ ((s.ctx c).state = 0)) ∧
    (∃ who : Party, ∃ c : Nat, ∃ v : BitVec 64, ∃ s : State, (c < 1024) ∧ (c ≠ 0) ∧ (Admitted s who .admin) ∧ (Admitted s who (.ctx c)) ∧ (let a := 0x4000000 + 0x1000 * c; ((s.ctx c).state = 0))) ∧
    (∃ who : Party, ∃ c : Nat, ∃ v : BitVec 64, ∃ s : State, (c < 1024) ∧ (c ≠ 0) ∧ (Admitted s who .admin) ∧ (Admitted s who (.ctx c)) ∧ (let a := 0x4000000 + 0x1000 * c; ((s.ctx c).state ≠ 0))) := by
  refine ⟨?_, ?_, ?_⟩
  · refine ⟨.fw, 1023, State.reset, ?_⟩
    repeat' (first | decide +kernel | (refine And.intro ?_ ?_) | rfl | (intro _) | (dsimp only; decide +kernel))
  · refine ⟨.fw, 1023, 0, State.reset, ?_⟩
    repeat' (first | decide +kernel | (refine And.intro ?_ ?_) | rfl | (intro _) | (dsimp only; decide +kernel))
  · refine ⟨.fw, 1023, 0, { State.reset with ctxs := [(1023, { state := 1 })] }, ?_⟩
    repeat' (first | decide +kernel | (refine And.intro ?_ ?_) | rfl | (intro _) | (dsimp only; decide +kernel))

theorem witness_ContextLifecycle :
    (∃ who : Party, ∃ c : Nat, ∃ s : State, (c < 1024) ∧ (c ≠ 0) ∧ (Admitted s who .admin) ∧ (Admitted s who (.ctx c)) ∧ ((s.ctx c).state = 0)) ∧
    (∃ who : Party, ∃ c : Nat, ∃ s : State, (c < 1024) ∧ (Admitted s who .admin) ∧ (Admitted s who (.ctx c)) ∧ (c = 0 ∨ (s.ctx c).state ≠ 0)) ∧
    (∃ who : Party, ∃ c : Nat, ∃ s : State, (c < 1024) ∧ (c ≠ 0) ∧ (Admitted s who .admin) ∧ (Admitted s who (.ctx c)) ∧ ((s.ctx c).state = 1)) ∧
    (∃ c : Nat, ∃ s : State, (c < 1024) ∧ (c ≠ 0) ∧ ((s.ctx c).state = 2) ∧ (ctxQuiet s c = true)) := by
  refine ⟨?_, ?_, ?_, ?_⟩
  · refine ⟨.fw, 1023, State.reset, ?_⟩
    repeat' (first | decide +kernel | (refine And.intro ?_ ?_) | rfl | (intro _) | (dsimp only; decide +kernel))
  · refine ⟨.fw, 0, State.reset, ?_⟩
    repeat' (first | decide +kernel | (refine And.intro ?_ ?_) | rfl | (intro _) | (dsimp only; decide +kernel))
  · refine ⟨.fw, 1023, { State.reset with ctxs := [(1023, { state := 1 })] }, ?_⟩
    repeat' (first | decide +kernel | (refine And.intro ?_ ?_) | rfl | (intro _) | (dsimp only; decide +kernel))
  · exact ⟨1023, { State.reset with ctxs := [(1023, { state := 2 })] }, by decide +kernel⟩

theorem witness_Serving :
    (∃ who : Party, ∃ c : Nat, ∃ v : BitVec 64, ∃ s : State, (c < 1024) ∧ (Admitted s who (.ctx c)) ∧ ((s.ctx c).requests.length ≤ 8192)) ∧
    (∃ c : Nat, ∃ q : Request, ∃ s : State, (c < 1024) ∧ ((s.ctx c).state = 1) ∧ ((s.ctx c).kind = 1) ∧ (ctxFenced s c = false) ∧ (fwServes s c = true) ∧ ((s.ctx c).reqs = []) ∧ ((s.ctx c).requests = [q]) ∧ (q.read < rqPromptLen q.rec'.bytes) ∧ (let k := min q.chunk (rqPromptLen q.rec'.bytes - q.read); (k ≤ (s.ctx c).tokbud.toNat) ∧ (devFault s (rqPrompt q.rec'.bytes + 4 * q.read) (4 * k) = none) ∧ (q.read + k < rqPromptLen q.rec'.bytes ∨ rqMaxNew q.rec'.bytes ≠ 0))) := by
  refine ⟨?_, ?_⟩
  · refine ⟨.fw, 1023, 0, State.reset, ?_⟩
    repeat' (first | decide +kernel | (refine And.intro ?_ ?_) | rfl | (intro _) | (dsimp only; decide +kernel))
  · exact ⟨1023, { rec' := recOf 1023 [(8, 4, 512)], slot0 := true, slotA := false, gen := 0, chunk := 256, read := 0, tokens := 0 }, { State.reset with sec := { booted := true }, ctxs := [(1023, { state := 1, kind := 1, requests := [{ rec' := recOf 1023 [(8, 4, 512)], slot0 := true, slotA := false, gen := 0, chunk := 256, read := 0, tokens := 0 }] })] }, by decide +kernel⟩

theorem witness_Hurdles :
    (∃ who : Party, ∃ i : Nat, ∃ kind : BitVec 3, ∃ target : BitVec 32, ∃ s : State, (i < 16) ∧ (Admitted s who .hub) ∧ ((s.hurdle i).busy = false) ∧ (targetOk who kind.toNat target.toNat = true) ∧ (hurdled s kind.toNat target.toNat = false)) ∧
    (∃ i : Nat, ∃ s : State, (i < 16) ∧ ((s.hurdle i).busy = true) ∧ ((s.hurdle i).quiesced = false) ∧ ((s.hurdle i).lifting = false) ∧ (partyQuiet s (s.hurdle i).kind.toNat (s.hurdle i).target.toNat = true)) ∧
    (∃ who : Party, ∃ i : Nat, ∃ s : State, (i < 16) ∧ (Admitted s who .hub) ∧ ((s.hurdle i).busy = true) ∧ ((s.hurdle i).quiesced = true) ∧ (s.hub2.wanted = [])) ∧
    (∃ who : Party, ∃ i : Nat, ∃ s : State, (i < 16) ∧ (Admitted s who .hub) ∧ ((s.hurdle i).busy = true) ∧ ((s.hurdle i).quiesced = false)) ∧
    (∃ who : Party, ∃ i : Nat, ∃ kind : BitVec 3, ∃ target : BitVec 32, ∃ s : State, (i < 16) ∧ (Admitted s who .hub) ∧ ((s.hurdle i).busy = true)) ∧
    (∃ who : Party, ∃ i : Nat, ∃ kind : BitVec 3, ∃ target : BitVec 32, ∃ s : State, (i < 16) ∧ (Admitted s who .hub) ∧ ((s.hurdle i).busy = false) ∧ (targetOk who kind.toNat target.toNat = false)) ∧
    (∃ who : Party, ∃ i : Nat, ∃ kind : BitVec 3, ∃ target : BitVec 32, ∃ s : State, (i < 16) ∧ (Admitted s who .hub) ∧ ((s.hurdle i).busy = false) ∧ (targetOk who kind.toNat target.toNat = true) ∧ (hurdled s kind.toNat target.toNat = true)) ∧
    (∃ who : Party, ∃ i : Nat, ∃ kind : BitVec 3, ∃ target : BitVec 32, ∃ s : State, (i < 16) ∧ (Admitted s who .hub) ∧ ((s.hurdle i).busy = false)) := by
  refine ⟨?_, ?_, ?_, ?_, ?_, ?_, ?_, ?_⟩
  · refine ⟨.fw, 15, 1, BitVec.ofNat 32 (799 + 65536 * 1023), State.reset, ?_⟩
    repeat' (first | decide +kernel | (refine And.intro ?_ ?_) | rfl | (intro _) | (dsimp only; decide +kernel))
  · exact ⟨15, { State.reset with hurdles := [(15, { busy := true, kind := 1, target := BitVec.ofNat 32 (799 + 65536 * 1023) })] }, by decide +kernel⟩
  · refine ⟨.fw, 15, { State.reset with hurdles := [(15, { busy := true, quiesced := true, kind := 1, target := BitVec.ofNat 32 (799 + 65536 * 1023) })] }, ?_⟩
    repeat' (first | decide +kernel | (refine And.intro ?_ ?_) | rfl | (intro _) | (dsimp only; decide +kernel))
  · refine ⟨.fw, 15, { State.reset with hurdles := [(15, { busy := true, kind := 1, target := BitVec.ofNat 32 (799 + 65536 * 1023) })] }, ?_⟩
    repeat' (first | decide +kernel | (refine And.intro ?_ ?_) | rfl | (intro _) | (dsimp only; decide +kernel))
  · refine ⟨.fw, 15, 1, 0, { State.reset with hurdles := [(15, { busy := true, kind := 1, target := BitVec.ofNat 32 (799 + 65536 * 1023) })] }, ?_⟩
    repeat' (first | decide +kernel | (refine And.intro ?_ ?_) | rfl | (intro _) | (dsimp only; decide +kernel))
  · refine ⟨.fw, 15, 7, 0, State.reset, ?_⟩
    repeat' (first | decide +kernel | (refine And.intro ?_ ?_) | rfl | (intro _) | (dsimp only; decide +kernel))
  · refine ⟨.fw, 15, 1, BitVec.ofNat 32 (799 + 65536 * 1023), { State.reset with hurdles := [(14, { busy := true, kind := 1, target := BitVec.ofNat 32 (799 + 65536 * 1023) })] }, ?_⟩
    repeat' (first | decide +kernel | (refine And.intro ?_ ?_) | rfl | (intro _) | (dsimp only; decide +kernel))
  · refine ⟨.fw, 15, 0, 0, State.reset, ?_⟩
    repeat' (first | decide +kernel | (refine And.intro ?_ ?_) | rfl | (intro _) | (dsimp only; decide +kernel))

theorem witness_FoldsAndSyncs :
    (∃ who : Party, ∃ f : FoldId, ∃ v : BitVec 64, ∃ s : State, (f.ok = true) ∧ (Admitted s who (foldArea f)) ∧ (∀ x ∈ s.folds, x.1 ≠ foldKey f → x.2.valid = true → x.2.addr.toNat ≠ bitsOf v.toNat 6 42)) ∧
    (∃ who : Party, ∃ d : Nat, ∃ f : Nat, ∃ high : Bool, ∃ v : BitVec 64, ∃ s : State, (d < 8) ∧ (f < 64) ∧ (Admitted s who .admin) ∧ ((s.fold (foldKey (.die d f))).valid = false)) ∧
    (∃ k : Nat, ∃ ctx : Nat, ∃ core : Nat, ∃ s : State, (k < 512) ∧ (core < 800) ∧ ((s.fold k).ctx.toNat = ctx) ∧ ((s.fold k).mask.getLsbD (core % 100) = true) ∧ (core / 100 = k / 64) ∧ ((s.fold k).arr.getLsbD (core % 100) = false) ∧ (∃ i, i ≠ core % 100 ∧ (s.fold k).mask.getLsbD i = true ∧ (s.fold k).arr.getLsbD i = false)) ∧
    (∃ k : Nat, ∃ ctx : Nat, ∃ core : Nat, ∃ s : State, (k < 512) ∧ (core < 800) ∧ ((s.fold k).ctx.toNat = ctx) ∧ ((s.fold k).mask.getLsbD (core % 100) = false ∨ core / 100 ≠ k / 64)) ∧
    (∃ f : Nat, ∃ ph : BitVec 48, ∃ s : State, (f < 256) ∧ ((s.fold (512 + f)).valid = true) ∧ ((s.fold (512 + f)).sentPh = some ph)) ∧
    (∃ p : Nat, ∃ k : FabPkt, ∃ s : State, ∃ s1 : State, (p < 32) ∧ (takeFront s p 0x21 = some (k, s1)) ∧ (let f := 512 + bitsOf k.addr.toNat 0 8; (let r := k.src.toNat; (rankFenced s1 r = true)))) ∧
    (∃ p : Nat, ∃ k : FabPkt, ∃ s : State, ∃ s1 : State, (p < 32) ∧ (takeFront s p 0x21 = some (k, s1)) ∧ (let f := 512 + bitsOf k.addr.toNat 0 8; (let r := k.src.toNat; (rankFenced s1 r = false) ∧ ((s.fold f).valid = true) ∧ ((s.fold f).mask.getLsbD r = true) ∧ (BitVec.ofNat 48 (bitsOf k.addr.toNat 8 48) = BitVec.ofNat 48 (foldPhase s f).toNat) ∧ (∃ i, i ≠ r ∧ (s.fold f).mask.getLsbD i = true ∧ (s.fold f).arr.getLsbD i = false)))) ∧
    (∃ p : Nat, ∃ k : FabPkt, ∃ s : State, ∃ s1 : State, (p < 32) ∧ (takeFront s p 0x21 = some (k, s1)) ∧ (let f := 512 + bitsOf k.addr.toNat 0 8; (let r := k.src.toNat; (rankFenced s1 r = false) ∧ ((s.fold f).valid = true) ∧ ((s.fold f).mask.getLsbD r = true) ∧ (BitVec.ofNat 48 (bitsOf k.addr.toNat 8 48) = BitVec.ofNat 48 (foldPhase s f).toNat + 1)))) ∧
    (∃ p : Nat, ∃ k : FabPkt, ∃ s : State, ∃ s1 : State, (p < 32) ∧ (takeFront s p 0x21 = some (k, s1)) ∧ (let f := 512 + bitsOf k.addr.toNat 0 8; (let r := k.src.toNat; (rankFenced s1 r = false) ∧ ((s.fold f).mask.getLsbD r = false)))) := by
  refine ⟨?_, ?_, ?_, ?_, ?_, ?_, ?_, ?_, ?_⟩
  · refine ⟨.fw, .die 7 63, 128, { State.reset with folds := [(3, { valid := true, addr := 1 })] }, ?_⟩
    repeat' (first | decide +kernel | (refine And.intro ?_ ?_) | rfl | (intro _) | (dsimp only; decide +kernel))
  · refine ⟨.fw, 7, 63, true, 0, State.reset, ?_⟩
    repeat' (first | decide +kernel | (refine And.intro ?_ ?_) | rfl | (intro _) | (dsimp only; decide +kernel))
  · refine ⟨511, 1023, 799, { State.reset with folds := [(511, { valid := true, ctx := 1023, mask := BitVec.ofNat 100 (2 ^ 99 + 1) })] }, ?_⟩
    repeat' (first | exact ⟨0, by decide +kernel⟩ | (refine And.intro ?_ ?_) | decide +kernel | (refine And.intro ?_ ?_) | rfl | (intro _) | (dsimp only; decide +kernel))
  · exact ⟨511, 1023, 799, { State.reset with folds := [(511, { valid := true, ctx := 1023, mask := 1 })] }, by decide +kernel⟩
  · exact ⟨255, 0, { State.reset with folds := [(767, { valid := true, sentPh := some 0 })] }, by decide +kernel⟩
  · exact ⟨31, pktOf 0x21 1 (255), onPort 31 (pktOf 0x21 1 (255)) { State.reset with hurdles := [(0, { busy := true, kind := 4, target := 1 })] }, (onPort 31 (pktOf 0x21 1 (255)) { State.reset with hurdles := [(0, { busy := true, kind := 4, target := 1 })] }).modOport 31 (fun o => { o with ready := [] }), by decide +kernel⟩
  · refine ⟨31, pktOf 0x21 1 (255), onPort 31 (pktOf 0x21 1 (255)) { State.reset with folds := [(767, { valid := true, mask := 6 })] }, (onPort 31 (pktOf 0x21 1 (255)) { State.reset with folds := [(767, { valid := true, mask := 6 })] }).modOport 31 (fun o => { o with ready := [] }), ?_⟩
    repeat' (first | exact ⟨2, by decide +kernel⟩ | (refine And.intro ?_ ?_) | decide +kernel | (refine And.intro ?_ ?_) | rfl | (intro _) | (dsimp only; decide +kernel))
  · exact ⟨31, pktOf 0x21 1 (255 + 256), onPort 31 (pktOf 0x21 1 (255 + 256)) { State.reset with folds := [(767, { valid := true, mask := 6 })] }, (onPort 31 (pktOf 0x21 1 (255 + 256)) { State.reset with folds := [(767, { valid := true, mask := 6 })] }).modOport 31 (fun o => { o with ready := [] }), by decide +kernel⟩
  · exact ⟨31, pktOf 0x21 1 (255), onPort 31 (pktOf 0x21 1 (255)) { State.reset with folds := [(767, { valid := true, mask := 4 })] }, (onPort 31 (pktOf 0x21 1 (255)) { State.reset with folds := [(767, { valid := true, mask := 4 })] }).modOport 31 (fun o => { o with ready := [] }), by decide +kernel⟩

theorem witness_HostLinks :
    (∃ port : Party, ∃ mode : BitVec 2, ∃ speed : BitVec 3, ∃ width : BitVec 5, ∃ s : State, (port.isPort = true) ∧ (s.hub.phase = .running) ∧ (mode = 1 ∨ mode = 2)) ∧
    (∃ port : Party, ∃ s : State, (port.isPort = true)) ∧
    (∃ who : Party, ∃ port : Party, ∃ v : BitVec 64, ∃ s : State, (port.isPort = true) ∧ (Admitted s who .admin)) ∧
    (∃ w : Nat, ∃ s : State, (w < 16) ∧ (tget winDef s.windows w ≠ winNow s w)) := by
  refine ⟨?_, ?_, ?_, ?_⟩
  · exact ⟨.portB, 2, 5, 16, State.reset, by decide +kernel⟩
  · exact ⟨.portB, State.reset, by decide +kernel⟩
  · refine ⟨.fw, .portB, 127, State.reset, ?_⟩
    repeat' (first | decide +kernel | (refine And.intro ?_ ?_) | rfl | (intro _) | (dsimp only; decide +kernel))
  · exact ⟨15, { State.reset with windows := [(15, 2)] }, by decide +kernel⟩

theorem witness_Bar2Accesses :
    (∃ port : Party, ∃ off : Nat, ∃ s : State, (port.isPort = true) ∧ (let p := portNum port; (let a := (s.hp p).hdm.toNat * 2 ^ 28 + off; ((s.hp p).mode ≠ 0) ∧ (s.hub.phase = .running) ∧ (hurdled s 3 p = false) ∧ (rangeReady s = true) ∧ (∃ len, (0 < len) ∧ (off + len ≤ 2 ^ 40) ∧ (bar2Allowed s p a len false = true))))) ∧
    (∃ port : Party, ∃ off : Nat, ∃ s : State, (port.isPort = true) ∧ (let p := portNum port; (let a := (s.hp p).hdm.toNat * 2 ^ 28 + off; ((s.hp p).mode ≠ 0) ∧ (s.hub.phase = .running) ∧ (hurdled s 3 p = false) ∧ (rangeReady s = true) ∧ (∃ bs : List Byte, (bs ≠ []) ∧ (off + bs.length ≤ 2 ^ 40) ∧ (bar2Allowed s p a bs.length true = true) ∧ (hitsSealed s a bs.length = false) ∧ (Backed s a bs.length))))) ∧
    (∃ port : Party, ∃ off : Nat, ∃ len : Nat, ∃ s : State, (port.isPort = true) ∧ (0 < len) ∧ (off + len ≤ 2 ^ 40) ∧ (s.hub.phase = .running) ∧ (let p := portNum port; (let a := (s.hp p).hdm.toNat * 2 ^ 28 + off; ((s.hp p).mode ≠ 0) ∧ (hurdled s 3 p = true)))) ∧
    (∃ port : Party, ∃ off : Nat, ∃ len : Nat, ∃ s : State, (port.isPort = true) ∧ (0 < len) ∧ (off + len ≤ 2 ^ 40) ∧ (s.hub.phase = .running) ∧ (let p := portNum port; (let a := (s.hp p).hdm.toNat * 2 ^ 28 + off; ((s.hp p).mode ≠ 0) ∧ (hurdled s 3 p = false) ∧ (bar2Allowed s p a len false = false)))) ∧
    (∃ port : Party, ∃ off : Nat, ∃ len : Nat, ∃ s : State, (port.isPort = true) ∧ (0 < len) ∧ (off + len ≤ 2 ^ 40) ∧ (s.hub.phase = .running) ∧ (let p := portNum port; (let a := (s.hp p).hdm.toNat * 2 ^ 28 + off; ((s.hp p).mode ≠ 0) ∧ (hurdled s 3 p = false) ∧ (bar2Allowed s p a len false = true) ∧ (rangeReady s = false)))) := by
  refine ⟨?_, ?_, ?_, ?_, ?_⟩
  · refine ⟨.portA, 2 ^ 40 - 1, { portUpA with mports := (List.range 16).map (fun m => (m, { init := true })) }, ?_⟩
    repeat' (first | decide +kernel | (refine And.intro ?_ ?_) | rfl | (intro _) | (dsimp only; decide +kernel) | (refine ⟨1, ?_⟩))
  · refine ⟨.portA, 2 ^ 40 - 1, { portUpA with mports := (List.range 16).map (fun m => (m, { init := true })) }, ?_⟩
    repeat' (first | decide +kernel | (refine And.intro ?_ ?_) | rfl | (intro _) | (dsimp only; decide +kernel) | (refine ⟨[7], ?_⟩))
  · exact ⟨.portA, 2 ^ 40 - 1, 1, { portUpA with hurdles := [(0, { busy := true, kind := 3, target := 0 })] }, by decide +kernel⟩
  · exact ⟨.portB, 2 ^ 40 - 1, 1, { State.reset with hps := [(1, { mode := 1 })] }, by decide +kernel⟩
  · exact ⟨.portA, 2 ^ 40 - 1, 1, portUpA, by decide +kernel⟩

theorem witness_GateSemaphores :
    (∃ who : Party, ∃ i : Nat, ∃ ctx : BitVec 10, ∃ lease : BitVec 12, ∃ s : State, (i < 64) ∧ (Admitted s who .all) ∧ ((s.gate i).state = 0)) ∧
    (∃ who : Party, ∃ i : Nat, ∃ ctx : BitVec 10, ∃ lease : BitVec 12, ∃ s : State, (i < 64) ∧ (Admitted s who .all) ∧ ((s.gate i).state = 1 ∨ (s.gate i).state = 2 ∧ ownerFenced s (s.gate i) = false)) ∧
    (∃ who : Party, ∃ i : Nat, ∃ ctx : BitVec 10, ∃ key : BitVec 16, ∃ s : State, (i < 64) ∧ (Admitted s who .all) ∧ ((s.gate i).state ≠ 0) ∧ ((s.gate i).owner = partyCode who) ∧ ((s.gate i).octx = actingCtx who ctx) ∧ (key = (s.gate i).token)) ∧
    (∃ who : Party, ∃ i : Nat, ∃ ctx : BitVec 10, ∃ key : BitVec 16, ∃ s : State, (i < 64) ∧ (Admitted s who .all) ∧ ((s.gate i).state ≠ 0) ∧ ((s.gate i).owner = partyCode who) ∧ ((s.gate i).octx = actingCtx who ctx) ∧ (key = (s.gate i).token)) ∧
    (∃ who : Party, ∃ i : Nat, ∃ ctx : BitVec 10, ∃ key : BitVec 16, ∃ s : State, (i < 64) ∧ (Admitted s who .all) ∧ ((s.gate i).state = 0 ∨ (s.gate i).owner ≠ partyCode who)) ∧
    (∃ i : Nat, ∃ s : State, (i < 64) ∧ ((s.gate i).state = 1) ∧ ((s.gate i).lease ≠ 0) ∧ ((s.gate i).since.toNat + (s.gate i).lease.toNat * 1000000 ≤ s.time.toNat)) := by
  refine ⟨?_, ?_, ?_, ?_, ?_, ?_⟩
  · refine ⟨.fw, 63, 1023, 4095, State.reset, ?_⟩
    repeat' (first | decide +kernel | (refine And.intro ?_ ?_) | rfl | (intro _) | (dsimp only; decide +kernel))
  · refine ⟨.fw, 63, 1023, 4095, { State.reset with gates := [(63, { state := 1 })] }, ?_⟩
    repeat' (first | decide +kernel | (refine And.intro ?_ ?_) | rfl | (intro _) | (dsimp only; decide +kernel))
  · refine ⟨.fw, 63, 1, 7, { State.reset with gates := [(63, { state := 1, owner := 3, octx := 1, token := 7 })] }, ?_⟩
    repeat' (first | decide +kernel | (refine And.intro ?_ ?_) | rfl | (intro _) | (dsimp only; decide +kernel))
  · refine ⟨.fw, 63, 1, 7, { State.reset with gates := [(63, { state := 1, owner := 3, octx := 1, token := 7 })] }, ?_⟩
    repeat' (first | decide +kernel | (refine And.intro ?_ ?_) | rfl | (intro _) | (dsimp only; decide +kernel))
  · refine ⟨.fw, 63, 1, 7, { State.reset with gates := [(63, { state := 1, owner := 1 })] }, ?_⟩
    repeat' (first | decide +kernel | (refine And.intro ?_ ?_) | rfl | (intro _) | (dsimp only; decide +kernel))
  · exact ⟨63, { State.reset with gates := [(63, { state := 1, lease := 1 })], time := 1000000 }, by decide +kernel⟩

theorem witness_WritesOutsideRights :
    (∃ who : Party, ∃ a : RegArea, ∃ s : State, ∃ c : Instr, ((a = .admin ∧ (c = .stage who ∨ c = .apply who ∨ c = .abort who ∨ c = .persist who ∨ (∃ n q, c = .coreStateReq who n q) ∨ (∃ n i v, c = .coreSlot who n i v) ∨ (∃ p v, c = .hpxHdm who p v) ∨ ∃ m v, c = .mpRelease who m v)) ∨ (a = .hub ∧ ((∃ i k g, c = .raise who i k g) ∨ (∃ i, c = .lift who i) ∨ c = .attest who ∨ c = .cert who ∨ c = .fwverify who ∨ (∃ i, c = .enrol who i) ∨ (∃ i, c = .revoke who i) ∨ c = .fusesvn who ∨ c = .openDebug who ∨ c = .program who ∨ (∃ m, c = .pulse who m) ∨ ∃ g, c = .activate who g)) ∨ (∃ x, a = .ctx x ∧ ((∃ k v, c = .ringEnable who x k v) ∨ (∃ k v, c = .ringDisable who x k v) ∨ (∃ v, c = .ctxServe who x v) ∨ c = .create who x ∨ c = .destroy who x)) ∨ (a = .all ∧ ((∃ i x l, c = .acquire who i x l) ∨ (∃ i x k, c = .release who i x k) ∨ ∃ i x k l, c = .renew who i x k l))) ∧ (Outside s who a)) ∧
    (∃ who : Party, ∃ a : RegArea, ∃ s : State, ∃ c : Instr, ((a = .admin ∧ (c = .stage who ∨ c = .apply who ∨ c = .abort who ∨ c = .persist who ∨ (∃ n q, c = .coreStateReq who n q) ∨ (∃ n i v, c = .coreSlot who n i v) ∨ (∃ p v, c = .hpxHdm who p v) ∨ ∃ m v, c = .mpRelease who m v)) ∨ (a = .hub ∧ ((∃ i k g, c = .raise who i k g) ∨ (∃ i, c = .lift who i) ∨ c = .attest who ∨ c = .cert who ∨ c = .fwverify who ∨ (∃ i, c = .enrol who i) ∨ (∃ i, c = .revoke who i) ∨ c = .fusesvn who ∨ c = .openDebug who ∨ c = .program who ∨ (∃ m, c = .pulse who m) ∨ ∃ g, c = .activate who g)) ∨ (∃ x, a = .ctx x ∧ ((∃ k v, c = .ringEnable who x k v) ∨ (∃ k v, c = .ringDisable who x k v) ∨ (∃ v, c = .ctxServe who x v) ∨ c = .create who x ∨ c = .destroy who x)) ∨ (a = .all ∧ ((∃ i x l, c = .acquire who i x l) ∨ (∃ i x k, c = .release who i x k) ∨ ∃ i x k l, c = .renew who i x k l))) ∧ (partyLive s who = false)) := by
  refine ⟨?_, ?_⟩
  · refine ⟨.portB, .admin, { State.reset with hps := [(1, { mode := 1 })] }, .stage .portB, ?_⟩
    repeat' (first | exact .inl ⟨rfl, .inl rfl⟩ | (refine And.intro ?_ ?_) | decide +kernel | (refine And.intro ?_ ?_) | rfl | (intro _) | (dsimp only; decide +kernel))
  · refine ⟨.portA, .admin, State.reset, .stage .portA, ?_⟩
    repeat' (first | exact .inl ⟨rfl, .inl rfl⟩ | (refine And.intro ?_ ?_) | decide +kernel | (refine And.intro ?_ ?_) | rfl | (intro _) | (dsimp only; decide +kernel))

theorem witness_AccessSizes :
    (∃ who : Party, ∃ o : Nat, ∃ n : Nat, ∃ p : Nat, ∃ v : BitVec 64, ∃ s : State, (partyLive s who = true) ∧ (partyPort who = some p) ∧ (o < 2 ^ 28) ∧ (n ≠ 4 ∧ n ≠ 8 ∨ o % n ≠ 0)) ∧
    (∃ who : Party, ∃ o : Nat, ∃ n : Nat, ∃ v : BitVec 64, ∃ s : State, (2 ^ 28 ≤ o)) := by
  refine ⟨?_, ?_⟩
  · exact ⟨.portA, 2 ^ 28 - 1, 8, 0, 0, portUpA, by decide +kernel⟩
  · exact ⟨.portA, 2 ^ 28, 8, 0, portUpA, by decide +kernel⟩

theorem witness_ResetBegins :
    ∃ s : State, ∃ cmd : Instr, ∃ cause : Nat, (s.hub.phase = .running) ∧ ((cmd = .pwrfail ∧ cause = 1) ∨ (cmd = .pin ∧ cause = 2) ∨ (cmd = .vin ∧ cause = 4) ∨ ((∃ g, g < 2 ∧ cmd = .stageFault g) ∧ cause = 5) ∨ (cmd = .refloss ∧ cause = 6)) := by
  refine ⟨State.reset, .refloss, 6, ?_⟩
  repeat' (first | exact .inr (.inr (.inr (.inr ⟨rfl, rfl⟩))) | (refine And.intro ?_ ?_) | decide +kernel | (refine And.intro ?_ ?_) | rfl | (intro _) | (dsimp only; decide +kernel))

theorem witness_ResetEnds :
    (∃ g : Nat, ∃ s : State, (g < 2)) ∧
    (∃ s : State, (s.hub.phase = .off) ∧ (railsGood s = true)) ∧
    (∃ s : State, (s.hub.phase = .inReset) ∧ (s.hub.lock ≠ 0x3F)) ∧
    (∃ s : State, (s.hub.phase = .inReset) ∧ (s.hub.since.toNat + 1000000 ≤ s.time.toNat) ∧ (railsGood s = true) ∧ (s.pwr.cool85 = true) ∧ (s.hub.lock = 0x3F) ∧ (s.hub.optDone = true)) ∧
    (∃ s : State, (s.hub.phase = .released) ∧ (s.hub.since.toNat + 100000 ≤ s.time.toNat)) ∧
    (∃ s : State, (s.time.toNat < s.hub.since.toNat + 1000000 ∨ railsGood s = false ∨ s.pwr.cool85 = false ∨ s.hub.lock ≠ 0x3F)) ∧
    (∃ s : State, (s.time.toNat < s.hub.since.toNat + 100000)) := by
  refine ⟨?_, ?_, ?_, ?_, ?_, ?_, ?_⟩
  · exact ⟨1, State.reset, by decide +kernel⟩
  · exact ⟨{ State.reset with hub := { phase := .off } }, by decide +kernel⟩
  · exact ⟨{ State.reset with hub := { phase := .inReset, lock := 0 } }, by decide +kernel⟩
  · exact ⟨{ State.reset with hub := { phase := .inReset }, time := 1000000 }, by decide +kernel⟩
  · exact ⟨{ State.reset with hub := { phase := .released }, time := 100000 }, by decide +kernel⟩
  · exact ⟨{ State.reset with time := 999999 }, by decide +kernel⟩
  · exact ⟨{ State.reset with time := 99999 }, by decide +kernel⟩

theorem witness_PinsAndPulses :
    (∃ p : Bool, ∃ s : State, (s.hub.phase = .running)) ∧
    (∃ k : Nat, ∃ up : Bool, ∃ s : State, (k < 4) ∧ (s.hub.phase = .running) ∧ (tget dN s.hub2.evtLast k = 0) ∧ (bitsOf (tget d0 s.hub.evtcfg k).toNat 48 2 = 0)) ∧
    (∃ k : Nat, ∃ up : Bool, ∃ s : State, (k < 4) ∧ (s.hub.phase = .running) ∧ (tget dN s.hub2.evtLast k ≠ 0) ∧ (s.time.toNat + 1 < tget dN s.hub2.evtLast k + 100)) ∧
    (∃ who : Party, ∃ m : BitVec 4, ∃ s : State, (Admitted s who .hub)) := by
  refine ⟨?_, ?_, ?_, ?_⟩
  · exact ⟨true, State.reset, by decide +kernel⟩
  · exact ⟨3, true, State.reset, by decide +kernel⟩
  · exact ⟨3, true, { State.reset with hub2 := { evtLast := [(3, 1)] }, time := 99 }, by decide +kernel⟩
  · refine ⟨.fw, 15, State.reset, ?_⟩
    repeat' (first | decide +kernel | (refine And.intro ?_ ?_) | rfl | (intro _) | (dsimp only; decide +kernel))

theorem witness_Throttling :
    (∃ vin : Nat, ∃ iin : Nat, ∃ vbak : Nat, ∃ s : State, (s.hub.phase = .running) ∧ ((limitsOf s s.weave.cur.sects).current < iin) ∧ (iin * 10 ≤ (limitsOf s s.weave.cur.sects).current * 11)) ∧
    (∃ vin : Nat, ∃ iin : Nat, ∃ vbak : Nat, ∃ s : State, (s.hub.phase = .running) ∧ (iin * 100 < 95 * (limitsOf s s.weave.cur.sects).current) ∧ (s.pwr.samples = []) ∧ (vin * iin * 100 < 95 * ((limitsOf s s.weave.cur.sects).power * 1000))) ∧
    (∃ s : State, (10 ≤ s.pwr.belowUs)) ∧
    (∃ d : Nat, ∃ s : State, (d < 8)) ∧
    (∃ d : Nat, ∃ x : Nat, ∃ s : State, (s.hub.phase = .running) ∧ (d < 8) ∧ (95 ≤ x) ∧ (x < 100)) ∧
    (∃ k : Nat, ∃ d : Nat, ∃ x : Nat, ∃ s : State, (s.hub.phase = .running) ∧ (100 ≤ x) ∧ ((k, d) ∈ s.pwr.hotPrev)) ∧
    (∃ k : Nat, ∃ d : Nat, ∃ x : Nat, ∃ s : State, (s.hub.phase = .running) ∧ (100 ≤ x) ∧ ((k, d) ∉ s.pwr.hotPrev)) := by
  refine ⟨?_, ?_, ?_, ?_, ?_, ?_, ?_⟩
  · exact ⟨48, 660, 0, State.reset, by decide +kernel⟩
  · exact ⟨0, 0, 0, State.reset, by decide +kernel⟩
  · exact ⟨{ State.reset with pwr := { belowUs := 10 } }, by decide +kernel⟩
  · exact ⟨7, State.reset, by decide +kernel⟩
  · exact ⟨7, 99, State.reset, by decide +kernel⟩
  · exact ⟨0, 7, 100, { State.reset with pwr := { hotPrev := [(0, 7)] } }, by decide +kernel⟩
  · exact ⟨0, 7, 100, State.reset, by decide +kernel⟩

theorem witness_OptionBytesProgram :
    (∃ who : Party, ∃ s : State, (who ≠ .fw) ∧ (Admitted s who .hub) ∧ (optRanges (optStaged s) = true)) ∧
    (∃ who : Party, ∃ s : State, (who ≠ .fw) ∧ (Admitted s who .hub) ∧ (optRanges (optStaged s) = false)) := by
  refine ⟨?_, ?_⟩
  · refine ⟨.portA, { portUpA with opt := { stage := (List.range 8).map (fun j => (j, BitVec.ofNat 64 (fld optAll (8 * j) 8))) } }, ?_⟩
    repeat' (first | decide +kernel | (refine And.intro ?_ ?_) | rfl | (intro _) | (dsimp only; decide +kernel))
  · refine ⟨.portA, portUpA, ?_⟩
    repeat' (first | decide +kernel | (refine And.intro ?_ ?_) | rfl | (intro _) | (dsimp only; decide +kernel))

theorem witness_FirmwareRunsAndIsReplaced :
    (∃ s : State, (s.hub.phase = .running) ∧ (s.sec.booted = false) ∧ ((bootImage s 8).isSome = false) ∧ ((s.fw 8).running = none)) ∧
    (∃ s : State, (s.sec.booted = true)) ∧
    (∃ who : Party, ∃ g : BitVec 4, ∃ x : FwImage, ∃ y : FwImage, ∃ s : State, (Admitted s who .hub) ∧ (s.hub2.fwState = 0) ∧ (g.toNat ≤ 8) ∧ ((s.fw g.toNat).staged = some x) ∧ ((s.fw g.toNat).running = some y)) ∧
    (∃ s : State, (s.hub2.fwState = 1) ∧ (s.hub2.heldOps = [])) ∧
    (∃ g : Nat, ∃ x : FwImage, ∃ s : State, (g < 9) ∧ ((s.fw g).running = some x) ∧ (s.hub2.fwState = 2) ∧ (s.hub2.fwTarget.toNat = g) ∧ (s.time.toNat < s.hub2.fwSince.toNat + 10000000)) ∧
    (∃ s : State, (s.hub2.fwState ≠ 0) ∧ (s.hub2.fwSince.toNat + 10000000 ≤ s.time.toNat) ∧ (s.hub2.heldOps = [])) ∧
    (∃ g : Nat, ∃ x : FwImage, ∃ s : State, (g < 9) ∧ ((s.fw g).running = some x) ∧ ((s.fw g).report.toNat + 100000000 ≤ s.time.toNat) ∧ (∀ e ∈ s.ctxs, Config.ringServer e.1 % 9 ≠ g)) ∧
    (∃ g : Nat, ∃ x : FwImage, ∃ s : State, (g < 9) ∧ ((s.fw g).running = some x) ∧ (s.hub2.fwState = 0)) := by
  refine ⟨?_, ?_, ?_, ?_, ?_, ?_, ?_, ?_⟩
  · exact ⟨State.reset, by decide +kernel⟩
  · exact ⟨{ State.reset with sec := { booted := true } }, by decide +kernel⟩
  · refine ⟨.fw, 8, ⟨2, [], []⟩, ⟨1, [], []⟩, { State.reset with sec := { fw := [(8, { staged := some ⟨2, [], []⟩, running := some ⟨1, [], []⟩ })] } }, ?_⟩
    repeat' (first | decide +kernel | (refine And.intro ?_ ?_) | rfl | (intro _) | (dsimp only; decide +kernel))
  · exact ⟨{ State.reset with hub2 := { fwState := 1, fwTarget := 8 } }, by decide +kernel⟩
  · exact ⟨8, ⟨1, [], []⟩, { State.reset with hub2 := { fwState := 2, fwTarget := 8 }, time := 9999999, sec := { fw := [(8, { running := some ⟨1, [], []⟩ })] } }, by decide +kernel⟩
  · exact ⟨{ State.reset with hub2 := { fwState := 2, fwTarget := 8 }, time := 10000000 }, by decide +kernel⟩
  · refine ⟨8, ⟨1, [], []⟩, { State.reset with time := 100000000, sec := { fw := [(8, { running := some ⟨1, [], []⟩ })] } }, ?_⟩
    repeat' (first | exact fun e h => absurd h List.not_mem_nil | (refine And.intro ?_ ?_) | decide +kernel | (refine And.intro ?_ ?_) | rfl | (intro _) | (dsimp only; decide +kernel))
  · exact ⟨8, ⟨1, [], []⟩, { State.reset with sec := { fw := [(8, { running := some ⟨1, [], []⟩ })] } }, by decide +kernel⟩

theorem witness_SecurityCommands :
    (∃ who : Party, ∃ s : State, (Admitted s who .hub) ∧ (hubHandsOver s = false) ∧ (s.sec.noid = false) ∧ (s.sec.derived = true) ∧ (let b := attestBody s ++ (Config.identitySign (sha256 (attestBody s))).take 64; (hubWriteFault s (secDst s) b.length = none))) ∧
    (∃ who : Party, ∃ s : State, (Admitted s who .hub) ∧ (hubHandsOver s = false) ∧ (s.sec.noid = true)) ∧
    (∃ who : Party, ∃ s : State, (Admitted s who .hub) ∧ (hubHandsOver s = false) ∧ (hubWriteFault s (secDst s) (Config.certificate.take 1024).length = none)) ∧
    (∃ who : Party, ∃ s : State, (Admitted s who .hub) ∧ (hubHandsOver s = false) ∧ (s.sec.st ≠ 2) ∧ (let a := secSrc s; (let n := fwLen (devRead s a 64); (hubReadFault s a 64 = none) ∧ (fwHeaderBad (devRead s a 64) = false) ∧ (hubReadFault s a n = none) ∧ (let m := devRead s a n; ∃ f, (fwCheck s m = some f))))) ∧
    (∃ who : Party, ∃ i : BitVec 5, ∃ s : State, (who ≠ .fw) ∧ (Admitted s who .hub) ∧ (hubHandsOver s = false) ∧ (i.toNat ≤ 19) ∧ (slotKey s i.toNat ≠ [])) ∧
    (∃ who : Party, ∃ i : BitVec 5, ∃ s : State, (Admitted s who .hub) ∧ (hubHandsOver s = false) ∧ (19 < i.toNat ∨ slotKey s i.toNat = []) ∧ (who ≠ .fw)) ∧
    (∃ who : Party, ∃ s : State, (who ≠ .fw) ∧ (Admitted s who .hub) ∧ (optJtag s = true) ∧ (s.sec.openD = false)) := by
  refine ⟨?_, ?_, ?_, ?_, ?_, ?_, ?_⟩
  · refine ⟨.fw, { State.reset with sec := { derived := true } }, ?_⟩
    repeat' (first | (exact hubWriteFault_zero _ _ (by rw [List.length_append, List.length_take]; have := attestBody_short { State.reset with sec := { derived := true } } (by decide +kernel) (by decide +kernel) (by decide +kernel) (by decide +kernel); omega) rfl rfl) | (refine And.intro ?_ ?_) | decide +kernel | (refine And.intro ?_ ?_) | rfl | (intro _) | (dsimp only; decide +kernel))
  · refine ⟨.fw, { State.reset with sec := { noid := true } }, ?_⟩
    repeat' (first | decide +kernel | (refine And.intro ?_ ?_) | rfl | (intro _) | (dsimp only; decide +kernel))
  · refine ⟨.fw, State.reset, ?_⟩
    repeat' (first | (exact hubWriteFault_zero _ _ (by rw [List.length_take]; omega) rfl rfl) | (refine And.intro ?_ ?_) | decide +kernel | (refine And.intro ?_ ?_) | rfl | (intro _) | (dsimp only; decide +kernel))
  · refine ⟨.fw, { State.reset with uni := memAt 0 (fieldsOf 64 [(0, 4, 0x57464853), (4, 2, 1), (6, 1, 8), (8, 4, 192)] ++ List.replicate 127 0 ++ [1]) }, ?_⟩
    repeat' (first | decide +kernel | (refine And.intro ?_ ?_) | rfl | (intro _) | (dsimp only; decide +kernel) | (refine ⟨stDescriptor, ?_⟩))
  · refine ⟨.portA, 19, { portUpA with sec := { keys := [(19, [1])] } }, ?_⟩
    repeat' (first | decide +kernel | (refine And.intro ?_ ?_) | rfl | (intro _) | (dsimp only; decide +kernel))
  · refine ⟨.portA, 20, portUpA, ?_⟩
    repeat' (first | decide +kernel | (refine And.intro ?_ ?_) | rfl | (intro _) | (dsimp only; decide +kernel))
  · refine ⟨.portA, { portUpA with opt := { image := optAll } }, ?_⟩
    repeat' (first | decide +kernel | (refine And.intro ?_ ?_) | rfl | (intro _) | (dsimp only; decide +kernel))

theorem witness_ResetsEmptyTheRings :
    (∃ s : State, ∃ cmd : Instr, (s.hub.phase = .running) ∧ (cmd = .pwrfail ∨ cmd = .pin ∨ cmd = .vin ∨ (∃ g, g < 2 ∧ cmd = .stageFault g) ∨ cmd = .refloss ∨ ∃ k d x, 100 ≤ x ∧ (k, d) ∈ s.pwr.hotPrev ∧ cmd = .temperatureReading [⟨k, d, x⟩])) ∧
    (∃ s : State, (s.hub.phase = .off) ∧ (railsGood s = true)) ∧
    (∃ x : BitVec 64, ∃ s : State, (s.hub2.cntPend = some x) ∧ (x.toNat ≤ s.time.toNat)) := by
  refine ⟨?_, ?_, ?_⟩
  · refine ⟨State.reset, .refloss, ?_⟩
    repeat' (first | exact .inr (.inr (.inr (.inr (.inl rfl)))) | (refine And.intro ?_ ?_) | decide +kernel | (refine And.intro ?_ ?_) | rfl | (intro _) | (dsimp only; decide +kernel))
  · exact ⟨{ State.reset with hub := { phase := .off } }, by decide +kernel⟩
  · exact ⟨0, { State.reset with hub2 := { cntPend := some 0 } }, by decide +kernel⟩

theorem witness_TallyRecords :
    (∃ u : Nat, ∃ r : TallyRec, ∃ s : State, ((s.tally u).fresh = [r]) ∧ ((s.tally u).queue = []) ∧ ((s.tally u).arm = false) ∧ ((s.tally u).triggered = false) ∧ ((s.tally u).lostSince = 0)) ∧
    (∃ who : Party, ∃ u : Nat, ∃ s : State, (Admitted s who (tallyArea u))) ∧
    (∃ s : State, (s.hub2.xtrig = true) ∧ (s.bbx.xin = false)) ∧
    (∃ r : TallyRec, ∃ l : List TallyRec, ∃ s : State, (s.bbx.frozen = false) ∧ (s.bbx.buffer = r :: l) ∧ (s.bbx.lostSince = 0)) ∧
    (∃ s : State, (s.bbx.frozen = true)) ∧
    (∃ who : Party, ∃ s : State, (Admitted s who .admin)) := by
  refine ⟨?_, ?_, ?_, ?_, ?_, ?_⟩
  · exact ⟨0x7FF, { unit := 0x7FF, code := 0x0D0 }, State.reset, by decide +kernel⟩
  · refine ⟨.fw, 0x7FF, State.reset, ?_⟩
    repeat' (first | decide +kernel | (refine And.intro ?_ ?_) | rfl | (intro _) | (dsimp only; decide +kernel))
  · exact ⟨{ State.reset with hub2 := { xtrig := true } }, by decide +kernel⟩
  · exact ⟨{ code := 1 }, [], { State.reset with bbx := { buffer := [{ code := 1 }] } }, by decide +kernel⟩
  · exact ⟨{ State.reset with bbx := { frozen := true } }, by decide +kernel⟩
  · refine ⟨.fw, State.reset, ?_⟩
    repeat' (first | decide +kernel | (refine And.intro ?_ ?_) | rfl | (intro _) | (dsimp only; decide +kernel))

theorem witness_CounterResets :
    (∃ who : Party, ∃ s : State, (Admitted s who .admin) ∧ (s.hub2.cntPend = none)) ∧
    (∃ who : Party, ∃ s : State, ∃ x : BitVec 64, (Admitted s who .admin) ∧ (s.hub2.cntPend = some x)) ∧
    (∃ who : Party, ∃ c : Nat, ∃ cmd : Instr, ∃ s : State, (c < 1024) ∧ (cmd = .contextScopeReset who c ∧ Admitted s who .admin ∨ cmd = .go who c ∧ Admitted s who (.ctx c)) ∧ ((s.ctx c).cntPend = none)) ∧
    (∃ x : BitVec 64, ∃ s : State, (s.hub2.cntPend = some x) ∧ (x.toNat ≤ s.time.toNat)) ∧
    (∃ c : Nat, ∃ x : BitVec 64, ∃ s : State, (c < 1024) ∧ ((s.ctx c).cntPend = some x) ∧ (x.toNat ≤ s.time.toNat)) := by
  refine ⟨?_, ?_, ?_, ?_, ?_⟩
  · refine ⟨.fw, State.reset, ?_⟩
    repeat' (first | decide +kernel | (refine And.intro ?_ ?_) | rfl | (intro _) | (dsimp only; decide +kernel))
  · refine ⟨.fw, { State.reset with hub2 := { cntPend := some 5 } }, 5, ?_⟩
    repeat' (first | decide +kernel | (refine And.intro ?_ ?_) | rfl | (intro _) | (dsimp only; decide +kernel))
  · refine ⟨.fw, 1023, .go .fw 1023, State.reset, ?_⟩
    repeat' (first | exact .inr ⟨rfl, by decide +kernel, by decide +kernel, by decide +kernel⟩ | (refine And.intro ?_ ?_) | decide +kernel | (refine And.intro ?_ ?_) | rfl | (intro _) | (dsimp only; decide +kernel))
  · exact ⟨0, { State.reset with hub2 := { cntPend := some 0 } }, by decide +kernel⟩
  · exact ⟨1023, 0, { State.reset with ctxs := [(1023, { cntPend := some 0 })] }, by decide +kernel⟩

theorem witness_RegistersAndSideInterfaces :
    (∃ who : Party, ∃ v : BitVec 64, ∃ s : State, (Admitted s who .admin)) ∧
    (∃ who : Party, ∃ o : Nat, ∃ v : BitVec 64, ∃ s : State, (Admitted s who .admin) ∧ (0x120000 ≤ o) ∧ (o < 0x200000) ∧ (o % 8 = 0)) ∧
    (∃ ir : Nat, ∃ s : State, (ir ≠ 1) ∧ (ir < 3 ∨ s.sec.openD = false)) ∧
    (∃ ir : Nat, ∃ s : State, (3 ≤ ir) ∧ (s.sec.openD = true)) := by
  refine ⟨?_, ?_, ?_, ?_⟩
  · refine ⟨.fw, 5, State.reset, ?_⟩
    repeat' (first | decide +kernel | (refine And.intro ?_ ?_) | rfl | (intro _) | (dsimp only; decide +kernel))
  · refine ⟨.fw, 0x1FFFF8, 5, State.reset, ?_⟩
    repeat' (first | decide +kernel | (refine And.intro ?_ ?_) | rfl | (intro _) | (dsimp only; decide +kernel))
  · exact ⟨2, State.reset, by decide +kernel⟩
  · exact ⟨3, { State.reset with sec := { openD := true } }, by decide +kernel⟩

theorem witness_MovesKeepContents :
    ∃ s : State, ∃ c : Instr, ((∃ g d, c = .promotion g d) ∨ (∃ g d, c = .tileMove g d) ∨ (∃ h, c = .moveEnd h) ∨ c = .moveIn ∨ c = .moveOut ∨ (∃ m, c = .pinMove m) ∨ (∃ m, c = .scrubRead m) ∨ (∃ k, c = .retirementCopy k) ∨ ∃ m, c = .rangeInitEnd m) := by
  refine ⟨State.reset, .moveIn, ?_⟩
  repeat' (first | exact .inr (.inr (.inr (.inl rfl))) | (refine And.intro ?_ ?_) | decide +kernel | (refine And.intro ?_ ?_) | rfl | (intro _) | (dsimp only; decide +kernel))

theorem witness_PromotionsAndHints :
    (∃ g : Nat, ∃ d : Nat, ∃ s : State, (s.hub.phase = .running) ∧ (d < 8) ∧ (0 < (s.mport (portOf s g)).thresh.toNat) ∧ ((s.mport (portOf s g)).thresh.toNat ≤ (filterEntry s g).1) ∧ ((filterEntry s g).2 = d) ∧ (tilePolicy s g = 0) ∧ (tileBacked s g = true) ∧ (isSram (frameOf s g) = false) ∧ (chanLost s g = false) ∧ (chanFenced s (chanOf s (classOf s g)) = false)) ∧
    (∃ g : Nat, ∃ d : Nat, ∃ x : Nat, ∃ pos : Nat, ∃ s : State, ∃ s' : State, ((g, d) ∈ s.tiers.promos) ∧ (∀ m ∈ s.tiers.moves, m.channel ≠ chanOf s (classOf s g)) ∧ (isSram (frameOf s g) = false) ∧ (tileBacked s g = true) ∧ (tilePolicy s g = 0) ∧ (chanLost s g = false) ∧ (chanFenced s (chanOf s (classOf s g)) = false) ∧ (pinsFirst s g = false) ∧ (let s1 : State := { s with tiers := { s.tiers with promos := s.tiers.promos.erase (g, d) } }; (let k := classOf s1 g; (searchFrom s1 k d (2 * framesPer s1) (tget dN s1.tiers.hands (k * 8 + d)) = some (x, pos, s'))))) ∧
    (∃ h : Nat, ∃ mv : Move, ∃ s : State, (s.tiers.moves.find? (fun m => m.channel == h) = some mv) ∧ ((mv.places.map (·.1)).Nodup)) ∧
    (∃ op : Nat, ∃ cmd : Instr, ∃ h : Hint, ∃ s : State, (op = 0 ∧ cmd = .moveIn ∨ op = 1 ∧ cmd = .moveOut) ∧ (frontHint s op = some h)) ∧
    (∃ h : Hint, ∃ side : Option Nat, ∃ a : Nat, ∃ r : Running, ∃ s : State, (frontHint s 2 = some h) ∧ (h.dst = some (side, a)) ∧ (hintRun s h = some r) ∧ (let bs := (hintTiles h).map (reportByte s); (let w : Wr := { scratch := side, addr := a, bytes := bs }; (w.fault s = none)))) ∧
    (∃ h : Hint, ∃ side : Option Nat, ∃ a : Nat, ∃ r : Running, ∃ s : State, (frontHint s 2 = some h) ∧ (h.dst = some (side, a)) ∧ (hintRun s h = some r) ∧ (let bs := (hintTiles h).map (reportByte s); (let w : Wr := { scratch := side, addr := a, bytes := bs }; ∃ f, (w.fault s = some f)))) ∧
    (∃ h : Hint, ∃ s : State, (frontHint s 2 = some h) ∧ (hintRun s h = none)) := by
  refine ⟨?_, ?_, ?_, ?_, ?_, ?_, ?_⟩
  · exact ⟨0, 7, { State.reset with mports := [(0, { filter := [(0, 2, 7)] })] }, by decide +kernel⟩
  · exact ⟨0, 7, 272105472, 0, { State.reset with tiers := { promos := [(0, 7)] } }, { State.reset with tiers := { hands := [(7, 1)] } }, by decide +kernel⟩
  · exact ⟨255, { channel := 255, places := [(255, .sram 0 0), (511, .lp 0)], inward := 255, outward := 511, retire := none }, { State.reset with tiers := { moves := [{ channel := 255, places := [(255, .sram 0 0), (511, .lp 0)], inward := 255, outward := 511, retire := none }] } }, by decide +kernel⟩
  · exact ⟨1, .moveOut, { op := 1, base := 0, len := 4096, slice := 7, dst := none, owner := none }, { State.reset with tiers := { hints := [{ op := 1, base := 0, len := 4096, slice := 7, dst := none, owner := none }] } }, by decide +kernel⟩
  · exact ⟨{ op := 2, base := 0, len := 4096, slice := 7, dst := some (none, 0x1000), owner := some (799, 9) }, none, 0x1000, runOf 799 2 (recOf 1023 [(0, 1, 0x20)]), { State.reset with tiers := { hints := [{ op := 2, base := 0, len := 4096, slice := 7, dst := some (none, 0x1000), owner := some (799, 9) }] }, cores := [(799, { running := [runOf 799 2 (recOf 1023 [(0, 1, 0x20)])] })] }, by decide +kernel⟩
  · refine ⟨{ op := 2, base := 0, len := 4096, slice := 7, dst := some (none, Config.hostBase), owner := some (799, 9) }, none, Config.hostBase, runOf 799 2 (recOf 1023 [(0, 1, 0x20)]), { State.reset with tiers := { hints := [{ op := 2, base := 0, len := 4096, slice := 7, dst := some (none, Config.hostBase), owner := some (799, 9) }] }, cores := [(799, { running := [runOf 799 2 (recOf 1023 [(0, 1, 0x20)])] })] }, ?_⟩
    repeat' (first | decide +kernel | (refine And.intro ?_ ?_) | rfl | (intro _) | (dsimp only; decide +kernel) | (refine ⟨.link, ?_⟩))
  · exact ⟨{ op := 2, base := 0, len := 4096, slice := 7, dst := none, owner := none }, { State.reset with tiers := { hints := [{ op := 2, base := 0, len := 4096, slice := 7, dst := none, owner := none }] } }, by decide +kernel⟩

theorem witness_PortWork :
    (∃ m : Nat, ∃ x : Nat, ∃ rest : List Nat, ∃ s : State, (m < 16) ∧ ((s.mport m).pinq = x :: rest)) ∧
    (∃ m : Nat, ∃ s : State, (m < 16) ∧ ((s.mport m).interval ≠ 0) ∧ ((s.mport m).init = true) ∧ ((s.mport m).scrubUs + (s.mport m).interval.toNat ≤ usOf s)) ∧
    (∃ m : Nat, ∃ s : State, (m < 16) ∧ (s.hub.phase = .running) ∧ (s.weave.loaded = true) ∧ ((s.mport m).init = false)) ∧
    (∃ k : Nat, ∃ r : Retiring, ∃ s : State, (k < 256) ∧ (s.tiers.retiring.find? (fun r => r.cls == k) = some r) ∧ (topFreed s k = true) ∧ (chanFenced s (chanOf s k) = false)) := by
  refine ⟨?_, ?_, ?_, ?_⟩
  · exact ⟨15, 255, [], { State.reset with mports := [(15, { pinq := [255] })] }, by decide +kernel⟩
  · exact ⟨15, { State.reset with mports := [(15, { init := true })], time := 16000 }, by decide +kernel⟩
  · exact ⟨15, { State.reset with weave := { loaded := true } }, by decide +kernel⟩
  · exact ⟨255, { cls := 255, frame := .lp 0, noted := false }, { State.reset with tiers := { retiring := [{ cls := 255, frame := .lp 0, noted := false }], released := [272629759] } }, by decide +kernel⟩

theorem witness_TileRelease :
    (∃ who : Party, ∃ m : Nat, ∃ v : BitVec 64, ∃ s : State, (m < 16) ∧ (Admitted s who .admin) ∧ (let g := bitsOf v.toNat 12 29; (portOf s g = m) ∧ (tileBacked s g = true) ∧ (g = topTile s (classOf s g)) ∧ (∃ r ∈ s.tiers.retiring, r.cls = classOf s g))) ∧
    (∃ who : Party, ∃ m : Nat, ∃ v : BitVec 64, ∃ s : State, (m < 16) ∧ (Admitted s who .admin) ∧ (let g := bitsOf v.toNat 12 29; (portOf s g ≠ m ∨ tileBacked s g = false ∨ g ≠ topTile s (classOf s g) ∨ (∀ r ∈ s.tiers.retiring, r.cls ≠ classOf s g)))) := by
  refine ⟨?_, ?_⟩
  · refine ⟨.fw, 15, 272629759 * 4096, { State.reset with tiers := { retiring := [{ cls := 255, frame := .lp 0, noted := false }] } }, ?_⟩
    repeat' (first | exact ⟨{ cls := 255, frame := .lp 0, noted := false }, by decide +kernel⟩ | (refine And.intro ?_ ?_) | decide +kernel | (refine And.intro ?_ ?_) | rfl | (intro _) | (dsimp only; decide +kernel))
  · refine ⟨.fw, 15, 0, State.reset, ?_⟩
    repeat' (first | decide +kernel | (refine And.intro ?_ ?_) | rfl | (intro _) | (dsimp only; decide +kernel))

theorem witness_Calibration :
    (∃ cmd : Instr, ∃ q : Nat, ∃ s : State, (q < 4) ∧ ((∃ who, Admitted s who .admin ∧ cmd = .lsRecal who q) ∨ ∃ line, line < 8 ∧ cmd = .lockLoss q line) ∧ (laserRetired (retiredOf s.weave.cur.sects) q = false) ∧ ((s.laser q).calibrating = false)) ∧
    (∃ q : Nat, ∃ line : Nat, ∃ s : State, (q < 4) ∧ (line < 8) ∧ (laserRetired (retiredOf s.weave.cur.sects) q = false) ∧ ((s.laser q).calibrating = true)) ∧
    (∃ who : Party, ∃ p : Nat, ∃ reason : Nat, ∃ cmd : Instr, ∃ s : State, (p < 32) ∧ (Admitted s who .admin) ∧ (cmd = .recal who p ∧ reason = 0 ∨ cmd = .trackingError p ∧ reason = 1 ∨ cmd = .errorRatioTrigger p ∧ reason = 2) ∧ (opMode s p ≠ 0) ∧ ((s.oport p).state ≠ 3) ∧ ((s.oport p).state ≠ 4)) ∧
    (∃ p : Nat, ∃ s : State, (p < 32) ∧ ((s.oport p).state = 3) ∧ ((s.oport p).unacked = []) ∧ (portTrains s p = true) ∧ (∀ e, (s.ce e).inflight = [])) := by
  refine ⟨?_, ?_, ?_, ?_⟩
  · refine ⟨.lsRecal .fw 3, 3, State.reset, ?_⟩
    repeat' (first | exact .inl ⟨.fw, by refine ⟨?_, ?_, ?_⟩ <;> decide +kernel, rfl⟩ | (refine And.intro ?_ ?_) | decide +kernel | (refine And.intro ?_ ?_) | rfl | (intro _) | (dsimp only; decide +kernel))
  · exact ⟨3, 7, { State.reset with lasers := [(3, { calibrating := true })] }, by decide +kernel⟩
  · refine ⟨.fw, 31, 1, .trackingError 31, up, ?_⟩
    repeat' (first | decide +kernel | (refine And.intro ?_ ?_) | rfl | (intro _) | (dsimp only; decide +kernel))
  · refine ⟨31, { up with oports := [(31, { state := 3 })] }, ?_⟩
    repeat' (first | decide +kernel | (refine And.intro ?_ ?_) | rfl | (intro _) | (dsimp only; decide +kernel))

theorem witness_EyeSafetyAndTraining :
    (∃ p : Nat, ∃ line : Nat, ∃ x : BitVec 8, ∃ s : State, (p < 32) ∧ (line < litLines s p) ∧ ((s.oport p).dark = false) ∧ (launchLimit s p + 5 < x.toInt)) ∧
    (∃ who : Party, ∃ p : Nat, ∃ s : State, (p < 32) ∧ (Admitted s who .admin) ∧ ((s.oport p).state = 4) ∧ (∀ e, (s.ce e).inflight = []) ∧ (portTrains s p = true)) ∧
    (∃ who : Party, ∃ p : Nat, ∃ s : State, (p < 32) ∧ (Admitted s who .admin) ∧ ((s.oport p).state = 4) ∧ (∀ e, (s.ce e).inflight = []) ∧ (opMode s p = 0)) ∧
    (∃ who : Party, ∃ p : Nat, ∃ s : State, (p < 32) ∧ (Admitted s who .admin) ∧ (opMode s p ≠ 0) ∧ ((s.oport p).state = 3)) ∧
    (∃ who : Party, ∃ p : Nat, ∃ s : State, (p < 32) ∧ (Admitted s who .admin) ∧ (portTrains s p = true) ∧ ((s.oport p).state ≠ 3) ∧ ((s.oport p).state ≠ 4) ∧ (∀ e, (s.ce e).inflight = []) ∧ (s.accesses = [])) ∧
    (∃ p : Nat, ∃ a : Nat, ∃ b : Nat, ∃ g : Nat, ∃ s : State, (p < 32) ∧ ((s.oport p).state = 1) ∧ (rateOk s p = true) ∧ ((s.oport p).retrain = false) ∧ (opMode s p = 1 ∧ a = (portPlan (opSects s p) p).2 ∧ b = ownRank (opSects s p) ∨ opMode s p = 2)) ∧
    (∃ p : Nat, ∃ a : Nat, ∃ b : Nat, ∃ g : Nat, ∃ s : State, (p < 32) ∧ ((s.oport p).state = 1) ∧ (opMode s p = 1) ∧ (rateOk s p = true) ∧ (a ≠ (portPlan (opSects s p) p).2 ∨ b ≠ ownRank (opSects s p)) ∧ (s.accesses = []) ∧ (∀ e, (s.ce e).inflight = [])) ∧
    (∃ p : Nat, ∃ a : Nat, ∃ b : Nat, ∃ g : Nat, ∃ s : State, (p < 32) ∧ ((s.oport p).state = 1) ∧ (opMode s p ≠ 0) ∧ (rateOk s p = false) ∧ (s.accesses = []) ∧ (∀ e, (s.ce e).inflight = [])) ∧
    (∃ p : Nat, ∃ s : State, (p < 32) ∧ ((s.oport p).state = 0) ∧ ((s.oport p).retryTrain = true) ∧ ((s.oport p).downSince.toNat + 10000000 ≤ s.time.toNat) ∧ (portTrains s p = true)) := by
  refine ⟨?_, ?_, ?_, ?_, ?_, ?_, ?_, ?_, ?_⟩
  · exact ⟨31, 7, 6, { State.reset with oports := [(31, { dark := false })] }, by decide +kernel⟩
  · refine ⟨.fw, 31, { up with oports := [(31, { state := 4 })] }, ?_⟩
    repeat' (first | decide +kernel | (refine And.intro ?_ ?_) | rfl | (intro _) | (dsimp only; decide +kernel))
  · refine ⟨.fw, 31, { State.reset with oports := [(31, { state := 4 })] }, ?_⟩
    repeat' (first | decide +kernel | (refine And.intro ?_ ?_) | rfl | (intro _) | (dsimp only; decide +kernel))
  · refine ⟨.fw, 31, { up with oports := [(31, { state := 3 })] }, ?_⟩
    repeat' (first | decide +kernel | (refine And.intro ?_ ?_) | rfl | (intro _) | (dsimp only; decide +kernel))
  · refine ⟨.fw, 31, up, ?_⟩
    repeat' (first | decide +kernel | (refine And.intro ?_ ?_) | rfl | (intro _) | (dsimp only; decide +kernel))
  · exact ⟨31, 7, 0, 1, { up with oports := [(31, { state := 1 })] }, by decide +kernel⟩
  · refine ⟨31, 6, 0, 1, { up with oports := [(31, { state := 1 })] }, ?_⟩
    repeat' (first | decide +kernel | (refine And.intro ?_ ?_) | rfl | (intro _) | (dsimp only; decide +kernel))
  · refine ⟨31, 7, 0, 1, { up with oports := [(31, { state := 1 })], opt := { image := setFld optAll 14 2 99 } }, ?_⟩
    repeat' (first | decide +kernel | (refine And.intro ?_ ?_) | rfl | (intro _) | (dsimp only; decide +kernel))
  · exact ⟨31, { up with oports := [(31, { retryTrain := true })], time := 10000000 }, by decide +kernel⟩

theorem witness_FabricFrames :
    (∃ p : Nat, ∃ vc : Nat, ∃ f : Frame, ∃ k : FabPkt, ∃ s : State, (p < 32) ∧ (opMode s p = 1) ∧ (linkRuns (s.oport p) = true) ∧ (f.crcOk = true) ∧ (f.seq = (s.oport p).rxSeq) ∧ (f.nak = false) ∧ (f.credit = 0) ∧ ((s.oport p).held = []) ∧ (f.pkts = [k]) ∧ (k.header = .good ∧ k.header1 = .good) ∧ (∀ c ∈ k.checks, c = .good) ∧ (k.sigc0 = .good ∧ k.sigc1 = .good) ∧ (vcOf k.typ.toNat = some vc) ∧ (k.dst.toNat = ownRank (opSects s p)) ∧ (rxWords (s.oport p) vc + pktWords k ≤ vcWords vc) ∧ (bridges s p k = false) ∧ (∀ e, (s.ce e).inflight = [])) ∧
    (∃ p : Nat, ∃ f : Frame, ∃ s : State, (p < 32) ∧ (opMode s p = 1) ∧ (linkRuns (s.oport p) = true) ∧ (f.crcOk = true) ∧ (f.seq = (s.oport p).rxSeq) ∧ ((s.oport p).held = []) ∧ (f.pkts = []) ∧ (∀ e, (s.ce e).inflight = []) ∧ (f.nak = false) ∧ (f.creditVc.toNat ≠ 3)) ∧
    (∃ p : Nat, ∃ f : Frame, ∃ s : State, (p < 32) ∧ (opMode s p = 1) ∧ (linkRuns (s.oport p) = true) ∧ (f.crcOk = true) ∧ (f.seq = (s.oport p).rxSeq) ∧ ((s.oport p).held = []) ∧ (f.pkts = []) ∧ (∀ e, (s.ce e).inflight = []) ∧ (f.nak = true) ∧ (f.credit = 0) ∧ (∀ x ∈ (ackFrames (s.oport p) f.ackseq).unacked, x.resent < 8)) ∧
    (∃ p : Nat, ∃ f : Frame, ∃ s : State, (p < 32) ∧ (opMode s p = 1) ∧ (linkRuns (s.oport p) = true) ∧ (f.crcOk = false ∨ f.seq ≠ (s.oport p).rxSeq)) ∧
    (∃ p : Nat, ∃ f : TxFrame, ∃ rest : List TxFrame, ∃ s : State, (p < 32) ∧ (linkRuns (s.oport p) = true) ∧ ((s.oport p).unacked = f :: rest) ∧ (f.sent.toNat + 2000 ≤ s.time.toNat) ∧ (∀ e, (s.ce e).inflight = []) ∧ (∀ x ∈ f :: rest, x.resent < 8)) ∧
    (∃ p : Nat, ∃ f : TxFrame, ∃ rest : List TxFrame, ∃ s : State, (p < 32) ∧ (linkRuns (s.oport p) = true) ∧ ((s.oport p).unacked = f :: rest) ∧ (f.sent.toNat + 2000 ≤ s.time.toNat) ∧ (∀ e, (s.ce e).inflight = []) ∧ (∃ x ∈ f :: rest, 8 ≤ x.resent) ∧ (s.accesses = []) ∧ (portTrains s p = true)) := by
  refine ⟨?_, ?_, ?_, ?_, ?_, ?_⟩
  · refine ⟨31, 0, { seq := 0, ackseq := 0, nak := false, train := false, credit := 0, creditVc := 0, crcOk := true, pkts := [pktOf 1 1 0] }, pktOf 1 1 0, { up with oports := [(31, { state := 2 })] }, ?_⟩
    repeat' (first | decide +kernel | (refine And.intro ?_ ?_) | rfl | (intro _) | (dsimp only; decide +kernel))
  · refine ⟨31, { seq := 0, ackseq := 4095, nak := false, train := false, credit := 7, creditVc := 2, crcOk := true, pkts := [] }, { up with oports := [(31, { state := 2 })] }, ?_⟩
    repeat' (first | decide +kernel | (refine And.intro ?_ ?_) | rfl | (intro _) | (dsimp only; decide +kernel))
  · refine ⟨31, { seq := 0, ackseq := 4095, nak := true, train := false, credit := 0, creditVc := 0, crcOk := true, pkts := [] }, { up with oports := [(31, { state := 3, unacked := [{ seq := 0, sent := 0, resent := 0, pkt := pktOf 1 1 0 }] })] }, ?_⟩
    repeat' (first | exact fun x h => (by decide +kernel : ∀ x ∈ (ackFrames (({ up with oports := [(31, { state := 3, unacked := [{ seq := 0, sent := 0, resent := 0, pkt := pktOf 1 1 0 }] })] }).oport 31) 4095).unacked, x.resent < 8) x h | (refine And.intro ?_ ?_) | decide +kernel | (refine And.intro ?_ ?_) | rfl | (intro _) | (dsimp only; decide +kernel))
  · exact ⟨31, { seq := 0, ackseq := 0, nak := false, train := false, credit := 0, creditVc := 0, crcOk := false, pkts := [] }, { up with oports := [(31, { state := 3 })] }, by decide +kernel⟩
  · refine ⟨31, { seq := 0, sent := 0, resent := 7, pkt := pktOf 1 1 0 }, [], { up with oports := [(31, { state := 2, unacked := [{ seq := 0, sent := 0, resent := 7, pkt := pktOf 1 1 0 }] })], time := 2000 }, ?_⟩
    repeat' (first | decide +kernel | (refine And.intro ?_ ?_) | rfl | (intro _) | (dsimp only; decide +kernel))
  · refine ⟨31, { seq := 0, sent := 0, resent := 8, pkt := pktOf 1 1 0 }, [], { up with oports := [(31, { state := 2, unacked := [{ seq := 0, sent := 0, resent := 8, pkt := pktOf 1 1 0 }] })], time := 2000 }, ?_⟩
    repeat' (first | decide +kernel | (refine And.intro ?_ ?_) | rfl | (intro _) | (dsimp only; decide +kernel))

theorem witness_RequestPackets :
    (∃ p : Nat, ∃ k : FabPkt, ∃ s : State, ∃ s1 : State, (p < 32) ∧ (takeFront s p 0x01 = some (k, s1)) ∧ (dataBad k = false) ∧ (∀ e, (s.ce e).inflight = []) ∧ (k.att = true → s.areas = []) ∧ (let a := pktAddr k; (let bs := pktData k; (reqRefuse s1 p k a (pktBytes k) true = none) ∧ (Backed s1 a bs.length)))) ∧
    (∃ p : Nat, ∃ typ : Nat, ∃ cmd : Instr, ∃ k : FabPkt, ∃ st : Status, ∃ s : State, ∃ s1 : State, (p < 32) ∧ (typ = 0x01 ∧ cmd = .write p ∨ typ = 0x02 ∧ cmd = .add p ∨ typ = 0x03 ∧ cmd = .readreq p) ∧ (takeFront s p typ = some (k, s1)) ∧ (dataBad k = false) ∧ (reqRefuse s1 p k (pktAddr k) (pktBytes k) (decide (typ ≠ 0x03)) = some st)) ∧
    (∃ p : Nat, ∃ k : FabPkt, ∃ s : State, ∃ s1 : State, (p < 32) ∧ (takeFront s p 0x02 = some (k, s1)) ∧ (dataBad k = false) ∧ (k.fmt.toNat ≤ 1) ∧ (∀ e, (s.ce e).inflight = []) ∧ (k.att = true → s.areas = []) ∧ (reqRefuse s1 p k (pktAddr k) (pktBytes k) true = none) ∧ (devFault s1 (pktAddr k) (pktBytes k) = none)) ∧
    (∃ p : Nat, ∃ k : FabPkt, ∃ s : State, ∃ s1 : State, (p < 32) ∧ (takeFront s p 0x03 = some (k, s1)) ∧ (reqRefuse s1 p k (pktAddr k) (pktBytes k) false = none)) ∧
    (∃ p : Nat, ∃ k : FabPkt, ∃ s : State, ∃ s1 : State, (p < 32) ∧ (takeFront s p 0x04 = some (k, s1)) ∧ (rankFenced s1 k.src.toNat = false) ∧ (dataBad k = false) ∧ (∀ e, (s.ce e).inflight = []) ∧ (k.att = true → s.areas = [])) := by
  refine ⟨?_, ?_, ?_, ?_, ?_⟩
  · refine ⟨31, { pktOf 1 1 0x1000 with data := [5] }, onPort 31 ({ pktOf 1 1 0x1000 with data := [5] }) State.reset, (onPort 31 ({ pktOf 1 1 0x1000 with data := [5] }) State.reset).modOport 31 (fun o => { o with ready := [] }), ?_⟩
    repeat' (first | decide +kernel | (refine And.intro ?_ ?_) | rfl | (intro _) | (dsimp only; decide +kernel))
  · exact ⟨31, 3, .readreq 31, pktOf 3 1 0x1000, stPrivilege, onPort 31 (pktOf 3 1 0x1000) ({ State.reset with hurdles := [(0, { busy := true, kind := 4, target := 1 })] }), (onPort 31 (pktOf 3 1 0x1000) ({ State.reset with hurdles := [(0, { busy := true, kind := 4, target := 1 })] })).modOport 31 (fun o => { o with ready := [] }), by decide +kernel⟩
  · refine ⟨31, { pktOf 2 1 0x1000 with data := [5] }, onPort 31 ({ pktOf 2 1 0x1000 with data := [5] }) State.reset, (onPort 31 ({ pktOf 2 1 0x1000 with data := [5] }) State.reset).modOport 31 (fun o => { o with ready := [] }), ?_⟩
    repeat' (first | decide +kernel | (refine And.intro ?_ ?_) | rfl | (intro _) | (dsimp only; decide +kernel))
  · exact ⟨31, pktOf 3 1 0x1000, onPort 31 (pktOf 3 1 0x1000) State.reset, (onPort 31 (pktOf 3 1 0x1000) State.reset).modOport 31 (fun o => { o with ready := [] }), by decide +kernel⟩
  · refine ⟨31, { pktOf 4 1 0 with att := true, sig0 := 0x2000 }, onPort 31 ({ pktOf 4 1 0 with att := true, sig0 := 0x2000 }) State.reset, (onPort 31 ({ pktOf 4 1 0 with att := true, sig0 := 0x2000 }) State.reset).modOport 31 (fun o => { o with ready := [] }), ?_⟩
    repeat' (first | decide +kernel | (refine And.intro ?_ ?_) | rfl | (intro _) | (dsimp only; decide +kernel))

theorem witness_ResponsesAndRoutes :
    (∃ p : Nat, ∃ k : FabPkt, ∃ a : Access, ∃ side : Option Nat, ∃ d : Nat, ∃ s : State, ∃ s1 : State, (p < 32) ∧ (takeFront s p 0x10 = some (k, s1)) ∧ (answered s1 k [0x03] = some a) ∧ (dataBad k = false) ∧ (k.status = stDone) ∧ (a.dst = some (side, d)) ∧ (∀ e, (s.ce e).inflight = []) ∧ (a.unit < 800)) ∧
    (∃ p : Nat, ∃ k : FabPkt, ∃ a : Access, ∃ s : State, ∃ s1 : State, (p < 32) ∧ (takeFront s p 0x11 = some (k, s1)) ∧ (answered s1 k [0x01, 0x02, 0x04] = some a) ∧ (∀ e, (s.ce e).inflight = []) ∧ (a.unit < 800)) ∧
    (∃ x : Nat, ∃ a : Access, ∃ s : State, (x < 4096) ∧ (s.accesses.find? (fun a => a.live && a.tag % 4096 == x && decide (a.sent.toNat + 50000 ≤ s.time.toNat)) = some a) ∧ (∀ e, (s.ce e).inflight = []) ∧ (a.unit < 800)) ∧
    (∃ rank : Nat, ∃ p : Nat, ∃ r : Route, ∃ s : State, (rank < 33) ∧ ((tget pathDef s.paths rank).change = true) ∧ (routeTo s.weave.cur.sects rank = some r) ∧ (routeOpen s (livePort s r) rank = false) ∧ (wantPort s r = some p)) ∧
    (∃ p : Nat, ∃ s : State, (p < 32) ∧ (opMode s p = 1) ∧ (portUp s p = true)) ∧
    (∃ p : Nat, ∃ k : FabPkt, ∃ s : State, ∃ s1 : State, (p < 32) ∧ (takeFront s p 0x20 = some (k, s1)) ∧ (dataBad k = false)) ∧
    (∃ p : Nat, ∃ k : FabPkt, ∃ s : State, ∃ s1 : State, (p < 32) ∧ (takeFront s p 0x20 = some (k, s1)) ∧ (dataBad k = true)) := by
  refine ⟨?_, ?_, ?_, ?_, ?_, ?_, ?_⟩
  · refine ⟨31, { pktOf 0x10 1 0 with xtag := 4095, status := stDone, data := [5] }, { tag := 4095, port := 31, rank := 1, ctx := 0, unit := 799, owner := (0, 9), typ := 3, addr := 0, isAdd := false, words := 1, dst := some (none, 0x3000), idx := 0, sent := 0, live := true }, none, 0x3000, onPort 31 ({ pktOf 0x10 1 0 with xtag := 4095, status := stDone, data := [5] }) ({ State.reset with accesses := [{ tag := 4095, port := 31, rank := 1, ctx := 0, unit := 799, owner := (0, 9), typ := 3, addr := 0, isAdd := false, words := 1, dst := some (none, 0x3000), idx := 0, sent := 0, live := true }], cores := [(799, { running := [runOf 799 2 (recOf 1023 [(0, 1, 0x20)])] })] }), (onPort 31 ({ pktOf 0x10 1 0 with xtag := 4095, status := stDone, data := [5] }) ({ State.reset with accesses := [{ tag := 4095, port := 31, rank := 1, ctx := 0, unit := 799, owner := (0, 9), typ := 3, addr := 0, isAdd := false, words := 1, dst := some (none, 0x3000), idx := 0, sent := 0, live := true }], cores := [(799, { running := [runOf 799 2 (recOf 1023 [(0, 1, 0x20)])] })] })).modOport 31 (fun o => { o with ready := [] }), ?_⟩
    repeat' (first | decide +kernel | (refine And.intro ?_ ?_) | rfl | (intro _) | (dsimp only; decide +kernel))
  · refine ⟨31, { pktOf 0x11 1 0 with xtag := 4095, status := stDone }, { tag := 4095, port := 31, rank := 1, ctx := 0, unit := 799, owner := (0, 9), typ := 1, addr := 0, isAdd := false, words := 1, dst := none, idx := 0, sent := 0, live := true }, onPort 31 ({ pktOf 0x11 1 0 with xtag := 4095, status := stDone }) ({ State.reset with accesses := [{ tag := 4095, port := 31, rank := 1, ctx := 0, unit := 799, owner := (0, 9), typ := 1, addr := 0, isAdd := false, words := 1, dst := none, idx := 0, sent := 0, live := true }] }), (onPort 31 ({ pktOf 0x11 1 0 with xtag := 4095, status := stDone }) ({ State.reset with accesses := [{ tag := 4095, port := 31, rank := 1, ctx := 0, unit := 799, owner := (0, 9), typ := 1, addr := 0, isAdd := false, words := 1, dst := none, idx := 0, sent := 0, live := true }] })).modOport 31 (fun o => { o with ready := [] }), ?_⟩
    repeat' (first | decide +kernel | (refine And.intro ?_ ?_) | rfl | (intro _) | (dsimp only; decide +kernel))
  · refine ⟨4095, { tag := 4095, port := 31, rank := 1, ctx := 0, unit := 799, owner := (0, 9), typ := 1, addr := 0, isAdd := false, words := 1, dst := none, idx := 0, sent := 0, live := true }, { State.reset with accesses := [{ tag := 4095, port := 31, rank := 1, ctx := 0, unit := 799, owner := (0, 9), typ := 1, addr := 0, isAdd := false, words := 1, dst := none, idx := 0, sent := 0, live := true }], time := 50000 }, ?_⟩
    repeat' (first | decide +kernel | (refine And.intro ?_ ?_) | rfl | (intro _) | (dsimp only; decide +kernel))
  · exact ⟨1, 31, { rank := 1, prim := 31, alt := some 30 }, { up with oports := [(31, { state := 2 })], paths := [(1, { alt := true, change := true })] }, by decide +kernel⟩
  · exact ⟨31, { up with oports := [(31, { state := 2 })] }, by decide +kernel⟩
  · exact ⟨31, pktOf 0x20 1 0, onPort 31 (pktOf 0x20 1 0) State.reset, (onPort 31 (pktOf 0x20 1 0) State.reset).modOport 31 (fun o => { o with ready := [] }), by decide +kernel⟩
  · exact ⟨31, { pktOf 0x20 1 0 with checks := [.double] }, onPort 31 ({ pktOf 0x20 1 0 with checks := [.double] }) State.reset, (onPort 31 ({ pktOf 0x20 1 0 with checks := [.double] }) State.reset).modOport 31 (fun o => { o with ready := [] }), by decide +kernel⟩

theorem witness_EthernetFrames :
    (∃ p : Nat, ∃ g : List Byte, ∃ sn : List Byte, ∃ v6 : Bool, ∃ cmd : Instr, ∃ s : State, (p < 32) ∧ (ethUp s p = true) ∧ (v6 = false ∧ cmd = .arpRequest p g sn ∨ v6 = true ∧ cmd = .neighbourSolicitation p g sn) ∧ (∃ i, (qpByAddr s p v6 g = some i))) ∧
    (∃ p : Nat, ∃ g : List Byte, ∃ sn : List Byte, ∃ v6 : Bool, ∃ cmd : Instr, ∃ s : State, (p < 32) ∧ (ethUp s p = true) ∧ (v6 = false ∧ cmd = .arpRequest p g sn ∨ v6 = true ∧ cmd = .neighbourSolicitation p g sn) ∧ (qpByAddr s p v6 g = none)) ∧
    (∃ p : Nat, ∃ i : Nat, ∃ k : RocePkt, ∃ s : State, (p < 32) ∧ (ethUp s p = true) ∧ (roceQp s p k = some i)) ∧
    (∃ p : Nat, ∃ k : RocePkt, ∃ cmd : Instr, ∃ s : State, (p < 32) ∧ (ethUp s p = true) ∧ (roceQp s p k = none) ∧ (cmd = .requestPacket p k ∨ cmd = .ackOrNak p k)) ∧
    (∃ p : Nat, ∃ s : State, (p < 32) ∧ (ethUp s p = true)) := by
  refine ⟨?_, ?_, ?_, ?_, ?_⟩
  · refine ⟨29, [10, 0, 0, 1], [1], false, .arpRequest 29 [10, 0, 0, 1] [1], { up with oports := [(29, { state := 2, qpCount := 1 })], uni := memAt 0 (fieldsOf 44 [(0, 1, 1), (13, 1, 7), (40, 4, 0x0100000A)]) }, ?_⟩
    repeat' (first | decide +kernel | (refine And.intro ?_ ?_) | rfl | (intro _) | (dsimp only; decide +kernel) | (refine ⟨0, ?_⟩))
  · exact ⟨29, [10, 0, 0, 1], [1], false, .arpRequest 29 [10, 0, 0, 1] [1], { up with oports := [(29, { state := 2 })] }, by decide +kernel⟩
  · exact ⟨29, 0, { qpn := 0x100, psn := 0, icrcOk := true, nak := false, seqErr := false, last := true, payload := [1, 2] }, { up with oports := [(29, { state := 2, qpCount := 1 })], uni := memAt 0 (fieldsOf 44 [(0, 1, 1), (13, 1, 7), (40, 4, 0x0100000A)]) }, by decide +kernel⟩
  · exact ⟨29, { qpn := 0x101, psn := 0, icrcOk := true, nak := false, seqErr := false, last := true, payload := [1, 2] }, .requestPacket 29 { qpn := 0x101, psn := 0, icrcOk := true, nak := false, seqErr := false, last := true, payload := [1, 2] }, { up with oports := [(29, { state := 2, qpCount := 1 })], uni := memAt 0 (fieldsOf 44 [(0, 1, 1), (13, 1, 7), (40, 4, 0x0100000A)]) }, by decide +kernel⟩
  · exact ⟨29, { up with oports := [(29, { state := 2, qpCount := 1 })], uni := memAt 0 (fieldsOf 44 [(0, 1, 1), (13, 1, 7), (40, 4, 0x0100000A)]) }, by decide +kernel⟩

theorem witness_QueuePairs :
    (∃ p : Nat, ∃ prio : Nat, ∃ quanta : Nat, ∃ i : Nat, ∃ s : State, (p < 32) ∧ (prio < 8) ∧ (ethUp s p = true) ∧ (i ∈ validQps s p) ∧ ((qpRec s p i).pcp = prio) ∧ (s.loads = [])) ∧
    (∃ p : Nat, ∃ i : Nat, ∃ k : RocePkt, ∃ d : RdRead, ∃ rest : List RdRead, ∃ j : LoadJob, ∃ s : State, (p < 32) ∧ (ethUp s p = true) ∧ (roceQp s p k = some i) ∧ ((qpRun s p i).outstanding = d :: rest) ∧ (k.psn.toNat = (d.psn + (qpRun s p i).got) % 2 ^ 24) ∧ (getJob s d.job = some j) ∧ ((qpRun s p i).got + 1 < d.pkts) ∧ (let off := (qpRun s p i).got * (qpRec s p i).mtu; (let a := (ldOf j.rec'.bytes).dst + 4096 * d.tile + off; (let bs := k.payload.take (min (qpRec s p i).mtu (d.len - off)); (spaceOf a = .uni) ∧ (Backed s a bs.length))))) ∧
    (∃ p : Nat, ∃ i : Nat, ∃ k : RocePkt, ∃ s : State, (p < 32) ∧ (ethUp s p = true) ∧ (roceQp s p k = some i) ∧ (k.nak = false)) ∧
    (∃ p : Nat, ∃ i : Nat, ∃ k : RocePkt, ∃ s : State, (p < 32) ∧ (ethUp s p = true) ∧ (roceQp s p k = some i) ∧ (k.nak = true) ∧ (k.seqErr = true) ∧ (s.loads = []) ∧ ((qpRun s p i).outstanding.any (·.has k.psn.toNat) = true) ∧ ((qpRun s p i).retries < (qpRec s p i).retry)) ∧
    (∃ p : Nat, ∃ i : Nat, ∃ k : RocePkt, ∃ s : State, (p < 32) ∧ (ethUp s p = true) ∧ (roceQp s p k = some i) ∧ (k.nak = true) ∧ (k.seqErr = true) ∧ (s.loads = []) ∧ ((qpRun s p i).outstanding.any (·.has k.psn.toNat) = false)) ∧
    (∃ p : Nat, ∃ i : Nat, ∃ s : State, (p < 32) ∧ (i < 128) ∧ (s.loads = []) ∧ ((qpRun s p i).outstanding ≠ []) ∧ ((qpRun s p i).retries < (qpRec s p i).retry) ∧ ((qpRun s p i).since.toNat + 4096 * 2 ^ (qpRec s p i).timeout ≤ s.time.toNat)) := by
  refine ⟨?_, ?_, ?_, ?_, ?_, ?_⟩
  · exact ⟨29, 0, 5, 0, { up with oports := [(29, { state := 2, qpCount := 1 })], uni := memAt 0 (fieldsOf 44 [(0, 1, 1), (13, 1, 7), (40, 4, 0x0100000A)]) }, by decide +kernel⟩
  · refine ⟨29, 0, { qpn := 0x100, psn := 0, icrcOk := true, nak := false, seqErr := false, last := true, payload := [1, 2] }, { psn := 0, pkts := 2, job := 1, tile := 0, raddr := 0, len := 4096 }, [], { num := 1, rec' := recOf 1023 [(24, 8, 0x10000)] }, { up with oports := [(29, { state := 2, qpCount := 1, qps := [(0, { outstanding := [{ psn := 0, pkts := 2, job := 1, tile := 0, raddr := 0, len := 4096 }] })] })], uni := memAt 0 (fieldsOf 44 [(0, 1, 1), (13, 1, 7), (40, 4, 0x0100000A)]), loads := [{ num := 1, rec' := recOf 1023 [(24, 8, 0x10000)] }] }, ?_⟩
    repeat' (first | decide +kernel | (refine And.intro ?_ ?_) | rfl | (intro _) | (dsimp only; decide +kernel))
  · exact ⟨29, 0, { qpn := 0x100, psn := 0, icrcOk := true, nak := false, seqErr := false, last := true, payload := [1, 2] }, { up with oports := [(29, { state := 2, qpCount := 1 })], uni := memAt 0 (fieldsOf 44 [(0, 1, 1), (13, 1, 7), (40, 4, 0x0100000A)]) }, by decide +kernel⟩
  · exact ⟨29, 0, { qpn := 0x100, psn := 0, icrcOk := true, nak := true, seqErr := true, last := true, payload := [1, 2] }, { up with oports := [(29, { state := 2, qpCount := 1, qps := [(0, { outstanding := [{ psn := 0, pkts := 2, job := 1, tile := 0, raddr := 0, len := 4096 }] })] })], uni := memAt 0 (fieldsOf 44 [(0, 1, 1), (13, 1, 7), (40, 4, 0x0100000A)]) }, by decide +kernel⟩
  · exact ⟨29, 0, { qpn := 0x100, psn := 2, icrcOk := true, nak := true, seqErr := true, last := true, payload := [1, 2] }, { up with oports := [(29, { state := 2, qpCount := 1, qps := [(0, { outstanding := [{ psn := 0, pkts := 2, job := 1, tile := 0, raddr := 0, len := 4096 }] })] })], uni := memAt 0 (fieldsOf 44 [(0, 1, 1), (13, 1, 7), (40, 4, 0x0100000A)]) }, by decide +kernel⟩
  · exact ⟨29, 0, { up with oports := [(29, { state := 2, qpCount := 1, qps := [(0, { outstanding := [{ psn := 0, pkts := 2, job := 1, tile := 0, raddr := 0, len := 4096 }] })] })], uni := memAt 0 (fieldsOf 44 [(0, 1, 1), (13, 1, 7), (40, 4, 0x0100000A)]), time := 4096 }, by decide +kernel⟩

theorem witness_MatrixAndVectorRun :
    (∃ n : Nat, ∃ e : Nat, ∃ op : Nat, ∃ cmd : Instr, ∃ r : Running, ∃ s : State, (n < 800) ∧ (cmd = .matmul n ∧ e = 0 ∧ op = 0x01 ∨ cmd = .vecop n ∧ e = 1 ∧ op = 0x10 ∨ cmd = .vecred n ∧ e = 1 ∧ op = 0x11) ∧ (runningOp (s.core n) e [op] = some r) ∧ ((s.core n).bad = []) ∧ (op = 0x01 → tilesLeft (s.core n) r (matParam r.rec'.bytes) ≠ [] ∧ (s.core n).buf0.bad = [] ∧ (s.core n).buf1.bad = [])) ∧
    (∃ n : Nat, ∃ r : Running, ∃ s : State, (n < 800) ∧ (runningOp (s.core n) 1 [0x10] = some r) ∧ ((s.core n).bad = [])) := by
  refine ⟨?_, ?_⟩
  · exact ⟨799, 0, 1, .matmul 799, runOf 799 0 (recOf 1023 [(0, 1, 1), (16, 2, 1), (18, 2, 1), (20, 2, 1)]), { State.reset with cores := [(799, { running := [runOf 799 0 (recOf 1023 [(0, 1, 1), (16, 2, 1), (18, 2, 1), (20, 2, 1)])] })] }, by decide +kernel⟩
  · exact ⟨799, runOf 799 1 (recOf 1023 [(0, 1, 0x10), (12, 4, 1)]), { State.reset with cores := [(799, { running := [runOf 799 1 (recOf 1023 [(0, 1, 0x10), (12, 4, 1)])] })] }, by decide +kernel⟩

theorem witness_TileBuffers :
    (∃ n : Nat, ∃ t : Nat, ∃ one : Bool, ∃ r : Running, ∃ s : State, (n < 800) ∧ (fillRun (s.core n) = some r) ∧ (((s.core n).buf one).st = .empty) ∧ (one = true → (s.core n).buf0.st ≠ .empty) ∧ (((s.core n).buf one).emptyT ≤ t) ∧ (arrayFree (s.core n) ≤ t)) ∧
    (∃ n : Nat, ∃ t : Nat, ∃ s : State, (n < 800) ∧ ((s.core n).bad = [])) ∧
    (∃ n : Nat, ∃ t : Nat, ∃ one : Bool, ∃ r : Running, ∃ s : State, (n < 800) ∧ (oldestFull (s.core n) = some one) ∧ ((s.core n).draining = false) ∧ (((s.core n).buf one).fullT + 1 ≤ t) ∧ ((s.core n).epiFreeT ≤ t) ∧ ((s.core n).running.find? (fun x => x.start == ((s.core n).buf one).op) = some r)) ∧
    (∃ n : Nat, ∃ t : Nat, ∃ one : Bool, ∃ r : Running, ∃ s : State, (n < 800) ∧ (((s.core n).buf one).st = .draining) ∧ (((s.core n).buf (!one)).st ≠ .draining) ∧ (((s.core n).buf one).emptyT ≤ t) ∧ ((s.core n).running.find? (fun x => x.start == ((s.core n).buf one).op) = some r) ∧ ((s.core n).bad = []) ∧ (((s.core n).buf one).bad = [])) := by
  refine ⟨?_, ?_, ?_, ?_⟩
  · exact ⟨799, 1, false, runOf 799 0 (recOf 1023 [(0, 1, 1), (16, 2, 1), (18, 2, 1), (20, 2, 1)]), { State.reset with cores := [(799, { running := [runOf 799 0 (recOf 1023 [(0, 1, 1), (16, 2, 1), (18, 2, 1), (20, 2, 1)])] })] }, by decide +kernel⟩
  · exact ⟨799, 0, State.reset, by decide +kernel⟩
  · exact ⟨799, 1, false, runOf 799 0 (recOf 1023 [(0, 1, 1), (16, 2, 1), (18, 2, 1), (20, 2, 1)]), { State.reset with cores := [(799, { running := [runOf 799 0 (recOf 1023 [(0, 1, 1), (16, 2, 1), (18, 2, 1), (20, 2, 1)])], buf0 := { st := .full, op := 9 } })] }, by decide +kernel⟩
  · exact ⟨799, 0, false, runOf 799 0 (recOf 1023 [(0, 1, 1), (16, 2, 1), (18, 2, 1), (20, 2, 1)]), { State.reset with cores := [(799, { running := [runOf 799 0 (recOf 1023 [(0, 1, 1), (16, 2, 1), (18, 2, 1), (20, 2, 1)])], buf0 := { st := .draining, op := 9 } })] }, by decide +kernel⟩

theorem witness_UpdateAndCopy :
    (∃ n : Nat, ∃ r : Running, ∃ s : State, (n < 800) ∧ (runningOp (s.core n) 1 [0x12] = some r) ∧ ((uHdr (devRead s (uCmd r.rec'.bytes).desc 64)).phase ≠ 2) ∧ (let o := updRun s r.by (sectsOf s (.core n)) (uCmd r.rec'.bytes) r.seed.toNat; (o.fault = none) ∧ (updHeld s n o = false))) ∧
    (∃ n : Nat, ∃ r : Running, ∃ s : State, (n < 800) ∧ (runningOp (s.core n) 2 [0x20] = some r) ∧ (r.pos = r.chain.length) ∧ (r.land = []) ∧ (copyWaits s n r = false) ∧ (r.status = stDone)) ∧
    (∃ n : Nat, ∃ r : Running, ∃ d : List Byte × List Byte, ∃ s : State, (n < 800) ∧ (runningOp (s.core n) 2 [0x20] = some r) ∧ (r.land = []) ∧ (copyWaits s n r = false) ∧ (r.status = stDone) ∧ (r.chain[r.pos]? = some d) ∧ (r.pos + 1 = r.chain.length) ∧ (fld d.1 0 1 ≠ 3) ∧ (fld d.1 0 1 ≠ 4) ∧ (descHeld s n d.1 d.2 = false) ∧ ((s.core n).bad = []) ∧ (let w := copyWalk s n (cDesc d.1); (w.fault = none) ∧ (∀ x ∈ w.wrs, x.scratch = some n))) ∧
    (∃ n : Nat, ∃ r : Running, ∃ d : List Byte × List Byte, ∃ s : State, (n < 800) ∧ (runningOp (s.core n) 2 [0x20] = some r) ∧ (r.land = []) ∧ (copyWaits s n r = false) ∧ (r.status = stDone) ∧ (r.chain[r.pos]? = some d) ∧ (fld d.1 0 1 = 3) ∧ (descHeld s n d.1 d.2 = false) ∧ (hintStopped s (hDesc d.1).hop (hDesc d.1).base (hDesc d.1).len = false)) := by
  refine ⟨?_, ?_, ?_, ?_⟩
  · exact ⟨799, runOf 799 1 (recOf 1023 [(0, 1, 0x12), (24, 8, 0x1000)]), { State.reset with cores := [(799, { running := [runOf 799 1 (recOf 1023 [(0, 1, 0x12), (24, 8, 0x1000)])] })] }, by decide +kernel⟩
  · exact ⟨799, runOf 799 2 (recOf 1023 [(0, 1, 0x20)]), { State.reset with cores := [(799, { running := [runOf 799 2 (recOf 1023 [(0, 1, 0x20)])] })] }, by decide +kernel⟩
  · exact ⟨799, { runOf 799 2 (recOf 1023 [(0, 1, 0x20)]) with chain := [(fieldsOf 64 [(16, 8, 64), (24, 2, 1), (26, 2, 1), (28, 2, 1), (30, 2, 1)], [])] }, (fieldsOf 64 [(16, 8, 64), (24, 2, 1), (26, 2, 1), (28, 2, 1), (30, 2, 1)], []), { State.reset with cores := [(799, { running := [{ runOf 799 2 (recOf 1023 [(0, 1, 0x20)]) with chain := [(fieldsOf 64 [(16, 8, 64), (24, 2, 1), (26, 2, 1), (28, 2, 1), (30, 2, 1)], [])] }] })] }, by decide +kernel⟩
  · exact ⟨799, { runOf 799 2 (recOf 1023 [(0, 1, 0x20)]) with chain := [(fieldsOf 64 [(0, 1, 3)], [])] }, (fieldsOf 64 [(0, 1, 3)], []), { State.reset with cores := [(799, { running := [{ runOf 799 2 (recOf 1023 [(0, 1, 0x20)]) with chain := [(fieldsOf 64 [(0, 1, 3)], [])] }] })] }, by decide +kernel⟩

theorem witness_Woodpile :
    (∃ n : Nat, ∃ r : Running, ∃ s : State, (n < 800) ∧ (runningOp (s.core n) 2 [0x21] = some r) ∧ (spFault s n (pCmd r.rec'.bytes).sp (pCmd r.rec'.bytes).bytes = none) ∧ (let p := pushPlan s n r; (planHeld s n p = false) ∧ (anyLost s = false) ∧ (∀ w ∈ p.wrs, spaceOf w.addr ≠ .host))) ∧
    (∃ n : Nat, ∃ r : Running, ∃ s : State, (n < 800) ∧ (runningOp (s.core n) 2 [0x22] = some r) ∧ (let p := popPlan s n r; (let w := wPile (devRead s (wpAt r.wptab n (pCmd r.rec'.bytes).pile) 64); (planHeld s n p = false) ∧ (p.status = []) ∧ (p.cut = false)))) ∧
    (∃ n : Nat, ∃ r : Running, ∃ w : Wr, ∃ s : State, (n < 800) ∧ (awaitingBack (s.core n) = some r) ∧ (r.after = [w]) ∧ (w.scratch = none) ∧ (spaceOf w.addr = .uni) ∧ (Backed s w.addr w.bytes.length)) ∧
    (∃ n : Nat, ∃ r : Running, ∃ h : Nat × Nat × Nat × Nat, ∃ s : State, (n < 800) ∧ ((s.core n).running.find? (fun r => r.done && r.hot.isSome && r.after = []) = some r) ∧ (r.hot = some h)) := by
  refine ⟨?_, ?_, ?_, ?_⟩
  · exact ⟨799, runOf 799 2 (recOf 1023 [(0, 1, 0x21), (20, 4, 64)]), { State.reset with cores := [(799, { running := [runOf 799 2 (recOf 1023 [(0, 1, 0x21), (20, 4, 64)])] })] }, by decide +kernel⟩
  · exact ⟨799, runOf 799 2 (recOf 1023 [(0, 1, 0x22)]), { State.reset with cores := [(799, { running := [runOf 799 2 (recOf 1023 [(0, 1, 0x22)])] })] }, by decide +kernel⟩
  · refine ⟨799, { runOf 799 2 (recOf 1023 [(0, 1, 0x21)]) with done := true, after := [{ scratch := none, addr := 0x1000, bytes := [1] }] }, { scratch := none, addr := 0x1000, bytes := [1] }, { State.reset with cores := [(799, { running := [{ runOf 799 2 (recOf 1023 [(0, 1, 0x21)]) with done := true, after := [{ scratch := none, addr := 0x1000, bytes := [1] }] }] })] }, ?_⟩
    repeat' (first | decide +kernel | (refine And.intro ?_ ?_) | rfl | (intro _) | (dsimp only; decide +kernel))
  · exact ⟨799, { runOf 799 2 (recOf 1023 [(0, 1, 0x21)]) with done := true, hot := some (1, 0, 4096, 0) }, (1, 0, 4096, 0), { State.reset with cores := [(799, { running := [{ runOf 799 2 (recOf 1023 [(0, 1, 0x21)]) with done := true, hot := some (1, 0, 4096, 0) }] })] }, by decide +kernel⟩

theorem witness_GatherSteps :
    (∃ n : Nat, ∃ m : Bool, ∃ r : Running, ∃ s : State, (n < 800) ∧ (gatherFree s n = some r) ∧ (formTile r < gatherTiles s r) ∧ (r.slices < (gCmd r.rec'.bytes).rows) ∧ (m = true → (s.core n).gforcedW < (s.core n).gshare.toNat) ∧ ((s.core n).bad = []) ∧ (rdsFault s (sliceRds s n (gCmd r.rec'.bytes) (formTile r) r.slices) = none)) ∧
    (∃ n : Nat, ∃ s : State, (n < 800)) ∧
    (∃ n : Nat, ∃ cmd : Instr, ∃ r : Running, ∃ s : State, (n < 800) ∧ (gatherFree s n = some r) ∧ (r.formed = true) ∧ (cmd = .gatherTileWriteback n ∨ cmd = .gather n ∧ r.tiles + 1 = gatherTiles s r ∧ spaceOf (gCmd r.rec'.bytes).rec' = .uni) ∧ (let ws := tileWrs s n (gCmd r.rec'.bytes) r.tiles; (∀ w ∈ ws, spaceOf w.addr = .uni ∧ Backed s w.addr w.bytes.length))) ∧
    (∃ n : Nat, ∃ r : Running, ∃ s : State, (n < 800) ∧ (gatherFree s n = some r) ∧ (let a := (gCmd r.rec'.bytes).rec'; (let h := devRead s a 64; ((statOf h).nt ≤ r.tiles) ∧ (spaceOf a = .uni) ∧ (Backed s a 64)))) ∧
    (∃ n : Nat, ∃ r : Running, ∃ s : State, (n < 800) ∧ (gatherFree s n = some r) ∧ (r.tiles < gatherTiles s r) ∧ ((s.core n).bad = []) ∧ (s.uniBad = []) ∧ (let a := (gCmd r.rec'.bytes).rec'; (let x := gatherStat s (gCmd r.rec'.bytes); (a + x.size ≤ Config.uniTop) ∧ (Backed s a x.size)))) := by
  refine ⟨?_, ?_, ?_, ?_, ?_⟩
  · exact ⟨799, true, runOf 799 3 (recOf 1023 [(0, 1, 0x30), (10, 2, 1), (24, 8, 0x1000)]), { State.reset with uni := memAt 0x1000 (fieldsOf 64 [(2, 2, 32)]), cores := [(799, { gshare := 1, running := [runOf 799 3 (recOf 1023 [(0, 1, 0x30), (10, 2, 1), (24, 8, 0x1000)])] })] }, by decide +kernel⟩
  · exact ⟨799, State.reset, by decide +kernel⟩
  · refine ⟨799, .gather 799, { runOf 799 3 (recOf 1023 [(0, 1, 0x30), (10, 2, 1), (24, 8, 0x1000)]) with formed := true }, gState, ?_⟩
    repeat' (first | (exact (by unfold Backed; decide +kernel : ∀ w ∈ tileWrs gState 799 (gCmd (recOf 1023 [(0, 1, 0x30), (10, 2, 1), (24, 8, 0x1000)]).bytes) 0, spaceOf w.addr = .uni ∧ Backed gState w.addr w.bytes.length)) | (refine And.intro ?_ ?_) | decide +kernel | (refine And.intro ?_ ?_) | rfl | (intro _) | (dsimp only; decide +kernel))
  · refine ⟨799, { runOf 799 3 (recOf 1023 [(0, 1, 0x30), (10, 2, 1), (24, 8, 0x1000)]) with tiles := 1 }, { State.reset with uni := memAt 0x1000 (fieldsOf 64 [(2, 2, 32)]), cores := [(799, { running := [{ runOf 799 3 (recOf 1023 [(0, 1, 0x30), (10, 2, 1), (24, 8, 0x1000)]) with tiles := 1 }] })] }, ?_⟩
    repeat' (first | decide +kernel | (refine And.intro ?_ ?_) | rfl | (intro _) | (dsimp only; decide +kernel))
  · refine ⟨799, { runOf 799 3 (recOf 1023 [(0, 1, 0x30), (10, 2, 1), (24, 8, 0x1000)]) with formed := true }, gState, ?_⟩
    repeat' (first | (exact (by unfold Backed; decide +kernel : Backed gState 0x1000 (gatherStat gState (gCmd (recOf 1023 [(0, 1, 0x30), (10, 2, 1), (24, 8, 0x1000)]).bytes)).size)) | (refine And.intro ?_ ?_) | decide +kernel | (refine And.intro ?_ ?_) | rfl | (intro _) | (dsimp only; decide +kernel))

theorem witness_SolverBatches :
    (∃ d : Nat, ∃ c : Nat, ∃ r : Rec, ∃ es : List (List Byte), ∃ s : State, (d < 8) ∧ (c < 1024) ∧ (nextArrived (s.ibx d) = some r) ∧ (r.ctx = c) ∧ (ibatchCheck (s.modIbx d (fun x => { x with arrived := x.arrived.erase r })) d r = .ok es)) ∧
    (∃ d : Nat, ∃ f : Nat, ∃ b : Batch, ∃ s : State, (d < 8) ∧ (dispatching (s.ibx d) = some b) ∧ (batchLate s b.rec' = false) ∧ (let x := ientOf (b.entries.getD b.dispatched []); (let good := ((groupsOf x.group).filter (groupAll (laneFor s d b.rec'.ctx) · x.group)).filter (groupAll (fun i => !(s.ibx d).failed.getLsbD i) · x.group); (good.find? (fun f => groupAll (fun i => !laneBusy (s.ibx d) i && !laneFenced s d i) f x.group) = some f) ∧ (ientHeld s d f (b.entries.getD b.dispatched []) = false)))) ∧
    (∃ d : Nat, ∃ lane : Nat, ∃ k : Nat, ∃ cmd : Instr, ∃ e : Entry, ∃ b : Batch, ∃ s : State, (d < 8) ∧ (lane < 16) ∧ (entryAt (s.ibx d) lane .computing = some e) ∧ (batchOf (s.ibx d) e = some b) ∧ ((s.ibx d).bad = []) ∧ (cmd = .entryComputeEnd d lane ∧ ientHeld s d lane (b.entries.getD e.idx []) = false ∨ cmd = .deadlineReached d lane k ∧ batchLate s b.rec' = true)) ∧
    (∃ d : Nat, ∃ lane : Nat, ∃ e : Entry, ∃ b : Batch, ∃ s : State, (d < 8) ∧ (lane < 16) ∧ (entryAt (s.ibx d) lane .computed = some e) ∧ (batchOf (s.ibx d) e = some b) ∧ ((s.ibx d).failed = 0) ∧ (ientHeld s d lane (b.entries.getD e.idx []) = false) ∧ (let a := ibEnt b.rec' + 64 * e.idx + 17; (spaceOf a = .uni) ∧ (Backed s a 2))) ∧
    (∃ d : Nat, ∃ b : Batch, ∃ s : State, (d < 8) ∧ ((s.ibx d).batches.find? (batchDone (s.ibx d)) = some b)) := by
  refine ⟨?_, ?_, ?_, ?_, ?_⟩
  · refine ⟨7, 1023, recOf 1023 [(0, 1, 0x50), (4, 1, 7), (8, 8, 0x10000), (16, 2, 1)], [fieldsOf 64 [(0, 1, 2), (2, 2, 32), (8, 8, 0x20000), (16, 1, 1), (32, 8, 0x40000)]], { State.reset with ctxs := [(1023, { parts := 1 })], ibex := [(7, { arrived := [recOf 1023 [(0, 1, 0x50), (4, 1, 7), (8, 8, 0x10000), (16, 2, 1)]] })], uni := memAt 0x10000 (fieldsOf 64 [(0, 1, 2), (2, 2, 32), (8, 8, 0x20000), (16, 1, 1), (32, 8, 0x40000)]) }, ?_⟩
    repeat' (first | decide +kernel | (refine And.intro ?_ ?_) | rfl | (intro _) | (dsimp only; decide +kernel))
  · exact ⟨7, 0, { rec' := recOf 1023 [(0, 1, 0x50), (4, 1, 7), (8, 8, 0x10000), (16, 2, 1)], id := 1, entries := [fieldsOf 64 [(0, 1, 2), (2, 2, 32), (8, 8, 0x20000), (16, 1, 1), (32, 8, 0x40000)]], dispatched := 0, outs := [] }, { State.reset with ctxs := [(1023, { parts := 1 })], ibex := [(7, { batches := [{ rec' := recOf 1023 [(0, 1, 0x50), (4, 1, 7), (8, 8, 0x10000), (16, 2, 1)], id := 1, entries := [fieldsOf 64 [(0, 1, 2), (2, 2, 32), (8, 8, 0x20000), (16, 1, 1), (32, 8, 0x40000)]], dispatched := 0, outs := [] }] })] }, by decide +kernel⟩
  · exact ⟨7, 15, 1, .deadlineReached 7 15 1, { seq := 1, idx := 0, lane := 15, group := 1, phase := .computing }, { rec' := recOf 1023 [(0, 1, 0x50), (4, 1, 7), (8, 8, 0x10000), (16, 2, 1), (18, 1, 1)], id := 1, entries := [fieldsOf 64 [(0, 1, 2), (2, 2, 32), (8, 8, 0x20000), (16, 1, 1), (32, 8, 0x40000)]], dispatched := 1, outs := [] }, { State.reset with ibex := [(7, { batches := [{ rec' := recOf 1023 [(0, 1, 0x50), (4, 1, 7), (8, 8, 0x10000), (16, 2, 1), (18, 1, 1)], id := 1, entries := [fieldsOf 64 [(0, 1, 2), (2, 2, 32), (8, 8, 0x20000), (16, 1, 1), (32, 8, 0x40000)]], dispatched := 1, outs := [] }], entries := [{ seq := 1, idx := 0, lane := 15, group := 1, phase := .computing }] })] }, by decide +kernel⟩
  · refine ⟨7, 15, { seq := 1, idx := 0, lane := 15, group := 1, phase := .computed }, { rec' := recOf 1023 [(0, 1, 0x50), (4, 1, 7), (8, 8, 0x10000), (16, 2, 1)], id := 1, entries := [fieldsOf 64 [(0, 1, 2), (2, 2, 32), (8, 8, 0x20000), (16, 1, 1), (32, 8, 0x40000)]], dispatched := 1, outs := [] }, { State.reset with ibex := [(7, { batches := [{ rec' := recOf 1023 [(0, 1, 0x50), (4, 1, 7), (8, 8, 0x10000), (16, 2, 1)], id := 1, entries := [fieldsOf 64 [(0, 1, 2), (2, 2, 32), (8, 8, 0x20000), (16, 1, 1), (32, 8, 0x40000)]], dispatched := 1, outs := [] }], entries := [{ seq := 1, idx := 0, lane := 15, group := 1, phase := .computed }] })] }, ?_⟩
    repeat' (first | decide +kernel | (refine And.intro ?_ ?_) | rfl | (intro _) | (dsimp only; decide +kernel))
  · exact ⟨7, { rec' := recOf 1023 [(0, 1, 0x50), (4, 1, 7), (8, 8, 0x10000), (16, 2, 1)], id := 1, entries := [fieldsOf 64 [(0, 1, 2), (2, 2, 32), (8, 8, 0x20000), (16, 1, 1), (32, 8, 0x40000)]], dispatched := 1, outs := [(0, {})] }, { State.reset with ibex := [(7, { batches := [{ rec' := recOf 1023 [(0, 1, 0x50), (4, 1, 7), (8, 8, 0x10000), (16, 2, 1)], id := 1, entries := [fieldsOf 64 [(0, 1, 2), (2, 2, 32), (8, 8, 0x20000), (16, 1, 1), (32, 8, 0x40000)]], dispatched := 1, outs := [(0, {})] }] })] }, by decide +kernel⟩

theorem witness_Collectives :
    (∃ e : Nat, ∃ op : Nat, ∃ cmd : Instr, ∃ r : Rec, ∃ s : State, (e < 8) ∧ (cmd = .reduce e ∧ op = 0x60 ∨ cmd = .allgather e ∧ op = 0x61 ∨ cmd = .allreduce e ∧ op = 0x62 ∨ cmd = .permute e ∧ op = 0x63 ∨ cmd = .settle e ∧ op = 0x64 ∨ cmd = .normfin e ∧ op = 0x65) ∧ (startable s e (fun o => o = op || (op == 0x60 && !(0x60 ≤ o && o ≤ 0x65))) = some r) ∧ (collCheck (s.modCe e (fun c => { c with queue := c.queue.erase r })) e r = none)) ∧
    (∃ e : Nat, ∃ op : Nat, ∃ cmd : Instr, ∃ r : Rec, ∃ s : State, (e < 8) ∧ (cmd = .reduce e ∧ op = 0x60 ∨ cmd = .allgather e ∧ op = 0x61 ∨ cmd = .allreduce e ∧ op = 0x62 ∨ cmd = .permute e ∧ op = 0x63 ∨ cmd = .settle e ∧ op = 0x64 ∨ cmd = .normfin e ∧ op = 0x65) ∧ (startable s e (fun o => o = op || (op == 0x60 && !(0x60 ≤ o && o ≤ 0x65))) = some r) ∧ (∃ x, (collCheck (s.modCe e (fun c => { c with queue := c.queue.erase r })) e r = some (x, none)))) ∧
    (∃ e : Nat, ∃ i : Nat, ∃ cmd : Instr, ∃ k : Coll, ∃ s : State, (e < 8) ∧ ((s.ce e).inflight[i]? = some k) ∧ (let w := cwOf s e k.rec'; ((cmd = .sumBegin e i ∧ k.phase = .waiting ∧ w.c.sums = true ∧ w.own.isSome = true ∧ collHeld s e w = false ∧ (sumThere s w = true ∨ w.c.replay = false ∧ collLate s w.c = true)) ∨ (cmd = .permuteWritePhase e i ∧ k.phase = .waiting ∧ w.c.op = 0x63 ∧ permuted s w = true ∧ collHeld s e w = false) ∨ (cmd = .normfinReduce e i ∧ k.phase = .waiting ∧ w.c.op = 0x65 ∧ normThere s w = true ∧ collHeld s e w = false) ∨ (cmd = .collectiveTimeout e i ∧ (w.c.replay && w.c.sums) = false ∧ collLate s w.c = true ∧ (k.phase = .gathering ∧ gathered s w = false ∨ k.phase = .waiting ∧ w.c.op = 0x63 ∧ permuted s w = false ∨ k.phase = .waiting ∧ w.c.op = 0x65 ∧ normThere s w = false))))) := by
  refine ⟨?_, ?_, ?_⟩
  · exact ⟨7, 0x65, .normfin 7, recOf 1023 [(0, 1, 0x65), (4, 1, 7), (13, 1, 1), (40, 8, 0x10000), (32, 8, 0x20000), (56, 8, 0x30000)], { State.reset with ctxs := [(1023, { parts := 1 })], ces := [(7, { queue := [recOf 1023 [(0, 1, 0x65), (4, 1, 7), (13, 1, 1), (40, 8, 0x10000), (32, 8, 0x20000), (56, 8, 0x30000)]] })], weave := { cur := { gen := 1, sects := { typ := 6, count := 1, bytes := [0, 0, 12, 0, 1, 1, 1, 1, 0, 0, 0, 0] } :: sectsUp.take 1, digest := [] } } }, by decide +kernel⟩
  · refine ⟨7, 0x60, .reduce 7, recOf 1023 [(0, 1, 0x60)], { State.reset with ces := [(7, { queue := [recOf 1023 [(0, 1, 0x60)]] })] }, ?_⟩
    repeat' (first | decide +kernel | (refine And.intro ?_ ?_) | rfl | (intro _) | (dsimp only; decide +kernel) | (refine ⟨(stGeneration, 6), ?_⟩))
  · refine ⟨7, 0, .permuteWritePhase 7 0, { rec' := recOf 1023 [(0, 1, 0x63)], order := 3, phase := .waiting }, { State.reset with ces := [(7, { inflight := [{ rec' := recOf 1023 [(0, 1, 0x63)], order := 3, phase := .waiting }] })] }, ?_⟩
    repeat' (first | exact .inr (.inl ⟨rfl, rfl, by decide +kernel, by decide +kernel⟩) | (refine And.intro ?_ ?_) | decide +kernel | (refine And.intro ?_ ?_) | rfl | (intro _) | (dsimp only; decide +kernel))

theorem witness_LoaderRecords :
    (∃ c : Nat, ∃ r : Rec, ∃ s : State, (c < 1024) ∧ (loaderFront s c = some r) ∧ (r.op = 0x72) ∧ (fwServes s c = true) ∧ (r.ctx = c) ∧ (manRecFail r = none) ∧ (mrRelease r = true) ∧ (manInUse (loaderPop s c) (mrAddr r) = false) ∧ ((sealedAt s (mrAddr r)).isSome = true) ∧ (inRanges s s.weave.cur.sects c (mrAddr r) (mrLen r) = true)) ∧
    (∃ c : Nat, ∃ r : Rec, ∃ s : State, (c < 1024) ∧ (loaderFront s c = some r) ∧ (r.op = 0x72) ∧ (fwServes s c = true) ∧ (r.ctx = c) ∧ (manRecFail r = none) ∧ (mrRelease r = false) ∧ (192 ≤ mrLen r) ∧ (mrLen r ≤ 64 + 32 * 8388608 + 96) ∧ (inRanges s s.weave.cur.sects c (mrAddr r) (mrLen r) = true) ∧ (hitsUnbacked s (mrAddr r) (mrLen r) = false) ∧ (devFault s (mrAddr r) (mrLen r) = none) ∧ ((sealedAt s (mrAddr r)).isNone = true) ∧ (s.manifests.length < 64) ∧ (let m := devRead s (mrAddr r) (mrLen r); (manOk m (mrLen r) = true))) ∧
    (∃ c : Nat, ∃ r : Rec, ∃ s : State, (c < 1024) ∧ (loaderFront s c = some r) ∧ (r.op = 0x71) ∧ (fwServes s c = true) ∧ (loadCheck s r = none)) ∧
    (∃ c : Nat, ∃ x : Refuse, ∃ r : Rec, ∃ s : State, (c < 1024) ∧ (loaderFront s c = some r) ∧ (r.op = 0x71) ∧ (fwServes s c = true) ∧ (loadCheck s r = some (x, none))) ∧
    (∃ c : Nat, ∃ r : Rec, ∃ s : State, (c < 1024) ∧ (loaderFront s c = some r) ∧ (r.op = 0x73) ∧ (fwServes s c = true) ∧ (digestCheck s r = none) ∧ (spaceOf (dgDst r.bytes) = .uni) ∧ (anyLost s = false)) ∧
    (∃ c : Nat, ∃ j : LoadJob, ∃ s : State, (c < 1024) ∧ (s.loads.find? (fun j => j.rec'.ctx == c && j.arrived != []) = some j)) ∧
    (∃ g : Nat, ∃ rest : List (Nat × Bool), ∃ j : LoadJob, ∃ s : State, (j ∈ s.loads) ∧ (j.arrived = (g, true) :: rest)) ∧
    (∃ g : Nat, ∃ rest : List (Nat × Bool), ∃ j : LoadJob, ∃ s : State, (j ∈ s.loads) ∧ (j.arrived = (g, false) :: rest) ∧ (j.status = stDone) ∧ (tget dN j.tries g < (ldOf j.rec'.bytes).retries)) := by
  refine ⟨?_, ?_, ?_, ?_, ?_, ?_, ?_, ?_⟩
  · exact ⟨1023, recOf 1023 [(0, 1, 0x72), (1, 1, 1), (16, 8, 0x1000), (24, 4, 192)], { State.reset with sec := { booted := true }, ctxs := [(1023, { parts := 1, loader := [recOf 1023 [(0, 1, 0x72), (1, 1, 1), (16, 8, 0x1000), (24, 4, 192)]] })], manifests := [{ ctx := 1023, addr := 0x1000, len := 192 }] }, by decide +kernel⟩
  · exact ⟨1023, recOf 1023 [(0, 1, 0x72), (16, 8, 0x1000), (24, 4, 192)], { State.reset with sec := { booted := true }, ctxs := [(1023, { parts := 1, loader := [recOf 1023 [(0, 1, 0x72), (16, 8, 0x1000), (24, 4, 192)]] })], uni := memAt 0x1000 (fieldsOf 192 [(0, 4, 0x464D5457), (4, 2, 1), (20, 4, 1), (24, 2, 4096), (28, 4, 192)]) }, by decide +kernel⟩
  · exact ⟨1023, recOf 1023 [(0, 1, 0x71), (1, 1, 2), (16, 8, 0x10000), (24, 8, 0x20000), (32, 4, 1), (40, 8, 0x1000)], { State.reset with sec := { booted := true }, ctxs := [(1023, { parts := 1, loader := [recOf 1023 [(0, 1, 0x71), (1, 1, 2), (16, 8, 0x10000), (24, 8, 0x20000), (32, 4, 1), (40, 8, 0x1000)]] })], uni := memAt 0x1000 (fieldsOf 192 [(0, 4, 0x464D5457), (4, 2, 1), (20, 4, 1), (24, 2, 4096), (28, 4, 192)]), manifests := [{ ctx := 1023, addr := 0x1000, len := 192 }] }, by decide +kernel⟩
  · exact ⟨1023, (stDescriptor, 32), recOf 1023 [(0, 1, 0x71)], { State.reset with sec := { booted := true }, ctxs := [(1023, { parts := 1, loader := [recOf 1023 [(0, 1, 0x71)]] })] }, by decide +kernel⟩
  · exact ⟨1023, recOf 1023 [(0, 1, 0x73), (8, 8, 0x10000), (16, 4, 1), (24, 8, 0x20000)], { State.reset with sec := { booted := true }, ctxs := [(1023, { parts := 1, loader := [recOf 1023 [(0, 1, 0x73), (8, 8, 0x10000), (16, 4, 1), (24, 8, 0x20000)]] })] }, by decide +kernel⟩
  · exact ⟨1023, { num := 1, rec' := recOf 1023 [(6, 1, 7), (24, 8, 0x10000)], arrived := [(0, true)] }, { State.reset with loads := [{ num := 1, rec' := recOf 1023 [(6, 1, 7), (24, 8, 0x10000)], arrived := [(0, true)] }] }, by decide +kernel⟩
  · exact ⟨0, [], { num := 1, rec' := recOf 1023 [(6, 1, 7), (24, 8, 0x10000)], arrived := [(0, true)] }, { State.reset with loads := [{ num := 1, rec' := recOf 1023 [(6, 1, 7), (24, 8, 0x10000)], arrived := [(0, true)] }] }, by decide +kernel⟩
  · exact ⟨0, [], { num := 1, rec' := recOf 1023 [(6, 1, 7), (24, 8, 0x10000)], arrived := [(0, false)] }, { State.reset with loads := [{ num := 1, rec' := recOf 1023 [(6, 1, 7), (24, 8, 0x10000)], arrived := [(0, false)] }] }, by decide +kernel⟩

/-! ### Statements that rest on the functions of log 4

A signature that verifies, or a key on the curve, is a value of an opaque constant: these witnesses take that one fact as their hypothesis. -/

/-- A firmware image for the hub with SVN 0 (R352). -/
def fwBytes : List Byte := fieldsOf 192 [(0, 4, 0x57464853), (4, 2, 1), (6, 1, 8), (8, 4, 192)]

/-- A delta to generation 1 with one empty section, signed with key 0 (R22 to R24). -/
def deltaBytes : List Byte := fieldsOf 176 [(0, 4, 0x56414557), (4, 2, 1), (6, 1, 1), (7, 1, 1), (8, 4, 1), (24, 4, 176), (64, 1, 8), (68, 4, 80), (80, 8, 0x835c0ae6e175897c)]

def key0 : List Byte := List.replicate 64 1
def deltaState : State := { State.reset with weave := { st := .verifying, image := deltaBytes }, sec := { keys := [(0, key0)] } }
def fwCopyState : State := { State.reset with sec := { fw := [(8, { nvm0 := some ⟨0, [], fwBytes⟩ })] } }
def fwMemState : State := { State.reset with uni := memAt 0 fwBytes }

theorem fwBytes_ok (s : State) (h : signedBy (romKeys s) fwBytes = true) (hf : s.sec.fused = 0) : fwCheck s fwBytes = none := by
  unfold fwCheck
  rw [if_neg (by decide +kernel), h, hf]
  rfl

theorem fwCopy_boots (h : signedBy (romKeys fwCopyState) fwBytes = true) : bootImage fwCopyState 8 = some (false, fwImageOf fwBytes) := by
  unfold bootImage
  rw [show bootCopies (fwCopyState.fw 8) = [(false, some ⟨0, [], fwBytes⟩), (true, none)] from by decide +kernel]
  simp [copyOk, fwBytes_ok fwCopyState h rfl, show fwTgt fwBytes = 8 from by decide +kernel]

theorem witness_FuseVersionsNeverFall_boot (h : signedBy (romKeys fwCopyState) fwBytes = true) :
    ∃ g : Nat, ∃ b : Bool, ∃ x : FwImage, ∃ s : State, bootImage s g = some (b, x) := ⟨8, false, _, fwCopyState, fwCopy_boots h⟩

theorem witness_FirmwareRunsAndIsReplaced_boot (h : signedBy (romKeys fwCopyState) fwBytes = true) :
    ∃ s : State, (s.hub.phase = .running) ∧ (s.sec.booted = false) ∧ (s.sec.st ≠ 2) ∧ ((bootImage s 8).isSome = true) :=
  ⟨fwCopyState, rfl, rfl, by decide, by rw [fwCopy_boots h]; rfl⟩

theorem witness_SecurityCommands_fwverify (h : signedBy (romKeys fwMemState) fwBytes = true) :
    ∃ who : Party, ∃ s : State, (Admitted s who .hub) ∧ (hubHandsOver s = false) ∧ (s.sec.st ≠ 2) ∧ (let a := secSrc s; (let n := fwLen (devRead s a 64);
      (hubReadFault s a 64 = none) ∧ (fwHeaderBad (devRead s a 64) = false) ∧ (hubReadFault s a n = none) ∧ (let m := devRead s a n; (fwCheck s m = none)))) := by
  refine ⟨.fw, fwMemState, by refine ⟨?_, ?_, ?_⟩ <;> decide +kernel, by decide +kernel, by decide +kernel, by decide +kernel, by decide +kernel, by decide +kernel, ?_⟩
  show fwCheck fwMemState (devRead fwMemState (secSrc fwMemState) (fwLen (devRead fwMemState (secSrc fwMemState) 64))) = none
  rw [show devRead fwMemState (secSrc fwMemState) (fwLen (devRead fwMemState (secSrc fwMemState) 64)) = fwBytes from by decide +kernel]
  exact fwBytes_ok fwMemState h rfl

theorem witness_SecurityCommands_enrol (h : Config.onCurve (List.replicate 64 0) = true) :
    ∃ who : Party, ∃ i : BitVec 5, ∃ s : State, (who ≠ .fw) ∧ (Admitted s who .hub) ∧ (hubHandsOver s = false) ∧ (i.toNat ≤ 19) ∧
      (let k := devRead s (secSrc s) 64; (hubReadFault s (secSrc s) 64 = none) ∧ (slotKey s i.toNat = []) ∧ (∀ j, j < 20 → slotKey s j ≠ k) ∧ (Config.onCurve k = true)) := by
  refine ⟨.portA, 19, portUpA, by decide, by refine ⟨?_, ?_, ?_⟩ <;> decide +kernel, by decide +kernel, by decide +kernel, by decide +kernel, by decide +kernel, by decide +kernel, ?_⟩
  rw [show devRead portUpA (secSrc portUpA) 64 = List.replicate 64 0 from by decide +kernel]
  exact h

theorem witness_StageVerifyApply_verify (h : Config.ecdsaVerify key0 (sha256 (signedPart deltaBytes)) (List.replicate 32 0) (List.replicate 32 0) = true) :
    ∃ s : State, (s.weave.st = .verifying) ∧ (s.weave.fetchErr = 0) ∧ (verifyImage s s.weave.cur s.weave.image false = none) := by
  refine ⟨deltaState, rfl, rfl, ?_⟩
  have hs : signedBy (weaveKeys deltaState) deltaBytes = true := by
    unfold signedBy
    rw [show weaveKeys deltaState = [key0] from by decide +kernel]
    dsimp only
    rw [show List.find? (fun k => keyId k == (sigBlock deltaBytes).take 8) [key0] = some key0 from by decide +kernel]
    dsimp only
    rw [show ((sigBlock deltaBytes).drop 8).take 32 = List.replicate 32 0 from by decide +kernel, show ((sigBlock deltaBytes).drop 40).take 32 = List.replicate 32 0 from by decide +kernel]
    exact h
  show verifyImage deltaState deltaState.weave.cur deltaBytes false = none
  have hk : sigOk deltaState deltaBytes false = true := by unfold sigOk; rw [hs]; rfl
  unfold verifyImage
  rw [if_neg (by decide +kernel), show (dirOf deltaBytes).zipIdx.find? (fun x => sectBad deltaBytes x.2 x.1) = none from by decide +kernel]
  dsimp only
  rw [if_neg (by rw [hk]; decide +kernel), if_neg (by decide +kernel), if_neg (by decide +kernel)]
  rw [show (objectFails deltaState deltaState.weave.cur deltaBytes false).find? (·.1) = none from by decide +kernel]
  rfl

end Sys2Proof.Tests
end

section
/-! MP_RELEASE (R200): the highest backed tile of a class with a retiring frame is discarded and counts as released; a write that names any
other tile is ignored. -/

namespace Sys2Proof.Machine

open Sys2Proof

/-- The tile that a write to MP_RELEASE names: bits [40:12] of the value. -/
def namedTile (v : BitVec 64) : Nat := bitsOf v.toNat 12 29

/-- The condition of R200 on a tile, at its own port: backed, and the highest backed tile of a class that has a retiring frame. -/
def Releasable (s : State) (m g : Nat) : Prop :=
  portOf s g = m ∧ tileBacked s g = true ∧ g = topTile s (classOf s g) ∧ ∃ r ∈ s.tiers.retiring, r.cls = classOf s g

/-- A tile's contents give way to a free value (log 3), and the tile counts as released. -/
def releaseTile (s : State) (g : Nat) : State :=
  { s with freeCtr := s.freeCtr + 1
           uni := mwrite s.uni (g * 4096) (freeBytes s 4096).1
           tiers := { s.tiers with released := s.tiers.released.filter (· != g) ++ [g] } }

theorem not_releasable_iff (s : State) (m g : Nat) :
    ¬ Releasable s m g ↔
      portOf s g ≠ m ∨ tileBacked s g = false ∨ g ≠ topTile s (classOf s g) ∨ ∀ r ∈ s.tiers.retiring, r.cls ≠ classOf s g := by
  simp only [Releasable, not_and_or, not_exists, imp_iff_not_or, Bool.not_eq_true, ne_eq]

/-- The test that MP_RELEASE makes is R200's condition. -/
theorem releaseTest_iff (s : State) (m g : Nat) :
    (portOf s g = m && tileBacked s g && g == topTile s (classOf s g) && s.tiers.retiring.any (fun r => r.cls == classOf s g)) = true ↔
      Releasable s m g := by
  simp only [Releasable, Bool.and_eq_true, decide_eq_true_eq, beq_iff_eq, List.any_eq_true, and_assoc]

theorem exec_mpRelease_of_releasable {who : Party} {m : Nat} {v : BitVec 64} {s : State} (ha : Admitted s who .admin)
    (hr : Releasable s m (namedTile v)) : exec (.mpRelease who m v) s = .next (releaseTile s (namedTile v)) :=
  congrArg Host.Outcome.next ((gated_admitted _ ha).trans (if_pos ((releaseTest_iff s m _).mpr hr)))

theorem exec_mpRelease_of_not_releasable {who : Party} {m : Nat} {v : BitVec 64} {s : State} (ha : Admitted s who .admin)
    (hr : ¬ Releasable s m (namedTile v)) : exec (.mpRelease who m v) s = .next s :=
  congrArg Host.Outcome.next ((gated_admitted _ ha).trans (if_neg (mt (releaseTest_iff s m _).mp hr)))

theorem Only.of_uni_tiers (s : State) (u : Mem) (t : Tiers) (n : Nat) : Only [.uni, .tiers] s { s with freeCtr := n, uni := u, tiers := t } := by
  refine ⟨rfl, fun f hf => ?_⟩
  cases f
  case uni | tiers => simp at hf
  all_goals rfl

theorem releaseTile_only (s : State) (g : Nat) : Only [.uni, .tiers] s (releaseTile s g) := Only.of_uni_tiers ..

theorem releaseTile_uni (s : State) (g : Nat) : (releaseTile s g).uni = mwrite s.uni (g * 4096) (freeBytes s 4096).1 := by rw [releaseTile]

theorem mem_released_releaseTile (s : State) (g : Nat) : g ∈ (releaseTile s g).tiers.released :=
  List.mem_append_right _ (List.mem_singleton_self g)

theorem freeBytes_length (s : State) (n : Nat) : (freeBytes s n).1.length = n := natLE_length ..

/-- Written anywhere, the free bytes read back there. -/
theorem mread_mwrite_freeBytes (m : Mem) (a n : Nat) (s : State) :
    mread (mwrite m a (freeBytes s n).1) a n = natLE n (Config.freeNat s.freeCtr) := by
  have h := mread_mwrite m a (freeBytes s n).1
  rwa [freeBytes_length] at h

/-- A tile's worth of bytes written over the tile leaves the bytes of every other tile. -/
theorem mget_mwrite_other_tile {m : Mem} {g b : Nat} {bs : List Byte} (hl : bs.length = 4096) (hb : b / 4096 ≠ g) :
    mget (mwrite m (g * 4096) bs) b = mget m b :=
  mget_mwrite_out _ _ _ _ (by omega)

theorem mread_releaseTile_self (s : State) (g : Nat) :
    mread (releaseTile s g).uni (g * 4096) 4096 = natLE 4096 (Config.freeNat s.freeCtr) := by
  rw [releaseTile_uni, mread_mwrite_freeBytes]

theorem mget_releaseTile_other (s : State) {g b : Nat} (hb : b / 4096 ≠ g) : mget (releaseTile s g).uni b = mget s.uni b := by
  rw [releaseTile_uni, mget_mwrite_other_tile (freeBytes_length ..) hb]

/-- Settles O45: an admitted write releases the tile it names exactly where R200's condition holds of it. -/
theorem tileRelease : Obligations.TileRelease := by
  intro who m v s _ ha
  refine ⟨fun hport hback htop hret => ?_, fun hno => ?_⟩
  · exact ⟨releaseTile s (namedTile v), exec_mpRelease_of_releasable ha ⟨hport, hback, htop, hret⟩, releaseTile_only ..,
      mem_released_releaseTile .., rfl, mread_releaseTile_self .., fun _ => mget_releaseTile_other s⟩
  · exact exec_mpRelease_of_not_releasable ha ((not_releasable_iff ..).mpr hno)

end Sys2Proof.Machine
end

section
/-! The entry of a context (R289, R314): CREATE, and the four registers that only a FREE context takes. -/

namespace Sys2Proof.Machine

open Sys2Proof

/-! ### Writes by size, from the registers they reach -/

/-- An address that covers a register covers its first four bytes, or is the upper half of its word. -/
theorem regAt_of_regHalf {o : Nat} {r : Reg} {up : Bool} (h : regHalf o = some (r, up)) :
    regAt o = some r ∨ o % 8 = 4 ∧ regAt (o - 4) = some r := by
  unfold regHalf at h
  split at h
  · next q hq => cases h; exact .inl hq
  · split at h
    · next hup =>
      split at h
      · next q hq =>
        split at h
        · cases h; exact .inr ⟨hup, hq⟩
        · cases h
      · cases h
    · cases h

/-- A register that a party's writes leave the state to, whatever they write. -/
def Reg.Ignores (r : Reg) (who : Party) (s : State) : Prop := ∀ low high v, r.put who low high v s = s

theorem write4_of_ignores {who : Party} {s : State} {o : Nat}
    (h : ∀ r, regAt o = some r ∨ o % 8 = 4 ∧ regAt (o - 4) = some r → r.Ignores who s) (v : Nat) : write4 who s o v = s := by
  unfold write4
  cases hr : regHalf o with
  | none => rfl
  | some x =>
    have hi := h x.1 (regAt_of_regHalf hr)
    dsimp only
    split_ifs <;> exact hi ..

/-- The registers at both halves of an aligned word ignore a party's writes. -/
def WordIgnores (who : Party) (s : State) (o : Nat) : Prop := ∀ r, regAt o = some r ∨ regAt (o + 4) = some r → r.Ignores who s

theorem write4_low_of_wordIgnores {who : Party} {s : State} {o : Nat} (ho : o % 8 = 0) (h : WordIgnores who s o) (v : Nat) :
    write4 who s o v = s :=
  write4_of_ignores (fun r hr => h r (hr.imp_right fun ⟨h4, _⟩ => by omega)) v

theorem write4_high_of_wordIgnores {who : Party} {s : State} {o : Nat} (h : WordIgnores who s o) (v : Nat) :
    write4 who s (o + 4) v = s :=
  write4_of_ignores (fun r hr => h r (hr.symm.imp_left And.right)) v

theorem write8_of_wordIgnores {who : Party} {s : State} {o : Nat} (ho : o % 8 = 0) (h : WordIgnores who s o) (v : Nat) :
    write8 who s o v = s := by
  unfold write8
  cases hr : regAt o with
  | none => exact write4_high_of_wordIgnores h _
  | some r =>
    dsimp only
    split_ifs
    · exact h r (.inl hr) ..
    · rw [write4_low_of_wordIgnores ho h, write4_high_of_wordIgnores h]

theorem write8_wide {who : Party} {s : State} {o : Nat} {r : Reg} (hr : regAt o = some r) (hw : r.wide = true) (v : BitVec 64) :
    write8 who s o v.toNat = r.put who true true v.toNat s := by
  unfold write8
  rw [hr]
  simp only [hw, if_true, Nat.mod_eq_of_lt v.isLt]

theorem write4_narrow {who : Party} {s : State} {o : Nat} {r : Reg} (hr : regAt o = some r) (hw : r.wide = false) (v : Nat) :
    write4 who s o v = r.put who true false (v % 2 ^ 32) s := by
  have hh : regHalf o = some (r, false) := by unfold regHalf; rw [hr]
  unfold write4
  rw [hh]
  simp [hw]

theorem sizeOk_iff {o n : Nat} : sizeOk o n = true ↔ (n = 4 ∨ n = 8) ∧ o % n = 0 := by
  simp only [sizeOk, Bool.and_eq_true, Bool.or_eq_true, beq_iff_eq]

/-- A write of the right size inside a context's own block, by a party admitted there, reaches the registers. -/
theorem exec_registerWrite_ctx {who : Party} {c o n x : Nat} {s : State} (hc : c < 1024) (ha : Admitted s who (.ctx c))
    (hx : x = 0x4000000 + 0x1000 * c + o) (hn : sizeOk o n = true) (ho : o + n ≤ 0x1000) (v : BitVec 64) :
    exec (.registerWrite who x n v) s = .next (if n = 8 then write8 who s x v.toNat else write4 who s x v.toNat) := by
  obtain ⟨hlive, hserved, hmay⟩ := ha
  obtain ⟨hn48, ho8⟩ := sizeOk_iff.mp hn
  have hsize : sizeOk x n = true := sizeOk_iff.mpr ⟨hn48, by rcases hn48 with rfl | rfl <;> omega⟩
  have hfirst := areaAt_ctx c o x hc (by omega) hx
  have hlast := areaAt_ctx c (o + n - 1) (x + n - 1) hc (by omega) (by omega)
  have hbar : decide (bar4At ≤ x) = false := decide_eq_false (by unfold bar4At; omega)
  change execRegisterWrite who x n v s = _
  simp only [execRegisterWrite, hlive, hbar, hsize, hfirst, hlast, hserved, hmay, Bool.not_true, Bool.or_self, Bool.false_eq_true, if_false]

/-! ### The registers that only a FREE context takes (R289) -/

/-- What a write of CTX_CFG makes of an entry: KIND 2 and 3 are not taken. -/
def Ctx.putKind (v : Nat) (x : Ctx) : Ctx := if 1 < bitsOf v 0 2 then x else { x with kind := BitVec.ofNat 2 (bitsOf v 0 2) }

theorem ctxReg_cfg (c : Nat) : ctxReg c 0xC8 = some (freeOnly c false (fun x => x.kind.toNat) Ctx.putKind) := rfl

theorem ctxReg_parts (c : Nat) : ctxReg c 0xD0 = some (freeOnly c true (fun x => x.parts.toNat) (fun v x => { x with parts := w64 v })) := rfl

theorem ctxReg_ro0 (c : Nat) : ctxReg c 0xD8 = some (freeOnly c true (fun x => x.ro0.toNat) (fun v x => { x with ro0 := w64 v })) := rfl

theorem ctxReg_ro1 (c : Nat) : ctxReg c 0xE0 = some (freeOnly c true (fun x => x.ro1.toNat) (fun v x => { x with ro1 := w64 v })) := rfl

/-- At each of the four words stands a register that only a FREE context takes, and nothing else. -/
theorem ctxReg_freeOnly {o : Nat} (c : Nat) (ho : o ∈ [0xC8, 0xD0, 0xD8, 0xE0]) :
    (∃ wide val f, ctxReg c o = some (freeOnly c wide val f)) ∧ ctxReg c (o + 4) = none := by
  simp only [List.mem_cons, List.not_mem_nil, or_false] at ho
  obtain rfl | rfl | rfl | rfl := ho
  · exact ⟨⟨_, _, _, ctxReg_cfg c⟩, rfl⟩
  · exact ⟨⟨_, _, _, ctxReg_parts c⟩, rfl⟩
  · exact ⟨⟨_, _, _, ctxReg_ro0 c⟩, rfl⟩
  · exact ⟨⟨_, _, _, ctxReg_ro1 c⟩, rfl⟩

/-- The four words are aligned and lie within the entry's block. -/
theorem freeOnly_offsets : ∀ o ∈ [0xC8, 0xD0, 0xD8, 0xE0],
    o + 8 ≤ 0x1000 ∧ sizeOk o 8 = true ∧ sizeOk o 4 = true ∧ sizeOk (o + 4) 4 = true := by decide

@[simp] theorem w64_toNat (v : BitVec 64) : w64 v.toNat = v := BitVec.ofNat_toNat ..

theorem Ctx.putKind_low {v : BitVec 64} (hv : v.toNat % 4 ≤ 1) (x : Ctx) :
    x.putKind (v.toNat % 2 ^ 32) = { x with kind := BitVec.ofNat 2 (v.toNat % 4) } := by
  have hb : bitsOf (v.toNat % 2 ^ 32) 0 2 = v.toNat % 4 := by unfold bitsOf; omega
  unfold Ctx.putKind
  rw [hb, if_neg (by omega)]

section

variable {who : Party} {c : Nat} {s : State} {wide : Bool} {val : Ctx → Nat} {f : Nat → Ctx → Ctx}

theorem freeOnly_put_free (hfree : (s.ctx c).state = 0) (hadmin : Admitted s who .admin) (low high : Bool) (v : Nat) :
    (freeOnly c wide val f).put who low high v s = s.modCtx c (f v) := by
  obtain ⟨-, -, hmay⟩ := hadmin
  simp [freeOnly, hfree, hmay]

theorem freeOnly_ignores (hfree : (s.ctx c).state ≠ 0) : (freeOnly c wide val f).Ignores who s := by
  intro low high v
  simpa [freeOnly] using fun h => absurd h hfree

end

/-- A changed entry is the only change of its state. -/
theorem State.modCtx_only_entry (s : State) (c : Nat) (f : Ctx → Ctx) :
    Only [.ctxs] s (s.modCtx c f) ∧ (s.modCtx c f).ctx c = f (s.ctx c) ∧ ∀ d, d ≠ c → (s.modCtx c f).ctx d = s.ctx d :=
  ⟨(State.modCtx_keeps ..).only, State.modCtx_get_ctx_self .., fun d hd => State.modCtx_get_ctx_ne _ _ _ d hd⟩

section

variable {who : Party} {c : Nat} {s : State} (hc : c < 1024) (hctx : Admitted s who (.ctx c))
include hc hctx

/-- A 64-bit register of a FREE context, written whole by an administrator: the entry takes the value, and nothing else changes. -/
theorem exec_registerWrite_free_wide {o : Nat} {val : Ctx → Nat} {f : Nat → Ctx → Ctx} (hadmin : Admitted s who .admin)
    (hfree : (s.ctx c).state = 0) (hr : ctxReg c o = some (freeOnly c true val f)) (h8 : sizeOk o 8 = true)
    (ho : o + 8 ≤ 0x1000) {v : BitVec 64} {y : Ctx} (hy : f v.toNat (s.ctx c) = y) :
    ∃ t, exec (.registerWrite who (0x4000000 + 0x1000 * c + o) 8 v) s = .next t ∧
      Only [.ctxs] s t ∧ t.ctx c = y ∧ ∀ d, d ≠ c → t.ctx d = s.ctx d := by
  have hreg := (regAt_ctx c o _ hc (by omega) rfl).trans hr
  refine ⟨s.modCtx c (f v.toNat), ?_, hy ▸ State.modCtx_only_entry ..⟩
  rw [exec_registerWrite_ctx hc hctx rfl h8 ho, if_pos rfl, write8_wide hreg rfl, freeOnly_put_free hfree hadmin]

/-- CTX_CFG of a FREE context, written by an administrator: the entry takes KIND, and nothing else changes. -/
theorem exec_registerWrite_free_cfg (hadmin : Admitted s who .admin) (hfree : (s.ctx c).state = 0) (v : BitVec 64) :
    exec (.registerWrite who (0x4000000 + 0x1000 * c + 0xC8) 4 v) s = .next (s.modCtx c (Ctx.putKind (v.toNat % 2 ^ 32))) := by
  have hreg := (regAt_ctx c 0xC8 _ hc (by decide) rfl).trans (ctxReg_cfg c)
  rw [exec_registerWrite_ctx hc hctx rfl rfl (by decide), if_neg (by decide), write4_narrow hreg rfl, freeOnly_put_free hfree hadmin]

/-- A write to any of the four words of a context that is not FREE, of either size, changes nothing. -/
theorem exec_registerWrite_not_free {o x : Nat} (hx : x = 0x4000000 + 0x1000 * c + o) (hnot : (s.ctx c).state ≠ 0)
    (ho : o ∈ [0xC8, 0xD0, 0xD8, 0xE0]) (v : BitVec 64) :
    exec (.registerWrite who x 8 v) s = .next s ∧ exec (.registerWrite who x 4 v) s = .next s ∧
      exec (.registerWrite who (x + 4) 4 v) s = .next s := by
  obtain ⟨⟨wide, val, f, hlow⟩, hhigh⟩ := ctxReg_freeOnly c ho
  obtain ⟨hlt, h8, h4, h4'⟩ := freeOnly_offsets o ho
  have hword : WordIgnores who s x := by
    rintro r (hr | hr)
    · rw [regAt_ctx c o x hc (by omega) hx, hlow] at hr
      cases hr
      exact freeOnly_ignores hnot
    · rw [regAt_ctx c (o + 4) (x + 4) hc (by omega) (by omega), hhigh] at hr
      cases hr
  have hx8 : x % 8 = 0 := by have := (sizeOk_iff.mp h8).2; omega
  refine ⟨?_, ?_, ?_⟩
  · rw [exec_registerWrite_ctx hc hctx hx h8 hlt, if_pos rfl, write8_of_wordIgnores hx8 hword]
  · rw [exec_registerWrite_ctx hc hctx hx h4 (by omega), if_neg (by decide), write4_low_of_wordIgnores hx8 hword]
  · rw [exec_registerWrite_ctx hc hctx (o := o + 4) (by omega) h4' (by omega), if_neg (by decide), write4_high_of_wordIgnores hword]

end

/-! ### CREATE (R288, R289) -/

/-- CREATE leaves of an entry its four kept registers, over the reset values. -/
theorem created_eq {c : Nat} (hc : c ≠ 0) (x : Ctx) :
    created x = { State.reset.ctx c with state := 1, kind := x.kind, parts := x.parts, ro0 := x.ro0, ro1 := x.ro1 } := by
  have hreset : State.reset.ctx c = {} := if_neg hc
  rw [hreset, created]

theorem exec_create_free {who : Party} {c : Nat} {s : State} (hc : c ≠ 0) (hadmin : Admitted s who .admin) (hctx : Admitted s who (.ctx c))
    (hfree : (s.ctx c).state = 0) : exec (.create who c) s = .next (noteCtx (s.modCtx c created) c 1) := by
  refine congrArg Host.Outcome.next ((gatedEntry_admitted _ hadmin hctx).trans ?_)
  rw [if_neg hc, if_neg (not_not.mpr hfree)]

theorem noteCtx_created_only (s : State) (c : Nat) :
    Only [.ctxs, .tallies] s (noteCtx (s.modCtx c created) c 1) :=
  (((State.modCtx_keeps s c created).mono (by decide)).step (noteCtx_keeps ..) (by decide)).only

/-- Settles O21: CREATE puts the kept registers over the reset entry; a write of one of the four reaches a register that takes it exactly
while the context is FREE. -/
theorem createSetsRegisters : Obligations.CreateSetsRegisters := by
  refine ⟨fun who c s _ hc0 hadmin hctx hfree => ?_, fun who c v s hc _ hadmin hctx =>
    ⟨fun hfree => ⟨?_, ?_, ?_, ?_⟩, fun hnot o ho => ?_⟩⟩
  · obtain ⟨-, hentry, hother⟩ := State.modCtx_only_entry s c created
    exact ⟨_, exec_create_free hc0 hadmin hctx hfree, noteCtx_created_only s c, hentry.trans (created_eq hc0 _), hother⟩
  · exact exec_registerWrite_free_wide hc hctx hadmin hfree (ctxReg_parts c) rfl (by decide) (by rw [w64_toNat])
  · exact exec_registerWrite_free_wide hc hctx hadmin hfree (ctxReg_ro0 c) rfl (by decide) (by rw [w64_toNat])
  · exact exec_registerWrite_free_wide hc hctx hadmin hfree (ctxReg_ro1 c) rfl (by decide) (by rw [w64_toNat])
  · obtain ⟨honly, hentry, hother⟩ := State.modCtx_only_entry s c (Ctx.putKind (v.toNat % 2 ^ 32))
    exact ⟨_, exec_registerWrite_free_cfg hc hctx hadmin hfree v, honly, fun hv => hentry.trans (Ctx.putKind_low hv _), hother⟩
  · obtain ⟨off, hoff, rfl⟩ := List.mem_map.mp (show o ∈ [0xC8, 0xD0, 0xD8, 0xE0].map (0x4000000 + 0x1000 * c + ·) from ho)
    exact exec_registerWrite_not_free hc hctx rfl hnot hoff v

end Sys2Proof.Machine
end

section
/-! Accesses to BAR 0 of a wrong size or alignment, and writes to BAR 4 (R321). -/

namespace Sys2Proof.Machine

open Sys2Proof

theorem sizeOk_eq_false_iff {o n : Nat} : sizeOk o n = false ↔ n ≠ 4 ∧ n ≠ 8 ∨ o % n ≠ 0 := by
  rw [← Bool.not_eq_true, sizeOk_iff, not_and_or, not_or]

/-- A changed host port is the only change of its state. -/
theorem State.modHp_only_port (s : State) (p : Nat) (f : HPort → HPort) :
    Only [.hps] s (s.modHp p f) ∧ (s.modHp p f).hp p = f (s.hp p) ∧ ∀ q, q ≠ p → (s.modHp p f).hp q = s.hp q :=
  ⟨(State.modHp_keeps ..).only, State.modHp_get_hp_self .., fun q hq => State.modHp_get_hp_ne _ _ _ q hq⟩

section

variable {who : Party} {o n p : Nat} {s : State}

/-- The count goes to the accessing party's own port, and nothing else changes. -/
theorem countBadsize_port (hp : partyPort who = some p) :
    Only [.hps] s (countBadsize s who) ∧ (countBadsize s who).hp p = { s.hp p with badsize := stick (s.hp p).badsize 1 } ∧
      ∀ q, q ≠ p → (countBadsize s who).hp q = s.hp q := by
  have hcount : countBadsize s who = s.modHp p (fun h => { h with badsize := stick h.badsize 1 }) := by
    rw [countBadsize, hp]
  rw [hcount]
  exact State.modHp_only_port ..

/-- A write to BAR 4 leaves the state, whatever party makes it. -/
theorem exec_registerWrite_bar4 (ho : bar4At ≤ o) (v : BitVec 64) : exec (.registerWrite who o n v) s = .next s := by
  change execRegisterWrite who o n v s = _
  rw [execRegisterWrite, decide_eq_true ho, Bool.or_true, if_pos rfl]

section

variable (hlive : partyLive s who = true) (hbar0 : o < bar4At) (hsize : sizeOk o n = false)
include hlive hbar0 hsize

theorem exec_registerWrite_badsize (v : BitVec 64) : exec (.registerWrite who o n v) s = .next (countBadsize s who) := by
  change execRegisterWrite who o n v s = _
  simp [execRegisterWrite, hlive, hbar0, hsize]

theorem exec_registerRead_badsize : exec (.registerRead who o n) s = .next { countBadsize s who with bus := 0 } := by
  change execRegisterRead who o n s = _
  simp [execRegisterRead, hlive, hbar0, hsize]

end

end

/-- Settles O30: an access that reaches the device but fails the size test counts in BADSIZE of its port and does nothing else, a read but
for the zero on the bus; a write to BAR 4 is turned away before that test. -/
theorem accessSizes : Obligations.AccessSizes := by
  refine ⟨fun who o n p v s hlive hp hbar0 hbad => ?_, fun who o n v s hbar4 => exec_registerWrite_bar4 hbar4 v⟩
  have hsize := sizeOk_eq_false_iff.mpr hbad
  obtain ⟨honly, hport, hother⟩ := countBadsize_port (s := s) hp
  have hread : Only [.bus, .hps] s { countBadsize s who with bus := 0 } :=
    (((countBadsize_keeps s who).mono (by decide)).set_bus (by decide)).only
  exact ⟨⟨_, exec_registerWrite_badsize hlive hbar0 hsize v, honly, hport, hother⟩,
    ⟨_, exec_registerRead_badsize hlive hbar0 hsize, hread, rfl, hport, hother⟩⟩

end Sys2Proof.Machine
end

section
/-! FUSED and the fuses of R353: FUSESVN raises FUSED to the lowest SVN that runs, an image below it fails its checks and so is neither staged nor
booted, and no step undoes a fuse. -/

namespace Sys2Proof.Machine

open Sys2Proof

/-- FUSED raised to an SVN, where it was below it. -/
def raiseFused (s : State) (v : Nat) : State := { s with sec := { s.sec with fused := BitVec.ofNat 8 (max s.sec.fused.toNat v) } }

theorem raiseFused_fused {s : State} {v : Nat} (hv : v < 2 ^ 8) : (raiseFused s v).sec.fused.toNat = max s.sec.fused.toNat v :=
  (BitVec.toNat_ofNat ..).trans (Nat.mod_eq_of_lt (Nat.max_lt.mpr ⟨s.sec.fused.isLt, hv⟩))

theorem secFusesvn_of_lowestSvn {s : State} {v : Nat} (h : lowestSvn s = some v) : secFusesvn s = secResult (raiseFused s v) stDone := by
  rw [secFusesvn, h, raiseFused]

theorem exec_fusesvn {who : Party} {s : State} (hw : who ≠ .fw) (ha : Admitted s who .hub) (hh : hubHandsOver s = false) :
    exec (.fusesvn who) s = .next (secFusesvn s) := by
  have hrun : secRun s who s.sec.slot.toNat 6 = secFusesvn s := if_pos (decide_eq_true hw)
  exact congrArg Host.Outcome.next ((secCtl_same who 6 s ha hh).trans hrun)

/-- The SVN of a header is one byte, so a measured image keeps it whole. -/
theorem fwSvn_lt (m : List Byte) : fwSvn m < 2 ^ 8 := by
  unfold fwSvn fld
  rcases m.drop 7 with _ | ⟨b, bs⟩
  · decide
  · simpa [leNat] using b.isLt

theorem fwImageOf_svn (m : List Byte) : (fwImageOf m).svn.toNat = fwSvn m := (BitVec.toNat_ofNat ..).trans (Nat.mod_eq_of_lt (fwSvn_lt m))

/-- An image that passes the checks of R352 is not older than FUSED. -/
theorem fused_le_of_fwCheck {s : State} {m : List Byte} (h : fwCheck s m = none) : s.sec.fused.toNat ≤ fwSvn m := by
  by_contra hold
  rw [fwCheck, if_pos (not_le.mp hold)] at h
  split_ifs at h

/-- What a copy in the NVM die boots as is the image of bytes that pass the checks. -/
theorem fwCheck_of_copyOk {s : State} {t : Nat} {o : Option FwImage} {x : FwImage} (h : copyOk s t o = some x) :
    ∃ m, fwCheck s m = none ∧ x = fwImageOf m := by
  cases o with
  | none => cases h
  | some y =>
    obtain ⟨hok, hx⟩ := Option.ite_none_right_eq_some.mp h
    rw [Bool.and_eq_true, Option.isNone_iff_eq_none] at hok
    exact ⟨y.image, hok.1, (Option.some.inj hx).symm⟩

theorem copyOk_of_bootImage {s : State} {t : Nat} {b : Bool} {x : FwImage} (h : bootImage s t = some (b, x)) : ∃ o, copyOk s t o = some x := by
  obtain ⟨c, -, hc⟩ := List.exists_of_findSome?_eq_some h
  obtain ⟨y, hy, hyx⟩ := Option.map_eq_some_iff.mp hc
  cases hyx
  exact ⟨c.2, hy⟩

theorem fused_le_of_bootImage {s : State} {t : Nat} {b : Bool} {x : FwImage} (h : bootImage s t = some (b, x)) : s.sec.fused.toNat ≤ x.svn.toNat := by
  obtain ⟨o, ho⟩ := copyOk_of_bootImage h
  obtain ⟨m, hm, rfl⟩ := fwCheck_of_copyOk ho
  exact (fused_le_of_fwCheck hm).trans_eq (fwImageOf_svn m).symm

/-- No step lowers FUSED or changes a fuse that revokes a ROM key, whether a command runs or time passes. -/
theorem step_fusesKept {s t : State} (h : step s = .next t) : FusesKept s t := by
  cases hq : s.pending with
  | nil =>
    rw [step_nil hq] at h
    cases h
    exact (tick_keeps s).fuses
  | cons c rest =>
    rw [step_cons hq] at h
    exact (exec_keeps c { s with pending := rest } t h).fuses

/-- Settles O6: FUSESVN raises FUSED by the lowest SVN that runs; booting and FWVERIFY both make the checks of R352, which an older image fails;
every step keeps the fuses because every command does. -/
theorem fuseVersionsNeverFall : Obligations.FuseVersionsNeverFall := by
  refine ⟨fun who v s hw ha hh hrun hmin => ?_, fun _ _ _ _ => fused_le_of_bootImage,
    fun m s hold hok => hold.not_ge (fused_le_of_fwCheck hok), fun s t => step_fusesKept⟩
  have hlow := lowestSvn_eq s v hrun hmin
  have hnext := exec_fusesvn hw ha hh
  have honly := (secFusesvn_keeps s).only
  rw [secFusesvn_of_lowestSvn hlow] at hnext honly
  exact ⟨_, hnext, honly, rfl, raiseFused_fused (lowestSvn_lt s v hlow), rfl, fun _ => rfl⟩

end Sys2Proof.Machine
end

section
/-! Resets and the Tally rings (R367): a recognised cause begins a reset, which empties every ring, and a device-wide counter reset clears what each
ring has counted as lost. -/

namespace Sys2Proof.Machine

open Sys2Proof

/-! ### Commands that begin a reset (R337) -/

/-- The command's whole effect is that a reset begins, with some cause and from some state. -/
def BeginsReset (cmd : Instr) (s : State) : Prop := ∃ u cause, exec cmd s = .next (beginReset u cause)

/-- A ring right after a reset (R367): HEAD and every record slot read zero and every register has its reset value. -/
def TallyUnit.AtReset (t : TallyUnit) : Prop :=
  t = {} ∧ t.head = 0 ∧ ∀ i, tget trecDef t.slots i = { time := 0, unit := 0, ctx := 0, code := 0, payload := 0 }

theorem beginReset_tally_atReset (s : State) (cause u : Nat) : ((beginReset s cause).tally u).AtReset := ⟨rfl, rfl, fun _ => rfl⟩

theorem BeginsReset.emptiesRings {cmd : Instr} {s : State} (h : BeginsReset cmd s) :
    ∃ t, exec cmd s = .next t ∧ t.hub.phase = .inReset ∧ ∀ u, (t.tally u).AtReset := by
  obtain ⟨u, cause, he⟩ := h
  exact ⟨_, he, (beginReset_phase u cause).1, beginReset_tally_atReset u cause⟩

/-- Outside a reset a recognised cause begins one. -/
theorem recognise_of_outside {s : State} (h : s.hub.phase = .running ∨ s.hub.phase = .off) (cause : Nat) : recognise s cause = beginReset s cause :=
  if_pos (by simpa using h)

theorem BeginsReset.of_recognise {cmd : Instr} {s u : State} {cause : Nat} (he : exec cmd s = .next (recognise u cause))
    (h : u.hub.phase = .running ∨ u.hub.phase = .off) : BeginsReset cmd s :=
  ⟨u, cause, he.trans (congrArg _ (recognise_of_outside h cause))⟩

theorem powerOn_beginsReset {s : State} (hoff : s.hub.phase = .off) (hrails : railsGood s = true) : BeginsReset .powerOn s :=
  .of_recognise (if_pos (by simp [hoff, hrails])) (.inr hoff)

/-- A sensor at 100 °C or more in two readings running trips the reset of cause 3 (R335). -/
theorem temperatureReading_beginsReset {s : State} {rs : List Reading} {r : Reading} (hrun : s.hub.phase = .running) (hr : r ∈ rs)
    (hhot : 100 ≤ r.temp) (hprev : (r.kind, r.index) ∈ s.pwr.hotPrev) : BeginsReset (.temperatureReading rs) s := by
  have htrip : ((rs.filter (fun r => 100 ≤ r.temp)).map (fun r => (r.kind, r.index))).any (fun x => s.pwr.hotPrev.contains x) = true :=
    List.any_eq_true.mpr ⟨_, List.mem_map_of_mem (List.mem_filter.mpr ⟨hr, decide_eq_true hhot⟩), List.contains_iff_mem.mpr hprev⟩
  refine .of_recognise (cause := 3) ((if_neg (not_not.mpr hrun)).trans (congrArg _ (if_pos htrip))) (.inl ?_)
  split <;> exact hrun

/-- Whichever stage stops, the phase of the device stays until the fault is recognised. -/
theorem stageFault_beginsReset {s : State} (hrun : s.hub.phase = .running) (g : Nat) : BeginsReset (.stageFault g) s := by
  refine .of_recognise (cause := 5) rfl (.inl ?_)
  dsimp only
  split <;> exact hrun

/-! ### The counter reset of the device (R374) -/

theorem post_get_tally (s : State) (u c code payload m : Nat) :
    ∃ l, (post s u c code payload).tally m = { s.tally m with fresh := l } := by
  by_cases h : m = u
  · subst h
    exact ⟨_, State.modTally_get_tally_self ..⟩
  · exact ⟨_, post_get_tally_ne s u c code payload m h⟩

theorem clearDev_get_tally (s : State) (u : Nat) : (clearDev s).tally u = { s.tally u with lost := 0, dropped := 0 } :=
  tget_map tallyDef (fun t => { t with lost := 0, dropped := 0 }) (fun _ => rfl) s.tallies u

/-- What COUNTER_CLEAR of the device leaves, before the hub's record of it: counters clear, nothing pending, EPOCH advanced. -/
def counterCleared (s : State) : State :=
  { clearDev s with hub2 := { (clearDev s).hub2 with cntPend := none, cntEpoch := (clearDev s).hub2.cntEpoch + 1 } }

theorem counterCleared_get_tally (s : State) (u : Nat) : (counterCleared s).tally u = { s.tally u with lost := 0, dropped := 0 } :=
  clearDev_get_tally s u

theorem exec_counterClear_due {x : BitVec 64} {s : State} (hpend : s.hub2.cntPend = some x) (hdue : x.toNat ≤ s.time.toNat) :
    exec (.counterClear none) s = .next (post (counterCleared s) uHub 0 0x0F1 1) := by
  change execCounterClear none s = _
  unfold execCounterClear
  simp only [hpend, if_neg (not_lt.mpr hdue)]
  rfl

/-- Settles O38: every cause named begins a reset, which empties the rings; the counter reset changes only the counts of each ring and, in the hub's
ring, the records not yet queued. -/
theorem resetsEmptyTheRings : Obligations.ResetsEmptyTheRings := by
  refine ⟨fun s cmd hrun hcmd => BeginsReset.emptiesRings ?_, fun s hoff hrails => (powerOn_beginsReset hoff hrails).emptiesRings,
    fun x s hpend hdue => ⟨_, exec_counterClear_due hpend hdue, fun u => ?_⟩⟩
  · rcases hcmd with rfl | rfl | rfl | ⟨g, -, rfl⟩ | rfl | ⟨k, d, x, hhot, hprev, rfl⟩
    · exact .of_recognise rfl (.inl hrun)
    · exact .of_recognise rfl (.inl hrun)
    · exact .of_recognise rfl (.inl hrun)
    · exact stageFault_beginsReset hrun g
    · exact .of_recognise rfl (.inl hrun)
    · exact temperatureReading_beginsReset hrun (List.mem_singleton_self _) hhot hprev
  · obtain ⟨l, hl⟩ := post_get_tally (counterCleared s) uHub 0 0x0F1 1 u
    rw [hl, counterCleared_get_tally]
    exact ⟨rfl, rfl, rfl⟩

end Sys2Proof.Machine
end

section
/-! The queue, a step and reset: what every command and every step answers, whichever command it is. -/

namespace Sys2Proof.Machine

open Sys2Proof

/-! ### One step -/

/-- A step of the machine keeps what a command keeps, from the state that has its front command taken off the queue. -/
theorem step_keeps {s t : State} (h : step s = .next t) : Keeps Field.all { s with pending := s.pending.tail } t := by
  cases hq : s.pending with
  | nil =>
    rw [step_nil hq] at h
    cases h
    have hs : { s with pending := ([] : List Instr).tail } = s := by rw [List.tail_nil, ← hq]
    rw [hs]
    exact (tick_keeps s).all
  | cons c rest =>
    rw [step_cons hq] at h
    exact exec_keeps c { s with pending := rest } t h

/-- Settles O5: a step keeps the canonical form as its command does, and only takes a command off the queue. -/
theorem stepKeepsCanonicalForm : Obligations.StepKeepsCanonicalForm := by
  intro s t hmem hqueue hstep
  have hkeeps := step_keeps hstep
  have hpending : t.pending = s.pending.tail := hkeeps.only.1
  exact ⟨hkeeps.canon hmem, fun c hc => hqueue c (List.mem_of_mem_tail (hpending ▸ hc))⟩

/-- Settles O1: a step is its front command, by the definition of a step. -/
theorem stepRunsFrontCommand : Obligations.StepRunsFrontCommand := fun _ _ _ => step_cons

theorem tick_of_no_slew {s : State} (h : s.slew = none) : (tick s).time = s.time + 1 ∧ (tick s).slew = none := by simp [tick, h]

theorem tick_of_slew_forward {s : State} (h : s.slew = some true) : (tick s).time = s.time + 2 ∧ (tick s).slew = none := by simp [tick, h]

theorem tick_of_slew_back {s : State} (h : s.slew = some false) : (tick s).time = s.time ∧ (tick s).slew = none := by simp [tick, h]

/-- Settles O2: with an empty queue a step is the clock's. -/
theorem emptyQueueLetsTimePass : Obligations.EmptyQueueLetsTimePass := fun s hq =>
  ⟨tick s, step_nil hq, (tick_keeps s).only, tick_of_no_slew, tick_of_slew_forward, tick_of_slew_back⟩

/-! ### The reset state -/

/-- Settles O3: every table of the reset state is empty, so each unit reads its default. -/
theorem resetState : Obligations.ResetState := by
  have hslot : ∀ n i, ((State.reset.core n).slot i) = slotDef i := fun _ _ => rfl
  refine ⟨⟨rfl, fun _ => ⟨rfl, rfl, rfl, rfl⟩, fun n i hi => ?_, rfl, fun c hc => ?_, fun _ => rfl, fun _ => rfl, rfl, rfl, rfl⟩,
    ⟨rfl, rfl, fun _ => rfl⟩, fun c hc => absurd hc List.not_mem_nil⟩
  · rw [hslot, slotDef, if_neg hi]
  · exact congrArg Ctx.state (if_neg hc)

/-! ### Every command answers -/

/-- The one command that may stop: outside the debug transport, and while OPEN is 0, a JTAG instruction has its effect (R357, R398). -/
theorem jtagInstruction_gives {ir : Nat} {s : State} (h : ir < 3 ∨ s.sec.openD = false) : Gives [.hub2, .bus] s (execJtagInstruction ir s) := by
  have hnext : ∃ t, execJtagInstruction ir s = .next t := by
    unfold execJtagInstruction
    dsimp only
    split
    · exact ⟨_, rfl⟩
    · rw [if_pos (by simpa using h)]
      exact ⟨_, rfl⟩
  obtain ⟨t, ht⟩ := hnext
  exact ⟨t, ht, execJtagInstruction_keeps ir s t ht⟩

/-- Whatever its operands, a command answers a next state, but for a JTAG instruction that the spec gives no effect. -/
theorem exec_gives (c : Instr) (s : State) (h : ∀ ir, c = .jtagInstruction ir → ir < 3 ∨ s.sec.openD = false) :
    Gives Field.all s (exec c s) := by
  cases c with
  | stage who => exact Gives.all (o := execStage who s) (execStage_keeps ..)
  | verificationEnd => exact Gives.all (o := execVerificationEnd s) (execVerificationEnd_keeps ..)
  | apply who => exact Gives.all (o := execApply who s) (execApply_keeps ..)
  | abort who => exact Gives.all (o := execAbort who s) (execAbort_keeps ..)
  | persist who => exact Gives.all (o := execPersist who s) (execPersist_keeps ..)
  | persistEnd readBackOk => exact Gives.all (o := execPersistEnd readBackOk s) (execPersistEnd_keeps ..)
  | unitAdopt u faults => exact Gives.all (o := execUnitAdopt u faults s) (execUnitAdopt_keeps ..)
  | windowExpiry => exact Gives.all (o := execWindowExpiry s) (execWindowExpiry_keeps ..)
  | rollbackWindowExpiry => exact Gives.all (o := execRollbackWindowExpiry s) (execRollbackWindowExpiry_keeps ..)
  | loadingAtBoot => exact Gives.all (o := execLoadingAtBoot s) (execLoadingAtBoot_keeps ..)
  | cclkChange die plan => exact Gives.all (o := execCclkChange die plan s) (execCclkChange_keeps ..)
  | ringIntakeRead c k => exact Gives.all (o := execRingIntakeRead c k s) (execRingIntakeRead_keeps ..)
  | recordDelivery die c => exact Gives.all (o := execRecordDelivery die c s) (execRecordDelivery_keeps ..)
  | droverSelect core e => exact Gives.all (o := execDroverSelect core e s) (execDroverSelect_keeps ..)
  | nop core e => exact Gives.all (o := execNop core e s) (execNop_keeps ..)
  | matmul core => exact Gives.all (o := execMatmul core s) (execMatmul_keeps ..)
  | vecop core => exact Gives.all (o := execVecop core s) (execVecop_keeps ..)
  | vecred core => exact Gives.all (o := execVecred core s) (execVecred_keeps ..)
  | update core => exact Gives.all (o := execUpdate core s) (execUpdate_keeps ..)
  | copy core => exact Gives.all (o := execCopy core s) (execCopy_keeps ..)
  | push core => exact Gives.all (o := execPush core s) (execPush_keeps ..)
  | pop core => exact Gives.all (o := execPop core s) (execPop_keeps ..)
  | woodpileWriteback core => exact Gives.all (o := execWoodpileWriteback core s) (execWoodpileWriteback_keeps ..)
  | hotWindowMove core => exact Gives.all (o := execHotWindowMove core s) (execHotWindowMove_keeps ..)
  | gather core => exact Gives.all (o := execGather core s) (execGather_keeps ..)
  | gatherSliceIssue core matrixReady => exact Gives.all (o := execGatherSliceIssue core matrixReady s) (execGatherSliceIssue_keeps ..)
  | gshareWindowStart core => exact Gives.all (o := execGshareWindowStart core s) (execGshareWindowStart_keeps ..)
  | gatherTileWriteback core => exact Gives.all (o := execGatherTileWriteback core s) (execGatherTileWriteback_keeps ..)
  | gatherHeaderWrite core => exact Gives.all (o := execGatherHeaderWrite core s) (execGatherHeaderWrite_keeps ..)
  | signal core e => exact Gives.all (o := execSignal core e s) (execSignal_keeps ..)
  | wait core e => exact Gives.all (o := execWait core e s) (execWait_keeps ..)
  | waitEvaluation core e c => exact Gives.all (o := execWaitEvaluation core e c s) (execWaitEvaluation_keeps ..)
  | pollIntervalExpiry host => exact Gives.all (o := execPollIntervalExpiry host s) (execPollIntervalExpiry_keeps ..)
  | lineInvalidation line host => exact Gives.all (o := execLineInvalidation line host s) (execLineInvalidation_keeps ..)
  | waitTimeout core e c => exact Gives.all (o := execWaitTimeout core e c s) (execWaitTimeout_keeps ..)
  | commandComplete core e => exact Gives.all (o := execCommandComplete core e s) (execCommandComplete_keeps ..)
  | completionRecordRelease core c => exact Gives.all (o := execCompletionRecordRelease core c s) (execCompletionRecordRelease_keeps ..)
  | completionWriteRetry c => exact Gives.all (o := execCompletionWriteRetry c s) (execCompletionWriteRetry_keeps ..)
  | coreStateReq who core req => exact Gives.all (o := execCoreStateReq who core req s) (execCoreStateReq_keeps ..)
  | serviceStateAdopt core => exact Gives.all (o := execServiceStateAdopt core s) (execServiceStateAdopt_keeps ..)
  | scratchpadWriteback core => exact Gives.all (o := execScratchpadWriteback core s) (execScratchpadWriteback_keeps ..)
  | coreSlot who core i value => exact Gives.all (o := execCoreSlot who core i value s) (execCoreSlot_keeps ..)
  | tileFillStart core t => exact Gives.all (o := execTileFillStart core t s) (execTileFillStart_keeps ..)
  | totalsFinal core t => exact Gives.all (o := execTotalsFinal core t s) (execTotalsFinal_keeps ..)
  | epilogueStart core t => exact Gives.all (o := execEpilogueStart core t s) (execEpilogueStart_keeps ..)
  | bufferEmpty core t => exact Gives.all (o := execBufferEmpty core t s) (execBufferEmpty_keeps ..)
  | ibatch die c => exact Gives.all (o := execIbatch die c s) (execIbatch_keeps ..)
  | entryDispatch die => exact Gives.all (o := execEntryDispatch die s) (execEntryDispatch_keeps ..)
  | entryComputeEnd die lane => exact Gives.all (o := execEntryComputeEnd die lane s) (execEntryComputeEnd_keeps ..)
  | headerCommit die lane => exact Gives.all (o := execHeaderCommit die lane s) (execHeaderCommit_keeps ..)
  | deadlineReached die lane iters => exact Gives.all (o := execDeadlineReached die lane iters s) (execDeadlineReached_keeps ..)
  | batchComplete die => exact Gives.all (o := execBatchComplete die s) (execBatchComplete_keeps ..)
  | promotion tile die => exact Gives.all (o := execPromotion tile die s) (execPromotion_keeps ..)
  | tileMove tile slice => exact Gives.all (o := execTileMove tile slice s) (execTileMove_keeps ..)
  | moveEnd channel => exact Gives.all (o := execMoveEnd channel s) (execMoveEnd_keeps ..)
  | moveIn => exact Gives.all (o := execMoveIn s) (execMoveIn_keeps ..)
  | moveOut => exact Gives.all (o := execMoveOut s) (execMoveOut_keeps ..)
  | report => exact Gives.all (o := execReport s) (execReport_keeps ..)
  | pinMove m => exact Gives.all (o := execPinMove m s) (execPinMove_keeps ..)
  | scrubRead m => exact Gives.all (o := execScrubRead m s) (execScrubRead_keeps ..)
  | retirementCopy cls => exact Gives.all (o := execRetirementCopy cls s) (execRetirementCopy_keeps ..)
  | mpRelease who m value => exact Gives.all (o := execMpRelease who m value s) (execMpRelease_keeps ..)
  | rangeInitEnd m => exact Gives.all (o := execRangeInitEnd m s) (execRangeInitEnd_keeps ..)
  | frameReceive p f => exact Gives.all (o := execFrameReceive p f s) (execFrameReceive_keeps ..)
  | resendTimeout p => exact Gives.all (o := execResendTimeout p s) (execResendTimeout_keeps ..)
  | write p => exact Gives.all (o := execWrite p s) (execWrite_keeps ..)
  | add p => exact Gives.all (o := execAdd p s) (execAdd_keeps ..)
  | readreq p => exact Gives.all (o := execReadreq p s) (execReadreq_keeps ..)
  | signalPacket p => exact Gives.all (o := execSignalPacket p s) (execSignalPacket_keeps ..)
  | readrsp p => exact Gives.all (o := execReadrsp p s) (execReadrsp_keeps ..)
  | ack p => exact Gives.all (o := execAck p s) (execAck_keeps ..)
  | time p => exact Gives.all (o := execTime p s) (execTime_keeps ..)
  | timeSend p => exact Gives.all (o := execTimeSend p s) (execTimeSend_keeps ..)
  | sync p => exact Gives.all (o := execSync p s) (execSync_keeps ..)
  | syncRepeat f => exact Gives.all (o := execSyncRepeat f s) (execSyncRepeat_keeps ..)
  | ackTimeout xtag => exact Gives.all (o := execAckTimeout xtag s) (execAckTimeout_keeps ..)
  | routePathChange rank => exact Gives.all (o := execRoutePathChange rank s) (execRoutePathChange_keeps ..)
  | linkTraining p peerRank peerPeer peerGen => exact Gives.all (o := execLinkTraining p peerRank peerPeer peerGen s) (execLinkTraining_keeps ..)
  | trainingRetry p => exact Gives.all (o := execTrainingRetry p s) (execTrainingRetry_keeps ..)
  | arpRequest p target sender => exact Gives.all (o := execArpRequest p target sender s) (execArpRequest_keeps ..)
  | neighbourSolicitation p target sender => exact Gives.all (o := execNeighbourSolicitation p target sender s) (execNeighbourSolicitation_keeps ..)
  | pause p prio quanta => exact Gives.all (o := execPause p prio quanta s) (execPause_keeps ..)
  | readResponse p pkt => exact Gives.all (o := execReadResponse p pkt s) (execReadResponse_keeps ..)
  | ackOrNak p pkt => exact Gives.all (o := execAckOrNak p pkt s) (execAckOrNak_keeps ..)
  | requestPacket p pkt => exact Gives.all (o := execRequestPacket p pkt s) (execRequestPacket_keeps ..)
  | cnp p => exact Gives.all (o := execCnp p s) (execCnp_keeps ..)
  | qpTimeout p qp => exact Gives.all (o := execQpTimeout p qp s) (execQpTimeout_keeps ..)
  | recal who p => exact Gives.all (o := execRecal who p s) (execRecal_keeps ..)
  | retrain who p => exact Gives.all (o := execRetrain who p s) (execRetrain_keeps ..)
  | cleartrip who p => exact Gives.all (o := execCleartrip who p s) (execCleartrip_keeps ..)
  | trackingError p => exact Gives.all (o := execTrackingError p s) (execTrackingError_keeps ..)
  | errorRatioTrigger p => exact Gives.all (o := execErrorRatioTrigger p s) (execErrorRatioTrigger_keeps ..)
  | calibrationSweep p => exact Gives.all (o := execCalibrationSweep p s) (execCalibrationSweep_keeps ..)
  | lsRecal who q => exact Gives.all (o := execLsRecal who q s) (execLsRecal_keeps ..)
  | lockLoss q line => exact Gives.all (o := execLockLoss q line s) (execLockLoss_keeps ..)
  | eyeSafetyTrip p line launch => exact Gives.all (o := execEyeSafetyTrip p line launch s) (execEyeSafetyTrip_keeps ..)
  | reduce e => exact Gives.all (o := execReduce e s) (execReduce_keeps ..)
  | allgather e => exact Gives.all (o := execAllgather e s) (execAllgather_keeps ..)
  | allreduce e => exact Gives.all (o := execAllreduce e s) (execAllreduce_keeps ..)
  | permute e => exact Gives.all (o := execPermute e s) (execPermute_keeps ..)
  | permuteWritePhase e i => exact Gives.all (o := execPermuteWritePhase e i s) (execPermuteWritePhase_keeps ..)
  | settle e => exact Gives.all (o := execSettle e s) (execSettle_keeps ..)
  | normfin e => exact Gives.all (o := execNormfin e s) (execNormfin_keeps ..)
  | normfinReduce e i => exact Gives.all (o := execNormfinReduce e i s) (execNormfinReduce_keeps ..)
  | sumBegin e i => exact Gives.all (o := execSumBegin e i s) (execSumBegin_keeps ..)
  | collectiveTimeout e i => exact Gives.all (o := execCollectiveTimeout e i s) (execCollectiveTimeout_keeps ..)
  | foldCfg who f value => exact Gives.all (o := execFoldCfg who f value s) (execFoldCfg_keeps ..)
  | foldMask who f high value => exact Gives.all (o := execFoldMask who f high value s) (execFoldMask_keeps ..)
  | raise who i kind target => exact Gives.all (o := execRaise who i kind target s) (execRaise_keeps ..)
  | lift who i => exact Gives.all (o := execLift who i s) (execLift_keeps ..)
  | quiesced i => exact Gives.all (o := execQuiesced i s) (execQuiesced_keeps ..)
  | create who c => exact Gives.all (o := execCreate who c s) (execCreate_keeps ..)
  | destroy who c => exact Gives.all (o := execDestroy who c s) (execDestroy_keeps ..)
  | destroyComplete c => exact Gives.all (o := execDestroyComplete c s) (execDestroyComplete_keeps ..)
  | ringEnable who c k value => exact Gives.all (o := execRingEnable who c k value s) (execRingEnable_keeps ..)
  | ringDisable who c k value => exact Gives.all (o := execRingDisable who c k value s) (execRingDisable_keeps ..)
  | consumerIndexWrite c k => exact Gives.all (o := execConsumerIndexWrite c k s) (execConsumerIndexWrite_keeps ..)
  | ringRateDefer c => exact Gives.all (o := execRingRateDefer c s) (execRingRateDefer_keeps ..)
  | request c => exact Gives.all (o := execRequest c s) (execRequest_keeps ..)
  | servingStep c ended => exact Gives.all (o := execServingStep c ended s) (execServingStep_keeps ..)
  | ctxServe who c value => exact Gives.all (o := execCtxServe who c value s) (execCtxServe_keeps ..)
  | manifest c => exact Gives.all (o := execManifest c s) (execManifest_keeps ..)
  | load c => exact Gives.all (o := execLoad c s) (execLoad_keeps ..)
  | tileDigestCheck c => exact Gives.all (o := execTileDigestCheck c s) (execTileDigestCheck_keeps ..)
  | digest c => exact Gives.all (o := execDigest c s) (execDigest_keeps ..)
  | hostLinkTraining port mode speed width => exact Gives.all (o := execHostLinkTraining port mode speed width s) (execHostLinkTraining_keeps ..)
  | hotReset port => exact Gives.all (o := execHotReset port s) (execHotReset_keeps ..)
  | bar2Access port offset len data => exact Gives.all (o := execBar2Access port offset len data s) (execBar2Access_keeps ..)
  | hpxHdm who port value => exact Gives.all (o := execHpxHdm who port value s) (execHpxHdm_keeps ..)
  | windowMove w => exact Gives.all (o := execWindowMove w s) (execWindowMove_keeps ..)
  | acquire who i ctx lease => exact Gives.all (o := execAcquire who i ctx lease s) (execAcquire_keeps ..)
  | release who i ctx key => exact Gives.all (o := execRelease who i ctx key s) (execRelease_keeps ..)
  | renew who i ctx key lease => exact Gives.all (o := execRenew who i ctx key lease s) (execRenew_keeps ..)
  | leaseExpiry i => exact Gives.all (o := execLeaseExpiry i s) (execLeaseExpiry_keeps ..)
  | powerOn => exact Gives.all (o := execPowerOn s) (execPowerOn_keeps ..)
  | softStart stage => exact Gives.all (o := execSoftStart stage s) (execSoftStart_keeps ..)
  | pwrfail => exact Gives.all (o := execPwrfail s) (execPwrfail_keeps ..)
  | pin => exact Gives.all (o := execPin s) (execPin_keeps ..)
  | vin => exact Gives.all (o := execVin s) (execVin_keeps ..)
  | stageFault stage => exact Gives.all (o := execStageFault stage s) (execStageFault_keeps ..)
  | refloss => exact Gives.all (o := execRefloss s) (execRefloss_keeps ..)
  | vbakFault => exact Gives.all (o := execVbakFault s) (execVbakFault_keeps ..)
  | resetRelease => exact Gives.all (o := execResetRelease s) (execResetRelease_keeps ..)
  | resetExit => exact Gives.all (o := execResetExit s) (execResetExit_keeps ..)
  | pllLock => exact Gives.all (o := execPllLock s) (execPllLock_keeps ..)
  | pinGlitch pwrOk => exact Gives.all (o := execPinGlitch pwrOk s) (execPinGlitch_keeps ..)
  | powerSample vin iin vbak => exact Gives.all (o := execPowerSample vin iin vbak s) (execPowerSample_keeps ..)
  | throttleDecay => exact Gives.all (o := execThrottleDecay s) (execThrottleDecay_keeps ..)
  | throttleWindow die => exact Gives.all (o := execThrottleWindow die s) (execThrottleWindow_keeps ..)
  | temperatureReading rs => exact Gives.all (o := execTemperatureReading rs s) (execTemperatureReading_keeps ..)
  | evtInEdge k rising => exact Gives.all (o := execEvtInEdge k rising s) (execEvtInEdge_keeps ..)
  | pulse who mask => exact Gives.all (o := execPulse who mask s) (execPulse_keeps ..)
  | program who => exact Gives.all (o := execProgram who s) (execProgram_keeps ..)
  | firmwareBoot => exact Gives.all (o := execFirmwareBoot s) (execFirmwareBoot_keeps ..)
  | attest who => exact Gives.all (o := execAttest who s) (execAttest_keeps ..)
  | cert who => exact Gives.all (o := execCert who s) (execCert_keeps ..)
  | fwverify who => exact Gives.all (o := execFwverify who s) (execFwverify_keeps ..)
  | enrol who slot => exact Gives.all (o := execEnrol who slot s) (execEnrol_keeps ..)
  | revoke who slot => exact Gives.all (o := execRevoke who slot s) (execRevoke_keeps ..)
  | fusesvn who => exact Gives.all (o := execFusesvn who s) (execFusesvn_keeps ..)
  | openDebug who => exact Gives.all (o := execOpenDebug who s) (execOpenDebug_keeps ..)
  | jtagInstruction ir => exact (jtagInstruction_gives (h ir rfl)).all
  | readWord code => exact Gives.all (o := execReadWord code s) (execReadWord_keeps ..)
  | smbusClockTimeout => exact Gives.all (o := execSmbusClockTimeout s) (execSmbusClockTimeout_keeps ..)
  | tallyQueueWrite unit => exact Gives.all (o := execTallyQueueWrite unit s) (execTallyQueueWrite_keeps ..)
  | crossTrigger => exact Gives.all (o := execCrossTrigger s) (execCrossTrigger_keeps ..)
  | tlyFreeze who unit => exact Gives.all (o := execTlyFreeze who unit s) (execTlyFreeze_keeps ..)
  | rearm who unit => exact Gives.all (o := execRearm who unit s) (execRearm_keeps ..)
  | blackBoxWrite => exact Gives.all (o := execBlackBoxWrite s) (execBlackBoxWrite_keeps ..)
  | bbxFreeze who => exact Gives.all (o := execBbxFreeze who s) (execBbxFreeze_keeps ..)
  | unfreeze who => exact Gives.all (o := execUnfreeze who s) (execUnfreeze_keeps ..)
  | deviceScopeReset who => exact Gives.all (o := execDeviceScopeReset who s) (execDeviceScopeReset_keeps ..)
  | contextScopeReset who c => exact Gives.all (o := execContextScopeReset who c s) (execContextScopeReset_keeps ..)
  | go who c => exact Gives.all (o := execGo who c s) (execGo_keeps ..)
  | counterClear ctx => exact Gives.all (o := execCounterClear ctx s) (execCounterClear_keeps ..)
  | firmwareReport t => exact Gives.all (o := execFirmwareReport t s) (execFirmwareReport_keeps ..)
  | watchdogExpiry t => exact Gives.all (o := execWatchdogExpiry t s) (execWatchdogExpiry_keeps ..)
  | coreTest core passed => exact Gives.all (o := execCoreTest core passed s) (execCoreTest_keeps ..)
  | activate who target => exact Gives.all (o := execActivate who target s) (execActivate_keeps ..)
  | handoverComplete => exact Gives.all (o := execHandoverComplete s) (execHandoverComplete_keeps ..)
  | activationTimeout => exact Gives.all (o := execActivationTimeout s) (execActivationTimeout_keeps ..)
  | registerWrite who offset size value => exact Gives.all (o := execRegisterWrite who offset size value s) (execRegisterWrite_keeps ..)
  | registerRead who offset size => exact Gives.all (o := execRegisterRead who offset size s) (execRegisterRead_keeps ..)
  | droppedFrame p => exact Gives.all (o := execDroppedFrame p s) (execDroppedFrame_keeps ..)
  | smbusWrite code => exact Gives.all (o := execSmbusWrite code s) (execSmbusWrite_keeps ..)
  | testAccessPortReset => exact Gives.all (o := execTestAccessPortReset s) (execTestAccessPortReset_keeps ..)

/-- Settles O4: every command's meaning answers a next state that keeps the queue. -/
theorem everyCommandAnswers : Obligations.EveryCommandAnswers := by
  intro c s h
  obtain ⟨t, ht, hkeeps⟩ := exec_gives c s h
  exact ⟨t, ht, hkeeps.only.1⟩

end Sys2Proof.Machine
end

section
/-! The WEAVE block's operations (R25 to R28, R32, R34, R35): what each WEAVE_CTL operation does once it is admitted, and how verification and a
write of the boot image end. -/

namespace Sys2Proof.Machine

open Sys2Proof

/-! ### An admitted operation -/

/-- A changed WEAVE block is the only change of its state. -/
theorem Only.set_weave (s : State) (w : Weave) : Only [.weave] s { s with weave := w } := ((Keeps.refl _ s).set_weave (by decide)).only

theorem wvCtl_admitted {who : Party} {s : State} (op : Nat) (ha : Admitted s who .admin) (hh : hubHandsOver s = false) :
    wvCtl who op s = wvRun s who op :=
  (gated_admitted _ ha).trans (if_neg (Bool.eq_false_iff.mp hh))

section

variable {who : Party} {s : State} (ha : Admitted s who .admin) (hl : s.weave.loaded = true) (hh : hubHandsOver s = false)
include ha hl hh

theorem exec_stage : exec (.stage who) s = .next (wvStage s) :=
  congrArg Host.Outcome.next ((wvCtl_admitted 1 ha hh).trans (by simp [wvRun, hl]))

theorem exec_apply : exec (.apply who) s = .next (wvApply s who) :=
  congrArg Host.Outcome.next ((wvCtl_admitted 2 ha hh).trans (by simp [wvRun, hl]))

theorem exec_abort : exec (.abort who) s = .next (wvAbort s) :=
  congrArg Host.Outcome.next ((wvCtl_admitted 3 ha hh).trans (by simp [wvRun, hl]))

theorem exec_persist : exec (.persist who) s = .next (wvPersist s) :=
  congrArg Host.Outcome.next ((wvCtl_admitted 4 ha hh).trans (by simp [wvRun, hl]))

end

/-! ### STAGE and VERIFICATION_END -/

theorem wvRefusal_idle_or_staged {w : WvState} (h : w = .idle ∨ w = .staged) : wvRefusal w = none := by
  obtain rfl | rfl := h <;> rfl

/-- With a header and an image that can be read, STAGE fetches the image. -/
theorem wvStage_readable {s : State} (hst : s.weave.st = .idle ∨ s.weave.st = .staged) (hhead : imageFault s (s.weave.src.toNat * 8) 64 = none)
    (htotal : wvTotalOk (devRead s (s.weave.src.toNat * 8) 64) = true)
    (hbody : imageFault s (s.weave.src.toNat * 8) (wvTotal (devRead s (s.weave.src.toNat * 8) 64)) = none) :
    wvStage s = { (devTouch s {} (s.weave.src.toNat * 8) (wvTotal (devRead s (s.weave.src.toNat * 8) 64))) with
      weave := { s.weave with st := .verifying, next := 0, fetchErr := 0,
                              image := devRead s (s.weave.src.toNat * 8) (wvTotal (devRead s (s.weave.src.toNat * 8) 64)) } } := by
  unfold wvStage
  rw [wvRefusal_idle_or_staged hst]
  dsimp only
  rw [hhead]
  dsimp only
  rw [if_pos htotal, hbody]

theorem exec_verificationEnd_pass {s : State} (hst : s.weave.st = .verifying) (hf : s.weave.fetchErr = 0)
    (hv : verifyImage s s.weave.cur s.weave.image false = none) :
    exec .verificationEnd s = .next { s with weave := { s.weave with
      st := .staged, next := BitVec.ofNat 32 (wvGen s.weave.image), result := stDone, errsec := 0xFF } } := by
  change execVerificationEnd s = _
  unfold execVerificationEnd
  dsimp only
  rw [if_neg (not_not.mpr hst), if_neg (not_not.mpr hf), hv]

theorem exec_verificationEnd_fail {s : State} {f : Status × Nat} (hst : s.weave.st = .verifying) (hf : s.weave.fetchErr = 0)
    (hv : verifyImage s s.weave.cur s.weave.image false = some f) :
    exec .verificationEnd s = .next { s with weave := { s.weave with
      st := .idle, next := 0, image := [], result := f.1, errsec := BitVec.ofNat 8 f.2 } } := by
  change execVerificationEnd s = _
  unfold execVerificationEnd
  dsimp only
  rw [if_neg (not_not.mpr hst), if_neg (not_not.mpr hf), hv]

/-! ### APPLY -/

/-- The generation that an APPLY of the staged delta starts to establish. -/
def stagedGen (s : State) : WeaveGen :=
  { gen := BitVec.ofNat 32 (wvGen s.weave.image), sects := produce s.weave.cur.sects s.weave.image, digest := sha256 s.weave.image }

/-- A staged delta that raises no limit, or that a host port applies, starts its change. -/
theorem wvApply_staged {who : Party} {s : State} (hst : s.weave.st = .staged) (hkind : wvKind s.weave.image ≠ 0)
    (hlimit : who = .fw → raisesLimit s s.weave.cur.sects (produce s.weave.cur.sects s.weave.image) = false) :
    wvApply s who = { s with weave := { s.weave with
      st := .applying, nxt := some (stagedGen s), adopted := [], span := s.weave.window.toNat,
      deadline := s.time + BitVec.ofNat 64 (s.weave.window.toNat * 1000), fenced := 0 } } := by
  unfold wvApply
  rw [hst]
  dsimp only
  rw [if_neg hkind, if_neg]
  · rfl
  · simpa using hlimit

/-- Settles O7: each of the three operations takes the branch in which every check of its passes. -/
theorem stageVerifyApply : Obligations.StageVerifyApply := by
  refine ⟨fun who s ha hl hh hst hhead htotal hbody => ?_, fun s hst hf hv => ?_, fun who s ha hl hh hst hkind hlimit => ?_⟩
  · refine ⟨_, exec_stage ha hl hh, ?_⟩
    rw [wvStage_readable hst hhead htotal hbody]
    exact ⟨(((devTouch_keeps ..).mono (by decide)).set_weave (by decide)).only, rfl, rfl, rfl, rfl, rfl⟩
  · exact ⟨_, exec_verificationEnd_pass hst hf hv, Only.set_weave .., rfl, rfl, rfl, BitVec.toNat_ofNat .., rfl, rfl⟩
  · refine ⟨_, stagedGen s, exec_apply ha hl hh, ?_⟩
    rw [wvApply_staged hst hkind hlimit]
    exact ⟨Only.set_weave .., rfl, rfl, rfl, BitVec.toNat_ofNat .., rfl, rfl, rfl⟩

/-! ### Operations in a state that refuses them -/

/-- In a state where STAGE, APPLY and PERSIST are refused, each only leaves the status of its refusal. -/
theorem exec_refused {who : Party} {s : State} {st : Status} (ha : Admitted s who .admin) (hl : s.weave.loaded = true)
    (hh : hubHandsOver s = false) (hr : wvRefusal s.weave.st = some st) :
    ∀ c ∈ [Instr.stage who, .apply who, .persist who], exec c s = .next (wvResult s st) := by
  have happly : wvApply s who = wvResult s st := by
    unfold wvApply
    cases hst : s.weave.st <;> rw [hst] at hr <;> cases hr <;> rfl
  simp only [List.mem_cons, List.not_mem_nil, or_false]
  rintro c (rfl | rfl | rfl)
  · rw [exec_stage ha hl hh, wvStage, hr]
  · rw [exec_apply ha hl hh, happly]
  · rw [exec_persist ha hl hh, wvPersist, hr]

/-! ### ABORT and PERSIST -/

/-- An image that is being verified or staged is dropped. -/
theorem wvAbort_drops {s : State} (h : s.weave.st = .verifying ∨ s.weave.st = .staged) :
    wvAbort s = { s with weave := { s.weave with st := .idle, image := [], next := 0, result := stDone } } := by
  unfold wvAbort
  obtain h | h := h <;> rw [h]

theorem wvPersist_boot_image {s : State} (hst : s.weave.st = .staged) (hkind : wvKind s.weave.image = 0) :
    wvPersist s = { s with weave := { s.weave with st := .persisting, persist := s.weave.image } } := by
  unfold wvPersist
  rw [wvRefusal_idle_or_staged (.inr hst)]
  dsimp only
  rw [if_pos hst, if_pos hkind]

theorem wvPersist_composed {s : State} (hst : s.weave.st = .idle) (hid : s.sec.noid = false) (hkey : s.sec.derived = true) :
    wvPersist s = { s with weave := { s.weave with st := .persisting, persist := composeWeave s.weave.cur } } := by
  unfold wvPersist
  rw [wvRefusal_idle_or_staged (.inl hst)]
  dsimp only
  rw [if_neg (by simp [hst]), if_neg (by simp [hid, hkey])]

/-- The block once a write of the boot image has ended, before its slots change. -/
def Weave.persisted (w : Weave) : Weave := { w with st := .idle, next := 0, image := [], persist := [] }

/-- The slot that a good read-back leaves. -/
def Weave.bootSlot (w : Weave) : WvSlot := { valid := true, gen := BitVec.ofNat 32 (wvGen w.persist), image := w.persist }

theorem exec_persistEnd_good {s : State} (hst : s.weave.st = .persisting) :
    exec (.persistEnd true) s = .next { s with weave :=
      { (putSlot s.weave.persisted s.weave.bootSlot false) with inUse := !s.weave.inUse, result := stDone } } := by
  change execPersistEnd true s = _
  unfold execPersistEnd
  dsimp only
  rw [if_neg (not_not.mpr hst), if_pos rfl]
  rfl

theorem exec_persistEnd_bad {s : State} (hst : s.weave.st = .persisting) :
    exec (.persistEnd false) s = .next { s with weave := { (putSlot s.weave.persisted {} true) with result := stEcc } } := by
  change execPersistEnd false s = _
  unfold execPersistEnd
  dsimp only
  rw [if_neg (not_not.mpr hst), if_neg (by decide)]
  rfl

/-- While slot B is in use, slot A is written. -/
theorem putSlot_a {w : Weave} (h : w.inUse = true) (x : WvSlot) (keep : Bool) :
    putSlot w x keep = { w with slotA := x, slotB := { w.slotB with valid := w.slotB.valid && keep } } := if_pos h

/-- While slot A is in use, slot B is written. -/
theorem putSlot_b {w : Weave} (h : w.inUse = false) (x : WvSlot) (keep : Bool) :
    putSlot w x keep = { w with slotB := x, slotA := { w.slotA with valid := w.slotA.valid && keep } } := if_neg (Bool.eq_false_iff.mp h)

/-- Settles O8: an operation is refused by its state, or takes the branch of that state; a write of the boot image fills the slot not in use. -/
theorem weaveOperationsEnd : Obligations.WeaveOperationsEnd := by
  refine ⟨⟨fun s f hst hf hv => ?_, fun who s ha hl hh hst c hc => ?_, fun who s ha hl hh hst c hc => ?_⟩,
    fun who s ha hl hh hst => ?_, fun who s ha hl hh hst hkind => ?_, fun who s ha hl hh hst hid hkey => ?_, fun s hst => ⟨?_, ?_⟩⟩
  · exact ⟨_, exec_verificationEnd_fail hst hf hv, Only.set_weave .., rfl, rfl, rfl, rfl, rfl⟩
  · have hr : wvRefusal s.weave.st = some stGeneration := by obtain hst | hst := hst <;> rw [hst] <;> rfl
    exact ⟨_, exec_refused ha hl hh hr c hc, Only.set_weave .., rfl⟩
  · have hr : wvRefusal s.weave.st = some stMode := by obtain hst | hst := hst <;> rw [hst] <;> rfl
    exact ⟨_, exec_refused ha hl hh hr c hc, Only.set_weave .., rfl⟩
  · refine ⟨_, exec_abort ha hl hh, ?_⟩
    rw [wvAbort_drops hst]
    exact ⟨Only.set_weave .., rfl, rfl, rfl, rfl, rfl⟩
  · refine ⟨_, exec_persist ha hl hh, ?_⟩
    rw [wvPersist_boot_image hst hkind]
    exact ⟨Only.set_weave .., rfl, rfl⟩
  · refine ⟨_, exec_persist ha hl hh, ?_⟩
    rw [wvPersist_composed hst hid hkey]
    exact ⟨Only.set_weave .., rfl, rfl⟩
  · refine ⟨_, exec_persistEnd_good hst, Only.set_weave .., ?_⟩
    cases hu : s.weave.inUse with
    | false => rw [putSlot_b (w := s.weave.persisted) hu]; exact ⟨rfl, rfl, rfl, rfl, rfl, Bool.and_false _⟩
    | true => rw [putSlot_a (w := s.weave.persisted) hu]; exact ⟨rfl, rfl, rfl, rfl, rfl, Bool.and_false _⟩
  · refine ⟨_, exec_persistEnd_bad hst, Only.set_weave .., ?_⟩
    cases hu : s.weave.inUse with
    | false => rw [putSlot_b (w := s.weave.persisted) hu]; exact ⟨rfl, rfl, hu, congrArg (WvSlot.mk · _ _) (Bool.and_true _)⟩
    | true => rw [putSlot_a (w := s.weave.persisted) hu]; exact ⟨rfl, rfl, hu, congrArg (WvSlot.mk · _ _) (Bool.and_true _)⟩

end Sys2Proof.Machine
end

section
/-! A change of generation (R29 to R32): which units are still at g, what an adoption of an Ibex lane leaves, and how a change ends. -/

namespace Sys2Proof.Machine

open Sys2Proof

/-! ### The units still at g -/

theorem mem_unitsAtG {s : State} {u : CfgUnit} : u ∈ unitsAtG s ↔ u ∈ serviceUnits s ∧ u ∉ s.weave.adopted := by simp [unitsAtG]

theorem serviceUnits_congr {s t : State} (h : t.weave.cur = s.weave.cur) : serviceUnits t = serviceUnits s := by unfold serviceUnits; rw [h]

/-! ### A lane adopts or returns -/

/-- A lane's adoption changes nothing but the list of units that have adopted. -/
theorem adoptOne_lane (s : State) (l : Nat) : adoptOne s (.lane l) = { s with weave := { s.weave with adopted := .lane l :: s.weave.adopted } } := rfl

theorem returnOne_lane (s : State) (l : Nat) :
    returnOne s (.lane l) = { s with weave := { s.weave with adopted := s.weave.adopted.filter (· != .lane l) } } := rfl

theorem mem_unitsAtG_adoptOne_lane {s : State} {l : Nat} {u : CfgUnit} :
    u ∈ unitsAtG (adoptOne s (.lane l)) ↔ u ∈ unitsAtG s ∧ u ≠ .lane l := by
  have hserved : serviceUnits (adoptOne s (.lane l)) = serviceUnits s := serviceUnits_congr rfl
  have hadopted : (adoptOne s (.lane l)).weave.adopted = .lane l :: s.weave.adopted := rfl
  simp only [mem_unitsAtG, hserved, hadopted, List.mem_cons, not_or]
  exact ⟨fun ⟨hu, hne, ha⟩ => ⟨⟨hu, ha⟩, hne⟩, fun ⟨⟨hu, ha⟩, hne⟩ => ⟨hu, hne, ha⟩⟩

theorem genOf_of_adopted {s : State} {g : WeaveGen} {u : CfgUnit} (hn : s.weave.nxt = some g) (h : u ∈ s.weave.adopted) : genOf s u = g.gen := by
  simp [genOf, hn, h]

theorem sectsOf_of_adopted {s : State} {g : WeaveGen} {u : CfgUnit} (hn : s.weave.nxt = some g) (h : u ∈ s.weave.adopted) :
    sectsOf s u = g.sects := by
  simp [sectsOf, hn, h]

theorem genOf_of_not_adopted {s : State} {u : CfgUnit} (h : u ∉ s.weave.adopted) : genOf s u = s.weave.cur.gen := by
  unfold genOf
  split
  · exact if_neg h
  · rfl

/-- Units that have adopted or not, alike in two states of one change, hold the same generation. -/
theorem genOf_congr {s t : State} {u : CfgUnit} (hn : t.weave.nxt = s.weave.nxt) (hc : t.weave.cur = s.weave.cur)
    (ha : u ∈ t.weave.adopted ↔ u ∈ s.weave.adopted) : genOf t u = genOf s u := by
  unfold genOf
  simp only [hn, hc, ha]

section

variable {l : Nat} {s : State} (hl : l < 128) (hfence : CfgUnit.lane l ∉ s.weave.fences) (hsafe : unitSafe s (.lane l) = true)
  (hkept : unitRetired (retiredOf s.weave.cur.sects) (.lane l) = false)
include hl hfence hsafe hkept

/-- A lane at its safe point that is not yet at g + 1 adopts it. -/
theorem exec_unitAdopt_applying (hst : s.weave.st = .applying) (hnot : CfgUnit.lane l ∉ s.weave.adopted) :
    exec (.unitAdopt (.lane l) false) s = .next (closeChange (adoptOne s (.lane l))) := by
  change execUnitAdopt (.lane l) false s = _
  simp [execUnitAdopt, hkept, mem_allUnits_lane hl, hfence, hsafe, hst, hnot]

/-- A lane at its safe point that had adopted returns while a rollback runs. -/
theorem exec_unitAdopt_rollingBack (hst : s.weave.st = .rollingBack) (hin : CfgUnit.lane l ∈ s.weave.adopted) :
    exec (.unitAdopt (.lane l) false) s = .next (closeChange (returnOne s (.lane l))) := by
  change execUnitAdopt (.lane l) false s = _
  simp [execUnitAdopt, hkept, mem_allUnits_lane hl, hfence, hsafe, hst, hin]

end

/-! ### How a change ends -/

theorem closeChange_applying_open {s : State} (hst : s.weave.st = .applying) (h : unitsAtG s ≠ []) : closeChange s = s := by
  unfold closeChange; rw [hst]; exact if_neg h

theorem closeChange_applying_done {s : State} (hst : s.weave.st = .applying) (h : unitsAtG s = []) : closeChange s = activateGen s := by
  unfold closeChange; rw [hst]; exact if_pos h

theorem closeChange_rollingBack_open {s : State} (hst : s.weave.st = .rollingBack) (h : s.weave.adopted ≠ []) : closeChange s = s := by
  unfold closeChange; rw [hst]; exact if_neg h

theorem closeChange_rollingBack_done {s : State} (hst : s.weave.st = .rollingBack) (h : s.weave.adopted = []) :
    closeChange s = rolledBack s := by
  unfold closeChange; rw [hst]; exact if_pos h

/-- The generation g + 1 comes into force in the WEAVE block and the measurement; what the bridges, clocks and Hurdles then do touches neither. -/
theorem activateGen_weave_sec {s : State} {g : WeaveGen} (hn : s.weave.nxt = some g) :
    (activateGen s).weave = { s.weave with
        cur := g, nxt := none, adopted := [], fences := [], st := .idle, result := stDone, next := 0, image := [],
        evt := s.weave.evt ||| BitVec.ofNat 3 (2 ^ 0) } ∧
      (activateGen s).sec = { s.sec with wmeas := sha256 (s.sec.wmeas ++ g.digest) } := by
  have hrewatch : ∀ f : State → State, (withRewatch s f).weave = (f s).weave ∧ (withRewatch s f).sec = (f s).sec := fun f =>
    ⟨(rewatch_keeps ..).only.2 .weave (by decide), (rewatch_keeps ..).only.2 .sec (by decide)⟩
  have hbridges : ∀ u : State, Keeps [.uni, .uniBad, .host, .cores, .ctxs, .mports, .tiers, .oports, .accesses, .nextTag, .paths, .ces, .hps, .tallies]
      u ((List.range 32).foldl releaseBridge u) :=
    fun u => Keeps.foldl (Keeps.refl _ _) (fun v p h => h.step (releaseBridge_keeps ..) (by decide))
  have hclocks : ∀ (b : Bool) (u : State), Keeps [.hub2] u (if b then adoptClocks u g.sects else u) := fun b u =>
    Keeps.ite (fun _ => adoptClocks_keeps ..) (fun _ => Keeps.refl _ _)
  unfold activateGen
  rw [hn]
  dsimp only
  rw [wvEvent_weave]
  have hsec : ∀ (u : State) (a b : Nat), (wvEvent u a b).sec = u.sec := fun u a b => (wvEvent_keeps ..).only.2 .sec (by decide)
  rw [hsec, (liftRetired_keeps _).only.2 .weave (by decide), (liftRetired_keeps _).only.2 .sec (by decide),
    (hclocks ..).only.2 .weave (by decide), (hclocks ..).only.2 .sec (by decide),
    (hbridges _).only.2 .weave (by decide), (hbridges _).only.2 .sec (by decide), (hrewatch _).1, (hrewatch _).2]
  exact ⟨rfl, rfl⟩

/-- The end of the window of a delta that retires nothing turns the change into a rollback, over at once when no unit had adopted. -/
theorem expireWindow_rolls_back {s : State} (hret : hasType s.weave.image 8 = false) :
    ∃ u, u.weave = { s.weave with st := .rollingBack, deadline := s.time + BitVec.ofNat 64 (s.weave.span * 1000) } ∧
      expireWindow s = if s.weave.adopted = [] then rolledBack u else u := by
  let r : State := { s with weave := { s.weave with st := .rollingBack, deadline := s.time + BitVec.ofNat 64 (s.weave.span * 1000) } }
  have hu := (foldl_weave releaseBridge ((List.range 32).filter (fun p => !r.weave.adopted.contains (.oport p))) releaseBridge_weave r).1
  refine ⟨_, hu, ?_⟩
  unfold expireWindow
  rw [if_neg (by simp [hret])]
  dsimp only
  rw [hu]

theorem exec_windowExpiry {s : State} (hst : s.weave.st = .applying) (hdue : s.weave.deadline.toNat ≤ s.time.toNat) :
    exec .windowExpiry s = .next (expireWindow s) := if_pos (by simp [hst, hdue])

/-- The units still at g + 1 that no fence of the Weave holds yet when a rollback's window ends. -/
def toReturn (s : State) : List CfgUnit := s.weave.adopted.filter (fun u => !s.weave.fences.contains u)

/-- The forced end of a rollback's window, before the change is closed. -/
def forceReturn (s : State) : State :=
  let t := (toReturn s).foldl (weaveFence returnOne) s
  if toReturn s = [] then t else wvEvent t 1 (nextGen s)

theorem exec_rollbackWindowExpiry {s : State} (hst : s.weave.st = .rollingBack) (hdue : s.weave.deadline.toNat ≤ s.time.toNat) :
    exec .rollbackWindowExpiry s = .next (closeChange (forceReturn s)) := if_pos (by simp [hst, hdue])

/-- A forced return leaves the generation in force, goes on rolling back, and leaves only fenced units at g + 1. -/
theorem forceReturn_weave (s : State) : (forceReturn s).weave.cur = s.weave.cur ∧ (forceReturn s).weave.st = s.weave.st ∧
    (∀ u ∈ (forceReturn s).weave.adopted, u ∈ (forceReturn s).weave.fences) ∧
    ((∃ u ∈ s.weave.adopted, u ∉ s.weave.fences) → (forceReturn s).weave.evt.getLsbD 1 = true) := by
  have hsplit : ∀ u ∈ s.weave.adopted, u ∈ toReturn s ∨ u ∈ s.weave.fences := by
    intro u hu
    by_cases hf : u ∈ s.weave.fences
    · exact .inr hf
    · exact .inl (List.mem_filter.mpr ⟨hu, by simpa using hf⟩)
  obtain ⟨hcur, hst, hfenced⟩ := weaveFences_returned (toReturn s) s hsplit
  unfold forceReturn
  by_cases hnone : toReturn s = []
  · refine ⟨by rw [if_pos hnone]; exact hcur, by rw [if_pos hnone]; exact hst, by rw [if_pos hnone]; exact hfenced, ?_⟩
    rintro ⟨u, hu, hf⟩
    exact absurd ((hsplit u hu).resolve_right hf) (by simp [hnone])
  · rw [if_neg hnone, wvEvent_weave]
    exact ⟨hcur, hst, hfenced, fun _ => by simp⟩

theorem rolledBack_evt (s : State) : (rolledBack s).weave.evt.getLsbD 2 = true ∧ (rolledBack s).weave.evt.getLsbD 1 = s.weave.evt.getLsbD 1 := by
  rw [rolledBack_weave]
  exact ⟨by simp, by simp⟩

/-- Settles O9: a lane's adoption or return only changes who has adopted; the change then stays open, or ends as its state says. -/
theorem generationChanges : Obligations.GenerationChanges := by
  refine ⟨⟨fun l s g hl hfence hsafe hkept hst hn hnot hother => ?_, fun l s g hl hfence hsafe hkept hst hn hin hother => ?_⟩,
    fun l s g hl hfence hsafe hkept hst hn hlast => ?_, fun s hst hdue hret hsome => ?_, fun s hst hdue hret hnone => ?_, fun s hst hdue => ?_⟩
  · obtain ⟨u, hu, hug⟩ := hother
    have hopen : unitsAtG (adoptOne s (.lane l)) ≠ [] := List.ne_nil_of_mem (mem_unitsAtG_adoptOne_lane.mpr ⟨hug, hu⟩)
    refine ⟨adoptOne s (.lane l), ?_, Only.set_weave .., hst, genOf_of_not_adopted hnot, genOf_of_adopted hn (List.mem_cons_self ..),
      sectsOf_of_adopted hn (List.mem_cons_self ..), fun v hv => genOf_congr rfl rfl ?_⟩
    · rw [exec_unitAdopt_applying hl hfence hsafe hkept hst hnot, closeChange_applying_open (s := adoptOne s (.lane l)) hst hopen]
    · simp [adoptOne_lane, hv]
  · obtain ⟨u, hu, hua⟩ := hother
    have hopen : (returnOne s (.lane l)).weave.adopted ≠ [] := List.ne_nil_of_mem (List.mem_filter.mpr ⟨hua, by simpa using hu⟩)
    refine ⟨returnOne s (.lane l), ?_, Only.set_weave .., hst, genOf_of_not_adopted (by simp [returnOne_lane])⟩
    rw [exec_unitAdopt_rollingBack hl hfence hsafe hkept hst hin, closeChange_rollingBack_open (s := returnOne s (.lane l)) hst hopen]
  · have hnot : CfgUnit.lane l ∉ s.weave.adopted := (mem_unitsAtG.mp (hlast ▸ List.mem_singleton_self _)).2
    have hdone : unitsAtG (adoptOne s (.lane l)) = [] := List.eq_nil_iff_forall_not_mem.mpr fun u hu => by
      obtain ⟨hug, hne⟩ := mem_unitsAtG_adoptOne_lane.mp hu
      exact hne (List.mem_singleton.mp (hlast ▸ hug))
    refine ⟨activateGen (adoptOne s (.lane l)), ?_, ?_⟩
    · rw [exec_unitAdopt_applying hl hfence hsafe hkept hst hnot, closeChange_applying_done (s := adoptOne s (.lane l)) hst hdone]
    · obtain ⟨hweave, hsec⟩ := activateGen_weave_sec (s := adoptOne s (.lane l)) hn
      rw [hweave, hsec]
      exact ⟨rfl, rfl, rfl, rfl, by simp, rfl⟩
  · obtain ⟨u, hu, hend⟩ := expireWindow_rolls_back hret
    rw [if_neg hsome] at hend
    exact ⟨u, by rw [exec_windowExpiry hst hdue, hend], by rw [hu], by rw [hu], by rw [hu], by rw [hu]⟩
  · obtain ⟨u, hu, hend⟩ := expireWindow_rolls_back hret
    rw [if_pos hnone] at hend
    refine ⟨rolledBack u, by rw [exec_windowExpiry hst hdue, hend], rfl, ?_, rfl, rfl, (rolledBack_evt u).1⟩
    rw [rolledBack_weave, hu]
  · obtain ⟨hcur, hst', hfenced, hevt⟩ := forceReturn_weave s
    rw [hst] at hst'
    by_cases hnone : (forceReturn s).weave.adopted = []
    · refine ⟨rolledBack (forceReturn s), ?_, hcur, fun h => ((rolledBack_evt _).2.trans (hevt h)), .inl ⟨rfl, rfl, rfl, rfl, (rolledBack_evt _).1⟩⟩
      rw [exec_rollbackWindowExpiry hst hdue, closeChange_rollingBack_done hst' hnone]
    · refine ⟨forceReturn s, ?_, hcur, hevt, .inr ⟨hst', hnone, hfenced⟩⟩
      rw [exec_rollbackWindowExpiry hst hdue, closeChange_rollingBack_open hst' hnone]

end Sys2Proof.Machine
end

section
/-! The Weave that the boot shepherd loads (R27), and a die's CCLK (R17, R23, R76). -/

namespace Sys2Proof.Machine

open Sys2Proof

theorem bootWeave_minimal {s : State} (h : (bootWeave s).1 = 2) : (bootWeave s).2 = minimalGen := by
  have hslots : ∀ x ∈ bootSlots s.weave, x.1 ≠ 2 := by
    intro x hx
    have hmem := List.mem_of_mem_filter hx
    split at hmem <;> simp only [List.mem_cons, List.not_mem_nil, or_false] at hmem <;> obtain rfl | rfl := hmem
    all_goals simp
  unfold bootWeave at h ⊢
  split at h
  · next x hx => exact absurd h (hslots x (List.mem_of_find?_eq_some hx))
  · rfl

theorem exec_loadingAtBoot {s : State} (hrun : s.hub.phase = .running) (hboot : s.sec.booted = true) (hst : s.sec.st ≠ 2)
    (hload : s.weave.loaded = false) : exec .loadingAtBoot s = .next (adoptBoot s (bootWeave s)) :=
  if_neg (by simpa [hrun, hboot, hload] using hst)

/-! ### CCLK -/

theorem dieIdle_iff {s : State} {d : Nat} : dieIdle s d = true ↔ ∀ i, i < 100 → (s.core (100 * d + i)).running = [] := by
  simp [dieIdle]

/-- The changes that wait once a die has asked for a code. -/
def clkAsked (s : State) (d c : Nat) : List (Nat × Nat) := s.hub2.clkPend.filter (fun y => y.1 != d) ++ [(d, c)]

theorem clkAsked_find (s : State) (d c : Nat) : (clkAsked s d c).find? (fun x => x.1 == d) = some (d, c) := by
  have hnone : (s.hub2.clkPend.filter (fun y => y.1 != d)).find? (fun x => x.1 == d) = none :=
    List.find?_eq_none.mpr fun x hx => by simpa using (List.mem_filter.mp hx).2
  rw [clkAsked, List.find?_append, hnone]
  simp

/-- A die whose cores are all between commands takes the code at once, and no change of it waits any more. -/
theorem askClk_idle {s : State} {d c : Nat} (h : dieIdle s d = true) :
    askClk s d c = { s with hub2 := { s.hub2 with
      clkCode := tset d0 s.hub2.clkCode d (BitVec.ofNat 5 c), clkPend := (clkAsked s d c).filter (fun y => y.1 != d) } } := by
  unfold askClk settleClk
  dsimp only
  rw [← clkAsked, clkAsked_find]
  exact if_pos h

/-- A die with a command running holds the change. -/
theorem askClk_busy {s : State} {d c : Nat} (h : dieIdle s d = false) :
    askClk s d c = { s with hub2 := { s.hub2 with clkPend := clkAsked s d c } } := by
  unfold askClk settleClk
  dsimp only
  rw [← clkAsked, clkAsked_find]
  exact if_neg (Bool.eq_false_iff.mp h)

theorem exec_cclkChange_known {d k c : Nat} {s : State} (hd : d < 8) (hl : s.weave.loaded = true)
    (hp : planCode s s.weave.cur.sects k d = some c) :
    exec (.cclkChange d k) s = .next (askClk { s with hub2 := { s.hub2 with clkStatus := stDone } } d c) := by
  change execCclkChange d k s = _
  unfold execCclkChange
  rw [if_neg (by simp [hl, hd]), hp]

theorem exec_cclkChange_unknown {d k : Nat} {s : State} (hd : d < 8) (hl : s.weave.loaded = true)
    (hp : planCode s s.weave.cur.sects k d = none) :
    exec (.cclkChange d k) s = .next { s with hub2 := { s.hub2 with clkStatus := stGeneration } } := by
  change execCclkChange d k s = _
  unfold execCclkChange
  rw [if_neg (by simp [hl, hd]), hp]

theorem Only.set_hub2 (s : State) (h : Hub2) : Only [.hub2] s { s with hub2 := h } := ((Keeps.refl _ s).set_hub2 (by decide)).only

/-- Settles O10: the boot loads what the search of the slots finds; a clock change splits by whether a command of the die's cores runs. -/
theorem bootLoadAndClock : Obligations.BootLoadAndClock := by
  refine ⟨fun s hrun hboot hst hload => ?_, fun d k c s hd hl hp => ?_, fun d k s hd hl hp => ?_⟩
  · refine ⟨_, exec_loadingAtBoot hrun hboot hst hload, ?_⟩
    rw [adoptBoot_weave]
    exact ⟨rfl, rfl, rfl, bootWeave_minimal⟩
  · refine ⟨_, exec_cclkChange_known hd hl hp, ?_⟩
    have hcores : ∀ h : Hub2, dieIdle { s with hub2 := h } d = dieIdle s d := fun _ => rfl
    cases hidle : dieIdle s d with
    | true =>
      rw [askClk_idle ((hcores _).trans hidle)]
      refine ⟨Only.set_hub2 .., rfl, fun e he => tget_tset_ne _ _ _ _ _ he, fun _ => ⟨tget_tset_self .., fun x hx => ?_⟩, ?_, rfl⟩
      · simpa using (List.mem_filter.mp hx).2
      · rintro ⟨i, hi, hrun⟩
        exact absurd (dieIdle_iff.mp hidle i hi) hrun
    | false =>
      rw [askClk_busy ((hcores _).trans hidle)]
      refine ⟨Only.set_hub2 .., rfl, fun e _ => rfl, fun hall => ?_, fun _ => ⟨rfl, ?_⟩, rfl⟩
      · rw [dieIdle_iff.mpr hall] at hidle
        cases hidle
      · exact List.mem_append_right _ (List.mem_singleton_self _)
  · exact ⟨_, exec_cclkChange_unknown hd hl hp, Only.set_hub2 .., rfl⟩

end Sys2Proof.Machine
end

section
/-! A context's rings (R269, R292 to R298): enabling and disabling, index words, and the rate limit. -/

namespace Sys2Proof.Machine

open Sys2Proof

/-! ### One ring changes -/

/-- From `s` to `t`, of the contexts at most ring `k` of context `c` changes, beside what of that context is no ring. -/
structure OnlyRing (c k : Nat) (s t : State) : Prop where
  ring : ∀ j, j ≠ k → (t.ctx c).ring j = (s.ctx c).ring j
  err : (t.ctx c).ringErr = (s.ctx c).ringErr
  ctx : ∀ d, d ≠ c → t.ctx d = s.ctx d

theorem OnlyRing.trans {c k : Nat} {s t u : State} (h : OnlyRing c k s t) (g : OnlyRing c k t u) : OnlyRing c k s u :=
  ⟨fun _ hj => (g.ring _ hj).trans (h.ring _ hj), g.err.trans h.err, fun d hd => (g.ctx d hd).trans (h.ctx d hd)⟩

theorem Keeps.onlyRing {l : List Field} {s t : State} (h : Keeps l s t) (hl : Field.ctxs ∉ l) (c k : Nat) : OnlyRing c k s t :=
  ⟨fun _ _ => by rw [h.ctx hl], by rw [h.ctx hl], fun d _ => h.ctx hl d⟩

theorem OnlyRing.modCtx {c k : Nat} {s : State} {f : Ctx → Ctx} (hring : ∀ j ≠ k, (f (s.ctx c)).ring j = (s.ctx c).ring j)
    (herr : (f (s.ctx c)).ringErr = (s.ctx c).ringErr) : OnlyRing c k s (s.modCtx c f) := by
  refine ⟨fun j hj => ?_, ?_, fun d hd => State.modCtx_get_ctx_ne _ _ _ _ hd⟩ <;> rw [State.modCtx_get_ctx_self]
  · exact hring j hj
  · exact herr

theorem OnlyRing.modRing (s : State) (c k : Nat) (f : Ring → Ring) : OnlyRing c k s (s.modCtx c (fun x => x.modRing k f)) :=
  .modCtx (fun _ => Ctx.modRing_ring_ne _ _ _ _) rfl

theorem State.modRing_ring (s : State) (c k : Nat) (f : Ring → Ring) :
    ((s.modCtx c (fun x => x.modRing k f)).ctx c).ring k = f ((s.ctx c).ring k) := by
  rw [State.modCtx_get_ctx_self, Ctx.modRing_ring_self]

/-! ### A well-formed index is taken (R293, R298) -/

/-- A watched word is well formed for ring `k`: it has no high half, and it is within the ring's size of the device's own index. -/
def IndexFits (r : Ring) (k : Nat) (w : BitVec 64) : Prop :=
  w.toNat < 2 ^ 32 ∧ (if k = 5 then idxDist r.own (BitVec.ofNat 32 w.toNat) else idxDist (BitVec.ofNat 32 w.toNat) r.own) ≤ r.n

theorem takeIndex_fits {s : State} {c k : Nat} {w : BitVec 64} (h : IndexFits ((s.ctx c).ring k) k w) :
    takeIndex s c k w = s.modCtx c (fun x => x.modRing k (fun r => { r with other := BitVec.ofNat 32 w.toNat, deferred := none })) := by
  obtain ⟨hlow, hdist⟩ := h
  unfold takeIndex
  dsimp only
  exact if_neg (not_or.mpr ⟨not_not.mpr (Nat.div_eq_of_lt hlow), not_lt.mpr hdist⟩)

/-! ### RING_ENABLE and RING_DISABLE -/

theorem exec_ringEnable {who : Party} {c : Nat} {s : State} (k : Nat) (v : BitVec 64) (ha : Admitted s who (.ctx c)) :
    exec (.ringEnable who c k v) s = .next (rbaseWrite s c k v) := congrArg Host.Outcome.next (gated_admitted _ ha)

theorem exec_ringDisable {who : Party} {c : Nat} {s : State} (k : Nat) (v : BitVec 64) (ha : Admitted s who (.ctx c)) :
    exec (.ringDisable who c k v) s = .next (rbaseWrite s c k v) := congrArg Host.Outcome.next (gated_admitted _ ha)

/-- The size and place that a write of EN 1 gives a ring that is not enabled. -/
def placeRing (s : State) (c k : Nat) (v : BitVec 64) : State :=
  s.modCtx c (fun x => x.modRing k (fun r =>
    { r with log2n := BitVec.ofNat 5 (min 16 (max 4 (bitsOf v.toNat 56 5))), base := BitVec.ofNat 42 (bitsOf v.toNat 6 42) }))

theorem rbaseWrite_starts {s : State} {c k : Nat} {v : BitVec 64} (hoff : ((s.ctx c).ring k).en = false) (hen : bitOf v.toNat 63 = true) :
    rbaseWrite s c k v = ringStart (placeRing s c k v) c k := by
  unfold rbaseWrite
  dsimp only
  rw [if_neg (Bool.eq_false_iff.mp hoff), if_pos hen]
  rfl

theorem rbaseWrite_stops {s : State} {c k : Nat} {v : BitVec 64} (hon : ((s.ctx c).ring k).en = true) (hen : bitOf v.toNat 63 = false) :
    rbaseWrite s c k v = s.modCtx c (fun x =>
      { (x.modRing k (fun r => { r with en := false, deferred := none })) with ringErr := clearBit6 x.ringErr k }) := by
  unfold rbaseWrite
  dsimp only
  rw [if_pos hon, if_neg (Bool.eq_false_iff.mp hen)]

/-- A ring started at its own word, before the other word is taken. -/
def Ring.started (r : Ring) (own : BitVec 32) (how : Watch) : Ring :=
  { r with en := true, own := own, other := own, written := own, deferred := none, retry := false, how := how }

/-- A ring that may start runs from its own word on, with the other word observed and watched. -/
theorem ringStart_runs {s : State} {c k : Nat} {r : Ring} {own : BitVec 32} {w : BitVec 64} {how : Watch} (hr : (s.ctx c).ring k = r)
    (hown : BitVec.ofNat 32 (devWord s (r.ownWord k)).toNat = own) (hw : devWord s (r.watched k) = w) (hhow : watchHow s (r.watched k) = how)
    (hgood : ringBad s c k r = false) (hfits : IndexFits (r.started own how) k w) :
    Keeps (readParts ++ [.ctxs]) s (ringStart s c k) ∧ OnlyRing c k s (ringStart s c k) ∧
      ((ringStart s c k).ctx c).ring k = { r.started own how with other := BitVec.ofNat 32 w.toNat } := by
  let s2 := devTouch s { ctx := c } r.pair 16
  let s3 := s2.modCtx c (fun x => x.modRing k (fun r => r.started own how))
  let s4 := if how = .polled then notePolled s3 c (r.watched k) else s3
  have hkeeps2 : Keeps readParts s s2 := (devTouch_keeps ..).mono (by decide)
  have hkeeps4 : Keeps [.tallies] s3 s4 := Keeps.ite (fun _ => post_keeps ..) (fun _ => Keeps.refl _ _)
  have hring4 : (s4.ctx c).ring k = r.started own how := by
    rw [hkeeps4.ctx (by decide), State.modRing_ring, hkeeps2.ctx (by decide), hr]
  have hstart : ringStart s c k = takeIndex s4 c k w := by
    unfold ringStart
    dsimp only
    rw [hr, if_neg (Bool.eq_false_iff.mp hgood), hown, hhow, hw]
    rfl
  rw [hstart, takeIndex_fits (hring4.symm ▸ hfits)]
  refine ⟨?_, ?_, ?_⟩
  · exact (((hkeeps2.mono (by decide)).step (State.modCtx_keeps ..) (by decide)).step hkeeps4 (by decide)).step (State.modCtx_keeps ..) (by decide)
  · exact (((hkeeps2.onlyRing (by decide) c k).trans (.modRing ..)).trans (hkeeps4.onlyRing (by decide) c k)).trans (.modRing ..)
  · rw [State.modRing_ring, hring4]
    rfl

/-- Settles O12: the ring that starts is the one the write has placed, and a stop changes only its enable bit, its deferral and its error. -/
theorem ringEnableAndDisable : Obligations.RingEnableAndDisable := by
  refine ⟨fun who c k v s _ _ ha hoff hen => ?_, fun who c k v s _ hk ha hon hen => ?_⟩
  · intro s1 r own w seen hgood hlow hdist
    obtain ⟨hkeeps, honly, hring⟩ := ringStart_runs (s := placeRing s c k v) (r := r) rfl rfl rfl rfl hgood ⟨hlow, hdist⟩
    have hplace : Keeps [.ctxs] s (placeRing s c k v) := State.modCtx_keeps ..
    have hall : OnlyRing c k s (ringStart (placeRing s c k v) c k) := (OnlyRing.modRing ..).trans honly
    exact ⟨_, (exec_ringEnable k v ha).trans (by rw [rbaseWrite_starts hoff hen]), ((hplace.mono (by decide)).trans hkeeps).only, hring,
      hall.err, hall.ring, hall.ctx⟩
  · refine ⟨_, (exec_ringDisable k v ha).trans (by rw [rbaseWrite_stops hon hen]), (State.modCtx_keeps ..).only, ?_⟩
    have hring : ∀ (x : Ctx) (e : BitVec 6) (j : Nat), ({ x with ringErr := e } : Ctx).ring j = x.ring j := fun _ _ _ => rfl
    rw [State.modCtx_get_ctx_self, hring, Ctx.modRing_ring_self]
    refine ⟨rfl, rfl, rfl, ?_, fun j hj => ?_, fun j hj => (hring ..).trans (Ctx.modRing_ring_ne _ _ _ _ hj),
      fun d hd => State.modCtx_get_ctx_ne _ _ _ _ hd⟩
    · exact (clearBit6_bit _ k k hk).trans (by simp)
    · by_cases hj6 : j < 6
      · exact (clearBit6_bit _ k j hj6).trans (by simp [hj])
      · exact (BitVec.getLsbD_of_ge _ _ (not_lt.mp hj6)).trans (BitVec.getLsbD_of_ge _ _ (not_lt.mp hj6)).symm

/-! ### CONSUMER_INDEX_WRITE -/

theorem devWrFault_host {s : State} {a n : Nat} (ha : spaceOf a = .host) (h : hostReach s s.weave.cur.sects a n = true) :
    devWrFault s a n = none := by
  unfold devWrFault
  rw [ha]
  exact if_pos h

/-- The write of an index at its word, with what the ring then remembers. -/
def putIndex (s : State) (c k a : Nat) (own : BitVec 32) : State :=
  (devWrite s { ctx := c } a (natLE 8 own.toNat)).modCtx c (fun x => x.modRing k (fun r => { r with written := r.own }))

theorem exec_consumerIndexWrite {s : State} {c k a : Nat} {r : Ring} (hk : k < 5) (hlive : (s.ctx c).state ≠ 0) (hr : (s.ctx c).ring k = r)
    (ha : r.ownWord k = a) (hmoved : r.own ≠ r.written) (hf : devWrFault s a 8 = none) :
    exec (.consumerIndexWrite c k) s = .next (putIndex s c k a r.own) := by
  change execConsumerIndexWrite c k s = _
  unfold execConsumerIndexWrite
  dsimp only
  rw [hr, ha, if_neg]
  · rfl
  · simpa [hf, hmoved] using And.intro hk hlive

/-! ### RING_RATE_DEFER -/

/-- One ring's deferred change is taken, if it has one and the limit allows. -/
def takeOne (c : Nat) (s : State) (k : Nat) : State :=
  match ((s.ctx c).ring k).deferred with
  | none => s
  | some w =>
    if (s.ctx c).taken < (limitsOf s s.weave.cur.sects).ring then takeIndex (s.modCtx c (fun x => { x with taken := x.taken + 1 })) c k w else s

theorem takeOne_none {s : State} {c k : Nat} (h : ((s.ctx c).ring k).deferred = none) : takeOne c s k = s := by unfold takeOne; rw [h]

theorem takeOnes_none {s : State} {c : Nat} : ∀ l : List Nat, (∀ k ∈ l, ((s.ctx c).ring k).deferred = none) → l.foldl (takeOne c) s = s
  | [], _ => rfl
  | k :: l, h => by
    rw [List.foldl_cons, takeOne_none (h k (List.mem_cons_self ..))]
    exact takeOnes_none l (fun j hj => h j (List.mem_cons_of_mem _ hj))

/-- With a single deferred ring, taking what is deferred is taking that ring's change. -/
theorem takeDeferred_single {s : State} {c k : Nat} (hk : k < 5) (hnone : ∀ j, j ≠ k → ((s.ctx c).ring j).deferred = none)
    (hstep : ∀ j, j ≠ k → (((takeOne c s k).ctx c).ring j).deferred = none) : takeDeferred s c = takeOne c s k := by
  obtain ⟨before, after, hl⟩ := List.append_of_mem (List.mem_range.mpr hk)
  have hnodup : (before ++ k :: after).Nodup := hl ▸ List.nodup_range
  rw [List.nodup_middle, List.nodup_cons, List.mem_append, not_or] at hnodup
  have hb : ∀ j ∈ before, j ≠ k := fun j hj he => hnodup.1.1 (he ▸ hj)
  have hafter : ∀ j ∈ after, j ≠ k := fun j hj he => hnodup.1.2 (he ▸ hj)
  change (List.range 5).foldl (takeOne c) s = _
  rw [hl, List.foldl_append, takeOnes_none before (fun j hj => hnone j (hb j hj)), List.foldl_cons,
    takeOnes_none after (fun j hj => hstep j (hafter j hj))]

/-- The context at the start of the microsecond: the deferral is counted, and the count of taken indices starts again. -/
def deferCounted (s : State) (c : Nat) : State :=
  s.modCtx c (fun x => { x with ctr := ctrAddField x.ctr 0x0E8 0 32 1, takenUs := usOf s, taken := 0 })

/-- Tally 0x0B1, at most once in a millisecond. -/
def noteThrottle (s : State) (c : Nat) : State :=
  if (s.ctx c).lastB1 = some (msOf s) then s
  else (post s uHub c 0x0B1 (bitsOf (tget d0 (s.ctx c).ctr 0x0E8).toNat 0 32)).modCtx c (fun x => { x with lastB1 := some (msOf s) })

/-- The record of a deferral changes nothing of a context but when it was last made. -/
theorem noteThrottle_ctx (s : State) (c : Nat) :
    Keeps [.ctxs, .tallies] s (noteThrottle s c) ∧ (∀ d, d ≠ c → (noteThrottle s c).ctx d = s.ctx d) ∧
      ∃ b, (noteThrottle s c).ctx c = { s.ctx c with lastB1 := b } := by
  unfold noteThrottle
  split
  · exact ⟨Keeps.refl _ _, fun _ _ => rfl, _, rfl⟩
  · refine ⟨((post_keeps ..).mono (by decide)).step (State.modCtx_keeps ..) (by decide), fun d hd => ?_, _, State.modCtx_get_ctx_self ..⟩
    rw [State.modCtx_get_ctx_ne _ _ _ _ hd, post_get_ctx]

theorem exec_ringRateDefer {s : State} {c k : Nat} {w : BitVec 64} (hk : k < 5) (hd : ((s.ctx c).ring k).deferred = some w)
    (hdue : (s.ctx c).takenUs < usOf s) :
    exec (.ringRateDefer c) s = .next (takeDeferred (noteThrottle (deferCounted s c) c) c) := by
  have hany : anyDeferred (s.ctx c) = true := List.any_eq_true.mpr ⟨k, List.mem_range.mpr hk, by rw [hd]; rfl⟩
  change execRingRateDefer c s = _
  unfold execRingRateDefer
  dsimp only
  rw [if_neg (by rw [hany]; simpa using hdue)]
  unfold noteThrottle
  have hlast : ((deferCounted s c).ctx c).lastB1 = (s.ctx c).lastB1 := by rw [deferCounted, State.modCtx_get_ctx_self]
  rw [hlast]
  rfl

section

variable {s : State} {c k a : Nat} {r : Ring} (hk : k < 5) (hlive : (s.ctx c).state ≠ 0) (hr : (s.ctx c).ring k = r) (ha : r.ownWord k = a)
  (hmoved : r.own ≠ r.written)
include hk hlive hr ha hmoved

/-- In reachable host memory the write is the eight bytes of the index. -/
theorem consumerIndexWrite_host (hspace : spaceOf a = .host) (hreach : hostReach s s.weave.cur.sects a 8 = true) :
    ∃ t, exec (.consumerIndexWrite c k) s = .next t ∧ Only [.host, .hps, .ctxs] s t ∧
      mread t.host a 8 = natLE 8 r.own.toNat ∧ (∀ b, b < a ∨ a + 8 ≤ b → mget t.host b = mget s.host b) ∧
      (t.ctx c).ring k = { r with written := r.own } ∧ ∀ j, j ≠ k → (t.ctx c).ring j = (s.ctx c).ring j := by
  have hlen : (natLE 8 r.own.toNat).length = 8 := natLE_length ..
  obtain ⟨hhost, honly⟩ := devWrite_host s { ctx := c } a (natLE 8 r.own.toNat) hspace (by rw [hlen]; exact hreach)
  have hctx : ∀ d, (devWrite s { ctx := c } a (natLE 8 r.own.toNat)).ctx d = s.ctx d := fun d => by
    unfold State.ctx; rw [show _ = s.ctxs from honly.2 .ctxs (by decide)]
  have hhost' : (putIndex s c k a r.own).host = mwrite s.host a (natLE 8 r.own.toNat) := hhost
  refine ⟨putIndex s c k a r.own, exec_consumerIndexWrite hk hlive hr ha hmoved (devWrFault_host hspace hreach),
    (honly.mono (by decide)).trans ((State.modCtx_keeps ..).mono (by decide)).only, ?_, fun b hb => ?_, ?_, fun j hj => ?_⟩
  · have hread := mread_mwrite s.host a (natLE 8 r.own.toNat)
    rwa [hlen, ← hhost'] at hread
  · rw [hhost', mget_mwrite_out _ _ _ _ (by rwa [hlen])]
  · rw [putIndex, State.modRing_ring, hctx, hr]
  · rw [putIndex, (OnlyRing.modRing ..).ring j hj, hctx]

/-- In backed memory of the unified range the write is the eight bytes of the index, and what watches them sees them. -/
theorem consumerIndexWrite_uni (hspace : spaceOf a = .uni) (hback : Backed s a 8) :
    ∃ t, exec (.consumerIndexWrite c k) s = .next t ∧ Only (writeParts ++ [.ctxs]) s t ∧ t.host = s.host ∧
      mread t.uni a 8 = natLE 8 r.own.toNat ∧ (∀ b, b < a ∨ a + 8 ≤ b → mget t.uni b = mget s.uni b) ∧
      (∀ n, (t.core n).scratch = (s.core n).scratch) ∧ ((t.ctx c).ring k).written = r.own ∧ ((t.ctx c).ring k).own = r.own ∧
      ∀ d, d ≠ c → RingsSeen (s.ctx d) (t.ctx d) := by
  have hlen : (natLE 8 r.own.toNat).length = 8 := natLE_length ..
  obtain ⟨hunb, hlost⟩ := hback
  have huni : (putIndex s c k a r.own).uni = mwrite s.uni a (natLE 8 r.own.toNat) :=
    devWrite_uni s { ctx := c } a (natLE 8 r.own.toNat) hspace (by rw [hlen]; exact hunb) (lossless_of hlost)
  have hseen := devWrite_ctxs s { ctx := c } a (natLE 8 r.own.toNat)
  have hhost : (devWrite s { ctx := c } a (natLE 8 r.own.toNat)).host = s.host := by
    rw [devWrite_dev _ _ _ _ (by rw [hspace]; decide)]
    exact (uniWrite_keeps ..).only.2 .host (by decide)
  refine ⟨putIndex s c k a r.own, exec_consumerIndexWrite hk hlive hr ha hmoved (devWrFault_good (lossless_of hlost) hspace),
    (((devWrite_keeps ..).mono (by decide)).step (State.modCtx_keeps ..) (by decide)).only, hhost, ?_, fun b hb => ?_, fun n => ?_, ?_, ?_, fun d hd => ?_⟩
  · have hread := mread_mwrite s.uni a (natLE 8 r.own.toNat)
    rwa [hlen, ← huni] at hread
  · rw [huni, mget_mwrite_out _ _ _ _ (by rwa [hlen])]
  · exact ((devWrite_cores s { ctx := c } a (natLE 8 r.own.toNat)).core n).scratch
  · rw [putIndex, State.modRing_ring, (hseen.ctx c).ring k, hr]
  · rw [putIndex, State.modRing_ring, (hseen.ctx c).ring k, hr]
  · rw [putIndex, State.modCtx_get_ctx_ne _ _ _ _ hd]
    exact hseen.ctx d

end

/-- With room under the limit a single deferred index is taken at the start of the next microsecond. -/
theorem ringRateDefer_takes {s : State} {c k : Nat} {w : BitVec 64} (hk : k < 5) (hd : ((s.ctx c).ring k).deferred = some w)
    (hothers : ∀ j, j ≠ k → ((s.ctx c).ring j).deferred = none) (hdue : (s.ctx c).takenUs < usOf s)
    (hlimit : 0 < (limitsOf s s.weave.cur.sects).ring) (hlow : w.toNat < 2 ^ 32)
    (hdist : idxDist (BitVec.ofNat 32 w.toNat) ((s.ctx c).ring k).own ≤ ((s.ctx c).ring k).n) :
    ∃ t, exec (.ringRateDefer c) s = .next t ∧ Only [.ctxs, .tallies] s t ∧ ((t.ctx c).ring k).other = BitVec.ofNat 32 w.toNat ∧
      ((t.ctx c).ring k).deferred = none ∧ ((t.ctx c).ring k).own = ((s.ctx c).ring k).own ∧ (t.ctx c).takenUs = usOf s ∧ (t.ctx c).taken = 1 ∧
      bitsOf (tget d0 (t.ctx c).ctr 0x0E8).toNat 0 32 = min (bitsOf (tget d0 (s.ctx c).ctr 0x0E8).toNat 0 32 + 1) (2 ^ 32 - 1) ∧
      ∀ d, d ≠ c → t.ctx d = s.ctx d := by
  let s1 := deferCounted s c
  let s2 := noteThrottle s1 c
  obtain ⟨hkeeps2, hother2, b, hctx2⟩ := noteThrottle_ctx s1 c
  have hctx1 : s1.ctx c = { s.ctx c with ctr := ctrAddField (s.ctx c).ctr 0x0E8 0 32 1, takenUs := usOf s, taken := 0 } :=
    State.modCtx_get_ctx_self ..
  have hring2 : ∀ j, (s2.ctx c).ring j = (s.ctx c).ring j := fun j => by rw [hctx2, hctx1]; rfl
  have hlimit2 : (s2.ctx c).taken < (limitsOf s2 s2.weave.cur.sects).ring := by
    have hsame : limitsOf s2 s2.weave.cur.sects = limitsOf s s.weave.cur.sects := by
      unfold s2 noteThrottle
      split <;> rfl
    rw [hsame, hctx2, hctx1]
    exact hlimit
  let s3 := s2.modCtx c (fun x => { x with taken := x.taken + 1 })
  have hring3 : ∀ j, (s3.ctx c).ring j = (s.ctx c).ring j := fun j => by rw [State.modCtx_get_ctx_self]; exact hring2 j
  have htake : takeOne c s2 k = s3.modCtx c (fun x => x.modRing k (fun r => { r with other := BitVec.ofNat 32 w.toNat, deferred := none })) := by
    have hfits : IndexFits ((s3.ctx c).ring k) k w := by
      rw [hring3]
      exact ⟨hlow, by rw [if_neg (by omega)]; exact hdist⟩
    unfold takeOne
    rw [hring2, hd]
    dsimp only
    rw [if_pos hlimit2, takeIndex_fits hfits]
  have hsingle : takeDeferred s2 c = takeOne c s2 k := by
    refine takeDeferred_single hk (fun j hj => by rw [hring2]; exact hothers j hj) (fun j hj => ?_)
    rw [htake, (OnlyRing.modRing ..).ring j hj, hring3]
    exact hothers j hj
  have hctx : (takeOne c s2 k).ctx c = ((s3.ctx c).modRing k (fun r => { r with other := BitVec.ofNat 32 w.toNat, deferred := none })) := by
    rw [htake, State.modCtx_get_ctx_self]
  have hctx3 : s3.ctx c = { s.ctx c with
      ctr := ctrAddField (s.ctx c).ctr 0x0E8 0 32 1, takenUs := usOf s, taken := 1, lastB1 := b } := by
    rw [State.modCtx_get_ctx_self, hctx2, hctx1]
  refine ⟨takeOne c s2 k, (exec_ringRateDefer hk hd hdue).trans (congrArg _ hsingle), ?_, ?_, ?_, ?_, ?_, ?_, ?_, fun d hne => ?_⟩
  · rw [htake]
    exact (((((State.modCtx_keeps ..).mono (by decide)).trans hkeeps2).step (State.modCtx_keeps ..) (by decide)).step
      (State.modCtx_keeps ..) (by decide)).only
  · rw [hctx, Ctx.modRing_ring_self]
  · rw [hctx, Ctx.modRing_ring_self]
  · rw [hctx, Ctx.modRing_ring_self, hring3]
  · rw [hctx, hctx3]; rfl
  · rw [hctx, hctx3]; rfl
  · rw [hctx, hctx3]
    exact ctrAddField_low32 ..
  · rw [htake, State.modCtx_get_ctx_ne _ _ _ _ hne, State.modCtx_get_ctx_ne _ _ _ _ hne]
    exact (hother2 d hne).trans (State.modCtx_get_ctx_ne _ _ _ _ hne)

/-- Settles O13: an index is written by one write of device memory, and a single deferred index is taken alone. -/
theorem ringIndexWords : Obligations.RingIndexWords :=
  ⟨fun _ _ _ _ hk hlive hmoved => ⟨consumerIndexWrite_host hk hlive rfl rfl hmoved, consumerIndexWrite_uni hk hlive rfl rfl hmoved⟩,
    fun _ _ _ _ _ hk hd hothers hdue hlimit => ringRateDefer_takes hk hd hothers hdue hlimit⟩

end Sys2Proof.Machine
end

section
/-! Completion records that were held: releasing them, and writing again one whose write failed (R89, R297). -/

namespace Sys2Proof.Machine

open Sys2Proof

/-! ### Both commands carry out the write of one record -/

theorem exec_completionRecordRelease {n c : Nat} {x : Comp} {s : State} (hroom : compRoom s c = true) (hreach : compReach s c = true)
    (hcomps : (s.ctx c).comps = []) (hx : (s.core n).comps.find? (fun y => y.ctx == c) = some x) :
    exec (.completionRecordRelease n c) s = .next (compWrite (s.modCore n (fun k => { k with comps := k.comps.erase x })) c x.bytes) := by
  have hany : (s.core n).comps.any (fun y => y.ctx == c) = true :=
    List.any_eq_true.mpr ⟨x, List.mem_of_find?_eq_some hx, List.find?_some (p := fun y : Comp => y.ctx == c) hx⟩
  change execCompletionRecordRelease n c s = _
  unfold execCompletionRecordRelease
  rw [if_neg (by simp [hroom, hany]), if_neg (by simp [hreach]), if_pos hcomps]
  unfold releaseCore
  rw [hx]

/-- The state in which a record is written again: its ring's retry mark is cleared, and it is no longer held. -/
def retryTaken (s : State) (c : Nat) (xs : List Comp) : State :=
  (s.modCtx c (fun y => y.modRing 5 (fun r => { r with retry := false }))).modCtx c (fun y => { y with comps := xs })

theorem exec_completionWriteRetry {c : Nat} {x : Comp} {xs : List Comp} {s : State} (hretry : ((s.ctx c).ring 5).retry = true)
    (hcomps : (s.ctx c).comps = x :: xs) (hroom : compRoom (s.modCtx c (fun y => y.modRing 5 (fun r => { r with retry := false }))) c = true)
    (hreach : compReach s c = true) : exec (.completionWriteRetry c) s = .next (compWrite (retryTaken s c xs) c x.bytes) := by
  have hcomps' : ((s.modCtx c (fun y => y.modRing 5 (fun r => { r with retry := false }))).ctx c).comps = x :: xs := by
    rw [State.modCtx_get_ctx_self]
    exact hcomps
  change execCompletionWriteRetry c s = _
  unfold execCompletionWriteRetry
  dsimp only
  rw [if_neg (by simp [hroom, hretry, hreach]), if_pos (by rw [hcomps']; exact List.cons_ne_nil _ _)]
  unfold releaseCtx
  rw [hcomps']
  rfl

theorem retryTaken_ctx (s : State) (c : Nat) (xs : List Comp) :
    (retryTaken s c xs).ctx c = { (s.ctx c).modRing 5 (fun r => { r with retry := false }) with comps := xs } := by
  rw [retryTaken, State.modCtx_get_ctx_self, State.modCtx_get_ctx_self]

theorem retryTaken_ring (s : State) (c : Nat) (xs : List Comp) :
    ((retryTaken s c xs).ctx c).ring 5 = { (s.ctx c).ring 5 with retry := false } := by
  rw [retryTaken_ctx]
  exact Ctx.modRing_ring_self (s.ctx c) 5 (fun r => { r with retry := false })

theorem retryTaken_keeps (s : State) (c : Nat) (xs : List Comp) : Keeps [.ctxs] s (retryTaken s c xs) :=
  (State.modCtx_keeps ..).trans (State.modCtx_keeps ..)

theorem retryTaken_written_only (s : State) (c : Nat) (xs : List Comp) (b : List Byte) : Only reportParts s (compWrite (retryTaken s c xs) c b) := by
  have h : Keeps reportParts s (retryTaken s c xs) := (retryTaken_keeps s c xs).mono (by decide)
  exact (h.step (compWrite_keeps ..) (by decide)).only

/-! ### The record's bytes in host memory (R88, R297) -/

theorem hostReach_of_devWrFault {s : State} {a n : Nat} (hspace : spaceOf a = .host) (h : (devWrFault s a n).isNone = true) :
    hostReach s s.weave.cur.sects a n = true := by
  unfold devWrFault at h
  rw [hspace] at h
  dsimp only at h
  split at h
  · assumption
  · exact absurd h (by simp)

theorem hostReach_of_compReach {s : State} {c : Nat} (h : compReach s c = true)
    (hspace : spaceOf (((s.ctx c).ring 5).addr + ((s.ctx c).ring 5).own.toNat % ((s.ctx c).ring 5).n * 32) = .host) :
    hostReach s s.weave.cur.sects (((s.ctx c).ring 5).addr + ((s.ctx c).ring 5).own.toNat % ((s.ctx c).ring 5).n * 32) 32 = true := by
  unfold compReach at h
  exact hostReach_of_devWrFault hspace (Bool.and_eq_true_iff.mp h).1

/-- Two writes of reachable host memory that do not meet: each leaves its bytes, and no other byte changes. -/
theorem devWrite_devWrite_host {s : State} {b : By} {a p : Nat} {x y : List Byte} (ha : spaceOf a = .host) (hp : spaceOf p = .host)
    (hreach : hostReach s s.weave.cur.sects a x.length = true) (hreach' : hostReach s s.weave.cur.sects p y.length = true)
    (hapart : a + x.length ≤ p ∨ p + y.length ≤ a) :
    let t := devWrite (devWrite s b a x) b p y
    mread t.host a x.length = x ∧ mread t.host p y.length = y ∧
      (∀ z, (z < a ∨ a + x.length ≤ z) → (z < p ∨ p + y.length ≤ z) → mget t.host z = mget s.host z) ∧ t.uni = s.uni := by
  intro t
  obtain ⟨hhost, honly⟩ := devWrite_host s b a x ha hreach
  have hweave : (devWrite s b a x).weave = s.weave := honly.2 .weave (by decide)
  obtain ⟨hhost', honly'⟩ := devWrite_host (devWrite s b a x) b p y hp (by rw [hweave, devWrite_reach]; exact hreach')
  have ht : t.host = mwrite (mwrite s.host a x) p y := by rw [← hhost]; exact hhost'
  refine ⟨?_, ?_, fun z hz hz' => ?_, ?_⟩
  · rw [ht, mread_mwrite_out _ _ _ _ _ hapart, mread_mwrite]
  · rw [ht, mread_mwrite]
  · rw [ht, mget_mwrite_out _ _ _ _ hz', mget_mwrite_out _ _ _ _ hz]
  · exact (honly'.2 .uni (by decide)).trans (honly.2 .uni (by decide))

theorem compPut_retryTaken (s : State) (c : Nat) (xs : List Comp) (b : List Byte) {r : Ring} (hr : (s.ctx c).ring 5 = r) {a : Nat}
    (ha : r.addr + r.own.toNat % r.n * 32 = a) :
    compPut (retryTaken s c xs) c b = devWrite (devWrite (retryTaken s c xs) { ctx := c } a b) { ctx := c } r.pair (natLE 8 (r.own + 1).toNat) := by
  subst ha
  unfold compPut
  rw [retryTaken_ring, hr]
  rfl

theorem hostReach_retryTaken (s : State) (c : Nat) (xs : List Comp) (a n : Nat) :
    hostReach (retryTaken s c xs) (retryTaken s c xs).weave.cur.sects a n = hostReach s s.weave.cur.sects a n :=
  hostReach_congr (s := s) (t := retryTaken s c xs) rfl rfl (fun _ => ⟨rfl, rfl⟩) s.weave.cur.sects a n

theorem completionWriteRetry_host {c : Nat} {x : Comp} {xs : List Comp} {s : State} (hlen : x.bytes.length = 32) {r : Ring}
    (hr : (s.ctx c).ring 5 = r) {a : Nat} (ha : r.addr + r.own.toNat % r.n * 32 = a) (hspace : spaceOf a = .host) (hpair : spaceOf r.pair = .host)
    (hapart : a + 32 ≤ r.pair ∨ r.pair + 8 ≤ a) (hreach : hostReach s s.weave.cur.sects a 32 = true)
    (hreach' : hostReach s s.weave.cur.sects r.pair 8 = true) :
    let t := compWrite (retryTaken s c xs) c x.bytes
    mread t.host a 32 = x.bytes ∧ mread t.host r.pair 8 = natLE 8 (r.own + 1).toNat ∧
      (∀ b, (b < a ∨ a + 32 ≤ b) → (b < r.pair ∨ r.pair + 8 ≤ b) → mget t.host b = mget s.host b) ∧ t.uni = s.uni := by
  have hput := compPut_retryTaken s c xs x.bytes hr ha
  have hslotReach : hostReach (retryTaken s c xs) (retryTaken s c xs).weave.cur.sects a x.bytes.length = true := by
    rw [hostReach_retryTaken, hlen]
    exact hreach
  have hwordReach : hostReach (retryTaken s c xs) (retryTaken s c xs).weave.cur.sects r.pair (natLE 8 (r.own + 1).toNat).length = true := by
    rw [hostReach_retryTaken, natLE_length]
    exact hreach'
  have hapart' : a + x.bytes.length ≤ r.pair ∨ r.pair + (natLE 8 (r.own + 1).toNat).length ≤ a := by
    rw [hlen, natLE_length]
    exact hapart
  have h := devWrite_devWrite_host (b := { ctx := c }) hspace hpair hslotReach hwordReach hapart'
  dsimp only at h
  rw [hlen, natLE_length, ← hput] at h
  have honly := (State.modCtx_keeps (compPut (retryTaken s c xs) c x.bytes) c
    (fun x => x.modRing 5 (fun q => { q with own := q.own + 1, written := q.own + 1 }))).only
  dsimp only
  rw [compWrite_put, show State.host _ = _ from honly.2 .host (by decide), show State.uni _ = _ from honly.2 .uni (by decide)]
  exact h

/-- Settles O14: a release and a retry are one write of a completion record, which takes the next slot of the ring. -/
theorem completionRecords : Obligations.CompletionRecords := by
  refine ⟨⟨?_, ?_⟩, ?_⟩
  · intro n c x s _ _ r hroom hreach hcomps hx
    let u := s.modCore n (fun k => { k with comps := k.comps.erase x })
    obtain ⟨hown, hwritten, _, _⟩ := compWrite_ring u c x.bytes
    have hheld : ∀ m, ((compWrite u c x.bytes).core m).comps = (u.core m).comps := fun m => by
      obtain ⟨ws, h⟩ := compWrite_rest u c x.bytes m
      rw [h]
    have hkeeps : Keeps reportParts s u := (State.modCore_keeps s n (fun k => { k with comps := k.comps.erase x }) (fun _ h => h)).mono (show ∀ f ∈ [Field.cores], f ∈ reportParts by decide)
    refine ⟨_, exec_completionRecordRelease hroom hreach hcomps hx, (hkeeps.step (compWrite_keeps ..) (by decide)).only, hown, hwritten, ?_,
      fun m hm => ?_⟩
    · rw [hheld, State.modCore_get_core_self]
    · rw [hheld, State.modCore_get_core_ne _ _ _ _ hm]
  · intro c x xs s _ hretry hcomps hroom hreach
    obtain ⟨hown, _, hret, hheld⟩ := compWrite_ring (retryTaken s c xs) c x.bytes
    refine ⟨_, exec_completionWriteRetry hretry hcomps hroom hreach, retryTaken_written_only .., ?_, ?_, ?_⟩
    · rw [hown, retryTaken_ring]
    · rw [hret, retryTaken_ring]
    · rw [hheld, retryTaken_ctx]
  · intro c x xs s _ hretry hcomps hroom hreach hlen r a hspace hpair hapart hreach'
    exact ⟨_, exec_completionWriteRetry hretry hcomps hroom hreach,
      completionWriteRetry_host hlen rfl rfl hspace hpair hapart (hostReach_of_compReach hreach hspace) hreach'⟩

end Sys2Proof.Machine
end

section
/-! Delivery of a record to the queue of its slot (R90, R91, R100). -/

namespace Sys2Proof.Machine

open Sys2Proof

/-- A record at the end of the queue of slot `i` of its core. -/
def enqueued (s : State) (r : Rec) (i : Nat) : State := s.modCore r.coreN (fun c => c.setQueue r.eng i (c.queue r.eng i ++ [r]))

theorem enqueued_keeps (s : State) (r : Rec) (i : Nat) : Keeps [.cores] s (enqueued s r i) := State.modCore_keeps s r.coreN _ (fun _ h => h)

theorem enqueued_queue (s : State) (r : Rec) (i : Nat) :
    ((enqueued s r i).core r.coreN).queue r.eng i = (s.core r.coreN).queue r.eng i ++ [r] := by
  rw [enqueued, State.modCore_get_core_self, Core.setQueue_queue_self]

theorem enqueued_queue_ne (s : State) (r : Rec) {i e j : Nat} (hi : i < 32) (hj : j < 32) (h : (e, j) ≠ (r.eng, i)) :
    ((enqueued s r i).core r.coreN).queue e j = (s.core r.coreN).queue e j := by
  have hkey : e * 32 + j ≠ r.eng * 32 + i := fun heq => h (by
    rw [Prod.mk.injEq]
    omega)
  rw [enqueued, State.modCore_get_core_self, Core.setQueue_queue_ne _ _ _ _ _ _ hkey]

theorem deliver_accepted {s : State} {r : Rec} {i : Nat} (hcheck : intakeCheck s r = none) (hfree : slotFenced s r.coreN r.ctx = false)
    (hslot : (s.core r.coreN).residentSlot r.ctx = some i) : deliver s r = enqueued s r i := by
  unfold deliver
  rw [hcheck]
  dsimp only
  rw [if_neg (by simp [hfree]), hslot]
  rfl

theorem deliver_refused {s : State} {r : Rec} {x : Refuse} (h : intakeCheck s r = some x) : deliver s r = intakeRefuse s r x := by
  unfold deliver
  rw [h]

/-! ### What the command delivers -/

/-- The record read next is taken from the intake. -/
def intakeTaken (s : State) (c : Nat) (rest : List Rec) : State := s.modCtx c (fun x => { x with intake := rest })

theorem intakeTaken_intake (s : State) (c : Nat) (rest : List Rec) : ((intakeTaken s c rest).ctx c).intake = rest := by
  rw [intakeTaken, State.modCtx_get_ctx_self]

section

variable {d c : Nat} {s : State} {r : Rec} {rest : List Rec} (hheld : tget dL s.dieHeld (heldKey d c) = []) (hintake : (s.ctx c).intake = r :: rest)
  (hdie : intakeDie r = d)
include hheld hintake hdie

theorem exec_recordDelivery_next (h : intakeCheck s r = none) (hroom : canDeliver s r = true) :
    exec (.recordDelivery d c) s = .next (deliver (intakeTaken s c rest) r) := by
  change execRecordDelivery d c s = _
  unfold execRecordDelivery
  rw [hheld, hintake]
  dsimp only [firstHeld]
  rw [if_neg (by simp [hdie]), if_neg (by simp [h]), if_pos (by simp [hroom])]
  rfl

theorem exec_recordDelivery_refuse {x : Refuse} (h : intakeCheck s r = some x) :
    exec (.recordDelivery d c) s = .next (deliver (intakeTaken s c rest) r) := by
  change execRecordDelivery d c s = _
  unfold execRecordDelivery
  rw [hheld, hintake]
  dsimp only [firstHeld]
  rw [if_neg (by simp [hdie]), if_pos (by simp [h])]
  rfl

end

theorem exec_recordDelivery_held {d c : Nat} {s : State} {r : Rec} (h : firstHeld s [] (tget dL s.dieHeld (heldKey d c)) = some r) :
    exec (.recordDelivery d c) s =
      .next (deliver { s with dieHeld := tset dL s.dieHeld (heldKey d c) ((tget dL s.dieHeld (heldKey d c)).erase r) } r) := by
  change execRecordDelivery d c s = _
  unfold execRecordDelivery
  dsimp only
  rw [h]

/-- A report leaves every context's intake. -/
theorem Reported.intake {c : Nat} {s t : State} (h : Reported c s t) (d : Nat) : (t.ctx d).intake = (s.ctx d).intake := by
  by_cases hd : d = c
  · subst hd
    rw [h.rest]
  · rw [(h.ctx d hd).rest]

theorem intakeRefuse_queue (s : State) (r : Rec) (x : Refuse) (n e i : Nat) :
    ((intakeRefuse s r x).core n).queue e i = (s.core n).queue e i :=
  ((reportRec_cores ..).core n).queue e i

theorem intakeRefuse_intake (s : State) (r : Rec) (x : Refuse) (d : Nat) : ((intakeRefuse s r x).ctx d).intake = (s.ctx d).intake :=
  (reportRec_reported ..).intake d

/-- Settles O15: a record that passes is put at the end of one queue, and a refusal reports and touches no queue. -/
theorem recordIsDelivered : Obligations.RecordIsDelivered := by
  refine ⟨?_, ?_, ?_⟩
  · intro d c i r rest s _ _ hheld hintake hdie hcheck hfree hslot hroom
    have hcan : canDeliver s r = true := by
      unfold canDeliver
      rw [hslot]
      exact hroom
    have hdeliver : deliver (intakeTaken s c rest) r = enqueued (intakeTaken s c rest) r i :=
      deliver_accepted ((intakeCheck_taken ..).trans hcheck) ((slotFenced_taken ..).trans hfree) hslot
    have hkeeps : Keeps [.ctxs, .cores] s (intakeTaken s c rest) := (State.modCtx_keeps ..).mono (by decide)
    refine ⟨enqueued (intakeTaken s c rest) r i, (exec_recordDelivery_next hheld hintake hdie hcheck hcan).trans (congrArg _ hdeliver),
      (hkeeps.step (enqueued_keeps ..) (by decide)).only, intakeTaken_intake .., enqueued_queue .., fun n hn => ?_,
      fun e j _ hj hi hne => enqueued_queue_ne _ _ hi hj hne⟩
    exact State.modCore_get_core_ne _ _ _ _ hn
  · intro d c i r s _ _ hfirst hcheck hfree hslot
    let u : State := { s with dieHeld := tset dL s.dieHeld (heldKey d c) ((tget dL s.dieHeld (heldKey d c)).erase r) }
    have hdeliver : deliver u r = enqueued u r i := deliver_accepted hcheck hfree hslot
    have hkeeps : Keeps [.dieHeld, .cores] s u := (Keeps.refl _ s).set_dieHeld (by decide)
    exact ⟨enqueued u r i, (exec_recordDelivery_held hfirst).trans (congrArg _ hdeliver), (hkeeps.step (enqueued_keeps u r i) (by decide)).only, tget_tset_self .., enqueued_queue ..⟩
  · intro d c x r rest s _ _ hheld hintake hdie hcheck
    have hdeliver : deliver (intakeTaken s c rest) r = intakeRefuse (intakeTaken s c rest) r x :=
      deliver_refused ((intakeCheck_taken ..).trans hcheck)
    have hkeeps : Keeps reportParts s (intakeTaken s c rest) := (State.modCtx_keeps ..).mono (by decide)
    refine ⟨intakeRefuse (intakeTaken s c rest) r x, (exec_recordDelivery_refuse hheld hintake hdie hcheck).trans (congrArg _ hdeliver),
      (hkeeps.step (intakeRefuse_keeps ..) (by decide)).only, ?_, fun n e i => intakeRefuse_queue ..⟩
    rw [intakeRefuse_intake, intakeTaken_intake]

end Sys2Proof.Machine
end

section
/-! The Drover's issue of a command, and its completion (R89, R93, R94). -/

namespace Sys2Proof.Machine

open Sys2Proof

/-! ### DROVER_SELECT -/

theorem exec_droverSelect_issue {n e i : Nat} {r : Rec} {q : List Rec} {s s2 : State}
    (haccept : canAccept (((List.range 32).foldl (checkHead e n) s).core n) e = true)
    (hpick : droverPick ((List.range 32).foldl (checkHead e n) s) n e = some (i, s2)) (hhead : (s2.core n).queue e i = r :: q)
    (hok : issueCheck s2 n i r = .ok ()) : exec (.droverSelect n e) s = .next (issue (droverSpend s2 n e i) n e i r) := by
  change execDroverSelect n e s = _
  unfold execDroverSelect
  dsimp only
  rw [if_neg (by simp [haccept]), hpick]
  dsimp only
  rw [hhead]
  dsimp only
  rw [hok]

/-- An issue of the Drover's pick: credits and pointer aside, of the cores only the queue's head moves to the running commands. -/
theorem issue_of_pick {s s2 : State} {n e i : Nat} {r : Rec} {q : List Rec} (hpick : droverPick s n e = some (i, s2))
    (hhead : (s2.core n).queue e i = r :: q) :
    let t := issue (droverSpend s2 n e i) n e i r
    (∃ x, (t.core n).running = (s.core n).running ++ [x] ∧ x.rec' = r ∧ x.eng = e ∧ x.slot = i ∧ x.core = n ∧ x.issued = s.time ∧ x.done = false) ∧
      (t.core n).queue e i = q ∧ ∀ m, m ≠ n → t.core m = s.core m := by
  obtain ⟨hother, ⟨cr, hcore⟩, htime, _, _⟩ := droverPick_credit hpick
  obtain ⟨hother', ⟨cr', pt, hcore'⟩, htime'⟩ := droverSpend_credit s2 n e i
  obtain ⟨hothers, ⟨x, hrun, hrec, heng, hslot, hn, hissued, hdone⟩, hqueue⟩ := issue_core (droverSpend s2 n e i) n e i r
  have hrunning : ((droverSpend s2 n e i).core n).running = (s.core n).running := by rw [hcore', hcore]
  have hqueues : ((droverSpend s2 n e i).core n).queue e i = (s2.core n).queue e i := by rw [hcore']; rfl
  refine ⟨⟨x, hrun.trans (by rw [hrunning]), hrec, heng, hslot, hn, hissued.trans (htime'.trans htime), hdone⟩, ?_, fun m hm => ?_⟩
  · rw [hqueue, hqueues, hhead]
    rfl
  · rw [hothers m hm, hother' m hm, hother m hm]

/-! ### COMMAND_COMPLETE -/

/-- A completable command with its last writes made: what follows is its end. -/
def lastWritten (s : State) (n : Nat) (r : Running) : State :=
  handHot (if r.rec'.op = 0x12 then updComplete (applyWrs r.by s r.after) n r else applyWrs r.by s r.after) n r

theorem exec_commandComplete {n e : Nat} {r : Running} {s : State} (h : completable s n e = some r) :
    exec (.commandComplete n e) s = .next (endRun (lastWritten s n r) n r r.status) := by
  change execCommandComplete n e s = _
  unfold execCommandComplete
  rw [h]
  rfl

theorem lastWritten_run (s : State) (n : Nat) (r : Running) : SameRun s (lastWritten s n r) := by
  have hwrites : SameRun s (applyWrs r.by s r.after) := applyWrs_run ..
  have hheader : SameRun s (if r.rec'.op = 0x12 then updComplete (applyWrs r.by s r.after) n r else applyWrs r.by s r.after) := by
    split
    · exact hwrites.trans ((updComplete_keeps ..).coresStay (by decide)).sameRun
    · exact hwrites
  exact hheader.trans ((handHot_keeps ..).coresStay (by decide)).sameRun

/-- Settles O16: an issue moves the head of the queue the Drover picks, and a completion ends the one command that is completable. -/
theorem commandsIssueAndComplete : Obligations.CommandsIssueAndComplete := by
  refine ⟨?_, fun n e r s _ _ hr => ?_⟩
  · intro n e i r q s s2 _ _ s1 haccept hpick hhead hok
    have hexec := exec_droverSelect_issue haccept hpick hhead hok
    have hkeeps := Gives.keeps (o := execDroverSelect n e s) (execDroverSelect_keeps ..) hexec
    obtain ⟨⟨x, hrun, hrec, heng, hslot, hn, hissued, hdone⟩, hqueue, hothers⟩ := issue_of_pick hpick hhead
    exact ⟨_, x, hexec, (hkeeps.mono (by decide)).only, hrun, hrec, heng, hslot, hn, hissued, hdone, hqueue, hothers⟩
  · have hsame := lastWritten_run s n r
    obtain ⟨hrun, hother, hqueues⟩ := endRun_run (lastWritten s n r) n r r.status
    have hexec := exec_commandComplete hr
    have hkeeps := Gives.keeps (o := execCommandComplete n e s) (execCommandComplete_keeps ..) hexec
    refine ⟨_, hexec, (hkeeps.mono (by decide)).only, ?_, fun m hm => ?_, fun m => ?_⟩
    · rw [hrun, hsame.run]
    · rw [hother m hm, hsame.run]
    · rw [hqueues, hsame.queues]

end Sys2Proof.Machine
end

section
/-! NOP, SIGNAL and WAIT at the head of a queue, and the word that a signal writes (R79, R87, R272, R274). -/

namespace Sys2Proof.Machine

open Sys2Proof

/-! ### The word of a signal in reachable host memory -/

theorem devFault_host {s : State} {a n : Nat} (ha : spaceOf a = .host) (h : hostReach s s.weave.cur.sects a n = true) : devFault s a n = none := by
  unfold devFault
  rw [ha]
  exact if_pos h

theorem devTouch_host {s : State} {a n : Nat} (b : By) (ha : spaceOf a = .host) (h : hostReach s s.weave.cur.sects a n = true) :
    devTouch s b a n = countDma s false a n := by
  unfold devTouch
  rw [ha]
  exact if_pos h

theorem countDma_reach (s : State) (w : Bool) (a n : Nat) (l : List Sect) (x k : Nat) :
    hostReach (countDma s w a n) l x k = hostReach s l x k :=
  hostReach_congr ((countDma_keeps ..).only.2 .opt (by decide)) ((countDma_keeps ..).only.2 .hurdles (by decide)) (countDma_hp s w a n) l x k

/-- The state after a signal's word is written, and after the word was read before that where the signal adds to it. -/
def signalWord (s : State) (b : By) (a op : Nat) (v : BitVec 64) : State :=
  if op = 0 then devWrite s b a (natLE 8 v.toNat) else devWrite (devTouch s b a 8) b a (natLE 8 (counterAdd (devWord s a) v).toNat)

/-- A signal's write is of its 8 bytes; one that clamps adds a Tally record. -/
theorem applySignal_host {s : State} {a : Nat} (b : By) (op : Nat) (v : BitVec 64) (ha : spaceOf a = .host)
    (h : hostReach s s.weave.cur.sects a 8 = true) :
    (applySignal s b a op v).1.1 = stDone ∧ (applySignal s b a op v).2 = signalWord s b a op v ∨
      op ≠ 0 ∧ (applySignal s b a op v).1.1 = stClamped ∧
        ∃ u k p, (applySignal s b a op v).2 = post (signalWord s b a op v) u b.ctx k p := by
  unfold applySignal signalWord
  rw [devWrFault_host ha h]
  dsimp only
  by_cases hop : op = 0
  · rw [if_pos hop, if_pos hop]
    exact .inl ⟨rfl, rfl⟩
  · rw [if_neg hop, if_neg hop, devFault_host ha h]
    dsimp only
    split
    · exact .inr ⟨hop, rfl, _, _, _, rfl⟩
    · exact .inl ⟨rfl, rfl⟩

theorem signalWord_host {s : State} {a : Nat} (b : By) (op : Nat) (v : BitVec 64) (ha : spaceOf a = .host)
    (h : hostReach s s.weave.cur.sects a 8 = true) :
    (signalWord s b a op v).host = mwrite s.host a (natLE 8 (if op = 0 then v else counterAdd (devWord s a) v).toNat) ∧
      Only [.host, .hps] s (signalWord s b a op v) := by
  unfold signalWord
  by_cases hop : op = 0
  · rw [if_pos hop, if_pos hop]
    exact devWrite_host s b a _ ha (by rw [natLE_length]; exact h)
  · rw [if_neg hop, if_neg hop, devTouch_host b ha h]
    have htouch := (countDma_keeps s false a 8).only
    have hweave : (countDma s false a 8).weave = s.weave := htouch.2 .weave (by decide)
    obtain ⟨hhost, honly⟩ := devWrite_host (countDma s false a 8) b a (natLE 8 (counterAdd (devWord s a) v).toNat) ha
      (by rw [natLE_length, hweave, countDma_reach]; exact h)
    have hbefore : (countDma s false a 8).host = s.host := htouch.2 .host (by decide)
    exact ⟨by rw [hhost, hbefore], (htouch.mono (by decide)).trans honly⟩

theorem signal_writes_host {s : State} {a : Nat} (b : By) (op : Nat) (v : BitVec 64) (ha : spaceOf a = .host)
    (h : hostReach s s.weave.cur.sects a 8 = true) :
    let x := applySignal s b a op v
    mread x.2.host a 8 = natLE 8 (if op = 0 then v else counterAdd (devWord s a) v).toNat ∧
      (∀ y, y < a ∨ a + 8 ≤ y → mget x.2.host y = mget s.host y) ∧ x.2.uni = s.uni ∧
      (x.1.1 = stDone ∨ (op ≠ 0 ∧ x.1.1 = stClamped)) ∧ Only [.host, .hps, .tallies] s x.2 := by
  intro x
  obtain ⟨hhost, honly⟩ := signalWord_host b op v ha h
  have hword : x.2.host = (signalWord s b a op v).host ∧ Only [.host, .hps, .tallies] s x.2 ∧ (x.1.1 = stDone ∨ (op ≠ 0 ∧ x.1.1 = stClamped)) := by
    have honly' : Only [.host, .hps, .tallies] s (signalWord s b a op v) := honly.mono (by decide)
    rcases applySignal_host b op v ha h with ⟨hst, hx⟩ | ⟨hop, hst, u, k, p, hx⟩
    · exact ⟨congrArg State.host hx, hx ▸ honly', .inl hst⟩
    · exact ⟨(congrArg State.host hx).trans rfl, hx ▸ honly'.trans ((post_keeps ..).mono (by decide)).only, .inr ⟨hop, hst⟩⟩
  obtain ⟨hx, hframe, hstatus⟩ := hword
  have hlen : (natLE 8 (if op = 0 then v else counterAdd (devWord s a) v).toNat).length = 8 := natLE_length ..
  refine ⟨?_, fun y hy => ?_, hframe.2 .uni (by decide), hstatus, hframe⟩
  · have hread := mread_mwrite s.host a (natLE 8 (if op = 0 then v else counterAdd (devWord s a) v).toNat)
    rwa [hlen, ← hhost, ← hx] at hread
  · rw [hx, hhost, mget_mwrite_out _ _ _ _ (by rwa [hlen])]

/-! ### Heads that take no engine time -/

theorem exec_nop {n e i : Nat} {r : Rec} {s : State}
    (h : plainHead ((List.range 32).foldl (checkHead e n) s) n e 0x00 (fun _ => false) = some (i, r)) :
    exec (.nop n e) s = .next (endHead ((List.range 32).foldl (checkHead e n) s) n e i r stDone 0) := by
  change execNop n e s = _
  unfold execNop
  dsimp only
  rw [h]

/-- What a SIGNAL of core `n` at the head does to its word. -/
def headSignal (s : State) (n : Nat) (r : Rec) : Refuse × State :=
  applySignal s { ctx := r.ctx, die := some (n / 100) } (sigAddr r.bytes) (sigOp r.bytes) (sigValue r.bytes)

theorem exec_signal {n e i : Nat} {r : Rec} {s s1 : State} (hs : (List.range 32).foldl (checkHead e n) s = s1)
    (h : plainHead s1 n e 0x40 (fun r => !sigAcked r.bytes) = some (i, r)) (hfold : foldAt s1 (sigAddr r.bytes) = none)
    (hfree : bridgeHolds s1 (.core n) (sigAddr r.bytes) 8 = false) :
    exec (.signal n e) s = .next (endHead (headSignal s1 n r).2 n e i r (headSignal s1 n r).1.1 (headSignal s1 n r).1.2) := by
  subst hs
  change execSignal n e s = _
  unfold execSignal
  dsimp only
  rw [h]
  dsimp only
  rw [if_neg (by simp [hfree])]
  unfold runSignal
  dsimp only
  rw [hfold]
  rfl

/-! ### WAIT at the head -/

/-- The watch a WAIT starts, with its first evaluation. -/
def firstWatch (s : State) (e i : Nat) (r : Rec) : Waiting :=
  evalWait s { rec' := r, slot := i, eng := e, start := s.time, how := watchHow s (sigAddr r.bytes), last := 0, met := false }

theorem firstWatch_of_readable {s : State} (e i : Nat) {r : Rec} (h : devFault s (sigAddr r.bytes) 8 = none) :
    firstWatch s e i r = { rec' := r, slot := i, eng := e, start := s.time, how := watchHow s (sigAddr r.bytes), last := devWord s (sigAddr r.bytes),
                           met := waitHolds (waitCond r.bytes) (devWord s (sigAddr r.bytes)) (sigValue r.bytes) } := by
  unfold firstWatch evalWait
  dsimp only
  rw [h]

/-- The side effects of the first evaluation. -/
def watchStarted (s : State) (n e i : Nat) (r : Rec) : State :=
  if watchHow s (sigAddr r.bytes) = .polled then post (waitTouch s (firstWatch s e i r)) n r.ctx 0x0A6 (bitsOf (sigAddr r.bytes) 3 43)
  else waitTouch s (firstWatch s e i r)

theorem watchStarted_core (s : State) (n e i : Nat) (r : Rec) (k : Nat) : (watchStarted s n e i r).core k = s.core k := by
  have htouch : (waitTouch s (firstWatch s e i r)).core k = s.core k := (waitTouch_keeps ..).core (by decide) k
  unfold watchStarted
  split
  · exact htouch
  · exact htouch

theorem exec_wait {n e i : Nat} {r : Rec} {s s1 : State} (hs : (List.range 32).foldl (checkHead e n) s = s1)
    (h : plainHead s1 n e 0x41 (fun _ => false) = some (i, r)) :
    exec (.wait n e) s = .next ((settleWait (watchStarted s1 n e i r) n (firstWatch s1 e i r)).getD
      ((watchStarted s1 n e i r).modCore n (fun c => { c with waits := c.waits ++ [firstWatch s1 e i r] }))) := by
  subst hs
  change execWait n e s = _
  unfold execWait
  dsimp only
  rw [h]
  rfl

/-- A WAIT that could be read ends once its condition held, and is not settled before. -/
theorem settleWait_met (s : State) (n : Nat) {w : Waiting} (hf : w.fault = 0) (hm : w.met = true) :
    settleWait s n w = some (endWait s n w stDone 0) := by
  unfold settleWait
  rw [if_neg (by rw [hf]; decide), if_neg (by simp [hf]), if_pos hm]

theorem settleWait_unmet (s : State) (n : Nat) {w : Waiting} (hf : w.fault = 0) (hm : w.met = false) : settleWait s n w = none := by
  unfold settleWait
  rw [if_neg (by rw [hf]; decide), if_neg (by simp [hf]), if_neg (by simp [hm])]

/-- Settles O17: each ready head leaves its queue after its own effect, and a signal's write of host memory is of its word alone. -/
theorem plainHeadsAndSignals : Obligations.PlainHeadsAndSignals := by
  refine ⟨⟨?_, ?_, ?_⟩, fun b a op v s ha h => signal_writes_host b op v ha h⟩
  · intro n e i r s _ _ s1 h
    have hexec := exec_nop h
    have hkeeps := Gives.keeps (o := execNop n e s) (execNop_keeps ..) hexec
    exact ⟨_, hexec, (hkeeps.mono (by decide)).only, endHead_queue .., endHead_running ..⟩
  · intro n e i r s _ _ s1 h hfold hfree
    have hstay : CoreStays (s1.core n) ((headSignal s1 n r).2.core n) := (applySignal_cores ..).core n
    have hkeeps : Keeps reportParts s (headSignal s1 n r).2 := (checkHeads_keeps e n s).step (applySignal_keeps ..) (by decide)
    refine ⟨_, exec_signal rfl h hfold hfree, (hkeeps.step (endHead_keeps ..) (by decide)).only, ?_, ?_⟩
    · rw [endHead_queue, hstay.queue]
    · rw [endHead_running, hstay.running]
  · intro n e i r s _ _
    dsimp only
    generalize hs : (List.range 32).foldl (checkHead e n) s = s1
    intro h hread
    have hexec := exec_wait hs h
    have hwatch := firstWatch_of_readable e i hread
    have hfault : (firstWatch s1 e i r).fault = 0 := by rw [hwatch]
    refine ⟨fun hmet => ?_, fun hmet => ?_⟩
    · have hmet' : (firstWatch s1 e i r).met = true := by rw [hwatch]; exact hmet
      rw [settleWait_met _ _ hfault hmet', Option.getD_some] at hexec
      have hkeeps := Gives.keeps (o := execWait n e s) (execWait_keeps ..) hexec
      refine ⟨_, hexec, (hkeeps.mono (by decide)).only, ?_⟩
      have hqueue := (endWait_effect (watchStarted s1 n e i r) n (firstWatch s1 e i r) stDone 0).1
      rw [watchStarted_core] at hqueue
      have hplace : (firstWatch s1 e i r).eng = e ∧ (firstWatch s1 e i r).slot = i := by rw [hwatch]; exact ⟨rfl, rfl⟩
      rwa [hplace.1, hplace.2] at hqueue
    · have hmet' : (firstWatch s1 e i r).met = false := by rw [hwatch]; exact hmet
      rw [settleWait_unmet _ _ hfault hmet', Option.getD_none] at hexec
      have hkeeps := Gives.keeps (o := execWait n e s) (execWait_keeps ..) hexec
      refine ⟨_, firstWatch s1 e i r, hexec, (hkeeps.mono (by decide)).only, ?_, ?_⟩
      · rw [State.modCore_get_core_self, watchStarted_core]
      · rw [State.modCore_get_core_self, watchStarted_core, hwatch]
        exact ⟨rfl, rfl, rfl, rfl, rfl, hmet, rfl⟩

end Sys2Proof.Machine
end

section
/-! A watched WAIT ends or times out, and words of the host are evaluated again (R87, R269, R270). -/

namespace Sys2Proof.Machine

open Sys2Proof

/-! ### WAIT_EVALUATION and WAIT_TIMEOUT -/

theorem exec_waitEvaluation_met {n e c : Nat} {w : Waiting} {s : State} (h : findWait (s.core n) e c = some w) (hf : w.fault = 0)
    (hm : w.met = true) : exec (.waitEvaluation n e c) s = .next (endWait s n w stDone 0) := by
  change execWaitEvaluation n e c s = _
  unfold execWaitEvaluation
  rw [h]
  dsimp only
  rw [settleWait_met s n hf hm, Option.getD_some]

/-- However its last evaluation went, a WAIT at its end leaves its queue. -/
theorem settleWait_ends (s : State) (n : Nat) (w : Waiting) (st : Status) (d : Nat) :
    ∃ st' d', (settleWait s n w).getD (endWait s n w st d) = endWait s n w st' d' := by
  unfold settleWait
  split
  · exact ⟨_, _, rfl⟩
  · split
    · exact ⟨_, _, rfl⟩
    · split
      · exact ⟨_, _, rfl⟩
      · exact ⟨_, _, rfl⟩

theorem exec_waitTimeout_due {n e c : Nat} {w : Waiting} {s : State} (h : findWait (s.core n) e c = some w)
    (hlimit : waitTimeout w.rec'.bytes ≠ 0) (hdue : w.start.toNat + 1000 * waitTimeout w.rec'.bytes ≤ s.time.toNat) :
    ∃ st d, exec (.waitTimeout n e c) s = .next (endWait s n w st d) := by
  obtain ⟨st, d, hends⟩ := settleWait_ends s n w stDeadline (w.last.toNat % 2 ^ 32)
  refine ⟨st, d, ?_⟩
  change execWaitTimeout n e c s = _
  unfold execWaitTimeout
  rw [h]
  dsimp only
  rw [if_neg (by simp [hlimit, hdue]), hends]

theorem exec_waitTimeout_early {n e c : Nat} {w : Waiting} {s : State} (h : findWait (s.core n) e c = some w)
    (hearly : waitTimeout w.rec'.bytes = 0 ∨ s.time.toNat < w.start.toNat + 1000 * waitTimeout w.rec'.bytes) :
    exec (.waitTimeout n e c) s = .next s := by
  change execWaitTimeout n e c s = _
  unfold execWaitTimeout
  rw [h]
  dsimp only
  rw [if_pos (by simpa using hearly)]

/-! ### The WAITs of a core are evaluated again -/

/-- A core whose undecided WAITs that the test picks are evaluated again on state `s`. -/
def reread (s : State) (p : Waiting → Bool) (c : Core) : Core :=
  { c with waits := c.waits.map (fun w => if p w && !w.met && w.fault == 0 then evalWait s w else w) }

theorem reevaluate_core (s : State) (p : Waiting → Bool) (n : Nat) : (reevaluate s p).core n = reread s p (s.core n) := by
  have htouch : ∀ ws : List Waiting, (ws.foldl waitTouch s).cores = s.cores := fun ws =>
    (Keeps.foldl (Keeps.refl [.uniBad, .mports, .tiers, .hps, .tallies] s) (fun u x h => h.trans (waitTouch_keeps u x))).only.2 .cores (by decide)
  have hmap := tget_mapk coreDef (fun _ => reread s p) (fun _ => rfl) s.cores n
  unfold reevaluate
  dsimp only
  rw [htouch]
  exact hmap

theorem evalWait_same (s : State) (w : Waiting) :
    (evalWait s w).rec' = w.rec' ∧ (evalWait s w).slot = w.slot ∧ (evalWait s w).eng = w.eng ∧ (evalWait s w).how = w.how := by
  unfold evalWait
  dsimp only
  split <;> exact ⟨rfl, rfl, rfl, rfl⟩

theorem evalWait_readable {s : State} {w : Waiting} (h : devFault s (sigAddr w.rec'.bytes) 8 = none) :
    (evalWait s w).last = devWord s (sigAddr w.rec'.bytes) ∧
      (evalWait s w).met = waitHolds (waitCond w.rec'.bytes) (evalWait s w).last (sigValue w.rec'.bytes) := by
  unfold evalWait
  dsimp only
  rw [h]
  exact ⟨rfl, rfl⟩

theorem reread_mem {s : State} {p : Waiting → Bool} {c : Core} {w : Waiting} (hw : w ∈ c.waits) (hp : p w = true) (hm : w.met = false)
    (hf : w.fault = 0) : evalWait s w ∈ (reread s p c).waits := by
  have h := List.mem_map_of_mem (f := fun w => if p w && !w.met && w.fault == 0 then evalWait s w else w) hw
  rwa [if_pos (by simp [hp, hm, hf])] at h

theorem observeRings_ctxs (s : State) (p : Watch → Nat → Bool) : CtxsSeen s (observeRings s p) := by
  unfold observeRings
  refine CtxsSeen.foldl (fun u x => ?_) _ s
  dsimp only
  split
  · exact CtxsSeen.refl u
  · exact observeValue_ctxs ..

/-- An evaluation of the WAITs a test picks, and an observation of rings, on a state that differs from `s` at most in what the host has stored and in
when it was polled. -/
theorem reevaluated {s u : State} (p : Waiting → Bool) (q : Watch → Nat → Bool) (hu : Keeps [.host, .hub2] s u)
    (hfault : ∀ a, devFault u a 8 = devFault s a 8) :
    let t := observeRings (reevaluate u p) q
    t.host = u.host ∧ CtxsSeen s t ∧
      ∀ n w, w ∈ (s.core n).waits → p w = true → w.met = false → w.fault = 0 → devFault s (sigAddr w.rec'.bytes) 8 = none →
        ∃ w' ∈ (t.core n).waits, w'.rec' = w.rec' ∧ w'.slot = w.slot ∧ w'.eng = w.eng ∧ w'.how = w.how ∧
          w'.last = devWord u (sigAddr w.rec'.bytes) ∧ w'.met = waitHolds (waitCond w.rec'.bytes) w'.last (sigValue w.rec'.bytes) := by
  intro t
  have hagain := reevaluate_keeps u p
  have hobs := observeRings_keeps (reevaluate u p) q
  refine ⟨(hobs.only.2 .host (by decide)).trans (hagain.only.2 .host (by decide)),
    ((hu.ctxsSeen (by decide)).trans (hagain.ctxsSeen (by decide))).trans (observeRings_ctxs ..), fun n w hw hp hm hf hread => ?_⟩
  obtain ⟨hrec, hslot, heng, hhow⟩ := evalWait_same u w
  obtain ⟨hlast, hmet⟩ := evalWait_readable ((hfault _).trans hread)
  refine ⟨evalWait u w, ?_, hrec, hslot, heng, hhow, hlast, hmet⟩
  rw [hobs.core (by decide), reevaluate_core]
  exact reread_mem (by rwa [hu.core (by decide)]) hp hm hf

/-! ### POLL_INTERVAL_EXPIRY and LINE_INVALIDATION -/

/-- What the host has stored, as a reading of it at this time finds it. -/
def polledNow (s : State) (l : List (Nat × Byte)) : State :=
  { hostStores s l with hub2 := { (hostStores s l).hub2 with polledAt := (hostStores s l).time } }

theorem polledNow_keeps (s : State) (l : List (Nat × Byte)) : Keeps [.host, .hub2] s (polledNow s l) :=
  ((hostStores_keeps s l).mono (by decide)).set_hub2 (by decide)

theorem exec_pollIntervalExpiry_due {s : State} (l : List (Nat × Byte))
    (h : s.hub2.polledAt.toNat + 1000 * s.hub2.syncpoll.toNat ≤ s.time.toNat) :
    exec (.pollIntervalExpiry l) s =
      .next (observeRings (reevaluate (polledNow s l) (fun w => decide (w.how = .polled))) (fun h _ => h == .polled)) := by
  have hdue : pollDue (hostStores s l) = true := decide_eq_true h
  change execPollIntervalExpiry l s = _
  unfold execPollIntervalExpiry
  dsimp only
  rw [if_neg (by simp [hdue])]
  rfl

theorem exec_pollIntervalExpiry_early {s : State} (l : List (Nat × Byte))
    (h : s.time.toNat < s.hub2.polledAt.toNat + 1000 * s.hub2.syncpoll.toNat) : exec (.pollIntervalExpiry l) s = .next (hostStores s l) := by
  have hdue : pollDue (hostStores s l) = false := decide_eq_false (Nat.not_le.mpr h)
  change execPollIntervalExpiry l s = _
  unfold execPollIntervalExpiry
  dsimp only
  rw [if_pos (by simp [hdue])]

/-- Settles O18: a settled WAIT ends as one at its time limit does, and an evaluation rereads each word the test picks. -/
theorem watchedWaits : Obligations.WatchedWaits := by
  refine ⟨⟨fun n e c w s _ _ _ h hf hm => ?_, fun n e c w s _ _ _ h hlimit hdue => ?_, fun n e c w s _ _ _ h hearly =>
    exec_waitTimeout_early h hearly⟩, fun l s p cmd hcmd => ?_, fun l s h => exec_pollIntervalExpiry_early l h⟩
  · have hexec := exec_waitEvaluation_met h hf hm
    have hkeeps := Gives.keeps (o := execWaitEvaluation n e c s) (execWaitEvaluation_keeps ..) hexec
    exact ⟨_, hexec, (hkeeps.mono (by decide)).only, endWait_effect ..⟩
  · obtain ⟨st, d, hexec⟩ := exec_waitTimeout_due h hlimit hdue
    have hkeeps := Gives.keeps (o := execWaitTimeout n e c s) (execWaitTimeout_keeps ..) hexec
    exact ⟨_, hexec, (hkeeps.mono (by decide)).only, endWait_effect ..⟩
  · rcases hcmd with ⟨rfl, hdue, rfl⟩ | ⟨k, rfl, rfl⟩
    · have hexec := exec_pollIntervalExpiry_due l hdue
      have hkeeps := Gives.keeps (o := execPollIntervalExpiry l s) (execPollIntervalExpiry_keeps ..) hexec
      obtain ⟨hhost, hseen, hwaits⟩ := reevaluated (fun w => decide (w.how = .polled)) (fun h _ => h == .polled) (polledNow_keeps s l) (fun _ => rfl)
      exact ⟨_, hexec, (hkeeps.mono (by decide)).only, hhost, hseen, fun n w hw hp hm hf _ hread => hwaits n w hw hp hm hf hread⟩
    · have hexec : exec (.lineInvalidation k l) s = .next (observeRings (reevaluate (hostStores s l)
        (fun w => decide (w.how = .cached) && sigAddr w.rec'.bytes / 64 == k)) (fun h a => h == .cached && a / 64 == k)) := rfl
      have hkeeps := Gives.keeps (o := execLineInvalidation k l s) (execLineInvalidation_keeps ..) hexec
      obtain ⟨hhost, hseen, hwaits⟩ := reevaluated (fun w => decide (w.how = .cached) && sigAddr w.rec'.bytes / 64 == k)
        (fun h a => h == .cached && a / 64 == k) ((hostStores_keeps s l).mono (by decide)) (fun _ => rfl)
      exact ⟨_, hexec, (hkeeps.mono (by decide)).only, hhost, hseen, fun n w hw hp hm hf _ hread => hwaits n w hw hp hm hf hread⟩

end Sys2Proof.Machine
end

section
/-! Service states, write-back and test of a core, and its slots (R68, R69, R74, R92, R102, R382). -/

namespace Sys2Proof.Machine

open Sys2Proof

/-- The record that an event leaves in the queue of its unit's ring. -/
theorem post_tally_self (s : State) (u c code : Nat) {payload : Nat} (hp : payload < 2 ^ 46) :
    ∃ x, ((post s u c code payload).tally u).fresh = (s.tally u).fresh ++ [x] ∧ x.code = BitVec.ofNat 12 code ∧ x.payload.toNat = payload := by
  unfold post
  rw [State.modTally_get_tally_self]
  exact ⟨_, rfl, rfl, (BitVec.toNat_ofNat ..).trans (Nat.mod_eq_of_lt hp)⟩

/-! ### CORE_STATE_REQ, SERVICE_STATE_ADOPT, SCRATCHPAD_WRITEBACK -/

theorem exec_coreStateReq {who : Party} {s : State} (n : Nat) (q : BitVec 2) (ha : Admitted s who .admin) :
    exec (.coreStateReq who n q) s = .next (s.modCore n (fun c => { c with req := q, fwReq := false })) :=
  congrArg Host.Outcome.next (gated_admitted _ ha)

theorem exec_serviceStateAdopt {n : Nat} {s : State} (hreq : (s.core n).req ≠ (s.core n).serv) (hidle : (s.core n).running = []) :
    exec (.serviceStateAdopt n) s =
      .next (post (s.modCore n adoptState) n 0 0x042 ((s.core n).req.toNat + 16 * (s.core n).serv.toNat)) := by
  change execServiceStateAdopt n s = _
  unfold execServiceStateAdopt
  dsimp only
  rw [if_neg (by simpa [hidle] using hreq)]

theorem adoptState_serv (c : Core) : (adoptState c).serv = c.req := by
  unfold adoptState
  dsimp only
  split <;> rfl

theorem adoptState_queues (c : Core) : (adoptState c).queues = c.queues := by
  unfold adoptState
  dsimp only
  split <;> rfl

/-- The oldest corrected word of a scratchpad is good again. -/
def writeBackFirst (c : Core) : Core :=
  match c.wback with
  | [] => c
  | w :: ws => { c with wback := ws, bad := tset d0 c.bad w 0 }

theorem writeBackFirst_cons {c : Core} {w : Nat} {ws : List Nat} (h : c.wback = w :: ws) :
    writeBackFirst c = { c with wback := ws, bad := tset d0 c.bad w 0 } := by
  unfold writeBackFirst
  rw [h]

theorem exec_scratchpadWriteback (n : Nat) (s : State) : exec (.scratchpadWriteback n) s = .next (s.modCore n writeBackFirst) := rfl

theorem service_states :
    (∀ (who : Party) (n : Nat) (q : BitVec 2) (s : State), n < 800 → Admitted s who .admin →
      ∃ t, exec (.coreStateReq who n q) s = .next t ∧ Only [.cores] s t ∧ t.core n = { s.core n with req := q, fwReq := false } ∧
        ∀ m, m ≠ n → t.core m = s.core m) ∧
    (∀ (n : Nat) (s : State), n < 800 → (s.core n).req ≠ (s.core n).serv → (s.core n).running = [] →
      ∃ t, exec (.serviceStateAdopt n) s = .next t ∧ Only [.cores, .tallies] s t ∧ (t.core n).serv = (s.core n).req ∧
        (t.core n).queues = (s.core n).queues ∧ (t.core n).scratch = (s.core n).scratch ∧ (∀ m, m ≠ n → t.core m = s.core m) ∧
        (∃ x, (t.tally n).fresh = (s.tally n).fresh ++ [x] ∧ x.code = 0x042 ∧
          x.payload.toNat = (s.core n).req.toNat + 16 * (s.core n).serv.toNat) ∧ ∀ u, u ≠ n → t.tally u = s.tally u) ∧
    (∀ (n w : Nat) (ws : List Nat) (s : State), n < 800 → (s.core n).wback = w :: ws →
      ∃ t, exec (.scratchpadWriteback n) s = .next t ∧ Only [.cores] s t ∧ (t.core n).wback = ws ∧ tget d0 (t.core n).bad w = 0 ∧
        (∀ v, v ≠ w → tget d0 (t.core n).bad v = tget d0 (s.core n).bad v) ∧ (t.core n).scratch = (s.core n).scratch ∧
        ∀ m, m ≠ n → t.core m = s.core m) := by
  refine ⟨fun who n q s _ ha => ?_, fun n s _ hreq hidle => ?_, fun n w ws s _ hw => ?_⟩
  · exact ⟨_, exec_coreStateReq n q ha, (State.modCore_keeps s n (fun c => { c with req := q, fwReq := false }) (fun _ h => h)).only, State.modCore_get_core_self ..,
      fun m hm => State.modCore_get_core_ne _ _ _ _ hm⟩
  · have hcore : ∀ m, (post (s.modCore n adoptState) n 0 0x042 ((s.core n).req.toNat + 16 * (s.core n).serv.toNat)).core m =
        if m = n then adoptState (s.core n) else s.core m := State.modCore_get_core s n adoptState
    have hsmall : (s.core n).req.toNat + 16 * (s.core n).serv.toNat < 2 ^ 46 := by
      have := (s.core n).req.isLt
      have := (s.core n).serv.isLt
      omega
    have hexec := exec_serviceStateAdopt hreq hidle
    have hkeeps := Gives.keeps (o := execServiceStateAdopt n s) (execServiceStateAdopt_keeps ..) hexec
    refine ⟨_, hexec, (hkeeps.mono (by decide)).only, ?_, ?_, ?_, fun m hm => ?_, post_tally_self _ _ _ _ hsmall,
      fun u hu => post_get_tally_ne _ _ _ _ _ _ hu⟩
    · rw [hcore, if_pos rfl, adoptState_serv]
    · rw [hcore, if_pos rfl, adoptState_queues]
    · rw [hcore, if_pos rfl, adoptState_scratch]
    · rw [hcore, if_neg hm]
  · have hkeeps := Gives.keeps (o := execScratchpadWriteback n s) (execScratchpadWriteback_keeps ..) (exec_scratchpadWriteback n s)
    refine ⟨_, exec_scratchpadWriteback n s, (hkeeps.mono (by decide)).only, ?_, ?_, fun v hv => ?_, ?_,
      fun m hm => State.modCore_get_core_ne _ _ _ _ hm⟩ <;> rw [State.modCore_get_core_self, writeBackFirst_cons hw]
    · exact tget_tset_self d0 (s.core n).bad w 0
    · exact tget_tset_ne d0 (s.core n).bad w v 0 hv

/-! ### CORE_TEST (R382) -/

theorem exec_coreTest_pass {n : Nat} {s : State} (ht : testable s n = true) (hserv : (s.core n).testing = some (s.core n).serv) :
    ∃ t, exec (.coreTest n true) s = .next t ∧ Only [.cores] s t ∧ (t.core n).req = 0 ∧ (t.core n).testing = none ∧ (t.core n).untrusted = false ∧
      (t.core n).serv = (s.core n).serv ∧ ∀ m, m ≠ n → t.core m = s.core m := by
  let f : Core → Core := fun c =>
    if c.testing = some c.serv then { c with req := 0, testing := none, untrusted := false, fwReq := false } else { c with testing := none, untrusted := false }
  have hf : f (s.core n) = { s.core n with req := 0, testing := none, untrusted := false, fwReq := false } := if_pos hserv
  have hexec : exec (.coreTest n true) s = .next (s.modCore n f) := by
    change execCoreTest n true s = _
    unfold execCoreTest
    rw [if_neg (by simp [ht]), if_pos rfl]
  have hkeeps : Keeps [.cores] s (s.modCore n f) := State.modCore_keeps s n f (fun c h => by
    unfold f
    split <;> exact h)
  refine ⟨_, hexec, hkeeps.only, ?_, ?_, ?_, ?_, fun m hm => State.modCore_get_core_ne _ _ _ _ hm⟩ <;>
    rw [State.modCore_get_core_self, hf]

/-- A core that failed its test is kept out of NORMAL. -/
def failTest (c : Core) : Core :=
  if c.serv = 0 then { c with untrusted := true, testing := none, req := 3, fwReq := true } else { c with untrusted := true, testing := none }

theorem failTest_untrusted (c : Core) : (failTest c).untrusted = true := by
  unfold failTest
  split <;> rfl

theorem failTest_idle {c : Core} (h1 : c.running = []) (h2 : c.queues = []) : (failTest c).running = [] ∧ (failTest c).queues = [] := by
  unfold failTest
  split <;> exact ⟨h1, h2⟩

theorem exec_coreTest_fail {n : Nat} {s : State} (ht : testable s n = true) :
    exec (.coreTest n false) s = .next (proposeUnit (s.modCore n failTest) 1 n) := by
  change execCoreTest n false s = _
  unfold execCoreTest
  rw [if_neg (by simp [ht])]
  rfl

/-- The state in which a unit's retirement is proposed. -/
def proposed (s : State) (kind idx : Nat) : State := post { s with hub2 := { s.hub2 with propose := true } } uHub 0 0x0F5 (kind + 256 * idx)

theorem proposeUnit_free {s : State} {kind idx i : Nat} (h : unitFenced s kind idx = false) (hi : freeEntry s = some i) :
    proposeUnit s kind idx = raiseUnit (proposed s kind idx) i kind idx := by
  have hfenced : unitFenced (proposed s kind idx) kind idx = false := h
  have hentry : freeEntry (proposed s kind idx) = some i := hi
  unfold proposeUnit
  change (if unitFenced (proposed s kind idx) kind idx = true then proposed s kind idx else match freeEntry (proposed s kind idx) with
    | some i => raiseUnit (proposed s kind idx) i kind idx
    | none => _) = _
  rw [if_neg (by simp [hfenced]), hentry]

/-- The entry of a Hurdle that is raised on a unit, with every other field anew. -/
def unitHurdle (kind idx : Nat) (h : Hurdle) : Hurdle :=
  { h with busy := true, quiesced := false, lifting := false, result := stDone, kind := 5, target := BitVec.ofNat 32 (kind + 256 * idx) }

/-- A Hurdle raised on a core that holds no command. -/
theorem raiseUnit_core (s : State) (i n : Nat) (h1 : (s.core n).running = []) (h2 : (s.core n).queues = []) :
    ((raiseUnit s i 1 n).core n).untrusted = (s.core n).untrusted ∧ (raiseUnit s i 1 n).hub2 = s.hub2 ∧
      ((raiseUnit s i 1 n).hurdle i).busy = true ∧ ((raiseUnit s i 1 n).hurdle i).kind = 5 ∧
      ((raiseUnit s i 1 n).hurdle i).target = BitVec.ofNat 32 (1 + 256 * n) ∧ ∀ j, j ≠ i → (raiseUnit s i 1 n).hurdle j = s.hurdle j := by
  let u := post (s.modHurdle i (unitHurdle 1 n)) uHub 0 0x0A3 (hurdlePay 5 (1 + 256 * n) i)
  have hraise : raiseUnit s i 1 n = fenceCore u n i := fenceEngines_one u n i
  obtain ⟨hhub, hun, -, -⟩ := fenceCore_idle u n i h1 h2
  have hhurdle : ∀ j, (fenceCore u n i).hurdle j = (s.modHurdle i (unitHurdle 1 n)).hurdle j := fun j => (fenceCore_keeps ..).hurdle (by decide) j
  have hself : (fenceCore u n i).hurdle i = unitHurdle 1 n (s.hurdle i) := (hhurdle i).trans (State.modHurdle_get_hurdle_self ..)
  rw [hraise, hself]
  exact ⟨hun, hhub, rfl, rfl, rfl, fun j hj => (hhurdle j).trans (State.modHurdle_get_hurdle_ne _ _ _ _ hj)⟩

/-- Settles O19: a request, an adoption and a write-back change one core, and a failed test proposes the core and raises a Hurdle on it. -/
theorem coreServiceStates : Obligations.CoreServiceStates := by
  refine ⟨service_states, fun n s _ ht hserv => exec_coreTest_pass ht hserv, fun n i s hn ht hfenced hentry hidle hempty => ?_⟩
  have hpropose : proposeUnit (s.modCore n failTest) 1 n = raiseUnit (proposed (s.modCore n failTest) 1 n) i 1 n := proposeUnit_free hfenced hentry
  have hcore : (proposed (s.modCore n failTest) 1 n).core n = failTest (s.core n) := State.modCore_get_core_self ..
  obtain ⟨hrun, hqueues⟩ := failTest_idle hidle hempty
  obtain ⟨hun, hhub, hbusy, hkind, htarget, hothers⟩ := raiseUnit_core (proposed (s.modCore n failTest) 1 n) i n (by rw [hcore]; exact hrun)
    (by rw [hcore]; exact hqueues)
  refine ⟨_, (exec_coreTest_fail ht).trans (congrArg _ hpropose), ?_, by rw [hhub]; rfl, hbusy, hkind, ?_, fun j hj => (hothers j hj).trans rfl⟩
  · rw [hun, hcore, failTest_untrusted]
  · rw [htarget, BitVec.toNat_ofNat, Nat.mod_eq_of_lt (by omega)]

/-! ### CORE_SLOT (R92, R102) -/

theorem exec_coreSlot {who : Party} {s : State} (n i : Nat) (v : BitVec 64) (ha : Admitted s who .admin) :
    exec (.coreSlot who n i v) s = .next (s.modCore n (fun c => slotWrite c i v.toNat)) := congrArg Host.Outcome.next (gated_admitted _ ha)

/-- A write of a slot names a context that another slot of the core holds. -/
def SlotTaken (c : Core) (i v : Nat) : Prop :=
  bitOf v 63 = true ∧ ∃ j, j < 32 ∧ j ≠ i ∧ ((c.slot j).valid = true ∨ (c.slot j).drain = true) ∧ (c.slot j).ctx.toNat = bitsOf v 48 10

theorem slotTaken_iff (c : Core) (i v : Nat) :
    (bitOf v 63 && (List.range 32).any (fun j => j != i && ((c.slot j).valid || (c.slot j).drain) && (c.slot j).ctx.toNat == bitsOf v 48 10)) = true ↔
      SlotTaken c i v := by
  simp [SlotTaken, and_assoc]

/-- A slot as CORE_SLOT's value describes it, when it takes a context. -/
def slotOf (v : Nat) : Slot :=
  { valid := true, drain := false, ctx := BitVec.ofNat 10 (bitsOf v 48 10), weight := BitVec.ofNat 4 (max 1 (bitsOf v 40 4)),
    wlen := BitVec.ofNat 7 (min 64 (max 1 (bitsOf v 16 7))), wbase := BitVec.ofNat 6 (bitsOf v 0 6) }

theorem slotWrite_takes {c : Core} {i v : Nat} (hi : i ≠ 0) (hctx : bitsOf v 48 10 ≠ 0) (hvalid : bitOf v 63 = true)
    (hfree : (c.slot i).valid = false ∧ (c.slot i).drain = false) (htaken : ¬SlotTaken c i v) :
    ∃ cr, slotWrite c i v = { c.setSlot i (slotOf v) with credit := cr } := by
  have htaken' := Bool.eq_false_iff.mpr (mt (slotTaken_iff c i v).mp htaken)
  obtain ⟨hnot, hdrain⟩ := hfree
  unfold slotWrite
  dsimp only
  rw [htaken', if_neg (by simp [hi, hctx, hvalid, hnot, hdrain]), if_pos hvalid, hvalid]
  exact ⟨_, rfl⟩

theorem slotWrite_ignored {c : Core} {i v : Nat} (h : i = 0 ∨ bitsOf v 48 10 = 0 ∨ SlotTaken c i v) : slotWrite c i v = c := by
  unfold slotWrite
  dsimp only
  refine if_pos ?_
  rcases h with h | h | h
  · simp [h]
  · simp [h]
  · rw [(slotTaken_iff c i v).mpr h]
    simp

theorem bitsOf_lt (v lo n : Nat) : bitsOf v lo n < 2 ^ n := Nat.mod_lt _ (Nat.two_pow_pos n)

theorem slotOf_fields (v : Nat) :
    (slotOf v).ctx.toNat = bitsOf v 48 10 ∧ (slotOf v).weight.toNat = max 1 (bitsOf v 40 4) ∧
      (slotOf v).wlen.toNat = min 64 (max 1 (bitsOf v 16 7)) ∧ (slotOf v).wbase.toNat = bitsOf v 0 6 := by
  have hweight := bitsOf_lt v 40 4
  refine ⟨?_, ?_, ?_, ?_⟩
  · exact (BitVec.toNat_ofNat ..).trans (Nat.mod_eq_of_lt (bitsOf_lt ..))
  · exact (BitVec.toNat_ofNat ..).trans (Nat.mod_eq_of_lt (by omega))
  · exact (BitVec.toNat_ofNat ..).trans (Nat.mod_eq_of_lt (by omega))
  · exact (BitVec.toNat_ofNat ..).trans (Nat.mod_eq_of_lt (bitsOf_lt ..))

/-- Settles O20: a write that may stand replaces one slot, and any other leaves the core. -/
theorem coreSlotWrite : Obligations.CoreSlotWrite := by
  refine ⟨?_, fun who n i v s _ _ ha hno => ?_⟩
  · intro who n i v s _ _ ha hi x hctx hvalid hnot hdrain hothers
    obtain ⟨cr, hwrite⟩ := slotWrite_takes hi hctx hvalid ⟨hnot, hdrain⟩ (by
      rintro ⟨-, j, hj, hne, hheld, heq⟩
      exact hothers j hj hne hheld heq)
    have hkeeps : Keeps [.cores] s (s.modCore n (fun c => slotWrite c i v.toNat)) := State.modCore_keeps s n _ (fun _ h => by rwa [slotWrite_scratch])
    have hslot : ((slotWrite (s.core n) i v.toNat).slot i) = slotOf v.toNat := by
      rw [hwrite]
      exact Core.setSlot_slot_self ..
    obtain ⟨hc, hw, hl, hb⟩ := slotOf_fields v.toNat
    refine ⟨_, exec_coreSlot n i v ha, hkeeps.only, ?_⟩
    rw [State.modCore_get_core_self, hslot, hwrite]
    exact ⟨rfl, hc, hw, hl, hb, fun j hj => Core.setSlot_slot_ne _ _ _ _ hj, rfl, rfl, fun m hm => State.modCore_get_core_ne _ _ _ _ hm⟩
  · have hkeeps : Keeps [.cores] s (s.modCore n (fun c => slotWrite c i v.toNat)) := State.modCore_keeps s n _ (fun _ h => by rwa [slotWrite_scratch])
    refine ⟨_, exec_coreSlot n i v ha, hkeeps.only, fun m => ?_⟩
    rw [State.modCore_get_core, slotWrite_ignored (hno.imp_right (Or.imp_right (fun ⟨hv, j, hj, hne, hval, heq⟩ => ⟨hv, j, hj, hne, .inl hval, heq⟩)))]
    split
    · next h => rw [h]
    · rfl

end Sys2Proof.Machine
end

section
/-! CREATE, DESTROY and the end of a context (R288 to R290). -/

namespace Sys2Proof.Machine

open Sys2Proof

/-! ### CREATE -/

theorem exec_create_refused {who : Party} {c : Nat} {s : State} (hadmin : Admitted s who .admin) (hctx : Admitted s who (.ctx c))
    (h : c = 0 ∨ (s.ctx c).state ≠ 0) : exec (.create who c) s = .next (setResult s c (if c = 0 then stPrivilege else stMode)) := by
  refine congrArg Host.Outcome.next ((gatedEntry_admitted _ hadmin hctx).trans ?_)
  by_cases hc : c = 0
  · rw [if_pos hc, if_pos hc]
  · rw [if_neg hc, if_neg hc, if_pos (h.resolve_left hc)]

theorem create_makes_live {who : Party} {c : Nat} {s : State} (hc : c < 1024) (hc0 : c ≠ 0) (hadmin : Admitted s who .admin)
    (howner : Admitted s who (.ctx c)) (hfree : (s.ctx c).state = 0) :
    ∃ t, exec (.create who c) s = .next t ∧ Only [.ctxs, .tallies] s t ∧ (t.ctx c).state = 1 ∧ (t.ctx c).result = stDone ∧
      (t.ctx c).kind = (s.ctx c).kind ∧ (t.ctx c).parts = (s.ctx c).parts ∧ (t.ctx c).ro0 = (s.ctx c).ro0 ∧ (t.ctx c).ro1 = (s.ctx c).ro1 ∧
      (∀ k, ((t.ctx c).ring k).en = false) ∧ (t.ctx c).maxreq = 256 ∧ (t.ctx c).chunk = 256 ∧ (t.ctx c).tokbud = 512 ∧
      (t.ctx c).requests = [] ∧ (∀ d, d ≠ c → t.ctx d = s.ctx d) ∧
      (∃ x, (t.tally uHub).fresh = (s.tally uHub).fresh ++ [x] ∧ x.code = 0x0B4 ∧ x.payload.toNat = c + 2 ^ 10) ∧
      ∀ u, u ≠ uHub → t.tally u = s.tally u := by
  obtain ⟨-, hentry, hother⟩ := State.modCtx_only_entry s c created
  have hctx : (noteCtx (s.modCtx c created) c 1).ctx c = created (s.ctx c) := hentry
  refine ⟨_, exec_create_free hc0 hadmin howner hfree, noteCtx_created_only s c, ?_⟩
  rw [hctx]
  exact ⟨rfl, rfl, rfl, rfl, rfl, rfl, fun _ => rfl, rfl, rfl, rfl, rfl, hother, post_tally_self _ _ _ _ (by omega),
    fun u hu => post_get_tally_ne _ _ _ _ _ _ hu⟩

theorem create_refused {who : Party} {c : Nat} {s : State} (hadmin : Admitted s who .admin) (hctx : Admitted s who (.ctx c))
    (h : c = 0 ∨ (s.ctx c).state ≠ 0) :
    ∃ t, exec (.create who c) s = .next t ∧ Only [.ctxs] s t ∧ (t.ctx c).state = (s.ctx c).state ∧
      (t.ctx c).result = (if c = 0 then stPrivilege else stMode) ∧ (t.ctx c).rings = (s.ctx c).rings ∧ ∀ d, d ≠ c → t.ctx d = s.ctx d := by
  obtain ⟨honly, hentry, hother⟩ := State.modCtx_only_entry s c (fun x => { x with result := if c = 0 then stPrivilege else stMode })
  refine ⟨_, exec_create_refused hadmin hctx h, honly, ?_⟩
  unfold setResult
  rw [hentry]
  exact ⟨rfl, rfl, rfl, hother⟩

/-! ### DESTROY -/

theorem exec_destroy_live {who : Party} {c : Nat} {s : State} (hc : c ≠ 0) (hadmin : Admitted s who .admin) (hctx : Admitted s who (.ctx c))
    (hlive : (s.ctx c).state = 1) :
    exec (.destroy who c) s = .next (fenceCtx (noteCtx (s.modCtx c (fun x => { x with state := 2 })) c 2) c 0x1F) := by
  refine congrArg Host.Outcome.next ((gatedEntry_admitted _ hadmin hctx).trans ?_)
  rw [if_neg hc, if_neg (not_not.mpr hlive)]

theorem destroy_makes_dying {who : Party} {c : Nat} {s : State} (hc : c ≠ 0) (hadmin : Admitted s who .admin) (hctx : Admitted s who (.ctx c))
    (hlive : (s.ctx c).state = 1) : ∃ t, exec (.destroy who c) s = .next t ∧ (t.ctx c).state = 2 ∧ ctxFenced t c = true := by
  have hstate : ((fenceCtx (noteCtx (s.modCtx c (fun x => { x with state := 2 })) c 2) c 0x1F).ctx c).state = 2 := by
    rw [(fenceCtx_sameStates ..).state]
    exact congrArg Ctx.state (State.modCtx_get_ctx_self s c (fun x => { x with state := 2 }))
  refine ⟨_, exec_destroy_live hc hadmin hctx hlive, hstate, ?_⟩
  unfold ctxFenced
  rw [hstate]
  simp

/-! ### DESTROY_COMPLETE -/

/-- What a destroyed context leaves of a Fold. -/
def foldForget (c : Nat) (f : Fold) : Fold := if f.ctx.toNat = c then { f with valid := false } else f

/-- The entry of a destroyed context: FREE, its rings disabled, no completion record held. -/
def freed (x : Ctx) : Ctx :=
  { x with rings := x.rings.map (fun r => (r.1, { r.2 with en := false, deferred := none, retry := false })), comps := [], state := 0, result := stDone }

/-- The cores without a destroyed context. -/
def coresForget (s : State) (c : Nat) : State := (usedCores s).foldl (fun s n => s.modCore n (coreForget c)) s

/-- The Folds of a state without those of a destroyed context. -/
def foldsForget (s : State) (c : Nat) : State := (s.folds.map (·.1)).foldl (fun s k => s.modFold k (foldForget c)) s

/-- A state without a destroyed context. -/
def ctxForget (s : State) (c : Nat) : State :=
  let u := (foldsForget (coresForget s c) c).modCtx c freed
  noteCtx { u with manifests := u.manifests.filter (fun m => m.ctx != c) } c 0

theorem exec_destroyComplete {c : Nat} {s : State} (hdying : (s.ctx c).state = 2) (hquiet : ctxQuiet s c = true) :
    exec (.destroyComplete c) s = .next (ctxForget s c) := by
  change execDestroyComplete c s = _
  unfold execDestroyComplete
  rw [if_neg (by simp [hdying, hquiet])]
  rfl

theorem foldForget_twice (c : Nat) (f : Fold) : foldForget c (foldForget c f) = foldForget c f := by
  by_cases h : f.ctx.toNat = c
  · rw [show foldForget c f = { f with valid := false } from if_pos h]
    exact if_pos h
  · rw [show foldForget c f = f from if_neg h]
    exact if_neg h

theorem foldForget_ctx (c : Nat) (f : Fold) : (foldForget c f).ctx = f.ctx := by
  unfold foldForget
  split <;> rfl

theorem foldsForget_fold (s : State) (c k : Nat) : (foldsForget s c).fold k = foldForget c (s.fold k) := by
  rw [foldsForget, foldl_modFold_get _ (foldForget_twice c)]
  split
  · rfl
  · next h =>
    have hdef : s.fold k = foldDef k := tget_not_mem foldDef s.folds k h
    rw [hdef]
    unfold foldForget
    split <;> rfl

theorem coresForget_keeps (s : State) (c : Nat) : Keeps [.cores] s (coresForget s c) :=
  Keeps.foldl (Keeps.refl _ s) (fun u n h => h.trans (State.modCore_keeps u n (coreForget c) (fun x hx => by rwa [(coreForget_same c x).1])))

theorem foldsForget_keeps (s : State) (c : Nat) : Keeps [.folds] s (foldsForget s c) :=
  Keeps.foldl (Keeps.refl _ s) (fun u _ h => h.trans (State.modFold_keeps u _ _))

theorem coresForget_slot (s : State) (c n i : Nat) (h0 : 0 < i) (hi : i < 32) (h : (((coresForget s c).core n).slot i).ctx.toNat = c) :
    (((coresForget s c).core n).slot i).valid = false ∧ (((coresForget s c).core n).slot i).drain = false := by
  obtain ⟨hused, hunused⟩ := foldl_modCore (fun k => (k.slot i).ctx.toNat = c → (k.slot i).valid = false ∧ (k.slot i).drain = false) (coreForget c)
    (fun k => coreForget_slot c k i hi h0) (usedCores s) s n
  by_cases hn : n ∈ usedCores s
  · exact hused hn h
  · have hdef : s.core n = coreDef n := tget_not_mem coreDef s.cores n hn
    have hslot : (coreDef n).slot i = {} := if_neg h0.ne'
    rw [coresForget, hunused hn, hdef, hslot]
    exact ⟨rfl, rfl⟩

theorem coresForget_same (s : State) (c n : Nat) :
    ((coresForget s c).core n).scratch = (s.core n).scratch ∧ ((coresForget s c).core n).queues = (s.core n).queues :=
  foldl_modCore_rel (fun x y => y.scratch = x.scratch ∧ y.queues = x.queues) (fun _ => ⟨rfl, rfl⟩)
    (fun _ _ _ h k => ⟨k.1.trans h.1, k.2.trans h.2⟩) (coreForget c) (coreForget_same c) (usedCores s) s n

theorem destroyComplete_forgets {c : Nat} {s : State} (hdying : (s.ctx c).state = 2) (hquiet : ctxQuiet s c = true) :
    ∃ t, exec (.destroyComplete c) s = .next t ∧ Only [.ctxs, .cores, .folds, .manifests, .tallies] s t ∧ (t.ctx c).state = 0 ∧
      (t.ctx c).result = stDone ∧ (∀ k, ((t.ctx c).ring k).en = false) ∧ (t.ctx c).comps = [] ∧
      (∀ m ∈ t.manifests, m.ctx ≠ c) ∧ (∀ m ∈ s.manifests, m.ctx ≠ c → m ∈ t.manifests) ∧
      (∀ k, (t.fold k).ctx.toNat = c → (t.fold k).valid = false) ∧ (∀ k, (s.fold k).ctx.toNat ≠ c → t.fold k = s.fold k) ∧
      (∀ n i, 0 < i → i < 32 → ((t.core n).slot i).ctx.toNat = c → ((t.core n).slot i).valid = false ∧ ((t.core n).slot i).drain = false) ∧
      (∀ n, (t.core n).scratch = (s.core n).scratch ∧ (t.core n).queues = (s.core n).queues) ∧ ∀ d, d ≠ c → t.ctx d = s.ctx d := by
  have hexec := exec_destroyComplete hdying hquiet
  have hkeeps := Gives.keeps (o := execDestroyComplete c s) (execDestroyComplete_keeps ..) hexec
  have hcores := coresForget_keeps s c
  have hfolds := foldsForget_keeps (coresForget s c) c
  have hctx : ∀ d, (foldsForget (coresForget s c) c).ctx d = s.ctx d := fun d => (hfolds.ctx (by decide) d).trans (hcores.ctx (by decide) d)
  have hself : (ctxForget s c).ctx c = freed (s.ctx c) := (State.modCtx_get_ctx_self _ c freed).trans (congrArg freed (hctx c))
  have hcore : ∀ n, (ctxForget s c).core n = (coresForget s c).core n := fun n => hfolds.core (by decide) n
  have hfold : ∀ k, (ctxForget s c).fold k = foldForget c (s.fold k) := fun k =>
    (foldsForget_fold (coresForget s c) c k).trans (congrArg (foldForget c) (hcores.fold (by decide) k))
  have hmanifests : (ctxForget s c).manifests = s.manifests.filter (fun m => m.ctx != c) := by
    have h : (foldsForget (coresForget s c) c).manifests = s.manifests :=
      (hfolds.only.2 .manifests (by decide)).trans (hcores.only.2 .manifests (by decide))
    exact congrArg (List.filter (fun m => m.ctx != c)) h
  refine ⟨_, hexec, (hkeeps.mono (by decide)).only, ?_, ?_, fun k => ?_, ?_, fun m hm => ?_, fun m hm hne => ?_, fun k hk => ?_, fun k hk => ?_,
    fun n i h0 hi h => ?_, fun n => ?_, fun d hd => ?_⟩
  · rw [hself]; rfl
  · rw [hself]; rfl
  · rw [hself]; exact ring_map_en ..
  · rw [hself]; rfl
  · rw [hmanifests] at hm
    simpa using (List.mem_filter.mp hm).2
  · rw [hmanifests]
    exact List.mem_filter.mpr ⟨hm, by simpa using hne⟩
  · rw [hfold] at hk ⊢
    rw [foldForget_ctx] at hk
    exact congrArg Fold.valid (if_pos hk)
  · rw [hfold]
    exact if_neg hk
  · rw [hcore] at h ⊢
    exact coresForget_slot s c n i h0 hi h
  · rw [hcore]
    exact coresForget_same ..
  · exact (State.modCtx_get_ctx_ne _ _ _ _ hd).trans (hctx d)

/-- Settles O22: each of the three commands replaces the entry; the end of a context also takes its slots, Folds and manifests. -/
theorem contextLifecycle : Obligations.ContextLifecycle :=
  ⟨⟨fun _ _ _ hc hc0 hadmin hctx hfree => create_makes_live hc hc0 hadmin hctx hfree, fun _ _ _ _ hadmin hctx h => create_refused hadmin hctx h⟩,
    fun _ _ _ _ hc0 hadmin hctx hlive => destroy_makes_dying hc0 hadmin hctx hlive, fun _ _ _ _ hdying hquiet => destroyComplete_forgets hdying hquiet⟩

end Sys2Proof.Machine
end

section
/-! RAISE, QUIESCED and LIFT of a Hurdle (R283 to R286). -/

namespace Sys2Proof.Machine

open Sys2Proof

/-! ### One entry changes -/

/-- From `s` to `t`, of the Hurdles at most entry `i` changes, and it becomes `h`. -/
structure OnlyHurdle (i : Nat) (h : Hurdle) (s t : State) : Prop where
  self : t.hurdle i = h
  other : ∀ j, j ≠ i → t.hurdle j = s.hurdle j

theorem OnlyHurdle.modHurdle (s : State) (i : Nat) (f : Hurdle → Hurdle) : OnlyHurdle i (f (s.hurdle i)) s (s.modHurdle i f) :=
  ⟨State.modHurdle_get_hurdle_self .., fun j hj => State.modHurdle_get_hurdle_ne s i f j hj⟩

/-- What keeps the Hurdles goes on from a change of one entry. -/
theorem OnlyHurdle.keeps {i : Nat} {h : Hurdle} {s t u : State} {l : List Field} (k : OnlyHurdle i h s t) (g : Keeps l t u)
    (hl : Field.hurdles ∉ l) : OnlyHurdle i h s u :=
  ⟨(g.hurdle hl i).trans k.self, fun j hj => (g.hurdle hl j).trans (k.other j hj)⟩

/-! ### RAISE -/

/-- The entry of a Hurdle raised on a party. -/
def raisedEntry (kind : BitVec 3) (target : BitVec 32) (h : Hurdle) : Hurdle :=
  { h with busy := true, quiesced := false, lifting := false, result := stDone, kind := kind, target := target }

/-- An entry that refuses a RAISE. -/
def refusedEntry (kind : BitVec 3) (target : BitVec 32) (st : Status) (h : Hurdle) : Hurdle := { h with kind := kind, target := target, result := st }

theorem exec_raise {who : Party} {s : State} (i : Nat) (kind : BitVec 3) (target : BitVec 32) (ha : Admitted s who .hub) :
    exec (.raise who i kind target) s = .next (
      if (s.hurdle i).busy then s
      else if !targetOk who kind.toNat target.toNat then s.modHurdle i (refusedEntry kind target stDescriptor)
      else if hurdled s kind.toNat target.toNat then s.modHurdle i (refusedEntry kind target stAlias)
      else rewatch s (raiseHurdle s i kind target)) := congrArg Host.Outcome.next (gated_admitted _ ha)

theorem raiseHurdle_hurdle (s : State) (i : Nat) (kind : BitVec 3) (target : BitVec 32) :
    OnlyHurdle i (raisedEntry kind target (s.hurdle i)) s (raiseHurdle s i kind target) ∧
      (raiseHurdle s i kind target).hurdles = (s.modHurdle i (raisedEntry kind target)).hurdles := by
  let u := post (s.modHurdle i (raisedEntry kind target)) uHub 0 0x0A3 (hurdlePay kind.toNat target.toNat i)
  have hfence : Keeps _ u (raiseHurdle s i kind target) := fenceParty_keeps u kind.toNat target.toNat i
  have hpost : OnlyHurdle i (raisedEntry kind target (s.hurdle i)) s u := (OnlyHurdle.modHurdle ..).keeps (post_keeps ..) (by decide)
  exact ⟨hpost.keeps hfence (by decide), hfence.only.2 .hurdles (by decide)⟩

theorem raise_fences {who : Party} {i : Nat} {kind : BitVec 3} {target : BitVec 32} {s : State} (ha : Admitted s who .hub)
    (hfree : (s.hurdle i).busy = false) (hok : targetOk who kind.toNat target.toNat = true) (hnew : hurdled s kind.toNat target.toNat = false) :
    ∃ t, exec (.raise who i kind target) s = .next t ∧ (t.hurdle i).busy = true ∧ (t.hurdle i).quiesced = false ∧
      (t.hurdle i).kind = kind ∧ (t.hurdle i).target = target ∧ (t.hurdle i).result = stDone ∧
      hurdled t kind.toNat target.toNat = true ∧ ∀ j, j ≠ i → t.hurdle j = s.hurdle j := by
  obtain ⟨hentry, htable⟩ := raiseHurdle_hurdle s i kind target
  have hrewatch := rewatch_keeps s (raiseHurdle s i kind target)
  obtain ⟨hself, hother⟩ := hentry.keeps hrewatch (by decide)
  have hhurdles : (rewatch s (raiseHurdle s i kind target)).hurdles = (s.modHurdle i (raisedEntry kind target)).hurdles :=
    (hrewatch.only.2 .hurdles (by decide)).trans htable
  have hexec := exec_raise i kind target ha
  rw [if_neg (by simp [hfree]), if_neg (by simp [hok]), if_neg (by simp [hnew])] at hexec
  refine ⟨_, hexec, ?_⟩
  rw [hself]
  refine ⟨rfl, rfl, rfl, rfl, rfl, ?_, hother⟩
  unfold hurdled
  rw [hhurdles]
  exact List.any_eq_true.mpr ⟨_, modHurdle_mem s i (raisedEntry kind target) rfl, by simp [raisedEntry]⟩

theorem raise_refused {who : Party} {i : Nat} {kind : BitVec 3} {target : BitVec 32} {s : State} {st : Status} (hfree : (s.hurdle i).busy = false)
    (hexec : exec (.raise who i kind target) s = .next (s.modHurdle i (refusedEntry kind target st))) :
    ∃ t, exec (.raise who i kind target) s = .next t ∧ Only [.hurdles] s t ∧ (t.hurdle i).busy = false ∧ (t.hurdle i).result = st ∧
      ∀ j, j ≠ i → t.hurdle j = s.hurdle j := by
  obtain ⟨hself, hother⟩ := OnlyHurdle.modHurdle s i (refusedEntry kind target st)
  refine ⟨_, hexec, (State.modHurdle_keeps ..).only, ?_⟩
  rw [hself]
  exact ⟨hfree, rfl, hother⟩

/-! ### QUIESCED -/

theorem quiesced_sets {i : Nat} {s : State} (hbusy : (s.hurdle i).busy = true) (hnot : (s.hurdle i).quiesced = false)
    (hlift : (s.hurdle i).lifting = false) (hquiet : partyQuiet s (s.hurdle i).kind.toNat (s.hurdle i).target.toNat = true) :
    ∃ t, exec (.quiesced i) s = .next t ∧ Only [.hurdles, .tallies] s t ∧ t.hurdle i = { s.hurdle i with quiesced := true } ∧
      (∀ j, j ≠ i → t.hurdle j = s.hurdle j) ∧ (∃ x, (t.tally uHub).fresh = (s.tally uHub).fresh ++ [x] ∧ x.code = 0x0A4) := by
  let u := s.modHurdle i (fun h => { h with quiesced := true })
  let t := post u uHub 0 0x0A4 (hurdlePay (s.hurdle i).kind.toNat (s.hurdle i).target.toNat i)
  have hexec : exec (.quiesced i) s = .next t := by
    change execQuiesced i s = _
    unfold execQuiesced
    dsimp only
    rw [if_neg (by simp [hbusy, hnot, hquiet]), if_neg (by simp [hlift])]
  have hkeeps : Keeps [.hurdles, .tallies] s t := ((State.modHurdle_keeps ..).mono (by decide)).step (post_keeps ..) (by decide)
  obtain ⟨hself, hother⟩ := (OnlyHurdle.modHurdle s i (fun h => { h with quiesced := true })).keeps (post_keeps u uHub 0 0x0A4 _) (by decide)
  refine ⟨t, hexec, hkeeps.only, hself, hother, ?_⟩
  exact ⟨_, congrArg TallyUnit.fresh (State.modTally_get_tally_self ..), rfl⟩

/-! ### LIFT -/

theorem exec_lift {who : Party} {s : State} (i : Nat) (ha : Admitted s who .hub) :
    exec (.lift who i) s = .next (
      if !(s.hurdle i).busy then s.modHurdle i (fun h => { h with result := stMode })
      else if (s.hurdle i).quiesced then rewatch s (liftHurdle s i)
      else s.modHurdle i (fun h => { h with lifting := true })) := congrArg Host.Outcome.next (gated_admitted _ ha)

/-- The entry of a Hurdle that is lifted. -/
def liftedEntry (h : Hurdle) : Hurdle := { h with busy := false, quiesced := false, lifting := false, result := stDone }

/-- With no Hurdle waiting for a free entry, a lift frees the entry. -/
theorem liftHurdle_hurdle {s : State} (i : Nat) (hwanted : s.hub2.wanted = []) : OnlyHurdle i (liftedEntry (s.hurdle i)) s (liftHurdle s i) := by
  let u := post (s.modHurdle i liftedEntry) uHub 0 0x0A5 (hurdlePay (s.hurdle i).kind.toNat (s.hurdle i).target.toNat i)
  have htrust := trustCore_keeps u (s.hurdle i).kind.toNat (s.hurdle i).target.toNat
  have hnone : (trustCore u (s.hurdle i).kind.toNat (s.hurdle i).target.toNat).hub2.wanted = [] := by
    rw [show State.hub2 _ = u.hub2 from htrust.only.2 .hub2 (by decide)]
    exact hwanted
  have hlift : liftHurdle s i = trustCore u (s.hurdle i).kind.toNat (s.hurdle i).target.toNat := by
    change raiseWanted (trustCore u (s.hurdle i).kind.toNat (s.hurdle i).target.toNat) i = _
    unfold raiseWanted
    rw [hnone]
  rw [hlift]
  exact ((OnlyHurdle.modHurdle s i liftedEntry).keeps (post_keeps ..) (by decide)).keeps htrust (by decide)

theorem lift_quiesced {who : Party} {i : Nat} {s : State} (ha : Admitted s who .hub) (hbusy : (s.hurdle i).busy = true)
    (hquiet : (s.hurdle i).quiesced = true) (hwanted : s.hub2.wanted = []) :
    ∃ t, exec (.lift who i) s = .next t ∧ (t.hurdle i).busy = false ∧ (t.hurdle i).quiesced = false ∧ (t.hurdle i).result = stDone ∧
      ∀ j, j ≠ i → t.hurdle j = s.hurdle j := by
  obtain ⟨hself, hother⟩ := (liftHurdle_hurdle i hwanted).keeps (rewatch_keeps s (liftHurdle s i)) (by decide)
  have hexec := exec_lift i ha
  rw [if_neg (by simp [hbusy]), if_pos hquiet] at hexec
  refine ⟨_, hexec, ?_⟩
  rw [hself]
  exact ⟨rfl, rfl, rfl, hother⟩

theorem lift_waits {who : Party} {i : Nat} {s : State} (ha : Admitted s who .hub) (hbusy : (s.hurdle i).busy = true)
    (hnot : (s.hurdle i).quiesced = false) :
    ∃ t, exec (.lift who i) s = .next t ∧ Only [.hurdles] s t ∧ t.hurdle i = { s.hurdle i with lifting := true } ∧
      ∀ j, j ≠ i → t.hurdle j = s.hurdle j := by
  obtain ⟨hself, hother⟩ := OnlyHurdle.modHurdle s i (fun h => { h with lifting := true })
  have hexec := exec_lift i ha
  rw [if_neg (by simp [hbusy]), if_neg (by simp [hnot])] at hexec
  exact ⟨_, hexec, (State.modHurdle_keeps ..).only, hself, hother⟩

theorem lift_free {who : Party} {i : Nat} {s : State} (ha : Admitted s who .hub) (hfree : (s.hurdle i).busy = false) :
    ∃ t, exec (.lift who i) s = .next t ∧ Only [.hurdles] s t ∧ (t.hurdle i).busy = false ∧ (t.hurdle i).result = stMode := by
  have hself := (OnlyHurdle.modHurdle s i (fun h => { h with result := stMode })).self
  have hexec := exec_lift i ha
  rw [if_pos (by simp [hfree])] at hexec
  refine ⟨_, hexec, (State.modHurdle_keeps ..).only, ?_⟩
  rw [hself]
  exact ⟨hfree, rfl⟩

/-- Settles O24: each command changes the one entry it names, beside what a raised Hurdle ends. -/
theorem hurdles : Obligations.Hurdles := by
  refine ⟨⟨fun _ _ _ _ _ _ ha hfree hok hnew => raise_fences ha hfree hok hnew, fun _ _ _ hbusy hnot hlift hquiet => quiesced_sets hbusy hnot hlift hquiet,
    fun _ _ _ _ ha hbusy hquiet hwanted => lift_quiesced ha hbusy hquiet hwanted, fun _ _ _ _ ha hbusy hnot => lift_waits ha hbusy hnot⟩,
    fun who i kind target s _ ha => ⟨fun hbusy => ?_, fun hfree hbad => ?_, fun hfree hok hfenced => ?_, fun hfree => lift_free ha hfree⟩⟩
  · rw [exec_raise i kind target ha, if_pos hbusy]
  · have hexec := exec_raise i kind target ha
    rw [if_neg (by simp [hfree]), if_pos (by simp [hbad])] at hexec
    exact raise_refused hfree hexec
  · have hexec := exec_raise i kind target ha
    rw [if_neg (by simp [hfree]), if_neg (by simp [hok]), if_pos hfenced] at hexec
    obtain ⟨t, ht, honly, hbusy, hst, -⟩ := raise_refused hfree hexec
    exact ⟨t, ht, honly, hbusy, hst⟩

end Sys2Proof.Machine
end

section
/-! Folds: their registers, arrivals, and SYNC between devices (R279 to R282, R287). -/

namespace Sys2Proof.Machine

open Sys2Proof

theorem foldSettle_invalid {s : State} {k : Nat} (h : (s.fold k).valid = false) : foldSettle s k = s := by
  unfold foldSettle
  exact if_neg (by simp [h])

/-! ### FOLD_CFG and FOLD_MASK -/

/-- A Fold as a write of its configuration leaves it. -/
def configured (v : Nat) (x : Fold) : Fold :=
  { x with valid := bitOf v 63, ctx := BitVec.ofNat 10 (bitsOf v 48 10), addr := BitVec.ofNat 42 (bitsOf v 6 42) }

theorem exec_foldCfg {who : Party} {f : FoldId} {v : BitVec 64} {s : State} (ha : Admitted s who (foldArea f))
    (hfree : ∀ x ∈ s.folds, x.1 ≠ foldKey f → x.2.valid = true → x.2.addr.toNat ≠ bitsOf v.toNat 6 42) :
    exec (.foldCfg who f v) s = .next (s.modFold (foldKey f) (configured v.toNat)) := by
  have hnone : s.folds.any (fun x => x.1 != foldKey f && x.2.valid && x.2.addr == BitVec.ofNat 42 (bitsOf v.toNat 6 42)) = false := by
    refine List.any_eq_false.mpr fun x hx h => ?_
    obtain ⟨⟨hne, hvalid⟩, haddr⟩ : (x.1 ≠ foldKey f ∧ x.2.valid = true) ∧ x.2.addr = BitVec.ofNat 42 (bitsOf v.toNat 6 42) := by simpa using h
    refine hfree x hx hne hvalid ?_
    rw [haddr]
    exact (BitVec.toNat_ofNat ..).trans (Nat.mod_eq_of_lt (bitsOf_lt ..))
  refine congrArg Host.Outcome.next ((gated_admitted _ ha).trans ?_)
  dsimp only
  rw [hnone, Bool.and_false]
  rfl

/-- A Fold as a write of a half of its mask leaves it: arrivals outside the new mask are cleared. -/
def remasked (k : Nat) (high : Bool) (v : Nat) (x : Fold) : Fold :=
  { maskWrite k high v x with arr := (maskWrite k high v x).arr &&& (maskWrite k high v x).mask,
                              early := (maskWrite k high v x).early &&& (maskWrite k high v x).mask }

theorem foldDev_die {k : Nat} (h : k < 512) : foldDev k = false := decide_eq_false (by omega)

/-- On a die's Fold a write of a mask's half touches nothing else of the Fold. -/
theorem maskWrite_die {k : Nat} (h : k < 512) (high : Bool) (v : Nat) (x : Fold) :
    maskWrite k high v x = { x with mask := BitVec.ofNat 100 (if high then x.mask.toNat % 2 ^ 64 + 2 ^ 64 * bitsOf v 0 36
                                                             else v % 2 ^ 64 + 2 ^ 64 * (x.mask.toNat / 2 ^ 64)) } := by
  unfold maskWrite
  dsimp only
  rw [if_neg (by simp [foldDev_die h])]
  cases high <;> rfl

theorem maskWrite_die_low {k : Nat} (h : k < 512) (high : Bool) (v : BitVec 64) (x : Fold) {i : Nat} (hi : i < 64) :
    (maskWrite k high v.toNat x).mask.getLsbD i = if high then x.mask.getLsbD i else v.getLsbD i := by
  rw [maskWrite_die h, ofNat_bit _ _ (by omega)]
  cases high
  · exact (twoWords_bit ..).trans (if_pos hi)
  · exact (twoWords_bit ..).trans (if_pos hi)

theorem maskWrite_die_high {k : Nat} (h : k < 512) (high : Bool) (v : BitVec 64) (x : Fold) {i : Nat} (hi : i < 36) :
    (maskWrite k high v.toNat x).mask.getLsbD (64 + i) = if high then v.getLsbD i else x.mask.getLsbD (64 + i) := by
  rw [maskWrite_die h, ofNat_bit _ _ (by omega)]
  cases high
  · refine ((twoWords_bit ..).trans (if_neg (by omega))).trans ?_
    rw [Nat.testBit_div_two_pow, Nat.add_sub_cancel_left, Nat.add_comm]
    rfl
  · refine ((twoWords_bit ..).trans (if_neg (by omega))).trans ?_
    rw [Nat.add_sub_cancel_left, bitsOf, pow_zero, Nat.div_one, Nat.testBit_mod_two_pow, decide_eq_true hi, Bool.true_and]
    rfl

theorem maskWrite_die_valid {k : Nat} (h : k < 512) (high : Bool) (v : Nat) (x : Fold) : (maskWrite k high v x).valid = x.valid := by
  rw [maskWrite_die h]

theorem exec_foldMask_invalid {who : Party} {d f : Nat} {high : Bool} {v : BitVec 64} {s : State} (hd : d < 8) (hf : f < 64)
    (ha : Admitted s who .admin) (hinvalid : (s.fold (foldKey (.die d f))).valid = false) :
    exec (.foldMask who (.die d f) high v) s =
      .next (s.modFold (foldKey (.die d f)) (remasked (foldKey (.die d f)) high v.toNat)) := by
  have hk : foldKey (.die d f) < 512 := by change d * 64 + f < 512; omega
  refine congrArg Host.Outcome.next ((gated_admitted _ ha).trans (foldSettle_invalid ?_))
  exact (congrArg Fold.valid (State.modFold_get_fold_self ..)).trans ((maskWrite_die_valid hk ..).trans hinvalid)

/-! ### Arrivals at a die's Fold -/

/-- A member's arrival: its bit of the open phase. -/
def arrived (s : State) (k i : Nat) : State := s.modFold k (fun f => { f with arr := setBit100 f.arr i })

/-- While another member is missing, an arrival does not complete the phase. -/
theorem foldSettle_arrived {s : State} {k i : Nat} (h : ∃ j, j ≠ i ∧ (s.fold k).mask.getLsbD j = true ∧ (s.fold k).arr.getLsbD j = false) :
    foldSettle (arrived s k i) k = arrived s k i := by
  obtain ⟨j, hne, hmask, harr⟩ := h
  refine foldSettle_open fun heq => ?_
  rw [arrived, State.modFold_get_fold_self] at heq
  have hbit : (setBit100 (s.fold k).arr i).getLsbD j = true := by
    rw [show setBit100 (s.fold k).arr i = (s.fold k).mask from heq]
    exact hmask
  rw [setBit100_bit _ _ _ (BitVec.lt_of_getLsbD hmask), harr, decide_eq_false hne] at hbit
  exact absurd hbit (by decide)

theorem arrived_fold (s : State) (k i : Nat) :
    (∀ j, j < 100 → ((arrived s k i).fold k).arr.getLsbD j = ((s.fold k).arr.getLsbD j || decide (j = i))) ∧
      ((arrived s k i).fold k).early = (s.fold k).early ∧ ∀ m, m ≠ k → (arrived s k i).fold m = s.fold m := by
  unfold arrived
  rw [State.modFold_get_fold_self]
  exact ⟨fun j hj => setBit100_bit _ _ _ hj, rfl, fun m hm => State.modFold_get_fold_ne _ _ _ _ hm⟩

theorem foldArrive_member {s : State} {k ctx core : Nat} (hk : k < 512) (hctx : (s.fold k).ctx.toNat = ctx)
    (hmember : (s.fold k).mask.getLsbD (core % 100) = true) (hdie : core / 100 = k / 64) (hnew : (s.fold k).arr.getLsbD (core % 100) = false) :
    foldArrive s k ctx core 1 1 = ((stDone, 0), foldSettle (arrived s k (core % 100)) k) := by
  unfold foldArrive
  dsimp only
  rw [foldDev_die hk]
  simp only [Bool.false_or, Bool.false_eq_true, if_false]
  rw [if_neg (by decide), if_neg (by simp [hctx, hmember, hdie]), if_pos (by rw [hnew]; rfl)]
  rfl

theorem foldArrive_stranger {s : State} {k ctx core : Nat} (hk : k < 512)
    (h : (s.fold k).mask.getLsbD (core % 100) = false ∨ core / 100 ≠ k / 64) :
    foldArrive s k ctx core 1 1 = ((stPrivilege, 0xFF), foldDrop s k ctx core) := by
  have hnot : ((s.fold k).mask.getLsbD (core % 100) && (core / 100 == k / 64)) = false := by
    rcases h with h | h
    · rw [h, Bool.false_and]
    · rw [beq_eq_false_iff_ne.mpr h, Bool.and_false]
  unfold foldArrive
  dsimp only
  rw [foldDev_die hk]
  simp only [Bool.false_or, Bool.false_eq_true, if_false]
  rw [if_neg (by decide), hnot, if_pos (by simp)]

theorem foldDrop_fold (s : State) (k ctx sender : Nat) :
    ((foldDrop s k ctx sender).fold k).misuse = true ∧ ((foldDrop s k ctx sender).fold k).arr = (s.fold k).arr := by
  have h : (foldDrop s k ctx sender).fold k = { s.fold k with misuse := true, miscnt := stick (s.fold k).miscnt 1 } :=
    State.modFold_get_fold_self s k (fun f => { f with misuse := true, miscnt := stick f.miscnt 1 })
  rw [h]
  exact ⟨rfl, rfl⟩

/-! ### SYNC and SYNC_REPEAT -/

theorem exec_syncRepeat {f : Nat} {ph : BitVec 48} {s : State} (hvalid : (s.fold (512 + f)).valid = true)
    (hsent : (s.fold (512 + f)).sentPh = some ph) : exec (.syncRepeat f) s = .next (sendSync s (512 + f) ph) := by
  change execSyncRepeat f s = _
  unfold execSyncRepeat
  dsimp only
  rw [hvalid, hsent]

theorem exec_sync {p : Nat} {k : FabPkt} {s s1 : State} (hk : takeFront s p 0x21 = some (k, s1)) :
    exec (.sync p) s = .next (if rankFenced s1 k.src.toNat then s1
      else syncArrive s1 (bitsOf k.addr.toNat 0 8) k.src.toNat (BitVec.ofNat 48 (bitsOf k.addr.toNat 8 48))) := by
  change execSync p s = _
  unfold execSync
  rw [hk]
  dsimp only
  split <;> rfl

/-- Taking a packet off its buffer changes its port only. -/
theorem takeFront_port {s t : State} {p typ : Nat} {k : FabPkt} (h : takeFront s p typ = some (k, t)) : ∃ f, t = s.modOport p f := by
  obtain ⟨-, ⟨rfl, -⟩ | ⟨rfl, -⟩⟩ := takeFront_some h
  · exact ⟨_, rfl⟩
  · exact ⟨_, rfl⟩

section

variable {s : State} {f rank : Nat} {phase : BitVec 48} (hvalid : (s.fold (512 + f)).valid = true)
  (hmember : (s.fold (512 + f)).mask.getLsbD rank = true)
include hvalid hmember

theorem syncArrive_open (hphase : phase = BitVec.ofNat 48 (foldPhase s (512 + f)).toNat) :
    syncArrive s f rank phase = foldSettle (arrived s (512 + f) rank) (512 + f) := by
  unfold syncArrive
  dsimp only
  rw [if_neg (by simp only [hvalid, hmember]; decide), if_pos (by rw [hphase, BitVec.sub_self]; rfl)]
  rfl

theorem syncArrive_early (hphase : phase = BitVec.ofNat 48 (foldPhase s (512 + f)).toNat + 1) :
    syncArrive s f rank phase = s.modFold (512 + f) (fun x => { x with early := setBit100 x.early rank }) := by
  have hahead : (phase - BitVec.ofNat 48 (foldPhase s (512 + f)).toNat).toNat = 1 := by
    rw [hphase, BitVec.add_comm, BitVec.add_sub_cancel]
    rfl
  unfold syncArrive
  dsimp only
  rw [if_neg (by simp only [hvalid, hmember]; decide), hahead, if_neg (by decide), if_pos rfl]

end

theorem syncArrive_stranger {s : State} {f rank : Nat} (phase : BitVec 48) (h : (s.fold (512 + f)).mask.getLsbD rank = false) :
    syncArrive s f rank phase = foldDrop s (512 + f) (s.fold (512 + f)).ctx.toNat rank := by
  unfold syncArrive
  dsimp only
  exact if_pos (by simp only [h, Bool.not_false, Bool.or_true])

/-- What SYNC does with the packet at the front, by the phase and the rank it names. -/
theorem sync_packet {p : Nat} {k : FabPkt} {s s1 : State} (hk : takeFront s p 0x21 = some (k, s1)) :
    let f := 512 + bitsOf k.addr.toNat 0 8
    let r := k.src.toNat
    (rankFenced s1 r = true → exec (.sync p) s = .next s1 ∧ s1.folds = s.folds) ∧
    (rankFenced s1 r = false → (s.fold f).valid = true → (s.fold f).mask.getLsbD r = true →
      BitVec.ofNat 48 (bitsOf k.addr.toNat 8 48) = BitVec.ofNat 48 (foldPhase s f).toNat →
      (∃ i, i ≠ r ∧ (s.fold f).mask.getLsbD i = true ∧ (s.fold f).arr.getLsbD i = false) →
      ∃ t, exec (.sync p) s = .next t ∧ Only [.folds, .oports] s t ∧
        (∀ i, i < 100 → (t.fold f).arr.getLsbD i = ((s.fold f).arr.getLsbD i || decide (i = r))) ∧ ∀ j, j ≠ f → t.fold j = s.fold j) ∧
    (rankFenced s1 r = false → (s.fold f).valid = true → (s.fold f).mask.getLsbD r = true →
      BitVec.ofNat 48 (bitsOf k.addr.toNat 8 48) = BitVec.ofNat 48 (foldPhase s f).toNat + 1 →
      ∃ t, exec (.sync p) s = .next t ∧ Only [.folds, .oports] s t ∧ (t.fold f).arr = (s.fold f).arr ∧
        (∀ i, i < 100 → (t.fold f).early.getLsbD i = ((s.fold f).early.getLsbD i || decide (i = r))) ∧ ∀ j, j ≠ f → t.fold j = s.fold j) ∧
    (rankFenced s1 r = false → (s.fold f).mask.getLsbD r = false →
      ∃ t, exec (.sync p) s = .next t ∧ Only [.folds, .oports, .tallies] s t ∧ (t.fold f).misuse = true ∧ (t.fold f).arr = (s.fold f).arr) := by
  have hexec := exec_sync hk
  obtain ⟨g, rfl⟩ := takeFront_port hk
  intro f r
  have htaken : Keeps [.folds, .oports] s (s.modOport p g) := (State.modOport_keeps ..).mono (by decide)
  refine ⟨fun hfenced => ?_, fun hfenced hvalid hmember hphase hopen => ?_, fun hfenced hvalid hmember hphase => ?_, fun hfenced hstranger => ?_⟩
  · rw [if_pos hfenced] at hexec
    exact ⟨hexec, rfl⟩
  · rw [if_neg (by rw [hfenced]; decide), syncArrive_open (s := s.modOport p g) hvalid hmember hphase,
      foldSettle_arrived (s := s.modOport p g) hopen] at hexec
    obtain ⟨harr, -, hother⟩ := arrived_fold (s.modOport p g) f r
    exact ⟨_, hexec, (htaken.step (State.modFold_keeps ..) (by decide)).only, harr, hother⟩
  · rw [if_neg (by rw [hfenced]; decide), syncArrive_early (s := s.modOport p g) hvalid hmember hphase] at hexec
    refine ⟨_, hexec, (htaken.step (State.modFold_keeps ..) (by decide)).only, ?_⟩
    rw [State.modFold_get_fold_self]
    exact ⟨rfl, fun i hi => setBit100_bit _ _ _ hi, fun j hj => State.modFold_get_fold_ne _ _ _ _ hj⟩
  · rw [if_neg (by rw [hfenced]; decide), syncArrive_stranger (s := s.modOport p g) _ hstranger] at hexec
    have htaken' : Keeps [.folds, .oports, .tallies] s (s.modOport p g) := htaken.mono (by decide)
    exact ⟨_, hexec, (htaken'.step (foldDrop_keeps ..) (by decide)).only, foldDrop_fold ..⟩

/-- Settles O25: a register write and an arrival each change one Fold, and no phase ends while a member is missing. -/
theorem foldsAndSyncs : Obligations.FoldsAndSyncs := by
  refine ⟨⟨fun who f v s _ ha hfree => ?_, ?_⟩, ?_, fun f ph s _ hvalid hsent => ?_, fun p k s s1 _ hk => sync_packet hk⟩
  · refine ⟨_, exec_foldCfg ha hfree, (State.modFold_keeps ..).only, ?_⟩
    rw [State.modFold_get_fold_self]
    exact ⟨rfl, (BitVec.toNat_ofNat ..).trans (Nat.mod_eq_of_lt (bitsOf_lt ..)), (BitVec.toNat_ofNat ..).trans (Nat.mod_eq_of_lt (bitsOf_lt ..)),
      rfl, rfl, fun k hk => State.modFold_get_fold_ne _ _ _ _ hk⟩
  · intro who d f high v s hd hf ha hinvalid k
    have hk : k < 512 := by change d * 64 + f < 512; omega
    refine ⟨_, exec_foldMask_invalid hd hf ha hinvalid, (State.modFold_keeps ..).only, ?_⟩
    rw [State.modFold_get_fold_self]
    have harr : (maskWrite k high v.toNat (s.fold k)).arr = (s.fold k).arr ∧ (maskWrite k high v.toNat (s.fold k)).early = (s.fold k).early := by
      rw [maskWrite_die hk]
      exact ⟨rfl, rfl⟩
    refine ⟨fun i hi => maskWrite_die_low hk _ _ _ hi, fun i hi => maskWrite_die_high hk _ _ _ hi, ?_, ?_,
      fun j hj => State.modFold_get_fold_ne _ _ _ _ hj⟩
    · exact congrArg (· &&& (maskWrite k high v.toNat (s.fold k)).mask) harr.1
    · exact congrArg (· &&& (maskWrite k high v.toNat (s.fold k)).mask) harr.2
  · intro k ctx core s hk _ hctx
    refine ⟨fun hmember hdie hnew hopen => ?_, fun hstranger => ?_⟩
    · rw [foldArrive_member hk hctx hmember hdie hnew, foldSettle_arrived hopen]
      exact ⟨rfl, (State.modFold_keeps ..).only, arrived_fold ..⟩
    · rw [foldArrive_stranger hk hstranger]
      exact ⟨rfl, (foldDrop_keeps ..).only, foldDrop_fold ..⟩
  · have hkeeps := sendSync_keeps s (512 + f) ph
    exact ⟨_, exec_syncRepeat hvalid hsent, (hkeeps.mono (by decide)).only, rfl, hkeeps.fold (by decide) _⟩

end Sys2Proof.Machine
end

section
/-! Host links, the HDM base, and a window that moves (R316, R317, R322, R325). -/

namespace Sys2Proof.Machine

open Sys2Proof

theorem otherPort_ne (port : Party) : 1 - portNum port ≠ portNum port := by
  unfold portNum
  split <;> decide

/-! ### A link changes -/

/-- From `s` to `t`, port `p` changes by `f` and its counts of bytes, and beside it at most what is watched through host ports. -/
structure LinkChanged (p : Nat) (f : HPort → HPort) (s t : State) : Prop where
  only : Only ([.cores, .ctxs] ++ readParts) s t
  self : ∃ r w, t.hp p = { f (s.hp p) with dmard := r, dmawr := w }
  other : ∀ q, q ≠ p → ∃ r w, t.hp q = { s.hp q with dmard := r, dmawr := w }
  queues : ∀ n, (t.core n).queues = (s.core n).queues
  ring : ∀ c k, (t.ctx c).ring k = { (s.ctx c).ring k with how := ((t.ctx c).ring k).how }

theorem rewatch_linkChanged (s : State) (p : Nat) (f : HPort → HPort) : LinkChanged p f s (rewatch s (s.modHp p f)) := by
  have hkeeps : Keeps ([.cores, .ctxs] ++ readParts) s (s.modHp p f) := (State.modHp_keeps ..).mono (by decide)
  have hwatch := rewatch_watch s (s.modHp p f)
  refine ⟨(hkeeps.step (rewatch_keeps ..) (by decide)).only, ?_, fun q hq => ?_, fun n => ?_, (rewatch_how s (s.modHp p f)).ring⟩
  · obtain ⟨r, w, h⟩ := hwatch.hp p
    rw [State.modHp_get_hp_self] at h
    exact ⟨r, w, h⟩
  · obtain ⟨r, w, h⟩ := hwatch.hp q
    rw [State.modHp_get_hp_ne _ _ _ _ hq] at h
    exact ⟨r, w, h⟩
  · obtain ⟨ws, h⟩ := hwatch.core n
    rw [h]
    rfl

theorem exec_hostLinkTraining {port : Party} {mode : BitVec 2} {s : State} (speed : BitVec 3) (width : BitVec 5) (hrun : s.hub.phase = .running)
    (hmode : mode = 1 ∨ mode = 2) : exec (.hostLinkTraining port mode speed width) s =
      .next (rewatch s (s.modHp (portNum port) (fun h => { h with mode := mode, speed := speed, width := width }))) := by
  have hok : (mode == 1 || mode == 2) = true := by simpa using hmode
  change execHostLinkTraining port mode speed width s = _
  unfold execHostLinkTraining
  rw [if_neg (by rw [hok]; simpa using hrun)]
  rfl

theorem hostLinkTraining_up {port : Party} {mode : BitVec 2} {s : State} (speed : BitVec 3) (width : BitVec 5) (hrun : s.hub.phase = .running)
    (hmode : mode = 1 ∨ mode = 2) :
    ∃ t, exec (.hostLinkTraining port mode speed width) s = .next t ∧ Only ([.cores, .ctxs] ++ readParts) s t ∧
      (t.hp (portNum port)).mode = mode ∧ (t.hp (portNum port)).speed = speed ∧ (t.hp (portNum port)).width = width ∧
      (t.hp (1 - portNum port)).mode = (s.hp (1 - portNum port)).mode ∧ (∀ n, (t.core n).queues = (s.core n).queues) ∧
      ∀ c k, (t.ctx c).ring k = { (s.ctx c).ring k with how := ((t.ctx c).ring k).how } := by
  obtain ⟨honly, ⟨r, w, hself⟩, hother, hqueues, hring⟩ :=
    rewatch_linkChanged s (portNum port) (fun h => { h with mode := mode, speed := speed, width := width })
  obtain ⟨r', w', hothers⟩ := hother (1 - portNum port) (otherPort_ne port)
  refine ⟨_, exec_hostLinkTraining speed width hrun hmode, honly, ?_⟩
  rw [hself, hothers]
  exact ⟨rfl, rfl, rfl, rfl, hqueues, hring⟩

theorem hotReset_down (port : Party) (s : State) :
    ∃ t, exec (.hotReset port) s = .next t ∧ Only ([.cores, .ctxs] ++ readParts) s t ∧ (t.hp (portNum port)).mode = 0 ∧
      (t.hp (portNum port)).hdm = (s.hp (portNum port)).hdm ∧ (t.hp (portNum port)).bindV = (s.hp (portNum port)).bindV ∧
      (t.hp (1 - portNum port)).mode = (s.hp (1 - portNum port)).mode ∧ (∀ n, (t.core n).queues = (s.core n).queues) ∧
      ∀ c k, (t.ctx c).ring k = { (s.ctx c).ring k with how := ((t.ctx c).ring k).how } := by
  obtain ⟨honly, ⟨r, w, hself⟩, hother, hqueues, hring⟩ :=
    rewatch_linkChanged s (portNum port) (fun h => { h with mode := 0, speed := 0, width := 0 })
  obtain ⟨r', w', hothers⟩ := hother (1 - portNum port) (otherPort_ne port)
  refine ⟨rewatch s (s.modHp (portNum port) (fun h => { h with mode := 0, speed := 0, width := 0 })), rfl, honly, ?_⟩
  rw [hself, hothers]
  exact ⟨rfl, rfl, rfl, rfl, hqueues, hring⟩

/-! ### HPX_HDM -/

/-- A port with the window's base that a write of HPX_HDM gives it. -/
def based (v : BitVec 64) (h : HPort) : HPort := { h with hdm := BitVec.ofNat 7 (min 64 (bitsOf v.toNat 0 7)) }

theorem exec_hpxHdm {who : Party} {s : State} (port : Party) (v : BitVec 64) (ha : Admitted s who .admin) :
    exec (.hpxHdm who port v) s = .next (s.modHp (portNum port) (based v)) := congrArg Host.Outcome.next (gated_admitted _ ha)

theorem based_hdm (v : BitVec 64) (h : HPort) : (based v h).hdm.toNat = min 64 (v.toNat % 2 ^ 7) := by
  have hbits : bitsOf v.toNat 0 7 = v.toNat % 2 ^ 7 := by rw [bitsOf, pow_zero, Nat.div_one]
  rw [based, hbits]
  exact (BitVec.toNat_ofNat ..).trans (Nat.mod_eq_of_lt (by omega))

/-! ### WINDOW_MOVE -/

theorem exec_windowMove {w : Nat} {s : State} (hw : w < 16) (h : tget winDef s.windows w ≠ winNow s w) :
    exec (.windowMove w) s =
      .next (rewatch (servedBy s w (tget winDef s.windows w)) { s with windows := tset winDef s.windows w (winNow s w) }) := by
  change execWindowMove w s = _
  unfold execWindowMove
  dsimp only
  rw [if_neg (by simp [hw, h])]

/-- Settles O26: a change at a port is followed only by a new watch of the words watched through it. -/
theorem hostLinks : Obligations.HostLinks := by
  refine ⟨⟨fun port mode speed width s _ hrun hmode => hostLinkTraining_up speed width hrun hmode, fun port s _ => hotReset_down port s⟩,
    fun who port v s _ ha => ?_, fun w s hw h => ?_⟩
  · refine ⟨_, exec_hpxHdm port v ha, (State.modHp_keeps ..).only, ?_⟩
    rw [State.modHp_get_hp_self]
    exact ⟨rfl, based_hdm .., State.modHp_get_hp_ne _ _ _ _ (otherPort_ne port)⟩
  · have hexec := exec_windowMove hw h
    have hkeeps := Gives.keeps (o := execWindowMove w s) (execWindowMove_keeps ..) hexec
    let u : State := { s with windows := tset winDef s.windows w (winNow s w) }
    have hrewatch := rewatch_keeps (servedBy s w (tget winDef s.windows w)) u
    have hwindows : (rewatch (servedBy s w (tget winDef s.windows w)) u).windows = u.windows := hrewatch.only.2 .windows (by decide)
    refine ⟨_, hexec, (hkeeps.mono (by decide)).only, ?_, (rewatch_how _ u).ring, fun v hv => ?_⟩
    · exact (congrArg (tget winDef · w) hwindows).trans (tget_tset_self ..)
    · exact (congrArg (tget winDef · v) hwindows).trans (tget_tset_ne _ _ _ _ _ hv)

end Sys2Proof.Machine
end

section
/-! The Gate's semaphores (R326 to R328), and what a register write outside a port's rights does (R283, R315, R318). -/

namespace Sys2Proof.Machine

open Sys2Proof

/-! ### ACQUIRE -/

theorem exec_acquire {who : Party} {s : State} (i : Nat) (ctx : BitVec 10) (lease : BitVec 12) (ha : Admitted s who .all) :
    exec (.acquire who i ctx lease) s = .next (
      if (s.gate i).state = 0 then semGrant s who i ctx lease
      else if (s.gate i).state = 2 && !ownsSem (s.gate i) who ctx && ownerFenced s (s.gate i) then
        semGrant (post s uHub 0 0x0C1 (s.gate i).token.toNat) who i ctx lease
      else semResult s who i stAlias) := congrArg Host.Outcome.next (gated_admitted _ ha)

theorem exec_acquire_free {who : Party} {i : Nat} {ctx : BitVec 10} {lease : BitVec 12} {s : State} (ha : Admitted s who .all)
    (hfree : (s.gate i).state = 0) : exec (.acquire who i ctx lease) s = .next (semGrant s who i ctx lease) := by
  rw [exec_acquire i ctx lease ha, if_pos hfree]

theorem exec_acquire_held {who : Party} {i : Nat} {ctx : BitVec 10} {lease : BitVec 12} {s : State} (ha : Admitted s who .all)
    (hheld : (s.gate i).state = 1 ∨ (s.gate i).state = 2 ∧ ownerFenced s (s.gate i) = false) :
    exec (.acquire who i ctx lease) s = .next (semResult s who i stAlias) := by
  rw [exec_acquire i ctx lease ha]
  rcases hheld with h | ⟨h, hfenced⟩
  · rw [if_neg (by rw [h]; decide), if_neg (by simp [h])]
  · rw [if_neg (by rw [h]; decide), if_neg (by rw [hfenced, Bool.and_false]; decide)]

/-! ### RELEASE and RENEW -/

/-- A semaphore that its owner has released. -/
def unowned (x : Sem) : Sem := { x with state := 0, owner := 0, octx := 0, lease := 0 }

/-- A semaphore whose owner prolongs its lease at time `now`. -/
def renewed (now : BitVec 64) (lease : BitVec 12) (x : Sem) : Sem := { x with state := 1, lease := lease, since := now }

theorem exec_release {who : Party} {s : State} (i : Nat) (ctx : BitVec 10) (key : BitVec 16) (ha : Admitted s who .all) :
    exec (.release who i ctx key) s = .next (
      match semRefuse (s.gate i) who ctx key with
      | some st => semResult s who i st
      | none => semResult (s.modGate i unowned) who i stDone) := congrArg Host.Outcome.next (gated_admitted _ ha)

theorem exec_renew {who : Party} {s : State} (i : Nat) (ctx : BitVec 10) (key : BitVec 16) (lease : BitVec 12) (ha : Admitted s who .all) :
    exec (.renew who i ctx key lease) s = .next (
      match semRefuse (s.gate i) who ctx key with
      | some st => semResult s who i st
      | none => semResult (s.modGate i (renewed s.time lease)) who i stDone) := congrArg Host.Outcome.next (gated_admitted _ ha)

theorem semRefuse_owner {x : Sem} {who : Party} {ctx : BitVec 10} (hheld : x.state ≠ 0) (howner : x.owner = partyCode who)
    (hctx : x.octx = actingCtx who ctx) : semRefuse x who ctx x.token = none := by
  have howns : ownsSem x who ctx = true := by simp [ownsSem, howner, hctx]
  unfold semRefuse
  rw [if_neg (by simpa [howns] using hheld), if_neg (by simp)]

theorem semRefuse_stranger {x : Sem} {who : Party} (ctx : BitVec 10) (key : BitVec 16) (h : x.state = 0 ∨ x.owner ≠ partyCode who) :
    semRefuse x who ctx key = some stPrivilege := by
  unfold semRefuse
  refine if_pos ?_
  rcases h with h | h
  · simp [h]
  · simp [ownsSem, h]

theorem exec_release_refused {who : Party} {i : Nat} {ctx : BitVec 10} {key : BitVec 16} {s : State} (ha : Admitted s who .all)
    (h : (s.gate i).state = 0 ∨ (s.gate i).owner ≠ partyCode who) :
    exec (.release who i ctx key) s = .next (semResult s who i stPrivilege) := by
  rw [exec_release i ctx key ha, semRefuse_stranger ctx key h]

section

variable {who : Party} {i : Nat} {ctx : BitVec 10} {s : State} (ha : Admitted s who .all) (hheld : (s.gate i).state ≠ 0)
  (howner : (s.gate i).owner = partyCode who) (hctx : (s.gate i).octx = actingCtx who ctx)
include ha hheld howner hctx

theorem exec_release_owner : exec (.release who i ctx (s.gate i).token) s = .next (semResult (s.modGate i unowned) who i stDone) := by
  rw [exec_release i ctx _ ha, semRefuse_owner hheld howner hctx]

theorem exec_renew_owner (lease : BitVec 12) :
    exec (.renew who i ctx (s.gate i).token lease) s = .next (semResult (s.modGate i (renewed s.time lease)) who i stDone) := by
  rw [exec_renew i ctx _ lease ha, semRefuse_owner hheld howner hctx]

end

/-! ### What each leaves of the Gate -/

/-- A semaphore that is granted at time `now`. -/
def granted (now : BitVec 64) (who : Party) (ctx : BitVec 10) (lease : BitVec 12) (x : Sem) : Sem :=
  { x with state := 1, owner := partyCode who, octx := actingCtx who ctx, token := x.token + 1, lease := lease, since := now, result := stDone,
           rby := partyCode who }

theorem semGrant_gate (s : State) (who : Party) (i : Nat) (ctx : BitVec 10) (lease : BitVec 12) :
    (semGrant s who i ctx lease).gate i = granted s.time who ctx lease (s.gate i) ∧
      ∀ j, j ≠ i → (semGrant s who i ctx lease).gate j = s.gate j :=
  ⟨State.modGate_get_gate_self s i (granted s.time who ctx lease), fun j hj => State.modGate_get_gate_ne s i (granted s.time who ctx lease) j hj⟩

theorem semResult_gate (s : State) (who : Party) (i : Nat) (st : Status) :
    (semResult s who i st).gate i = { s.gate i with result := st, rby := partyCode who } ∧
      ∀ j, j ≠ i → (semResult s who i st).gate j = s.gate j :=
  ⟨State.modGate_get_gate_self s i (fun x => { x with result := st, rby := partyCode who }), fun _ hj => State.modGate_get_gate_ne _ _ _ _ hj⟩

/-- An owner's command that is carried out: the entry changes by `f`, with DONE. -/
theorem ownerDone_gate (s : State) (who : Party) (i : Nat) (f : Sem → Sem) :
    Only [.gates] s (semResult (s.modGate i f) who i stDone) ∧
      (semResult (s.modGate i f) who i stDone).gate i = { f (s.gate i) with result := stDone, rby := partyCode who } ∧
      ∀ j, j ≠ i → (semResult (s.modGate i f) who i stDone).gate j = s.gate j := by
  obtain ⟨hself, hother⟩ := semResult_gate (s.modGate i f) who i stDone
  rw [State.modGate_get_gate_self] at hself
  exact ⟨((State.modGate_keeps s i f).trans (State.modGate_keeps ..)).only, hself,
    fun j hj => (hother j hj).trans (State.modGate_get_gate_ne _ _ _ _ hj)⟩

/-! ### LEASE_EXPIRY -/

theorem leaseExpiry_expires {i : Nat} {s : State} (hi : i < 64) (hheld : (s.gate i).state = 1) (hlease : (s.gate i).lease ≠ 0)
    (hdue : (s.gate i).since.toNat + (s.gate i).lease.toNat * 1000000 ≤ s.time.toNat) :
    ∃ t, exec (.leaseExpiry i) s = .next t ∧ Only [.gates, .tallies] s t ∧ t.gate i = { s.gate i with state := 2 } ∧
      (∀ j, j ≠ i → t.gate j = s.gate j) ∧
      ∃ x, (t.tally uHub).fresh = (s.tally uHub).fresh ++ [x] ∧ x.code = 0x0C0 ∧ x.payload.toNat = i + 2 ^ 6 * (s.gate i).owner.toNat := by
  let u := s.modGate i (fun x => { x with state := 2 })
  have hexec : exec (.leaseExpiry i) s = .next (post u uHub 0 0x0C0 (i + 2 ^ 6 * (s.gate i).owner.toNat)) := by
    change execLeaseExpiry i s = _
    unfold execLeaseExpiry
    dsimp only
    rw [if_neg (by simpa [hheld, hdue] using hlease)]
  have hkeeps : Keeps [.gates, .tallies] s u := (State.modGate_keeps ..).mono (by decide)
  have hsmall : i + 2 ^ 6 * (s.gate i).owner.toNat < 2 ^ 46 := by
    have := (s.gate i).owner.isLt
    omega
  exact ⟨_, hexec, (hkeeps.step (post_keeps ..) (by decide)).only, State.modGate_get_gate_self s i (fun x => { x with state := 2 }),
    fun j hj => State.modGate_get_gate_ne s i (fun x => { x with state := 2 }) j hj, post_tally_self u uHub 0 0x0C0 hsmall⟩

/-- Settles O28: each command of the Gate changes its own semaphore, by its state and its owner. -/
theorem gateSemaphores : Obligations.GateSemaphores := by
  refine ⟨fun who i ctx lease s _ ha hfree => ?_, fun who i ctx lease s _ ha hheld => ?_, fun who i ctx key s _ ha hheld howner hctx hkey => ?_,
    fun who i ctx key s _ ha h => ?_, fun i s hi hheld hlease hdue => leaseExpiry_expires hi hheld hlease hdue⟩
  · obtain ⟨hself, hother⟩ := semGrant_gate s who i ctx lease
    refine ⟨_, exec_acquire_free ha hfree, (State.modGate_keeps ..).only, ?_⟩
    rw [hself]
    exact ⟨rfl, rfl, rfl, rfl, rfl, rfl, rfl, rfl, hother⟩
  · exact ⟨_, exec_acquire_held ha hheld, (State.modGate_keeps ..).only, semResult_gate s who i stAlias⟩
  · subst hkey
    refine ⟨?_, fun lease => ?_⟩
    · obtain ⟨honly, hself, hother⟩ := ownerDone_gate s who i unowned
      refine ⟨_, exec_release_owner ha hheld howner hctx, honly, ?_⟩
      rw [hself]
      exact ⟨rfl, rfl, rfl, hother⟩
    · obtain ⟨honly, hself, hother⟩ := ownerDone_gate s who i (renewed s.time lease)
      refine ⟨_, exec_renew_owner ha hheld howner hctx lease, honly, ?_⟩
      rw [hself]
      exact ⟨rfl, rfl, rfl, rfl, rfl, rfl, hother⟩
  · exact ⟨_, exec_release_refused ha h, (State.modGate_keeps ..).only, (semResult_gate s who i stPrivilege).1⟩

/-! ### Writes outside a port's rights -/

/-- A command is a register write of a party in an area: it is carried out under that party's rights there. -/
def GatedBy (who : Party) (a : RegArea) (c : Instr) (s : State) : Prop := ∃ f, exec c s = .next (gated s who a f)

theorem GatedBy.outside {who : Party} {a : RegArea} {c : Instr} {s : State} (h : GatedBy who a c s) (ho : Outside s who a) :
    ∃ t p, exec c s = .next t ∧ partyPort who = some p ∧ Only [.hps] s t ∧ t.hp p = { s.hp p with outside := stick (s.hp p).outside 1 } ∧
      ∀ q, q ≠ p → t.hp q = s.hp q := by
  obtain ⟨f, hexec⟩ := h
  obtain ⟨p, hport, hcount⟩ := countOutside_port ho
  rw [gated_outside f ho, hcount] at hexec
  exact ⟨_, p, hexec, hport, (State.modHp_keeps ..).only, State.modHp_get_hp_self s p (fun x => { x with outside := stick x.outside 1 }),
    fun q hq => State.modHp_get_hp_ne _ _ _ _ hq⟩

theorem GatedBy.down {who : Party} {a : RegArea} {c : Instr} {s : State} (h : GatedBy who a c s) (hdown : partyLive s who = false) :
    exec c s = .next s := by
  obtain ⟨f, hexec⟩ := h
  rw [hexec, gated_down f hdown]

theorem gatedBy_admin {who : Party} {c : Instr} {s : State}
    (h : c = .stage who ∨ c = .apply who ∨ c = .abort who ∨ c = .persist who ∨ (∃ n q, c = .coreStateReq who n q) ∨
      (∃ n i v, c = .coreSlot who n i v) ∨ (∃ p v, c = .hpxHdm who p v) ∨ ∃ m v, c = .mpRelease who m v) : GatedBy who .admin c s := by
  rcases h with rfl | rfl | rfl | rfl | ⟨_, _, rfl⟩ | ⟨_, _, _, rfl⟩ | ⟨_, _, rfl⟩ | ⟨_, _, rfl⟩
  all_goals exact ⟨_, rfl⟩

/-- Context 0 has no port, and its own PROGRAM is ignored: that too is a write under its rights. -/
theorem gatedBy_program (who : Party) (s : State) : GatedBy who .hub (.program who) s := by
  by_cases hwho : who = .fw
  · have hsame : gated s who .hub id = s := by
      subst hwho
      unfold gated
      split
      · rfl
      · split <;> rfl
    exact ⟨id, congrArg Host.Outcome.next ((if_pos hwho).trans hsame.symm)⟩
  · exact ⟨optProgram, congrArg Host.Outcome.next (if_neg hwho)⟩

theorem gatedBy_hub {who : Party} {c : Instr} {s : State}
    (h : (∃ i k g, c = .raise who i k g) ∨ (∃ i, c = .lift who i) ∨ c = .attest who ∨ c = .cert who ∨ c = .fwverify who ∨
      (∃ i, c = .enrol who i) ∨ (∃ i, c = .revoke who i) ∨ c = .fusesvn who ∨ c = .openDebug who ∨ c = .program who ∨
      (∃ m, c = .pulse who m) ∨ ∃ g, c = .activate who g) : GatedBy who .hub c s := by
  rcases h with ⟨_, _, _, rfl⟩ | ⟨_, rfl⟩ | rfl | rfl | rfl | ⟨_, rfl⟩ | ⟨_, rfl⟩ | rfl | rfl | rfl | ⟨_, rfl⟩ | ⟨_, rfl⟩
  case inr.inr.inr.inr.inr.inr.inr.inr.inr.inl => exact gatedBy_program ..
  all_goals exact ⟨_, rfl⟩

theorem gatedBy_ctx {who : Party} {x : Nat} {c : Instr} {s : State}
    (h : (∃ k v, c = .ringEnable who x k v) ∨ (∃ k v, c = .ringDisable who x k v) ∨ (∃ v, c = .ctxServe who x v) ∨
      c = .create who x ∨ c = .destroy who x) : GatedBy who (.ctx x) c s := by
  rcases h with ⟨_, _, rfl⟩ | ⟨_, _, rfl⟩ | ⟨_, rfl⟩ | rfl | rfl
  all_goals exact ⟨_, rfl⟩

theorem gatedBy_all {who : Party} {c : Instr} {s : State}
    (h : (∃ i x l, c = .acquire who i x l) ∨ (∃ i x k, c = .release who i x k) ∨ ∃ i x k l, c = .renew who i x k l) : GatedBy who .all c s := by
  rcases h with ⟨_, _, _, rfl⟩ | ⟨_, _, _, rfl⟩ | ⟨_, _, _, _, rfl⟩
  all_goals exact ⟨_, rfl⟩

/-- Settles O29: each of the commands is gated by its party's rights in its area, which decide alone what a refused write does. -/
theorem writesOutsideRights : Obligations.WritesOutsideRights := by
  intro who a s c h
  have hgated : GatedBy who a c s := by
    rcases h with ⟨rfl, h⟩ | ⟨rfl, h⟩ | ⟨x, rfl, h⟩ | ⟨rfl, h⟩
    · exact gatedBy_admin h
    · exact gatedBy_hub h
    · exact gatedBy_ctx h
    · exact gatedBy_all h
  exact ⟨hgated.outside, hgated.down⟩

end Sys2Proof.Machine
end

section
/-! Power and reset: how a reset begins and ends, throttling, temperatures, and PROGRAM of the option bytes (R331 to R345). -/

namespace Sys2Proof.Machine

open Sys2Proof

/-! ### A recognised cause begins a reset (R337) -/

/-- Of the causes that a command outside TEMPERATURE_READING names, only PIN's is no power-on cause. -/
theorem powerOnCause_eq {cause : Nat} (h : cause ≠ 3) : powerOnCause cause = decide (cause ≠ 2) := by
  rw [powerOnCause, bne_iff_ne.mpr h, Bool.and_true, Bool.eq_iff_iff]
  simp

/-- What a command that only sets registers of the hub before a cause is recognised, does while the device runs. -/
theorem recognised_begins {s : State} {cmd : Instr} {h : Hub} {cause : Nat} (hexec : exec cmd s = .next (recognise { s with hub := h } cause))
    (hrun : h.phase = .running) (hlow : cause < 16) (hpower : cause ≠ 3) :
    ∃ t, exec cmd s = .next t ∧ t.hub.phase = .inReset ∧ t.hub.cause.toNat = cause ∧ t.hub.rstn = false ∧ t.hub.optDone = false ∧ t.hub.lock = 0 ∧
      t.cores = [] ∧ t.ctxs = [] ∧ t.hurdles = [] ∧ t.gates = [] ∧ t.accesses = [] ∧ t.weave.loaded = false ∧ t.sec.booted = false ∧
      t.sec.openD = false ∧ t.sec.keys = s.sec.keys ∧ t.sec.fused = s.sec.fused ∧ t.weave.slotA = s.weave.slotA ∧ t.weave.slotB = s.weave.slotB ∧
      t.opt.copyA = s.opt.copyA ∧ t.opt.copyB = s.opt.copyB ∧ t.host = s.host ∧ t.time = (if cause = 2 then s.time else 0) ∧
      (cause ≠ 2 → t.uni = [] ∧ t.sec.noid = false ∧ t.sec.debug = false) ∧ (cause = 2 → t.sec.noid = s.sec.noid ∧ t.sec.debug = s.sec.debug) := by
  rw [recognise_of_outside (s := { s with hub := h }) (.inl hrun)] at hexec
  obtain ⟨h1, h2, h3, h4, h5, h6, h7, h8, h9, h10, h11, h12, h13, h14, h15, h16, h17, h18, h19, h20, htime, hcold, hwarm⟩ :=
    beginReset_spec { s with hub := h } cause hlow
  have hcause := powerOnCause_eq hpower
  refine ⟨_, hexec, h1, h2, h3, h4, h5, h6, h7, h8, h9, h10, h11, h12, h13, h14, h15, h16, h17, h18, h19, h20, ?_, fun hc => ?_, fun hc => ?_⟩
  · rw [htime, hcause]
    simp
  · exact hcold (hcause.trans (decide_eq_true hc))
  · exact hwarm (hcause.trans (decide_eq_false (not_not.mpr hc)))

/-- A stage that stops takes its share of the bus with it. -/
def stageStopped (h : Hub) (g : Nat) : Hub := if g = 0 then { h with bus0 := false } else { h with bus1 := false }

/-- Settles O31: each command sets at most registers of the hub, and then recognises its cause. -/
theorem resetBegins : Obligations.ResetBegins := by
  rintro s cmd cause hrun (⟨rfl, rfl⟩ | ⟨rfl, rfl⟩ | ⟨rfl, rfl⟩ | ⟨⟨g, -, rfl⟩, rfl⟩ | ⟨rfl, rfl⟩)
  · exact recognised_begins (h := { s.hub with pwrok := false }) rfl hrun (by decide) (by decide)
  · exact recognised_begins (h := s.hub) rfl hrun (by decide) (by decide)
  · exact recognised_begins (h := { s.hub with bus0 := false, bus1 := false }) rfl hrun (by decide) (by decide)
  · refine recognised_begins (h := stageStopped s.hub g) rfl ?_ (by decide) (by decide)
    unfold stageStopped
    split <;> exact hrun
  · exact recognised_begins (h := { s.hub with lock := 0 }) rfl hrun (by decide) (by decide)

/-! ### From power to running (R332, R337, R338, R342) -/

theorem Only.set_hub (s : State) (h : Hub) : Only [.hub] s { s with hub := h } := ((Keeps.refl _ s).set_hub (by decide)).only

theorem Only.set_pwr (s : State) (p : Pwr) : Only [.pwr] s { s with pwr := p } := ((Keeps.refl _ s).set_pwr (by decide)).only

theorem softStart_share (g : Nat) (s : State) :
    ∃ t, exec (.softStart g) s = .next t ∧ Only [.hub] s t ∧ (g = 0 → t.hub = { s.hub with bus0 := true }) ∧ (g = 1 → t.hub = { s.hub with bus1 := true }) :=
  ⟨_, rfl, Only.set_hub .., fun h => if_pos h, fun h => if_neg (by omega)⟩

theorem powerOn_begins {s : State} (hoff : s.hub.phase = .off) (hrails : railsGood s = true) :
    ∃ t, exec .powerOn s = .next t ∧ t.hub.phase = .inReset ∧ t.hub.cause = 0 ∧ t.time = 0 ∧ t.cores = [] ∧ t.uni = [] := by
  have hexec : exec .powerOn s = .next (beginReset s 0) := by
    change execPowerOn s = _
    unfold execPowerOn
    rw [if_pos (by simp [hoff, hrails]), recognise_of_outside (.inr hoff)]
  exact ⟨_, hexec, rfl, rfl, rfl, rfl, rfl⟩

/-- The option-byte state machine selects a valid copy, and shows its defaults where there is none. -/
theorem optBoot_selects (s : State) :
    Keeps [.opt, .tallies] s (optBoot s) ∧ (optBoot s).opt.bada = !optValid s.opt.copyA ∧ (optBoot s).opt.badb = !optValid s.opt.copyB ∧
      (optValid s.opt.copyA = false → optValid s.opt.copyB = false → (optBoot s).opt.src = 2 ∧ optImage (optBoot s) = optDefault) := by
  refine ⟨(optBoot_keeps s).mono (by decide), ?_, ?_, fun ha hb => ?_⟩ <;> unfold optBoot <;> dsimp only
  · split
    · rfl
    · split <;> rfl
  · split
    · rfl
    · split <;> rfl
  · rw [if_neg (by simp [ha]), if_neg (by simp [hb])]
    exact ⟨rfl, rfl⟩

/-- The device with its clocks locked. -/
def locked (s : State) : State := { s with hub := { s.hub with lock := 0x3F, optDone := true } }

theorem exec_pllLock {s : State} (hreset : s.hub.phase = .inReset) (hlock : s.hub.lock ≠ 0x3F) :
    exec .pllLock s = .next (if s.hub.optDone then locked s else optBoot (locked s)) := by
  change execPllLock s = _
  unfold execPllLock
  rw [if_neg (by simpa [hreset] using hlock)]
  rfl

theorem pllLock_locks {s : State} (hreset : s.hub.phase = .inReset) (hlock : s.hub.lock ≠ 0x3F) :
    ∃ t, exec .pllLock s = .next t ∧ Only [.hub, .opt, .tallies] s t ∧ t.hub.lock = 0x3F ∧ t.hub.optDone = true ∧ t.hub.phase = .inReset ∧
      (s.hub.optDone = true → t.opt = s.opt) ∧
      (s.hub.optDone = false → t.opt.bada = !optValid s.opt.copyA ∧ t.opt.badb = !optValid s.opt.copyB ∧
        (optValid s.opt.copyA = false → optValid s.opt.copyB = false → t.opt.src = 2 ∧ optImage t = optDefault)) := by
  have hexec := exec_pllLock hreset hlock
  have hkeeps : Keeps [.hub, .opt, .tallies] s (locked s) := (Keeps.refl _ s).set_hub (by decide)
  by_cases hdone : s.hub.optDone = true
  · rw [if_pos hdone] at hexec
    exact ⟨_, hexec, hkeeps.only, rfl, rfl, hreset, fun _ => rfl, fun h => absurd hdone (by simp [h])⟩
  · rw [if_neg hdone] at hexec
    obtain ⟨hboot, hselects⟩ := optBoot_selects (locked s)
    have hhub : (optBoot (locked s)).hub = (locked s).hub := hboot.only.2 .hub (by decide)
    refine ⟨_, hexec, (hkeeps.step hboot (by decide)).only, ?_, ?_, ?_, fun h => absurd h hdone, fun _ => hselects⟩
    · rw [hhub]; rfl
    · rw [hhub]; rfl
    · rw [hhub]; exact hreset

theorem resetRelease_releases {s : State} (hreset : s.hub.phase = .inReset) (hdue : s.hub.since.toNat + 1000000 ≤ s.time.toNat)
    (hrails : railsGood s = true) (hcool : s.pwr.cool85 = true) (hlock : s.hub.lock = 0x3F) (hopt : s.hub.optDone = true) :
    ∃ t, exec .resetRelease s = .next t ∧ Only [.hub] s t ∧ t.hub.phase = .released ∧ t.hub.since = s.time := by
  have hexec : exec .resetRelease s = .next { s with hub := { s.hub with phase := .released, since := s.time, pwrok := true } } := by
    change execResetRelease s = _
    unfold execResetRelease
    rw [if_neg (by simp [hreset, hdue, hrails, hcool, hlock, hopt])]
  exact ⟨_, hexec, Only.set_hub .., rfl, rfl⟩

theorem resetRelease_waits {s : State}
    (h : s.time.toNat < s.hub.since.toNat + 1000000 ∨ railsGood s = false ∨ s.pwr.cool85 = false ∨ s.hub.lock ≠ 0x3F) :
    exec .resetRelease s = .next s := by
  change execResetRelease s = _
  unfold execResetRelease
  refine if_pos ?_
  rcases h with h | h | h | h
  · simp [h]
  · simp [h]
  · simp [h]
  · rw [decide_eq_true h]
    simp

theorem resetExit_runs {s : State} (hreleased : s.hub.phase = .released) (hdue : s.hub.since.toNat + 100000 ≤ s.time.toNat) :
    ∃ t, exec .resetExit s = .next t ∧ Only [.hub, .time, .bbx] s t ∧ t.hub.phase = .running ∧ t.hub.rstn = true ∧ t.bbx.closed = false ∧
      t.time = (if powerOnCause s.hub.cause.toNat = true then 0 else s.time) := by
  have hexec : exec .resetExit s = .next { s with
      time := if powerOnCause s.hub.cause.toNat then 0 else s.time, hub := { s.hub with phase := .running, rstn := true, faultRst := false },
      bbx := { s.bbx with closed := false } } := by
    change execResetExit s = _
    unfold execResetExit
    rw [if_neg (by simp [hreleased, hdue])]
  have hkeeps := Gives.keeps (o := execResetExit s) (execResetExit_keeps ..) hexec
  exact ⟨_, hexec, (hkeeps.mono (by decide)).only, rfl, rfl, rfl, rfl⟩

theorem resetExit_waits {s : State} (h : s.time.toNat < s.hub.since.toNat + 100000) : exec .resetExit s = .next s := by
  change execResetExit s = _
  unfold execResetExit
  exact if_pos (by simp [h])

/-- Settles O32: each command takes the device one stage on, and the two that wait change nothing before their time. -/
theorem resetEnds : Obligations.ResetEnds :=
  ⟨⟨fun g s _ => softStart_share g s, fun _ hoff hrails => powerOn_begins hoff hrails, fun _ hreset hlock => pllLock_locks hreset hlock,
    fun _ hreset hdue hrails hcool hlock hopt => resetRelease_releases hreset hdue hrails hcool hlock hopt,
    fun _ hreleased hdue => resetExit_runs hreleased hdue⟩, fun _ => ⟨resetRelease_waits, resetExit_waits⟩⟩

end Sys2Proof.Machine
end

section
/-! Throttling by power and temperature, and PROGRAM of the option bytes (R333 to R335, R345). -/

namespace Sys2Proof.Machine

open Sys2Proof

/-! ### POWER_SAMPLE (R333) -/

/-- A sample that is not far above the current limit sets the power registers, and resets nothing. -/
theorem powerSample_noted {vin iin vbak : Nat} {s : State} (hrun : s.hub.phase = .running)
    (hnear : iin * 10 ≤ (limitsOf s s.weave.cur.sects).current * 11) :
    let lim := limitsOf s s.weave.cur.sects
    let mw := avgOf ((vin * iin :: s.pwr.samples).take 10)
    let above := decide (lim.current < iin) || decide (lim.power * 1000 < mw)
    let below := decide (iin * 100 < 95 * lim.current) && decide (mw * 100 < 95 * (lim.power * 1000))
    ∃ p, exec (.powerSample vin iin vbak) s = .next { s with pwr := p } ∧ p.iin = BitVec.ofNat 16 iin ∧ p.overLim = above ∧
      p.pLevel = (if above then powerLevels s (fun x => min 56 (x + 8)) else s.pwr.pLevel) ∧ p.belowUs = (if below then s.pwr.belowUs + 1 else 0) := by
  have hnot : decide ((limitsOf s s.weave.cur.sects).current * 11 < iin * 10) = false := decide_eq_false (by omega)
  dsimp only
  refine ⟨?p, ?_, ?_, ?_, ?_, ?_⟩
  rotate_left
  · change execPowerSample vin iin vbak s = _
    unfold execPowerSample
    dsimp only
    rw [hnot, Bool.false_and, if_neg Bool.false_ne_true, if_neg (by simp [hrun]), if_neg (by decide)]
  all_goals rfl

theorem powerSample_above {vin iin vbak : Nat} {s : State} (hrun : s.hub.phase = .running) (hover : (limitsOf s s.weave.cur.sects).current < iin)
    (hnear : iin * 10 ≤ (limitsOf s s.weave.cur.sects).current * 11) :
    ∃ t, exec (.powerSample vin iin vbak) s = .next t ∧ Only [.pwr] s t ∧ t.pwr.overLim = true ∧ t.pwr.iin = BitVec.ofNat 16 iin ∧
      ∀ d, d < 16 → tget dN t.pwr.pLevel d = min 56 (tget dN s.pwr.pLevel d + 8) := by
  obtain ⟨p, hexec, hiin, hlimit, hlevel, -⟩ := powerSample_noted (vin := vin) (vbak := vbak) hrun hnear
  rw [decide_eq_true hover, Bool.true_or] at hlimit hlevel
  refine ⟨_, hexec, Only.set_pwr .., hlimit, hiin, fun d hd => ?_⟩
  change tget dN p.pLevel d = _
  rw [hlevel, if_pos rfl, powerLevels_get, if_pos hd]

theorem powerSample_below {vin iin vbak : Nat} {s : State} (hrun : s.hub.phase = .running)
    (hcurrent : iin * 100 < 95 * (limitsOf s s.weave.cur.sects).current) (hfirst : s.pwr.samples = [])
    (hpower : vin * iin * 100 < 95 * ((limitsOf s s.weave.cur.sects).power * 1000)) :
    ∃ t, exec (.powerSample vin iin vbak) s = .next t ∧ Only [.pwr] s t ∧ t.pwr.overLim = false ∧ t.pwr.pLevel = s.pwr.pLevel ∧
      t.pwr.belowUs = s.pwr.belowUs + 1 := by
  obtain ⟨p, hexec, -, hlimit, hlevel, hbelow⟩ := powerSample_noted (vin := vin) (iin := iin) (vbak := vbak) hrun (by omega)
  have hmean : avgOf ((vin * iin :: s.pwr.samples).take 10) = vin * iin := by simp [hfirst, avgOf]
  rw [hmean] at hlimit hlevel hbelow
  rw [decide_eq_false (by omega), decide_eq_false (by omega)] at hlimit hlevel
  rw [decide_eq_true hcurrent, decide_eq_true hpower] at hbelow
  exact ⟨_, hexec, Only.set_pwr .., hlimit, hlevel, hbelow⟩

/-! ### THROTTLE_DECAY and THROTTLE_WINDOW (R333, R334) -/

/-- The power registers ten microseconds below both limits later. -/
def decayed (s : State) : Pwr := { s.pwr with belowUs := s.pwr.belowUs - 10, pLevel := powerLevels s (fun x => x - 1) }

theorem exec_throttleDecay {s : State} (h : 10 ≤ s.pwr.belowUs) : exec .throttleDecay s = .next { s with pwr := decayed s } := by
  change execThrottleDecay s = _
  unfold execThrottleDecay
  rw [if_neg (Nat.not_lt.mpr h)]
  rfl

theorem decayed_level (s : State) {d : Nat} (hd : d < 16) : tget dN (decayed s).pLevel d = tget dN s.pwr.pLevel d - 1 := by
  unfold decayed
  rw [powerLevels_get, if_pos hd]

theorem throttleWindow_applies (d : Nat) (s : State) :
    ∃ t, exec (.throttleWindow d) s = .next t ∧ Only [.pwr] s t ∧ tget dN t.pwr.applied d = throttleLevel s d ∧
      tget dN t.pwr.applied (d + 8) = throttleLevel s (d + 8) ∧ (∀ e, e ≠ d → e ≠ d + 8 → tget dN t.pwr.applied e = tget dN s.pwr.applied e) ∧
      t.pwr.pLevel = s.pwr.pLevel ∧ t.pwr.tLevel = s.pwr.tLevel := by
  refine ⟨_, rfl, Only.set_pwr .., ?_, tget_tset_self .., fun e he he8 => ?_, rfl, rfl⟩
  · exact (tget_tset_ne _ _ _ _ _ (by omega)).trans (tget_tset_self ..)
  · exact (tget_tset_ne _ _ _ _ _ he8).trans (tget_tset_ne _ _ _ _ _ he)

/-! ### TEMPERATURE_READING (R335) -/

/-- The power registers as a reading of one sensor finds them: which sensors are at 100 degrees, and whether it is warm or cool. -/
def readBase (s : State) (r : Reading) : Pwr :=
  { s.pwr with
    hotPrev := if 100 ≤ r.temp then [(r.kind, r.index)] else [], cool85 := [r].all (fun r => r.temp < 85),
    therm := if [r].any (fun r => optThrot s ≤ r.temp) then true else if [r].all (fun r => r.temp + 2 < optThrot s) then false else s.pwr.therm }

/-- A reading of one sensor: the levels of the dies it acts on, and the reset where it was at 100 degrees before. -/
theorem temperatureReading_one {s : State} (r : Reading) (hrun : s.hub.phase = .running) :
    ∃ u, exec (.temperatureReading [r]) s =
        .next (if 100 ≤ r.temp ∧ (r.kind, r.index) ∈ s.pwr.hotPrev then recognise u 3 else u) ∧
      Keeps [.pwr, .tallies] s u ∧
      u.pwr = { throttleDies.foldl (thermDie (optThrot s) [r]) (readBase s r) with
                hottest := BitVec.ofNat 8 r.temp, kind := BitVec.ofNat 3 r.kind, index := BitVec.ofNat 5 r.index } := by
  have hhot : ([r].filter (fun r => 100 ≤ r.temp)).map (fun r => (r.kind, r.index)) = if 100 ≤ r.temp then [(r.kind, r.index)] else [] := by
    by_cases h : 100 ≤ r.temp <;> simp [h]
  have htrip : (if 100 ≤ r.temp then [(r.kind, r.index)] else []).any (fun x => s.pwr.hotPrev.contains x) =
      decide (100 ≤ r.temp ∧ (r.kind, r.index) ∈ s.pwr.hotPrev) := by
    by_cases h : 100 ≤ r.temp <;> simp [h]
  change ∃ u, execTemperatureReading [r] s = _ ∧ _
  unfold execTemperatureReading
  dsimp only
  rw [hhot, htrip, if_neg (by simp [hrun])]
  simp only [decide_eq_true_eq]
  refine ⟨_, rfl, ?_, ?_⟩
  · refine Keeps.ite (fun _ => ?_) (fun _ => ?_)
    · exact ((Keeps.refl _ s).set_pwr (by decide)).step (post_keeps ..) (by decide)
    · exact (Keeps.refl _ s).set_pwr (by decide)
  · split <;> rfl

theorem temperatureReading_warm {d x : Nat} {s : State} (hrun : s.hub.phase = .running) (hd : d < 8) (hwarm : 95 ≤ x) (hcool : x < 100) :
    ∃ t, exec (.temperatureReading [⟨0, d, x⟩]) s = .next t ∧ Only [.pwr, .tallies] s t ∧ 48 ≤ tget dN t.pwr.tLevel d ∧
      t.pwr.hottest.toNat = x ∧ ∀ e, e ≠ d → tget dN t.pwr.tLevel e = tget dN s.pwr.tLevel e := by
  obtain ⟨u, hexec, hkeeps, hpwr⟩ := temperatureReading_one ⟨0, d, x⟩ hrun
  rw [if_neg (fun h => absurd h.1 (Nat.not_le.mpr hcool))] at hexec
  obtain ⟨hself, hother, -⟩ := thermDies_one (optThrot s) d x throttleDies List.nodup_range (readBase s ⟨0, d, x⟩) hwarm
  refine ⟨u, hexec, hkeeps.only, ?_⟩
  rw [hpwr]
  refine ⟨hself (List.mem_range.mpr (by omega)), (BitVec.toNat_ofNat ..).trans (Nat.mod_eq_of_lt (show x < 2 ^ 8 by omega)), hother⟩

theorem temperatureReading_hot {k d x : Nat} {s : State} (hrun : s.hub.phase = .running) (hhot : 100 ≤ x) :
    ((k, d) ∈ s.pwr.hotPrev → ∃ t, exec (.temperatureReading [⟨k, d, x⟩]) s = .next t ∧ t.hub.phase = .inReset ∧ t.hub.cause = 3) ∧
    ((k, d) ∉ s.pwr.hotPrev → ∃ t, exec (.temperatureReading [⟨k, d, x⟩]) s = .next t ∧ t.hub.phase = .running ∧ t.pwr.hotPrev = [(k, d)]) := by
  obtain ⟨u, hexec, hkeeps, hpwr⟩ := temperatureReading_one ⟨k, d, x⟩ hrun
  have hphase : u.hub.phase = .running := (congrArg Hub.phase (hkeeps.only.2 .hub (by decide))).trans hrun
  refine ⟨fun hbefore => ?_, fun hbefore => ?_⟩
  · rw [if_pos ⟨hhot, hbefore⟩, recognise_of_outside (.inl hphase)] at hexec
    exact ⟨_, hexec, beginReset_phase u 3⟩
  · rw [if_neg (fun h => hbefore h.2)] at hexec
    refine ⟨u, hexec, hphase, ?_⟩
    rw [hpwr]
    exact (thermDies_hotPrev ..).trans (if_pos hhot)

/-- Settles O34: each level moves as its sample, window or reading says, and only a second hot reading resets. -/
theorem throttling : Obligations.Throttling :=
  ⟨⟨fun _ _ _ _ hrun hover hnear => powerSample_above hrun hover hnear,
    fun _ _ _ _ hrun hcurrent hfirst hpower => powerSample_below hrun hcurrent hfirst hpower, fun s h => ⟨_, exec_throttleDecay h, Only.set_pwr .., rfl, rfl, fun _ hd => decayed_level s hd⟩,
    fun d s _ => throttleWindow_applies d s, fun _ _ _ hrun hd hwarm hcool => temperatureReading_warm hrun hd hwarm hcool⟩,
    fun _ _ _ _ hrun hhot => temperatureReading_hot hrun hhot⟩

/-! ### PROGRAM (R345) -/

theorem exec_program {who : Party} {s : State} (hport : who ≠ .fw) (ha : Admitted s who .hub) : exec (.program who) s = .next (optProgram s) :=
  congrArg Host.Outcome.next ((if_neg hport).trans (gated_admitted _ ha))

/-- The staged image, sealed with the next sequence number. -/
def nextImage (s : State) : List Byte := optSeal (if s.opt.src = 2 then 1 else (optSeq s.opt.image + 1) % 2 ^ 32) (optStaged s)

/-- The copy that is not in force takes the next image. -/
def programmed (s : State) : Opt :=
  if s.opt.src = 0 then { s.opt with pend := true, result := stDone, copyB := nextImage s }
  else { s.opt with pend := true, result := stDone, copyA := nextImage s }

theorem optProgram_good {s : State} (h : optRanges (optStaged s) = true) : optProgram s = { s with opt := programmed s } := by
  unfold optProgram
  dsimp only
  rw [if_neg (by simp [h])]
  rfl

theorem optProgram_bad {s : State} (h : optRanges (optStaged s) = false) : optProgram s = { s with opt := { s.opt with result := stDescriptor } } := by
  unfold optProgram
  dsimp only
  rw [if_pos (by simp [h])]

theorem programmed_opt (s : State) :
    (programmed s).pend = true ∧ (programmed s).result = stDone ∧ (programmed s).image = s.opt.image ∧ (programmed s).src = s.opt.src ∧
      (if s.opt.src = 0 then (programmed s).copyB = nextImage s ∧ (programmed s).copyA = s.opt.copyA
       else (programmed s).copyA = nextImage s ∧ (programmed s).copyB = s.opt.copyB) := by
  unfold programmed
  split
  · exact ⟨rfl, rfl, rfl, rfl, rfl, rfl⟩
  · exact ⟨rfl, rfl, rfl, rfl, rfl, rfl⟩

theorem Only.set_opt (s : State) (o : Opt) : Only [.opt] s { s with opt := o } := ((Keeps.refl _ s).set_opt (by decide)).only

/-- Settles O35: PROGRAM writes one copy, refuses a field out of range, and ignores context 0. -/
theorem optionBytesProgram : Obligations.OptionBytesProgram := by
  refine ⟨fun who s hport ha h => ?_, fun who s hport ha h => ?_, fun s => rfl⟩
  · obtain ⟨hpend, hresult, himage, hsrc, hcopy⟩ := programmed_opt s
    exact ⟨_, nextImage s, (exec_program hport ha).trans (congrArg _ (optProgram_good h)), Only.set_opt .., hpend, hresult, himage, hsrc, rfl, hcopy⟩
  · exact ⟨_, (exec_program hport ha).trans (congrArg _ (optProgram_bad h)), Only.set_opt .., rfl⟩

end Sys2Proof.Machine
end

section
/-! Tally rings and the black-box record (R363 to R373). -/

namespace Sys2Proof.Machine

open Sys2Proof

/-! ### TALLY_QUEUE_WRITE -/

/-- One fresh record on an empty queue is queued, and none is lost. -/
theorem appendFresh_one {t : TallyUnit} {r : TallyRec} (hfresh : t.fresh = [r]) (hqueue : t.queue = []) :
    appendFresh t = { t with fresh := [], queue := [r] } := by
  unfold appendFresh
  rw [hfresh, hqueue]
  dsimp only [sortRecs, List.foldl, insertRec, List.nil_append, List.length, discardTo]
  rw [if_pos (by decide)]
  dsimp only
  rw [stick_zero]
  rfl

theorem ringWrite_frozen {cap : Nat} {t : TallyUnit} {r : TallyRec} (h : t.frozen = true) :
    ringWrite cap t r = ({ t with dropped := stick t.dropped 1 }, false) := if_pos h

/-- A ring that is neither frozen nor armed takes a record at HEAD. -/
theorem ringWrite_open {cap : Nat} {t : TallyUnit} {r : TallyRec} (hopen : t.frozen = false) (harm : t.arm = false) (htrig : t.triggered = false) :
    ringWrite cap t r = ({ t with slots := tset trecDef t.slots (t.head.toNat % cap) r, head := t.head + 1, lastCode := r.code }, false) := by
  unfold ringWrite
  dsimp only
  rw [if_neg (by simp [hopen]), if_neg (by simp [htrig]), if_neg (by simp [harm])]

/-- A ring with nothing left to write. -/
def dequeued (t : TallyUnit) : TallyUnit := { t with fresh := [], queue := [] }

/-- The ring after its one queued record is written. -/
def oneWritten (u : Nat) (t : TallyUnit) (r : TallyRec) : TallyUnit := { (ringWrite (tallyCap u) (dequeued t) r).1 with lostSince := 0 }

theorem ringWrite_fires {cap : Nat} {t : TallyUnit} {r : TallyRec} (harm : t.arm = false) (htrig : t.triggered = false) :
    (ringWrite cap t r).2 = false := by
  cases hfrozen : t.frozen
  · rw [ringWrite_open hfrozen harm htrig]
  · rw [ringWrite_frozen hfrozen]

theorem tallyCycle_one {u : Nat} {r : TallyRec} {s : State} (hfresh : (s.tally u).fresh = [r]) (hqueue : (s.tally u).queue = [])
    (harm : (s.tally u).arm = false) (htrig : (s.tally u).triggered = false) (hlost : (s.tally u).lostSince = 0) :
    tallyCycle s u = bbxAdmit ((s.modTally u appendFresh).modTally u (fun _ => oneWritten u (s.tally u) r)) r := by
  have hring : (s.modTally u appendFresh).tally u = { s.tally u with fresh := [], queue := [r] } := by
    rw [State.modTally_get_tally_self, appendFresh_one hfresh hqueue]
  have hfires : (ringWrite (tallyCap u) { s.tally u with fresh := [], queue := [] } r).2 = false := ringWrite_fires (t := dequeued (s.tally u)) harm htrig
  unfold tallyCycle
  dsimp only
  rw [hring]
  dsimp only
  rw [hfires, Bool.false_and, if_pos hlost, if_neg Bool.false_ne_true]
  rfl

theorem oneWritten_open {u : Nat} {t : TallyUnit} {r : TallyRec} (hopen : t.frozen = false) (harm : t.arm = false) (htrig : t.triggered = false) :
    (oneWritten u t r).head = t.head + 1 ∧ (oneWritten u t r).slots = tset trecDef t.slots (t.head.toNat % tallyCap u) r := by
  unfold oneWritten
  rw [ringWrite_open (t := dequeued t) hopen harm htrig]
  exact ⟨rfl, rfl⟩

theorem oneWritten_frozen {u : Nat} {t : TallyUnit} {r : TallyRec} (h : t.frozen = true) :
    (oneWritten u t r).head = t.head ∧ (oneWritten u t r).dropped = stick t.dropped 1 := by
  unfold oneWritten
  rw [ringWrite_frozen (t := dequeued t) h]
  exact ⟨rfl, rfl⟩

theorem oneWritten_queue {u : Nat} {t : TallyUnit} {r : TallyRec} (harm : t.arm = false) (htrig : t.triggered = false) :
    (oneWritten u t r).queue = [] ∧ (oneWritten u t r).fresh = [] := by
  unfold oneWritten
  cases hfrozen : t.frozen
  · rw [ringWrite_open (t := dequeued t) hfrozen harm htrig]
    exact ⟨rfl, rfl⟩
  · rw [ringWrite_frozen (t := dequeued t) hfrozen]
    exact ⟨rfl, rfl⟩

theorem tallyQueueWrite_one {u : Nat} {r : TallyRec} {s : State} (hfresh : (s.tally u).fresh = [r]) (hqueue : (s.tally u).queue = [])
    (harm : (s.tally u).arm = false) (htrig : (s.tally u).triggered = false) (hlost : (s.tally u).lostSince = 0) :
    ∃ t, exec (.tallyQueueWrite u) s = .next t ∧ Only [.tallies, .bbx, .hub] s t ∧ (t.tally u).queue = [] ∧ (t.tally u).fresh = [] ∧
      ((s.tally u).frozen = false → (t.tally u).head = (s.tally u).head + 1 ∧
        tget trecDef (t.tally u).slots ((s.tally u).head.toNat % tallyCap u) = r ∧
        ∀ i, i ≠ (s.tally u).head.toNat % tallyCap u → tget trecDef (t.tally u).slots i = tget trecDef (s.tally u).slots i) ∧
      ((s.tally u).frozen = true → (t.tally u).head = (s.tally u).head ∧ (t.tally u).dropped = stick (s.tally u).dropped 1) ∧
      ∀ v, v ≠ u → t.tally v = s.tally v := by
  let ring := (s.modTally u appendFresh).modTally u (fun _ => oneWritten u (s.tally u) r)
  have hexec : exec (.tallyQueueWrite u) s = .next (bbxAdmit ring r) := congrArg _ (tallyCycle_one hfresh hqueue harm htrig hlost)
  have hadmit := bbxAdmit_keeps ring r
  have hkeeps : Keeps [.tallies, .bbx, .hub] s ring := ((State.modTally_keeps ..).trans (State.modTally_keeps ..)).mono (by decide)
  have hself : (bbxAdmit ring r).tally u = oneWritten u (s.tally u) r := (hadmit.tally (by decide) u).trans (State.modTally_get_tally_self ..)
  refine ⟨_, hexec, (hkeeps.step hadmit (by decide)).only, ?_⟩
  rw [hself]
  refine ⟨(oneWritten_queue harm htrig).1, (oneWritten_queue harm htrig).2, fun hopen => ?_, oneWritten_frozen, fun v hv => ?_⟩
  · obtain ⟨hhead, hslots⟩ := oneWritten_open (u := u) (r := r) hopen harm htrig
    rw [hslots]
    exact ⟨hhead, tget_tset_self .., fun i hi => tget_tset_ne _ _ _ _ _ hi⟩
  · exact (hadmit.tally (by decide) v).trans ((State.modTally_get_tally_ne _ _ _ _ hv).trans (State.modTally_get_tally_ne _ _ _ _ hv))

/-! ### TLY_FREEZE, REARM, CROSS_TRIGGER -/

theorem exec_tlyFreeze {who : Party} {u : Nat} {s : State} (ha : Admitted s who (tallyArea u)) :
    exec (.tlyFreeze who u) s = .next (s.modTally u tlyFreeze) := congrArg Host.Outcome.next (gated_admitted _ ha)

theorem exec_rearm {who : Party} {u : Nat} {s : State} (ha : Admitted s who (tallyArea u)) :
    exec (.rearm who u) s = .next (s.modTally u tlyRearm) := congrArg Host.Outcome.next (gated_admitted _ ha)

/-- The device with its cross-trigger taken by the rings that listen to it. -/
def crossed (s : State) : State :=
  { s with tallies := s.tallies.map (fun t => (t.1, crossHit t.1 t.2)), hub2 := { s.hub2 with xtrig := false } }

theorem exec_crossTrigger {s : State} (htrig : s.hub2.xtrig = true) (hbbx : s.bbx.xin = false) : exec .crossTrigger s = .next (crossed s) := by
  have hnot : ((crossed s).bbx.xin && !(crossed s).bbx.frozen) = false := by
    rw [show (crossed s).bbx.xin = false from hbbx, Bool.false_and]
  have hexec : exec .crossTrigger s = .next (if (crossed s).bbx.xin && !(crossed s).bbx.frozen then bbxFreeze (crossed s) 1 else crossed s) := by
    change execCrossTrigger s = _
    unfold execCrossTrigger
    rw [if_neg (by simp [htrig])]
    rfl
  rw [hexec, hnot, if_neg Bool.false_ne_true]

theorem crossed_tally (s : State) (u : Nat) : (crossed s).tally u = crossHit u (s.tally u) := tget_mapk tallyDef crossHit (fun _ => rfl) s.tallies u

theorem crossHit_listens {u : Nat} {t : TallyUnit} (hin : t.xin = true) (htrig : t.triggered = false) :
    (crossHit u t).triggered = true ∧ (crossHit u t).postLeft = t.post := by
  unfold crossHit
  rw [if_neg (by simp [hin, htrig])]
  exact ⟨rfl, rfl⟩

theorem crossHit_deaf {u : Nat} {t : TallyUnit} (h : t.xin = false) : crossHit u t = t := if_pos (by simp [h])

theorem crossHit_slots (u : Nat) (t : TallyUnit) : (crossHit u t).slots = t.slots := by
  unfold crossHit
  split <;> rfl

/-! ### The black-box record -/

theorem exec_blackBoxWrite {r : TallyRec} {l : List TallyRec} {s : State} (hopen : s.bbx.frozen = false) (hbuf : s.bbx.buffer = r :: l)
    (hlost : s.bbx.lostSince = 0) : exec .blackBoxWrite s = .next { s with bbx := bbxPut { s.bbx with buffer := l } r } := by
  change execBlackBoxWrite s = _
  unfold execBlackBoxWrite
  rw [hopen, hbuf]
  exact if_pos hlost

theorem exec_blackBoxWrite_frozen {s : State} (h : s.bbx.frozen = true) : exec .blackBoxWrite s = .next s := by
  change execBlackBoxWrite s = _
  unfold execBlackBoxWrite
  rw [h]

theorem exec_bbxFreeze {who : Party} {s : State} (ha : Admitted s who .admin) : exec (.bbxFreeze who) s = .next (bbxFreeze s 0) :=
  congrArg Host.Outcome.next (gated_admitted _ ha)

theorem exec_unfreeze {who : Party} {s : State} (ha : Admitted s who .admin) : exec (.unfreeze who) s = .next (bbxUnfreeze s) :=
  congrArg Host.Outcome.next (gated_admitted _ ha)

theorem Only.set_bbx (s : State) (b : BlackBox) : Only [.bbx] s { s with bbx := b } := ((Keeps.refl _ s).set_bbx (by decide)).only

/-- Settles O39: each command acts on the rings or the record it names. -/
theorem tallyRecords : Obligations.TallyRecords := by
  refine ⟨fun u r s hfresh hqueue harm htrig hlost => tallyQueueWrite_one hfresh hqueue harm htrig hlost,
    ⟨fun who u s ha => ⟨?_, ?_⟩, fun s htrig hbbx => ?_⟩, fun r l s hopen hbuf hlost => ?_, fun s h => exec_blackBoxWrite_frozen h,
    fun who s ha => ⟨?_, ?_⟩⟩
  · exact ⟨_, exec_tlyFreeze ha, (State.modTally_keeps ..).only, State.modTally_get_tally_self s u tlyFreeze,
      fun v hv => State.modTally_get_tally_ne s u tlyFreeze v hv⟩
  · exact ⟨_, exec_rearm ha, (State.modTally_keeps ..).only, State.modTally_get_tally_self s u tlyRearm,
      fun v hv => State.modTally_get_tally_ne s u tlyRearm v hv⟩
  · have hexec := exec_crossTrigger htrig hbbx
    have hkeeps : Keeps [.tallies, .hub2] s (crossed s) := (Keeps.refl _ s).set_tallies_hub2 (by decide)
    refine ⟨crossed s, hexec, hkeeps.only, rfl, fun u hin ht => ?_, fun u hdeaf => ?_, fun u => ?_⟩
    · rw [crossed_tally]
      exact crossHit_listens hin ht
    · rw [crossed_tally, crossHit_deaf hdeaf]
    · rw [crossed_tally, crossHit_slots]
  · exact ⟨_, exec_blackBoxWrite hopen hbuf hlost, Only.set_bbx .., rfl, rfl, tget_tset_self .., fun i hi => tget_tset_ne _ _ _ _ _ hi⟩
  · have hkeeps : Keeps [.bbx, .tallies] s (bbxFreeze s 0) := (bbxFreeze_keeps ..).mono (by decide)
    exact ⟨_, exec_bbxFreeze ha, hkeeps.only, rfl, _, congrArg TallyUnit.fresh (State.modTally_get_tally_self ..), rfl⟩
  · exact ⟨_, exec_unfreeze ha, Only.set_bbx .., rfl⟩

end Sys2Proof.Machine
end

section
/-! Registers that read back (R4, R7, R37), and the JTAG and SMBus interfaces (R357, R398, R399). -/

namespace Sys2Proof.Machine

open Sys2Proof

/-! ### Accesses to the administrators' part of BAR 0 -/

/-- The offsets that only context 0 and the administrator ports reach, from the Weave block to the context table (R318, R361). -/
def AdminOffset (o : Nat) : Prop := 0x80000 ≤ o ∧ o < 0x100000 ∨ 0x120000 ≤ o ∧ o < 0x4000000

theorem areaAt_admin {o : Nat} (ho : AdminOffset o) : areaAt o = .admin := by
  unfold AdminOffset at ho
  unfold areaAt
  simp only [Bool.and_eq_true, decide_eq_true_eq]
  iterate 8 rw [if_neg (by omega)]

theorem mayAccess_admin_read {s : State} {who : Party} (h : mayAccess s who .admin true = true) : mayAccess s who .admin false = true := h

section

variable {who : Party} {s : State} {o n : Nat} (ha : Admitted s who .admin) (hn : sizeOk o n = true) (ho : AdminOffset o)
  (hlast : AdminOffset (o + n - 1))
include ha hn ho hlast

/-- A write of the right size by an admitted party reaches the registers. -/
theorem exec_registerWrite_admin (v : BitVec 64) :
    exec (.registerWrite who o n v) s = .next (if n = 8 then write8 who s o v.toNat else write4 who s o v.toNat) := by
  obtain ⟨hlive, hserved, hmay⟩ := ha
  have hbar : decide (bar4At ≤ o) = false := decide_eq_false (by unfold AdminOffset at ho; unfold bar4At; omega)
  change execRegisterWrite who o n v s = _
  simp only [execRegisterWrite, hlive, hbar, hn, areaAt_admin ho, areaAt_admin hlast, hserved, hmay, Bool.not_true, Bool.or_self,
    Bool.false_eq_true, if_false]

/-- A read of the right size by an admitted party leaves the value on the bus. -/
theorem exec_registerRead_admin :
    exec (.registerRead who o n) s =
      .next { (if n = 8 then read8 s o else read4 s o).2 with bus := w64 (if n = 8 then read8 s o else read4 s o).1 } := by
  obtain ⟨hlive, hserved, hmay⟩ := ha
  have hbar : ¬ bar4At ≤ o := by unfold AdminOffset at ho; unfold bar4At; omega
  have hfw : (decide (who = .fw) && decide (0x10040 ≤ o) && decide (o < 0x10104)) = false := by
    rw [decide_eq_false (p := o < 0x10104) (by unfold AdminOffset at ho; omega), Bool.and_false]
  change execRegisterRead who o n s = _
  simp only [execRegisterRead, hlive, hn, areaAt_admin ho, areaAt_admin hlast, hserved, mayAccess_admin_read hmay, hfw, Bool.not_true,
    Bool.or_self, Bool.false_eq_true, if_false, if_neg hbar]

end

/-- An aligned 8-byte access whose first byte is the administrators' is theirs to its last byte. -/
theorem adminOffset_last {o : Nat} (ho : AdminOffset o) (h8 : o % 8 = 0) : AdminOffset (o + 8 - 1) := by
  unfold AdminOffset at *; omega

/-! ### Registers that read back -/

theorem read8_wide {s : State} {o : Nat} {r : Reg} (hr : regAt o = some r) (hw : r.wide = true) : read8 s o = (r.val s % 2 ^ 64, r.rc s) := by
  unfold read8
  rw [hr]
  simp only [hw, if_true]

theorem read4_narrow {s : State} {o : Nat} {r : Reg} (hr : regAt o = some r) : read4 s o = (bitsOf (r.val s) 0 32, r.rc s) := by
  have hh : regHalf o = some (r, false) := by unfold regHalf; rw [hr]
  unfold read4
  rw [hh]
  rfl

/-- What a read of the word finds where no register is: nothing, and it changes nothing. -/
theorem read8_none {s : State} {o : Nat} (h0 : regAt o = none) (h4 : regAt (o + 4) = none) (ho : o % 8 = 0) : read8 s o = (0, s) := by
  have hh : regHalf (o + 4) = none := by
    unfold regHalf
    rw [h4]
    dsimp only
    rw [if_pos (by omega), Nat.add_sub_cancel, h0]
  unfold read8 read4
  rw [h0, hh]
  rfl

theorem Only.set_bus (s : State) (b : BitVec 64) : Only [.bus] s { s with bus := b } := ((Keeps.refl _ s).set_bus (by decide)).only

/-- WEAVE_SRC and WEAVE_WINDOW, as their registers hold them (R37). -/
def srcReg : Reg :=
  rw64 (fun s => s.weave.src.toNat * 8) (fun v s => { s with weave := { s.weave with src := BitVec.ofNat 61 (v / 8) } })

def windowReg : Reg :=
  rw32 (fun s => s.weave.window.toNat)
    (fun v s => { s with weave := { s.weave with window := BitVec.ofNat 17 (min 100000 (max 100 (bitsOf v 0 17))) } })

theorem regAt_src : regAt 0x80010 = some srcReg := rfl

theorem regAt_window : regAt 0x80018 = some windowReg := rfl

/-- Between the host ports' blocks and the counters no offset has a register. -/
theorem regAt_gap {o : Nat} (hlo : 0x120000 ≤ o) (hhi : o < 0x200000) : regAt o = none := by
  unfold regAt
  iterate 7 rw [if_neg (by omega)]
  rw [if_pos hhi]

/-- Whom a register write in the administrators' part reaches is not a matter of the Weave's registers. -/
theorem Admitted.of_weave {s : State} {who : Party} (w : Weave) (ha : Admitted s who .admin) : Admitted { s with weave := w } who .admin := ha

theorem weaveSrc_readsBack {who : Party} {s : State} (ha : Admitted s who .admin) (v : BitVec 64) :
    ∃ t, exec (.registerWrite who 0x80010 8 v) s = .next t ∧ Only [.weave] s t ∧ t.weave = { s.weave with src := t.weave.src } ∧
      ∃ u, exec (.registerRead who 0x80010 8) t = .next u ∧ Only [.bus] t u ∧ u.bus.toNat = v.toNat / 8 * 8 := by
  have ho : AdminOffset 0x80010 := by unfold AdminOffset; omega
  have hlast := adminOffset_last ho rfl
  have hput : write8 who s 0x80010 v.toNat = srcReg.put who true true v.toNat s := write8_wide regAt_src rfl v
  refine ⟨srcReg.put who true true v.toNat s, ?_, Only.set_weave .., rfl, _,
    exec_registerRead_admin (Admitted.of_weave _ ha) rfl ho hlast, ?_⟩
  · rw [exec_registerWrite_admin ha rfl ho hlast, if_pos rfl, hput]
  · rw [if_pos rfl, read8_wide regAt_src rfl]
    refine ⟨Only.set_bus .., ?_⟩
    have hv := v.isLt
    simp only [srcReg, rw64, w64, BitVec.toNat_ofNat]
    omega

theorem weaveWindow_readsBack {who : Party} {s : State} (ha : Admitted s who .admin) (v : BitVec 64) :
    ∃ t, exec (.registerWrite who 0x80018 4 v) s = .next t ∧ Only [.weave] s t ∧ t.weave = { s.weave with window := t.weave.window } ∧
      ∃ u, exec (.registerRead who 0x80018 4) t = .next u ∧ Only [.bus] t u ∧ u.bus.toNat = min 100000 (max 100 (v.toNat % 2 ^ 17)) := by
  have ho : AdminOffset 0x80018 := by unfold AdminOffset; omega
  have hlast : AdminOffset (0x80018 + 4 - 1) := by unfold AdminOffset; omega
  have hput : write4 who s 0x80018 v.toNat = windowReg.put who true false (v.toNat % 2 ^ 32) s := write4_narrow regAt_window rfl v.toNat
  refine ⟨windowReg.put who true false (v.toNat % 2 ^ 32) s, ?_, Only.set_weave .., rfl, _,
    exec_registerRead_admin (Admitted.of_weave _ ha) rfl ho hlast, ?_⟩
  · rw [exec_registerWrite_admin ha rfl ho hlast, if_neg (by decide), hput]
  · rw [if_neg (by decide), read4_narrow regAt_window]
    refine ⟨Only.set_bus .., ?_⟩
    simp only [windowReg, rw32, w64, bitsOf, BitVec.toNat_ofNat]
    omega

theorem gap_readsZero {who : Party} {o : Nat} {s : State} (ha : Admitted s who .admin) (hlo : 0x120000 ≤ o) (hhi : o < 0x200000) (h8 : o % 8 = 0)
    (v : BitVec 64) :
    exec (.registerWrite who o 8 v) s = .next s ∧ ∃ u, exec (.registerRead who o 8) s = .next u ∧ Only [.bus] s u ∧ u.bus = 0 := by
  have ho : AdminOffset o := by unfold AdminOffset; omega
  have hn : sizeOk o 8 = true := sizeOk_iff.mpr ⟨.inr rfl, h8⟩
  have hlast := adminOffset_last ho h8
  have h0 := regAt_gap hlo hhi
  have h4 := regAt_gap (o := o + 4) (by omega) (by omega)
  have hword : WordIgnores who s o := by
    rintro r (hr | hr)
    · rw [h0] at hr; cases hr
    · rw [h4] at hr; cases hr
  refine ⟨?_, _, exec_registerRead_admin ha hn ho hlast, ?_⟩
  · rw [exec_registerWrite_admin ha hn ho hlast, if_pos rfl, write8_of_wordIgnores h8 hword]
  · rw [if_pos rfl, read8_none h0 h4 h8]
    exact ⟨Only.set_bus .., rfl⟩

/-! ### JTAG -/


theorem exec_jtagInstruction_idle {ir : Nat} {s : State} (h1 : ir ≠ 1) (h : ir < 3 ∨ s.sec.openD = false) :
    exec (.jtagInstruction ir) s = .next { s with hub2 := { s.hub2 with jtagIr := ir } } := by
  have hidle : (decide (ir < 3) || !s.sec.openD) = true := by simpa using h
  exact (if_neg h1).trans (if_pos hidle)

theorem exec_jtagInstruction_debug {ir : Nat} {s : State} (h3 : 3 ≤ ir) (h : s.sec.openD = true) :
    exec (.jtagInstruction ir) s = .fault .debugTransport := by
  have hacts : ¬ (decide (ir < 3) || !s.sec.openD) = true := by simp [h, h3]
  exact (if_neg (by omega)).trans (if_neg hacts)

/-- Settles O41: the registers named read back, and each side interface does what its command's definition says. -/
theorem registersAndSideInterfaces : Obligations.RegistersAndSideInterfaces := by
  refine ⟨⟨fun who v s ha => weaveSrc_readsBack ha v, fun who v s ha => weaveWindow_readsBack ha v,
    fun who o v s ha hlo hhi h8 => gap_readsZero ha hlo hhi h8 v⟩, ⟨fun s => ?_, fun ir s h1 h => ?_, fun s => ?_, fun ir s h3 h => ?_⟩,
    fun code s => ⟨?_, ?_, ?_⟩⟩
  · have hkeeps := execJtagInstruction_keeps 1 s _ rfl
    exact ⟨_, rfl, (hkeeps.mono (by decide)).only, rfl, rfl⟩
  · exact ⟨_, exec_jtagInstruction_idle h1 h, Only.set_hub2 .., rfl⟩
  · exact ⟨_, rfl, Only.set_hub2 .., rfl⟩
  · exact exec_jtagInstruction_debug h3 h
  · exact ⟨_, rfl, ((execReadWord_keeps code s).keeps rfl |>.mono (by decide)).only, rfl, rfl⟩
  · exact ⟨_, rfl, Only.set_hub2 .., rfl⟩
  · exact ⟨_, rfl, Only.set_hub2 .., rfl⟩

end Sys2Proof.Machine
end

section
/-! What a memory port does of its own: pin moves, scrubbing, initialisation and the retirement of a frame (R192, R198, R199, R203), and that no
move between the tiers changes a byte of memory (R193 to R196). -/

namespace Sys2Proof.Machine

open Sys2Proof

/-! ### No move changes a byte -/

theorem hintDone_scratch (s : State) (h : Hint) (k : Nat) (f : Option MemFault) (n : Nat) :
    ((hintDone s h k f).core n).scratch = (s.core n).scratch := by
  obtain ⟨l, hl, -⟩ := hintDone_core s h k f n
  rw [hl]

/-- A hint's moves and its end leave every scratchpad. -/
theorem hinted_scratch {f : State × Nat → Nat → State × Nat} (hf : ∀ x g, Keeps [.uniBad, .mports, .tiers, .tallies] x.1 (f x g).1)
    (l : List Nat) (s : State) (h : Hint) (n : Nat) :
    ((hintDone (l.foldl f (s, 0)).1 h (l.foldl f (s, 0)).2 none).core n).scratch = (s.core n).scratch := by
  have hfold : ∀ x : State × Nat, Keeps [.uniBad, .mports, .tiers, .tallies] x.1 (l.foldl f x).1 := fun x => by
    induction l generalizing x with
    | nil => exact Keeps.refl _ _
    | cons g l ih => exact (hf x g).trans (ih _)
  rw [hintDone_scratch, (hfold (s, 0)).core (by decide)]

theorem exec_moveIn_scratch {s t : State} (h : exec .moveIn s = .next t) (n : Nat) : (t.core n).scratch = (s.core n).scratch := by
  change execMoveIn s = .next t at h
  unfold execMoveIn at h
  split at h <;> cases h
  · exact hinted_scratch (moveInTile_keeps _) ..
  · rfl

theorem exec_moveOut_scratch {s t : State} (h : exec .moveOut s = .next t) (n : Nat) : (t.core n).scratch = (s.core n).scratch := by
  change execMoveOut s = .next t at h
  unfold execMoveOut at h
  split at h <;> cases h
  · exact hinted_scratch moveOutTile_keeps ..
  · rfl

/-- A command that gives a next state within these parts, and leaves the scratchpads, changes no byte of memory. -/
theorem bytes_stand {l : List Field} {c : Instr} {s : State} (h : Gives l s (exec c s))
    (hl : ∀ f ∈ l, f ∈ [Field.tiers, .mports, .uniBad, .tallies, .nvmFrames, .cores])
    (hs : ∀ t, exec c s = .next t → Keeps l s t → ∀ n, (t.core n).scratch = (s.core n).scratch) :
    ∃ t, exec c s = .next t ∧ Only [.tiers, .mports, .uniBad, .tallies, .nvmFrames, .cores] s t ∧ t.uni = s.uni ∧ t.host = s.host ∧
      ∀ n, (t.core n).scratch = (s.core n).scratch := by
  obtain ⟨t, ht, hk⟩ := h
  have honly := (hk.mono hl).only
  exact ⟨t, ht, honly, honly.2 .uni (by decide), honly.2 .host (by decide), hs t ht hk⟩

/-- So does a command that does not touch the cores at all. -/
theorem bytes_stand_of_cores {l : List Field} {c : Instr} {s : State} (h : Gives l s (exec c s))
    (hl : ∀ f ∈ l, f ∈ [Field.tiers, .mports, .uniBad, .tallies, .nvmFrames, .cores]) (hc : Field.cores ∉ l) :
    ∃ t, exec c s = .next t ∧ Only [.tiers, .mports, .uniBad, .tallies, .nvmFrames, .cores] s t ∧ t.uni = s.uni ∧ t.host = s.host ∧
      ∀ n, (t.core n).scratch = (s.core n).scratch :=
  bytes_stand h hl (fun _ _ hk n => by rw [hk.core hc])

/-- Settles O42: the parts that each command acts on leave memory out, and a hint's end touches its command's record only. -/
theorem movesKeepContents : Obligations.MovesKeepContents := by
  rintro s c (⟨g, d, rfl⟩ | ⟨g, d, rfl⟩ | ⟨h, rfl⟩ | rfl | rfl | ⟨m, rfl⟩ | ⟨m, rfl⟩ | ⟨k, rfl⟩ | ⟨m, rfl⟩)
  · exact bytes_stand_of_cores (execPromotion_keeps g d s) (by decide) (by decide)
  · exact bytes_stand_of_cores (execTileMove_keeps g d s) (by decide) (by decide)
  · exact bytes_stand_of_cores (execMoveEnd_keeps h s) (by decide) (by decide)
  · exact bytes_stand (execMoveIn_keeps s) (by decide) (fun _ ht _ => exec_moveIn_scratch ht)
  · exact bytes_stand (execMoveOut_keeps s) (by decide) (fun _ ht _ => exec_moveOut_scratch ht)
  · exact bytes_stand_of_cores (execPinMove_keeps m s) (by decide) (by decide)
  · exact bytes_stand_of_cores (execScrubRead_keeps m s) (by decide) (by decide)
  · exact bytes_stand_of_cores (execRetirementCopy_keeps k s) (by decide) (by decide)
  · exact bytes_stand_of_cores (execRangeInitEnd_keeps m s) (by decide) (by decide)

/-! ### Pin moves (R192) -/

theorem exec_pinMove_in_place {m x : Nat} {rest : List Nat} {s : State} (hq : (s.mport m).pinq = x :: rest) (hx : outOfPlace s x = false) :
    exec (.pinMove m) s = .next (s.modMport m (fun p => { p with pinq := rest })) := by
  change execPinMove m s = _
  unfold execPinMove
  rw [hq]
  dsimp only
  rw [if_pos (by simp [hx])]

/-- The move that the port makes of a tile out of place, and whether it was made. -/
def pinMoved (s : State) (x : Nat) : State × Bool :=
  if chanLost s x || chanFenced s (chanOf s (classOf s x)) then (s, false)
  else if tilePolicy s x = 1 then (match pinSlice s x with | some d => moveNow s x d | none => (s, false))
  else moveOutNow s x

theorem exec_pinMove_out_of_place {m x : Nat} {rest : List Nat} {s : State} (hq : (s.mport m).pinq = x :: rest) (hx : outOfPlace s x = true) :
    exec (.pinMove m) s =
      .next ((pinMoved s x).1.modMport m (fun p => { p with pinq := if (pinMoved s x).2 then rest else rest ++ [x] })) := by
  change execPinMove m s = _
  unfold execPinMove
  rw [hq]
  dsimp only
  rw [if_neg (by simp [hx])]
  rfl

theorem pinMoved_stuck {s : State} {x : Nat} (h : chanLost s x = true ∨ chanFenced s (chanOf s (classOf s x)) = true) :
    pinMoved s x = (s, false) := if_pos (by simpa using h)

theorem pinMove_runs {m x : Nat} {rest : List Nat} {s : State} (hq : (s.mport m).pinq = x :: rest) :
    ∃ t, exec (.pinMove m) s = .next t ∧ Only [.tiers, .mports, .uniBad, .tallies] s t ∧ ((t.mport m).pinq = rest ∨ (t.mport m).pinq = rest ++ [x]) ∧
      (outOfPlace s x = false → (t.mport m).pinq = rest ∧ t.tiers = s.tiers) ∧
      (outOfPlace s x = true → chanLost s x = true ∨ chanFenced s (chanOf s (classOf s x)) = true → (t.mport m).pinq = rest ++ [x] ∧ t.tiers = s.tiers) := by
  obtain ⟨t, ht, hk⟩ := execPinMove_keeps m s
  change exec (.pinMove m) s = .next t at ht
  refine ⟨t, ht, (hk.mono (by decide)).only, ?_⟩
  by_cases hx : outOfPlace s x = true
  · rw [exec_pinMove_out_of_place hq hx] at ht
    cases ht
    rw [State.modMport_get_mport_self]
    refine ⟨?_, fun h => absurd hx (by simp [h]), fun _ hstuck => ?_⟩
    · dsimp only
      split
      · exact .inl rfl
      · exact .inr rfl
    · rw [pinMoved_stuck hstuck]
      exact ⟨rfl, rfl⟩
  · rw [exec_pinMove_in_place hq (by simpa using hx)] at ht
    cases ht
    rw [State.modMport_get_mport_self]
    exact ⟨.inl rfl, fun _ => ⟨rfl, rfl⟩, fun h => absurd h hx⟩

/-! ### Scrubbing (R198) -/

theorem scrubFrame_moved (s : State) (k : Nat) (f : TFrame) : Moved s (scrubFrame s k f) := by
  unfold scrubFrame
  split
  · exact Moved.refl s
  · dsimp only
    split
    · exact (readErrors_moved ..).trans (startRetire_only ..).moved
    · exact readErrors_moved ..

/-- One frame of each channel is counted and visited. -/
def scrubLp (m i : Nat) (s : State) : State :=
  (classesOf s m).foldl (fun s k => scrubFrame (s.modMport m (fun x => { x with ctr := ctrAdd x.ctr 0x048 4096 })) k (.lp i)) s

/-- After every 64 of them, one SRAM frame of each class of the port (of `ks`) is visited. -/
def scrubSram (ks : List Nat) (i : Nat) (s : State) : State :=
  if i % 64 ≠ 63 then s else
    let j := i / 64
    ks.foldl (fun s k => if framesPer s = 0 then s else scrubFrame s k (.sram (j / framesPer s % 8) (j % framesPer s))) s

theorem scrubLp_moved (m i : Nat) (s : State) : Moved s (scrubLp m i s) := by
  unfold scrubLp
  refine Moved.foldl (fun s k => ?_) _ s
  refine Moved.trans ?_ (scrubFrame_moved ..)
  exact Moved.modMport (fun _ => rfl)

theorem scrubSram_moved (ks : List Nat) (i : Nat) (s : State) : Moved s (scrubSram ks i s) := by
  unfold scrubSram
  split_ifs
  · exact Moved.refl s
  · refine Moved.foldl (fun s k => ?_) _ s
    split_ifs
    · exact Moved.refl s
    · exact scrubFrame_moved ..

/-- What a scrub's position becomes when its visit ends. -/
def scrubbed (i us : Nat) (x : MPort) : MPort :=
  { x with scrubAt := (i + 1) % lpFrames, scrubUs := us, passes := if i + 1 = lpFrames then stick x.passes 1 else x.passes }

theorem exec_scrubRead_due {m : Nat} {s : State} (h0 : (s.mport m).interval ≠ 0) (hinit : (s.mport m).init = true)
    (hdue : (s.mport m).scrubUs + (s.mport m).interval.toNat ≤ usOf s) :
    exec (.scrubRead m) s =
      .next ((scrubSram (classesOf s m) (s.mport m).scrubAt (scrubLp m (s.mport m).scrubAt s)).modMport m
        (scrubbed (s.mport m).scrubAt (usOf (scrubSram (classesOf s m) (s.mport m).scrubAt (scrubLp m (s.mport m).scrubAt s))))) := by
  change execScrubRead m s = _
  unfold execScrubRead
  dsimp only
  have hinterval : ¬ decide ((s.mport m).interval = 0) = true := by simpa using h0
  exact if_neg (by simp only [hinit, Bool.or_eq_true, hinterval, Bool.not_true, decide_eq_true_eq, Bool.false_eq_true, false_or]; omega)

theorem scrubRead_runs {m : Nat} {s : State} (h0 : (s.mport m).interval ≠ 0) (hinit : (s.mport m).init = true)
    (hdue : (s.mport m).scrubUs + (s.mport m).interval.toNat ≤ usOf s) :
    ∃ t, exec (.scrubRead m) s = .next t ∧ Only [.tiers, .mports, .uniBad, .tallies] s t ∧
      (t.mport m).scrubAt = ((s.mport m).scrubAt + 1) % lpFrames ∧ (t.mport m).scrubUs = usOf s ∧ ∀ w, uniCheck s w = 0 → uniCheck t w = 0 := by
  have hexec := exec_scrubRead_due h0 hinit hdue
  have hkeeps := Gives.keeps (o := execScrubRead m s) (execScrubRead_keeps m s) hexec
  have hmoved := (scrubLp_moved m (s.mport m).scrubAt s).trans (scrubSram_moved (classesOf s m) (s.mport m).scrubAt _)
  have htime := hkeeps.only.2 .time (by decide)
  refine ⟨_, hexec, (hkeeps.mono (by decide)).only, ?_, ?_, fun w hw => hmoved.good w hw⟩
  · rw [State.modMport_get_mport_self]; rfl
  · rw [State.modMport_get_mport_self]
    exact congrArg (fun t : BitVec 64 => t.toNat / 1000) htime

/-! ### Initialisation (R203) -/

theorem rangeInitEnd_runs {m : Nat} {s : State} (hrun : s.hub.phase = .running) (hweave : s.weave.loaded = true) (hinit : (s.mport m).init = false) :
    ∃ t, exec (.rangeInitEnd m) s = .next t ∧ Only [.mports] s t ∧ (t.mport m).init = true ∧ (t.mport m).kept = false ∧
      ∀ q, q ≠ m → t.mport q = s.mport q := by
  have hexec : exec (.rangeInitEnd m) s = .next (s.modMport m (fun x =>
      { x with init := true, kept := false, ctr := ctrAdd x.ctr 0x050 (4096 * lpFrames * (classesOf s m).length) })) :=
    if_neg (by simp [hrun, hweave, hinit])
  refine ⟨_, hexec, (State.modMport_keeps ..).only, ?_, ?_, fun q hq => State.modMport_get_mport_ne _ _ _ q hq⟩
  · rw [State.modMport_get_mport_self]
  · rw [State.modMport_get_mport_self]

/-! ### Retirement of a frame (R199) -/

/-- From `s` to `t` no frame has gone out of service. -/
structure FramesStand (s t : State) : Prop where
  lost : t.tiers.topRetired = s.tiers.topRetired
  outCh : t.tiers.outCh = s.tiers.outCh
  nvm : t.nvmFrames = s.nvmFrames

theorem FramesStand.trans {s t u : State} (h : FramesStand s t) (k : FramesStand t u) : FramesStand s u :=
  ⟨k.lost.trans h.lost, k.outCh.trans h.outCh, k.nvm.trans h.nvm⟩

theorem Moved.framesStand {l : List Field} {s t : State} (h : Moved s t) (k : Keeps l s t) (hl : Field.nvmFrames ∉ l) : FramesStand s t :=
  ⟨h.lost, h.outCh, k.only.2 .nvmFrames hl⟩

theorem FramesStand.nvmName {s t : State} (h : FramesStand s t) (k : Nat) (f : TFrame) : nvmName t k f = nvmName s k f := by
  cases f <;> simp only [Machine.nvmName, chanOf, chansIn, framesPer, nChan, h.outCh]

theorem FramesStand.framesLost {s t : State} (h : FramesStand s t) (k : Nat) : framesLost t k = framesLost s k :=
  congrArg (fun x => tget dN x k) h.lost

theorem FramesStand.modMport (s : State) (m : Nat) (f : MPort → MPort) : FramesStand s (s.modMport m f) := ⟨rfl, rfl, rfl⟩

theorem FramesStand.setFrame (s : State) (t : Nat) (f : TFrame) : FramesStand s (Machine.setFrame s t f) := ⟨rfl, rfl, rfl⟩

theorem dropBad_framesStand (s : State) (t : Nat) : FramesStand s (dropBad s t) := ⟨rfl, rfl, rfl⟩

/-- What the port counts of the copy of a retiring frame. -/
def countCopied (s : State) (m : Nat) (from' ft : TFrame) : State :=
  (countMoveBytes s m from' ft).modMport m (fun x =>
    { x with ctr := ctrAddField (ctrAddField x.ctr 0x038 0 32 (b2n (isSram ft))) 0x038 32 32 (b2n (isSram from' && !isSram ft)) })

/-- The retiring frame's tile, where it is not the class's highest, is copied into the highest tile's frame. -/
def copyTile (s : State) (k m t : Nat) (from' ft : TFrame) : State :=
  match tileIn s k from' with
  | none => s
  | some z =>
    if z = t then s
    else
      let s := setFrame (countCopied s m from' ft) z ft
      if outOfPlace s z then s.modMport m (fun x => { x with pinq := x.pinq ++ [z] }) else s

theorem countCopied_framesStand (s : State) (m : Nat) (from' ft : TFrame) : FramesStand s (countCopied s m from' ft) := by
  unfold countCopied countMoveBytes
  exact (FramesStand.modMport ..).trans (FramesStand.modMport ..)

theorem copyTile_framesStand (s : State) (k m t : Nat) (from' ft : TFrame) : FramesStand s (copyTile s k m t from' ft) := by
  unfold copyTile
  split
  · exact ⟨rfl, rfl, rfl⟩
  · next z _ =>
    have hset := (countCopied_framesStand s m from' ft).trans (FramesStand.setFrame _ z ft)
    dsimp only
    split_ifs
    · exact ⟨rfl, rfl, rfl⟩
    · exact hset.trans (FramesStand.modMport ..)
    · exact hset

/-- The state from which a frame goes out of service, the open move of its channel ended: its tile is copied, and the class's highest tile is
back at its place. -/
def beforeRetired (s : State) (k m t : Nat) (f : TFrame) : State :=
  let s := copyTile s k m t f (frameOf s t)
  setFrame (dropBad s t) t (homeFrame s t)

theorem beforeRetired_framesStand (s : State) (k m t : Nat) (f : TFrame) : FramesStand s (beforeRetired s k m t f) := by
  have hcopy := copyTile_framesStand s k m t f (frameOf s t)
  unfold beforeRetired
  dsimp only
  exact (hcopy.trans (dropBad_framesStand ..)).trans (FramesStand.setFrame ..)

/-- The frame leaves service: it is listed in the NVM die, and the class has one backed tile fewer. -/
def frameRetired (s : State) (k t : Nat) (r : Retiring) : State :=
  { s with
    nvmFrames := s.nvmFrames ++ [nvmName s k r.frame]
    tiers := { s.tiers with topRetired := tset dN s.tiers.topRetired k (framesLost s k + 1), retiring := s.tiers.retiring.erase r,
                            released := s.tiers.released.filter (· != t), written := s.tiers.written.filter (· != t) } }

theorem exec_retirementCopy_freed {k : Nat} {r : Retiring} {s : State} (hr : s.tiers.retiring.find? (fun r => r.cls == k) = some r)
    (htop : topFreed s k = true) (hch : chanFenced s (chanOf s k) = false) :
    exec (.retirementCopy k) s =
      .next (noteWaiting (post (frameRetired (beforeRetired (endMove s (chanOf s k)) k (chanOf s k / 16) (topTile (endMove s (chanOf s k)) k) r.frame) k
        (topTile (endMove s (chanOf s k)) k) r) (uMport (chanOf s k / 16)) 0 0x081 0) k) := by
  change execRetirementCopy k s = _
  unfold execRetirementCopy
  rw [hr]
  dsimp only
  rw [if_neg (by simp [htop, hch])]
  generalize endMove s (chanOf s k) = u
  rfl

theorem noteWaiting_topRetired (s : State) (k : Nat) : (noteWaiting s k).tiers.topRetired = s.tiers.topRetired := (noteWaiting_only s k).moved.lost

theorem retirementCopy_runs {k : Nat} {r : Retiring} {s : State} (hr : s.tiers.retiring.find? (fun r => r.cls == k) = some r)
    (htop : topFreed s k = true) (hch : chanFenced s (chanOf s k) = false) :
    ∃ t, exec (.retirementCopy k) s = .next t ∧ Only [.tiers, .nvmFrames, .mports, .uniBad, .tallies] s t ∧
      t.nvmFrames = s.nvmFrames ++ [nvmName s k r.frame] ∧ framesLost t k = framesLost s k + 1 ∧ ∀ j, j ≠ k → framesLost t j = framesLost s j := by
  have hexec := exec_retirementCopy_freed hr htop hch
  have hstand := ((endMove_moved s (chanOf s k)).framesStand (endMove_keeps ..) (by decide)).trans
    (beforeRetired_framesStand (endMove s (chanOf s k)) k (chanOf s k / 16) (topTile (endMove s (chanOf s k)) k) r.frame)
  generalize beforeRetired (endMove s (chanOf s k)) k (chanOf s k / 16) (topTile (endMove s (chanOf s k)) k) r.frame = u at hexec hstand
  generalize topTile (endMove s (chanOf s k)) k = t at hexec
  have hkeeps := Gives.keeps (o := execRetirementCopy k s) (execRetirementCopy_keeps k s) hexec
  have hlost (j : Nat) : framesLost (noteWaiting (post (frameRetired u k t r) (uMport (chanOf s k / 16)) 0 0x081 0) k) j =
      tget dN (tset dN u.tiers.topRetired k (framesLost u k + 1)) j := by
    unfold framesLost
    rw [noteWaiting_topRetired]
    rfl
  refine ⟨_, hexec, (hkeeps.mono (by decide)).only, ?_, ?_, fun j hj => ?_⟩
  · rw [(noteWaiting_keeps ..).only.2 .nvmFrames (by decide)]
    change u.nvmFrames ++ [nvmName u k r.frame] = _
    rw [hstand.nvm, hstand.nvmName]
  · rw [hlost, tget_tset_self, hstand.framesLost]
  · rw [hlost, tget_tset_ne _ _ _ _ _ hj]
    exact hstand.framesLost j

/-- Settles O44: each of the port's own operations, from the state in which it has work to do. -/
theorem portWork : Obligations.PortWork :=
  ⟨⟨fun _ _ _ _ _ hq => pinMove_runs hq, fun _ _ _ h0 hinit hdue => scrubRead_runs h0 hinit hdue,
    fun _ _ _ hrun hweave hinit => rangeInitEnd_runs hrun hweave hinit⟩, fun _ _ _ _ hr htop hch => retirementCopy_runs hr htop hch⟩

end Sys2Proof.Machine
end

section
/-! The calibration of a laser die and of the ports it feeds (R240, R241, R244). -/

namespace Sys2Proof.Machine

open Sys2Proof

/-! ### A laser die -/

/-- A port that is off, TRIPPED or calibrating is not told to calibrate. -/
theorem startCal_stays {s : State} {p : Nat} (r : Nat) (h : opMode s p = 0 ∨ (s.oport p).state = 3 ∨ (s.oport p).state = 4) : startCal s p r = s := by
  unfold startCal
  exact if_pos (by simpa [or_assoc] using h)

/-- Where no port of a list runs, none is told to calibrate. -/
theorem startCals_stay {l : List Nat} {s : State} (r : Nat) (h : ∀ p ∈ l, opMode s p = 0 ∨ (s.oport p).state = 3 ∨ (s.oport p).state = 4) :
    l.foldl (fun s p => startCal s p r) s = s := by
  induction l with
  | nil => rfl
  | cons p l ih => rw [List.foldl_cons, startCal_stays r (h p List.mem_cons_self), ih fun x hx => h x (List.mem_cons_of_mem _ hx)]

theorem settleLaser_done {s : State} {q : Nat} (hcal : (s.laser q).calibrating = true) (hall : ∀ p, p / 8 = q → calDone s p = true) :
    settleLaser s q = s.modLaser q (fun l => { l with calibrating := false, recals := stick l.recals 1 }) :=
  if_pos (by rw [hcal, Bool.true_and, List.all_eq_true]; exact fun p hp => hall p ((mem_fedPorts q p).mp hp))

theorem settleLaser_waits {s : State} {p : Nat} (h : (s.oport p).state = 1 ∨ (s.oport p).state = 3) : settleLaser s (p / 8) = s := by
  refine if_neg fun hdone => ?_
  rw [Bool.and_eq_true, List.all_eq_true] at hdone
  have hp := hdone.2 p ((mem_fedPorts _ p).mpr rfl)
  unfold calDone at hp
  rcases h with h | h <;> simp [h] at hp

/-- A laser die's lines have locked again: which of them, and at what power, is a reading that no rule fixes (log 30). -/
def relocked (s : State) (q : Nat) : State :=
  let (v, s) := freeBelow s (2 ^ 72)
  s.modLaser q (fun l => { l with lock := BitVec.ofNat 8 v, fail := ~~~(BitVec.ofNat 8 v),
                                  power := (List.range 8).map (fun i => BitVec.ofNat 8 (v / 2 ^ (8 + 8 * i))) })

theorem relocked_counts (s : State) (q : Nat) :
    ((relocked s q).laser q).calibrating = (s.laser q).calibrating ∧ ((relocked s q).laser q).recals = (s.laser q).recals := by
  unfold relocked
  dsimp only
  rw [State.modLaser_get_laser_self]
  exact ⟨rfl, rfl⟩

/-- A recalibration for which no port runs is over, and counted, at once. -/
theorem laserCal_atOnce {s : State} {q : Nat} (r : Nat) (hret : laserRetired (retiredOf s.weave.cur.sects) q = false)
    (hcal : (s.laser q).calibrating = false)
    (hports : ∀ p, p / 8 = q → (opMode s p = 0 ∨ (s.oport p).state = 4) ∧ (s.oport p).state ≠ 1 ∧ (s.oport p).state ≠ 3) :
    ((laserCal s q r).laser q).calibrating = false ∧ ((laserCal s q r).laser q).recals = stick (s.laser q).recals 1 := by
  have hfold : (fedPorts q).foldl (fun s p => startCal s p r) (s.modLaser q (fun l => { l with calibrating := true })) =
      s.modLaser q (fun l => { l with calibrating := true }) :=
    startCals_stay r fun p hp => (hports p ((mem_fedPorts q p).mp hp)).1.imp_right .inr
  have hrun : laserCal s q r = settleLaser (relocked (s.modLaser q (fun l => { l with calibrating := true })) q) q := by
    unfold laserCal
    rw [if_neg (by simp [hret, hcal]), hfold]
    rfl
  obtain ⟨hbusy, hcount⟩ := relocked_counts (s.modLaser q (fun l => { l with calibrating := true })) q
  rw [State.modLaser_get_laser_self] at hbusy hcount
  have hdone (p : Nat) (hp : p / 8 = q) : calDone (relocked (s.modLaser q (fun l => { l with calibrating := true })) q) p = true := by
    obtain ⟨-, h1, h3⟩ := hports p hp
    have hs : calDone s p = true := by unfold calDone; simpa using ⟨h3, h1⟩
    exact hs
  rw [hrun, settleLaser_done hbusy hdone, State.modLaser_get_laser_self]
  exact ⟨rfl, congrArg (stick · 1) hcount⟩

/-- A recalibration of a laser die, told by which of its ports run. -/
theorem laserCal_runs {s : State} {q : Nat} (r : Nat) (hret : laserRetired (retiredOf s.weave.cur.sects) q = false)
    (hcal : (s.laser q).calibrating = false) :
    let t := laserCal s q r
    Only [.lasers, .oports, .tallies] s t ∧ (t.laser q).fail = ~~~(t.laser q).lock ∧ (∀ r, r ≠ q → t.laser r = s.laser r) ∧
       (∀ p, p / 8 ≠ q → t.oport p = s.oport p) ∧
       (∀ p, p / 8 = q → opMode s p ≠ 0 → (s.oport p).state ≠ 4 →
         (t.oport p).state = 3 ∧ (t.laser q).calibrating = true ∧ (t.laser q).recals = (s.laser q).recals) ∧
       ((∀ p, p / 8 = q → (opMode s p = 0 ∨ (s.oport p).state = 4) ∧ (s.oport p).state ≠ 1 ∧ (s.oport p).state ≠ 3) →
         (t.laser q).calibrating = false ∧ (t.laser q).recals = stick (s.laser q).recals 1) := by
  intro t
  obtain ⟨hports, hlasers⟩ := laserCal_others s q r
  obtain ⟨hstate, hfail, hbusy⟩ := laserCal_starts s q r hret hcal
  exact ⟨((laserCal_keeps s q r).mono (by decide)).only, hfail, hlasers, hports,
    fun p hp hon htrip => ⟨hstate p hp hon htrip, hbusy p hp hon htrip⟩, laserCal_atOnce r hret hcal⟩

/-- What a laser die is once one of its lines is not locked. -/
def lineLost (s : State) (q line : Nat) : State := s.modLaser q (fun l => { l with lock := l.lock &&& ~~~(BitVec.ofNat 8 (2 ^ line)) })

theorem lineLost_only (s : State) (q line : Nat) : Only [.lasers] s (lineLost s q line) := (State.modLaser_keeps ..).only

theorem lineLost_laser (s : State) (q line : Nat) :
    (lineLost s q line).laser q = { s.laser q with lock := (s.laser q).lock &&& ~~~(BitVec.ofNat 8 (2 ^ line)) } := State.modLaser_get_laser_self ..

theorem lineLost_laser_other {q r : Nat} (s : State) (line : Nat) (h : r ≠ q) : (lineLost s q line).laser r = s.laser r :=
  State.modLaser_get_laser_ne _ _ _ r h

theorem exec_lockLoss {s : State} {q : Nat} (line : Nat) (hret : laserRetired (retiredOf s.weave.cur.sects) q = false) :
    exec (.lockLoss q line) s = .next (laserCal (lineLost s q line) q 1) := if_neg (by simp [hret])

theorem exec_lsRecal {who : Party} {s : State} (q : Nat) (ha : Admitted s who .admin) : exec (.lsRecal who q) s = .next (laserCal s q 0) :=
  congrArg Host.Outcome.next (gated_admitted _ ha)

theorem lockLoss_runs {s : State} {q : Nat} (line : Nat) (hret : laserRetired (retiredOf s.weave.cur.sects) q = false)
    (hcal : (s.laser q).calibrating = false) :
    ∃ t, exec (.lockLoss q line) s = .next t ∧ Only [.lasers, .oports, .tallies] s t ∧ (t.laser q).fail = ~~~(t.laser q).lock ∧
       (∀ r, r ≠ q → t.laser r = s.laser r) ∧ (∀ p, p / 8 ≠ q → t.oport p = s.oport p) ∧
       (∀ p, p / 8 = q → opMode s p ≠ 0 → (s.oport p).state ≠ 4 →
         (t.oport p).state = 3 ∧ (t.laser q).calibrating = true ∧ (t.laser q).recals = (s.laser q).recals) ∧
       ((∀ p, p / 8 = q → (opMode s p = 0 ∨ (s.oport p).state = 4) ∧ (s.oport p).state ≠ 1 ∧ (s.oport p).state ≠ 3) →
         (t.laser q).calibrating = false ∧ (t.laser q).recals = stick (s.laser q).recals 1) := by
  have hrecals : ((lineLost s q line).laser q).recals = (s.laser q).recals := by rw [lineLost_laser]
  obtain ⟨honly, hfail, hlasers, hports, hrun, hdone⟩ :=
    laserCal_runs (s := lineLost s q line) (q := q) 1 hret ((congrArg Laser.calibrating (lineLost_laser s q line)).trans hcal)
  rw [hrecals] at hrun hdone
  exact ⟨_, exec_lockLoss line hret, ((lineLost_only s q line).mono (by decide)).trans honly, hfail,
    fun r hr => (hlasers r hr).trans (lineLost_laser_other s line hr), hports, hrun, hdone⟩

/-- A lock lost while the die calibrates clears its line's bit. -/
theorem lockLoss_calibrating {s : State} {q : Nat} (line : Nat) (hret : laserRetired (retiredOf s.weave.cur.sects) q = false)
    (hcal : (s.laser q).calibrating = true) : exec (.lockLoss q line) s = .next (lineLost s q line) := by
  have hbusy : ((lineLost s q line).laser q).calibrating = true := (congrArg Laser.calibrating (lineLost_laser s q line)).trans hcal
  rw [exec_lockLoss line hret]
  exact congrArg Host.Outcome.next (if_pos (by rw [hbusy, Bool.or_true]))

/-! ### A port -/

/-- A port that runs goes into calibration, with its reason in its ring. -/
theorem startCal_enters {s : State} {p r : Nat} (hr : r < 2 ^ 46) (hon : opMode s p ≠ 0) (hcal : (s.oport p).state ≠ 3) (htrip : (s.oport p).state ≠ 4) :
    let t := startCal s p r
    Only [.oports, .tallies] s t ∧ t.oport p = { s.oport p with state := 3, calSince := s.time } ∧
      (∀ q, q ≠ p → t.oport q = s.oport q) ∧
      ∃ x, (t.tally (uOport p)).fresh = (s.tally (uOport p)).fresh ++ [x] ∧ x.code = 0x095 ∧ x.payload.toNat = r := by
  intro t
  have ht : t = post (s.modOport p (fun o => { o with state := 3, calSince := s.time })) (uOport p) 0 0x095 r := startCal_runs s p r hon hcal htrip
  refine ⟨(startCal_keeps s p r).only, ?_, fun q hq => startCal_others s p r q hq, ?_⟩
  · rw [ht, post_oport, State.modOport_get_oport_self]
  · rw [ht]
    exact post_tally_self _ _ 0 0x095 hr

/-- Each of the three causes tells the port to calibrate, with its reason. -/
theorem exec_calibration_cause {who : Party} {p reason : Nat} {cmd : Instr} {s : State} (ha : Admitted s who .admin)
    (hc : cmd = .recal who p ∧ reason = 0 ∨ cmd = .trackingError p ∧ reason = 1 ∨ cmd = .errorRatioTrigger p ∧ reason = 2) :
    exec cmd s = .next (startCal s p reason) ∧ reason < 2 ^ 46 := by
  obtain ⟨rfl, rfl⟩ | ⟨rfl, rfl⟩ | ⟨rfl, rfl⟩ := hc
  · exact ⟨congrArg Host.Outcome.next (gated_admitted _ ha), by decide⟩
  · exact ⟨rfl, by decide⟩
  · exact ⟨rfl, by decide⟩

/-- With every frame acknowledged a port that calibrates goes on to training, lit. -/
theorem calibrationSweep_runs {p : Nat} {s : State} (hcal : (s.oport p).state = 3) (hack : (s.oport p).unacked = []) (htrain : portTrains s p = true)
    (hidle : ∀ e, (s.ce e).inflight = []) :
    ∃ t, exec (.calibrationSweep p) s = .next t ∧ Only [.oports] s t ∧ (t.oport p).state = 1 ∧ (t.oport p).dark = false ∧
       (t.oport p).txSeq = (s.oport p).txSeq ∧ (t.oport p).rxSeq = (s.oport p).rxSeq ∧ (t.oport p).rxq = (s.oport p).rxq ∧
       ∀ q, q ≠ p → t.oport q = s.oport q := by
  have hd := State.modOport_keeps s p (fun o => { o with dark := true })
  have hdark : (s.modOport p (fun o => { o with dark := true })).oport p = { s.oport p with dark := true } := State.modOport_get_oport_self ..
  have hothers (q : Nat) (hq : q ≠ p) : (s.modOport p (fun o => { o with dark := true })).oport q = s.oport q := State.modOport_get_oport_ne _ _ _ q hq
  have hexec : exec (.calibrationSweep p) s =
      .next (settleLaser (settleColls (startTraining (s.modOport p (fun o => { o with dark := true })) p)) (p / 8)) :=
    if_neg (by simp [hcal, hack])
  have hu : portTrains (s.modOport p (fun o => { o with dark := true })) p = true := htrain
  generalize s.modOport p (fun o => { o with dark := true }) = u at hexec hd hdark hothers hu
  obtain ⟨⟨rx, tx, la, adv, hport⟩, hother, hkeeps⟩ := startTraining_trains u p hu
  have hcolls : settleColls (startTraining u p) = startTraining u p := settleColls_idle _ fun e => by
    rw [hkeeps.ce (by decide), hd.ce (by decide)]
    exact hidle e
  have hlaser : settleLaser (startTraining u p) (p / 8) = startTraining u p := settleLaser_waits (.inl (by rw [hport]))
  rw [hcolls, hlaser] at hexec
  rw [hdark] at hport
  exact ⟨_, hexec, (hd.trans hkeeps).only, by rw [hport], by rw [hport], by rw [hport], by rw [hport], by rw [hport],
    fun q hq => (hother q hq).trans (hothers q hq)⟩

/-- Settles O46: the recalibration of a laser die, from either cause, and the calibration of a port. -/
theorem calibration : Obligations.Calibration := by
  refine ⟨⟨?_, fun q line s _ _ hret hcal => ?_⟩, ?_, fun p s _ hcal hack htrain hidle => calibrationSweep_runs hcal hack htrain hidle⟩
  · rintro cmd q s - (⟨who, ha, rfl⟩ | ⟨line, -, rfl⟩) hret hcal
    · exact ⟨_, exec_lsRecal q ha, laserCal_runs 0 hret hcal⟩
    · exact lockLoss_runs line hret hcal
  · exact ⟨_, lockLoss_calibrating line hret hcal, lineLost_only .., lineLost_laser .., fun r hr => lineLost_laser_other s line hr⟩
  · intro who p reason cmd s _ ha hc hon hcal htrip
    obtain ⟨hexec, hreason⟩ := exec_calibration_cause ha hc
    exact ⟨_, hexec, startCal_enters hreason hon hcal htrip⟩

end Sys2Proof.Machine
end

section
/-! Frames of the fabric: what is received, what is acknowledged, and what is sent again (R227, R230, R231). -/

namespace Sys2Proof.Machine

open Sys2Proof

/-! ### What an acknowledgement leaves of a port -/

/-- A port after a frame in sequence: the sequence advances, nothing is owed, the FEC's corrections and the frame count, and what the frame
acknowledges is no longer kept. -/
def OPort.accepts (f : Frame) (o : OPort) : OPort :=
  ackFrames { o with rxSeq := o.rxSeq + 1, nakOwed := false, ctr := ctrAdd (ctrAdd o.ctr 0x028 f.fec) 0x018 1 } f.ackseq

theorem ackFrames_credit (o : OPort) (n : BitVec 12) : (ackFrames o n).credit = o.credit := by unfold ackFrames; split <;> rfl

theorem OPort.accepts_seq (f : Frame) (o : OPort) : (o.accepts f).rxSeq = o.rxSeq + 1 ∧ (o.accepts f).nakOwed = false := by
  obtain ⟨hseq, hnak, -⟩ := ackFrames_same { o with rxSeq := o.rxSeq + 1, nakOwed := false, ctr := ctrAdd (ctrAdd o.ctr 0x028 f.fec) 0x018 1 } f.ackseq
  exact ⟨hseq, hnak⟩

theorem OPort.accepts_stay (f : Frame) (o : OPort) :
    (o.accepts f).rxq = o.rxq ∧ (o.accepts f).e2eCorr = o.e2eCorr ∧ (o.accepts f).held = o.held ∧ (o.accepts f).credit = o.credit := by
  obtain ⟨-, -, hrxq, hcorr, hheld, -⟩ :=
    ackFrames_same { o with rxSeq := o.rxSeq + 1, nakOwed := false, ctr := ctrAdd (ctrAdd o.ctr 0x028 f.fec) 0x018 1 } f.ackseq
  exact ⟨hrxq, hcorr, hheld, ackFrames_credit ..⟩

/-- What is kept for sending again does not depend on the sequence received. -/
theorem OPort.accepts_unacked (f : Frame) (o : OPort) : (o.accepts f).unacked = (ackFrames o f.ackseq).unacked := by
  unfold OPort.accepts ackFrames
  dsimp only
  split <;> rfl

/-! ### A frame in sequence -/

/-- The device after a frame in sequence, before its NAK, its credit and its packets. -/
def frameAccepted (s : State) (p : Nat) (f : Frame) : State :=
  (s.modOport p (fun o => { o with ctr := ctrAdd o.ctr 0x028 f.fec })).modOport p
    (fun o => ackFrames { o with rxSeq := o.rxSeq + 1, nakOwed := false, ctr := ctrAdd o.ctr 0x018 1 } f.ackseq)

theorem frameAccepted_keeps (s : State) (p : Nat) (f : Frame) : Keeps [.oports] s (frameAccepted s p f) :=
  (State.modOport_keeps ..).trans (State.modOport_keeps ..)

theorem frameAccepted_oport (s : State) (p : Nat) (f : Frame) : (frameAccepted s p f).oport p = (s.oport p).accepts f := by
  unfold frameAccepted
  rw [State.modOport_get_oport_self, State.modOport_get_oport_self]
  rfl

theorem frameAccepted_oport_other {p q : Nat} (s : State) (f : Frame) (h : q ≠ p) : (frameAccepted s p f).oport q = s.oport q := by
  unfold frameAccepted
  rw [State.modOport_get_oport_ne _ _ _ q h, State.modOport_get_oport_ne _ _ _ q h]

section

variable {p : Nat} {f : Frame} {s : State} (hmode : opMode s p = 1) (hlink : linkRuns (s.oport p) = true)
include hmode hlink

/-- A packet for this device in a frame in sequence goes to the receive buffer. -/
theorem frame_delivers {vc : Nat} {k : FabPkt} (hcrc : f.crcOk = true) (hseq : f.seq = (s.oport p).rxSeq) (hnak : f.nak = false)
    (hcr : f.credit = 0) (hheld : (s.oport p).held = []) (hpk : f.pkts = [k]) (hh : k.header = .good ∧ k.header1 = .good)
    (hch : ∀ c ∈ k.checks, c = .good) (hsg : k.sigc0 = .good ∧ k.sigc1 = .good) (hv : vcOf k.typ.toNat = some vc)
    (hd : k.dst.toNat = ownRank (opSects s p)) (hroom : rxWords (s.oport p) vc + pktWords k ≤ vcWords vc) (hb : bridges s p k = false)
    (hidle : ∀ e, (s.ce e).inflight = []) :
    ∃ t, exec (.frameReceive p f) s = .next t ∧ Only [.oports] s t ∧ (t.oport p).rxSeq = (s.oport p).rxSeq + 1 ∧ (t.oport p).nakOwed = false ∧
      (t.oport p).rxq = (s.oport p).rxq ++ [k] ∧ (t.oport p).e2eCorr = (s.oport p).e2eCorr ∧ ∀ q, q ≠ p → t.oport q = s.oport q := by
  obtain ⟨hadv, howe⟩ := (s.oport p).accepts_seq f
  obtain ⟨hrxq, hcorr, -, -⟩ := (s.oport p).accepts_stay f
  have hexec : exec (.frameReceive p f) s = .next (settleColls (takePacket (frameAccepted s p f) p k)) :=
    frame_runs hmode hlink hcrc hseq hnak hcr hheld hpk
  have hwords : rxWords ((frameAccepted s p f).oport p) vc = rxWords (s.oport p) vc := by
    rw [frameAccepted_oport]
    unfold rxWords
    rw [hrxq]
  have htake := takePacket_own (frameAccepted s p f) p k hh hch hsg hv hd (by rw [hwords]; exact hroom) hb
  have hkeeps := frameAccepted_keeps s p f
  have hport := frameAccepted_oport s p f
  have hother (q : Nat) (hq : q ≠ p) := frameAccepted_oport_other s f hq
  generalize frameAccepted s p f = u at hexec htake hkeeps hport hother
  have htaken : Keeps [.oports] u (takePacket u p k) := by
    rw [htake]
    exact (State.modOport_keeps ..).trans (State.modOport_keeps ..)
  have hat : (takePacket u p k).oport p = { u.oport p with e2eCorr := stick (u.oport p).e2eCorr 0, rxq := (u.oport p).rxq ++ [k] } := by
    rw [htake, State.modOport_get_oport_self, State.modOport_get_oport_self]
  rw [settleColls_idle _ fun e => by rw [htaken.ce (by decide), hkeeps.ce (by decide)]; exact hidle e] at hexec
  rw [hport] at hat
  refine ⟨_, hexec, (hkeeps.trans htaken).only, by rw [hat]; exact hadv, by rw [hat]; exact howe, by rw [hat, ← hrxq],
    by rw [hat, ← hcorr]; exact stick_zero _, fun q hq => ?_⟩
  rw [htake, State.modOport_get_oport_ne _ _ _ q hq, State.modOport_get_oport_ne _ _ _ q hq]
  exact hother q hq

/-- The credit that a frame returns is the sender's again, up to what the peer's buffer holds (R230). -/
def creditReturned (s : State) (p : Nat) (f : Frame) : State :=
  if f.credit = 0 || f.creditVc.toNat = 3 then s else
    let vc := f.creditVc.toNat
    s.modOport p (fun o => { o with credit := tset vcWords o.credit vc (min (vcWords vc) (tget vcWords o.credit vc + f.credit)) })

omit hmode hlink in
theorem creditReturned_keeps (s : State) (p : Nat) (f : Frame) : Keeps [.oports] s (creditReturned s p f) := by
  unfold creditReturned
  split_ifs
  · exact Keeps.refl _ _
  · exact State.modOport_keeps ..

omit hmode hlink in
theorem creditReturned_oport (s : State) (p : Nat) (f : Frame) :
    ∃ c, (creditReturned s p f).oport p = { s.oport p with credit := c } ∧
      (f.credit ≠ 0 → f.creditVc.toNat ≠ 3 →
        tget vcWords c f.creditVc.toNat = min (vcWords f.creditVc.toNat) (tget vcWords (s.oport p).credit f.creditVc.toNat + f.credit)) ∧
      ∀ v, v ≠ f.creditVc.toNat → tget vcWords c v = tget vcWords (s.oport p).credit v := by
  unfold creditReturned
  split
  · next h => exact ⟨_, rfl, fun h0 h3 => absurd h (by simp [h0, h3]), fun _ _ => rfl⟩
  · rw [State.modOport_get_oport_self]
    exact ⟨_, rfl, fun _ _ => tget_tset_self .., fun v hv => tget_tset_ne _ _ _ v _ hv⟩

omit hmode hlink in
theorem creditReturned_oport_other {q : Nat} (s : State) (f : Frame) (h : q ≠ p) : (creditReturned s p f).oport q = s.oport q := by
  unfold creditReturned
  split_ifs
  · rfl
  · exact State.modOport_get_oport_ne _ _ _ q h

omit hmode hlink in
theorem creditReturned_none (s : State) (hc : f.credit = 0) : creditReturned s p f = s := if_pos (by simp [hc])

/-- A frame in sequence without packets is accepted, has its NAK served, and returns its credit. -/
theorem exec_frameReceive_empty (hcrc : f.crcOk = true) (hseq : f.seq = (s.oport p).rxSeq) (hpk : f.pkts = [])
    {u : State} (hu : (if f.nak then resend (frameAccepted s p f) p else frameAccepted s p f) = u)
    (hheld : ((creditReturned u p f).oport p).held = []) :
    exec (.frameReceive p f) s = .next (settleColls (creditReturned u p f)) := by
  change execFrameReceive p f s = _
  unfold execFrameReceive
  dsimp only
  rw [if_neg (by simp [hmode, hlink]), if_neg (by simp [hcrc, hseq]), hpk]
  refine congrArg (fun x => Host.Outcome.next (settleColls x)) ?_
  change (if ((creditReturned (if f.nak then resend (frameAccepted s p f) p else frameAccepted s p f) p f).oport p).held = [] then
    creditReturned (if f.nak then resend (frameAccepted s p f) p else frameAccepted s p f) p f
    else releaseHeld (creditReturned (if f.nak then resend (frameAccepted s p f) p else frameAccepted s p f) p f) p) = _
  rw [hu, if_pos hheld]

theorem frame_returnsCredit (hcrc : f.crcOk = true) (hseq : f.seq = (s.oport p).rxSeq) (hheld : (s.oport p).held = []) (hpk : f.pkts = [])
    (hidle : ∀ e, (s.ce e).inflight = []) (hnak : f.nak = false) (hvc : f.creditVc.toNat ≠ 3) :
    ∃ t, exec (.frameReceive p f) s = .next t ∧ Only [.oports] s t ∧ (t.oport p).rxSeq = (s.oport p).rxSeq + 1 ∧ (t.oport p).nakOwed = false ∧
      (f.credit ≠ 0 → tget vcWords (t.oport p).credit f.creditVc.toNat =
        min (vcWords f.creditVc.toNat) (tget vcWords (s.oport p).credit f.creditVc.toNat + f.credit)) ∧
      (∀ v, v ≠ f.creditVc.toNat → tget vcWords (t.oport p).credit v = tget vcWords (s.oport p).credit v) ∧ ∀ q, q ≠ p → t.oport q = s.oport q := by
  obtain ⟨hadv, howe⟩ := (s.oport p).accepts_seq f
  obtain ⟨-, -, hstay, hcredit⟩ := (s.oport p).accepts_stay f
  obtain ⟨c, hport, hgiven, hothers⟩ := creditReturned_oport (frameAccepted s p f) p f
  rw [frameAccepted_oport] at hport hgiven hothers
  rw [hcredit] at hgiven hothers
  have hkeeps := (frameAccepted_keeps s p f).trans (creditReturned_keeps (frameAccepted s p f) p f)
  have hexec := exec_frameReceive_empty hmode hlink hcrc hseq hpk (u := frameAccepted s p f) (if_neg (by simp [hnak])) (by rw [hport, ← hheld, ← hstay])
  rw [settleColls_idle _ fun e => by rw [hkeeps.ce (by decide)]; exact hidle e] at hexec
  exact ⟨_, hexec, hkeeps.only, by rw [hport]; exact hadv, by rw [hport]; exact howe, by rw [hport]; exact fun h0 => hgiven h0 hvc,
    by rw [hport]; exact hothers, fun q hq => (creditReturned_oport_other _ f hq).trans (frameAccepted_oport_other s f hq)⟩

theorem frame_outOfSequence (hbad : f.crcOk = false ∨ f.seq ≠ (s.oport p).rxSeq) :
    ∃ t, exec (.frameReceive p f) s = .next t ∧ Only [.oports] s t ∧
      t.oport p = { s.oport p with nakOwed := true, ctr := ctrAdd (s.oport p).ctr 0x028 f.fec } ∧ ∀ q, q ≠ p → t.oport q = s.oport q := by
  have hexec : exec (.frameReceive p f) s =
      .next ((s.modOport p (fun o => { o with ctr := ctrAdd o.ctr 0x028 f.fec })).modOport p (fun o => { o with nakOwed := true })) := by
    change execFrameReceive p f s = _
    unfold execFrameReceive
    dsimp only
    rw [if_neg (by simp [hmode, hlink]), if_pos (by simpa using hbad)]
  refine ⟨_, hexec, ((State.modOport_keeps ..).trans (State.modOport_keeps ..)).only, ?_, fun q hq => ?_⟩
  · rw [State.modOport_get_oport_self, State.modOport_get_oport_self]
  · rw [State.modOport_get_oport_ne _ _ _ q hq, State.modOport_get_oport_ne _ _ _ q hq]

end

/-! ### Frames sent again (R231) -/

/-- A frame as it is kept when it has been sent again. -/
def TxFrame.again (now : BitVec 64) (x : TxFrame) : TxFrame := { x with sent := now, resent := x.resent + 1 }

/-- Every frame kept is sent again: the port's event and Tally 0x092, and nothing else of the device. -/
theorem resend_again {s : State} {p : Nat} (h : ∀ x ∈ (s.oport p).unacked, x.resent < 8) :
    Keeps [.oports, .tallies] s (resend s p) ∧
      (∃ c, (resend s p).oport p =
        { s.oport p with outbox := (s.oport p).outbox ++ (s.oport p).unacked.map (fun x => frameWith (s.oport p) x.seq (0, 0) x.pkt),
                         unacked := (s.oport p).unacked.map (TxFrame.again s.time), ctr := c }) ∧
      (∃ x, ((resend s p).tally (uOport p)).fresh = (s.tally (uOport p)).fresh ++ [x] ∧ x.code = 0x092) ∧
      ∀ q, q ≠ p → (resend s p).oport q = s.oport q := by
  have hfew : ¬ ((s.oport p).unacked.any (fun f => decide (8 ≤ f.resent)) = true) := by
    rw [List.any_eq_true]
    rintro ⟨x, hx, h8⟩
    have := h x hx
    have := of_decide_eq_true h8
    omega
  have hfree := freeBelow_keeps s (257 - max 1 (s.oport p).unacked.length)
  have hport (q : Nat) : (freeBelow s (257 - max 1 (s.oport p).unacked.length)).2.oport q = s.oport q := rfl
  have htally : (freeBelow s (257 - max 1 (s.oport p).unacked.length)).2.tally (uOport p) = s.tally (uOport p) := rfl
  unfold resend
  rw [if_neg hfew]
  dsimp only
  generalize freeBelow s (257 - max 1 (s.oport p).unacked.length) = v at hfree hport htally
  refine ⟨(hfree.mono (by decide)).trans (((State.modOport_keeps ..).mono (by decide)).step (post_keeps ..) (by decide)), ?_, ?_, fun q hq => ?_⟩
  · rw [post_oport, State.modOport_get_oport_self, hport]
    have htime : v.2.time = s.time := hfree.only.2 .time (by decide)
    rw [htime]
    exact ⟨_, rfl⟩
  · obtain ⟨x, hx, hcode, -⟩ := post_tally_self (v.2.modOport p (fun o =>
      { o with outbox := o.outbox ++ o.unacked.map (fun f => frameWith o f.seq (0, 0) f.pkt),
               unacked := o.unacked.map (fun f => { f with sent := v.2.time, resent := f.resent + 1 }),
               ctr := ctrAddField (ctrAddField o.ctr 0x020 0 32 1) 0x020 32 32 (max 1 (s.oport p).unacked.length + v.1) }))
      (uOport p) 0 0x092 (payload := 0) (by decide)
    exact ⟨x, by rw [hx, ← htally]; rfl, hcode⟩
  · rw [post_oport, State.modOport_get_oport_ne _ _ _ q hq, hport]

/-- With a frame sent again eight times already the link goes DOWN and trains. -/
theorem resend_trains {s : State} {p : Nat} (hmany : ∃ x ∈ (s.oport p).unacked, 8 ≤ x.resent) (hup : (s.oport p).state ≠ 0)
    (hacc : s.accesses = []) (htrain : portTrains s p = true) :
    Keeps [.oports, .tallies] s (resend s p) ∧ ((resend s p).oport p).state = 1 ∧ ((resend s p).oport p).unacked = [] ∧
      ((resend s p).oport p).downs = stick (s.oport p).downs 1 ∧ ∀ q, q ≠ p → (resend s p).oport q = s.oport q := by
  obtain ⟨x, hx, h8⟩ := hmany
  have hres : resend s p = startTraining (linkDown s p 0) p := by
    unfold resend
    rw [if_pos (List.any_eq_true.mpr ⟨x, hx, decide_eq_true h8⟩)]
    unfold trainAgain
    rw [if_neg hup]
  have hcan : portTrains (linkDown s p 0) p = true := by
    rw [linkDown_idle s p 0 hacc]
    exact htrain
  obtain ⟨hdown, -, -, hothers⟩ := linkDown_down s p 0 hacc
  obtain ⟨⟨rx, tx, la, adv, hport⟩, hother, hkeeps⟩ := startTraining_trains (linkDown s p 0) p hcan
  have hlink : ((linkDown s p 0).oport p).unacked = [] ∧ ((linkDown s p 0).oport p).downs = stick (s.oport p).downs 1 := by
    rw [linkDown_idle s p 0 hacc, post_oport, State.modOport_get_oport_self]
    exact ⟨rfl, rfl⟩
  rw [hres]
  exact ⟨hdown.trans (hkeeps.mono (by decide)), by rw [hport], by rw [hport]; exact hlink.1, by rw [hport]; exact hlink.2,
    fun q hq => (hother q hq).trans (hothers q hq)⟩

theorem exec_resendTimeout_due {p : Nat} {f : TxFrame} {rest : List TxFrame} {s : State} (hlink : linkRuns (s.oport p) = true)
    (hun : (s.oport p).unacked = f :: rest) (hdue : f.sent.toNat + 2000 ≤ s.time.toNat) :
    exec (.resendTimeout p) s = .next (settleColls (resend s p)) := by
  change execResendTimeout p s = _
  unfold execResendTimeout
  dsimp only
  rw [hun]
  exact if_neg (by simp [hlink]; omega)

theorem linkRuns_up {o : OPort} (h : linkRuns o = true) : o.state ≠ 0 := by
  intro h0
  simp [linkRuns, h0] at h

/-- A NAK in a frame in sequence has every frame after ACKSEQ sent again. -/
theorem frame_nak {p : Nat} {f : Frame} {s : State} (hmode : opMode s p = 1) (hlink : linkRuns (s.oport p) = true) (hcrc : f.crcOk = true)
    (hseq : f.seq = (s.oport p).rxSeq) (hheld : (s.oport p).held = []) (hpk : f.pkts = []) (hidle : ∀ e, (s.ce e).inflight = [])
    (hnak : f.nak = true) (hcr : f.credit = 0) (hfew : ∀ x ∈ (ackFrames (s.oport p) f.ackseq).unacked, x.resent < 8) :
    ∃ t, exec (.frameReceive p f) s = .next t ∧ Only [.oports, .tallies] s t ∧ (t.oport p).rxSeq = (s.oport p).rxSeq + 1 ∧ (t.oport p).nakOwed = false ∧
      (t.oport p).unacked = (ackFrames (s.oport p) f.ackseq).unacked.map (fun x => { x with sent := s.time, resent := x.resent + 1 }) ∧
      (∃ x, (t.tally (uOport p)).fresh = (s.tally (uOport p)).fresh ++ [x] ∧ x.code = 0x092) ∧ ∀ q, q ≠ p → t.oport q = s.oport q := by
  obtain ⟨hadv, howe⟩ := (s.oport p).accepts_seq f
  obtain ⟨-, -, hstay, -⟩ := (s.oport p).accepts_stay f
  have hacc := frameAccepted_keeps s p f
  obtain ⟨hkeeps, ⟨c, hport⟩, hrec, hother⟩ := resend_again (s := frameAccepted s p f) (p := p)
    (by rw [frameAccepted_oport, OPort.accepts_unacked]; exact hfew)
  have htime : (frameAccepted s p f).time = s.time := hacc.only.2 .time (by decide)
  have htally := hacc.tally (by decide) (uOport p)
  rw [frameAccepted_oport, OPort.accepts_unacked, htime] at hport
  rw [htally] at hrec
  have hexec := exec_frameReceive_empty hmode hlink hcrc hseq hpk (u := resend (frameAccepted s p f) p) (if_pos hnak)
    (by rw [creditReturned_none _ hcr, hport, ← hheld, ← hstay])
  rw [creditReturned_none _ hcr, settleColls_idle _ fun e => by rw [hkeeps.ce (by decide), hacc.ce (by decide)]; exact hidle e] at hexec
  exact ⟨_, hexec, ((hacc.mono (by decide)).trans hkeeps).only, by rw [hport]; exact hadv, by rw [hport]; exact howe, by rw [hport]; rfl, hrec,
    fun q hq => (hother q hq).trans (frameAccepted_oport_other s f hq)⟩

theorem resendTimeout_again {p : Nat} {f : TxFrame} {rest : List TxFrame} {s : State} (hlink : linkRuns (s.oport p) = true)
    (hun : (s.oport p).unacked = f :: rest) (hdue : f.sent.toNat + 2000 ≤ s.time.toNat) (hidle : ∀ e, (s.ce e).inflight = [])
    (hfew : ∀ x ∈ f :: rest, x.resent < 8) :
    ∃ t, exec (.resendTimeout p) s = .next t ∧ Only [.oports, .tallies] s t ∧ (t.oport p).state = (s.oport p).state ∧
      (t.oport p).unacked = (f :: rest).map (fun x => { x with sent := s.time, resent := x.resent + 1 }) ∧
      (t.oport p).outbox = (s.oport p).outbox ++ (f :: rest).map (fun x => frameWith (s.oport p) x.seq (0, 0) x.pkt) ∧
      (∃ x, (t.tally (uOport p)).fresh = (s.tally (uOport p)).fresh ++ [x] ∧ x.code = 0x092) ∧ ∀ q, q ≠ p → t.oport q = s.oport q := by
  obtain ⟨hkeeps, ⟨c, hport⟩, hrec, hother⟩ := resend_again (s := s) (p := p) (by rw [hun]; exact hfew)
  have hexec := exec_resendTimeout_due hlink hun hdue
  rw [settleColls_idle _ fun e => by rw [hkeeps.ce (by decide)]; exact hidle e] at hexec
  refine ⟨_, hexec, hkeeps.only, by rw [hport], ?_, ?_, hrec, hother⟩
  · rw [hport, hun]; rfl
  · rw [hport, hun]

theorem resendTimeout_trains {p : Nat} {f : TxFrame} {rest : List TxFrame} {s : State} (hlink : linkRuns (s.oport p) = true)
    (hun : (s.oport p).unacked = f :: rest) (hdue : f.sent.toNat + 2000 ≤ s.time.toNat) (hidle : ∀ e, (s.ce e).inflight = [])
    (hmany : ∃ x ∈ f :: rest, 8 ≤ x.resent) (hacc : s.accesses = []) (htrain : portTrains s p = true) :
    ∃ t, exec (.resendTimeout p) s = .next t ∧ Only [.oports, .tallies] s t ∧ (t.oport p).state = 1 ∧ (t.oport p).unacked = [] ∧
      (t.oport p).downs = stick (s.oport p).downs 1 ∧ ∀ q, q ≠ p → t.oport q = s.oport q := by
  obtain ⟨hkeeps, hstate, hunacked, hdowns, hother⟩ := resend_trains (s := s) (p := p) (by rw [hun]; exact hmany) (linkRuns_up hlink) hacc htrain
  have hexec := exec_resendTimeout_due hlink hun hdue
  rw [settleColls_idle _ fun e => by rw [hkeeps.ce (by decide)]; exact hidle e] at hexec
  exact ⟨_, hexec, hkeeps.only, hstate, hunacked, hdowns, hother⟩

/-- Settles O48: frames in sequence and out of it, and the timeout of what is unacknowledged. -/
theorem fabricFrames : Obligations.FabricFrames := by
  refine ⟨⟨?_, ?_, ?_⟩, ?_⟩
  · intro p vc f k s _ hmode hlink hcrc hseq hnak hcr hheld hpk hh hch hsg hv hd hroom hb hidle
    exact frame_delivers hmode hlink hcrc hseq hnak hcr hheld hpk hh hch hsg hv hd hroom hb hidle
  · intro p f s _ hmode hlink hcrc hseq hheld hpk hidle
    exact ⟨fun hnak hvc => frame_returnsCredit hmode hlink hcrc hseq hheld hpk hidle hnak hvc,
      fun hnak hcr hfew => frame_nak hmode hlink hcrc hseq hheld hpk hidle hnak hcr hfew⟩
  · exact fun p f s _ hmode hlink hbad => frame_outOfSequence hmode hlink hbad
  · exact fun p f rest s _ hlink hun hdue hidle => ⟨fun hfew => resendTimeout_again hlink hun hdue hidle hfew,
      fun hmany hacc htrain => resendTimeout_trains hlink hun hdue hidle hmany hacc htrain⟩

end Sys2Proof.Machine
end

section
/-! Requests of peers at their destination (R182, R229, R234, R275). -/

namespace Sys2Proof.Machine

open Sys2Proof

/-! ### The packet in front -/

section

variable {s s1 : State} {p typ : Nat} {k : FabPkt} (hfront : takeFront s p typ = some (k, s1))
include hfront

theorem takeFront_keepsPort : Keeps [.oports] s s1 := takeFront_keeps s p typ k s1 hfront

/-- Taking a packet leaves the landing areas and the collectives. -/
theorem takeFront_areas (h : s.areas = []) : s1.areas = [] := ((takeFront_keepsPort hfront).only.2 .areas (by decide)).trans h

theorem takeFront_idle (h : ∀ e, (s.ce e).inflight = []) (e : Nat) : (s1.ce e).inflight = [] := by
  rw [(takeFront_keepsPort hfront).ce (by decide)]
  exact h e

end

theorem pktData_length_le (k : FabPkt) : (pktData k).length ≤ pktBytes k := List.length_take_le ..

/-- An answer leaves the collectives idle, and nothing completes. -/
theorem settleColls_respond {s : State} {p : Nat} {k : FabPkt} {typ : Nat} {st : Status} {ws : List (BitVec 64)} {cs : List WordCheck}
    (htyp : typ = 0x10 ∨ typ = 0x11) (hidle : ∀ e, (s.ce e).inflight = []) :
    settleColls (respond s p k typ st ws cs) = respond s p k typ st ws cs :=
  settleColls_idle _ fun e => by
    rw [(respond_answers s p k typ st ws cs htyp).ce (by decide)]
    exact hidle e

/-- What a request in the unified range may write there is not lost. -/
theorem devWrFault_backed {s : State} {a n : Nat} (ha : a ≤ Config.uniTop) (h : anyLost s = false) : devWrFault s a n = none := by
  unfold devWrFault
  split
  · next e => exact absurd e (not_host ha)
  · exact if_pos (by simp [h])

/-! ### A signal that a packet carries, and the answer -/

/-- The state after a packet's signal and its answer. -/
def signalled (s : State) (p : Nat) (k : FabPkt) (st : Status → Status) : State :=
  settleColls (respond (pktSignal s p k).2 p k 0x11 (st (pktSignal s p k).1) [] [])

section

variable {s : State} {p : Nat} {k : FabPkt} (st : Status → Status) (hareas : k.att = true → s.areas = []) (hidle : ∀ e, (s.ce e).inflight = [])
include hareas hidle

theorem signalled_eq : signalled s p k st = respond (pktSignal s p k).2 p k 0x11 (st (pktSignal s p k).1) [] [] :=
  settleColls_respond (.inr rfl) fun e => by
    rw [(pktSignal_out s p k hareas).1.ce (by decide)]
    exact hidle e

theorem signalled_keeps :
    Keeps [.uni, .uniBad, .host, .cores, .ctxs, .mports, .tiers, .oports, .hps, .tallies, .paths] s (signalled s p k st) := by
  rw [signalled_eq st hareas hidle]
  exact ((pktSignal_out s p k hareas).1.mono (by decide)).trans ((respond_answers _ _ _ _ _ _ _ (.inr rfl)).mono (by decide))

/-- Outside the word of the signal no byte changes, and a scratchpad keeps every byte. -/
theorem signalled_bytes :
    (∀ b, b < pktSigAddr k ∨ pktSigAddr k + 8 ≤ b → mget (signalled s p k st).uni b = mget s.uni b) ∧
      ∀ n, ((signalled s p k st).core n).scratch = (s.core n).scratch := by
  obtain ⟨-, ⟨-, hout⟩, hcore⟩ := pktSignal_out s p k hareas
  have hans := respond_answers (pktSignal s p k).2 p k 0x11 (st (pktSignal s p k).1) [] [] (.inr rfl)
  rw [signalled_eq st hareas hidle]
  refine ⟨fun b hb => ?_, fun n => ?_⟩
  · exact (congrArg (mget · b) (hans.only.2 .uni (by decide))).trans (hout b hb)
  · rw [hans.core (by decide)]
    exact hcore n

/-- A packet without a signal is only answered. -/
theorem signalled_plain (hatt : k.att = false) : Keeps [.oports, .paths] s (signalled s p k st) := by
  obtain ⟨-, ⟨hsame, -⟩, -⟩ := pktSignal_out s p k hareas
  have hans := respond_answers (pktSignal s p k).2 p k 0x11 (st (pktSignal s p k).1) [] [] (.inr rfl)
  rw [signalled_eq st hareas hidle]
  rwa [hsame hatt] at hans ⊢

end

/-! ### Refusals (R234) -/

/-- A refused request is counted, recorded in the port's ring, and answered. -/
theorem reject_answers {s s1 : State} {p typ typ' : Nat} {k : FabPkt} (st : Status) (hfront : takeFront s p typ = some (k, s1))
    (htyp : typ' = 0x10 ∨ typ' = 0x11) :
    let t := respond (countReject s1 p k) p k typ' st [] []
    Only [.oports, .tallies, .paths] s t ∧ ∃ x, (t.tally (uOport p)).fresh = (s.tally (uOport p)).fresh ++ [x] ∧ x.code = 0x094 := by
  intro t
  have htake := takeFront_keepsPort hfront
  have hcount := countReject_keeps s1 p k
  have hans := respond_answers (countReject s1 p k) p k typ' st [] [] htyp
  refine ⟨(((htake.mono (by decide)).trans (hcount.mono (by decide))).trans (hans.mono (by decide))).only, ?_⟩
  obtain ⟨x, hx, hcode, -⟩ := post_tally_self (s1.modOport p (fun o => { o with ctr := ctrAddField o.ctr 0x038 0 32 1 })) (uOport p) k.ctx.toNat 0x094
    (payload := k.src.toNat + 2 ^ 6 * k.ctx.toNat) (by have := k.src.isLt; have := k.ctx.isLt; omega)
  refine ⟨x, ?_, hcode⟩
  rw [hans.tally (by decide), ← htake.tally (by decide)]
  exact hx

theorem request_refused {s s1 : State} {p typ : Nat} {cmd : Instr} {k : FabPkt} {st : Status}
    (hcmd : typ = 0x01 ∧ cmd = .write p ∨ typ = 0x02 ∧ cmd = .add p ∨ typ = 0x03 ∧ cmd = .readreq p) (hfront : takeFront s p typ = some (k, s1))
    (hgood : dataBad k = false) (hrefuse : reqRefuse s1 p k (pktAddr k) (pktBytes k) (decide (typ ≠ 0x03)) = some st) :
    ∃ t, exec cmd s = .next t ∧ Only [.oports, .tallies, .paths] s t ∧
      ∃ x, (t.tally (uOport p)).fresh = (s.tally (uOport p)).fresh ++ [x] ∧ x.code = 0x094 := by
  obtain ⟨rfl, rfl⟩ | ⟨rfl, rfl⟩ | ⟨rfl, rfl⟩ := hcmd
  · rw [show decide ((0x01 : Nat) ≠ 0x03) = true from rfl] at hrefuse
    have hexec : exec (.write p) s = .next (respond (countReject s1 p k) p k 0x11 st [] []) := by
      change execWrite p s = _
      simp only [execWrite, hfront, hgood, hrefuse, Bool.false_eq_true, if_false]
    exact ⟨_, hexec, reject_answers st hfront (.inr rfl)⟩
  · rw [show decide ((0x02 : Nat) ≠ 0x03) = true from rfl] at hrefuse
    have hexec : exec (.add p) s = .next (respond (countReject s1 p k) p k 0x11 st [] []) := by
      change execAdd p s = _
      simp only [execAdd, hfront, hgood, hrefuse, Bool.false_eq_true, if_false]
    exact ⟨_, hexec, reject_answers st hfront (.inr rfl)⟩
  · rw [show decide ((0x03 : Nat) ≠ 0x03) = false from rfl] at hrefuse
    have hexec : exec (.readreq p) s = .next (respond (countReject s1 p k) p k 0x10 st [] []) := by
      change execReadreq p s = _
      simp only [execReadreq, hfront, hrefuse]
    exact ⟨_, hexec, reject_answers st hfront (.inl rfl)⟩

/-! ### WRITE -/

section

variable {s s1 : State} {p : Nat} {k : FabPkt} (hidle : ∀ e, (s.ce e).inflight = []) (hareas : k.att = true → s.areas = [])
include hidle hareas

theorem write_admitted (hfront : takeFront s p 0x01 = some (k, s1)) (hgood : dataBad k = false)
    (hok : reqRefuse s1 p k (pktAddr k) (pktBytes k) true = none) (hback : Backed s1 (pktAddr k) (pktData k).length) :
    ∃ t, exec (.write p) s = .next t ∧ Only (writeParts ++ [.oports, .paths]) s t ∧ (∀ n, (t.core n).scratch = (s.core n).scratch) ∧
      (k.att = false → mread t.uni (pktAddr k) (pktData k).length = pktData k ∧
        (∀ b, b < pktAddr k ∨ pktAddr k + (pktData k).length ≤ b → mget t.uni b = mget s.uni b) ∧ t.host = s.host ∧ CtxsSeen s t) ∧
      (k.att = true → ∀ b, b < pktSigAddr k ∨ pktSigAddr k + 8 ≤ b → mget t.uni b = mget (mwrite s.uni (pktAddr k) (pktData k)) b) := by
  obtain ⟨hunbacked, hlost⟩ := hback
  have htop : pktAddr k ≤ Config.uniTop := by have := reqRefuse_none hok; omega
  have htake := takeFront_keepsPort hfront
  have hwrite : devWrite s1 (pktBy k) (pktAddr k) (pktData k) = uniWrite s1 (pktBy k) (pktAddr k) (pktData k) :=
    devWrite_dev _ _ _ _ (not_host htop)
  have hexec : exec (.write p) s = .next (signalled (uniWrite s1 (pktBy k) (pktAddr k) (pktData k)) p k id) := by
    change execWrite p s = _
    simp only [execWrite, hfront, hgood, hok, devWrFault_backed htop hlost, hwrite, Bool.false_eq_true, if_false]
    rfl
  have hkeeps := uniWrite_keeps s1 (pktBy k) (pktAddr k) (pktData k)
  have huni : (uniWrite s1 (pktBy k) (pktAddr k) (pktData k)).uni = mwrite s.uni (pktAddr k) (pktData k) := by
    rw [uniWrite_uni s1 _ _ _ hunbacked (lossless_of hlost), show s1.uni = s.uni from htake.only.2 .uni (by decide)]
  have hscratch (n : Nat) : ((uniWrite s1 (pktBy k) (pktAddr k) (pktData k)).core n).scratch = (s.core n).scratch := by
    rw [((uniWrite_cores s1 (pktBy k) (pktAddr k) (pktData k)).core n).scratch, htake.core (by decide)]
  have hseen : CtxsSeen s (uniWrite s1 (pktBy k) (pktAddr k) (pktData k)) := (htake.ctxsSeen (by decide)).trans (uniWrite_ctxs ..)
  generalize uniWrite s1 (pktBy k) (pktAddr k) (pktData k) = u at hexec hkeeps huni hscratch hseen
  have hareas' : k.att = true → u.areas = [] := fun h => by
    rw [show u.areas = s1.areas from hkeeps.only.2 .areas (by decide)]
    exact takeFront_areas hfront (hareas h)
  have hidle' (e : Nat) : (u.ce e).inflight = [] := by
    rw [hkeeps.ce (by decide)]
    exact takeFront_idle hfront hidle e
  obtain ⟨hbytes, hcore⟩ := signalled_bytes (p := p) id hareas' hidle'
  refine ⟨_, hexec, (((htake.mono (by decide)).trans (hkeeps.mono (by decide))).trans ((signalled_keeps id hareas' hidle').mono (by decide))).only,
    fun n => (hcore n).trans (hscratch n), fun hatt => ?_, fun _ b hb => ?_⟩
  · have hplain := signalled_plain (p := p) id hareas' hidle' hatt
    rw [show (signalled u p k id).uni = u.uni from hplain.only.2 .uni (by decide), huni]
    refine ⟨mread_mwrite .., fun b hb => mget_mwrite_out _ _ _ _ hb, ?_, hseen.trans (hplain.ctxsSeen (by decide))⟩
    exact (hplain.only.2 .host (by decide)).trans ((hkeeps.only.2 .host (by decide)).trans (htake.only.2 .host (by decide)))
  · rw [hbytes b hb, huni]

/-! ### ADD -/

/-- The sums that an add of elements leaves, with what their conversions count. -/
def added (s : State) (k : FabPkt) : State × Nat × Nat :=
  addInto (devTouch s (pktBy k) (pktAddr k) (pktBytes k)) (pktBy k) k.fmt.toNat (pktAddr k) (pktData k)

/-- The add's element conversions are counted at the memory port of its region. -/
def addCounted (s : State) (k : FabPkt) : State :=
  countSat (added s k).1 (uMport (portOf (added s k).1 (pktAddr k / 4096))) k.ctx.toNat (added s k).2.1 (added s k).2.2

omit hidle hareas in
theorem addCounted_keeps (s : State) (k : FabPkt) :
    Keeps [.uni, .uniBad, .host, .cores, .ctxs, .mports, .tiers, .hps, .tallies, .hub2] s (addCounted s k) := by
  unfold addCounted added
  exact (((devTouch_keeps ..).mono (by decide)).trans ((addInto_keeps ..).mono (by decide))).trans ((countSat_keeps ..).mono (by decide))

omit hidle hareas in
theorem addCounted_bytes (s : State) (k : FabPkt) :
    (∀ b, b < pktAddr k ∨ pktAddr k + pktBytes k ≤ b → mget (addCounted s k).uni b = mget s.uni b) ∧
      ∀ n, ((addCounted s k).core n).scratch = (s.core n).scratch := by
  have hlen := pktData_length_le k
  have hcount := countSat_keeps (added s k).1 (uMport (portOf (added s k).1 (pktAddr k / 4096))) k.ctx.toNat (added s k).2.1 (added s k).2.2
  have htouch := devTouch_keeps s (pktBy k) (pktAddr k) (pktBytes k)
  refine ⟨fun b hb => ?_, fun n => ?_⟩
  · rw [show (addCounted s k).uni = (added s k).1.uni from hcount.only.2 .uni (by decide)]
    refine (addInto_out _ _ _ _ b _ (by omega)).1.trans ?_
    rw [show (devTouch s (pktBy k) (pktAddr k) (pktBytes k)).uni = s.uni from htouch.only.2 .uni (by decide)]
  · rw [show (addCounted s k).core n = (added s k).1.core n from hcount.core (by decide) n]
    refine ((addInto_out _ _ _ _ (pktAddr k + (pktData k).length) _ (.inr (Nat.le_refl _))).2 n).trans ?_
    rw [htouch.core (by decide)]

theorem add_admitted (hfront : takeFront s p 0x02 = some (k, s1)) (hgood : dataBad k = false) (hfmt : k.fmt.toNat ≤ 1)
    (hok : reqRefuse s1 p k (pktAddr k) (pktBytes k) true = none) (hread : devFault s1 (pktAddr k) (pktBytes k) = none) :
    ∃ t, exec (.add p) s = .next t ∧ Only (writeParts ++ [.oports, .paths, .hub2]) s t ∧
      (∀ b, b < pktAddr k ∨ pktAddr k + pktBytes k ≤ b → k.att = false ∨ b < pktSigAddr k ∨ pktSigAddr k + 8 ≤ b → mget t.uni b = mget s.uni b) ∧
      ∀ n, (t.core n).scratch = (s.core n).scratch := by
  have htake := takeFront_keepsPort hfront
  have hexec : exec (.add p) s =
      .next (signalled (addCounted s1 k) p k fun st => worse st (if (added s1 k).2.1 + (added s1 k).2.2 = 0 then stDone else stSaturated)) := by
    change execAdd p s = _
    simp only [execAdd, hfront, hgood, hok, hread, if_neg (show ¬ 1 < k.fmt.toNat by omega), Bool.false_eq_true, if_false]
    rfl
  generalize (fun st => worse st (if (added s1 k).2.1 + (added s1 k).2.2 = 0 then stDone else stSaturated)) = st at hexec
  have hkeeps := addCounted_keeps s1 k
  obtain ⟨hbytes, hcore⟩ := addCounted_bytes s1 k
  generalize addCounted s1 k = u at hexec hkeeps hbytes hcore
  have hareas' : k.att = true → u.areas = [] := fun h => by
    rw [show u.areas = s1.areas from hkeeps.only.2 .areas (by decide)]
    exact takeFront_areas hfront (hareas h)
  have hidle' (e : Nat) : (u.ce e).inflight = [] := by
    rw [hkeeps.ce (by decide)]
    exact takeFront_idle hfront hidle e
  obtain ⟨hword, hscratch⟩ := signalled_bytes (p := p) st hareas' hidle'
  refine ⟨_, hexec, (((htake.mono (by decide)).trans (hkeeps.mono (by decide))).trans ((signalled_keeps st hareas' hidle').mono (by decide))).only,
    fun b hb hsig => ?_, fun n => ?_⟩
  · have hu : mget u.uni b = mget s.uni b := by rw [hbytes b hb, show s1.uni = s.uni from htake.only.2 .uni (by decide)]
    obtain hatt | hb' := hsig
    · rw [show (signalled u p k st).uni = u.uni from (signalled_plain st hareas' hidle' hatt).only.2 .uni (by decide)]
      exact hu
    · rw [hword b hb', hu]
  · rw [hscratch n, hcore n, htake.core (by decide)]

/-! ### SIGNAL -/

theorem signal_applied (hfront : takeFront s p 0x04 = some (k, s1)) (hfence : rankFenced s1 k.src.toNat = false) (hgood : dataBad k = false) :
    ∃ t, exec (.signalPacket p) s = .next t ∧ Only (writeParts ++ [.oports, .paths]) s t ∧
      (∀ b, b < pktSigAddr k ∨ pktSigAddr k + 8 ≤ b → mget t.uni b = mget s.uni b) ∧ ∀ n, (t.core n).scratch = (s.core n).scratch := by
  have htake := takeFront_keepsPort hfront
  have hexec : exec (.signalPacket p) s = .next (signalled s1 p k id) := by
    change execSignalPacket p s = _
    simp only [execSignalPacket, hfront, hfence, hgood, Bool.false_eq_true, if_false]
    rfl
  have hareas' : k.att = true → s1.areas = [] := fun h => takeFront_areas hfront (hareas h)
  have hidle' := takeFront_idle hfront hidle
  obtain ⟨hword, hscratch⟩ := signalled_bytes (p := p) id hareas' hidle'
  refine ⟨_, hexec, ((htake.mono (by decide)).trans ((signalled_keeps id hareas' hidle').mono (by decide))).only, fun b hb => ?_, fun n => ?_⟩
  · rw [hword b hb, show s1.uni = s.uni from htake.only.2 .uni (by decide)]
  · rw [hscratch n, htake.core (by decide)]

end

/-! ### READREQ -/

/-- The words that a read request finds, and the check codes they have in memory. -/
def wordsRead (s : State) (k : FabPkt) : List (BitVec 64) := packWords (devRead s (pktAddr k) (pktBytes k))

def codesRead (s : State) (k : FabPkt) : List WordCheck :=
  (List.range (wordsRead s k).length).map (fun i =>
    if (devFault s (pktAddr k + 8 * i) (min 8 (pktBytes k - 8 * i))).isSome then WordCheck.double else WordCheck.good)

theorem readreq_admitted {s s1 : State} {p : Nat} {k : FabPkt} (hfront : takeFront s p 0x03 = some (k, s1))
    (hok : reqRefuse s1 p k (pktAddr k) (pktBytes k) false = none) :
    ∃ t, exec (.readreq p) s = .next t ∧ Only (readParts ++ [.oports, .paths]) s t ∧ t.uni = s.uni ∧ t.host = s.host := by
  have hexec : exec (.readreq p) s =
      .next (respond (devTouch s1 (pktBy k) (pktAddr k) (pktBytes k)) p k 0x10 stDone (wordsRead s1 k) (codesRead s1 k)) := by
    change execReadreq p s = _
    simp only [execReadreq, hfront, hok]
    rfl
  have honly := (((takeFront_keepsPort hfront).mono (by decide)).trans ((devTouch_keeps s1 (pktBy k) (pktAddr k) (pktBytes k)).mono (by decide))).trans
    ((respond_answers _ p k 0x10 stDone (wordsRead s1 k) (codesRead s1 k) (.inl rfl)).mono (m := readParts ++ [.oports, .paths]) (by decide)) |>.only
  exact ⟨_, hexec, honly, honly.2 .uni (by decide), honly.2 .host (by decide)⟩

/-- Settles O49: a request that is admitted, by its type, and one that is refused. -/
theorem requestPackets : Obligations.RequestPackets := by
  refine ⟨fun p k s s1 _ hfront hgood hidle hareas => fun hok hback => write_admitted hidle hareas hfront hgood hok hback,
    fun p typ cmd k st s s1 _ hcmd hfront hgood hrefuse => request_refused hcmd hfront hgood hrefuse, ?_, ?_, ?_⟩
  · exact fun p k s s1 _ hfront hgood hfmt hidle hareas hok hread => add_admitted hidle hareas hfront hgood hfmt hok hread
  · exact fun p k s s1 _ hfront hok => readreq_admitted hfront hok
  · exact fun p k s s1 _ hfront hfence hgood hidle hareas => signal_applied hidle hareas hfront hfence hgood

end Sys2Proof.Machine
end

section
/-! Queue pairs of an Ethernet port: pauses, READ responses, acknowledgements and timeouts (R237, R238). -/

namespace Sys2Proof.Machine

open Sys2Proof

/-! ### What leaves a port's queue pairs as they are -/

/-- A change that leaves the tiers and the unified range leaves what is read of it. -/
theorem Keeps.uniRead {l : List Field} {s t : State} (h : Keeps l s t) (ht : Field.tiers ∉ l) (hu : Field.uni ∉ l) (a n : Nat) :
    uniRead t a n = uniRead s a n := by
  have htiers : t.tiers = s.tiers := h.only.2 .tiers ht
  have huni : t.uni = s.uni := h.only.2 .uni hu
  have htop : t.tiers.topRetired = s.tiers.topRetired := by rw [htiers]
  have hch : t.tiers.outCh = s.tiers.outCh := by rw [htiers]
  have hslice : t.tiers.outSlice = s.tiers.outSlice := by rw [htiers]
  simp only [Machine.uniRead, hitsUnbacked_congr htop hch hslice, tileBacked_congr htop hch hslice, huni]

/-- Of the device only optical ports change, and of port `p` neither its queue pairs nor where their records lie. -/
structure QpsStand (p : Nat) (s t : State) : Prop where
  keeps : Keeps [.oports] s t
  qps   : (t.oport p).qps = (s.oport p).qps
  base  : (t.oport p).qpBase = (s.oport p).qpBase
  count : (t.oport p).qpCount = (s.oport p).qpCount

theorem QpsStand.trans {p : Nat} {s t u : State} (h : QpsStand p s t) (k : QpsStand p t u) : QpsStand p s u :=
  ⟨h.keeps.trans k.keeps, k.qps.trans h.qps, k.base.trans h.base, k.count.trans h.count⟩

theorem QpsStand.modOport {p : Nat} {s : State} {f : OPort → OPort} (hq : ∀ o, (f o).qps = o.qps) (hb : ∀ o, (f o).qpBase = o.qpBase)
    (hc : ∀ o, (f o).qpCount = o.qpCount) : QpsStand p s (s.modOport p f) :=
  ⟨State.modOport_keeps .., by rw [State.modOport_get_oport_self, hq], by rw [State.modOport_get_oport_self, hb],
    by rw [State.modOport_get_oport_self, hc]⟩

section

variable {p : Nat} {s t : State} (h : QpsStand p s t)
include h

theorem QpsStand.run (i : Nat) : qpRun t p i = qpRun s p i := congrArg (tget qpDef · i) h.qps

theorem QpsStand.record (i : Nat) : qpRec t p i = qpRec s p i := by
  unfold qpRec qpAddr
  rw [h.base, h.keeps.uniRead (by decide) (by decide)]

theorem QpsStand.valid : validQps t p = validQps s p := by
  unfold validQps
  simp only [h.record, h.count]

theorem QpsStand.named (k : RocePkt) : roceQp t p k = roceQp s p k := by
  unfold roceQp qpByNumber
  simp only [h.valid]

theorem QpsStand.job (n : Nat) : getJob t n = getJob s n := by
  unfold getJob
  rw [show t.loads = s.loads from h.keeps.only.2 .loads (by decide)]

theorem QpsStand.time : t.time = s.time := h.keeps.only.2 .time (by decide)

end

/-! ### A frame that arrives -/

theorem countFrame_stand (s : State) (p : Nat) : QpsStand p s (countFrame s p) := QpsStand.modOport (fun _ => rfl) (fun _ => rfl) (fun _ => rfl)

theorem countFec_stand (s : State) (p n : Nat) : QpsStand p s (countFec s p n) := QpsStand.modOport (fun _ => rfl) (fun _ => rfl) (fun _ => rfl)

theorem roceFrame_stand (s : State) (p : Nat) (k : RocePkt) : QpsStand p s (roceFrame s p k) := (countFrame_stand s p).trans (countFec_stand ..)

theorem roceFrame_ethOut (s : State) (p : Nat) (k : RocePkt) : ((roceFrame s p k).oport p).ethOut = (s.oport p).ethOut := by
  unfold roceFrame countFec countFrame
  rw [State.modOport_get_oport_self, State.modOport_get_oport_self]

theorem sendEth_stand (s : State) (p : Nat) (l : List EthOut) : QpsStand p s (sendEth s p l) :=
  QpsStand.modOport (fun _ => rfl) (fun _ => rfl) (fun _ => rfl)

theorem freeBelow_stand (s : State) (p n : Nat) : QpsStand p s (freeBelow s n).2 := ⟨(freeBelow_keeps s n).mono (by decide), rfl, rfl, rfl⟩

theorem rxArrive_stand (s : State) (p : Nat) : QpsStand p s (rxArrive s p) := by
  have hfree := (freeBelow_stand s p (2 ^ 18 + 1)).trans (freeBelow_stand (freeBelow s (2 ^ 18 + 1)).2 p (2 ^ 16 - 1))
  have hfill : QpsStand p (freeBelow (freeBelow s (2 ^ 18 + 1)).2 (2 ^ 16 - 1)).2
      ((freeBelow (freeBelow s (2 ^ 18 + 1)).2 (2 ^ 16 - 1)).2.modOport p (fun o => { o with rxFill := (freeBelow s (2 ^ 18 + 1)).1 })) :=
    QpsStand.modOport (fun _ => rfl) (fun _ => rfl) (fun _ => rfl)
  unfold rxArrive
  dsimp only
  split
  · exact (hfree.trans hfill).trans (sendEth_stand ..)
  · exact hfree.trans hfill

/-! ### PAUSE -/

theorem pause_stops {p prio quanta i : Nat} {s : State} (hup : ethUp s p = true) (hi : i ∈ validQps s p) (hprio : (qpRec s p i).pcp = prio)
    (hloads : s.loads = []) :
    ∃ t, exec (.pause p prio quanta) s = .next t ∧ Only [.oports] s t ∧
      tget dN (t.oport p).paused prio = (if quanta = 0 then 0 else s.time.toNat + cdiv (quanta * 512) 800) ∧
      (∀ j, j ≠ prio → tget dN (t.oport p).paused j = tget dN (s.oport p).paused j) ∧ ∀ q, q ≠ p → t.oport q = s.oport q := by
  have hvalid : (validQps (countFrame s p) p).any (fun i => (qpRec (countFrame s p) p i).pcp == prio) = true := by
    rw [countFrame_valid, List.any_eq_true]
    exact ⟨i, hi, by rw [countFrame_rec, hprio]; exact beq_self_eq_true _⟩
  have hport := countFrame_oport s p
  have hother (q : Nat) (hq : q ≠ p) : (countFrame s p).oport q = s.oport q := State.modOport_get_oport_ne _ _ _ q hq
  have hkeeps : Keeps [.oports] s (countFrame s p) := State.modOport_keeps ..
  have htime : (countFrame s p).time = s.time := rfl
  have hexec : exec (.pause p prio quanta) s = .next (runJobs ((countFrame s p).modOport p (fun o =>
      { o with paused := tset dN o.paused prio (if quanta = 0 then 0 else (countFrame s p).time.toNat + cdiv (quanta * 512) 800) }))) := by
    change execPause p prio quanta s = _
    unfold execPause
    dsimp only
    rw [if_neg (by simp [hup]), if_pos hvalid]
  rw [runJobs_idle _ (by exact hloads), htime] at hexec
  generalize countFrame s p = u at hexec hport hother hkeeps
  refine ⟨_, hexec, (hkeeps.trans (State.modOport_keeps ..)).only, ?_, fun j hj => ?_, fun q hq => ?_⟩
  · rw [State.modOport_get_oport_self]
    exact tget_tset_self ..
  · rw [State.modOport_get_oport_self]
    exact (tget_tset_ne _ _ _ j _ hj).trans (by rw [hport])
  · rw [State.modOport_get_oport_ne _ _ _ q hq, hother q hq]

/-! ### READ responses -/

/-- Where the next packet of a READ lands, and the bytes of it that do. -/
def readPlace (q : Qp) (run : QpRun) (d : RdRead) (j : LoadJob) : Nat := (ldOf j.rec'.bytes).dst + 4096 * d.tile + run.got * q.mtu

def readBytes (q : Qp) (run : QpRun) (d : RdRead) (k : RocePkt) : List Byte := k.payload.take (min q.mtu (d.len - run.got * q.mtu))

/-- A queue pair that has taken one more packet of its oldest READ. -/
def QpRun.took (run : QpRun) (now : BitVec 64) : QpRun := { run with got := run.got + 1, retries := 0, since := now }

theorem exec_readResponse_middle {p i : Nat} {k : RocePkt} {d : RdRead} {rest : List RdRead} {j : LoadJob} {s : State} (hup : ethUp s p = true)
    (hqp : roceQp s p k = some i) (hout : (qpRun s p i).outstanding = d :: rest) (hpsn : k.psn.toNat = (d.psn + (qpRun s p i).got) % 2 ^ 24)
    (hjob : getJob s d.job = some j) (hmore : (qpRun s p i).got + 1 < d.pkts) :
    exec (.readResponse p k) s =
      .next (setQpRun (devWrite (rxArrive (roceFrame s p k) p) { ctx := j.rec'.ctx } (readPlace (qpRec s p i) (qpRun s p i) d j)
        (readBytes (qpRec s p i) (qpRun s p i) d k)) p i ((qpRun s p i).took s.time)) := by
  have hstand := (roceFrame_stand s p k).trans (rxArrive_stand (roceFrame s p k) p)
  change execReadResponse p k s = _
  unfold execReadResponse
  dsimp only
  rw [if_neg (by simp [hup])]
  generalize rxArrive (roceFrame s p k) p = u at hstand
  simp only [hstand.named, hqp, hstand.run, hstand.record, hout, hstand.job, hjob, hstand.time]
  rw [if_neg (not_not.mpr hpsn), if_pos hmore]
  unfold readPlace readBytes QpRun.took
  rw [hout]

theorem readResponse_middle {p i : Nat} {k : RocePkt} {d : RdRead} {rest : List RdRead} {j : LoadJob} {s : State} (hup : ethUp s p = true)
    (hqp : roceQp s p k = some i) (hout : (qpRun s p i).outstanding = d :: rest) (hpsn : k.psn.toNat = (d.psn + (qpRun s p i).got) % 2 ^ 24)
    (hjob : getJob s d.job = some j) (hmore : (qpRun s p i).got + 1 < d.pkts)
    (hspace : spaceOf (readPlace (qpRec s p i) (qpRun s p i) d j) = .uni)
    (hback : Backed s (readPlace (qpRec s p i) (qpRun s p i) d j) (readBytes (qpRec s p i) (qpRun s p i) d k).length) :
    ∃ t, exec (.readResponse p k) s = .next t ∧ Only (.oports :: writeParts) s t ∧
      mread t.uni (readPlace (qpRec s p i) (qpRun s p i) d j) (readBytes (qpRec s p i) (qpRun s p i) d k).length = readBytes (qpRec s p i) (qpRun s p i) d k ∧
      (∀ b, b < readPlace (qpRec s p i) (qpRun s p i) d j ∨
          readPlace (qpRec s p i) (qpRun s p i) d j + (readBytes (qpRec s p i) (qpRun s p i) d k).length ≤ b → mget t.uni b = mget s.uni b) ∧
      (qpRun t p i).got = (qpRun s p i).got + 1 ∧ (qpRun t p i).outstanding = (qpRun s p i).outstanding ∧ (qpRun t p i).since = s.time ∧ CtxsSeen s t := by
  have hexec := exec_readResponse_middle hup hqp hout hpsn hjob hmore
  obtain ⟨hunbacked, hlost⟩ := hback
  have hstand := (roceFrame_stand s p k).trans (rxArrive_stand (roceFrame s p k) p)
  generalize readPlace (qpRec s p i) (qpRun s p i) d j = a at *
  generalize readBytes (qpRec s p i) (qpRun s p i) d k = bs at *
  generalize rxArrive (roceFrame s p k) p = u at hexec hstand
  have hbacking : Backing s u := hstand.keeps.backing (by decide) (by decide)
  have hwrite := devWrite_keeps u { ctx := j.rec'.ctx } a bs
  have hset := setQpRun_keeps (devWrite u { ctx := j.rec'.ctx } a bs) p i ((qpRun s p i).took s.time)
  have huni : (setQpRun (devWrite u { ctx := j.rec'.ctx } a bs) p i ((qpRun s p i).took s.time)).uni = mwrite s.uni a bs := by
    rw [hset.only.2 .uni (by decide), devWrite_uni u _ a bs hspace (by rw [hbacking.unbacked]; exact hunbacked) (hbacking.lossless (lossless_of hlost)),
      show u.uni = s.uni from hstand.keeps.only.2 .uni (by decide)]
  have hrun := (setQpRun_self (devWrite u { ctx := j.rec'.ctx } a bs) p i ((qpRun s p i).took s.time)).1
  refine ⟨_, hexec, (((hstand.keeps.mono (by decide)).trans (hwrite.mono (by decide))).trans (hset.mono (by decide))).only, ?_, fun b hb => ?_, ?_, ?_, ?_, ?_⟩
  · rw [huni, mread_mwrite]
  · rw [huni, mget_mwrite_out _ _ _ _ hb]
  · rw [hrun]; rfl
  · rw [hrun]; rfl
  · rw [hrun]; rfl
  · exact ((hstand.keeps.ctxsSeen (by decide)).trans (devWrite_ctxs ..)).trans (hset.ctxsSeen (by decide))

/-! ### Requests sent again (R238) -/

/-- What is sent again from a PSN on: the requests from the one that has it. -/
theorem resendFrom_same (s : State) (p i : Nat) (f : Nat → Nat) (n : Nat) :
    qpRun (resendFrom s p i f n) p i = { qpRun s p i with since := s.time } ∧
      ∃ l, ((resendFrom s p i f n).oport p).ethOut = (s.oport p).ethOut ++ l ∧
        l.length = ((qpRun s p i).outstanding.dropWhile (fun x => !x.has n)).length := by
  obtain ⟨hrun, heth⟩ := setQpRun_self s p i { qpRun s p i with since := s.time }
  unfold resendFrom
  dsimp only
  refine ⟨((sendEth_stand ..).run i).trans hrun, ?_⟩
  unfold sendEth
  rw [State.modOport_get_oport_self]
  exact ⟨_, congrArg (· ++ _) heth, List.length_map ..⟩

/-- A queue pair that has sent again once more. -/
def QpRun.retried (run : QpRun) : QpRun := { run with retries := run.retries + 1 }

theorem qpRetry_from {s : State} {p i n : Nat} (h : (qpRun s p i).retries < (qpRec s p i).retry) :
    qpRetry s p i (some n) = resendFrom (setQpRun s p i (qpRun s p i).retried) p i (jobKey (setQpRun s p i (qpRun s p i).retried)) n :=
  if_neg (Nat.not_le.mpr h)

theorem qpRetry_all {s : State} {p i : Nat} (h : (qpRun s p i).retries < (qpRec s p i).retry) :
    qpRetry s p i none = resendReads (setQpRun s p i (qpRun s p i).retried) p i (jobKey (setQpRun s p i (qpRun s p i).retried)) :=
  if_neg (Nat.not_le.mpr h)

/-- A retry from a NAK's PSN counts, and sends again from there. -/
theorem qpRetry_from_sends {s : State} {p i n : Nat} (h : (qpRun s p i).retries < (qpRec s p i).retry) :
    Keeps [.oports] s (qpRetry s p i (some n)) ∧ (qpRun (qpRetry s p i (some n)) p i).retries = (qpRun s p i).retries + 1 ∧
      (qpRun (qpRetry s p i (some n)) p i).since = s.time ∧
      ∃ l, ((qpRetry s p i (some n)).oport p).ethOut = (s.oport p).ethOut ++ l ∧
        l.length = ((qpRun s p i).outstanding.dropWhile (fun x => !x.has n)).length := by
  obtain ⟨hset, heth⟩ := setQpRun_self s p i (qpRun s p i).retried
  have hkeeps := setQpRun_keeps s p i (qpRun s p i).retried
  rw [qpRetry_from h]
  generalize setQpRun s p i (qpRun s p i).retried = u at hset heth hkeeps
  obtain ⟨hrun, l, hl, hlen⟩ := resendFrom_same u p i (jobKey u) n
  rw [hset] at hrun hlen
  rw [heth] at hl
  exact ⟨hkeeps.trans (resendFrom_keeps ..), by rw [hrun]; rfl, by rw [hrun]; exact hkeeps.only.2 .time (by decide), l, hl, hlen⟩

/-- A retry after a timeout counts, and sends again all that is outstanding. -/
theorem qpRetry_all_sends {s : State} {p i : Nat} (h : (qpRun s p i).retries < (qpRec s p i).retry) :
    Keeps [.oports] s (qpRetry s p i none) ∧ (qpRun (qpRetry s p i none) p i).retries = (qpRun s p i).retries + 1 ∧
      ∃ l, ((qpRetry s p i none).oport p).ethOut = (s.oport p).ethOut ++ l ∧ l.length = (qpRun s p i).outstanding.length := by
  obtain ⟨hset, heth⟩ := setQpRun_self s p i (qpRun s p i).retried
  have hkeeps := setQpRun_keeps s p i (qpRun s p i).retried
  rw [qpRetry_all h]
  generalize setQpRun s p i (qpRun s p i).retried = u at hset heth hkeeps
  obtain ⟨hrun, l, hl, hlen⟩ := resendReads_same u p i (jobKey u)
  rw [hset] at hrun hlen
  rw [heth] at hl
  exact ⟨hkeeps.trans (resendReads_keeps ..), by rw [hrun]; rfl, l, hl, hlen⟩

/-! ### ACK, NAK and timeout -/

section

variable {p i : Nat} {k : RocePkt} {s : State} (hup : ethUp s p = true) (hqp : roceQp s p k = some i)
include hup hqp

theorem exec_ackOrNak_ack (hnak : k.nak = false) : exec (.ackOrNak p k) s = .next (roceFrame s p k) := by
  have hstand := roceFrame_stand s p k
  change execAckOrNak p k s = _
  simp only [execAckOrNak, hup, hstand.named, hqp, hnak, Bool.not_true, Bool.not_false, Bool.false_eq_true, if_false, if_true]

theorem exec_ackOrNak_seqErr (hnak : k.nak = true) (hseq : k.seqErr = true) :
    exec (.ackOrNak p k) s = .next (runJobs (if (qpRun s p i).outstanding.any (·.has k.psn.toNat) then
      qpRetry (roceFrame s p k) p i (some k.psn.toNat) else roceFrame s p k)) := by
  have hstand := roceFrame_stand s p k
  change execAckOrNak p k s = _
  simp only [execAckOrNak, hup, hstand.named, hqp, hnak, hseq, hstand.run, Bool.not_true, Bool.false_eq_true, if_false, if_true]

theorem ackOrNak_ack (hnak : k.nak = false) :
    ∃ t, exec (.ackOrNak p k) s = .next t ∧ Only [.oports] s t ∧ qpRun t p i = qpRun s p i ∧ (t.oport p).ethOut = (s.oport p).ethOut :=
  ⟨_, exec_ackOrNak_ack hup hqp hnak, (roceFrame_stand s p k).keeps.only, (roceFrame_stand s p k).run i, roceFrame_ethOut s p k⟩

theorem ackOrNak_resends (hnak : k.nak = true) (hseq : k.seqErr = true) (hloads : s.loads = [])
    (hhas : (qpRun s p i).outstanding.any (·.has k.psn.toNat) = true) (hretry : (qpRun s p i).retries < (qpRec s p i).retry) :
    ∃ t l, exec (.ackOrNak p k) s = .next t ∧ Only [.oports] s t ∧ (qpRun t p i).retries = (qpRun s p i).retries + 1 ∧
      (qpRun t p i).since = s.time ∧ (t.oport p).ethOut = (s.oport p).ethOut ++ l ∧
      l.length = ((qpRun s p i).outstanding.dropWhile (fun x => !x.has k.psn.toNat)).length := by
  have hexec := exec_ackOrNak_seqErr hup hqp hnak hseq
  have hstand := roceFrame_stand s p k
  have heth := roceFrame_ethOut s p k
  rw [if_pos hhas] at hexec
  generalize roceFrame s p k = u at hexec hstand heth
  obtain ⟨hkeeps, hcount, hsince, l, hl, hlen⟩ := qpRetry_from_sends (s := u) (p := p) (i := i) (n := k.psn.toNat)
    (by rw [hstand.run, hstand.record]; exact hretry)
  have hidle : (qpRetry u p i (some k.psn.toNat)).loads = [] :=
    (hkeeps.only.2 .loads (by decide)).trans ((hstand.keeps.only.2 .loads (by decide)).trans hloads)
  rw [runJobs_idle _ hidle] at hexec
  rw [hstand.run] at hcount hlen
  exact ⟨_, l, hexec, (hstand.keeps.trans hkeeps).only, hcount, hsince.trans hstand.time, by rw [hl, heth], hlen⟩

theorem ackOrNak_unknown (hnak : k.nak = true) (hseq : k.seqErr = true) (hloads : s.loads = [])
    (hnone : (qpRun s p i).outstanding.any (·.has k.psn.toNat) = false) :
    ∃ t, exec (.ackOrNak p k) s = .next t ∧ Only [.oports] s t ∧ qpRun t p i = qpRun s p i ∧ (t.oport p).ethOut = (s.oport p).ethOut := by
  have hexec := exec_ackOrNak_seqErr hup hqp hnak hseq
  have hstand := roceFrame_stand s p k
  rw [if_neg (by simp [hnone]), runJobs_idle _ ((hstand.keeps.only.2 .loads (by decide)).trans hloads)] at hexec
  exact ⟨_, hexec, hstand.keeps.only, hstand.run i, roceFrame_ethOut s p k⟩

end

theorem qpTimeout_resends {p i : Nat} {s : State} (hloads : s.loads = []) (hout : (qpRun s p i).outstanding ≠ [])
    (hretry : (qpRun s p i).retries < (qpRec s p i).retry) (hdue : (qpRun s p i).since.toNat + 4096 * 2 ^ (qpRec s p i).timeout ≤ s.time.toNat) :
    ∃ t l, exec (.qpTimeout p i) s = .next t ∧ Only [.oports] s t ∧ (qpRun t p i).retries = (qpRun s p i).retries + 1 ∧
      (t.oport p).ethOut = (s.oport p).ethOut ++ l ∧ l.length = (qpRun s p i).outstanding.length := by
  obtain ⟨hkeeps, hcount, l, hl, hlen⟩ := qpRetry_all_sends hretry
  have hexec : exec (.qpTimeout p i) s = .next (runJobs (qpRetry s p i none)) := if_neg (by simpa using ⟨hout, hdue⟩)
  rw [runJobs_idle _ ((hkeeps.only.2 .loads (by decide)).trans hloads)] at hexec
  exact ⟨_, l, hexec, hkeeps.only, hcount, hl, hlen⟩

/-- Settles O52: what each frame that arrives, and a timeout, does to the queue pair it names. -/
theorem queuePairs : Obligations.QueuePairs := by
  refine ⟨fun p prio quanta i s _ _ hup hi hprio hloads => pause_stops hup hi hprio hloads, ?_, ?_, ?_⟩
  · exact fun p i k d rest j s _ hup hqp hout hpsn hjob hmore => fun hspace hback =>
      readResponse_middle hup hqp hout hpsn hjob hmore hspace hback
  · exact fun p i k s _ hup hqp => ⟨fun hnak => ackOrNak_ack hup hqp hnak, fun hnak hseq hloads =>
      ⟨fun hhas hretry => ackOrNak_resends hup hqp hnak hseq hloads hhas hretry, fun hnone => ackOrNak_unknown hup hqp hnak hseq hloads hnone⟩⟩
  · exact fun p i s _ _ hloads hout hretry hdue => qpTimeout_resends hloads hout hretry hdue

end Sys2Proof.Machine
end

section
/-! MATMUL, VECOP and VECRED run to their end, and what a VECOP computes (R58, R82, R83). -/

namespace Sys2Proof.Machine

open Sys2Proof

/-! ### What a command that runs alone on its core leaves -/

/-- From `s` to `t` core `n` alone changes, and there the one command that started as `r` ends done. -/
structure RanAlone (n : Nat) (r : Running) (s t : State) : Prop where
  ran : CoreRan n r.start s t
  own : ∀ x ∈ (t.core n).running, x.start = r.start → x.done = true ∧ x.rec' = r.rec' ∧ (x.status = stDone ∨ x.status = stSaturated)

/-- The same, as the statement of the three commands has it. -/
theorem RanAlone.outcome {n : Nat} {r : Running} {cmd : Instr} {s t : State} (h : RanAlone n r s t) (hexec : exec cmd s = .next t) :
    ∃ t, exec cmd s = .next t ∧ Only [.cores] s t ∧ (∀ m, m ≠ n → t.core m = s.core m) ∧ (t.core n).queues = (s.core n).queues ∧
       (t.core n).running.map (·.start) = (s.core n).running.map (·.start) ∧
       (∀ x ∈ (t.core n).running, x.start = r.start → x.done = true ∧ x.rec' = r.rec' ∧ (x.status = stDone ∨ x.status = stSaturated)) ∧
       ∀ x ∈ (s.core n).running, x.start ≠ r.start → x ∈ (t.core n).running :=
  ⟨t, hexec, h.ran.keeps.only, h.ran.others, h.ran.queues, h.ran.starts, h.own, h.ran.rest⟩

/-- A plan within the core's scratchpad, no word of it in error, ends its command DONE or SATURATED. -/
theorem runPlan_alone {n : Nat} {r : Running} {p : Plan} {s : State} (hbad : (s.core n).bad = [])
    (hp : (∀ x ∈ p.rds, x.scratch = some n) ∧ (∀ w ∈ p.wrs, w.scratch = some n) ∧ p.cut = false ∧ p.status = []) :
    RanAlone n r s (runPlan s n r p) := by
  obtain ⟨hrds, hwrs, hcut, hstatus⟩ := hp
  obtain ⟨hran, -, hown⟩ := runPlan_clean s n r p hbad hrds hwrs hcut
  refine ⟨hran, fun x hx hs => ?_⟩
  rw [hown x hx hs]
  exact ⟨rfl, rfl, by simp only [hstatus, List.nil_append]; exact worst_sat ..⟩

/-! ### MATMUL -/

/-- The buffers of an operation that ends are EMPTY, and nothing else of the core changes. -/
theorem freeBufs_ran (s : State) (n start t st : Nat) : CoreRan n st s (freeBufs s n start t) := by
  unfold freeBufs
  refine CoreRan.modCore (fun _ h => h) rfl rfl rfl (fun hbufs => ?_)
  obtain ⟨h0, h1⟩ := hbufs
  refine ⟨?_, ?_⟩
  · dsimp only
    split
    · rfl
    · exact h0
  · dsimp only
    split
    · rfl
    · exact h1

theorem freeBufs_running (s : State) (n start t : Nat) : ((freeBufs s n start t).core n).running = (s.core n).running := by
  unfold freeBufs
  rw [State.modCore_get_core_self]

theorem matmul_alone {n : Nat} {r : Running} {s : State} (hrun : runningOp (s.core n) 0 [0x01] = some r) (hbad : (s.core n).bad = [])
    (hleft : tilesLeft (s.core n) r (matParam r.rec'.bytes) ≠ []) (hbufs : bufsGood (s.core n)) :
    ∃ t, exec (.matmul n) s = .next t ∧ RanAlone n r s t := by
  have hexec : ∃ k, exec (.matmul n) s = .next (freeBufs (runTiles (putRun (coreCount s n 0x028 k) n { r with tiles := (matParam r.rec'.bytes).tiles }) n
      { r with tiles := (matParam r.rec'.bytes).tiles } (matParam r.rec'.bytes) (tilesLeft (s.core n) r (matParam r.rec'.bytes))).1 n r.start 0) := by
    change ∃ k, execMatmul n s = _
    unfold execMatmul
    rw [hrun]
    exact ⟨_, rfl⟩
  obtain ⟨k, hexec⟩ := hexec
  have hstart : CoreRan n r.start s (putRun (coreCount s n 0x028 k) n { r with tiles := (matParam r.rec'.bytes).tiles }) :=
    (coreCount_ran s n 0x028 k r.start).trans (putRun_ran (coreCount s n 0x028 k) n { r with tiles := (matParam r.rec'.bytes).tiles }).1
  generalize putRun (coreCount s n 0x028 k) n { r with tiles := (matParam r.rec'.bytes).tiles } = u at hexec hstart
  obtain ⟨hran, hown⟩ := runTiles_clean n (matParam r.rec'.bytes) _ u { r with tiles := (matParam r.rec'.bytes).tiles } hleft
    (by rw [hstart.bad]; exact hbad) (hstart.bufs hbufs)
  refine ⟨_, hexec, (hstart.trans hran).trans (freeBufs_ran ..), fun x hx => ?_⟩
  rw [freeBufs_running] at hx
  exact hown x hx

/-! ### VECOP and VECRED -/

theorem exec_vecop {n : Nat} {r : Running} {s : State} (hrun : runningOp (s.core n) 1 [0x10] = some r) :
    exec (.vecop n) s = .next (runPlan s n r (vecPlan s n r.rec'.bytes)) := by
  change execVecop n s = _
  unfold execVecop
  rw [hrun]

theorem vecop_alone {n : Nat} {r : Running} {s : State} (hrun : runningOp (s.core n) 1 [0x10] = some r) (hbad : (s.core n).bad = []) :
    ∃ t, exec (.vecop n) s = .next t ∧ RanAlone n r s t :=
  ⟨_, exec_vecop hrun, runPlan_alone hbad (vecPlan_clean s n r.rec'.bytes hbad)⟩

theorem vecred_alone {n : Nat} {r : Running} {s : State} (hrun : runningOp (s.core n) 1 [0x11] = some r) (hbad : (s.core n).bad = []) :
    ∃ t, exec (.vecred n) s = .next t ∧ RanAlone n r s t := by
  have hplan := redPlan_clean s n r.rec'.bytes hbad
  refine ⟨runPlan s n r (redPlan s n r.rec'.bytes), ?_, runPlan_alone hbad hplan⟩
  change execVecred n s = _
  unfold execVecred
  rw [hrun]
  exact if_neg (by rw [hplan.2.2.1]; decide)

/-! ### What a VECOP computes -/

/-- The write of element `i` of Z. -/
def vecWr (s : State) (n : Nat) (b : List Byte) (i : Nat) : Wr :=
  let p := vecParam b
  let e := vecElem p (elemCode p.xfmt (spRead s n p.x p.regX.reg.2) i) (elemCode p.yfmt (spRead s n p.y p.regY.reg.2) i)
  { scratch := some n, addr := p.z + i * fmtSize p.zfmt, bytes := e.bytes, sat := e.sat, nan := e.nan }

theorem vecWr_length (s : State) (n : Nat) (b : List Byte) (i : Nat) : (vecWr s n b i).bytes.length = fmtSize (vecParam b).zfmt := natLE_length ..

theorem vecPlan_wrs {s : State} {n : Nat} (b : List Byte) (hbad : (s.core n).bad = []) :
    (vecPlan s n b).wrs = (List.range (vecParam b).count).map (vecWr s n b) := by
  have hrds : ∀ r ∈ ([⟨some n, (vecParam b).x, (vecParam b).regX.reg.2⟩, ⟨some n, (vecParam b).y, (vecParam b).regY.reg.2⟩] : List Rd),
      r.scratch = some n := by simp
  unfold vecPlan
  dsimp only
  rw [(rdsTouch_clean {} n s hbad _ hrds).2]
  rfl

/-- Every byte of the scratchpad after a VECOP is that of the elements' writes in order. -/
theorem vecop_scratch {n : Nat} {r : Running} {s : State} (hbad : (s.core n).bad = []) (a : Nat) :
    mget ((runPlan s n r (vecPlan s n r.rec'.bytes)).core n).scratch a =
      mget (wroteAll (s.core n).scratch ((List.range (vecParam r.rec'.bytes).count).map (vecWr s n r.rec'.bytes))) a := by
  obtain ⟨hrds, hwrs, hcut, -⟩ := vecPlan_clean s n r.rec'.bytes hbad
  rw [(runPlan_clean s n r _ hbad hrds hwrs hcut).2.1, coalesce_wrote n a _ _ hwrs, vecPlan_wrs _ hbad]

theorem vecop_computes {n : Nat} {r : Running} {s : State} (hrun : runningOp (s.core n) 1 [0x10] = some r) (hbad : (s.core n).bad = []) :
    let p := vecParam r.rec'.bytes
    let z := fmtSize p.zfmt
    ∃ t, exec (.vecop n) s = .next t ∧
      (∀ i, i < p.count → mread (t.core n).scratch (p.z + i * z) z =
        (vecElem p (elemCode p.xfmt (spRead s n p.x p.regX.reg.2) i) (elemCode p.yfmt (spRead s n p.y p.regY.reg.2) i)).bytes) ∧
      ∀ a, (a < p.z ∨ p.z + p.count * z ≤ a) → mget (t.core n).scratch a = mget (s.core n).scratch a := by
  intro p z
  obtain ⟨helem, hout⟩ := wroteAll_elems p.z z (vecWr s n r.rec'.bytes) (fun _ => rfl) (vecWr_length s n r.rec'.bytes) (s.core n).scratch p.count
  refine ⟨_, exec_vecop hrun, fun i hi => ?_, fun a ha => (vecop_scratch hbad a).trans (hout a ha)⟩
  exact (mread_congr _ _ _ _ fun x _ _ => vecop_scratch hbad x).trans (helem i hi)

/-- Settles O53: each of the three commands runs alone on its core, and a VECOP writes its elements and no other byte. -/
theorem matrixAndVectorRun : Obligations.MatrixAndVectorRun := by
  refine ⟨?_, fun n r s _ hrun hbad => vecop_computes hrun hbad⟩
  rintro n e op cmd r s - (⟨rfl, rfl, rfl⟩ | ⟨rfl, rfl, rfl⟩ | ⟨rfl, rfl, rfl⟩) hrun hbad hmat
  · obtain ⟨hleft, hbufs⟩ := hmat rfl
    obtain ⟨t, hexec, halone⟩ := matmul_alone hrun hbad hleft hbufs
    exact halone.outcome hexec
  · obtain ⟨t, hexec, halone⟩ := vecop_alone hrun hbad
    exact halone.outcome hexec
  · obtain ⟨t, hexec, halone⟩ := vecred_alone hrun hbad
    exact halone.outcome hexec

end Sys2Proof.Machine
end

section
/-! The tile buffers of the matrix array: EMPTY, FILLING, FULL, DRAINING (R70, R71). -/

namespace Sys2Proof.Machine

open Sys2Proof

/-! ### A core's two buffers -/

theorem Core.buf_setBuf_self (c : Core) (one : Bool) (b : TileBuf) : (c.setBuf one b).buf one = b := by cases one <;> rfl

theorem Core.buf_setBuf_not (c : Core) (one : Bool) (b : TileBuf) : (c.setBuf one b).buf (!one) = c.buf (!one) := by cases one <;> rfl

/-- From `s` to `t` core `n` alone changes, and there neither its scratchpad, nor its words in error, nor its running commands. -/
structure OnBuffers (n : Nat) (s t : State) : Prop where
  keeps   : Keeps [.cores] s t
  others  : ∀ m, m ≠ n → t.core m = s.core m
  scratch : (t.core n).scratch = (s.core n).scratch
  bad     : (t.core n).bad = (s.core n).bad
  running : (t.core n).running = (s.core n).running

theorem OnBuffers.refl (n : Nat) (s : State) : OnBuffers n s s := ⟨Keeps.refl _ _, fun _ _ => rfl, rfl, rfl, rfl⟩

theorem OnBuffers.trans {n : Nat} {s t u : State} (h : OnBuffers n s t) (k : OnBuffers n t u) : OnBuffers n s u :=
  ⟨h.keeps.trans k.keeps, fun m hm => (k.others m hm).trans (h.others m hm), k.scratch.trans h.scratch, k.bad.trans h.bad, k.running.trans h.running⟩

theorem OnBuffers.modCore {n : Nat} {s : State} {f : Core → Core} (hs : ∀ c, (f c).scratch = c.scratch) (hb : (f (s.core n)).bad = (s.core n).bad)
    (hr : (f (s.core n)).running = (s.core n).running) : OnBuffers n s (s.modCore n f) := by
  refine ⟨State.modCore_keeps _ _ _ (fun c h => by rw [hs c]; exact h), fun m hm => State.modCore_get_core_ne _ _ _ _ hm, ?_, ?_, ?_⟩
  · rw [State.modCore_get_core_self, hs]
  · rw [State.modCore_get_core_self, hb]
  · rw [State.modCore_get_core_self, hr]

/-- A buffer is replaced. -/
def putBuf (s : State) (n : Nat) (one : Bool) (b : TileBuf) : State := s.modCore n (fun c => c.setBuf one b)

theorem putBuf_on (s : State) (n : Nat) (one : Bool) (b : TileBuf) : OnBuffers n s (putBuf s n one b) :=
  OnBuffers.modCore (fun c => Core.setBuf_scratch c one b) (by cases one <;> rfl) (by cases one <;> rfl)

theorem putBuf_self (s : State) (n : Nat) (one : Bool) (b : TileBuf) : ((putBuf s n one b).core n).buf one = b := by
  unfold putBuf
  rw [State.modCore_get_core_self, Core.buf_setBuf_self]

theorem putBuf_not (s : State) (n : Nat) (one : Bool) (b : TileBuf) : ((putBuf s n one b).core n).buf (!one) = (s.core n).buf (!one) := by
  unfold putBuf
  rw [State.modCore_get_core_self, Core.buf_setBuf_not]

theorem coreCount_on_buffers (s : State) (n o k : Nat) : OnBuffers n s (coreCount s n o k) := by
  unfold coreCount
  split
  · exact OnBuffers.refl ..
  · exact OnBuffers.modCore (fun _ => rfl) rfl rfl

theorem coreCount_buf (s : State) (n o k : Nat) (one : Bool) : ((coreCount s n o k).core n).buf one = (s.core n).buf one := by
  unfold coreCount
  split
  · rfl
  · rw [State.modCore_get_core_self]; cases one <;> rfl

theorem putRun_buf (s : State) (n : Nat) (r : Running) (one : Bool) :
    ((putRun s n r).core n).buf one = (s.core n).buf one ∧ ((putRun s n r).core n).epiFreeT = (s.core n).epiFreeT := by
  unfold putRun
  rw [State.modCore_get_core_self]
  exact ⟨by cases one <;> rfl, rfl⟩

/-! ### TILE_FILL_START -/

/-- The buffer that a tile of an operation starts to fill in CCLK `t`. -/
def filling (r : Running) (t : Nat) : TileBuf :=
  let p := matParam r.rec'.bytes
  let last := if p.fetches = 0 then t else t + (p.fetches - 1) * p.spacing
  { st := .filling, op := r.start, tile := r.tiles, firstT := t, lastT := last, nextT := if p.fetches = 0 then t + 1 else last + p.spacing }

/-- Which buffer is free: the first, or the second where the first is not. -/
theorem fill_admitted {c : Core} {t : Nat} {one : Bool} (hempty : (c.buf one).st = .empty) (hfirst : one = true → c.buf0.st ≠ .empty)
    (htime : (c.buf one).emptyT ≤ t) :
    (c.buf0.st == .empty) = !one ∧ (!(c.buf0.st == .empty) && !(c.buf1.st == .empty)) = false ∧
      (if (c.buf0.st == .empty) = true then c.buf0.emptyT else c.buf1.emptyT) ≤ t := by
  cases one with
  | false =>
    have h0 : (c.buf0.st == .empty) = true := beq_iff_eq.mpr hempty
    rw [h0]
    exact ⟨rfl, rfl, htime⟩
  | true =>
    have h0 : (c.buf0.st == .empty) = false := beq_eq_false_iff_ne.mpr (hfirst rfl)
    have h1 : (c.buf1.st == .empty) = true := beq_iff_eq.mpr hempty
    rw [h0, h1]
    exact ⟨rfl, rfl, htime⟩

theorem exec_tileFillStart_free {n t : Nat} {one : Bool} {r : Running} {s : State} (hrun : fillRun (s.core n) = some r)
    (hempty : ((s.core n).buf one).st = .empty) (hfirst : one = true → (s.core n).buf0.st ≠ .empty) (htime : ((s.core n).buf one).emptyT ≤ t)
    (harray : arrayFree (s.core n) ≤ t) :
    ∃ v k, OnBuffers n s v ∧ (∀ o, (v.core n).buf o = (s.core n).buf o) ∧
      exec (.tileFillStart n t) s = .next (putRun (putBuf (coreCount v n 0x028 k) n one (filling r t)) n { r with tiles := r.tiles + 1 }) := by
  obtain ⟨h0, hfull, hdue⟩ := fill_admitted hempty hfirst htime
  have hput (u : State) (b : TileBuf) :
      u.modCore n (fun c => if (!one) = true then { c with buf0 := b } else { c with buf1 := b }) = putBuf u n one b := by cases one <;> rfl
  have hfree (x : Nat) : OnBuffers n s (freeBelow s x).2 := ⟨(freeBelow_keeps s x).mono (by decide), fun _ _ => rfl, rfl, rfl, rfl⟩
  change ∃ v k, _ ∧ _ ∧ execTileFillStart n t s = _
  unfold execTileFillStart
  dsimp only
  rw [hrun]
  dsimp only
  rw [hfull, Bool.false_or, if_neg (by simp only [Bool.or_eq_true, decide_eq_true_eq]; omega)]
  by_cases hlate : (decide (r.tiles = 0) && min t (if ((s.core n).buf0.st == BufState.empty && (s.core n).buf1.st == BufState.empty) = true then
      min (s.core n).buf0.emptyT (s.core n).buf1.emptyT else if ((s.core n).buf0.st == BufState.empty) = true then (s.core n).buf0.emptyT
      else (s.core n).buf1.emptyT) - arrayFree (s.core n) != 0) = true
  · rw [if_pos hlate, h0]
    exact ⟨_, _, hfree _, fun _ => rfl, congrArg (fun u => Host.Outcome.next (putRun u n _)) (hput _ _)⟩
  · rw [if_neg hlate, h0]
    exact ⟨s, _, OnBuffers.refl .., fun _ => rfl, congrArg (fun u => Host.Outcome.next (putRun u n _)) (hput _ _)⟩

theorem tileFillStart_runs {n t : Nat} {one : Bool} {r : Running} {s : State} (hrun : fillRun (s.core n) = some r)
    (hempty : ((s.core n).buf one).st = .empty) (hfirst : one = true → (s.core n).buf0.st ≠ .empty) (htime : ((s.core n).buf one).emptyT ≤ t)
    (harray : arrayFree (s.core n) ≤ t) :
    ∃ u, exec (.tileFillStart n t) s = .next u ∧ Only [.cores] s u ∧ ((u.core n).buf one).st = .filling ∧ ((u.core n).buf one).op = r.start ∧
       ((u.core n).buf one).tile = r.tiles ∧ ((u.core n).buf one).firstT = t ∧ (u.core n).buf (!one) = (s.core n).buf (!one) ∧
       (u.core n).scratch = (s.core n).scratch ∧ (∀ x ∈ (u.core n).running, x.start = r.start → x.tiles = r.tiles + 1) ∧
       ∀ m, m ≠ n → u.core m = s.core m := by
  obtain ⟨v, k, hv, hbufs, hexec⟩ := exec_tileFillStart_free hrun hempty hfirst htime harray
  have hon := (hv.trans (coreCount_on_buffers v n 0x028 k)).trans (putBuf_on (coreCount v n 0x028 k) n one (filling r t))
  have hself := putBuf_self (coreCount v n 0x028 k) n one (filling r t)
  have hnot := putBuf_not (coreCount v n 0x028 k) n one (filling r t)
  rw [coreCount_buf, hbufs] at hnot
  generalize putBuf (coreCount v n 0x028 k) n one (filling r t) = u at hexec hon hself hnot
  obtain ⟨hran, hown, hscratch⟩ := putRun_ran u n { r with tiles := r.tiles + 1 }
  have hbuf (o : Bool) := (putRun_buf u n { r with tiles := r.tiles + 1 } o).1
  rw [← hbuf] at hself hnot
  refine ⟨_, hexec, (hon.keeps.trans hran.keeps).only, ?_, ?_, ?_, ?_, hnot, hscratch.trans hon.scratch, fun x hx hs => by rw [hown x hx hs],
    fun m hm => (hran.others m hm).trans (hon.others m hm)⟩
  all_goals rw [hself]; rfl

/-! ### TOTALS_FINAL -/

/-- The totals of a tile are read from the scratchpad alone. -/
theorem loadTots_congr {s t : State} {n : Nat} (h : (t.core n).scratch = (s.core n).scratch) (p : MatParam) (b : TileBuf) :
    loadTots t n p b = loadTots s n p b := by
  simp only [loadTots, tileTots, spRead, h]

/-- What TOTALS_FINAL makes of one buffer. -/
structure Finished (n t : Nat) (one : Bool) (s u : State) : Prop where
  on    : OnBuffers n s u
  other : (u.core n).buf (!one) = (s.core n).buf (!one)
  full  : ∀ r, ((s.core n).buf one).st = .filling → fullAt ((s.core n).buf one) ≤ t →
    (s.core n).running.find? (fun x => x.start == ((s.core n).buf one).op) = some r →
    (u.core n).buf one = loadTots s n (matParam r.rec'.bytes) { (s.core n).buf one with st := .full, fullT := fullAt ((s.core n).buf one) }
  waits : ((s.core n).buf one).st ≠ .filling ∨ t < fullAt ((s.core n).buf one) → (u.core n).buf one = (s.core n).buf one

/-- With no word in error a FILLING buffer whose totals are final becomes FULL, and nothing else happens. -/
theorem fillEnd_finished {n : Nat} (t : Nat) {s : State} (one : Bool) (hbad : (s.core n).bad = []) : Finished n t one s (fillEnd n t s one) := by
  unfold fillEnd
  dsimp only
  split
  · next hst => exact ⟨OnBuffers.refl .., rfl, fun _ h => absurd h hst, fun _ => rfl⟩
  · next hst =>
    split
    · next hnone => exact ⟨OnBuffers.refl .., rfl, fun r _ _ hfind => absurd (hnone.symm.trans hfind) (by simp), fun _ => rfl⟩
    · next r hr =>
      rw [faultFetch_clean s n _ _ hbad]
      by_cases htime : fullAt ((s.core n).buf one) ≤ t
      · rw [if_neg (by simp), if_pos (by simpa using htime)]
        have hcount : OnBuffers n s (countFetches s n (matParam r.rec'.bytes) ((s.core n).buf one).tile (matParam r.rec'.bytes).fetches) :=
          (coreCount_on_buffers ..).trans (coreCount_on_buffers ..)
        have hcountBuf : ((countFetches s n (matParam r.rec'.bytes) ((s.core n).buf one).tile (matParam r.rec'.bytes).fetches).core n).buf (!one) =
            (s.core n).buf (!one) := (coreCount_buf ..).trans (coreCount_buf ..)
        rw [(rdsTouch_clean r.by n _ (by rw [hcount.bad]; exact hbad) _ (fillRds_scratch n _ _)).1, loadTots_congr hcount.scratch]
        generalize countFetches s n (matParam r.rec'.bytes) ((s.core n).buf one).tile (matParam r.rec'.bytes).fetches = v at hcount hcountBuf
        refine ⟨hcount.trans (putBuf_on ..), (putBuf_not ..).trans hcountBuf, fun q _ _ hq => ?_, fun h => ?_⟩
        · cases hr.symm.trans hq
          exact putBuf_self ..
        · exact absurd h (by rw [not_or, not_not]; exact ⟨not_not.mp hst, by omega⟩)
      · rw [if_neg (by simp), if_neg (by simpa using htime)]
        exact ⟨OnBuffers.refl .., rfl, fun _ _ h => absurd h htime, fun _ => rfl⟩

theorem totalsFinal_runs {n : Nat} (t : Nat) {s : State} (hbad : (s.core n).bad = []) :
    ∃ u, exec (.totalsFinal n t) s = .next u ∧ Only [.cores] s u ∧ (u.core n).scratch = (s.core n).scratch ∧ (u.core n).running = (s.core n).running ∧
       (∀ m, m ≠ n → u.core m = s.core m) ∧
       ∀ one, (∀ r, ((s.core n).buf one).st = .filling → fullAt ((s.core n).buf one) ≤ t →
           (s.core n).running.find? (fun x => x.start == ((s.core n).buf one).op) = some r →
           (u.core n).buf one = loadTots s n (matParam r.rec'.bytes) { (s.core n).buf one with st := .full, fullT := fullAt ((s.core n).buf one) }) ∧
         (((s.core n).buf one).st ≠ .filling ∨ t < fullAt ((s.core n).buf one) → (u.core n).buf one = (s.core n).buf one) := by
  have hexec : exec (.totalsFinal n t) s = .next (fillEnd n t (fillEnd n t s false) true) := rfl
  have hfirst := fillEnd_finished t false hbad
  generalize fillEnd n t s false = v at hexec hfirst
  have hsecond := fillEnd_finished t true (hfirst.on.bad.trans hbad)
  have hon := hfirst.on.trans hsecond.on
  refine ⟨_, hexec, hon.keeps.only, hon.scratch, hon.running, hon.others, fun one => ?_⟩
  cases one with
  | false =>
    have hkept : ((fillEnd n t v true).core n).buf false = (v.core n).buf false := hsecond.other
    exact ⟨fun r hst htime hfind => hkept.trans (hfirst.full r hst htime hfind), fun h => hkept.trans (hfirst.waits h)⟩
  | true =>
    have hkept : (v.core n).buf true = (s.core n).buf true := hfirst.other
    have hfull := hsecond.full
    have hwaits := hsecond.waits
    rw [hkept] at hfull hwaits
    refine ⟨fun r hst htime hfind => ?_, hwaits⟩
    rw [hfull r hst htime (by rw [hfirst.on.running]; exact hfind), loadTots_congr hfirst.on.scratch]

/-! ### EPILOGUE_START -/

theorem epilogueStart_runs {n t : Nat} {one : Bool} {r : Running} {s : State} (hold : oldestFull (s.core n) = some one)
    (hidle : (s.core n).draining = false) (hfull : ((s.core n).buf one).fullT + 1 ≤ t) (hepi : (s.core n).epiFreeT ≤ t)
    (hfind : (s.core n).running.find? (fun x => x.start == ((s.core n).buf one).op) = some r) :
    ∃ u, exec (.epilogueStart n t) s = .next u ∧ Only [.cores] s u ∧
       (u.core n).buf one = { (s.core n).buf one with st := .draining, emptyT := (matParam r.rec'.bytes).drainTime ((s.core n).buf one).tile t } ∧
       t < ((u.core n).buf one).emptyT ∧ (u.core n).buf (!one) = (s.core n).buf (!one) ∧ ∀ m, m ≠ n → u.core m = s.core m := by
  have hexec : exec (.epilogueStart n t) s = .next (putBuf s n one
      { (s.core n).buf one with st := .draining, emptyT := (matParam r.rec'.bytes).drainTime ((s.core n).buf one).tile t }) := by
    change execEpilogueStart n t s = _
    unfold execEpilogueStart
    dsimp only
    rw [hold]
    dsimp only
    rw [if_neg (by simp only [hidle, Bool.false_or, Bool.or_eq_true, decide_eq_true_eq]; omega), hfind]
    rfl
  have hon := putBuf_on s n one { (s.core n).buf one with st := .draining, emptyT := (matParam r.rec'.bytes).drainTime ((s.core n).buf one).tile t }
  refine ⟨_, hexec, hon.keeps.only, putBuf_self .., ?_, putBuf_not .., hon.others⟩
  rw [putBuf_self]
  unfold MatParam.drainTime
  dsimp only
  omega

/-! ### BUFFER_EMPTY -/

/-- A drain with no word in error writes the tile's rows and its command's entry. -/
theorem drainTile_state {s : State} {n : Nat} {p : MatParam} {b : TileBuf} (r : Running) (last : Bool) (t : Nat) (hbad : (s.core n).bad = [])
    (hbuf : b.bad = []) : ∃ y, (drainTile s n r p b last t).1 = putRun (applyWrs r.by s (tilePlan s n p b).wrs) n y := by
  obtain ⟨hrds, hcut⟩ := tilePlan_clean s n p b hbad hbuf
  have hclean := (applyWrs_ran r.by n r.start (tilePlan s n p b).wrs s (tilePlan_scratch s n p b) hbad).bad.trans hbad
  have htouch : bufTouch (applyWrs r.by s (tilePlan s n p b).wrs) n r.rec'.ctx
      ((badWords [] 0 (p.rowsIn b.tile * p.bufRow)).filter (fun x => x.2 == 1)) = applyWrs r.by s (tilePlan s n p b).wrs := rfl
  unfold drainTile
  simp only [hcut, hbuf, drainFault_clean s n p b hbad hbuf, Bool.false_eq_true, if_false]
  rw [htouch, hrds, (rdsTouch_clean _ n _ hclean _ (epiRds_scratch n p b.tile)).1]
  exact ⟨_, rfl⟩

/-- It leaves the buffers and the epilogue's clock. -/
theorem drainTile_buf {s : State} {n : Nat} {p : MatParam} {b : TileBuf} (r : Running) (last : Bool) (t : Nat) (hbad : (s.core n).bad = [])
    (hbuf : b.bad = []) (one : Bool) :
    ((drainTile s n r p b last t).1.core n).buf one = (s.core n).buf one ∧ ((drainTile s n r p b last t).1.core n).epiFreeT = (s.core n).epiFreeT := by
  obtain ⟨y, hy⟩ := drainTile_state (p := p) r last t hbad hbuf
  have hcore := (applyWrs_clean r.by n (tilePlan s n p b).wrs s (tilePlan_scratch s n p b) hbad).2.1
  obtain ⟨hput, hepi⟩ := putRun_buf (applyWrs r.by s (tilePlan s n p b).wrs) n y one
  rw [hy, hput, hepi, hcore]
  exact ⟨by cases one <;> rfl, rfl⟩

/-- The rows that a drain writes are read from the scratchpad and the buffer alone, where no word of either is in error. -/
theorem tilePlan_congr {s t : State} {n : Nat} {p : MatParam} {b : TileBuf} (h : (t.core n).scratch = (s.core n).scratch)
    (hs : (s.core n).bad = []) (ht : (t.core n).bad = []) (hbuf : b.bad = []) : tilePlan t n p b = tilePlan s n p b := by
  have hrow (cs bs : List F32) : drainRow n p b cs bs t = drainRow n p b cs bs s := by
    funext r
    simp only [drainRow, spRead, h]
  simp only [tilePlan, drainFault_clean s n p b hs hbuf, drainFault_clean t n p b ht hbuf, hrow, spRead, h]

/-- A buffer that has written its last row. -/
def TileBuf.emptied (b : TileBuf) : TileBuf := { b with st := .empty, tots := [], marks := [], bad := [] }

/-- The buffer is EMPTY, and the epilogue free from the CCLK of its last row. -/
def bufEmptied (s : State) (n : Nat) (one : Bool) : State :=
  s.modCore n (fun c => { (c.setBuf one ((s.core n).buf one).emptied) with epiFreeT := ((s.core n).buf one).emptyT })

theorem bufEmptied_on (s : State) (n : Nat) (one : Bool) : OnBuffers n s (bufEmptied s n one) :=
  OnBuffers.modCore (fun c => Core.setBuf_scratch c one _) (by cases one <;> rfl) (by cases one <;> rfl)

theorem bufEmptied_bufs (s : State) (n : Nat) (one : Bool) :
    ((bufEmptied s n one).core n).buf one = ((s.core n).buf one).emptied ∧ ((bufEmptied s n one).core n).buf (!one) = (s.core n).buf (!one) ∧
      ((bufEmptied s n one).core n).epiFreeT = ((s.core n).buf one).emptyT := by
  unfold bufEmptied
  rw [State.modCore_get_core_self]
  exact ⟨by cases one <;> rfl, by cases one <;> rfl, rfl⟩

/-- No tile of the operation remains once this one is drained. -/
def lastDrain (c : Core) (r : Running) (one : Bool) : Bool :=
  decide ((matParam r.rec'.bytes).tiles ≤ r.tiles) && !((c.buf (!one)).op == r.start && (c.buf (!one)).st != .empty)

/-- The one buffer that drains is found by the second's state. -/
theorem draining_buf {c : Core} {one : Bool} (hdrain : (c.buf one).st = .draining) (hother : (c.buf (!one)).st ≠ .draining) :
    (c.buf1.st == .draining) = one := by
  cases one with
  | false => exact beq_eq_false_iff_ne.mpr hother
  | true => exact beq_iff_eq.mpr hdrain

theorem exec_bufferEmpty_due {n t : Nat} {one : Bool} {r : Running} {s : State} (hdrain : ((s.core n).buf one).st = .draining)
    (hother : ((s.core n).buf (!one)).st ≠ .draining) (htime : ((s.core n).buf one).emptyT ≤ t)
    (hfind : (s.core n).running.find? (fun x => x.start == ((s.core n).buf one).op) = some r) (hbad : (s.core n).bad = []) :
    exec (.bufferEmpty n t) s = .next (drainTile (bufEmptied s n one) n r (matParam r.rec'.bytes) ((s.core n).buf one) (lastDrain (s.core n) r one)
      ((s.core n).buf one).emptyT).1 := by
  change execBufferEmpty n t s = _
  unfold execBufferEmpty
  dsimp only
  rw [draining_buf hdrain hother, if_neg (by rw [not_or, not_not]; exact ⟨hdrain, by omega⟩), hfind]
  dsimp only
  rw [faultFetch_clean s n _ _ hbad, ite_self]
  exact if_neg (by simp)

theorem bufferEmpty_runs {n t : Nat} {one : Bool} {r : Running} {s : State} (hdrain : ((s.core n).buf one).st = .draining)
    (hother : ((s.core n).buf (!one)).st ≠ .draining) (htime : ((s.core n).buf one).emptyT ≤ t)
    (hfind : (s.core n).running.find? (fun x => x.start == ((s.core n).buf one).op) = some r) (hbad : (s.core n).bad = [])
    (hbuf : ((s.core n).buf one).bad = []) :
    ∃ u, exec (.bufferEmpty n t) s = .next u ∧ Only [.cores] s u ∧ ((u.core n).buf one).st = .empty ∧ (u.core n).buf (!one) = (s.core n).buf (!one) ∧
       (u.core n).epiFreeT = ((s.core n).buf one).emptyT ∧ (∀ m, m ≠ n → u.core m = s.core m) ∧
       (u.core n).scratch =
         (tilePlan s n (matParam r.rec'.bytes) ((s.core n).buf one)).wrs.foldl (fun m w => mwrite m w.addr w.bytes) (s.core n).scratch ∧
       ((matParam r.rec'.bytes).tiles ≤ r.tiles → ((s.core n).buf (!one)).st = .empty → ∀ x ∈ (u.core n).running, x.start = r.start → x.done = true) := by
  have hexec := exec_bufferEmpty_due hdrain hother htime hfind hbad
  have hon := bufEmptied_on s n one
  obtain ⟨hself, hnot, hepi⟩ := bufEmptied_bufs s n one
  generalize bufEmptied s n one = v at hexec hon hself hnot hepi
  have hvbad := hon.bad.trans hbad
  obtain ⟨hran, -, -, hdone, -, hown, hscratch⟩ := drainTile_clean v n r (matParam r.rec'.bytes) ((s.core n).buf one) (lastDrain (s.core n) r one)
    ((s.core n).buf one).emptyT hvbad hbuf
  have hkept (o : Bool) := drainTile_buf (p := matParam r.rec'.bytes) r (lastDrain (s.core n) r one) ((s.core n).buf one).emptyT hvbad hbuf o
  refine ⟨_, hexec, (hon.keeps.trans hran.keeps).only, ?_, (hkept (!one)).1.trans hnot, (hkept one).2.trans hepi,
    fun m hm => (hran.others m hm).trans (hon.others m hm), ?_, fun htiles hempty x hx hs => ?_⟩
  · rw [(hkept one).1, hself]
    rfl
  · rw [hscratch, hon.scratch, tilePlan_congr hon.scratch hbad hvbad hbuf]
    rfl
  · rw [hown x hx hs, hdone]
    unfold lastDrain
    simp [htiles, hempty]

/-- Settles O54: the four steps of a tile buffer, each from the state in which it is due. -/
theorem tileBuffers : Obligations.TileBuffers :=
  ⟨⟨fun _ _ _ _ _ _ hrun hempty hfirst htime harray => tileFillStart_runs hrun hempty hfirst htime harray,
    fun _ t _ _ hbad => totalsFinal_runs t hbad,
    fun _ _ _ _ _ _ hold hidle hfull hepi hfind => epilogueStart_runs hold hidle hfull hepi hfind⟩,
    fun _ _ _ _ _ _ hdrain hother htime hfind hbad hbuf => bufferEmpty_runs hdrain hother htime hfind hbad hbuf⟩

end Sys2Proof.Machine
end

section
/-! UPDATE runs to its end, and COPY walks its chain (R177, R195, R213, R220). -/

namespace Sys2Proof.Machine

open Sys2Proof

/-! ### UPDATE -/

theorem exec_update_free {n : Nat} {r : Running} {s : State} (hrun : runningOp (s.core n) 1 [0x12] = some r)
    (hphase : (uHdr (devRead s (uCmd r.rec'.bytes).desc 64)).phase ≠ 2)
    (hheld : updHeld s n (updRun s r.by (sectsOf s (.core n)) (uCmd r.rec'.bytes) r.seed.toNat) = false) :
    exec (.update n) s = .next (updApply s n r (updRun s r.by (sectsOf s (.core n)) (uCmd r.rec'.bytes) r.seed.toNat)) := by
  change execUpdate n s = _
  unfold execUpdate
  rw [hrun]
  dsimp only
  rw [if_neg hphase, if_neg (by simp [hheld])]

theorem update_runs {n : Nat} {r : Running} {s : State} (hrun : runningOp (s.core n) 1 [0x12] = some r)
    (hphase : (uHdr (devRead s (uCmd r.rec'.bytes).desc 64)).phase ≠ 2) :
    let o := updRun s r.by (sectsOf s (.core n)) (uCmd r.rec'.bytes) r.seed.toNat
    o.fault = none → updHeld s n o = false →
    ∃ t, exec (.update n) s = .next t ∧ (t.core n).running.map (·.start) = (s.core n).running.map (·.start) ∧
      ∀ x ∈ (t.core n).running, x.start = r.start → x.done = true ∧ x.rec' = r.rec' ∧ x.status = worst o.plan.status ∧ x.after = o.plan.after ∧
        x.count = BitVec.ofNat 32 o.plan.count := by
  intro o hfault hheld
  have hexec := exec_update_free hrun hphase hheld
  obtain ⟨u, hsame, hput⟩ := updApply_same s n r o hfault
  rw [hput] at hexec
  obtain ⟨hran, hown, -⟩ := putRun_ran u n { r with
    done := true, status := worst o.plan.status, count := BitVec.ofNat 32 o.plan.count, detail := BitVec.ofNat 32 o.plan.detail,
    sat := r.sat + wrsSat o.wrs, nan := r.nan + wrsNan o.wrs, told := o.told, slices := o.commit, after := o.plan.after }
  refine ⟨_, hexec, hran.starts.trans (by rw [hsame.run]), fun x hx hs => ?_⟩
  rw [hown x hx hs]
  exact ⟨rfl, rfl, rfl, rfl, rfl⟩

/-! ### A chain's next descriptor -/

/-- What a descriptor does once nothing holds it. -/
def runDesc (s : State) (n : Nat) (r : Running) (d : List Byte × List Byte) : State × Running :=
  match fld d.1 0 1 with
  | 3 => runHint s n r d.1
  | 4 => runGcopy (putRun s n r) n r d.1 d.2
  | _ => runCopyDesc s n r d.1

/-- A chain that stands at a descriptor that nothing holds. -/
structure AtDesc (s : State) (n : Nat) (r : Running) (d : List Byte × List Byte) : Prop where
  open' : r.done = false
  good  : r.status = stDone
  land  : r.land = []
  free  : copyWaits s n r = false
  at'   : r.chain[r.pos]? = some d
  held  : descHeld s n d.1 d.2 = false

theorem runChain_next {s : State} {n : Nat} {r : Running} {d : List Byte × List Byte} (k : Nat) (h : AtDesc s n r d) :
    runChain (k + 1) s n r = runChain k (runDesc s n { r with tiles := r.pos } d).1 n (runDesc s n { r with tiles := r.pos } d).2 := by
  have hat : ({ r with tiles := r.pos } : Running).chain[r.pos]? = some d := h.at'
  have hfault : ¬ faultClass ({ r with tiles := r.pos } : Running).status = true := by
    rw [show ({ r with tiles := r.pos } : Running).status = stDone from h.good]
    decide
  have hfence : ({ r with tiles := r.pos } : Running).status ≠ stFenced := by
    rw [show ({ r with tiles := r.pos } : Running).status = stDone from h.good]
    decide
  conv_lhs => unfold runChain
  rw [if_neg (by simp [h.open', h.free]), copySettle_clear s n r h.land h.good]
  dsimp only
  rw [if_neg hfault, if_neg hfence, h.at']
  dsimp only
  rw [if_neg (by simp [h.held])]
  rfl

theorem exec_copy {n : Nat} {r : Running} {s : State} (hrun : runningOp (s.core n) 2 [0x20] = some r) :
    exec (.copy n) s = .next (runChain (2 * r.chain.length + 2) s n r) := by
  change execCopy n s = _
  unfold execCopy
  rw [hrun]

/-! ### The chain's end -/

/-- A chain with every descriptor carried out ends: its entry is done, with the number of descriptors. -/
theorem runChain_ended {s : State} {n : Nat} (r : Running) (k : Nat) (hopen : r.done = false) (hgood : r.status = stDone) (hland : r.land = [])
    (hfree : copyWaits s n r = false) (hpos : r.pos = r.chain.length) :
    Keeps [.cores] s (runChain (k + 1) s n r) ∧ (∀ m, m ≠ n → (runChain (k + 1) s n r).core m = s.core m) ∧
      ((runChain (k + 1) s n r).core n).scratch = (s.core n).scratch ∧
      ∀ x ∈ ((runChain (k + 1) s n r).core n).running, x.start = r.start → x.done = true ∧ x.detail = BitVec.ofNat 32 r.chain.length := by
  rw [runChain_end k s n r hopen hgood hland hfree (List.getElem?_eq_none (Nat.le_of_eq hpos.symm))]
  obtain ⟨hran, hown, hscratch⟩ := putRun_ran s n { r with
    tiles := r.pos, done := true, status := worst ([r.status] ++ satStatus r.sat r.nan), detail := BitVec.ofNat 32 r.pos }
  refine ⟨hran.keeps, hran.others, hscratch, fun x hx hs => ?_⟩
  rw [hown x hx hs, ← hpos]
  exact ⟨rfl, rfl⟩

theorem copy_ends {n : Nat} {r : Running} {s : State} (hrun : runningOp (s.core n) 2 [0x20] = some r) (hpos : r.pos = r.chain.length)
    (hland : r.land = []) (hfree : copyWaits s n r = false) (hgood : r.status = stDone) :
    ∃ t, exec (.copy n) s = .next t ∧ Only [.cores] s t ∧ (∀ m, m ≠ n → t.core m = s.core m) ∧ (t.core n).scratch = (s.core n).scratch ∧
      ∀ x ∈ (t.core n).running, x.start = r.start → x.done = true ∧ x.detail = BitVec.ofNat 32 r.chain.length := by
  obtain ⟨hkeeps, hothers, hscratch, hown⟩ := runChain_ended r (2 * r.chain.length + 1) (runningOp_done hrun) hgood hland hfree hpos
  exact ⟨_, exec_copy hrun, hkeeps.only, hothers, hscratch, hown⟩

/-! ### A descriptor that copies to the scratchpad -/

/-- The descriptor's writes, after its reads, and the bytes that count. -/
def descCopied (s : State) (n : Nat) (b : By) (w : Walk) : State :=
  coreCount (applyWrs b (rdsTouch b s w.rds) (coalesce w.wrs)) n 0x068 (wrsBytes w.wrs)

/-- The chain's entry once a descriptor's walk is made. -/
def Running.copied (r : Running) (d : CDesc) (w : Walk) : Running :=
  { r with sat := r.sat + wrsSat w.wrs, nan := r.nan + wrsNan w.wrs, pos := r.pos + 1, csrc := r.csrc + (minCycles d).1, cdst := r.cdst + (minCycles d).2 }

theorem runCopyDesc_clean {s : State} {n : Nat} (r : Running) {b : List Byte} (hfault : (copyWalk s n (cDesc b)).fault = none)
    (hwrs : ∀ x ∈ (copyWalk s n (cDesc b)).wrs, x.scratch = some n) :
    runCopyDesc s n r b = (descCopied s n r.by (copyWalk s n (cDesc b)), r.copied (cDesc b) (copyWalk s n (cDesc b))) := by
  unfold runCopyDesc
  dsimp only
  rw [hfault]
  dsimp only
  rw [upToFault_clean n _ _ hwrs]
  rfl

/-- Its writes stand in the scratchpad, and beside that a read's own effects. -/
theorem descCopied_core {s : State} {n : Nat} (b : By) {w : Walk} (hbad : (s.core n).bad = []) (hwrs : ∀ x ∈ w.wrs, x.scratch = some n) :
    Keeps (.cores :: readParts) s (descCopied s n b w) ∧
      ∀ a, mget ((descCopied s n b w).core n).scratch a = mget (wroteAll (s.core n).scratch w.wrs) a := by
  have hread := rdsTouch_core b n w.rds s hbad
  have hreads := rdsTouch_keeps b s w.rds
  obtain ⟨hkeeps, hcore, -⟩ := applyWrs_clean b n (coalesce w.wrs) (rdsTouch b s w.rds) (coalesce_scratch n w.wrs hwrs) (by rw [hread]; exact hbad)
  have hcount := coreCount_ran (applyWrs b (rdsTouch b s w.rds) (coalesce w.wrs)) n 0x068 (wrsBytes w.wrs) 0
  refine ⟨((hreads.mono (by decide)).trans (hkeeps.mono (by decide))).trans (hcount.keeps.mono (by decide)), fun a => ?_⟩
  unfold descCopied
  rw [coreCount_scratch, hcore, hread]
  exact coalesce_wrote n a _ _ hwrs

theorem runDesc_copy {s : State} {n : Nat} (r : Running) {d : List Byte × List Byte} (h3 : fld d.1 0 1 ≠ 3) (h4 : fld d.1 0 1 ≠ 4) :
    runDesc s n r d = runCopyDesc s n r d.1 := by
  unfold runDesc
  split
  · next h => exact absurd h h3
  · next h => exact absurd h h4
  · rfl

theorem copy_lastDesc {n : Nat} {r : Running} {d : List Byte × List Byte} {s : State} (hrun : runningOp (s.core n) 2 [0x20] = some r)
    (hland : r.land = []) (hfree : copyWaits s n r = false) (hgood : r.status = stDone) (hd : r.chain[r.pos]? = some d)
    (hlast : r.pos + 1 = r.chain.length) (h3 : fld d.1 0 1 ≠ 3) (h4 : fld d.1 0 1 ≠ 4) (hheld : descHeld s n d.1 d.2 = false)
    (hbad : (s.core n).bad = []) :
    let w := copyWalk s n (cDesc d.1)
    w.fault = none → (∀ x ∈ w.wrs, x.scratch = some n) →
    ∃ t, exec (.copy n) s = .next t ∧ Only (.cores :: readParts) s t ∧
      (∀ a, mget (t.core n).scratch a = mget (w.wrs.foldl (fun m x => mwrite m x.addr x.bytes) (s.core n).scratch) a) ∧
      ∀ x ∈ (t.core n).running, x.start = r.start → x.done = true ∧ x.detail = BitVec.ofNat 32 r.chain.length := by
  intro w hfault hwrs
  have hopen := runningOp_done hrun
  have hexec := exec_copy hrun
  rw [runChain_next _ ⟨hopen, hgood, hland, hfree, hd, hheld⟩, runDesc_copy _ h3 h4, runCopyDesc_clean _ hfault hwrs] at hexec
  obtain ⟨hkeeps, hscratch⟩ := descCopied_core (w := w) ({ r with tiles := r.pos } : Running).by hbad hwrs
  change exec (.copy n) s = .next (runChain (2 * r.chain.length + 1) (descCopied s n ({ r with tiles := r.pos } : Running).by w) n
    (({ r with tiles := r.pos } : Running).copied (cDesc d.1) w)) at hexec
  generalize descCopied s n ({ r with tiles := r.pos } : Running).by w = u at hexec hkeeps hscratch
  have hwait : copyWaits u n (({ r with tiles := r.pos } : Running).copied (cDesc d.1) w) = false := by
    unfold copyWaits waitingAccess at hfree ⊢
    rw [show u.accesses = s.accesses from hkeeps.only.2 .accesses (by decide)]
    exact hfree
  obtain ⟨hended, -, hput, hown⟩ := runChain_ended (({ r with tiles := r.pos } : Running).copied (cDesc d.1) w) (2 * r.chain.length) hopen hgood hland
    hwait hlast
  exact ⟨_, hexec, (hkeeps.trans (hended.mono (by decide))).only, fun a => by rw [hput]; exact hscratch a, hown⟩

/-! ### A HINT descriptor -/

/-- The hint that a descriptor hands to the memory ports (R195). -/
def descHint (n : Nat) (r : Running) (b : List Byte) : Hint :=
  let h := hDesc b
  { op := h.hop, base := h.base, len := h.len, slice := if h.slice = 15 then n / 100 else h.slice,
    dst := if h.hop = 2 then some (if h.ddev then none else some n, h.dst) else none, owner := some (r.owner n) }

/-- The state with a hint handed on. -/
def hinted (s : State) (h : Hint) : State := { s with tiers := { s.tiers with hints := s.tiers.hints ++ [h] } }

/-- The chain's entry once a hint is handed on: it waits for it. -/
def Running.hinted (r : Running) : Running := { r with pos := r.pos + 1, hints := r.hints + 1 }

theorem runHint_handed {s : State} {n : Nat} (r : Running) {b : List Byte} (h : hintStopped s (hDesc b).hop (hDesc b).base (hDesc b).len = false) :
    runHint s n r b = (Machine.hinted s (descHint n r b), r.hinted) := if_neg (by simp [h])

/-- A chain that waits for a hint goes no further. -/
theorem runChain_waits {s : State} {n : Nat} {r : Running} (k : Nat) (h : copyWaits s n r = true) : runChain k s n r = putRun s n r := by
  cases k with
  | zero => rfl
  | succ k => exact if_pos (by rw [h, Bool.or_true])

theorem copy_hints {n : Nat} {r : Running} {d : List Byte × List Byte} {s : State} (hrun : runningOp (s.core n) 2 [0x20] = some r)
    (hland : r.land = []) (hfree : copyWaits s n r = false) (hgood : r.status = stDone) (hd : r.chain[r.pos]? = some d)
    (h3 : fld d.1 0 1 = 3) (hheld : descHeld s n d.1 d.2 = false)
    (hopen : hintStopped s (hDesc d.1).hop (hDesc d.1).base (hDesc d.1).len = false) :
    ∃ t h, exec (.copy n) s = .next t ∧ Only [.cores, .tiers] s t ∧ t.tiers.hints = s.tiers.hints ++ [h] ∧ h.op = (hDesc d.1).hop ∧
      h.base = (hDesc d.1).base ∧ h.len = (hDesc d.1).len ∧ h.owner = some (n, r.start) ∧ (t.core n).scratch = (s.core n).scratch ∧
      ∀ x ∈ (t.core n).running, x.start = r.start → x.done = false ∧ x.hints = 1 ∧ x.pos = r.pos + 1 ∧ x.tiles = r.pos := by
  have hdone := runningOp_done hrun
  have hnone : r.hints = 0 := by
    unfold copyWaits at hfree
    simpa using (Bool.or_eq_false_iff.mp hfree).1
  have hdesc : runDesc s n { r with tiles := r.pos } d =
      (Machine.hinted s (descHint n { r with tiles := r.pos } d.1), ({ r with tiles := r.pos } : Running).hinted) := by
    unfold runDesc
    rw [h3]
    exact runHint_handed _ hopen
  have hexec := exec_copy hrun
  rw [runChain_next _ ⟨hdone, hgood, hland, hfree, hd, hheld⟩, hdesc] at hexec
  have hwait : copyWaits (Machine.hinted s (descHint n { r with tiles := r.pos } d.1)) n ({ r with tiles := r.pos } : Running).hinted = true := by
    unfold copyWaits
    have hone : (({ r with tiles := r.pos } : Running).hinted.hints != 0) = true := by simp [Running.hinted]
    rw [hone, Bool.true_or]
  rw [runChain_waits _ hwait] at hexec
  have hkeeps : Keeps [.tiers] s (Machine.hinted s (descHint n { r with tiles := r.pos } d.1)) := (Keeps.refl _ s).set_tiers (by decide)
  obtain ⟨hran, hown, hscratch⟩ := putRun_ran (Machine.hinted s (descHint n { r with tiles := r.pos } d.1)) n
    ({ r with tiles := r.pos } : Running).hinted
  refine ⟨_, descHint n { r with tiles := r.pos } d.1, hexec, ((hkeeps.mono (by decide)).trans (hran.keeps.mono (by decide))).only, rfl, rfl, rfl, rfl, rfl,
    hscratch, fun x hx hs => ?_⟩
  rw [hown x hx hs]
  exact ⟨hdone, congrArg (· + 1) hnone, rfl, rfl⟩

/-- Settles O55: UPDATE by its plan, COPY by the descriptor it stands at. -/
theorem updateAndCopy : Obligations.UpdateAndCopy := by
  refine ⟨fun n r s _ hrun hphase => update_runs hrun hphase, ?_, ?_, ?_⟩
  · exact fun n r s _ hrun hpos hland hfree hgood => copy_ends hrun hpos hland hfree hgood
  · exact fun n r d s _ hrun hland hfree hgood hd hlast h3 h4 hheld hbad =>
      copy_lastDesc hrun hland hfree hgood hd hlast h3 h4 hheld hbad
  · exact fun n r d s _ hrun hland hfree hgood hd h3 hheld hopen => copy_hints hrun hland hfree hgood hd h3 hheld hopen

end Sys2Proof.Machine
end

section
/-! PUSH and POP, the descriptor's write-back and the hot window (R105, R107, R108, R113). -/

namespace Sys2Proof.Machine

open Sys2Proof

/-! ### PUSH -/

theorem devWrFault_notLost {s : State} {a n : Nat} (ha : spaceOf a ≠ .host) (h : anyLost s = false) : devWrFault s a n = none := by
  unfold devWrFault
  split
  · next hhost => exact absurd hhost ha
  · rw [h]
    rfl

theorem anyLost_of_scratchRead {s : State} {b : By} {n a len : Nat} (h : spFault s n a len = none) :
    anyLost (rdsTouch b s [⟨some n, a, len⟩]) = anyLost s := by
  have hread : (⟨some n, a, len⟩ : Rd).fault s = none := by
    unfold Rd.fault
    dsimp only
    rw [h]
    rfl
  have htouch : rdsTouch b s [⟨some n, a, len⟩] = spTouch s n b.ctx a len := by
    unfold rdsTouch
    rw [hread]
    rfl
  have hkeeps := spTouch_keeps s n b.ctx a len
  rw [htouch]
  unfold anyLost
  rw [hkeeps.only.2 .tiers (by decide), hkeeps.only.2 .mports (by decide)]

/-- What a PUSH whose source is readable plans: one write-back of its descriptor, and 64 bytes and its rounded payload to count. -/
structure PushPlanned (n : Nat) (r : Running) (p : Plan) : Prop where
  reads   : p.rds = [⟨some n, (pCmd r.rec'.bytes).sp, (pCmd r.rec'.bytes).bytes⟩]
  whole   : p.cut = false
  memory  : ∀ w ∈ p.wrs, w.scratch = none
  back    : p.after.length = 1
  least   : 64 ≤ p.count
  blocks  : p.count % 64 = 0

theorem pushPlan_planned {s : State} {n : Nat} {r : Running} (h : spFault s n (pCmd r.rec'.bytes).sp (pCmd r.rec'.bytes).bytes = none) :
    PushPlanned n r (pushPlan s n r) := by
  have hsrc : (⟨some n, (pCmd r.rec'.bytes).sp, (pCmd r.rec'.bytes).bytes⟩ : Rd).fault s = none := by
    unfold Rd.fault
    dsimp only
    rw [h]
    rfl
  unfold pushPlan
  dsimp only
  rw [hsrc]
  refine ⟨rfl, rfl, fun w hw => ?_, rfl, Nat.le_add_right .., roundup_mod _⟩
  rcases List.mem_append.mp hw with hpay | hhdr
  · exact (piecesFrom_in _ _ _ w hpay).1
  · rw [List.mem_singleton.mp hhdr]

theorem exec_push_free {n : Nat} {r : Running} {s : State} (hrun : runningOp (s.core n) 2 [0x21] = some r)
    (hheld : planHeld s n (pushPlan s n r) = false) : exec (.push n) s = .next (runPlan s n r (pushPlan s n r)) := by
  change execPush n s = _
  unfold execPush
  rw [hrun]
  dsimp only
  rw [hheld]
  rfl

theorem push_runs {n : Nat} {r : Running} {s : State} (hrun : runningOp (s.core n) 2 [0x21] = some r)
    (hsrc : spFault s n (pCmd r.rec'.bytes).sp (pCmd r.rec'.bytes).bytes = none) :
    let p := pushPlan s n r
    planHeld s n p = false → anyLost s = false → (∀ w ∈ p.wrs, spaceOf w.addr ≠ .host) →
    ∃ t, exec (.push n) s = .next t ∧ Only writeParts s t ∧
      ∀ x ∈ (t.core n).running, x.start = r.start → x.done = true ∧ x.after = p.after ∧ x.after.length = 1 ∧ x.count = BitVec.ofNat 32 p.count ∧
        64 ≤ p.count ∧ p.count % 64 = 0 := by
  intro p hheld hlost hspace
  have hexec : exec (.push n) s = .next (runPlan s n r p) := exec_push_free hrun hheld
  have hp : PushPlanned n r p := pushPlan_planned hsrc
  have hlands : ∀ w ∈ p.wrs, w.fault (rdsTouch r.by s p.rds) = none := fun w hw => by
    unfold Wr.fault
    rw [hp.memory w hw, hp.reads]
    exact devWrFault_notLost (hspace w hw) ((anyLost_of_scratchRead hsrc).trans hlost)
  have hkeeps := runPlan_keeps s n r p
  refine ⟨_, hexec, (hkeeps.mono (by decide)).only, fun x hx hs => ?_⟩
  rw [runPlan_eq s n r p hp.whole hlands] at hx
  rw [(putRun_ran _ n (planEntry r p)).2.1 x hx hs]
  exact ⟨rfl, rfl, hp.back, rfl, hp.least, hp.blocks⟩

/-! ### POP -/

theorem popBroken_run (s : State) (n : Nat) (r : Running) : SameRun s (popBroken s n r) := by
  unfold popBroken
  dsimp only
  split
  · exact (devWrite_cores ..).sameRun
  · exact SameRun.refl s

theorem exec_pop_free {n : Nat} {r : Running} {s : State} (hrun : runningOp (s.core n) 2 [0x22] = some r)
    (hheld : planHeld s n (popPlan s n r) = false) : exec (.pop n) s = .next (popBroken (runPlan s n r (popPlan s n r)) n r) := by
  change execPop n s = _
  unfold execPop
  rw [hrun]
  dsimp only
  rw [hheld]
  rfl

theorem pop_runs {n : Nat} {r : Running} {s : State} (hrun : runningOp (s.core n) 2 [0x22] = some r) :
    let p := popPlan s n r
    let w := wPile (devRead s (wpAt r.wptab n (pCmd r.rec'.bytes).pile) 64)
    planHeld s n p = false → p.status = [] → p.cut = false →
    ∃ t, exec (.pop n) s = .next t ∧ Only writeParts s t ∧
      ∀ x ∈ (t.core n).running, x.start = r.start → x.done = true ∧ (r.sat + r.nan = 0 → x.status = stDone) ∧ x.after = p.after ∧
        x.count = BitVec.ofNat 32 p.count ∧ x.detail = BitVec.ofNat 32 (w.depth - 1) := by
  intro p w hheld hstatus hcut
  obtain ⟨hscratch, hsat, hnan, hdetail⟩ := popPlan_good s n r hstatus hcut
  obtain ⟨-, hown, -⟩ := runPlan_run s n r p hcut (fun x hx t => by unfold Wr.fault; rw [hscratch x hx])
  have hkeeps := (runPlan_keeps s n r p).trans (popBroken_keeps (runPlan s n r p) n r)
  refine ⟨_, exec_pop_free hrun hheld, (hkeeps.mono (by decide)).only, fun x hx hs => ?_⟩
  rw [(popBroken_run ..).run] at hx
  rw [hown x hx hs]
  refine ⟨rfl, fun h0 => ?_, rfl, rfl, congrArg (BitVec.ofNat 32) hdetail⟩
  change worst (p.status ++ satStatus (r.sat + wrsSat p.wrs) (r.nan + wrsNan p.wrs)) = stDone
  rw [hstatus, hsat, hnan, show r.sat + 0 = 0 from by omega, show r.nan + 0 = 0 from by omega]
  rfl

/-! ### The descriptor's write-back -/

theorem writeback_writes {n : Nat} {r : Running} {w : Wr} {s : State} (hwait : awaitingBack (s.core n) = some r) (hafter : r.after = [w])
    (hmem : w.scratch = none) (hspace : spaceOf w.addr = .uni) (hback : Backed s w.addr w.bytes.length) :
    ∃ t, exec (.woodpileWriteback n) s = .next t ∧ Only writeParts s t ∧ mread t.uni w.addr w.bytes.length = w.bytes ∧
      (∀ a, (a < w.addr ∨ w.addr + w.bytes.length ≤ a) → mget t.uni a = mget s.uni a) ∧
      ∀ x ∈ (t.core n).running, x.start = r.start → x.after = [] := by
  have hexec : exec (.woodpileWriteback n) s = .next (putRun (applyWrs r.by s [w]) n { r with after := [] }) := by
    change execWoodpileWriteback n s = _
    unfold execWoodpileWriteback
    rw [hwait]
    dsimp only
    rw [hafter]
  obtain ⟨hbacked, hlost⟩ := hback
  have huni : (applyWrs r.by s [w]).uni = mwrite s.uni w.addr w.bytes :=
    (applyWrs_uni r.by [w] s (fun x hx => by rw [List.mem_singleton.mp hx]; exact ⟨hmem, hspace, hbacked⟩) (lossless_of hlost)).1
  have hwrs := applyWrs_keeps r.by s [w]
  obtain ⟨hran, hown, -⟩ := putRun_ran (applyWrs r.by s [w]) n { r with after := [] }
  have hstands : (putRun (applyWrs r.by s [w]) n { r with after := [] }).uni = mwrite s.uni w.addr w.bytes := huni
  refine ⟨_, hexec, ((hwrs.mono (by decide)).trans (hran.keeps.mono (by decide))).only, ?_, fun a ha => ?_, fun x hx hs => ?_⟩
  · rw [hstands]
    exact mread_mwrite ..
  · rw [hstands]
    exact mget_mwrite_out _ _ _ _ ha
  · rw [hown x hx hs]

/-! ### The hot window -/

theorem hotWindow_moves {n : Nat} {r : Running} {h : Nat × Nat × Nat × Nat} {s : State}
    (hrun : (s.core n).running.find? (fun r => r.done && r.hot.isSome && r.after = []) = some r) (hhot : r.hot = some h) :
    ∃ t, exec (.hotWindowMove n) s = .next t ∧ Only [.cores, .tiers] s t ∧
      t.tiers.hints = s.tiers.hints ++ (hotHints s n h).filter (fun x => !hintStopped s x.op x.base x.len) ∧
      (∀ x ∈ (t.core n).running, x.start = r.start → x.hot = none) ∧ (t.core n).scratch = (s.core n).scratch := by
  have hexec : exec (.hotWindowMove n) s = .next (putRun (handHot s n r) n { r with hot := none }) := by
    change execHotWindowMove n s = _
    unfold execHotWindowMove
    rw [hrun]
  have hgiven := handHot_keeps s n r
  obtain ⟨hran, hown, hscratch⟩ := putRun_ran (handHot s n r) n { r with hot := none }
  refine ⟨_, hexec, ((hgiven.mono (by decide)).trans (hran.keeps.mono (by decide))).only, ?_, fun x hx hs => by rw [hown x hx hs],
    hscratch.trans (congrArg Core.scratch (hgiven.core (by decide) n))⟩
  change (handHot s n r).tiers.hints = _
  unfold handHot
  rw [hhot]

/-- Settles O56: PUSH and POP by their plans, the descriptor by the one write that is left. -/
theorem woodpile : Obligations.Woodpile := by
  refine ⟨⟨fun n r s _ hrun hsrc => push_runs hrun hsrc, fun n r s _ hrun => pop_runs hrun⟩, ?_, ?_⟩
  · exact fun n r w s _ hwait hafter hmem hspace hback => writeback_writes hwait hafter hmem hspace hback
  · exact fun n r h s _ hrun hhot => hotWindow_moves hrun hhot

end Sys2Proof.Machine
end

section
/-! GATHER by its steps: slices, tiles, header, and all of it at once (R125, R126, R127). -/

namespace Sys2Proof.Machine

open Sys2Proof

theorem gatherFree_open {s : State} {n : Nat} {r : Running} (h : gatherFree s n = some r) : r.done = false := by
  unfold gatherFree at h
  obtain ⟨hrun, -⟩ := Option.filter_eq_some_iff.mp h
  exact runningOp_done hrun

/-! ### A slice -/

/-- A core's counters once a slice has entered the array: its products, and the CCLK it took, counted at `o`, free or forced. -/
def Core.sliced (c : Core) (o k : Nat) : Core := { c with ctr := ctrAdd (ctrAdd c.ctr 0x018 1024) o 1, gforcedW := c.gforcedW + k }

theorem Core.sliced_scratch (c : Core) (o k : Nat) : (c.sliced o k).scratch = c.scratch := by
  dsimp only [Core.sliced]

theorem Core.sliced_counters (c : Core) (o k : Nat) :
    (c.sliced o k).ctr = ctrAdd (ctrAdd c.ctr 0x018 1024) o 1 ∧ (c.sliced o k).gforcedW = c.gforcedW + k := by
  dsimp only [Core.sliced]
  exact ⟨rfl, rfl⟩

/-- The state once a slice has entered the array, before its command's entry counts it. -/
def sliceIssued (s : State) (n : Nat) (r : Running) (m : Bool) : State :=
  let u := coreCount (readSlices s n r (formTile r) [r.slices]) n (if m then 0x060 else 0x058) 1
  if m then u.modCore n (fun c => { c with gforcedW := c.gforcedW + 1 }) else u

theorem coreCount_self {s : State} {n o k : Nat} (h : k ≠ 0) : (coreCount s n o k).core n = { s.core n with ctr := ctrAdd (s.core n).ctr o k } := by
  unfold coreCount
  rw [if_neg h, State.modCore_get_core_self]

theorem readSlices_one (s : State) (n : Nat) (r : Running) (t k : Nat) :
    readSlices s n r t [k] = coreCount (rdsTouch r.by s (sliceRds s n (gCmd r.rec'.bytes) t k)) n 0x018 1024 := by
  unfold readSlices
  rw [List.length_singleton, Nat.mul_one, List.foldl_cons, List.foldl_nil]

theorem sliceIssued_core {s : State} {n : Nat} (r : Running) (m : Bool) (hbad : (s.core n).bad = []) :
    (sliceIssued s n r m).core n = (s.core n).sliced (if m then 0x060 else 0x058) (b2n m) := by
  have hcount : ∀ o, (coreCount (readSlices s n r (formTile r) [r.slices]) n o 1).core n =
      { s.core n with ctr := ctrAdd (ctrAdd (s.core n).ctr 0x018 1024) o 1 } := fun o => by
    rw [coreCount_self (by decide), readSlices_one, coreCount_self (by decide), rdsTouch_core r.by n _ s hbad]
  unfold sliceIssued
  dsimp only
  cases m with
  | false =>
    rw [if_neg (by decide), hcount]
    dsimp only [Core.sliced, b2n]
    rfl
  | true =>
    rw [if_pos rfl, State.modCore_get_core_self, hcount]
    simp only [Core.sliced, b2n, if_true]

theorem sliceIssued_keeps (s : State) (n : Nat) (r : Running) (m : Bool) : Keeps (.cores :: readParts) s (sliceIssued s n r m) := by
  have hread : Keeps (.cores :: readParts) s (readSlices s n r (formTile r) [r.slices]) := by
    rw [readSlices_one]
    exact ((rdsTouch_keeps r.by s _).mono (by decide)).trans ((coreCount_keeps ..).mono (by decide))
  have hcount : ∀ o, Keeps (.cores :: readParts) s (coreCount (readSlices s n r (formTile r) [r.slices]) n o 1) := fun o =>
    hread.trans ((coreCount_keeps ..).mono (by decide))
  have hforced : ∀ u : State, Keeps [.cores] u (u.modCore n (fun c => { c with gforcedW := c.gforcedW + 1 })) := fun u =>
    State.modCore_keeps u n _ (fun _ h => h)
  unfold sliceIssued
  dsimp only
  split
  · exact (hcount _).trans ((hforced _).mono (by decide))
  · exact hcount _

theorem exec_gatherSlice {n : Nat} {m : Bool} {r : Running} {s : State} (hrun : gatherFree s n = some r) (htile : formTile r < gatherTiles s r)
    (hrow : r.slices < (gCmd r.rec'.bytes).rows) (hshare : m = true → (s.core n).gforcedW < (s.core n).gshare.toNat)
    (hgood : rdsFault s (sliceRds s n (gCmd r.rec'.bytes) (formTile r) r.slices) = none) :
    exec (.gatherSliceIssue n m) s = .next (putRun (sliceIssued s n r m) n (setSlices r (r.slices + 1))) := by
  change execGatherSliceIssue n m s = _
  unfold execGatherSliceIssue
  rw [hrun]
  dsimp only
  have hforced : (m && decide ((s.core n).gshare.toNat ≤ (s.core n).gforcedW)) = false := by
    cases m
    · rfl
    · have := hshare rfl
      simp [this]
  rw [if_neg (by rw [hforced]; simp [htile, hrow]), hgood]
  rfl

/-- A slice that leaves rows to issue counts; the last leaves the tile's accumulator formed. -/
theorem setSlices_next (r : Running) :
    (r.slices + 1 < (gCmd r.rec'.bytes).rows → setSlices r (r.slices + 1) = { r with slices := r.slices + 1 }) ∧
      (r.slices + 1 = (gCmd r.rec'.bytes).rows → r.formed = false → setSlices r (r.slices + 1) = { r with slices := 0, formed := true }) := by
  unfold setSlices
  refine ⟨fun hmore => if_neg ?_, fun hlast hformed => if_pos ?_⟩
  · simp [Nat.not_le.mpr hmore]
  · simp [hlast, hformed]

theorem putRun_counters (s : State) (n : Nat) (r : Running) :
    ((putRun s n r).core n).ctr = (s.core n).ctr ∧ ((putRun s n r).core n).gforcedW = (s.core n).gforcedW := by
  unfold putRun
  rw [State.modCore_get_core_self]
  exact ⟨rfl, rfl⟩

theorem gatherSlice_counts {n : Nat} {m : Bool} {r : Running} {s : State} (hrun : gatherFree s n = some r) (htile : formTile r < gatherTiles s r)
    (hrow : r.slices < (gCmd r.rec'.bytes).rows) (hshare : m = true → (s.core n).gforcedW < (s.core n).gshare.toNat) (hbad : (s.core n).bad = [])
    (hgood : rdsFault s (sliceRds s n (gCmd r.rec'.bytes) (formTile r) r.slices) = none) :
    ∃ t, exec (.gatherSliceIssue n m) s = .next t ∧ Only (.cores :: readParts) s t ∧ (t.core n).scratch = (s.core n).scratch ∧
      tget d0 (t.core n).ctr 0x018 = stick (tget d0 (s.core n).ctr 0x018) 1024 ∧
      tget d0 (t.core n).ctr (if m then 0x060 else 0x058) = stick (tget d0 (s.core n).ctr (if m then 0x060 else 0x058)) 1 ∧
      (t.core n).gforcedW = (s.core n).gforcedW + b2n m ∧
      ∀ x ∈ (t.core n).running, x.start = r.start → x.tiles = r.tiles ∧
        (r.slices + 1 < (gCmd r.rec'.bytes).rows → x.slices = r.slices + 1 ∧ x.formed = r.formed) ∧
        (r.slices + 1 = (gCmd r.rec'.bytes).rows → r.formed = false → x.slices = 0 ∧ x.formed = true) := by
  have hexec := exec_gatherSlice hrun htile hrow hshare hgood
  have hcore := sliceIssued_core r m hbad
  have hkeeps := sliceIssued_keeps s n r m
  generalize sliceIssued s n r m = u at hexec hcore hkeeps
  obtain ⟨hstart, -, htiles, -⟩ := setSlices_same r (r.slices + 1)
  obtain ⟨hran, hown, hscratch⟩ := putRun_ran u n (setSlices r (r.slices + 1))
  obtain ⟨hctr, hforced⟩ := putRun_counters u n (setSlices r (r.slices + 1))
  obtain ⟨hcounted, hone⟩ := (s.core n).sliced_counters (if m then 0x060 else 0x058) (b2n m)
  rw [hcore, hcounted] at hctr
  rw [hcore, hone] at hforced
  refine ⟨_, hexec, (hkeeps.trans (hran.keeps.mono (by decide))).only, hscratch.trans (by rw [hcore, Core.sliced_scratch]), ?_, ?_, hforced,
    fun x hx hs => ?_⟩
  · rw [hctr]
    exact (ctrAdd_ne _ _ _ _ (by cases m <;> decide)).trans (ctrAdd_self ..)
  · rw [hctr]
    refine (ctrAdd_self ..).trans (congrArg (stick · 1) (ctrAdd_ne _ _ _ _ ?_))
    cases m <;> decide
  · obtain ⟨hmore, hlast⟩ := setSlices_next r
    rw [hown x hx (hs.trans hstart.symm)]
    exact ⟨htiles, fun h => by rw [hmore h]; exact ⟨rfl, rfl⟩, fun h hf => by rw [hlast h hf]; exact ⟨rfl, rfl⟩⟩

/-! ### The window of SHARE -/

theorem gshareWindow_starts (n : Nat) (s : State) :
    ∃ t, exec (.gshareWindowStart n) s = .next t ∧ Only [.cores] s t ∧ (t.core n).gforcedW = 0 ∧ (t.core n).gpend = none ∧
      (t.core n).gshare = (s.core n).gpend.getD (s.core n).gshare ∧ (t.core n).running = (s.core n).running ∧ ∀ m, m ≠ n → t.core m = s.core m := by
  have hself := State.modCore_get_core_self s n (fun c => { c with gforcedW := 0, gshare := c.gpend.getD c.gshare, gpend := none })
  refine ⟨_, rfl, (State.modCore_keeps s n (fun c => { c with gforcedW := 0, gshare := c.gpend.getD c.gshare, gpend := none }) (fun _ h => h)).only, ?_, ?_, ?_, ?_, fun m hm => State.modCore_get_core_ne _ _ _ _ hm⟩
  all_goals rw [hself]

/-! ### A tile's write-back -/

theorem applyWrs_backed (b : By) {s : State} {ws : List Wr} (hmem : ∀ w ∈ ws, w.scratch = none)
    (hback : ∀ w ∈ ws, spaceOf w.addr = .uni ∧ Backed s w.addr w.bytes.length) :
    (applyWrs b s ws).uni = wroteAll s.uni ws ∧ Backing s (applyWrs b s ws) ∧ (upToFault s ws).2 = none := by
  cases ws with
  | nil => exact ⟨rfl, Backing.refl s, rfl⟩
  | cons w ws =>
    have hloss : Lossless s := lossless_of (hback w (List.mem_cons_self ..)).2.2
    obtain ⟨huni, hbacking⟩ := applyWrs_uni b (w :: ws) s (fun x hx => ⟨hmem x hx, (hback x hx).1, (hback x hx).2.1⟩) hloss
    refine ⟨huni, hbacking, List.findSome?_eq_none_iff.mpr fun x hx => ?_⟩
    unfold Wr.fault
    rw [hmem x hx]
    exact devWrFault_good hloss (hback x hx).1

/-- The entry of a GATHER whose finished tile has been written back. -/
def Running.tileWritten (r : Running) : Running := setSlices { r with tiles := r.tiles + 1, formed := false } r.slices

/-- The state with a GATHER's finished tile written back. -/
def tileWritten (s : State) (n : Nat) (r : Running) : State := putRun (applyWrs r.by s (tileWrs s n (gCmd r.rec'.bytes) r.tiles)) n r.tileWritten

theorem exec_gatherTile {n : Nat} {r : Running} {s : State} (hrun : gatherFree s n = some r) (hformed : r.formed = true)
    (hlands : (upToFault s (tileWrs s n (gCmd r.rec'.bytes) r.tiles)).2 = none) :
    exec (.gatherTileWriteback n) s = .next (Machine.tileWritten s n r) := by
  change execGatherTileWriteback n s = _
  unfold execGatherTileWriteback
  rw [hrun]
  dsimp only
  rw [if_pos hformed, writeTile_next s n r hlands]
  rfl

theorem gatherStep_lastTile {n : Nat} {r : Running} {s : State} (hformed : r.formed = true) (hlast : r.tiles + 1 = gatherTiles s r)
    (hlands : (upToFault s (tileWrs s n (gCmd r.rec'.bytes) r.tiles)).2 = none) : gatherStep s n r = (Machine.tileWritten s n r, r.tileWritten) := by
  have hform : ¬ formTile r < gatherTiles s r := by
    unfold formTile
    rw [hformed, ← hlast]
    exact Nat.lt_irrefl _
  unfold gatherStep
  dsimp only
  rw [if_neg (by simp [hformed]), if_neg (by simp [hform]), writeTile_next s n r hlands]
  rfl

/-- A header in the unified range reads as before, where its bytes stand and the same tiles are backed. -/
theorem devRead_uni_congr {s t : State} {a n : Nat} (hspace : spaceOf a = .uni) (hback : Backing s t)
    (hsame : ∀ x, a ≤ x → x < a + n → mget t.uni x = mget s.uni x) : devRead t a n = devRead s a n := by
  have hread : devRead { t with host := s.host } a n = devRead s a n :=
    devRead_congr (t := { t with host := s.host }) (hback.trans (Backing.of (s := t) rfl rfl)) a n hsame rfl
  unfold devRead at hread ⊢
  rw [hspace] at hread ⊢
  exact hread

theorem gatherTiles_written {n : Nat} {r : Running} {s : State} (hspace : spaceOf (gCmd r.rec'.bytes).rec' = .uni)
    (huni : (applyWrs r.by s (tileWrs s n (gCmd r.rec'.bytes) r.tiles)).uni = wroteAll s.uni (tileWrs s n (gCmd r.rec'.bytes) r.tiles))
    (hbacking : Backing s (applyWrs r.by s (tileWrs s n (gCmd r.rec'.bytes) r.tiles))) :
    gatherTiles (Machine.tileWritten s n r) r.tileWritten = gatherTiles s r := by
  obtain ⟨-, hrec, -, -⟩ := setSlices_same { r with tiles := r.tiles + 1, formed := false } r.slices
  have hput : Backing s (Machine.tileWritten s n r) :=
    hbacking.trans ((putRun_ran (applyWrs r.by s (tileWrs s n (gCmd r.rec'.bytes) r.tiles)) n r.tileWritten).1.keeps.backing (by decide) (by decide))
  have hrec' : r.tileWritten.rec' = r.rec' := hrec
  unfold gatherTiles gatherStat
  rw [hrec', devRead_uni_congr hspace hput fun x _ hx => ?_]
  change mget (applyWrs r.by s (tileWrs s n (gCmd r.rec'.bytes) r.tiles)).uni x = _
  rw [huni]
  refine wroteAll_out x _ _ fun w hw => Or.inl ?_
  obtain ⟨-, hlow, -, -⟩ := tileWrs_in s n (gCmd r.rec'.bytes) r.tiles w hw
  unfold Stat.accAt at hlow
  omega

theorem exec_gatherLastTile {n : Nat} {r : Running} {s : State} (hrun : gatherFree s n = some r) (hformed : r.formed = true)
    (hlast : r.tiles + 1 = gatherTiles s r) (hlands : (upToFault s (tileWrs s n (gCmd r.rec'.bytes) r.tiles)).2 = none)
    (htiles : gatherTiles (Machine.tileWritten s n r) r.tileWritten = gatherTiles s r) : exec (.gather n) s = .next (Machine.tileWritten s n r) := by
  obtain ⟨-, -, hcount, -⟩ := setSlices_same { r with tiles := r.tiles + 1, formed := false } r.slices
  have hnext : r.tileWritten.tiles = r.tiles + 1 := hcount
  have hopen := gatherFree_open hrun
  obtain ⟨k, hk⟩ : ∃ k, 2 * gatherTiles s r = k + 1 + 1 := ⟨2 * r.tiles, by omega⟩
  change execGather n s = _
  unfold execGather
  rw [hrun]
  dsimp only
  rw [hk]
  unfold gatherAll
  rw [if_neg (by simp [hopen, ← hlast])]
  dsimp only
  rw [gatherStep_lastTile hformed hlast hlands]
  dsimp only
  unfold gatherAll
  rw [if_pos (by rw [htiles, hnext, hlast]; simp)]

theorem gatherTile_written {n : Nat} {cmd : Instr} {r : Running} {s : State} (hrun : gatherFree s n = some r) (hformed : r.formed = true)
    (hcmd : cmd = .gatherTileWriteback n ∨ cmd = .gather n ∧ r.tiles + 1 = gatherTiles s r ∧ spaceOf (gCmd r.rec'.bytes).rec' = .uni) :
    let ws := tileWrs s n (gCmd r.rec'.bytes) r.tiles
    (∀ w ∈ ws, spaceOf w.addr = .uni ∧ Backed s w.addr w.bytes.length) →
    ∃ t, exec cmd s = .next t ∧ Only writeParts s t ∧ t.uni = ws.foldl (fun m w => mwrite m w.addr w.bytes) s.uni ∧
      ∀ x ∈ (t.core n).running, x.start = r.start → x.tiles = r.tiles + 1 ∧ x.done = r.done := by
  intro ws hback
  obtain ⟨huni, hbacking, hlands⟩ := applyWrs_backed r.by (fun w hw => (tileWrs_in s n (gCmd r.rec'.bytes) r.tiles w hw).1) hback
  have hexec : exec cmd s = .next (Machine.tileWritten s n r) := by
    rcases hcmd with rfl | ⟨rfl, hlast, hspace⟩
    · exact exec_gatherTile hrun hformed hlands
    · exact exec_gatherLastTile hrun hformed hlast hlands (gatherTiles_written hspace huni hbacking)
  obtain ⟨hstart, -, htiles, hdone⟩ := setSlices_same { r with tiles := r.tiles + 1, formed := false } r.slices
  obtain ⟨hran, hown, -⟩ := putRun_ran (applyWrs r.by s ws) n r.tileWritten
  have hkeeps := applyWrs_keeps r.by s ws
  refine ⟨_, hexec, ((hkeeps.mono (by decide)).trans (hran.keeps.mono (by decide))).only, huni, fun x hx hs => ?_⟩
  rw [hown x hx (hs.trans hstart.symm)]
  exact ⟨htiles, hdone⟩

/-! ### The header -/

theorem devRead_backed {s : State} {a n : Nat} (hspace : spaceOf a = .uni) (hback : hitsUnbacked s a n = false) : devRead s a n = mread s.uni a n := by
  unfold devRead
  rw [hspace]
  dsimp only
  unfold uniRead
  rw [hback]
  rfl

/-- The header's write: the rows gathered, and one more GATHER. -/
def headerWr (g : GCmd) (h : List Byte) : Wr :=
  { scratch := none, addr := g.rec', bytes := setFld (setFld h 28 4 ((statOf h).rows + g.rows)) 32 4 ((statOf h).gcount + 1) }

theorem headerWr_length (g : GCmd) {h : List Byte} (hlen : h.length = 64) : (headerWr g h).bytes.length = 64 := by
  unfold headerWr
  dsimp only
  rw [setFld_length _ _ _ _ (by rw [setFld_length _ _ _ _ (by omega)]; omega), setFld_length _ _ _ _ (by omega), hlen]

theorem gatherHeader_written {n : Nat} {r : Running} {s : State} (hrun : gatherFree s n = some r) :
    let a := (gCmd r.rec'.bytes).rec'
    let h := devRead s a 64
    (statOf h).nt ≤ r.tiles → spaceOf a = .uni → Backed s a 64 →
    ∃ t, exec (.gatherHeaderWrite n) s = .next t ∧ Only writeParts s t ∧
      mread t.uni a 64 = setFld (setFld h 28 4 ((statOf h).rows + (gCmd r.rec'.bytes).rows)) 32 4 ((statOf h).gcount + 1) ∧
      (∀ b, (b < a ∨ a + 64 ≤ b) → mget t.uni b = mget s.uni b) ∧
      ∀ x ∈ (t.core n).running, x.start = r.start → x.done = true ∧ x.count = BitVec.ofNat 32 (gCmd r.rec'.bytes).rows := by
  intro a h htiles hspace hback
  have hlen : (headerWr (gCmd r.rec'.bytes) h).bytes.length = 64 :=
    headerWr_length _ (by rw [show h = mread s.uni a 64 from devRead_backed hspace hback.1]; exact mread_length ..)
  obtain ⟨huni, -, hlands⟩ := applyWrs_backed r.by (s := s) (ws := [headerWr (gCmd r.rec'.bytes) h])
    (fun w hw => by rw [List.mem_singleton.mp hw]; rfl) (fun w hw => by rw [List.mem_singleton.mp hw, hlen]; exact ⟨hspace, hback⟩)
  have hgood : (headerWr (gCmd r.rec'.bytes) h).fault s = none := List.findSome?_eq_none_iff.mp hlands _ (List.mem_singleton_self _)
  have hexec : exec (.gatherHeaderWrite n) s = .next (putRun (applyWrs r.by s [headerWr (gCmd r.rec'.bytes) h]) n
      { r with done := true, count := BitVec.ofNat 32 (gCmd r.rec'.bytes).rows, detail := BitVec.ofNat 32 ((statOf h).gcount + 1) }) := by
    change execGatherHeaderWrite n s = _
    unfold execGatherHeaderWrite
    rw [hrun]
    dsimp only
    rw [if_neg (Nat.not_lt.mpr htiles)]
    unfold headerWr at hgood
    rw [hgood]
    rfl
  obtain ⟨hran, hown, -⟩ := putRun_ran (applyWrs r.by s [headerWr (gCmd r.rec'.bytes) h]) n
    { r with done := true, count := BitVec.ofNat 32 (gCmd r.rec'.bytes).rows, detail := BitVec.ofNat 32 ((statOf h).gcount + 1) }
  have hkeeps := applyWrs_keeps r.by s [headerWr (gCmd r.rec'.bytes) h]
  generalize applyWrs r.by s [headerWr (gCmd r.rec'.bytes) h] = u at hexec hran hown hkeeps huni
  refine ⟨_, hexec, ((hkeeps.mono (by decide)).trans (hran.keeps.mono (by decide))).only, ?_, fun b hb => ?_, fun x hx hs => ?_⟩
  · change mread u.uni a 64 = _
    rw [huni, ← hlen]
    exact mread_mwrite ..
  · change mget u.uni b = _
    rw [huni]
    exact mget_mwrite_out _ _ _ _ (by rw [hlen]; exact hb)
  · rw [hown x hx hs]
    exact ⟨rfl, rfl⟩

/-! ### GATHER at once -/

theorem gather_writesAll {n : Nat} {r : Running} {s : State} (hrun : gatherFree s n = some r) (htiles : r.tiles < gatherTiles s r)
    (hbad : (s.core n).bad = []) (huni : s.uniBad = []) :
    let a := (gCmd r.rec'.bytes).rec'
    let x := gatherStat s (gCmd r.rec'.bytes)
    a + x.size ≤ Config.uniTop → Backed s a x.size →
    ∃ t, exec (.gather n) s = .next t ∧ Only writeParts s t ∧ (∀ b, (b < x.accAt a r.tiles ∨ a + x.size ≤ b) → mget t.uni b = mget s.uni b) ∧
      ∀ y ∈ (t.core n).running, y.start = r.start → y.tiles = x.nt ∧ y.done = false := by
  intro a x htop hback
  have hexec : exec (.gather n) s = .next (gatherAll (2 * gatherTiles s r) s n r).1 := by
    change execGather n s = _
    unfold execGather
    rw [hrun]
  have hstart : Gathering s n r s r :=
    ⟨Keeps.refl _ s, Backing.refl s, huni, hbad, fun _ _ => rfl, rfl, rfl, gatherFree_open hrun, Nat.le_refl _⟩
  obtain ⟨hend, hall, hown⟩ := Gathering.all (lossless_of hback.2) htop hback.1 (2 * gatherTiles s r) s r hstart (Nat.le_of_lt htiles)
    (Nat.le_add_right _ _) (Or.inr htiles)
  refine ⟨_, hexec, (hend.keeps.mono (by decide)).only, hend.mem, fun y hy hs => ?_⟩
  rw [hown y hy hs]
  exact ⟨hall, hend.done⟩

/-- Settles O57: each step by its own effect, and the whole by the invariant `Gathering` of the tiles already written. -/
theorem gatherSteps : Obligations.GatherSteps := by
  refine ⟨?_, fun n s _ => gshareWindow_starts n s, ?_, fun n r s _ hrun => gatherHeader_written hrun, ?_⟩
  · exact fun n m r s _ hrun htile hrow hshare hbad hgood => gatherSlice_counts hrun htile hrow hshare hbad hgood
  · exact fun n cmd r s _ hrun hformed hcmd => gatherTile_written hrun hformed hcmd
  · exact fun n r s _ hrun htiles hbad huni => gather_writesAll hrun htiles hbad huni

end Sys2Proof.Machine
end
